-- ==== Sys2Proof/Word.lean ====
section
/-! DEFINITION. The word types of the KV-900 and the plain data types of its number formats
(01_address_spaces.md R8, R9; 08_number_formats.md R190 to R201). -/

namespace Sys2Proof

/-- A 32-bit lane value, slot word, tag or constant (R162). -/
abbrev Word := BitVec 32

/-- A lane mask m0 to m3, one bit per lane (R162). -/
abbrev LaneMask := BitVec 64

/-- A vector register or a channel head: 64 lanes; a lane beyond the list reads as 0. -/
abbrev Lanes := List Word

/-- The floating-point formats of R190. -/
inductive FloatFmt
  | fp32 | bf16 | fp16 | e4m3 | e5m2 | e2m1
  deriving DecidableEq, Repr

/-- Width of the exponent field (R190). -/
def FloatFmt.expBits : FloatFmt → Nat
  | .fp32 => 8 | .bf16 => 8 | .fp16 => 5 | .e4m3 => 4 | .e5m2 => 5 | .e2m1 => 2

/-- Width of the mantissa field (R190). -/
def FloatFmt.manBits : FloatFmt → Nat
  | .fp32 => 23 | .bf16 => 7 | .fp16 => 10 | .e4m3 => 3 | .e5m2 => 2 | .e2m1 => 1

/-- Exponent bias (R190). -/
def FloatFmt.bias : FloatFmt → Nat
  | .fp32 => 127 | .bf16 => 127 | .fp16 => 15 | .e4m3 => 7 | .e5m2 => 15 | .e2m1 => 1

/-- Whether the format has infinities (R190). -/
def FloatFmt.hasInf : FloatFmt → Bool
  | .fp32 | .bf16 | .fp16 | .e5m2 => true
  | .e4m3 | .e2m1 => false

/-- Whether the format has NaNs (R190). -/
def FloatFmt.hasNan : FloatFmt → Bool
  | .e2m1 => false
  | _ => true

/-- The canonical NaN of a format (R190); E2M1 has none and the value 0 stands for R200's choice. -/
def FloatFmt.canonNan : FloatFmt → Nat
  | .fp32 => 0x7FC00000 | .bf16 => 0x7FC0 | .fp16 => 0x7E00 | .e4m3 => 0x7F | .e5m2 => 0x7E | .e2m1 => 0

/-- Bits of the largest finite magnitude (R190). -/
def FloatFmt.maxFinite : FloatFmt → Nat
  | .fp32 => 0x7F7FFFFF | .bf16 => 0x7F7F | .fp16 => 0x7BFF | .e4m3 => 0x7E | .e5m2 => 0x7B | .e2m1 => 0x7

/-- A decoded floating-point value: NaN (signalling or quiet), infinity, or (-1)^neg * m * 2^e. -/
inductive FVal
  | nan (signalling : Bool)
  | inf (neg : Bool)
  | num (neg : Bool) (m : Nat) (e : Int)
  deriving DecidableEq, Repr

/-- The rounding modes of R201; SR carries the lane's 16-bit random value (R203). -/
inductive RoundMode
  | rne | rz | ru | rd | rna
  | sr (r : Nat)
  deriving DecidableEq, Repr

/-- The destinations of a narrowing and the sources of a widening (R196, R199). -/
inductive ElemFmt
  | flt (f : FloatFmt)
  | int8 | int4
  deriving DecidableEq, Repr

/-- An exact interval end of the conservative box test of R340. -/
inductive End
  | negInf | posInf
  | fin (bits : Word)
  deriving DecidableEq, Repr

end Sys2Proof
end

