-- ==== Sys2Proof/Machine/Bits.lean ====
section
/-! DEFINITION. Bit fields, lanes, masks, sign extension and little-endian bytes (R8, R9, R164, R173). -/

namespace Sys2Proof.Machine

/-- Lane l of a register or channel head; a lane that is not listed reads as 0. -/
def lane (xs : Lanes) (l : Nat) : Word := xs.getD l 0

/-- The 64 lanes of a function of the lane number. -/
def tab (f : Nat → Word) : Lanes := (List.range 64).map f

/-- All 64 lanes equal. -/
def splat (w : Word) : Lanes := tab fun _ => w

/-- Bits [hi:lo] of a number. -/
def bits (n hi lo : Nat) : Nat := n / 2 ^ lo % 2 ^ (hi + 1 - lo)

/-- Bit i of a number. -/
def bit (n i : Nat) : Bool := n / 2 ^ i % 2 == 1

/-- A number whose field [hi:lo] is replaced. -/
def setBits (n hi lo v : Nat) : Nat :=
  n - bits n hi lo * 2 ^ lo + v % 2 ^ (hi + 1 - lo) * 2 ^ lo

/-- The mask of the lanes that satisfy a test. -/
def maskOf (p : Nat → Bool) : LaneMask :=
  BitVec.ofNat 64 ((List.range 64).foldl (fun acc l => if p l then acc + 2 ^ l else acc) 0)

/-- Lane l is in the mask. -/
def inMask (m : LaneMask) (l : Nat) : Bool := m.getLsbD l

/-- The lanes of a mask in ascending order. -/
def lanesOf (m : LaneMask) : List Nat := (List.range 64).filter (inMask m)

/-- The lowest-numbered lane of a mask (R280). -/
def lowest (m : LaneMask) : Option Nat := (lanesOf m).head?

/-- The number of lanes in a mask. -/
def popCount (m : LaneMask) : Nat := (lanesOf m).length

/-- The number of one bits of a number, among its lowest n bits. -/
def countBits (n v : Nat) : Nat := ((List.range n).filter (bit v)).length

/-- The value of the low k bits of n as two's complement. -/
def signed (k n : Nat) : Int :=
  let v := n % 2 ^ k
  if v < 2 ^ (k - 1) then (v : Int) else (v : Int) - (2 ^ k : Nat)

/-- The k-bit two's complement pattern of an integer. -/
def wrapInt (k : Nat) (i : Int) : Nat := (i % (2 ^ k : Nat)).toNat

/-- Little-endian value of a byte list (R9). -/
def leNat : List Nat → Nat
  | [] => 0
  | b :: bs => b % 256 + 256 * leNat bs

/-- The n low bytes of a value, lowest first (R9). -/
def leBytes : Nat → Nat → List Nat
  | 0, _ => []
  | n + 1, v => v % 256 :: leBytes n (v / 256)

/-- A slice of n bytes at offset o of a byte list; bytes beyond the list read 0. -/
def sliceBytes (bs : List Nat) (o n : Nat) : List Nat :=
  let s := (bs.drop o).take n
  s ++ List.replicate (n - s.length) 0

/-- The n-byte little-endian field at offset o of a byte list. -/
def fieldAt (bs : List Nat) (o n : Nat) : Nat := leNat (sliceBytes bs o n)

/-- A byte list with the bytes at offset o replaced. -/
def putBytes (bs : List Nat) (o : Nat) (new : List Nat) : List Nat :=
  bs.take o ++ new ++ bs.drop (o + new.length)

/-- The 32-bit lanes of a byte list, four bytes each. -/
def wordsOfBytes : Nat → List Nat → List Word
  | 0, _ => []
  | n + 1, bs => BitVec.ofNat 32 (leNat (bs.take 4)) :: wordsOfBytes n (bs.drop 4)

/-- The bytes of a list of lanes (R197). -/
def bytesOfWords (ws : List Word) : List Nat := ws.flatMap fun w => leBytes 4 w.toNat

/-- The largest n with n * n ≤ x, by bits from the top: k counts the bits still to try. -/
def isqrtGo (x : Nat) : Nat → Nat → Nat
  | 0, r => r
  | k + 1, r => let r' := r + 2 ^ k; isqrtGo x k (if r' * r' ≤ x then r' else r)

/-- Integer square root. -/
def isqrt (x : Nat) : Nat := isqrtGo x (Nat.log2 x / 2 + 1) 0

/-- The element of a list at an index, replaced by a function of it. -/
def modifyAt {α : Type} (xs : List α) (i : Nat) (f : α → α) : List α := xs.modify i f

/-- The elements of a list that satisfy a test, updated. -/
def updateWhere {α : Type} (p : α → Bool) (f : α → α) (xs : List α) : List α :=
  xs.map fun x => if p x then f x else x

/-- An element put into a sorted list, before the first one that it may precede. -/
def insertBy {α : Type} (le : α → α → Bool) (x : α) : List α → List α
  | [] => [x]
  | y :: ys => if le x y then x :: y :: ys else y :: insertBy le x ys

/-- A list sorted; equals keep their order. -/
def sortBy {α : Type} (le : α → α → Bool) (xs : List α) : List α := xs.foldr (insertBy le) []

/-- Bits of a predicate or channel byte, ascending. -/
def bitsSet (n v : Nat) : List Nat := (List.range n).filter (bit v)

end Sys2Proof.Machine
end

