-- ==== Sys2Proof/Machine/Fp.lean ====
section
/-! DEFINITION. Floating-point values, exact arithmetic and one rounding
(08_number_formats.md R190, R191, R198 to R203; 11_isa_floating_point.md R263 to R279). -/

namespace Sys2Proof.Machine

/-- Flag bits of the fpflags word (R192). -/
def flagNV : Nat := 1
def flagDZ : Nat := 2
def flagOF : Nat := 4
def flagUF : Nat := 8
def flagNX : Nat := 16
def flagNO : Nat := 32

/-- The value of an encoding (R190). -/
def fpDecode (f : FloatFmt) (x : Nat) : FVal :=
  let mb := f.manBits
  let neg := bit x (f.expBits + mb)
  let e := x / 2 ^ mb % 2 ^ f.expBits
  let m := x % 2 ^ mb
  if f.hasInf && e == 2 ^ f.expBits - 1 then
    if m = 0 then .inf neg else .nan (m < 2 ^ (mb - 1))
  else if f == .e4m3 && e == 15 && m == 7 then .nan false
  else if e = 0 then .num neg m (1 - (f.bias : Int) - mb)
  else .num neg (2 ^ mb + m) ((e : Int) - f.bias - mb)

/-- The sign bit in place (R190). -/
def fpSign (f : FloatFmt) (neg : Bool) : Nat := if neg then 2 ^ (f.expBits + f.manBits) else 0

/-- The encoding of an infinity (R190). -/
def fpInf (f : FloatFmt) (neg : Bool) : Nat :=
  fpSign f neg + (2 ^ f.expBits - 1) * 2 ^ f.manBits

/-- 2^k for an integer k, as a numerator and a denominator. -/
def pow2 (k : Int) : Nat × Nat := if k ≥ 0 then (2 ^ k.toNat, 1) else (1, 2 ^ (-k).toNat)

/-- floor(log2(num / den)) for positive num and den. -/
def floorLog2 (num den : Nat) : Int :=
  let k : Int := (Nat.log2 num : Int) - Nat.log2 den
  let (p, q) := pow2 k
  if num * q ≥ den * p then k else k - 1

/-- The magnitude num / den rounded to an integer under a mode (R201, R203), and whether it was inexact. -/
def roundMag (mode : RoundMode) (neg : Bool) (num den : Nat) : Nat × Bool :=
  let n := num / den
  let r := num % den
  let up := match mode with
    | .rne => 2 * r > den || (2 * r == den && n % 2 == 1)
    | .rz => false
    | .ru => !neg && r != 0
    | .rd => neg && r != 0
    | .rna => 2 * r ≥ den
    | .sr x => x < r * 65536 / den
  if r = 0 then (n, false) else (if up then n + 1 else n, true)

/-- num / den * 2^exp rounded to an integer multiple of 2^q. -/
def roundAt (mode : RoundMode) (neg : Bool) (num den : Nat) (exp q : Int) : Nat × Bool :=
  let (p, d) := pow2 (exp - q)
  roundMag mode neg (num * p) (den * d)

/-- The encoding of n * 2^q without its sign, for a value in the format's finite range whose spacing is 2^q. -/
def fpPack (f : FloatFmt) (n : Nat) (q : Int) : Nat :=
  if n < 2 ^ f.manBits then n
  else
    let k := Nat.log2 n
    let m := if k ≥ f.manBits then n / 2 ^ (k - f.manBits) else n * 2 ^ (f.manBits - k)
    ((q + k + f.bias).toNat) * 2 ^ f.manBits + (m - 2 ^ f.manBits)

/-- n * 2^q is above the largest finite magnitude of the format. -/
def aboveMax (f : FloatFmt) (n : Nat) (q : Int) : Bool :=
  match fpDecode f f.maxFinite with
  | .num _ m e => let (p, d) := pow2 (q - e); n * p > m * d
  | _ => false

/-- The spacing exponent of the format at num / den * 2^exp: subnormal spacing below min normal (R200). -/
def spacing (f : FloatFmt) (num den : Nat) (exp : Int) : Int :=
  max (floorLog2 num den + exp - f.manBits) (1 - (f.bias : Int) - f.manBits)

/-- Tininess after rounding (R191): rounded with an unbounded exponent range, below the smallest normal. -/
def tinyAfter (f : FloatFmt) (mode : RoundMode) (neg : Bool) (num den : Nat) (exp : Int) : Bool :=
  let e := floorLog2 num den + exp
  let (n, _) := roundAt mode neg num den exp (e - f.manBits)
  e + (if n ≥ 2 ^ (f.manBits + 1) then 1 else 0) < 1 - (f.bias : Int)

/-- One IEEE rounding of (-1)^neg * num / den * 2^exp into a format, with its flags (R191, R201). -/
def roundFinite (f : FloatFmt) (mode : RoundMode) (neg : Bool) (num den : Nat) (exp : Int) : Nat × Nat :=
  if num = 0 then (fpSign f neg, 0)
  else
    let q := spacing f num den exp
    let (n, inexact) := roundAt mode neg num den exp q
    if aboveMax f n q then
      let toMax := match mode with | .rz => true | .ru => neg | .rd => !neg | _ => false
      (if toMax then fpSign f neg + f.maxFinite else fpInf f neg, flagOF + flagNX)
    else
      (fpSign f neg + fpPack f n q,
        if inexact then flagNX + (if tinyAfter f mode neg num den exp then flagUF else 0) else 0)

/-- A value rounded into a format: NaNs become canonical, a signalling one raises NV (R191). -/
def roundVal (f : FloatFmt) (mode : RoundMode) : FVal → Nat × Nat
  | .nan s => (f.canonNan, if s then flagNV else 0)
  | .inf neg => (fpInf f neg, 0)
  | .num neg m e => roundFinite f mode neg m 1 e

/-- Exact product; infinity times zero is an invalid NaN (R263, R264). -/
def mulVal : FVal → FVal → FVal
  | .nan s, .nan t => .nan (s || t)
  | .nan s, _ => .nan s
  | _, .nan s => .nan s
  | .inf s, .inf t => .inf (s != t)
  | .inf s, .num t m _ => if m = 0 then .nan true else .inf (s != t)
  | .num s m _, .inf t => if m = 0 then .nan true else .inf (s != t)
  | .num s m e, .num t n k => .num (s != t) (m * n) (e + k)

/-- Exact sum; opposite infinities are an invalid NaN, and an exact zero sum of opposite signs is +0 (R191). -/
def addVal : FVal → FVal → FVal
  | .nan s, .nan t => .nan (s || t)
  | .nan s, _ => .nan s
  | _, .nan s => .nan s
  | .inf s, .inf t => if s = t then .inf s else .nan true
  | .inf s, _ => .inf s
  | _, .inf s => .inf s
  | .num s m e, .num t n k =>
      let lo := min e k
      let a := m * 2 ^ (e - lo).toNat
      let b := n * 2 ^ (k - lo).toNat
      if s = t then .num s (a + b) lo
      else if a = b then .num false 0 lo
      else if a > b then .num s (a - b) lo
      else .num t (b - a) lo

/-- A value with its sign inverted. -/
def negVal : FVal → FVal
  | .nan s => .nan s
  | .inf s => .inf (!s)
  | .num s m e => .num (!s) m e

/-- FADD, HADD2: RNE(a + b) (R263, R276). -/
def fpAdd (f : FloatFmt) (a b : Nat) : Nat × Nat :=
  roundVal f .rne (addVal (fpDecode f a) (fpDecode f b))

/-- FSUB: RNE(a - b) (R263). -/
def fpSub (f : FloatFmt) (a b : Nat) : Nat × Nat :=
  roundVal f .rne (addVal (fpDecode f a) (negVal (fpDecode f b)))

/-- FMUL, HMUL2: RNE(a * b) (R263, R276). -/
def fpMul (f : FloatFmt) (a b : Nat) : Nat × Nat :=
  roundVal f .rne (mulVal (fpDecode f a) (fpDecode f b))

/-- FFMA, HFMA2: RNE(a * b + c), one rounding (R264, R276). -/
def fpFma (f : FloatFmt) (a b c : Nat) : Nat × Nat :=
  roundVal f .rne (addVal (mulVal (fpDecode f a) (fpDecode f b)) (fpDecode f c))

/-- FFMS: RNE(a * b - c) (R264). -/
def fpFms (f : FloatFmt) (a b c : Nat) : Nat × Nat :=
  roundVal f .rne (addVal (mulVal (fpDecode f a) (fpDecode f b)) (negVal (fpDecode f c)))

/-- A pure function of FP32 lanes as a lane operation with flags. -/
def onWords1 (g : Nat → Nat × Nat) (a : Word) : Word × Nat :=
  let (r, fl) := g a.toNat; (BitVec.ofNat 32 r, fl)
def onWords2 (g : Nat → Nat → Nat × Nat) (a b : Word) : Word × Nat :=
  let (r, fl) := g a.toNat b.toNat; (BitVec.ofNat 32 r, fl)
def onWords3 (g : Nat → Nat → Nat → Nat × Nat) (a b c : Word) : Word × Nat :=
  let (r, fl) := g a.toNat b.toNat c.toNat; (BitVec.ofNat 32 r, fl)

def fadd32 : Word → Word → Word × Nat := onWords2 (fpAdd .fp32)
def fsub32 : Word → Word → Word × Nat := onWords2 (fpSub .fp32)
def fmul32 : Word → Word → Word × Nat := onWords2 (fpMul .fp32)

def isNan32 (a : Word) : Bool := match fpDecode .fp32 a.toNat with | .nan _ => true | _ => false
def isSnan32 (a : Word) : Bool := match fpDecode .fp32 a.toNat with | .nan s => s | _ => false
def isInf32 (a : Word) : Bool := match fpDecode .fp32 a.toNat with | .inf _ => true | _ => false
def isFinite32 (a : Word) : Bool := match fpDecode .fp32 a.toNat with | .num .. => true | _ => false
def canonNan32 : Word := 0x7FC00000

/-- Position of a non-NaN FP32 value in the order that puts -0 below +0. -/
def ordKey (a : Word) : Int :=
  let mag : Nat := a.toNat % 2 ^ 31
  if bit a.toNat 31 then -1 - (mag : Int) else (mag : Int)

/-- The FP32 value at a position of that order. -/
def ofOrdKey (k : Int) : Word :=
  if k < 0 then BitVec.ofNat 32 (2 ^ 31 + (-1 - k).toNat) else BitVec.ofNat 32 k.toNat

/-- Position with -0 equal to +0. -/
def cmpKey (a : Word) : Int :=
  let mag : Nat := a.toNat % 2 ^ 31
  if bit a.toNat 31 then -(mag : Int) else (mag : Int)

/-- FMIN and FMAX (max := true), and their propagating forms (R265). -/
def fminmax (max propagate : Bool) (a b : Word) : Word × Nat :=
  let fl := if isSnan32 a || isSnan32 b then flagNV else 0
  if isNan32 a || isNan32 b then
    if propagate || (isNan32 a && isNan32 b) then (canonNan32, fl)
    else (if isNan32 a then b else a, fl)
  else (if (ordKey a ≤ ordKey b) != max then a else b, fl)

/-- FCMP.cc (R267): the condition and its NV flag. -/
def fcmpCond (k : Nat) (a b : Word) : Bool × Nat :=
  let un := isNan32 a || isNan32 b
  let snan := isSnan32 a || isSnan32 b
  let x := cmpKey a
  let y := cmpKey b
  let nv := if (if 2 ≤ k ∧ k ≤ 5 then un else snan) then flagNV else 0
  let r := match k with
    | 0 => !un && x == y
    | 1 => un || x != y
    | 2 => !un && x < y
    | 3 => !un && x ≤ y
    | 4 => !un && x > y
    | 5 => !un && x ≥ y
    | 6 => un
    | _ => !un
  (r, nv)

/-- FCLASS: one bit set (R268). -/
def fclassVal (a : Word) : Word :=
  let normal := a.toNat / 2 ^ 23 % 256 != 0
  let i : Nat := match fpDecode .fp32 a.toNat with
    | .nan s => if s then 8 else 9
    | .inf neg => if neg then 0 else 7
    | .num neg m _ =>
        if m = 0 then (if neg then 3 else 4)
        else if normal then (if neg then 1 else 6) else (if neg then 2 else 5)
  BitVec.ofNat 32 (2 ^ i)

/-- The modes of FRND, 0 to 4 (R269). -/
def frndMode (k : Nat) : RoundMode :=
  match k with
  | 0 => .rne
  | 1 => .rz
  | 2 => .ru
  | 3 => .rd
  | _ => .rna

/-- FRND: rounded to an integral FP32 value (R269). -/
def frndVal (k : Nat) (a : Word) : Word × Nat :=
  match fpDecode .fp32 a.toNat with
  | .nan s => (canonNan32, if s then flagNV else 0)
  | .inf _ => (a, 0)
  | .num neg m e =>
      if m = 0 || e ≥ 0 then (a, 0)
      else
        let (n, _) := roundAt (frndMode k) neg m 1 e 0
        (BitVec.ofNat 32 (roundFinite .fp32 .rne neg n 1 0).1, 0)

/-- FCVTI into w bits, signed or unsigned (R270). -/
def fcvtiVal (w : Nat) (u : Bool) (a : Word) : Nat × Nat :=
  let lo : Int := if u then 0 else -(2 ^ (w - 1) : Nat)
  let hi : Int := if u then (2 ^ w : Nat) - 1 else (2 ^ (w - 1) : Nat) - 1
  match fpDecode .fp32 a.toNat with
  | .nan _ => (0, flagNV)
  | .inf neg => (wrapInt w (if neg then lo else hi), flagNV)
  | .num neg m e =>
      let (n, _) := roundAt .rz neg m 1 e 0
      let t : Int := if neg then -(n : Int) else n
      if t > hi then (wrapInt w hi, flagNV)
      else if t < lo then (wrapInt w lo, flagNV)
      else (wrapInt w t, 0)

/-- FCVTF of an integer (R271); a zero gives +0. -/
def fcvtfVal (v : Int) : Word × Nat :=
  let (r, fl) := roundFinite .fp32 .rne (v < 0) v.natAbs 1 0
  (BitVec.ofNat 32 r, fl)

/-- The number of bits of an element (R196). -/
def elemBits : ElemFmt → Nat
  | .flt f => 1 + f.expBits + f.manBits
  | .int8 => 8
  | .int4 => 4

/-- The destinations of the narrowing index (R199). -/
def narrowFmt (k : Nat) : ElemFmt :=
  match k with
  | 0 => .flt .bf16
  | 1 => .flt .fp16
  | 2 => .flt .e4m3
  | 3 => .flt .e5m2
  | 4 => .flt .e2m1
  | 5 => .int8
  | _ => .int4

/-- Format code of the narrowing index (R199). -/
def narrowCode (k : Nat) : Nat := k + 2

/-- The element formats of the block format codes 0x01 to 0x08 (R196). -/
def codeFmt (c : Nat) : Option ElemFmt :=
  match c with
  | 1 => some (.flt .fp32)
  | 2 => some (.flt .bf16)
  | 3 => some (.flt .fp16)
  | 4 => some (.flt .e4m3)
  | 5 => some (.flt .e5m2)
  | 6 => some (.flt .e2m1)
  | 7 => some .int8
  | 8 => some .int4
  | _ => none

/-- The value of an element (R190, R193). -/
def elemVal : ElemFmt → Nat → FVal
  | .flt f, x => fpDecode f x
  | .int8, x => let v := signed 8 x; .num (v < 0) v.natAbs 0
  | .int4, x => let v := signed 4 x; .num (v < 0) v.natAbs 0

/-- Widening to FP32 under scale s (R198). -/
def widen (fmt : ElemFmt) (s x : Nat) : Word × Nat :=
  if s = 255 then (canonNan32, 0)
  else match elemVal fmt x with
    | .nan _ => (canonNan32, 0)
    | .inf neg => (BitVec.ofNat 32 (fpInf .fp32 neg), 0)
    | .num neg m e =>
        let (r, fl) := roundFinite .fp32 .rne neg m 1 (e + s - 127)
        (BitVec.ofNat 32 r, fl)

/-- Narrowing to a float format: encoding, flags, overflowed (R200). -/
def narrowFloat (f : FloatFmt) (s : Nat) (mode : RoundMode) (x : Word) : Nat × Nat × Bool :=
  if s = 255 then (f.canonNan, flagNV, false)
  else match fpDecode .fp32 x.toNat with
    | .nan _ => if f.hasNan then (f.canonNan, 0, false) else (0, flagNV, false)
    | .inf neg => if f.hasInf then (fpInf f neg, 0, false) else (fpSign f neg + f.maxFinite, 0, true)
    | .num neg m e =>
        if m = 0 then (fpSign f neg, 0, false)
        else
          let e' := e + 127 - s
          let q := spacing f m 1 e'
          let (n, inexact) := roundAt mode neg m 1 e' q
          if aboveMax f n q then (fpSign f neg + f.maxFinite, 0, true)
          else
            let tiny := q == 1 - (f.bias : Int) - f.manBits && n < 2 ^ f.manBits
            (fpSign f neg + fpPack f n q, if inexact then flagNX + (if tiny then flagUF else 0) else 0, false)

/-- Narrowing to INT8 or INT4, w bits: encoding, flags, overflowed (R200). -/
def narrowInt (w : Nat) (s : Nat) (mode : RoundMode) (x : Word) : Nat × Nat × Bool :=
  let hi : Int := (2 ^ (w - 1) : Nat) - 1
  let lo : Int := -(2 ^ (w - 1) : Nat)
  if s = 255 then (0, flagNV, false)
  else match fpDecode .fp32 x.toNat with
    | .nan _ => (0, flagNV, false)
    | .inf neg => (wrapInt w (if neg then lo else hi), 0, true)
    | .num neg m e =>
        let (n, inexact) := roundAt mode neg m 1 (e + 127 - s) 0
        let v : Int := if neg then -(n : Int) else n
        if v > hi then (wrapInt w hi, 0, true)
        else if v < lo then (wrapInt w lo, 0, true)
        else (wrapInt w v, if inexact then flagNX else 0, false)

/-- NARROW of R200. -/
def narrow (fmt : ElemFmt) (s : Nat) (mode : RoundMode) (x : Word) : Nat × Nat × Bool :=
  match fmt with
  | .flt f => narrowFloat f s mode x
  | .int8 => narrowInt 8 s mode x
  | .int4 => narrowInt 4 s mode x

/-- The random value of a lane for stochastic rounding (R203). -/
def srRandom (c : Word) (l : Nat) (n : Word) : Nat :=
  let z : Word := c ^^^ (BitVec.ofNat 32 l * 0x9E3779B9#32) ^^^ (n * 0x85EBCA6B#32)
  let z := (z ^^^ (z >>> 16)) * 0x7FEB352D#32
  let z := (z ^^^ (z >>> 15)) * 0x846CA68B#32
  let z := z ^^^ (z >>> 16)
  z.toNat % 65536

/-- Elements packed in the layout of R197, as 64 lanes. -/
def packElems (w : Nat) (es : List Nat) : Lanes :=
  let total := es.foldr (fun e acc => e % 2 ^ w + 2 ^ w * acc) 0
  tab fun l => BitVec.ofNat 32 (total / 2 ^ (32 * l))

/-- Element k of a packed vector of w-bit elements (R197). -/
def elemAt (w : Nat) (a : Lanes) (k : Nat) : Nat :=
  (lane a (k * w / 32)).toNat / 2 ^ (k * w % 32) % 2 ^ w

/-- FGETX (R274). -/
def fgetxVal (a : Word) : Word :=
  match fpDecode .fp32 a.toNat with
  | .nan _ | .inf _ => 0x7FFFFFFF
  | .num _ m e => if m = 0 then 0x80000000 else BitVec.ofInt 32 (floorLog2 m 1 + e)

/-- FGETM (R274). -/
def fgetmVal (a : Word) : Word × Nat :=
  match fpDecode .fp32 a.toNat with
  | .nan s => (canonNan32, if s then flagNV else 0)
  | .inf _ => (a, 0)
  | .num neg m _ =>
      if m = 0 then (a, 0)
      else (BitVec.ofNat 32 (roundFinite .fp32 .rne neg m (2 ^ Nat.log2 m) 0).1, 0)

/-- FSCL: a * 2^n rounded once (R275); beyond 1,000 either way the rounded result no longer changes. -/
def fsclVal (a b : Word) : Word × Nat :=
  let n := max (-1000) (min 1000 b.toInt)
  match fpDecode .fp32 a.toNat with
  | .nan s => (canonNan32, if s then flagNV else 0)
  | .inf _ => (a, 0)
  | .num neg m e =>
      if m = 0 then (a, 0)
      else let (r, fl) := roundFinite .fp32 .rne neg m 1 (e + n); (BitVec.ofNat 32 r, fl)

/-- A packed half operation, both halves of a lane (R276). -/
def onHalves (g : Nat → Nat → Nat → Nat × Nat) (a b c : Word) : Word × Nat :=
  let (lo, f0) := g (a.toNat % 65536) (b.toNat % 65536) (c.toNat % 65536)
  let (hi, f1) := g (a.toNat / 65536) (b.toNat / 65536) (c.toNat / 65536)
  (BitVec.ofNat 32 (lo + 65536 * hi), f0 ||| f1)

/-- The half format of HFMA2, HADD2 and HMUL2 (R276). -/
def halfFmt (fp16 : Bool) : FloatFmt := if fp16 then .fp16 else .bf16

/-- FDOT2 (R206, R277). -/
def fdot2Val (a b c : Word) : Word × Nat :=
  let d := fun (x : Word) (hi : Bool) =>
    fpDecode .bf16 (if hi then x.toNat / 65536 else x.toNat % 65536)
  let (i, f0) := roundVal .fp32 .rne
    (addVal (mulVal (d a false) (d b false)) (mulVal (d a true) (d b true)))
  let (r, f1) := fpAdd .fp32 i c.toNat
  (BitVec.ofNat 32 r, f0 ||| f1)

/-- EMAX of the narrowing index (R278). -/
def emaxOf (k : Nat) : Int :=
  match k with
  | 0 => 127
  | 1 => 15
  | 2 => 8
  | 3 => 15
  | 4 => 2
  | 5 => 6
  | _ => 2

/-- The scale BSCALE chooses for the lanes of a mask (R278). -/
def bscaleVal (a : Lanes) (m : LaneMask) (index : Nat) : Word :=
  let mags := ((lanesOf m).map (lane a)).filter isFinite32 |>.map fun x => x.toNat % 2 ^ 31
  let amax := mags.foldl max 0
  if index = 7 ∨ amax = 0 then 127
  else
    let x := (fgetxVal (BitVec.ofNat 32 amax)).toInt
    BitVec.ofInt 32 (max 0 (min 254 (x - emaxOf index + 127)))

/-- UNPKB (R279). -/
def unpkbVal (a b : Word) : Word :=
  if b.toNat % 2 = 0 then BitVec.ofNat 32 (bits a.toNat 15 8)
  else
    let s := a.toNat % 256
    if s = 255 then canonNan32
    else BitVec.ofNat 32 (roundFinite .fp32 .rne false 1 1 ((s : Int) - 127)).1

/-- PACKB (R279). -/
def packbVal (a b : Word) : Word := BitVec.ofNat 32 (a.toNat % 256 * 256 + b.toNat % 256)

/-- The eight INT4 weights of a CB16 index, packed (R194). -/
def cbDecode (entry flip : Nat) : Word :=
  BitVec.ofNat 32 ((List.range 8).foldl (fun acc k =>
    let mag : Int := entry / 2 ^ (3 * k) % 8
    acc + wrapInt 4 (if bit flip k then -mag else mag) * 2 ^ (4 * k)) 0)

end Sys2Proof.Machine
end

