-- ==== Sys2Proof/Config.lean ====
section
/-! DEFINITION. What the part fixes, and the free values of the model. -/

namespace Sys2Proof.Config

/-- The bits a special function returns among the values its bound permits (R204, R205): the spec fixes
the bound and that the bits are a function of the operand, not the bits. A free value (log 6):
nothing constrains it. `op` is the opcode, `a` the operand. -/
opaque specialPick (op a : Nat) : Nat

/-- A result the spec states no value for (log 6): a free value, a function of what it depends on.
`kind` names the case, `arg` the operands. -/
opaque openValue (kind arg : Nat) : Nat

/-- Number of loom dies (R1). -/
def dies : Nat := 8

/-- Number of selvage slices of a die and of the module (R65, R66). -/
def slicesPerDie : Nat := 48
def slices : Nat := 384

/-- One picosecond in the model's unit of time: 21 × lcm(8, …, 23) units, so that a cycle of every clock code, 16 / (1.05 (8 + g))
ns, is a whole number of units (R10). -/
def ps : Nat := 21 * 5354228880

end Sys2Proof.Config
end

