-- ==== Sys2Proof/Syntax.lean ====
section
/-! DEFINITION. Operands and instructions: one constructor per row of the opcode table
(09_encoding_and_assembly.md R209 to R217; the events of 95_what_each_step_holds.md). -/

namespace Sys2Proof

/-- Registers, masks, predicates, profiles and channels by number (R162, R210). -/
abbrev VReg := Fin 16
abbrev MaskReg := Fin 4
abbrev PredReg := Fin 8
abbrev Profile := Fin 8
abbrev ChanNo := Fin 8
/-- Class P: k names the pair v(2k):v(2k+1) (R211). -/
abbrev Pair := Fin 8

/-- Class S: a register, a channel head or a constant (R210, R211). -/
inductive Src
  | v (r : VReg)
  | ch (n : ChanNo)
  | c (n : Fin 8)
  deriving DecidableEq, Repr

/-- Class Dv: a register, an output channel or `_` (R211); with .w a register is the even one of a pair (Dw). -/
inductive Dst
  | v (r : VReg)
  | o (n : ChanNo)
  | discard
  deriving DecidableEq, Repr

/-- Class Dw: a pair or `_` (R211). -/
inductive PDst
  | pair (k : Pair)
  | discard
  deriving DecidableEq, Repr

/-- A register or `_`: the destinations of the atomics and of HDRAIN (R140, R309). -/
inductive RDst
  | v (r : VReg)
  | discard
  deriving DecidableEq, Repr

/-- Class O: an output channel or `_` (R211). -/
inductive ODst
  | o (n : ChanNo)
  | discard
  deriving DecidableEq, Repr

/-- An agent of the hub's side (R7, R11, R401): a host core, an agent behind the PCIe port, or hub firmware. -/
inductive HostAgent
  | core
  | pcie
  | firmware
  deriving DecidableEq, Repr

/-- A write of such an agent to a register: the value of its bytes, and the agent (R11, R401, R421). -/
structure RegWrite where
  value : Nat
  agent : HostAgent
  deriving DecidableEq, Repr

/-- What such an agent asks for (R98, R139, R145): an atomic by its opcode. -/
inductive HostOp
  | read
  | write
  | atomic (op : Nat)
  deriving DecidableEq, Repr

/-- An access of the hub's side (R98, R145, R401). -/
structure HostReq where
  agent : HostAgent
  op : HostOp
  addr : Nat
  size : Nat
  value : Nat
  comparand : Nat
  deriving DecidableEq, Repr

/-- What another module asks for at a home slice (R404): plain and described loads and stores, an atomic by its opcode (R139), the lock
requests and releases of an MWCAS (R151, R154), WAITA and WAKE (R158, R159), the future forms (R291) and an arrival (R292); or its port
joins a collective, with its block and its source bytes (R406). -/
inductive RemoteOp
  | load
  | store
  | ldx
  | stx
  | atomic (op : Nat)
  | lock (elder : Bool)
  | unlock
  | waita
  | wake
  | freg
  | fres
  | arrive
  | join (die port : Nat) (block src : List Nat)
  deriving DecidableEq, Repr

/-- A request of another module that arrives at a UALink port (R404): the requester's number (R145) and its context, the time of the
firing, by which elders queue (R154), and the operands. -/
structure RemoteReq where
  op : RemoteOp
  requester : Nat
  ctx : Nat
  fired : Nat
  addr : Nat
  size : Nat
  value : Nat
  comparand : Nat
  desc : Nat
  deriving DecidableEq, Repr

/-- A launch packet of Ultra Ethernet (R367, R407): the block, where hub firmware copies it, and the queue. -/
structure UePacket where
  wellFormed : Bool
  queue : Nat
  addr : Nat
  block : List Nat
  deriving DecidableEq, Repr

/-- What the management controller asks for (R403). -/
inductive MgmtReq
  | powerCap (watts : Nat)
  | telemetry (pa : Nat)
  | firmwareUpdate
  deriving DecidableEq, Repr

/-- The fused sites of one loom die (R78): site numbers 16 * row + column. -/
structure DieFuses where
  disabled : List Nat
  resident : List Nat
  deriving DecidableEq, Repr

/-- A resident graph's cell as hub firmware loads it: global logical number and draft image (R408, R19). -/
structure ResidentCell where
  cell : Nat
  image : List Nat
  deriving DecidableEq, Repr

/-- What hub firmware brings to a bring-up (R408): the part's own grade code (R2), the management controller's configuration, the fuses,
the resident space and the resident graphs. -/
structure Firmware where
  grade : Nat
  modnum : Nat
  dommask : Nat
  domgrade : List Nat
  allow : Nat
  residentL4 : Nat
  enumPa : Nat
  imageBase : Nat
  lanes : List Nat
  ports : List Nat
  fuses : List DieFuses
  powerTables : List (List Nat)
  mem : List Host.Cell
  residents : List ResidentCell
  deriving DecidableEq, Repr

/-- The instructions and events of the opcode table, one constructor per row. In an instruction word `t` is
TRG, the trigger entry that names the conditions and effects of the firing (R209). -/
inductive Instr
  /-- NOP (R231). Does nothing except apply the firing's trigger effects. -/
  | nop (t : Fin 64)
  /-- MOV (R231). Copies source A to the destination lane by lane, or pairwise under .w. -/
  | mov (t : Fin 64) (d : Dst) (a : Src) (w : Bool)
  /-- MOVI (R231). Writes a sign-extended 14-bit immediate to the destination. -/
  | movi (t : Fin 64) (d : Dst) (i : BitVec 14)
  /-- IADD (R232). Adds a and b modulo 2^w. -/
  | iadd (t : Fin 64) (d : Dst) (a : Src) (b : Src) (w : Bool)
  /-- ISUB (R232). Subtracts b from a modulo 2^w. -/
  | isub (t : Fin 64) (d : Dst) (a : Src) (b : Src) (w : Bool)
  /-- IADDI (R232). Adds a sign-extended 9-bit immediate to a. -/
  | iaddi (t : Fin 64) (d : Dst) (a : Src) (i : BitVec 9)
  /-- IMUL_LO (R232). Writes the low w bits of a times b. -/
  | imulLo (t : Fin 64) (d : Dst) (a : Src) (b : Src) (w : Bool)
  /-- IMUL_HI (R232). Writes the high w bits of the signed 2w-bit product. -/
  | imulHi (t : Fin 64) (d : Dst) (a : Src) (b : Src) (w : Bool)
  /-- IMUL_HIN (R232). Writes the high w bits of the unsigned 2w-bit product. -/
  | imulHin (t : Fin 64) (d : Dst) (a : Src) (b : Src) (w : Bool)
  /-- IMAD (R232). Writes the low 32 bits of a times b plus c. -/
  | imad (t : Fin 64) (d : Dst) (a : Src) (b : Src) (c : VReg)
  /-- IMIN (R233). Writes the signed minimum of a and b. -/
  | imin (t : Fin 64) (d : Dst) (a : Src) (b : Src) (w : Bool)
  /-- IMAX (R233). Writes the signed maximum of a and b. -/
  | imax (t : Fin 64) (d : Dst) (a : Src) (b : Src) (w : Bool)
  /-- UMIN (R233). Writes the unsigned minimum of a and b. -/
  | umin (t : Fin 64) (d : Dst) (a : Src) (b : Src) (w : Bool)
  /-- UMAX (R233). Writes the unsigned maximum of a and b. -/
  | umax (t : Fin 64) (d : Dst) (a : Src) (b : Src) (w : Bool)
  /-- IABS (R233). Writes the absolute value of a modulo 2^w. -/
  | iabs (t : Fin 64) (d : Dst) (a : Src) (w : Bool)
  /-- AND (R235). Writes a AND b. -/
  | band (t : Fin 64) (d : Dst) (a : Src) (b : Src) (w : Bool)
  /-- OR (R235). Writes a OR b. -/
  | bor (t : Fin 64) (d : Dst) (a : Src) (b : Src) (w : Bool)
  /-- XOR (R235). Writes a XOR b. -/
  | bxor (t : Fin 64) (d : Dst) (a : Src) (b : Src) (w : Bool)
  /-- ANDN (R235). Writes a AND NOT b. -/
  | bandn (t : Fin 64) (d : Dst) (a : Src) (b : Src) (w : Bool)
  /-- NOT (R235). Writes NOT a. -/
  | bnot (t : Fin 64) (d : Dst) (a : Src) (w : Bool)
  /-- SHL (R236). Shifts a left by a register amount, filling with zeros. -/
  | shl (t : Fin 64) (d : Dst) (a : Src) (b : Src) (w : Bool)
  /-- SHR (R236). Shifts a right logically by a register amount. -/
  | shr (t : Fin 64) (d : Dst) (a : Src) (b : Src) (w : Bool)
  /-- SAR (R236). Shifts a right arithmetically by a register amount. -/
  | sar (t : Fin 64) (d : Dst) (a : Src) (b : Src) (w : Bool)
  /-- ROL (R236). Rotates a left by a register amount. -/
  | rol (t : Fin 64) (d : Dst) (a : Src) (b : Src) (w : Bool)
  /-- SHLI (R236). Shifts a left by an immediate amount. -/
  | shli (t : Fin 64) (d : Dst) (a : Src) (w : Bool) (n : Fin 64)
  /-- SHRI (R236). Shifts a right logically by an immediate amount. -/
  | shri (t : Fin 64) (d : Dst) (a : Src) (w : Bool) (n : Fin 64)
  /-- SARI (R236). Shifts a right arithmetically by an immediate amount. -/
  | sari (t : Fin 64) (d : Dst) (a : Src) (w : Bool) (n : Fin 64)
  /-- ROLI (R236). Rotates a left by an immediate amount. -/
  | roli (t : Fin 64) (d : Dst) (a : Src) (w : Bool) (n : Fin 64)
  /-- BFX (R237). Extracts a bit field of a, zero- or sign-extended. -/
  | bfx (t : Fin 64) (d : Dst) (a : Src) (b : Src) (w : Bool) (sx : Bool)
  /-- BFI (R237). Inserts the low bits of a into a field of c. -/
  | bfi (t : Fin 64) (d : Dst) (a : Src) (b : Src) (c : VReg)
  /-- CLZ (R238). Counts the leading zero bits of a. -/
  | clz (t : Fin 64) (d : Dst) (a : Src) (w : Bool)
  /-- POPC (R238). Counts the one bits of a. -/
  | popc (t : Fin 64) (d : Dst) (a : Src) (w : Bool)
  /-- BREV (R238). Reverses the bits of a. -/
  | brev (t : Fin 64) (d : Dst) (a : Src) (w : Bool)
  /-- ICMP (R239). Compares a and b signed and writes the whole mask destination. -/
  | icmp (t : Fin 64) (d : MaskReg) (a : Src) (b : Src) (k : Fin 8)
  /-- UCMP (R239). Compares a and b unsigned and writes the whole mask destination. -/
  | ucmp (t : Fin 64) (d : MaskReg) (a : Src) (b : Src) (k : Fin 8)
  /-- SEL (R240). Selects a where the named mask bit is set, else b. -/
  | sel (t : Fin 64) (d : Dst) (a : Src) (b : Src) (m : MaskReg)
  /-- IDIV (R234). Writes the signed quotient of a and b, with defined zero-divisor results. -/
  | idiv (t : Fin 64) (d : Dst) (a : Src) (b : Src) (w : Bool)
  /-- UDIV (R234). Writes the unsigned quotient of a and b. -/
  | udiv (t : Fin 64) (d : Dst) (a : Src) (b : Src) (w : Bool)
  /-- IREM (R234). Writes the signed remainder of a and b. -/
  | irem (t : Fin 64) (d : Dst) (a : Src) (b : Src) (w : Bool)
  /-- UREM (R234). Writes the unsigned remainder of a and b. -/
  | urem (t : Fin 64) (d : Dst) (a : Src) (b : Src) (w : Bool)
  /-- ICLAMP (R233). Writes the signed clamp of a between b and c. -/
  | iclamp (t : Fin 64) (d : Dst) (a : Src) (b : Src) (c : Fin 8)
  /-- UCLAMP (R233). Writes the unsigned clamp of a between b and c. -/
  | uclamp (t : Fin 64) (d : Dst) (a : Src) (b : Src) (c : Fin 8)
  /-- LBCAST (R241). Broadcasts lane n of a to every lane of m0. -/
  | lbcast (t : Fin 64) (d : Dst) (a : Src) (n : Fin 64)
  /-- LSHFL (R241). Writes each lane from the lane of a that b names. -/
  | lshfl (t : Fin 64) (d : Dst) (a : Src) (b : Src)
  /-- LROT (R241). Rotates lane values of a by a signed immediate. -/
  | lrot (t : Fin 64) (d : Dst) (a : Src) (i : BitVec 9)
  /-- LRED (R242). Reduces the lanes of m0 by the selected operation in a fixed tree order. -/
  | lred (t : Fin 64) (d : Dst) (a : Src) (f : Fin 16)
  /-- LSCAN (R243). Forms an inclusive ascending integer or floating-point scan over the lanes. -/
  | lscan (t : Fin 64) (d : Dst) (a : Src) (f : Bool)
  /-- LCOMP (R244). Packs the lanes of a selected by a mask toward lane 0. -/
  | lcomp (t : Fin 64) (d : Dst) (a : Src) (b : MaskReg)
  /-- MAND (R245). Writes the AND of two masks. -/
  | mand (t : Fin 64) (d : MaskReg) (a : MaskReg) (b : MaskReg)
  /-- MOR (R245). Writes the OR of two masks. -/
  | mor (t : Fin 64) (d : MaskReg) (a : MaskReg) (b : MaskReg)
  /-- MXOR (R245). Writes the XOR of two masks. -/
  | mxor (t : Fin 64) (d : MaskReg) (a : MaskReg) (b : MaskReg)
  /-- MANDN (R245). Writes mA AND NOT mB. -/
  | mandn (t : Fin 64) (d : MaskReg) (a : MaskReg) (b : MaskReg)
  /-- MNOT (R245). Writes the complement of a mask. -/
  | mnot (t : Fin 64) (d : MaskReg) (a : MaskReg)
  /-- MMOV (R245). Copies a mask. -/
  | mmov (t : Fin 64) (d : MaskReg) (a : MaskReg)
  /-- MPOP (R246). Writes the number of set bits of a whole mask. -/
  | mpop (t : Fin 64) (d : Dst) (a : MaskReg)
  /-- MANY (R246). Sets a predicate when a mask is nonzero. -/
  | many (t : Fin 64) (d : PredReg) (a : MaskReg)
  /-- MALL (R246). Sets a predicate when a mask is all ones. -/
  | mall (t : Fin 64) (d : PredReg) (a : MaskReg)
  /-- MNONE (R246). Sets a predicate when a mask is zero. -/
  | mnone (t : Fin 64) (d : PredReg) (a : MaskReg)
  /-- MFROM (R247). Loads a mask from lane 0 of a register pair. -/
  | mfrom (t : Fin 64) (d : MaskReg) (a : Pair)
  /-- MTO (R247). Writes a mask into a register pair. -/
  | mto (t : Fin 64) (d : PDst) (a : MaskReg)
  /-- MSETI (R248). Writes a mask from an immediate pattern. -/
  | mseti (t : Fin 64) (d : MaskReg) (i : BitVec 9)
  /-- SENDT (R249). Sends one token with a program-chosen tag on an output channel. -/
  | sendt (t : Fin 64) (o : ChanNo) (a : Src) (b : Src)
  /-- TAGR (R250). Reads the tag of a channel head without popping it. -/
  | tagr (t : Fin 64) (d : VReg) (n : ChanNo)
  /-- CENS (R251). Adds a signed immediate to the region's census. -/
  | cens (t : Fin 64) (i : BitVec 9)
  /-- SYSR (R252). Reads a system register into the destination. -/
  | sysr (t : Fin 64) (d : Dst) (i : BitVec 9)
  /-- SYSW (R252). Writes a system register from the lowest lane of m0. -/
  | sysw (t : Fin 64) (a : Src) (i : BitVec 9)
  /-- TRAP (R255). Pushes a TRAP fault record and holds its own context. -/
  | trap (t : Fin 64) (i : BitVec 14)
  /-- BRK (R255). Pushes a BRK fault record and holds all four contexts of its element. -/
  | brk (t : Fin 64) (i : BitVec 14)
  /-- TLAUNCH (R256). Checks a launch block address and adds it to the graph's tail list. -/
  | tlaunch (t : Fin 64) (a : Pair)
  /-- DRAFTLD (R257). Reads draft images and sends them to target cells' shadow stores for validation. -/
  | draftld (t : Fin 64) (a : Pair) (b : Src) (p : Profile)
  /-- DRAFTSW (R258). Holds until the swregion's configuration period, then commits its shadow stores. -/
  | draftsw (t : Fin 64)
  /-- CTXIMG_SAVEF (R259). Stops the named region by pre-emption and writes a full context image. -/
  | ctximgSavef (t : Fin 64) (a : Pair) (b : Src)
  /-- CTXIMG_SAVED (R259). Stops the named region and writes a delta image of dirty rows. -/
  | ctximgSaved (t : Fin 64) (a : Pair) (b : Src)
  /-- CTXIMG_REST (R386). Restores an image chain into the named placed region. -/
  | ctximgRest (t : Fin 64) (a : Pair) (b : Src)
  /-- TLBINV_PG (R260). Starts removal of translations of one page of an ASID module-wide. -/
  | tlbinvPg (t : Fin 64) (a : Pair) (b : Src) (p : Profile)
  /-- TLBINV_AS (R260). Starts removal of every translation of one ASID. -/
  | tlbinvAs (t : Fin 64) (a : Pair) (b : Src) (p : Profile)
  /-- TLBINV_ALL (R260). Starts removal of every translation except ASID 0. -/
  | tlbinvAll (t : Fin 64) (a : Pair) (b : Src) (p : Profile)
  /-- FADD (R263). Adds FP32 lanes with RNE. -/
  | fadd (t : Fin 64) (d : Dst) (a : Src) (b : Src)
  /-- FSUB (R263). Subtracts FP32 lanes with RNE. -/
  | fsub (t : Fin 64) (d : Dst) (a : Src) (b : Src)
  /-- FMUL (R263). Multiplies FP32 lanes with RNE. -/
  | fmul (t : Fin 64) (d : Dst) (a : Src) (b : Src)
  /-- FFMA (R264). Fused multiply-add with one rounding. -/
  | ffma (t : Fin 64) (d : Dst) (a : Src) (b : Src) (c : VReg)
  /-- FFMS (R264). Fused multiply-subtract with one rounding. -/
  | ffms (t : Fin 64) (d : Dst) (a : Src) (b : Src) (c : VReg)
  /-- FMIN (R265). FP minimum returning the non-NaN operand. -/
  | fmin (t : Fin 64) (d : Dst) (a : Src) (b : Src)
  /-- FMAX (R265). FP maximum returning the non-NaN operand. -/
  | fmax (t : Fin 64) (d : Dst) (a : Src) (b : Src)
  /-- FMINP (R265). FP minimum propagating NaN. -/
  | fminp (t : Fin 64) (d : Dst) (a : Src) (b : Src)
  /-- FMAXP (R265). FP maximum propagating NaN. -/
  | fmaxp (t : Fin 64) (d : Dst) (a : Src) (b : Src)
  /-- FABS (R266). Clears the sign bit. -/
  | fabs (t : Fin 64) (d : Dst) (a : Src)
  /-- FNEG (R266). Inverts the sign bit. -/
  | fneg (t : Fin 64) (d : Dst) (a : Src)
  /-- FCPYS (R266). Copies the sign of b onto a. -/
  | fcpys (t : Fin 64) (d : Dst) (a : Src) (b : Src)
  /-- FCMP (R267). FP compare writing the whole mask destination. -/
  | fcmp (t : Fin 64) (d : MaskReg) (a : Src) (b : Src) (k : Fin 8)
  /-- FCLASS (R268). Writes a one-hot class code of a. -/
  | fclass (t : Fin 64) (d : Dst) (a : Src)
  /-- FRND (R269). Rounds a to an integral FP32 value in the named mode. -/
  | frnd (t : Fin 64) (d : Dst) (a : Src) (k : Fin 8)
  /-- FCVTI (R270). Converts FP32 to a truncated, saturated integer. -/
  | fcvti (t : Fin 64) (d : Dst) (a : Src) (w : Bool) (u : Bool)
  /-- FCVTF (R271). Converts an integer to FP32 with RNE. -/
  | fcvtf (t : Fin 64) (d : Dst) (a : Src) (w : Bool) (u : Bool)
  /-- FCVT (R272). Narrows FP32 lanes to a packed format, sending an overflow token if any lane overflows. -/
  | fcvt (t : Fin 64) (d : Dst) (a : Src) (b : ODst) (sr : Bool) (k : Fin 8)
  /-- FUNP (R273). Widens packed elements to FP32 under the c6 scale. -/
  | funp (t : Fin 64) (d : Dst) (a : Src) (h : Bool) (k : Fin 8)
  /-- FX2F (R274). Computes 2 to the fractional part of a. -/
  | fx2f (t : Fin 64) (d : Dst) (a : Src)
  /-- FLG2F (R274). Computes log2 of the significand of a. -/
  | flg2f (t : Fin 64) (d : Dst) (a : Src)
  /-- FEXP2 (R274). Computes 2^a. -/
  | fexp2 (t : Fin 64) (d : Dst) (a : Src)
  /-- FLOG2 (R274). Computes log2 a. -/
  | flog2 (t : Fin 64) (d : Dst) (a : Src)
  /-- FRCP (R274). Computes 1/a. -/
  | frcp (t : Fin 64) (d : Dst) (a : Src)
  /-- FRSQ (R274). Computes 1/sqrt(a). -/
  | frsq (t : Fin 64) (d : Dst) (a : Src)
  /-- FSQRT (R274). Computes the correctly rounded square root. -/
  | fsqrt (t : Fin 64) (d : Dst) (a : Src)
  /-- FSCL (R275). Multiplies a by 2^b with one rounding. -/
  | fscl (t : Fin 64) (d : Dst) (a : Src) (b : Src)
  /-- FGETX (R274). Writes the unbiased exponent of a as an integer. -/
  | fgetx (t : Fin 64) (d : Dst) (a : Src)
  /-- FGETM (R274). Writes the significand of a scaled to [1,2). -/
  | fgetm (t : Fin 64) (d : Dst) (a : Src)
  /-- FSINP (R274). Computes sin(pi a). -/
  | fsinp (t : Fin 64) (d : Dst) (a : Src)
  /-- FCOSP (R274). Computes cos(pi a). -/
  | fcosp (t : Fin 64) (d : Dst) (a : Src)
  /-- HFMA2 (R276). Packed BF16 or FP16 fused multiply-add on both halves. -/
  | hfma2 (t : Fin 64) (d : Dst) (a : Src) (b : Src) (h : Bool) (c : Fin 8)
  /-- HADD2 (R276). Packed half-precision add on both halves. -/
  | hadd2 (t : Fin 64) (d : Dst) (a : Src) (b : Src) (h : Bool)
  /-- HMUL2 (R276). Packed half-precision multiply on both halves. -/
  | hmul2 (t : Fin 64) (d : Dst) (a : Src) (b : Src) (h : Bool)
  /-- FDOT2 (R277). BF16 pair dot product accumulated into FP32. -/
  | fdot2 (t : Fin 64) (d : Dst) (a : Src) (b : Src) (c : VReg)
  /-- BSCALE (R278). Chooses the E8M0 scale fitting the m0 lanes to a narrow format. -/
  | bscale (t : Fin 64) (d : Dst) (a : Src) (b : Src)
  /-- PACKB (R279). Builds a 16-bit block descriptor from format and scale codes. -/
  | packb (t : Fin 64) (d : Dst) (a : Src) (b : Src)
  /-- UNPKB (R279). Reads the format code or scale factor of a descriptor. -/
  | unpkb (t : Fin 64) (d : Dst) (a : Src) (b : Src)
  /-- LD (R283). Gather-loads 4 or 8 bytes per lane, or prefetches when D is the discard. -/
  | ld (t : Fin 64) (d : Dst) (a : Pair) (b : Src) (p : Profile) (w : Bool)
  /-- LDB8 (R283). Gather-loads one byte per lane, zero-extended. -/
  | ldb8 (t : Fin 64) (d : Dst) (a : Pair) (b : Src) (p : Profile)
  /-- LDH16 (R283). Gather-loads two bytes per lane, zero-extended. -/
  | ldh16 (t : Fin 64) (d : Dst) (a : Pair) (b : Src) (p : Profile)
  /-- LDC (R283). Loads a contiguous range from the base address. -/
  | ldc (t : Fin 64) (d : Dst) (a : Pair) (b : Src) (p : Profile) (w : Bool)
  /-- LDX (R286). Loads up to four described blocks with their descriptors. -/
  | ldx (t : Fin 64) (d : PDst) (a : Pair) (b : Src) (p : Profile)
  /-- LDS (R288). Loads from the cell's own scratchpad. -/
  | lds (t : Fin 64) (d : Dst) (a : Src) (b : Src) (p : Profile) (w : Bool)
  /-- ST (R285). Scatter-stores 4 or 8 bytes per lane, logging loggable faulting pages. -/
  | st (t : Fin 64) (d : Src) (a : Pair) (b : Src) (p : Profile) (w : Bool)
  /-- STB8 (R285). Scatter-stores one byte per lane. -/
  | stb8 (t : Fin 64) (d : Src) (a : Pair) (b : Src) (p : Profile)
  /-- STH16 (R285). Scatter-stores two bytes per lane. -/
  | sth16 (t : Fin 64) (d : Src) (a : Pair) (b : Src) (p : Profile)
  /-- STC (R285). Stores a contiguous range at the base address. -/
  | stc (t : Fin 64) (d : Src) (a : Pair) (b : Src) (p : Profile) (w : Bool)
  /-- STX (R287). Writes selected described blocks whole with their descriptors. -/
  | stx (t : Fin 64) (d : Pair) (a : Pair) (b : Src) (p : Profile)
  /-- STS (R288). Stores to the cell's own scratchpad. -/
  | sts (t : Fin 64) (d : Src) (a : Src) (b : Src) (p : Profile) (w : Bool)
  /-- AADD (R141). Atomic add at the home slice, or a reduction with discard destination. -/
  | aadd (t : Fin 64) (d : RDst) (a : Pair) (b : Src) (p : Profile) (w : Bool)
  /-- AMIN (R141). Atomic signed minimum at home. -/
  | amin (t : Fin 64) (d : RDst) (a : Pair) (b : Src) (p : Profile) (w : Bool)
  /-- AMAX (R141). Atomic signed maximum at home. -/
  | amax (t : Fin 64) (d : RDst) (a : Pair) (b : Src) (p : Profile) (w : Bool)
  /-- AAND (R141). Atomic AND at home. -/
  | aand (t : Fin 64) (d : RDst) (a : Pair) (b : Src) (p : Profile) (w : Bool)
  /-- AOR (R141). Atomic OR at home. -/
  | aor (t : Fin 64) (d : RDst) (a : Pair) (b : Src) (p : Profile) (w : Bool)
  /-- AXOR (R141). Atomic XOR at home. -/
  | axor (t : Fin 64) (d : RDst) (a : Pair) (b : Src) (p : Profile) (w : Bool)
  /-- AXCH (R141). Atomic exchange at home. -/
  | axch (t : Fin 64) (d : RDst) (a : Pair) (b : Src) (p : Profile) (w : Bool)
  /-- ACAS (R141). Atomic compare-and-swap at home against the comparand in D. -/
  | acas (t : Fin 64) (d : RDst) (a : Pair) (b : Src) (p : Profile) (w : Bool)
  /-- AFADD (R142). Atomic FP32 add at home. -/
  | afadd (t : Fin 64) (d : RDst) (a : Pair) (b : Src) (p : Profile) (w : Bool)
  /-- MWCAS (R151). Reads and validates a parameter block and starts a multi-word compare-and-swap. -/
  | mwcas (t : Fin 64) (d : PDst) (a : Pair) (q : PredReg) (p : Profile)
  /-- FENCE (R121). Orders later after-set accesses behind earlier before-set accesses at the profile's scope. -/
  | fence (t : Fin 64) (bef : Fin 16) (aft : Fin 16) (p : Profile)
  /-- WAITA (R158). Reads a word at home and sleeps the context while it equals the comparand. -/
  | waita (t : Fin 64) (d : RDst) (a : Pair) (b : Src) (p : Profile) (w : Bool)
  /-- WAKE (R159). Wakes up to a count of waiters on a word. -/
  | wake (t : Fin 64) (a : Pair) (b : Src) (p : Profile)
  /-- WBR (R102). Writes back dirty bytes of the cell's L1 copies in a range. -/
  | wbr (t : Fin 64) (a : Pair) (b : Src) (p : Profile)
  /-- INVR (R102). Writes back as required and drops the cell's L1 copies in a range. -/
  | invr (t : Fin 64) (a : Pair) (b : Src) (p : Profile) (w : Bool)
  /-- FREG (R291). Registers futures with a join record, arriving at once for resolved futures. -/
  | freg (t : Fin 64) (a : Pair) (b : Src) (p : Profile)
  /-- FRES (R291). Resolves futures, arriving at the join record of registered ones. -/
  | fres (t : Fin 64) (a : Pair) (b : Src) (p : Profile)
  /-- SHCPY (R294). Checks a command block address and queues a shuttle copy. -/
  | shcpy (t : Fin 64) (a : Pair) (b : Src) (p : Profile)
  /-- SHTILE (R294). Checks a command block address and queues a strided shuttle copy. -/
  | shtile (t : Fin 64) (a : Pair) (b : Src) (p : Profile)
  /-- SHMCAST (R294). Checks a command block address and queues a scratchpad multicast. -/
  | shmcast (t : Fin 64) (a : Pair) (b : Src) (p : Profile)
  /-- SHSTRM (R302). Checks a stream descriptor address and issues a stream open to its home slice. -/
  | shstrm (t : Fin 64) (a : Pair) (p : Profile)
  /-- SHCLOSE (R302). Closes the launch's stream opened from a descriptor address. -/
  | shclose (t : Fin 64) (a : Pair) (p : Profile)
  /-- HPREP (R314). Checks and enters a command that quantises activations or weights into scratchpad. -/
  | hprep (t : Fin 64) (a : Src) (b : Src)
  /-- HWLOAD (R315). Checks and enters a command that loads a weight image into the weight store. -/
  | hwload (t : Fin 64) (a : Src) (b : Src)
  /-- HMMA (R316). Checks and enters a matrix multiply command into the heddle queue. -/
  | hmma (t : Fin 64) (a : Src) (b : Src)
  /-- HWAIT (R311). Clears a predicate and arms a slot watch that sets it on release. -/
  | hwait (t : Fin 64) (d : PredReg) (a : Src)
  /-- HDRAIN (R318). Checks and enters a command that reads results from an ACC tile. -/
  | hdrain (t : Fin 64) (d : RDst) (a : Src) (b : Src)
  /-- HZERO (R317). Checks and enters a command that zeroes an ACC tile. -/
  | hzero (t : Fin 64) (a : Src) (b : Src)
  /-- CBDEC (R320). Decodes CB16 indices through the codebook into INT4 weights. -/
  | cbdec (t : Fin 64) (d : Dst) (a : Src)
  /-- HCBLOAD (R319). Checks and enters a command that loads codebook entries from memory. -/
  | hcbload (t : Fin 64) (a : Src) (b : Src)
  /-- BINB (R327). Writes the screen tiles a bounding box meets. -/
  | binb (t : Fin 64) (d : Dst) (a : Src) (b : Src)
  /-- EDGE (R328). Rasterises a triangle over a raster block into fine and anchor masks. -/
  | edge (t : Fin 64) (d : MaskReg) (a : Src) (b : Src) (k : Fin 4)
  /-- BARY (R330). Computes a perspective-correct barycentric per lane. -/
  | bary (t : Fin 64) (d : Dst) (a : Src) (b : Src)
  /-- TEXB (R332). Computes the byte offset of a texel in a block-tiled texture. -/
  | texb (t : Fin 64) (d : Dst) (a : Src) (b : Src)
  /-- TNODE (R339). Issues one traversal step of interior-node lanes, reading the node. -/
  | tnode (t : Fin 64) (b : Src)
  /-- RSPUSH (R338). Pushes a reference onto each lane's ray stack. -/
  | rspush (t : Fin 64) (a : Src)
  /-- RSPOP (R338). Pops each lane's ray stack into v8, restarting or finishing when empty. -/
  | rspop (t : Fin 64) (a : Src)
  /-- TISECT (R341). Issues the watertight test of a whole leaf for leaf lanes. -/
  | tisect (t : Fin 64) (b : Src)
  /-- RAYOUT (R343). Requests 16 further reservations to send the m0 lanes as a ray packet. -/
  | rayout (t : Fin 64) (o : ChanNo)
  /-- RAYIN (R345). Begins merging the ray packet at the head of a channel into free lanes. -/
  | rayin (t : Fin 64) (n : ChanNo)
  /-- BLND (R348). Applies or holds a raster token against a tile state in sequence order. -/
  | blnd (t : Fin 64) (d : Dst) (n : ChanNo) (b : Src) (k : Fin 8)
  /-- ZCMP (R331). Depth test writing a whole mask. -/
  | zcmp (t : Fin 64) (d : MaskReg) (a : Src) (b : Src)
  /-- SIDE_LOG_REPLAY (R47), an event. The memory unit re-walks a logged page and performs its entries in append order, or pushes a new logged record. -/
  | sideLogReplay (cell : Nat) (page : Nat)
  /-- PAGE_WALK (R36), an event. A walker reads the tables for a TLB miss and installs an entry or reports a fault. -/
  | pageWalk (id : Nat)
  /-- MIG_LEAF_WRITTEN (R43), an event. A watched MIG leaf line is written and held accesses re-walk. -/
  | migLeafWritten (line : Nat)
  /-- LOAD_BIND (R282), an event. A load's lanes bind and its destination registers are written in one step. -/
  | loadBind (id : Nat)
  /-- ACCESS_COMPLETION (R115), an event. An access is performed at its profile scope and its completion arc is set at cycle end. -/
  | accessCompletion (id : Nat)
  /-- TLBINV_COMPLETE (R39), an event. Every removed translation is gone and in-flight users are performed, so the arc is set. -/
  | tlbinvComplete (id : Nat)
  /-- MEMORY_TIMEOUT (R48), an event. A memory request unanswered for 2 ms raises a memory-timeout fault. -/
  | memoryTimeout (id : Nat)
  /-- HOME_SLICE_REQUEST (R96), an event. The home slice serves a coherent request through its directory, recalling conflicting copies. -/
  | homeSliceRequest (id : Nat) (part : Nat)
  /-- RECALL_RESPONSE (R96), an event. A copy holder answers a recall, its dirty bytes merge and the waiting grant is made. -/
  | recallResponse (line : Nat) (holder : Nat)
  /-- OWNERSHIP_HOLD_EXPIRY (R93), an event. The 64-cycle minimum M hold ends and waiting stores at home may proceed. -/
  | ownershipHoldExpiry (cell : Nat) (line : Nat)
  /-- HOST_ACCESS (R98), an event. A host core or PCIe agent access reaches the home slice through the host agent at system scope. -/
  | hostAccess (q : HostReq)
  /-- REMOTE_ACCESS (R404), an event. An access from another module arrives over UALink and is served as local. -/
  | remoteAccess (q : RemoteReq)
  /-- SM_FLUSH (R105), an event. A cell writes back and drops its SM copies of a frame being migrated. -/
  | smFlush (cell : Nat) (frame : Nat)
  /-- ATOMIC_AT_HOME (R141), an event. The home slice performs one atomic lane or combined reduction as one event and acknowledges it. -/
  | atomicAtHome (id : Nat) (part : Nat)
  /-- MERGE_BUFFER_FORWARD (R147), an event. A held reduction leaves the router merge buffer after its hold ends or it is full. -/
  | mergeBufferForward (router : Nat) (entry : Nat)
  /-- MWCAS_LOCK_PHASE (R151), an event. Once the release condition holds, the MWCAS locks its lines in address order, compares and commits or fails. -/
  | mwcasLockPhase (id : Nat)
  /-- MWCAS_QUEUED_LOCK_GRANT (R154), an event. A line released by its holder passes to the queued elder MWCAS. -/
  | mwcasQueuedLockGrant (line : Nat)
  /-- MWCAS_BOUND_EXPIRY (R156), an event. The lock-hold bound expires, releasing locks with contention failure or elder restart. -/
  | mwcasBoundExpiry (id : Nat)
  /-- MWCAS_LOCK_TIMEOUT (R156), an event. A lock request unanswered for 2 ms raises a memory-timeout fault with no write. -/
  | mwcasLockTimeout (id : Nat)
  /-- MWCAS_COMMIT_TIMEOUT (R156), an event. A commit unanswered for 2 ms raises a memory-timeout fault with partial success. -/
  | mwcasCommitTimeout (id : Nat)
  /-- WAITA_WAKE (R158), an event. A wake event or an unequal first read ends a WAITA and writes its result. -/
  | waitaWake (id : Nat)
  /-- FUTURE_ARRIVE (R292), an event. An arrival decrements a join record and enqueues its continuation at zero. -/
  | futureArrive (id : Nat)
  /-- TOKEN_ARRIVAL (R178), an event. A sent token arrives in its target channel or stage queue. -/
  | tokenArrival (id : Nat)
  /-- RESERVATION_GRANT (R177), an event. A target with room grants a pending reservation in arrival order. -/
  | reservationGrant (id : Nat)
  /-- STAGE_QUEUE_DISPATCH (R179), an event. A stage queue dispatches its head token to the next replica with a reservation. -/
  | stageQueueDispatch (launch : Nat) (stage : Nat)
  /-- QUIESCENCE_REPORT (R185), an event. The region root reports quiescence and a configuration period begins. -/
  | quiescenceReport (die : Nat) (region : Nat)
  /-- DRAFTLD_VALIDATION (R220), an event. A read draft image is validated and placed in, or empties, the target's shadow store. -/
  | draftldValidation (id : Nat)
  /-- DRAFTSW_COMMIT (R258), an event. In the configuration period the shadow stores commit, bank roles change and the period ends. -/
  | draftswCommit (cell : Nat) (elem : Nat) (ctx : Nat)
  /-- RETIREMENT (R365), an event. A graph retires: regions freed, completion record written, tail list spliced, admission step run. -/
  | retirement (launch : Nat)
  /-- WATCHDOG_EXPIRY (R366), an event. The region watchdog reaches WDOG and raises a region-stall fault with a snapshot. -/
  | watchdogExpiry (die : Nat) (region : Nat)
  /-- STREAM_OPEN (R71), an event. The home slice reads a stream descriptor and opens the stream or refuses it. -/
  | streamOpen (id : Nat)
  /-- STREAM_PUSH (R72), an event. A stream pushes a packed token once its reads return and the window has room. -/
  | streamPush (id : Nat)
  /-- STREAM_CLOSE (R73), an event. A stream closes when its last token is popped. -/
  | streamClose (id : Nat)
  /-- PERSIST_SWEEP (R69), an event. Every 256 us each slice clears untouched persistent marks. -/
  | persistSweep (slice : Nat)
  /-- SLICE_SCRUB (R87), an event. Each slice scrubs all its lines every 10 s. -/
  | sliceScrub (slice : Nat)
  /-- CELL_SCRUB (R87), an event. Each cell scrubs its non-OFF banks every second. -/
  | cellScrub (cell : Nat)
  /-- HEDDLE_COMMAND_START (R310), an event. The oldest unstarted heddle command starts when released and its path is free. -/
  | heddleCommandStart (cell : Nat)
  /-- HEDDLE_COMMAND_COMPLETE (R310), an event. A heddle command's results are written; slot count and census fall and watches may set. -/
  | heddleCommandComplete (cell : Nat) (id : Nat)
  /-- WOVEN_PARTIAL (R322), an event. A chain partial arrives from the previous cell of a woven row. -/
  | wovenPartial (cell : Nat) (id : Nat)
  /-- SHUTTLE_COMMAND_RUN (R296), an event. The shuttle engine reads and validates a command block and moves its payload. -/
  | shuttleCommandRun (cell : Nat) (id : Nat)
  /-- SHUTTLE_COMMAND_COMPLETE (R296), an event. After the payload, the flag and future are written, the arc is set and the census falls. -/
  | shuttleCommandComplete (cell : Nat) (id : Nat)
  /-- RAYOUT_SEND (R343), an event. With all grants held, RAYOUT sends its 17 packet tokens in consecutive cycles. -/
  | rayoutSend (cell : Nat) (elem : Nat) (ctx : Nat)
  /-- RAYIN_MERGE_COMPLETE (R345), an event. The last register token merges and the registers and m1 are written. -/
  | rayinMergeComplete (cell : Nat) (elem : Nat) (ctx : Nat)
  /-- TRAVERSAL_COMPLETE (R337), an event. TNODE or TISECT reads return and the ray state and status masks are written. -/
  | traversalComplete (id : Nat)
  /-- MIGPUSH (R56), an event. A write submits a migration request block, or sets OVF when 1,024 are pending. -/
  | migpush (value : Nat)
  /-- MIGRATION_REQUEST (R52), an event. The engine validates, walks, checks pins, sets MIG and starts a page TLBINV. -/
  | migrationRequest (id : Nat)
  /-- MIGRATION_COPY (R52), an event. After TLBINV and flushes, the engine takes a frame, copies, rewrites the leaf and completes. -/
  | migrationCopy (id : Nat)
  /-- MIGRATION_LOST (R53), an event. A request that found MIG set completes LOST once the leaf line is written. -/
  | migrationLost (id : Nat)
  /-- PIN_EXPIRY (R52), an event. A migration pin lapses after 1 ms. -/
  | pinExpiry (i : Nat)
  /-- MIGFREE (R57), an event. A write pushes a frame onto its placement's free list, or drops it and sets BADF. -/
  | migfree (value : Nat)
  /-- MIGCTL_WRITE (R56), an event. A write sets enable, interrupt enable and watermarks, releasing waiting requests when enabled. -/
  | migctlWrite (value : Nat)
  /-- MIGEVQ_WRITE (R56), an event. A write sets the eviction ring and resets MIGEVP and MIGEVC. -/
  | migevqWrite (value : Nat)
  /-- MIGEVC_WRITE (R56), an event. A write records consumed ring records, letting waiting evictions proceed. -/
  | migevcWrite (value : Nat)
  /-- MIGHBASE_WRITE (R56), an event. A write moves the host-owned boundary, or is ignored and may set BADF. -/
  | mighbaseWrite (value : Nat)
  /-- QPUSH (R352), an event. A write appends a launch block to a queue, or is dropped setting OVF, and runs an admission step. -/
  | qpush (queue : Nat) (value : Nat)
  /-- QUANTUM_EXPIRY (R362), an event. A resident launch's quantum ends and it is sliced when an equal-priority launch waits. -/
  | quantumExpiry (launch : Nat)
  /-- ANTI_STARVATION_BOOST (R362), an event. A queue head waiting a quantum becomes a candidate at priority 7. -/
  | antiStarvationBoost (queue : Nat)
  /-- DOBBY_SAMPLE (R363), an event. Every 1 us the dobby controller samples stage queue depths and grows or drains replicas. -/
  | dobbySample (die : Nat)
  /-- REPLICA_FREE (R364), an event. A draining replica's cells are freed once they are idle and their census parts sum to 0. -/
  | replicaFree (launch : Nat) (stage : Nat) (rep : Nat)
  /-- PREEMPTION_DRAIN_COMPLETE (R380), an event. A stopped region's drained state is written as an image and DONE written last. -/
  | preemptionDrainComplete (id : Nat)
  /-- RESTORE_COMPLETE (R386), an event. An image chain is restored into the region and dispatch resumes. -/
  | restoreComplete (id : Nat)
  /-- GRANT_EFFECT (R372), an event. A new grant takes effect on the die and event tokens are sent or folded. -/
  | grantEffect (die : Nat)
  /-- PWRCAP_WRITE (R373), an event. A write sets the clamped module cap and starts a recomputation. -/
  | pwrcapWrite (value : Nat)
  /-- FAULT_RECORD_WRITE (R378), an event. A waiting fault record is written to the ring when space allows, then the doorbell. -/
  | faultRecordWrite (die : Nat)
  /-- FQACT_RESUME (R379), an event. An FQACT write with action 1 resumes the open record. -/
  | fqactResume (die : Nat) (seq : Nat)
  /-- FQACT_SKIP (R379), an event. An FQACT write with action 2 skips the open record. -/
  | fqactSkip (die : Nat) (seq : Nat)
  /-- FQACT_TERMINATE (R379), an event. An FQACT write with action 3 ends every region of the launch. -/
  | fqactTerminate (die : Nat) (seq : Nat)
  /-- FQCONS_WRITE (R378), an event. A write records consumed fault records, freeing ring space. -/
  | fqconsWrite (die : Nat) (value : Nat)
  /-- FQBASE_WRITE (R377), an event. A write sets the ring and enable, letting waiting records be pushed. -/
  | fqbaseWrite (die : Nat) (value : Nat)
  /-- MODNUM_WRITE (R19), an event. The first write sets the module number and later writes are ignored until reset. -/
  | modnumWrite (value : Nat)
  /-- SERRCNT_WRITE (R88), an event. A write of 0 clears the die's error counts. -/
  | serrcntWrite (die : Nat) (value : Nat)
  /-- COLPUSH (R405), an event. A store of a collective block address joins a port collective. -/
  | colpush (id : Nat) (part : Nat)
  /-- COLLECTIVE_RUN (R406), an event. Once NPART ports join, the collective sums or broadcasts and writes each DST and flag. -/
  | collectiveRun (colid : Nat)
  /-- COLLECTIVE_TIMEOUT (R406), an event. A collective not filled 2 ms after its first join ends in memory timeouts. -/
  | collectiveTimeout (colid : Nat)
  /-- UE_LAUNCH_PACKET (R367), an event. Hub firmware receives a forwarded launch over Ultra Ethernet and pushes it, or drops it as malformed. -/
  | ueLaunchPacket (p : UePacket)
  /-- MODULE_RESET (R408), an event. After reset, hub firmware trains links, configures, builds tables, loads resident graphs and starts the OS. -/
  | moduleReset (fw : Firmware)
  /-- MANAGEMENT_REQUEST (R403), an event. The management controller serves a Redfish, MCTP or PLDM request. -/
  | managementRequest (r : MgmtReq)
  /-- MMIO_REGISTER_WRITE (R421), an event. A write to a register without behaviour of its own updates its fields if whole and aligned. -/
  | mmioRegisterWrite (pa : Nat) (size : Nat) (w : RegWrite)
  /-- GDDR_EVICTION (R55), an event. With the GDDR 7 free list below LOW, the engine picks a victim and evicts it to placement 1. -/
  | gddrEviction
  /-- ADMISSION_STEP (R358), an event. The scheduler admits, resumes or pre-empts for the highest effective-priority candidate. -/
  | admissionStep
  /-- POWER_SPLIT (R370), an event. The central arbiter divides the cap into per-die budgets. -/
  | powerSplit
  deriving DecidableEq, Repr

end Sys2Proof
end

