-- ==== Sys2Proof/WellFormed.lean ====
section
/-! DEFINITION. The checks on an instruction word that its operand types do not make: pairs, reserved
function values and immediates (R140, R149, R120, R211, R215, R220, R252, R272, R273, R325). -/

namespace Sys2Proof

/-- An even register, as a pair base must be (R164, R211). -/
def Src.isPair : Src → Bool
  | .v r => r.val % 2 == 0
  | _ => false

/-- Class Dw (R211). -/
def Dst.isDw : Dst → Bool
  | .v r => r.val % 2 == 0
  | .o _ => false
  | .discard => true

def RDst.isDw : RDst → Bool
  | .v r => r.val % 2 == 0
  | .discard => true

/-- Under .w each S source is a pair (R211). -/
def srcW (w : Bool) (s : Src) : Bool := !w || s.isPair
/-- Under .w the Dv destination is Dw (R211). -/
def dstW (w : Bool) (d : Dst) : Bool := !w || d.isDw
def rdstW (w : Bool) (d : RDst) : Bool := !w || d.isDw

/-- The system-register numbers that R253 assigns. -/
def sysRegs : List Nat :=
  [0x000, 0x001, 0x002, 0x003, 0x004, 0x005, 0x006, 0x007, 0x008, 0x009, 0x00A, 0x010, 0x011, 0x012, 0x018,
   0x020, 0x021, 0x022, 0x030, 0x031]

/-- The one 64-bit system register, time (R253). -/
def sysReg64 (n : Nat) : Bool := n == 0x010

/-- A destination that names the same output channel as B (R272). -/
def sameChan : Dst → ODst → Bool
  | .o m, .o n => m == n
  | _, _ => false

/-- The destination and operand limits of the atomics and of WAITA (R140, R158). -/
def atomicOk (d : RDst) (b : Src) (w : Bool) : Bool := rdstW w d && srcW w b

/-- Enabled cells of a loom die, by grade code (R2). -/
def enabledCells (g : Nat) : Nat := if g = 0x60 then 156 else if g = 0x44 then 148 else 140
/-- The fuses of a loom die fit a grade: its disabled sites and four resident ones, all different (R2, R6, R78). -/
def DieFuses.ok (g : Nat) (f : DieFuses) : Bool :=
  let all := f.disabled ++ f.resident
  f.disabled.length == 160 - enabledCells g && f.resident.length == 4 && all.all (· < 160) && all.eraseDups.length == all.length
/-- The LPDDR 6 memory of a grade below its descriptor store, by module-local address (R17). -/
def lpdFrames (g : Nat) : Nat × Nat :=
  (0x4000000000, if g = 0x60 then 0xFA00000000 else if g = 0x44 then 0xBC00000000 else 0x9D00000000)
/-- A run of n entries of a table that never fall (R369). -/
def rising (t : List Nat) (at_ n : Nat) : Bool := (List.range (n - 1)).all fun i => t.getD (at_ + i) 0 ≤ t.getD (at_ + i + 1) 0
/-- A die's power table: P0 and the V, M, N and E tables in 16-bit values, each non-decreasing over the codes it uses (R369). -/
def powerOk (t : List Nat) : Bool :=
  t.length == 65 && t.all (· < 65536) && rising t 1 16 && rising t 17 16 && rising t 37 12 && rising t 55 7
/-- What a part of one of the three grades brings (R2, R79): the mirror of its enumeration table lies in three LPDDR 6 frames of its own
(R78). -/
def Firmware.ok (fw : Firmware) : Bool :=
  let lo := fw.enumPa % 2 ^ 46
  [0x60, 0x44, 0x28].contains fw.grade && fw.fuses.length == 8 && fw.fuses.all (DieFuses.ok fw.grade) &&
  fw.enumPa / 2 ^ 46 == fw.modnum % 64 && (lpdFrames fw.grade).1 ≤ lo && lo / 4096 * 4096 + 0x3000 ≤ (lpdFrames fw.grade).2 &&
  fw.powerTables.length == 8 && fw.powerTables.all powerOk

/-- The checks of one instruction; an event but for a bring-up is always well formed. -/
def Instr.wellFormed : Instr → Bool
  | .nop _ => true
  | .mov _ d a w => dstW w d && srcW w a
  | .movi _ _ _ => true
  | .iadd _ d a b w => dstW w d && srcW w a && srcW w b
  | .isub _ d a b w => dstW w d && srcW w a && srcW w b
  | .iaddi _ _ _ _ => true
  | .imulLo _ d a b w => dstW w d && srcW w a && srcW w b
  | .imulHi _ d a b w => dstW w d && srcW w a && srcW w b
  | .imulHin _ d a b w => dstW w d && srcW w a && srcW w b
  | .imad _ _ _ _ _ => true
  | .imin _ d a b w => dstW w d && srcW w a && srcW w b
  | .imax _ d a b w => dstW w d && srcW w a && srcW w b
  | .umin _ d a b w => dstW w d && srcW w a && srcW w b
  | .umax _ d a b w => dstW w d && srcW w a && srcW w b
  | .iabs _ d a w => dstW w d && srcW w a
  | .band _ d a b w => dstW w d && srcW w a && srcW w b
  | .bor _ d a b w => dstW w d && srcW w a && srcW w b
  | .bxor _ d a b w => dstW w d && srcW w a && srcW w b
  | .bandn _ d a b w => dstW w d && srcW w a && srcW w b
  | .bnot _ d a w => dstW w d && srcW w a
  | .shl _ d a b w => dstW w d && srcW w a && srcW w b
  | .shr _ d a b w => dstW w d && srcW w a && srcW w b
  | .sar _ d a b w => dstW w d && srcW w a && srcW w b
  | .rol _ d a b w => dstW w d && srcW w a && srcW w b
  | .shli _ d a w n => dstW w d && srcW w a && (w || n.val < 32)
  | .shri _ d a w n => dstW w d && srcW w a && (w || n.val < 32)
  | .sari _ d a w n => dstW w d && srcW w a && (w || n.val < 32)
  | .roli _ d a w n => dstW w d && srcW w a && (w || n.val < 32)
  | .bfx _ d a b w _ => dstW w d && srcW w a && srcW w b
  | .bfi _ _ _ _ _ => true
  | .clz _ d a w => dstW w d && srcW w a
  | .popc _ d a w => dstW w d && srcW w a
  | .brev _ d a w => dstW w d && srcW w a
  | .icmp _ _ _ _ k => k.val < 6
  | .ucmp _ _ _ _ k => k.val < 6
  | .sel _ _ _ _ _ => true
  | .idiv _ d a b w => dstW w d && srcW w a && srcW w b
  | .udiv _ d a b w => dstW w d && srcW w a && srcW w b
  | .irem _ d a b w => dstW w d && srcW w a && srcW w b
  | .urem _ d a b w => dstW w d && srcW w a && srcW w b
  | .iclamp _ _ _ _ _ => true
  | .uclamp _ _ _ _ _ => true
  | .lbcast _ _ _ _ => true
  | .lshfl _ _ _ _ => true
  | .lrot _ _ _ i => -63 ≤ i.toInt && i.toInt ≤ 63
  | .lred _ _ _ f => f.val < 11
  | .lscan _ _ _ _ => true
  | .lcomp _ _ _ _ => true
  | .mand _ _ _ _ => true
  | .mor _ _ _ _ => true
  | .mxor _ _ _ _ => true
  | .mandn _ _ _ _ => true
  | .mnot _ _ _ => true
  | .mmov _ _ _ => true
  | .mpop _ _ _ => true
  | .many _ _ _ => true
  | .mall _ _ _ => true
  | .mnone _ _ _ => true
  | .mfrom _ _ _ => true
  | .mto _ _ _ => true
  | .mseti _ _ i => i.toNat / 64 % 4 != 3
  | .sendt _ _ _ _ => true
  | .tagr _ _ _ => true
  | .cens _ _ => true
  | .sysr _ d i => sysRegs.contains i.toNat && (!sysReg64 i.toNat || d.isDw)
  | .sysw _ _ i => sysRegs.contains i.toNat
  | .trap _ _ => true
  | .brk _ _ => true
  | .tlaunch _ _ => true
  | .draftld _ _ _ _ => true
  | .draftsw _ => true
  | .ctximgSavef _ _ _ => true
  | .ctximgSaved _ _ _ => true
  | .ctximgRest _ _ _ => true
  | .tlbinvPg _ _ _ _ => true
  | .tlbinvAs _ _ _ _ => true
  | .tlbinvAll _ _ _ _ => true
  | .fadd _ _ _ _ => true
  | .fsub _ _ _ _ => true
  | .fmul _ _ _ _ => true
  | .ffma _ _ _ _ _ => true
  | .ffms _ _ _ _ _ => true
  | .fmin _ _ _ _ => true
  | .fmax _ _ _ _ => true
  | .fminp _ _ _ _ => true
  | .fmaxp _ _ _ _ => true
  | .fabs _ _ _ => true
  | .fneg _ _ _ => true
  | .fcpys _ _ _ _ => true
  | .fcmp _ _ _ _ _ => true
  | .fclass _ _ _ => true
  | .frnd _ _ _ k => k.val < 5
  | .fcvti _ d _ w _ => dstW w d
  | .fcvtf _ _ a w _ => srcW w a
  | .fcvt _ d _ b _ k => k.val < 7 && !sameChan d b
  | .funp _ _ _ h k => k.val < 7 && (!h || k.val == 4 || k.val == 6)
  | .fx2f _ _ _ => true
  | .flg2f _ _ _ => true
  | .fexp2 _ _ _ => true
  | .flog2 _ _ _ => true
  | .frcp _ _ _ => true
  | .frsq _ _ _ => true
  | .fsqrt _ _ _ => true
  | .fscl _ _ _ _ => true
  | .fgetx _ _ _ => true
  | .fgetm _ _ _ => true
  | .fsinp _ _ _ => true
  | .fcosp _ _ _ => true
  | .hfma2 _ _ _ _ _ _ => true
  | .hadd2 _ _ _ _ _ => true
  | .hmul2 _ _ _ _ _ => true
  | .fdot2 _ _ _ _ _ => true
  | .bscale _ _ _ _ => true
  | .packb _ _ _ _ => true
  | .unpkb _ _ _ _ => true
  | .ld _ d _ _ _ w => dstW w d
  | .ldb8 _ _ _ _ _ => true
  | .ldh16 _ _ _ _ _ => true
  | .ldc _ d _ _ _ w => dstW w d
  | .ldx _ _ _ _ _ => true
  | .lds _ d _ _ _ w => dstW w d
  | .st _ d _ _ _ w => srcW w d
  | .stb8 _ _ _ _ _ => true
  | .sth16 _ _ _ _ _ => true
  | .stc _ d _ _ _ w => srcW w d
  | .stx _ _ _ _ _ => true
  | .sts _ d _ _ _ w => srcW w d
  | .aadd _ d _ b _ w => atomicOk d b w
  | .amin _ d _ b _ w => atomicOk d b w
  | .amax _ d _ b _ w => atomicOk d b w
  | .aand _ d _ b _ w => atomicOk d b w
  | .aor _ d _ b _ w => atomicOk d b w
  | .axor _ d _ b _ w => atomicOk d b w
  | .axch _ d _ b _ w => atomicOk d b w
  | .acas _ d _ b _ w => atomicOk d b w && d != .discard
  | .afadd _ d _ b _ w => atomicOk d b w
  | .mwcas _ _ _ _ _ => true
  | .fence _ bef aft _ => bef.val != 0 && aft.val != 0
  | .waita _ d _ b _ w => atomicOk d b w
  | .wake _ _ _ _ => true
  | .wbr _ _ _ _ => true
  | .invr _ _ _ _ _ => true
  | .freg _ _ _ _ => true
  | .fres _ _ _ _ => true
  | .shcpy _ _ _ _ => true
  | .shtile _ _ _ _ => true
  | .shmcast _ _ _ _ => true
  | .shstrm _ _ _ => true
  | .shclose _ _ _ => true
  | .hprep _ _ _ => true
  | .hwload _ _ _ => true
  | .hmma _ _ _ => true
  | .hwait _ _ _ => true
  | .hdrain _ _ _ _ => true
  | .hzero _ _ _ => true
  | .cbdec _ _ _ => true
  | .hcbload _ _ _ => true
  | .binb _ _ _ _ => true
  | .edge _ d _ _ k => d.val % 2 == 0 && k.val < 3
  | .bary _ _ _ _ => true
  | .texb _ _ _ _ => true
  | .tnode _ _ => true
  | .rspush _ _ => true
  | .rspop _ _ => true
  | .tisect _ _ => true
  | .rayout _ _ => true
  | .rayin _ _ => true
  | .blnd _ _ _ _ k => k.val < 5
  | .zcmp _ _ _ _ => true
  | .sideLogReplay _ _ => true
  | .pageWalk _ => true
  | .migLeafWritten _ => true
  | .loadBind _ => true
  | .accessCompletion _ => true
  | .tlbinvComplete _ => true
  | .memoryTimeout _ => true
  | .homeSliceRequest _ _ => true
  | .recallResponse _ _ => true
  | .ownershipHoldExpiry _ _ => true
  | .hostAccess _ => true
  | .remoteAccess _ => true
  | .smFlush _ _ => true
  | .atomicAtHome _ _ => true
  | .mergeBufferForward _ _ => true
  | .mwcasLockPhase _ => true
  | .mwcasQueuedLockGrant _ => true
  | .mwcasBoundExpiry _ => true
  | .mwcasLockTimeout _ => true
  | .mwcasCommitTimeout _ => true
  | .waitaWake _ => true
  | .futureArrive _ => true
  | .tokenArrival _ => true
  | .reservationGrant _ => true
  | .stageQueueDispatch _ _ => true
  | .quiescenceReport _ _ => true
  | .draftldValidation _ => true
  | .draftswCommit _ _ _ => true
  | .retirement _ => true
  | .watchdogExpiry _ _ => true
  | .streamOpen _ => true
  | .streamPush _ => true
  | .streamClose _ => true
  | .persistSweep _ => true
  | .sliceScrub _ => true
  | .cellScrub _ => true
  | .heddleCommandStart _ => true
  | .heddleCommandComplete _ _ => true
  | .wovenPartial _ _ => true
  | .shuttleCommandRun _ _ => true
  | .shuttleCommandComplete _ _ => true
  | .rayoutSend _ _ _ => true
  | .rayinMergeComplete _ _ _ => true
  | .traversalComplete _ => true
  | .migpush _ => true
  | .migrationRequest _ => true
  | .migrationCopy _ => true
  | .migrationLost _ => true
  | .pinExpiry _ => true
  | .gddrEviction => true
  | .migfree _ => true
  | .migctlWrite _ => true
  | .migevqWrite _ => true
  | .migevcWrite _ => true
  | .mighbaseWrite _ => true
  | .qpush _ _ => true
  | .admissionStep => true
  | .quantumExpiry _ => true
  | .antiStarvationBoost _ => true
  | .dobbySample _ => true
  | .replicaFree _ _ _ => true
  | .preemptionDrainComplete _ => true
  | .restoreComplete _ => true
  | .powerSplit => true
  | .grantEffect _ => true
  | .pwrcapWrite _ => true
  | .faultRecordWrite _ => true
  | .fqactResume _ _ => true
  | .fqactSkip _ _ => true
  | .fqactTerminate _ _ => true
  | .fqconsWrite _ _ => true
  | .fqbaseWrite _ _ => true
  | .modnumWrite _ => true
  | .serrcntWrite _ _ => true
  | .colpush _ _ => true
  | .collectiveRun _ => true
  | .collectiveTimeout _ => true
  | .ueLaunchPacket _ => true
  | .managementRequest _ => true
  | .moduleReset fw => fw.ok
  | .mmioRegisterWrite _ _ _ => true

end Sys2Proof
end

