-- ==== Sys2Proof/Decode.lean ====
section
/-! DEFINITION. Decoding of instruction words, total and rejecting, and the encoder
(09_encoding_and_assembly.md R209 to R215, R220). -/

namespace Sys2Proof

/-- The fields of a word: TRG, OP, D, A, B and the low four bits (R209). -/
structure Fields where
  t : Nat
  op : Nat
  d : Nat
  a : Nat
  b : Nat
  f : Nat
  deriving DecidableEq, Repr

/-- The fields of a 32-bit word (R209). -/
def fieldsOf (w : Nat) : Fields :=
  ⟨w / 2 ^ 26 % 64, w / 2 ^ 19 % 128, w / 2 ^ 14 % 32, w / 2 ^ 9 % 32, w / 16 % 32, w % 16⟩

/-- The word of a set of fields (R209). -/
def wordOf (x : Fields) : Nat :=
  x.t * 2 ^ 26 + x.op * 2 ^ 19 + x.d * 2 ^ 14 + x.a * 2 ^ 9 + x.b * 16 + x.f

/-- Codes of the operand classes (R210, R211). -/
def Src.code : Src → Nat
  | .v r => r.val
  | .ch n => 16 + n.val
  | .c n => 24 + n.val

def Dst.code : Dst → Nat
  | .v r => r.val
  | .o n => 16 + n.val
  | .discard => 28

def PDst.code : PDst → Nat
  | .pair k => 2 * k.val
  | .discard => 28

def RDst.code : RDst → Nat
  | .v r => r.val
  | .discard => 28

def ODst.code : ODst → Nat
  | .o n => 16 + n.val
  | .discard => 28

/-- The fields of an instruction's word (R209 to R215, R140, R149, R120, R158, R101, R325); none for an event. -/
def encodeFields : Instr → Option Fields
  | .nop t => some ⟨t.val, 0, 0, 0, 0, 0⟩
  | .mov t d a w => some ⟨t.val, 1, d.code, a.code, 0, 8 * w.toNat⟩
  | .movi t d i => some ⟨t.val, 2, d.code, i.toNat / 512, i.toNat / 16 % 32, i.toNat % 16⟩
  | .iadd t d a b w => some ⟨t.val, 3, d.code, a.code, b.code, 8 * w.toNat⟩
  | .isub t d a b w => some ⟨t.val, 4, d.code, a.code, b.code, 8 * w.toNat⟩
  | .iaddi t d a i => some ⟨t.val, 5, d.code, a.code, i.toNat / 16, i.toNat % 16⟩
  | .imulLo t d a b w => some ⟨t.val, 6, d.code, a.code, b.code, 8 * w.toNat⟩
  | .imulHi t d a b w => some ⟨t.val, 6, d.code, a.code, b.code, 1 + 8 * w.toNat⟩
  | .imulHin t d a b w => some ⟨t.val, 6, d.code, a.code, b.code, 2 + 8 * w.toNat⟩
  | .imad t d a b c => some ⟨t.val, 7, d.code, a.code, b.code, c.val⟩
  | .imin t d a b w => some ⟨t.val, 8, d.code, a.code, b.code, 8 * w.toNat⟩
  | .imax t d a b w => some ⟨t.val, 8, d.code, a.code, b.code, 1 + 8 * w.toNat⟩
  | .umin t d a b w => some ⟨t.val, 8, d.code, a.code, b.code, 2 + 8 * w.toNat⟩
  | .umax t d a b w => some ⟨t.val, 8, d.code, a.code, b.code, 3 + 8 * w.toNat⟩
  | .iabs t d a w => some ⟨t.val, 9, d.code, a.code, 0, 8 * w.toNat⟩
  | .band t d a b w => some ⟨t.val, 10, d.code, a.code, b.code, 8 * w.toNat⟩
  | .bor t d a b w => some ⟨t.val, 10, d.code, a.code, b.code, 1 + 8 * w.toNat⟩
  | .bxor t d a b w => some ⟨t.val, 10, d.code, a.code, b.code, 2 + 8 * w.toNat⟩
  | .bandn t d a b w => some ⟨t.val, 10, d.code, a.code, b.code, 3 + 8 * w.toNat⟩
  | .bnot t d a w => some ⟨t.val, 10, d.code, a.code, 0, 4 + 8 * w.toNat⟩
  | .shl t d a b w => some ⟨t.val, 11, d.code, a.code, b.code, 8 * w.toNat⟩
  | .shr t d a b w => some ⟨t.val, 11, d.code, a.code, b.code, 1 + 8 * w.toNat⟩
  | .sar t d a b w => some ⟨t.val, 11, d.code, a.code, b.code, 2 + 8 * w.toNat⟩
  | .rol t d a b w => some ⟨t.val, 11, d.code, a.code, b.code, 3 + 8 * w.toNat⟩
  | .shli t d a w n => some ⟨t.val, 12, d.code, a.code, 8 * 0 + 4 * w.toNat + n.val / 16, n.val % 16⟩
  | .shri t d a w n => some ⟨t.val, 12, d.code, a.code, 8 * 1 + 4 * w.toNat + n.val / 16, n.val % 16⟩
  | .sari t d a w n => some ⟨t.val, 12, d.code, a.code, 8 * 2 + 4 * w.toNat + n.val / 16, n.val % 16⟩
  | .roli t d a w n => some ⟨t.val, 12, d.code, a.code, 8 * 3 + 4 * w.toNat + n.val / 16, n.val % 16⟩
  | .bfx t d a b w sx => some ⟨t.val, 13, d.code, a.code, b.code, sx.toNat + 8 * w.toNat⟩
  | .bfi t d a b c => some ⟨t.val, 14, d.code, a.code, b.code, c.val⟩
  | .clz t d a w => some ⟨t.val, 15, d.code, a.code, 0, 8 * w.toNat⟩
  | .popc t d a w => some ⟨t.val, 15, d.code, a.code, 0, 1 + 8 * w.toNat⟩
  | .brev t d a w => some ⟨t.val, 15, d.code, a.code, 0, 2 + 8 * w.toNat⟩
  | .icmp t d a b k => some ⟨t.val, 16, 24 + d.val, a.code, b.code, 8 * 0 + k.val⟩
  | .ucmp t d a b k => some ⟨t.val, 16, 24 + d.val, a.code, b.code, 8 * 1 + k.val⟩
  | .sel t d a b m => some ⟨t.val, 17, d.code, a.code, b.code, m.val⟩
  | .idiv t d a b w => some ⟨t.val, 18, d.code, a.code, b.code, 8 * w.toNat⟩
  | .udiv t d a b w => some ⟨t.val, 18, d.code, a.code, b.code, 1 + 8 * w.toNat⟩
  | .irem t d a b w => some ⟨t.val, 18, d.code, a.code, b.code, 2 + 8 * w.toNat⟩
  | .urem t d a b w => some ⟨t.val, 18, d.code, a.code, b.code, 3 + 8 * w.toNat⟩
  | .iclamp t d a b c => some ⟨t.val, 19, d.code, a.code, b.code, 8 * 0 + c.val⟩
  | .uclamp t d a b c => some ⟨t.val, 19, d.code, a.code, b.code, 8 * 1 + c.val⟩
  | .lbcast t d a n => some ⟨t.val, 24, d.code, a.code, n.val / 16, n.val % 16⟩
  | .lshfl t d a b => some ⟨t.val, 25, d.code, a.code, b.code, 0⟩
  | .lrot t d a i => some ⟨t.val, 26, d.code, a.code, i.toNat / 16, i.toNat % 16⟩
  | .lred t d a f => some ⟨t.val, 27, d.code, a.code, 0, f.val⟩
  | .lscan t d a f => some ⟨t.val, 28, d.code, a.code, 0, f.toNat⟩
  | .lcomp t d a b => some ⟨t.val, 29, d.code, a.code, 24 + b.val, 0⟩
  | .mand t d a b => some ⟨t.val, 30, 24 + d.val, 24 + a.val, 24 + b.val, 0⟩
  | .mor t d a b => some ⟨t.val, 30, 24 + d.val, 24 + a.val, 24 + b.val, 1⟩
  | .mxor t d a b => some ⟨t.val, 30, 24 + d.val, 24 + a.val, 24 + b.val, 2⟩
  | .mandn t d a b => some ⟨t.val, 30, 24 + d.val, 24 + a.val, 24 + b.val, 3⟩
  | .mnot t d a => some ⟨t.val, 30, 24 + d.val, 24 + a.val, 0, 4⟩
  | .mmov t d a => some ⟨t.val, 30, 24 + d.val, 24 + a.val, 0, 5⟩
  | .mpop t d a => some ⟨t.val, 31, d.code, 24 + a.val, 0, 0⟩
  | .many t d a => some ⟨t.val, 32, d.val, 24 + a.val, 0, 0⟩
  | .mall t d a => some ⟨t.val, 32, d.val, 24 + a.val, 0, 1⟩
  | .mnone t d a => some ⟨t.val, 32, d.val, 24 + a.val, 0, 2⟩
  | .mfrom t d a => some ⟨t.val, 33, 24 + d.val, 2 * a.val, 0, 0⟩
  | .mto t d a => some ⟨t.val, 33, d.code, 24 + a.val, 0, 1⟩
  | .mseti t d i => some ⟨t.val, 34, 24 + d.val, 0, i.toNat / 16, i.toNat % 16⟩
  | .sendt t o a b => some ⟨t.val, 36, 16 + o.val, a.code, b.code, 0⟩
  | .tagr t d n => some ⟨t.val, 37, d.val, 16 + n.val, 0, 0⟩
  | .cens t i => some ⟨t.val, 38, 28, 0, i.toNat / 16, i.toNat % 16⟩
  | .sysr t d i => some ⟨t.val, 39, d.code, 0, i.toNat / 16, i.toNat % 16⟩
  | .sysw t a i => some ⟨t.val, 40, 28, a.code, i.toNat / 16, i.toNat % 16⟩
  | .trap t i => some ⟨t.val, 41, 28, i.toNat / 512, i.toNat / 16 % 32, i.toNat % 16⟩
  | .brk t i => some ⟨t.val, 42, 28, i.toNat / 512, i.toNat / 16 % 32, i.toNat % 16⟩
  | .tlaunch t a => some ⟨t.val, 43, 28, 2 * a.val, 0, 0⟩
  | .draftld t a b p => some ⟨t.val, 44, 28, 2 * a.val, b.code, 2 * p.val + 0⟩
  | .draftsw t => some ⟨t.val, 45, 28, 0, 0, 0⟩
  | .ctximgSavef t a b => some ⟨t.val, 46, 28, 2 * a.val, b.code, 0⟩
  | .ctximgSaved t a b => some ⟨t.val, 46, 28, 2 * a.val, b.code, 1⟩
  | .ctximgRest t a b => some ⟨t.val, 46, 28, 2 * a.val, b.code, 2⟩
  | .tlbinvPg t a b p => some ⟨t.val, 47, 0, 2 * a.val, b.code, 2 * p.val⟩
  | .tlbinvAs t a b p => some ⟨t.val, 47, 1, 2 * a.val, b.code, 2 * p.val⟩
  | .tlbinvAll t a b p => some ⟨t.val, 47, 2, 2 * a.val, b.code, 2 * p.val⟩
  | .fadd t d a b => some ⟨t.val, 48, d.code, a.code, b.code, 0⟩
  | .fsub t d a b => some ⟨t.val, 49, d.code, a.code, b.code, 0⟩
  | .fmul t d a b => some ⟨t.val, 50, d.code, a.code, b.code, 0⟩
  | .ffma t d a b c => some ⟨t.val, 51, d.code, a.code, b.code, c.val⟩
  | .ffms t d a b c => some ⟨t.val, 52, d.code, a.code, b.code, c.val⟩
  | .fmin t d a b => some ⟨t.val, 53, d.code, a.code, b.code, 0⟩
  | .fmax t d a b => some ⟨t.val, 53, d.code, a.code, b.code, 1⟩
  | .fminp t d a b => some ⟨t.val, 53, d.code, a.code, b.code, 2⟩
  | .fmaxp t d a b => some ⟨t.val, 53, d.code, a.code, b.code, 3⟩
  | .fabs t d a => some ⟨t.val, 54, d.code, a.code, 0, 0⟩
  | .fneg t d a => some ⟨t.val, 54, d.code, a.code, 0, 1⟩
  | .fcpys t d a b => some ⟨t.val, 54, d.code, a.code, b.code, 2⟩
  | .fcmp t d a b k => some ⟨t.val, 55, 24 + d.val, a.code, b.code, 8 * 0 + k.val⟩
  | .fclass t d a => some ⟨t.val, 56, d.code, a.code, 0, 0⟩
  | .frnd t d a k => some ⟨t.val, 57, d.code, a.code, 0, k.val⟩
  | .fcvti t d a w u => some ⟨t.val, 58, d.code, a.code, 0, u.toNat + 8 * w.toNat⟩
  | .fcvtf t d a w u => some ⟨t.val, 59, d.code, a.code, 0, u.toNat + 8 * w.toNat⟩
  | .fcvt t d a b sr k => some ⟨t.val, 60, d.code, a.code, b.code, 8 * sr.toNat + k.val⟩
  | .funp t d a h k => some ⟨t.val, 61, d.code, a.code, 0, 8 * h.toNat + k.val⟩
  | .fx2f t d a => some ⟨t.val, 62, d.code, a.code, 0, 0⟩
  | .flg2f t d a => some ⟨t.val, 63, d.code, a.code, 0, 0⟩
  | .fexp2 t d a => some ⟨t.val, 64, d.code, a.code, 0, 0⟩
  | .flog2 t d a => some ⟨t.val, 65, d.code, a.code, 0, 0⟩
  | .frcp t d a => some ⟨t.val, 66, d.code, a.code, 0, 0⟩
  | .frsq t d a => some ⟨t.val, 67, d.code, a.code, 0, 0⟩
  | .fsqrt t d a => some ⟨t.val, 68, d.code, a.code, 0, 0⟩
  | .fscl t d a b => some ⟨t.val, 69, d.code, a.code, b.code, 0⟩
  | .fgetx t d a => some ⟨t.val, 70, d.code, a.code, 0, 0⟩
  | .fgetm t d a => some ⟨t.val, 70, d.code, a.code, 0, 1⟩
  | .fsinp t d a => some ⟨t.val, 71, d.code, a.code, 0, 0⟩
  | .fcosp t d a => some ⟨t.val, 71, d.code, a.code, 0, 1⟩
  | .hfma2 t d a b h c => some ⟨t.val, 72, d.code, a.code, b.code, 8 * h.toNat + c.val⟩
  | .hadd2 t d a b h => some ⟨t.val, 73, d.code, a.code, b.code, 2 * h.toNat⟩
  | .hmul2 t d a b h => some ⟨t.val, 73, d.code, a.code, b.code, 1 + 2 * h.toNat⟩
  | .fdot2 t d a b c => some ⟨t.val, 74, d.code, a.code, b.code, c.val⟩
  | .bscale t d a b => some ⟨t.val, 75, d.code, a.code, b.code, 0⟩
  | .packb t d a b => some ⟨t.val, 75, d.code, a.code, b.code, 1⟩
  | .unpkb t d a b => some ⟨t.val, 75, d.code, a.code, b.code, 2⟩
  | .ld t d a b p w => some ⟨t.val, 76, d.code, 2 * a.val, b.code, 2 * p.val + w.toNat⟩
  | .ldb8 t d a b p => some ⟨t.val, 77, d.code, 2 * a.val, b.code, 2 * p.val⟩
  | .ldh16 t d a b p => some ⟨t.val, 78, d.code, 2 * a.val, b.code, 2 * p.val⟩
  | .ldc t d a b p w => some ⟨t.val, 79, d.code, 2 * a.val, b.code, 2 * p.val + w.toNat⟩
  | .ldx t d a b p => some ⟨t.val, 80, d.code, 2 * a.val, b.code, 2 * p.val⟩
  | .lds t d a b p w => some ⟨t.val, 81, d.code, a.code, b.code, 2 * p.val + w.toNat⟩
  | .st t d a b p w => some ⟨t.val, 82, d.code, 2 * a.val, b.code, 2 * p.val + w.toNat⟩
  | .stb8 t d a b p => some ⟨t.val, 83, d.code, 2 * a.val, b.code, 2 * p.val⟩
  | .sth16 t d a b p => some ⟨t.val, 84, d.code, 2 * a.val, b.code, 2 * p.val⟩
  | .stc t d a b p w => some ⟨t.val, 85, d.code, 2 * a.val, b.code, 2 * p.val + w.toNat⟩
  | .stx t d a b p => some ⟨t.val, 86, 2 * d.val, 2 * a.val, b.code, 2 * p.val⟩
  | .sts t d a b p w => some ⟨t.val, 87, d.code, a.code, b.code, 2 * p.val + w.toNat⟩
  | .aadd t d a b p w => some ⟨t.val, 88, d.code, 2 * a.val, b.code, 2 * p.val + w.toNat⟩
  | .amin t d a b p w => some ⟨t.val, 89, d.code, 2 * a.val, b.code, 2 * p.val + w.toNat⟩
  | .amax t d a b p w => some ⟨t.val, 90, d.code, 2 * a.val, b.code, 2 * p.val + w.toNat⟩
  | .aand t d a b p w => some ⟨t.val, 91, d.code, 2 * a.val, b.code, 2 * p.val + w.toNat⟩
  | .aor t d a b p w => some ⟨t.val, 92, d.code, 2 * a.val, b.code, 2 * p.val + w.toNat⟩
  | .axor t d a b p w => some ⟨t.val, 93, d.code, 2 * a.val, b.code, 2 * p.val + w.toNat⟩
  | .axch t d a b p w => some ⟨t.val, 94, d.code, 2 * a.val, b.code, 2 * p.val + w.toNat⟩
  | .acas t d a b p w => some ⟨t.val, 95, d.code, 2 * a.val, b.code, 2 * p.val + w.toNat⟩
  | .afadd t d a b p w => some ⟨t.val, 96, d.code, 2 * a.val, b.code, 2 * p.val + w.toNat⟩
  | .mwcas t d a q p => some ⟨t.val, 97, d.code, 2 * a.val, q.val, 2 * p.val + 1⟩
  | .fence t bef aft p => some ⟨t.val, 98, 28, bef.val, aft.val, 2 * p.val⟩
  | .waita t d a b p w => some ⟨t.val, 99, d.code, 2 * a.val, b.code, 2 * p.val + w.toNat⟩
  | .wake t a b p => some ⟨t.val, 100, 28, 2 * a.val, b.code, 2 * p.val + 0⟩
  | .wbr t a b p => some ⟨t.val, 101, 28, 2 * a.val, b.code, 2 * p.val + 0⟩
  | .invr t a b p w => some ⟨t.val, 102, 28, 2 * a.val, b.code, 2 * p.val + w.toNat⟩
  | .freg t a b p => some ⟨t.val, 103, 28, 2 * a.val, b.code, 2 * p.val + 0⟩
  | .fres t a b p => some ⟨t.val, 103, 28, 2 * a.val, b.code, 2 * p.val + 1⟩
  | .shcpy t a b p => some ⟨t.val, 104, 28, 2 * a.val, b.code, 2 * p.val + 0⟩
  | .shtile t a b p => some ⟨t.val, 105, 28, 2 * a.val, b.code, 2 * p.val + 0⟩
  | .shmcast t a b p => some ⟨t.val, 106, 28, 2 * a.val, b.code, 2 * p.val + 0⟩
  | .shstrm t a p => some ⟨t.val, 107, 28, 2 * a.val, 0, 2 * p.val + 0⟩
  | .shclose t a p => some ⟨t.val, 107, 28, 2 * a.val, 0, 2 * p.val + 1⟩
  | .hprep t a b => some ⟨t.val, 108, 28, a.code, b.code, 0⟩
  | .hwload t a b => some ⟨t.val, 109, 28, a.code, b.code, 0⟩
  | .hmma t a b => some ⟨t.val, 110, 28, a.code, b.code, 0⟩
  | .hwait t d a => some ⟨t.val, 111, d.val, a.code, 0, 0⟩
  | .hdrain t d a b => some ⟨t.val, 112, d.code, a.code, b.code, 0⟩
  | .hzero t a b => some ⟨t.val, 113, 28, a.code, b.code, 0⟩
  | .cbdec t d a => some ⟨t.val, 114, d.code, a.code, 0, 0⟩
  | .hcbload t a b => some ⟨t.val, 115, 28, a.code, b.code, 0⟩
  | .binb t d a b => some ⟨t.val, 116, d.code, a.code, b.code, 0⟩
  | .edge t d a b k => some ⟨t.val, 117, 24 + d.val, a.code, b.code, k.val⟩
  | .bary t d a b => some ⟨t.val, 118, d.code, a.code, b.code, 0⟩
  | .texb t d a b => some ⟨t.val, 119, d.code, a.code, b.code, 0⟩
  | .tnode t b => some ⟨t.val, 120, 28, 24, b.code, 0⟩
  | .rspush t a => some ⟨t.val, 121, 28, a.code, 0, 0⟩
  | .rspop t a => some ⟨t.val, 121, 28, a.code, 0, 1⟩
  | .tisect t b => some ⟨t.val, 122, 28, 24, b.code, 0⟩
  | .rayout t o => some ⟨t.val, 123, 16 + o.val, 0, 0, 0⟩
  | .rayin t n => some ⟨t.val, 123, 28, 16 + n.val, 0, 1⟩
  | .blnd t d n b k => some ⟨t.val, 124, d.code, 16 + n.val, b.code, k.val⟩
  | .zcmp t d a b => some ⟨t.val, 125, 24 + d.val, a.code, b.code, 0⟩
  | .sideLogReplay _ _ => none
  | .pageWalk _ => none
  | .migLeafWritten _ => none
  | .loadBind _ => none
  | .accessCompletion _ => none
  | .tlbinvComplete _ => none
  | .memoryTimeout _ => none
  | .homeSliceRequest _ _ => none
  | .recallResponse _ _ => none
  | .ownershipHoldExpiry _ _ => none
  | .hostAccess _ => none
  | .remoteAccess _ => none
  | .smFlush _ _ => none
  | .atomicAtHome _ _ => none
  | .mergeBufferForward _ _ => none
  | .mwcasLockPhase _ => none
  | .mwcasQueuedLockGrant _ => none
  | .mwcasBoundExpiry _ => none
  | .mwcasLockTimeout _ => none
  | .mwcasCommitTimeout _ => none
  | .waitaWake _ => none
  | .futureArrive _ => none
  | .tokenArrival _ => none
  | .reservationGrant _ => none
  | .stageQueueDispatch _ _ => none
  | .quiescenceReport _ _ => none
  | .draftldValidation _ => none
  | .draftswCommit _ _ _ => none
  | .retirement _ => none
  | .watchdogExpiry _ _ => none
  | .streamOpen _ => none
  | .streamPush _ => none
  | .streamClose _ => none
  | .persistSweep _ => none
  | .sliceScrub _ => none
  | .cellScrub _ => none
  | .heddleCommandStart _ => none
  | .heddleCommandComplete _ _ => none
  | .wovenPartial _ _ => none
  | .shuttleCommandRun _ _ => none
  | .shuttleCommandComplete _ _ => none
  | .rayoutSend _ _ _ => none
  | .rayinMergeComplete _ _ _ => none
  | .traversalComplete _ => none
  | .migpush _ => none
  | .migrationRequest _ => none
  | .migrationCopy _ => none
  | .migrationLost _ => none
  | .pinExpiry _ => none
  | .gddrEviction => none
  | .migfree _ => none
  | .migctlWrite _ => none
  | .migevqWrite _ => none
  | .migevcWrite _ => none
  | .mighbaseWrite _ => none
  | .qpush _ _ => none
  | .admissionStep => none
  | .quantumExpiry _ => none
  | .antiStarvationBoost _ => none
  | .dobbySample _ => none
  | .replicaFree _ _ _ => none
  | .preemptionDrainComplete _ => none
  | .restoreComplete _ => none
  | .powerSplit => none
  | .grantEffect _ => none
  | .pwrcapWrite _ => none
  | .faultRecordWrite _ => none
  | .fqactResume _ _ => none
  | .fqactSkip _ _ => none
  | .fqactTerminate _ _ => none
  | .fqconsWrite _ _ => none
  | .fqbaseWrite _ _ => none
  | .modnumWrite _ => none
  | .serrcntWrite _ _ => none
  | .colpush _ _ => none
  | .collectiveRun _ => none
  | .collectiveTimeout _ => none
  | .ueLaunchPacket _ => none
  | .managementRequest _ => none
  | .moduleReset _ => none
  | .mmioRegisterWrite _ _ _ => none

/-- The 32-bit word of an instruction; none for an event. -/
def encode (i : Instr) : Option Word := (encodeFields i).map fun x => BitVec.ofNat 32 (wordOf x)

/-- Decoders of the operand classes (R210, R211). -/
def Src.ofCode (n : Nat) : Option Src :=
  if n < 16 then some (.v ⟨n % 16, Nat.mod_lt _ (by decide)⟩)
  else if n < 24 then some (.ch ⟨(n - 16) % 8, Nat.mod_lt _ (by decide)⟩)
  else if n < 32 then some (.c ⟨(n - 24) % 8, Nat.mod_lt _ (by decide)⟩)
  else none

def Dst.ofCode (n : Nat) : Option Dst :=
  if n < 16 then some (.v ⟨n % 16, Nat.mod_lt _ (by decide)⟩)
  else if n < 24 then some (.o ⟨(n - 16) % 8, Nat.mod_lt _ (by decide)⟩)
  else if n = 28 then some .discard
  else none

def PDst.ofCode (n : Nat) : Option PDst :=
  if n < 16 ∧ n % 2 = 0 then some (.pair ⟨n / 2 % 8, Nat.mod_lt _ (by decide)⟩)
  else if n = 28 then some .discard
  else none

def RDst.ofCode (n : Nat) : Option RDst :=
  if n < 16 then some (.v ⟨n % 16, Nat.mod_lt _ (by decide)⟩)
  else if n = 28 then some .discard
  else none

def ODst.ofCode (n : Nat) : Option ODst :=
  if 16 ≤ n ∧ n < 24 then some (.o ⟨(n - 16) % 8, Nat.mod_lt _ (by decide)⟩)
  else if n = 28 then some .discard
  else none

def vreg (n : Nat) : Option VReg := if n < 16 then some ⟨n % 16, Nat.mod_lt _ (by decide)⟩ else none
def pair (n : Nat) : Option Pair :=
  if n < 16 ∧ n % 2 = 0 then some ⟨n / 2 % 8, Nat.mod_lt _ (by decide)⟩ else none
def maskReg (n : Nat) : Option MaskReg :=
  if 24 ≤ n ∧ n < 28 then some ⟨(n - 24) % 4, Nat.mod_lt _ (by decide)⟩ else none
def predReg (n : Nat) : Option PredReg := if n < 8 then some ⟨n % 8, Nat.mod_lt _ (by decide)⟩ else none
def chanNo (n : Nat) : Option ChanNo :=
  if 16 ≤ n ∧ n < 24 then some ⟨(n - 16) % 8, Nat.mod_lt _ (by decide)⟩ else none

def trg (x : Fields) : Fin 64 := ⟨x.t % 64, Nat.mod_lt _ (by decide)⟩
def imm9 (x : Fields) : BitVec 9 := BitVec.ofNat 9 (16 * x.b + x.f)
def imm14 (x : Fields) : BitVec 14 := BitVec.ofNat 14 (512 * x.a + 16 * x.b + x.f)
def reg (n : Nat) : Fin 16 := ⟨n % 16, Nat.mod_lt _ (by decide)⟩
def low3 (n : Nat) : Fin 8 := ⟨n % 8, Nat.mod_lt _ (by decide)⟩
def low2 (n : Nat) : Fin 4 := ⟨n % 4, Nat.mod_lt _ (by decide)⟩
def prof (f : Nat) : Profile := ⟨f / 2 % 8, Nat.mod_lt _ (by decide)⟩
def bit (n i : Nat) : Bool := n / 2 ^ i % 2 == 1

/-- Class Z: every field of the list is 0 (R212). -/
def zeros {α : Type} (ns : List Nat) (r : α) : Option α := if ns.all (· == 0) then some r else none

/-- Class `_`: D is 28 (R212). -/
def onlyNone {α : Type} (x : Fields) (r : Option α) : Option α := if x.d = 28 then r else none

/-- The operand shapes that many rows share. -/
def decDAB {α : Type} (x : Fields) (k : Dst → Src → Src → α) : Option α := do
  let d ← Dst.ofCode x.d; let a ← Src.ofCode x.a; let b ← Src.ofCode x.b; pure (k d a b)
def decDABw {α : Type} (x : Fields) (k : Dst → Src → Src → Bool → α) : Option α :=
  decDAB x fun d a b => k d a b (bit x.f 3)
def decDA {α : Type} (x : Fields) (k : Dst → Src → α) : Option α := do
  let d ← Dst.ofCode x.d; let a ← Src.ofCode x.a; pure (k d a)
def decDA0 {α : Type} (x : Fields) (k : Dst → Src → α) : Option α :=
  if x.b = 0 then decDA x k else none
def decDAw {α : Type} (x : Fields) (k : Dst → Src → Bool → α) : Option α :=
  decDA0 x fun d a => k d a (bit x.f 3)
def decMAB {α : Type} (x : Fields) (k : MaskReg → Src → Src → α) : Option α := do
  let d ← maskReg x.d; let a ← Src.ofCode x.a; let b ← Src.ofCode x.b; pure (k d a b)
def decPS {α : Type} (x : Fields) (k : Pair → Src → α) : Option α := do
  let a ← pair x.a; let b ← Src.ofCode x.b; pure (k a b)

/-- Opcodes 0x00 to 0x17 (R215). -/
def decodeInteger (x : Fields) : Option Instr :=
  match x.op with
  | 0x00 =>
      zeros [x.d, x.a, x.b, x.f] (.nop (trg x))
  | 0x01 =>
      if x.f % 8 = 0 then decDAw x fun d a w => .mov (trg x) d a w
      else none
  | 0x02 =>
      do let d ← Dst.ofCode x.d; pure (.movi (trg x) d (imm14 x))
  | 0x03 =>
      if x.f % 8 = 0 then decDABw x fun d a b w => .iadd (trg x) d a b w
      else none
  | 0x04 =>
      if x.f % 8 = 0 then decDABw x fun d a b w => .isub (trg x) d a b w
      else none
  | 0x05 =>
      do let d ← Dst.ofCode x.d; let a ← Src.ofCode x.a; pure (.iaddi (trg x) d a (imm9 x))
  | 0x06 =>
      if x.f % 8 = 0 then decDABw x fun d a b w => .imulLo (trg x) d a b w
      else if x.f % 8 = 1 then decDABw x fun d a b w => .imulHi (trg x) d a b w
      else if x.f % 8 = 2 then decDABw x fun d a b w => .imulHin (trg x) d a b w
      else none
  | 0x07 =>
      decDAB x fun d a b => .imad (trg x) d a b (reg x.f)
  | 0x08 =>
      if x.f % 8 = 0 then decDABw x fun d a b w => .imin (trg x) d a b w
      else if x.f % 8 = 1 then decDABw x fun d a b w => .imax (trg x) d a b w
      else if x.f % 8 = 2 then decDABw x fun d a b w => .umin (trg x) d a b w
      else if x.f % 8 = 3 then decDABw x fun d a b w => .umax (trg x) d a b w
      else none
  | 0x09 =>
      if x.f % 8 = 0 then decDAw x fun d a w => .iabs (trg x) d a w
      else none
  | 0x0a =>
      if x.f % 8 = 0 then decDABw x fun d a b w => .band (trg x) d a b w
      else if x.f % 8 = 1 then decDABw x fun d a b w => .bor (trg x) d a b w
      else if x.f % 8 = 2 then decDABw x fun d a b w => .bxor (trg x) d a b w
      else if x.f % 8 = 3 then decDABw x fun d a b w => .bandn (trg x) d a b w
      else if x.f % 8 = 4 then decDAw x fun d a w => .bnot (trg x) d a w
      else none
  | 0x0b =>
      if x.f % 8 = 0 then decDABw x fun d a b w => .shl (trg x) d a b w
      else if x.f % 8 = 1 then decDABw x fun d a b w => .shr (trg x) d a b w
      else if x.f % 8 = 2 then decDABw x fun d a b w => .sar (trg x) d a b w
      else if x.f % 8 = 3 then decDABw x fun d a b w => .rol (trg x) d a b w
      else none
  | 0x0c =>
      if x.b / 8 = 0 then decDA x fun d a => .shli (trg x) d a (bit x.b 2) ⟨(16 * x.b + x.f) % 64, Nat.mod_lt _ (by decide)⟩
      else if x.b / 8 = 1 then decDA x fun d a => .shri (trg x) d a (bit x.b 2) ⟨(16 * x.b + x.f) % 64, Nat.mod_lt _ (by decide)⟩
      else if x.b / 8 = 2 then decDA x fun d a => .sari (trg x) d a (bit x.b 2) ⟨(16 * x.b + x.f) % 64, Nat.mod_lt _ (by decide)⟩
      else if x.b / 8 = 3 then decDA x fun d a => .roli (trg x) d a (bit x.b 2) ⟨(16 * x.b + x.f) % 64, Nat.mod_lt _ (by decide)⟩
      else none
  | 0x0d =>
      if x.f / 2 % 4 = 0 then decDAB x fun d a b => .bfx (trg x) d a b (bit x.f 3) (bit x.f 0)
      else none
  | 0x0e =>
      decDAB x fun d a b => .bfi (trg x) d a b (reg x.f)
  | 0x0f =>
      if x.f % 8 = 0 then decDAw x fun d a w => .clz (trg x) d a w
      else if x.f % 8 = 1 then decDAw x fun d a w => .popc (trg x) d a w
      else if x.f % 8 = 2 then decDAw x fun d a w => .brev (trg x) d a w
      else none
  | 0x10 =>
      if x.f / 8 = 0 then decMAB x fun d a b => .icmp (trg x) d a b (low3 x.f)
      else if x.f / 8 = 1 then decMAB x fun d a b => .ucmp (trg x) d a b (low3 x.f)
      else none
  | 0x11 =>
      if x.f < 4 then decDAB x fun d a b => .sel (trg x) d a b (low2 x.f)
      else none
  | 0x12 =>
      if x.f % 8 = 0 then decDABw x fun d a b w => .idiv (trg x) d a b w
      else if x.f % 8 = 1 then decDABw x fun d a b w => .udiv (trg x) d a b w
      else if x.f % 8 = 2 then decDABw x fun d a b w => .irem (trg x) d a b w
      else if x.f % 8 = 3 then decDABw x fun d a b w => .urem (trg x) d a b w
      else none
  | 0x13 =>
      if x.f / 8 = 0 then decDAB x fun d a b => .iclamp (trg x) d a b (low3 x.f)
      else if x.f / 8 = 1 then decDAB x fun d a b => .uclamp (trg x) d a b (low3 x.f)
      else none
  | _ => none

/-- Opcodes 0x18 to 0x2f (R215). -/
def decodeLane (x : Fields) : Option Instr :=
  match x.op with
  | 0x18 =>
      if x.b < 4 then decDA x fun d a => .lbcast (trg x) d a ⟨(16 * x.b + x.f) % 64, Nat.mod_lt _ (by decide)⟩
      else none
  | 0x19 =>
      if x.f = 0 then decDAB x fun d a b => .lshfl (trg x) d a b
      else none
  | 0x1a =>
      do let d ← Dst.ofCode x.d; let a ← Src.ofCode x.a; pure (.lrot (trg x) d a (imm9 x))
  | 0x1b =>
      decDA0 x fun d a => .lred (trg x) d a (reg x.f)
  | 0x1c =>
      if x.f < 2 then decDA0 x fun d a => .lscan (trg x) d a (bit x.f 0)
      else none
  | 0x1d =>
      if x.f = 0 then do let b ← maskReg x.b; decDA x fun d a => .lcomp (trg x) d a b
      else none
  | 0x1e =>
      if x.f = 0 then do let d ← maskReg x.d; let a ← maskReg x.a; let b ← maskReg x.b; pure (.mand (trg x) d a b)
      else if x.f = 1 then do let d ← maskReg x.d; let a ← maskReg x.a; let b ← maskReg x.b; pure (.mor (trg x) d a b)
      else if x.f = 2 then do let d ← maskReg x.d; let a ← maskReg x.a; let b ← maskReg x.b; pure (.mxor (trg x) d a b)
      else if x.f = 3 then do let d ← maskReg x.d; let a ← maskReg x.a; let b ← maskReg x.b; pure (.mandn (trg x) d a b)
      else if x.f = 4 then do let d ← maskReg x.d; let a ← maskReg x.a; zeros [x.b] (.mnot (trg x) d a)
      else if x.f = 5 then do let d ← maskReg x.d; let a ← maskReg x.a; zeros [x.b] (.mmov (trg x) d a)
      else none
  | 0x1f =>
      do let d ← Dst.ofCode x.d; let a ← maskReg x.a; zeros [x.b, x.f] (.mpop (trg x) d a)
  | 0x20 =>
      if x.f = 0 then do let d ← predReg x.d; let a ← maskReg x.a; zeros [x.b] (.many (trg x) d a)
      else if x.f = 1 then do let d ← predReg x.d; let a ← maskReg x.a; zeros [x.b] (.mall (trg x) d a)
      else if x.f = 2 then do let d ← predReg x.d; let a ← maskReg x.a; zeros [x.b] (.mnone (trg x) d a)
      else none
  | 0x21 =>
      if x.f = 0 then do let d ← maskReg x.d; let a ← pair x.a; zeros [x.b] (.mfrom (trg x) d a)
      else if x.f = 1 then do let d ← PDst.ofCode x.d; let a ← maskReg x.a; zeros [x.b] (.mto (trg x) d a)
      else none
  | 0x22 =>
      do let d ← maskReg x.d; zeros [x.a] (.mseti (trg x) d (imm9 x))
  | 0x24 =>
      do let o ← chanNo x.d; let a ← Src.ofCode x.a; let b ← Src.ofCode x.b; zeros [x.f] (.sendt (trg x) o a b)
  | 0x25 =>
      do let d ← vreg x.d; let n ← chanNo x.a; zeros [x.b, x.f] (.tagr (trg x) d n)
  | 0x26 =>
      onlyNone x (zeros [x.a] (.cens (trg x) (imm9 x)))
  | 0x27 =>
      do let d ← Dst.ofCode x.d; zeros [x.a] (.sysr (trg x) d (imm9 x))
  | 0x28 =>
      onlyNone x do let a ← Src.ofCode x.a; pure (.sysw (trg x) a (imm9 x))
  | 0x29 =>
      onlyNone x (some (.trap (trg x) (imm14 x)))
  | 0x2a =>
      onlyNone x (some (.brk (trg x) (imm14 x)))
  | 0x2b =>
      onlyNone x do let a ← pair x.a; zeros [x.b, x.f] (.tlaunch (trg x) a)
  | 0x2c =>
      if x.f % 2 = 0 then onlyNone x (decPS x fun a b => .draftld (trg x) a b (prof x.f))
      else none
  | 0x2d =>
      onlyNone x (zeros [x.a, x.b, x.f] (.draftsw (trg x)))
  | 0x2e =>
      if x.f = 0 then onlyNone x (decPS x fun a b => .ctximgSavef (trg x) a b)
      else if x.f = 1 then onlyNone x (decPS x fun a b => .ctximgSaved (trg x) a b)
      else if x.f = 2 then onlyNone x (decPS x fun a b => .ctximgRest (trg x) a b)
      else none
  | 0x2f =>
      if x.d = 0 ∧ x.f % 2 = 0 then decPS x fun a b => .tlbinvPg (trg x) a b (prof x.f)
      else if x.d = 1 ∧ x.f % 2 = 0 then decPS x fun a b => .tlbinvAs (trg x) a b (prof x.f)
      else if x.d = 2 ∧ x.f % 2 = 0 then decPS x fun a b => .tlbinvAll (trg x) a b (prof x.f)
      else none
  | _ => none

/-- Opcodes 0x30 to 0x4b (R215). -/
def decodeFloat (x : Fields) : Option Instr :=
  match x.op with
  | 0x30 =>
      if x.f = 0 then decDAB x fun d a b => .fadd (trg x) d a b
      else none
  | 0x31 =>
      if x.f = 0 then decDAB x fun d a b => .fsub (trg x) d a b
      else none
  | 0x32 =>
      if x.f = 0 then decDAB x fun d a b => .fmul (trg x) d a b
      else none
  | 0x33 =>
      decDAB x fun d a b => .ffma (trg x) d a b (reg x.f)
  | 0x34 =>
      decDAB x fun d a b => .ffms (trg x) d a b (reg x.f)
  | 0x35 =>
      if x.f = 0 then decDAB x fun d a b => .fmin (trg x) d a b
      else if x.f = 1 then decDAB x fun d a b => .fmax (trg x) d a b
      else if x.f = 2 then decDAB x fun d a b => .fminp (trg x) d a b
      else if x.f = 3 then decDAB x fun d a b => .fmaxp (trg x) d a b
      else none
  | 0x36 =>
      if x.f = 0 then decDA0 x fun d a => .fabs (trg x) d a
      else if x.f = 1 then decDA0 x fun d a => .fneg (trg x) d a
      else if x.f = 2 then decDAB x fun d a b => .fcpys (trg x) d a b
      else none
  | 0x37 =>
      if x.f / 8 = 0 then decMAB x fun d a b => .fcmp (trg x) d a b (low3 x.f)
      else none
  | 0x38 =>
      if x.f = 0 then decDA0 x fun d a => .fclass (trg x) d a
      else none
  | 0x39 =>
      if x.f < 8 then decDA0 x fun d a => .frnd (trg x) d a (low3 x.f)
      else none
  | 0x3a =>
      if x.f / 2 % 4 = 0 then decDA0 x fun d a => .fcvti (trg x) d a (bit x.f 3) (bit x.f 0)
      else none
  | 0x3b =>
      if x.f / 2 % 4 = 0 then decDA0 x fun d a => .fcvtf (trg x) d a (bit x.f 3) (bit x.f 0)
      else none
  | 0x3c =>
      do let b ← ODst.ofCode x.b; decDA x fun d a => .fcvt (trg x) d a b (bit x.f 3) (low3 x.f)
  | 0x3d =>
      decDA0 x fun d a => .funp (trg x) d a (bit x.f 3) (low3 x.f)
  | 0x3e =>
      if x.f = 0 then decDA0 x fun d a => .fx2f (trg x) d a
      else none
  | 0x3f =>
      if x.f = 0 then decDA0 x fun d a => .flg2f (trg x) d a
      else none
  | 0x40 =>
      if x.f = 0 then decDA0 x fun d a => .fexp2 (trg x) d a
      else none
  | 0x41 =>
      if x.f = 0 then decDA0 x fun d a => .flog2 (trg x) d a
      else none
  | 0x42 =>
      if x.f = 0 then decDA0 x fun d a => .frcp (trg x) d a
      else none
  | 0x43 =>
      if x.f = 0 then decDA0 x fun d a => .frsq (trg x) d a
      else none
  | 0x44 =>
      if x.f = 0 then decDA0 x fun d a => .fsqrt (trg x) d a
      else none
  | 0x45 =>
      if x.f = 0 then decDAB x fun d a b => .fscl (trg x) d a b
      else none
  | 0x46 =>
      if x.f = 0 then decDA0 x fun d a => .fgetx (trg x) d a
      else if x.f = 1 then decDA0 x fun d a => .fgetm (trg x) d a
      else none
  | 0x47 =>
      if x.f = 0 then decDA0 x fun d a => .fsinp (trg x) d a
      else if x.f = 1 then decDA0 x fun d a => .fcosp (trg x) d a
      else none
  | 0x48 =>
      decDAB x fun d a b => .hfma2 (trg x) d a b (bit x.f 3) (low3 x.f)
  | 0x49 =>
      if x.f % 2 = 0 ∧ x.f < 4 then decDAB x fun d a b => .hadd2 (trg x) d a b (bit x.f 1)
      else if x.f % 2 = 1 ∧ x.f < 4 then decDAB x fun d a b => .hmul2 (trg x) d a b (bit x.f 1)
      else none
  | 0x4a =>
      decDAB x fun d a b => .fdot2 (trg x) d a b (reg x.f)
  | 0x4b =>
      if x.f = 0 then decDAB x fun d a b => .bscale (trg x) d a b
      else if x.f = 1 then decDAB x fun d a b => .packb (trg x) d a b
      else if x.f = 2 then decDAB x fun d a b => .unpkb (trg x) d a b
      else none
  | _ => none

/-- Opcodes 0x4c to 0x6b (R215). -/
def decodeMemory (x : Fields) : Option Instr :=
  match x.op with
  | 0x4c =>
      do let d ← Dst.ofCode x.d; decPS x fun a b => .ld (trg x) d a b (prof x.f) (bit x.f 0)
  | 0x4d =>
      if x.f % 2 = 0 then do let d ← Dst.ofCode x.d; decPS x fun a b => .ldb8 (trg x) d a b (prof x.f)
      else none
  | 0x4e =>
      if x.f % 2 = 0 then do let d ← Dst.ofCode x.d; decPS x fun a b => .ldh16 (trg x) d a b (prof x.f)
      else none
  | 0x4f =>
      do let d ← Dst.ofCode x.d; decPS x fun a b => .ldc (trg x) d a b (prof x.f) (bit x.f 0)
  | 0x50 =>
      if x.f % 2 = 0 then do let d ← PDst.ofCode x.d; decPS x fun a b => .ldx (trg x) d a b (prof x.f)
      else none
  | 0x51 =>
      decDAB x fun d a b => .lds (trg x) d a b (prof x.f) (bit x.f 0)
  | 0x52 =>
      do let d ← Src.ofCode x.d; decPS x fun a b => .st (trg x) d a b (prof x.f) (bit x.f 0)
  | 0x53 =>
      if x.f % 2 = 0 then do let d ← Src.ofCode x.d; decPS x fun a b => .stb8 (trg x) d a b (prof x.f)
      else none
  | 0x54 =>
      if x.f % 2 = 0 then do let d ← Src.ofCode x.d; decPS x fun a b => .sth16 (trg x) d a b (prof x.f)
      else none
  | 0x55 =>
      do let d ← Src.ofCode x.d; decPS x fun a b => .stc (trg x) d a b (prof x.f) (bit x.f 0)
  | 0x56 =>
      if x.f % 2 = 0 then do let d ← pair x.d; decPS x fun a b => .stx (trg x) d a b (prof x.f)
      else none
  | 0x57 =>
      do let d ← Src.ofCode x.d; let a ← Src.ofCode x.a; let b ← Src.ofCode x.b; pure (.sts (trg x) d a b (prof x.f) (bit x.f 0))
  | 0x58 =>
      do let d ← RDst.ofCode x.d; decPS x fun a b => .aadd (trg x) d a b (prof x.f) (bit x.f 0)
  | 0x59 =>
      do let d ← RDst.ofCode x.d; decPS x fun a b => .amin (trg x) d a b (prof x.f) (bit x.f 0)
  | 0x5a =>
      do let d ← RDst.ofCode x.d; decPS x fun a b => .amax (trg x) d a b (prof x.f) (bit x.f 0)
  | 0x5b =>
      do let d ← RDst.ofCode x.d; decPS x fun a b => .aand (trg x) d a b (prof x.f) (bit x.f 0)
  | 0x5c =>
      do let d ← RDst.ofCode x.d; decPS x fun a b => .aor (trg x) d a b (prof x.f) (bit x.f 0)
  | 0x5d =>
      do let d ← RDst.ofCode x.d; decPS x fun a b => .axor (trg x) d a b (prof x.f) (bit x.f 0)
  | 0x5e =>
      do let d ← RDst.ofCode x.d; decPS x fun a b => .axch (trg x) d a b (prof x.f) (bit x.f 0)
  | 0x5f =>
      do let d ← RDst.ofCode x.d; decPS x fun a b => .acas (trg x) d a b (prof x.f) (bit x.f 0)
  | 0x60 =>
      do let d ← RDst.ofCode x.d; decPS x fun a b => .afadd (trg x) d a b (prof x.f) (bit x.f 0)
  | 0x61 =>
      if x.f % 2 = 1 then do let d ← PDst.ofCode x.d; let a ← pair x.a; let q ← predReg x.b; pure (.mwcas (trg x) d a q (prof x.f))
      else none
  | 0x62 =>
      if x.f % 2 = 0 then onlyNone x (if x.a < 16 && x.b < 16 then some (.fence (trg x) (reg x.a) (reg x.b) (prof x.f)) else none)
      else none
  | 0x63 =>
      do let d ← RDst.ofCode x.d; decPS x fun a b => .waita (trg x) d a b (prof x.f) (bit x.f 0)
  | 0x64 =>
      if x.f % 2 = 0 then onlyNone x (decPS x fun a b => .wake (trg x) a b (prof x.f))
      else none
  | 0x65 =>
      if x.f % 2 = 0 then onlyNone x (decPS x fun a b => .wbr (trg x) a b (prof x.f))
      else none
  | 0x66 =>
      onlyNone x (decPS x fun a b => .invr (trg x) a b (prof x.f) (bit x.f 0))
  | 0x67 =>
      if x.f % 2 = 0 then onlyNone x (decPS x fun a b => .freg (trg x) a b (prof x.f))
      else if x.f % 2 = 1 then onlyNone x (decPS x fun a b => .fres (trg x) a b (prof x.f))
      else none
  | 0x68 =>
      if x.f % 2 = 0 then onlyNone x (decPS x fun a b => .shcpy (trg x) a b (prof x.f))
      else none
  | 0x69 =>
      if x.f % 2 = 0 then onlyNone x (decPS x fun a b => .shtile (trg x) a b (prof x.f))
      else none
  | 0x6a =>
      if x.f % 2 = 0 then onlyNone x (decPS x fun a b => .shmcast (trg x) a b (prof x.f))
      else none
  | 0x6b =>
      if x.f % 2 = 0 then onlyNone x do let a ← pair x.a; zeros [x.b] (.shstrm (trg x) a (prof x.f))
      else if x.f % 2 = 1 then onlyNone x do let a ← pair x.a; zeros [x.b] (.shclose (trg x) a (prof x.f))
      else none
  | _ => none

/-- Opcodes 0x6c to 0x7f (R215). -/
def decodeGraphics (x : Fields) : Option Instr :=
  match x.op with
  | 0x6c =>
      onlyNone x do let a ← Src.ofCode x.a; let b ← Src.ofCode x.b; zeros [x.f] (.hprep (trg x) a b)
  | 0x6d =>
      onlyNone x do let a ← Src.ofCode x.a; let b ← Src.ofCode x.b; zeros [x.f] (.hwload (trg x) a b)
  | 0x6e =>
      onlyNone x do let a ← Src.ofCode x.a; let b ← Src.ofCode x.b; zeros [x.f] (.hmma (trg x) a b)
  | 0x6f =>
      do let d ← predReg x.d; let a ← Src.ofCode x.a; zeros [x.b, x.f] (.hwait (trg x) d a)
  | 0x70 =>
      do let d ← RDst.ofCode x.d; let a ← Src.ofCode x.a; let b ← Src.ofCode x.b; zeros [x.f] (.hdrain (trg x) d a b)
  | 0x71 =>
      onlyNone x do let a ← Src.ofCode x.a; let b ← Src.ofCode x.b; zeros [x.f] (.hzero (trg x) a b)
  | 0x72 =>
      if x.f = 0 then decDA0 x fun d a => .cbdec (trg x) d a
      else none
  | 0x73 =>
      onlyNone x do let a ← Src.ofCode x.a; let b ← Src.ofCode x.b; zeros [x.f] (.hcbload (trg x) a b)
  | 0x74 =>
      if x.f = 0 then decDAB x fun d a b => .binb (trg x) d a b
      else none
  | 0x75 =>
      if x.f < 4 then decMAB x fun d a b => .edge (trg x) d a b (low2 x.f)
      else none
  | 0x76 =>
      if x.f = 0 then decDAB x fun d a b => .bary (trg x) d a b
      else none
  | 0x77 =>
      if x.f = 0 then decDAB x fun d a b => .texb (trg x) d a b
      else none
  | 0x78 =>
      onlyNone x (if x.a = 24 then do let b ← Src.ofCode x.b; zeros [x.f] (.tnode (trg x) b) else none)
  | 0x79 =>
      if x.f = 0 then onlyNone x do let a ← Src.ofCode x.a; zeros [x.b] (.rspush (trg x) a)
      else if x.f = 1 then onlyNone x do let a ← Src.ofCode x.a; zeros [x.b] (.rspop (trg x) a)
      else none
  | 0x7a =>
      onlyNone x (if x.a = 24 then do let b ← Src.ofCode x.b; zeros [x.f] (.tisect (trg x) b) else none)
  | 0x7b =>
      if x.f = 0 then do let o ← chanNo x.d; zeros [x.a, x.b] (.rayout (trg x) o)
      else if x.f = 1 then onlyNone x do let n ← chanNo x.a; zeros [x.b] (.rayin (trg x) n)
      else none
  | 0x7c =>
      if x.f < 8 then do let d ← Dst.ofCode x.d; let n ← chanNo x.a; let b ← Src.ofCode x.b; pure (.blnd (trg x) d n b (low3 x.f))
      else none
  | 0x7d =>
      zeros [x.f] () |>.bind fun _ => decMAB x fun d a b => .zcmp (trg x) d a b
  | _ => none

/-- The instruction of a word whose fields are in their classes, before the checks of WellFormed. -/
def decodeFields (x : Fields) : Option Instr :=
  if x.op < 0x18 then decodeInteger x
  else if x.op < 0x30 then decodeLane x
  else if x.op < 0x4C then decodeFloat x
  else if x.op < 0x6C then decodeMemory x
  else decodeGraphics x

/-- The decoder: total on any word; none where DRAFTLD rejects the word (R220, R221). -/
def decode (w : Word) : Option Instr :=
  match decodeFields (fieldsOf w.toNat) with
  | some i => if i.wellFormed then some i else none
  | none => none

/-- The four bytes of a slot word as the draft image stores them, lowest first (R9, R219). -/
def wordBytes (w : Nat) : List Nat := [w % 256, w / 256 % 256, w / 65536 % 256, w / 16777216 % 256]

/-- A slot word read from its four bytes, little-endian (R9). -/
def wordOfBytes : List Nat → Option Word
  | [b0, b1, b2, b3] => some (BitVec.ofNat 32 (b0 % 256 + 256 * (b1 % 256) + 65536 * (b2 % 256) + 16777216 * (b3 % 256)))
  | _ => none

/-- The instruction of four bytes: total on any bytes, none for bytes that are no legal slot word. -/
def decodeBytes (bs : List Nat) : Option Instr := (wordOfBytes bs).bind decode

/-- The decoder asked by opcode-table bits: a row with a word has one 32-bit word. -/
def decodeTableWord (nbits w : Nat) : Option Instr :=
  if nbits = 32 then decodeBytes (wordBytes w) else none

end Sys2Proof
end

