-- ==== Sys2Proof/Machine/State.lean ====
section
/-! DEFINITION. The state of one KV-900 module as plain data, and its reset (INVENTORY.md, State). -/

namespace Sys2Proof.Machine

/-- A place of a launch that survives pre-emption: stage, replica index and footprint position (R181, R359).
Launch 0 stands for the resident graphs, with the global cell number as `pos`. -/
structure Seat where
  launch : Nat
  stage : Nat
  rep : Nat
  pos : Nat
  deriving DecidableEq, Repr

/-- A token: tag, payload, the seat whose part of the census it is charged to (R172, R182, R185), and the
stream that pushed it (R72, R73). -/
structure Token where
  tag : Word
  lanes : Lanes
  charge : Option Seat
  stream : Option Nat
  deriving DecidableEq, Repr

/-- What an access asks of the leaf it meets (R29, R143, R158, R289): a wait or wake is checked as an atomic that needs
no write permission, a future or a join record as one that refuses UO pages. -/
inductive Kind
  | load
  | store
  | ldx
  | stx
  | draft
  | atomic
  | mwcas
  | waita
  | future
  deriving DecidableEq, Repr

/-- What a context waits for before its instruction refires (R36, R41, R43, R45, R46, R71, R258): at a migrating leaf, its address and the
value met, with the addresses that the re-walk translates and what they are asked for; for the configuration period of a region, by the
seats of its cells, which it keeps over a pre-emption. -/
inductive Wait
  | migLeaf (leafPa value asid : Nat) (vas : List Nat) (kind : Kind)
  | sideRoom (pages : Nat)
  | sideByte (id page : Nat)
  | configPeriod (slot : Nat) (seats : List Seat)
  | streamSlot (slice : Nat)
  | walk (asid : Nat) (vas : List Nat)
  deriving DecidableEq, Repr

/-- A firing that takes more than one step: RAYOUT waiting for its grants, RAYIN merging (R343, R345). -/
inductive Multi
  | rayout (slot chan granted place : Nat)
  | rayin (slot chan need : Nat) (lanes : LaneMask) (held : List Lanes)
  deriving DecidableEq, Repr

/-- One context (R162, R163, R192, R203, R155, R253, R384). -/
structure Ctx where
  v : List Lanes
  p : BitVec 8
  m : List LaneMask
  fpflags : Nat
  srcnt : Word
  mwcnt : Nat
  exhausted : Bool
  swregion : Word
  xasid : Word
  pendV : BitVec 16
  pendM : BitVec 4
  heldBy : List Nat
  stored : List (Nat × Nat)
  wait : Option Wait
  asleep : Bool
  multi : Option Multi
  seq : Nat
  deriving DecidableEq, Repr

/-- An input channel: its tokens, oldest first, and reservations granted but not used (R162, R177). -/
structure Chan where
  tokens : List Token
  granted : Nat
  deriving DecidableEq, Repr

/-- The reservation of an output channel (R177); `used` belongs to a load that will send when it binds. -/
inductive OutRes
  | idle
  | requested
  | held
  | used
  deriving DecidableEq, Repr

/-- The state of an element that its contexts share (R162, R167, R170); `occupant` is the context and slot of a
firing that occupies the element until a queue or an access has room (R282, R301, R309). -/
structure Elem where
  lastFired : Nat
  ins : List Chan
  outs : List OutRes
  busyUntil : Nat
  occupant : Option (Nat × Nat)
  ctxs : List Ctx
  deriving DecidableEq, Repr

/-- One element's block of a draft (R219). -/
structure DraftElem where
  slots : List Word
  entries : List Nat
  consts : List Word
  profiles : List Nat
  routes : List Nat
  chans : List Nat
  deriving DecidableEq, Repr

/-- A draft (R180, R218); roles is none where the vector is inherited (R60). -/
structure Draft where
  elems : List DraftElem
  initp : List Nat
  sources : Nat
  roles : Option Nat
  woven : Nat
  pos : Nat
  image : List Nat
  deriving DecidableEq, Repr

/-- A translation cached in a TLB: pa is the frame base, leaf the leaf bits [14:2] in place, dirty one bit
per 4 KiB page of a 64 KiB entry, or bit 0 (R24, R34, R37). -/
structure TlbEntry where
  asid : Nat
  va : Nat
  size : Nat
  pa : Nat
  leaf : Nat
  dirty : Nat
  leafPa : Nat
  deriving DecidableEq, Repr

/-- A non-leaf entry cached by a die's walkers: its address and value (R36). -/
structure TableEntry where
  asid : Nat
  va : Nat
  level : Nat
  value : Nat
  deriving DecidableEq, Repr

/-- The state of a CCH copy (R90, R100); a missing line is I. -/
inductive CchState
  | shared
  | exclusive
  | modified
  | smPresent
  deriving DecidableEq, Repr

/-- A CCH line: physical address, way, state, bytes, dirty-byte mask, the two block descriptors and their
dirty bits, the not-recently-used mark, and until when an ownership is kept (R63, R74, R89, R93, R100). -/
structure CchLine where
  pa : Nat
  way : Nat
  st : CchState
  data : List Nat
  dirty : Nat
  descs : List Nat
  descDirty : Nat
  recent : Bool
  holdUntil : Nat
  described : Bool
  deriving DecidableEq, Repr

/-- One entry of the store side log: the page part of one store (R45 to R47). -/
structure SideEntry where
  id : Nat
  elem : Nat
  ctx : Nat
  slot : Nat
  opcode : Nat
  seq : Nat
  asid : Nat
  page : Nat
  profile : Nat
  lanes : List (Nat × Nat × List Nat)
  reduction : Option Nat
  width : Nat
  descs : List (Nat × Nat)
  mig : Option (Nat × Nat)
  order : Nat
  replaying : Bool
  deriving DecidableEq, Repr

/-- The resident record of the heddle array (R303). -/
structure HRecord where
  valid : Bool
  k : Nat
  pw : Nat
  hi : Bool
  deriving DecidableEq, Repr

/-- A command of the heddle queue (R309, R310, R422): progress counts 32-byte destination rows; `out` are the 32-byte rows of the
result under way that are still to be written, by address (R310). -/
structure HCmd where
  id : Nat
  opcode : Nat
  words : List Word
  offset : Int
  elem : Nat
  ctx : Nat
  slot : Nat
  m0 : LaneMask
  asid : Nat
  dst : Option Nat
  started : Bool
  paused : Option Nat
  progress : Nat
  wovenSeq : Nat
  chain0 : List Word
  chain1 : List Word
  out : List (Nat × List Nat)
  seq : Nat
  deriving DecidableEq, Repr

/-- An armed HWAIT watch: the predicate and the commands still awaited (R311). -/
structure HWatch where
  elem : Nat
  ctx : Nat
  pred : Nat
  awaited : List Nat
  deriving DecidableEq, Repr

/-- The heddle array of a cell (R303). -/
structure Heddle where
  weights : List Nat
  wexp : List Nat
  record : HRecord
  queue : List HCmd
  counts : List Nat
  watches : List HWatch
  wovenCount : Nat
  deriving DecidableEq, Repr

/-- A shuttle command (R294 to R301, R422): phase 0 not started, 1 moving payload, 2 flag stored, 3 future resolved; `pa` and `leaf` are
the translation of its block at firing (R131). -/
structure ShCmd where
  id : Nat
  opcode : Nat
  block : Nat
  pa : Nat
  leaf : Nat
  elem : Nat
  ctx : Nat
  slot : Nat
  m0 : LaneMask
  asid : Nat
  profile : Nat
  phase : Nat
  progress : Nat
  paused : Option Nat
  fields : List Nat
  buffer : List Nat
  seq : Nat
  deriving DecidableEq, Repr

/-- A shadow store: the validated draft and the address of its image (R257, R383). -/
structure Shadow where
  draft : Draft
  addr : Nat
  asid : Nat
  deriving DecidableEq, Repr

/-- A loaded cell (R58 to R64, R162, R180, R303); `imaged` is its part of the census as the last image of it has it (R422). -/
structure Cell where
  id : Nat
  seat : Option Seat
  region : Option Nat
  asid : Nat
  draft : Draft
  shadow : Option Shadow
  roles : Nat
  elems : List Elem
  sram : List Host.Cell
  dirtyRows : List Nat
  cch : List CchLine
  tlb : List TlbEntry
  sideLog : List SideEntry
  codebook : List Word
  heddle : Heddle
  shuttle : List ShCmd
  stopped : Bool
  running : Bool
  imaged : Option Int
  deriving DecidableEq, Repr

/-- The role of a bank: REG for banks 0 to 7, the role code for 8 to 95, none above (R59, R60). -/
inductive Role
  | reg | off | scr | acc | cch | absent
  deriving DecidableEq, Repr

/-- The end of a translation: a frame address with its leaf and the size of its page, a fault by code and cause, a leaf with MIG = 1 that
passes every check, or a walk that must wait (R29, R30, R36, R43, R93). -/
inductive Trans
  | busy
  | ok (pa leaf page : Nat)
  | fault (code cause : Nat)
  | mig (pa leaf leafPa value : Nat)
  deriving DecidableEq, Repr

/-- How the result of an outstanding access reaches the context (R282). -/
inductive Result
  | none
  | regs (n words : Nat)
  | send (chan : Nat) (tag : Word)
  | ldx (n : Nat)
  deriving DecidableEq, Repr

/-- What an outstanding access does (R108). -/
inductive AccOp
  | load
  | prefetch
  | store
  | stx
  | atomic (op : Nat)
  | waita
  | wake
  | wbr
  | inv (discard : Bool)
  | freg
  | fres
  deriving DecidableEq, Repr

/-- How far one part of an access has come: `failed` holds the fault's code and when it was found (R375); `inCell` is a store performed
at cell scope alone, in a software-managed copy that still holds it dirty (R126); `again` is a read that a stop has cancelled, which is
translated afresh (R158, R380). -/
inductive PartSt
  | waiting
  | again
  | failed (code time : Nat)
  | inCell
  | done
  deriving DecidableEq, Repr

/-- One lane or one page part of an access: its translation, the bytes it writes and the bytes it bound
(R108, R109, R127), or, of a part that is `inCell`, the places in its line of the bytes not yet merged at home. `word` is a
second operand: a comparand, a join address or a descriptor; `page` is the size of the page that translated it (R39). -/
structure Part where
  lane : Nat
  va : Nat
  pa : Nat
  size : Nat
  leaf : Nat
  page : Nat
  data : List Nat
  word : Nat
  st : PartSt
  bound : List Nat
  since : Nat
  deriving DecidableEq, Repr

/-- An outstanding memory access of a context (R107 to R117, R282): `told` says that its arc is set already, `passed` names the scope at
which an arc or a release has taken it as performed (R118, R130). -/
structure Access where
  id : Nat
  cell : Nat
  elem : Nat
  ctx : Nat
  slot : Nat
  opcode : Nat
  seq : Nat
  op : AccOp
  res : Result
  profile : Nat
  m0 : LaneMask
  asid : Nat
  parts : List Part
  flags : Nat
  acquire : Bool
  release : Bool
  told : Bool
  passed : Option Nat
  deriving DecidableEq, Repr

/-- A FENCE whose marked accesses are not yet all performed at its scope (R121); `reads` are the commands whose own descriptions
it marked as loads (R131). -/
structure Fence where
  id : Nat
  cell : Nat
  elem : Nat
  ctx : Nat
  seq : Nat
  after : Nat
  scope : Nat
  marked : List Nat
  reads : List Nat
  arc : Option Nat
  deriving DecidableEq, Repr

/-- A TLBINV in flight: form 0 page, 1 ASID, 2 all; the accesses translated before (R38, R39). -/
structure TlbInv where
  id : Nat
  cell : Nat
  elem : Nat
  ctx : Nat
  form : Nat
  asid : Nat
  va : Nat
  begun : Bool
  before : List Nat
  waitFor : List Nat
  arc : Option Nat
  deriving DecidableEq, Repr

/-- The stage of an MWCAS: `waiting` for the release condition of step 4, then its lock requests (R151, R154, R156). -/
inductive MwPhase
  | waiting
  | locking
  | queued (line : Nat)
  | paused
  | committed
  deriving DecidableEq, Repr

/-- An MWCAS in progress: entries are (virtual address, physical address, expected, new), none where its block is to be read again;
`pages` lists the sizes of its entries' pages, `fired` is when it fired, and so when an elder became one (R39, R149 to R157). -/
structure MwOp where
  id : Nat
  fired : Nat
  pages : List Nat
  cell : Nat
  elem : Nat
  ctx : Nat
  slot : Nat
  seq : Nat
  dst : Option Nat
  pred : Nat
  profile : Nat
  m0 : LaneMask
  asid : Nat
  block : Nat
  entries : List (Nat × Nat × Nat × Nat)
  locked : List Nat
  phase : MwPhase
  elder : Bool
  start : Nat
  since : Nat
  unacked : List Nat
  deriving DecidableEq, Repr

/-- A locked line: the holder, the queued elders in the order they became elder (R154). -/
structure LineLock where
  line : Nat
  holder : Nat
  queue : List Nat
  deriving DecidableEq, Repr

/-- A WAITA after its first read at home: `armed` while it sleeps on the word, oldest first (R158 to R160). -/
structure Watch where
  id : Nat
  cell : Nat
  elem : Nat
  ctx : Nat
  slot : Nat
  pa : Nat
  size : Nat
  comparand : Nat
  dst : Option Nat
  lane : Nat
  profile : Nat
  holder : Option Nat
  loan : Bool
  armed : Bool
  woken : Bool
  value : Nat
  seq : Nat
  va : Nat
  asid : Nat
  leaf : Nat
  page : Nat
  deriving DecidableEq, Repr

/-- An arrival on its way to a join record (R292, R293): `source` is the access or command whose update caused it. -/
structure Arrival where
  id : Nat
  source : Nat
  cell : Nat
  elem : Nat
  ctx : Nat
  slot : Nat
  opcode : Nat
  lane : Nat
  asid : Nat
  launch : Nat
  va : Nat
  profile : Nat
  paused : Option Nat
  deriving DecidableEq, Repr

/-- The mode of a region entry and of a per-line entry of the directory (R94, R95). An owner is a global
logical cell number, or 2048 for the host agent. -/
inductive DirMode
  | none
  | shr (dies : Nat)
  | own (owner : Nat)
  | ptrs (cells : List Nat)
  deriving DecidableEq, Repr

/-- A region entry: a mode, or 32 per-line entries of a line group (R94 to R97). -/
structure DirEntry where
  region : Nat
  mode : DirMode
  lines : Option (List DirMode)
  used : Nat
  deriving DecidableEq, Repr

/-- A recall under way for a line, and the holders that have not answered (R92, R93, R96). -/
structure Recall where
  line : Nat
  holders : List Nat
  forced : Bool
  deriving DecidableEq, Repr

/-- A line allocated in a selvage slice: its set's way, whether bytes of it have been written since it was fetched, and its
persistent mark (R65, R69, R87). -/
structure SliceLine where
  line : Nat
  way : Nat
  dirty : Bool
  persist : Bool
  touched : Bool
  deriving DecidableEq, Repr

/-- The pseudo-LRU bits of one set of a slice (R65). -/
structure SlicePlru where
  slice : Nat
  set : Nat
  bits : Nat
  deriving DecidableEq, Repr

/-- A merge-buffer entry of a router: the combined reduction, its contributions (access, part), the routers still on its path and
when it entered this one (R146 to R148). -/
structure MergeEntry where
  id : Nat
  router : Nat
  op : Nat
  size : Nat
  pa : Nat
  operand : Nat
  contribs : List (Nat × Nat)
  path : List Nat
  since : Nat
  deriving DecidableEq, Repr

/-- Where a route leads (R175): an input channel of a cell, or a stage queue. -/
inductive Target
  | chan (cell elem chan : Nat)
  | queue (launch stage : Nat)
  deriving DecidableEq, Repr

/-- The producer of a token or of a reservation request: an output channel, a RAYOUT's further grants,
a stream, a stage queue's dispatch or a die's event token (R177, R72, R179, R343, R372). -/
inductive Producer
  | out (cell elem chan : Nat)
  | ray (cell elem ctx : Nat)
  | stream (id : Nat)
  | dispatch (launch stage : Nat)
  | event (launch die : Nat)
  deriving DecidableEq, Repr

/-- Tokens on their way (R178, R344): `place` is the place in a queue that a packet takes, or, from a stream or for an event
token, the reservation request that still waits. -/
structure Flight where
  id : Nat
  source : Producer
  target : Target
  items : List Token
  place : Option Nat
  deriving DecidableEq, Repr

/-- A reservation request waiting at its target, in arrival order (R177). -/
structure GrantReq where
  id : Nat
  source : Producer
  target : Target
  deriving DecidableEq, Repr

/-- An item of a stage queue: a token, a ray packet as one unit, or the place a packet will take (R179, R344). -/
inductive QItem
  | tok (t : Token)
  | packet (ts : List Token)
  | place (id : Nat)
  deriving DecidableEq, Repr

/-- A stage queue (R179, R344, R355, R363): inDispatch is the rest of a packet and its replica, aside the
packets set aside for pre-empted replicas, and the dobby controller's two timers. -/
structure StageQueue where
  launch : Nat
  stage : Nat
  capacity : Nat
  homeDie : Nat
  items : List QItem
  granted : Nat
  lastServed : Nat
  inDispatch : Option (Nat × List Token)
  aside : List (Nat × List Token)
  growSince : Option Nat
  shrinkSince : Option Nat
  deriving DecidableEq, Repr

/-- A stage record (R355). -/
structure Stage where
  drafts : List Nat
  foot : Nat
  part : Nat
  dies : Nat
  minrep : Nat
  maxrep : Nat
  qcap : Nat
  growd : Nat
  growt : Nat
  shrd : Nat
  shrt : Nat
  deriving DecidableEq, Repr

/-- The state of a launch (R357 to R365): `ended` has lost its regions and still owes its completion record, with a status, a cause
and the time of its end. -/
inductive LaunchSt
  | waiting
  | resident
  | stopping
  | preempted
  | ended (status cause time : Nat)
  deriving DecidableEq, Repr

/-- A launch that has passed validation (R353 to R367); `tail` is its tail list, each entry with the number under which the hub
received it (R352, R365). -/
structure Launch where
  uid : Nat
  queue : Nat
  st : LaunchSt
  asid : Nat
  prio : Nat
  boost : Option Nat
  qscope : Nat
  irq : Bool
  rpt : Option Nat
  clkreq : Nat
  clkw : Nat
  pweight : Nat
  crec : Nat
  block : Nat
  fromTail : Bool
  ptab : Nat
  evstage : Nat
  wdog : Nat
  quantum : Nat
  roles : Nat
  stages : List Stage
  launchid : Nat
  admitted : Nat
  lastRun : Nat
  first : Nat
  faults : Nat
  tail : List (Nat × Nat)
  draining : List (Nat × Nat)
  deriving DecidableEq, Repr

/-- A region (R181, R185, R186, R253, R366): cells by global number, the watchdog's count at the die's last change of clocks and
the time it has counted from since, whether the region
has reported quiescence, and whether it is in a configuration period. -/
structure Region where
  die : Nat
  index : Nat
  launch : Nat
  cells : List Nat
  idle : Nat
  idleSince : Nat
  stalled : Bool
  reported : Bool
  period : Bool
  stopping : Bool
  lastImage : Option Nat
  depth : Nat
  deriving DecidableEq, Repr

/-- A pre-empted region: its image and the seats it held, with the die it left (R360, R386). -/
structure SavedRegion where
  launch : Nat
  die : Nat
  image : Nat
  seats : List Seat
  cells : List Cell
  deriving DecidableEq, Repr

/-- A CTXIMG in progress: form 0 full, 1 delta, 2 restore, with the m0 of its firing (R259, R375, R380, R386). -/
structure ImageOp where
  id : Nat
  cell : Nat
  elem : Nat
  ctx : Nat
  slot : Nat
  asid : Nat
  form : Nat
  image : Nat
  die : Nat
  region : Nat
  start : Nat
  paused : Option Nat
  seq : Nat
  m0 : LaneMask
  deriving DecidableEq, Repr

/-- A DRAFTLD's reads under way: lanes are (lane, virtual address, target cell) still to decide (R222, R257). -/
structure DraftLd where
  id : Nat
  cell : Nat
  elem : Nat
  ctx : Nat
  slot : Nat
  m0 : LaneMask
  asid : Nat
  profile : Nat
  seq : Nat
  lanes : List (Nat × Nat × Nat)
  deriving DecidableEq, Repr

/-- A selvage stream (R70 to R73): the next token's number, tokens pushed and popped; `ended` once its last token is on its
way, `cut` where a skip has left one last token of zeros to push; `pa` and `leaf` are the translation of its descriptor at firing. -/
structure Stream where
  id : Nat
  slice : Nat
  addr : Nat
  pa : Nat
  leaf : Nat
  cell : Nat
  elem : Nat
  ctx : Nat
  slot : Nat
  m0 : LaneMask
  launch : Nat
  asid : Nat
  opened : Bool
  closing : Bool
  desc : List Nat
  seat : Option Seat
  dest : Option Seat
  profile : Nat
  next : Nat
  pushed : Nat
  popped : Nat
  paused : Option Nat
  ended : Bool
  cut : Bool
  buf : List Nat
  seq : Nat
  deriving DecidableEq, Repr

/-- An SHCLOSE not yet complete (R302). -/
structure StreamClose where
  id : Nat
  cell : Nat
  elem : Nat
  ctx : Nat
  stream : Nat
  profile : Nat
  seat : Option Seat
  seq : Nat
  deriving DecidableEq, Repr

/-- One participant's port in a collective (R405, R406): of this module, or of another one with its source bytes. -/
structure CollPort where
  id : Nat
  die : Nat
  port : Nat
  cell : Nat
  elem : Nat
  ctx : Nat
  slot : Nat
  asid : Nat
  profile : Nat
  opcode : Nat
  addr : Nat
  block : List Nat
  colid : Nat
  joined : Nat
  seq : Nat
  lanes : Nat
  module : Nat
  src : List Nat
  deriving DecidableEq, Repr

/-- A traversal instruction in progress: the mask it fired under, the local partition, the lanes it acted on, and the rays of the lanes of
the mask after the step (R326, R337, R339, R341). -/
structure Traversal where
  id : Nat
  cell : Nat
  elem : Nat
  ctx : Nat
  m0 : LaneMask
  here : Nat
  acts : List Nat
  after : List (Nat × List Word)
  deriving DecidableEq, Repr

/-- A walk asked of a die's walkers ahead of an access, as a prefetch asks, and the cells that have joined it (R36, R284). -/
structure WalkReq where
  id : Nat
  die : Nat
  cells : List Nat
  asid : Nat
  va : Nat
  deriving DecidableEq, Repr

/-- A fault record's fields (R375); `id` links it to what it holds. -/
structure FRecord where
  id : Nat
  code : Nat
  cause : Nat
  flags : Nat
  opcode : Nat
  cell : Nat
  elem : Nat
  ctx : Nat
  slot : Nat
  launchid : Nat
  lanes : Nat
  addr : Nat
  profile : Nat
  asid : Nat
  time : Nat
  snap : Nat
  deriving DecidableEq, Repr

/-- What a handler's action on a record acts on (R379). -/
inductive RecordOf
  | firing (cell elem ctx slot : Nat)
  | brk (cell elem : Nat)
  | done (cell elem ctx : Nat)
  | logged (cell page asid : Nat)
  | shuttle (cell cmd : Nat)
  | heddle (cell cmd : Nat)
  | stream (id : Nat)
  | arrival (id : Nat)
  | access (id part : Nat)
  | mwcas (id : Nat)
  | image (id : Nat)
  | collective
  | stall (die region : Nat)
  | grow (launch : Nat)
  deriving DecidableEq, Repr

/-- A record waiting for ring space, or open under its sequence number (R377, R378), with the cell that its context is in now. -/
structure OpenRecord where
  record : FRecord
  of : RecordOf
  seq : Option Nat
  launch : Nat
  cell : Nat
  deriving DecidableEq, Repr

/-- The registers and walkers of one loom die (R34, R36, R88, R369 to R373, R377, R405). -/
structure Die where
  tlb : List TlbEntry
  tableCache : List TableEntry
  corr : Nat
  uncorr : Nat
  fqbase : Nat
  fqprod : Nat
  fqcons : Nat
  fqact : Nat
  fqdoor : Nat
  badact : Bool
  records : List OpenRecord
  budget : Nat
  overBudget : Bool
  grant : Nat
  pending : Option Nat
  changes : Nat
  ptable : List Nat
  disabled : List Nat
  resident : List Nat
  colpush : List Nat
  dobbyNext : Nat
  deriving DecidableEq, Repr

/-- A launch queue (R351 to R353, R362): pushed entries are block addresses, `read` the block of the pushed head once it has been
read; spliced tail launches come before them, each with
the number under which the hub received it, its address and its block as read when its parent retired, empty where it could not be
read. -/
structure LQueue where
  addr : Nat
  en : Bool
  irqen : Bool
  quantum : Nat
  irq : Bool
  ovf : Bool
  pushed : List Nat
  read : List Nat
  spliced : List (Nat × Nat × List Nat)
  headSince : Nat
  deriving DecidableEq, Repr

/-- A migration request (R50 to R53, R55): step 1 walk to 3 set MIG, 4 TLBINV, 6 copy; eviction marks a
request the engine made itself. -/
structure MigReq where
  id : Nat
  block : Nat
  asid : Nat
  size : Nat
  dest : Nat
  irq : Bool
  va : Nat
  frame : Nat
  crec : Nat
  phase : Nat
  leafPa : Nat
  leaf : Nat
  inv : Nat
  flush : List Nat
  eviction : Bool
  deriving DecidableEq, Repr

/-- A completed migration remembered for the pin rule, or a pin (R52, R53). -/
structure PinEntry where
  asid : Nat
  va : Nat
  towardHost : Bool
  time : Nat
  pinned : Bool
  deriving DecidableEq, Repr

/-- The migration engine (R49 to R57); `nospace`: an eviction has ended NOSPACE since a frame last joined a list of placement 1. -/
structure Mig where
  push : Nat
  free : Nat
  low : Nat
  high : Nat
  en : Bool
  irqen : Bool
  evq : Nat
  evp : Nat
  evc : Nat
  ovf : Bool
  badf : Bool
  done : Bool
  hbase : Nat
  requests : List MigReq
  free4k : List (List Nat)
  free2m : List (List Nat)
  history : List PinEntry
  clockHand : List (Nat × Nat)
  evicting : Bool
  nospace : Bool
  deriving DecidableEq, Repr

/-- The hub's other registers (R2, R19, R78, R373, R402, R420). -/
structure Hub where
  grade : Nat
  asidBase : Nat
  asidEn : Bool
  modnum : Nat
  modWritten : Bool
  residentL4 : Nat
  enumBase : Nat
  enumValid : Bool
  enumTable : List Nat
  imageNext : Nat
  cap : Nat
  allow : Nat
  short : Bool
  dommask : Nat
  domgrade : List Nat
  norec : Nat
  uepkt : Nat
  splitNext : Nat
  deriving DecidableEq, Repr

/-- The resident scheduler (R253, R358, R362): the last queue admitted at each level, identifiers' generations,
the launch whose victims are being stopped, and whether a step is owed. -/
structure Sched where
  lastQueue : List Nat
  gens : List (Nat × Nat)
  stoppingFor : Option Nat
  owed : Bool
  nextUid : Nat
  deriving DecidableEq, Repr

/-- The firing that exec runs (log 5): a cell, an element, a context and the slot. -/
structure Firing where
  cell : Nat
  elem : Nat
  ctx : Nat
  slot : Nat
  deriving DecidableEq, Repr

/-- What the script of the outside picks at a step (log 1): a firing that is due, an event of the machine or of the outside, or
time passing, in units of time (Config.ps). -/
inductive Pick
  | fire (f : Firing)
  | event (i : Instr)
  | elapse (ps : Nat)
  deriving DecidableEq, Repr

/-- Why an execution may stop (only where the spec gives no effect). -/
inductive Fault
  /-- Raised by a host or remote-module access to a physical address that does not exist (R16, R17); safe. -/
  | unpopulatedAddress (pa : Nat)
  deriving DecidableEq, Repr

/-- Why the model refuses. -/
inductive Refusal
  /-- Raised by Dispatch for an instruction without a meaning; safe. -/
  | notModelled (mnemonic : String)
  deriving DecidableEq, Repr

/-- The array that a soft error stands in (R87): a cell's SRAM pool, its codebook, an element's slots or trigger table, a slice's
copy of a line, its tags or its directory, or the memory behind it. -/
inductive Place
  | sram (cell : Nat)
  | codebook (cell : Nat)
  | slots (cell elem : Nat)
  | entries (cell elem : Nat)
  | sliceData
  | sliceTag
  | directory
  | memory
  deriving DecidableEq, Repr

/-- A soft error the outside has put into a 64-bit word of an array (R87): `addr` is the word's byte address there, a physical one
for a slice, its tags, the directory and memory; `double` marks an uncorrectable one (log 23). -/
structure Upset where
  place : Place
  addr : Nat
  double : Bool
  deriving DecidableEq, Repr

/-- The machine. mem is the memory of the whole load-store domain by 52-bit physical address in canonical
form (log 2, log 9); a cell that no draft has been loaded into is not in `cells`; `servedNow` are the lines whose homes have served
an atomic or a lock request in this E-domain cycle, each with the cycle and the requester's number (R145); `persistNext`, `sliceScrubs` and
`cellScrubs` are the instants by which each slice and cell sweeps or scrubs next (R69, R87); `hostCopies` are the lines that the host agent holds for its cores (R98). -/
structure State where
  mem : List Host.Cell
  cells : List Cell
  census : List (Seat × Int)
  accs : List Access
  fences : List Fence
  invs : List TlbInv
  mwops : List MwOp
  locks : List LineLock
  watches : List Watch
  arrivals : List Arrival
  dir : List DirEntry
  hostCopies : List CchLine
  recalls : List Recall
  sliceLines : List SliceLine
  plru : List SlicePlru
  merges : List MergeEntry
  flights : List Flight
  grants : List GrantReq
  queues : List StageQueue
  launches : List Launch
  regions : List Region
  saved : List SavedRegion
  images : List ImageOp
  draftlds : List DraftLd
  streams : List Stream
  closes : List StreamClose
  colls : List CollPort
  traversals : List Traversal
  walks : List WalkReq
  dies : List Die
  lqueues : List LQueue
  mig : Mig
  hub : Hub
  sched : Sched
  time : Nat
  persistNext : List Nat
  sliceScrubs : List Nat
  cellScrubs : List Nat
  upsets : List Upset
  servedNow : List (Nat × Nat × Nat)
  nextId : Nat
  hostValue : Nat
  cur : Firing
  env : List Pick
  deriving DecidableEq, Repr

/-- A loom die right after reset: empty translation caches and fault queue, grant V0 M0 N4 E6 (R88, R373, R377);
fuses and power tables are firmware's (log 4). -/
def Die.reset : Die :=
  { tlb := [], tableCache := [], corr := 0, uncorr := 0, fqbase := 0, fqprod := 0, fqcons := 0, fqact := 0,
    fqdoor := 0, badact := false, records := [], budget := 0, overBudget := false, grant := 0x0046, pending := none,
    changes := 0, ptable := [], disabled := [], resident := [], colpush := [0, 0], dobbyNext := 1000000 * Config.ps }

/-- A launch queue right after reset (R351). -/
def LQueue.reset : LQueue :=
  { addr := 0, en := false, irqen := false, quantum := 0, irq := false, ovf := false, pushed := [], read := [],
    spliced := [], headSince := 0 }

/-- The migration engine right after reset of a KV-960: MIGHBASE holds DSBASEL (R56, R57). -/
def Mig.reset : Mig :=
  { push := 0, free := 0, low := 0, high := 0, en := false, irqen := false, evq := 0, evp := 0, evc := 0,
    ovf := false, badf := false, done := false, hbase := 0xFA00000000, requests := [],
    free4k := [[], [], []], free2m := [[], [], []], history := [], clockHand := [], evicting := false, nospace := false }

/-- The hub right after reset of a KV-960 (log 3): PWRCAP 2,200 (R373), the rest 0 (R19, R78, R402, R420). -/
def Hub.reset : Hub :=
  { grade := 0x60, asidBase := 0, asidEn := false, modnum := 0, modWritten := false, residentL4 := 0,
    enumBase := 0, enumValid := false, enumTable := [], imageNext := 0, cap := 2200, allow := 0,
    short := false, dommask := 0, domgrade := List.replicate 64 0, norec := 0, uepkt := 0,
    splitNext := 50000000 * Config.ps }

def Sched.reset : Sched :=
  { lastQueue := List.replicate 8 63, gens := [], stoppingFor := none, owed := false, nextUid := 1 }

/-- The module right after reset, before hub firmware's bring-up (R408): no cell loaded, memory unlisted. -/
def State.reset : State :=
  { mem := [], cells := [], census := [], accs := [], fences := [], invs := [], mwops := [], locks := [],
    watches := [], arrivals := [], dir := [], hostCopies := [], recalls := [], sliceLines := [], plru := [], merges := [],
    flights := [], grants := [], queues := [], launches := [], regions := [], saved := [], images := [],
    draftlds := [], streams := [], closes := [], colls := [], traversals := [], walks := [],
    dies := List.replicate 8 Die.reset, lqueues := List.replicate 64 LQueue.reset, mig := Mig.reset,
    hub := Hub.reset, sched := Sched.reset, time := 0, persistNext := List.replicate 384 (256000000 * Config.ps),
    sliceScrubs := List.replicate 384 (10000000000000 * Config.ps), cellScrubs := List.replicate 2048 (1000000000000 * Config.ps), upsets := [],
    servedNow := [], nextId := 1,
    hostValue := 0, cur := ⟨0, 0, 0, 0⟩, env := [] }

/-- An access of the hub: the bytes and the state after it, a fault, or a wait for a migrating leaf (R353, R357). -/
inductive HubResult
  | wait
  | fault (code cause va : Nat)
  | ok (bs : List Nat) (s : State)
  deriving DecidableEq, Repr

end Sys2Proof.Machine
end

