-- ==== Sys2Proof/Machine/Mem.lean ====
section
/-! DEFINITION. Byte memory in one canonical form, for the physical memory and for a cell's SRAM: addresses
strictly rising, no listed byte equal to 0, which is what an unlisted address reads as (log 2). -/

namespace Sys2Proof.Machine

/-- The canonical form: addresses strictly rising, no listed byte is 0. -/
abbrev Memory.wf (m : List Host.Cell) : Prop :=
  m.Pairwise (fun x y => x.1 < y.1) ∧ ∀ c ∈ m, c.2 ≠ 0

/-- The byte at an address; an unlisted address reads 0 (log 2). -/
def memRead (m : List Host.Cell) (a : Nat) : Nat :=
  match m.find? (fun c => c.1 == a) with
  | some c => c.2.toNat
  | none => 0

/-- n bytes from an address. -/
def memBytes (m : List Host.Cell) (a n : Nat) : List Nat := (List.range n).map fun i => memRead m (a + i)

/-- Little-endian value of n bytes (R9). -/
def memNat (m : List Host.Cell) (a n : Nat) : Nat := leNat (memBytes m a n)

/-- The entries of a run of bytes from an address, without the bytes equal to 0. -/
def runCells (a : Nat) : List Nat → List Host.Cell
  | [] => []
  | b :: bs => if BitVec.ofNat 8 b = 0 then runCells (a + 1) bs else (a, BitVec.ofNat 8 b) :: runCells (a + 1) bs

/-- A run of bytes stored from an address on. -/
def memStore (m : List Host.Cell) (a : Nat) (bs : List Nat) : List Host.Cell :=
  m.filter (fun c => c.1 < a) ++ runCells a bs ++ m.filter (fun c => a + bs.length ≤ c.1)

/-- The bytes of a run that a mask selects, stored as one event; bit i of the mask for byte i (R91). -/
def memStoreMasked (m : List Host.Cell) (a mask : Nat) (bs : List Nat) : List Host.Cell :=
  memStore m a ((bs.zip (List.range bs.length)).map fun p => if bit mask p.2 then p.1 else memRead m (a + p.2))

end Sys2Proof.Machine
end

