-- ==== Sys2Proof/Machine/Ops.lean ====
section
/-! DEFINITION. The shared operations of the machine: cells, elements and contexts, registers, tokens, the census,
the end of a firing, and raising a fault record with its handler's release
(07_execution_model.md R162 to R187, 16_traps_and_preemption.md R374 to R379). -/

namespace Sys2Proof.Machine

/-- The outcome of a meaning. -/
abbrev Out := Host.Outcome State Fault Refusal

/-! Blank state of R163. -/

def Ctx.blank : Ctx :=
  { v := List.replicate 16 [], p := 0, m := [BitVec.allOnes 64, 0, 0, 0], fpflags := 0, srcnt := 0, mwcnt := 0,
    exhausted := false, swregion := 0, xasid := 0, pendV := 0, pendM := 0, heldBy := [], stored := [],
    wait := none, asleep := false, multi := none, seq := 0 }

def Chan.blank : Chan := { tokens := [], granted := 0 }

def Elem.blank : Elem :=
  { lastFired := 3, ins := List.replicate 8 Chan.blank, outs := List.replicate 8 .idle, busyUntil := 0,
    occupant := none, ctxs := List.replicate 4 Ctx.blank }

def DraftElem.blank : DraftElem :=
  { slots := [], entries := [], consts := [], profiles := [], routes := [], chans := [] }

def Draft.blank : Draft :=
  { elems := List.replicate 4 DraftElem.blank, initp := [], sources := 0, roles := none, woven := 0, pos := 0,
    image := [] }

def Heddle.blank : Heddle :=
  { weights := [], wexp := [], record := ⟨false, 0, 0, false⟩, queue := [], counts := List.replicate 8 0,
    watches := [], wovenCount := 0 }

def Cell.blank (id : Nat) : Cell :=
  { id := id, seat := none, region := none, asid := 0, draft := Draft.blank, shadow := none, roles := 0,
    elems := List.replicate 4 Elem.blank, sram := [], dirtyRows := [], cch := [], tlb := [], sideLog := [],
    codebook := List.replicate 256 0, heddle := Heddle.blank, shuttle := [], stopped := false, running := false, imaged := none }

/-! Looking up and updating. -/

def State.cell (s : State) (id : Nat) : Cell := (s.cells.find? (·.id == id)).getD (Cell.blank id)
def State.setCell (s : State) (id : Nat) (f : Cell → Cell) : State :=
  { s with cells := updateWhere (·.id == id) f s.cells }
def Cell.elem (c : Cell) (e : Nat) : Elem := c.elems.getD e Elem.blank
def Elem.ctx (e : Elem) (x : Nat) : Ctx := e.ctxs.getD x Ctx.blank
def Elem.chan (e : Elem) (n : Nat) : Chan := e.ins.getD n Chan.blank
def Cell.ctx (c : Cell) (e x : Nat) : Ctx := (c.elem e).ctx x
def Cell.setElem (c : Cell) (e : Nat) (f : Elem → Elem) : Cell := { c with elems := modifyAt c.elems e f }
def Elem.setCtx (e : Elem) (x : Nat) (f : Ctx → Ctx) : Elem := { e with ctxs := modifyAt e.ctxs x f }
def Elem.setChan (e : Elem) (n : Nat) (f : Chan → Chan) : Elem := { e with ins := modifyAt e.ins n f }
def State.setElem (s : State) (c e : Nat) (f : Elem → Elem) : State := s.setCell c fun k => k.setElem e f
def State.setCtx (s : State) (c e x : Nat) (f : Ctx → Ctx) : State := s.setElem c e fun k => k.setCtx x f
def State.ctxOf (s : State) (c e x : Nat) : Ctx := (s.cell c).ctx e x
def Cell.draftElem (c : Cell) (e : Nat) : DraftElem := c.draft.elems.getD e DraftElem.blank
def State.die (s : State) (d : Nat) : Die := s.dies.getD d Die.reset
def State.setDie (s : State) (d : Nat) (f : Die → Die) : State := { s with dies := modifyAt s.dies d f }
def State.launch? (s : State) (uid : Nat) : Option Launch := s.launches.find? (·.uid == uid)
def State.setLaunch (s : State) (uid : Nat) (f : Launch → Launch) : State :=
  { s with launches := updateWhere (·.uid == uid) f s.launches }
def State.setRegion (s : State) (die index : Nat) (f : Region → Region) : State :=
  { s with regions := updateWhere (fun r => r.die == die && r.index == index) f s.regions }

/-- The die of a global logical cell number (R78). -/
def dieOf (cell : Nat) : Nat := cell / 256

/-- The current firing's cell, element state and context. -/
def State.curCell (s : State) : Cell := s.cell s.cur.cell
def State.curElem (s : State) : Elem := s.curCell.elem s.cur.elem
def State.curCtx (s : State) : Ctx := s.curElem.ctx s.cur.ctx
def State.curDraft (s : State) : DraftElem := s.curCell.draftElem s.cur.elem
def State.setCurCtx (s : State) (f : Ctx → Ctx) : State := s.setCtx s.cur.cell s.cur.elem s.cur.ctx f

/-- The execution mask m0 of the current context (R164). -/
def State.m0 (s : State) : LaneMask := s.curCtx.m.getD 0 0

/-- A fresh identifier. -/
def State.newId (s : State) : Nat × State := (s.nextId, { s with nextId := s.nextId + 1 })

/-! Launch facts of a cell. -/

/-- The launch uid a cell works for; 0 for a resident cell or a free one. -/
def Cell.launchUid (c : Cell) : Nat := match c.seat with | some t => t.launch | none => 0
def State.launchidOf (s : State) (uid : Nat) : Nat := match s.launch? uid with | some l => l.launchid | none => 0
def State.cellOfSeat (s : State) (t : Seat) : Option Nat := (s.cells.find? (·.seat == some t)).map (·.id)

/-- An admission step is owed (R358). -/
def State.stepOwed (s : State) : State := { s with sched := { s.sched with owed := true } }
/-- A recomputation of the power split is due at once (R370). -/
def State.splitSoon (s : State) : State := { s with hub := { s.hub with splitNext := s.time } }

/-! Time (R10, R253, R368). -/

/-- One cycle of a domain at clock code g, exactly: 16 / (1.05 (8 + g)) ns (R10). -/
def period (g : Nat) : Nat := 320000 * 5354228880 / (8 + g)
def grantCode (grant hi lo : Nat) : Nat := bits grant hi lo
/-- A cycle of the elements, of the heddle array, of the routers and of the slices of a die, at its granted codes (R368). -/
def State.vPeriod (s : State) (die : Nat) : Nat := period (grantCode (s.die die).grant 15 12)
def State.mPeriod (s : State) (die : Nat) : Nat := period (grantCode (s.die die).grant 11 8)
def State.nPeriod (s : State) (die : Nat) : Nat := period (grantCode (s.die die).grant 7 4)
def State.ePeriod (s : State) (die : Nat) : Nat := period (grantCode (s.die die).grant 3 0)
/-- SYSR time: 1 ns ticks since module reset (R253). -/
def State.ticks (s : State) : Nat := s.time / (1000 * Config.ps) % 2 ^ 64

/-! Profiles and trigger entries (R213, R214). -/

def scopeOf (p : Nat) : Nat := p % 8
/-- Who accesses memory (R107, R110): the contexts and engines of a cell, or the slices, streams and ports of a die. -/
inductive Agent
  | cell (id : Nat)
  | die (d : Nat)
  deriving DecidableEq, Repr

/-- An agent lies within a scope measured from a cell: that cell alone, all of its die, and from package scope all of the module
(R110). -/
def inScope (scope a : Nat) (b : Agent) : Bool :=
  match scope, b with
  | 0, .cell c => a == c
  | 0, .die _ => false
  | 1, .cell c => dieOf a == dieOf c
  | 1, .die d => dieOf a == d
  | _, _ => true
def orderOf (p : Nat) : Nat := p / 8 % 4
def arcOf (p : Nat) : Option Nat := if bit p 8 then some (p / 32 % 8) else none
def hintOf (p : Nat) : Nat := p / 512 % 4
def holdOf (p : Nat) : Bool := bit p 11
/-- Profile aN of an element's draft. -/
def State.profile (s : State) (p : Nat) : Nat := s.curDraft.profiles.getD p 0

def eCare (e : Nat) : Nat := e % 256
def eVal (e : Nat) : Nat := e / 2 ^ 8 % 256
def eNeedIn (e : Nat) : Nat := e / 2 ^ 16 % 256
def eNeedOut (e : Nat) : Nat := e / 2 ^ 24 % 256
def ePop (e : Nat) : Nat := e / 2 ^ 32 % 256
def eSet (e : Nat) : Nat := e / 2 ^ 40 % 256
def eClr (e : Nat) : Nat := e / 2 ^ 48 % 256
def eCtxs (e : Nat) : Nat := e / 2 ^ 56 % 16
def eCinc (e : Nat) : Bool := bit e 60
def eCdec (e : Nat) : Bool := bit e 61
/-- What an entry's CINC and CDEC add to the census (R168). -/
def eDelta (e : Nat) : Int := (if eCinc e then 1 else 0) - (if eCdec e then 1 else 0)
def eSrcend (e : Nat) : Bool := bit e 62

/-- The trigger entry that a firing's TRG names (R166). -/
def State.entry (s : State) (t : Fin 64) : Nat := s.curDraft.entries.getD t.val 0

/-- The entry matches context x with predicates p (R165). -/
def entryMatches (e x : Nat) (p : Nat) : Bool := bit (eCtxs e) x && Nat.land p (eCare e) == Nat.land (eVal e) (eCare e)

/-! Registers. -/

/-- The SRAM rows of lanes of v(n) of context k = 4e + x (R59), as bit numbers 256b + r of R385. -/
def regRow (k n l : Nat) : Nat := 256 * (k / 2) + 128 * (k % 2) + 8 * n + l / 8

/-- Rows marked dirty; marks are kept once each (R385). -/
def markRows (rows new : List Nat) : List Nat :=
  new.foldl (fun acc r => if acc.contains r then acc else acc ++ [r]) rows

/-- Register n of a context replaced in the lanes of a mask (R164, R385). -/
def State.writeRegOf (s : State) (c e x n : Nat) (m : LaneMask) (f : Nat → Word) : State :=
  let s := s.setCtx c e x fun k =>
    { k with v := modifyAt k.v n fun old => tab fun l => if inMask m l then f l else lane old l }
  s.setCell c fun k => { k with dirtyRows := markRows k.dirtyRows ((lanesOf m).map (regRow (4 * e + x) n)) }

/-- Register n of the current context written in the lanes of a mask. -/
def State.writeReg (s : State) (n : Nat) (m : LaneMask) (f : Nat → Word) : State :=
  s.writeRegOf s.cur.cell s.cur.elem s.cur.ctx n m f

/-- Mask n of the current context written whole (R228). -/
def State.writeMask (s : State) (n : Nat) (m : LaneMask) : State :=
  s.setCurCtx fun k => { k with m := k.m.set n m }

/-- Predicate n of a context written. -/
def setPred (p : BitVec 8) (n : Nat) (b : Bool) : BitVec 8 :=
  if b then p ||| (1#8 <<< n) else p &&& ~~~(1#8 <<< n)
def State.setPredOf (s : State) (c e x n : Nat) (b : Bool) : State :=
  s.setCtx c e x fun k => { k with p := setPred k.p n b }
def State.writePred (s : State) (n : Nat) (b : Bool) : State :=
  s.setPredOf s.cur.cell s.cur.elem s.cur.ctx n b

/-- A completion arc: the predicate of the context is set (R115). -/
def State.setArc (s : State) (c e x : Nat) (arc : Option Nat) : State :=
  match arc with
  | some n => s.setPredOf c e x n true
  | none => s

/-! The census (R182, R185). -/

/-- A seat's part of the census, changed. -/
def chargeGo (k : Seat) (n : Int) : List (Seat × Int) → List (Seat × Int)
  | [] => [(k, n)]
  | (k', v) :: r => if k' = k then (k', v + n) :: r else (k', v) :: chargeGo k n r

/-- A change of the census charged to a cell's seat; a free cell has no region to charge. DEDUCED (log 25). -/
def State.charge (s : State) (k : Option Seat) (n : Int) : State :=
  match k with
  | some k => { s with census := chargeGo k n s.census }
  | none => s
def State.partOf (s : State) (k : Option Seat) : Int :=
  match k with
  | some k => match s.census.find? (·.1 == k) with | some p => p.2 | none => 0
  | none => 0

/-- A region's census: the signed 32-bit sum of its cells' parts (R182, R185). -/
def State.regionCensus (s : State) (r : Region) : Int :=
  signed 32 (wrapInt 32 ((r.cells.map fun c => s.partOf (s.cell c).seat).sum))

def State.regionOf (s : State) (c : Nat) : Option Region := s.regions.find? (·.cells.contains c)

/-- A cell that fires withdraws its idle report (R185). -/
def State.stir (s : State) (c : Nat) : State :=
  let mark := fun r : Region => { r with reported := false }
  { s with regions := updateWhere (fun r => r.cells.contains c) mark s.regions }

/-- Token and census traffic of a cell also restarts the watchdog (R366). -/
def State.touch (s : State) (c : Nat) : State :=
  let mark := fun r : Region => { r with reported := false, idle := 0, idleSince := s.time }
  { s with regions := updateWhere (fun r => r.cells.contains c) mark s.regions }

/-! Tokens, routes and reservations (R172 to R179). -/

def widthOfCode (k : Nat) : Nat := match k with | 0 => 1 | 1 => 16 | 2 => 32 | _ => 64
def routeKind (r : Nat) : Nat := bits r 31 30
def routeWidth (r : Nat) : Nat := widthOfCode (bits r 29 28)

/-- Where a route of a cell leads (R175). -/
def State.routeTarget (s : State) (c : Cell) (r : Nat) : Option Target :=
  match routeKind r with
  | 1 => some (.chan c.id (bits r 7 6) (bits r 5 3))
  | 2 => match c.seat with
    | some t => (s.cellOfSeat { t with pos := bits r 19 16 }).map fun id => .chan id (bits r 7 6) (bits r 5 3)
    | none => none
  | 3 => some (.queue c.launchUid (bits r 15 8))
  | _ => none

def State.routeOf (s : State) (c e n : Nat) : Nat := ((s.cell c).draftElem e).routes.getD n 0

/-- A reservation is requested at its target (R177). -/
def State.request (s : State) (src : Producer) (t : Target) : State :=
  let (id, s) := s.newId
  { s with grants := s.grants ++ [⟨id, src, t⟩] }

/-- Output channel n asks for its next reservation (R177). -/
def State.requestOut (s : State) (c e n : Nat) : State :=
  match s.routeTarget (s.cell c) (s.routeOf c e n) with
  | some t => (s.setElem c e fun k => { k with outs := k.outs.set n .requested }).request (.out c e n) t
  | none => s.setElem c e fun k => { k with outs := k.outs.set n .idle }

/-- Tokens leave a producer for a target (R178). -/
def State.launchTokens (s : State) (src : Producer) (t : Target) (ts : List Token) (place : Option Nat) : State :=
  let (id, s) := s.newId
  { s with flights := s.flights ++ [⟨id, src, t, ts, place⟩] }

/-- One token sent on an output channel: the reservation is consumed, the census gains 1, and the channel
asks again (R168, R174, R177, R182). -/
def State.sendOn (s : State) (c e n : Nat) (tag : Word) (lanes : Lanes) : State :=
  let k := s.cell c
  match s.routeTarget k (s.routeOf c e n) with
  | some t =>
      let s := s.launchTokens (.out c e n) t [⟨tag, lanes, k.seat, none⟩] none
      ((s.charge k.seat 1).touch c).requestOut c e n
  | none => s

/-- The tag of a sent token: that of the head of the lowest channel in POP, or 0 (R174). -/
def State.sendTag (s : State) (t : Fin 64) : Word :=
  match bitsSet 8 (ePop (s.entry t)) with
  | n :: _ => match (s.curElem.chan n).tokens with | k :: _ => k.tag | [] => 0
  | [] => 0

/-- A token leaves a channel by a pop: the charged part loses 1, and a stream's window advances (R168, R73, R182). -/
def State.popped (s : State) (t : Token) : State :=
  let s := s.charge t.charge (-1)
  match t.stream with
  | some id => { s with streams := updateWhere (·.id == id) (fun k => { k with popped := k.popped + 1 }) s.streams }
  | none => s

/-- The head of an input channel is popped. -/
def State.popChan (s : State) (c e n : Nat) : State :=
  match (((s.cell c).elem e).chan n).tokens with
  | t :: _ => ((s.setElem c e fun k => k.setChan n fun h => { h with tokens := h.tokens.drop 1 }).popped t).touch c
  | [] => s

/-! The end of a firing (R168 steps 4 to 7, R167, R170). -/

/-- The firing took the element's cycle and its extra cycles; the context is last_fired (R167, R170). -/
def State.spend (s : State) (extra : Nat) : State :=
  s.setElem s.cur.cell s.cur.elem fun k =>
    { k with lastFired := s.cur.ctx, occupant := none, busyUntil := s.time + (1 + extra) * s.vPeriod (dieOf s.cur.cell) }

/-- Pops, PSET then PCLR, the census effects and SRCEND of an entry (R168). -/
def State.effects (s : State) (t : Fin 64) : State :=
  let e := s.entry t
  let c := s.cur
  let s := (bitsSet 8 (ePop e)).foldl (fun s n => s.popChan c.cell c.elem n) s
  let s := s.setCurCtx fun k =>
    { k with p := (k.p ||| BitVec.ofNat 8 (eSet e)) &&& ~~~(BitVec.ofNat 8 (eClr e))
             exhausted := k.exhausted || eSrcend e }
  if eDelta e = 0 then s else (s.charge s.curCell.seat (eDelta e)).touch c.cell

/-- Every firing that completes ends here: the effects of its entry, then the element's cycles. -/
def State.endFiring (s : State) (t : Fin 64) (extra : Nat) : State :=
  let s := s.effects t
  let s := s.setCurCtx fun k => { k with seq := k.seq + 1 }
  (s.spend extra).stir s.cur.cell

/-- A firing that stays unfired and is tested again: the element's cycle is used (R41, R167). -/
def State.stay (s : State) (w : Wait) : State :=
  (s.setCurCtx fun k => { k with wait := some w }).spend 0

/-! Faults: the one way a record is raised (R374, R375, R377, R378, R41, R230). -/

def fTranslation : Nat := 0x01
def fPermission : Nat := 0x02
def fPageKind : Nat := 0x03
def fAlignment : Nat := 0x04
def fFormat : Nat := 0x05
def fNodeFormat : Nat := 0x06
def fMwcasParam : Nat := 0x07
def fDoubleResolve : Nat := 0x08
def fHeddleShape : Nat := 0x09
def fDraftValidation : Nat := 0x0A
def fRegionStall : Nat := 0x0B
def fUncorrectable : Nat := 0x0C
def fMemoryTimeout : Nat := 0x0D
def fPrivilege : Nat := 0x0E
def fTrap : Nat := 0x0F
def fBrk : Nat := 0x10

/-- Flag bits of a record (R375). -/
def rLogged : Nat := 1
def rEngine : Nat := 2
def rDone : Nat := 4
def rSnap : Nat := 8

/-- What a fault says of itself (R375). -/
abbrev FaultInfo := Nat × Nat × Nat × Nat
def mkFault (code cause lanes addr : Nat) : FaultInfo := (code, cause, lanes, addr)

/-- A record about a context's work joins its die's fault queue (R374, R378); it is written by FAULT_RECORD_WRITE. -/
def State.pushRecordAt (s : State) (time c e x slot opcode : Nat) (flags profile : Nat) (f : FaultInfo) (of_ : RecordOf) :
    Nat × State :=
  let (id, s) := s.newId
  let k := s.cell c
  let uid := k.launchUid
  let r : FRecord :=
    { id := id, code := f.1, cause := f.2.1, flags := flags, opcode := opcode, cell := c, elem := e, ctx := x,
      slot := slot, launchid := s.launchidOf uid, lanes := f.2.2.1, addr := f.2.2.2, profile := profile,
      asid := k.asid, time := time, snap := 0 }
  let s := s.setDie (dieOf c) fun d => { d with records := d.records ++ [⟨r, of_, none, uid, c⟩] }
  (id, s.setLaunch uid fun l => { l with faults := min (l.faults + 1) (2 ^ 32 - 1) })

/-- The same, of a fault found now. -/
def State.pushRecord (s : State) (c e x slot opcode : Nat) (flags profile : Nat) (f : FaultInfo) (of_ : RecordOf) : Nat × State :=
  s.pushRecordAt s.ticks c e x slot opcode flags profile f of_

/-- A record holds a context: it fires nothing until the record is acted on (R41, R375). -/
def State.hold (s : State) (c e x id : Nat) : State :=
  s.setCtx c e x fun k => { k with heldBy := k.heldBy ++ [id] }

/-- The opcode of the current firing's word (R375). -/
def State.curOpcode (s : State) : Nat := (s.curDraft.slots.getD s.cur.slot 0).toNat / 2 ^ 19 % 128

/-- TAKING A FAULT at a firing: no effect of the firing happens, a record is pushed, the context is held, and the
element's cycle is used with the context as last_fired (R41, R167, R230, R374). -/
def State.takeFault (s : State) (profile : Nat) (f : FaultInfo) : State :=
  let c := s.cur
  let (id, s) := s.pushRecord c.cell c.elem c.ctx c.slot s.curOpcode 0 profile f (.firing c.cell c.elem c.ctx c.slot)
  (s.hold c.cell c.elem c.ctx id).spend 0

/-- THE RETURN: a context is released from one record; it fires again when no open record holds it (R375, R379). -/
def State.release (s : State) (c e x id : Nat) : State :=
  s.setCtx c e x fun k => { k with heldBy := k.heldBy.filter (· != id) }

/-- Faults found at a firing carry m0 in LANES where they name no lane of their own (R375). -/
def State.firingLanes (s : State) : Nat := s.m0.toNat

/-- A privilege fault: a resident-only form outside ASID 0 (R217, R230). -/
def State.takePrivilege (s : State) (profile : Nat) : State :=
  s.takeFault profile (mkFault fPrivilege 0 s.firingLanes 0)

/-- The firing runs in the resident space (R15, R217). -/
def State.resident (s : State) : Bool := s.curCell.asid == 0

end Sys2Proof.Machine
end

