-- ==== Sys2Proof/Machine/Flags.lean ====
section
/-! DEFINITION. The sticky floating-point flags (R192): raised by lanes in m0 only, cleared by SYSW alone. -/

namespace Sys2Proof.Machine

/-- Flags raised in a context (R192). -/
def State.raiseFlagsOf (s : State) (c e x fl : Nat) : State :=
  s.setCtx c e x fun k => { k with fpflags := Nat.lor k.fpflags (fl % 64) }

/-- Flags raised by the current firing. -/
def State.raiseFlags (s : State) (fl : Nat) : State := s.raiseFlagsOf s.cur.cell s.cur.elem s.cur.ctx fl

/-- The union of the flags of the lanes in a mask (R192, R261). -/
def flagsOver (m : LaneMask) (f : Nat → Word × Nat) : Nat :=
  (lanesOf m).foldl (fun acc l => Nat.lor acc (f l).2) 0

end Sys2Proof.Machine
end

