-- ==== Sys2Proof/Machine/IntOps.lean ====
section
/-! DEFINITION. Integer, lane and mask arithmetic on lane values (10_isa_integer_lane_control.md R228 to R248). -/

namespace Sys2Proof.Machine

/-- IMUL.lo: low w bits of the product (R232). -/
def mulLo {w : Nat} (a b : BitVec w) : BitVec w := a * b

/-- IMUL.hi: high w bits of the signed 2w-bit product (R232). -/
def mulHi {w : Nat} (a b : BitVec w) : BitVec w :=
  BitVec.ofInt w (a.toInt * b.toInt / (2 ^ w : Nat))

/-- IMUL.hin: high w bits of the unsigned 2w-bit product (R232). -/
def mulHin {w : Nat} (a b : BitVec w) : BitVec w := BitVec.ofNat w (a.toNat * b.toNat / 2 ^ w)

/-- Signed minimum (R233). -/
def smin {w : Nat} (a b : BitVec w) : BitVec w := if a.toInt ≤ b.toInt then a else b

/-- Signed maximum (R233). -/
def smax {w : Nat} (a b : BitVec w) : BitVec w := if a.toInt ≤ b.toInt then b else a

/-- Unsigned minimum (R233). -/
def umin {w : Nat} (a b : BitVec w) : BitVec w := if a.toNat ≤ b.toNat then a else b

/-- Unsigned maximum (R233). -/
def umax {w : Nat} (a b : BitVec w) : BitVec w := if a.toNat ≤ b.toNat then b else a

/-- IABS: a if a is not negative, else -a modulo 2^w (R233). -/
def iabs {w : Nat} (a : BitVec w) : BitVec w := if a.toInt < 0 then -a else a

/-- Quotient and remainder of the signed division of R234. -/
def sdivRem {w : Nat} (a b : BitVec w) : BitVec w × BitVec w :=
  if b = 0 then (BitVec.allOnes w, a)
  else
    let q := Int.tdiv a.toInt b.toInt
    (BitVec.ofInt w q, BitVec.ofInt w (a.toInt - q * b.toInt))

/-- Quotient and remainder of the unsigned division of R234. -/
def udivRem {w : Nat} (a b : BitVec w) : BitVec w × BitVec w :=
  if b = 0 then (BitVec.allOnes w, a)
  else (BitVec.ofNat w (a.toNat / b.toNat), BitVec.ofNat w (a.toNat % b.toNat))

/-- The shift amount of a register form: bits [4:0], or [5:0] under .w (R236). -/
def shiftAmount (w : Nat) (b : Nat) : Nat := if w = 64 then b % 64 else b % 32

def shiftLeft {w : Nat} (a : BitVec w) (n : Nat) : BitVec w := a <<< n
def shiftRight {w : Nat} (a : BitVec w) (n : Nat) : BitVec w := a >>> n
def shiftArith {w : Nat} (a : BitVec w) (n : Nat) : BitVec w := a.sshiftRight n
def rotLeft {w : Nat} (a : BitVec w) (n : Nat) : BitVec w :=
  if n % w = 0 then a else (a <<< (n % w)) ||| (a >>> (w - n % w))

/-- Position and clipped length of the control word of BFX and BFI (R237). -/
def fieldCtl (w : Nat) (b : Nat) : Nat × Nat :=
  let pos := b % 64
  let len := b / 256 % 64
  (pos, if pos ≥ w then 0 else min len (w - pos))

/-- BFX (R237). -/
def bfxVal {w : Nat} (sx : Bool) (a : BitVec w) (b : Nat) : BitVec w :=
  let (pos, len) := fieldCtl w b
  let f := a.toNat / 2 ^ pos % 2 ^ len
  if len = 0 then 0
  else if sx then BitVec.ofInt w (signed len f) else BitVec.ofNat w f

/-- BFI (R237). -/
def bfiVal (a b c : Word) : Word :=
  let (pos, len) := fieldCtl 32 b.toNat
  if len = 0 then c
  else BitVec.ofNat 32 (setBits c.toNat (pos + len - 1) pos (a.toNat % 2 ^ len))

/-- Leading zero bits; w for zero (R238). -/
def clzVal {w : Nat} (a : BitVec w) : BitVec w :=
  BitVec.ofNat w (if a = 0 then w else w - 1 - Nat.log2 a.toNat)

/-- One bits (R238). -/
def popcVal {w : Nat} (a : BitVec w) : BitVec w := BitVec.ofNat w (countBits w a.toNat)

/-- Bits in reverse order (R238). -/
def brevVal {w : Nat} (a : BitVec w) : BitVec w :=
  BitVec.ofNat w ((List.range w).foldl (fun acc i => if bit a.toNat i then acc + 2 ^ (w - 1 - i) else acc) 0)

/-- The condition codes of ICMP and UCMP on integer values (R239); codes 6 and 7 are rejected by WellFormed. -/
def intCond (k : Nat) (a b : Int) : Bool :=
  match k with
  | 0 => a == b
  | 1 => a != b
  | 2 => a < b
  | 3 => a ≤ b
  | 4 => a > b
  | _ => a ≥ b

/-- Signed min(max(a, b), c) (R233). -/
def iclampVal (a b c : Word) : Word := smin (smax a b) c

/-- Unsigned min(max(a, b), c) (R233). -/
def uclampVal (a b c : Word) : Word := umin (umax a b) c

/-- The identity of each LRED operation (R242). -/
def lredIdentity (op : Nat) : Word :=
  match op with
  | 0 => 0
  | 1 => 0x7FFFFFFF
  | 2 => 0x80000000
  | 3 => 0xFFFFFFFF
  | 4 => 0
  | 5 => 0xFFFFFFFF
  | 6 => 0
  | 7 => 0
  | 8 => 0x80000000
  | 9 => 0x7F800000
  | _ => 0xFF800000

/-- The integer operations of LRED, 0 to 7 (R242). -/
def lredInt (op : Nat) (a b : Word) : Word :=
  match op with
  | 0 => a + b
  | 1 => smin a b
  | 2 => smax a b
  | 3 => umin a b
  | 4 => umax a b
  | 5 => a &&& b
  | 6 => a ||| b
  | _ => a ^^^ b

/-- The pairwise tree of R207, k the half width of the next round: lane i with lane i + k. -/
def treeGo {α : Type} (op : Word → Word → α → Word × α) : Nat → Nat → List Word → α → List Word × α
  | 0, _, t, acc => (t, acc)
  | fuel + 1, k, t, acc =>
      let step := ((t.take k).zip (t.drop k)).foldl
        (fun (p : List Word × α) xy => let (r, acc') := op xy.1 xy.2 p.2; (p.1 ++ [r], acc')) ([], acc)
      treeGo op fuel (k / 2) step.1 step.2

/-- LRED over 64 contributions by the tree of R207. -/
def treeReduce {α : Type} (op : Word → Word → α → Word × α) (t : List Word) (acc : α) : Word × α :=
  let (r, acc') := treeGo op 6 32 t acc
  (r.headD 0, acc')

/-- The inclusive ascending scan of R207 over the remaining contributions. -/
def scanGo {α : Type} (op : Word → Word → α → Word × α) : Word → List Word → α → List Word × α
  | _, [], acc => ([], acc)
  | s, x :: xs, acc =>
      let (s', acc') := op s x acc
      let (rest, acc'') := scanGo op s' xs acc'
      (s' :: rest, acc'')

/-- LSCAN over the contributions: out[0] is the first one itself (R207), a NaN among them with its payload. DESIGN CHOICE (log 58). -/
def scan {α : Type} (op : Word → Word → α → Word × α) (t : List Word) (acc : α) : List Word × α :=
  match t with
  | [] => ([], acc)
  | x :: xs => let (rest, acc') := scanGo op x xs acc; (x :: rest, acc')

/-- LCOMP: the lanes of the mask packed from lane 0 (R244). -/
def packLanes (a : Lanes) (m : LaneMask) : Lanes := (lanesOf m).map (lane a)

/-- The pattern of MSETI: INV in bit 8, KIND in [7:6], n in [5:0] (R248). -/
def msetiVal (i : BitVec 9) : LaneMask :=
  let n := i.toNat % 64
  let kind := i.toNat / 64 % 4
  let base := maskOf fun l => if kind = 0 then l < n else if kind = 1 then l ≥ n else l = n
  if i.toNat / 256 = 1 then ~~~base else base

end Sys2Proof.Machine
end

