-- ==== Sys2Proof/Machine/Operands.lean ====
section
/-! DEFINITION. Every operand form: sources, destinations, pairs, masks and addresses
(R164, R173, R174, R210, R228, R280), and the shapes of instructions that share them. -/

namespace Sys2Proof.Machine

/-- Register n of the current context. -/
def State.vreg (s : State) (n : Nat) : Lanes := s.curCtx.v.getD n []

/-- The head of an input channel as a source (R173). -/
def State.headLanes (s : State) (n : Nat) : Lanes :=
  let h := match (s.curElem.chan n).tokens with | t :: _ => t.lanes | [] => []
  if bits (s.curDraft.chans.getD n 0) 1 0 = 0 then splat (lane h 0) else h

/-- A source (R210): a register, a channel head or a constant in every lane. -/
def State.src (s : State) : Src → Lanes
  | .v r => s.vreg r.val
  | .ch n => s.headLanes n.val
  | .c n => splat (s.curDraft.consts.getD n.val 0)

/-- Lane l of a source. -/
def State.rd (s : State) (a : Src) (l : Nat) : Word := lane (s.src a) l

/-- Lane l of the pair whose even register is n (R164). -/
def State.pairVal (s : State) (n l : Nat) : BitVec 64 :=
  BitVec.ofNat 64 ((lane (s.vreg n) l).toNat + 2 ^ 32 * (lane (s.vreg (n + 1)) l).toNat)

/-- Lane l of a source as a 64-bit value: a pair (R211, R228). -/
def State.rdW (s : State) (a : Src) (l : Nat) : BitVec 64 :=
  match a with
  | .v r => s.pairVal r.val l
  | _ => (s.rd a l).setWidth 64

/-- The control or amount operand under .w is the low register of the pair (R236, R237). -/
def State.rdLow (s : State) (a : Src) (l : Nat) : Nat := (s.rd a l).toNat

/-- Mask operand mK (R210). -/
def State.mask (s : State) (m : MaskReg) : LaneMask := s.curCtx.m.getD m.val 0

/-- A result to a destination: lanes in m0 of a register, one token of an output channel with its lanes outside
m0 at 0, or nothing (R164, R174, R228). -/
def State.put (s : State) (t : Fin 64) (d : Dst) (f : Nat → Word) : State :=
  match d with
  | .v r => s.writeReg r.val s.m0 f
  | .o n =>
      let m := s.m0
      let w := routeWidth (s.routeOf s.cur.cell s.cur.elem n.val)
      s.sendOn s.cur.cell s.cur.elem n.val (s.sendTag t)
        ((List.range w).map fun l => if inMask m l then f l else 0)
  | .discard => s

/-- A 64-bit result to a pair (R164, R211). -/
def State.putPair (s : State) (n : Nat) (f : Nat → BitVec 64) : State :=
  (s.writeReg n s.m0 fun l => (f l).setWidth 32).writeReg (n + 1) s.m0 fun l => (f l >>> 32).setWidth 32

def State.putW (s : State) (d : Dst) (f : Nat → BitVec 64) : State :=
  match d with
  | .v r => s.putPair r.val f
  | _ => s

/-- A 32-bit or, under .w, a 64-bit result (R228). -/
def State.putSel (s : State) (t : Fin 64) (w : Bool) (d : Dst) (f : Nat → Word) (g : Nat → BitVec 64) : State :=
  if w then s.putW d g else s.put t d f

/-- Two-source lane arithmetic in both widths (R228). -/
def State.alu2 (s : State) (t : Fin 64) (d : Dst) (a b : Src) (w : Bool) (extra : Nat)
    (f : Word → Word → Word) (g : BitVec 64 → BitVec 64 → BitVec 64) : State :=
  (s.putSel t w d (fun l => f (s.rd a l) (s.rd b l)) (fun l => g (s.rdW a l) (s.rdW b l))).endFiring t extra

/-- One-source lane arithmetic in both widths (R228). -/
def State.alu1 (s : State) (t : Fin 64) (d : Dst) (a : Src) (w : Bool)
    (f : Word → Word) (g : BitVec 64 → BitVec 64) : State :=
  (s.putSel t w d (fun l => f (s.rd a l)) (fun l => g (s.rdW a l))).endFiring t 0

/-- A shift by a register amount (R236). -/
def State.shift (s : State) (t : Fin 64) (d : Dst) (a b : Src) (w : Bool)
    (f : Word → Nat → Word) (g : BitVec 64 → Nat → BitVec 64) : State :=
  (s.putSel t w d (fun l => f (s.rd a l) (shiftAmount 32 (s.rdLow b l)))
    (fun l => g (s.rdW a l) (shiftAmount 64 (s.rdLow b l)))).endFiring t 0

/-- Lane arithmetic that raises flags: the flags of the lanes in m0, then the result (R261, R192). -/
def State.fpu (s : State) (t : Fin 64) (d : Dst) (extra : Nat) (f : Nat → Word × Nat) : State :=
  ((s.raiseFlags (flagsOver s.m0 f)).put t d fun l => (f l).1).endFiring t extra

/-- A compare: the mask written whole, 0 outside m0 (R239, R267). -/
def State.compare (s : State) (t : Fin 64) (d : MaskReg) (f : Nat → Bool) : State :=
  let m := s.m0
  (s.writeMask d.val (maskOf fun l => inMask m l && f l)).endFiring t 0

/-- The lane-wide effective address: the pair plus a signed 32-bit offset, modulo 2^64 (R280). -/
def State.ea (s : State) (a : Pair) (b : Src) (l : Nat) : Nat :=
  ((s.pairVal (2 * a.val) l).toNat + wrapInt 64 (s.rd b l).toInt) % 2 ^ 64

end Sys2Proof.Machine
end

