-- ==== Sys2Proof/Machine/Geo.lean ====
section
/-! DEFINITION. The physical address map, home slices and descriptor addresses
(01_address_spaces.md R16 to R18, R28; 03_hierarchy_and_enumeration.md R60, R63, R66). -/

namespace Sys2Proof.Machine

def moduleOf (pa : Nat) : Nat := pa / 2 ^ 46 % 64
def localOf (pa : Nat) : Nat := pa % 2 ^ 46
def lineOf (pa : Nat) : Nat := pa / 128 * 128

/-- Top of the populated GDDR 7 range and base of its descriptor store, by grade code (R17). -/
def gddrTop (g : Nat) : Nat := if g = 0x60 then 0x4000000000 else 0x3000000000
def gddrDs (g : Nat) : Nat := if g = 0x60 then 0x3E00000000 else 0x2E80000000
/-- The same for LPDDR 6 (R17). -/
def lpBase : Nat := 0x4000000000
def lpTop (g : Nat) : Nat := if g = 0x60 then 0x10000000000 else if g = 0x44 then 0xC000000000 else 0xA000000000
def lpDs (g : Nat) : Nat := if g = 0x60 then 0xFA00000000 else if g = 0x44 then 0xBC00000000 else 0x9D00000000

/-- A grade code; any other stands for the KV-960 (R2, R79; log 3). -/
def gradeCode (g : Nat) : Nat := if g = 0x44 || g = 0x28 then g else 0x60
/-- The default power cap of a grade in W (R2, R373). -/
def defaultCap (g : Nat) : Nat := if g = 0x60 then 2200 else if g = 0x44 then 1800 else 1500
/-- Populated GDDR 7 controllers of a loom die (R2, R3, R75). -/
def controllers (g : Nat) : Nat := if g = 0x60 then 8 else 6
/-- GiB of an LPDDR 6 channel (R75). -/
def channelGiB (g : Nat) : Nat := if g = 0x60 then 48 else if g = 0x44 then 32 else 24

/-- The MMIO windows of a module (R16). -/
def hubWindow : Nat := 0x3FF000000000
def mmioTop : Nat := 0x3FF900000000
def inMmio (pa : Nat) : Bool := hubWindow ≤ localOf pa && localOf pa < mmioTop
def inHubWindow (pa : Nat) : Bool := hubWindow ≤ localOf pa && localOf pa < hubWindow + 2 ^ 32

/-- The window of an MMIO address: the hub's (8) or a loom die's, and the offset. -/
def mmioWindow (pa : Nat) : Nat × Nat :=
  let o := localOf pa - hubWindow
  if o < 2 ^ 32 then (8, o) else (o / 2 ^ 32 - 1, o % 2 ^ 32)

/-- A COLPUSH register: its die and port (R405). -/
def colPort (pa : Nat) : Option (Nat × Nat) :=
  let (w, o) := mmioWindow pa
  if inMmio pa && w < 8 && (o == 0x3000 || o == 0x3008) then some (w, (o - 0x3000) / 8) else none

/-- A register that only resident graphs and hub firmware may reach (R11, R19, R88, R377, R402, R420). -/
def rsRegister (pa : Nat) : Bool :=
  let lo := localOf pa
  if inHubWindow pa then
    let o := lo - hubWindow
    (0x10000 ≤ o && o < 0x10010) || (0x50000 ≤ o && o < 0x50010) || (0x50100 ≤ o && o < 0x50300)
  else inMmio pa && (let o := lo % 2 ^ 32
    (0x1000 ≤ o && o < 0x1008) || (0x2000 ≤ o && o < 0x2028))

/-- A range of module-local addresses lies in one populated tier (R17). -/
def inTier (g lo n : Nat) : Bool := lo + n ≤ gddrTop g || (lpBase ≤ lo && lo + n ≤ lpTop g)

/-- A range of module-local addresses meets a descriptor store (R17). -/
def meetsDs (g lo n : Nat) : Bool :=
  (lo < gddrTop g && gddrDs g < lo + n) || (lo < lpTop g && lpDs g < lo + n)

/-- The grade of a module: its own, or the one DOMGRADE records for a listed module (R18, R420). -/
def State.gradeOf (s : State) (m : Nat) : Option Nat :=
  if m = s.hub.modnum then some s.hub.grade
  else if bit s.hub.dommask m && [0x60, 0x44, 0x28].contains (s.hub.domgrade.getD m 0) then some (s.hub.domgrade.getD m 0)
  else none

/-- The byte exists: in a populated tier of a known module, or in an MMIO window (R16, R17). -/
def State.populated (s : State) (pa n : Nat) : Bool :=
  match s.gradeOf (moduleOf pa) with
  | some g => inTier g (localOf pa) n || (inMmio pa && localOf pa + n ≤ mmioTop)
  | none => false

/-- The address of the descriptor of a block (R28). -/
def State.descAddr (s : State) (pa : Nat) : Nat :=
  let g := (s.gradeOf (moduleOf pa)).getD s.hub.grade
  let b := localOf pa / 64 * 64
  let m := moduleOf pa * 2 ^ 46
  if b < lpBase then m + gddrDs g + b / 32 else m + lpDs g + (b - lpBase) / 32

/-- The home slice of a local line (R66). -/
def homeSlice (pa : Nat) : Nat :=
  let rn := bits pa 45 12
  let x := Nat.xor (Nat.xor (Nat.xor (Nat.xor (bits rn 6 0) (bits rn 13 7)) (bits rn 20 14)) (bits rn 27 21))
    (bits rn 33 28)
  128 * (rn % 3) + x

def homeDie (pa : Nat) : Nat := homeSlice pa / 48

/-- The GDDR 7 controller of a slice's die that stores its GDDR 7 lines, and its LPDDR 6 channel (R67). -/
def sliceController (g slice : Nat) : Nat := slice % 48 % controllers g
def sliceChannel (slice : Nat) : Nat := slice % 16
/-- The memory device that stores a line of this module, by its entry of the device table (R67, R84). -/
def State.deviceOf (s : State) (pa : Nat) : Nat :=
  let n := homeSlice pa
  if localOf pa < lpBase then 8 * (n / 48) + sliceController s.hub.grade n else 64 + sliceChannel n

/-- The role of a bank under a bank-role vector (R59, R60). -/
def roleIn (roles bank : Nat) : Role :=
  if bank < 8 then .reg
  else if bank < 96 then
    match bits roles (2 * (bank - 8) + 1) (2 * (bank - 8)) with
    | 0 => .off
    | 1 => .scr
    | 2 => .acc
    | _ => .cch
  else .absent

def Cell.role (c : Cell) (bank : Nat) : Role := roleIn c.roles bank

/-- The CCH banks of a cell, ascending: its ways (R63). -/
def Cell.ways (c : Cell) : List Nat := (List.range 96).filter fun b => c.role b == .cch

/-- Leaf bits (R23). -/
def leafOrd (leaf : Nat) : Nat := bits leaf 8 7
def leafCp (leaf : Nat) : Nat := bits leaf 12 11
def leafSm (leaf : Nat) : Bool := bit leaf 9
def leafDsc (leaf : Nat) : Bool := bit leaf 10

/-! Routers of a die's mesh (R6, R78, R147). -/

/-- The sites of a die in the order of their local logical numbers: user cells, then the resident sites, row-major (R78). -/
def Die.sites (d : Die) : List Nat :=
  let on := (List.range 160).filter fun i => !d.disabled.contains i
  on.filter (fun i => !d.resident.contains i) ++ on.filter d.resident.contains
/-- The mesh site of a cell, 16 × row + column (R6, R78). -/
def State.siteOf (s : State) (cell : Nat) : Nat := (s.die (dieOf cell)).sites.getD (cell % 256) (cell % 160)
/-- The edge site at which a request for a slice position leaves the mesh, east and west slices beside rows 1 to 8. DESIGN CHOICE
(log 22): the spec gives the slices' edges and order, not their routers. -/
def exitSite (pos : Nat) : Nat :=
  if pos < 16 then pos
  else if pos < 24 then 16 * (pos - 15) + 15
  else if pos < 40 then 144 + (39 - pos)
  else 16 * (48 - pos)
/-- The numbers between two, from the first to the second. -/
def stepsTo (a b : Nat) : List Nat := if a ≤ b then (List.range (b - a + 1)).map (a + ·) else (List.range (a - b + 1)).map (a - ·)
/-- The routers that a request of a cell passes on its die's mesh, 160 × die + site: along its row, then along the column. DESIGN
CHOICE (log 22): the spec names no route; routers of other dies merge nothing of it but the one at its home slice. -/
def State.meshPath (s : State) (cell pa : Nat) : List Nat :=
  let d := dieOf cell
  let a := s.siteOf cell
  let b := exitSite (homeSlice pa % 48)
  let here := ((stepsTo (a % 16) (b % 16)).map fun x => 160 * d + 16 * (a / 16) + x) ++
    ((stepsTo (a / 16) (b / 16)).drop 1).map fun y => 160 * d + 16 * y + b % 16
  if homeDie pa == d || moduleOf pa != s.hub.modnum then here else here ++ [160 * homeDie pa + b]

/-! Requesters at a home slice (R145). -/

/-- The requester number of a cell's contexts and of a hub agent (R145). -/
def State.requesterNo (s : State) (cell : Nat) : Nat := s.hub.modnum * 4096 + cell
def hubRequester : Nat := 0x3FFFF
/-- Requesters of other modules stand under numbers from here on, which no cell has (R404). DEDUCED (log 55). -/
def outsideCell (requester : Nat) : Nat := 2 ^ 16 + requester % 2 ^ 18
/-- The E-domain cycle of the slice that homes a line. -/
def State.eCycle (s : State) (line : Nat) : Nat := s.time / s.ePeriod (homeDie line)
/-- A request may be served now: its home has served no later-numbered requester of the line in this E-domain cycle (R145).
DEDUCED (log 51). -/
def State.inTurn (s : State) (line who : Nat) : Bool :=
  s.servedNow.all fun x => !(x.1 == line && x.2.1 == s.eCycle line && who < x.2.2)
/-- A request is served in this E-domain cycle (R145). -/
def State.serveTurn (s : State) (line who : Nat) : State :=
  { s with servedNow := (s.servedNow.filter fun x => x.2.1 == s.eCycle x.1 && !(x.1 == line)) ++ [(line, s.eCycle line, who)] }

end Sys2Proof.Machine
end

