-- ==== Sys2Proof/Machine/Cch.lean ====
section
/-! DEFINITION. Copies of lines in the cells' CCH banks, write-backs, the dual-grain directory and the slices
(03_hierarchy_and_enumeration.md R61 to R69, R74; 04_coherence.md R89 to R100). -/

namespace Sys2Proof.Machine

/-! Writes at home. -/

/-- A write that changes bytes of a watched word wakes its waiter (R158). -/
def State.markWatches (s : State) (pa : Nat) (old new : List Nat) : State :=
  let changed := fun w : Watch => (List.range w.size).any fun i =>
    pa ≤ w.pa + i && w.pa + i < pa + old.length && old.getD (w.pa + i - pa) 0 != new.getD (w.pa + i - pa) 0
  { s with watches := updateWhere changed (fun w => { w with woken := true }) s.watches }

/-- Bytes merged at home under a mask, as one event (R91). -/
def State.homeWriteMasked (s : State) (pa mask : Nat) (bs : List Nat) : State :=
  let old := memBytes s.mem pa bs.length
  let m := memStoreMasked s.mem pa mask bs
  let gone := fun u : Upset => (u.place == .memory || u.place == .sliceData) && pa ≤ u.addr && u.addr + 8 ≤ pa + bs.length &&
    bits (mask / 2 ^ (u.addr - pa)) 7 0 == 255
  { s with mem := m, upsets := s.upsets.filter (fun u => !gone u)
           sliceLines := updateWhere (·.line == lineOf pa) (fun l => { l with dirty := true }) s.sliceLines
    }.markWatches pa old (memBytes m pa bs.length)

/-- A soft error of an array meets n bytes from an address there. -/
def Upset.meets (u : Upset) (place : Place) (a n : Nat) : Bool := u.place == place && u.addr < a + n && a < u.addr + 8
/-- An uncorrectable error of an array meets a range (R87). -/
def State.upsetAt (s : State) (place : Place) (a n : Nat) : Bool := s.upsets.any fun u => u.double && u.meets place a n
/-- A double-bit error in a clean copy of a slice is no error: the copy is dropped and fetched again (R87). -/
def State.sliceSpoiled (s : State) (pa n : Nat) : Bool :=
  s.upsetAt .sliceData pa n && s.sliceLines.any fun l => l.line == lineOf pa && l.dirty
/-- The slice's tags of a line, or the directory entry of its region, hold an uncorrectable error, which every access at home meets, a
store too (R87). -/
def State.tagSpoiled (s : State) (pa : Nat) : Bool :=
  s.upsetAt .sliceTag (lineOf pa) 128 || s.upsetAt .directory (pa / 4096 * 4096) 4096
/-- An access at home to n bytes of a line meets an uncorrectable error: in memory, in a dirty slice copy, in the slice's tags or
in the directory entry of its region (R87). -/
def State.spoiled (s : State) (pa n : Nat) : Bool :=
  s.upsetAt .memory pa n || s.sliceSpoiled pa n || s.tagSpoiled pa
/-- An uncorrectable word of a cell's SRAM pool meets a range (R87). -/
def State.sramSpoiled (s : State) (cell a n : Nat) : Bool := s.upsetAt (.sram cell) a n
/-- An uncorrectable error consumed on a die is counted, saturating (R88). -/
def State.countUncorr (s : State) (die : Nat) : State :=
  s.setDie die fun d => { d with uncorr := min (d.uncorr + 1) 65535 }

/-- Single-bit errors that a test meets are corrected in place and counted, saturating (R87, R88). -/
def State.correctSingles (s : State) (die : Nat) (hit : Upset → Bool) : State :=
  let n := (s.upsets.filter fun u => hit u && !u.double).length
  if n = 0 then s
  else { s with upsets := s.upsets.filter fun u => !(hit u && !u.double) }.setDie die fun d =>
    { d with corr := min (d.corr + n) (2 ^ 32 - 1) }
/-- A clean slice copy that a double-bit error has met is dropped, and its errors with it (R87). -/
def State.refetch (s : State) (pa : Nat) : State :=
  if s.upsetAt .sliceData (lineOf pa) 128 && !s.sliceLines.any (fun l => l.line == lineOf pa && l.dirty)
  then { s with upsets := s.upsets.filter fun u => !u.meets .sliceData (lineOf pa) 128 } else s
/-- Single-bit errors that an access at home meets in memory, in the slice and in the directory (R87). -/
def State.correctAt (s : State) (pa n : Nat) : State :=
  (s.refetch pa).correctSingles (homeDie pa) fun u => u.meets .memory pa n || u.meets .sliceData pa n || u.meets .sliceTag (lineOf pa) 128 ||
    u.meets .directory (pa / 4096 * 4096) 4096
/-- Single-bit errors of a cell's SRAM pool that an access meets (R87). -/
def State.correctSram (s : State) (cell a n : Nat) : State := s.correctSingles (dieOf cell) fun u => u.meets (.sram cell) a n

/-- Bytes written at home as one event. -/
def State.homeWrite (s : State) (pa : Nat) (bs : List Nat) : State :=
  s.homeWriteMasked pa (2 ^ bs.length - 1) bs

/-- The line is locked by an MWCAS: other requests wait at home (R145, R151). -/
def State.locked (s : State) (pa : Nat) : Bool := s.locks.any (·.line == lineOf pa)
/-- A recall of the line is under way: requests wait at home (R96). -/
def State.recalling (s : State) (pa : Nat) : Bool := s.recalls.any (·.line == lineOf pa)
/-- A line is busy at home: locked by an MWCAS or under recall (R96, R145). -/
def State.busyLine (s : State) (pa : Nat) : Bool := s.locked pa || s.recalling pa

/-! Copies. -/

def Cell.line? (c : Cell) (line : Nat) : Option CchLine := c.cch.find? (·.pa == line)
def Cell.dropLine (c : Cell) (line : Nat) : Cell := { c with cch := c.cch.filter (·.pa != line) }
def Cell.setLine (c : Cell) (line : Nat) (f : CchLine → CchLine) : Cell :=
  { c with cch := updateWhere (·.pa == line) f c.cch }

/-- Where the copy's bytes lie in the cell's SRAM pool (R63). -/
def CchLine.spot (l : CchLine) : Nat := 8192 * l.way + 128 * bits l.pa 12 7
/-- The errors in the SRAM of a copy are gone with its bytes. -/
def State.cleanSpot (s : State) (cell : Nat) (l : CchLine) : State :=
  { s with upsets := s.upsets.filter fun u => !(u.place == .sram cell && l.spot ≤ u.addr && u.addr < l.spot + 128) }

def CchLine.coherent (l : CchLine) : Bool := l.st != .smPresent
def CchLine.owned (l : CchLine) : Bool := l.st == .exclusive || l.st == .modified

/-- A write-back of the bytes of a mask (R91). -/
def State.writeBytes (s : State) (l : CchLine) (mask : Nat) : State :=
  if mask % 2 ^ 128 = 0 then s else s.homeWriteMasked l.pa mask l.data

/-- An uncorrectable word of a cell's SRAM that holds dirty bytes of a copy (R87). -/
def CchLine.spoils (l : CchLine) (cell : Nat) (u : Upset) : Bool :=
  u.double && u.place == .sram cell && l.spot ≤ u.addr && u.addr < l.spot + 128 && bits (l.dirty / 2 ^ (u.addr - l.spot)) 7 0 != 0
/-- A cell's copy holds dirty bytes in an uncorrectable word: what would write it back meets the error (R87). -/
def State.copySpoiled (s : State) (cell line : Nat) : Bool :=
  match (s.cell cell).line? line with
  | some l => s.upsets.any (l.spoils cell)
  | none => false
/-- The errors in the SRAM of a copy that goes home without an access to meet them are met at home (R87, R376). DESIGN CHOICE
(log 47): the spec does not say what becomes of such a copy. -/
def State.carryErrors (s : State) (agent : Nat) (l : CchLine) : State :=
  let move := fun (u : Upset) =>
    if !(u.place == .sram agent && l.spot ≤ u.addr && u.addr < l.spot + 128) then some u
    else if l.spoils agent u then some { u with place := .memory, addr := l.pa + (u.addr - l.spot) }
    else none
  { s with upsets := s.upsets.filterMap move }

/-- The dirty descriptors of a set of blocks written back (R74, R100, R102). -/
def State.writeDescs (s : State) (l : CchLine) (blocks : Nat) : State :=
  (List.range 2).foldl (fun s b =>
    if bit l.descDirty b && bit blocks b
    then { s with mem := memStore s.mem (s.descAddr (l.pa + 64 * b)) (leBytes 2 (l.descs.getD b 0)) } else s) s

/-- Stores that a cell has performed in a software-managed copy are performed at home for the bytes of a line that a write-back has
merged, or a discard has taken away (R126). -/
def State.merged (s : State) (cell line mask : Nat) : State :=
  let go := fun (p : Part) =>
    if p.st == .inCell && lineOf p.pa == line then
      let left := p.bound.filter fun i => !bit mask i
      { p with bound := left, st := if left.isEmpty then .done else .inCell }
    else p
  { s with accs := updateWhere (fun a => a.cell == cell && a.parts.any fun p => p.st == .inCell)
             (fun a => { a with parts := a.parts.map go }) s.accs }

/-! The dual-grain directory (R94 to R97). The host agent is agent 2048 (R98). -/

def hostAgent : Nat := 2048
def dieBit (agent : Nat) : Nat := if agent = hostAgent then 256 else 2 ^ dieOf agent

/-- An agent's copy of a line: a cell's, or the host agent's (R98). -/
def State.copyOf (s : State) (agent line : Nat) : Option CchLine :=
  if agent = hostAgent then s.hostCopies.find? (·.pa == line) else (s.cell agent).line? line
/-- An agent's copy of a line is gone. -/
def State.dropCopy (s : State) (agent line : Nat) : State :=
  if agent = hostAgent then { s with hostCopies := s.hostCopies.filter (·.pa != line) }
  else s.setCell agent fun c => c.dropLine line
/-- An agent holds a coherent copy of some line of a region. -/
def State.holdsIn (s : State) (agent region : Nat) : Bool :=
  (if agent = hostAgent then s.hostCopies else (s.cell agent).cch).any fun l => l.coherent && l.pa / 4096 == region

/-- One line entry of a group, updated; a group whose lines are all NONE is freed (R96). -/
def State.setGroupLine (s : State) (region i : Nat) (ls : List DirMode) (m : DirMode) : State :=
  let ls := ls.set i m
  let e : DirEntry := ⟨region, .none, some ls, s.time⟩
  let rest := s.dir.filter (·.region != region)
  { s with dir := if ls.all (· == .none) then rest else rest ++ [e] }

/-- A line returned to NONE in its group, after its copies are recalled (R96). -/
def State.dirRelease (s : State) (line : Nat) : State :=
  let region := line / 4096
  match s.dir.find? (·.region == region) with
  | some e => match e.lines with
    | some ls => s.setGroupLine region (line / 128 % 32) ls .none
    | none => s
  | none => s

/-- A line entry without one agent; a broadcast entry stays as it is (R95). -/
def dropSharer (q : Nat) : DirMode → DirMode
  | .own o => if o = q then .none else .own o
  | .ptrs cs => if (cs.filter (· != q)).isEmpty then .none else .ptrs (cs.filter (· != q))
  | m => m

/-- An agent has returned a line to home (R61, R62, R95, R102): its record is taken out, and a region that it owned whole becomes
NONE with its last copy. -/
def State.dirDrop (s : State) (agent line : Nat) : State :=
  let region := line / 4096
  match s.dir.find? (·.region == region) with
  | none => s
  | some e => match e.lines, e.mode with
    | some ls, _ => s.setGroupLine region (line / 128 % 32) ls (dropSharer agent (ls.getD (line / 128 % 32) .none))
    | none, .own o =>
        if o == agent && !s.holdsIn agent region then { s with dir := s.dir.filter (·.region != region) } else s
    | none, _ => s

/-- All that an agent's copy has dirty is merged at home and the copy is dropped; an owned one returns its ownership (R91, R98,
R100). -/
def State.evictLine (s : State) (agent line : Nat) : State :=
  match s.copyOf agent line with
  | none => s
  | some l =>
      let s := ((((s.writeBytes l l.dirty).writeDescs l 3).carryErrors agent l).dropCopy agent line).merged agent line (2 ^ 128 - 1)
      if l.owned then s.dirDrop agent line else s

/-- Every copy of a cell given up (R61, R62, R380). -/
def State.evictAll (s : State) (cell : Nat) : State :=
  (s.cell cell).cch.foldl (fun s l => s.evictLine cell l.pa) s

/-- A copy that an access conflicts with: for a load an owned one, for a store or an atomic any coherent one (R92, R96). -/
def conflicting (store : Bool) (l : Option CchLine) : Bool := l.any fun l => l.coherent && (store || l.owned)

/-- The agents that hold a copy of a line that an access conflicts with; `keep` is the requester (R92, R96, R98). -/
def State.conflicts (s : State) (line : Nat) (store : Bool) (keep : Option Nat) : List Nat :=
  (s.cells.filter fun c => some c.id != keep && conflicting store (c.line? line)).map (·.id) ++
    if some hostAgent != keep && conflicting store (s.copyOf hostAgent line) then [hostAgent] else []

/-- A recall answered at once, where no copy is kept: the accesses of engines, walkers and hub agents, and evictions (R92, R96,
R144). -/
def State.pull (s : State) (line : Nat) (store : Bool) (keep : Option Nat) : State :=
  let hs := s.conflicts line store keep
  if hs.isEmpty then s
  else
    let s := hs.foldl (fun s c => s.evictLine c line) s
    if (s.conflicts line true none).isEmpty then s.dirRelease line else s

/-- A copy that its holder may keep from other cells' stores: modified, within 64 network cycles of its arrival (R93). -/
def State.keeps (s : State) (agent line : Nat) : Bool :=
  (s.copyOf agent line).any fun l => l.st == .modified && s.time < l.holdUntil
/-- A recall of the line for an access would have to wait for a kept copy (R93). -/
def State.pullWaits (s : State) (line : Nat) (store : Bool) (keep : Option Nat) : Bool :=
  (s.conflicts line store keep).any fun c => s.keeps c line
/-- A coherent request at home must wait: the line is busy, or a copy of it is kept (R93, R96, R145). -/
def State.homeWaits (s : State) (pa : Nat) (store : Bool) : Bool := s.busyLine pa || s.pullWaits (lineOf pa) store none
/-- The holder of a copy that a recall for the access would find uncorrectable: the access that asks for it meets the error (R87). -/
def State.pullBad (s : State) (line : Nat) (store : Bool) (keep : Option Nat) : Option Nat :=
  (s.conflicts line store keep).find? fun c => s.copySpoiled c line

/-- A coherent read at home of n bytes within a line. -/
def State.homeNat (s : State) (pa n : Nat) : Nat × State :=
  let s := s.pull (lineOf pa) false none
  (memNat s.mem pa n, s)

/-- The byte that a coherent load would bind, without moving any copy: an owned copy's, else home's. -/
def State.coherentByte (s : State) (pa : Nat) : Nat :=
  let own := fun (l : Option CchLine) => l.bind fun l => if l.owned then some l else none
  match (s.cells.findSome? fun c => own (c.line? (lineOf pa))).orElse fun _ => own (s.copyOf hostAgent (lineOf pa)) with
  | some l => l.data.getD (pa % 128) 0
  | none => memRead s.mem pa
def State.coherentNat (s : State) (pa n : Nat) : Nat := leNat ((List.range n).map fun i => s.coherentByte (pa + i))

/-- A sharer added to a line entry; a fifth sharer turns it to broadcast form (R95). -/
def addSharer (q : Nat) : DirMode → DirMode
  | .none => .ptrs [q]
  | .ptrs cs =>
      if cs.contains q then .ptrs cs
      else if cs.length < 4 then .ptrs (cs ++ [q])
      else .shr ((q :: cs).foldl (fun acc c => Nat.lor acc (dieBit c)) 0)
  | .shr d => .shr (Nat.lor d (dieBit q))
  | .own o => if o = q then .own q else .ptrs [o, q]

/-- The entry of a line group once a request of q for the line is granted: its state and the copy granted
(R96). Copies that conflicted have been recalled. -/
def grantLine (q : Nat) (store : Bool) (m : DirMode) : DirMode × CchState :=
  if store then (.own q, .modified)
  else match m with
    | .none => (.own q, .exclusive)
    | .own _ => (.own q, .exclusive)
    | m => (addSharer q m, .shared)

/-- The 32 line entries a region entry converts to (R96): from SHR every line in broadcast form, from OWN(o) the
lines that o holds. -/
def State.groupOf (s : State) (region : Nat) : DirMode → List DirMode
  | .shr d => List.replicate 32 (.shr d)
  | .own o => (List.range 32).map fun i =>
      match s.copyOf o (region * 4096 + 128 * i) with
      | some l => if l.st == .shared then .ptrs [o] else if l.coherent then .own o else .none
      | none => .none
  | _ => List.replicate 32 .none

/-- Every coherent copy of a region recalled: what replacing its entry or its group does (R97). -/
def State.recallRegion (s : State) (region : Nat) : State :=
  (List.range 32).foldl (fun s i => s.pull (region * 4096 + 128 * i) true none) s

/-- Recorded copies of an entry (R97). -/
def modeCount : DirMode → Nat
  | .none => 0
  | .shr d => countBits 9 d
  | .own _ => 1
  | .ptrs cs => cs.length
def entryCount (e : DirEntry) : Nat :=
  match e.lines with
  | some ls => (ls.map modeCount).sum
  | none => modeCount e.mode

/-- The least element of a list by a key, the first among equals. -/
def leastBy {α : Type} (key : α → Nat) : List α → Option α
  | [] => none
  | x :: xs => match leastBy key xs with
    | some y => if key y < key x then some y else some x
    | none => some x

/-- Room for a region entry in its slice: a full store of 8,192 entries, 16-way, replaces the entry with the fewest
recorded copies, among equals the least recently used (R94, R97; the set index is log 20). -/
def State.makeEntryRoom (s : State) (region : Nat) : State :=
  let set := fun r : Nat => (homeSlice (r * 4096), r % 512)
  let peers := s.dir.filter fun e => set e.region == set region
  if peers.length < 16 then s
  else match leastBy entryCount peers with
    | none => s
    | some x => match leastBy (·.used) (peers.filter fun e => entryCount e == entryCount x) with
      | some e => { s.recallRegion e.region with dir := s.dir.filter (·.region != e.region) }
      | none => s

/-- Room for a line group: a full store of 512 replaces the least recently used group (R97). -/
def State.makeGroupRoom (s : State) (region : Nat) : State :=
  let home := homeSlice (region * 4096)
  let groups := s.dir.filter fun e => homeSlice (e.region * 4096) == home && e.lines.isSome && e.region != region
  if groups.length < 512 then s
  else match leastBy (·.used) groups with
    | some e => { s.recallRegion e.region with dir := s.dir.filter (·.region != e.region) }
    | none => s

/-- The home slice grants a line to q: the region entry as R96 has it, and the state of the copy. -/
def State.dirGrant (s : State) (q line : Nat) (store : Bool) : CchState × State :=
  let region := line / 4096
  let i := line / 128 % 32
  let put := fun (s : State) (m : DirMode) =>
    { s with dir := s.dir.filter (·.region != region) ++ [⟨region, m, none, s.time⟩] }
  let viaLines := fun (s : State) (ls : List DirMode) =>
    let (m, st) := grantLine q store (ls.getD i .none)
    (st, s.setGroupLine region i ls m)
  match s.dir.find? (·.region == region) with
  | none =>
      let s := s.makeEntryRoom region
      (if store then .modified else .exclusive, put s (.own q))
  | some e =>
      match e.lines, e.mode with
      | some ls, _ => viaLines s ls
      | none, .own o =>
          if o = q then (if store then .modified else .exclusive, put s (.own q))
          else viaLines (s.makeGroupRoom region) (s.groupOf region (.own o))
      | none, .shr d =>
          if store then viaLines (s.makeGroupRoom region) (s.groupOf region (.shr d))
          else (.shared, put s (.shr (Nat.lor d (dieBit q))))
      | none, _ => (if store then .modified else .exclusive, put s (.own q))

/-! Selvage slices (R65, R68, R69). -/

/-- The way of a 15-bit tree pseudo-LRU: four levels, node n's children are 2n + 1 and 2n + 2 (log 20). -/
def plruVictim (t : Nat) : Nat :=
  let go := fun (n : Nat) (_ : Nat) => 2 * n + (if bit t n then 2 else 1)
  (List.range 4).foldl go 0 - 15
/-- The tree after a touch of a way: every node on its path points away for the most-recently-used position, or at it for
the least (R69). -/
def plruTouch (t way : Nat) (mru : Bool) : Nat :=
  ((List.range 4).foldl (fun (p : Nat × Nat) k =>
    let right := bit way (3 - k)
    (setBits p.1 p.2 p.2 (if right != mru then 1 else 0), 2 * p.2 + (if right then 2 else 1))) (t, 0)).1

/-- The set of a line in its slice: line address bits [16:7]. DESIGN CHOICE (log 20): the spec gives 1,024 sets and no index. -/
def sliceSet (line : Nat) : Nat := line / 128 % 1024
def State.setLines (s : State) (line : Nat) : List SliceLine :=
  s.sliceLines.filter fun l => homeSlice l.line == homeSlice line && sliceSet l.line == sliceSet line
def State.plruOf (s : State) (line : Nat) : Nat :=
  match s.plru.find? (fun p => p.slice == homeSlice line && p.set == sliceSet line) with
  | some p => p.bits
  | none => 0
def State.setPlru (s : State) (line b : Nat) : State :=
  let other := s.plru.filter fun p => !(p.slice == homeSlice line && p.set == sliceSet line)
  { s with plru := other ++ [⟨homeSlice line, sliceSet line, b⟩] }

/-- A slice gives up a line: the coherent copies are recalled first (R68); an uncorrectable word of a dirty line stays bad in memory
(R87). -/
def State.sliceEvict (s : State) (line : Nat) : State :=
  let s := (s.pull line true none).dirRelease line
  let bad := s.sliceLines.any fun l => l.line == line && l.dirty
  let leave := fun (u : Upset) =>
    if !u.meets .sliceData line 128 then some u else if bad then some { u with place := .memory } else none
  { s with sliceLines := s.sliceLines.filter (·.line != line), upsets := s.upsets.filterMap leave }

/-- The way an allocation takes: a free one, else the pseudo-LRU victim; a persistent line gives way to a persist allocation only
(R65, R69). DESIGN CHOICE (log 20): where the pseudo-LRU victim may not go, the lowest-numbered way that may; the spec names none. -/
def State.sliceVictim (s : State) (line : Nat) (persist : Bool) : Option Nat :=
  let ls := s.setLines line
  match (List.range 16).find? (fun w => ls.all (·.way != w)) with
  | some w => some w
  | none =>
      let ok := fun w => persist || (ls.find? (·.way == w)).all (!·.persist)
      let v := plruVictim (s.plruOf line)
      if ok v then some v else (List.range 16).find? ok

/-- The slice's allocation on an access by hint: 0 normal, 1 stream, 2 none, 3 persist (R69); a set that is full of persistent lines
when a persist allocation comes marks nothing. DESIGN CHOICE (log 20): on a hit, which R69's table does not speak of, hint 1 moves the
line to the least-recently-used position and hint 3 marks it persistent where the set has room. -/
def State.sliceTouch (s : State) (pa hint : Nat) : State :=
  let line := lineOf pa
  if moduleOf pa != s.hub.modnum then s
  else match s.sliceLines.find? (·.line == line) with
  | some l =>
      let s := s.setPlru line (plruTouch (s.plruOf line) l.way (hint != 1))
      if hint = 3 then
        let full := ((s.setLines line).filter (·.persist)).length ≥ 8
        { s with sliceLines := updateWhere (·.line == line)
                   (fun l => { l with persist := l.persist || !full, touched := true }) s.sliceLines }
      else s
  | none =>
      if hint = 2 then s
      else match s.sliceVictim line (hint == 3) with
        | none => s
        | some w =>
            let full := ((s.setLines line).filter (·.persist)).length ≥ 8
            let s := match (s.setLines line).find? (·.way == w) with
              | some v => s.sliceEvict v.line
              | none => s
            let s := { s with sliceLines := s.sliceLines ++ [SliceLine.mk line w false (hint == 3 && !full) (hint == 3)] }
            s.setPlru line (plruTouch (s.plruOf line) w (hint != 1))

/-! Fills and accesses in a cell's L1 (R63, R89, R90, R100). -/

/-- The way a fill takes in its set: a free one first, else the first not recently used; none recent means all are
(R63). -/
def Cell.fillWay (c : Cell) (line : Nat) : Option (Nat × Option Nat) :=
  let set := bits line 12 7
  let here := c.cch.filter fun l => bits l.pa 12 7 == set
  match c.ways.find? (fun w => here.all (·.way != w)) with
  | some w => some (w, none)
  | none =>
      match here.find? (!·.recent), here.head? with
      | some l, _ => some (l.way, some l.pa)
      | none, some l => some (l.way, some l.pa)
      | none, none => none

/-- The mark of use; when every line of a set would carry it, the others lose it (R63). -/
def Cell.markUse (c : Cell) (line : Nat) : Cell :=
  let set := bits line 12 7
  let c := c.setLine line fun l => { l with recent := true }
  if (c.cch.filter fun l => bits l.pa 12 7 == set).all (·.recent)
  then { c with cch := updateWhere (fun l => bits l.pa 12 7 == set && l.pa != line) (fun l => { l with recent := false }) c.cch }
  else c

/-- The two descriptors of a line as home holds them (R74). -/
def State.homeDescs (s : State) (line : Nat) : List Nat :=
  [memNat s.mem (s.descAddr line) 2, memNat s.mem (s.descAddr (line + 64)) 2]

/-- A line filled into a cell's L1 from home (R63, R74, R100). -/
def State.fill (s : State) (cell line : Nat) (st : CchState) (described : Bool) : State :=
  match (s.cell cell).fillWay line with
  | none => s
  | some (w, victim) =>
      let s := match victim with | some v => s.evictLine cell v | none => s
      let l : CchLine :=
        { pa := line, way := w, st := st, data := memBytes s.mem line 128, dirty := 0,
          descs := if described then s.homeDescs line else [0, 0], descDirty := 0, recent := true,
          holdUntil := if st == .modified || st == .exclusive then s.time + 64 * s.nPeriod (dieOf cell) else 0, described := described }
      ((s.correctAt line 128).cleanSpot cell l).setCell cell fun c => { c with cch := c.cch ++ [l] }.markUse line

/-- Bytes written in a cell's copy: the dirty mask grows and a coherent copy is M (R89, R90). -/
def State.writeCopy (s : State) (cell pa : Nat) (bs : List Nat) (desc : Option Nat) : State :=
  let line := lineOf pa
  let o := pa % 128
  match (s.cell cell).line? line with
  | none => s
  | some l =>
      let mask := Nat.lor l.dirty ((2 ^ bs.length - 1) * 2 ^ o)
      let l' := { l with data := putBytes l.data o bs, dirty := mask,
                         st := if l.coherent then .modified else .smPresent,
                         descs := match desc with
                           | some d => (if l.described then l.descs else s.homeDescs line).set (o / 64) d
                           | none => l.descs
                         described := l.described || desc.isSome
                         descDirty := if desc.isSome then Nat.lor l.descDirty (2 ^ (o / 64)) else l.descDirty }
      let s := s.setCell cell fun c => (c.setLine line fun _ => l').markUse line
      if l.coherent then s.markWatches pa (sliceBytes l.data o bs.length) bs else s

/-- The own copy that an access through an SM mapping, or through a coherent one, uses: the two do not meet (R106). -/
def State.ownCopy (s : State) (cell : Option Nat) (sm : Bool) (pa : Nat) : Option (Nat × CchLine) :=
  cell.bind fun c => match (s.cell c).line? (lineOf pa) with
    | some l => if l.coherent != sm then some (c, l) else none
    | none => none

/-- A store performed at home at once, after every copy but a software-managed one is recalled (R92, R106). -/
def State.storeHome (s : State) (pa : Nat) (bs : List Nat) (desc : Option Nat) : State :=
  let s := (s.pull (lineOf pa) true none).homeWrite pa bs
  match desc with | some d => { s with mem := memStore s.mem (s.descAddr pa) (leBytes 2 d) } | none => s

/-- A store of a coherent mapping performed at once by an engine, a replay or the hub for a cell (none: no cell's L1): an own copy is
written where it is owned, else the bytes go home after every other copy is recalled (R92). -/
def State.storeNow (s : State) (cell : Option Nat) (pa : Nat) (bs : List Nat) (desc : Option Nat) : State :=
  match s.ownCopy cell false pa with
  | some (c, l) => if l.owned then s.writeCopy c pa bs desc else s.storeHome pa bs desc
  | none => s.storeHome pa bs desc

/-- A load performed at once, within one line: the own copy's bytes, else home's after an owned copy is recalled (R106). -/
def State.loadNow (s : State) (cell : Option Nat) (sm : Bool) (pa n : Nat) : List Nat × State :=
  match s.ownCopy cell sm pa with
  | some (_, l) => (sliceBytes l.data (pa % 128) n, s)
  | none =>
      let s := s.pull (lineOf pa) false none
      (memBytes s.mem pa n, s)

/-- The descriptor of a block as the same load finds it (R74). -/
def State.descNow (s : State) (cell : Option Nat) (sm : Bool) (pa : Nat) : Nat :=
  match (s.ownCopy cell sm pa).map (·.2) with
  | some l => if l.described then l.descs.getD (pa % 128 / 64) 0 else memNat s.mem (s.descAddr pa) 2
  | none =>
      match s.cells.findSome? fun c => (c.line? (lineOf pa)).bind fun l => if l.owned && l.described then some l else none with
      | some l => l.descs.getD (pa % 128 / 64) 0
      | none => memNat s.mem (s.descAddr pa) 2

/-- The cell's L1 as an access reaches it: none where CP keeps the page out of CCH, or on another module (R26, R68). -/
def State.l1Of (s : State) (cell : Option Nat) (pa leaf : Nat) : Option Nat :=
  if leafCp leaf == 0 && moduleOf pa == s.hub.modnum then cell else none

/-- The page is software-managed; SM is ignored on an uncached page (R27, R100). -/
def leafManaged (leaf : Nat) : Bool := leafSm leaf && leafCp leaf != 2

/-- The L1 copy that a software-managed page asks for, where the cell has no such copy, has CCH banks, and the hint allocates (R69, R100);
a copy of a coherent mapping goes home first (R106). -/
def State.smFill (s : State) (cell : Option Nat) (hint pa leaf : Nat) : State :=
  match s.l1Of cell pa leaf with
  | some c =>
      if leafManaged leaf && (hint == 0 || hint == 3) && (s.ownCopy (some c) true pa).isNone
      then (s.evictLine c (lineOf pa)).fill c (lineOf pa) .smPresent (leafDsc leaf) else s
  | none => s

/-- A store of a software-managed page performed at home at once, and in the cell's own copy where it has one, whose bytes are clean then
(R91, R126). -/
def State.storeThrough (s : State) (cell : Option Nat) (pa : Nat) (bs : List Nat) : State :=
  let s := s.homeWrite pa bs
  match s.ownCopy cell true pa with
  | none => s
  | some (c, l) =>
      let mask := (2 ^ bs.length - 1) * 2 ^ (pa % 128)
      let put := fun (x : CchLine) =>
        { x with data := putBytes x.data (pa % 128) bs, dirty := Nat.land x.dirty (Nat.xor (2 ^ 128 - 1) mask) }
      (s.setCell c fun k => (k.setLine l.pa put).markUse l.pa).merged c l.pa mask

/-- The directory's record of an atomic of a cell, served at home: that of a store (R96). -/
def State.dirAtomic (s : State) (cell pa : Nat) : State :=
  if moduleOf pa == s.hub.modnum then (s.dirGrant cell (lineOf pa) true).2 else s

end Sys2Proof.Machine
end

