-- ==== Sys2Proof/Machine/Translate.lean ====
section
/-! DEFINITION. Translation: the TLBs, the walk, A and D, the leaf checks and TLBINV's removals
(01_address_spaces.md R14 to R30; 02_translation_and_migration.md R34 to R40). The walk of an access happens inside the
step that needs it (log 7). -/

namespace Sys2Proof.Machine

/-- Bits [63:57] all equal bit 56 (R14). -/
def canonical (va : Nat) : Bool := bits va 63 56 == 0 || bits va 63 56 == 255

/-! The leaf checks (R29, R143, R158). -/

def Kind.writes : Kind → Bool
  | .store | .stx | .atomic | .mwcas | .future => true
  | _ => false

/-- An atomic, an MWCAS entry, a WAITA or a WAKE may not lie in an MMIO window (R143, R152, R158, R159); nor may a future or a join record (R291). -/
def Kind.noMmio : Kind → Bool
  | .atomic | .mwcas | .waita | .future => true
  | _ => false

/-- The first failing check of R29 on a leaf, then R143's, R289's and R11's; resident passes check 1 (R254). -/
def leafFault (k : Kind) (resident : Bool) (pa leaf : Nat) : Option Nat :=
  let ord := leafOrd leaf
  let cp := leafCp leaf
  if bit leaf 4 && !resident then some fPermission
  else if ord = 3 || cp = 3 then some fPageKind
  else if inMmio pa && !(ord == 0 && cp == 2 && !leafDsc leaf && !leafSm leaf) then some fPageKind
  else if k.writes && !bit leaf 2 then some fPermission
  else if k == .draft && !bit leaf 3 then some fPermission
  else if k == .mwcas && (ord == 2 || leafSm leaf) then some fPageKind
  else if (k == .ldx || k == .stx) && !leafDsc leaf then some fFormat
  else if k.noMmio && inMmio pa then some fPageKind
  else if k == .future && ord == 2 then some fPageKind
  else if !resident && rsRegister pa then some fPrivilege
  else none

/-! The walk. -/

/-- A table frame that may not be read (R22). -/
def State.tableCause (s : State) (asid base : Nat) : Option Nat :=
  match s.gradeOf (moduleOf base) with
  | none => some 5
  | some g =>
      if !inTier g (localOf base) 4096 then some 5
      else if asid != 0 && meetsDs g (localOf base) 4096 then some 6
      else none

/-- A leaf's frame refused (R18, R30). -/
def State.frameCause (s : State) (asid base size : Nat) : Option Nat :=
  match s.gradeOf (moduleOf base) with
  | none => some 5
  | some g =>
      let lo := localOf base
      if inTier g lo size then (if asid != 0 && meetsDs g lo size then some 6 else none)
      else if hubWindow ≤ lo && lo + size ≤ mmioTop then
        if moduleOf base = s.hub.modnum then none
        else if asid = 0 && inHubWindow base then none
        else some 5
      else some 5

def pageSize (level : Nat) : Nat := 2 ^ (12 + 9 * level)

/-- A leaf's own defects, lowest cause first: alignment, bit 15, the frame (R21, R23, R30). -/
def State.leafCause (s : State) (asid e level : Nat) : Option Nat :=
  let base := bits e 55 16 * 4096
  if base % pageSize level != 0 then some 3
  else if bit e 15 then some 4
  else s.frameCause asid base (pageSize level)

/-- What the read of a table entry gives: its value, a wait at home, or an uncorrectable error. -/
inductive TableRead
  | value (v : Nat)
  | waits
  | bad
  deriving DecidableEq, Repr

/-- A table entry read coherently at home at package scope (R36, R93, R96, R145); an uncorrectable error that it meets is counted (R87,
R88). -/
def State.readEntry (s : State) (pa : Nat) : TableRead × State :=
  if s.homeWaits pa false then (.waits, s)
  else match s.pullBad (lineOf pa) false none with
    | some c => (.bad, s.countUncorr (dieOf c))
    | none =>
        let s := s.correctAt pa 8
        if s.spoiled pa 8 then (.bad, s.countUncorr (homeDie pa))
        else
          let (v, s) := s.homeNat pa 8
          (.value v, s)

/-- A table entry: from the die's table-entry cache, or read at home (R36). -/
def State.readTable (s : State) (die asid va level pa : Nat) : TableRead × State :=
  match (s.die die).tableCache.find? (fun t => t.asid == asid && t.level == level && t.va == va / pageSize level) with
  | some t => (.value t.value, s)
  | none => s.readEntry pa

/-- The end of a walk: a cause, a leaf with its value, address and level, a table read that waits, or one that meets an uncorrectable
error. -/
inductive Walked
  | cause (c : Nat)
  | leaf (value pa level : Nat)
  | waits
  | bad
  deriving DecidableEq, Repr

/-- A non-leaf entry that the walk goes on through stays in the die's table-entry cache; the oldest of 1,024 makes room (R36). -/
def State.keepTable (s : State) (die asid va level v : Nat) : State :=
  let e := TableEntry.mk asid (va / pageSize level) level v
  s.setDie die fun d =>
    if d.tableCache.any (fun t => t.asid == asid && t.level == level && t.va == e.va) then d
    else { d with tableCache := (d.tableCache ++ [e]).drop (d.tableCache.length - 1023) }

/-- The walk from a table of a level on (R21, R30). -/
def State.walkFrom (s : State) (die asid va : Nat) : Nat → Nat → Walked × State
  | 0, _ => (.cause 2, s)
  | fuel + 1, table =>
      let level := fuel
      let pa := table + 8 * bits va (20 + 9 * level) (12 + 9 * level)
      match s.readTable die asid va level pa with
      | (.waits, s) => (.waits, s)
      | (.bad, s) => (.bad, s)
      | (.value e, s) =>
          if !bit e 0 then (.cause 0, s)
          else if bit e 1 then
            if level ≥ 3 then (.cause 2, s)
            else match s.leafCause asid e level with
              | some c => (.cause c, s)
              | none => (.leaf e pa level, s)
          else if level = 0 then (.cause 2, s)
          else match s.tableCause asid (bits e 55 16 * 4096) with
            | some c => (.cause c, s)
            | none => (s.keepTable die asid va level e).walkFrom die asid va fuel (bits e 55 16 * 4096)

/-- A walk from the root; ASID 0 starts at hub firmware's level-4 table (R19, R20, R22). DESIGN CHOICE (log 7): the frame of the
root table itself is checked as a table frame is, with cause 5 alone, and hub firmware's own level-4 table is not checked; R22
speaks of the tables that an entry names. -/
def State.walk (s : State) (die asid va : Nat) : Walked × State :=
  if asid = 0 then s.walkFrom die asid va 5 (s.hub.residentL4)
  else if !s.hub.asidEn then (.cause 0, s)
  else
    let pa := s.hub.asidBase * 2 ^ 19 + 8 * asid
    match s.tableCause 0 (pa / 4096 * 4096) with
    | some c => (.cause c, s)
    | none => match s.readTable die asid va 5 pa with
        | (.waits, s) => (.waits, s)
        | (.bad, s) => (.bad, s)
        | (.value e, s) =>
            if !bit e 0 then (.cause 0, s)
            else match s.tableCause asid (bits e 55 16 * 4096) with
              | some c => (.cause c, s)
              | none => (s.keepTable die asid va 5 e).walkFrom die asid va 5 (bits e 55 16 * 4096)

/-! TLB entries. -/

def TlbEntry.covers (e : TlbEntry) (asid va : Nat) : Bool := e.asid == asid && e.va ≤ va && va < e.va + e.size
def TlbEntry.paOf (e : TlbEntry) (va : Nat) : Nat := e.pa + (va - e.va)
def TlbEntry.dirtyAt (e : TlbEntry) (va : Nat) : Bool :=
  if e.size = 65536 then bit e.dirty ((va - e.va) / 4096) else bit e.dirty 0

/-- A new entry replaces those of the same page; a full L1 TLB loses its oldest (R34, log 8). -/
def installTlb (cap : Nat) (e : TlbEntry) (es : List TlbEntry) : List TlbEntry :=
  let es := es.filter fun x => !(x.asid == e.asid && x.va == e.va && x.size == e.size)
  (es ++ [e]).drop (es.length + 1 - cap)

/-- The set of an entry in a shared TLB: 2,048 sets by the page number at the entry's own size (R34; log 8). -/
def TlbEntry.set (e : TlbEntry) : Nat := e.va / e.size % 2048
/-- The same in a die's shared TLB of 2,048 sets of 16 ways: a full set loses its oldest (R34, log 8). -/
def installShared (e : TlbEntry) (es : List TlbEntry) : List TlbEntry :=
  let es := es.filter fun x => !(x.asid == e.asid && x.va == e.va && x.size == e.size)
  match es.filter fun x => x.set == e.set with
  | old :: rest => (if rest.length ≥ 15 then es.erase old else es) ++ [e]
  | [] => es ++ [e]

/-- The 16 leaves of a contiguity group qualify for one 64 KiB entry (R24). -/
def groupOk (es : List Nat) : Bool :=
  let e0 := es.headD 0
  let p0 := bits e0 55 16
  p0 % 16 == 0 && (es.zip (List.range 16)).all fun p =>
    bit p.1 0 && bit p.1 1 && bit p.1 14 && !bit p.1 13 && bits p.1 15 7 == bits e0 15 7 &&
    bits p.1 4 2 == bits e0 4 2 && bits p.1 55 16 == p0 + p.2

/-- The entry that a walked leaf installs (R24, R34). -/
def State.entryOf (s : State) (asid va e pa level : Nat) : TlbEntry :=
  let size := pageSize level
  let single : TlbEntry :=
    { asid := asid, va := va / size * size, size := size, pa := bits e 55 16 * 4096, leaf := bits e 14 2 * 4,
      dirty := if bit e 6 then 1 else 0, leafPa := pa }
  if level = 0 && bit e 14 then
    let line := pa / 128 * 128
    let es := (List.range 16).map fun i => s.coherentNat (line + 8 * i) 8
    if groupOk es then
      { asid := asid, va := va / 65536 * 65536, size := 65536, pa := bits (es.headD 0) 55 16 * 4096,
        leaf := bits e 14 2 * 4,
        dirty := (es.zip (List.range 16)).foldl (fun acc p => if bit p.1 6 then acc + 2 ^ p.2 else acc) 0,
        leafPa := pa }
    else single
  else single

/-- An entry installed where its translation was asked: in a cell's L1 TLB and its die's shared TLB, or for a die alone (R35). -/
def State.installAt (s : State) (cell : Option Nat) (die : Nat) (e : TlbEntry) : State :=
  let s := match cell with
    | some c => s.setCell c fun k => { k with tlb := installTlb 64 e k.tlb }
    | none => s
  s.setDie die fun d => { d with tlb := installShared e d.tlb }

/-- A cached translation, the cell's first, then the die's shared TLB (R35). -/
def State.tlbHit (s : State) (cell : Option Nat) (die asid va : Nat) : Option TlbEntry :=
  let own := cell.bind fun c => (s.cell c).tlb.find? (·.covers asid va)
  match own with
  | some e => some e
  | none => (s.die die).tlb.find? (·.covers asid va)

/-- The walk of a miss, or of a store through an entry whose D is clear: the checks on the leaf as read, MIG, then A and
D set by compare-and-swap and the entry installed (R29, R36, R37, R43). DESIGN CHOICE (log 7): a walk that finds a good leaf on
which the access then fails a check of R29 is not one that faults: it sets A and installs the entry before the fault is reported. -/
def State.walkFor (s : State) (cell : Option Nat) (die asid : Nat) (resident : Bool) (k : Kind) (va : Nat) : Trans × State :=
  match s.walk die asid va with
  | (.cause c, s) => (.fault fTranslation c, s)
  | (.waits, s) => (.busy, s)
  | (.bad, s) => (.fault fUncorrectable 0, s)
  | (.leaf e pa level, s) =>
      let fpa := bits e 55 16 * 4096 + va % pageSize level
      let bad := leafFault k resident fpa e
      let e' := setBits (setBits e 5 5 1) 6 6 (if bit e 6 || (k.writes && bad.isNone) then 1 else 0)
      if bad.isSome && bit e 13 then (.fault (bad.getD 0) 0, s)
      else if bit e 13 then (.mig fpa e pa e, s)
      else if e' != e && s.homeWaits pa true then (.busy, s)
      else
        let s := if e' = e then s else s.storeNow none pa (leBytes 8 e') none
        let t := s.entryOf asid va e' pa level
        let s := s.installAt cell die t
        match bad with
        | some c => (.fault c 0, s)
        | none => (.ok fpa e' t.size, s)

/-! The walkers of a die (R36). A walk that finds a walker free is made in the step that needs it (log 7); those in `walks` are under
way, the first 768 of a die in its walkers and the others in its queue, in arrival order. -/

/-- A walk under way that a miss joins: of the same die, ASID and page. -/
def State.walkOf (s : State) (die asid va : Nat) : Option WalkReq :=
  s.walks.find? fun w => w.die == die && w.asid == asid && w.va == va / 4096 * 4096
/-- The walks of a die that stand before one in arrival order. -/
def State.walksBefore (s : State) (die id : Nat) : Nat := ((s.walks.takeWhile (·.id != id)).filter (·.die == die)).length
/-- A miss may not take a walker at once: it joins a walk, or every walker of the die is busy. -/
def State.walkHeld (s : State) (die asid va : Nat) : Bool :=
  (s.walkOf die asid va).isSome || (s.walks.filter (·.die == die)).length ≥ 768
/-- A miss joins a walk, takes a walker or a place in the queue of 4,096; a full queue leaves it to its requester, which is held. -/
def State.joinWalk (s : State) (cell : Option Nat) (die asid va : Nat) : State :=
  let join := fun (w : WalkReq) => { w with cells := w.cells ++ (cell.toList.filter fun c => !w.cells.contains c) }
  match s.walkOf die asid va with
  | some w => { s with walks := updateWhere (fun (x : WalkReq) => x.id == w.id) join s.walks }
  | none =>
      if (s.walks.filter (·.die == die)).length ≥ 768 + 4096 then s
      else
        let (id, s) := s.newId
        { s with walks := s.walks ++ [⟨id, die, cell.toList, asid, va / 4096 * 4096⟩] }

/-- The translation through a TLB entry that covers the address, which stays in the cell's L1 TLB (R29, R35, R37). -/
def State.throughEntry (s : State) (cell : Option Nat) (die asid : Nat) (resident : Bool) (k : Kind) (va : Nat) (e : TlbEntry) :
    Trans × State :=
  let pa := e.paOf va
  match leafFault k resident pa e.leaf with
  | some c => (.fault c 0, s)
  | none =>
      if k.writes && !e.dirtyAt va then s.walkFor cell die asid resident k va
      else
        let s := match cell with
          | some c => if ((s.cell c).tlb.any (·.covers asid va)) then s
                      else s.setCell c fun k => { k with tlb := installTlb 64 e k.tlb }
          | none => s
        (.ok pa e.leaf e.size, s)

/-- A translation of one address (R14, R29 to R37). -/
def State.translate (s : State) (cell : Option Nat) (die asid : Nat) (resident : Bool) (k : Kind) (va : Nat) : Trans × State :=
  if !canonical va then (.fault fTranslation 1, s)
  else
    let va := va % 2 ^ 57
    match s.tlbHit cell die asid va with
    | some e => s.throughEntry cell die asid resident k va e
    | none =>
        if s.walkHeld die asid va then (.busy, s.joinWalk cell die asid va) else s.walkFor cell die asid resident k va

/-- An address whose walk would find neither a walk to join nor a place in the queue (R36). -/
def State.queueFull (s : State) (cell die asid va : Nat) : Bool :=
  canonical va && (s.tlbHit (some cell) die asid (va % 2 ^ 57)).isNone && (s.walkOf die asid (va % 2 ^ 57)).isNone &&
  (s.walks.filter (·.die == die)).length ≥ 768 + 4096

/-- A translation of an address would wait for a walk (R36, R93). -/
def State.walkBusy (s : State) (cell die asid : Nat) (k : Kind) (va : Nat) : Bool :=
  (s.translate (some cell) die asid true k va).1 == .busy

/-- The ASID in which the accesses that a context fires are translated (R15, R254). -/
def State.asidOf (s : State) (c e x : Nat) : Nat :=
  let k := s.cell c
  let xa := (k.ctx e x).xasid.toNat % 65536
  if k.asid = 0 && xa != 0 then xa else k.asid

/-- A translation for a context of a cell. -/
def State.translateFor (s : State) (c asid : Nat) (k : Kind) (va : Nat) : Trans × State :=
  s.translate (some c) (dieOf c) asid ((s.cell c).asid == 0) k va

/-! TLBINV's removals (R38). -/

/-- An entry named by a TLBINV: form 0 page, 1 ASID, 2 all but ASID 0. -/
def TlbEntry.named (e : TlbEntry) (form asid va : Nat) : Bool :=
  match form with
  | 0 => e.covers asid va
  | 1 => e.asid == asid
  | _ => e.asid != 0

def TableEntry.named (t : TableEntry) (form asid va : Nat) : Bool :=
  match form with
  | 0 => t.asid == asid && t.va == va / pageSize t.level
  | 1 => t.asid == asid
  | _ => t.asid != 0

/-- Every cached translation that a TLBINV names is removed, in every cell and die (R38, R39). -/
def State.removeTranslations (s : State) (form asid va : Nat) : State :=
  let va := va % 2 ^ 57
  { s with cells := s.cells.map fun c => { c with tlb := c.tlb.filter fun e => !e.named form asid va }
           dies := s.dies.map fun d => { d with tlb := d.tlb.filter fun e => !e.named form asid va
                                                tableCache := d.tableCache.filter fun t => !t.named form asid va } }

end Sys2Proof.Machine
end

