-- ==== Sys2Proof/Machine/MemUnit.lean ====
section
/-! DEFINITION. The memory unit: accesses in flight, the order they are performed in, firing loads and stores, the side
log (05_consistency.md R107 to R127; 02_translation_and_migration.md R41 to R47; 12_isa_memory_and_shuttle.md R280 to R287). -/

namespace Sys2Proof.Machine

/-! Classes (R108). -/

def AccOp.isLoad (o : AccOp) (res : Result) : Bool :=
  match o with
  | .load | .waita | .inv _ | .freg | .fres => true
  | .atomic _ => res != .none
  | _ => false

def AccOp.isStore : AccOp → Bool
  | .store | .stx | .atomic _ | .wake | .wbr | .freg | .fres => true
  | _ => false

/-- An operation whose order field may make it an acquire: a load or any atomic; FREG is one and FRES is none whatever the field
(R117, R293). -/
def AccOp.acquires (o : AccOp) (res : Result) : Bool :=
  match o with
  | .atomic _ => true
  | .freg | .fres => false
  | o => o.isLoad res

/-- An operation that binds a value, for R113. -/
def AccOp.binds (o : AccOp) (res : Result) : Bool :=
  match o with
  | .inv _ => false
  | o => o.isLoad res

def Access.isLoad (a : Access) : Bool := a.op.isLoad a.res
def Access.isStore (a : Access) : Bool := a.op.isStore
def Access.maintains (a : Access) : Bool := match a.op with | .wbr | .inv _ => true | _ => false

def Part.so (p : Part) : Bool := leafOrd p.leaf == 0
def Part.rc (p : Part) : Bool := leafOrd p.leaf == 1
def Part.uo (p : Part) : Bool := leafOrd p.leaf == 2
/-- The part is not yet performed even at cell scope. -/
def Part.open (p : Part) : Bool :=
  match p.st with
  | .waiting | .again | .failed .. => true
  | .inCell | .done => false
/-- Every part is performed at a scope: a store that is `inCell` is at cell scope alone (R109, R126). -/
def Access.doneAt (scope : Nat) (a : Access) : Bool := a.parts.all fun p => p.st == .done || (p.st == .inCell && scope == 0)
/-- Every part is performed at every scope. -/
def Access.done (a : Access) : Bool := a.parts.all fun p => p.st == .done

/-- The FENCE classes of a part of an access: l 1, s 2, u 4 (R120). -/
def Access.classes (a : Access) (p : Part) : Nat :=
  if p.uo then 4 else (if a.isLoad then 1 else 0) + (if a.isStore then 2 else 0)

/-- Parts that name a common byte; a line for WBR and INVR (R103, R111). -/
def overlaps (a b : Access) (p q : Part) : Bool :=
  if a.maintains || b.maintains then
    lineOf p.pa < q.pa + q.size && lineOf q.pa < p.pa + p.size
  else p.pa < q.pa + q.size && q.pa < p.pa + p.size

/-! What is still outstanding (R121, R132). -/

def sameCtx (c e x c' e' x' : Nat) : Bool := c == c' && e == e' && x == x'

/-- A command or an access by its identifier is not yet performed at a scope. -/
def State.liveAt (s : State) (scope id : Nat) : Bool :=
  s.accs.any (fun a => a.id == id && !a.doneAt scope) || s.mwops.any (·.id == id) || s.arrivals.any (·.source == id) ||
  s.cells.any (fun c => c.sideLog.any (·.id == id) || c.heddle.queue.any (·.id == id) || c.shuttle.any (·.id == id)) ||
  s.streams.any (fun k => k.id == id && !k.opened) || s.closes.any (·.id == id) || s.colls.any (·.id == id) ||
  s.images.any (·.id == id)

/-- The read of a command's own description, as the load of the issuing context that it is (R131). -/
def describing (id c e x seq asid va pa leaf n : Nat) : Access :=
  let p : Part :=
    { lane := 0, va := va, pa := pa, size := n, leaf := leaf, page := 4096, data := [], word := 0, st := .waiting, bound := [], since := 0 }
  { id := id, cell := c, elem := e, ctx := x, slot := 0, opcode := 0, seq := seq, op := .load, res := .regs 0 1, profile := 0,
    m0 := 0, asid := asid, parts := [p], flags := 0, acquire := false, release := false, told := false, passed := none }
/-- The shuttle commands and streams of a context, fired before seq, whose own descriptions are not read yet, as those loads (R131). -/
def State.descriptions (s : State) (c e x seq : Nat) : List Access :=
  (((s.cell c).shuttle.filter fun k => k.elem == e && k.ctx == x && k.seq < seq && k.phase == 0 && k.fields.isEmpty).map fun k =>
    describing k.id c e x k.seq k.asid k.block k.pa k.leaf 64) ++
  ((s.streams.filter fun k => sameCtx k.cell k.elem k.ctx c e x && k.seq < seq && !k.opened).map fun k =>
    describing k.id c e x k.seq k.asid k.addr k.pa k.leaf 64)
/-- Their identifiers. -/
def State.unread (s : State) (c e x seq : Nat) : List Nat := (s.descriptions c e x seq).map (·.id)

/-- A FENCE still waits: for an access or a command performed at its scope, or for a description that it marked (R121, R131). -/
def State.fenceOpen (s : State) (f : Fence) : Bool :=
  f.marked.any (s.liveAt f.scope) || f.reads.any fun i => (s.unread f.cell f.elem f.ctx f.seq).contains i

/-- A FENCE of the context, fired before seq, holds back the classes of a mask (R121). -/
def State.fenced (s : State) (c e x seq classes : Nat) : Bool :=
  s.fences.any fun f => sameCtx f.cell f.elem f.ctx c e x && f.seq < seq && Nat.land f.after classes != 0 && s.fenceOpen f

/-! Order (R111, R113, R117, R122, R123). -/

/-- An MWCAS names a byte of a part (R111). -/
def MwOp.meets (m : MwOp) (p : Part) : Bool := m.entries.any fun e => e.2.1 < p.pa + p.size && p.pa < e.2.1 + 8

/-- An earlier access of the context holds back a part of a later one; `rel` says whether a release does (R111, R113, R117, R122,
R123). -/
def heldBy (rel : Bool) (a : Access) (p : Part) (e : Access) (q : Part) : Bool :=
  q.open && e.op != .prefetch &&
  (overlaps a e p q ||
   (a.isStore && !a.maintains && (e.op.binds e.res || (e.op == .store && (colPort q.pa).isSome))) ||
   (!a.maintains && !e.maintains &&
     ((e.acquire && !q.uo && !p.uo) || (rel && a.release && !q.uo && !p.uo) || (p.so && !q.uo) || (p.rc && q.so))))

/-- A logged store of the context holds back a part of a later access: a release waits for every one, an SO access for those that
are or may turn out SO or RC, an RC access for those that are or may turn out SO, and either for a reduction that is an acquire
(R117, R123, R134). DEDUCED (log 14): a page without a leaf may turn out of any kind (R121), so the order of each kind is kept. -/
def loggedHolds (a : Access) (p : Part) (e : SideEntry) : Bool :=
  let ord := e.mig.map fun m => leafOrd m.2
  let acquires := e.reduction.isSome && (e.order == 1 || e.order == 3)
  !p.uo && !a.maintains && ord != some 2 && (a.release || p.so || acquires || ord != some 1) || (!p.uo && !a.maintains && a.release)

/-- A context waits for an access of another that an arc or a release has taken as performed at a scope it lies within: it sees nothing
older after that (R109, R118, R130). -/
def State.cellWaits (s : State) (c e x : Nat) : Bool :=
  s.accs.any fun k => k.passed.any (fun sc => inScope sc k.cell (.cell c)) && !sameCtx k.cell k.elem k.ctx c e x && k.parts.any Part.open
/-- The same for a die's slices, streams and ports. -/
def State.dieWaits (s : State) (d : Nat) : Bool :=
  s.accs.any fun k => k.passed.any (fun sc => inScope sc k.cell (.die d)) && k.parts.any Part.open

/-- A part may not be performed yet, by every rule but, where `rel` is false, that of a release towards earlier accesses. -/
def State.blockedBy (s : State) (rel : Bool) (a : Access) (i : Nat) (p : Part) : Bool :=
  let own := fun (c e x seq : Nat) => sameCtx c e x a.cell a.elem a.ctx && seq < a.seq
  (s.accs.any fun e => own e.cell e.elem e.ctx e.seq && e.parts.any (heldBy rel a p e)) ||
  ((s.descriptions a.cell a.elem a.ctx a.seq).any fun e => e.parts.any (heldBy rel a p e)) ||
  (a.parts.take i).any (fun q => q.open && ((p.so && q.so) || (a.isStore && overlaps a a p q))) ||
  ((s.cell a.cell).sideLog.any fun e => own a.cell e.elem e.ctx e.seq && loggedHolds a p e) ||
  s.fenced a.cell a.elem a.ctx a.seq (a.classes p) ||
  (s.mwops.any fun m => own m.cell m.elem m.ctx m.seq && (!p.uo || a.isStore || m.meets p)) ||
  s.cellWaits a.cell a.elem a.ctx

/-- A store or an atomic that is a release at cell or die scope: it synchronises there alone (R118). -/
def Access.narrow (a : Access) : Bool :=
  a.release && scopeOf a.profile ≤ 1 && match a.op with | .store | .stx | .atomic _ => true | _ => false

/-- An earlier access that an arc or a release at cell or die scope may take as performed: every open part could be performed now, on an
RC or UO page. The other agents within the scope then wait for it (R109, R118). DESIGN CHOICE (log 12): the spec says which agents synchronise, not
what may pass. -/
def State.passable (s : State) (e : Access) : Bool :=
  (e.parts.zip (List.range e.parts.length)).all fun x =>
    !x.1.open || (x.1.st == .waiting && !x.1.so && !(leafSm x.1.leaf && leafCp x.1.leaf != 2) && !s.blockedBy true e x.2 x.1)

/-- The accesses of the context, fired before an access, that are not yet performed in its cell. -/
def State.openBefore (s : State) (a : Access) : List Access :=
  s.accs.filter fun e => sameCtx e.cell e.elem e.ctx a.cell a.elem a.ctx && e.seq < a.seq && e.op != .prefetch && e.parts.any Part.open

/-- A part may not be performed yet. A narrow release passes accesses that the others within its scope then wait for (R118). -/
def State.blocked (s : State) (a : Access) (i : Nat) (p : Part) : Bool :=
  a.op != .prefetch && s.blockedBy true a i p &&
  !(a.narrow && p.rc && !s.blockedBy false a i p && (s.openBefore a).all s.passable)

/-! Updating accesses. -/

def State.acc? (s : State) (id : Nat) : Option Access := s.accs.find? (·.id == id)
def State.setAcc (s : State) (id : Nat) (f : Access → Access) : State :=
  { s with accs := updateWhere (·.id == id) f s.accs }
def State.dropAcc (s : State) (id : Nat) : State := { s with accs := s.accs.filter (·.id != id) }
def State.setPart (s : State) (id i : Nat) (f : Part → Part) : State :=
  s.setAcc id fun a => { a with parts := modifyAt a.parts i f }

/-- The waiting parts of a load at one address bind together: lanes that read a common byte bind one value (R108). -/
def State.bindAt (s : State) (id pa : Nat) (bytes : List Nat) (word : Nat) : State :=
  let bind := fun p : Part => { p with st := .done, bound := bytes, word := word }
  s.setAcc id fun a => { a with parts := updateWhere (fun p => p.pa == pa && p.st == .waiting) bind a.parts }

/-- An access taken as performed at a scope, or a wider one already. -/
def Access.passAt (a : Access) (scope : Nat) : Access := { a with passed := some (max scope (a.passed.getD 0)) }

/-- A narrow release takes the earlier accesses of its context as performed at its scope (R118). -/
def State.passEarlier (s : State) (a : Access) : State :=
  if !a.narrow then s
  else
    let ids := (s.openBefore a).map (·.id)
    { s with accs := updateWhere (fun e => ids.contains e.id) (·.passAt (scopeOf a.profile)) s.accs }

/-- The same, for the access of an identifier. -/
def State.passFor (s : State) (id : Nat) : State := match s.acc? id with | some a => s.passEarlier a | none => s

/-- A part of an access is performed at every scope. -/
def State.donePart (s : State) (id i : Nat) : State := (s.passFor id).setPart id i fun p => { p with st := .done }

/-! Firing (R41 to R46, R280, R281). -/

/-- The translations of a list of lanes. -/
def State.translateAll (s : State) (asid : Nat) (k : Kind) (ls : List (Nat × Nat)) : List (Nat × Nat × Trans) × State :=
  let c := s.cur.cell
  ls.foldl (fun (acc : List (Nat × Nat × Trans) × State) l =>
    let (r, s) := acc.2.translateFor c asid k l.2
    (acc.1 ++ [(l.1, l.2, r)], s)) ([], s)

/-- The LANES bits of a lane of a gather form, and of a block of LDX or STX, whose lanes in m0 it stands for (R375). -/
def laneMark (l : Nat) : Nat := 2 ^ l
def State.blockMark (s : State) (l : Nat) : Nat := Nat.land s.m0.toNat (0xFFFF * 2 ^ l)

/-- One record for the failing lanes, once no lane waits for a walk: the lowest gives code, cause and address (R375). -/
def failure (mark : Nat → Nat) (rs : List (Nat × Nat × Trans)) : Option FaultInfo :=
  let bad := if rs.any (·.2.2 == .busy) then [] else rs.filterMap fun r => match r.2.2 with
    | .fault code cause => some (r.1, r.2.1, code, cause)
    | _ => none
  match bad with
  | [] => none
  | b :: _ => some (mkFault b.2.2.1 b.2.2.2 ((bad.map fun x => mark x.1).foldl Nat.lor 0) b.2.1)

/-- Misaligned lanes: an alignment fault whatever else fails, with the lowest of their addresses (R281, R375). -/
def misaligned (mark : Nat → Nat) (size : Nat) (ls : List (Nat × Nat)) : Option FaultInfo :=
  match ls.filter fun l => l.2 % size != 0 with
  | [] => none
  | b :: bs => some (mkFault fAlignment 0 (((b :: bs).map fun x => mark x.1).foldl Nat.lor 0)
      (bs.foldl (fun m x => min m x.2) b.2))

/-- What an access whose lanes pass every check waits for: a walk under way, or the leaf of a migrating page, where the re-walk
translates every lane again (R36, R43). -/
def waitOf (asid : Nat) (k : Kind) (rs : List (Nat × Nat × Trans)) : Option Wait :=
  let vas := rs.map (·.2.1)
  if rs.any (·.2.2 == .busy) then some (.walk asid vas)
  else rs.findSome? fun r => match r.2.2 with
    | .mig _ _ leafPa value => some (.migLeaf leafPa value asid vas k)
    | _ => none

/-- The side log of the cell holds an entry of a page (R46). -/
def Cell.pending (c : Cell) (asid va : Nat) : Bool := c.sideLog.any fun e => e.asid == asid && e.page == va / 4096 * 4096
/-- The first pending entry that holds one of n bytes from an address (R46). -/
def Cell.pendingEntry (c : Cell) (asid va n : Nat) : Option SideEntry :=
  c.sideLog.find? fun e => e.asid == asid && e.lanes.any fun l => va < l.2.1 + l.2.2.length && l.2.1 < va + n
def Cell.pendingBytes (c : Cell) (asid va n : Nat) : Bool := (c.pendingEntry asid va n).isSome
/-- The entry that a load of some of these ranges waits for (R46). -/
def Cell.pendingWait (c : Cell) (asid n : Nat) (vas : List Nat) : Option Wait :=
  (vas.findSome? fun va => c.pendingEntry asid va n).map fun e => .sideByte e.id e.page

/-- The entry behind whose page an atomic with a result, or a future form, waits: it cannot be appended to the log (R44, R46).
DEDUCED (log 15). -/
def Cell.pageWait (c : Cell) (asid : Nat) (vas : List Nat) : Option Wait :=
  (vas.findSome? fun va => c.sideLog.find? fun e => e.asid == asid && e.page == va / 4096 * 4096).map fun e => .sideByte e.id e.page

/-- The number of lane accesses that a cell has outstanding; the words that a DRAFTLD reads are no lanes of it (R282). DEDUCED
(log 56). -/
def State.outstanding (s : State) (c : Nat) : Nat :=
  ((s.accs.filter fun a => a.cell == c && !s.draftlds.any (·.id == a.id)).map fun a => (a.parts.filter (·.open)).length).sum

/-- A firing that must wait occupies its element (R282, R301, R309). -/
def State.occupy (s : State) : State :=
  s.setElem s.cur.cell s.cur.elem fun k =>
    { k with occupant := some (s.cur.ctx, s.cur.slot), busyUntil := s.time + s.vPeriod (dieOf s.cur.cell) }

def mkPart (s : State) (lane va size : Nat) (r : Trans) (data : List Nat) (word : Nat) : Part :=
  let (pa, leaf, page) := match r with
    | .ok pa leaf page => (pa, leaf, page)
    | .mig pa leaf _ _ => (pa, leaf, 4096)
    | .fault _ _ | .busy => (0, 0, 4096)
  { lane := lane, va := va, pa := pa, size := size, leaf := leaf, page := page, data := data, word := word, st := .waiting, bound := [],
    since := s.time }

/-- Registers marked as pending a load (R166). -/
def regsMask (n words : Nat) : BitVec 16 := BitVec.ofNat 16 ((2 ^ words - 1) * 2 ^ n)
def Result.pends : Result → BitVec 16
  | .regs n w => regsMask n w
  | .ldx n => regsMask n 2
  | _ => 0

/-- An access enters the memory unit with the identifier and sequence number of its firing (R107). -/
def State.enter (s : State) (op : AccOp) (res : Result) (profile asid : Nat) (parts : List Part) : Nat × State :=
  let (id, s) := s.newId
  let c := s.cur
  let o := orderOf profile
  let a : Access :=
    { id := id, cell := c.cell, elem := c.elem, ctx := c.ctx, slot := c.slot, opcode := s.curOpcode, seq := s.curCtx.seq,
      op := op, res := res, profile := profile, m0 := s.m0, asid := asid, parts := parts, flags := 0,
      acquire := (op.acquires res && (o == 1 || o == 3)) || op == .freg,
      release := (op.isStore && (o == 2 || o == 3)) || op == .freg || op == .fres, told := false, passed := none }
  let s := { s with accs := s.accs ++ [a] }
  (id, s.setCurCtx fun k => { k with pendV := k.pendV ||| res.pends })

/-- The end of a firing with no lane: the arc is set at its end (R115, R280). -/
def State.endEmpty (s : State) (t : Fin 64) (profile : Nat) : State :=
  (s.endFiring t 0).setArc s.cur.cell s.cur.elem s.cur.ctx (arcOf profile)

/-- A load-class access whose every lane must translate (R41, R43, R46): data and word give a lane's operands. -/
def State.fireLoad (s : State) (t : Fin 64) (p : Profile) (k : Kind) (op : AccOp) (res : Result)
    (mark : Nat → Nat) (size : Nat)
    (ls : List (Nat × Nat)) (data : Nat → List Nat) (word : Nat → Nat)
    (check : State → List (Nat × Nat × Trans) → Option FaultInfo) : State :=
  let prof := s.profile p.val
  let c := s.cur
  let asid := s.asidOf c.cell c.elem c.ctx
  match misaligned mark size ls with
  | some f => s.takeFault prof f
  | none =>
      if s.outstanding c.cell + ls.length > 512 then s.occupy
      else match (if op.isStore && op != .wake then s.curCell.pageWait asid (ls.map (·.2))
                  else s.curCell.pendingWait asid size (ls.map (·.2))) with
        | some w => s.stay w
        | none =>
            let (rs, s) := s.translateAll asid k ls
            match failure mark rs, waitOf asid k rs with
            | some f, _ => s.takeFault prof f
            | none, some w => s.stay w
            | none, none =>
                match check s rs with
                | some f => s.takeFault prof f
                | none =>
                    let parts := rs.map fun r => mkPart s r.1 r.2.1 size r.2.2 (data r.1) (word r.1)
                    (s.enter op res prof asid parts).2.endFiring t 0

/-- The pages of a store's lanes that go to the side log, ascending (R45, R46). -/
def pagesOf (ls : List (Nat × Nat)) : List Nat :=
  sortBy (· ≤ ·) ((ls.map fun l => l.2 / 4096 * 4096).foldl (fun acc g => if acc.contains g then acc else acc ++ [g]) [])

/-- A side-log entry of one page of a store; behind other entries of the page it waits, and is replayed, as they are (R45 to R47). -/
def mkEntry (s : State) (id prof asid page width : Nat) (reduction : Option Nat) (mig : Option (Nat × Nat))
    (ls : List (Nat × Nat)) (data : Nat → List Nat) (desc : Nat → Nat) : SideEntry :=
  let mine := ls.filter fun l => l.2 / 4096 * 4096 == page
  let ahead := s.curCell.sideLog.find? fun e => e.asid == asid && e.page == page
  { id := id, elem := s.cur.elem, ctx := s.cur.ctx, slot := s.cur.slot, opcode := s.curOpcode, seq := s.curCtx.seq,
    asid := asid, page := page, profile := prof, lanes := mine.map fun l => (l.1, l.2, data l.1), reduction := reduction,
    width := width, descs := mine.map fun l => (l.1, desc l.1), mig := mig.orElse fun _ => ahead.bind (·.mig), order := orderOf prof,
    replaying := ahead.any (·.replaying) }

/-- A logged record of one page: LANES marks its lanes, ADDR is the lowest one's (R45, R375). -/
def State.logRecord (s : State) (mark : Nat → Nat) (prof page : Nat) (asid : Nat) (ls : List (Nat × Nat)) : State :=
  let mine := ls.filter fun l => l.2 / 4096 * 4096 == page
  let lanes := (mine.map fun x => mark x.1).foldl Nat.lor 0
  let addr := match mine with | l :: _ => l.2 | [] => page
  let c := s.cur
  (s.pushRecord c.cell c.elem c.ctx c.slot s.curOpcode rLogged prof (mkFault fTranslation 0 lanes addr)
    (.logged c.cell page asid)).2

/-- A store, or a reduction, whose cause-0 and migrating pages may be logged (R44 to R46). -/
def State.fireStore (s : State) (t : Fin 64) (p : Profile) (k : Kind) (op : AccOp) (mark : Nat → Nat)
    (size : Nat)
    (ls : List (Nat × Nat)) (data : Nat → List Nat) (word : Nat → Nat) (reduction : Option Nat) : State :=
  let prof := s.profile p.val
  let c := s.cur
  let asid := s.asidOf c.cell c.elem c.ctx
  match misaligned mark size ls with
  | some f => s.takeFault prof f
  | none =>
      if s.outstanding c.cell + ls.length > 512 then s.occupy
      else
        let behind := ls.filter fun l => s.curCell.pending asid l.2
        let (rs, s) := s.translateAll asid k (ls.filter fun l => !s.curCell.pending asid l.2)
        let hard := rs.any fun r => match r.2.2 with
          | .fault code cause => code != fTranslation || cause != 0
          | _ => false
        if rs.any (·.2.2 == .busy) then s.stay (.walk asid (ls.map (·.2)))
        else if hard then s.takeFault prof ((failure mark rs).getD (mkFault fTranslation 0 0 0))
        else
          let zero := rs.filterMap fun r => match r.2.2 with | .fault _ _ => some (r.1, r.2.1) | _ => none
          let mig := rs.filterMap fun r => match r.2.2 with | .mig _ _ l v => some ((r.1, r.2.1), (l, v)) | _ => none
          let logged := behind ++ zero ++ mig.map (·.1)
          let pages := pagesOf logged
          if 64 - s.curCell.sideLog.length < pages.length then s.stay (.sideRoom pages.length)
          else
            let okRs := rs.filter fun r => match r.2.2 with | .ok _ _ _ => true | _ => false
            let parts := okRs.map fun r => mkPart s r.1 r.2.1 size r.2.2 (data r.1) (word r.1)
            let (id, s) := s.enter op .none prof asid parts
            let sorted := (List.range 64).flatMap fun l => logged.filter (·.1 == l)
            let s := pages.foldl (fun s g =>
              let m := (mig.find? fun x => x.1.2 / 4096 * 4096 == g).map (·.2)
              let e := mkEntry s id prof asid g size reduction m sorted data word
              s.setCell c.cell fun k => { k with sideLog := k.sideLog ++ [e] }) s
            let s := s.endFiring t 0
            (pagesOf zero).foldl (fun s g => s.logRecord mark prof g asid sorted) s

/-- The read of a command's own description waits as a load of the issuing context does (R111, R131). -/
def State.descriptionWaits (s : State) (c e x seq asid va pa leaf n : Nat) : Bool :=
  let a := describing 0 c e x seq asid va pa leaf n
  a.parts.any (s.blocked a 0) || (s.cell c).pendingBytes asid va n

/-! Requests that fail after the firing (R48, R87, R375, R379). -/

def Part.bad (p : Part) : Bool := match p.st with | .failed .. => true | _ => false

/-- The LANES bits of a part (R375). -/
def Access.markOf (a : Access) (p : Part) : Nat :=
  if a.opcode = 0x50 || a.opcode = 0x56 then Nat.land a.m0.toNat (0xFFFF * 2 ^ p.lane) else 2 ^ p.lane

/-- The failure of an access has been recorded and waits for its handler. -/
def State.reported (s : State) (id : Nat) : Bool :=
  s.dies.any fun d => d.records.any fun r => match r.of with | .access k _ => k == id | _ => false

/-- Part i waits behind a failed part of its own access (R111, R123). -/
def Access.behindBad (a : Access) (i : Nat) (p : Part) : Bool :=
  (a.parts.take i).any fun q => q.bad && ((p.so && q.so) || (a.isStore && overlaps a a p q))

/-- One record for a fired access whose requests failed, once nothing else of it is under way; it holds the context. DESIGN CHOICE
(log 37): one record of an access, once nothing else of it is under way. -/
def State.reportFailed (s : State) (id : Nat) : State :=
  match s.acc? id with
  | none => s
  | some a =>
      let idle := (List.range a.parts.length).all fun i => match a.parts[i]? with
        | some p => p.st != .waiting || a.behindBad i p
        | none => true
      match (a.parts.zip (List.range a.parts.length)).find? fun x => x.1.bad with
      | none => s
      | some (p, i) =>
          if !idle || s.reported id then s
          else
            let (code, time) := match p.st with | .failed c t => (c, t) | _ => (0, 0)
            let lanes := (a.parts.filter Part.bad).foldl (fun acc q => Nat.lor acc (a.markOf q)) 0
            let (rid, s) := s.pushRecordAt time a.cell a.elem a.ctx a.slot a.opcode 0 a.profile
              (mkFault (code % 256) (code / 256) lanes p.va) (.access id i)
            s.hold a.cell a.elem a.ctx rid

/-- A part fails, with its code and 256 times its cause. -/
def State.failPart (s : State) (id i code : Nat) : State :=
  (s.setPart id i fun p => { p with st := .failed code s.ticks }).reportFailed id

/-! Completion (R115, R282). -/

/-- The lanes of a load's bound bytes. -/
def Access.laneBytes (a : Access) (l : Nat) : List Nat :=
  match a.parts.find? (·.lane == l) with
  | some p => p.bound
  | none => []

/-- The registers or the token of a complete access are written in one step (R174, R282, R286). -/
def State.writeResult (s : State) (a : Access) : State :=
  let val := fun l o => BitVec.ofNat 32 (fieldAt (a.laneBytes l) o 4)
  match a.res with
  | .none => s
  | .regs n words =>
      let s := s.writeRegOf a.cell a.elem a.ctx n a.m0 fun l => val l 0
      let s := if words = 2 then s.writeRegOf a.cell a.elem a.ctx (n + 1) a.m0 fun l => val l 4 else s
      s.setCtx a.cell a.elem a.ctx fun k => { k with pendV := k.pendV &&& ~~~(regsMask n words) }
  | .send n tag =>
      let w := routeWidth (s.routeOf a.cell a.elem n)
      s.sendOn a.cell a.elem n tag ((List.range w).map fun l => if inMask a.m0 l then val l 0 else 0)
  | .ldx n =>
      let block := fun l => a.parts.find? (·.lane == l / 16 * 16)
      let word := fun l => match block l with
        | some p => BitVec.ofNat 32 (fieldAt p.bound (4 * (l % 16)) 4)
        | none => 0
      let s := s.writeRegOf a.cell a.elem a.ctx n a.m0 word
      let chosen := maskOf fun k => k < 4 && a.parts.any (·.lane == 16 * k)
      let desc := fun k => match a.parts.find? (·.lane == 16 * k) with | some p => BitVec.ofNat 32 p.word | none => 0
      let s := s.writeRegOf a.cell a.elem a.ctx (n + 1) chosen desc
      s.setCtx a.cell a.elem a.ctx fun k => { k with pendV := k.pendV &&& ~~~(regsMask n 2) }

/-- Requests of a context that an access held back until now are issued now: their 2 ms run from here (R48). -/
def State.reissue (s old : State) (c e x : Nat) : State :=
  let issue := fun (a : Access) (y : Part × Nat) =>
    if y.1.st == .waiting && old.blocked a y.2 y.1 && !s.blocked a y.2 y.1 then { y.1 with since := s.time } else y.1
  let go := fun (a : Access) => { a with parts := (a.parts.zip (List.range a.parts.length)).map (issue a) }
  { s with accs := updateWhere (fun a => sameCtx a.cell a.elem a.ctx c e x) go s.accs }

/-- An access leaves the memory unit: its results, its flags and its arc, where that is not set yet (R115, R142). A COLPUSH that
began a collective leaves its arc to the collective (R132). -/
def State.finish (s : State) (a : Access) : State :=
  let s := ((s.dropAcc a.id).reissue s a.cell a.elem a.ctx).writeResult a
  let s := if a.res = .none then s else s.raiseFlagsOf a.cell a.elem a.ctx a.flags
  if a.told then s else s.setArc a.cell a.elem a.ctx (arcOf a.profile)

/-- Every part is performed at a scope, no entry of the side log belongs to it and no arrival it caused is under way
(R115, R293). -/
def State.completeAt (s : State) (scope : Nat) (a : Access) : Bool :=
  a.doneAt scope && !s.arrivals.any (·.source == a.id) && !(s.cell a.cell).sideLog.any (·.id == a.id)

/-- A store whose arc is at cell or die scope counts as performed there while it waits, where the others within the scope then wait for it
(R109, R115, R130). -/
def State.tellsEarly (s : State) (a : Access) : Bool :=
  (a.op == .store || a.op == .stx) && scopeOf a.profile ≤ 1 && (arcOf a.profile).isSome && a.parts.any Part.open && s.passable a &&
    !(s.cell a.cell).sideLog.any (·.id == a.id) && !a.parts.any fun p => inMmio p.pa

/-- An access that a logged store has become: it has parts on the entry's page, and they are performed in its cell (R46, R47). -/
def Access.over (a : Access) (e : SideEntry) : Bool :=
  let mine := a.parts.filter fun p => p.va / 4096 * 4096 == e.page
  e.id == a.id && !mine.isEmpty && mine.all (!·.open)
/-- Entries whose replay is performed leave the side log (R46, R47). -/
def State.clearLog (s : State) (a : Access) : State :=
  if (s.cell a.cell).sideLog.any a.over
  then s.setCell a.cell fun c => { c with sideLog := c.sideLog.filter fun e => !a.over e } else s

/-- The cell is loaded, not saved in an image. -/
def State.present (s : State) (cell : Nat) : Bool := s.cells.any (·.id == cell)

/-- The lanes of an atomic or a future form that failed at home, with their codes (R143, R291). -/
def Access.homeFailures (a : Access) : List (Part × Nat) :=
  a.parts.filterMap fun p =>
    if p.word = 2 ^ 64 then some (p, fUncorrectable)
    else match a.op, p.bound with
      | .freg, c :: _ | .fres, c :: _ => some (p, c)
      | _, _ => none

/-- An access completes: its results, then one record with DONE for lanes that failed at home, of the time when the first was
found, which holds the context (R143, R291, R375). -/
def State.endAccess (s : State) (a : Access) : State :=
  let s := s.finish a
  let s := if a.op = .waita then s.setCtx a.cell a.elem a.ctx fun k => { k with asleep := false } else s
  match a.homeFailures with
  | [] => s
  | f :: fs =>
      let lanes := ((f :: fs).map fun x => 2 ^ x.1.lane).foldl Nat.lor 0
      let found := (leastBy id ((f :: fs).map (·.1.since))).getD s.time
      let (rid, s) := s.pushRecordAt (found / (1000 * Config.ps) % 2 ^ 64) a.cell a.elem a.ctx a.slot a.opcode rDone a.profile
        (mkFault f.2 0 lanes f.1.va) (.done a.cell a.elem a.ctx)
      s.hold a.cell a.elem a.ctx rid

/-- A FENCE is over when nothing it marked is outstanding (R121). -/
def State.endFence (s : State) (f : Fence) : State :=
  if s.fenceOpen f || !s.present f.cell then s
  else
    let s' := { s with fences := s.fences.filter fun (x : Fence) => x.id != f.id }
    (s'.reissue s f.cell f.elem f.ctx).setArc f.cell f.elem f.ctx f.arc

/-! Hits in the cell's L1 (R90, R100). -/

def Part.cached (s : State) (p : Part) : Bool :=
  leafCp p.leaf == 0 && !inMmio p.pa && moduleOf p.pa == s.hub.modnum

/-- The cell's copy serves the part as it stands: any copy for a load, an owned or software-managed one for a
store. -/
def State.hits (s : State) (a : Access) (p : Part) : Bool :=
  p.cached s && match (s.cell a.cell).line? (lineOf p.pa) with
  | some l => l.coherent == !leafSm p.leaf && (!l.coherent || !a.isStore || l.owned)
  | none => false

/-- The format codes that LDX refuses: untyped and the reserved ones (R196, R286). -/
def badLoadCode (desc : Nat) : Bool := desc / 256 == 0 || desc / 256 ≥ 0x0A

/-- A store performed in a copy: in an owned one at every scope, in a software-managed one in the cell alone (R112, R115, R126).
DEDUCED (log 11). -/
def State.storedPart (s : State) (id i : Nat) (l : CchLine) : State :=
  if l.coherent then s.donePart id i
  else (s.passFor id).setPart id i fun p => { p with st := .inCell, bound := (List.range p.size).map (p.pa % 128 + ·) }

/-- A waiting part performed in the cell's copy; an LDX whose block's descriptor has become one it refuses fails (R286). -/
def State.performHit (s : State) (a : Access) (i : Nat) (p : Part) : State :=
  match (s.cell a.cell).line? (lineOf p.pa) with
  | none => s
  | some l =>
      match a.op with
      | .load =>
          let d := if l.described then l.descs.getD (p.pa % 128 / 64) 0 else memNat s.mem (s.descAddr p.pa) 2
          if a.opcode = 0x50 && badLoadCode d then s.failPart a.id i fFormat
          else (s.setCell a.cell fun c => c.markUse (lineOf p.pa)).bindAt a.id p.pa (sliceBytes l.data (p.pa % 128) p.size)
            (if a.opcode = 0x50 then d else p.word)
      | .store => (s.writeCopy a.cell p.pa p.data none).storedPart a.id i l
      | .stx => (s.writeCopy a.cell p.pa p.data (some p.word)).storedPart a.id i l
      | _ => s.donePart a.id i

/-- A hit whose bytes an uncorrectable error has met: a clean copy is dropped, to be fetched again; a dirty one fails the access
(R87). DESIGN CHOICE (log 47): the clean copy's error counts in neither field of SERRCNT, for R87 calls it no fault and R88 does not say. -/
def State.spoiledHit (s : State) (a : Access) (i : Nat) (l : CchLine) : State :=
  if l.dirty = 0 && l.descDirty = 0 then (s.cleanSpot a.cell l).setCell a.cell fun c => c.dropLine l.pa
  else (s.countUncorr (dieOf a.cell)).failPart a.id i fUncorrectable

/-- A waiting part that hits is performed, as the state of the copy's SRAM allows (R87). -/
def State.tryHit (s : State) (a : Access) (i : Nat) (p : Part) : State :=
  match (s.cell a.cell).line? (lineOf p.pa) with
  | none => s
  | some l =>
      let at_ := l.spot + p.pa % 128
      if a.isLoad && s.sramSpoiled a.cell at_ p.size then s.spoiledHit a i l
      else (if a.isLoad then s.correctSram a.cell at_ p.size else s).performHit a i p

/-- Every part that hits is performed, in ascending order. -/
def State.runHits (s : State) (id : Nat) : State :=
  let n := match s.acc? id with | some a => a.parts.length | none => 0
  (List.range n).foldl (fun s i =>
    match s.acc? id with
    | some a => match a.parts[i]? with
      | some p => if p.st == .waiting && s.hits a p && !s.locked p.pa && !s.blocked a i p then s.tryHit a i p else s
      | none => s
    | none => s) s

end Sys2Proof.Machine
end

