-- ==== Sys2Proof/Machine/Memory.lean ====
section
/-! DEFINITION. Loads, stores, scratchpad, FENCE, WBR and INVR at their firing
(12_isa_memory_and_shuttle.md R283 to R288; 05_consistency.md R120, R121; 04_coherence.md R101 to R104). -/

namespace Sys2Proof.Machine

/-! Addresses. -/

/-- Lanes of m0 with their effective addresses (R280). -/
def State.gather (s : State) (a : Pair) (b : Src) : List (Nat × Nat) := (lanesOf s.m0).map fun l => (l, s.ea a b l)

/-- The base address: that of the lowest lane in m0 (R280). -/
def State.base (s : State) (a : Pair) (b : Src) : Nat :=
  match lowest s.m0 with
  | some l => s.ea a b l
  | none => 0

/-- Lanes of m0 at a stride from the base (R283, R285). -/
def State.contig (s : State) (a : Pair) (b : Src) (stride : Nat) : List (Nat × Nat) :=
  (lanesOf s.m0).map fun l => (l, (s.base a b + stride * l) % 2 ^ 64)

/-- The selected blocks of LDX and STX by their first lane (R286, R287). -/
def State.blocks (s : State) (a : Pair) (b : Src) : List (Nat × Nat) :=
  ((List.range 4).filter fun k => s.blockMark (16 * k) != 0).map fun k => (16 * k, (s.base a b + 64 * k) % 2 ^ 64)

def wBytes (w : Bool) : Nat := if w then 8 else 4

/-- Where a load's result goes (R174, R283). -/
def State.resultOf (s : State) (t : Fin 64) (d : Dst) (w : Bool) : Result :=
  match d with
  | .v r => .regs r.val (if w then 2 else 1)
  | .o n => .send n.val (s.sendTag t)
  | .discard => .none

/-- The reservation of an output channel now belongs to a load (R168, R177). -/
def State.useOut (s : State) (d : Dst) : State :=
  match d with
  | .o n => s.setElem s.cur.cell s.cur.elem fun k => { k with outs := k.outs.set n.val .used }
  | _ => s

/-! Prefetches (R42, R284). -/

/-- A prefetch: each lane's line is asked for; a lane that would be refused counts as arrived; no fault (R42, R284). -/
def State.firePrefetch (s : State) (t : Fin 64) (p : Profile) (size : Nat) (ls : List (Nat × Nat)) : State :=
  let prof := s.profile p.val
  let c := s.cur
  let asid := s.asidOf c.cell c.elem c.ctx
  let good := ls.filter fun l => l.2 % size == 0 && canonical l.2
  if s.outstanding c.cell + ls.length > 512 || good.any (fun l => s.queueFull c.cell (dieOf c.cell) asid l.2) then s.occupy
  else
    if good.isEmpty then s.endEmpty t prof
    else
      let parts := good.map fun l => mkPart s l.1 l.2 size (.ok 0 0 0) [] 0
      let s := (s.enter .prefetch .none prof asid parts).2
      let s := good.foldl (fun s l =>
        if (s.tlbHit (some c.cell) (dieOf c.cell) asid (l.2 % 2 ^ 57)).isSome then s
        else s.joinWalk (some c.cell) (dieOf c.cell) asid (l.2 % 2 ^ 57)) s
      s.endFiring t 0

/-- A load of lanes: a prefetch where D is `_`, else a load (R283, R284). -/
def State.loadLanes (s : State) (t : Fin 64) (d : Dst) (p : Profile) (w : Bool) (size : Nat) (ls : List (Nat × Nat)) : State :=
  match d, ls with
  | .discard, _ => s.firePrefetch t p size ls
  | .o n, [] =>
      let k := routeWidth (s.routeOf s.cur.cell s.cur.elem n.val)
      (s.sendOn s.cur.cell s.cur.elem n.val (s.sendTag t) (List.replicate k 0)).endEmpty t (s.profile p.val)
  | _, [] => s.endEmpty t (s.profile p.val)
  | d, ls =>
      let n := s.accs.length
      let s' := s.fireLoad t p .load .load (s.resultOf t d w) laneMark size ls (fun _ => []) (fun _ => 0)
        (fun _ _ => none)
      if s'.accs.length > n then s'.useOut d else s'

/-- LD (R283, R284). -/
def execLd (t : Fin 64) (d : Dst) (a : Pair) (b : Src) (p : Profile) (w : Bool) (s : State) : Out :=
  .next (s.loadLanes t d p w (wBytes w) (s.gather a b))

/-- LDB8 (R283, R284). -/
def execLdb8 (t : Fin 64) (d : Dst) (a : Pair) (b : Src) (p : Profile) (s : State) : Out :=
  .next (s.loadLanes t d p false 1 (s.gather a b))

/-- LDH16 (R283, R284). -/
def execLdh16 (t : Fin 64) (d : Dst) (a : Pair) (b : Src) (p : Profile) (s : State) : Out :=
  .next (s.loadLanes t d p false 2 (s.gather a b))

/-- LDC (R283, R284): lanes at a stride of the lane size from the base. -/
def execLdc (t : Fin 64) (d : Dst) (a : Pair) (b : Src) (p : Profile) (w : Bool) (s : State) : Out :=
  .next (s.loadLanes t d p w (wBytes w) (s.contig a b (wBytes w)))

/-- The format codes that STX refuses (R196, R287). -/
def badStoreCode (desc : Nat) : Bool := desc / 256 % 256 ≥ 0x0A

/-- The descriptor that an LDX of the context will find: that of its own last STX under way, else the one there now (R111).
DEDUCED (log 29). -/
def State.ownDesc (s : State) (pa leaf : Nat) : Nat :=
  let c := s.cur
  let mine := (s.accs.filter fun a => sameCtx a.cell a.elem a.ctx c.cell c.elem c.ctx && a.op == .stx).flatMap fun a =>
    a.parts.filter fun p => p.open && p.pa / 64 == pa / 64
  match mine.getLast? with
  | some p => p.word
  | none => s.descNow (s.l1Of (some c.cell) pa leaf) (leafManaged leaf) pa

/-- LDX's check of the descriptors of the selected blocks (R286). -/
def descFault (s : State) (rs : List (Nat × Nat × Trans)) : Option FaultInfo :=
  let bad := rs.filter fun r => match r.2.2 with
    | .ok pa leaf _ => badLoadCode (s.ownDesc pa leaf)
    | _ => false
  match bad with
  | [] => none
  | b :: _ => some (mkFault fFormat 0 ((bad.map fun x => s.blockMark x.1).foldl Nat.lor 0) b.2.1)

/-- LDX (R286). -/
def execLdx (t : Fin 64) (d : PDst) (a : Pair) (b : Src) (p : Profile) (s : State) : Out :=
  .next (match d, s.blocks a b with
    | .discard, ls => s.firePrefetch t p 64 ls
    | _, [] => s.endEmpty t (s.profile p.val)
    | .pair k, ls => s.fireLoad t p .ldx .load (.ldx (2 * k.val)) s.blockMark 64 ls (fun _ => []) (fun _ => 0) descFault)

/-! Stores (R285, R287). -/

/-- The bytes that lane l of a store writes (R285). -/
def State.storeBytes (s : State) (d : Src) (w : Bool) (size l : Nat) : List Nat :=
  leBytes size (if w then (s.rdW d l).toNat else (s.rd d l).toNat)

/-- A store of lanes (R285). -/
def State.storeLanes (s : State) (t : Fin 64) (d : Src) (p : Profile) (w : Bool) (size : Nat) (ls : List (Nat × Nat)) : State :=
  if ls.isEmpty then s.endEmpty t (s.profile p.val)
  else s.fireStore t p .store .store laneMark size ls (s.storeBytes d w size) (fun _ => 0) none

/-- ST (R285). -/
def execSt (t : Fin 64) (d : Src) (a : Pair) (b : Src) (p : Profile) (w : Bool) (s : State) : Out :=
  .next (s.storeLanes t d p w (wBytes w) (s.gather a b))

/-- STB8 (R285). -/
def execStb8 (t : Fin 64) (d : Src) (a : Pair) (b : Src) (p : Profile) (s : State) : Out :=
  .next (s.storeLanes t d p false 1 (s.gather a b))

/-- STH16 (R285). -/
def execSth16 (t : Fin 64) (d : Src) (a : Pair) (b : Src) (p : Profile) (s : State) : Out :=
  .next (s.storeLanes t d p false 2 (s.gather a b))

/-- STC (R285). -/
def execStc (t : Fin 64) (d : Src) (a : Pair) (b : Src) (p : Profile) (w : Bool) (s : State) : Out :=
  .next (s.storeLanes t d p w (wBytes w) (s.contig a b (wBytes w)))

/-- STX (R287): whole blocks whatever m0 holds in their lanes, with the descriptors of lanes 0 to 3 of the second
register. -/
def execStx (t : Fin 64) (d : Pair) (a : Pair) (b : Src) (p : Profile) (s : State) : Out :=
  let prof := s.profile p.val
  let ls := s.blocks a b
  let desc := fun l => (lane (s.vreg (2 * d.val + 1)) (l / 16)).toNat % 65536
  let bytes := fun l => (List.range 16).flatMap fun i => leBytes 4 (lane (s.vreg (2 * d.val)) (l + i)).toNat
  .next (if ls.isEmpty then s.endEmpty t prof
    else match misaligned s.blockMark 64 ls, ls.filter fun l => badStoreCode (desc l.1) with
      | none, b :: bs =>
          s.takeFault prof (mkFault fFormat 0 (((b :: bs).map fun x => s.blockMark x.1).foldl Nat.lor 0) b.2)
      | _, _ => s.fireStore t p .stx .stx s.blockMark 64 ls bytes desc none)

/-! Scratchpad (R32, R128, R288). -/

/-- A scratchpad address lies in a bank whose role is SCR (R32). -/
def Cell.scratchOk (c : Cell) (spa : Nat) : Bool := spa < 2 ^ 20 && c.role (spa / 8192) == .scr

/-- Bytes of the SRAM pool written, with their rows marked dirty (R385). -/
def State.sramStore (s : State) (cell a : Nat) (bs : List Nat) : State :=
  let s := { s with upsets := s.upsets.filter fun u => !(u.place == Place.sram cell && a ≤ u.addr && u.addr + 8 ≤ a + bs.length) }
  s.setCell cell fun c =>
    { c with sram := memStore c.sram a bs
             dirtyRows := markRows c.dirtyRows ((List.range (bs.length / 32 + 2)).filterMap fun i =>
               let r := a / 32 + i
               if 32 * r < a + bs.length then some r else none) }

/-- The scratchpad addresses of the lanes in m0 (R288). -/
def State.spas (s : State) (a b : Src) : List (Nat × Nat) :=
  (lanesOf s.m0).map fun l => (l, (s.rd a l + s.rd b l).toNat)

/-- The fault of a scratchpad firing: alignment first, then cause 7 (R281, R288). DEDUCED (log 21): ADDR is the scratchpad address
itself. -/
def State.spaFault (s : State) (size : Nat) (ls : List (Nat × Nat)) : Option FaultInfo :=
  match misaligned laneMark size ls with
  | some f => some f
  | none =>
      match ls.filter fun l => !s.curCell.scratchOk l.2 with
      | [] => none
      | b :: bs => some (mkFault fTranslation 7 (((b :: bs).map fun x => 2 ^ x.1).foldl Nat.lor 0) b.2)

/-- LDS (R288): performed in the firing (log 21). -/
def execLds (t : Fin 64) (d : Dst) (a b : Src) (p : Profile) (w : Bool) (s : State) : Out :=
  let prof := s.profile p.val
  let n := wBytes w
  let ls := s.spas a b
  .next (if d = .discard then s.endEmpty t prof
    else match s.spaFault n ls with
      | some f => s.takeFault prof f
      | none =>
          match ls.find? fun l => s.sramSpoiled s.cur.cell l.2 n with
          | some l => (s.countUncorr (dieOf s.cur.cell)).takeFault prof (mkFault fUncorrectable 0 (2 ^ l.1) l.2)
          | none =>
          let s := ls.foldl (fun s' l => s'.correctSram s.cur.cell l.2 n) s
          let sram := s.curCell.sram
          let val := fun l => memNat sram (s.rd a l + s.rd b l).toNat n
          (s.putSel t w d (fun l => BitVec.ofNat 32 (val l)) (fun l => BitVec.ofNat 64 (val l))).endEmpty t prof)

/-- STS (R288): lanes in ascending order, so the highest wins on a common byte. -/
def execSts (t : Fin 64) (d : Src) (a b : Src) (p : Profile) (w : Bool) (s : State) : Out :=
  let prof := s.profile p.val
  let n := wBytes w
  let ls := s.spas a b
  .next (match s.spaFault n ls with
    | some f => s.takeFault prof f
    | none => (ls.foldl (fun s' l => s'.sramStore s.cur.cell l.2 (s.storeBytes d w n l.1)) s).endEmpty t prof)

/-! FENCE (R120, R121). -/

/-- The classes of an access: of its parts not yet performed at the scope, l for the
block that a COLPUSH names, and l, s or u for its entries in the side log: of a cause-0 entry s and u, of a migrating one that of
its leaf (R121, R131). -/
def State.accClasses (s : State) (scope : Nat) (a : Access) : Nat :=
  let waits := fun (p : Part) => !(p.st == .done || (p.st == .inCell && scope == 0))
  let parts := (a.parts.filter waits).foldl (fun acc p =>
    Nat.lor acc (Nat.lor (a.classes p) (if a.op == .store && (colPort p.pa).isSome then 1 else 0))) 0
  ((s.cell a.cell).sideLog.filter (·.id == a.id)).foldl (fun acc e =>
    Nat.lor acc (match e.mig with
      | none => 6
      | some m => if leafOrd m.2 == 2 then 4 else 2)) parts

/-- The engine commands of a context that are not complete (R132). -/
def State.commandsOf (s : State) (c e x : Nat) : List Nat :=
  let k := s.cell c
  ((k.heddle.queue.filter fun h => h.elem == e && h.ctx == x).map (·.id)) ++
  ((k.shuttle.filter fun h => h.elem == e && h.ctx == x).map (·.id)) ++
  ((s.streams.filter fun h => sameCtx h.cell h.elem h.ctx c e x && !h.opened).map (·.id)) ++
  ((s.closes.filter fun h => sameCtx h.cell h.elem h.ctx c e x).map (·.id)) ++
  ((s.colls.filter fun h => sameCtx h.cell h.elem h.ctx c e x).map (·.id)) ++
  ((s.images.filter fun h => sameCtx h.cell h.elem h.ctx c e x).map (·.id))

/-- The descriptions of a context not yet read that are in a FENCE's before-set: loads, or on a UO page accesses of that class (R121,
R125, R131). -/
def State.readsIn (s : State) (c e x seq classes : Nat) : List Nat :=
  ((s.descriptions c e x seq).filter fun d => d.parts.any fun p => Nat.land (d.classes p) classes != 0).map (·.id)

/-- FENCE (R121): the before-set accesses not yet performed at its scope are marked, with the descriptions not yet read (R131);
later after-set accesses wait for them. -/
def execFence (t : Fin 64) (bef aft : Fin 16) (p : Profile) (s : State) : Out :=
  let c := s.cur
  let prof := s.profile p.val
  let seq := s.curCtx.seq
  let accs := (s.accs.filter fun a => sameCtx a.cell a.elem a.ctx c.cell c.elem c.ctx && a.op != .prefetch &&
    Nat.land (s.accClasses (scopeOf prof) a) bef.val != 0).map (·.id)
  let mws := if Nat.land bef.val 3 = 0 then []
    else (s.mwops.filter fun m => sameCtx m.cell m.elem m.ctx c.cell c.elem c.ctx).map (·.id)
  let cmds := if bit bef.val 3 then s.commandsOf c.cell c.elem c.ctx else []
  let reads := s.readsIn c.cell c.elem c.ctx seq bef.val
  let marked := accs ++ mws ++ cmds
  .next (if marked.isEmpty && reads.isEmpty then s.endEmpty t prof
    else
      let (id, s) := s.newId
      let f : Fence := ⟨id, c.cell, c.elem, c.ctx, seq, aft.val, scopeOf prof, marked, reads, arcOf prof⟩
      ({ s with fences := s.fences ++ [f] }).endFiring t 0)

/-! WBR and INVR (R101 to R104). -/

/-- The page parts of the range of a lane: (lane, address, length). -/
def pageParts (l base n : Nat) : List (Nat × Nat × Nat) :=
  (List.range (n / 4096 + 2)).filterMap fun i =>
    let lo := max base ((base / 4096 + i) * 4096)
    let hi := min (base + n) ((base / 4096 + i + 1) * 4096)
    if lo < hi then some (l, lo, hi - lo) else none

/-- WBR and INVR at firing: every page of every range is checked as a load; pages with cause 0 or MIG = 1 are skipped
(R102, R104). -/
def State.fireMaint (s : State) (t : Fin 64) (a : Pair) (b : Src) (p : Profile) (op : AccOp) : State :=
  let prof := s.profile p.val
  let c := s.cur
  let asid := s.asidOf c.cell c.elem c.ctx
  let ranges := ((lanesOf s.m0).map fun l => (l, (s.pairVal (2 * a.val) l).toNat, (s.rd b l).toNat)).filter fun r => r.2.2 != 0
  match ranges.filter fun r => r.2.2 > 0x01000000 || !canonical ((r.2.1 + r.2.2 - 1) % 2 ^ 64) with
  | r :: rs => s.takeFault prof (mkFault fAlignment 0 (((r :: rs).map fun x => 2 ^ x.1).foldl Nat.lor 0) r.2.1)
  | [] =>
      let pages := ranges.flatMap fun r => pageParts r.1 r.2.1 r.2.2
      let (rs, s) := s.translateAll asid .load (pages.map fun g => (g.1, g.2.1))
      let hard := rs.filter fun r => match r.2.2 with
        | .fault code cause => code != fTranslation || cause != 0
        | _ => false
      match failure laneMark hard with
      | some f => s.takeFault prof f
      | none =>
          let parts := (pages.zip rs).filterMap fun x => match x.2.2.2 with
            | .ok _ _ _ => some (mkPart s x.1.1 x.1.2.1 x.1.2.2 x.2.2.2 [] 0)
            | _ => none
          if parts.isEmpty then s.endEmpty t prof
          else (s.enter op .none prof asid parts).2.endFiring t 0

/-- WBR (R102). -/
def execWbr (t : Fin 64) (a : Pair) (b : Src) (p : Profile) (s : State) : Out := .next (s.fireMaint t a b p .wbr)

/-- INVR, and INVR.d where w is set (R102). -/
def execInvr (t : Fin 64) (a : Pair) (b : Src) (p : Profile) (w : Bool) (s : State) : Out :=
  .next (s.fireMaint t a b p (.inv w))

/-- The bytes of a line within a range, as a mask. -/
def rangeMask (line lo n : Nat) : Nat :=
  if line < lo + n && lo < line + 128 then
    let from_ := max lo line - line
    (2 ^ (min (lo + n) (line + 128) - line - from_) - 1) * 2 ^ from_
  else 0
/-- The bytes of a line that the ranges of an access name, through pages of one mapping. DEDUCED (log 47): a line is acted on as if once,
so the ranges of all lanes that meet it count together (R102). -/
def Access.named (a : Access) (sm : Bool) (line : Nat) : Nat :=
  (a.parts.filter fun p => leafSm p.leaf == sm).foldl (fun m p => Nat.lor m (rangeMask line p.pa p.size)) 0

/-- The bytes of a copy that WBR or INVR writes back (R102). -/
def CchLine.written (l : CchLine) (op : AccOp) (inr : Nat) : Nat :=
  match op with
  | .wbr => if l.st == .smPresent || l.st == .modified then Nat.land l.dirty inr else 0
  | .inv discard => if discard && !l.coherent then Nat.land l.dirty (Nat.xor (2 ^ 128 - 1) inr) else l.dirty
  | _ => 0

/-- The action of WBR or INVR on one line of the cell, with the bytes of its ranges (R102). -/
def State.maintLine (s : State) (cell : Nat) (op : AccOp) (inr : Nat) (l : CchLine) : State :=
  let met := (if bits inr 63 0 != 0 then 1 else 0) + (if bits inr 127 64 != 0 then 2 else 0)
  match op with
  | .wbr =>
      if l.st == .smPresent || l.st == .modified then
        let s := ((s.writeBytes l (l.written op inr)).writeDescs l met).merged cell l.pa inr
        s.setCell cell fun c => c.setLine l.pa fun k =>
          let d := Nat.land k.dirty (Nat.xor (2 ^ 128 - 1) inr)
          { k with dirty := d, descDirty := Nat.land k.descDirty (3 - met),
                   st := if k.st == .modified && d == 0 then .exclusive else k.st }
      else s
  | .inv discard =>
      if l.coherent then (s.evictLine cell l.pa).dirDrop cell l.pa
      else
        let s := (s.writeBytes l (l.written op inr)).writeDescs l (if discard then 3 - met else 3)
        ((s.cleanSpot cell l).setCell cell fun c => c.dropLine l.pa).merged cell l.pa (2 ^ 128 - 1)
  | _ => s

/-- An uncorrectable word of a copy that a page part of WBR or INVR would write back (R87). -/
def State.maintBad (s : State) (a : Access) (p : Part) : Bool :=
  p.cached s && (s.cell a.cell).cch.any fun l =>
    rangeMask l.pa p.pa p.size != 0 && (l.st == .smPresent) == leafSm p.leaf &&
    s.upsets.any ({ l with dirty := l.written a.op (a.named (leafSm p.leaf) l.pa) }.spoils a.cell)

/-- The lines of the cell that a page part of WBR or INVR meets, where the page may have copies (R102). -/
def State.maintPart (s : State) (a : Access) (p : Part) : State :=
  if !p.cached s then s
  else (s.cell a.cell).cch.foldl (fun s l =>
    if rangeMask l.pa p.pa p.size != 0 && (l.st == .smPresent) == leafSm p.leaf
    then match (s.cell a.cell).line? l.pa with
      | some k => s.maintLine a.cell a.op (a.named (leafSm p.leaf) k.pa) k
      | none => s
    else s) s

end Sys2Proof.Machine
end

