-- ==== Sys2Proof/Machine/Regs.lean ====
section
/-! DEFINITION. The registers of the hub and loom-die MMIO windows: their values, and the effects of writing them but for an action on
a fault record (01_address_spaces.md R19, R421; 02_translation_and_migration.md R49, R56, R57; 03_hierarchy_and_enumeration.md R78,
R88; 15_scheduling_and_clocks.md R351, R369, R373; 16_traps_and_preemption.md R377; 18_host_and_scale_out.md R402 to R405, R420). -/

namespace Sys2Proof.Machine

/-! Queues (R351, R352) and fault rings (R377). -/

def State.lqueue (s : State) (q : Nat) : LQueue := s.lqueues.getD q LQueue.reset
def State.setLqueue (s : State) (q : Nat) (f : LQueue → LQueue) : State := { s with lqueues := modifyAt s.lqueues q f }

/-- A queue keeps its head over a change: the same spliced entry, or the same pushed one (R362). -/
def LQueue.keepsHead (old new : LQueue) : Bool :=
  match old.spliced, new.spliced with
  | x :: _, y :: _ => x.1 == y.1
  | [], [] => !old.pushed.isEmpty && old.pushed.isPrefixOf new.pushed
  | _, _ => false

/-- The queue after a change, with the head's wait counted from the moment it became head (R362). -/
def LQueue.rehead (old new : LQueue) (now : Nat) : LQueue :=
  if old.keepsHead new then new else { new with headSince := now }

def fqEn (b : Nat) : Bool := bit b 0
/-- The records of a ring (R377). DESIGN CHOICE (log 35): a SIZE above 12, which R377 does not allow, acts as 12. -/
def fqSize (b : Nat) : Nat := 2 ^ min (bits b 63 52) 12
def fqBase (b : Nat) : Nat := bits b 51 6 * 64
def Die.fqFull (d : Die) : Bool := (d.fqprod + 2 ^ 32 - d.fqcons) % 2 ^ 32 == fqSize d.fqbase
/-- The oldest record of a die that is not yet in the ring. -/
def Die.nextRecord (d : Die) : Option OpenRecord := d.records.find? (·.seq.isNone)

/-- A write of FQCONS (R377). -/
def State.fqconsSet (s : State) (die v : Nat) : State := s.setDie die fun d => { d with fqcons := v % 2 ^ 32 }
/-- A write of FQBASE (R377): reserved bits stay 0. -/
def State.fqbaseSet (s : State) (die v : Nat) : State :=
  s.setDie die fun d => { d with fqbase := setBits (v % 2 ^ 64) 5 1 0 }

def boolBit (b : Bool) (i : Nat) : Nat := if b then 2 ^ i else 0

/-! Free frames (R49, R57). -/

/-- The placement of a frame of this module: GDDR 7, device-owned LPDDR 6, host-owned LPDDR 6 (R49). -/
def State.placementOf (s : State) (pa : Nat) : Nat :=
  let lo := localOf pa
  if lo < lpBase then 0 else if lo < localOf s.mig.hbase then 1 else 2

/-- Free frames of a placement in units of 4 KiB (R56). -/
def Mig.freeUnits (m : Mig) (pl : Nat) : Nat := (m.free4k.getD pl []).length + 512 * (m.free2m.getD pl []).length

/-- A frame a request may use: populated, of this module and outside the descriptor stores (R50, R56). -/
def State.frameOk (s : State) (pa n : Nat) : Bool :=
  moduleOf pa == s.hub.modnum && inTier s.hub.grade (localOf pa) n && !meetsDs s.hub.grade (localOf pa) n

/-- A frame joins the free list of its placement; one that may not, or that finds the list full, sets BADF (R56, R57). DESIGN CHOICE
(log 43): a frame of HUGE = 1 whose bits [20:12] are not 0 is dropped with BADF too; R56 says only that they must be 0. -/
def State.pushFrame (s : State) (pa : Nat) (huge : Bool) : State :=
  let pl := s.placementOf pa
  let n := if huge then 2 ^ 21 else 4096
  let room := if huge then (s.mig.free2m.getD pl []).length < 4096 else (s.mig.free4k.getD pl []).length < 65536
  if pa % n != 0 || !s.frameOk pa n || !room then { s with mig := { s.mig with badf := true } }
  else
    let m := { s.mig with nospace := s.mig.nospace && pl != 1 }
    if huge then { s with mig := { m with free2m := modifyAt m.free2m pl (· ++ [pa]) } }
    else { s with mig := { m with free4k := modifyAt m.free4k pl (· ++ [pa]) } }

/-! Effects of writes to the migration registers (R56). -/

/-- MIGPUSH: a request is submitted; beyond 1,024 pending it is dropped and sets OVF. -/
def State.migpushSet (s : State) (v : Nat) : State :=
  let a := bits v 51 5 * 32
  let s := { s with mig := { s.mig with push := a } }
  if (s.mig.requests.filter (!·.eviction)).length ≥ 1024 then { s with mig := { s.mig with ovf := true } }
  else
    let (id, s) := s.newId
    let r : MigReq :=
      { id := id, block := a, asid := 0, size := 0, dest := 0, irq := false, va := 0, frame := 0, crec := 0, phase := 0,
        leafPa := 0, leaf := 0, inv := 0, flush := [], eviction := false }
    { s with mig := { s.mig with requests := s.mig.requests ++ [r] } }

/-- MIGFREE: a frame is returned. -/
def State.migfreeSet (s : State) (v : Nat) : State :=
  let kept := bits v 51 12 * 4096 + v % 2
  ({ s with mig := { s.mig with free := kept } }).pushFrame (bits v 51 12 * 4096) (bit v 0)

def State.migctlSet (s : State) (v : Nat) : State :=
  { s with mig := { s.mig with irqen := bit v 49, en := bit v 48, high := bits v 47 24, low := bits v 23 0 } }

/-- MIGEVQ: the producer and consumer counts restart at 0. -/
def State.migevqSet (s : State) (v : Nat) : State :=
  { s with mig := { s.mig with evq := bits v 63 4 * 16, evp := 0, evc := 0 } }

def State.migevcSet (s : State) (v : Nat) : State := { s with mig := { s.mig with evc := v % 2 ^ 32 } }

/-- MIGHBASE: ignored while EN = 1; out of range or of another module it sets BADF. -/
def State.mighbaseSet (s : State) (v : Nat) : State :=
  let a := bits v 51 21 * 2 ^ 21
  if s.mig.en then s
  else if moduleOf a != s.hub.modnum || localOf a < lpBase || lpDs s.hub.grade < localOf a then
    { s with mig := { s.mig with badf := true } }
  else { s with mig := { s.mig with hbase := a } }

/-- MIGSTAT: bits written as 1 clear DONE, BADF and OVF. -/
def State.migstatSet (s : State) (v : Nat) : State :=
  { s with mig := { s.mig with done := s.mig.done && !bit v 53, badf := s.mig.badf && !bit v 35,
                               ovf := s.mig.ovf && !bit v 34 } }

/-- The eviction ring's length in records (R56). DESIGN CHOICE (log 43): a SIZE above 16, which R56 does not allow, acts as 16. -/
def evSize (q : Nat) : Nat := 2 ^ min (bits q 63 52) 16
def evBase (q : Nat) : Nat := bits q 51 4 * 16
/-- The eviction ring is full (R56). -/
def Mig.evFull (m : Mig) : Bool := evBase m.evq != 0 && (m.evp + 2 ^ 32 - m.evc) % 2 ^ 32 == evSize m.evq

/-- The migration interrupt line of the hub: asserted while DONE = 1 and IRQEN = 1 (R50, R56). -/
def Mig.line (m : Mig) : Bool := m.done && m.irqen
/-- The interrupt line of a launch queue: asserted while IRQ = 1 and IRQEN = 1 (R352). -/
def LQueue.line (q : LQueue) : Bool := q.irq && q.irqen
/-- The hub's 65 interrupt lines towards the host: the 64 queues' and the migration engine's own (R56, R352). -/
def State.irqLines (s : State) : List Bool := s.lqueues.map LQueue.line ++ [s.mig.line]

def Mig.stat (m : Mig) : Nat :=
  let sat := fun pl => min (m.freeUnits pl) (2 ^ 17 - 1)
  boolBit m.evFull 54 + boolBit m.done 53 + sat 2 * 2 ^ 36 + boolBit m.badf 35 + boolBit m.ovf 34 + sat 1 * 2 ^ 17 + sat 0

/-! Other writes. -/

/-- QPUSH: appended to the queue's tail, or dropped with OVF (R351, R352); a step is owed (R358). -/
def State.qpushSet (s : State) (q v : Nat) : State :=
  let a := bits v 51 8 * 256
  let push := fun (k : LQueue) =>
    let k := { k with addr := a }
    if k.pushed.length ≥ 256 then { k with ovf := true } else k.rehead { k with pushed := k.pushed ++ [a] } s.time
  (s.setLqueue q push).stepOwed

def State.qctlSet (s : State) (q v : Nat) : State :=
  (s.setLqueue q fun k => { k with irqen := bit v 33, en := bit v 32, quantum := v % 2 ^ 32 }).stepOwed
def State.qstatSet (s : State) (q v : Nat) : State :=
  s.setLqueue q fun k => { k with irq := k.irq && !bit v 17, ovf := k.ovf && !bit v 16 }

/-- PWRCAP: clamped into 1,000 to 2,600 W, and a recomputation is due (R370, R373). -/
def State.pwrcapSet (s : State) (v : Nat) : State :=
  ({ s with hub := { s.hub with cap := max 1000 (min 2600 (v % 4096)) } }).splitSoon

/-- MODNUM: written once after reset (R19). -/
def State.modnumSet (s : State) (v : Nat) : State :=
  if s.hub.modWritten then s else { s with hub := { s.hub with modnum := v % 64, modWritten := true } }

/-- SERRCNT: a field written as 0 is cleared (R88). -/
def State.serrcntSet (s : State) (die v : Nat) : State :=
  s.setDie die fun d => { d with uncorr := if bits v 47 32 = 0 then 0 else d.uncorr, corr := if bits v 31 0 = 0 then 0 else d.corr }

/-- HUBFLT: a field written as 0 is cleared (R402). -/
def State.hubfltSet (s : State) (v : Nat) : State :=
  { s with hub := { s.hub with norec := if bits v 47 32 = 0 then 0 else s.hub.norec, uepkt := if bits v 31 0 = 0 then 0 else s.hub.uepkt } }

/-! Register values. -/

def State.hubFlt (s : State) : Nat := s.hub.norec * 2 ^ 32 + s.hub.uepkt

/-- A register of launch queue q (R351). -/
def State.queueReg (s : State) (q o : Nat) : Nat :=
  let k := s.lqueue q
  match o with
  | 0x00 => k.addr
  | 0x08 => boolBit k.irqen 33 + boolBit k.en 32 + k.quantum
  | 0x10 => boolBit k.irq 17 + boolBit k.ovf 16 + k.pushed.length
  | _ => 0

/-- A register of the migration engine (R56). -/
def Mig.reg (m : Mig) (o : Nat) : Nat :=
  match o with
  | 0x00 => m.push
  | 0x08 => m.free
  | 0x10 => boolBit m.irqen 49 + boolBit m.en 48 + m.high * 2 ^ 24 + m.low
  | 0x18 => m.evq
  | 0x20 => m.stat
  | 0x28 => m.hbase
  | 0x30 => m.evp
  | 0x38 => m.evc
  | _ => 0

/-- The 8 bytes at an aligned offset of the hub window; an offset without a register reads 0 (R421). -/
def State.hubReg (s : State) (o : Nat) : Nat :=
  let h := s.hub
  if 0x100000 ≤ o && o < 0x102500 then fieldAt h.enumTable (o - 0x100000) 8
  else if 0x50100 ≤ o && o < 0x50300 then
    let n := (o - 0x50100) / 8
    if n = h.modnum then h.grade else h.domgrade.getD n 0
  else if 0x41000 ≤ o && o < 0x41800 then
    let d := (o - 0x41000) / 0x100
    fieldAt ((s.die d).ptable.flatMap (leBytes 2)) (o % 0x100) 8
  else if 0x40100 ≤ o && o < 0x40180 then
    let d := s.die ((o - 0x40100) / 0x10)
    if o % 0x10 = 0 then d.budget * 2 ^ 32 + boolBit d.overBudget 16 + d.grant else 0
  else if 0x30000 ≤ o && o < 0x30800 then s.queueReg ((o - 0x30000) / 0x20) (o % 0x20)
  else if 0x20000 ≤ o && o < 0x20040 then s.mig.reg (o - 0x20000)
  else match o with
    | 0x10000 => h.asidBase * 2 ^ 19 + boolBit h.asidEn 0
    | 0x10008 => h.modnum
    | 0x10010 => h.modnum * 2 ^ 46 + gddrDs h.grade
    | 0x10018 => h.modnum * 2 ^ 46 + lpDs h.grade
    | 0x10020 => h.enumBase / 4096 * 4096 + boolBit h.enumValid 0
    | 0x40000 => h.cap
    | 0x40008 => boolBit h.short 16 + h.allow
    | 0x50000 => Nat.lor h.dommask (2 ^ h.modnum)
    | 0x50008 => s.hubFlt
    | 0x50010 => s.hubFlt
    | _ => 0

/-- The 8 bytes at an aligned offset of a loom die's window (R88, R377, R405). -/
def State.dieReg (s : State) (die o : Nat) : Nat :=
  let d := s.die die
  match o with
  | 0x1000 => d.uncorr * 2 ^ 32 + d.corr
  | 0x2000 => d.fqbase
  | 0x2008 => d.fqprod
  | 0x2010 => d.fqcons
  | 0x2018 => d.fqact
  | 0x2020 => d.fqdoor
  | 0x2028 => boolBit d.badact 1 + boolBit (d.fqFull && d.nextRecord.isSome) 0
  | 0x3000 => d.colpush.getD 0 0
  | 0x3008 => d.colpush.getD 1 0
  | _ => 0

/-- A read of n bytes of the windows; `rs` says whether the reader is a resident graph or hub firmware (R11, R421). -/
def State.mmioRead (s : State) (pa n : Nat) (rs : Bool) : Nat :=
  if !rs && rsRegister pa then 0
  else
    let (w, o) := mmioWindow pa
    let v := if w = 8 then s.hubReg (o / 8 * 8) else s.dieReg w (o / 8 * 8)
    v / 256 ^ (o % 8) % 256 ^ n

/-- A write of a hub register (R421). -/
def State.hubSet (s : State) (o v : Nat) : State :=
  if 0x50100 ≤ o && o < 0x50300 then
    { s with hub := { s.hub with domgrade := s.hub.domgrade.set ((o - 0x50100) / 8) (v % 256) } }
  else if 0x30000 ≤ o && o < 0x30800 then
    let q := (o - 0x30000) / 0x20
    match o % 0x20 with
    | 0x00 => s.qpushSet q v
    | 0x08 => s.qctlSet q v
    | 0x10 => s.qstatSet q v
    | _ => s
  else match o with
    | 0x10000 => { s with hub := { s.hub with asidBase := bits v 51 19, asidEn := bit v 0 } }
    | 0x10008 => s.modnumSet v
    | 0x20000 => s.migpushSet v
    | 0x20008 => s.migfreeSet v
    | 0x20010 => s.migctlSet v
    | 0x20018 => s.migevqSet v
    | 0x20020 => s.migstatSet v
    | 0x20028 => s.mighbaseSet v
    | 0x20038 => s.migevcSet v
    | 0x40000 => s.pwrcapSet v
    | 0x50000 => { s with hub := { s.hub with dommask := v % 2 ^ 64 } }
    | 0x50008 => s.hubfltSet v
    | _ => s

/-- A write of a loom-die register; an action that FQACT asks for is the writer's to take (R377), and a COLPUSH write that a context makes
starts a collective by the event of that name (R405). -/
def State.dieSet (s : State) (die o v : Nat) : State :=
  match o with
  | 0x1000 => s.serrcntSet die v
  | 0x2000 => s.fqbaseSet die v
  | 0x2010 => s.fqconsSet die v
  | 0x2018 => s.setDie die fun d => { d with fqact := bits v 57 56 * 2 ^ 56 + v % 2 ^ 32 }
  | 0x2020 => s.setDie die fun d => { d with fqdoor := bits v 51 3 * 8 }
  | 0x2028 => s.setDie die fun d => { d with badact := d.badact && !bit v 1 }
  | 0x3000 => s.setDie die fun d => { d with colpush := d.colpush.set 0 v }
  | 0x3008 => s.setDie die fun d => { d with colpush := d.colpush.set 1 v }
  | _ => s

/-- A write of n bytes: only whole aligned registers act, and resident-only ones only for `rs` (R11, R421). -/
def State.regWrite (s : State) (pa n v : Nat) (rs : Bool) : State :=
  if n != 8 || pa % 8 != 0 || (!rs && rsRegister pa) then s
  else
    let (w, o) := mmioWindow pa
    if w = 8 then s.hubSet o v else s.dieSet w o v

/-- The pieces of a range within 8-byte registers: (offset, length). -/
def wordPieces (a n : Nat) : List (Nat × Nat) :=
  (List.range (n / 8 + 2)).filterMap fun i =>
    let lo := max a ((a / 8 + i) * 8)
    let hi := min (a + n) ((a / 8 + i + 1) * 8)
    if lo < hi then some (lo - a, hi - lo) else none

/-- A load of n bytes of an MMIO window, register by register (R421); what a window of another module holds is that module's (log 6,
log 9). -/
def State.mmioLoad (s : State) (pa n : Nat) (rs : Bool) : List Nat :=
  if moduleOf pa == s.hub.modnum then (wordPieces pa n).flatMap fun p => leBytes p.2 (s.mmioRead (pa + p.1) p.2 rs)
  else leBytes n (Config.openValue 18 (pa + 2 ^ 52 * s.time))
/-- A store of bytes in an MMIO window, register by register (R421); one of another module acts there (log 9). -/
def State.regStore (s : State) (pa : Nat) (bs : List Nat) (rs : Bool) : State :=
  if moduleOf pa == s.hub.modnum then
    (wordPieces pa bs.length).foldl (fun s p => s.regWrite (pa + p.1) p.2 (leNat (sliceBytes bs p.1 p.2)) rs) s
  else s

end Sys2Proof.Machine
end

