-- ==== Sys2Proof/Machine/Records.lean ====
section
/-! DEFINITION. Reads and writes that are performed at once, piece by piece: those of engines, of commands' own descriptions and of
the hub, through a launch's tables; and completion records (05_consistency.md R131, 15_scheduling_and_clocks.md R352, R356, R357; 18_host_and_scale_out.md R402). The hub translates as die 0 does (log 10). -/

namespace Sys2Proof.Machine

/-- The pieces of a range within lines: (offset, length). -/
def linePieces (a n : Nat) : List (Nat × Nat) :=
  (List.range (n / 128 + 2)).filterMap fun i =>
    let lo := max a ((a / 128 + i) * 128)
    let hi := min (a + n) ((a / 128 + i + 1) * 128)
    if lo < hi then some (lo - a, hi - lo) else none

/-- The own copy of a cell that serves a piece is spoiled: a clean one is dropped, to be read at home; a dirty one fails the access
(R87). -/
def State.dropSpoiled (s : State) (cell : Option Nat) (sm : Bool) (pa n : Nat) : Bool × State :=
  match s.ownCopy cell sm pa with
  | none => (false, s)
  | some (c, l) =>
      let a := l.spot + pa % 128
      if !s.sramSpoiled c a n then (false, s.correctSram c a n)
      else if l.dirty = 0 && l.descDirty = 0 then
        let s := (s.cleanSpot c l).setCell c fun k => k.dropLine l.pa
        (false, if sm then s else s.dirDrop c l.pa)
      else (true, s)

/-- A load of a piece of a line, performed at once: from the cell's copy, or at home, where the slice and the L1 allocate as CP and the
hint say; it waits for a busy line and for a copy that its holder keeps (R26, R69, R93, R96, R131). -/
def State.readPiece (s : State) (cell : Option Nat) (hint pa leaf va n : Nat) : HubResult :=
  let l1 := s.l1Of cell pa leaf
  let sm := leafManaged leaf
  if s.busyLine pa then .wait
  else
    let (bad, s) := s.dropSpoiled l1 sm pa n
    if bad then .fault fUncorrectable 0 va
    else if (s.ownCopy l1 sm pa).isSome then
      let (bs, s) := s.loadNow l1 sm pa n
      .ok bs s
    else if !sm && s.pullWaits (lineOf pa) false none then .wait
    else if !sm && (s.pullBad (lineOf pa) false none).isSome then .fault fUncorrectable 0 va
    else
      let s := (if leafCp leaf = 2 then s else s.sliceTouch pa hint).correctAt pa n
      if s.spoiled pa n then .fault fUncorrectable 0 va
      else
        let (bs, s) := (s.smFill cell hint pa leaf).loadNow l1 sm pa n
        .ok bs s

/-- A store of a piece of a line, performed at once. On a software-managed page the bytes are merged at home in the same event. DESIGN
CHOICE (log 11): so that an engine's command ends with its bytes performed at whatever scope it names (R126, R132). -/
def State.writePiece (s : State) (cell : Option Nat) (hint pa leaf va : Nat) (bs : List Nat) : HubResult :=
  let l1 := s.l1Of cell pa leaf
  let sm := leafManaged leaf
  let owned := !sm && (s.ownCopy l1 false pa).any fun x => x.2.owned
  if s.busyLine pa || (!sm && s.pullWaits (lineOf pa) true l1) then .wait
  else if !owned && (s.tagSpoiled pa || (!sm && (s.pullBad (lineOf pa) true l1).isSome)) then .fault fUncorrectable 0 va
  else
    let s := if leafCp leaf = 2 then s else s.sliceTouch pa hint
    .ok [] (if sm then (s.smFill cell hint pa leaf).storeThrough l1 pa bs else s.storeNow l1 pa bs none)

/-- A plain load through a launch's tables, line by line: by the hub, or by the resident scheduler, which passes check 1 (R254, R353,
R357); MMIO registers are read one by one (R421). A word with an uncorrectable error is a fault (R87, R376). DESIGN CHOICE (log 10):
through die 0. -/
def State.hubLoad (s : State) (res : Bool) (asid va n : Nat) : HubResult :=
  (linePieces va n).foldl (fun r p =>
    let a := (va + p.1) % 2 ^ 64
    match r with
    | .ok bs s => match s.translate none 0 asid (res || asid == 0) .load a with
      | (.ok pa leaf _, s) =>
          if inMmio pa then .ok (bs ++ s.mmioLoad pa p.2 (res || asid == 0)) s
          else match s.readPiece none 0 pa leaf a p.2 with
          | .ok new s => .ok (bs ++ new) s
          | r => r
      | (.mig .., _) | (.busy, _) => .wait
      | (.fault code cause, _) => .fault code cause a
    | r => r) (.ok [] s)

/-- The line pieces of a range that is to be written are translated, and no one of them must wait or fails, before one is written. -/
def State.hubRoom (s : State) (res : Bool) (asid va n : Nat) : HubResult :=
  (linePieces va n).foldl (fun r p =>
    let a := (va + p.1) % 2 ^ 64
    match r with
    | .ok pas s => match s.translate none 0 asid (res || asid == 0) .store a with
      | (.ok pa leaf _, s) =>
          if inMmio pa then .ok (pas ++ [pa, leaf]) s
          else if s.busyLine pa || (!leafManaged leaf && s.pullWaits (lineOf pa) true none) then .wait
          else if s.tagSpoiled pa || (!leafManaged leaf && (s.pullBad (lineOf pa) true none).isSome) then .fault fUncorrectable 0 a
          else .ok (pas ++ [pa, leaf]) s
      | (.mig .., _) | (.busy, _) => .wait
      | (.fault code cause, _) => .fault code cause a
    | r => r) (.ok [] s)

/-- A store through a launch's tables; every byte is translated before one is written (R354, R357, R421). -/
def State.hubStore (s : State) (res : Bool) (asid va : Nat) (bs : List Nat) : HubResult :=
  match s.hubRoom res asid va (max bs.length 1) with
  | .ok pas s => ((linePieces va bs.length).zip (List.range (linePieces va bs.length).length)).foldl (fun r x =>
      let pa := pas.getD (2 * x.2) 0
      let new := sliceBytes bs x.1.1 x.1.2
      match r with
      | .ok _ s =>
          if inMmio pa then .ok [] (s.regStore pa new (res || asid == 0))
          else s.writePiece none 0 pa (pas.getD (2 * x.2 + 1) 0) ((va + x.1.1) % 2 ^ 64) new
      | r => r) (.ok [] s)
  | r => r

/-- An uncorrectable error that an access at a virtual address met is counted: where its walk met it, or by the cell's die, where a copy
of its own holds the word, by that of another cell whose copy would be recalled for it, else by the home's (R88). -/
def State.countAt (s : State) (code : Nat) (cell : Option Nat) (die asid va : Nat) : State :=
  if code != fUncorrectable then s
  else match s.translate cell die asid true .load va with
    | (.ok pa leaf _, s') =>
        s.countUncorr (if (s'.ownCopy (s'.l1Of cell pa leaf) (leafManaged leaf) pa).isSome then die
          else match s'.pullBad (lineOf pa) true none with
            | some c => dieOf c
            | none => homeDie pa)
    | (.fault .., s') => s'
    | _ => s.countUncorr die

/-- The leaf of an access by physical address: a coherent one of the slices, in no cell's L1. -/
def plainLeaf : Nat := 2 ^ 7 + 2 ^ 11

/-- Plain reads of the hub by physical address: the bytes, a wait, or a fault, where the bytes do not exist (code 1, nothing counted) or one
of their words is uncorrectable, which is counted (R87, R88, R351, R376). -/
def State.hubLoadPa (s : State) (pa n : Nat) : HubResult :=
  if !s.populated pa n then .fault fTranslation 5 pa
  else if inMmio pa then .ok (s.mmioLoad pa n false) s
  else (linePieces pa n).foldl (fun r p => match r with
    | .ok bs s => match s.readPiece none 0 (pa + p.1) plainLeaf (pa + p.1) p.2 with
      | .ok new s => .ok (bs ++ new) s
      | r => r
    | r => r) (.ok [] s)
/-- The first piece of a plain store by physical address whose line meets an uncorrectable error (R87). -/
def State.badPiece (s : State) (pa n : Nat) : Option (Nat × Nat) :=
  (linePieces pa n).find? fun p => s.tagSpoiled (pa + p.1) || (s.pullBad (lineOf (pa + p.1)) true none).isSome

/-- Plain stores of the hub by physical address; none while a line of theirs must be waited for (R93). Nothing is written where the bytes do
not exist, or where a word that they meet is uncorrectable, which is counted (R87, R88). -/
def State.hubStorePa (s : State) (pa : Nat) (bs : List Nat) : Option State :=
  if !s.populated pa bs.length then some s
  else if inMmio pa then some (s.regStore pa bs false)
  else
    let ps := linePieces pa bs.length
    if ps.any fun p => s.homeWaits (pa + p.1) true then none
    else match s.badPiece pa bs.length with
      | some p => some (s.countUncorr (homeDie (pa + p.1)))
      | none => some (ps.foldl (fun s p => (s.sliceTouch (pa + p.1) 0).storeNow none (pa + p.1) (sliceBytes bs p.1 p.2) none) s)

/-- An uncorrectable error that an access by physical address met is counted (R88). -/
def State.countPa (s : State) (code pa : Nat) : State :=
  if code != fUncorrectable then s
  else s.countUncorr (match s.pullBad (lineOf pa) false none with | some c => dieOf c | none => homeDie pa)

/-- A launch block, read line by line: its bytes, those of its first line alone where the second cannot be read, and none where the first
cannot be (R353, R356). None while a line must be waited for. -/
def State.loadBlock (s : State) (load : State → Nat → HubResult) (count : State → Nat → Nat → State) (a : Nat) :
    Option (List Nat × State) :=
  match load s a with
  | .wait => none
  | .fault code _ x => some ([], count s code x)
  | .ok b s => match load s (a + 128) with
    | .wait => none
    | .fault code _ x => some (b, count s code x)
    | .ok b' s => some (b ++ b', s)

/-- HUBFLT.NOREC counts a completion record that could not be written, saturating (R402). -/
def State.noRecord (s : State) : State := { s with hub := { s.hub with norec := min (s.hub.norec + 1) 65535 } }

def stDone : Nat := 0
def stRefused : Nat := 1
def stTerminated : Nat := 2
def stCancelled : Nat := 3

/-- A completion record (R357). -/
def crecBytes (status cause launchid faults start end_ : Nat) : List Nat :=
  leBytes 4 status ++ leBytes 2 cause ++ leBytes 2 0 ++ leBytes 4 launchid ++ leBytes 4 faults ++ leBytes 8 start ++
  leBytes 8 end_

/-- A completion record written, or counted where it cannot be; none while its page migrates (R357, R402). -/
def State.writeCrec (s : State) (asid crec status cause launchid faults start end_ : Nat) : Option State :=
  if crec % 32 != 0 then some s.noRecord
  else match s.hubStore false asid crec (crecBytes status cause launchid faults start end_) with
    | .ok _ s => some s
    | .wait => none
    | .fault code _ a => some (s.countAt code none 0 asid a).noRecord

/-- A tail launch that is discarded: its block is read for CREC alone and the record says CANCELLED (R352). -/
def State.cancelTail (s : State) (asid block cause : Nat) : Option State :=
  match (if block % 256 = 0 then s.hubLoad false asid ((block + 32) % 2 ^ 64) 8 else .fault 0 0 0) with
  | .ok bs s => s.writeCrec asid (leNat bs) stCancelled cause 0 0 0 s.ticks
  | .wait => none
  | .fault code _ a => some (s.countAt code none 0 asid a).noRecord

/-- A tail launch joins the graph's tail list under the number of its receipt; a 257th entry is discarded with cause 12 (R256, R292,
R352, R365). None while a page that the discard needs migrates. A cell of no launch has no tail list. DEDUCED (log 57). -/
def State.addTail (s : State) (launch block : Nat) : Option State :=
  match s.launch? launch with
  | none => some s
  | some l =>
      if l.tail.length < 256 then
        let (id, s) := s.newId
        some (s.setLaunch launch fun l => { l with tail := l.tail ++ [(id, block)] })
      else s.cancelTail l.asid block 12

end Sys2Proof.Machine
end

