-- ==== Sys2Proof/Machine/Atomic.lean ====
section
/-! DEFINITION. Single-word atomics, router-merged reductions, WAITA and WAKE, futures and join records
(06_atomics_and_mwcas.md R139 to R148, R158 to R160; 12_isa_memory_and_shuttle.md R289 to R293). -/

namespace Sys2Proof.Machine

/-! Operations (R139, R142). -/

/-- AFADD on one 32-bit half. -/
def afaddHalf (old b : Nat) : Nat × Nat := fpAdd .fp32 (old % 2 ^ 32) (b % 2 ^ 32)

/-- The new value of a word of k bits, its flags, and whether the word is written (R139, R141, R142). -/
def atomicNew (op k old b cmp : Nat) : Nat × Nat × Bool :=
  match op with
  | 0x58 => ((old + b) % 2 ^ k, 0, true)
  | 0x59 => (if signed k old ≤ signed k b then old else b, 0, true)
  | 0x5A => (if signed k old ≤ signed k b then b else old, 0, true)
  | 0x5B => (Nat.land old b, 0, true)
  | 0x5C => (Nat.lor old b, 0, true)
  | 0x5D => (Nat.xor old b, 0, true)
  | 0x5E => (b, 0, true)
  | 0x5F => if old = cmp then (b, 0, true) else (old, 0, false)
  | _ =>
      let lo := afaddHalf old b
      if k = 64 then
        let hi := afaddHalf (old / 2 ^ 32) (b / 2 ^ 32)
        (lo.1 + 2 ^ 32 * hi.1, Nat.lor lo.2 hi.2, true)
      else (lo.1, lo.2, true)

/-! Merge buffers (R146 to R148; the routers of a path are log 22). -/

def mergeable (op : Nat) : Bool := 0x58 ≤ op && op ≤ 0x5D
/-- The place of a request that has left the last router of its path. -/
def departed : Nat := 4095

/-- Two held requests combined: operand and contributions (R147). -/
def MergeEntry.combine (x y : MergeEntry) : MergeEntry :=
  { x with operand := (atomicNew x.op (8 * x.size) x.operand y.operand 0).1, contribs := x.contribs ++ y.contribs }

/-- Merge-compatible requests whose contributions stay within 16 (R146, R147). -/
def MergeEntry.fits (x y : MergeEntry) : Bool :=
  x.op == y.op && x.size == y.size && x.pa == y.pa && x.contribs.length + y.contribs.length ≤ 16

/-- A held request is within its 8 network cycles (R147). -/
def State.mergeOpen (s : State) (x : MergeEntry) : Bool := s.time < x.since + 8 * s.nPeriod (x.router / 160)

def State.mergeAt (s : State) (router : Nat) : List MergeEntry := s.merges.filter (·.router == router)

/-- A request reaches a router: combined with a compatible one held there, and gone on for home as soon as it carries 16
contributions; held, where a full buffer sends its oldest on; or, past its last router, on its way home (R147). -/
def State.reachRouter (s : State) : Nat → MergeEntry → State
  | 0, e => { s with merges := s.merges ++ [{ e with router := departed, path := [] }] }
  | fuel + 1, e => match e.path with
    | [] => { s with merges := s.merges ++ [{ e with router := departed }] }
    | r :: path =>
        match (s.mergeAt r).find? fun x => x.fits e && s.mergeOpen x with
        | some x =>
            let y := x.combine e
            let y := if y.contribs.length ≥ 16 then { y with router := departed, path := [] } else y
            { s with merges := updateWhere (fun (k : MergeEntry) => k.id == x.id) (fun _ => y) s.merges }
        | none =>
            let here := { e with router := r, path := path, since := s.time }
            match s.mergeAt r with
            | old :: rest =>
                if rest.length < 15 then { s with merges := s.merges ++ [here] }
                else State.reachRouter { s with merges := s.merges.filter (fun (k : MergeEntry) => k.id != old.id) ++ [here] } fuel old
            | [] => { s with merges := s.merges ++ [here] }

/-- Hops enough for a cascade of full buffers along a path. -/
def hops : Nat := 32

/-- The merge entry that holds a part. -/
def State.mergeOf (s : State) (id i : Nat) : Option MergeEntry := s.merges.find? fun e => e.contribs.contains (id, i)

/-- Nothing holds a reduction back from the routers; earlier lanes of its own firing at the same word do so in the SO order alone, for
routers may combine them (R123, R146). -/
def State.mayEnter (s : State) (a : Access) (i : Nat) (p : Part) : Bool :=
  if p.so then !s.blocked a i p else !s.blocked { a with parts := a.parts.drop i } 0 p

/-- A reduction that routers may merge (R146). -/
def Access.merges (a : Access) : Bool := a.res == .none && match a.op with | .atomic op => mergeable op | _ => false

/-- Of some accesses, the reductions that nothing holds back any longer enter the first router of their paths; on a software-managed
page the cell's own copy goes home first (R144, R146, R147). -/
def State.enterMerges (s : State) (who : List Access) : State :=
  let go := fun (s : State) (k : Nat × Nat) => match s.acc? k.1 with
    | none => s
    | some a => match a.op, a.parts[k.2]? with
      | .atomic op, some p =>
          if a.merges && p.st == .waiting && !inMmio p.pa && (s.mergeOf a.id k.2).isNone &&
              s.cells.any (·.id == a.cell) && s.mayEnter a k.2 p then
            let s := if leafManaged p.leaf then s.evictLine a.cell (lineOf p.pa) else s
            let (id, s) := s.newId
            s.reachRouter hops ⟨id, departed, op, p.size, p.pa, leNat p.data, [(a.id, k.2)], s.meshPath a.cell p.pa, s.time⟩
          else s
      | _, _ => s
  ((who.filter (·.merges)).flatMap fun a =>
    (List.range a.parts.length).map fun i => (a.id, i)).foldl go s

/-- Every reduction that may enter a router does. -/
def State.mergeAll (s : State) : State := s.enterMerges s.accs

/-- MERGE_BUFFER_FORWARD (R147): a held request goes on to the next router of its path, or leaves for home. -/
def execMergeBufferForward (router entry : Nat) (s : State) : Out :=
  .next (match s.merges.find? (fun e => e.id == entry && e.router == router && router != departed) with
    | none => s
    | some e => { s with merges := s.merges.filter (·.id != entry) }.reachRouter hops e)

/-! Firing (R140 to R144). -/

/-- The operand bytes of an atomic's lane (R140). -/
def State.atomicData (s : State) (b : Src) (w : Bool) (l : Nat) : List Nat := s.storeBytes b w (wBytes w) l

/-- An atomic: a reduction where D is `_`, else a load and store with the old value per lane (R141, R143, R144). -/
def State.fireAtomic (s : State) (t : Fin 64) (op : Nat) (d : RDst) (a : Pair) (b : Src) (p : Profile) (w : Bool) : State :=
  let ls := s.gather a b
  let ls := ls.map fun l => (l.1, (s.pairVal (2 * a.val) l.1).toNat)
  let n := wBytes w
  if ls.isEmpty then s.endEmpty t (s.profile p.val)
  else match d with
    | .discard =>
        let s' := s.fireStore t p .atomic (.atomic op) laneMark n ls (s.atomicData b w) (fun _ => 0) (some op)
        s'.enterMerges (s'.accs.drop s.accs.length)
    | .v r =>
        let cmp := fun l => if w then (s.pairVal r.val l).toNat else (lane (s.vreg r.val) l).toNat
        s.fireLoad t p .atomic (.atomic op) (.regs r.val (if w then 2 else 1)) laneMark n ls (s.atomicData b w) cmp
          (fun _ _ => none)

/-- AADD (R139, R141). -/
def execAadd (t : Fin 64) (d : RDst) (a : Pair) (b : Src) (p : Profile) (w : Bool) (s : State) : Out :=
  .next (s.fireAtomic t 0x58 d a b p w)
/-- AMIN (R139, R141). -/
def execAmin (t : Fin 64) (d : RDst) (a : Pair) (b : Src) (p : Profile) (w : Bool) (s : State) : Out :=
  .next (s.fireAtomic t 0x59 d a b p w)
/-- AMAX (R139, R141). -/
def execAmax (t : Fin 64) (d : RDst) (a : Pair) (b : Src) (p : Profile) (w : Bool) (s : State) : Out :=
  .next (s.fireAtomic t 0x5A d a b p w)
/-- AAND (R139, R141). -/
def execAand (t : Fin 64) (d : RDst) (a : Pair) (b : Src) (p : Profile) (w : Bool) (s : State) : Out :=
  .next (s.fireAtomic t 0x5B d a b p w)
/-- AOR (R139, R141). -/
def execAor (t : Fin 64) (d : RDst) (a : Pair) (b : Src) (p : Profile) (w : Bool) (s : State) : Out :=
  .next (s.fireAtomic t 0x5C d a b p w)
/-- AXOR (R139, R141). -/
def execAxor (t : Fin 64) (d : RDst) (a : Pair) (b : Src) (p : Profile) (w : Bool) (s : State) : Out :=
  .next (s.fireAtomic t 0x5D d a b p w)
/-- AXCH (R139, R141). -/
def execAxch (t : Fin 64) (d : RDst) (a : Pair) (b : Src) (p : Profile) (w : Bool) (s : State) : Out :=
  .next (s.fireAtomic t 0x5E d a b p w)
/-- ACAS (R139, R141): the comparand is D as read at firing. -/
def execAcas (t : Fin 64) (d : RDst) (a : Pair) (b : Src) (p : Profile) (w : Bool) (s : State) : Out :=
  .next (s.fireAtomic t 0x5F d a b p w)
/-- AFADD (R139, R142). -/
def execAfadd (t : Fin 64) (d : RDst) (a : Pair) (b : Src) (p : Profile) (w : Bool) (s : State) : Out :=
  .next (s.fireAtomic t 0x60 d a b p w)

/-! WAITA and WAKE at firing (R158, R159). -/

/-- The address of a form with one word in the lowest lane of m0. -/
def State.wordLane (s : State) (a : Pair) : List (Nat × Nat) :=
  match lowest s.m0 with
  | some l => [(l, (s.pairVal (2 * a.val) l).toNat)]
  | none => []

/-- WAITA (R158): the context sleeps from this firing until the wait ends. -/
def execWaita (t : Fin 64) (d : RDst) (a : Pair) (b : Src) (p : Profile) (w : Bool) (s : State) : Out :=
  let ls := s.wordLane a
  let n := wBytes w
  let res := match d with | .v r => Result.regs r.val (if w then 2 else 1) | .discard => Result.none
  let id := s.nextId
  .next (if ls.isEmpty then s.endEmpty t (s.profile p.val)
    else
      let s' := s.fireLoad t p .waita .waita res laneMark n ls (s.atomicData b w) (fun _ => 0) (fun _ _ => none)
      match s'.acc? id with
      | some _ =>
          let m := maskOf fun l => ls.any (·.1 == l)
          (s'.setAcc id fun a => { a with m0 := m }).setCurCtx fun k => { k with asleep := true }
      | none => s')

/-- WAKE (R159): the count is an unsigned source of the lowest lane. -/
def execWake (t : Fin 64) (a : Pair) (b : Src) (p : Profile) (s : State) : Out :=
  let ls := s.wordLane a
  .next (if ls.isEmpty then s.endEmpty t (s.profile p.val)
    else s.fireLoad t p .waita .wake .none laneMark 4 ls (fun _ => []) (fun l => (s.rd b l).toNat) (fun _ _ => none))

/-! Futures at firing (R289, R291, R293). -/

/-- The futures of the lanes in m0, and the join records of FREG (R291). -/
def State.futures (s : State) (a : Pair) : List (Nat × Nat) :=
  (lanesOf s.m0).map fun l => (l, (s.pairVal (2 * a.val) l).toNat)
def State.joins (s : State) (a : Pair) (b : Src) : List (Nat × Nat) :=
  (lanesOf s.m0).map fun l => (l, ((s.pairVal (2 * a.val) l).toNat + wrapInt 64 (s.rd b l).toInt) % 2 ^ 64)

/-- FREG: futures and join records are checked as atomics, lane by lane, alignment first, with the lowest misaligned address
(R281, R291, R375). -/
def execFreg (t : Fin 64) (a : Pair) (b : Src) (p : Profile) (s : State) : Out :=
  let prof := s.profile p.val
  let fs := s.futures a
  let js := s.joins a b
  let c := s.cur
  let asid := s.asidOf c.cell c.elem c.ctx
  let wrong := (fs.filter fun l => l.2 % 8 != 0) ++ js.filter fun l => l.2 % 16 != 0
  .next (if fs.isEmpty then s.endEmpty t prof
    else match wrong with
      | x :: xs =>
          s.takeFault prof (mkFault fAlignment 0 (((x :: xs).map fun y => 2 ^ y.1).foldl Nat.lor 0)
            (xs.foldl (fun m y => min m y.2) x.2))
      | [] =>
          match s.curCell.pageWait asid (js.map (·.2)) with
          | some w => s.stay w
          | none =>
              let (js', s1) := s.translateAll asid .future js
              let (fs', s2) := s1.translateAll asid .future fs
              let both := (fs'.zip js').flatMap fun x => [x.1, x.2]
              match failure laneMark both, waitOf asid .future both with
              | some f, _ => s2.takeFault prof f
              | none, some w => s2.stay w
              | none, none =>
                  s2.fireLoad t p .future .freg .none laneMark 8 fs (fun _ => [])
                    (fun l => ((js.find? (·.1 == l)).map (·.2)).getD 0) (fun _ _ => none))

/-- FRES (R291). -/
def execFres (t : Fin 64) (a : Pair) (_b : Src) (p : Profile) (s : State) : Out :=
  let fs := s.futures a
  .next (if fs.isEmpty then s.endEmpty t (s.profile p.val)
    else s.fireLoad t p .future .fres .none laneMark 8 fs (fun _ => []) (fun _ => 0) (fun _ _ => none))

/-! At home (R141, R144, R145, R291). -/

/-- A recall of conflicting copies begins (R92, R96). -/
def State.askRecall (s : State) (pa : Nat) (holders : List Nat) : State :=
  { s with recalls := s.recalls ++ [⟨lineOf pa, holders, false⟩] }

/-- An arrival on its way to a join record (R292). -/
def State.sendArrival (s : State) (a : Access) (l j : Nat) : State :=
  let (id, s) := s.newId
  { s with arrivals := s.arrivals ++
      [⟨id, a.id, a.cell, a.elem, a.ctx, a.slot, a.opcode, l, a.asid, (s.cell a.cell).launchUid, j % 2 ^ 64, a.profile, none⟩] }

/-- The update of one future: its new value, the arrival it causes, or the fault found at home (R291). -/
def futureStep (reg : Bool) (f j : Nat) : Option Nat × Option Nat × Option Nat :=
  match f / 2 ^ 62, reg with
  | 0, true => (some (2 ^ 62 + j / 4), none, none)
  | 0, false => (some (2 ^ 63), none, none)
  | 1, true => (none, none, some fDoubleResolve)
  | 1, false => (some (2 ^ 63 + f % 2 ^ 62), some (f % 2 ^ 62 * 4), none)
  | 2, true => (none, some j, none)
  | 2, false => (none, none, some fDoubleResolve)
  | _, _ => (none, none, some fFormat)

/-- A lane of an atomic that met an uncorrectable word on a die: the word is left as it is, the lane receives 0 and is marked to be
reported, with the time of the finding (R143, R375). -/
def State.spoilLane (s : State) (die id i : Nat) : State :=
  (s.countUncorr die).setPart id i fun q => { q with st := .done, bound := [], word := 2 ^ 64, since := s.time }

/-- One part of an atomic performed at home on its word: what is written, bound, raised and sent. -/
def State.performAtomic (s : State) (a : Access) (i : Nat) (p : Part) (operand : Nat) : State :=
  let old := memNat s.mem p.pa p.size
  let s := s.passFor a.id
  if s.spoiled p.pa p.size then s.spoilLane (homeDie p.pa) a.id i
  else match a.op with
  | .atomic op =>
      let (new, fl, wr) := atomicNew op (8 * p.size) old operand p.word
      let s := if wr then s.homeWrite p.pa (leBytes p.size new) else s
      s.setAcc a.id fun x => { x with flags := Nat.lor x.flags fl
                                      parts := modifyAt x.parts i fun q => { q with st := .done, bound := leBytes p.size old } }
  | .freg | .fres =>
      let (new, arr, bad) := futureStep (a.op == .freg) old p.word
      let s := match new with | some v => s.homeWrite p.pa (leBytes 8 v) | none => s
      let s := match arr with | some j => s.sendArrival a p.lane j | none => s
      s.setPart a.id i fun q => { q with st := .done, bound := match bad with | some c => [c] | none => [], since := s.time }
  | _ => s

/-- The home slice may perform a part now: order, lock, recall, merge buffers, the turn of its requester in the E-domain cycle, and
lanes of one firing of a future form in ascending order (R141, R145, R151, R291). -/
def State.atomicReady (s : State) (a : Access) (i : Nat) (p : Part) : Bool :=
  (match a.op with | .atomic _ | .freg | .fres => true | _ => false) &&
  p.st == .waiting && s.cells.any (·.id == a.cell) && !s.blocked a i p && !s.busyLine p.pa &&
  s.inTurn (lineOf p.pa) (s.requesterNo a.cell) &&
  (match s.mergeOf a.id i with | some e => e.router == departed | none => !a.merges) &&
  (match a.op with | .freg | .fres => (a.parts.take i).all (fun q => !q.open) | _ => true)

/-- The lanes that complete with a part: all the contributions of its combined request (R148). -/
def State.lanesWith (s : State) (id i : Nat) : List (Nat × Nat) :=
  match s.mergeOf id i with
  | some e => e.contribs
  | none => [(id, i)]

/-- A part performed at home with the contributions of its combined request (R141, R147, R148). -/
def State.atomicNow (s : State) (a : Access) (i : Nat) (p : Part) : State :=
  match s.mergeOf a.id i with
  | none => s.performAtomic a i p (leNat p.data)
  | some e =>
      let word := if s.spoiled p.pa p.size then some (2 ^ 64) else none
      let s := s.performAtomic a i p e.operand
      let close := fun (s : State) (q : Part) => { q with st := .done, word := word.getD q.word, since := s.time }
      let s := e.contribs.foldl (fun s k => (s.passFor k.1).setPart k.1 k.2 (close s)) s
      { s with merges := s.merges.filter (·.id != e.id) }

/-- ATOMIC_AT_HOME (R96, R141, R144, R147, R148): copies are recalled first, and the directory keeps the requester as a store's; on a
software-managed page the issuing cell's own copy is written back and dropped; a copy whose dirty bytes are uncorrectable fails the lane
(R87). A reduction that has not yet entered the routers does so. -/
def execAtomicAtHome (id part : Nat) (s : State) : Out :=
  .next (match s.acc? id with
    | none => s
    | some a => match a.parts[part]? with
      | none => s
      | some p =>
          if a.merges && (s.mergeOf id part).isNone then s.enterMerges [a]
          else if !s.atomicReady a part p then s
          else
            let sm := leafManaged p.leaf
            let s := if sm then s.evictLine a.cell (lineOf p.pa) else s
            let holders := if sm then [] else s.conflicts (lineOf p.pa) true none
            match (if sm then none else s.pullBad (lineOf p.pa) true none), holders with
            | some h, _ =>
                let lanes := s.lanesWith id part
                let s := lanes.foldl (fun s k => s.spoilLane (dieOf h) k.1 k.2) s
                { s with merges := s.merges.filter fun e => !e.contribs.contains (id, part) }
            | none, h :: hs => s.askRecall p.pa (h :: hs)
            | none, [] =>
                let s := (if leafCp p.leaf = 2 then s else s.sliceTouch p.pa 0).correctAt p.pa p.size
                let s := s.serveTurn (lineOf p.pa) (s.requesterNo a.cell)
                let s := if leafCp p.leaf = 0 && !sm then s.dirAtomic a.cell p.pa else s
                (s.atomicNow a part p).mergeAll)

/-! Waits at home (R158, R159). -/

/-- The launch that a watched word names as its holder: [63:48] where the hint is set and the word is 8 bytes
(R160). -/
def holderOf (prof size v : Nat) : Option Nat :=
  if holdOf prof && size == 8 && v / 2 ^ 48 != 0 then some (v / 2 ^ 48) else none

/-- The named launch is pre-empted, so the loan starts (R160). -/
def State.holderPreempted (s : State) (h : Option Nat) : Bool :=
  match h with
  | some n => s.launches.any fun l => l.launchid % 65536 == n && l.st == .preempted
  | none => false

/-- A WAITA that reads again from the start: one that a stop has cancelled, which is translated anew, or one whose word an
uncorrectable error has met (R158, R376, R380). -/
def Watch.again (w : Watch) (now : Nat) (st : PartSt) : Access :=
  let p : Part :=
    { lane := w.lane, va := w.va, pa := w.pa, size := w.size, leaf := w.leaf, page := w.page,
      data := leBytes w.size w.comparand, word := 0, st := st, bound := [], since := now }
  let o := orderOf w.profile
  { id := w.id, cell := w.cell, elem := w.elem, ctx := w.ctx, slot := w.slot, opcode := 0x63, seq := w.seq, op := .waita,
    res := match w.dst with | some n => .regs n (w.size / 4) | none => .none,
    profile := w.profile, m0 := maskOf (· == w.lane), asid := w.asid, parts := [p], flags := 0,
    acquire := o == 1 || o == 3, release := false, told := false, passed := none }

/-- What an agent without fault records reads of an uncorrectable word: a free value (Config.openValue 87). DESIGN CHOICE (log 45): no rule
says what such an agent is told. -/
def State.openRead (s : State) (pa n : Nat) : Nat := Config.openValue 87 (pa + 2 ^ 52 * s.time) % 256 ^ n

/-- The word of a watch could not be read again: the WAITA fails, and reads it from the start where its handler resumes it (R376); one of
another module is answered. -/
def State.spoilWatch (s : State) (w : Watch) : State :=
  let s := { s with watches := s.watches.filter (·.id != w.id) }.countUncorr (homeDie w.pa)
  if w.cell < 2 ^ 16 then { s with accs := s.accs ++ [w.again s.time .waiting] }.failPart w.id 0 fUncorrectable
  else { s with hostValue := s.openRead w.pa w.size }

/-- The oldest watch of a full slice is lost and its waiter wakes with the value read then (R158); a read that meets an uncorrectable
word fails (R376). -/
def State.loseWatch (s : State) (pa : Nat) : State :=
  let here := s.watches.filter fun w => w.armed && homeSlice w.pa == homeSlice pa
  if here.length < 256 then s
  else match here with
    | [] => s
    | w :: _ =>
        if s.spoiled w.pa w.size then s.spoilWatch w
        else
          let v := s.coherentNat w.pa w.size
          { s with watches := updateWhere (·.id == w.id) (fun w => { w with armed := false, woken := true, value := v }) s.watches }

/-- The first read of a WAITA at home: unequal, or woken already, the wait ends; equal, a watch is armed, and a loan that is due at once owes an admission step (R158 to R160, R358). -/
def State.firstRead (s : State) (a : Access) (p : Part) : State :=
  let v := memNat s.mem p.pa p.size
  let cmp := leNat p.data
  let s := (if v = cmp then s.loseWatch p.pa else s).dropAcc a.id
  let h := holderOf a.profile p.size v
  let dst := match a.res with | .regs n _ => some n | _ => none
  let s := if v == cmp && s.holderPreempted h then s.stepOwed else s
  { s with watches := s.watches ++
      [{ id := a.id, cell := a.cell, elem := a.elem, ctx := a.ctx, slot := a.slot, pa := p.pa, size := p.size, comparand := cmp,
         dst := dst, lane := p.lane, profile := a.profile, holder := h, loan := v == cmp && s.holderPreempted h,
         armed := v == cmp, woken := v != cmp || p.word == 1, value := v, seq := a.seq, va := p.va, asid := a.asid, leaf := p.leaf,
         page := p.page }] }

/-- A watched or awaited word overlaps the four bytes at an address. -/
def overlapsWord (wpa size pa : Nat) : Bool := wpa < pa + 4 && pa < wpa + size

/-- The waiters of the four bytes at an address in the order they went to sleep, which is that of their firings: a WAITA sleeps
from its firing, read at home or not (R158, R159). -/
def State.waiters (s : State) (pa : Nat) : List Nat :=
  let armed := (s.watches.filter fun w => w.armed && !w.woken && overlapsWord w.pa w.size pa).map (·.id)
  let unread := (s.accs.filter fun a => a.op == .waita && a.parts.any fun p => p.word != 1 && overlapsWord p.pa p.size pa).map (·.id)
  sortBy (· ≤ ·) (armed ++ unread)

/-- WAKE performed: up to count waiters, all of them for 0 (R159); one not yet read at home wakes at its first read. -/
def State.wakeAt (s : State) (pa count : Nat) : State :=
  let ws := s.waiters pa
  let chosen := if count = 0 then ws else ws.take count
  { s with watches := updateWhere (fun w => chosen.contains w.id) (fun w => { w with woken := true }) s.watches
           accs := updateWhere (fun a => a.op == .waita && chosen.contains a.id)
             (fun a => { a with parts := a.parts.map fun p => { p with word := 1 } }) s.accs }

/-- The wait of a watch ends with a value: the register pair is written, the context goes on and the arc is set (R158); a wait of another module is
answered (R404); a loan to the launch it waited for ends (R160). -/
def State.wakeUp (s : State) (w : Watch) (v : Nat) : State :=
  let s := { s with watches := s.watches.filter (·.id != w.id) }
  let m := maskOf (· == w.lane)
  let s := match w.dst with
    | none => s
    | some n =>
        let s := s.writeRegOf w.cell w.elem w.ctx n m fun _ => BitVec.ofNat 32 v
        let s := if w.size = 8 then s.writeRegOf w.cell w.elem w.ctx (n + 1) m fun _ => BitVec.ofNat 32 (v / 2 ^ 32) else s
        s.setCtx w.cell w.elem w.ctx fun k => { k with pendV := k.pendV &&& ~~~(regsMask n (w.size / 4)) }
  let s := if w.cell < 2 ^ 16 then s else { s with hostValue := v }
  let s := (s.setCtx w.cell w.elem w.ctx fun k => { k with asleep := false }).setArc w.cell w.elem w.ctx (arcOf w.profile)
  if w.loan then s.stepOwed else s

/-- WAITA_WAKE (R158): the wait ends with the last value read; a re-read that meets an uncorrectable word fails (R376). -/
def execWaitaWake (id : Nat) (s : State) : Out :=
  .next (match s.watches.find? (fun w => w.id == id && w.woken) with
    | none => s
    | some w =>
        if w.armed && s.spoiled w.pa w.size then s.spoilWatch w
        else s.wakeUp w (if w.armed then s.coherentNat w.pa w.size else w.value))

/-- Loans that are due: a waiter sleeps and the launch it names is pre-empted; an admission step follows (R160, R358). -/
def State.startLoans (s : State) : State :=
  let due := fun (w : Watch) => w.armed && !w.woken && !w.loan && s.holderPreempted w.holder
  if s.watches.any due then { s with watches := updateWhere due (fun w => { w with loan := true }) s.watches }.stepOwed else s

/-! Arrivals (R290, R292). -/

/-- ARRIVE at a join record whose copies are recalled, as one event; none while the discard of a tail launch waits (R292, R352). -/
def State.arrive (s : State) (launch pa : Nat) : Option State :=
  let count := memNat s.mem pa 4
  let flags := memNat s.mem (pa + 4) 4
  if count = 0 then some (s.homeWrite (pa + 4) (leBytes 4 (Nat.lor flags 2)))
  else if count = 1 then
    (s.homeWrite pa (leBytes 4 0 ++ leBytes 4 (Nat.lor flags 1))).addTail launch (memNat s.mem (pa + 8) 8)
  else some (s.homeWrite pa (leBytes 4 (count - 1)))

/-- A record raised by work a context issued: ENGINE = 1 and the lane of the firing that issued it (R375). -/
def State.engineRecord (s : State) (c e x slot opcode prof lanes : Nat) (code cause addr : Nat) (of_ : RecordOf) : Nat × State :=
  let (id, s) := s.pushRecord c e x slot opcode rEngine prof (mkFault code cause lanes addr) of_
  (id, s.hold c e x id)

/-- FUTURE_ARRIVE (R292): a fault at the join record's page, or an uncorrectable word of the record, is recorded against the issuing
context, which is held (R375, R376). -/
def execFutureArrive (id : Nat) (s : State) : Out :=
  let s0 := s
  .next (match s.arrivals.find? (fun r => r.id == id && r.paused.isNone) with
    | none => s
    | some r =>
        let stop := fun (s : State) (code cause : Nat) =>
          let (rid, s) := s.engineRecord r.cell r.elem r.ctx r.slot r.opcode r.profile (2 ^ r.lane) code cause r.va (.arrival id)
          { s with arrivals := updateWhere (·.id == id) (fun r => { r with paused := some rid }) s.arrivals }
        if r.va % 16 != 0 then stop s fAlignment 0
        else match s.translateFor r.cell r.asid .future r.va with
          | (.fault code cause, s) => stop s code cause
          | (.mig .., s) | (.busy, s) => s
          | (.ok pa leaf _, s) =>
              let sm := leafManaged leaf
              let who := s.requesterNo r.cell
              if s.busyLine pa || (!sm && s.pullWaits (lineOf pa) true none) || !s.inTurn (lineOf pa) who then s
              else match (if sm then none else s.pullBad (lineOf pa) true none) with
              | some h => stop (s.countUncorr (dieOf h)) fUncorrectable 0
              | none =>
                let s := if sm then s.evictLine r.cell (lineOf pa) else s.pull (lineOf pa) true none
                let s := (s.correctAt pa 16).serveTurn (lineOf pa) who
                let s := if leafCp leaf = 0 && !sm then s.dirAtomic r.cell pa else s
                if s.spoiled pa 16 then stop (s.countUncorr (homeDie pa)) fUncorrectable 0
                else match s.arrive r.launch pa with
                  | some s => { s with arrivals := s.arrivals.filter (·.id != id) }
                  | none => s0)

end Sys2Proof.Machine
end

