-- ==== Sys2Proof/Machine/Uses.lean ====
section
/-! DEFINITION. What an instruction word reads and writes: vector registers, masks and channels
(07_execution_model.md R166, R169). -/

namespace Sys2Proof.Machine

/-- Masks of the vector registers read and written, the mask registers read and written, and the input and output
channels named. -/
abbrev Uses := Nat × Nat × Nat × Nat × Nat × Nat

def useNone : Uses := (0, 0, 0, 0, 0, 0)
def useBoth (x y : Uses) : Uses :=
  (Nat.lor x.1 y.1, Nat.lor x.2.1 y.2.1, Nat.lor x.2.2.1 y.2.2.1, Nat.lor x.2.2.2.1 y.2.2.2.1,
   Nat.lor x.2.2.2.2.1 y.2.2.2.2.1, Nat.lor x.2.2.2.2.2 y.2.2.2.2.2)
def useAll (us : List Uses) : Uses := us.foldl useBoth useNone

def uV (n : Nat) : Uses := (n, 0, 0, 0, 0, 0)
def uVW (n : Nat) : Uses := (0, n, 0, 0, 0, 0)
def uM (n : Nat) : Uses := (0, 0, n, 0, 0, 0)
def uMW (n : Nat) : Uses := (0, 0, 0, n, 0, 0)
def uCh (n : ChanNo) : Uses := (0, 0, 0, 0, 2 ^ n.val, 0)
def uOut (n : ChanNo) : Uses := (0, 0, 0, 0, 0, 2 ^ n.val)
def pairMask (k : Pair) : Nat := 3 * 2 ^ (2 * k.val)
/-- A register, or the pair it begins under .w (R211). -/
def regWide (w : Bool) (r : VReg) : Nat := if w then 3 * 2 ^ r.val else 2 ^ r.val
def uSrc (w : Bool) : Src → Uses
  | .v r => uV (regWide w r)
  | .ch n => uCh n
  | .c _ => useNone
def uDst (w : Bool) : Dst → Uses
  | .v r => uVW (regWide w r)
  | .o n => uOut n
  | .discard => useNone
def uRDst (w : Bool) : RDst → Uses
  | .v r => uVW (regWide w r)
  | .discard => useNone
/-- A destination that is read as well: the comparand of ACAS (R141). -/
def uRDstRead (w : Bool) : RDst → Uses
  | .v r => uV (regWide w r)
  | .discard => useNone
def uPDst : PDst → Uses
  | .pair k => uVW (pairMask k)
  | .discard => useNone
def uODst : ODst → Uses
  | .o n => uOut n
  | .discard => useNone

/-- What each instruction reads and writes; an event is no word and names nothing. -/
def usesOf : Instr → Uses
  | .nop _ => useAll []
  | .mov _ d a w => useAll [uDst w d, uSrc w a]
  | .movi _ d _ => useAll [uDst false d]
  | .iadd _ d a b w => useAll [uDst w d, uSrc w a, uSrc w b]
  | .isub _ d a b w => useAll [uDst w d, uSrc w a, uSrc w b]
  | .iaddi _ d a _ => useAll [uDst false d, uSrc false a]
  | .imulLo _ d a b w => useAll [uDst w d, uSrc w a, uSrc w b]
  | .imulHi _ d a b w => useAll [uDst w d, uSrc w a, uSrc w b]
  | .imulHin _ d a b w => useAll [uDst w d, uSrc w a, uSrc w b]
  | .imad _ d a b c => useAll [uDst false d, uSrc false a, uSrc false b, uV (2 ^ c.val)]
  | .imin _ d a b w => useAll [uDst w d, uSrc w a, uSrc w b]
  | .imax _ d a b w => useAll [uDst w d, uSrc w a, uSrc w b]
  | .umin _ d a b w => useAll [uDst w d, uSrc w a, uSrc w b]
  | .umax _ d a b w => useAll [uDst w d, uSrc w a, uSrc w b]
  | .iabs _ d a w => useAll [uDst w d, uSrc w a]
  | .band _ d a b w => useAll [uDst w d, uSrc w a, uSrc w b]
  | .bor _ d a b w => useAll [uDst w d, uSrc w a, uSrc w b]
  | .bxor _ d a b w => useAll [uDst w d, uSrc w a, uSrc w b]
  | .bandn _ d a b w => useAll [uDst w d, uSrc w a, uSrc w b]
  | .bnot _ d a w => useAll [uDst w d, uSrc w a]
  | .shl _ d a b w => useAll [uDst w d, uSrc w a, uSrc w b]
  | .shr _ d a b w => useAll [uDst w d, uSrc w a, uSrc w b]
  | .sar _ d a b w => useAll [uDst w d, uSrc w a, uSrc w b]
  | .rol _ d a b w => useAll [uDst w d, uSrc w a, uSrc w b]
  | .shli _ d a w _ => useAll [uDst w d, uSrc w a]
  | .shri _ d a w _ => useAll [uDst w d, uSrc w a]
  | .sari _ d a w _ => useAll [uDst w d, uSrc w a]
  | .roli _ d a w _ => useAll [uDst w d, uSrc w a]
  | .bfx _ d a b w _ => useAll [uDst w d, uSrc w a, uSrc w b]
  | .bfi _ d a b c => useAll [uDst false d, uSrc false a, uSrc false b, uV (2 ^ c.val)]
  | .clz _ d a w => useAll [uDst w d, uSrc w a]
  | .popc _ d a w => useAll [uDst w d, uSrc w a]
  | .brev _ d a w => useAll [uDst w d, uSrc w a]
  | .icmp _ d a b _ => useAll [uMW (2 ^ d.val), uSrc false a, uSrc false b]
  | .ucmp _ d a b _ => useAll [uMW (2 ^ d.val), uSrc false a, uSrc false b]
  | .sel _ d a b m => useAll [uDst false d, uSrc false a, uSrc false b, uM (2 ^ m.val)]
  | .idiv _ d a b w => useAll [uDst w d, uSrc w a, uSrc w b]
  | .udiv _ d a b w => useAll [uDst w d, uSrc w a, uSrc w b]
  | .irem _ d a b w => useAll [uDst w d, uSrc w a, uSrc w b]
  | .urem _ d a b w => useAll [uDst w d, uSrc w a, uSrc w b]
  | .iclamp _ d a b c => useAll [uDst false d, uSrc false a, uSrc false b, uV (2 ^ c.val)]
  | .uclamp _ d a b c => useAll [uDst false d, uSrc false a, uSrc false b, uV (2 ^ c.val)]
  | .lbcast _ d a _ => useAll [uDst false d, uSrc false a]
  | .lshfl _ d a b => useAll [uDst false d, uSrc false a, uSrc false b]
  | .lrot _ d a _ => useAll [uDst false d, uSrc false a]
  | .lred _ d a _ => useAll [uDst false d, uSrc false a]
  | .lscan _ d a _ => useAll [uDst false d, uSrc false a]
  | .lcomp _ d a b => useAll [uDst false d, uSrc false a, uM (2 ^ b.val)]
  | .mand _ d a b => useAll [uMW (2 ^ d.val), uM (2 ^ a.val), uM (2 ^ b.val)]
  | .mor _ d a b => useAll [uMW (2 ^ d.val), uM (2 ^ a.val), uM (2 ^ b.val)]
  | .mxor _ d a b => useAll [uMW (2 ^ d.val), uM (2 ^ a.val), uM (2 ^ b.val)]
  | .mandn _ d a b => useAll [uMW (2 ^ d.val), uM (2 ^ a.val), uM (2 ^ b.val)]
  | .mnot _ d a => useAll [uMW (2 ^ d.val), uM (2 ^ a.val)]
  | .mmov _ d a => useAll [uMW (2 ^ d.val), uM (2 ^ a.val)]
  | .mpop _ d a => useAll [uDst false d, uM (2 ^ a.val)]
  | .many _ _ a => useAll [uM (2 ^ a.val)]
  | .mall _ _ a => useAll [uM (2 ^ a.val)]
  | .mnone _ _ a => useAll [uM (2 ^ a.val)]
  | .mfrom _ d a => useAll [uMW (2 ^ d.val), uV (pairMask a)]
  | .mto _ d a => useAll [uPDst d, uM (2 ^ a.val)]
  | .mseti _ d _ => useAll [uMW (2 ^ d.val)]
  | .sendt _ o a b => useAll [uOut o, uSrc false a, uSrc false b]
  | .tagr _ d n => useAll [uVW (2 ^ d.val), uCh n]
  | .cens _ _ => useAll []
  | .sysr _ d i => useAll [uDst (sysReg64 i.toNat) d]
  | .sysw _ a _ => useAll [uSrc false a]
  | .trap _ _ => useAll []
  | .brk _ _ => useAll []
  | .tlaunch _ a => useAll [uV (pairMask a)]
  | .draftld _ a b _ => useAll [uV (pairMask a), uSrc false b]
  | .draftsw _ => useAll []
  | .ctximgSavef _ a b => useAll [uV (pairMask a), uSrc false b]
  | .ctximgSaved _ a b => useAll [uV (pairMask a), uSrc false b]
  | .ctximgRest _ a b => useAll [uV (pairMask a), uSrc false b]
  | .tlbinvPg _ a b _ => useAll [uV (pairMask a), uSrc false b]
  | .tlbinvAs _ a b _ => useAll [uV (pairMask a), uSrc false b]
  | .tlbinvAll _ a b _ => useAll [uV (pairMask a), uSrc false b]
  | .fadd _ d a b => useAll [uDst false d, uSrc false a, uSrc false b]
  | .fsub _ d a b => useAll [uDst false d, uSrc false a, uSrc false b]
  | .fmul _ d a b => useAll [uDst false d, uSrc false a, uSrc false b]
  | .ffma _ d a b c => useAll [uDst false d, uSrc false a, uSrc false b, uV (2 ^ c.val)]
  | .ffms _ d a b c => useAll [uDst false d, uSrc false a, uSrc false b, uV (2 ^ c.val)]
  | .fmin _ d a b => useAll [uDst false d, uSrc false a, uSrc false b]
  | .fmax _ d a b => useAll [uDst false d, uSrc false a, uSrc false b]
  | .fminp _ d a b => useAll [uDst false d, uSrc false a, uSrc false b]
  | .fmaxp _ d a b => useAll [uDst false d, uSrc false a, uSrc false b]
  | .fabs _ d a => useAll [uDst false d, uSrc false a]
  | .fneg _ d a => useAll [uDst false d, uSrc false a]
  | .fcpys _ d a b => useAll [uDst false d, uSrc false a, uSrc false b]
  | .fcmp _ d a b _ => useAll [uMW (2 ^ d.val), uSrc false a, uSrc false b]
  | .fclass _ d a => useAll [uDst false d, uSrc false a]
  | .frnd _ d a _ => useAll [uDst false d, uSrc false a]
  | .fcvti _ d a w _ => useAll [uDst w d, uSrc false a]
  | .fcvtf _ d a w _ => useAll [uDst false d, uSrc w a]
  | .fcvt _ d a b _ _ => useAll [uDst false d, uSrc false a, uODst b]
  | .funp _ d a _ _ => useAll [uDst false d, uSrc false a]
  | .fx2f _ d a => useAll [uDst false d, uSrc false a]
  | .flg2f _ d a => useAll [uDst false d, uSrc false a]
  | .fexp2 _ d a => useAll [uDst false d, uSrc false a]
  | .flog2 _ d a => useAll [uDst false d, uSrc false a]
  | .frcp _ d a => useAll [uDst false d, uSrc false a]
  | .frsq _ d a => useAll [uDst false d, uSrc false a]
  | .fsqrt _ d a => useAll [uDst false d, uSrc false a]
  | .fscl _ d a b => useAll [uDst false d, uSrc false a, uSrc false b]
  | .fgetx _ d a => useAll [uDst false d, uSrc false a]
  | .fgetm _ d a => useAll [uDst false d, uSrc false a]
  | .fsinp _ d a => useAll [uDst false d, uSrc false a]
  | .fcosp _ d a => useAll [uDst false d, uSrc false a]
  | .hfma2 _ d a b _ c => useAll [uDst false d, uSrc false a, uSrc false b, uV (2 ^ c.val)]
  | .hadd2 _ d a b _ => useAll [uDst false d, uSrc false a, uSrc false b]
  | .hmul2 _ d a b _ => useAll [uDst false d, uSrc false a, uSrc false b]
  | .fdot2 _ d a b c => useAll [uDst false d, uSrc false a, uSrc false b, uV (2 ^ c.val)]
  | .bscale _ d a b => useAll [uDst false d, uSrc false a, uSrc false b]
  | .packb _ d a b => useAll [uDst false d, uSrc false a, uSrc false b]
  | .unpkb _ d a b => useAll [uDst false d, uSrc false a, uSrc false b]
  | .ld _ d a b _ w => useAll [uDst w d, uV (pairMask a), uSrc false b]
  | .ldb8 _ d a b _ => useAll [uDst false d, uV (pairMask a), uSrc false b]
  | .ldh16 _ d a b _ => useAll [uDst false d, uV (pairMask a), uSrc false b]
  | .ldc _ d a b _ w => useAll [uDst w d, uV (pairMask a), uSrc false b]
  | .ldx _ d a b _ => useAll [uPDst d, uV (pairMask a), uSrc false b]
  | .lds _ d a b _ w => useAll [uDst w d, uSrc false a, uSrc false b]
  | .st _ d a b _ w => useAll [uSrc w d, uV (pairMask a), uSrc false b]
  | .stb8 _ d a b _ => useAll [uSrc false d, uV (pairMask a), uSrc false b]
  | .sth16 _ d a b _ => useAll [uSrc false d, uV (pairMask a), uSrc false b]
  | .stc _ d a b _ w => useAll [uSrc w d, uV (pairMask a), uSrc false b]
  | .stx _ d a b _ => useAll [uV (pairMask d), uV (pairMask a), uSrc false b]
  | .sts _ d a b _ w => useAll [uSrc w d, uSrc false a, uSrc false b]
  | .aadd _ d a b _ w => useAll [uRDst w d, uV (pairMask a), uSrc w b]
  | .amin _ d a b _ w => useAll [uRDst w d, uV (pairMask a), uSrc w b]
  | .amax _ d a b _ w => useAll [uRDst w d, uV (pairMask a), uSrc w b]
  | .aand _ d a b _ w => useAll [uRDst w d, uV (pairMask a), uSrc w b]
  | .aor _ d a b _ w => useAll [uRDst w d, uV (pairMask a), uSrc w b]
  | .axor _ d a b _ w => useAll [uRDst w d, uV (pairMask a), uSrc w b]
  | .axch _ d a b _ w => useAll [uRDst w d, uV (pairMask a), uSrc w b]
  | .acas _ d a b _ w => useAll [uRDst w d, uV (pairMask a), uSrc w b, uRDstRead w d]
  | .afadd _ d a b _ w => useAll [uRDst w d, uV (pairMask a), uSrc w b]
  | .mwcas _ d a _ _ => useAll [uPDst d, uV (pairMask a)]
  | .fence _ _ _ _ => useAll []
  | .waita _ d a b _ w => useAll [uRDst w d, uV (pairMask a), uSrc w b]
  | .wake _ a b _ => useAll [uV (pairMask a), uSrc false b]
  | .wbr _ a b _ => useAll [uV (pairMask a), uSrc false b]
  | .invr _ a b _ _ => useAll [uV (pairMask a), uSrc false b]
  | .freg _ a b _ => useAll [uV (pairMask a), uSrc false b]
  | .fres _ a b _ => useAll [uV (pairMask a), uSrc false b]
  | .shcpy _ a b _ => useAll [uV (pairMask a), uSrc false b]
  | .shtile _ a b _ => useAll [uV (pairMask a), uSrc false b]
  | .shmcast _ a b _ => useAll [uV (pairMask a), uSrc false b]
  | .shstrm _ a _ => useAll [uV (pairMask a)]
  | .shclose _ a _ => useAll [uV (pairMask a)]
  | .hprep _ a b => useAll [uSrc false a, uSrc false b]
  | .hwload _ a b => useAll [uSrc false a, uSrc false b]
  | .hmma _ a b => useAll [uSrc false a, uSrc false b]
  | .hwait _ _ a => useAll [uSrc false a]
  | .hdrain _ d a b => useAll [uRDst false d, uSrc false a, uSrc false b]
  | .hzero _ a b => useAll [uSrc false a, uSrc false b]
  | .cbdec _ d a => useAll [uDst false d, uSrc false a]
  | .hcbload _ a b => useAll [uSrc false a, uSrc false b]
  | .binb _ d a b => useAll [uDst false d, uSrc false a, uSrc false b]
  | .edge _ d a b _ => useAll [uMW (2 ^ d.val), uSrc false a, uSrc false b, uMW (2 ^ (d.val + 1))]
  | .bary _ d a b => useAll [uDst false d, uSrc false a, uSrc false b]
  | .texb _ d a b => useAll [uDst false d, uSrc false a, uSrc false b]
  | .tnode _ b => useAll [uSrc false b, uV 0xFFFF, uVW 0xFFC0, uMW 0xE]
  | .rspush _ a => useAll [uSrc false a, uV 0xFFC0, uVW 0xFFC0]
  | .rspop _ a => useAll [uSrc false a, uV 0xFFC0, uVW 0xFFC0]
  | .tisect _ b => useAll [uSrc false b, uV 0xFFFF, uVW 0xFFC0, uMW 0xE]
  | .rayout _ o => useAll [uOut o, uV 0xFFFF]
  | .rayin _ n => useAll [uCh n, uVW 0xFFFF, uMW 2]
  | .blnd _ d n b _ => useAll [uDst false d, uCh n, uSrc false b]
  | .zcmp _ d a b => useAll [uMW (2 ^ d.val), uSrc false a, uSrc false b]
  | .sideLogReplay .. | .pageWalk .. | .migLeafWritten .. | .loadBind .. | .accessCompletion .. | .tlbinvComplete ..
  | .memoryTimeout .. | .homeSliceRequest .. | .recallResponse .. | .ownershipHoldExpiry .. | .hostAccess .. | .remoteAccess ..
  | .smFlush .. | .atomicAtHome .. | .mergeBufferForward .. | .mwcasLockPhase .. | .mwcasQueuedLockGrant .. | .mwcasBoundExpiry ..
  | .mwcasLockTimeout .. | .mwcasCommitTimeout .. | .waitaWake .. | .futureArrive .. | .tokenArrival .. | .reservationGrant ..
  | .stageQueueDispatch .. | .quiescenceReport .. | .draftldValidation .. | .draftswCommit .. | .retirement .. | .watchdogExpiry ..
  | .streamOpen .. | .streamPush .. | .streamClose .. | .persistSweep .. | .sliceScrub .. | .cellScrub ..
  | .heddleCommandStart .. | .heddleCommandComplete .. | .wovenPartial .. | .shuttleCommandRun .. | .shuttleCommandComplete .. | .rayoutSend ..
  | .rayinMergeComplete .. | .traversalComplete .. | .migpush .. | .migrationRequest .. | .migrationCopy .. | .migrationLost ..
  | .pinExpiry .. | .gddrEviction | .migfree .. | .migctlWrite .. | .migevqWrite .. | .migevcWrite ..
  | .mighbaseWrite .. | .qpush .. | .admissionStep | .quantumExpiry .. | .antiStarvationBoost .. | .dobbySample ..
  | .replicaFree .. | .preemptionDrainComplete .. | .restoreComplete .. | .powerSplit | .grantEffect .. | .pwrcapWrite ..
  | .faultRecordWrite .. | .fqactResume .. | .fqactSkip .. | .fqactTerminate .. | .fqconsWrite .. | .fqbaseWrite ..
  | .modnumWrite .. | .serrcntWrite .. | .colpush .. | .collectiveRun .. | .collectiveTimeout .. | .ueLaunchPacket ..
  | .managementRequest .. | .moduleReset .. | .mmioRegisterWrite .. => useNone

/-- The registers an instruction names that are pending a load in a context (R166 conditions 4 and 5). -/
def Ctx.pending (k : Ctx) (u : Uses) : Bool :=
  Nat.land k.pendV.toNat (Nat.lor u.1 u.2.1) != 0 || Nat.land k.pendM.toNat (Nat.lor u.2.2.1 u.2.2.2.1) != 0

/-- The memory profile that an instruction names (R214). -/
def profileOf : Instr → Option Profile
  | .draftld _ _ _ p | .tlbinvPg _ _ _ p | .tlbinvAs _ _ _ p | .tlbinvAll _ _ _ p | .ld _ _ _ _ p _ |
    .ldb8 _ _ _ _ p | .ldh16 _ _ _ _ p | .ldc _ _ _ _ p _ | .ldx _ _ _ _ p | .lds _ _ _ _ p _ | .st _ _ _ _ p _ |
    .stb8 _ _ _ _ p | .sth16 _ _ _ _ p | .stc _ _ _ _ p _ | .stx _ _ _ _ p | .sts _ _ _ _ p _ | .aadd _ _ _ _ p _ |
    .amin _ _ _ _ p _ | .amax _ _ _ _ p _ | .aand _ _ _ _ p _ | .aor _ _ _ _ p _ | .axor _ _ _ _ p _ |
    .axch _ _ _ _ p _ | .acas _ _ _ _ p _ | .afadd _ _ _ _ p _ | .mwcas _ _ _ _ p | .fence _ _ _ p |
    .waita _ _ _ _ p _ | .wake _ _ _ p | .wbr _ _ _ p | .invr _ _ _ p _ | .freg _ _ _ p | .fres _ _ _ p |
    .shcpy _ _ _ p | .shtile _ _ _ p | .shmcast _ _ _ p | .shstrm _ _ p | .shclose _ _ p => some p
  | _ => none

end Sys2Proof.Machine
end

