-- ==== Sys2Proof/Machine/DraftImage.lean ====
section
/-! DEFINITION. Draft images: reading one, DRAFTLD's validation, and committing a draft to a cell
(09_encoding_and_assembly.md R216 to R221; 07_execution_model.md R163, R165, R169, R177; 03_hierarchy_and_enumeration.md
R60 to R62; 14_isa_graphics.md R325). -/

namespace Sys2Proof.Machine

/-- The length of a draft image (R218). -/
def imageLen : Nat := 3136

/-! The fields of an image (R218, R219). -/

def elemBase (e : Nat) : Nat := 64 + 768 * e

/-- The block of element e. -/
def parseElem (bs : List Nat) (e : Nat) : DraftElem :=
  let b := (bs.drop (elemBase e)).take 768
  { slots := (List.range 32).map fun i => BitVec.ofNat 32 (fieldAt b (4 * i) 4)
    entries := (List.range 64).map fun i => fieldAt b (128 + 8 * i) 8
    consts := (List.range 8).map fun i => BitVec.ofNat 32 (fieldAt b (640 + 4 * i) 4)
    profiles := (List.range 8).map fun i => fieldAt b (672 + 2 * i) 2
    routes := (List.range 8).map fun i => fieldAt b (688 + 4 * i) 4
    chans := (List.range 8).map fun i => fieldAt b (720 + i) 1 }

/-- The draft of an image. -/
def parseDraft (bs : List Nat) : Draft :=
  let flags := fieldAt bs 8 2
  { elems := (List.range 4).map (parseElem bs), initp := sliceBytes bs 12 16, sources := fieldAt bs 10 2,
    roles := if bit flags 0 then some (fieldAt bs 28 22) else none, woven := bits flags 2 1, pos := bits flags 5 3,
    image := bs }

/-- The length of a woven row by its code (R218). -/
def wovenLen (code : Nat) : Nat := match code with | 0 => 1 | 1 => 2 | 2 => 4 | _ => 8

/-! CHECK (R218). -/

def crcByte (c b : Nat) : Nat :=
  (List.range 8).foldl (fun c _ => if c % 2 = 1 then Nat.xor (c / 2) 0xEDB88320 else c / 2) (Nat.xor c b)
def crc32 (bs : List Nat) : Nat := Nat.xor (bs.foldl crcByte 0xFFFFFFFF) 0xFFFFFFFF

/-! Validation (R220, R221): the offsets that offend. -/

/-- The bits of a are among those of b. -/
def bitsIn (a b : Nat) : Bool := Nat.land a b == a

/-- The offsets at which a run of bytes is not 0. -/
def nonzeroAt (bs : List Nat) (o n : Nat) : List Nat := ((List.range n).map (o + ·)).filter fun i => bs.getD i 0 != 0

/-- The header (R218). DESIGN CHOICE (log 46): a MAGIC, VERSION or LENGTH that is wrong offends at the first of its bytes that differs,
and a reserved bit of FLAGS at the byte that holds it; R221 gives the first byte for a check of one word. -/
def headerFaults (bs : List Nat) : List Nat :=
  let want := leBytes 4 0x54465244 ++ leBytes 2 1 ++ leBytes 2 imageLen
  let f := fieldAt bs 8 2
  let body := putBytes bs 56 [0, 0, 0, 0]
  ((List.range 8).filter fun i => bs.getD i 0 != want.getD i 0) ++
  (if bits f 7 6 != 0 || (bits f 2 1 == 0 && bits f 5 3 != 0) || bits f 5 3 ≥ wovenLen (bits f 2 1) then [8] else []) ++
  nonzeroAt bs 9 1 ++ (if bit f 0 then [] else nonzeroAt bs 28 22) ++ nonzeroAt bs 50 6 ++
  (if crc32 body = fieldAt bs 56 4 then [] else [56]) ++ nonzeroAt bs 60 4

/-- One trigger entry of element e (R165, R169, R213). -/
def entryBad (sources e : Nat) (routes : List Nat) (x : Nat) : Bool :=
  bit x 63 || !bitsIn (eVal x) (eCare x) || !bitsIn (ePop x) (eNeedIn x) ||
  (eSrcend x && !bitsIn (eCtxs x) (bits sources (4 * e + 3) (4 * e))) ||
  (bitsSet 8 (eNeedOut x)).any fun n => routeKind (routes.getD n 0) == 0

/-- What an instruction further asks of its routes, channels and entry (R202, R216, R325). -/
def formBad (d : DraftElem) (x : Nat) : Instr → Bool
  | .fcvt _ _ _ (.o n) _ _ => bits (d.routes.getD n.val 0) 29 28 != 1
  | .rayout _ n => routeKind (d.routes.getD n.val 0) != 3 || bits (d.routes.getD n.val 0) 29 28 != 3
  | .rayin _ n => bits (d.chans.getD n.val 0) 1 0 != 3 || bit (ePop x) n.val
  | _ => false

/-- One slot word with its entry (R169, R220). -/
def slotBad (d : DraftElem) (w : Word) : Bool :=
  match decode w with
  | none => true
  | some i =>
      let x := d.entries.getD (w.toNat / 2 ^ 26) 0
      let (_, _, _, _, ins, outs) := usesOf i
      !bitsIn ins (eNeedIn x) || !bitsIn outs (eNeedOut x) ||
      (bitsSet 8 outs).any (fun n => routeKind (d.routes.getD n 0) == 0) || formBad d x i

/-- An access profile (R214). -/
def profileBad (p : Nat) : Bool := bits p 15 12 != 0 || (!bit p 8 && bits p 7 5 != 0) || scopeOf p ≥ 5

/-- A route word (R175, R220). -/
def routeBad (r : Nat) : Bool :=
  bits r 27 20 != 0 || bits r 2 0 != 0 || match routeKind r with
  | 0 => r != 0
  | 1 => bits r 19 8 != 0
  | 2 => bits r 15 8 != 0
  | _ => bits r 19 16 != 0 || bits r 7 3 != 0

/-- One element's block: the offsets that offend (R219, R220, R221). -/
def elemFaults (bs : List Nat) (sources e : Nat) : List Nat :=
  let o := elemBase e
  let d := parseElem bs e
  let pick := fun {α : Type} (xs : List α) (base size : Nat) (bad : α → Bool) =>
    (xs.zip (List.range xs.length)).filterMap fun x => if bad x.1 then some (o + base + size * x.2) else none
  pick d.slots 0 4 (slotBad d) ++ pick d.entries 128 8 (entryBad sources e d.routes) ++
  pick d.profiles 672 2 profileBad ++ pick d.routes 688 4 routeBad ++
  pick d.chans 720 1 (fun c => bits c 6 2 != 0) ++ nonzeroAt bs (o + 728) 40

/-- The lowest offset at which an image offends; none where it is valid (R220, R221). -/
def imageFault (bs : List Nat) : Option Nat :=
  leastBy id (headerFaults bs ++ (List.range 4).flatMap (elemFaults bs (fieldAt bs 10 2)))

/-! Committing (R61, R62, R163, R177, R303). -/

/-- The entry channel of the element block that has one: (element, channel) (R175, R176). -/
def Draft.entries (d : Draft) : List (Nat × Nat) :=
  (d.elems.zip (List.range 4)).flatMap fun p =>
    (p.1.chans.zip (List.range 8)).filterMap fun c => if bit c.1 7 then some (p.2, c.2) else none

/-- The initial predicates of context x of element e. -/
def Draft.init (d : Draft) (e x : Nat) : BitVec 8 := BitVec.ofNat 8 (d.initp.getD (4 * e + x) 0)
/-- Context x of element e is a source (R183). -/
def Draft.source (d : Draft) (e x : Nat) : Bool := bit d.sources (4 * e + x)

/-- The contexts of an element, each changed. -/
def mapCtxs (f : Nat → Ctx → Ctx) (k : Elem) : Elem :=
  { k with ctxs := (k.ctxs.zip (List.range 4)).map fun p => f p.2 p.1 }

/-- A draft loaded into a free cell (R62, R163, R303). -/
def freshCell (id : Nat) (d : Draft) (deflt : Nat) : Cell :=
  { Cell.blank id with
      draft := d, roles := d.roles.getD deflt
      elems := (List.range 4).map fun e => mapCtxs (fun x k => { k with p := d.init e x }) Elem.blank }

/-- Every used output channel of a cell asks for its reservation (R177). -/
def State.requestAll (s : State) (c : Nat) : State :=
  (List.range 32).foldl (fun s i =>
    let e := i / 8
    let n := i % 8
    if routeKind (s.routeOf c e n) = 0 || ((s.cell c).elem e).outs.getD n .idle != .idle then s else s.requestOut c e n) s

/-- A reservation granted at a target is given up (R177, R343). -/
def State.giveBack (s : State) (t : Target) (n : Nat) : State :=
  match t with
  | .chan c e k => s.setElem c e fun x => x.setChan k fun h => { h with granted := h.granted - n }
  | .queue l st => { s with queues := updateWhere (fun q => q.launch == l && q.stage == st)
                                        (fun q => { q with granted := q.granted - n }) s.queues }

/-- The standing reservations and the waiting requests of a cell's output channels released (R177). -/
def State.dropOuts (s : State) (c : Nat) : State :=
  let s := (List.range 32).foldl (fun s i =>
    let e := i / 8
    let n := i % 8
    let k := s.cell c
    match (k.elem e).outs.getD n .idle, s.routeTarget k (s.routeOf c e n) with
    | .held, some t => s.giveBack t 1
    | _, _ => s) s
  let mine := fun g : GrantReq => match g.source with
    | .out c' _ _ => c' == c
    | .ray c' _ _ => c' == c
    | _ => false
  let s := { s with grants := s.grants.filter fun g => !mine g }
  s.setCell c fun k => { k with elems := k.elems.map fun e => { e with outs := List.replicate 8 .idle } }

/-- The effect of a change of bank roles: CCH lines go home, and a bank that becomes SCR or ACC reads 0 with valid
check bits (R61). DEDUCED (log 33). -/
def State.changeRoles (s : State) (c new : Nat) : State :=
  let old := (s.cell c).roles
  let changed := (List.range 88).filterMap fun i => if roleIn old (8 + i) != roleIn new (8 + i) then some (8 + i) else none
  let s := ((s.cell c).cch.filter fun l => changed.contains l.way).foldl (fun s l => s.evictLine c l.pa) s
  let inBank := fun a => changed.contains (a / 8192)
  let s := s.setCell c fun k =>
    { k with roles := new, sram := k.sram.filter fun x => !inBank x.1
             dirtyRows := k.dirtyRows.filter (fun r => !changed.contains (r / 256)) ++
               (changed.filter fun b => roleIn new b == .scr || roleIn new b == .acc).flatMap fun b =>
                 (List.range 256).map (256 * b + ·) }
  { s with upsets := s.upsets.filter fun u => !(u.place == .sram c && inBank u.addr) }

/-- DRAFTSW's commit in one cell: registers, masks, flags, counts and the heddle state stay; predicates and sources
are the incoming draft's (R61, R163, R303). -/
def State.switchDraft (s : State) (c : Nat) : State :=
  match (s.cell c).shadow with
  | none => s
  | some sh =>
      let d := sh.draft
      let deflt := match s.launch? (s.cell c).launchUid with | some l => l.roles | none => 0
      let s := (s.dropOuts c).changeRoles c (d.roles.getD deflt)
      let old := fun (u : Upset) => match u.place with | .slots k _ | .entries k _ => k == c | _ => false
      let s := { s with upsets := s.upsets.filter fun u => !old u }
      let s := s.setCell c fun k =>
        { k with draft := d, shadow := none
                 elems := (k.elems.zip (List.range 4)).map fun p =>
                   { mapCtxs (fun x k => { k with p := d.init p.2 x, exhausted := false }) p.1 with lastFired := 3 } }
      s.requestAll c

/-- The array is one of a cell's (R87). -/
def Place.inCell (p : Place) (c : Nat) : Bool :=
  match p with
  | .sram k | .codebook k | .slots k _ | .entries k _ => k == c
  | _ => false

/-- A cell freed: its copies go home, its reservations are released and nothing of it carries over (R62, R177). -/
def State.freeCell (s : State) (c : Nat) : State :=
  let s := (s.evictAll c).dropOuts c
  let s := match (s.cell c).seat with
    | some t => { s with census := s.census.filter (·.1 != t) }
    | none => s
  { s with cells := s.cells.filter (·.id != c), accs := s.accs.filter (·.cell != c), upsets := s.upsets.filter fun u => !u.place.inCell c }

end Sys2Proof.Machine
end

