-- ==== Sys2Proof/Machine/Heddle.lean ====
section
/-! DEFINITION. Heddle commands at firing, HWAIT and CBDEC, and what the array and the preparer compute
(13_heddle_array.md R303 to R320; 08_number_formats.md R194, R197, R208). -/

namespace Sys2Proof.Machine

/-! Command words (R309, R314 to R319). -/

/-- Lane i of the command words. -/
def cw (ws : List Word) (i : Nat) : Nat := (ws.getD i 0).toNat

def syncSeten (ws : List Word) : Bool := bit (cw ws 3) 11
def syncSet (ws : List Word) : Nat := bits (cw ws 3) 10 8
def syncWait (ws : List Word) : Nat := bits (cw ws 3) 7 0

/-- The bits of a word outside a list of fields (hi, lo) are 0. -/
def onlyBits (w : Nat) (fs : List (Nat × Nat)) : Bool :=
  (List.range 32).all fun i => !bit w i || fs.any fun f => f.2 ≤ i && i ≤ f.1

/-- A scratchpad sum: aligned to n and below 2^20 (R309). -/
def spaSumOk (field : Nat) (o : Int) (n : Nat) : Bool :=
  let a := (field : Int) + o
  0 ≤ a && a < 2 ^ 20 && a % (n : Int) == 0
/-- A virtual sum: aligned to n (R309). -/
def vaSumOk (field : Nat) (o : Int) (n : Nat) : Bool := ((field : Int) + o) % (n : Int) == 0

/-- The 64-bit address of lanes 1 and 2. -/
def cwAddr (ws : List Word) : Nat := cw ws 1 + 2 ^ 32 * cw ws 2

/-- HPREP's fields (R314). -/
def prepWeights (ws : List Word) : Bool := bit (cw ws 0) 31
def prepSpad (ws : List Word) : Bool := bit (cw ws 0) 30
def prepFixed (ws : List Word) : Bool := bit (cw ws 0) 29
def prepP (ws : List Word) : Nat := bits (cw ws 0) 28 24
def prepFmt (ws : List Word) : Nat := bits (cw ws 0) 23 16
def prepScale (ws : List Word) : Nat := bits (cw ws 0) 15 8
def prepWexp (ws : List Word) : Nat := bits (cw ws 0) 7 0
def prepStride (ws : List Word) : Nat := cw ws 4
def prepM (ws : List Word) : Nat := bits (cw ws 5) 13 8 + 1
def prepK (ws : List Word) : Nat := bits (cw ws 5) 2 0 + 1
def prepDst (ws : List Word) : Nat := cw ws 6

def prepOk (ws : List Word) (o : Int) : Bool :=
  let w := prepWeights ws
  let fixed := prepFixed ws
  let p := prepP ws
  (w || !fixed) && (if fixed then 1 else 2) ≤ p && p ≤ 16 &&
  (if prepSpad ws then 1 ≤ prepFmt ws && prepFmt ws ≤ 8 else prepFmt ws == 0 && prepScale ws == 0) &&
  (if fixed then prepWexp ws ≤ 254 else prepWexp ws == 0) &&
  (if prepSpad ws then onlyBits (cw ws 1) [(19, 0)] && cw ws 2 == 0 && spaSumOk (cw ws 1) o 32
   else vaSumOk (cwAddr ws) o 64) &&
  prepStride ws % (if prepSpad ws then 32 else 64) == 0 &&
  onlyBits (cw ws 5) [(13, 8), (2, 0)] && (!w || prepM ws == 1) &&
  onlyBits (cw ws 6) [(19, 0)] && prepDst ws % 32 == 0 && cw ws 7 == 0

/-- Fields of HWLOAD and HMMA (R315, R316). -/
def cwPw (ws : List Word) : Nat := bits (cw ws 0) 28 24
def loadK (ws : List Word) : Nat := bits (cw ws 0) 2 0 + 1
def mmaK (ws : List Word) : Nat := bits (cw ws 0) 10 8 + 1
def mmaM (ws : List Word) : Nat := bits (cw ws 0) 5 0 + 1
def mmaPa (ws : List Word) : Nat := bits (cw ws 0) 20 16
def mmaAcc (ws : List Word) : Bool := bit (cw ws 0) 31
def mmaHi (ws : List Word) : Bool := bit (cw ws 0) 30
def mmaWoven (ws : List Word) : Bool := bit (cw ws 0) 29

def wloadOk (ws : List Word) (o : Int) : Bool :=
  let pw := cwPw ws
  onlyBits (cw ws 0) [(31, 31), (28, 24), (2, 0)] && 1 ≤ pw && pw ≤ 16 &&
  !(pw ≤ 8 && bit (cw ws 0) 31) && !(pw ≤ 8 && loadK ws * pw > 8) && !(pw ≥ 9 && loadK ws != 1) &&
  onlyBits (cw ws 1) [(19, 0)] && spaSumOk (cw ws 1) o 32 && cw ws 2 == 0

def mmaOk (ws : List Word) (o : Int) : Bool :=
  onlyBits (cw ws 0) [(31, 24), (20, 16), (10, 8), (5, 0)] && 1 ≤ cwPw ws && cwPw ws ≤ 16 && 2 ≤ mmaPa ws && mmaPa ws ≤ 16 &&
  onlyBits (cw ws 1) [(19, 0)] && spaSumOk (cw ws 1) o 32 && onlyBits (cw ws 2) [(19, 0)] && cw ws 2 % 2048 == 0

def zeroOk (ws : List Word) (o : Int) : Bool :=
  onlyBits (cw ws 0) [(5, 0)] && onlyBits (cw ws 1) [(19, 0)] && spaSumOk (cw ws 1) o 2048 && cw ws 2 == 0

/-- HDRAIN (R318): `reg` is the register form. -/
def drainOk (reg : Bool) (ws : List Word) (o : Int) : Bool :=
  onlyBits (cw ws 0) [(31, 24), (16, 16), (9, 8), (5, 0)] && (reg || bits (cw ws 0) 9 8 == 0) &&
  onlyBits (cw ws 1) [(19, 0)] && spaSumOk (cw ws 1) o 2048 &&
  (if reg then cw ws 2 == 0 else onlyBits (cw ws 2) [(19, 0)] && cw ws 2 % 32 == 0)

def cbFirst (ws : List Word) : Nat := bits (cw ws 0) 23 16
def cbCount (ws : List Word) : Nat := bits (cw ws 0) 8 0
def cbloadOk (ws : List Word) (o : Int) : Bool :=
  onlyBits (cw ws 0) [(23, 16), (8, 0)] && 1 ≤ cbCount ws && cbFirst ws + cbCount ws ≤ 256 && vaSumOk (cwAddr ws) o 4

/-- Every reserved bit and every range of a command holds (R309). -/
def heddleOk (op : Nat) (reg : Bool) (ws : List Word) (o : Int) : Bool :=
  onlyBits (cw ws 3) [(11, 0)] && match op with
  | 0x6C => prepOk ws o
  | 0x6D => wloadOk ws o
  | 0x6E => mmaOk ws o
  | 0x71 => zeroOk ws o
  | 0x70 => drainOk reg ws o
  | _ => cbloadOk ws o

/-! Firing (R309, R310). -/

def State.setHeddle (s : State) (c : Nat) (f : Heddle → Heddle) : State := s.setCell c fun k => { k with heddle := f k.heddle }

/-- A command enters the queue: its slot's count rises, and an HMMA with WOVEN takes its place in its row (R309, R310, R322). -/
def Heddle.enter (h : Heddle) (x : HCmd) : Heddle :=
  let woven := x.opcode == 0x6E && mmaWoven x.words
  { h with queue := h.queue ++ [{ x with wovenSeq := h.wovenCount }]
           counts := if syncSeten x.words then modifyAt h.counts (syncSet x.words) (· + 1) else h.counts
           wovenCount := if woven then h.wovenCount + 1 else h.wovenCount }

/-- A heddle command fires (R309): n command words of A whatever m0 holds, the offset from lane 0 of B. -/
def State.fireHeddle (s : State) (t : Fin 64) (op n : Nat) (dst : Option Nat) (a b : Src) : State :=
  let c := s.cur
  let ws := (List.range 8).map fun i => if i < n then s.rd a i else 0
  let o := (s.rd b 0).toInt
  if s.m0 = 0 then s.endFiring t 0
  else if !heddleOk op dst.isSome ws o then s.takeFault 0 (mkFault fHeddleShape 0 s.firingLanes 0)
  else if s.curCell.heddle.queue.length ≥ 8 then s.occupy
  else
    let (id, s) := s.newId
    let x : HCmd :=
      { id := id, opcode := op, words := ws, offset := o, elem := c.elem, ctx := c.ctx, slot := c.slot, m0 := s.m0,
        asid := s.asidOf c.cell c.elem c.ctx, dst := dst, started := false, paused := none, progress := 0, wovenSeq := 0,
        chain0 := [], chain1 := [], out := [], seq := s.curCtx.seq }
    let s := (s.setHeddle c.cell (·.enter x)).setCurCtx fun k =>
      { k with pendV := k.pendV ||| (match dst with | some r => regsMask r 1 | none => 0) }
    (s.charge s.curCell.seat 1).endFiring t 0

/-- HPREP (R314). -/
def execHprep (t : Fin 64) (a b : Src) (s : State) : Out := .next (s.fireHeddle t 0x6C 8 none a b)
/-- HWLOAD (R315). -/
def execHwload (t : Fin 64) (a b : Src) (s : State) : Out := .next (s.fireHeddle t 0x6D 4 none a b)
/-- HMMA (R316). -/
def execHmma (t : Fin 64) (a b : Src) (s : State) : Out := .next (s.fireHeddle t 0x6E 4 none a b)
/-- HDRAIN (R318). -/
def execHdrain (t : Fin 64) (d : RDst) (a b : Src) (s : State) : Out :=
  .next (s.fireHeddle t 0x70 4 (match d with | .v r => some r.val | .discard => none) a b)
/-- HZERO (R317). -/
def execHzero (t : Fin 64) (a b : Src) (s : State) : Out := .next (s.fireHeddle t 0x71 4 none a b)
/-- HCBLOAD (R319). -/
def execHcbload (t : Fin 64) (a b : Src) (s : State) : Out := .next (s.fireHeddle t 0x73 4 none a b)

/-- The queued commands that a mask of slots waits for (R310, R311). -/
def Heddle.naming (h : Heddle) (mask : Nat) : List Nat :=
  (h.queue.filter fun x => syncSeten x.words && bit mask (syncSet x.words)).map (·.id)

/-- HWAIT (R311): the predicate is cleared, then a watch is armed, or is already satisfied at the end of the cycle. -/
def execHwait (t : Fin 64) (d : PredReg) (a : Src) (s : State) : Out :=
  let c := s.cur
  let mask := (s.rd a 0).toNat % 256
  let awaited := s.curCell.heddle.naming mask
  let s := (s.writePred d.val false).endFiring t 0
  .next (if awaited.isEmpty then s.setPredOf c.cell c.elem c.ctx d.val true
    else s.setHeddle c.cell fun h => { h with watches := h.watches ++ [⟨c.elem, c.ctx, d.val, awaited⟩] })

/-- CBDEC (R320): an uncorrectable word of the codebook among the entries it reads is a fault (R87). -/
def execCbdec (t : Fin 64) (d : Dst) (a : Src) (s : State) : Out :=
  let src := s.src a
  let book := s.curCell.codebook
  let f := fun l =>
    let j := bits (lane src (l / 2)).toNat (16 * (l % 2) + 15) (16 * (l % 2))
    cbDecode (book.getD (j / 256) 0).toNat (j % 256)
  let entry := fun l => bits (lane src (l / 2)).toNat (16 * (l % 2) + 15) (16 * (l % 2)) / 256
  let used := fun (u : Upset) => u.place == .codebook s.cur.cell && (lanesOf s.m0).any fun l => entry l / 2 == u.addr / 8
  .next (if s.upsets.any fun u => u.double && used u then
      (s.countUncorr (dieOf s.cur.cell)).takeFault 0 (mkFault fUncorrectable 0 s.firingLanes 0)
    else ((s.correctSingles (dieOf s.cur.cell) used).put t d f).endFiring t 1)

/-! The preparer (R305). -/

/-- floor(log2 |x|) of a finite value that is not 0. -/
def valLog2 (m : Nat) (e : Int) : Int := (Nat.log2 m : Int) + e

/-- The magnitudes m * 2^e of the finite elements of a group; none where one is a NaN or infinite. -/
def finiteParts : List Word → Option (List (Bool × Nat × Int))
  | [] => some []
  | x :: xs => match fpDecode .fp32 x.toNat, finiteParts xs with
    | .num neg m e, some r => some ((neg, m, e) :: r)
    | _, _ => none

/-- QUANT of R305: the integers of a group and its exponent byte; `fixed` is the exponent byte of mode FIXED. -/
def quant (xs : List Word) (p : Nat) (fixed : Option Nat) : List Int × Nat :=
  match finiteParts xs with
  | none => (xs.map fun _ => 0, 255)
  | some vs =>
      let nz := vs.filter fun v => v.2.1 != 0
      let top := nz.foldl (fun acc v => max acc (valLog2 v.2.1 v.2.2)) (-1000)
      let e : Int := match fixed with
        | some x => (x : Int) - 127
        | none => if nz.isEmpty then -127 else max (top - ((p : Int) - 2)) (-127)
      let hi : Int := 2 ^ (p - 1) - 1
      let lo : Int := if fixed.isSome then -(2 ^ (p - 1)) else -hi
      let q := fun (v : Bool × Nat × Int) =>
        let n := (roundAt .rne v.1 v.2.1 1 (v.2.2 - e) 0).1
        let i : Int := if v.1 then -(n : Int) else n
        max lo (min hi i)
      (vs.map q, (e + 127).toNat)

/-- The elements of a format in a run of bytes, widened under a scale (R197, R198). -/
def widenBytes (code scale : Nat) (bs : List Nat) (n : Nat) : List Word :=
  match codeFmt code with
  | none => []
  | some f =>
      let ws := wordsOfBytes (bs.length / 4) bs
      (List.range n).map fun k => (widen f scale (elemAt (elemBits f) ws k)).1

/-- The groups of 32 of a row. -/
def groupsOf : Nat → List Word → List (List Word)
  | 0, _ => []
  | n + 1, xs => xs.take 32 :: groupsOf n (xs.drop 32)

/-! The array (R304, R316, R208). -/

/-- The 256-bit rows of a plane slice. -/
def planeRows : Nat → List Nat → List Nat
  | 0, _ => []
  | n + 1, bs => leNat (sliceBytes bs 0 32) :: planeRows n (bs.drop 32)

/-- PLANEWEIGHT(p) of a weight of pw bits (R304). -/
def planeWeight (pw p : Nat) : Int := if p + 1 = pw then -(2 ^ p : Nat) else (2 ^ p : Nat)

/-- The planes of a residency: first plane and number (R304). -/
def planesOf (pw : Nat) (hi : Bool) : Nat × Nat := if hi then (8, pw - 8) else (0, min pw 8)

/-- The sum over a group of 32 rows for column n: each row is (activation, its bits in the planes with their weights). -/
def groupSum (acts : List Int) (planes : List (Int × List Nat)) (n : Nat) : Int :=
  (planes.map fun p => p.1 * ((acts.zip p.2).map fun r => if bit r.2 n then r.1 else 0).sum).sum

/-- The FP32 value of a group's exact sum under both exponents (R208, R316). -/
def groupVal (sum : Int) (gxa gxw : Nat) : Nat :=
  if gxa = 255 || gxw = 255 then 0x7FC00000
  else if sum = 0 then 0
  else (roundFinite .fp32 .rne (sum < 0) sum.natAbs 1 ((gxa : Int) - 127 + ((gxw : Int) - 127))).1

/-- One group added to a chain, column by column (R208). -/
def addGroup (chain : List Word) (vals : List Nat) : List Word :=
  (chain.zip vals).map fun x => BitVec.ofNat 32 (fpAdd .fp32 x.1.toNat x.2).1

/-- One row of HMMA from the chains given (R316): the activation containers and exponents of its passes, the weight store and
the exponent table. -/
def mmaRow (pw pa k : Nat) (hi : Bool) (weights wexp : List Nat) (conts gx : List Nat) (chains : List Word × List Word) :
    List Word × List Word :=
  let (base, np) := planesOf pw hi
  (List.range (8 * k)).foldl (fun (ch : List Word × List Word) i =>
    let pass := i / 8
    let g := i % 8
    let acts := (List.range 32).map fun r => signed pa (conts.getD (256 * pass + 32 * g + r) 0)
    let planes := (List.range np).map fun j =>
      (planeWeight pw (base + j), planeRows 32 (sliceBytes weights (8192 * (pass * np + j) + 1024 * g) 1024))
    let ga := gx.getD i 0
    let vals := (List.range 256).map fun n =>
      groupVal (groupSum acts planes n) ga (wexp.getD (2048 * pass + 256 * g + n) 0)
    if g % 2 = 0 then (addGroup ch.1 vals, ch.2) else (ch.1, addGroup ch.2 vals)) chains

/-- One output value of HDRAIN (R318). -/
def drainVal (oscale c0 c1 : Nat) : Nat :=
  let out := (fpAdd .fp32 c0 c1).1
  if oscale = 255 then 0x7FC00000
  else if oscale = 127 then out
  else match fpDecode .fp32 out with
    | .num neg m e => if m = 0 then out else (roundFinite .fp32 .rne neg m 1 (e + ((oscale : Int) - 127))).1
    | _ => out

end Sys2Proof.Machine
end

