-- ==== Sys2Proof/Machine/Mwcas.lean ====
section
/-! DEFINITION. The multi-word compare-and-swap (06_atomics_and_mwcas.md R149 to R157). -/

namespace Sys2Proof.Machine

/-! The parameter block (R150, R151 steps 1 to 3). -/

/-- The entries of a block: address, expected and new values (R150). -/
def mwEntries (n : Nat) (bs : List Nat) : List (Nat × Nat × Nat) :=
  (List.range n).map fun i => (fieldAt bs (16 + 24 * i) 8, fieldAt bs (24 + 24 * i) 8, fieldAt bs (32 + 24 * i) 8)

def hasDup : List Nat → Bool
  | [] => false
  | x :: xs => xs.contains x || hasDup xs

/-- A defect of the block's header, or a block that crosses its page (R152). -/
def mwHeadBad (va n : Nat) (bs : List Nat) : Bool :=
  n < 1 || n > 8 || ((bs.take 16).drop 1).any (· != 0) || va % 4096 + 16 + 24 * n > 4096

/-- A defect of the block itself (R152). -/
def mwBad (va n : Nat) (bs : List Nat) (es : List (Nat × Nat × Nat)) : Bool :=
  mwHeadBad va n bs || es.any (fun e => e.1 % 8 != 0) || hasDup (es.map (·.1))

/-- n bytes of a block within a page, line by line, as a load of the context through its L1 (R151 step 1). -/
def State.blockBytes (s : State) (c pa leaf va n : Nat) : HubResult :=
  (linePieces pa n).foldl (fun r p => match r with
    | .ok bs s => match s.readPiece (some c) 0 (pa + p.1) leaf (va + p.1) p.2 with
      | .ok new s => .ok (bs ++ new) s
      | r => r
    | r => r) (.ok [] s)

/-- What the evaluation of an MWCAS comes to: a fault, a wait of its context or (none) of its read, or its entries, as (virtual
address, physical address, expected, new), with the sizes of their pages. -/
abbrev MwEval := FaultInfo ⊕ (Option Wait ⊕ (List (Nat × Nat × Nat × Nat) × List Nat))

/-- Step 1 of an MWCAS: its block is read as a load of the context, the header first and then as many entries as it names; the bytes, or
how the read ends (R151, R152). -/
def State.mwBlock (s : State) (c e x seq asid l va : Nat) : (MwEval ⊕ List Nat) × State :=
  let stop := fun (code cause : Nat) => (Sum.inl (Sum.inl (mkFault code cause (2 ^ l) va)) : MwEval ⊕ List Nat)
  let wait := fun (w : Option Wait) => (Sum.inl (Sum.inr (Sum.inl w)) : MwEval ⊕ List Nat)
  let read := fun (s : State) (pa leaf n : Nat) =>
    match (s.cell c).pendingWait asid n [va] with
    | some w => (wait (some w), s)
    | none =>
        if s.descriptionWaits c e x seq asid va pa leaf n then (wait none, s)
        else if inMmio pa then (.inr (s.mmioLoad pa n ((s.cell c).asid == 0)), s)
        else match s.blockBytes c pa leaf va n with
          | .wait => (wait none, s)
          | .fault code cause a => (.inl (.inl (mkFault code cause (2 ^ l) a)), s.countAt code (some c) (dieOf c) asid a)
          | .ok bs s => (.inr bs, s)
  match s.translateFor c asid .load va with
  | (.fault code cause, s) => (stop code cause, s)
  | (.busy, s) => (wait (some (.walk asid [va])), s)
  | (.mig _ _ leafPa v, s) => (wait (some (.migLeaf leafPa v asid [va] .load)), s)
  | (.ok pa leaf _, s) =>
      match read s pa leaf 16 with
      | (.inl r, s) => (.inl r, s)
      | (.inr bs, s) =>
          let n := fieldAt bs 0 1
          if mwHeadBad va n bs then (stop fMwcasParam 0, s) else read s pa leaf (16 + 24 * n)

/-- Steps 1 to 3 of an MWCAS: its block, at an address of a lane, is read and checked, and its entries are translated as writes (R151,
R152). -/
def State.mwEval (s : State) (c e x seq asid l va : Nat) : MwEval × State :=
  let stop := fun (code cause : Nat) => (Sum.inl (mkFault code cause (2 ^ l) va) : MwEval)
  if va % 16 != 0 then (stop fAlignment 0, s)
  else match s.mwBlock c e x seq asid l va with
  | (.inl r, s) => (r, s)
  | (.inr bs, s) =>
      let n := fieldAt bs 0 1
      let es := mwEntries n bs
      if mwBad va n bs es then (stop fMwcasParam 0, s)
      else match (s.cell c).pageWait asid (es.map (·.1)) with
        | some w => (.inr (.inl (some w)), s)
        | none =>
            let (rs, s) := es.foldl (fun (acc : List (Nat × Nat × Trans) × State) k =>
              let (r, s) := acc.2.translateFor c asid .mwcas k.1
              (acc.1 ++ [(l, k.1, r)], s)) ([], s)
            match failure (fun _ => 2 ^ l) rs, waitOf asid .mwcas rs with
            | some f, _ => (.inl f, s)
            | none, some w => (.inr (.inl (some w)), s)
            | none, none =>
                let parts := rs.map fun r => mkPart s r.1 r.2.1 8 r.2.2 [] 0
                if hasDup (parts.map (·.pa)) then (stop fMwcasParam 0, s)
                else (.inr (.inr ((es.zip parts).map fun k => (k.1.1, k.2.pa, k.1.2.1, k.1.2.2), parts.map (·.page))), s)

/-- MWCAS (R149 to R152): steps 1 to 3 are taken at the firing, and its context alone waits where its block may not be read yet; the
operation then runs by its lock phases. DESIGN CHOICE (log 27): the block is read in the firing, for a fault in steps 1 to 3 leaves the
instruction unfired (R157). -/
def execMwcas (t : Fin 64) (d : PDst) (a : Pair) (q : PredReg) (p : Profile) (s : State) : Out :=
  let prof := s.profile p.val
  let c := s.cur
  let asid := s.asidOf c.cell c.elem c.ctx
  .next (match s.wordLane a with
    | [] => s.endEmpty t prof
    | (l, va) :: _ => match s.mwEval c.cell c.elem c.ctx s.curCtx.seq asid l va with
      | (.inl f, s) => s.takeFault prof f
      | (.inr (.inl (some w)), s) => s.stay w
      | (.inr (.inl none), s) => s.stay (.walk asid [va])
      | (.inr (.inr (es, pages)), s) =>
          let (id, s) := s.newId
          let dst := match d with | .pair k => some (2 * k.val) | .discard => none
          let op : MwOp :=
            { id := id, fired := s.time, pages := pages, cell := c.cell, elem := c.elem, ctx := c.ctx, slot := c.slot,
              seq := s.curCtx.seq, dst := dst, pred := q.val, profile := prof, m0 := s.m0, asid := asid, block := va,
              entries := es, locked := [], phase := .waiting, elder := s.curCtx.mwcnt ≥ 4, start := 0, since := s.time,
              unacked := [] }
          let s := { s with mwops := s.mwops ++ [op] }
          let s := s.setCurCtx fun k =>
            { k with pendV := k.pendV ||| (match dst with | some r => regsMask r 2 | none => 0) }
          s.endFiring t 0)

/-- The operation is still to be performed: it is neither paused by a record nor committed. -/
def MwOp.active (m : MwOp) : Bool := m.phase != .paused && m.phase != .committed

/-! Locks (R151 steps 4 to 9, R154 to R156). -/

def State.mw? (s : State) (id : Nat) : Option MwOp := s.mwops.find? (·.id == id)
def State.setMw (s : State) (id : Nat) (f : MwOp → MwOp) : State := { s with mwops := updateWhere (·.id == id) f s.mwops }

/-- The distinct lines, ascending by full physical address (R151). -/
def MwOp.lines (m : MwOp) : List Nat :=
  sortBy (· ≤ ·) ((m.entries.map fun e => lineOf e.2.1).foldl (fun acc l => if acc.contains l then acc else acc ++ [l]) [])

/-- The bound on holding locks: 4 us, or 20 us where a line is on another module (R156). -/
def State.mwBound (s : State) (m : MwOp) : Nat :=
  if m.entries.all fun e => moduleOf e.2.1 == s.hub.modnum then 4000000 * Config.ps else 20000000 * Config.ps

/-- The release condition of step 4 (R117, R153): earlier SO and RC accesses performed, earlier loads and descriptions bound, earlier
accesses to a byte of its words performed (R111), logged stores replayed, FENCEs kept. -/
def State.mwReady (s : State) (m : MwOp) : Bool :=
  !(s.accs.any fun e => sameCtx e.cell e.elem e.ctx m.cell m.elem m.ctx && e.seq < m.seq && e.op != .prefetch &&
      e.parts.any fun q => q.open && (!q.uo || e.op.binds e.res || m.meets q)) &&
  !((s.cell m.cell).sideLog.any fun e => sameCtx m.cell e.elem e.ctx m.cell m.elem m.ctx && e.seq < m.seq) &&
  !(s.mwops.any fun e => sameCtx e.cell e.elem e.ctx m.cell m.elem m.ctx && e.seq < m.seq) &&
  (s.unread m.cell m.elem m.ctx m.seq).isEmpty && !s.fenced m.cell m.elem m.ctx m.seq 3 && !s.cellWaits m.cell m.elem m.ctx

/-- A line leaves its holder: to nobody while elders are queued, else free (R154). -/
def State.releaseLine (s : State) (id line : Nat) : State :=
  { s with locks := s.locks.filterMap fun k =>
      if k.line == line && k.holder == id then (if k.queue.isEmpty then none else some { k with holder := 0 }) else some k }

/-- Every lock of an operation released, and its places in queues given up. -/
def State.releaseLocks (s : State) (m : MwOp) : State :=
  let s := m.locked.foldl (fun s l => s.releaseLine m.id l) s
  { s with locks := (s.locks.map fun k => { k with queue := k.queue.filter (· != m.id) }).filter fun k =>
      !(k.holder == 0 && k.queue.isEmpty) }

/-- The end of an MWCAS: result lanes, success predicate, contention count, arc (R151 step 9, R153, R155). -/
def State.mwEnd (s : State) (m : MwOp) (obs : List Nat) (ok contended : Bool) : State :=
  let s := (s.releaseLocks m)
  let s := { s with mwops := s.mwops.filter (·.id != m.id) }
  let n := m.entries.length
  let mask := maskOf (· < n)
  let s := match m.dst with
    | none => s
    | some r =>
        let s := s.writeRegOf m.cell m.elem m.ctx r mask fun i => BitVec.ofNat 32 (obs.getD i 0)
        let s := s.writeRegOf m.cell m.elem m.ctx (r + 1) mask fun i => BitVec.ofNat 32 (obs.getD i 0 / 2 ^ 32)
        s.setCtx m.cell m.elem m.ctx fun k => { k with pendV := k.pendV &&& ~~~(regsMask r 2) }
  let s := s.setCtx m.cell m.elem m.ctx fun k => { k with mwcnt := if contended then min 7 (k.mwcnt + 1) else 0 }
  (s.setPredOf m.cell m.elem m.ctx m.pred ok).setArc m.cell m.elem m.ctx (arcOf m.profile)

/-- A contention failure (R153). -/
def State.mwContend (s : State) (m : MwOp) : State := s.mwEnd m (m.entries.map (·.2.2.1)) false true

/-- A record that an MWCAS in flight raises; its context is held (R156, R157). -/
def State.mwFault (s : State) (m : MwOp) (f : FaultInfo) : State :=
  let (rid, s) := s.pushRecord m.cell m.elem m.ctx m.slot 0x61 0 m.profile f (.mwcas m.id)
  (s.hold m.cell m.elem m.ctx rid).setMw m.id fun k => { k with phase := .paused, locked := [], start := 0 }

/-- The LANES mark of an MWCAS: its lane (R149, R375). -/
def MwOp.mark (m : MwOp) : Nat := match lowest m.m0 with | some l => 2 ^ l | none => 0

/-- The slices allocate the lines of the words as their pages' CP says (R26, R140). -/
def State.mwTouch (s : State) (m : MwOp) : State :=
  m.entries.foldl (fun s e => match (s.translateFor m.cell m.asid .mwcas e.1).1 with
    | .ok _ leaf _ => if leafCp leaf = 2 then s else s.sliceTouch e.2.1 0
    | _ => s) s

/-- An uncorrectable word that an MWCAS met on a die: its locks are released and nothing is written (R157). -/
def State.mwSpoil (s : State) (m : MwOp) (die va : Nat) : State :=
  ((s.releaseLocks m).countUncorr die).mwFault m (mkFault fUncorrectable 0 m.mark va)

/-- Steps 6 to 9, one event: every word read, compared and written with every line locked (R151, R153); an uncorrectable word stops
it with nothing written (R157). -/
def State.mwCommit (s : State) (m : MwOp) : State :=
  let s := m.entries.foldl (fun s e => s.correctAt e.2.1 8) (s.mwTouch m)
  match m.entries.find? fun e => s.spoiled e.2.1 8 with
  | some e => s.mwSpoil m (homeDie e.2.1) e.1
  | none =>
    let obs := m.entries.map fun e => memNat s.mem e.2.1 8
    let ok := (m.entries.zip obs).all fun x => x.1.2.2.1 == x.2
    let s := if ok then m.entries.foldl (fun s e => s.homeWrite e.2.1 (leBytes 8 e.2.2.2)) s else s
    s.mwEnd m obs ok false

/-- The identifier under which an MWCAS of another module holds locks and queues: when it fired, its requester's number and its context
(R154, R404); those of this module's are smaller. -/
def outsideMw (fired requester ctx : Nat) : Nat := 2 ^ 64 + (fired * 2 ^ 18 + requester % 2 ^ 18) * 16 + ctx % 16
/-- The key of an elder in a queue: when it became one, that is when it fired, then its requester's number (R154, R155). -/
def State.elderKey (s : State) (id : Nat) : Nat :=
  match s.mw? id with
  | some m => m.fired * 2 ^ 18 + s.requesterNo m.cell
  | none => (id - 2 ^ 64) / 16
/-- Elders queue in the order they became elder (R154). -/
def State.insertElder (s : State) (id : Nat) (ids : List Nat) : List Nat :=
  insertBy (fun a b => decide (s.elderKey a < s.elderKey b)) id ids

/-- The bound of an operation that holds locks has passed (R156). -/
def State.mwExpired (s : State) (m : MwOp) : Bool :=
  !m.locked.isEmpty && (match m.phase with | .locking | .queued _ => true | _ => false) && m.start + s.mwBound m ≤ s.time

/-- Steps 1 to 3 of an operation that starts again after a record: a fault of theirs is recorded anew (R157). -/
def State.mwAgain (s : State) (m : MwOp) : State :=
  match s.mwEval m.cell m.elem m.ctx m.seq m.asid ((lowest m.m0).getD 0) m.block with
  | (.inl f, s) => s.mwFault m f
  | (.inr (.inl _), _) => s
  | (.inr (.inr (es, pages)), s) => s.setMw m.id fun m => { m with entries := es, pages := pages }

/-- The entry that names a word of a line, by its virtual address. -/
def MwOp.vaIn (m : MwOp) (line : Nat) : Nat :=
  match m.entries.find? fun e => lineOf e.2.1 == line with | some e => e.1 | none => m.block

/-- The next line of an operation whose lock requests are under way, once its requester's turn has come: locked where it is free,
refused or queued for where it is not; with every line locked, the words are compared and written (R145, R151, R154). -/
def State.mwLock (s : State) (m : MwOp) : State :=
  match m.lines.find? fun l => !m.locked.contains l with
  | none => s.mwCommit m
  | some l =>
      let who := s.requesterNo m.cell
      if s.recalling l || !s.inTurn l who then s
      else match s.locks.find? (·.line == l) with
      | some k =>
          let s := s.serveTurn l who
          if m.elder then
            let s := { s with locks := updateWhere (·.line == l) (fun k => { k with queue := s.insertElder m.id k.queue }) s.locks }
            s.setMw m.id fun m => { m with phase := .queued k.line }
          else s.mwContend m
      | none => match s.pullBad l true none, s.conflicts l true none with
        | some h, _ => s.mwSpoil m (dieOf h) (m.vaIn l)
        | none, h :: hs => s.askRecall l (h :: hs)
        | none, [] =>
            let s := { s.serveTurn l who with locks := s.locks ++ [LineLock.mk l m.id []] }
            s.setMw m.id fun m => { m with locked := m.locked ++ [l], since := s.time,
                                           start := if m.locked.isEmpty then s.time else m.start }

/-- MWCAS_LOCK_PHASE (R151, R154): the operation waits for the release condition of step 4, then takes its next line, and with every
line locked compares and writes; past its bound it only expires (R156). -/
def execMwcasLockPhase (id : Nat) (s : State) : Out :=
  .next (match s.mw? id with
    | none => s
    | some m => match m.phase with
      | .waiting =>
          if m.entries.isEmpty then s.mwAgain m
          else if s.mwReady m then s.setMw id fun m => { m with phase := .locking, since := s.time }
          else s
      | .locking => if s.mwExpired m then s else s.mwLock m
      | _ => s)

/-- MWCAS_QUEUED_LOCK_GRANT (R154): a released line passes to the first queued elder. -/
def execMwcasQueuedLockGrant (line : Nat) (s : State) : Out :=
  .next (match s.locks.find? (fun k => k.line == line && k.holder == 0) with
    | none => s
    | some k => match k.queue with
      | [] => s
      | id :: rest =>
          let s := { s with locks := updateWhere (·.line == line) (fun k => { k with holder := id, queue := rest }) s.locks }
          s.setMw id fun m => { m with locked := m.locked ++ [line], phase := .locking, since := s.time,
                                       start := if m.locked.isEmpty then s.time else m.start })

/-- MWCAS_BOUND_EXPIRY (R156): locks released; an ordinary operation fails by contention, an elder starts again. -/
def execMwcasBoundExpiry (id : Nat) (s : State) : Out :=
  .next (match s.mw? id with
    | none => s
    | some m =>
        if !s.mwExpired m then s
        else if m.elder then
          (s.releaseLocks m).setMw id fun m => { m with locked := [], phase := .locking, start := 0, since := s.time }
        else s.mwContend m)

def timeoutPs : Nat := 2000000000 * Config.ps

/-- MWCAS_LOCK_TIMEOUT (R156): a lock request unanswered for 2 ms; no word is written. -/
def execMwcasLockTimeout (id : Nat) (s : State) : Out :=
  .next (match s.mw? id with
    | none => s
    | some m => match m.lines.find? fun l => !m.locked.contains l with
      | none => s
      | some l =>
          if m.phase != .locking || s.time < m.since + timeoutPs then s
          else
            (s.releaseLocks m).mwFault m (mkFault fMemoryTimeout 0 m.mark (m.vaIn l)))

/-- The entries of other modules whose homes became unreachable after granting their locks: the spec does not say which do. A free
value chooses among the modules, at least one (R156; Config.openValue 156). -/
def State.unreached (s : State) (m : MwOp) : List Nat :=
  let mods := ((m.entries.map fun e => moduleOf e.2.1).filter (· != s.hub.modnum)).eraseDups
  let lost := mods.filter fun k => bit (Config.openValue 156 m.id) k
  let lost := if lost.isEmpty then mods else lost
  ((m.entries.zip (List.range 8)).filter fun x => lost.contains (moduleOf x.1.2.1)).map (·.2)

/-- The commit of an operation may stay unanswered: every line is locked, an entry lies on another module, every word equals its
expected value, and 2 ms have passed (R156). -/
def State.commitLate (s : State) (m : MwOp) : Bool :=
  m.phase == .locking && m.since + timeoutPs ≤ s.time && !m.entries.isEmpty && (m.lines.all fun l => m.locked.contains l) &&
  (m.entries.any fun e => moduleOf e.2.1 != s.hub.modnum) && m.entries.all fun e => memNat s.mem e.2.1 8 == e.2.2.1

/-- MWCAS_COMMIT_TIMEOUT (R156): homes of other modules became unreachable after granting their locks: the writes at the homes that
acknowledged stay, the destinations are written as for success, LANES marks the other entries. -/
def execMwcasCommitTimeout (id : Nat) (s : State) : Out :=
  .next (match s.mw? id with
    | none => s
    | some m =>
        if !s.commitLate m then s
        else
          let lost := s.unreached m
          let done := (m.entries.zip (List.range 8)).filter fun x => !lost.contains x.2
          let s := done.foldl (fun s x => s.homeWrite x.1.2.1 (leBytes 8 x.1.2.2.2)) s
          let s := s.mwEnd m (m.entries.map (·.2.2.1)) true false
          let va := match lost.head?.bind fun i => m.entries[i]? with | some e => e.1 | none => m.block
          let (rid, s) := s.pushRecord m.cell m.elem m.ctx m.slot 0x61 0 m.profile
            (mkFault fMemoryTimeout 0 (lost.foldl (fun acc i => acc + 2 ^ i) 0) va) (.mwcas m.id)
          let s := s.hold m.cell m.elem m.ctx rid
          { s with mwops := s.mwops ++ [{ m with phase := .committed, locked := [], unacked := lost }] })

end Sys2Proof.Machine
end

