-- ==== Sys2Proof/Machine/Shuttle.lean ====
section
/-! DEFINITION. Shuttle commands and streams at firing, and the fields of their blocks
(12_isa_memory_and_shuttle.md R294 to R302; 03_hierarchy_and_enumeration.md R70, R71; 01_address_spaces.md R33). -/

namespace Sys2Proof.Machine

/-! Command blocks (R295, R299) and scratchpad references (R33). -/

/-- A scratchpad reference, and its fields (R33). -/
def isRef (a : Nat) : Bool := bits a 63 60 == 0xA
def refCell (a : Nat) : Nat := bits a 35 20
def refSpa (a : Nat) : Nat := a % 2 ^ 20
def refBad (a : Nat) : Bool := isRef a && bits a 59 36 != 0
def mkRef (cell spa : Nat) : Nat := 0xA * 2 ^ 60 + cell % 65536 * 2 ^ 20 + spa % 2 ^ 20

def shSrc (b : List Nat) : Nat := fieldAt b 0 8
def shDst (b : List Nat) : Nat := fieldAt b 8 8
def shLen (b : List Nat) : Nat := fieldAt b 16 4
def shRows (b : List Nat) : Nat := fieldAt b 20 4
def shSstr (b : List Nat) : Int := signed 32 (fieldAt b 24 4)
def shDstr (b : List Nat) : Int := signed 32 (fieldAt b 28 4)
def shMask (b : List Nat) : Nat := fieldAt b 24 8
def shFlag (b : List Nat) : Nat := fieldAt b 32 8
def shVal (b : List Nat) : Nat := fieldAt b 40 8
def shFut (b : List Nat) : Nat := fieldAt b 48 8

/-- The steps of a command that its saved PROGRESS counts as one: a byte, a row, or a target with its flag (R422). -/
def shUnit (op : Nat) (b : List Nat) : Nat :=
  match op with
  | 0x68 => 1
  | 0x69 => max 1 (shLen b)
  | _ => shLen b + 1

/-- The defect of a command block, with the address it is reported at (R299). DESIGN CHOICE (log 16): of several defects, a format
defect is reported first, then a defective reference of SRC, DST and FLAG in that order, then the alignment of FLAG, then that of FUT; the
spec gives no order. -/
def blockFault (op block : Nat) (b : List Nat) : Option (Nat × Nat × Nat) :=
  let len := shLen b
  let rows := shRows b
  let format := fieldAt b 56 8 != 0 ||
    (match op with
    | 0x68 => len > 0x01000000 || rows != 0 || fieldAt b 24 8 != 0
    | 0x69 => len < 1 || len > 0x10000 || rows < 1 || rows > 0x10000 || len * rows > 0x01000000
    | _ => len > 0xB0000 || rows != 0 || shMask b == 0 || !isRef (shDst b) ||
             (isRef (shFlag b) && refCell (shFlag b) != 0))
  let refs := [shSrc b, shDst b, shFlag b].find? refBad
  if format then some (fFormat, 0, block)
  else match refs with
    | some a => some (fTranslation, 1, a)
    | none =>
        if shFlag b % 8 != 0 then some (fAlignment, 0, shFlag b)
        else if shFut b % 8 != 0 then some (fAlignment, 0, shFut b)
        else none

/-! Firing (R294, R301). -/

/-- A base address checked as a load, 64-byte aligned; the reads of its bytes wait for a pending store (R46, R294). -/
def State.checkBase (s : State) (prof : Nat) (m : Nat) (va : Nat) (go : Nat → Nat → State → State) : State :=
  let c := s.cur
  let asid := s.asidOf c.cell c.elem c.ctx
  if va % 64 != 0 then s.takeFault prof (mkFault fAlignment 0 m va)
  else match s.curCell.pendingWait asid 64 [va] with
  | some w => s.stay w
  | none => match s.translateFor c.cell asid .load va with
    | (.fault code cause, s) => s.takeFault prof (mkFault code cause m va)
    | (.busy, s) => s.stay (.walk asid [va])
    | (.mig _ _ leafPa v, s) => s.stay (.migLeaf leafPa v asid [va] .load)
    | (.ok pa leaf _, s) => go pa leaf s

/-- The LANES mark of a base fault: the lowest lane of m0 (R375). -/
def State.baseMark (s : State) : Nat := match lowest s.m0 with | some l => 2 ^ l | none => 0

/-- A shuttle command enters its cell's queue (R294, R301). -/
def State.fireShuttle (s : State) (t : Fin 64) (op : Nat) (a : Pair) (b : Src) (p : Profile) : State :=
  let prof := s.profile p.val
  let c := s.cur
  let va := s.base a b
  if s.m0 = 0 then s.endEmpty t prof
  else if s.curCell.shuttle.length ≥ 16 then s.occupy
  else s.checkBase prof s.baseMark va fun pa leaf s =>
    let (id, s) := s.newId
    let cmd : ShCmd :=
      { id := id, opcode := op, block := va, pa := pa, leaf := leaf, elem := c.elem, ctx := c.ctx, slot := c.slot, m0 := s.m0,
        asid := s.asidOf c.cell c.elem c.ctx, profile := prof, phase := 0, progress := 0, paused := none, fields := [],
        buffer := [], seq := s.curCtx.seq }
    let s := s.setCell c.cell fun k => { k with shuttle := k.shuttle ++ [cmd] }
    (s.charge s.curCell.seat 1).endFiring t 0

/-- SHCPY (R294). -/
def execShcpy (t : Fin 64) (a : Pair) (b : Src) (p : Profile) (s : State) : Out := .next (s.fireShuttle t 0x68 a b p)
/-- SHTILE (R294). -/
def execShtile (t : Fin 64) (a : Pair) (b : Src) (p : Profile) (s : State) : Out := .next (s.fireShuttle t 0x69 a b p)
/-- SHMCAST (R294). -/
def execShmcast (t : Fin 64) (a : Pair) (b : Src) (p : Profile) (s : State) : Out := .next (s.fireShuttle t 0x6A a b p)

/-! Streams (R70, R71, R302). -/

/-- The address of the lowest lane, with no offset (R302). -/
def State.streamBase (s : State) (a : Pair) : Nat :=
  match s.wordLane a with | (_, va) :: _ => va | [] => 0

/-- SHSTRM (R71, R302): an engine command; a 17th on a slice with 16 streams waits. -/
def execShstrm (t : Fin 64) (a : Pair) (p : Profile) (s : State) : Out :=
  let prof := s.profile p.val
  let c := s.cur
  let va := s.streamBase a
  .next (if s.m0 = 0 then s.endEmpty t prof
    else s.checkBase prof s.baseMark va fun pa leaf s =>
      let slice := homeSlice pa
      if (s.streams.filter fun k => k.slice == slice).length ≥ 16 then s.stay (.streamSlot slice)
      else
        let (id, s) := s.newId
        let k : Stream :=
          { id := id, slice := slice, addr := va, pa := pa, leaf := leaf, cell := c.cell, elem := c.elem, ctx := c.ctx, slot := c.slot, m0 := s.m0,
            launch := s.curCell.launchUid, asid := s.asidOf c.cell c.elem c.ctx, opened := false, closing := false, desc := [],
            seat := s.curCell.seat, dest := none, profile := prof, next := 0, pushed := 0, popped := 0, paused := none,
            ended := false, cut := false, buf := [], seq := s.curCtx.seq }
        (({ s with streams := s.streams ++ [k] }).charge s.curCell.seat 1).endFiring t 0)

/-- SHCLOSE (R302): the stream that the issuing launch opened from the descriptor stops pushing; with none, nothing is
performed and the arc is set at the end of the firing. -/
def execShclose (t : Fin 64) (a : Pair) (p : Profile) (s : State) : Out :=
  let prof := s.profile p.val
  let c := s.cur
  let va := s.streamBase a
  .next (if s.m0 = 0 then s.endEmpty t prof
    else s.checkBase prof s.baseMark va fun _ _ s =>
      match s.streams.find? fun k => k.addr == va && k.opened && k.launch == s.curCell.launchUid &&
          k.asid == s.asidOf c.cell c.elem c.ctx with
      | none => s.endEmpty t prof
      | some k =>
          let (id, s) := s.newId
          let x : StreamClose := ⟨id, c.cell, c.elem, c.ctx, k.id, prof, s.curCell.seat, s.curCtx.seq⟩
          let s := { s with closes := s.closes ++ [x]
                            streams := updateWhere (·.id == k.id) (fun k => { k with closing := true }) s.streams }
          (s.charge s.curCell.seat 1).endFiring t 0)

end Sys2Proof.Machine
end

