-- ==== Sys2Proof/Machine/Launches.lean ====
section
/-! DEFINITION. The end of launches and of the work of cells: discarded work, freed regions, residency reports, completion
records and spliced tails (15_scheduling_and_clocks.md R352, R357, R365, R367; 16_traps_and_preemption.md R379;
03_hierarchy_and_enumeration.md R62). -/

namespace Sys2Proof.Machine

/-! Work in flight. -/

/-- The cell number under which the resident scheduler and the hub's engines issue commands: no cell has it. -/
def hubActor : Nat := 4096

/-- Everything that cells of a list have in flight is discarded (R379). -/
def State.dropWork (s : State) (cs : List Nat) : State :=
  let inn := fun c : Nat => cs.contains c
  let s := (s.mwops.filter fun m => inn m.cell).foldl (fun s m => s.releaseLocks m) s
  let ofCells := fun p : Producer => match p with
    | .out c _ _ => inn c
    | .ray c _ _ => inn c
    | _ => false
  let toCells := fun t : Target => match t with
    | .chan c _ _ => inn c
    | _ => false
  let gone := (s.streams.filter fun k => inn k.cell).map (·.id)
  let ofStream := fun p : Producer => match p with | .stream id => gone.contains id | _ => false
  { s with
      accs := s.accs.filter fun a => !inn a.cell
      fences := s.fences.filter fun a => !inn a.cell
      invs := s.invs.filter fun a => !inn a.cell
      mwops := s.mwops.filter fun a => !inn a.cell
      watches := s.watches.filter fun a => !inn a.cell
      arrivals := s.arrivals.filter fun a => !inn a.cell
      traversals := s.traversals.filter fun a => !inn a.cell
      walks := (s.walks.filter fun w => w.cells.isEmpty || w.cells.any (!inn ·)).map fun w => { w with cells := w.cells.filter (!inn ·) }
      merges := s.merges.filter fun e => !e.contribs.all fun k => (s.acc? k.1).any fun a => inn a.cell
      images := s.images.filter fun a => !inn a.cell
      draftlds := s.draftlds.filter fun a => !inn a.cell
      streams := s.streams.filter fun a => !inn a.cell
      closes := s.closes.filter fun a => !inn a.cell
      colls := s.colls.filter fun a => !inn a.cell
      flights := s.flights.filter fun f => !ofCells f.source && !ofStream f.source && !toCells f.target
      grants := s.grants.filter fun f => !ofCells f.source && !ofStream f.source && !toCells f.target
      cells := updateWhere (fun c => inn c.id) (fun c => { c with
        sideLog := [], shuttle := [], heddle := { c.heddle with queue := [], watches := [], counts := List.replicate 8 0 } }) s.cells }

/-! Cells under other numbers (R360). -/

def Target.rename (f : Nat → Nat) : Target → Target
  | .chan c e n => .chan (f c) e n
  | t => t
def Producer.rename (f : Nat → Nat) : Producer → Producer
  | .out c e n => .out (f c) e n
  | .ray c e x => .ray (f c) e x
  | p => p
def RecordOf.rename (f : Nat → Nat) : RecordOf → RecordOf
  | .firing c e x i => .firing (f c) e x i
  | .brk c e => .brk (f c) e
  | .done c e x => .done (f c) e x
  | .logged c p a => .logged (f c) p a
  | .shuttle c k => .shuttle (f c) k
  | .heddle c k => .heddle (f c) k
  | r => r

/-- What a cell has in flight follows it to another number: a restored region takes other cells than it left, and a saved one
stands under numbers that no cell has. -/
def State.renameCell (s : State) (old new : Nat) : State :=
  let f := fun (c : Nat) => if c = old then new else c
  let s : State := { s with
    accs := s.accs.map fun a => { a with cell := f a.cell }
    fences := s.fences.map fun a => { a with cell := f a.cell }
    mwops := s.mwops.map fun a => { a with cell := f a.cell }
    arrivals := s.arrivals.map fun a => { a with cell := f a.cell }
    traversals := s.traversals.map fun a => { a with cell := f a.cell }
    streams := s.streams.map fun a => { a with cell := f a.cell }
    walks := s.walks.map fun w => { w with cells := w.cells.filter (· != old) } }
  { s with
    flights := s.flights.map fun a => { a with source := a.source.rename f, target := a.target.rename f }
    grants := s.grants.map fun a => { a with source := a.source.rename f, target := a.target.rename f }
    dies := s.dies.map fun d => { d with records := d.records.map fun r => { r with of := r.of.rename f, cell := f r.cell } } }

/-- The cells of a launch's regions. -/
def State.regionsOf (s : State) (uid : Nat) : List Region := s.regions.filter (·.launch == uid)
def State.cellsOf (s : State) (uid : Nat) : List Nat := (s.regionsOf uid).flatMap (·.cells)

/-- Every region of a launch is freed (R62, R365). -/
def State.freeRegions (s : State) (uid : Nat) : State :=
  let s := (s.cellsOf uid).foldl (fun s c => s.freeCell c) s
  { s with regions := s.regions.filter (·.launch != uid) }

/-- The stage queues of a launch go, with the tokens and requests on their way to them (R365, R372). -/
def State.dropQueues (s : State) (uid : Nat) : State :=
  let toQ := fun t : Target => match t with | .queue l _ => l == uid | _ => false
  let ofQ := fun p : Producer => match p with
    | .dispatch l _ => l == uid
    | .event l _ => l == uid
    | _ => false
  { s with queues := s.queues.filter (·.launch != uid)
           flights := s.flights.filter fun f => !toQ f.target && !ofQ f.source
           grants := s.grants.filter fun f => !toQ f.target && !ofQ f.source }

/-! Residency reports (R367). -/

def rptAdmitted : Nat := 0
def rptResumed : Nat := 1
def rptPreempted : Nat := 2
def rptRetired : Nat := 3

/-- The bytes of a report of an event at a time (R367). -/
def State.rptBytes (s : State) (uid launchid kind time : Nat) : List Nat :=
  let here := fun d => (s.regionsOf uid).filter (·.die == d)
  let dies := (List.range 8).foldl (fun acc d => if (here d).isEmpty then acc else acc + 2 ^ d) 0
  leBytes 4 launchid ++ leBytes 4 kind ++ leBytes 8 time ++ [dies] ++ List.replicate 7 0 ++
  ((List.range 8).flatMap fun d => leBytes 2 (if (here d).isEmpty then 0 else (s.die d).grant)) ++
  ((List.range 8).flatMap fun d => leBytes 2 ((here d).map (·.cells.length)).sum) ++ List.replicate 8 0

/-- A report is written, as a release at system scope; one whose address does not exist is not (R367). None while its line must be waited
for (R93). -/
def State.report (s : State) (uid kind time : Nat) : Option State :=
  match s.launch? uid with
  | some l => match l.rpt with
    | some pa => s.hubStorePa pa (s.rptBytes uid l.launchid kind time)
    | none => some s
  | none => some s

/-- A launch all of whose regions are saved is pre-empted, and reported (R358, R360, R367); none while the report's line must be waited
for. -/
def State.launchStopped (s : State) (uid : Nat) : Option State :=
  let s := s.setLaunch uid fun l => { l with st := .preempted }
  (s.report uid rptPreempted s.ticks).map fun s => s.splitSoon.stepOwed

/-! Queues (R351, R352). -/

/-- The head of a queue: spliced tails before pushed entries (R352, R365). -/
def LQueue.head (q : LQueue) : Option Nat :=
  match q.spliced with
  | (_, a, _) :: _ => some a
  | [] => q.pushed.head?

/-- A completion record, and QSTAT.IRQ where it was written for a launch that asks for it (R351, R357). -/
def State.endRecord (s : State) (q : Nat) (irq : Bool) (asid crec status cause launchid faults start end_ : Nat) : Option State :=
  let written := crec % 32 == 0 && match s.hubStore false asid crec [] with | .ok .. => true | _ => false
  (s.writeCrec asid crec status cause launchid faults start end_).map fun s =>
    if irq && written then s.setLqueue q fun k => { k with irq := true } else s

/-! The end of a launch. -/

/-- A launch loses its regions, its work, its queues and its saved regions (R365 step 1, R379). -/
def State.endLaunch (s : State) (uid status cause : Nat) : State :=
  let rs := s.regionsOf uid
  let kept := (s.saved.filter (·.launch == uid)).flatMap fun v => v.cells.map (·.id)
  let s := s.dropWork (s.cellsOf uid ++ kept)
  let s := { s with images := s.images.filter fun a => !rs.any fun r => r.die == a.die && r.index == a.region }
  let s := (s.freeRegions uid).dropQueues uid
  let s := { s with saved := s.saved.filter (·.launch != uid), streams := s.streams.filter (·.launch != uid)
                    census := s.census.filter (·.1.launch != uid) }
  (s.setLaunch uid fun l => { l with st := .ended status cause s.ticks }).splitSoon

/-- The tail launches of a terminated graph, each discarded with cause 13 (R352). -/
def State.cancelTails (s : State) (asid : Nat) : List (Nat × Nat) → Option State
  | [] => some s
  | (_, b) :: bs => (s.cancelTail asid b 13).bind fun s => s.cancelTails asid bs

/-- The blocks of tail launches as their parent retires (R353). DEDUCED (log 38): the blocks are read at the retirement. -/
def State.readTails (s : State) (asid : Nat) : List (Nat × Nat) → Option (List (Nat × Nat × List Nat) × State)
  | [] => some ([], s)
  | (n, b) :: bs =>
      let got := if b % 256 != 0 then some ([], s)
        else s.loadBlock (fun s a => s.hubLoad false asid a 128) (fun s code a => s.countAt code none 0 asid a) b
      got.bind fun r => (r.2.readTails asid bs).map fun q => ((n, b, r.1) :: q.1, q.2)

/-- What an ended launch still owes: its completion record, then its tails spliced, in the order in which the hub received them, or
discarded, then an admission step (R352, R357, R365); a retirement is reported first. None while a page or a line it needs must be
waited for. -/
def State.finishLaunch (s : State) (uid : Nat) : Option State :=
  match s.launch? uid with
  | none => none
  | some l => match l.st with
    | .ended status cause time =>
        let s0 := if status = stDone then s.report uid rptRetired time else some s
        let tails := fun (s : State) =>
          if status = stDone then
            (s.readTails l.asid l.tail).map fun r =>
              r.2.setLqueue l.queue fun k => k.rehead { k with spliced := (k.spliced ++ r.1).foldl (fun acc e => insertBy (fun x y => decide (x.1 ≤ y.1)) e acc) [] } s.time
          else s.cancelTails l.asid l.tail
        ((s0.bind fun s => s.endRecord l.queue l.irq l.asid l.crec status cause l.launchid l.faults l.first time).bind tails).map fun s =>
          { s with launches := s.launches.filter (·.uid != uid) }.stepOwed
    | _ => none

/-- TERMINATE (R379). -/
def State.terminateLaunch (s : State) (uid : Nat) : State :=
  match s.launch? uid with
  | none => s
  | some l => match l.st with
    | .ended .. => s
    | _ =>
        let s := s.endLaunch uid stTerminated 0
        (s.finishLaunch uid).getD s

/-! The end of engine commands. -/

/-- A heddle command leaves the queue: its slot's count falls, watches that awaited it alone set their predicates, and the
census loses 1 (R310, R311, R312). -/
def State.heddleLeave (s : State) (c : Nat) (x : HCmd) : State :=
  let h := (s.cell c).heddle
  let ws := h.watches.map fun w => { w with awaited := w.awaited.filter (· != x.id) }
  let s := s.setHeddle c fun h =>
    { h with queue := h.queue.filter (·.id != x.id)
             counts := if syncSeten x.words then modifyAt h.counts (syncSet x.words) (· - 1) else h.counts
             watches := ws.filter fun w => !w.awaited.isEmpty }
  let s := (ws.filter (·.awaited.isEmpty)).foldl (fun s w => s.setPredOf c w.elem w.ctx w.pred true) s
  s.charge (s.cell c).seat (-1)

/-- A shuttle command ends: its arc is set and the census loses 1 (R296 step 5, R300). -/
def State.shuttleLeave (s : State) (c : Nat) (x : ShCmd) : State :=
  let s := s.setCell c fun k => { k with shuttle := k.shuttle.filter (·.id != x.id) }
  (s.charge (s.cell c).seat (-1)).setArc c x.elem x.ctx (arcOf x.profile)

def State.hcmd? (s : State) (c id : Nat) : Option HCmd := (s.cell c).heddle.queue.find? (·.id == id)
def State.setHcmd (s : State) (c id : Nat) (f : HCmd → HCmd) : State :=
  s.setHeddle c fun h => { h with queue := updateWhere (·.id == id) f h.queue }
def State.shcmd? (s : State) (c id : Nat) : Option ShCmd := (s.cell c).shuttle.find? (·.id == id)
def State.setShcmd (s : State) (c id : Nat) (f : ShCmd → ShCmd) : State :=
  s.setCell c fun k => { k with shuttle := updateWhere (·.id == id) f k.shuttle }

end Sys2Proof.Machine
end

