-- ==== Sys2Proof/Machine/Faults.lean ====
section
/-! DEFINITION. The fault queue: records written to the ring, its registers, and what a handler's action does
(16_traps_and_preemption.md R376 to R381; 02_translation_and_migration.md R47; 12_isa_memory_and_shuttle.md R300;
13_heddle_array.md R312; 03_hierarchy_and_enumeration.md R73; 06_atomics_and_mwcas.md R156). -/

namespace Sys2Proof.Machine

/-! Records (R375, R377, R378). -/

/-- The 64 bytes of a record (R375). -/
def FRecord.bytes (r : FRecord) (seq : Nat) : List Nat :=
  [r.code, r.cause, r.flags, r.opcode] ++ leBytes 4 r.cell ++ [r.elem, r.ctx, r.slot, 0] ++ leBytes 4 r.launchid ++
  leBytes 8 r.lanes ++ leBytes 8 r.addr ++ leBytes 2 r.profile ++ leBytes 2 r.asid ++ leBytes 4 seq ++ leBytes 8 r.time ++
  leBytes 8 r.snap ++ List.replicate 8 0

/-- FAULT_RECORD_WRITE (R378): the oldest waiting record is written to the ring, then FQPROD advances, then the doorbell; the write waits
for a line that its holder keeps (R93). -/
def execFaultRecordWrite (die : Nat) (s : State) : Out :=
  let d := s.die die
  .next (if !fqEn d.fqbase || d.fqFull then s
    else match d.nextRecord with
      | none => s
      | some r =>
          let seq := d.fqprod
          let prod := (seq + 1) % 2 ^ 32
          let door := bits d.fqdoor 51 3 * 8
          let written := (s.hubStorePa (fqBase d.fqbase + 64 * (seq % fqSize d.fqbase)) (r.record.bytes seq)).bind fun s =>
            let s := s.setDie die fun d =>
              { d with fqprod := prod
                       records := updateWhere (fun x => x.record.id == r.record.id) (fun x => { x with seq := some seq }) d.records }
            if door = 0 then some s else s.hubStorePa door (leBytes 8 prod)
          written.getD s)

/-! Release and skip of a firing (R379). -/

/-- A record holds no context any more: each fires again when no other open record holds it (R375). -/
def State.releaseAll (s : State) (id : Nat) : State :=
  let free := fun (k : Ctx) => { k with heldBy := k.heldBy.filter (· != id) }
  let held := fun (c : Cell) => c.elems.any fun e => e.ctxs.any (·.heldBy.contains id)
  let go := fun (c : Cell) => { c with elems := c.elems.map fun e => { e with ctxs := e.ctxs.map free } }
  { s with cells := updateWhere held go s.cells }

/-- Skip of an instruction held before firing: no destination written, no command entered, the trigger effects applied and the
completion arc set (R379). -/
def State.skipFiring (s : State) (c e x slot profile id : Nat) : State :=
  if !(s.ctxOf c e x).heldBy.contains id then s
  else
    let old := s.cur
    let s := { s with cur := ⟨c, e, x, slot⟩ }
    let t : Fin 64 := Fin.ofNat 64 ((s.curDraft.slots.getD slot 0).toNat / 2 ^ 26)
    let s := (s.effects t).setCurCtx fun k => { k with seq := k.seq + 1 }
    { (s.stir c).setArc c e x (arcOf profile) with cur := old }

/-! The action on each kind of record. -/

/-- A part that failed its format check (R286). -/
def Part.badFormat (p : Part) : Bool := match p.st with | .failed c _ => c == fFormat | _ => false
/-- A load whose result is given up: it writes no destination (R379). -/
def State.giveUpResult (s : State) (a : Access) : State :=
  let clear := fun (k : Ctx) => { k with pendV := k.pendV &&& ~~~a.res.pends }
  (s.setCtx a.cell a.elem a.ctx clear).setAcc a.id fun a => { a with res := .none }

/-- Failed parts of an access issued again from their translation on, or bound to 0 and dropped; a skipped lane of FREG or FRES changes nothing, and a skipped LDX
that a block's format failed writes nothing (R286, R379). -/
def State.actAccess (s : State) (id : Nat) (again : Bool) : State :=
  let fix := fun (a : Access) (p : Part) => match p.st with
    | .failed .. =>
        if again then { p with st := .again }
        else { p with st := .done, bound := if a.isLoad && a.op != .freg && a.op != .fres then List.replicate p.size 0 else [] }
    | _ => p
  let s' := match s.acc? id with
    | some a => if !again && a.parts.any Part.badFormat then s.giveUpResult a else s
    | none => s
  s'.setAcc id fun a => { a with parts := a.parts.map (fix a) }

/-- An MWCAS paused by an uncorrectable word or a timeout: it is evaluated again from its block, or ends with zeros and no success; one
whose commit timed out sends its unacknowledged writes again, or abandons them (R156, R157, R379). -/
def State.actMwcas (s : State) (id : Nat) (again : Bool) : State :=
  match s.mw? id with
  | none => s
  | some m => match m.phase with
    | .committed =>
        let s := if again then (m.unacked.filterMap fun i => m.entries[i]?).foldl (fun s e => s.homeWrite e.2.1 (leBytes 8 e.2.2.2)) s
                 else s
        { s with mwops := s.mwops.filter (·.id != id) }
    | .paused =>
        if again then s.setMw id fun m => { m with phase := .waiting, entries := [], locked := [], start := 0, since := s.time }
        else s.mwEnd m (m.entries.map fun _ => 0) false false
    | _ => s

/-- A stream goes on, or closes with one last token of zeros (R73); an open that met a fault reads its descriptor again, or
completes with nothing pushed; a refused open is over already (R71, R302). -/
def State.actStream (s : State) (id : Nat) (again : Bool) : State :=
  match s.streams.find? (·.id == id) with
  | none => s
  | some k =>
      if k.opened || again then
        let go := fun (k : Stream) => { k with paused := none, cut := k.cut || !again }
        { s with streams := updateWhere (·.id == id) go s.streams }
      else
        let s := { s with streams := s.streams.filter fun (x : Stream) => x.id != id }
        (s.charge k.seat (-1)).setArc k.cell k.elem k.ctx (arcOf k.profile)

/-- A logged page is replayed, or its entries are discarded (R47). -/
def State.actLogged (s : State) (cell page asid : Nat) (again : Bool) : State :=
  let mine := fun (e : SideEntry) => e.page == page && e.asid == asid
  let go := fun (es : List SideEntry) =>
    if again then updateWhere mine (fun e => { e with replaying := true }) es else es.filter fun e => !mine e
  s.setCell cell fun c => { c with sideLog := go c.sideLog }

/-- Row r of a cell's banks as bytes: a register row holds eight lanes of one register (R59, R385). -/
def Cell.rowBytes (c : Cell) (r : Nat) : List Nat :=
  if r < 2048 then
    let k := 2 * (r / 256) + r / 128 % 2
    let reg := (c.ctx (k / 4) (k % 4)).v.getD (r / 8 % 16) []
    bytesOfWords ((List.range 8).map fun i => lane reg (8 * (r % 8) + i))
  else memBytes c.sram (32 * r) 32

/-- Row r written. -/
def Cell.putRow (c : Cell) (r : Nat) (bs : List Nat) : Cell :=
  if r < 2048 then
    let k := 2 * (r / 256) + r / 128 % 2
    let ws := wordsOfBytes 8 bs
    let put := fun (old : Lanes) => tab fun l => if l / 8 = r % 8 then lane ws (l % 8) else lane old l
    c.setElem (k / 4) fun e => e.setCtx (k % 4) fun x => { x with v := modifyAt x.v (r / 8 % 16) put }
  else { c with sram := memStore c.sram (32 * r) bs }

/-- The row that a paused CTXIMG could not read, as zeros (R381). -/
def State.clearRow (s : State) (ref : Nat) : State :=
  let c := refCell ref
  let a := refSpa ref / 32 * 32
  let s := s.setCell c fun k => k.putRow (a / 32) (List.replicate 32 0)
  { s with upsets := s.upsets.filter fun u => !(u.place == .sram c && u.addr < a + 32 && a < u.addr + 8) }

/-- Resume, or skip, of a record (R379). DESIGN CHOICE (log 45): after a collective's fault either sets the arc of its ST.w. -/
def State.act (s : State) (r : OpenRecord) (again : Bool) : State :=
  let id := r.record.id
  let s : State := match r.of with
    | .firing c e x slot => if again then s else s.skipFiring c e x slot r.record.profile id
    | .brk .. | .done .. | .grow _ => s
    | .collective => s.setArc r.cell r.record.elem r.record.ctx (arcOf r.record.profile)
    | .logged cell page asid => s.actLogged cell page asid again
    | .shuttle c cmd => match s.shcmd? c cmd with
      | none => s
      | some x => if again then s.setShcmd c cmd fun x => { x with paused := none } else s.shuttleLeave c x
    | .heddle c cmd => match s.hcmd? c cmd with
      | none => s
      | some x =>
          if again then s.setHcmd c cmd fun x => { x with paused := none, started := false }
          else
            let s := match x.dst with
              | some d => s.setCtx c x.elem x.ctx fun k => { k with pendV := k.pendV &&& ~~~(regsMask d 1) }
              | none => s
            s.heddleLeave c x
    | .stream k => s.actStream k again
    | .arrival k =>
        if again then { s with arrivals := updateWhere (·.id == k) (fun a => { a with paused := none }) s.arrivals }
        else { s with arrivals := s.arrivals.filter (·.id != k) }
    | .access k _ => s.actAccess k again
    | .mwcas k => s.actMwcas k again
    | .image k =>
        if again then
          let s := if r.record.code = fUncorrectable && isRef r.record.addr then s.clearRow r.record.addr else s
          { s with images := updateWhere (·.id == k) (fun i => { i with paused := none }) s.images }
        else match s.images.find? (fun (x : ImageOp) => x.id == k) with
          | some i =>
              let s' := { s with images := s.images.filter fun (x : ImageOp) => x.id != k }
              s'.charge (s.cell i.cell).seat (-1)
          | none => s
    | .stall d i => s.setRegion d i fun k =>
        if k.launch = r.launch then { k with stalled := false, idle := 0, idleSince := s.time } else k
  s.releaseAll id

/-! FQACT (R377, R378, R381). -/

/-- A record's context belongs to a region that is stopped or saved: the action waits for its resume (R381). A context with a fired
MWCAS is not stopped yet: that operation completes first, behind what the record holds, or behind a logged page of its cell (R157). -/
def State.actWaits (s : State) (r : OpenRecord) : Bool :=
  (match r.of with | .image _ | .stall .. | .grow _ => false | _ => true) &&
  !(s.mwops.any fun m => (sameCtx m.cell m.elem m.ctx r.cell r.record.elem r.record.ctx ||
      match r.of with | .logged c _ _ => m.cell == c | _ => false) && m.active) &&
  (s.cells.any (fun c => c.id == r.cell && c.stopped) || s.saved.any fun v => v.cells.any (·.id == r.cell))

/-- An action is stored in the context's state (R381, R384). -/
def State.storeAction (s : State) (r : OpenRecord) (action : Nat) : State :=
  let note := fun (c : Cell) => c.setElem r.record.elem fun e => e.setCtx r.record.ctx fun k =>
    { k with stored := k.stored ++ [(r.record.id, action)] }
  let put := updateWhere (fun c : Cell => c.id == r.cell) note
  { s with cells := put s.cells, saved := s.saved.map fun v => { v with cells := put v.cells } }

/-- An action for the record has been stored already. -/
def State.actStored (s : State) (id : Nat) : Bool :=
  let has := fun (c : Cell) => c.elems.any fun e => e.ctxs.any fun k => k.stored.any (·.1 == id)
  s.cells.any has || s.saved.any fun v => v.cells.any has

/-- The open record of a die under a sequence number. -/
def State.openRecord (s : State) (die seq : Nat) : Option OpenRecord :=
  (s.die die).records.find? fun r => r.seq == some seq && !s.actStored r.record.id

def State.closeRecord (s : State) (die id : Nat) : State :=
  s.setDie die fun d => { d with records := d.records.filter (·.record.id != id) }

/-- An action that names no open record sets BADACT (R377, R378). -/
def State.badAct (s : State) (die : Nat) : State := s.setDie die fun d => { d with badact := true }

/-- What an action does to its record, which is closed: 1 resume, 2 skip, 3 terminate (R377, R379). DESIGN CHOICE (log 53): at a
termination other records of the launch stay open. -/
def State.perform (s : State) (r : OpenRecord) (action : Nat) : State :=
  if action = 3 then s.terminateLaunch r.launch else s.act r (action == 1)

/-- An action by sequence number: applied once, or stored while the context is stopped (R378, R381). -/
def State.fqAct (s : State) (die seq action : Nat) : State :=
  match s.openRecord die seq with
  | none => s.badAct die
  | some r => if s.actWaits r then s.storeAction r action else (s.closeRecord die r.record.id).perform r action

/-- FQACT_RESUME (R379). -/
def execFqactResume (die seq : Nat) (s : State) : Out := .next (s.fqAct die seq 1)
/-- FQACT_SKIP (R379). -/
def execFqactSkip (die seq : Nat) (s : State) : Out := .next (s.fqAct die seq 2)
/-- FQACT_TERMINATE (R379). -/
def execFqactTerminate (die seq : Nat) (s : State) : Out := .next (s.fqAct die seq 3)

/-- A write of FQACT (R377): action 0 does nothing. -/
def State.fqactWrite (s : State) (die v : Nat) : State :=
  let action := bits v 57 56
  if action = 0 then s else s.fqAct die (v % 2 ^ 32) action

/-- FQCONS_WRITE (R377, R378). -/
def execFqconsWrite (die value : Nat) (s : State) : Out := .next (s.fqconsSet die value)
/-- FQBASE_WRITE (R377). -/
def execFqbaseWrite (die value : Nat) (s : State) : Out := .next (s.fqbaseSet die value)

end Sys2Proof.Machine
end

