-- ==== Sys2Proof/Machine/Mmio.lean ====
section
/-! DEFINITION. Writes of the MMIO windows with all their effects, and the events of register writes
(00_scope.md R11; 01_address_spaces.md R19, R421; 02_translation_and_migration.md R56; 16_traps_and_preemption.md R377). -/

namespace Sys2Proof.Machine

/-- A register write that asks for an action on a fault record is followed by that action (R377). -/
def State.mmioWrite (s : State) (pa n v : Nat) (rs : Bool) : State :=
  let (w, o) := mmioWindow pa
  let s := s.regWrite pa n v rs
  if n == 8 && rs && w < 8 && o == 0x2018 then s.fqactWrite w v else s

/-- A store of bytes in an MMIO window by a context or an engine, register by register (R421); one of another module acts there
(log 9). -/
def State.mmioStore (s : State) (pa : Nat) (bs : List Nat) (rs : Bool) : State :=
  if moduleOf pa == s.hub.modnum then
    (wordPieces pa bs.length).foldl (fun s p => s.mmioWrite (pa + p.1) p.2 (leNat (sliceBytes bs p.1 p.2)) rs) s
  else s

/-! The register events. -/

/-- MIGPUSH (R56). -/
def execMigpush (value : Nat) (s : State) : Out := .next (s.migpushSet value)
/-- MIGFREE (R56, R57). -/
def execMigfree (value : Nat) (s : State) : Out := .next (s.migfreeSet value)
/-- MIGCTL_WRITE (R56). -/
def execMigctlWrite (value : Nat) (s : State) : Out := .next (s.migctlSet value)
/-- MIGEVQ_WRITE (R56). -/
def execMigevqWrite (value : Nat) (s : State) : Out := .next (s.migevqSet value)
/-- MIGEVC_WRITE (R56). -/
def execMigevcWrite (value : Nat) (s : State) : Out := .next (s.migevcSet value)
/-- MIGHBASE_WRITE (R56). -/
def execMighbaseWrite (value : Nat) (s : State) : Out := .next (s.mighbaseSet value)
/-- QPUSH (R351, R352). -/
def execQpush (queue value : Nat) (s : State) : Out := .next (s.qpushSet queue value)
/-- PWRCAP_WRITE (R373). -/
def execPwrcapWrite (value : Nat) (s : State) : Out := .next (s.pwrcapSet value)
/-- MODNUM_WRITE (R19). -/
def execModnumWrite (value : Nat) (s : State) : Out := .next (s.modnumSet value)
/-- SERRCNT_WRITE (R88). -/
def execSerrcntWrite (die value : Nat) (s : State) : Out := .next (s.serrcntSet die value)
/-- A window of this module that an agent of the hub's side reaches; one behind the PCIe port reaches the hub's alone (R401). -/
def State.reaches (s : State) (agent : HostAgent) (pa : Nat) : Bool :=
  inMmio pa && moduleOf pa == s.hub.modnum && (agent != .pcie || inHubWindow pa)

/-- MMIO_REGISTER_WRITE (R421) by a host core, a PCIe agent, or hub firmware, which alone writes resident-only registers (R11, R401,
R402). -/
def execMmioRegisterWrite (pa size : Nat) (w : RegWrite) (s : State) : Out :=
  .next (if s.reaches w.agent pa then s.mmioWrite pa size w.value (w.agent == .firmware) else s)

end Sys2Proof.Machine
end

