-- ==== Sys2Proof/Machine/Engine.lean ====
section
/-! DEFINITION. The reads and writes of engines, and the heddle queue at work
(01_address_spaces.md R31 to R33; 05_consistency.md R131 to R133; 13_heddle_array.md R310 to R322). -/

namespace Sys2Proof.Machine

/-! Virtual memory (R31). -/

/-- A load of n bytes within a line by an engine, with a cache hint; MMIO registers are read one by one (R31, R69, R131, R421). -/
def State.engineLoadPiece (s : State) (cell : Option Nat) (die asid : Nat) (res : Bool) (k : Kind) (hint va n : Nat) : HubResult :=
  match s.translate cell die asid res k va with
  | (.fault code cause, _) => .fault code cause va
  | (.mig .., _) | (.busy, _) => .wait
  | (.ok pa leaf _, s) =>
      if inMmio pa then .ok (s.mmioLoad pa n res) s
      else s.readPiece cell hint pa leaf va n

/-- A store within a line by an engine (R31, R132). -/
def State.engineStorePiece (s : State) (cell : Option Nat) (die asid : Nat) (res : Bool) (hint va : Nat) (bs : List Nat) : HubResult :=
  match s.translate cell die asid res .store va with
  | (.fault code cause, _) => .fault code cause va
  | (.mig .., _) | (.busy, _) => .wait
  | (.ok pa leaf _, s) =>
      if inMmio pa then .ok [] (s.mmioStore pa bs res)
      else s.writePiece cell hint pa leaf va bs

/-- A load of a range, line by line; a fault is reported at the first failing piece. -/
def State.engineLoad (s : State) (cell : Option Nat) (die asid : Nat) (res : Bool) (hint va n : Nat) : HubResult :=
  (linePieces va n).foldl (fun r p => match r with
    | .ok bs s => match s.engineLoadPiece cell die asid res .load hint ((va + p.1) % 2 ^ 64) p.2 with
      | .ok new s => .ok (bs ++ new) s
      | r => r
    | r => r) (.ok [] s)

/-- A store of a range, line by line. -/
def State.engineStore (s : State) (cell : Option Nat) (die asid : Nat) (res : Bool) (hint va : Nat) (bs : List Nat) : HubResult :=
  (linePieces va bs.length).foldl (fun r p => match r with
    | .ok _ s => s.engineStorePiece cell die asid res hint ((va + p.1) % 2 ^ 64) (sliceBytes bs p.1 p.2)
    | r => r) (.ok [] s)

/-- A load that the context fired earlier has not bound, an MWCAS of it is under way, or a description it named is unread: an
engine's writes come after them (R113, R131). -/
def State.loadsPending (s : State) (c e x seq : Nat) : Bool :=
  (s.accs.any fun a => sameCtx a.cell a.elem a.ctx c e x && a.seq < seq && a.op.binds a.res && a.parts.any Part.open) ||
  (s.mwops.any fun m => sameCtx m.cell m.elem m.ctx c e x && m.seq < seq && m.phase != .committed) ||
  !(s.unread c e x seq).isEmpty

/-- The lists of a context's work hold something fired before seq that waits for a handler or at a page (R381). -/
def State.heldEarlier (s : State) (c e x seq : Nat) : Bool :=
  let before := fun (c' e' x' n : Nat) => sameCtx c' e' x' c e x && n < seq
  s.accs.any (fun b => before b.cell b.elem b.ctx b.seq && (b.op == .waita || b.parts.any Part.bad)) ||
  s.watches.any (fun w => before w.cell w.elem w.ctx w.seq) ||
  s.mwops.any (fun m => before m.cell m.elem m.ctx m.seq && (m.phase == .paused || m.phase == .committed)) ||
  (s.cell c).sideLog.any fun n => n.elem == e && n.ctx == x && n.seq < seq

/-- A command of a stopped cell's heddle waits for an access of its context, or of its cell, that a handler holds (R381). -/
def State.heddleHeld (s : State) (c : Nat) (x : HCmd) : Bool :=
  ((s.loadsPending c x.elem x.ctx x.seq || s.fenced c x.elem x.ctx x.seq 8) && s.heldEarlier c x.elem x.ctx x.seq) ||
  (s.cellWaits c x.elem x.ctx && s.accs.any fun k => k.cell == c && k.passed.isSome && s.reported k.id)

/-! Ranges of a cell's SRAM (R32, R308). -/

/-- The first byte of a range that lies outside the banks of a role, or at or beyond 2^20. -/
def Cell.outside (c : Cell) (role : Role) (a n : Nat) : Option Nat :=
  if n = 0 then none
  else ((List.range ((a + n - 1) / 8192 + 1 - a / 8192)).map (a / 8192 + ·)).findSome? fun b =>
    if b < 128 && c.role b == role then none else some (max a (8192 * b))

/-! Commands of the heddle queue: ranges and checks at the start (R312, R315 to R318). -/

/-- The primary address of a command with its offset; a virtual one is a 64-bit sum, which R14 checks when it is used (R309). -/
def HCmd.primary (x : HCmd) : Nat :=
  let field := match x.opcode with
    | 0x6C => if prepSpad x.words then cw x.words 1 else cwAddr x.words
    | 0x73 => cwAddr x.words
    | _ => cw x.words 1
  wrapInt 64 ((field : Int) + x.offset)

/-- Bits of an element of HPREP's packed source. -/
def prepBits (ws : List Word) : Nat := match codeFmt (prepFmt ws) with | some f => elemBits f | none => 8
/-- Rows of an activation tile, or columns of a weight image. -/
def prepRows (ws : List Word) : Nat := if prepWeights ws then 256 else prepM ws

/-- The scratchpad ranges a command reads and writes (R306, R307, R318). -/
def HCmd.spadRanges (x : HCmd) : List (Nat × Nat) :=
  let ws := x.words
  match x.opcode with
  | 0x6C =>
      let k := prepK ws
      let src := if prepSpad ws
        then (List.range (prepRows ws)).map fun r => (x.primary + r * prepStride ws, 32 * k * prepBits ws) else []
      let dst := if prepWeights ws then (prepDst ws, 8192 * k * prepP ws + 2048 * k) else (prepDst ws, 520 * prepM ws * k)
      src ++ [dst]
  | 0x6D => [(x.primary, 8192 * loadK ws * cwPw ws + 2048 * loadK ws)]
  | 0x6E => [(x.primary, 520 * mmaM ws * mmaK ws)]
  | 0x70 => if x.dst.isSome then [] else [(cw ws 2, 1024 * (bits (cw ws 0) 5 0 + 1))]
  | _ => []

/-- The ACC range of a command (R308): `last` says that the cell ends its woven row, or is in none. -/
def HCmd.accRange (x : HCmd) (last : Bool) : Option (Nat × Nat) :=
  let m := bits (cw x.words 0) 5 0
  match x.opcode with
  | 0x6E => if last then some (cw x.words 2, 2048 * (m + 1)) else none
  | 0x71 => some (x.primary, 2048 * (m + 1))
  | 0x70 => if x.dst.isSome then some (x.primary + 2048 * m, 2048) else some (x.primary, 2048 * (m + 1))
  | _ => none

def HCmd.woven (x : HCmd) : Bool := x.opcode == 0x6E && mmaWoven x.words
def arrayPath (op : Nat) : Bool := op == 0x6D || op == 0x6E

/-- The cells of a cell's woven row, position 0 first (R321). -/
def State.wovenRow (s : State) (c : Cell) : List (Option Nat) :=
  match c.seat with
  | none => []
  | some t => (List.range (wovenLen c.draft.woven)).map fun j => s.cellOfSeat { t with pos := t.pos - c.draft.pos + j }

/-- The command of a row that a cell holds (R322). -/
def State.rowCommand (s : State) (c : Option Nat) (n : Nat) : Option (Nat × HCmd) :=
  c.bind fun id => ((s.cell id).heddle.queue.find? fun x => x.woven && x.wovenSeq == n).map fun x => (id, x)

/-- A cell's n-th row command has entered its queue (R322). -/
def State.rowEntered (s : State) (cell n : Nat) : Bool := (s.cell cell).heddle.wovenCount > n

/-- The row's commands cannot agree: one that has entered differs in M or PA, a cell of the row is none, or the neighbour from which rows
should come, or to which they should go, has left its queue too soon, as only a skipped command does. DEDUCED (log 34). -/
def State.rowBad (s : State) (c : Cell) (x : HCmd) : Bool :=
  let pos := c.draft.pos
  let skipped := fun (j id : Nat) => s.rowEntered id x.wovenSeq && x.progress < 64 * mmaM x.words &&
    (j == pos + 1 || (j + 1 == pos && x.chain0.isEmpty))
  c.draft.woven == 0 || ((s.wovenRow c).zip (List.range (s.wovenRow c).length)).any fun p =>
    match p.1, s.rowCommand p.1 x.wovenSeq with
    | none, _ => true
    | some _, some y => mmaM y.2.words != mmaM x.words || mmaPa y.2.words != mmaPa x.words
    | some id, none => skipped p.2 id

/-- The heddle shape checks of an HMMA at its start (R316, R322). -/
def State.mmaBad (s : State) (c : Cell) (x : HCmd) : Bool :=
  let r := c.heddle.record
  !r.valid || r.k != mmaK x.words || r.pw != cwPw x.words || r.hi != mmaHi x.words || (x.woven && s.rowBad c x)

/-- The fault a command meets at its start: code, cause and address (R312). DEDUCED (log 17). -/
def State.heddleFault (s : State) (c : Cell) (x : HCmd) : Option (Nat × Nat × Nat) :=
  let last := !x.woven || c.draft.pos + 1 == wovenLen c.draft.woven
  if x.opcode == 0x6E && s.mmaBad c x then some (fHeddleShape, 0, 0)
  else match (x.accRange last).bind fun r => c.outside .acc r.1 r.2 with
    | some a => some (fHeddleShape, 0, a)
    | none => (x.spadRanges.findSome? fun r => c.outside .scr r.1 r.2).map fun a => (fTranslation, 7, a)

/-- The lowest lane of m0 as a LANES mark (R375). -/
def lowMark (m : LaneMask) : Nat := match lowest m with | some l => 2 ^ l | none => 0

/-- The command reads virtual memory (R313). -/
def HCmd.readsMemory (x : HCmd) : Bool := (x.opcode == 0x6C && !prepSpad x.words) || x.opcode == 0x73

/-- A command pauses: its record is charged to the firing context, which is held (R312). -/
def State.heddlePause (s : State) (c : Nat) (x : HCmd) (code cause addr : Nat) : State :=
  let s := if x.readsMemory then s.countAt code (some c) (dieOf c) x.asid addr
    else if code = fUncorrectable then s.countUncorr (dieOf c) else s
  let (rid, s) := s.engineRecord c x.elem x.ctx x.slot x.opcode 0 (lowMark x.m0) code cause addr (.heddle c x.id)
  s.setHcmd c x.id fun k => { k with started := true, paused := some rid }

/-- The commands of a heddle queue that cannot go on before a handler acts: those that are paused or held, and those not started behind
one of them in queue order, on its path or by its slot (R310, R312). -/
def State.stuckIds (s : State) (c : Cell) : List Nat :=
  let behind := fun (x y : HCmd) => !x.started &&
    (!y.started || arrayPath y.opcode == arrayPath x.opcode || (syncSeten y.words && bit (syncWait x.words) (syncSet y.words)))
  (c.heddle.queue.foldl (fun (acc : List HCmd) x =>
    if x.paused.isSome || s.heddleHeld c.id x || acc.any (behind x) then acc ++ [x] else acc) []).map (·.id)

/-- A woven row that a stop cannot drain: a cell of it is gone, holds a stuck command of it, or has not fired its own yet, which a stopped
element no longer does. DEDUCED (log 34): such a command is saved as it stands. -/
def State.rowStuck (s : State) (c : Cell) (x : HCmd) : Bool :=
  x.woven && (s.wovenRow c).any fun p => match p with
    | none => true
    | some id => match s.rowCommand p x.wovenSeq with
      | some y => (s.stuckIds (s.cell id)).contains y.2.id
      | none => !s.rowEntered id x.wovenSeq

/-- The command, or one behind it in the queue, belongs to a woven row that another cell has started: a stop lets it go on, for the
row drains (R323). -/
def State.rowNeeds (s : State) (c : Cell) (x : HCmd) : Bool :=
  (c.heddle.queue.dropWhile (·.id != x.id)).any fun y => y.woven && !s.rowStuck c y && (s.wovenRow c).any fun p =>
    p != some c.id && match p with
      | none => false
      | some id => match s.rowCommand p y.wovenSeq with
        | some z => z.2.started
        | none => s.rowEntered id y.wovenSeq

/-- The command may start: oldest unstarted, released on its slots, its path free and its FENCEs kept (R121, R310, R312, R323). -/
def State.mayStart (s : State) (c : Cell) (x : HCmd) : Bool :=
  let before := c.heddle.queue.takeWhile (·.id != x.id)
  (!c.stopped || s.rowNeeds c x) &&
  before.all (fun y => !(syncSeten y.words && bit (syncWait x.words) (syncSet y.words))) &&
  c.heddle.queue.all (fun y => !(y.started && y.id != x.id && arrayPath y.opcode == arrayPath x.opcode)) &&
  !s.fenced c.id x.elem x.ctx x.seq 8

/-- HEDDLE_COMMAND_START (R310, R312): the oldest unstarted command starts, or pauses on a failed check. -/
def execHeddleCommandStart (cell : Nat) (s : State) : Out :=
  let c := s.cell cell
  .next (match c.heddle.queue.find? (!·.started) with
    | none => s
    | some x =>
        if !s.mayStart c x then s
        else match s.heddleFault c x with
          | some (code, cause, a) => s.heddlePause cell x code cause a
          | none => s.setHcmd cell x.id fun k => { k with started := true })

/-! Rows (R306 to R308, R314 to R319). -/

/-- The 256 FP32 values at an address of an SRAM. -/
def fpRow (sram : List Host.Cell) (a : Nat) : List Word := wordsOfBytes 256 (memBytes sram a 1024)
/-- Both chains of a row of an ACC tile (R308). -/
def accRow (sram : List Host.Cell) (base m : Nat) : List Word × List Word :=
  (fpRow sram (base + 2048 * m), fpRow sram (base + 2048 * m + 1024))
def zeroChains : List Word × List Word := (List.replicate 256 0, List.replicate 256 0)

/-- A row of an HMMA from the chains given (R316). -/
def HCmd.mma (x : HCmd) (c : Cell) (m : Nat) (ch : List Word × List Word) : List Word × List Word :=
  let k := mmaK x.words
  let t := x.primary
  let conts := (List.range (256 * k)).map fun i => memNat c.sram (t + 512 * (m * k) + 2 * i) 2
  let gx := memBytes c.sram (t + 512 * (mmaM x.words * k) + 8 * (m * k)) (8 * k)
  mmaRow (cwPw x.words) (mmaPa x.words) k (mmaHi x.words) c.heddle.weights c.heddle.wexp conts gx ch

/-- The ranges that row m of an HMMA reads, ACC tile apart. -/
def HCmd.mmaReads (x : HCmd) (m : Nat) : List (Nat × Nat) :=
  let k := mmaK x.words
  [(x.primary + 512 * (m * k), 512 * k), (x.primary + 512 * (mmaM x.words * k) + 8 * (m * k), 8 * k)]

/-- The first address of a list of ranges at which an uncorrectable word of the cell's SRAM begins or is met (R87, R312). -/
def State.sramBad (s : State) (c : Nat) (rs : List (Nat × Nat)) : Option Nat :=
  rs.findSome? fun r =>
    leastBy id ((s.upsets.filter fun u => u.double && u.meets (.sram c) r.1 r.2).map fun u => max r.1 u.addr)
/-- Single-bit errors that a read of a list of ranges meets are corrected and counted (R87, R88). -/
def State.correctRanges (s : State) (c : Nat) (rs : List (Nat × Nat)) : State := rs.foldl (fun s r => s.correctSram c r.1 r.2) s

/-- n elements of HPREP's row, from described blocks: the words, or the end of the read (R314). -/
def State.prepBlocks (s : State) (c : Nat) (x : HCmd) (need : Nat) : Nat → Nat → List Nat → HubResult
  | 0, _, acc => .ok (acc.take need) s
  | n + 1, va, acc =>
      if acc.length ≥ need then .ok (acc.take need) s
      else if (s.cell c).pendingBytes x.asid va 64 then .wait
      else match s.translateFor c x.asid .ldx va with
        | (.fault code cause, _) => .fault code cause va
        | (.mig .., _) | (.busy, _) => .wait
        | (.ok pa leaf _, s') =>
            let desc := s'.descNow (s'.l1Of (some c) pa leaf) (leafManaged leaf) pa
            match codeFmt (desc / 256) with
            | none => .fault fFormat 0 va
            | some f => match s'.engineLoadPiece (some c) (dieOf c) x.asid ((s.cell c).asid == 0) .ldx 0 va 64 with
              | .ok bs s' =>
                  let ws := (widenBytes (desc / 256) (desc % 256) bs (512 / elemBits f)).map (·.toNat)
                  s'.prepBlocks c x need n ((va + 64) % 2 ^ 64) (acc ++ ws)
              | r => r

/-- A row, or a column, of HPREP's source as FP32 words (R314). -/
def State.prepRow (s : State) (c : Nat) (x : HCmd) (r : Nat) : HubResult :=
  let ws := x.words
  let need := 256 * prepK ws
  let a := x.primary + r * prepStride ws
  if prepSpad ws then
    let n := 32 * prepK ws * prepBits ws
    match s.sramBad c [(a, n)] with
    | some b => .fault fUncorrectable 0 b
    | none => .ok ((widenBytes (prepFmt ws) (prepScale ws) (memBytes (s.cell c).sram a n) need).map (·.toNat)) (s.correctSram c a n)
  else s.prepBlocks c x need (need / 16 + 1) (a % 2 ^ 64) []

/-- The groups of a row quantised: integers in order, and exponents (R305). -/
def prepQuant (ws : List Word) (row : List Nat) : List Int × List Nat :=
  let fixed := if prepFixed ws then some (prepWexp ws) else none
  let gs := (groupsOf (8 * prepK ws) (row.map (BitVec.ofNat 32))).map fun g => quant g (prepP ws) fixed
  (gs.flatMap (·.1), gs.map (·.2))

/-- A run of bytes as the 32-byte rows of SRAM that it covers, each with its address (R310). -/
def sramRows (a : Nat) (bs : List Nat) : List (Nat × List Nat) :=
  (List.range (bs.length / 32 + 2)).filterMap fun i =>
    let lo := max a ((a / 32 + i) * 32)
    let hi := min (a + bs.length) ((a / 32 + i + 1) * 32)
    if lo < hi then some (lo, sliceBytes bs (lo - a) (hi - lo)) else none

/-- The rows of a result, which the steps that follow write one by one (R310, R314). -/
def State.setOut (s : State) (c : Nat) (x : HCmd) (rows : List (Nat × List Nat)) : State :=
  s.setHcmd c x.id fun k => { k with out := rows }

/-- The rows of a row of an activation tile (R306). -/
def HCmd.actRows (x : HCmd) (m : Nat) (row : List Nat) : List (Nat × List Nat) :=
  let ws := x.words
  let k := prepK ws
  let (q, gx) := prepQuant ws row
  sramRows (prepDst ws + 512 * (m * k)) (q.flatMap fun i => leBytes 2 (wrapInt 16 i)) ++
  sramRows (prepDst ws + 512 * (prepM ws * k) + 8 * (m * k)) gx

/-- The rows of a weight image, from the 256 columns (R307). -/
def HCmd.weightRows (x : HCmd) (cols : List (List Nat)) : List (Nat × List Nat) :=
  let ws := x.words
  let k := prepK ws
  let p := prepP ws
  let qs := cols.map (prepQuant ws)
  let planeByte := fun pass plane r b =>
    ((List.range 8).map fun i =>
      if bit (wrapInt 16 ((qs.getD (8 * b + i) ([], [])).1.getD (256 * pass + r) 0)) plane then 2 ^ i else 0).sum
  let slices := (List.range k).flatMap fun pass => (List.range p).flatMap fun plane =>
    (List.range 256).flatMap fun r => (List.range 32).map fun b => planeByte pass plane r b
  let exps := (List.range (8 * k)).flatMap fun g => qs.map fun q => q.2.getD g 0
  sramRows (prepDst ws) (slices ++ exps)

/-- Every column of HPREP's source. -/
def State.prepCols (s : State) (c : Nat) (x : HCmd) : HubResult :=
  (List.range 256).foldl (fun r n => match r with
    | .ok acc s => match s.prepRow c x n with
      | .ok row s => .ok (acc ++ row) s
      | r => r
    | r => r) (.ok [] s)

/-- Consecutive pieces of a list. -/
def piecesOf (len : Nat) : Nat → List Nat → List (List Nat)
  | 0, _ => []
  | n + 1, xs => xs.take len :: piecesOf len n (xs.drop len)

/-- The 32-byte rows that an HWLOAD reads: planes first, then exponents (R315). -/
def HCmd.loadRows (x : HCmd) : Nat :=
  let np := (planesOf (cwPw x.words) (bit (cw x.words 0) 31)).2
  loadK x.words * (256 * np + 64)
/-- The scratchpad address of row i of those (R307). -/
def HCmd.loadAddr (x : HCmd) (i : Nat) : Nat :=
  let pw := cwPw x.words
  let (base, np) := planesOf pw (bit (cw x.words 0) 31)
  let planes := 256 * (loadK x.words * np)
  if i < planes then x.primary + 8192 * (i / 256 / np * pw + base + i / 256 % np) + 32 * (i % 256)
  else x.primary + 8192 * loadK x.words * pw + 32 * (i - planes)
/-- The weight store and the exponent table with rows lo to hi of an HWLOAD copied (R315). -/
def HCmd.wload (x : HCmd) (c : Cell) (lo hi : Nat) : Heddle :=
  let np := (planesOf (cwPw x.words) (bit (cw x.words 0) 31)).2
  let planes := 256 * (loadK x.words * np)
  let rows := fun (a b : Nat) => (List.range (b - a)).flatMap fun i => memBytes c.sram (x.loadAddr (a + i)) 32
  let h := c.heddle
  { h with weights := putBytes (sliceBytes h.weights 0 65536) (32 * lo) (rows lo (min hi planes))
           wexp := putBytes (sliceBytes h.wexp 0 16384) (32 * (max lo planes - planes)) (rows (max lo planes) hi) }

/-- HWLOAD: its rows are read up to the first that meets an uncorrectable word; the record is set after the last (R312, R315). -/
def State.runLoad (s : State) (cell : Nat) (x : HCmd) : HubResult :=
  let n := x.loadRows
  let lo := x.progress
  let bad := (List.range (n - lo)).find? fun i => s.sramSpoiled cell (x.loadAddr (lo + i)) 32
  let hi := match bad with | some i => lo + i | none => n
  let h := x.wload (s.cell cell) lo hi
  match bad with
  | some i =>
      let a := x.loadAddr (lo + i)
      let s := (s.setHeddle cell fun _ => h).setHcmd cell x.id fun k => { k with progress := hi }
      .ok [1] (s.heddlePause cell x fUncorrectable 0 ((s.sramBad cell [(a, 32)]).getD a))
  | none =>
      let record : HRecord := ⟨true, loadK x.words, cwPw x.words, bit (cw x.words 0) 31⟩
      .ok [] ((s.correctRanges cell x.spadRanges).setHeddle cell fun _ => { h with record := record })

/-- 32-byte rows that one logical row of a command stands for, and its logical rows (R323, R422). -/
def HCmd.unit (x : HCmd) : Nat :=
  match x.opcode with
  | 0x6C => if prepWeights x.words then 256 * prepK x.words * prepP x.words else 16 * prepK x.words
  | 0x6D => x.loadRows
  | 0x70 => if x.dst.isSome then 1 else 32
  | 0x6E | 0x71 => 64
  | _ => 1
def HCmd.steps (x : HCmd) : Nat :=
  match x.opcode with
  | 0x6C => if prepWeights x.words then 1 else prepM x.words
  | 0x6E | 0x71 => bits (cw x.words 0) 5 0 + 1
  | 0x70 => if x.dst.isSome then 1 else bits (cw x.words 0) 5 0 + 1
  | 0x73 => (cbCount x.words + 7) / 8
  | _ => 1

/-- The rows of an ACC row. -/
def accOut (base m : Nat) (ch : List Word × List Word) : List (Nat × List Nat) :=
  sramRows (base + 2048 * m) (bytesOfWords ch.1 ++ bytesOfWords ch.2)

/-- The m-th logical row of a command computed: the rows of its result wait to be written; or a fault, or a wait (R314 to R319). -/
def State.heddleRow (s : State) (cell : Nat) (x : HCmd) (m : Nat) : HubResult :=
  let c := s.cell cell
  let ws := x.words
  let w0 := cw ws 0
  let guard := fun (rs : List (Nat × Nat)) (go : State → State) => match s.sramBad cell rs with
    | some a => HubResult.fault fUncorrectable 0 a
    | none => .ok [] (go (s.correctRanges cell rs))
  match x.opcode with
  | 0x6C =>
      if prepWeights ws then match s.prepCols cell x with
        | .ok bs s => .ok [] (s.setOut cell x (x.weightRows (piecesOf (256 * prepK ws) 256 bs)))
        | r => r
      else match s.prepRow cell x m with
        | .ok row s => .ok [] (s.setOut cell x (x.actRows m row))
        | r => r
  | 0x6D => s.runLoad cell x
  | 0x6E =>
      guard (x.mmaReads m ++ if mmaAcc ws then [(cw ws 2 + 2048 * m, 2048)] else []) fun s =>
        s.setOut cell x (accOut (cw ws 2) m (x.mma c m (if mmaAcc ws then accRow c.sram (cw ws 2) m else zeroChains)))
  | 0x71 => .ok [] (s.setOut cell x (accOut x.primary m zeroChains))
  | 0x70 =>
      let row := if x.dst.isSome then bits w0 5 0 else m
      guard [(x.primary + 2048 * row, 2048)] fun s =>
        let (c0, c1) := accRow c.sram x.primary row
        let out := (c0.zip c1).map fun p => BitVec.ofNat 32 (drainVal (bits w0 31 24) p.1.toNat p.2.toNat)
        let clear := if bit w0 16 then accOut x.primary row zeroChains else []
        match x.dst with
        | some d =>
            let s := s.writeRegOf cell x.elem x.ctx d x.m0 fun l => lane out (64 * bits w0 9 8 + l)
            (s.setCtx cell x.elem x.ctx fun k => { k with pendV := k.pendV &&& ~~~(regsMask d 1) }).setOut cell x clear
        | none => s.setOut cell x (sramRows (cw ws 2 + 1024 * m) (bytesOfWords out) ++ clear)
  | _ =>
      let n := min 8 (cbCount ws - 8 * m)
      let va := (x.primary + 32 * m) % 2 ^ 64
      if c.pendingBytes x.asid va (4 * n) then .wait
      else match s.engineLoad (some cell) (dieOf cell) x.asid (c.asid == 0) 0 va (4 * n) with
        | .ok bs s =>
            let first := cbFirst ws + 8 * m
            let wiped := fun (u : Upset) => u.place == .codebook cell && 4 * first ≤ u.addr && u.addr + 8 ≤ 4 * (first + n)
            .ok [] ({ s with upsets := s.upsets.filter fun u => !wiped u }.setCell cell fun k =>
              { k with codebook := (wordsOfBytes n bs).zip (List.range n) |>.foldl (fun b (w : Word × Nat) => b.set (first + w.2) w.1) k.codebook })
        | r => r

/-- A logical row is done: its last row is written (R310, R323). -/
def State.rowDone (s : State) (cell : Nat) (x : HCmd) : State :=
  let s := s.setHcmd cell x.id fun k => { k with progress := k.progress + k.unit, chain0 := [], chain1 := [] }
  if x.progress / x.unit + 1 ≥ x.steps && !x.woven then s.heddleLeave cell x else s

/-- The next 32-byte row of a result is written. Any of those left may be it, for a reader on the other path finds each old or new: a
free value chooses (R310; Config.openValue 310). -/
def State.writeRow (s : State) (cell : Nat) (x : HCmd) : State :=
  let i := Config.openValue 310 (x.id * 2 ^ 32 + x.progress * 2 ^ 16 + x.out.length) % x.out.length
  match x.out[i]? with
  | none => s
  | some (a, bs) =>
      let left := x.out.eraseIdx i
      let s := (s.sramStore cell a bs).setOut cell x left
      if left.isEmpty then s.rowDone cell x else s

/-- A started command may take its next step: it is not paused, a stop lets it go on, and the loads that its context fired earlier,
and those that its cell waits for, are bound (R113, R118, R323). -/
def State.heddleGoes (s : State) (c : Cell) (x : HCmd) : Bool :=
  x.started && x.paused.isNone && (!c.stopped || arrayPath x.opcode || !x.out.isEmpty || s.rowNeeds c x) &&
  !s.loadsPending c.id x.elem x.ctx x.seq && !s.cellWaits c.id x.elem x.ctx

/-- HEDDLE_COMMAND_COMPLETE (R310, R312, R323): the next step of a started command: the next 32-byte row of a result is written, or the
next result computed; after its last one the command leaves the queue. The results of a woven command are WOVEN_PARTIAL's. -/
def execHeddleCommandComplete (cell id : Nat) (s : State) : Out :=
  .next (match s.hcmd? cell id with
    | none => s
    | some x =>
        let m := x.progress / x.unit
        if !s.heddleGoes (s.cell cell) x then s
        else if !x.out.isEmpty then s.writeRow cell x
        else if x.woven then (if m ≥ x.steps then s.heddleLeave cell x else s)
        else match s.heddleRow cell x m with
          | .wait => s
          | .fault code cause a => s.heddlePause cell x code cause a
          | .ok paused s => match s.hcmd? cell id with
            | none => s
            | some y => if y.out.isEmpty && paused.isEmpty then s.rowDone cell y else s)

/-- The chains a cell of a woven row starts row m from: those that reached it, or at position 0 zeros or the row of the last
cell's tile (R322). -/
def State.wovenIn (s : State) (c : Cell) (x last : HCmd) (lastCell m : Nat) : Option (List Word × List Word) :=
  if c.draft.pos != 0 then (if x.chain0.isEmpty then none else some (x.chain0, x.chain1))
  else if !mmaAcc last.words then some zeroChains
  else some (accRow (s.cell lastCell).sram (cw last.words 2) m)

/-- Every cell of the row has started its command and none is paused; a cell whose command is complete no longer counts (R322). -/
def State.rowGoes (s : State) (c : Cell) (x : HCmd) : Bool :=
  (s.wovenRow c).all fun p => match s.rowCommand p x.wovenSeq with
    | some y => y.2.started && y.2.paused.isNone
    | none => p.any fun id => s.rowEntered id x.wovenSeq

/-- WOVEN_PARTIAL (R322): once every cell of the row has started, a cell adds its groups to row `progress` and sends the chains on, or, at
the last position, has the row written; commands that do not agree end in a shape fault in every cell. -/
def execWovenPartial (cell id : Nat) (s : State) : Out :=
  .next (match s.hcmd? cell id with
    | none => s
    | some x =>
        let c := s.cell cell
        let row := s.wovenRow c
        let m := x.progress / x.unit
        let len := wovenLen c.draft.woven
        if !x.woven || !x.started || x.paused.isSome then s
        else if s.rowBad c x then s.heddlePause cell x fHeddleShape 0 0
        else match s.rowCommand (row.getD (len - 1) none) x.wovenSeq with
        | none => s
        | some (lastCell, last) =>
            if !s.heddleGoes c x || !s.rowGoes c x || !x.out.isEmpty || m ≥ x.steps then s
            else
              let tile := if c.draft.pos == 0 && mmaAcc last.words then s.sramBad lastCell [(cw last.words 2 + 2048 * m, 2048)] else none
              match tile, s.wovenIn c x last lastCell m, s.sramBad cell (x.mmaReads m) with
              | some a, _, _ => s.heddlePause lastCell last fUncorrectable 0 a
              | none, none, _ => s
              | none, some _, some a => s.heddlePause cell x fUncorrectable 0 a
              | none, some ch, none =>
                  let out := x.mma c m ch
                  let s := s.correctRanges cell (x.mmaReads m)
                  if c.draft.pos + 1 ≥ len then s.setOut cell x (accOut (cw x.words 2) m out)
                  else match s.rowCommand (row.getD (c.draft.pos + 1) none) x.wovenSeq with
                    | some (nextCell, y) =>
                        if y.started && y.paused.isNone && y.chain0.isEmpty && y.out.isEmpty && y.progress == x.progress then
                          (s.rowDone cell x).setHcmd nextCell y.id fun k => { k with chain0 := out.1, chain1 := out.2 }
                        else s
                    | none => s)

end Sys2Proof.Machine
end

