-- ==== Sys2Proof/Machine/Eligible.lean ====
section
/-! DEFINITION. Eligibility of slots and the element's arbiter (07_execution_model.md R166, R167). -/

namespace Sys2Proof.Machine

/-- What a context waited for has happened, and its instruction may refire (R36, R45, R46, R71); the wait at a migrating leaf ends with the
re-walk of MIG_LEAF_WRITTEN alone (R43), and a DRAFTSW goes on by DRAFTSW_COMMIT alone (R258). -/
def State.waitOver (s : State) (c : Cell) : Wait → Bool
  | .migLeaf .. => false
  | .walk asid vas => vas.all fun va => !s.walkBusy c.id (dieOf c.id) asid .load va
  | .sideRoom pages => 64 - c.sideLog.length ≥ pages
  | .sideByte id page => !c.sideLog.any fun e => e.id == id && e.page == page
  | .configPeriod .. => false
  | .streamSlot slice => (s.streams.filter (·.slice == slice)).length < 16

/-- A context may fire (R166 condition 6). -/
def State.ctxReady (s : State) (c : Cell) (k : Ctx) : Bool :=
  k.heldBy.isEmpty && !k.asleep && k.multi.isNone && k.wait.all (s.waitOver c)

/-- Conditions 1 to 5 of R166 for a slot. -/
def slotReady (c : Cell) (e x i : Nat) : Bool :=
  let el := c.elem e
  let k := el.ctx x
  let d := c.draftElem e
  match d.slots[i]? with
  | none => false
  | some w =>
      let en := d.entries.getD (w.toNat / 2 ^ 26) 0
      entryMatches en x k.p.toNat &&
      (bitsSet 8 (eNeedIn en)).all (fun n => !(el.chan n).tokens.isEmpty) &&
      (bitsSet 8 (eNeedOut en)).all (fun n => el.outs.getD n .idle == .held) &&
      match decode w with
      | some ins => !k.pending (usesOf ins)
      | none => false

/-- The lowest-numbered eligible slot of a context (R166, R167). -/
def State.eligibleSlot (s : State) (c : Cell) (e x : Nat) : Option Nat :=
  if c.running && !c.stopped && s.ctxReady c (c.ctx e x)
  then (List.range (c.draftElem e).slots.length).find? (slotReady c e x) else none

/-- The context and slot that the arbiter of an element selects (R167). -/
def State.arbitrate (s : State) (c : Cell) (e : Nat) : Option (Nat × Nat) :=
  let last := (c.elem e).lastFired
  ((List.range 4).map fun i => (last + 1 + i) % 4).findSome? fun x => (s.eligibleSlot c e x).map fun i => (x, i)

/-- The firing that an element is due: that of its occupant, else the arbiter's choice, when its cycles are over (R167,
R170). -/
def State.elementFiring (s : State) (c : Cell) (e : Nat) : Option Firing :=
  let el := c.elem e
  if s.time < el.busyUntil || el.ctxs.any (·.multi.isSome) then none
  else match el.occupant with
    | some (x, i) =>
        if c.stopped then none
        else if (el.ctx x).heldBy.isEmpty then some ⟨c.id, e, x, i⟩ else none
    | none => (s.arbitrate c e).map fun p => ⟨c.id, e, p.1, p.2⟩

end Sys2Proof.Machine
end

