-- ==== Sys2Proof/Machine/GfxOps.lean ====
section
/-! DEFINITION. Rasterisation, texture addressing, traversal and blending arithmetic
(14_isa_graphics.md R327 to R349). -/

namespace Sys2Proof.Machine

/-- BINB (R327). -/
def binbVal (a b : Word) : Word :=
  let x0 := a.toNat % 65536; let y0 := a.toNat / 65536
  let x1 := b.toNat % 65536; let y1 := b.toNat / 65536
  if x1 < x0 ∨ y1 < y0 then 0
  else
    let dx := x1 / 32 - x0 / 32
    let dy := y1 / 32 - y0 / 32
    let tiles := (List.range 16).foldl (fun acc k =>
      if k % 4 ≤ min 3 dx ∧ k / 4 ≤ min 3 dy then acc + 2 ^ k else acc) 0
    BitVec.ofNat 32 (tiles + if dx > 3 ∨ dy > 3 then 65536 else 0)

/-- Coordinate lane k of the triangle setup: bits [23:0] sign-extended (R328). -/
def coord (a : Lanes) (k : Nat) : Int := signed 24 (lane a k).toNat

/-- The three directed edges of a triangle: (xP, yP, xQ, yQ) for a→b, b→c, c→a (R328). -/
def edges (a : Lanes) : List (Int × Int × Int × Int) :=
  let (xa, ya, xb, yb, xc, yc) := (coord a 0, coord a 1, coord a 2, coord a 3, coord a 4, coord a 5)
  [(xa, ya, xb, yb), (xb, yb, xc, yc), (xc, yc, xa, ya)]

/-- Twice the signed area (R328). -/
def area2 (a : Lanes) : Int :=
  (coord a 2 - coord a 0) * (coord a 5 - coord a 1) - (coord a 3 - coord a 1) * (coord a 4 - coord a 0)

/-- The edge function times sg, at n times a point: n * E(p) for p = (sx / n, sy / n) (R328, R330). -/
def edgeAt (sg : Int) (e : Int × Int × Int × Int) (n sx sy : Int) : Int :=
  sg * ((e.2.2.1 - e.1) * (sy - n * e.2.1) - (e.2.2.2 - e.2.1) * (sx - n * e.1))

/-- The top-left rule of R328 for one edge at one centre. -/
def insideEdge (sg : Int) (e : Int × Int × Int × Int) (px py : Int) : Bool :=
  let v := edgeAt sg e 1 px py
  let ex := -sg * (e.2.2.2 - e.2.1)
  let ey := sg * (e.2.2.1 - e.1)
  v > 0 || (v == 0 && (ex > 0 || (ex == 0 && ey > 0)))

/-- Block origin with bits [2:0] ignored (R328). -/
def blockOrigin (b : Lanes) : Nat × Nat :=
  let w := (lane b 0).toNat
  (w % 65536 / 8 * 8, w / 65536 / 8 * 8)

/-- The fine mask of EDGE (R328). -/
def edgeFine (a b : Lanes) : LaneMask :=
  let (bx, by_) := blockOrigin b
  let sz := (lane b 1).toNat
  let w := min (sz % 65536) 16384
  let h := min (sz / 65536) 16384
  let a2 := area2 a
  let sg : Int := if a2 > 0 then 1 else -1
  if a2 = 0 then 0
  else maskOf fun l =>
    let px := bx + l % 8
    let py := by_ + l / 8
    px < w && py < h && (edges a).all fun e => insideEdge sg e (256 * px + 128 : Nat) (256 * py + 128 : Nat)

/-- The lanes of the coarse pixel of rate k that contains lane l (R329). -/
def coarseLanes (k l : Nat) : List Nat :=
  let x0 := l % 8 / k * k
  let y0 := l / 8 / k * k
  (List.range (k * k)).map fun i => 8 * (y0 + i / k) + x0 + i % k

/-- The anchor mask of EDGE for coarse pixels of k by k (R328). -/
def edgeAnchor (k : Nat) (fine : LaneMask) : LaneMask :=
  maskOf fun l => l % 8 % k = 0 && l / 8 % k = 0 && (coarseLanes k l).any (inMask fine)

/-- BARY for one lane (R330). A vanishing exact denominator has no stated quotient: a free value (log 6). -/
def baryVal (a b : Lanes) (l : Nat) : Word :=
  let code := (lane b 2).toNat % 4
  let k := if code = 1 then 2 else if code = 2 then 4 else 1
  let bsel := bit (lane b 2).toNat 2
  let fine : LaneMask := BitVec.ofNat 64 ((lane b 3).toNat + 2 ^ 32 * (lane b 4).toNat)
  let s := (coarseLanes k l).filter (inMask fine)
  let a2 := area2 a
  let q := fun i => fpDecode .fp32 (lane a (6 + i)).toNat
  let pos := fun i => match q i with | .num neg m _ => !neg && m > 0 | _ => false
  let parts := fun i => match q i with | .num _ m e => (m, e) | _ => (0, 0)
  if s.isEmpty then 0
  else if a2 = 0 || !(pos 0 && pos 1 && pos 2) then canonNan32
  else
    let sg : Int := if a2 > 0 then 1 else -1
    let (bx, by_) := blockOrigin b
    let n : Int := s.length
    let sx : Int := (s.map fun i => 256 * (bx + i % 8) + 128).sum
    let sy : Int := (s.map fun i => 256 * (by_ + i / 8) + 128).sum
    let es := edges a
    let at_ := fun i => edgeAt sg (es.getD i (0, 0, 0, 0)) n sx sy
    let e0 := min (parts 0).2 (min (parts 1).2 (parts 2).2)
    let m := fun i => (((parts i).1 * 2 ^ ((parts i).2 - e0).toNat : Nat) : Int)
    let wa := at_ 1 * m 0
    let wb := at_ 2 * m 1
    let wc := at_ 0 * m 2
    let num := if bsel then wc else wb
    let den := wa + wb + wc
    if den = 0 then BitVec.ofNat 32 (Config.openValue 330 (leNat (bytesOfWords (a ++ b))))
    else BitVec.ofNat 32 (roundFinite .fp32 .rne ((num < 0) != (den < 0) && num != 0) num.natAbs den.natAbs 0).1

/-- ZCMP (R331). -/
def zcmpLane (a b : Word) : Bool := !isNan32 a && !isNan32 b && cmpKey a < cmpKey b

/-- One texture coordinate wrapped by ADDR (R332). -/
def texCoord (addr : Nat) (x : Int) (size : Nat) : Nat :=
  let s : Int := size
  match addr with
  | 0 => (x % s).toNat
  | 2 => let m := x % (2 * s); if m < s then m.toNat else (2 * s - 1 - m).toNat
  | _ => (max 0 (min x (s - 1))).toNat

/-- TEXB (R332). -/
def texbVal (a b : Word) : Word :=
  let w := b.toNat
  let lt := w % 4
  let wb := min (bits w 11 8) 13
  let hb := min (bits w 15 12) 13
  let addr := bits w 17 16
  let x := texCoord addr (signed 16 a.toNat) (8 * 2 ^ wb)
  let y := texCoord addr (signed 16 (a.toNat / 65536)) (8 * 2 ^ hb)
  let z := x % 2 + y % 2 * 2 + x / 2 % 2 * 4 + y / 2 % 2 * 8 + x / 4 % 2 * 16 + y / 4 % 2 * 32
  BitVec.ofNat 32 ((y / 8 * 2 ^ wb + x / 8) * (64 * 2 ^ lt) + z * 2 ^ lt)

/-! Interval arithmetic on FP32 (R340). -/

/-- The interval of every value. -/
def wholeLine : Word × Word := (0xFF800000, 0x7F800000)

/-- An exact value rounded into FP32 in a directed mode; none for a NaN. -/
def roundEnd (mode : RoundMode) (v : FVal) : Option Word :=
  match v with
  | .nan _ => none
  | _ => some (BitVec.ofNat 32 (roundVal .fp32 mode v).1)

/-- The quotient of two values rounded into FP32; none where it has no defined value. -/
def divEnd (mode : RoundMode) (a b : FVal) : Option Word :=
  match a, b with
  | .nan _, _ | _, .nan _ => none
  | .inf _, .inf _ => none
  | .inf s, .num t _ _ => some (infWord (s != t))
  | .num s _ _, .inf t => some (if s != t then 0x80000000 else 0)
  | .num s m e, .num t n k =>
      if n = 0 then (if m = 0 then none else some (infWord (s != t)))
      else some (BitVec.ofNat 32 (roundFinite .fp32 mode (s != t) m n (e - k)).1)
where
  infWord (neg : Bool) : Word := if neg then 0xFF800000 else 0x7F800000

def val32 (a : Word) : FVal := fpDecode .fp32 a.toNat

/-- The least and the greatest of candidate ends; the whole line when any is undefined. -/
def hull (los his : List (Option Word)) : Word × Word :=
  if (los ++ his).any Option.isNone then wholeLine
  else
    let ls := los.filterMap id
    let hs := his.filterMap id
    (ls.foldl (fun x y => if cmpKey y < cmpKey x then y else x) (ls.headD 0),
     hs.foldl (fun x y => if cmpKey x < cmpKey y then y else x) (hs.headD 0))

def iadd (a b : Word × Word) : Word × Word :=
  hull [roundEnd .rd (addVal (val32 a.1) (val32 b.1))] [roundEnd .ru (addVal (val32 a.2) (val32 b.2))]

def isub (a b : Word × Word) : Word × Word :=
  hull [roundEnd .rd (addVal (val32 a.1) (negVal (val32 b.2)))]
    [roundEnd .ru (addVal (val32 a.2) (negVal (val32 b.1)))]

/-- The four endpoint pairs of two intervals. -/
def endPairs (a b : Word × Word) : List (FVal × FVal) :=
  [(val32 a.1, val32 b.1), (val32 a.1, val32 b.2), (val32 a.2, val32 b.1), (val32 a.2, val32 b.2)]

def imul (a b : Word × Word) : Word × Word :=
  hull ((endPairs a b).map fun p => roundEnd .rd (mulVal p.1 p.2))
    ((endPairs a b).map fun p => roundEnd .ru (mulVal p.1 p.2))

def idivI (a b : Word × Word) : Word × Word :=
  hull ((endPairs a b).map fun p => divEnd .rd p.1 p.2) ((endPairs a b).map fun p => divEnd .ru p.1 p.2)

def point (a : Word) : Word × Word := (a, a)
def two32 : Word × Word := point 0x40000000

/-- The interval of the RD and RU roundings of a rational. -/
def ratInterval (num : Int) (den : Nat) : Word × Word :=
  (BitVec.ofNat 32 (roundFinite .fp32 .rd (num < 0) num.natAbs den 0).1,
   BitVec.ofNat 32 (roundFinite .fp32 .ru (num < 0) num.natAbs den 0).1)

/-- w of R333: the interval of sqrt(n) / 127, exact to 2^-100 before the rounding. -/
def quatW (n : Nat) : Word × Word :=
  let k := isqrt (n * 2 ^ 200)
  let k' := if k * k = n * 2 ^ 200 then k else k + 1
  (BitVec.ofNat 32 (roundFinite .fp32 .rd false k (127 * 2 ^ 100) 0).1,
   BitVec.ofNat 32 (roundFinite .fp32 .ru false k' (127 * 2 ^ 100) 0).1)

/-- Component i of a triple of intervals. -/
def comp (v : List (Word × Word)) (i : Nat) : Word × Word := v.getD (i % 3) (0, 0)

/-- The cross product of two triples of intervals (R340). -/
def cross (u v : List (Word × Word)) : List (Word × Word) :=
  (List.range 3).map fun i =>
    isub (imul (comp u (i + 1)) (comp v (i + 2))) (imul (comp u (i + 2)) (comp v (i + 1)))

/-- ROT(v) of R340 for the quaternion u, w. -/
def rotate (u : List (Word × Word)) (w : Word × Word) (v : List Word) : List (Word × Word) :=
  let pv := v.map point
  let c := cross u pv
  let cc := cross u c
  (List.range 3).map fun i =>
    iadd (iadd (comp pv i) (imul (imul two32 w) (comp c i))) (imul two32 (comp cc i))

/-- Quaternion vector part, squared length and validity of a node (R333). -/
def nodeQ (node : List Nat) (i : Nat) : Int := signed 8 (node.getD i 0)
def nodeQ2 (node : List Nat) : Int := nodeQ node 0 ^ 2 + nodeQ node 1 ^ 2 + nodeQ node 2 ^ 2
def nodeCount (node : List Nat) : Nat := node.getD 3 0 % 8

/-- The node-format checks of R333. -/
def nodeOk (node : List Nat) : Bool :=
  let c := node.getD 3 0
  nodeQ2 node ≤ 16129 && 1 ≤ c && c ≤ 6 &&
    (List.range 3).all fun k => node.getD (16 + k) 0 != 255 &&
      isFinite32 (BitVec.ofNat 32 (fieldAt node (4 + 4 * k) 4))

/-- Reference i of a node (R333). -/
def nodeRef (node : List Nat) (i : Nat) : Word := BitVec.ofNat 32 (fieldAt node (56 + 4 * i) 4)

/-- Whether an interval contains zero, and whether it is [0, 0]. -/
def hasZero (a : Word × Word) : Bool := cmpKey a.1 ≤ 0 && 0 ≤ cmpKey a.2
def isZeroPoint (a : Word × Word) : Bool := cmpKey a.1 = 0 && cmpKey a.2 = 0

/-- One bound ORG_k + byte * 2^(SCL_k - 127), the product exact (R340). -/
def boxBound (node : List Nat) (k b : Nat) : Word × Word :=
  let org := fpDecode .fp32 (fieldAt node (4 + 4 * k) 4)
  let off := FVal.num false b ((node.getD (16 + k) 0 : Int) - 127)
  hull [roundEnd .rd (addVal org off)] [roundEnd .ru (addVal org off)]

/-- The slab interval of one axis; none when empty (R340). -/
def slabAxis (node : List Nat) (i k : Nat) (o d : Word × Word) : Option (Word × Word) :=
  let lo := boxBound node k (node.getD (20 + 6 * i + k) 0)
  let hi := boxBound node k (node.getD (20 + 6 * i + 3 + k) 0)
  if isZeroPoint d then
    if cmpKey o.1 ≤ cmpKey hi.2 && cmpKey lo.1 ≤ cmpKey o.2 then some wholeLine else none
  else if hasZero d then some wholeLine
  else
    let t1 := idivI (isub lo o) d
    let t2 := idivI (isub hi o) d
    some (if cmpKey t1.1 ≤ cmpKey t2.1 then t1.1 else t2.1, if cmpKey t1.2 ≤ cmpKey t2.2 then t2.2 else t1.2)

/-- SLAB for child i: the key when it hits (R340). -/
def slab (node : List Nat) (i : Nat) (o d : List (Word × Word)) (tmax : Word) : Option Word :=
  let nonEmpty := (List.range 3).all fun k => node.getD (20 + 6 * i + k) 0 ≤ node.getD (20 + 6 * i + 3 + k) 0
  let ts := (List.range 3).filterMap fun k => slabAxis node i k (comp o k) (comp d k)
  if !nonEmpty || ts.length < 3 then none
  else
    let enter := ts.foldl (fun x t => if cmpKey x < cmpKey t.1 then t.1 else x) 0xFF800000
    let exit := ts.foldl (fun x t => if cmpKey t.2 < cmpKey x then t.2 else x) 0x7F800000
    if cmpKey enter ≤ cmpKey exit && 0 ≤ cmpKey exit && cmpKey enter ≤ cmpKey tmax then
      some (if cmpKey enter < 0 then 0 else enter)
    else none

/-! Ray state of one lane: the list of its v0 to v15 (R337). -/

def rayReg (r : List Word) (i : Nat) : Word := r.getD i 0
def raySet (r : List Word) (i : Nat) (x : Word) : List Word := r.set i x

/-- The stack count; 8 to 15 acts as 7 (R337). -/
def rayCount (r : List Word) : Nat := min (bits (rayReg r 7).toNat 11 8) 7

/-- v7 with its stack count replaced (R337). -/
def raySetCount (r : List Word) (c : Nat) : List Word :=
  raySet r 7 (BitVec.ofNat 32 (setBits (rayReg r 7).toNat 11 8 c))

def raySetField (r : List Word) (hi lo v : Nat) : List Word :=
  raySet (raySetCount r (rayCount r)) 7
    (BitVec.ofNat 32 (setBits (rayReg (raySetCount r (rayCount r)) 7).toNat hi lo v))

/-- RSPUSH of a reference (R338). -/
def rayPush (r : List Word) (x : Word) : List Word :=
  let c := rayCount r
  let (r, c) := if c = 7 then
      (raySetField ((List.range 6).foldl (fun q i => raySet q (9 + i) (rayReg r (10 + i))) r) 7 7 1, 6)
    else (r, c)
  raySetCount (raySet r (8 + (c + 1)) x) (c + 1)

/-- RSPOP with the root reference (R338). -/
def rayPop (r : List Word) (root : Word) : List Word :=
  let c := rayCount r
  if c > 0 then raySetCount (raySet r 8 (rayReg r (8 + c))) (c - 1)
  else if bit (rayReg r 7).toNat 7 then raySet (raySetField r 7 7 0) 8 root
  else raySet (raySetCount r 0) 8 0xFFFFFFFF

def refDone (w : Word) : Bool := w == 0xFFFFFFFF
def refLeaf (w : Word) : Bool := bit w.toNat 31
def refPart (w : Word) : Nat := bits w.toNat 30 25
def refIndex (w : Word) : Nat := w.toNat % 2 ^ 25
def refFirst (w : Word) : Nat := bits w.toNat 24 4
def refTris (w : Word) : Nat := w.toNat % 16 + 1

/-- The status of a lane after a step: 0 continue, 1 leaf, 2 done, 3 migrate; migrate writes v7[5:0] (R337). -/
def rayStatus (localPart : Nat) (r : List Word) : Nat × List Word :=
  let v8 := rayReg r 8
  if refDone v8 then (2, r)
  else if refPart v8 != localPart then (3, raySetField r 5 0 (refPart v8))
  else if refLeaf v8 then (1, r)
  else (0, r)

/-- The children a ray hits, with their keys (R339, R340). -/
def nodeHits (node : List Nat) (r : List Word) : List (Nat × Word) :=
  let o := (List.range 3).map (rayReg r)
  let d := (List.range 3).map fun i => rayReg r (3 + i)
  let bad := o.any (fun x => !isFinite32 x) || d.any isNan32 || isNan32 (rayReg r 6)
  if bad then []
  else
    let u := (List.range 3).map fun i => ratInterval (nodeQ node i) 127
    let w := quatW (16129 - nodeQ2 node).toNat
    let o' := rotate u w o
    let d' := rotate u w d
    (List.range (nodeCount node)).filterMap fun i => (slab node i o' d' (rayReg r 6)).map fun k => (i, k)

/-- Insertion of a hit in the order nearest first, ties to the lower child. -/
def insertHit (h : Nat × Word) : List (Nat × Word) → List (Nat × Word)
  | [] => [h]
  | x :: xs => if cmpKey h.2 < cmpKey x.2 then h :: x :: xs else x :: insertHit h xs

/-- One TNODE step of a lane on a well-formed node (R339). -/
def tnodeLane (node : List Nat) (root : Word) (r : List Word) : List Word :=
  match (nodeHits node r).foldl (fun acc h => insertHit h acc) [] with
  | [] => rayPop r root
  | n :: rest =>
      let r' := rest.reverse.foldl (fun q h => rayPush q (nodeRef node h.1)) r
      raySet (raySetCount r' (rayCount r')) 8 (nodeRef node n.1)

/-- RNE of an exact value. -/
def rne32 (v : FVal) : Word := BitVec.ofNat 32 (roundVal .fp32 .rne v).1

/-- The sign of an exact value. -/
def sgn : FVal → Int
  | .num neg m _ => if m = 0 then 0 else if neg then -1 else 1
  | _ => 0

/-- The test of one 48-byte triangle record: the distance when it is accepted (R341). -/
def triHit (tri : List Nat) (cullb : Bool) (r : List Word) : Option Word :=
  let d := fun k => rayReg r (3 + k % 3)
  let mag := fun k => (d k).toNat % 2 ^ 31
  let kz := if mag 0 ≥ mag 1 ∧ mag 0 ≥ mag 2 then 0 else if mag 1 ≥ mag 2 then 1 else 2
  let flip := cmpKey (d kz) < 0
  let kx := if flip then (kz + 2) % 3 else (kz + 1) % 3
  let ky := if flip then (kz + 1) % 3 else (kz + 2) % 3
  let t := fun v k => rne32 (addVal (fpDecode .fp32 (fieldAt tri (12 * v + 4 * k) 4)) (negVal (val32 (rayReg r k))))
  let q := fun a b => divEnd .rne (val32 a) (val32 b)
  match q (d kx) (d kz), q (d ky) (d kz), q 0x3F800000 (d kz) with
  | some sx, some sy, some sz =>
      let shear := fun v k s => rne32 (addVal (val32 (t v k))
        (negVal (val32 (rne32 (mulVal (val32 s) (val32 (t v kz)))))))
      let x := fun v => shear v kx sx
      let y := fun v => shear v ky sy
      let z := fun v => rne32 (mulVal (val32 sz) (val32 (t v kz)))
      let used := [sx, sy, sz] ++ (List.range 3).flatMap fun v => [t v kx, t v ky, t v kz, x v, y v, z v]
      if cmpKey (d kz) = 0 || used.any (fun w => !isFinite32 w) then none
      else
        let cr := fun i j => addVal (mulVal (val32 (x i)) (val32 (y j))) (negVal (mulVal (val32 (y i)) (val32 (x j))))
        let u := cr 2 1
        let v := cr 0 2
        let w := cr 1 0
        let det := addVal (addVal u v) w
        let ss := [sgn u, sgn v, sgn w]
        let num := addVal (addVal (mulVal u (val32 (z 0))) (mulVal v (val32 (z 1)))) (mulVal w (val32 (z 2)))
        if sgn det = 0 || !(ss.all (· ≥ 0) || ss.all (· ≤ 0)) || (cullb && sgn det < 0) then none
        else match divEnd .rne num det with
          | some dist =>
              if 0 < cmpKey dist && !isNan32 (rayReg r 6) && cmpKey dist < cmpKey (rayReg r 6) then some dist else none
          | none => none
  | _, _, _ => none

/-- A leaf's triangles tested in ascending order: the ray and the accepted (distance, primitive) pairs (R341). -/
def leafGo (cullb any : Bool) : List (List Nat) → List Word → List (Word × Nat) → List Word × List (Word × Nat) × Bool
  | [], r, hits => (r, hits, false)
  | tri :: rest, r, hits =>
      match triHit tri cullb r with
      | some t =>
          let r' := raySetField (raySet r 6 t) 6 6 1
          let hits' := hits ++ [(t, fieldAt tri 36 4)]
          if any then (raySet r' 8 0xFFFFFFFF, hits', true) else leafGo cullb any rest r' hits'
      | none => leafGo cullb any rest r hits

/-- TISECT of one lane on its leaf's triangle records (R341). -/
def tisectLane (tris : List (List Nat)) (cullb any : Bool) (root : Word) (r : List Word) :
    List Word × List (Word × Nat) :=
  let (r', hits, ended) := leafGo cullb any tris r []
  (if ended then r' else rayPop r' root, hits)

/-! Blending (R346 to R349). -/

/-- One 8-bit channel (R349); mode 0 over, 1 add, 2 min, 3 max, 4 rep. -/
def blendChannel (mode s d sa : Nat) : Nat :=
  match mode with
  | 0 => min 255 (s + (roundMag .rne false (d * (255 - sa)) 255).1)
  | 1 => min (s + d) 255
  | 2 => min s d
  | 3 => max s d
  | _ => s

/-- A premultiplied RGBA8 pixel (R346, R349). -/
def blendPixel (mode : Nat) (s d : Nat) : Nat :=
  (List.range 4).foldl (fun acc i =>
    acc + blendChannel mode (s / 2 ^ (8 * i) % 256) (d / 2 ^ (8 * i) % 256) (s / 2 ^ 24 % 256) * 2 ^ (8 * i)) 0

/-- ZTEST of R347 and R349. -/
def zTest (zctl : Nat) (z stored : Word) : Bool :=
  let t := zctl % 8
  if t = 0 then true
  else if isNan32 stored then false
  else match t with
    | 1 => cmpKey z < cmpKey stored
    | 2 => cmpKey z ≤ cmpKey stored
    | 3 => cmpKey z > cmpKey stored
    | 4 => cmpKey z ≥ cmpKey stored
    | 5 => cmpKey z = cmpKey stored
    | _ => false

/-- Fields of a raster token's tag (R346). -/
def tagFinal (t : Nat) : Bool := bit t 31
def tagNull (t : Nat) : Bool := bit t 30
def tagRate (t : Nat) : Nat := bits t 29 28
def tagHalf (t : Nat) : Nat := bits t 27 27
def tagBlock (t : Nat) : Nat := bits t 26 23
def tagSeq (t : Nat) : Nat := t % 2 ^ 23

/-- The pixel of the tile that lane k of a token covers: its index 32y + x (R346). -/
def tokenPixel (t k : Nat) : Nat :=
  let b := tagBlock t
  32 * (8 * (b / 4) + 4 * tagHalf t + k / 8) + 8 * (b % 4) + k % 8

/-- The lane, within the token, of the top-left pixel of the coarse pixel of lane k (R349). -/
def anchorLane (t k : Nat) : Nat :=
  let r := 2 ^ tagRate t
  8 * (k / 8 / r * r) + k % 8 / r * r

/-- APPLY of R349: for each pixel written, its index, its new colour and, under ZWRITE, its new depth. -/
def applyToken (mode zctl tag : Nat) (pay : Lanes) (colour depth : Nat → Nat) : List (Nat × Nat × Option Nat) :=
  if tagNull tag then []
  else (List.range 32).filterMap fun k =>
    let z := lane pay (32 + k)
    let p := tokenPixel tag k
    if isNan32 z || !zTest zctl z (BitVec.ofNat 32 (depth p)) then none
    else some (p, blendPixel mode (lane pay (anchorLane tag k)).toNat (colour p),
      if bit zctl 3 then some z.toNat else none)

end Sys2Proof.Machine
end

