-- ==== Sys2Proof/Machine/Graphics.lean ====
section
/-! DEFINITION. Rasterisation, traversal, ray packets and blending (14_isa_graphics.md R325 to R350). -/

namespace Sys2Proof.Machine

/-! Rasterisation (R327 to R332). -/

/-- BINB (R327). -/
def execBinb (t : Fin 64) (d : Dst) (a b : Src) (s : State) : Out :=
  .next ((s.put t d fun l => binbVal (s.rd a l) (s.rd b l)).endFiring t 0)

/-- EDGE (R326, R328): the anchor mask to mD, the fine mask to mD + 1, both whole. -/
def execEdge (t : Fin 64) (d : MaskReg) (a b : Src) (k : Fin 4) (s : State) : Out :=
  let fine := edgeFine (s.src a) (s.src b)
  .next (((s.writeMask d.val (edgeAnchor (2 ^ k.val) fine)).writeMask (d.val + 1) fine).endFiring t 1)

/-- BARY (R326, R330). -/
def execBary (t : Fin 64) (d : Dst) (a b : Src) (s : State) : Out :=
  .next ((s.put t d fun l => baryVal (s.src a) (s.src b) l).endFiring t 3)

/-- ZCMP (R331). -/
def execZcmp (t : Fin 64) (d : MaskReg) (a b : Src) (s : State) : Out :=
  .next (s.compare t d fun l => zcmpLane (s.rd a l) (s.rd b l))

/-- TEXB (R332). -/
def execTexb (t : Fin 64) (d : Dst) (a b : Src) (s : State) : Out :=
  .next ((s.put t d fun l => texbVal (s.rd a l) (s.rd b l)).endFiring t 0)

/-! The ray stack (R337, R338). -/

/-- The ray of lane l of a context: v0 to v15. -/
def Ctx.ray (k : Ctx) (l : Nat) : List Word := (List.range 16).map fun i => lane (k.v.getD i []) l

/-- v6 to v15 written in the lanes of a mask, changed or not (R337). -/
def State.writeRays (s : State) (c e x : Nat) (m : LaneMask) (ray : Nat → List Word) : State :=
  (List.range 10).foldl (fun s i => s.writeRegOf c e x (6 + i) m fun l => rayReg (ray l) (6 + i)) s

/-- RSPUSH (R338). -/
def execRspush (t : Fin 64) (a : Src) (s : State) : Out :=
  let c := s.cur
  .next ((s.writeRays c.cell c.elem c.ctx s.m0 fun l => rayPush (s.curCtx.ray l) (s.rd a l)).endFiring t 0)

/-- RSPOP (R338). -/
def execRspop (t : Fin 64) (a : Src) (s : State) : Out :=
  let c := s.cur
  .next ((s.writeRays c.cell c.elem c.ctx s.m0 fun l => rayPop (s.curCtx.ray l) (s.rd a l)).endFiring t 0)

/-! Traversal (R333 to R342). -/

/-- The 64-bit address in constants i and i + 1 (R336). -/
def addrConst (consts : List Word) (i : Nat) : Nat := (consts.getD i 0).toNat + 2 ^ 32 * (consts.getD (i + 1) 0).toNat

/-- The profile of traversal accesses: package scope, plain, no arc (R342). -/
def packagePlain : Nat := 2

/-- A lane acts: its v8 is an interior node, or a leaf, of the local partition (R339, R341). -/
def rayActs (leaf : Bool) (mode : Nat) (r : List Word) : Bool :=
  let w := rayReg r 8
  !refDone w && refPart w == mode % 64 && refLeaf w == leaf

/-- The first address and the number of bytes that a lane reads: the fields of a node, or the triangles of a leaf
(R333, R334, R335). -/
def rayRead (leaf : Bool) (consts : List Word) (w : Word) : Nat × Nat :=
  if leaf then ((addrConst consts 2 + 48 * refFirst w) % 2 ^ 64, 48 * refTris w)
  else ((addrConst consts 0 + 128 * refIndex w) % 2 ^ 64, 80)

/-- The lanes of a traversal whose node is malformed, from the bytes of each lane (R333). -/
def badNodes (leaf : Bool) (acts : List Nat) (bytes : Nat → List Nat) : List Nat :=
  if leaf then [] else acts.filter fun l => !nodeOk (bytes l)

/-- The record of malformed nodes (R342, R375). -/
def nodeFault (consts : List Word) (ray : Nat → List Word) (bad : List Nat) : FaultInfo :=
  mkFault fNodeFormat 0 ((bad.map laneMark).foldl Nat.lor 0)
    (rayRead false consts (rayReg (ray (bad.headD 0)) 8)).1

/-- The rays of the lanes after the step, and the hits as (lane, record address, value), from the bytes of each lane (R339, R341). -/
def traversalResults (leaf : Bool) (mode : Nat) (consts : List Word) (acts : List Nat) (rays : List (Nat × List Word))
    (bytes : Nat → List Nat) : List (Nat × List Word) × List (Nat × Nat × Nat) :=
  let root := consts.getD 4 0
  let hb := addrConst consts 5
  let one := fun (p : Nat × List Word) =>
    if !acts.contains p.1 then (p, [])
    else if leaf then
      let n := refTris (rayReg p.2 8)
      let tris := (List.range n).map fun i => sliceBytes (bytes p.1) (48 * i) 48
      let (r, hits) := tisectLane tris (bit mode 9) (bit mode 8) root p.2
      ((p.1, r), hits.map fun h => (p.1, (hb + 8 * ((rayReg p.2 7).toNat / 4096)) % 2 ^ 64, h.1.toNat * 2 ^ 32 + h.2))
    else ((p.1, tnodeLane (bytes p.1) root p.2), [])
  let rs := rays.map one
  (rs.map (·.1), if hb = 0 then [] else rs.flatMap (·.2))

/-- The firing begins a traversal instruction under an identifier, whose destinations are pending (R326). -/
def State.beginTraversal (s : State) (t : Fin 64) (tr : Traversal) : State :=
  let s := { s with traversals := s.traversals ++ [tr] }
  let s := s.setCurCtx fun k => { k with pendV := k.pendV ||| 0xFFC0, pendM := k.pendM ||| 0xE }
  s.endFiring t 0

/-- A load of the current firing may be performed now: no earlier access, acquire or FENCE holds it back (R111, R117, R121). -/
def State.loadFree (s : State) (asid : Nat) (p : Part) : Bool :=
  let (id, s') := s.enter .load .none packagePlain asid [p]
  match s'.acc? id with
  | some a => !s'.blocked a 0 p
  | none => true

/-- Translated reads of n bytes each performed as loads of a cell, in order, MMIO registers one by one (R342, R350, R421). -/
def State.readNow (s : State) (cell n : Nat) (rs : List (Nat × Nat × Trans)) : HubResult :=
  rs.foldl (fun r x => match r, x.2.2 with
    | .ok bs s, .ok pa leaf _ =>
        if inMmio pa then .ok (bs ++ s.mmioLoad pa n ((s.cell cell).asid == 0)) s
        else match s.readPiece (some cell) 0 pa leaf x.2.1 n with
          | .ok new s => .ok (bs ++ new) s
          | r => r
    | r, _ => r) (.ok [] s)

/-- The bytes of a lane's reads of eight bytes, in address order. -/
def laneReads (ls : List (Nat × Nat)) (bs : List Nat) (l : Nat) : List Nat :=
  ((ls.zip (List.range ls.length)).filter (·.1.1 == l)).flatMap fun x => sliceBytes bs (8 * x.2) 8

/-- TNODE and TISECT (R336, R339, R341, R342): the bases and every page are checked, the nodes or triangles are read as loads of eight
bytes each, and the nodes and the pages of the hit records are checked; where one fails nothing is done. Then the hit records are
issued as 64-bit signed-minimum reductions. While an earlier access or FENCE, or a busy line, holds a read back, the firing is tried
again. DESIGN CHOICE (log 31): the reads are performed in the step of the firing, so that a node found malformed leaves every effect of
the firing undone (R41). -/
def State.fireTraversal (s : State) (t : Fin 64) (b : Src) (leaf : Bool) : State :=
  let c := s.cur
  let consts := s.curDraft.consts
  let asid := s.asidOf c.cell c.elem c.ctx
  let mode := (s.rd b 0).toNat
  let k := s.curCtx
  let rays := (lanesOf s.m0).map fun l => (l, k.ray l)
  let off := ([(0, 128), (2, 16), (5, 8)].filter fun p => addrConst consts p.1 % p.2 != 0).map fun p => addrConst consts p.1
  match off with
  | x :: xs => s.takeFault packagePlain (mkFault fAlignment 0 s.firingLanes (xs.foldl min x))
  | [] =>
      let acts := (lanesOf s.m0).filter fun l => rayActs leaf mode (k.ray l)
      let ls := acts.flatMap fun l =>
        let (a, n) := rayRead leaf consts (rayReg (k.ray l) 8)
        (List.range (n / 8)).map fun i => (l, (a + 8 * i) % 2 ^ 64)
      if s.outstanding c.cell + acts.length > 512 then s.occupy
      else match s.curCell.pendingWait asid 8 (ls.map (·.2)) with
        | some w => s.stay w
        | none =>
            let (rs, s) := s.translateAll asid .load ls
            match failure laneMark rs, waitOf asid .load rs with
            | some f, _ => s.takeFault packagePlain f
            | none, some w => s.stay w
            | none, none =>
                if !rs.all fun r => s.loadFree asid (mkPart s r.1 r.2.1 8 r.2.2 [] 0) then s.spend 0
                else match s.readNow c.cell 8 rs with
                  | .wait => s.spend 0
                  | .fault code cause a =>
                      (s.countAt code (some c.cell) (dieOf c.cell) asid a).takeFault packagePlain
                        (mkFault code cause (((ls.filter (·.2 == a)).map fun l => laneMark l.1).foldl Nat.lor 0) a)
                  | .ok bs s => match badNodes leaf acts (laneReads ls bs) with
                    | x :: xs => s.takeFault packagePlain (nodeFault consts k.ray (x :: xs))
                    | [] =>
                        let (after, hits) := traversalResults leaf mode consts acts rays (laneReads ls bs)
                        let hs := hits.map fun h => (h.1, h.2.1)
                        match s.curCell.pageWait asid (hs.map (·.2)) with
                        | some w => s.stay w
                        | none =>
                            let (hs, s) := s.translateAll asid .atomic hs
                            match failure laneMark hs, waitOf asid .atomic hs with
                            | some f, _ => s.takeFault packagePlain f
                            | none, some w => s.stay w
                            | none, none =>
                                let parts := (hs.zip hits).map fun x => mkPart s x.1.1 x.1.2.1 8 x.1.2.2 (leBytes 8 x.2.2.2) 0
                                let s' := if parts.isEmpty then s else (s.enter (.atomic 0x59) .none packagePlain asid parts).2
                                let (id, s') := s'.newId
                                (s'.beginTraversal t ⟨id, c.cell, c.elem, c.ctx, s.m0, mode % 64, acts, after⟩).enterMerges
                                  (s'.accs.drop s.accs.length)

/-- TNODE (R339, R342). -/
def execTnode (t : Fin 64) (b : Src) (s : State) : Out := .next (s.fireTraversal t b false)

/-- TISECT (R341, R342). -/
def execTisect (t : Fin 64) (b : Src) (s : State) : Out := .next (s.fireTraversal t b true)

/-- The end of a traversal instruction: v6 to v15 of the lanes it acted on, v7 of the migrating lanes, and m1 to m3
(R337). -/
def State.endTraversal (s : State) (t : Traversal) : State :=
  let ray := fun l => ((t.after.find? (·.1 == l)).map (·.2)).getD []
  let st := fun l => (rayStatus t.here (ray l)).1
  let of_ := fun k => maskOf fun l => inMask t.m0 l && st l == k
  let s := s.writeRays t.cell t.elem t.ctx (maskOf t.acts.contains) fun l => (rayStatus t.here (ray l)).2
  let s := s.writeRegOf t.cell t.elem t.ctx 7 (of_ 3) fun l => rayReg (rayStatus t.here (ray l)).2 7
  let s := s.setCtx t.cell t.elem t.ctx fun k =>
    { k with m := ((k.m.set 1 (of_ 1)).set 2 (of_ 2)).set 3 (of_ 3)
             pendV := k.pendV &&& ~~~0xFFC0, pendM := k.pendM &&& ~~~0xE }
  { s with traversals := s.traversals.filter (·.id != t.id) }

/-- TRAVERSAL_COMPLETE (R337): the reads return, and the ray state and the status masks are written. -/
def execTraversalComplete (id : Nat) (s : State) : Out :=
  .next (match s.traversals.find? (·.id == id) with
    | some t => if s.cells.any (·.id == t.cell) then s.endTraversal t else s
    | none => s)

/-- A state on which a meaning acts as the given firing; the current firing is put back. -/
def State.asFiring (s : State) (f : Firing) (g : State → State) : State := { g { s with cur := f } with cur := s.cur }

/-! Ray packets (R343 to R345). -/

/-- The trigger entry number of a slot's word (R209). -/
def State.trgOf (s : State) (f : Firing) : Fin 64 :=
  Fin.ofNat 64 ((((s.cell f.cell).draftElem f.elem).slots.getD f.slot 0).toNat / 2 ^ 26)

/-- The 17 tokens of a ray packet (R343). -/
def packetOf (cell : Nat) (k : Ctx) (m : LaneMask) (seat : Option Seat) : List Token :=
  let ls := lanesOf m
  let n := ls.length
  let header : Token :=
    { tag := BitVec.ofNat 32 (2 ^ 31 + n), charge := seat, stream := none,
      lanes := tab fun i => if i = 0 then BitVec.ofNat 32 n else if i = 1 then BitVec.ofNat 32 cell else 0 }
  header :: (List.range 16).map fun r =>
    { tag := BitVec.ofNat 32 r, charge := seat, stream := none,
      lanes := tab fun j => match ls[j]? with | some l => lane (k.v.getD r []) l | none => 0 }

/-- The capacity of the stage queue that an output channel leads to (R343). -/
def State.queueRoom (s : State) (c e n : Nat) : Nat :=
  match s.routeTarget (s.cell c) (s.routeOf c e n) with
  | some (.queue l st) => ((s.queues.find? fun q => q.launch == l && q.stage == st).map (·.capacity)).getD 0
  | _ => 0

/-- RAYOUT (R343): with no lane nothing is sent and the reservation is kept; else 16 more reservations are asked for, and
the packet leaves at RAYOUT_SEND. -/
def execRayout (t : Fin 64) (o : ChanNo) (s : State) : Out :=
  let c := s.cur
  .next (if s.m0 = 0 then s.endFiring t 0
    else if s.queueRoom c.cell c.elem o.val < 17 then s.takeFault 0 (mkFault fFormat 0 s.firingLanes 0)
    else match s.routeTarget s.curCell (s.routeOf c.cell c.elem o.val) with
      | none => s
      | some q =>
          let s := (List.range 16).foldl (fun s _ => s.request (.ray c.cell c.elem c.ctx) q) s
          let s := s.setElem c.cell c.elem fun k => { k with outs := k.outs.set o.val .used }
          s.setCurCtx fun k => { k with multi := some (.rayout c.slot o.val 0 0) })

/-- RAYOUT_SEND (R326, R343): with its 16 further reservations granted, the packet is sent and the firing ends. -/
def execRayoutSend (cell elem ctx : Nat) (s : State) : Out :=
  .next (match (s.ctxOf cell elem ctx).multi with
    | some (.rayout slot chan granted place) =>
        if granted < 16 then s
        else
          let k := s.cell cell
          let x := s.ctxOf cell elem ctx
          match s.routeTarget k (s.routeOf cell elem chan) with
          | none => s
          | some q =>
              let s := s.launchTokens (.out cell elem chan) q (packetOf cell x (x.m.getD 0 0) k.seat) (some place)
              let s := ((s.charge k.seat 17).touch cell).requestOut cell elem chan
              let s := s.setCtx cell elem ctx fun k => { k with multi := none }
              let f : Firing := ⟨cell, elem, ctx, slot⟩
              s.asFiring f fun s => s.endFiring (s.trgOf f) 16
    | _ => s)

/-- The register tokens at the head of the channel of a merging RAYIN are held and popped, in order (R345). -/
def State.mergeRays (s : State) (cell elem ctx : Nat) : State :=
  match (s.ctxOf cell elem ctx).multi with
  | some (.rayin slot chan need lanes held) =>
      let ts := (((s.cell cell).elem elem).chan chan).tokens.take (16 - held.length)
      let s := ts.foldl (fun s _ => s.popChan cell elem chan) s
      s.setCtx cell elem ctx fun k => { k with multi := some (.rayin slot chan need lanes (held ++ ts.map (·.lanes))) }
  | _ => s

/-- The lowest n lanes of a mask. -/
def lowestLanes (n : Nat) (m : LaneMask) : LaneMask := maskOf ((lanesOf m).take n).contains

/-- RAYIN (R345): a head that is no header faults; too few lanes perform nothing; else the header is popped and the merge
begins. -/
def execRayin (t : Fin 64) (n : ChanNo) (s : State) : Out :=
  let c := s.cur
  let tag := match (s.curElem.chan n.val).tokens with | k :: _ => k.tag.toNat | [] => 0
  let need := tag % 128
  .next (if !bit tag 31 || need < 1 || need > 64 then s.takeFault 0 (mkFault fFormat 0 s.firingLanes 0)
    else if popCount s.m0 < need then (s.writeMask 1 0).endFiring t 0
    else
      let s := s.popChan c.cell c.elem n.val
      let s := s.setCurCtx fun k => { k with multi := some (.rayin c.slot n.val need (lowestLanes need s.m0) []) }
      let s := s.setElem c.cell c.elem fun k => { k with busyUntil := s.time + 17 * s.vPeriod (dieOf c.cell) }
      s.mergeRays c.cell c.elem c.ctx)

/-- RAYIN_MERGE_COMPLETE (R326, R337, R345): the last register token has merged; the registers, v7 with a stack count of at most 7, and
m1 are written together. -/
def execRayinMergeComplete (cell elem ctx : Nat) (s : State) : Out :=
  .next (match (s.ctxOf cell elem ctx).multi with
    | some (.rayin slot _ _ lanes held) =>
        if held.length < 16 then s
        else
          let ls := lanesOf lanes
          let merged := fun (r l : Nat) =>
            let w := lane (held.getD r []) (ls.idxOf l)
            if r = 7 then BitVec.ofNat 32 (setBits w.toNat 11 8 (min (bits w.toNat 11 8) 7)) else w
          let s := (List.range 16).foldl (fun s r => s.writeRegOf cell elem ctx r lanes (merged r)) s
          let s := s.setCtx cell elem ctx fun k => { k with multi := none, m := k.m.set 1 lanes }
          let until_ := ((s.cell cell).elem elem).busyUntil
          let f : Firing := ⟨cell, elem, ctx, slot⟩
          let s := s.asFiring f fun s => s.endFiring (s.trgOf f) 0
          s.setElem cell elem fun k => { k with busyUntil := max until_ k.busyUntil }
    | _ => s)

/-! Blending (R346 to R350). -/

/-- An entry of the reorder area or of the spill list: the tag and the payload (R347). -/
def blendEntry (bs : List Nat) : Nat × Lanes := (fieldAt bs 0 4, wordsOfBytes 64 (bs.drop 32))
def entryBytes (e : Nat × Lanes) : List Nat :=
  leBytes 4 e.1 ++ List.replicate 28 0 ++ (List.range 64).flatMap fun l => leBytes 4 (lane e.2 l).toNat

/-- A control row that BLND refuses (R347). -/
def controlBad (row : List Nat) : Bool :=
  let f := fieldAt row
  bits (f 0 4) 31 23 != 0 || bits (f 8 1) 7 4 != 0 || f 9 3 != 0 || f 28 4 != 0 || f 4 2 > 64 || f 6 2 > f 4 2 ||
  f 12 4 > f 24 4 || f 16 8 % 32 != 0

/-- A range of a cell's scratchpad lies in SCR banks (R32). -/
def Cell.scratchRange (c : Cell) (a n : Nat) : Bool :=
  (List.range (n / 8192 + 2)).all fun i =>
    let x := if i = 0 then a else (a / 8192 + i) * 8192
    !(x < a + n) || c.scratchOk x

/-- What a token writes to the tile at T of an SRAM, as (address, word) (R349). -/
def tileWrites (sram : List Host.Cell) (T mode zctl : Nat) (e : Nat × Lanes) : List (Nat × Nat) :=
  let px := applyToken mode zctl e.1 e.2 (fun p => memNat sram (T + 4 * p) 4) (fun p => memNat sram (T + 0x1000 + 4 * p) 4)
  px.flatMap fun w => (T + 4 * w.1, w.2.1) :: match w.2.2 with | some z => [(T + 0x1000 + 4 * w.1, z)] | none => []

/-- A token applied to the tile at T: the SRAM, and the rows written so far with its own (R349, R385). -/
def applyTile (m : List Host.Cell × List Nat) (T mode zctl : Nat) (e : Nat × Lanes) : List Host.Cell × List Nat :=
  let ws := tileWrites m.1 T mode zctl e
  (ws.foldl (fun m w => memStore m w.1 (leBytes 4 w.2)) m.1, markRows m.2 (ws.map (·.1 / 32)))

/-- The state of a blend: the SRAM with the rows written, EXPECT, the entries of the reorder area and of the spill list, and the
number applied. -/
abbrev BlendSt := (List Host.Cell × List Nat) × Nat × List (Nat × Lanes) × List (Nat × Lanes) × Nat

/-- After a FINAL token: EXPECT advances and the held entries that are due are applied, as long as the last one applied is
FINAL (R348). -/
def blendGo (T mode zctl : Nat) : Nat → BlendSt → BlendSt
  | 0, b => b
  | fuel + 1, (m, ex, rs, sp, n) =>
      let ex := (ex + 1) % 2 ^ 23
      let due := fun (e : Nat × Lanes) => tagSeq e.1 == ex
      let now := rs.filter due ++ sp.filter due
      let m := now.foldl (fun m e => applyTile m T mode zctl e) m
      let b : BlendSt := (m, ex, rs.filter (!due ·), sp.filter (!due ·), n + now.length)
      match now.getLast? with
      | some e => if tagFinal e.1 then blendGo T mode zctl fuel b else b
      | none => b

/-- The number of leading entries that a removal leaves in their places: those behind them move down and are written again (R348). -/
def stayPut (old new : List (Nat × Lanes)) : Nat := (old.takeWhile new.contains).length

/-- The 32-byte pieces of n bytes from an address. -/
def rowsOf (a n : Nat) : List (Nat × Nat) := (List.range (n / 32)).map fun i => (0, (a + 32 * i) % 2 ^ 64)

/-- The result of a BLND that runs: D, and the cycle per token applied (R326, R348). -/
def State.blendEnd (s : State) (t : Fin 64) (d : Dst) (code n applied : Nat) : State :=
  (s.put t d fun _ => BitVec.ofNat 32 (code + 256 * min n 255)).endFiring t applied

/-- The control row with its counts replaced. -/
def controlRow (row : List Nat) (expect rcount scount : Nat) : List Nat :=
  putBytes (putBytes (putBytes row 0 (leBytes 4 expect)) 6 (leBytes 2 rcount)) 12 (leBytes 4 scount)

/-- The spill list's pages for a BLND's loads or stores: a fault, a wait, or the translations of its rows (R46, R348, R350). -/
def State.spillCheck (s : State) (k : Kind) (ls : List (Nat × Nat)) : (State ⊕ List (Nat × Nat × Trans)) × State :=
  let c := s.cur
  let asid := s.asidOf c.cell c.elem c.ctx
  let vas := ls.map (·.2)
  match (if k == .load then s.curCell.pendingWait asid 32 vas else s.curCell.pageWait asid vas) with
  | some w => (.inl (s.stay w), s)
  | none =>
      let (rs, s) := s.translateAll asid k ls
      match failure (fun _ => s.m0.toNat) rs, waitOf asid k rs with
      | some f, _ => (.inl (s.takeFault packagePlain f), s)
      | none, some w => (.inl (s.stay w), s)
      | none, none => (.inr rs, s)

/-- Spill rows stored as plain stores of the context (R350). -/
def State.spillStore (s : State) (rs : List (Nat × Nat × Trans)) (bs : List Nat) : State :=
  if rs.isEmpty then s
  else
    let c := s.cur
    let parts := (rs.zip (List.range rs.length)).map fun x => mkPart s 0 x.1.2.1 32 x.1.2.2 (sliceBytes bs (32 * x.2) 32) 0
    (s.enter .store .none packagePlain (s.asidOf c.cell c.elem c.ctx) parts).2

/-- Spill rows read as plain loads of the context, which wait where an earlier access holds one back (R111, R350). -/
def State.spillRead (s : State) (rs : List (Nat × Nat × Trans)) : HubResult :=
  let c := s.cur
  if !rs.all fun r => s.loadFree (s.asidOf c.cell c.elem c.ctx) (mkPart s 0 r.2.1 32 r.2.2 [] 0) then .wait
  else s.readNow c.cell 32 rs

/-- A FINAL token, and the held entries that it makes due, applied; the spill list's content is given (R348, R349). Entries that move
down are written in their new places. -/
def State.blendFinal (s : State) (t : Fin 64) (d : Dst) (T mode zctl expect rcount : Nat) (row : List Nat) (spill : Nat)
    (spilled : List (Nat × Lanes)) (head : Nat × Lanes) : State :=
  let c := s.cur
  let sram := s.curCell.sram
  let reorder := T + 0x2020
  let held := (List.range rcount).map fun i => blendEntry (memBytes sram (reorder + 288 * i) 288)
  let ((m, rows), ex, held', spilled', cnt) :=
    blendGo T mode zctl (rcount + spilled.length + 1) (applyTile (sram, []) T mode zctl head, expect, held, spilled, 0)
  let keep := stayPut held held'
  let m := memStore m (reorder + 288 * keep) ((held'.drop keep).flatMap entryBytes)
  let m := memStore m (T + 0x2000) (controlRow row ex held'.length spilled'.length)
  let moved := (List.range (9 * (held'.length - keep))).map fun i => reorder / 32 + 9 * keep + i
  let first := stayPut spilled spilled'
  let out := (spilled'.drop first).flatMap entryBytes
  match s.spillCheck .store (rowsOf ((spill + 288 * first) % 2 ^ 64) out.length) with
  | (.inl s', _) => s'
  | (.inr rs, s) =>
      let s := s.setCell c.cell fun k => { k with sram := m, dirtyRows := markRows k.dirtyRows (rows ++ moved ++ [T / 32 + 0x100]) }
      (s.spillStore rs out).blendEnd t d 0 cnt (1 + cnt)

/-- BLND (R346 to R350). DEDUCED (log 32). -/
def execBlnd (t : Fin 64) (d : Dst) (n : ChanNo) (b : Src) (k : Fin 8) (s : State) : Out :=
  let c := s.cur
  let T := (s.rd b 0).toNat % 2 ^ 20
  let tag := match (s.curElem.chan n.val).tokens with | h :: _ => h.tag.toNat | [] => 0
  let head := (tag, s.headLanes n.val)
  let sram := s.curCell.sram
  let row := memBytes sram (T + 0x2000) 32
  let f := fieldAt row
  let (expect, rcap, rcount, zctl, scount, spill, scap) := (f 0 4, f 4 2, f 6 2, f 8 1, f 12 4, f 16 8, f 24 4)
  let g := (tagSeq tag + 2 ^ 23 - expect) % 2 ^ 23
  let good := s.correctSram c.cell T (0x2020 + 288 * rcount)
  let format := s.takeFault packagePlain (mkFault fFormat 0 s.firingLanes T)
  let cause7 := s.takeFault packagePlain (mkFault fTranslation 7 s.firingLanes T)
  let reorder := T + 0x2020
  .next (if T % 32 != 0 then s.takeFault packagePlain (mkFault fAlignment 0 s.firingLanes T)
    else if !s.curCell.scratchRange T 0x2020 then cause7
    else if controlBad row then format
    else if !s.curCell.scratchRange reorder (288 * rcap) then cause7
    else if tagRate tag = 3 || g ≥ 2 ^ 22 then format
    else if s.sramSpoiled c.cell T (0x2020 + 288 * rcount) then
      (s.countUncorr (dieOf c.cell)).takeFault packagePlain (mkFault fUncorrectable 0 s.firingLanes T)
    else if g = 0 then
      if !tagFinal tag then
        let (m, rows) := applyTile (sram, []) T k.val zctl head
        (good.setCell c.cell fun k => { k with sram := m, dirtyRows := markRows k.dirtyRows rows }).blendEnd t d 0 0 1
      else match good.spillCheck .load (rowsOf spill (288 * scount)) with
        | (.inl s', _) => s'
        | (.inr rs, s') => match s'.spillRead rs with
          | .wait => s'.occupy
          | .fault code cause a =>
              (s'.countAt code (some c.cell) (dieOf c.cell) (s'.asidOf c.cell c.elem c.ctx) a).takeFault packagePlain
                (mkFault code cause s.firingLanes a)
          | .ok bs s =>
              let spilled := (List.range scount).map fun i => blendEntry (sliceBytes bs (288 * i) 288)
              s.blendFinal t d T k.val zctl expect rcount row spill spilled head
    else if rcount < rcap && scount = 0 then
      let s := good.sramStore c.cell (reorder + 288 * rcount) (entryBytes head)
      (s.sramStore c.cell (T + 0x2000) (controlRow row expect (rcount + 1) 0)).blendEnd t d 1 0 0
    else if scount < scap then
      match good.spillCheck .store (rowsOf ((spill + 288 * scount) % 2 ^ 64) 288) with
      | (.inl s', _) => s'
      | (.inr rs, s') =>
          let s := s'.spillStore rs (entryBytes head)
          (s.sramStore c.cell (T + 0x2000) (controlRow row expect rcount (scount + 1))).blendEnd t d 2 0 0
    else format)

end Sys2Proof.Machine
end

