-- ==== Sys2Proof/Machine/ShuttleRun.lean ====
section
/-! DEFINITION. Shuttle commands and selvage streams at work (12_isa_memory_and_shuttle.md R295 to R302;
03_hierarchy_and_enumeration.md R70 to R73; 05_consistency.md R131, R132). A command reads its whole payload before it
writes any of it, line by line (R296). -/

namespace Sys2Proof.Machine

/-! Payload addresses (R297). -/

/-- Source bytes of a command. -/
def ShCmd.total (x : ShCmd) : Nat := if x.opcode = 0x69 then shLen x.fields * shRows x.fields else shLen x.fields

/-- A virtual address, or a scratchpad reference, some bytes away: the arithmetic of a reference acts on its SPA, which may
leave the pool (R297). -/
def operandAt (base : Nat) (d : Int) : Nat × Int :=
  if isRef base then (base, (refSpa base : Int) + d) else (wrapInt 64 ((base : Int) + d), 0)

/-- The offset of byte i of the payload from an operand whose row stride is given, and the bytes left in its run. -/
def ShCmd.spot (x : ShCmd) (stride : Int) (i : Nat) : Int × Nat :=
  if x.opcode = 0x69 then
    let len := shLen x.fields
    ((i / len : Nat) * stride + (i % len : Nat), len - i % len)
  else (i, shLen x.fields - i)

/-- The targets of an SHMCAST, ascending (R295). -/
def ShCmd.targets (x : ShCmd) : List Nat := bitsSet 64 (shMask x.fields)
/-- A scratchpad FLAG of an SHMCAST is stored in every target (R295). -/
def ShCmd.eachFlag (x : ShCmd) : Bool := x.opcode == 0x6A && isRef (shFlag x.fields)
/-- Steps of a target of an SHMCAST: its bytes, then its flag. -/
def ShCmd.perTarget (x : ShCmd) : Nat := shLen x.fields + 1
/-- The end of the writes: bytes, or the steps of all targets. -/
def ShCmd.writes (x : ShCmd) : Nat := if x.opcode = 0x6A then x.targets.length * x.perTarget else x.total

/-! Scratchpad operands (R33, R297, R298). -/

/-- A cell is part of a region of a cell's launch; the resident graphs' cells are in none (R33, R71). -/
def State.sameLaunch (s : State) (issuer target : Nat) : Bool :=
  target < 2048 && s.cells.any fun c => c.id == target && c.seat.isSome && c.launchUid == (s.cell issuer).launchUid &&
    (c.launchUid == 0 || (s.regionOf target).isSome)

/-- A cell that a command of another may reach: part of a region of the issuing launch; a resident graph reaches every cell of the
module (R33, R298). -/
def State.reachable (s : State) (issuer target : Nat) : Bool :=
  if (s.cell issuer).launchUid == 0 then target < 2048 && target % 256 < (s.die (dieOf target)).sites.length
  else s.sameLaunch issuer target

/-- The fault of n bytes at a scratchpad location, if any: code, cause, reference. -/
def State.spadFault (s : State) (issuer target : Nat) (a : Int) (n : Nat) : Option (Nat × Nat × Nat) :=
  if !s.reachable issuer target then some (fPermission, 0, mkRef target (wrapInt 20 a))
  else if a < 0 then some (fTranslation, 7, mkRef target (wrapInt 20 a))
  else (s.cell target).outside .scr a.toNat n |>.map fun b => (fTranslation, 7, mkRef target b)

/-- n bytes of an operand read (R33, R296). -/
def State.shuttleLoad (s : State) (c : Nat) (x : ShCmd) (base : Nat) (d : Int) (n : Nat) : HubResult :=
  let (a, spa) := operandAt base d
  if isRef base then
    let t := refCell base
    match s.spadFault c t spa n with
    | some (code, cause, r) => .fault code cause r
    | none => match s.sramBad t [(spa.toNat, n)] with
      | some b => .fault fUncorrectable 0 (mkRef t b)
      | none => .ok (memBytes (s.cell t).sram spa.toNat n) (s.correctSram t spa.toNat n)
  else if (s.cell c).pendingBytes x.asid a n then .wait
  else s.engineLoad (some c) (dieOf c) x.asid ((s.cell c).asid == 0) (hintOf x.profile) a n

/-- Bytes written at an operand. -/
def State.shuttleStore (s : State) (c : Nat) (x : ShCmd) (base : Nat) (d : Int) (bs : List Nat) : HubResult :=
  let (a, spa) := operandAt base d
  if isRef base then
    let t := refCell base
    match s.spadFault c t spa bs.length with
    | some (code, cause, r) => .fault code cause r
    | none => .ok [] (s.sramStore t spa.toNat bs)
  else s.engineStore (some c) (dieOf c) x.asid ((s.cell c).asid == 0) (hintOf x.profile) a bs

/-! Steps (R296). -/

/-- A command pauses at the failing byte or target: its record is charged to the issuing context, which is held (R300). -/
def State.shuttlePause (s : State) (c : Nat) (x : ShCmd) (code cause addr : Nat) : State :=
  let s := if isRef addr then (if code = fUncorrectable then s.countUncorr (dieOf (refCell addr)) else s)
    else s.countAt code (some c) (dieOf c) x.asid addr
  let (rid, s) := s.engineRecord c x.elem x.ctx x.slot x.opcode x.profile (lowMark x.m0) code cause addr (.shuttle c x.id)
  s.setShcmd c x.id fun k => { k with paused := some rid }

/-- Step 1: the block is read as a load of the issuing context, and validated; what an image has saved of the command's progress counts in
the units of its block (R131, R295, R299, R422). -/
def State.shuttleBlock (s : State) (c : Nat) (x : ShCmd) : State :=
  match s.translateFor c x.asid .load x.block with
  | (.fault code cause, s) => s.shuttlePause c x code cause x.block
  | (.mig .., _) | (.busy, _) => s
  | (.ok pa leaf _, s') =>
      if s.descriptionWaits c x.elem x.ctx x.seq x.asid x.block pa leaf 64 then s
      else match s'.engineLoadPiece (some c) (dieOf c) x.asid ((s.cell c).asid == 0) .load (hintOf x.profile) x.block 64 with
        | .wait => s
        | .fault code cause a => s'.shuttlePause c x code cause a
        | .ok bs s => match blockFault x.opcode x.block bs with
          | some (code, cause, a) => s.shuttlePause c x code cause a
          | none => s.setShcmd c x.id fun k => { k with fields := bs, progress := k.progress * shUnit x.opcode bs }

/-- A command whose block is read starts after those fired before it, and after the FENCEs that hold it back (R121, R301). -/
def State.shuttleStart (s : State) (c : Nat) (x : ShCmd) : State :=
  let first := ((s.cell c).shuttle.takeWhile (·.id != x.id)).all fun y => y.phase != 0 || y.paused.isSome
  if first && !s.fenced c x.elem x.ctx x.seq 8 then s.setShcmd c x.id fun k => { k with phase := 1 } else s

/-- The next piece of the payload read: to the end of its run, of its line, and of 128 bytes. DESIGN CHOICE (log 16): no other
agent's access falls inside a piece. -/
def State.shuttleRead (s : State) (c : Nat) (x : ShCmd) : State :=
  let (d, left) := x.spot (shSstr x.fields) x.buffer.length
  let a := operandAt (shSrc x.fields) d
  let n := min left (128 - (if isRef (shSrc x.fields) then (a.2 % 128).toNat else a.1 % 128))
  match s.shuttleLoad c x (shSrc x.fields) d n with
  | .wait => s
  | .fault code cause r => s.shuttlePause c x code cause r
  | .ok bs s => s.setShcmd c x.id fun k => { k with buffer := k.buffer ++ bs }

/-- The next piece written, up to a boundary of 128 bytes of progress; of an SHMCAST, the next piece of a target or its
flag. -/
def State.shuttleWrite (s : State) (c : Nat) (x : ShCmd) : State :=
  let go := fun (base : Nat) (d : Int) (bs : List Nat) (adv : Nat) =>
    match s.shuttleStore c x base d bs with
    | .wait => s
    | .fault code cause r => s.shuttlePause c x code cause r
    | .ok _ s => s.setShcmd c x.id fun k => { k with progress := k.progress + adv }
  if x.opcode = 0x6A then
    let j := x.targets.getD (x.progress / x.perTarget) 0
    let i := x.progress % x.perTarget
    let cell := refCell (shDst x.fields) + j
    if cell ≥ 65536 then s.shuttlePause c x fPermission 0 (mkRef cell (refSpa (shDst x.fields)))
    else if i < shLen x.fields then
      let n := min (shLen x.fields - i) (128 - i % 128)
      go (mkRef cell (refSpa (shDst x.fields))) i (sliceBytes x.buffer i n) n
    else if x.eachFlag then go (mkRef cell (refSpa (shFlag x.fields))) 0 (leBytes 8 (shVal x.fields)) 1
    else s.setShcmd c x.id fun k => { k with progress := k.progress + 1 }
  else
    let (d, left) := x.spot (shDstr x.fields) x.progress
    let n := min left (128 - x.progress % 128)
    go (shDst x.fields) d (sliceBytes x.buffer x.progress n) n

/-- Step 3: the flag, after every payload byte (R296). -/
def State.shuttleFlag (s : State) (c : Nat) (x : ShCmd) : State :=
  let next := fun (s : State) => s.setShcmd c x.id fun k => { k with phase := 2, buffer := [] }
  if shFlag x.fields = 0 || x.eachFlag then next s
  else match s.shuttleStore c x (shFlag x.fields) 0 (leBytes 8 (shVal x.fields)) with
    | .wait => s
    | .fault code cause r => s.shuttlePause c x code cause r
    | .ok _ s => next s

/-- Step 4: the future is resolved as by FRES (R291, R296). -/
def State.shuttleFuture (s : State) (c : Nat) (x : ShCmd) : State :=
  let next := fun (s : State) => s.setShcmd c x.id fun k => { k with phase := 3 }
  let va := shFut x.fields
  if va = 0 then next s
  else match s.translateFor c x.asid .future va with
    | (.fault code cause, s) => s.shuttlePause c x code cause va
    | (.mig .., _) | (.busy, _) => s
    | (.ok pa leaf _, s') =>
        let sm := leafManaged leaf
        let who := s.requesterNo c
        if s'.busyLine pa || (!sm && s'.pullWaits (lineOf pa) true none) || !s'.inTurn (lineOf pa) who then s
        else if !sm && (s'.pullBad (lineOf pa) true none).isSome then s'.shuttlePause c x fUncorrectable 0 va
        else
          let s' := if sm then s'.evictLine c (lineOf pa) else s'.pull (lineOf pa) true none
          let s' := ((if leafCp leaf = 2 then s' else s'.sliceTouch pa (hintOf x.profile)).correctAt pa 8).serveTurn (lineOf pa) who
          let s' := if leafCp leaf = 0 && !sm then s'.dirAtomic c pa else s'
          if s'.spoiled pa 8 then s'.shuttlePause c x fUncorrectable 0 va
          else
            let (new, arr, bad) := futureStep false (memNat s'.mem pa 8) 0
            match bad with
            | some code => s'.shuttlePause c x code 0 va
            | none =>
                let s' := match new with | some v => s'.homeWrite pa (leBytes 8 v) | none => s'
                match arr with
                | none => next s'
                | some j =>
                    let (id, s') := s'.newId
                    let l := (lowest x.m0).getD 0
                    next { s' with arrivals := s'.arrivals ++
                            [⟨id, x.id, c, x.elem, x.ctx, x.slot, x.opcode, l, x.asid, (s'.cell c).launchUid, j, x.profile, none⟩] }

/-- The point at which a stop finds a command: whole 128-byte units, rows or targets (R380). -/
def ShCmd.atUnit (x : ShCmd) : Bool :=
  x.phase == 0 || (x.phase == 1 && (match x.opcode with
    | 0x68 => x.progress % 128 == 0
    | 0x69 => x.progress % max 1 (shLen x.fields) == 0
    | _ => x.progress % x.perTarget == 0))

/-- SHUTTLE_COMMAND_RUN (R296 to R300, R422): the next step of a command; its block is read first, again after a resume. -/
def execShuttleCommandRun (cell id : Nat) (s : State) : Out :=
  .next (match s.shcmd? cell id with
    | none => s
    | some x =>
        if x.paused.isSome || ((s.cell cell).stopped && x.atUnit) then s
        else if x.fields.isEmpty then s.shuttleBlock cell x
        else match x.phase with
          | 0 => s.shuttleStart cell x
          | 1 =>
              if s.cellWaits cell x.elem x.ctx then s
              else if x.buffer.length < x.total then s.shuttleRead cell x
              else if s.loadsPending cell x.elem x.ctx x.seq then s
              else if x.progress < x.writes then s.shuttleWrite cell x
              else s.shuttleFlag cell x
          | 2 => if s.cellWaits cell x.elem x.ctx then s else s.shuttleFuture cell x
          | _ => s)

/-- SHUTTLE_COMMAND_COMPLETE (R296 step 5, R132, R293): every write is performed, the arrival it caused too. -/
def execShuttleCommandComplete (cell id : Nat) (s : State) : Out :=
  .next (match s.shcmd? cell id with
    | none => s
    | some x => if x.phase = 3 && !s.arrivals.any (·.source == id) then s.shuttleLeave cell x else s)

/-! Streams (R70 to R73). -/

def stBase (d : List Nat) : Nat := fieldAt d 0 8
def stSize (d : List Nat) (i : Nat) : Nat := fieldAt d (8 + 2 * i) 2 + 1
def stStride (d : List Nat) (i : Nat) : Int := signed 48 (fieldAt d (16 + 6 * i) 6)
def stEsize (d : List Nat) : Nat := 2 ^ (fieldAt d 40 1 % 4)
def stNdim (d : List Nat) : Nat := fieldAt d 41 1
def stWindow (d : List Nat) : Nat := fieldAt d 42 2 + 1
def stCell (d : List Nat) : Nat := fieldAt d 44 2
def stChan (d : List Nat) : Nat := bits (fieldAt d 46 1) 5 3
def stElem (d : List Nat) : Nat := fieldAt d 46 1 % 4
def stWidth (d : List Nat) : Nat := widthOfCode (fieldAt d 47 1 % 4)
def stTag (d : List Nat) : Nat := fieldAt d 48 4 % 2 ^ 31
def stProf (d : List Nat) : Nat := fieldAt d 52 2

/-- The reserved bits of a descriptor and its ranges, and the order of its PROF (R70, R71). DESIGN CHOICE (log 48): the codes of SCOPE and
COMP that R214 reserves are accepted in PROF; R71 does not list them. -/
def stBad (d : List Nat) : Bool :=
  fieldAt d 40 1 / 4 != 0 || bits (fieldAt d 46 1) 7 6 != 0 || bit (fieldAt d 46 1) 2 || fieldAt d 47 1 / 4 != 0 ||
  bit (fieldAt d 48 4) 31 || fieldAt d 54 8 != 0 || fieldAt d 62 2 != 0 || bits (stProf d) 15 12 != 0 ||
  stNdim d < 1 || stNdim d > 4 || stWindow d > 4096 || orderOf (stProf d) > 1 ||
  4 * stWidth d % stEsize d != 0

/-- The number of elements of a stream (R70, R72). -/
def stCount (d : List Nat) : Nat := (List.range (stNdim d)).foldl (fun n i => n * stSize d i) 1
/-- The address of element n, dimension 0 innermost (R72). -/
def stAddr (d : List Nat) (n : Nat) : Nat :=
  let r := (List.range (stNdim d)).foldl (fun (p : Int × Nat) i =>
    (p.1 + (p.2 % stSize d i : Nat) * stStride d i, p.2 / stSize d i)) ((stBase d : Int), n)
  wrapInt 64 r.1
/-- Elements of a full token. -/
def stPer (d : List Nat) : Nat := 4 * stWidth d / stEsize d

def State.stream? (s : State) (id : Nat) : Option Stream := s.streams.find? (·.id == id)
def State.setStream (s : State) (id : Nat) (f : Stream → Stream) : State :=
  { s with streams := updateWhere (·.id == id) f s.streams }

/-- A stream pauses: the fault is recorded against the SHSTRM's context, which is held (R73). -/
def State.streamPause (s : State) (k : Stream) (code cause addr : Nat) : State :=
  let s := s.countAt code none (k.slice / 48) k.asid addr
  let (rid, s) := s.engineRecord k.cell k.elem k.ctx k.slot 0x6B k.profile (lowMark k.m0) code cause addr (.stream k.id)
  s.setStream k.id fun k => { k with paused := some rid }

/-- SHSTRM is complete: its arc is set and the census loses 1 (R132, R302). -/
def State.streamOpened (s : State) (k : Stream) : State := (s.charge k.seat (-1)).setArc k.cell k.elem k.ctx (arcOf k.profile)

/-- An open is refused: it completes with nothing pushed (R71, R302). -/
def State.streamRefuse (s : State) (k : Stream) (code : Nat) : State :=
  let s := (s.streamPause k code 0 k.addr).streamOpened k
  { s with streams := s.streams.filter (·.id != k.id) }

/-- Why a descriptor is refused (R71, R302). -/
def State.streamBad (s : State) (k : Stream) (d : List Nat) : Option Nat :=
  if stBad d then some fFormat
  else if !s.sameLaunch k.cell (stCell d) then some fPermission
  else if bits (((s.cell (stCell d)).draftElem (stElem d)).chans.getD (stChan d) 0) 1 0 != fieldAt d 47 1 % 4 then some fFormat
  else if s.streams.any fun x => x.id != k.id && x.opened && x.addr == k.addr && x.asid == k.asid && x.launch == k.launch
    then some fFormat
  else none

/-- STREAM_OPEN (R70, R71, R132): the home slice reads the descriptor and opens the stream. -/
def execStreamOpen (id : Nat) (s : State) : Out :=
  .next (match s.stream? id with
    | none => s
    | some k =>
        let die := k.slice / 48
        let res := k.launch == 0
        if k.opened || k.paused.isSome || s.fenced k.cell k.elem k.ctx k.seq 8 then s
        else match s.translate none die k.asid res .load k.addr with
          | (.fault code cause, s) => s.streamPause k code cause k.addr
          | (.mig .., _) | (.busy, _) => s
          | (.ok pa leaf _, _) =>
              if s.descriptionWaits k.cell k.elem k.ctx k.seq k.asid k.addr pa leaf 64 then s
              else match s.engineLoadPiece none die k.asid res .load 0 k.addr 64 with
                | .wait => s
                | .fault code cause a => s.streamPause k code cause a
                | .ok d s => match s.streamBad k d with
                  | some code => s.streamRefuse k code
                  | none =>
                      (s.setStream id fun k => { k with opened := true, desc := d, dest := (s.cell (stCell d)).seat }).streamOpened k)

/-- The elements of the next token that are not yet read, one by one, up to the first that waits or faults: what is read stays read,
for the stream goes on from the element that stopped it (R72, R73). -/
def State.streamRead (s : State) (k : Stream) : State × HubResult :=
  let d := k.desc
  let lo := k.next * stPer d + k.buf.length / stEsize d
  let hi := min (stCount d) (k.next * stPer d + stPer d)
  (List.range (hi - lo)).foldl (fun (p : State × HubResult) i => match p.2 with
    | .ok bs _ => match p.1.engineLoad none (k.slice / 48) k.asid (k.launch == 0) (hintOf (stProf d)) (stAddr d (lo + i)) (stEsize d) with
      | .ok new s => (s.setStream k.id fun x => { x with buf := bs ++ new }, .ok (bs ++ new) s)
      | r => (p.1, r)
    | _ => p) (s, .ok k.buf s)

/-- A token of the stream waits for its reservation (R72, R177). -/
def State.streamSend (s : State) (k : Stream) (cell : Nat) (tag : Nat) (bs : List Nat) (last : Bool) : State :=
  let d := k.desc
  let w := stWidth d
  let t : Target := .chan cell (stElem d) (stChan d)
  let tok : Token := ⟨BitVec.ofNat 32 tag, wordsOfBytes w (sliceBytes bs 0 (4 * w)), k.seat, some k.id⟩
  let s := s.request (.stream k.id) t
  let (id, s) := s.newId
  let s := { s with flights := s.flights ++ [Flight.mk id (.stream k.id) t [tok] (some 0)] }
  s.setStream k.id fun k => { k with next := k.next + 1, ended := k.ended || last, cut := false, buf := [] }

/-- STREAM_PUSH (R72, R73): the elements of the next token are read, and it asks for its reservation. DESIGN CHOICE (log 48). -/
def execStreamPush (id : Nat) (s : State) : Out :=
  .next (match s.stream? id with
    | none => s
    | some k =>
        let d := k.desc
        let waiting := s.grants.any fun g => g.source == .stream id
        if !k.opened || k.closing || k.ended || k.paused.isSome || waiting || k.pushed - k.popped ≥ stWindow d then s
        else match k.dest.bind s.cellOfSeat with
          | none => s
          | some cell =>
              if (s.cell cell).stopped || !s.cells.any (·.id == k.cell) || s.dieWaits (k.slice / 48) then s
              else if k.cut then s.streamSend k cell ((stTag d + k.next) % 2 ^ 31 + 2 ^ 31) [] true
              else
                let last := (k.next + 1) * stPer d ≥ stCount d
                match s.streamRead k with
                | (s, .wait) => s
                | (s, .fault code cause a) => s.streamPause k code cause a
                | (s, .ok bs _) => s.streamSend k cell ((stTag d + k.next) % 2 ^ 31 + boolBit last 31) bs last)

/-- STREAM_CLOSE (R73, R302): a stream closes when its last token is popped, or at SHCLOSE, whose own command then completes. -/
def execStreamClose (id : Nat) (s : State) : Out :=
  let drop := fun (s : State) =>
    let mine := fun (p : Producer) => p == .stream id
    let unsent := fun (f : Flight) => mine f.source && f.place.isSome
    { s with streams := s.streams.filter (·.id != id), grants := s.grants.filter (!mine ·.source), flights := s.flights.filter (!unsent ·) }
  .next (match s.stream? id with
    | none => s
    | some k =>
        if k.closing then
          let cs := s.closes.filter (·.stream == id)
          let s := { drop s with closes := s.closes.filter (·.stream != id) }
          cs.foldl (fun s x => (s.charge x.seat (-1)).setArc x.cell x.elem x.ctx (arcOf x.profile)) s
        else if k.opened && k.ended && k.pushed == k.popped && !(s.flights.any fun f => f.source == .stream id) then drop s
        else s)

end Sys2Proof.Machine
end

