-- ==== Sys2Proof/Machine/System.lean ====
section
/-! DEFINITION. System registers, traps, tail launches and the privileged instructions at firing
(10_isa_integer_lane_control.md R252 to R260; 06_atomics_and_mwcas.md R160; 15_scheduling_and_clocks.md R358). -/

namespace Sys2Proof.Machine

/-! Effective priority (R160, R358, R362). -/

/-- The launch's own priority, 7 while its anti-starvation boost lasts (R362). -/
def State.basePrio (s : State) (uid : Nat) : Nat :=
  match s.launch? uid with
  | some l => if l.boost.isSome then 7 else l.prio
  | none => 0

/-- With every loan made to it; loans chain along waiters, each of which lends its own effective priority. -/
def State.prioGo (s : State) : Nat → Nat → Nat
  | 0, uid => s.basePrio uid
  | n + 1, uid =>
      match s.launch? uid with
      | none => 0
      | some l =>
          (s.watches.filter fun w => w.armed && w.loan && w.holder == some (l.launchid % 65536)).foldl (fun p w =>
            let lender := (s.cell w.cell).launchUid
            if lender = 0 then p else max p (s.prioGo n lender)) (s.basePrio uid)

/-- The effective priority of a launch (R358). -/
def State.effPrio (s : State) (uid : Nat) : Nat := s.prioGo s.launches.length uid

/-! SYSR and SYSW (R252, R253). -/

/-- Requested codes clamped to each domain's range (R368). -/
def clampSet (g : Nat) : Nat :=
  let n := max 4 (bits g 7 4)
  let e := max 6 (min 12 (bits g 3 0))
  bits g 15 8 * 256 + n * 16 + e

/-- A system register with no stated value for a cell of a resident graph, which belongs to no launch (log 6). -/
def noLaunchValue (reg cell : Nat) : Nat := Config.openValue 253 (reg * 65536 + cell) % 2 ^ 32

/-- The value of a system register in lane l (R253). -/
def State.sysValue (s : State) (n l : Nat) : Nat :=
  let c := s.cur
  let k := s.curCell
  let x := s.curCtx
  let ofLaunch := fun (f : Launch → Nat) => match s.launch? k.launchUid with
    | some a => f a
    | none => noLaunchValue n c.cell
  let ofSeat := fun (f : Seat → Nat) => match k.seat with
    | some t => if t.launch = 0 then noLaunchValue n c.cell else f t
    | none => noLaunchValue n c.cell
  let ofRegion := fun (f : Region → Nat) => match s.regionOf c.cell with
    | some r => f r
    | none => noLaunchValue n c.cell
  match n with
  | 0x000 => c.cell
  | 0x001 => dieOf c.cell
  | 0x002 => c.elem
  | 0x003 => c.ctx
  | 0x004 => l
  | 0x005 => ofRegion fun r => r.die * 256 + r.index
  | 0x006 => ofSeat (·.stage)
  | 0x007 => ofSeat (·.rep)
  | 0x008 => ofLaunch (·.launchid)
  | 0x009 => ofLaunch fun a => s.effPrio a.uid
  | 0x00A => k.asid
  | 0x010 => s.ticks
  | 0x011 => (s.die (dieOf c.cell)).grant
  | 0x012 => ofLaunch fun a => clampSet a.clkreq
  | 0x018 => ofRegion fun r => wrapInt 32 (s.regionCensus r)
  | 0x020 => x.fpflags
  | 0x021 => x.srcnt.toNat
  | 0x022 => x.mwcnt
  | 0x030 => x.swregion.toNat
  | 0x031 => x.xasid.toNat
  | _ => 0

/-- The registers whose access is RS (R253). -/
def sysPrivileged (n : Nat) : Bool := n == 0x030 || n == 0x031

/-- SYSR (R252): the same value in every lane of m0 but for laneid. -/
def execSysr (t : Fin 64) (d : Dst) (i : BitVec 9) (s : State) : Out :=
  let n := i.toNat
  .next (if sysPrivileged n && !s.resident then s.takePrivilege 0
    else (s.putSel t (sysReg64 n) d (fun l => BitVec.ofNat 32 (s.sysValue n l)) (fun l => BitVec.ofNat 64 (s.sysValue n l))).endFiring t 0)

/-- A context's system registers with number n written; a read-only number is ignored (R11, R252, R253). -/
def Ctx.writeSys (k : Ctx) (n : Nat) (v : Word) : Ctx :=
  match n with
  | 0x020 => { k with fpflags := v.toNat % 64 }
  | 0x021 => { k with srcnt := v }
  | 0x030 => { k with swregion := v &&& 0xFFF }
  | 0x031 => { k with xasid := v &&& 0xFFFF }
  | _ => k

/-- SYSW (R252): the lowest lane of m0 is written; an empty m0 writes nothing. -/
def execSysw (t : Fin 64) (a : Src) (i : BitVec 9) (s : State) : Out :=
  let n := i.toNat
  .next (if sysPrivileged n && !s.resident then s.takePrivilege 0
    else match lowest s.m0 with
      | some l => (s.setCurCtx fun k => k.writeSys n (s.rd a l)).endFiring t 0
      | none => s.endFiring t 0)

/-! TRAP and BRK (R255). -/

/-- The record of a trap: its effects apply first; DONE is set (R255, R375, R379). -/
def State.trapRecord (s : State) (t : Fin 64) (code imm : Nat) (of_ : RecordOf) : Nat × State :=
  let lanes := s.firingLanes
  let c := s.cur
  let op := s.curOpcode
  let s := s.endFiring t 0
  s.pushRecord c.cell c.elem c.ctx c.slot op rDone 0 (mkFault code 0 lanes imm) of_

/-- TRAP (R255): its own context is held. -/
def execTrap (t : Fin 64) (i : BitVec 14) (s : State) : Out :=
  let c := s.cur
  let (id, s) := s.trapRecord t fTrap i.toNat (.done c.cell c.elem c.ctx)
  .next (s.hold c.cell c.elem c.ctx id)

/-- BRK (R255): the four contexts of its element are held. -/
def execBrk (t : Fin 64) (i : BitVec 14) (s : State) : Out :=
  let c := s.cur
  let (id, s) := s.trapRecord t fBrk i.toNat (.brk c.cell c.elem)
  .next ((List.range 4).foldl (fun s x => s.hold c.cell c.elem x id) s)

/-! TLAUNCH (R256). -/

/-- TLAUNCH (R256): the block's address is checked as a load, and the block joins the tail list. -/
def execTlaunch (t : Fin 64) (a : Pair) (s : State) : Out :=
  let c := s.cur
  .next (match s.wordLane a with
    | [] => s.endFiring t 0
    | (l, va) :: _ =>
        if va % 256 != 0 then s.takeFault 0 (mkFault fAlignment 0 (2 ^ l) va)
        else
          let asid := s.asidOf c.cell c.elem c.ctx
          match s.translateFor c.cell asid .load va with
          | (.fault code cause, s) => s.takeFault 0 (mkFault code cause (2 ^ l) va)
          | (.busy, s) => s.stay (.walk asid [va])
          | (.mig _ _ leafPa v, s) => s.stay (.migLeaf leafPa v asid [va] .load)
          | (.ok _ _ _, s) => match s.addTail s.curCell.launchUid va with
            | some s => s.endFiring t 0
            | none => s.occupy)

/-! DRAFTLD and DRAFTSW at firing (R257, R258). -/

/-- An enabled cell site of the module, user or resident (R78, R81). -/
def State.siteOk (s : State) (cell : Nat) : Bool :=
  dieOf cell < 8 && cell % 256 + (s.die (dieOf cell)).disabled.length < 160

/-- A lane whose target is no enabled site: the spec names no code for its record (log 6). -/
def noSiteCode (cell : Nat) : Nat := Config.openValue 257 cell % 16 + 1

/-- The 8-byte words of one image as the parts of a load: its first and last bytes are translated already (R222). -/
def State.imageParts (s : State) (l va : Nat) (first last : Trans) : List Part :=
  let a := mkPart s l va 8 first [] 0
  let b := mkPart s l va 8 last [] 0
  (List.range (imageLen / 8)).map fun i =>
    let w := (va + 8 * i) % 2 ^ 64
    if w / 4096 == va / 4096 then { a with va := w, pa := a.pa + 8 * i }
    else { b with va := w, pa := b.pa + 8 * i + 1 - imageLen }

/-- DRAFTLD (R257): every page of every image and every target is checked, then the images' words are read as loads of the context,
each image once (R222). -/
def execDraftld (t : Fin 64) (a : Pair) (b : Src) (p : Profile) (s : State) : Out :=
  let prof := s.profile p.val
  let c := s.cur
  let asid := s.asidOf c.cell c.elem c.ctx
  let ls := (lanesOf s.m0).map fun l => (l, (s.pairVal (2 * a.val) l).toNat)
  let target := fun l => (s.rd b l).toNat
  .next (if !s.resident then s.takePrivilege prof
    else if ls.isEmpty then s.endEmpty t prof
    else match misaligned laneMark 64 ls with
      | some f => s.takeFault prof f
      | none => match s.curCell.pendingWait asid imageLen (ls.map (·.2)) with
        | some w => s.stay w
        | none =>
          let (rs, s) := s.translateAll asid .draft (ls.flatMap fun l => [l, (l.1, (l.2 + imageLen - 1) % 2 ^ 64)])
          let sites := rs.map fun r => (r.1, r.2.1, match r.2.2 with
            | .ok pa leaf sz => if s.siteOk (target r.1) then Trans.ok pa leaf sz else .fault (noSiteCode (target r.1)) 0
            | x => x)
          match failure laneMark sites, waitOf asid .draft rs with
          | some f, _ => s.takeFault prof f
          | none, some w => s.stay w
          | none, none =>
              let trans := fun (va : Nat) => match rs.find? (·.2.1 == va) with | some r => r.2.2 | none => .fault 0 0
              let parts := ((ls.map (·.2)).eraseDups).flatMap fun va =>
                let l := ((ls.find? (·.2 == va)).map (·.1)).getD 0
                s.imageParts l va (trans va) (trans ((va + imageLen - 1) % 2 ^ 64))
              let (id, s) := s.enter .load .none prof asid parts
              let d : DraftLd :=
                { id := id, cell := c.cell, elem := c.elem, ctx := c.ctx, slot := c.slot, m0 := s.m0, asid := asid,
                  profile := prof, seq := s.curCtx.seq, lanes := ls.map fun l => (l.1, l.2, target l.1) }
              ({ s with draftlds := s.draftlds ++ [d] }).endFiring t 0)

/-- The live region that a regionid value names (R253). DESIGN CHOICE (log 24): bits [31:12] of the value, which the format gives as 0, are
not looked at. -/
def State.regionNamed (s : State) (id : Nat) : Option Region :=
  s.regions.find? fun r => r.die == bits id 11 8 && r.index == id % 256

/-- DRAFTSW (R258): nothing is performed where swregion names no live region; else the context waits for that region's
configuration period. -/
def execDraftsw (t : Fin 64) (s : State) : Out :=
  .next (if !s.resident then s.takePrivilege 0
    else match s.regionNamed s.curCtx.swregion.toNat with
      | none => s.endFiring t 0
      | some r => s.stay (.configPeriod s.cur.slot (r.cells.filterMap fun c => (s.cell c).seat)))

/-! CTXIMG (R259, R380, R386). -/

/-- A RAYOUT that waits for grants is abandoned before any send: its further grants go back and it will refire whole (R343,
R380). -/
def State.abandonRay (s : State) (c e x : Nat) : State :=
  match (s.ctxOf c e x).multi with
  | some (.rayout _ ch granted _) =>
      if granted ≥ 16 then s
      else
        let s := match s.routeTarget (s.cell c) (s.routeOf c e ch) with
          | some t => s.giveBack t granted
          | none => s
        let s := { s with grants := s.grants.filter fun g => g.source != Producer.ray c e x }
        (s.setElem c e fun k => { k with outs := k.outs.set ch .held }).setCtx c e x fun k => { k with multi := none }
  | _ => s

/-- A region begins to stop: its elements complete what they do and then fire nothing (R380). -/
def State.stopRegion (s : State) (r : Region) : State :=
  let s := s.setRegion r.die r.index fun r => { r with stopping := true }
  let s := { s with cells := updateWhere (fun c => r.cells.contains c.id) (fun c => { c with stopped := true }) s.cells }
  r.cells.foldl (fun s c => (List.range 16).foldl (fun s i => s.abandonRay c (i / 4) (i % 4)) s) s

/-- CTXIMG at firing (R259): an engine command with an image and a region. A region that is not live gives it nothing to
do (log 24). -/
def State.fireImage (s : State) (t : Fin 64) (a : Pair) (b : Src) (form : Nat) : State :=
  let c := s.cur
  if !s.resident then s.takePrivilege 0
  else match s.wordLane a with
    | [] => s.endFiring t 0
    | (l, va) :: _ =>
        if va % 4096 != 0 then s.takeFault 0 (mkFault fAlignment 0 (2 ^ l) va)
        else match s.regionNamed (s.rd b l).toNat with
          | none => s.endFiring t 0
          | some r =>
              let (id, s) := s.newId
              let op : ImageOp :=
                { id := id, cell := c.cell, elem := c.elem, ctx := c.ctx, slot := c.slot, asid := s.asidOf c.cell c.elem c.ctx,
                  form := form, image := va, die := r.die, region := r.index, start := s.ticks, paused := none, seq := s.curCtx.seq, m0 := s.m0 }
              let s := if form = 2 then s else s.stopRegion r
              (({ s with images := s.images ++ [op] }).charge s.curCell.seat 1).endFiring t 0

/-- CTXIMG.savef (R259). -/
def execCtximgSavef (t : Fin 64) (a : Pair) (b : Src) (s : State) : Out := .next (s.fireImage t a b 0)
/-- CTXIMG.saved (R259). -/
def execCtximgSaved (t : Fin 64) (a : Pair) (b : Src) (s : State) : Out := .next (s.fireImage t a b 1)
/-- CTXIMG.rest (R386). -/
def execCtximgRest (t : Fin 64) (a : Pair) (b : Src) (s : State) : Out := .next (s.fireImage t a b 2)

/-! TLBINV (R38, R39, R260). -/

/-- The stores and store-class operations that a context has fired and that are not yet performed (R39). -/
def State.storesOf (s : State) (c e x : Nat) : List Nat :=
  ((s.accs.filter fun a => sameCtx a.cell a.elem a.ctx c e x && a.isStore).map (·.id)) ++
  ((s.mwops.filter fun m => sameCtx m.cell m.elem m.ctx c e x).map (·.id))

/-- TLBINV at firing (R260): form 0 page, 1 ASID, 2 all; the removal waits for the context's earlier stores (R39). -/
def State.fireInv (s : State) (t : Fin 64) (a : Pair) (b : Src) (p : Profile) (form : Nat) : State :=
  let prof := s.profile p.val
  let c := s.cur
  if !s.resident then s.takePrivilege prof
  else match s.wordLane a with
    | [] => s.endEmpty t prof
    | (l, va) :: _ =>
        if form = 0 && !canonical va then s.takeFault prof (mkFault fTranslation 1 (2 ^ l) va)
        else
          let (id, s) := s.newId
          let op : TlbInv :=
            { id := id, cell := c.cell, elem := c.elem, ctx := c.ctx, form := form, asid := (s.rd b l).toNat % 65536, va := va,
              begun := false, before := s.storesOf c.cell c.elem c.ctx, waitFor := [], arc := arcOf prof }
          ({ s with invs := s.invs ++ [op] }).endFiring t 0

/-- TLBINV.pg (R260). -/
def execTlbinvPg (t : Fin 64) (a : Pair) (b : Src) (p : Profile) (s : State) : Out := .next (s.fireInv t a b p 0)
/-- TLBINV.as (R260). -/
def execTlbinvAs (t : Fin 64) (a : Pair) (b : Src) (p : Profile) (s : State) : Out := .next (s.fireInv t a b p 1)
/-- TLBINV.all (R260). -/
def execTlbinvAll (t : Fin 64) (a : Pair) (b : Src) (p : Profile) (s : State) : Out := .next (s.fireInv t a b p 2)

end Sys2Proof.Machine
end

