-- ==== Sys2Proof/Machine/Fabric.lean ====
section
/-! DEFINITION. Tokens on their way, reservations, stage queues, quiescence and draft switches at work
(07_execution_model.md R177 to R187; 14_isa_graphics.md R343, R344; 10_isa_integer_lane_control.md R257, R258). -/

namespace Sys2Proof.Machine

/-! Stage queues. -/

def State.queue? (s : State) (l st : Nat) : Option StageQueue := s.queues.find? fun q => q.launch == l && q.stage == st
def State.setQueue (s : State) (l st : Nat) (f : StageQueue → StageQueue) : State :=
  { s with queues := updateWhere (fun q => q.launch == l && q.stage == st) f s.queues }

def QItem.count : QItem → Nat
  | .tok _ => 1
  | .packet ts => ts.length
  | .place _ => 0

/-- The tokens of a queue, those of a packet in dispatch or set aside included (R179, R344). -/
def StageQueue.depth (q : StageQueue) : Nat :=
  (q.items.map QItem.count).sum + (match q.inDispatch with | some p => p.2.length | none => 0) + (q.aside.map (·.2.length)).sum

/-! Arrival (R178). -/

/-- A flight has left its producer and no earlier one of the same producer is still on its way. -/
def State.mayArrive (s : State) (f : Flight) : Bool :=
  let waits := match f.source with
    | .stream _ | .event .. => f.place.isSome
    | _ => false
  !waits && (s.flights.takeWhile (·.id != f.id)).all fun g => g.source != f.source

/-- Tokens reach an input channel; a merging RAYIN takes its register tokens (R178, R345). -/
def State.arriveChan (s : State) (c e n : Nat) (ts : List Token) : State :=
  let s := s.setElem c e fun k => k.setChan n fun h => { h with tokens := h.tokens ++ ts, granted := h.granted - ts.length }
  let s := s.stir c
  let merges := fun (k : Ctx) => match k.multi with | some (.rayin _ ch _ _ _) => ch == n | _ => false
  (List.range 4).foldl (fun s x => if merges (s.ctxOf c e x) then s.mergeRays c e x else s) s

/-- Tokens reach a stage queue: a packet takes its place as one unit (R179, R344). -/
def State.arriveQueue (s : State) (l st : Nat) (ts : List Token) (place : Option Nat) : State :=
  let put := fun (q : StageQueue) => match place with
    | some p => { q with items := q.items.map (fun i => if i = QItem.place p then QItem.packet ts else i), granted := q.granted - ts.length }
    | none => { q with items := q.items ++ ts.map QItem.tok, granted := q.granted - ts.length }
  s.setQueue l st put

/-- TOKEN_ARRIVAL (R178). -/
def execTokenArrival (id : Nat) (s : State) : Out :=
  .next (match s.flights.find? (·.id == id) with
    | none => s
    | some f =>
        if !s.mayArrive f then s
        else
          let s := { s with flights := s.flights.filter (·.id != id) }
          match f.target, f.source with
          | .chan c e n, _ => s.arriveChan c e n f.items
          | .queue l st, .event .. => s.arriveQueue l st f.items none
          | .queue l st, _ => s.arriveQueue l st f.items f.place)

/-! Reservations (R177). -/

/-- A target has room for one more reservation. -/
def State.hasRoom (s : State) : Target → Bool
  | .chan c e n => s.cells.any (·.id == c) && (let h := ((s.cell c).elem e).chan n; h.tokens.length + h.granted < 4)
  | .queue l st => match s.queue? l st with
    | some q => q.depth + q.granted < q.capacity
    | none => false

def State.reserve (s : State) : Target → State
  | .chan c e n => s.setElem c e fun k => k.setChan n fun h => { h with granted := h.granted + 1 }
  | .queue l st => s.setQueue l st fun q => { q with granted := q.granted + 1 }

/-- A RAYOUT gains a grant; the sixteenth gives its packet its place in the queue (R343, R344). -/
def State.grantRay (s : State) (c e x : Nat) (t : Target) : State :=
  match (s.ctxOf c e x).multi with
  | some (.rayout slot ch granted place) =>
      if granted + 1 = 16 then
        let (p, s) := s.newId
        let s := match t with
          | .queue l st => s.setQueue l st fun q => { q with items := q.items ++ [QItem.place p] }
          | _ => s
        s.setCtx c e x fun k => { k with multi := some (.rayout slot ch 16 p) }
      else s.setCtx c e x fun k => { k with multi := some (.rayout slot ch (granted + 1) place) }
  | _ => s

/-- A waiting token of a stream or an event leaves (R72, R372). -/
def State.departs (s : State) (p : Producer) : State :=
  { s with flights := updateWhere (fun f => f.source == p && f.place.isSome) (fun f => { f with place := none }) s.flights }

/-! Configuration periods (R186; the instant at which one ends without change is log 30). -/

/-- A region holds a cell at one of some seats. -/
def State.seatedIn (s : State) (ts : List Seat) (r : Region) : Bool := r.cells.any fun c => (s.cell c).seat.any ts.contains

/-- A DRAFTSW waits for a region's configuration period (R258). -/
def State.switchWaits (s : State) (r : Region) : Bool :=
  s.cells.any fun c => c.elems.any fun e => e.ctxs.any fun k =>
    match k.wait with | some (.configPeriod _ ts) => s.seatedIn ts r | _ => false

/-- A cell's region is in a configuration period that a DRAFTSW waits for: no token may come in (R186). -/
def State.inPeriod (s : State) (c : Nat) : Bool :=
  match s.regionOf c with
  | some r => r.period && s.switchWaits r
  | none => false

/-- A token comes into a cell's region: a configuration period that none waits for has ended (R186). DEDUCED (log 30). -/
def State.endPeriod (s : State) (c : Nat) : State :=
  { s with regions := updateWhere (fun r => r.cells.contains c) (fun r => { r with period := false }) s.regions }

/-- A grant that would bring a stream's token into a region in its configuration period waits for the period's end (R186). -/
def State.grantHeld (s : State) (g : GrantReq) : Bool :=
  match g.source, g.target with
  | .stream _, .chan c _ _ => s.inPeriod c
  | _, _ => false

/-- RESERVATION_GRANT (R177): contending requests are granted in arrival order. -/
def execReservationGrant (id : Nat) (s : State) : Out :=
  .next (match s.grants.find? (·.id == id) with
    | none => s
    | some g =>
        if !s.hasRoom g.target || s.grantHeld g || (s.grants.takeWhile (·.id != id)).any (·.target == g.target) then s
        else
          let s := { s with grants := s.grants.filter (·.id != id) }.reserve g.target
          match g.source with
          | .out c e n => s.setElem c e fun k => { k with outs := k.outs.set n .held }
          | .ray c e x => s.grantRay c e x g.target
          | .stream k =>
              let s := s.departs g.source
              let s := match g.target with | .chan c _ _ => s.endPeriod c | .queue .. => s
              match s.stream? k with
              | some x => ((s.setStream k fun x => { x with pushed := x.pushed + 1 }).charge x.seat 1).touch x.cell
              | none => s
          | .event .. => s.departs g.source
          | .dispatch .. => s)

/-! Dispatch (R179, R344). -/

/-- The replicas of a stage that its queue may serve: placed, not draining, their region neither stopped nor held in a
configuration period by a waiting DRAFTSW (R186, R364, R380; log 30). -/
def State.servable (s : State) (l : Launch) (st : Nat) (c : Cell) : Bool :=
  (match c.seat with | some t => t.launch == l.uid && t.stage == st && t.pos == 0 && !l.draining.contains (st, t.rep) | none => false) &&
  c.running && !c.stopped && (s.regionOf c.id).isSome && !s.inPeriod c.id

/-- A replica's entry channel: cell, element and channel (R176). -/
def State.entryOfRep (s : State) (l st rep : Nat) : Option (Nat × Nat × Nat) :=
  (s.cellOfSeat ⟨l, st, rep, 0⟩).bind fun c => (s.cell c).draft.entries.head?.map fun p => (c, p.1, p.2)

/-- The entry channel of a replica has room and no producer waits for it. DESIGN CHOICE (log 28): the spec gives a queue's own demand for
a reservation no place among the requests that contend for the channel; here it comes after all that wait. -/
def State.entryRoom (s : State) (l st rep : Nat) : Bool :=
  match s.entryOfRep l st rep with
  | some (c, e, n) => s.hasRoom (.chan c e n) && !s.grants.any (·.target == .chan c e n)
  | none => false

/-- A token is dispatched to a replica (R179). -/
def State.dispatchTo (s : State) (l st rep : Nat) (t : Token) : State :=
  match s.entryOfRep l st rep with
  | none => s
  | some (c, e, n) =>
      let s := (s.reserve (.chan c e n)).launchTokens (.dispatch l st) (.chan c e n) [t] none
      (s.endPeriod c).touch c

/-- A replica whose RAYIN has begun to merge (R344, R380). -/
def State.merging (s : State) (l st rep : Nat) : Bool :=
  match s.entryOfRep l st rep with
  | some (c, e, n) => ((s.cell c).elem e).ctxs.any fun k => match k.multi with | some (.rayin _ ch _ _ _) => ch == n | _ => false
  | none => false

/-- The replicas that may be served next, from the one after the last served (R179). -/
def State.nextRep (s : State) (l : Launch) (q : StageQueue) : Option Nat :=
  let reps := (s.cells.filter fun c => s.servable l q.stage c).filterMap fun c => c.seat.map (·.rep)
  let reps := reps.filter fun r => s.entryRoom l.uid q.stage r && !q.aside.any (·.1 == r)
  match leastBy id (reps.filter (· > q.lastServed)) with
  | some r => some r
  | none => leastBy id reps

/-- The replica's region is in a configuration period that a DRAFTSW waits for: nothing is dispatched to it (R186). -/
def State.repHeld (s : State) (l : Launch) (st rep : Nat) : Bool :=
  match s.entryOfRep l.uid st rep with | some (c, _, _) => s.inPeriod c | none => false

/-- A packet in dispatch or set aside may go on to its replica. -/
def State.packetGoes (s : State) (l : Launch) (st rep : Nat) : Bool :=
  match s.entryOfRep l.uid st rep with
  | some (c, _, _) => (!(s.cell c).stopped && (s.cell c).running) || s.merging l.uid st rep
  | none => false

/-- STAGE_QUEUE_DISPATCH (R179, R344). -/
def execStageQueueDispatch (launch stage : Nat) (s : State) : Out :=
  .next (match s.queue? launch stage, s.launch? launch with
    | some q, some l =>
        match q.inDispatch with
        | some (rep, []) => s.setQueue launch stage fun q => { q with inDispatch := none, lastServed := rep }
        | some (rep, t :: ts) =>
            if s.repHeld l stage rep then s
            else if !s.packetGoes l stage rep then
              s.setQueue launch stage fun q => { q with inDispatch := none, aside := q.aside ++ [(rep, t :: ts)] }
            else if s.entryRoom launch stage rep then
              (s.setQueue launch stage fun q => { q with inDispatch := some (rep, ts) }).dispatchTo launch stage rep t
            else s
        | none =>
            match q.aside.find? fun a => s.packetGoes l stage a.1 && !s.repHeld l stage a.1 with
            | some a => s.setQueue launch stage fun q => { q with inDispatch := some a, aside := q.aside.filter (·.1 != a.1) }
            | none =>
                match q.items, s.nextRep l q with
                | .tok t :: rest, some rep =>
                    (s.setQueue launch stage fun q => { q with items := rest, lastServed := rep }).dispatchTo launch stage rep t
                | .packet (t :: ts) :: rest, some rep =>
                    (s.setQueue launch stage fun q => { q with items := rest, inDispatch := some (rep, ts) }).dispatchTo launch stage rep t
                | _, _ => s
    | _, _ => s)

/-! Quiescence (R184, R185). -/

/-- Every source context of a cell is exhausted (R183, R184 condition 2). -/
def Cell.sourcesDone (c : Cell) : Bool :=
  (List.range 16).all fun i => !c.draft.source (i / 4) (i % 4) || (c.ctx (i / 4) (i % 4)).exhausted

/-- Condition 3 of R184. -/
def State.channelsEmpty (s : State) (cs : List Nat) : Bool :=
  (cs.all fun c => (s.cell c).elems.all fun e => e.ins.all (·.tokens.isEmpty)) &&
  s.flights.all fun f => match f.target with
    | .chan c _ _ => !cs.contains c || (match f.source with | .stream _ => f.place.isSome | _ => false)
    | _ => true

/-- A store that its cell's software-managed copies hold dirty and that waits for nothing else: quiescence, retirement and a stop do not
wait for its write-back (R62, R126, R135, R380). -/
def State.resting (s : State) (a : Access) : Bool :=
  a.isStore && s.completeAt 0 a && !a.done

/-- Conditions 4 and 6 of R184: nothing of the cells is outstanding, and no FENCE of theirs is open. -/
def State.nothingOutstanding (s : State) (cs : List Nat) : Bool :=
  let inn := fun c : Nat => cs.contains c
  !s.accs.any (fun a => inn a.cell && !s.resting a) && !s.fences.any (inn ·.cell) && !s.mwops.any (inn ·.cell) && !s.arrivals.any (inn ·.cell) && !s.streams.any (inn ·.cell) &&
  !s.closes.any (inn ·.cell) && !s.colls.any (inn ·.cell) && !s.draftlds.any (inn ·.cell) && !s.images.any (inn ·.cell) &&
  !s.traversals.any (inn ·.cell) && !s.invs.any (inn ·.cell) &&
  cs.all fun c => (s.cell c).sideLog.isEmpty && (s.cell c).shuttle.isEmpty && (s.cell c).heddle.queue.isEmpty

/-- Condition 5 of R184. -/
def State.nothingEligible (s : State) (cs : List Nat) : Bool :=
  cs.all fun c =>
    let k := s.cell c
    (List.range 16).all fun i =>
      let x := k.ctx (i / 4) (i % 4)
      x.heldBy.isEmpty && !x.asleep && x.multi.isNone && x.wait.isNone && (k.elem (i / 4)).occupant.isNone &&
      (s.eligibleSlot k (i / 4) (i % 4)).isNone

/-- A region is quiescent (R184). -/
def State.quiescent (s : State) (r : Region) : Bool :=
  s.regionCensus r == 0 && r.cells.all (fun c => (s.cell c).sourcesDone && (s.cell c).running) && s.channelsEmpty r.cells &&
  s.nothingOutstanding r.cells && s.nothingEligible r.cells

/-- QUIESCENCE_REPORT (R185, R186): reported once; the configuration period begins. -/
def execQuiescenceReport (die region : Nat) (s : State) : Out :=
  .next (match s.regions.find? (fun r => r.die == die && r.index == region) with
    | none => s
    | some r =>
        if r.reported || r.stopping || !s.quiescent r then s
        else s.setRegion die region fun r => { r with reported := true, period := true })

/-! DRAFTLD and DRAFTSW at work (R257, R258, R222). -/

/-- The image at an address as a DRAFTLD's loads have bound it, each distinct image once (R222, R257). -/
def imageRead (k : DraftLd) (a : Access) (va : Nat) : List Nat :=
  let i := ((k.lanes.map (·.2.1)).eraseDups.takeWhile (· != va)).length
  ((a.parts.drop (imageLen / 8 * i)).take (imageLen / 8)).flatMap fun p => sliceBytes p.bound 0 8

/-- A validated image goes to its target: committed at once where the cell is in no region, else its shadow store (R257). -/
def State.acceptDraft (s : State) (target asid va : Nat) (bs : List Nat) : State :=
  let d := parseDraft bs
  match s.cells.find? (·.id == target) with
  | some c =>
      if c.seat.isSome then s.setCell target fun c => { c with shadow := some ⟨d, va, asid⟩ }
      else s.setCell target fun _ => freshCell target d 0
  | none => { s with cells := s.cells ++ [freshCell target d 0] }

/-- The targets of a DRAFTLD decided lane by lane; the failing lanes, each with the address of its offending byte (R221, R257). -/
def State.decideDrafts (s : State) (k : DraftLd) (a : Access) : State × List (Nat × Nat) :=
  k.lanes.foldl (fun (p : State × List (Nat × Nat)) x =>
    let bs := imageRead k a x.2.1
    match imageFault bs with
    | some o => (p.1.setCell x.2.2 fun c => { c with shadow := none }, p.2 ++ [(x.1, (x.2.1 + o) % 2 ^ 64)])
    | none => (p.1.acceptDraft x.2.2 k.asid x.2.1 bs, p.2)) (s, [])

/-- DRAFTLD_VALIDATION (R220 to R222, R257): once its loads are bound, every target is decided and the arc is set; rejected images
leave one record. -/
def execDraftldValidation (id : Nat) (s : State) : Out :=
  .next (match s.draftlds.find? (·.id == id), s.acc? id with
    | some k, some a =>
        if !a.done then s
        else
          let (s, bad) := s.decideDrafts k a
          let s := { s with draftlds := s.draftlds.filter (·.id != id) }
          let s := match bad with
            | [] => s
            | (_, va) :: _ =>
                let lanes := (bad.map fun (b : Nat × Nat) => laneMark b.1).foldl Nat.lor 0
                let (rid, s) := s.pushRecord k.cell k.elem k.ctx k.slot 0x2C rDone k.profile (mkFault fDraftValidation 0 lanes va)
                  (.done k.cell k.elem k.ctx)
                s.hold k.cell k.elem k.ctx rid
          s.finish a
    | _, _ => s)

/-- DRAFTSW_COMMIT (R186, R258, R387): in the region's configuration period its shadow stores commit and the period ends; while the region
is pre-empted the wait goes on, and one that is gone leaves nothing to do. -/
def execDraftswCommit (cell elem ctx : Nat) (s : State) : Out :=
  .next (match (s.ctxOf cell elem ctx).wait with
    | some (.configPeriod slot ts) =>
        let f : Firing := ⟨cell, elem, ctx, slot⟩
        let finish := fun (s : State) =>
          (s.setCtx cell elem ctx fun k => { k with wait := none }).asFiring f fun s => s.endFiring (s.trgOf f) 0
        match s.regions.find? (s.seatedIn ts) with
        | none => if s.saved.any (fun v => v.seats.any ts.contains) then s else finish s
        | some r =>
            if !r.period || (s.cell cell).stopped then s
            else
              let s := r.cells.foldl (fun s c => s.switchDraft c) s
              finish (s.setRegion r.die r.index fun r => { r with period := false, reported := false, idle := 0, idleSince := s.time })
    | _ => s)

end Sys2Proof.Machine
end

