-- ==== Sys2Proof/Machine/Special.lean ====
section
/-! DEFINITION. The special functions (R204, R205, R274): exact results where the tables give them, and
elsewhere a free pick (log 6) among the FP32 values that lie within the stated bound of all of an enclosure of
the exact result. -/

namespace Sys2Proof.Machine

/-- Signed rational num / den rounded into FP32 in a directed mode, as a position in the FP32 order. -/
def keyOfRat (mode : RoundMode) (num : Int) (den : Nat) (exp : Int) : Int :=
  ordKey (BitVec.ofNat 32 (roundFinite .fp32 mode (num < 0) num.natAbs den exp).1)

/-- The free pick (log 6) among the FP32 values from position lo to position hi. -/
def pickKey (op : Nat) (a : Word) (lo hi : Int) : Word :=
  let n := (hi - lo + 1).toNat
  ofOrdKey (lo + ((Config.specialPick op a.toNat % (if n = 0 then 1 else n) : Nat) : Int))

/-- Exponent of ulp(y) for |y| ≤ num / den * 2^exp (R204). -/
def ulpExp (num den : Nat) (exp : Int) : Int := max (floorLog2 num den + exp - 23) (-149)

/-- The FP32 positions within k ulp of every number between lo / den * 2^exp and hi / den * 2^exp, an enclosure of the exact y. The ulp
is that of the end nearer to 0, so it is no more than that of y (R204). -/
def withinUlp (k : Nat) (lo hi : Int) (den : Nat) (exp : Int) : Int × Int :=
  let u := ulpExp (min lo.natAbs hi.natAbs) den exp
  let (p, q) := pow2 (u - exp)
  let d : Int := (k * p * den : Nat)
  (keyOfRat .ru (hi * q - d) (den * q) exp, keyOfRat .rd (lo * q + d) (den * q) exp)

/-- NX, and UF for a subnormal or zero result (R274). -/
def inexactFlags (r : Word) : Nat :=
  flagNX + (if r.toNat % 2 ^ 31 < 2 ^ 23 then flagUF else 0)

/-- The scale of the enclosures of 2^f and log2. -/
def encDen : Nat := 2 ^ 160

/-- Bounds of 2^(2^-i) for i = 1, 2, …, as multiples of 2^-160. -/
def rootsOfTwo : Nat → Nat × Nat → List (Nat × Nat)
  | 0, _ => []
  | n + 1, (lo, hi) =>
      let c := (isqrt (lo * encDen), isqrt (hi * encDen) + 1)
      c :: rootsOfTwo n c

/-- One factor of the product, rounded down and up, where its bit is set. -/
def expStep (x : Nat × Nat) (c : (Nat × Nat) × Bool) : Nat × Nat :=
  if c.2 then (x.1 * c.1.1 / encDen, x.2 * c.1.2 / encDen + 1) else x
/-- Bounds of 2^(b / 2^96), as multiples of 2^-160. -/
def exp2Pair (b : Nat) : Nat × Nat :=
  ((rootsOfTwo 96 (2 * encDen, 2 * encDen)).zip ((List.range 96).map fun i => bit b (95 - i))).foldl expStep (encDen, encDen)
/-- Bounds of 2^f, f = m * 2^e in [0, 1), as multiples of 2^-160; the result is below 2. -/
def exp2Bounds (m : Nat) (e : Int) : Nat × Nat :=
  let r := exp2Pair (m * (pow2 (e + 96)).1 / (pow2 (e + 96)).2)
  (r.1, min (r.2 + r.2 / 2 ^ 96 + 1) (2 * encDen))

/-- n bits of log2 of x / 2^400 for x in [2^400, 2^401), by repeated squaring. -/
def log2Go : Nat → Nat → Nat → Nat
  | 0, _, acc => acc
  | n + 1, x, acc =>
      let y := x * x / 2 ^ 400
      if y ≥ 2 ^ 401 then log2Go n (y / 2) (2 * acc + 1) else log2Go n y (2 * acc)

/-- Bounds of log2 of the significand of m, as multiples of 2^-160. -/
def log2Bounds (m : Nat) : Nat × Nat :=
  let l := log2Go 160 (m * 2 ^ (400 - Nat.log2 m)) 0
  (l, l + 2)

/-- floor(pi * 2^100). -/
def piScaled : Nat := 3982441812995697363688351113952

/-- The Taylor sum of sin at Z / 2^100 with the terms up to the power 2k + 1, over 25! * 2^2500. -/
def sinTaylor (z : Nat) (k : Nat) : Int :=
  (List.range (k + 1)).foldl (fun acc j =>
    let t : Int := (z ^ (2 * j + 1) * 2 ^ (100 * (24 - 2 * j)) *
      (Nat.factorial 25 / Nat.factorial (2 * j + 1)) : Nat)
    if j % 2 = 0 then acc + t else acc - t) 0

/-- Bounds of sin(pi * num / den) for 0 ≤ num / den ≤ 1/2, over 25! * 2^2500. -/
def sinBounds (num den : Nat) : Int × Int :=
  (sinTaylor (piScaled * num / den) 11, sinTaylor ((piScaled + 1) * num / den + 1) 12)

def sinDen : Nat := Nat.factorial 25 * 2 ^ 2500

/-- A value within 2^-22 of ±sin(pi * num / den), which lies between 0 and 1 (R204). -/
def sinPick (op : Nat) (a : Word) (neg : Bool) (num den : Nat) : Word :=
  let (lo, hi) := sinBounds num den
  let d : Int := (sinDen / 2 ^ 22 : Nat)
  let hi := min hi sinDen
  let (lo, hi) := if neg then (-hi, -lo) else (lo, hi)
  pickKey op a (keyOfRat .ru (hi - d) sinDen 0) (keyOfRat .rd (lo + d) sinDen 0)

/-- The canonical NaN, with NV for a signalling operand (R191). -/
def nanResult (s : Bool) : Word × Nat := (canonNan32, if s then flagNV else 0)

def zeroResult (neg : Bool) : Word := if neg then 0x80000000 else 0
def infResult (neg : Bool) : Word := if neg then 0xFF800000 else 0x7F800000
def oneResult (neg : Bool) : Word := if neg then 0xBF800000 else 0x3F800000

/-- Position of the largest finite FP32 value. -/
def maxKey : Int := 0x7F7FFFFF

/-- floor and fraction of (-1)^neg * m * 2^e for e < 0: the floor, and the fraction as a numerator over 2^(-e). -/
def floorFrac (neg : Bool) (m : Nat) (e : Int) : Int × Nat :=
  let d := 2 ^ (-e).toNat
  let v : Int := if neg then -(m : Int) else m
  (v / d, (v % d).toNat)

/-- FX2F (R274). -/
def fx2fVal (a : Word) : Word × Nat :=
  match fpDecode .fp32 a.toNat with
  | .nan s => nanResult s
  | .inf _ => (canonNan32, flagNV)
  | .num neg m e =>
      if m = 0 || e ≥ 0 then (oneResult false, 0)
      else
        let (_, f) := floorFrac neg m e
        if f = 0 then (oneResult false, 0)
        else
          let (lo, hi) := exp2Bounds f e
          let (k0, k1) := withinUlp 1 lo hi encDen 0
          (pickKey 0x3E a (max k0 0x3F800000) (min k1 0x3FFFFFFF), flagNX)

/-- FLG2F (R274): a negative operand gives what its magnitude does. -/
def flg2fVal (a : Word) : Word × Nat :=
  match fpDecode .fp32 a.toNat with
  | .nan s => nanResult s
  | .inf _ => (canonNan32, flagNV)
  | .num _ m _ =>
      if m = 0 then (infResult true, flagDZ)
      else if m = 2 ^ Nat.log2 m then (0, 0)
      else
        let (lo, hi) := log2Bounds m
        let (k0, k1) := withinUlp 1 lo hi encDen 0
        (pickKey 0x3F (BitVec.ofNat 32 (a.toNat % 2 ^ 31)) (max k0 0) (min k1 0x3F7FFFFF), flagNX)

/-- FEXP2 (R274). -/
def fexp2Val (a : Word) : Word × Nat :=
  match fpDecode .fp32 a.toNat with
  | .nan s => nanResult s
  | .inf neg => (if neg then 0 else infResult false, 0)
  | .num neg m e =>
      let (n, f) := if e ≥ 0 then ((if neg then -(m * 2 ^ e.toNat : Nat) else (m * 2 ^ e.toNat : Nat) : Int), 0)
        else floorFrac neg m e
      if n ≥ 128 then (infResult false, flagOF + flagNX)
      else if n < -150 || (n = -150 && f = 0) then (0, flagUF + flagNX)
      else if f = 0 then (BitVec.ofNat 32 (roundFinite .fp32 .rne false 1 1 n).1, 0)
      else
        let (lo, hi) := exp2Bounds f e
        let k := if n < -126 then 1 else 2
        let (k0, k1) := withinUlp k lo hi encDen n
        let r := pickKey 0x40 a (max k0 0) (min k1 maxKey)
        (r, inexactFlags r)

/-- FLOG2 (R274). -/
def flog2Val (a : Word) : Word × Nat :=
  match fpDecode .fp32 a.toNat with
  | .nan s => nanResult s
  | .inf neg => if neg then (canonNan32, flagNV) else (infResult false, 0)
  | .num neg m e =>
      if m = 0 then (infResult true, flagDZ)
      else if neg then (canonNan32, flagNV)
      else
        let x : Int := (Nat.log2 m : Int) + e
        if m = 2 ^ Nat.log2 m then fcvtfVal x
        else
          let (lo, hi) := log2Bounds m
          let (k0, k1) := withinUlp 2 (x * (encDen : Nat) + lo) (x * (encDen : Nat) + hi) encDen 0
          (pickKey 0x41 a k0 k1, flagNX)

/-- FRCP (R274). -/
def frcpVal (a : Word) : Word × Nat :=
  match fpDecode .fp32 a.toNat with
  | .nan s => nanResult s
  | .inf neg => (zeroResult neg, 0)
  | .num neg m e =>
      if m = 0 then (infResult neg, flagDZ)
      else if floorLog2 m 1 + e < -128 || (floorLog2 m 1 + e = -128 && m = 2 ^ Nat.log2 m) then
        (infResult neg, flagOF + flagNX)
      else if m = 2 ^ Nat.log2 m then
        (BitVec.ofNat 32 (roundFinite .fp32 .rne neg 1 m (-e)).1, 0)
      else
        let (k0, k1) := withinUlp 1 1 1 m (-e)
        let r := pickKey 0x42 a (max k0 0) (min k1 maxKey)
        (if neg then r ||| 0x80000000 else r, inexactFlags r)

/-- m * 2^e as M * 2^(2h) (for square roots). -/
def evenForm (m : Nat) (e : Int) : Nat × Int :=
  if e % 2 = 0 then (m, e / 2) else (2 * m, (e - 1) / 2)

/-- FRSQ (R274). -/
def frsqVal (a : Word) : Word × Nat :=
  match fpDecode .fp32 a.toNat with
  | .nan s => nanResult s
  | .inf neg => if neg then (canonNan32, flagNV) else (0, 0)
  | .num neg m e =>
      if m = 0 then (infResult neg, flagDZ)
      else if neg then (canonNan32, flagNV)
      else if m = 2 ^ Nat.log2 m ∧ ((Nat.log2 m : Int) + e) % 2 = 0 then
        (BitVec.ofNat 32 (roundFinite .fp32 .rne false 1 1 (-((Nat.log2 m : Int) + e) / 2)).1, 0)
      else
        let (mm, h) := evenForm m e
        let l := isqrt (2 ^ 320 / mm)
        let (k0, k1) := withinUlp 1 l (l + 1 : Nat) encDen (-h)
        (pickKey 0x43 a k0 k1, flagNX)

/-- FSQRT, correctly rounded (R274). -/
def fsqrtVal (a : Word) : Word × Nat :=
  match fpDecode .fp32 a.toNat with
  | .nan s => nanResult s
  | .inf neg => if neg then (canonNan32, flagNV) else (infResult false, 0)
  | .num neg m e =>
      if m = 0 then (a, 0)
      else if neg then (canonNan32, flagNV)
      else
        let (mm, h) := evenForm m e
        let s := isqrt (mm * 2 ^ 120)
        let n := if s * s = mm * 2 ^ 120 then 2 * s else 2 * s + 1
        let (r, fl) := roundFinite .fp32 .rne false n 1 (h - 61)
        (BitVec.ofNat 32 r, fl)

/-- FSINP (R274): odd; 0 at integers, ±1 at half-integers. -/
def fsinpVal (a : Word) : Word × Nat :=
  match fpDecode .fp32 a.toNat with
  | .nan s => nanResult s
  | .inf _ => (canonNan32, flagNV)
  | .num neg m e =>
      if m = 0 || e ≥ 0 then (zeroResult neg, 0)
      else
        let d := 2 ^ (-e).toNat
        let r := m % (2 * d)
        let t := r % d
        let flip := neg != (r ≥ d)
        if t = 0 then (zeroResult neg, 0)
        else if 2 * t = d then (oneResult flip, 0)
        else
          let t := if 2 * t > d then d - t else t
          let p := sinPick 0x47 (BitVec.ofNat 32 (a.toNat % 2 ^ 31)) (r ≥ d) t d
          (if neg then p ^^^ 0x80000000 else p, flagNX)

/-- FCOSP (R274): even; ±1 at integers, +0 at half-integers. -/
def fcospVal (a : Word) : Word × Nat :=
  match fpDecode .fp32 a.toNat with
  | .nan s => nanResult s
  | .inf _ => (canonNan32, flagNV)
  | .num _ m e =>
      if m = 0 then (oneResult false, 0)
      else if e ≥ 0 then (oneResult (e = 0 && m % 2 = 1), 0)
      else
        let d := 2 ^ (-e).toNat
        let r := m % (2 * d)
        let r := if r > d then 2 * d - r else r
        if r = 0 then (oneResult false, 0)
        else if r = d then (oneResult true, 0)
        else if 2 * r = d then (0, 0)
        else
          let p := sinPick 0x147 (BitVec.ofNat 32 (a.toNat % 2 ^ 31)) (2 * r > d)
            (if 2 * r > d then 2 * r - d else d - 2 * r) (2 * d)
          (p, flagNX)

end Sys2Proof.Machine
end

