-- ==== Sys2Proof/Machine/Float.lean ====
section
/-! DEFINITION. Floating-point, special-function, conversion and block instructions
(11_isa_floating_point.md R261 to R279). -/

namespace Sys2Proof.Machine

/-- A result without flags, lane by lane (R261). -/
def State.bitsOp (s : State) (t : Fin 64) (d : Dst) (f : Nat → Word) : State := (s.put t d f).endFiring t 0

/-- FADD (R263). -/
def execFadd (t : Fin 64) (d : Dst) (a b : Src) (s : State) : Out :=
  .next (s.fpu t d 0 fun l => fadd32 (s.rd a l) (s.rd b l))

/-- FSUB (R263). -/
def execFsub (t : Fin 64) (d : Dst) (a b : Src) (s : State) : Out :=
  .next (s.fpu t d 0 fun l => fsub32 (s.rd a l) (s.rd b l))

/-- FMUL (R263). -/
def execFmul (t : Fin 64) (d : Dst) (a b : Src) (s : State) : Out :=
  .next (s.fpu t d 0 fun l => fmul32 (s.rd a l) (s.rd b l))

/-- FFMA (R264). -/
def execFfma (t : Fin 64) (d : Dst) (a b : Src) (c : VReg) (s : State) : Out :=
  .next (s.fpu t d 0 fun l => onWords3 (fpFma .fp32) (s.rd a l) (s.rd b l) (lane (s.vreg c.val) l))

/-- FFMS (R264). -/
def execFfms (t : Fin 64) (d : Dst) (a b : Src) (c : VReg) (s : State) : Out :=
  .next (s.fpu t d 0 fun l => onWords3 (fpFms .fp32) (s.rd a l) (s.rd b l) (lane (s.vreg c.val) l))

/-- FMIN (R265). -/
def execFmin (t : Fin 64) (d : Dst) (a b : Src) (s : State) : Out :=
  .next (s.fpu t d 0 fun l => fminmax false false (s.rd a l) (s.rd b l))

/-- FMAX (R265). -/
def execFmax (t : Fin 64) (d : Dst) (a b : Src) (s : State) : Out :=
  .next (s.fpu t d 0 fun l => fminmax true false (s.rd a l) (s.rd b l))

/-- FMINP (R265). -/
def execFminp (t : Fin 64) (d : Dst) (a b : Src) (s : State) : Out :=
  .next (s.fpu t d 0 fun l => fminmax false true (s.rd a l) (s.rd b l))

/-- FMAXP (R265). -/
def execFmaxp (t : Fin 64) (d : Dst) (a b : Src) (s : State) : Out :=
  .next (s.fpu t d 0 fun l => fminmax true true (s.rd a l) (s.rd b l))

/-- FABS (R266). -/
def execFabs (t : Fin 64) (d : Dst) (a : Src) (s : State) : Out :=
  .next (s.bitsOp t d fun l => s.rd a l &&& 0x7FFFFFFF)

/-- FNEG (R266). -/
def execFneg (t : Fin 64) (d : Dst) (a : Src) (s : State) : Out :=
  .next (s.bitsOp t d fun l => s.rd a l ^^^ 0x80000000)

/-- FCPYS (R266). -/
def execFcpys (t : Fin 64) (d : Dst) (a b : Src) (s : State) : Out :=
  .next (s.bitsOp t d fun l => (s.rd a l &&& 0x7FFFFFFF) ||| (s.rd b l &&& 0x80000000))

/-- FCMP (R267). -/
def execFcmp (t : Fin 64) (d : MaskReg) (a b : Src) (k : Fin 8) (s : State) : Out :=
  .next (let fl := flagsOver s.m0 fun l => (0, (fcmpCond k.val (s.rd a l) (s.rd b l)).2)
    (s.raiseFlags fl).compare t d fun l => (fcmpCond k.val (s.rd a l) (s.rd b l)).1)

/-- FCLASS (R268). -/
def execFclass (t : Fin 64) (d : Dst) (a : Src) (s : State) : Out :=
  .next (s.bitsOp t d fun l => fclassVal (s.rd a l))

/-- FRND (R269). -/
def execFrnd (t : Fin 64) (d : Dst) (a : Src) (k : Fin 8) (s : State) : Out :=
  .next (s.fpu t d 0 fun l => frndVal k.val (s.rd a l))

/-- FCVTI (R270): the source is a 32-bit lane in both widths. -/
def execFcvti (t : Fin 64) (d : Dst) (a : Src) (w u : Bool) (s : State) : Out :=
  .next (let f := fun l => fcvtiVal (if w then 64 else 32) u (s.rd a l)
    ((s.raiseFlags (flagsOver s.m0 fun l => (0, (f l).2))).putSel t w d
      (fun l => BitVec.ofNat 32 (f l).1) (fun l => BitVec.ofNat 64 (f l).1)).endFiring t 0)

/-- FCVTF (R271): under w the source is a pair, the result 32 bits. -/
def execFcvtf (t : Fin 64) (d : Dst) (a : Src) (w u : Bool) (s : State) : Out :=
  .next (s.fpu t d 0 fun l =>
    if w then (if u then fcvtfVal (s.rdW a l).toNat else fcvtfVal (s.rdW a l).toInt)
    else (if u then fcvtfVal (s.rd a l).toNat else fcvtfVal (s.rd a l).toInt))

/-- Constant c6: the scale of FCVT and FUNP (R216). -/
def State.scaleCode (s : State) : Nat := (s.curDraft.consts.getD 6 0).toNat % 256

/-- The result of FCVT in a lane: encoding, flags, overflow; a lane outside m0 gives encoding 0 (R272, R200, R203). -/
def State.narrowLane (s : State) (a : Src) (sr : Bool) (k l : Nat) : Nat × Nat × Bool :=
  if inMask s.m0 l then
    let mode := if sr then .sr (srRandom (s.curDraft.consts.getD 7 0) l s.curCtx.srcnt) else .rne
    narrow (narrowFmt k) s.scaleCode mode (s.rd a l)
  else (0, 0, false)

/-- The payload of the overflow token (R202): x gives the source lanes, over the overflowed lanes. -/
def overflowToken (over_ : LaneMask) (scale : Nat) (x : Nat → Word) : Lanes :=
  let worst := (lanesOf over_).foldl (fun acc l => Nat.max acc ((x l).toNat % 2 ^ 31)) 0
  [over_.setWidth 32, (over_ >>> 32).setWidth 32, BitVec.ofNat 32 worst, BitVec.ofNat 32 scale] ++ List.replicate 12 0

/-- A whole-register result, whatever m0 holds: FCVT and the packed results of the other narrowings (R272). -/
def State.putWhole (s : State) (t : Fin 64) (d : Dst) (xs : Lanes) : State :=
  match d with
  | .v r => s.writeReg r.val (BitVec.allOnes 64) fun l => lane xs l
  | .o n =>
      let w := routeWidth (s.routeOf s.cur.cell s.cur.elem n.val)
      s.sendOn s.cur.cell s.cur.elem n.val (s.sendTag t) ((List.range w).map fun l => lane xs l)
  | .discard => s

/-- The report of overflowed lanes: a token on the channel, or NO when the channel is `_` (R202). -/
def State.reportOverflow (s : State) (b : ODst) (over_ : LaneMask) (code opcode scale : Nat) (x : Nat → Word) : State :=
  if over_ = 0 then s
  else match b with
    | .o n => s.sendOn s.cur.cell s.cur.elem n.val (BitVec.ofNat 32 (opcode * 256 + code)) (overflowToken over_ scale x)
    | .discard => s.raiseFlags flagNO

/-- FCVT (R272). -/
def execFcvt (t : Fin 64) (d : Dst) (a : Src) (b : ODst) (sr : Bool) (k : Fin 8) (s : State) : Out :=
  .next (let f := fun l => s.narrowLane a sr k.val l
    let packed := packElems (elemBits (narrowFmt k.val)) ((List.range 64).map fun l => (f l).1)
    let over_ := maskOf fun l => (f l).2.2
    let s1 := (s.raiseFlags (flagsOver s.m0 fun l => (0, (f l).2.1))).putWhole t d packed
    let s2 := s1.reportOverflow b over_ (narrowCode k.val) 0x3C s.scaleCode (s.rd a)
    (s2.setCurCtx fun c => { c with srcnt := if sr then c.srcnt + 1 else c.srcnt }).endFiring t 1)

/-- FUNP (R273). -/
def execFunp (t : Fin 64) (d : Dst) (a : Src) (h : Bool) (k : Fin 8) (s : State) : Out :=
  .next (let fmt := narrowFmt k.val
    let xs := s.src a
    s.fpu t d 0 fun l => widen fmt s.scaleCode (elemAt (elemBits fmt) xs ((if h then 64 else 0) + l)))

/-- FX2F (R274, R204). -/
def execFx2f (t : Fin 64) (d : Dst) (a : Src) (s : State) : Out :=
  .next (s.fpu t d 1 fun l => fx2fVal (s.rd a l))

/-- FLG2F (R274, R204). -/
def execFlg2f (t : Fin 64) (d : Dst) (a : Src) (s : State) : Out :=
  .next (s.fpu t d 1 fun l => flg2fVal (s.rd a l))

/-- FEXP2 (R274, R204). -/
def execFexp2 (t : Fin 64) (d : Dst) (a : Src) (s : State) : Out :=
  .next (s.fpu t d 1 fun l => fexp2Val (s.rd a l))

/-- FLOG2 (R274, R204). -/
def execFlog2 (t : Fin 64) (d : Dst) (a : Src) (s : State) : Out :=
  .next (s.fpu t d 1 fun l => flog2Val (s.rd a l))

/-- FRCP (R274, R204). -/
def execFrcp (t : Fin 64) (d : Dst) (a : Src) (s : State) : Out :=
  .next (s.fpu t d 1 fun l => frcpVal (s.rd a l))

/-- FRSQ (R274, R204). -/
def execFrsq (t : Fin 64) (d : Dst) (a : Src) (s : State) : Out :=
  .next (s.fpu t d 1 fun l => frsqVal (s.rd a l))

/-- FSQRT (R274, R204). -/
def execFsqrt (t : Fin 64) (d : Dst) (a : Src) (s : State) : Out :=
  .next (s.fpu t d 7 fun l => fsqrtVal (s.rd a l))

/-- FSCL (R275). -/
def execFscl (t : Fin 64) (d : Dst) (a b : Src) (s : State) : Out :=
  .next (s.fpu t d 0 fun l => fsclVal (s.rd a l) (s.rd b l))

/-- FGETX (R274). -/
def execFgetx (t : Fin 64) (d : Dst) (a : Src) (s : State) : Out :=
  .next (s.bitsOp t d fun l => fgetxVal (s.rd a l))

/-- FGETM (R274). -/
def execFgetm (t : Fin 64) (d : Dst) (a : Src) (s : State) : Out :=
  .next (s.fpu t d 0 fun l => fgetmVal (s.rd a l))

/-- FSINP (R274, R204). -/
def execFsinp (t : Fin 64) (d : Dst) (a : Src) (s : State) : Out :=
  .next (s.fpu t d 3 fun l => fsinpVal (s.rd a l))

/-- FCOSP (R274, R204). -/
def execFcosp (t : Fin 64) (d : Dst) (a : Src) (s : State) : Out :=
  .next (s.fpu t d 3 fun l => fcospVal (s.rd a l))

/-- HFMA2 (R276): C[2:0] names v0 to v7. -/
def execHfma2 (t : Fin 64) (d : Dst) (a b : Src) (h : Bool) (c : Fin 8) (s : State) : Out :=
  .next (s.fpu t d 0 fun l => onHalves (fpFma (halfFmt h)) (s.rd a l) (s.rd b l) (lane (s.vreg c.val) l))

/-- HADD2 (R276). -/
def execHadd2 (t : Fin 64) (d : Dst) (a b : Src) (h : Bool) (s : State) : Out :=
  .next (s.fpu t d 0 fun l => onHalves (fun x y _ => fpAdd (halfFmt h) x y) (s.rd a l) (s.rd b l) 0)

/-- HMUL2 (R276). -/
def execHmul2 (t : Fin 64) (d : Dst) (a b : Src) (h : Bool) (s : State) : Out :=
  .next (s.fpu t d 0 fun l => onHalves (fun x y _ => fpMul (halfFmt h) x y) (s.rd a l) (s.rd b l) 0)

/-- FDOT2 (R277). -/
def execFdot2 (t : Fin 64) (d : Dst) (a b : Src) (c : VReg) (s : State) : Out :=
  .next (s.fpu t d 1 fun l => fdot2Val (s.rd a l) (s.rd b l) (lane (s.vreg c.val) l))

/-- BSCALE (R278): the index is taken at the lowest lane in m0. -/
def execBscale (t : Fin 64) (d : Dst) (a b : Src) (s : State) : Out :=
  .next (let k := match lowest s.m0 with
      | some l => (s.rd b l).toNat % 8
      | none => 0
    (s.put t d fun _ => bscaleVal (s.src a) s.m0 k).endFiring t 5)

/-- PACKB (R279). -/
def execPackb (t : Fin 64) (d : Dst) (a b : Src) (s : State) : Out :=
  .next (s.bitsOp t d fun l => packbVal (s.rd a l) (s.rd b l))

/-- UNPKB (R279). -/
def execUnpkb (t : Fin 64) (d : Dst) (a b : Src) (s : State) : Out :=
  .next (s.bitsOp t d fun l => unpkbVal (s.rd a l) (s.rd b l))

end Sys2Proof.Machine
end

