-- ==== Sys2Proof/Machine/Enumeration.lean ====
section
/-! DEFINITION. The enumeration table that hub firmware builds from the fuses (03_hierarchy_and_enumeration.md R65, R67,
R75, R76, R78 to R86; 00_scope.md R2 to R5), for a part of any grade (log 3). -/

namespace Sys2Proof.Machine

/-! Cell numbers (R78, R81). -/

/-- The sites of a die, in row-major order: 16 * row + column. -/
def userSites (f : DieFuses) : List Nat := (List.range 160).filter fun i => !f.disabled.contains i && !f.resident.contains i
def residentSites (f : DieFuses) : List Nat := (List.range 160).filter fun i => !f.disabled.contains i && f.resident.contains i

/-- The local logical number of a site: user cells first, then the resident sites (R78). -/
def localNo (f : DieFuses) (site : Nat) : Option Nat :=
  if f.disabled.contains site then none
  else if f.resident.contains site then some ((userSites f).length + (residentSites f).idxOf site)
  else some ((userSites f).idxOf site)

/-- A cell entry (R81). -/
def cellEntry (f : DieFuses) (die site : Nat) : Nat :=
  let status := if f.disabled.contains site then 0 else if f.resident.contains site then 2 else 1
  status * 2 ^ 30 + die * 2 ^ 20 + site / 16 * 2 ^ 16 + site % 16 * 2 ^ 12 + (localNo f site).getD 0xFF

/-! Dies, links and their boundary counts (R4, R5, R76, R80, R83). -/

def dieGrid : List (Nat × Nat) := [(0, 0), (0, 1), (0, 2), (1, 0), (1, 2), (2, 0), (2, 1), (2, 2), (1, 1)]
def linkEnds : List (Nat × Nat) :=
  [(0, 1), (1, 2), (0, 3), (2, 4), (3, 5), (4, 7), (5, 6), (6, 7), (8, 1), (8, 3), (8, 4), (8, 6)]

/-- The dies reached from a set over the present links. -/
def spread (links : List (Nat × Nat)) (ds : List Nat) : List Nat :=
  (List.range 9).filter fun d => ds.contains d || links.any fun l => (l.1 == d && ds.contains l.2) || (l.2 == d && ds.contains l.1)

/-- The boundary count of two dies, over the links that are present; 9 where there is no path (R5, R86). -/
def boundary (links : List (Nat × Nat)) (i j : Nat) : Nat :=
  let go := fun (acc : List Nat × Nat) (_ : Nat) => if acc.1.contains j then acc else (spread links acc.1, acc.2 + 1)
  ((List.range 9).foldl go ([i], 0)).2

/-- A die entry (R80): GMASK has the populated controllers of the grade (R3). -/
def dieEntry (grade : Nat) (fuses : List DieFuses) (ports : Nat → Nat) (d : Nat) : List Nat :=
  let g := dieGrid.getD d (0, 0)
  if d = 8 then [8, g.1, g.2, 2] ++ List.replicate 12 0
  else
    let f := fuses.getD d ⟨[], []⟩
    let up := (if ports (2 * d) = 0 then 0 else 1) + (if ports (2 * d + 1) = 0 then 0 else 2)
    [d, g.1, g.2, 1] ++ leBytes 2 (userSites f).length ++ [(residentSites f).length, f.disabled.length, 2 ^ controllers grade - 1, 48, up] ++ List.replicate 5 0

/-- A slice entry (R65, R67, R82). -/
def sliceEntry (grade s : Nat) : List Nat :=
  let pos := s % 48
  let edge := if pos < 16 then 0 else if pos < 24 then 1 else if pos < 40 then 2 else 3
  [s / 48, pos, edge, 16] ++ leBytes 2 2048 ++ [sliceController grade s, 1]

/-- A link entry with its live lanes (R83). -/
def linkEntry (n live : Nat) : List Nat :=
  let e := linkEnds.getD n (0, 0)
  [n, e.1, e.2, 0] ++ leBytes 2 live ++ leBytes 2 (live * 3125 / 100)

/-- A memory device entry (R3, R75, R84). DEDUCED (log 54): an absent controller's capacity is 0, as its bandwidth is. -/
def deviceEntry (grade i : Nat) : List Nat :=
  if i < 64 then
    if i % 8 < controllers grade then [1, i / 8, i % 8, 1] ++ leBytes 2 4 ++ leBytes 2 192 else [0, i / 8, i % 8, 0, 0, 0, 0, 0]
  else [2, 8, i - 64, 1] ++ leBytes 2 (channelGiB grade) ++ leBytes 2 75

/-- A port entry with its status (R85): the ports of the hub carry die code 8. -/
def portEntry (i status : Nat) : List Nat :=
  if i < 16 then [1, i / 2, i % 2, 4] ++ leBytes 2 200 ++ [status, 0]
  else if i < 18 then [2, 8, i - 16, 4] ++ leBytes 2 200 ++ [status, 0]
  else if i = 18 then [3, 8, 0, 1] ++ leBytes 2 25 ++ [status, 0]
  else [4, 8, 0, 16] ++ leBytes 2 64 ++ [status, 0]

/-- The latency class of two dies in ns (R76, R86). -/
def latency (links : List (Nat × Nat)) (i j : Nat) : Nat := 150 + 55 * boundary links i j

/-- The table but for its CRC (R79). -/
def enumBody (grade modnum : Nat) (fuses : List DieFuses) (lanes ports : List Nat) : List Nat :=
  let live := fun n => lanes.getD n 320
  let status := fun n => ports.getD n 1
  let links := ((linkEnds.zip (List.range 12)).filter fun l => live l.2 != 0).map (·.1)
  let offsets := [0x40, 0xD0, 0x14D0, 0x20D0, 0x2130, 0x23B0, 0x2450]
  let head := leBytes 4 0x4E45564B ++ leBytes 2 1 ++ leBytes 2 64 ++ leBytes 4 0x2500 ++ [grade, modnum, 8, 0] ++
    offsets.flatMap (leBytes 4) ++ List.replicate 20 0
  head ++ (List.range 9).flatMap (dieEntry grade fuses status) ++
  ((List.range 1280).flatMap fun i => leBytes 4 (cellEntry (fuses.getD (i / 160) ⟨[], []⟩) (i / 160) (i % 160))) ++
  (List.range 384).flatMap (sliceEntry grade) ++ ((List.range 12).flatMap fun n => linkEntry n (live n)) ++
  (List.range 80).flatMap (deviceEntry grade) ++ ((List.range 20).flatMap fun n => portEntry n (status n)) ++
  ((List.range 81).flatMap fun k => leBytes 2 (latency links (k / 9) (k % 9))) ++ List.replicate 14 0

/-- The enumeration table, its CRC over the whole table with the field as 0 (R79). -/
def enumBytes (grade modnum : Nat) (fuses : List DieFuses) (lanes ports : List Nat) : List Nat :=
  let b := enumBody grade modnum fuses lanes ports
  putBytes b 44 (leBytes 4 (crc32 b))

end Sys2Proof.Machine
end

