-- ==== Sys2Proof/Machine/Admission.lean ====
section
/-! DEFINITION. Launch blocks and their checks, placement, the loading of drafts, and admission
(15_scheduling_and_clocks.md R351 to R362, R365; 07_execution_model.md R176; 13_heddle_array.md R321). -/

namespace Sys2Proof.Machine

/-! The launch block and its tables (R353 to R355). -/

/-- The allowed dies of a mask; 0 stands for a default. -/
def diesOr (mask deflt : Nat) : Nat := if mask = 0 then deflt else mask
def dieList (mask : Nat) : List Nat := (List.range 8).filter (bit mask)

/-- A stage record (R355); dies resolved against the graph's. -/
def parseStage (b : List Nat) (graphDies : Nat) : Stage :=
  { drafts := (List.range 16).map fun i => fieldAt b (8 * i) 8, foot := fieldAt b 128 1, part := fieldAt b 129 1,
    dies := diesOr (fieldAt b 130 1) graphDies, minrep := fieldAt b 132 2, maxrep := fieldAt b 134 2,
    qcap := if fieldAt b 136 2 = 0 then 64 else fieldAt b 136 2, growd := fieldAt b 140 4,
    growt := if fieldAt b 144 4 = 0 then 8000 else fieldAt b 144 4, shrd := fieldAt b 148 4,
    shrt := if fieldAt b 152 4 = 0 then 64000 else fieldAt b 152 4 }

def anyByte (b : List Nat) (o n : Nat) : Bool := !(nonzeroAt b o n).isEmpty

/-- The causes that a launch block shows by itself; one shorter than 256 bytes could not be read whole (R356). -/
def blockCauses (b : List Nat) (q : Nat) (fromTail : Bool) : List Nat :=
  let one := fun (c : Nat) (p : Bool) => if p then [c] else []
  let off := fun (o a : Nat) => fieldAt b o 8 % a != 0
  one 1 (fieldAt b 0 4 != 0x4B4C4E43 || fieldAt b 4 2 != 1) ++
  one 2 (fieldAt b 8 1 ≥ 8 || fieldAt b 11 1 ≥ 4 || anyByte b 41 3 || anyByte b 94 162 || fieldAt b 10 1 > 4 ||
         (!fromTail && fieldAt b 9 1 != q)) ++
  one 3 (fieldAt b 6 2 == 0) ++
  one 4 (b.length < 256 || off 16 64 || off 24 256 || off 32 32 || off 56 4096 || (bit (fieldAt b 11 1) 1 && off 64 64)) ++
  one 10 ((fieldAt b 52 4 == 0) != (fieldAt b 56 8 == 0))

/-- The causes of a stage record (R355, R356). -/
def stageCauses (b : List Nat) : List Nat :=
  let one := fun (c : Nat) (p : Bool) => if p then [c] else []
  let st := parseStage b 255
  one 2 (anyByte b 131 1 || anyByte b 138 2 || anyByte b 156 100) ++
  one 4 (st.drafts.any (· % 64 != 0)) ++
  one 5 (st.foot < 1 || st.foot > 16 || (st.part > 63 && st.part != 255) || st.minrep > 1024 || st.maxrep > 1024 ||
         st.maxrep < st.minrep || st.maxrep < 1 || st.growd < 1 || st.shrd ≥ st.growd || (st.drafts.drop st.foot).any (· != 0))

/-! Placement (R359, R360). -/

/-- User cells of a die, by local number (R2, R78). -/
def State.userCells (s : State) (die : Nat) : Nat :=
  let d := s.die die
  160 - d.disabled.length - d.resident.length

/-- The free user cells of each die, ascending. -/
def State.freeCells (s : State) : List (List Nat) :=
  (List.range 8).map fun d => ((List.range (s.userCells d)).map (256 * d + ·)).filter fun c => (s.regionOf c).isNone
/-- Every user cell of each die: an idle module (R356 cause 9). -/
def State.idleCells (s : State) : List (List Nat) := (List.range 8).map fun d => (List.range (s.userCells d)).map (256 * d + ·)

/-- One replica: on the first allowed die with room from the one its index names (R359). -/
def placeRep (frees : List (List Nat)) (st : Stage) (i : Nat) : Option (List Nat × List (List Nat)) :=
  let ds := dieList st.dies
  let order := (List.range ds.length).map fun k => ds.getD ((i + k) % ds.length) 0
  (order.find? fun d => (frees.getD d []).length ≥ st.foot).map fun d =>
    ((frees.getD d []).take st.foot, modifyAt frees d (·.drop st.foot))

/-- Replicas of a list of (stage, index), placed in order: each with its cells (R359). -/
def placeReps (stages : List Stage) : List (Nat × Nat) → List (List Nat) → Option (List (Nat × Nat × List Nat))
  | [], _ => some []
  | (k, i) :: rest, frees =>
      match stages[k]? with
      | none => none
      | some st => (placeRep frees st i).bind fun p =>
          (placeReps stages rest p.2).map fun r => (k, i, p.1) :: r

/-- The replicas that admission places: MINREP of each stage in index order. -/
def minReps (stages : List Stage) : List (Nat × Nat) :=
  (stages.zip (List.range stages.length)).flatMap fun p => (List.range p.1.minrep).map fun i => (p.2, i)

/-- The dies that every replica of a saved region may use (R360). -/
def Launch.regionDies (l : Launch) (v : SavedRegion) : List Nat :=
  (List.range 8).filter fun d => v.seats.all fun t => match l.stages[t.stage]? with
    | some st => bit st.dies d
    | none => true

/-- A saved region's cells: on the die it left, else on the lowest allowed die with room (R360). -/
def placeSaved (l : Launch) : List SavedRegion → List (List Nat) → Option (List (SavedRegion × List Nat))
  | [], _ => some []
  | v :: rest, frees =>
      let n := v.seats.length
      let room := fun d => (frees.getD d []).length ≥ n
      let die := if room v.die then some v.die else (l.regionDies v).find? room
      die.bind fun d => (placeSaved l rest (modifyAt frees d (·.drop n))).map fun r => (v, (frees.getD d []).take n) :: r

/-- FITS (R359, R360). -/
def State.fits (s : State) (l : Launch) (frees : List (List Nat)) : Bool :=
  if l.st = .preempted then (placeSaved l (s.saved.filter (·.launch == l.uid)) frees).isSome
  else (placeReps l.stages (minReps l.stages) frees).isSome

/-! Validation (R353, R356). -/

/-- The launch identifier: the lowest that no live launch holds, with its generation (R253, R357). DESIGN CHOICE (log 26): the
lowest one; R253 asks only that it be distinct. -/
def State.newLaunchid (s : State) : Nat × State :=
  let n := ((List.range 65535).map (· + 1)).find? fun n => s.launches.all fun l => l.launchid % 65536 != n
  let n := n.getD 0
  let g := match s.sched.gens.find? (·.1 == n) with | some p => p.2 | none => 0
  let gens := s.sched.gens.filter (·.1 != n) ++ [(n, (g + 1) % 65536)]
  (g * 65536 + n, { s with sched := { s.sched with gens := gens } })

/-- The launch of a block whose checks have passed. -/
def launchOf (uid q block : Nat) (fromTail : Bool) (b : List Nat) (ptab : Nat) (stages : List Stage) (launchid : Nat) : Launch :=
  { uid := uid, queue := q, st := .waiting, asid := fieldAt b 6 2, prio := fieldAt b 8 1 % 8, boost := none,
    qscope := fieldAt b 10 1, irq := bit (fieldAt b 11 1) 0,
    rpt := if bit (fieldAt b 11 1) 1 then some (fieldAt b 64 8) else none, clkreq := fieldAt b 12 2, clkw := fieldAt b 14 1,
    pweight := if fieldAt b 15 1 = 0 then 16 else fieldAt b 15 1, crec := fieldAt b 32 8, block := block, fromTail := fromTail,
    ptab := ptab, evstage := fieldAt b 40 1, wdog := if fieldAt b 44 4 = 0 then 2 ^ 24 else fieldAt b 44 4,
    quantum := fieldAt b 48 4, roles := fieldAt b 72 22, stages := stages, launchid := launchid,
    admitted := 0, lastRun := 0, first := 0, faults := 0, tail := [], draining := [] }

/-- The causes that a graph descriptor shows by itself (R354, R356). -/
def graphCauses (b g : List Nat) : List Nat :=
  let one := fun (c : Nat) (p : Bool) => if p then [c] else []
  let n := fieldAt g 0 2
  one 2 (anyByte g 3 5 || anyByte g 16 48) ++ one 5 (n < 1 || n > 255) ++
  one 8 (fieldAt b 40 1 != 255 && fieldAt b 40 1 ≥ n)

/-- The causes that the stage table of a launch shows, with its stages: descriptor `g` and stage table `t` (R354 to R356). -/
def State.tableCauses (s : State) (g t : List Nat) : List Nat × List Stage :=
  let one := fun (c : Nat) (p : Bool) => if p then [c] else []
  let n := fieldAt g 0 2
  let recs := (List.range (min n 255)).map fun i => sliceBytes t (256 * i) 256
  let stages := recs.map fun r => parseStage r (diesOr (fieldAt g 2 1) 255)
  let parts := (stages.map (·.part)).filter (· != 255)
  (recs.flatMap stageCauses ++ one 6 (hasDup parts) ++
   one 9 (placeReps stages (minReps stages) s.idleCells).isNone, stages)

/-- A table read for a check, piece by piece: whether some piece could not be read, and the bytes, those of such a piece as zeros, which
show no cause below the 4 that its failure is (R356). None while a page of it migrates. -/
def State.tableBytes (s : State) (asid va n : Nat) : Option (Bool × List Nat × State) :=
  (linePieces va n).foldl (fun r p => r.bind fun (bad, bs, s) =>
    match s.hubLoad true asid ((va + p.1) % 2 ^ 64) p.2 with
    | .wait => none
    | .fault code _ a => some (true, bs ++ List.replicate p.2 0, s.countAt code none 0 asid a)
    | .ok new s => some (bad, bs ++ new, s)) (some (false, [], s))

/-- A launch block checked: the lowest cause of all those that can be told, or the launch; none while a page it needs migrates. The
tables are read by the resident scheduler through the launch's tables (R254, R353, R356). -/
def State.validate (s : State) (q block : Nat) (fromTail : Bool) (b : List Nat) : Option (State × (Nat ⊕ Launch)) :=
  let asid := fieldAt b 6 2
  let four := fun (p : Bool) => if p then [4] else []
  (s.tableBytes asid (fieldAt b 16 8) 64).bind fun (badG, g, s) =>
  (s.tableBytes asid (fieldAt b 24 8) (256 * min (fieldAt g 0 2) 255)).bind fun (badT, t, s) =>
    let (cs, stages) := s.tableCauses g t
    match leastBy id (blockCauses b q fromTail ++ four badG ++ graphCauses b g ++ four badT ++ cs) with
    | some cause => some (s, .inl cause)
    | none =>
        let (lid, s) := s.newLaunchid
        let uid := s.sched.nextUid
        let l := launchOf uid q block fromTail b (fieldAt g 8 8) stages lid
        some ({ s with sched := { s.sched with nextUid := uid + 1 } }, .inr l)

/-- The head of a queue leaves it. -/
def State.popHead (s : State) (q : Nat) : State :=
  s.setLqueue q fun k =>
    if k.spliced.isEmpty then k.rehead { k with pushed := k.pushed.drop 1, read := [], headSince := s.time } s.time
    else k.rehead { k with spliced := k.spliced.drop 1 } s.time

/-- A refusal at validation (R356): no cell runs, and the launch ends with the lowest cause and no identifier; without a readable block
there is no record (R402). -/
def State.refuse (s : State) (q block : Nat) (fromTail : Bool) (b : List Nat) (cause : Nat) : State :=
  if b.isEmpty then (s.noRecord.popHead q).stepOwed
  else
    let uid := s.sched.nextUid
    let l := { launchOf uid q block fromTail b 0 [] 0 with st := .ended stRefused cause s.ticks }
    let s := { s with launches := s.launches ++ [l], sched := { s.sched with nextUid := uid + 1 } }.popHead q
    ((s.finishLaunch uid).getD s).stepOwed

/-- The launch that stands for the head of a queue, once validated. -/
def State.headLaunch (s : State) (q : Nat) : Option Launch :=
  let k := s.lqueue q
  match k.head with
  | none => none
  | some a => s.launches.find? fun l => l.st == .waiting && l.queue == q && l.block == a && l.fromTail == !k.spliced.isEmpty

/-- The heads that wait to be validated: queues, enabled or not, whose head has no launch yet (R353). -/
def State.unreadHeads (s : State) : List Nat :=
  (List.range 64).filter fun q => (s.lqueue q).head.isSome && (s.headLaunch q).isNone

/-- The block of a queue's head is read, once, and validated, or refused, which an admission step follows. While a page of its tables
migrates it stays read; none where nothing can be done for it now (R353, R356, R358). -/
def State.readHead (s : State) (q : Nat) : Option State :=
  let k := s.lqueue q
  let fromTail := !k.spliced.isEmpty
  let addr := k.head.getD 0
  let fresh := !fromTail && k.read.isEmpty
  let got : Option (List Nat × State) := match k.spliced with
    | (_, _, b) :: _ => some (b, s)
    | [] =>
        if !fresh then some (k.read, s)
        else (s.loadBlock (fun s a => s.hubLoadPa a 128) (fun s code a => s.countPa code a) addr).map fun r =>
          (r.1, r.2.setLqueue q fun k => { k with read := r.1 })
  got.bind fun (b, s) =>
    if b.isEmpty then some (s.refuse q addr fromTail [] 4)
    else match s.validate q addr fromTail b with
      | none => if fresh then some s else none
      | some (s, .inl cause) => some (s.refuse q addr fromTail b cause)
      | some (s, .inr l) => some { s with launches := s.launches ++ [l] }.stepOwed

/-! Loading (R176, R321, R361). -/

/-- A draft image read for a launch by the resident scheduler (R254, R361). -/
def State.loadImage (s : State) (die asid va : Nat) : HubResult :=
  (linePieces va imageLen).foldl (fun r p => match r with
    | .ok bs s => match s.engineLoadPiece none die asid true .draft 0 ((va + p.1) % 2 ^ 64) p.2 with
      | .ok new s => .ok (bs ++ new) s
      | r => r
    | r => r) (.ok [] s)

/-- Drafts read and validated in order: the failing entries, each with its cell, its cause and what a record says of it, and the drafts
of the others; none while a page migrates (R356, R361, R364). -/
def State.loadDrafts (s : State) (asid : Nat) : List (Nat × Nat) → Option (State × List (Nat × Nat × FaultInfo) × List Draft)
  | [] => some (s, [], [])
  | (cell, va) :: rest =>
      match s.loadImage (dieOf cell) asid va with
      | .wait => none
      | .fault code cause a =>
          ((s.countAt code none (dieOf cell) asid a).loadDrafts asid rest).map fun r =>
            (r.1, (cell, 4, mkFault code cause 0 a) :: r.2.1, r.2.2)
      | .ok bs s => (s.loadDrafts asid rest).map fun r => match imageFault bs with
        | some o => (r.1, (cell, 7, mkFault fDraftValidation 0 0 ((va + o) % 2 ^ 64)) :: r.2.1, r.2.2)
        | none => (r.1, r.2.1, parseDraft bs :: r.2.2)

/-- The width code of the entry channel of a draft. -/
def Draft.entryWidth (d : Draft) : Nat :=
  match d.entries with
  | (e, n) :: _ => bits ((d.elems.getD e DraftElem.blank).chans.getD n 0) 1 0
  | [] => 4

/-- The routes of a draft at a footprint position against its stage set (R176): `foot` are the drafts of its own stage, `heads`
the drafts at position 0 of every stage. -/
def routesOk (foot heads : List Draft) (pos : Nat) (d : Draft) : Bool :=
  d.entries.length == (if pos = 0 then 1 else 0) &&
  d.elems.all fun e => e.routes.all fun r =>
    let width := bits r 29 28
    let chanOf := fun (x : Draft) => bits ((x.elems.getD (bits r 7 6) DraftElem.blank).chans.getD (bits r 5 3) 0) 1 0
    match routeKind r with
    | 1 => width == chanOf d
    | 2 => match foot[bits r 19 16]? with | some x => width == chanOf x | none => false
    | 3 => match heads[bits r 15 8]? with | some x => width == x.entryWidth | none => false
    | _ => true

/-- Every woven row of a stage is whole (R321): positions p to p + L - 1 hold POS 0 to L - 1. -/
def wovenOk (foot : List Draft) : Bool :=
  let at_ := fun p => foot[p]?
  (List.range foot.length).all fun p => match at_ p with
    | none => true
    | some d => d.woven == 0 || (d.pos ≤ p && (List.range (wovenLen d.woven)).all fun j =>
        match at_ (p - d.pos + j) with
        | some x => x.woven == d.woven && x.pos == j
        | none => false)

/-- A stage set's checks between drafts, and its event stage's width: the cause of a refusal (R176, R321, R356). -/
def setCause (stages : List (List Draft)) (evstage : Nat) : Option Nat :=
  let heads := stages.map fun ds => ds.headD Draft.blank
  let ok := stages.all fun ds => wovenOk ds && (ds.zip (List.range ds.length)).all fun p => routesOk ds heads p.2 p.1
  if !ok then some 7
  else if evstage != 255 && (heads.getD evstage Draft.blank).entryWidth != 1 then some 8
  else none

/-- The draft addresses of a stage's footprint. -/
def Stage.images (st : Stage) : List Nat := st.drafts.take st.foot

/-- The drafts of a footprint list, cut by stage. -/
def cutStages : List Stage → List Draft → List (List Draft)
  | [], _ => []
  | st :: rest, ds => ds.take st.foot :: cutStages rest (ds.drop st.foot)

/-! Regions (R181, R253). -/

/-- The lowest region index that no live region of a die holds (R253). -/
def State.freeIndex (s : State) (die : Nat) : Nat :=
  ((List.range 256).find? fun i => s.regions.all fun r => !(r.die == die && r.index == i)).getD 255

/-- Cells join a launch's region on their die, which ends its configuration period; the first ones form it (R186, R253, R359). -/
def State.joinRegion (s : State) (uid die : Nat) (cs : List Nat) : State :=
  match s.regions.find? fun r => r.launch == uid && r.die == die with
  | some r => s.setRegion die r.index fun r => { r with cells := r.cells ++ cs, reported := false, period := false }
  | none =>
    let r : Region :=
      { die := die, index := s.freeIndex die, launch := uid, cells := cs, idle := 0, idleSince := s.time, stalled := false, reported := false,
        period := false, stopping := false, lastImage := none, depth := 0 }
    { s with regions := s.regions ++ [r] }

/-- Placed replicas take their drafts: the cells are loaded, start in the state of R163 and are enabled (R361). -/
def State.startReps (s : State) (l : Launch) (drafts : List (List Draft)) (placed : List (Nat × Nat × List Nat)) : State :=
  let one := fun (s : State) (p : Nat × Nat × List Nat) =>
    let ds := drafts.getD p.1 []
    let s := (p.2.2.zip (List.range p.2.2.length)).foldl (fun s c =>
      let k := freshCell c.1 (ds.getD c.2 Draft.blank) l.roles
      let k := { k with seat := some ⟨l.uid, p.1, p.2.1, c.2⟩, asid := l.asid, running := true }
      { s with cells := s.cells.filter (·.id != c.1) ++ [k] }) s
    s.joinRegion l.uid (dieOf (p.2.2.headD 0)) p.2.2
  let s := placed.foldl one s
  (placed.flatMap (·.2.2)).foldl (fun s c => s.requestAll c) s

/-- A launch's stage queues, homed on the die of the first placed replica, or on the lowest allowed die (R355). DEDUCED (log 28):
the rotation of a new queue begins at the lowest replica index. -/
def State.makeQueues (s : State) (l : Launch) (placed : List (Nat × Nat × List Nat)) : State :=
  let home := fun (k : Nat) (st : Stage) => match placed.find? (·.1 == k) with
    | some p => dieOf (p.2.2.headD 0)
    | none => (dieList st.dies).headD 0
  let q := fun (p : Stage × Nat) =>
    { launch := l.uid, stage := p.2, capacity := p.1.qcap, homeDie := home p.2 p.1, items := [], granted := 0, lastServed := 65536,
      inDispatch := none, aside := [], growSince := none, shrinkSince := none : StageQueue }
  { s with queues := s.queues ++ (l.stages.zip (List.range l.stages.length)).map q }

/-- The partition table of a launch: 64 bytes (R354). -/
def Launch.ptabBytes (l : Launch) : List Nat :=
  (List.range 64).map fun p => ((List.range l.stages.length).find? fun i => (l.stages.map (·.part)).getD i 255 == p).getD 255

/-- A launch that fits is admitted, or refused by its drafts or its partition table (R354, R361); none while a page or a line it needs
must be waited for. -/
def State.admitLaunch (s : State) (l : Launch) : Option State :=
  let gone := fun (s : State) (cause : Nat) =>
    let s := (s.setLaunch l.uid fun l => { l with st := .ended stRefused cause s.ticks }).popHead l.queue
    some ((s.finishLaunch l.uid).getD s).stepOwed
  match placeReps l.stages (minReps l.stages) s.freeCells with
  | none => some s
  | some placed =>
      let where_ := fun (k : Nat) => match placed.find? (·.1 == k) with | some p => p.2.2.headD 0 | none => 0
      let wants := (l.stages.zip (List.range l.stages.length)).flatMap fun p => p.1.images.map fun a => (where_ p.2, a)
      match s.loadDrafts l.asid wants with
      | none => none
      | some (s, bad@(_ :: _), _) => gone s ((leastBy id (bad.map (·.2.1))).getD 4)
      | some (s, [], ds) =>
          let drafts := cutStages l.stages ds
          match setCause drafts l.evstage with
          | some cause => gone s cause
          | none =>
              let written := if l.ptab = 0 then HubResult.ok [] s else s.hubStore true l.asid l.ptab l.ptabBytes
              match written with
              | .wait => none
              | .fault .. => gone s 4
              | .ok _ s =>
                  let s := s.popHead l.queue
                  let s := (s.makeQueues l placed).startReps l drafts placed
                  let s := s.setLaunch l.uid fun l =>
                    { l with st := .resident, admitted := s.ticks, first := s.ticks, lastRun := s.time }
                  let lv := s.effPrio l.uid
                  let s := { s with sched := { s.sched with lastQueue := s.sched.lastQueue.set lv l.queue } }
                  (s.report l.uid rptAdmitted s.ticks).map fun s => s.splitSoon.stepOwed

end Sys2Proof.Machine
end

