-- ==== Sys2Proof/Machine/Sched.lean ====
section
/-! DEFINITION. The resident scheduler and the dobby controllers: admission steps, victims, resumes, retirement, slices, boosts,
growth and drains (15_scheduling_and_clocks.md R358 to R367; 07_execution_model.md R187). -/

namespace Sys2Proof.Machine

/-! Stopping and resuming (R360, R380, R386). -/

/-- Bytes that an image of n cells may take (R382). -/
def imageRoom (n : Nat) : Nat := 0x1000 + n * (0x34000 + 0xC1000)

/-- Room in the resident space for an image. DESIGN CHOICE (log 19): one room behind another. -/
def State.takeImage (s : State) (n : Nat) : Nat × State :=
  (s.hub.imageNext, { s with hub := { s.hub with imageNext := s.hub.imageNext + imageRoom n } })

/-- A CTXIMG that the resident scheduler itself fires. -/
def State.schedImage (s : State) (form image die index : Nat) : State :=
  let (id, s) := s.newId
  let op : ImageOp :=
    { id := id, cell := hubActor, elem := 0, ctx := 0, slot := 0, asid := 0, form := form, image := image, die := die,
      region := index, start := s.ticks, paused := none, seq := 0, m0 := 0 }
  { s with images := s.images ++ [op] }

/-- Every region of a launch begins to stop, each into an image of its own; a launch without a region is pre-empted at once (R360,
R380). None while the line of its report must be waited for. -/
def State.preempt (s : State) (uid : Nat) : Option State :=
  if (s.regionsOf uid).isEmpty then s.launchStopped uid
  else
    let s := s.setLaunch uid fun l => { l with st := .stopping }
    some ((s.regionsOf uid).foldl (fun s r =>
      let (a, s) := s.takeImage r.cells.length
      (s.stopRegion r).schedImage 1 a r.die r.index) s)

/-- Open stall records of a region named anew: a saved region is named by die 8 and its image (R366, R379). -/
def State.renameStall (s : State) (d i d' i' : Nat) : State :=
  let go := fun (r : OpenRecord) => if r.of = .stall d i then { r with of := .stall d' i' } else r
  { s with dies := s.dies.map fun k => { k with records := k.records.map go } }
/-- A stall record of the region waits for its handler (R366). -/
def State.stallOpen (s : State) (d i : Nat) : Bool := s.dies.any fun k => k.records.any fun r => r.of == .stall d i

/-- A saved region takes its new cells, still stopped, and its restore begins (R360, R386). -/
def State.resumeRegion (s : State) (uid : Nat) (v : SavedRegion) (cs : List Nat) : State :=
  let die := dieOf (cs.headD 0)
  let index := s.freeIndex die
  let put := fun (s : State) (p : Nat × Cell) =>
    let k := { p.2 with id := p.1, stopped := true }
    let s := { s with cells := s.cells.filter (fun (x : Cell) => x.id != p.1) ++ [k] }
    s.renameCell p.2.id p.1
  let s := (cs.zip v.cells).foldl put { s with saved := s.saved.filter fun (x : SavedRegion) => x != v }
  let r : Region :=
    { die := die, index := index, launch := uid, cells := cs, idle := 0, idleSince := s.time, stalled := s.stallOpen 8 v.image, reported := false,
      period := false, stopping := true, lastImage := some v.image, depth := 0 }
  ({ s with regions := s.regions ++ [r] }.renameStall 8 v.image die index).schedImage 2 v.image die index

/-- A pre-empted launch that fits is resumed (R360); none while the line of its report must be waited for. -/
def State.resumeLaunch (s : State) (l : Launch) : Option State :=
  match placeSaved l (s.saved.filter (·.launch == l.uid)) s.freeCells with
  | none => none
  | some ps =>
      let s := ps.foldl (fun s p => s.resumeRegion l.uid p.1 p.2) s
      let s := s.setLaunch l.uid fun l => { l with st := .resident, lastRun := s.time }
      (s.report l.uid rptResumed s.ticks).map fun s => s.splitSoon.stepOwed

/-! The admission step (R358). -/

/-- A launch of a queue has retired and its tails are still to be spliced (R365). -/
def State.splicePending (s : State) (q : Nat) : Bool :=
  s.launches.any fun l => l.queue == q && match l.st with | .ended st .. => st == stDone | _ => false
/-- The candidates: pre-empted launches, oldest admission first, and the validated heads of enabled queues, but of one that still waits
for the tails of a retirement (R358, R365). -/
def State.preemptedLaunches (s : State) : List Launch := sortBy (fun a b => a.admitted ≤ b.admitted) (s.launches.filter (·.st == .preempted))
def State.headLaunches (s : State) : List Launch :=
  (List.range 64).filterMap fun q => if (s.lqueue q).en && !s.splicePending q then s.headLaunch q else none

/-- The order in which the candidates at the highest effective priority are tried: the one that victims were stopped for, then
pre-empted launches, then queues round-robin (R358, R362). -/
def State.order (s : State) : List Launch :=
  let pre := s.preemptedLaunches
  let heads := s.headLaunches
  let top := ((pre ++ heads).map fun l => s.effPrio l.uid).foldl max 0
  let at_ := fun (l : Launch) => s.effPrio l.uid == top
  let last := s.sched.lastQueue.getD top 63
  let turn := fun (l : Launch) => (l.queue + 63 - last) % 64
  let all := pre.filter at_ ++ sortBy (fun a b => turn a ≤ turn b) (heads.filter at_)
  let first := fun (l : Launch) => s.sched.stoppingFor == some l.uid
  all.filter first ++ all.filter fun l => !first l

/-- The free cells once some launches had been stopped. -/
def State.freeWithout (s : State) (victims : List Nat) : List (List Nat) :=
  { s with regions := s.regions.filter fun r => !victims.contains r.launch }.freeCells

/-- Launches that may be stopped for one of a priority: lowest effective priority first, then the latest run (R360). -/
def State.victimsBelow (s : State) (prio : Nat) : List Launch :=
  let first := fun (a b : Launch) => s.effPrio a.uid < s.effPrio b.uid || (s.effPrio a.uid == s.effPrio b.uid && a.lastRun ≥ b.lastRun)
  sortBy first (s.launches.filter fun l => l.st == .resident && s.effPrio l.uid < prio)

/-- The shortest run of victims that makes a launch fit; none where all together do not (R360). -/
def State.chooseVictims (s : State) (c : Launch) : List Launch → List Nat → Option (List Nat)
  | [], _ => none
  | v :: vs, acc =>
      let acc := acc ++ [v.uid]
      if s.fits c (s.freeWithout acc) then some acc else s.chooseVictims c vs acc

/-- Whether victims are being stopped. -/
def State.stoppingNow (s : State) : Bool := s.launches.any (·.st == .stopping)

/-- One admission step on candidates that have been validated; none while a page or a line it needs must be waited for (R358). -/
def State.step358 (s : State) : Option State :=
  let ord := s.order
  match ord.find? fun c => s.fits c s.freeCells with
  | some c =>
      let s := { s with sched := { s.sched with stoppingFor := none } }
      if c.st = .preempted then s.resumeLaunch c else s.admitLaunch c
  | none =>
      let idle := { s with sched := { s.sched with owed := false, stoppingFor := none } }
      match ord with
      | [] => some idle
      | c :: _ => match s.chooseVictims c (s.victimsBelow (s.effPrio c.uid)) [] with
        | none => some idle
        | some vs =>
            (vs.foldl (fun (r : Option State) v => r.bind (·.preempt v)) (some s)).map fun s =>
              { s with sched := { s.sched with owed := true, stoppingFor := some c.uid } }

/-- ADMISSION_STEP (R353, R358): the first head that can be read or validated now is; else, where one is owed and no victim is being
stopped, one step on those that are validated. DESIGN CHOICE (log 36): one head or one launch a step. -/
def execAdmissionStep (s : State) : Out :=
  .next (match s.unreadHeads.findSome? s.readHead with
    | some t => t
    | none => if !s.sched.owed || s.stoppingNow then s else (s.step358).getD s)

/-! Retirement (R187, R365). -/

/-- Every stage queue of a launch is empty and no send into one is pending (R187). -/
def State.queuesEmpty (s : State) (uid : Nat) : Bool :=
  (s.queues.all fun q => q.launch != uid || (q.depth == 0 && q.items.isEmpty)) &&
  s.flights.all fun f => match f.target with | .queue l _ => l != uid | _ => true

/-- RETIREMENT (R187, R365): a graph all of whose regions are quiescent ends; an ended launch writes the record it owes. -/
def execRetirement (launch : Nat) (s : State) : Out :=
  .next (match s.launch? launch with
    | none => s
    | some l => match l.st with
      | .ended .. => (s.finishLaunch launch).getD s
      | .resident =>
          if s.queuesEmpty launch && !s.saved.any (·.launch == launch) && (s.regionsOf launch).all (fun r => s.quiescent r && !r.stopping) then
            let s := s.endLaunch launch stDone 0
            (s.finishLaunch launch).getD s
          else s
      | _ => s)

/-! Quanta (R362). -/

/-- A launch's quantum in picoseconds (R362). -/
def State.quantumPs (s : State) (l : Launch) : Nat := 1000000 * Config.ps * (if l.quantum = 0 then (s.lqueue l.queue).quantum else l.quantum)

/-- QUANTUM_EXPIRY (R362): a boosted launch returns to its own priority; one whose equal waits unfit is stopped. -/
def execQuantumExpiry (launch : Nat) (s : State) : Out :=
  .next (match s.launch? launch with
    | none => s
    | some l =>
        let q := s.quantumPs l
        if l.st != .resident || q = 0 || s.time < l.lastRun + q || s.stoppingNow then s
        else if l.boost.isSome then (s.setLaunch launch fun l => { l with boost := none }).stepOwed
        else
          let waits := (s.headLaunches ++ s.preemptedLaunches).find? fun c =>
            s.effPrio c.uid == s.effPrio l.uid && !s.fits c s.freeCells
          match waits with
          | none => s
          | some c => match s.preempt launch with
            | none => s
            | some s => { s with sched := { s.sched with owed := true, stoppingFor := some c.uid } })

/-- ANTI_STARVATION_BOOST (R362): a head that has waited for its quantum, its own or its queue's, is a candidate at priority 7. -/
def execAntiStarvationBoost (queue : Nat) (s : State) : Out :=
  .next (match s.headLaunch queue with
    | none => s
    | some l =>
        let q := s.quantumPs l
        if q = 0 || s.time < (s.lqueue queue).headSince + q || l.boost.isSome then s
        else (s.setLaunch l.uid fun l => { l with boost := some s.time }).stepOwed)

/-! The dobby controllers (R363, R364). -/

/-- The replicas of a stage that are placed and not draining. -/
def State.liveReps (s : State) (l : Launch) (st : Nat) : List Nat :=
  (s.cells.filterMap fun c => match c.seat with
    | some t => if t.launch == l.uid && t.stage == st && t.pos == 0 && !l.draining.contains (st, t.rep) then some t.rep else none
    | none => none)

/-- The lowest replica index not in use, a draining one being in use. -/
def State.nextIndex (s : State) (l : Launch) (st : Nat) : Nat :=
  ((List.range 1024).find? fun i => (s.cellOfSeat ⟨l.uid, st, i, 0⟩).isNone).getD 0

/-- The record of a grow whose drafts failed: it holds no context (R364, R375). -/
def State.growRecord (s : State) (l : Launch) (cell : Nat) (f : FaultInfo) : State :=
  let (id, s) := s.newId
  let r : FRecord :=
    { id := id, code := f.1, cause := f.2.1, flags := rDone, opcode := 0x2C, cell := cell, elem := 0, ctx := 0, slot := 0,
      launchid := l.launchid, lanes := 0, addr := f.2.2.2, profile := 0, asid := l.asid, time := s.ticks, snap := 0 }
  let s := s.setDie (dieOf cell) fun d => { d with records := d.records ++ [⟨r, .grow l.uid, none, l.uid, cell⟩] }
  s.setLaunch l.uid fun l => { l with faults := min (l.faults + 1) (2 ^ 32 - 1) }

/-- A stage's timers restart (R363). -/
def State.restartTimers (s : State) (l st depth : Nat) (k : Stage) : State :=
  s.setQueue l st fun q => { q with growSince := if depth ≥ k.growd then some s.time else none,
                                    shrinkSince := if depth ≤ k.shrd then some s.time else none }

/-- One replica more (R364); nothing changes while a page of its drafts migrates. -/
def State.grow (s : State) (l : Launch) (st depth : Nat) (k : Stage) : State :=
  let i := s.nextIndex l st
  let s' := s.restartTimers l.uid st depth k
  match placeRep s.freeCells k i with
  | none => s'
  | some (cs, _) =>
      match s.loadDrafts l.asid (cs.zip k.images) with
      | none => s
      | some (q, f :: _, _) =>
          { q with queues := s'.queues }.growRecord l f.1 f.2.2
      | some (q, [], ds) =>
          let drafts := List.replicate st [] ++ [ds]
          ({ q with queues := s'.queues }.startReps l drafts [(st, i, cs)]).splitSoon

/-- No region that holds a replica of the stage is pre-empted, or being stopped or restored (R363). -/
def State.stageRuns (s : State) (l : Launch) (st : Nat) : Bool :=
  l.st == .resident && !s.saved.any (fun v => v.seats.any fun t => t.launch == l.uid && t.stage == st) &&
  s.regions.all fun r => r.launch != l.uid || !r.stopping ||
    r.cells.all fun c => match (s.cell c).seat with | some t => t.stage != st | none => true

/-- The sample of one stage: its timers run on, but a stage whose region is pre-empted is neither grown nor shrunk (R363). -/
def State.sampleStage (s : State) (q : StageQueue) : State :=
  match s.launch? q.launch with
  | none => s
  | some l => match l.stages[q.stage]? with
    | none => s
    | some k =>
        let depth := q.depth
        let reps := s.liveReps l q.stage
        let since := fun (b : Bool) (old : Option Nat) => if b then some (old.getD s.time) else none
        let g := since (depth ≥ k.growd) q.growSince
        let r := since (depth ≤ k.shrd) q.shrinkSince
        let over_ := fun (t : Option Nat) (ns : Nat) => match t with | some x => x + 1000 * Config.ps * ns ≤ s.time | none => false
        let s := s.setQueue l.uid q.stage fun q => { q with growSince := g, shrinkSince := r }
        if !s.stageRuns l q.stage then s
        else if reps.isEmpty && depth ≥ 1 then s.grow l q.stage depth k
        else if over_ g k.growt && reps.length < k.maxrep then s.grow l q.stage depth k
        else if over_ r k.shrt && reps.length > k.minrep then
          let top := reps.foldl max 0
          (s.setLaunch l.uid fun l => { l with draining := l.draining ++ [(q.stage, top)] }).restartTimers l.uid q.stage depth k
        else s

/-- DOBBY_SAMPLE (R363): each microsecond, the controller of a die samples the queues homed on it. -/
def execDobbySample (die : Nat) (s : State) : Out :=
  .next (if s.time < (s.die die).dobbyNext then s
    else
      let s := (s.queues.filter (·.homeDie == die)).foldl (fun s q => s.sampleStage q) s
      s.setDie die fun d => { d with dobbyNext := d.dobbyNext + 1000000 * Config.ps })

/-- REPLICA_FREE (R364): a draining replica that is idle, and whose parts of the census sum to 0, gives up its cells. -/
def execReplicaFree (launch stage rep : Nat) (s : State) : Out :=
  let mine := fun (c : Cell) => match c.seat with | some t => t.launch == launch && t.stage == stage && t.rep == rep | none => false
  let cs := (s.cells.filter mine).map (·.id)
  let busy := (s.queue? launch stage).any fun q => q.inDispatch.any (·.1 == rep) || q.aside.any (·.1 == rep)
  .next (match s.launch? launch with
    | none => s
    | some l =>
        if !l.draining.contains (stage, rep) || cs.isEmpty || busy || (s.cells.any fun c => mine c && c.stopped) ||
            !s.channelsEmpty cs || !s.nothingOutstanding cs || !s.nothingEligible cs ||
            wrapInt 32 ((cs.map fun c => s.partOf (s.cell c).seat).sum) != 0 then s
        else
          let s := cs.foldl (fun s c => s.freeCell c) s
          let cut := fun (r : Region) => { r with cells := r.cells.filter fun c => !(r.launch == launch && cs.contains c) }
          let s := { s with regions := (s.regions.map cut).filter fun r => !r.cells.isEmpty }
          let s := s.setLaunch launch fun l => { l with draining := l.draining.filter (· != (stage, rep)) }
          s.stepOwed.splitSoon)

/-! Rack-level forwarding (R367, R407). -/

/-- 256 bytes of this module's own memory that a launch block can stand in (R367). -/
def State.blockRoom (s : State) (pa : Nat) : Bool :=
  pa % 256 == 0 && moduleOf pa == s.hub.modnum && s.populated pa 256 && !inMmio pa

/-- UE_LAUNCH_PACKET (R367, R402): a malformed packet is dropped and counted; a block is copied into local memory, where the firmware has
room for it, and pushed once it stands there. -/
def execUeLaunchPacket (p : UePacket) (s : State) : Out :=
  .next (if !p.wellFormed then { s with hub := { s.hub with uepkt := min (s.hub.uepkt + 1) (2 ^ 32 - 1) } }
    else if !s.blockRoom p.addr then s
    else match s.hubStorePa p.addr (sliceBytes p.block 0 256) with
      | none => s
      | some t => if (s.badPiece p.addr 256).isSome then t else t.qpushSet p.queue p.addr)

end Sys2Proof.Machine
end

