-- ==== Sys2Proof/Machine/Power.lean ====
section
/-! DEFINITION. The central power split, the dies' grants and their event tokens (15_scheduling_and_clocks.md R368 to R373). -/

namespace Sys2Proof.Machine

/-! Estimates (R368, R369). -/

/-- The set V0 M0 N4 E6, and the highest set. -/
def lowSet : Nat := 0x0046
def highSet : Nat := 0xFFFC

/-- The estimate P(g) of a set in units of 0.125 W, from the die's power table (R369). -/
def Die.power (d : Die) (g : Nat) : Nat :=
  let t := fun i => d.ptable.getD i 0
  t 0 + t (1 + bits g 15 12) + t (17 + bits g 11 8) + t (33 + bits g 7 4) + t (49 + bits g 3 0)

/-- The served launch of a die: one with a region there, even while it is being stopped, of the highest effective priority, earliest
admitted (R371). -/
def State.served (s : State) (die : Nat) : Option Launch :=
  let here := s.launches.filter fun l => s.regions.any fun r => r.die == die && r.launch == l.uid
  let top := (here.map fun l => s.effPrio l.uid).foldl max 0
  leastBy (fun (l : Launch) => l.admitted) (here.filter fun l => s.effPrio l.uid == top)

/-! The split (R370). -/

/-- What the split knows of a die: minimum, maximum and share weight 16 q; a table whose highest set is below its lowest leaves nothing to
distribute. DEDUCED (log 50). -/
def State.splitOf (s : State) (die : Nat) : Nat × Nat × Nat :=
  let d := s.die die
  let (r, w) := match s.served die with
    | some l => (clampSet l.clkreq, l.pweight)
    | none => (lowSet, 16)
  (d.power lowSet, max (d.power lowSet) (d.power highSet), d.power r * w)

/-- The level num / den at which budgets are min + level * weight: dies that would pass their maximum keep it, and the level
rises until no further one does (R370). -/
def splitLevel (rest : Nat) (ds : List (Nat × Nat × Nat)) : Nat → Nat × Nat → Nat × Nat
  | 0, l => l
  | n + 1, l =>
      let capped := fun (d : Nat × Nat × Nat) => d.1 * l.2 + l.1 * d.2.2 ≥ d.2.1 * l.2
      let used := ((ds.filter capped).map fun d => d.2.1 - d.1).sum
      let den := ((ds.filter (!capped ·)).map (·.2.2)).sum
      if den = 0 then l else splitLevel rest ds n (rest - used, den)

/-- The rounded budget of a die at a level (R370). -/
def budgetAt (l : Nat × Nat) (d : Nat × Nat × Nat) : Nat := min d.2.1 (d.1 + l.1 * d.2.2 / l.2)

/-- The budgets of the eight dies, and whether every one got only its minimum (R370). -/
def State.budgets (s : State) : List Nat × Bool :=
  let ds := (List.range 8).map s.splitOf
  let a : Int := 8 * ((s.hub.cap : Int) - (s.hub.allow : Int))
  let least := (ds.map (·.1)).sum
  if a < (least : Int) then (ds.map (·.1), true)
  else
    let rest := (a - (least : Int)).toNat
    let l := splitLevel rest ds 9 (0, 1)
    let all := ds.all fun d => d.1 * l.2 + l.1 * d.2.2 ≥ d.2.1 * l.2
    (ds.map fun d => if all then d.2.1 else budgetAt l d, false)

/-! The grant of a die (R371). -/

/-- Every legal set, lowest codes first (R368). -/
def legalSets : List Nat :=
  (List.range 16).flatMap fun v => (List.range 16).flatMap fun m => (List.range 12).flatMap fun n => (List.range 7).map fun e =>
    v * 4096 + m * 256 + (n + 4) * 16 + (e + 6)

/-- |a - b|. -/
def gap (a b : Nat) : Nat := (a - b) + (b - a)

/-- The cost of a set against a request, with a launch's weights (R353, R371). -/
def grantCost (clkw r g : Nat) : Nat :=
  (bits clkw 7 6 + 1) * gap (bits g 15 12) (bits r 15 12) + (bits clkw 5 4 + 1) * gap (bits g 11 8) (bits r 11 8) +
  (bits clkw 3 2 + 1) * gap (bits g 7 4) (bits r 7 4) + (bits clkw 1 0 + 1) * gap (bits g 3 0) (bits r 3 0)

/-- A key whose least value is the grant: cost, then power, then the higher V, M, N and E (R371). -/
def grantKey (d : Die) (clkw r g : Nat) : Nat := (grantCost clkw r g * 2 ^ 32 + d.power g) * 65536 + (65535 - g)

/-- The best of a list of sets within a budget (R371). -/
def bestSet (d : Die) (clkw r budget : Nat) : List Nat → Option (Nat × Nat)
  | [] => none
  | g :: gs =>
      let rest := bestSet d clkw r budget gs
      if d.power g > budget then rest
      else match rest with
        | some b => if b.1 ≤ grantKey d clkw r g then some b else some (grantKey d clkw r g, g)
        | none => some (grantKey d clkw r g, g)

/-- The set granted on a die at a budget, and the OVER bit (R371). -/
def State.grantFor (s : State) (die budget : Nat) : Nat × Bool :=
  match s.served die with
  | none => (lowSet, false)
  | some l => match bestSet (s.die die) l.clkw (clampSet l.clkreq) budget legalSets with
    | some b => (b.2, false)
    | none => (lowSet, true)

/-- POWER_SPLIT (R370, R371): every 50 us, and at once when something it depends on changed. -/
def execPowerSplit (s : State) : Out :=
  .next (if s.time < s.hub.splitNext then s
    else
      let b := s.budgets
      let set := fun (s : State) (die : Nat) =>
        let budget := b.1.getD die 0
        let g := s.grantFor die budget
        s.setDie die fun d =>
          { d with budget := budget, overBudget := g.2, pending := if g.1 = d.grant then none else some g.1 }
      let s := (List.range 8).foldl set s
      { s with hub := { s.hub with short := b.2, splitNext := s.time + 50000000 * Config.ps } })

/-! Event tokens (R372). -/

/-- The source contexts of a launch, in its regions and its saved regions: whether it has one, and whether all are exhausted. -/
def State.sourcesOver (s : State) (uid : Nat) : Bool :=
  let aside := (s.saved.filter (·.launch == uid)).flatMap (·.cells)
  let ks := ((s.cellsOf uid).map s.cell ++ aside).flatMap fun k =>
    (List.range 16).filterMap fun i =>
      if k.draft.source (i / 4) (i % 4) then some (k.ctx (i / 4) (i % 4)).exhausted else none
  !ks.isEmpty && ks.all id

/-- The token of a change: kind 1 and the change count, die, old and new grant, time (R372). -/
def eventToken (die count old new ticks : Nat) : Token :=
  let w := fun (n : Nat) => BitVec.ofNat 32 n
  { tag := w (2 ^ 28 + count % 2 ^ 28),
    lanes := [w die, w old, w new, w ticks, w (ticks / 2 ^ 32)] ++ List.replicate 59 0, charge := none, stream := none }

/-- A waiting token takes a later change's count, grant and time; lane 1 keeps the earliest old grant (R372). -/
def foldEvent (t new : Token) : Token := { new with lanes := new.lanes.set 1 (lane t.lanes 1) }

/-- One launch is told of a change (R372). -/
def State.tellLaunch (s : State) (die : Nat) (t : Token) (l : Launch) : State :=
  let src := Producer.event l.uid die
  let waits := fun (f : Flight) => f.source == src && f.place.isSome
  if s.flights.any waits then
    { s with flights := updateWhere waits (fun f => { f with items := f.items.map fun o => foldEvent o t }) s.flights }
  else
    let target := Target.queue l.uid l.evstage
    (s.launchTokens src target [t] (some 0)).request src target

/-- The cycles that a region's watchdog has counted: those before the die's last change of clocks and those since (R366). -/
def State.idleCount (s : State) (r : Region) : Nat := r.idle + (s.time - r.idleSince) / s.nPeriod r.die
/-- The counts of a die's regions up to now, before its clocks change (R366). -/
def State.holdIdle (s : State) (die : Nat) : State :=
  { s with regions := updateWhere (·.die == die) (fun r => { r with idle := s.idleCount r, idleSince := s.time }) s.regions }

/-- GRANT_EFFECT (R372): a computed set takes effect, is counted, and is told to the launches on the die. -/
def execGrantEffect (die : Nat) (s : State) : Out :=
  let d := s.die die
  .next (match d.pending with
    | none => s
    | some g =>
        if die ≥ 8 || g = d.grant then s.setDie die fun d => { d with pending := none }
        else
          let count := d.changes + 1
          let s := (s.holdIdle die).setDie die fun d => { d with grant := g, pending := none, changes := count }
          let told := s.launches.filter fun l =>
            l.evstage != 255 && (s.regionsOf l.uid).any (·.die == die) && !s.sourcesOver l.uid
          told.foldl (fun s l => s.tellLaunch die (eventToken die count d.grant g s.ticks) l) s)

end Sys2Proof.Machine
end

