-- ==== Sys2Proof/Machine/Images.lean ====
section
/-! DEFINITION. Stopping a region, its context image, the restore of a chain of images, and the watchdog
(16_traps_and_preemption.md R380 to R387, R422; 15_scheduling_and_clocks.md R360, R366; 13_heddle_array.md R323). -/

namespace Sys2Proof.Machine

/-! The end of the drain (R380). -/

/-- An access that a stop does not wait for: a WAITA, one that a handler or a logged page holds, one behind such, or a store whose bytes lie
in a copy that the stop gives up (R380). -/
def State.settled (s : State) (a : Access) : Bool :=
  !(s.cell a.cell).sideLog.any a.over &&
  (a.op == .waita || a.op == .prefetch || s.resting a || s.heldEarlier a.cell a.elem a.ctx a.seq || s.reported a.id ||
    (a.done && (s.cell a.cell).sideLog.any (·.id == a.id)))
/-- A FENCE that a stop does not wait for: all it still marks is settled (R380). -/
def State.fenceSettled (s : State) (f : Fence) : Bool :=
  !s.fenceOpen f || s.heldEarlier f.cell f.elem f.ctx f.seq ||
  ((f.marked.filter (s.liveAt f.scope)).all fun i => match s.acc? i with | some a => s.settled a | none => false) &&
    f.reads.all fun i => !(s.unread f.cell f.elem f.ctx f.seq).contains i

/-- The elements and engines of a stopped cell have come to their stopping points: started array commands are done, with every command
that a started woven row still needs, and preparers stand between rows (R323, R380). -/
def State.cellStopped (s : State) (c : Cell) : Bool :=
  c.elems.all (fun e => e.busyUntil ≤ s.time && e.ctxs.all (·.multi.isNone)) &&
  c.heddle.queue.all (fun x => (s.stuckIds c).contains x.id || s.rowStuck c x ||
    if x.started then x.out.isEmpty && !arrayPath x.opcode else !s.rowNeeds c x) &&
  c.shuttle.all fun x => x.paused.isSome || x.atUnit || x.phase ≥ 2

/-- Steps 1 to 3 of a stop have ended for the cells of a region (R380). -/
def State.drained (s : State) (cs : List Nat) : Bool :=
  let inn := fun c : Nat => cs.contains c
  cs.all (fun c => s.cellStopped (s.cell c)) &&
  (s.accs.filter (inn ·.cell)).all s.settled && (s.fences.filter (inn ·.cell)).all s.fenceSettled &&
  (s.mwops.filter (inn ·.cell)).all (fun m => m.phase == .paused || m.phase == .committed) &&
  (s.arrivals.filter (inn ·.cell)).all (·.paused.isSome) &&
  !s.traversals.any (inn ·.cell) &&
  !s.watches.any (fun w => inn w.cell && w.woken) && !s.invs.any (inn ·.cell) && !s.colls.any (inn ·.cell) &&
  !s.closes.any (inn ·.cell) && !s.draftlds.any (inn ·.cell) &&
  (s.streams.filter (inn ·.cell)).all (fun k => k.opened || k.paused.isSome) &&
  s.flights.all fun f => match f.target with
    | .chan c _ _ => !inn c || (match f.source with | .stream _ => f.place.isSome | _ => false)
    | _ => true

/-- A part that has bound nothing yet is issued again from the start, its translation with it (R158, R380). -/
def Part.restart (p : Part) : Part := if p.st == .waiting then { p with st := .again, word := 0 } else p

/-- Steps 4 and 5 of a stop (R380): WAITAs cancelled, prefetches dropped, elements unoccupied, copies given up; stores that this
performs end, with the FENCEs that waited for them (R121, R126). -/
def State.quiet (s : State) (cs : List Nat) : State :=
  let inn := fun c : Nat => cs.contains c
  let back := (s.watches.filter (inn ·.cell)).map fun w => w.again s.time .again
  let watches := s.watches.filter fun w => !inn w.cell
  let again := fun (a : Access) => if inn a.cell && a.op == .waita then { a with parts := a.parts.map Part.restart } else a
  let accs := (s.accs.filter fun a => !(inn a.cell && a.op == .prefetch)).map again ++ back
  let s : State := { s with watches := watches, accs := accs }
  let s := cs.foldl (fun s c => s.evictAll c) s
  let s := (s.accs.filter fun a => inn a.cell && a.isStore && s.completeAt 4 a).foldl (fun s a => s.endAccess a) s
  let s := (s.fences.filter (inn ·.cell)).foldl (fun s f => s.endFence f) s
  let free := fun (e : Elem) => { e with occupant := none }
  let calm := fun (c : Cell) => { c with elems := c.elems.map free }
  { s with cells := updateWhere (fun c => inn c.id) calm s.cells }

/-! The control block (R383, R384, R422). -/

/-- A part of an image of a given size; unused bytes are 0. -/
def pad (n : Nat) (bs : List Nat) : List Nat := sliceBytes bs 0 n

/-- The cell header (R422). -/
def State.headerBytes (s : State) (c : Cell) : List Nat :=
  let t := c.seat.getD ⟨0, 0, 0, 0⟩
  pad 64 (leBytes 4 c.id ++ [t.pos, t.stage] ++ leBytes 2 t.rep ++ leBytes 4 (wrapInt 32 (s.partOf c.seat)) ++ leBytes 22 c.roles)

/-- The watch byte of predicate p: the awaited entries of the queue (R384). -/
def watchByte (h : Heddle) (e x p : Nat) : Nat :=
  let awaited := (h.watches.filter fun w => w.elem == e && w.ctx == x && w.pred == p).flatMap (·.awaited)
  ((h.queue.zip (List.range 8)).filter fun q => awaited.contains q.1.id).foldl (fun acc q => acc + 2 ^ q.2) 0

/-- The open record under an identifier. -/
def State.recordOf (s : State) (id : Nat) : Option OpenRecord :=
  s.dies.findSome? fun d => d.records.find? (·.record.id == id)

/-- A held or waiting context will issue its instruction, or a part of its access, again (R380, R384). -/
def State.reissues (s : State) (k : Ctx) : Bool :=
  k.wait.isSome || k.heldBy.any fun id => match s.recordOf id with
    | some r => (match r.of with | .firing .. => true | .access .. => true | _ => false)
    | none => false

/-- A context state (R384). -/
def State.ctxBytes (s : State) (c : Cell) (e x : Nat) : List Nat :=
  let k := c.ctx e x
  let waita := s.accs.any fun a => a.op == .waita && sameCtx a.cell a.elem a.ctx c.id e x
  let flags := boolBit k.exhausted 0 + boolBit (!k.heldBy.isEmpty) 1 + boolBit (s.reissues k) 2 + boolBit waita 3
  let seq := match k.heldBy.head?.bind s.recordOf with | some r => r.seq.getD 0 | none => 0
  let watches := (List.range 8).map fun p => watchByte c.heddle e x p
  let armed := ((List.range 8).filter fun p => c.heddle.watches.any fun w => w.elem == e && w.ctx == x && w.pred == p)
  pad 64 ([k.p.toNat, flags, k.fpflags, k.mwcnt] ++ leBytes 4 k.srcnt.toNat ++ (k.m.flatMap fun m => leBytes 8 m.toNat) ++
    leBytes 4 seq ++ [(k.stored.head?.map (·.2)).getD 0, 0, 0, 0] ++ watches ++ [armed.foldl (fun acc p => acc + 2 ^ p) 0])

/-- An element state: a reservation is held until a token has used it, as that of a load that has yet to send (R177, R422). -/
def elemBytes (e : Elem) : List Nat :=
  let held := ((List.range 8).filter fun n => e.outs.getD n .idle == .held || e.outs.getD n .idle == .used).foldl (fun acc n => acc + 2 ^ n) 0
  pad 64 ([e.lastFired, held] ++ (List.range 8).map (fun n => (e.chan n).tokens.length) ++ (List.range 8).map fun n => (e.chan n).granted)

/-- A heddle queue entry (R422). -/
def HCmd.bytes (x : HCmd) : List Nat :=
  pad 32 (bytesOfWords x.words) ++ [x.opcode, 4 * x.elem + x.ctx, if x.started then 1 else 0, 0] ++
  leBytes 4 (wrapInt 32 x.offset) ++ leBytes 4 x.progress ++ leBytes 4 0

/-- The heddle control (R422). -/
def Heddle.bytes (h : Heddle) : List Nat :=
  pad 512 ([boolBit h.record.valid 0 + boolBit h.record.hi 1, h.record.k, h.record.pw, h.queue.length] ++ pad 8 h.counts ++
    leBytes 4 0 ++ h.queue.flatMap HCmd.bytes)

/-- PROGRESS of a shuttle command: bytes, rows or targets, as a command whose block is to be read again keeps it (R422). -/
def ShCmd.saved (x : ShCmd) : Nat := if x.fields.isEmpty then x.progress else x.progress / shUnit x.opcode x.fields

/-- A shuttle queue entry (R422). -/
def ShCmd.bytes (x : ShCmd) : List Nat :=
  leBytes 8 x.block ++ [x.opcode, 4 * x.elem + x.ctx] ++ leBytes 2 x.profile ++ [x.phase, 0, 0, 0] ++ leBytes 8 x.saved ++ leBytes 8 0

def tokenBytes (t : Token) : List Nat := leBytes 4 t.tag.toNat ++ pad 256 (bytesOfWords t.lanes)

/-- The channel contents (R383). -/
def Cell.chanBytes (c : Cell) : List Nat :=
  (List.range 32).flatMap fun i => pad 1040 (((c.elem (i / 8)).chan (i % 8)).tokens.flatMap tokenBytes)

/-- A saved side-log entry before its layout is applied: its fields, then each lane with its offset in the page, its operand, its
descriptor and its data. -/
def SideEntry.fields (e : SideEntry) : List Nat :=
  let desc := fun (l : Nat) => ((e.descs.find? (·.1 == l)).map (·.2)).getD 0
  let (m, v) := e.mig.getD (0, 0)
  [1, e.elem, e.ctx, e.slot, e.opcode, e.order, boolBit e.replaying 0 + boolBit e.mig.isSome 1 + boolBit e.reduction.isSome 2,
   e.reduction.getD 0, e.width, e.lanes.length] ++ leBytes 2 e.profile ++ leBytes 2 e.asid ++ leBytes 8 e.id ++ leBytes 8 e.seq ++
  leBytes 8 e.page ++ leBytes 8 m ++ leBytes 8 v ++
  e.lanes.flatMap fun l => [l.1] ++ leBytes 2 (l.2.1 % 4096) ++ [l.2.2.length] ++ leBytes 2 (desc l.1) ++ l.2.2

/-- The lanes of a saved entry. -/
def readLanes (page : Nat) : Nat → List Nat → List ((Nat × Nat × List Nat) × (Nat × Nat))
  | 0, _ => []
  | n + 1, b =>
      let len := fieldAt b 3 1
      ((fieldAt b 0 1, page + fieldAt b 1 2, sliceBytes b 6 len), (fieldAt b 0 1, fieldAt b 4 2)) :: readLanes page n (b.drop (6 + len))

/-- A saved entry read back; none where the place is unused. -/
def readSide (b : List Nat) : Option SideEntry :=
  let f := fun o n => fieldAt b o n
  if f 0 1 != 1 then none
  else
    let ls := readLanes (f 30 8) (f 9 1) (b.drop 54)
    some { id := f 14 8, elem := f 1 1, ctx := f 2 1, slot := f 3 1, opcode := f 4 1, seq := f 22 8, asid := f 12 2, page := f 30 8,
           profile := f 10 2, lanes := ls.map (·.1), reduction := if bit (f 6 1) 2 then some (f 7 1) else none, width := f 8 1,
           descs := ls.map (·.2), mig := if bit (f 6 1) 1 then some (f 38 8, f 46 8) else none, order := f 5 1,
           replaying := bit (f 6 1) 0 }

/-- The bytes of a saved side log: the spec gives an entry's 1,152 bytes no layout, so its fields stand there under a mask of free
values, which a restore takes off again; the first byte, which is 1 in the fields, is any that is not 0, since an unused entry is 0 (R48,
R383; Config.openValue 383). DESIGN CHOICE (log 18). -/
def sideMask (n : Nat) (bs : List Nat) : List Nat :=
  let free := fun (i : Nat) => Config.openValue 383 (1152 * n + i)
  (bs.zip (List.range bs.length)).map fun x => if x.2 = 0 then 1 + free 0 % 255 else Nat.xor x.1 (free x.2 % 256)
/-- The fields under the mask. -/
def sideUnmask (n : Nat) (bs : List Nat) : List Nat :=
  (bs.zip (List.range bs.length)).map fun x => if x.2 = 0 then 1 else Nat.xor x.1 (Config.openValue 383 (1152 * n + x.2) % 256)
/-- The side-log area of a control block; unused entries are 0 (R383). -/
def Cell.sideArea (c : Cell) : List Nat :=
  (c.sideLog.zip (List.range 64)).flatMap fun x => sideMask x.2 (pad 1152 x.1.fields)
/-- The side log that such an area holds. -/
def readSideArea (b : List Nat) : List SideEntry :=
  (List.range 64).filterMap fun n =>
    let e := sliceBytes b (1152 * n) 1152
    if e.headD 0 = 0 then none else readSide (sideUnmask n e)

/-- The control block of a cell (R383). -/
def State.controlBytes (s : State) (c : Cell) : List Nat :=
  s.headerBytes c ++ ((List.range 16).flatMap fun i => s.ctxBytes c (i / 4) (i % 4)) ++
  ((List.range 4).flatMap fun e => elemBytes (c.elem e)) ++ c.heddle.bytes ++ pad 512 (c.shuttle.flatMap ShCmd.bytes) ++
  pad 3136 c.draft.image ++ pad 2688 (leBytes 8 (match c.shadow with | some sh => sh.addr | none => 0)) ++
  c.chanBytes ++ pad 73728 c.sideArea ++ pad 15872 (bytesOfWords c.codebook) ++ pad 65536 c.heddle.weights ++
  pad 16384 c.heddle.wexp

/-! The data part (R385). -/

/-- A bank whose rows an image saves. -/
def Cell.rowBank (c : Cell) (b : Nat) : Bool :=
  match c.role b with
  | .reg | .scr | .acc => true
  | _ => false

/-- The rows that an image saves, ascending. -/
def Cell.rows (c : Cell) (full : Bool) : List Nat :=
  if full then ((List.range 96).filter c.rowBank).flatMap fun b => (List.range 256).map (256 * b + ·)
  else sortBy (· ≤ ·) (c.dirtyRows.filter fun r => c.rowBank (r / 256))

/-- The data part of a list of rows: the bitmap, then the rows. -/
def Cell.dataBytes (c : Cell) (rows : List Nat) : List Nat :=
  let byteAt := fun i => ((rows.dropWhile (· < 8 * i)).takeWhile (· < 8 * i + 8)).foldl (fun acc r => acc + 2 ^ (r % 8)) 0
  (List.range 3072).map byteAt ++ rows.flatMap c.rowBytes

/-! Writing an image (R382). -/

def imageMagic : Nat := 0x4D495843

/-- The region's name in the regionid format (R253). -/
def regionName (die index : Nat) : Nat := die * 256 + index

/-- The header (R382). -/
def imageHeader (kind depth region launchid ncells prev len time done : Nat) : List Nat :=
  pad 64 (leBytes 4 imageMagic ++ leBytes 2 1 ++ [kind, depth] ++ leBytes 4 region ++ leBytes 4 launchid ++ leBytes 2 ncells ++
    leBytes 6 0 ++ leBytes 8 prev ++ leBytes 8 len ++ leBytes 8 time ++ leBytes 8 0 ++ leBytes 8 done)

/-- Bytes of a data part, padded to 4 KiB. -/
def pageUp (n : Nat) : Nat := (n + 4095) / 4096 * 4096

/-- The directory: block offset and data-part length of each cell (R382). -/
def imageDir : Nat → List Nat → List Nat
  | _, [] => []
  | o, n :: ns => leBytes 8 o ++ leBytes 4 n ++ leBytes 4 0 ++ imageDir (o + 0x34000 + pageUp n) ns

/-- An image, all but its DONE word: header and directory, then the cell blocks. -/
def imageBytes (head : Nat → List Nat) (blocks : List (List Nat × List Nat)) : List (List Nat) :=
  let sizes := blocks.map (·.2.length)
  let len := 0x1000 + (sizes.map fun n => 0x34000 + pageUp n).sum
  pad 0x1000 (head len ++ imageDir 0x1000 sizes) :: blocks.map fun b => b.1 ++ pad (pageUp b.2.length) b.2

/-- The stores of a CTXIMG, by its cell or by the resident scheduler on the region's die. -/
def State.imageStore (s : State) (op : ImageOp) (va : Nat) (bs : List Nat) : HubResult :=
  if op.cell = hubActor then s.engineStore none op.die 0 true 0 va bs
  else s.engineStore (some op.cell) (dieOf op.cell) op.asid true 0 va bs
def State.imageLoad (s : State) (op : ImageOp) (va n : Nat) : HubResult :=
  if op.cell = hubActor then s.engineLoad none op.die 0 true 0 va n
  else s.engineLoad (some op.cell) (dieOf op.cell) op.asid true 0 va n

/-- Parts stored one after another. -/
def State.imagePut (s : State) (op : ImageOp) : Nat → List (List Nat) → HubResult
  | _, [] => .ok [] s
  | va, b :: bs => match s.imageStore op va b with
    | .ok _ s => s.imagePut op (va + b.length) bs
    | r => r

def State.regionAt (s : State) (die index : Nat) : Option Region := s.regions.find? fun r => r.die == die && r.index == index

/-- A record of a CTXIMG, charged to its context, which it holds, with the lane that named the image, or to the resident scheduler (R375,
R381, R386). DESIGN CHOICE (log 19): the scheduler's own record names CELL 4096. -/
def State.imageRecord (s : State) (op : ImageOp) (flags code cause addr : Nat) (of_ : RecordOf) : Nat × State :=
  if op.cell != hubActor then
    let (rid, s) := s.pushRecord op.cell op.elem op.ctx op.slot 0x2E flags 0 (mkFault code cause (lowMark op.m0) addr) of_
    (rid, s.hold op.cell op.elem op.ctx rid)
  else
    let uid := match s.regionAt op.die op.region with | some r => r.launch | none => 0
    let (rid, s) := s.newId
    let r : FRecord :=
      { id := rid, code := code, cause := cause, flags := flags, opcode := 0x2E, cell := hubActor, elem := 0, ctx := 0,
        slot := 0, launchid := 0, lanes := 0, addr := addr, profile := 0, asid := 0, time := s.ticks, snap := 0 }
    (rid, s.setDie op.die fun d => { d with records := d.records ++ [⟨r, of_, none, uid, hubActor⟩] })

/-- A fault of a CTXIMG pauses it (R381, R386). -/
def State.imagePause (s : State) (op : ImageOp) (code cause addr : Nat) : State :=
  let s := if isRef addr then (if code = fUncorrectable then s.countUncorr (dieOf (refCell addr)) else s)
    else s.countAt code none op.die op.asid addr
  let (rid, s) := s.imageRecord op rEngine code cause addr (.image op.id)
  { s with images := updateWhere (·.id == op.id) (fun i => { i with paused := some rid }) s.images }

/-- A CTXIMG leaves; the census of its cell loses 1 (R132, R259). -/
def State.imageLeave (s : State) (op : ImageOp) : State :=
  { s with images := s.images.filter (·.id != op.id) }.charge (s.cell op.cell).seat (-1)

/-! A saved region's cells (R360, R380). -/

/-- What the scheduler keeps of a cell beside its image: the rows and the command blocks are the image's and memory's, and an
output channel without its reservation asks again (R383, R422). -/
def Cell.kept (c : Cell) : Cell :=
  let blank := fun (k : Ctx) => { k with v := List.replicate 16 [] }
  let outs := fun (o : OutRes) => match o with | .requested => OutRes.idle | o => o
  { c with sram := [], cch := [], tlb := [], region := none, running := true, stopped := true
           shuttle := c.shuttle.map fun x => { x with fields := [], progress := x.saved }
           elems := c.elems.map fun e => { e with ctxs := e.ctxs.map blank, outs := e.outs.map outs, busyUntil := 0 } }

/-- One cell of a region put aside: its number, then what is kept. DESIGN CHOICE (log 41): numbers of 8,192 and more. -/
def State.putAside (s : State) (c : Nat) : Cell × State :=
  let (n, s) := s.newId
  let v := 8192 + n
  let k := { (s.cell c).kept with id := v }
  let asks := fun (g : GrantReq) => match g.source with | .out c' _ _ => c' == c | _ => false
  let s := { s with grants := s.grants.filter (!asks ·), cells := s.cells.filter (·.id != c)
                    upsets := s.upsets.filter fun u => !u.place.inCell c }
  (k, s.renameCell c v)

/-- After DONE the scheduler frees the cells of a region (R380); a launch without a region is pre-empted (R358, R367). None while the line
of its report must be waited for. -/
def State.saveRegion (s : State) (r : Region) (image : Nat) : Option State :=
  let seats := r.cells.map fun c => (s.cell c).seat.getD ⟨0, 0, 0, 0⟩
  let (ks, s) := r.cells.foldl (fun (acc : List Cell × State) c =>
    let (k, s) := acc.2.putAside c
    (acc.1 ++ [k], s)) ([], s)
  let v : SavedRegion := { launch := r.launch, die := r.die, image := image, seats := seats, cells := ks }
  let s := { s with saved := s.saved ++ [v], regions := s.regions.filter fun q => !(q.die == r.die && q.index == r.index) }.renameStall r.die r.index 8 image
  if s.regions.any (·.launch == r.launch) then some s else s.launchStopped r.launch

/-! PREEMPTION_DRAIN_COMPLETE. -/

/-- The first row of a region that cannot be read (R381). -/
def State.badRow (s : State) (cs : List Nat) (full : Bool) : Option Nat :=
  if s.upsets.isEmpty then none
  else cs.findSome? fun c => ((s.cell c).rows full).findSome? fun r => if s.sramSpoiled c (32 * r) 32 then some (mkRef c (32 * r)) else none

/-- A full image, or a delta behind the last image of the region (R385). -/
def imageKind (form : Nat) (r : Region) : Bool × Nat × Nat :=
  match r.lastImage with
  | some p => if form = 1 && r.depth + 1 ≤ 15 then (false, r.depth + 1, p) else (true, 0, 0)
  | none => (true, 0, 0)

/-- A CTXIMG's turn: the earlier ones of its region have ended (R360, R380). -/
def State.imageTurn (s : State) (op : ImageOp) : Bool :=
  (s.images.find? fun i => i.die == op.die && i.region == op.region).any (·.id == op.id)

/-- The time at which the last element of a region stopped (R382). -/
def State.stopTime (s : State) (op : ImageOp) (r : Region) : Nat :=
  (r.cells.flatMap fun c => (s.cell c).elems.map fun e => e.busyUntil / (1000 * Config.ps) % 2 ^ 64).foldl max op.start

/-- An image whose writing has begun and is not over: its DONE word is 0 (R381, R382). -/
def State.imageBegun (s : State) (op : ImageOp) : State :=
  match s.imageStore op (op.image + 56) (leBytes 8 0) with
  | .ok _ t => t
  | _ => s

/-- PREEMPTION_DRAIN_COMPLETE (R380 to R385, R422): the drained region's image is written, DONE last. -/
def execPreemptionDrainComplete (id : Nat) (s : State) : Out :=
  .next (match s.images.find? (·.id == id) with
    | none => s
    | some op => match s.regionAt op.die op.region with
      | none => if op.form = 2 then s else s.imageLeave op
      | some r =>
          if op.form = 2 || op.paused.isSome || !s.imageTurn op then s
          else if !r.stopping then s.stopRegion r
          else if !s.drained r.cells then s
          else
            let (full, depth, prev) := imageKind op.form r
            match s.badRow r.cells full with
            | some a => (s.imageBegun op).imagePause op fUncorrectable 0 a
            | none =>
                let q := s.quiet r.cells
                let blocks := r.cells.map fun c => (q.controlBytes (q.cell c), (q.cell c).dataBytes ((q.cell c).rows full))
                let head := fun (len : Nat) => imageHeader (if full then 0 else 1) depth (regionName r.die r.index)
                  (q.launchidOf r.launch) r.cells.length prev len (s.stopTime op r) 0
                match (q.imagePut op op.image (imageBytes head blocks)) with
                | .wait => s
                | .fault code cause a => (s.imageBegun op).imagePause op code cause a
                | .ok _ q => match q.imageStore op (op.image + 56) (leBytes 8 1) with
                  | .ok _ q =>
                      let clean := fun (c : Cell) =>
                        { c with dirtyRows := [], imaged := some (q.partOf c.seat), shadow := if op.cell = hubActor then c.shadow else none }
                      let q := { q with cells := updateWhere (fun c => r.cells.contains c.id) clean q.cells }
                      let q := q.setRegion r.die r.index fun r => { r with lastImage := some op.image, depth := depth }
                      let q := q.imageLeave op
                      if op.cell = hubActor then (q.saveRegion r op.image).getD s else q
                  | .wait => s
                  | .fault code cause a => (s.imageBegun op).imagePause op code cause a)

/-! Restoring (R386). -/

/-- A read of an image: its bytes with the state, or the end of the restore. -/
def HubResult.andThen (r : HubResult) (f : List Nat → State → HubResult) : HubResult :=
  match r with
  | .ok bs s => f bs s
  | r => r

/-- The images of a chain, tip first, as their addresses in order; a bad one is a format fault (R386). -/
def State.imageChain (s : State) (op : ImageOp) (ncells : Nat) : Nat → Nat → HubResult
  | 0, va => .fault fFormat 0 va
  | n + 1, va =>
      (s.imageLoad op va 64).andThen fun h s =>
        if fieldAt h 0 4 != imageMagic || fieldAt h 16 2 != ncells || fieldAt h 56 8 != 1 || fieldAt h 7 1 > 15
        then .fault fFormat 0 va
        else if fieldAt h 6 1 = 0 then .ok [va] s
        else (s.imageChain op ncells n (fieldAt h 24 8)).andThen fun vs s => .ok (va :: vs) s

/-- Cell i's directory entry in an image: offset and data length. -/
def State.imageEntry (s : State) (op : ImageOp) (va i : Nat) : HubResult := s.imageLoad op (va + 64 + 16 * i) 12

/-- The token at a slot, with what no image holds of it: the seat it is charged to and its stream. -/
def readToken (old : Option Token) (b : List Nat) : Token :=
  { tag := BitVec.ofNat 32 (fieldAt b 0 4), lanes := wordsOfBytes 64 (b.drop 4), charge := old.bind (·.charge), stream := old.bind (·.stream) }

/-- The records that hold a context by its state bytes: those the scheduler kept where the first has the SEQ saved, else the record of the
die that has it (R384). -/
def State.holdersOf (s : State) (die : Nat) (k : Ctx) (b : List Nat) : List Nat :=
  let seq := fieldAt b 40 4
  if !bit (fieldAt b 1 1) 1 then []
  else if k.heldBy.head?.any fun id => ((s.recordOf id).bind (·.seq)).getD 0 == seq then k.heldBy
  else match (s.die die).records.find? (·.seq == some seq) with
    | some r => [r.record.id]
    | none => k.heldBy

/-- A context from its state bytes (R384): `held` are the records that hold it; an action that was not kept is stored for the first of
them. -/
def Ctx.fromBytes (k : Ctx) (b held : List Nat) : Ctx :=
  let flags := fieldAt b 1 1
  let action := fieldAt b 44 1
  { k with p := BitVec.ofNat 8 (fieldAt b 0 1), exhausted := bit flags 0, fpflags := fieldAt b 2 1 % 64, mwcnt := fieldAt b 3 1,
           srcnt := BitVec.ofNat 32 (fieldAt b 4 4), m := (List.range 4).map fun i => BitVec.ofNat 64 (fieldAt b (8 + 8 * i) 8)
           heldBy := held, wait := if bit flags 2 then k.wait else none, asleep := k.asleep && bit flags 3
           stored := if action = 0 then []
             else if k.stored.head?.any (·.2 == action) then k.stored
             else (held.take 1).map fun id => (id, action) }

/-- An element from its state bytes and its channels' contents. -/
def Elem.fromBytes (e : Elem) (b ch : List Nat) : Elem :=
  let chan := fun (n : Nat) =>
    let old := (e.chan n).tokens
    { tokens := (List.range (min 4 (fieldAt b (2 + n) 1))).map fun i => readToken old[i]? (sliceBytes ch (1040 * n + 260 * i) 260),
      granted := fieldAt b (10 + n) 1 : Chan }
  let out := fun (n : Nat) =>
    if !bit (fieldAt b 1 1) n then OutRes.idle else if e.outs.getD n .idle == .used then .used else .held
  { e with lastFired := fieldAt b 0 1 % 4, ins := (List.range 8).map chan, outs := (List.range 8).map out, occupant := none }

/-- A heddle queue entry: the command the scheduler kept, with what the image says of it; an entry that it did not keep is a
command of the named context. -/
def readHCmd (old : Option HCmd) (id asid : Nat) (b : List Nat) : HCmd :=
  let x : HCmd := old.getD { id := id, opcode := 0, words := [], offset := 0, elem := 0, ctx := 0, slot := 0, m0 := 0, asid := asid, dst := none,
                             started := false, paused := none, progress := 0, wovenSeq := 0, chain0 := [], chain1 := [], out := [], seq := 0 }
  { x with words := wordsOfBytes 8 b, opcode := fieldAt b 32 1, elem := bits (fieldAt b 33 1) 3 2, ctx := fieldAt b 33 1 % 4,
           started := fieldAt b 34 1 == 1, offset := signed 32 (fieldAt b 36 4), progress := fieldAt b 40 4 }

/-- A shuttle queue entry: its block is read again before it goes on, and PROGRESS then counts in its units (R300, R422). An entry that
the scheduler did not keep has read nothing of its payload. -/
def readShCmd (old : Option ShCmd) (id asid : Nat) (b : List Nat) : ShCmd :=
  let x : ShCmd := old.getD { id := id, opcode := 0, block := 0, pa := 2 ^ 52, leaf := plainLeaf, elem := 0, ctx := 0, slot := 0, m0 := 0,
                              asid := asid, profile := 0, phase := 0, progress := 0, paused := none, fields := [], buffer := [], seq := 0 }
  { x with block := fieldAt b 0 8, opcode := fieldAt b 8 1, elem := bits (fieldAt b 9 1) 3 2, ctx := fieldAt b 9 1 % 4,
           profile := fieldAt b 10 2, phase := fieldAt b 12 1, progress := fieldAt b 16 8, fields := [] }

/-- The watches that the context states name (R384). -/
def readWatches (b : List Nat) (queue : List HCmd) : List HWatch :=
  (List.range 128).filterMap fun i =>
    let o := 64 + 64 * (i / 8)
    let w := fieldAt b (o + 48 + i % 8) 1
    if !bit (fieldAt b (o + 56) 1) (i % 8) then none
    else
      let ids := ((queue.zip (List.range 8)).filter fun q => bit w q.2).map (·.1.id)
      if ids.isEmpty then none
      else some { elem := i / 32, ctx := i / 8 % 4, pred := i % 8, awaited := ids }

/-- A cell from its control block (R383, R386); fresh identifiers count from `id`, and `held` are the records that hold a context. -/
def Cell.fromControl (c : Cell) (b : List Nat) (id : Nat) (held : Ctx → List Nat → List Nat) : Cell :=
  let hb := fun o n => fieldAt b (0x540 + o) n
  let hq := (List.range (min 8 (hb 3 1))).map fun i => readHCmd c.heddle.queue[i]? (id + i) c.asid (sliceBytes b (0x540 + 16 + 48 * i) 48)
  let sq := ((List.range 16).map fun i => sliceBytes b (0x740 + 32 * i) 32).filter fun e => fieldAt e 8 1 != 0
  let elem := fun (e : Nat) =>
    let k := (c.elem e).fromBytes (sliceBytes b (0x440 + 64 * e) 64) (sliceBytes b (0x2000 + 8320 * e) 8320)
    let state := fun (x : Nat) => sliceBytes b (64 + 64 * (4 * e + x)) 64
    mapCtxs (fun x k => k.fromBytes (state x) (held k (state x))) k
  { c with
      roles := fieldAt b 12 22, draft := parseDraft (sliceBytes b 0x940 3136), shadow := none, sram := [], cch := [], sideLog := readSideArea (b.drop 0xA200),
      elems := (List.range 4).map elem, codebook := wordsOfBytes 256 (b.drop 0x1C200)
      heddle := { c.heddle with
        weights := sliceBytes b 0x20000 65536, wexp := sliceBytes b 0x30000 16384, queue := hq
        record := ⟨bit (hb 0 1) 0, hb 1 1, hb 2 1, bit (hb 0 1) 1⟩, counts := sliceBytes b (0x540 + 4) 8
        watches := readWatches b hq }
      shuttle := (sq.zip (List.range 16)).map fun e => readShCmd c.shuttle[e.2]? (id + 16 + e.2) c.asid e.1 }

/-- The rows of a data part written in a cell, with their dirty bits cleared (R385). -/
def Cell.putRows (c : Cell) (rows : List Nat) (b : List Nat) : Cell :=
  let c := ((rows.zip (List.range rows.length)).foldl (fun c r => c.putRow r.1 (sliceBytes b (32 * r.2) 32)) c)
  { c with dirtyRows := c.dirtyRows.filter fun r => !rows.contains r }

/-- The rows that a bitmap marks, ascending. -/
def bitmapRows (b : List Nat) : List Nat :=
  ((b.take 3072).zip (List.range 3072)).flatMap fun p => (bitsSet 8 p.1).map (8 * p.2 + ·)

/-- One data part restored (R386). -/
def State.restoreRows (s : State) (op : ImageOp) (c i va : Nat) : HubResult :=
  (s.imageEntry op va i).andThen fun d s =>
    let base := va + fieldAt d 0 8 + 0x34000
    (s.imageLoad op base 3072).andThen fun m s =>
      let rows := bitmapRows m
      (s.imageLoad op (base + 3072) (32 * rows.length)).andThen fun b s => .ok [] (s.setCell c fun k => k.putRows rows b)

/-- A discarded shadow store reloaded from its recorded address: as by DRAFTLD, a failed read or a rejected image leaves it empty with a
record (R257, R386, R387). -/
def State.reloadShadow (s : State) (op : ImageOp) (c asid va : Nat) : HubResult :=
  let got := (linePieces va imageLen).foldl (fun r p => r.andThen fun acc s =>
    (s.engineLoadPiece (some c) (dieOf c) asid true .draft 0 ((va + p.1) % 2 ^ 64) p.2).andThen fun new s =>
      .ok (acc ++ new) s) (HubResult.ok [] s)
  let fail := fun (s : State) (code cause a : Nat) =>
    HubResult.ok [] (s.imageRecord op (rEngine + rDone) code cause a (.done op.cell op.elem op.ctx)).2
  match got with
  | .wait => .wait
  | .fault code cause a => fail (s.countAt code (some c) (dieOf c) asid a) code cause a
  | .ok im s => match imageFault im with
    | some o => fail s fDraftValidation 0 ((va + o) % 2 ^ 64)
    | none => .ok [] (s.setCell c fun k => { k with shadow := some ⟨parseDraft im, va, asid⟩ })

/-- The cell's part of the census as its image has it, with what the cell has gained and lost since an image of it was written
(R185, R422). -/
def State.restorePart (s : State) (c : Nat) (b : List Nat) : State :=
  let v := signed 32 (fieldAt b 8 4)
  let k := s.cell c
  (s.charge k.seat (v - k.imaged.getD (s.partOf k.seat))).setCell c fun k => { k with imaged := some v }

/-- A WAITA goes on only where the image has it (R384). -/
def State.restoreWaits (s : State) (c : Nat) (b : List Nat) : State :=
  let gone := fun (a : Access) => a.cell == c && a.op == .waita && !bit (fieldAt b (64 + 64 * (4 * a.elem + a.ctx) + 1) 1) 3
  { s with accs := s.accs.filter (!gone ·) }

/-- One cell restored from a chain, the tip first (R386). -/
def State.restoreCell (s : State) (op : ImageOp) (c i : Nat) (chain : List Nat) : HubResult :=
  let tip := chain.headD 0
  let asid := match (s.cell c).shadow with | some sh => sh.asid | none => op.asid
  (s.imageEntry op tip i).andThen fun d s =>
    (s.imageLoad op (tip + fieldAt d 0 8) 0x34000).andThen fun b s =>
      let id := s.nextId
      let s := { s with nextId := s.nextId + 32, upsets := s.upsets.filter fun u => !u.place.inCell c }
      let asks := fun (g : GrantReq) => match g.source with | .out c' _ _ => c' == c | _ => false
      let s := { s with grants := s.grants.filter (!asks ·) }
      let held := s.holdersOf (dieOf (fieldAt b 0 4))
      let s := ((s.restorePart c b).restoreWaits c b).setCell c fun k => k.fromControl b id held
      let r := chain.reverse.foldl (fun r va => r.andThen fun _ s => s.restoreRows op c i va) (HubResult.ok [] s)
      let shadow := fieldAt b 0x1580 8
      if shadow = 0 then r else r.andThen fun _ s => s.reloadShadow op c asid shadow

/-- The actions stored in a cell's contexts take effect (R381). -/
def State.runStored (s : State) (c : Nat) : State :=
  (List.range 16).foldl (fun s i =>
    let acts := (s.ctxOf c (i / 4) (i % 4)).stored
    let s := s.setCtx c (i / 4) (i % 4) fun k => { k with stored := [] }
    acts.foldl (fun s a => match s.recordOf a.1 with
      | none => s
      | some r =>
          let cut := fun (d : Die) => { d with records := d.records.filter (·.record.id != a.1) }
          { s with dies := s.dies.map cut }.perform r a.2) s) s

/-- The region goes on (R386 step 5). -/
def State.releaseRegion (s : State) (r : Region) (op : ImageOp) (depth : Nat) : State :=
  let go := fun (r : Region) =>
    { r with stopping := false, reported := false, idle := 0, idleSince := s.time, lastImage := some op.image, depth := depth }
  let s := s.setRegion r.die r.index go
  let s := { s with cells := updateWhere (fun c => r.cells.contains c.id) (fun c => { c with stopped := false, running := true }) s.cells }
  let s := r.cells.foldl (fun s c => s.requestAll c) s
  r.cells.foldl (fun s c => s.runStored c) s

/-- RESTORE_COMPLETE (R386, R387): the chain is read into the region's cells and the region is released; nothing is restored of
a bad chain. -/
def execRestoreComplete (id : Nat) (s : State) : Out :=
  .next (match s.images.find? (·.id == id) with
    | none => s
    | some op => match s.regionAt op.die op.region with
      | none => if op.form = 2 then s.imageLeave op else s
      | some r =>
          if op.form != 2 || op.paused.isSome || !s.imageTurn op then s
          else
            let got := (s.imageChain op r.cells.length 16 op.image).andThen fun chain s =>
              (r.cells.zip (List.range r.cells.length)).foldl (fun q c =>
                q.andThen fun _ s => s.restoreCell op c.1 c.2 chain) (HubResult.ok [] s)
            let got := got.andThen fun _ s => (s.imageLoad op (op.image + 7) 1).andThen fun d s =>
              (s.imageStore op (op.image + 56) (leBytes 8 1)).andThen fun _ s => .ok d s
            match got with
            | .wait => s
            | .fault code cause a => s.imagePause op code cause a
            | .ok d s => (s.imageLeave op).releaseRegion r op (d.headD 0))

/-! The watchdog (R366). -/

/-- A region is one that the watchdog counts for: a nonzero census and nothing outstanding (R366). -/
def State.watched (s : State) (r : Region) : Bool := !r.stopping && s.regionCensus r != 0 && s.nothingOutstanding r.cells

/-- The control blocks of a region, with empty data parts, as the snapshot of a stall (R366). DESIGN CHOICE (log 42). -/
def State.snapshot (s : State) (r : Region) (va : Nat) : State :=
  let op : ImageOp :=
    { id := 0, cell := hubActor, elem := 0, ctx := 0, slot := 0, asid := 0, form := 0, image := va, die := r.die, region := r.index,
      start := s.ticks, paused := none, seq := 0, m0 := 0 }
  let head := fun (len : Nat) =>
    imageHeader 0 0 (regionName r.die r.index) (s.launchidOf r.launch) r.cells.length 0 len s.ticks 1
  match s.imagePut op va (imageBytes head (r.cells.map fun c => (s.controlBytes (s.cell c), []))) with
  | .ok _ s => s
  | _ => s

/-- WATCHDOG_EXPIRY (R366, R375): one region-stall record, with a snapshot of the region's control part. -/
def execWatchdogExpiry (die region : Nat) (s : State) : Out :=
  .next (match s.regionAt die region with
    | none => s
    | some r => match s.launch? r.launch with
      | none => s
      | some l =>
          if r.stalled || !s.watched r || s.idleCount r < l.wdog then s
          else
            let (va, s) := s.takeImage r.cells.length
            let s := s.snapshot r va
            let (id, s) := s.newId
            let root := (leastBy (fun (c : Nat) => c) r.cells).getD 0
            let k : FRecord :=
              { id := id, code := fRegionStall, cause := 0, flags := rSnap, opcode := 0xFF, cell := root, elem := 0, ctx := 0, slot := 0,
                launchid := l.launchid, lanes := 0, addr := 0, profile := 0, asid := l.asid, time := s.ticks, snap := va }
            let s := s.setDie die fun d => { d with records := d.records ++ [⟨k, .stall die region, none, l.uid, root⟩] }
            let s := s.setLaunch l.uid fun l => { l with faults := min (l.faults + 1) (2 ^ 32 - 1) }
            s.setRegion die region fun r => { r with stalled := true })

end Sys2Proof.Machine
end

