-- ==== Sys2Proof/Machine/Migration.lean ====
section
/-! DEFINITION. The migration engine: requests, copies, evictions, pins, and the completion of TLBINV
(02_translation_and_migration.md R38, R39, R43, R49 to R57; 04_coherence.md R105). -/

namespace Sys2Proof.Machine

/-! TLBINV at work (R38, R39). -/

/-- A store that the context fired before its TLBINV is not yet performed at package scope; what is in a side log is not counted (R39,
R126). -/
def State.storePending (s : State) (id : Nat) : Bool :=
  s.accs.any (fun a => a.id == id && !a.doneAt 2) || s.mwops.any (fun m => m.id == id && m.phase != .committed)

/-- A part goes on using the translation that it has, as one that is to be issued again does not: until it is performed at package scope,
or, for the TLBINV of the migration engine, in its cell. DEDUCED (log 44): a move flushes software-managed copies after its TLBINV
(R105), which therefore does not wait for them. -/
def Part.uses (p : Part) (engine : Bool) : Bool :=
  match p.st with
  | .waiting => true
  | .inCell => !engine
  | _ => false

/-- An access that was translated before a TLBINV is still to be performed through its translation (R39). -/
def State.using (s : State) (engine : Bool) (id : Nat) : Bool :=
  s.accs.any (fun a => a.id == id && a.parts.any (·.uses engine)) || s.mwops.any (fun m => m.id == id && m.phase != .committed) ||
  s.watches.any (fun w => w.id == id && (!w.armed || w.woken))

/-- A translation by a page of some size that a TLBINV names, whether or not a TLB still holds it (R38, R39). -/
def namedPage (form asid va : Nat) (k x page : Nat) : Bool :=
  match form with
  | 0 => k == asid && x % 2 ^ 57 / page == va % 2 ^ 57 / page
  | 1 => k == asid
  | _ => k != 0

/-- Accesses already translated through a translation that a TLBINV names (R39). -/
def State.usersOf (s : State) (engine : Bool) (form asid va : Nat) : List Nat :=
  let hit := namedPage form asid va
  ((s.accs.filter fun a => a.op != .prefetch && a.parts.any fun p => p.uses engine && hit a.asid p.va p.page).map (·.id)) ++
  ((s.mwops.filter fun m => (m.entries.zip m.pages).any fun e => hit m.asid e.1.1 e.2).map (·.id)) ++
  ((s.watches.filter fun w => (!w.armed || w.woken) && hit w.asid w.va w.page).map (·.id))

/-- The TLBINV is one of the migration engine. -/
def TlbInv.engine (v : TlbInv) : Bool := v.cell == hubActor

/-- TLBINV_COMPLETE (R38, R39): once the context's earlier stores are performed the translations are removed; once their users
are performed the arc is set. -/
def execTlbinvComplete (id : Nat) (s : State) : Out :=
  .next (match s.invs.find? (·.id == id) with
    | none => s
    | some v =>
        if !v.begun then
          if v.before.any s.storePending then s
          else
            let va := v.va % 2 ^ 57
            let users := s.usersOf v.engine v.form v.asid va
            let s := s.removeTranslations v.form v.asid va
            { s with invs := updateWhere (fun (x : TlbInv) => x.id == id) (fun x => { x with begun := true, waitFor := users }) s.invs }
        else if v.waitFor.any (s.using v.engine) then s
        else
          let s := { s with invs := s.invs.filter fun (x : TlbInv) => x.id != id }
          s.setArc v.cell v.elem v.ctx v.arc)

/-- A page-form TLBINV of the migration engine (R52, R55). -/
def State.engineInv (s : State) (asid va : Nat) : Nat × State :=
  let (id, s) := s.newId
  let v : TlbInv :=
    { id := id, cell := hubActor, elem := 0, ctx := 0, form := 0, asid := asid, va := va, begun := false, before := [], waitFor := [],
      arc := none }
  (id, { s with invs := s.invs ++ [v] })

/-- A watched leaf has been written. -/
def State.leafMoved (s : State) (line pa v : Nat) : Bool := lineOf pa == line && s.coherentNat pa 8 != v

/-- The re-walk of a held load whose leaf has been written: it goes on waiting while a lane meets MIG = 1 or a walk, and is free to fire
again once the walks of all its lanes succeed or one faults (R43). -/
def State.rewalk (s : State) (line c e x : Nat) : State :=
  match (s.ctxOf c e x).wait with
  | some (.migLeaf pa v asid vas k) =>
      if !s.leafMoved line pa v then s
      else
        let (rs, s) := vas.foldl (fun (r : List (Nat × Nat × Trans) × State) va =>
          let q := r.2.translateFor c asid k va
          (r.1 ++ [(0, va, q.1)], q.2)) ([], s)
        if rs.any (·.2.2 == .busy) then s
        else s.setCtx c e x fun q => { q with wait := if (failure laneMark rs).isSome then none else waitOf asid k rs }
  | _ => s

/-- MIG_LEAF_WRITTEN (R43, R45, R47): contexts that watch a leaf of the line walk again once it has changed; every logged store of a page
that waits on such a leaf is due for its replay. -/
def execMigLeafWritten (line : Nat) (s : State) : Out :=
  let due := fun (c : Cell) (e : SideEntry) => c.sideLog.any fun k => k.asid == e.asid && k.page == e.page &&
    k.mig.any fun m => s.leafMoved line m.1 m.2
  let cell := fun (c : Cell) => { c with sideLog := c.sideLog.map fun e => if due c e then { e with replaying := true } else e }
  .next ((s.cells.map (·.id)).foldl (fun s c => (List.range 16).foldl (fun s i => s.rewalk line c (i / 4) (i % 4)) s)
    { s with cells := s.cells.map cell })

/-! Requests (R50 to R53). -/

def State.setReq (s : State) (id : Nat) (f : MigReq → MigReq) : State :=
  { s with mig := { s.mig with requests := updateWhere (·.id == id) f s.mig.requests } }
def State.dropReq (s : State) (id : Nat) : State :=
  { s with mig := { s.mig with requests := s.mig.requests.filter (·.id != id) } }

def mgDone : Nat := 0
def mgLost : Nat := 1
def mgPinned : Nat := 2
def mgNoSpace : Nat := 3
def mgFault : Nat := 4
def mgBadReq : Nat := 5

/-- A completion record (R51). -/
def migBytes (status cause phase frame : Nat) : List Nat := leBytes 4 status ++ leBytes 2 cause ++ [0, phase] ++ leBytes 8 frame

/-- A record appended to the eviction ring, with the parity of its pass (R56); none while its line must be waited for (R93). -/
def State.ringRecord (s : State) (status frame : Nat) : Option State :=
  let m := s.mig
  if evBase m.evq = 0 then some s
  else
    let n := m.evp
    let phase := 1 - n / evSize m.evq % 2
    (s.hubStorePa (evBase m.evq + 16 * (n % evSize m.evq)) (migBytes status 0 phase frame)).map fun s =>
      { s with mig := { s.mig with evp := (n + 1) % 2 ^ 32 } }

/-- A record's place is one a record can be written to (R50, R51). -/
def State.recordAt (s : State) (a : Nat) : Bool := a < 2 ^ 52 && s.populated a 16 && !inMmio a && a % 16 == 0

/-- The end of a request (R51), or of an eviction (R55); none while the line of its record must be waited for (R93). DESIGN CHOICE (log
43): a record that has no place to be written is dropped; NOREC of HUBFLT counts launches' records (R402). -/
def State.endReq (s : State) (r : MigReq) (status cause frame : Nat) : Option State :=
  let s := s.dropReq r.id
  if r.eviction then s.ringRecord status frame
  else (if s.recordAt r.crec then s.hubStorePa r.crec (migBytes status cause 0 frame) else some s).map fun s =>
    if r.irq then { s with mig := { s.mig with done := true } } else s

/-- A request block's own violations; an address has 52 bits (R17, R50). -/
def State.badReq (s : State) (b : List Nat) : Bool :=
  let size := fieldAt b 2 1
  let n := if size = 0 then 4096 else 2 ^ 21
  let frame := fieldAt b 16 8
  fieldAt b 0 2 == 0 || size > 1 || fieldAt b 3 1 > 2 || fieldAt b 4 4 > 1 || fieldAt b 8 8 % n != 0 || fieldAt b 24 8 % 16 != 0 ||
  fieldAt b 24 8 ≥ 2 ^ 52 || (frame != 0 && (frame ≥ 2 ^ 52 || frame % n != 0 || !s.frameOk frame n || s.placementOf frame != fieldAt b 3 1))

/-- The end of the engine's walk: a translation cause, a request that does not fit the tables, a table read that waits, one that meets an
uncorrectable error, or the leaf, parked or not, with its address and level (R50, R52). -/
inductive MigWalked
  | cause (c : Nat)
  | unfit
  | waits
  | bad
  | leaf (value pa level : Nat)
  deriving DecidableEq, Repr

/-- The engine's walk to a leaf; one for a 2 MiB page that reaches a level-1 table entry does not fit (R50, R52 step 1). -/
def State.migWalk (s : State) (asid va size : Nat) : Nat → Nat → MigWalked × State
  | 0, _ => (.cause 2, s)
  | level + 1, table =>
      let pa := table + 8 * bits va (20 + 9 * level) (12 + 9 * level)
      match s.readEntry pa with
      | (.waits, s) => (.waits, s)
      | (.bad, s) => (.bad, s)
      | (.value e, s) =>
          if bit e 1 then
            if level ≥ 3 then (.cause (if bit e 0 then 2 else 0), s)
            else match s.leafCause asid e level with
              | some c => (.cause c, s)
              | none => (.leaf e pa level, s)
          else if !bit e 0 then (.cause 0, s)
          else if level = 0 then (.cause 2, s)
          else if level = 1 && size = 1 then (.unfit, s)
          else match s.tableCause asid (bits e 55 16 * 4096) with
            | some c => (.cause c, s)
            | none => s.migWalk asid va size level (bits e 55 16 * 4096)

/-- From the ASID root (R20, R52). -/
def State.migRoot (s : State) (asid va size : Nat) : MigWalked × State :=
  if !canonical va then (.cause 1, s)
  else if !s.hub.asidEn then (.cause 0, s)
  else match s.readEntry (s.hub.asidBase * 2 ^ 19 + 8 * asid) with
    | (.waits, s) => (.waits, s)
    | (.bad, s) => (.bad, s)
    | (.value e, s) =>
        if !bit e 0 then (.cause 0, s)
        else match s.tableCause asid (bits e 55 16 * 4096) with
          | some c => (.cause c, s)
          | none => s.migWalk asid (va % 2 ^ 57) size 5 (bits e 55 16 * 4096)

def pfnOf (e : Nat) : Nat := bits e 55 16 * 4096
def migBytesOf (size : Nat) : Nat := if size = 0 then 4096 else 2 ^ 21

/-- The page is pinned now (R52). -/
def State.pinned (s : State) (asid va : Nat) : Bool :=
  s.mig.history.any fun p => p.pinned && p.asid == asid && p.va == va && s.time < p.time + 1000000000 * Config.ps

/-- The request would oppose a migration of the page completed less than 100 us before (R52). -/
def State.opposes (s : State) (asid va dest : Nat) : Bool :=
  s.mig.history.any fun p => !p.pinned && p.asid == asid && p.va == va && p.towardHost != (dest == 2) && s.time < p.time + 100000000 * Config.ps

/-- A pin for 1 ms; beyond 4,096 the oldest is released (R52, R53). DESIGN CHOICE (log 43): a page pinned anew while it is still pinned takes
an entry more, where R53 does not say whether it would renew its own. -/
def State.pin (s : State) (asid va : Nat) : State :=
  let pins := s.mig.history.filter (·.pinned)
  let rest := s.mig.history.filter fun p => !p.pinned
  { s with mig := { s.mig with history := rest ++ (pins ++ [PinEntry.mk asid va false s.time true]).drop (pins.length + 1 - 4096) } }

/-- A completed migration remembered (R52 step 8). -/
def State.remember (s : State) (asid va dest : Nat) : State :=
  let old := s.mig.history.filter fun p => p.pinned || (s.time < p.time + 100000000 * Config.ps && !(p.asid == asid && p.va == va))
  { s with mig := { s.mig with history := old ++ [PinEntry.mk asid va (dest == 2) s.time false] } }

/-- Step 3: MIG is set in the leaf and the TLBINV of step 4 is issued (R52). -/
def State.startMove (s : State) (r : MigReq) (leafPa leaf : Nat) : State :=
  let s := s.storeNow none leafPa (leBytes 8 (setBits leaf 13 13 1)) none
  let (inv, s) := s.engineInv r.asid r.va
  s.setReq r.id fun r => { r with phase := 4, leafPa := leafPa, leaf := leaf, inv := inv }

/-- Steps 1 to 3 for a request that has been read (R52); none while a line it needs must be waited for (R93). DESIGN CHOICE (log 43): a
request to the placement that the page has ends DONE before the pin table is looked at, where neither R49 nor R52 gives an order; a leaf
whose frame is of another module, in an MMIO window or in a descriptor store ends BADREQ, where the test for a movable leaf (R50) does
not speak of its frame; a walk that meets an uncorrectable error ends FAULT with CAUSE 0. -/
def State.beginReq (s : State) (r : MigReq) : Option State :=
  match s.migRoot r.asid r.va r.size with
  | (.waits, _) => none
  | (.bad, s) => s.endReq r mgFault 0 0
  | (.cause c, s) => s.endReq r mgFault c 0
  | (.unfit, s) => s.endReq r mgBadReq 0 0
  | (.leaf e pa level, s) =>
      let frame := pfnOf e
      if level != r.size || bit e 4 || !s.frameOk frame (migBytesOf r.size) then s.endReq r mgBadReq 0 frame
      else if s.placementOf frame = r.dest && !bit e 13 then s.endReq r mgDone 0 frame
      else if s.opposes r.asid r.va r.dest then (s.pin r.asid r.va).endReq r mgPinned 0 frame
      else if s.pinned r.asid r.va then s.endReq r mgPinned 0 frame
      else if bit e 13 then some (s.setReq r.id fun r => { r with phase := 3, leafPa := pa, leaf := e })
      else if s.homeWaits pa true then none
      else some (s.startMove r pa e)

/-- MIGRATION_REQUEST (R50 to R53): the block is read and validated, then steps 1 to 4. DESIGN CHOICE (log 43): a block that cannot be
read has no completion record; PFRAME is 0 in the record of a FAULT and of a block that fails validation, where
R51 names no frame. -/
def execMigrationRequest (id : Nat) (s : State) : Out :=
  .next (match s.mig.requests.find? (·.id == id) with
    | none => s
    | some r =>
        if !s.mig.en || r.phase != 0 then s
        else match s.hubLoadPa r.block 32 with
          | .wait => s
          | .fault code _ pa => (s.countPa code pa).dropReq id
          | .ok b s' =>
              let r := { r with asid := fieldAt b 0 2, size := fieldAt b 2 1, dest := fieldAt b 3 1, irq := bit (fieldAt b 4 4) 0,
                                va := fieldAt b 8 8, frame := fieldAt b 16 8, crec := fieldAt b 24 8 }
              let s' := s'.setReq id fun _ => r
              (if s'.badReq b then s'.endReq r mgBadReq 0 0 else s'.beginReq r).getD s)

/-- MIGRATION_LOST (R52, R53): the leaf that another request was moving has been written. -/
def execMigrationLost (id : Nat) (s : State) : Out :=
  .next (match s.mig.requests.find? (·.id == id) with
    | none => s
    | some r =>
        let now := s.coherentNat r.leafPa 8
        if r.phase != 3 || now = r.leaf || bit now 13 then s else (s.endReq r mgLost 0 (pfnOf now)).getD s)

/-! The copy (R52 steps 4 to 8, R105). -/

/-- A range of memory moved: what was at the destination is replaced, byte for byte. -/
def moveRange (m : List Host.Cell) (src dst n : Nat) : List Host.Cell :=
  let moved := (m.filter fun c => src ≤ c.1 && c.1 < src + n).map fun c => (c.1 - src + dst, c.2)
  m.filter (fun c => c.1 < dst) ++ moved ++ m.filter (fun c => dst + n ≤ c.1)

/-- The lines of a range of which a cell or the host holds a copy. -/
def State.heldIn (s : State) (pa n : Nat) : List Nat :=
  ((s.cells.flatMap fun c => c.cch.map (·.pa)) ++ s.hostCopies.map (·.pa)).filter fun l => pa ≤ l && l < pa + n
/-- Coherent copies of a range given up (R92). -/
def State.pullRange (s : State) (pa n : Nat) : State := (s.heldIn pa n).foldl (fun s l => s.pull l true none) s
/-- A line of a range must be waited for: it is locked, under recall, or its holder keeps it (R93, R96, R145). -/
def State.rangeWaits (s : State) (pa n : Nat) : Bool :=
  (s.heldIn pa n).any (fun l => s.pullWaits l true none) || s.locks.any (fun k => pa ≤ k.line && k.line < pa + n) ||
  s.recalls.any fun k => pa ≤ k.line && k.line < pa + n

/-- Step 6: the payload, and the descriptors of a described page (R28, R52). A watch on a word follows it, since migration is
invisible (R134, R158). DESIGN CHOICE (log 43): an uncorrectable word moves with the payload. -/
def State.copyPage (s : State) (src dst n : Nat) (described : Bool) : State :=
  let s := (s.pullRange src n).pullRange dst n
  let m := moveRange s.mem src dst n
  let m := if described then moveRange m (s.descAddr src) (s.descAddr dst) (n / 32) else m
  let inside := fun (a x : Nat) => a ≤ x && x < a + n
  let bad := fun (u : Upset) => u.double && (u.place == .memory || s.sliceSpoiled u.addr 1)
  let here := fun (a : Nat) (u : Upset) => (u.place == .memory || u.place == .sliceData) && inside a u.addr
  let s := (s.upsets.filter (here src)).foldl (fun s u => s.correctAt u.addr 8) s
  let moved := (s.upsets.filter fun u => here src u && bad u).map fun u => { u with place := .memory, addr := u.addr - src + dst }
  { s with mem := m, upsets := s.upsets.filter (fun u => !here src u && !here dst u) ++ moved
           watches := updateWhere (fun (w : Watch) => inside src w.pa) (fun w => { w with pa := w.pa - src + dst }) s.watches }

/-- The destination frame, taken from FRAME or from the free list (R52 step 5, R57). -/
def State.takeFrame (s : State) (r : MigReq) : Option (Nat × State) :=
  if r.frame != 0 then some (r.frame, s)
  else if r.size = 0 then match s.mig.free4k.getD r.dest [] with
    | f :: fs => some (f, { s with mig := { s.mig with free4k := s.mig.free4k.set r.dest fs } })
    | [] => none
  else match s.mig.free2m.getD r.dest [] with
    | f :: fs => some (f, { s with mig := { s.mig with free2m := s.mig.free2m.set r.dest fs } })
    | [] => none

/-- Steps 5 to 8 (R52): without a frame MIG is cleared again; else the page is copied, the leaf written once, the move remembered,
and the frame that the page left joins its free list (R51). None while a line it needs must be waited for (R93). DESIGN CHOICE (log 43): a
leaf that has become uncorrectable ends the request with FAULT and CAUSE 0. -/
def State.finishMove (s : State) (r : MigReq) : Option State :=
  match s.readEntry r.leafPa with
  | (.waits, _) => none
  | (.bad, s) => s.endReq r mgFault 0 0
  | (.value leaf, s) =>
      let old := pfnOf leaf
      let n := migBytesOf r.size
      if s.homeWaits r.leafPa true then none
      else match s.takeFrame r with
        | none =>
            let s := if r.eviction then { s with mig := { s.mig with nospace := true } } else s
            (s.storeNow none r.leafPa (leBytes 8 (setBits leaf 13 13 0)) none).endReq r mgNoSpace 0 old
        | some (f, s) =>
            if s.rangeWaits old n || s.rangeWaits f n then none
            else
              let s := s.copyPage old f n (leafDsc leaf)
              let e := setBits (setBits (setBits (setBits leaf 55 16 (f / 4096)) 0 0 1) 13 13 0) 5 5 0
              let s := s.storeNow none r.leafPa (leBytes 8 e) none
              ((s.remember r.asid r.va r.dest).pushFrame old (r.size == 1)).endReq r mgDone 0 f

/-- MIGRATION_COPY (R52, R105): after the TLBINV, an SM page is flushed from every cell; then the page moves.
DESIGN CHOICE (log 43): a request that has come past step 3 goes on when MIGCTL.EN is cleared; R56 lets only submitted ones wait. -/
def execMigrationCopy (id : Nat) (s : State) : Out :=
  .next (match s.mig.requests.find? (·.id == id) with
    | none => s
    | some r =>
        let leaf := s.coherentNat r.leafPa 8
        if r.phase = 4 then
          if s.invs.any (·.id == r.inv) then s
          else s.setReq id fun r => { r with phase := 5, flush := if leafSm leaf then s.cells.map (·.id) else [] }
        else if r.phase = 5 && r.flush.isEmpty then (s.finishMove r).getD s
        else s)

/-- SM_FLUSH (R105): a cell writes back and drops its software-managed copies of a frame that is about to move. -/
def execSmFlush (cell frame : Nat) (s : State) : Out :=
  let asks := fun (r : MigReq) => r.phase == 5 && r.flush.contains cell && pfnOf (s.coherentNat r.leafPa 8) == frame
  .next (match s.mig.requests.find? asks with
    | none => s
    | some r =>
        let n := migBytesOf r.size
        let s := (s.cell cell).cch.foldl (fun s l =>
          if !l.coherent && frame ≤ l.pa && l.pa < frame + n then s.evictLine cell l.pa else s) s
        s.setReq r.id fun r => { r with flush := r.flush.filter (· != cell) })

/-- PIN_EXPIRY (R52): a pin lapses 1 ms after it was set. -/
def execPinExpiry (i : Nat) (s : State) : Out :=
  .next (match s.mig.history[i]? with
    | none => s
    | some p =>
        if !p.pinned || s.time < p.time + 1000000000 * Config.ps then s
        else { s with mig := { s.mig with history := s.mig.history.eraseIdx i } })

/-! Oversubscription (R54, R55). -/

/-- The least value of a sum of dimensions whose index runs in a range. -/
def dimLow (stride : Int) (lo hi : Nat) : Int := if stride < 0 then stride * (hi : Int) else stride * (lo : Int)
def dimHigh (stride : Int) (lo hi : Nat) : Int := if stride < 0 then stride * (lo : Int) else stride * (hi : Int)

/-- A nested stream: every stride positive, each at least the span of the dimension below (R73). -/
def streamNested (d : List Nat) : Bool :=
  ((List.range (stNdim d)).all fun i => 0 < stStride d i) &&
    (List.range (stNdim d - 1)).all fun i => (stSize d i : Int) * stStride d i ≤ stStride d (i + 1)

/-- The footprint of a stream: lowest and highest byte that its descriptor can reach (R54). -/
def streamReach (d : List Nat) : Int × Int :=
  let lows := (List.range (stNdim d)).map fun i => dimLow (stStride d i) 0 (stSize d i - 1)
  let highs := (List.range (stNdim d)).map fun i => dimHigh (stStride d i) 0 (stSize d i - 1)
  ((stBase d : Int) + lows.foldl (· + ·) 0, (stBase d : Int) + highs.foldl (· + ·) 0 + (stEsize d : Int) - 1)

/-- How a page stands to one open window: none where it does not cover, else its distance behind the low-water address, or
nothing where it is not behind. The low-water address of a nested stream is that of its oldest element not yet popped; of any other
it stays the footprint's lowest address (R54, R73). -/
def windowOf (k : Stream) (asid va n : Nat) : Option (Option Nat) :=
  let (lo, hi) := streamReach k.desc
  if k.asid != asid || (va + n : Int) ≤ lo || hi < (va : Int) then none
  else
    let low : Int := if streamNested k.desc then stAddr k.desc (k.popped * stPer k.desc) else lo
    if (va + n : Int) ≤ low then some (some (low - (va + n : Int)).toNat) else some none

/-- The entries of a table that may not be 0: those with a listed byte, or in a line that a cell holds. -/
def State.tableSlots (s : State) (base n : Nat) : List Nat :=
  let listed := (s.mem.filter fun c => base ≤ c.1 && c.1 < base + 8 * n).map fun c => (c.1 - base) / 8
  let held := (s.cells.flatMap (·.cch)).flatMap fun l =>
    if base ≤ l.pa && l.pa < base + 8 * n then (List.range 16).map fun i => (l.pa - base) / 8 + i else []
  (sortBy (· ≤ ·) (listed ++ held)).foldl (fun acc i => if acc.getLast? = some i then acc else acc ++ [i]) []

/-- The canonical 64-bit address of a page that the tables place at a 57-bit one (R14). -/
def canonicalOf (va : Nat) : Nat := if va < 2 ^ 56 then va else va + (2 ^ 64 - 2 ^ 57)

/-- Every leaf of a table, as (asid, virtual address, level, leaf address, leaf). -/
def State.leavesOf (s : State) (asid va : Nat) : Nat → Nat → List (Nat × Nat × Nat × Nat × Nat)
  | 0, _ => []
  | level + 1, table =>
      (s.tableSlots table 512).flatMap fun i =>
        let pa := table + 8 * i
        let e := s.coherentNat pa 8
        let here := va + i * pageSize level
        if bit e 1 then (if level < 3 && (s.leafCause asid e level).isNone then [(asid, canonicalOf here, level, pa, e)] else [])
        else if bit e 0 && level > 0 && (s.tableCause asid (pfnOf e)).isNone then s.leavesOf asid here level (pfnOf e)
        else []

/-- The pages that may be victims: movable, in placement 0, MIG and S clear, not pinned, in ASID and address order (R55). -/
def State.evictable (s : State) : List (Nat × Nat × Nat × Nat × Nat) :=
  if !s.hub.asidEn then []
  else
    let root := s.hub.asidBase * 2 ^ 19
    let all := ((s.tableSlots root 65536).filter (· != 0)).flatMap fun a =>
      let e := s.coherentNat (root + 8 * a) 8
      if bit e 0 && (s.tableCause a (pfnOf e)).isNone then s.leavesOf a 0 5 (pfnOf e) else []
    all.filter fun p =>
      let e := p.2.2.2.2
      p.2.2.1 ≤ 1 && !bit e 4 && !bit e 13 && s.frameOk (pfnOf e) (pageSize p.2.2.1) && s.placementOf (pfnOf e) == 0 &&
      !s.pinned p.1 p.2.1

/-- The leaf of a page can be read and written at home now (R93, R96). -/
def State.leafFree (s : State) (pa : Nat) : Bool :=
  !s.homeWaits pa true && match (s.readEntry pa).1 with | .value _ => true | _ => false

/-- How a page stands to every open window: uncovered, behind all with its least distance, or held by one (R55). -/
def State.windowState (s : State) (p : Nat × Nat × Nat × Nat × Nat) : Option (Option Nat) :=
  let ws := (s.streams.filter (·.opened)).filterMap fun k => windowOf k p.1 p.2.1 (pageSize p.2.2.1)
  if ws.isEmpty then none
  else if ws.any (·.isNone) then some none
  else some (leastBy id (ws.filterMap id))

/-- An eviction of a page begins at step 3 of R52 (R55). -/
def State.evict (s : State) (p : Nat × Nat × Nat × Nat × Nat) : State :=
  let (asid, va, level, pa, e) := p
  let (id, s) := s.newId
  let r : MigReq :=
    { id := id, block := 0, asid := asid, size := level, dest := 1, irq := false, va := va, frame := 0, crec := 0, phase := 0, leafPa := pa,
      leaf := e, inv := 0, flush := [], eviction := true }
  ({ s with mig := { s.mig with requests := s.mig.requests ++ [r] } }).startMove r pa e

/-- The next page of the clock, after its hand. -/
def clockNext (hand : List (Nat × Nat)) (ps : List (Nat × Nat × Nat × Nat × Nat)) : Option (Nat × Nat × Nat × Nat × Nat) :=
  match hand with
  | [] => ps.head?
  | h :: _ => match ps.find? fun p => p.1 > h.1 || (p.1 == h.1 && p.2.1 > h.2) with
    | some p => some p
    | none => ps.head?

/-- A list of placement 1 can serve the page, or none of its evictions has yet ended NOSPACE (R55, log 43). -/
def Mig.mayEvict (m : Mig) (level : Nat) : Bool :=
  !m.nospace || !((if level = 0 then m.free4k else m.free2m).getD 1 []).isEmpty

/-- GDDR_EVICTION (R55, R56): between the watermarks one victim at a time is moved to placement 1: first the pages behind every
window, then by clock second chance; with no candidate left eviction stops. DESIGN CHOICE (log 43): a free 2 MiB frame counts as the 512
frames of 4 KiB that it holds, as MIGSTAT counts it, where R56 gives LOW and HIGH in free 4 KiB frames; a page found with A = 0 on the
clock's first visit is evicted at once, where R55 speaks of the next pass; after an eviction has ended NOSPACE, pages for which placement
1 has no frame are no candidates until a frame joins one of its lists. -/
def execGddrEviction (s : State) : Out :=
  let m := s.mig
  let low := min m.low m.high
  let free := m.freeUnits 0
  let stop : State := { s with mig := { m with evicting := false } }
  .next (if !m.en || low = 0 || m.evFull || m.requests.any (·.eviction) then s
    else if free ≥ m.high && m.evicting then stop
    else if !(free < low || m.evicting) then s
    else
      let all := s.evictable.filter fun p => m.mayEvict p.2.2.1 && s.windowState p != some none
      let s : State := { s with mig := { m with evicting := true } }
      let ps := all.filter fun p => s.leafFree p.2.2.2.1
      let behind := ps.filterMap fun p => match s.windowState p with | some (some d) => some (d, p) | _ => none
      match leastBy (fun (x : Nat × Nat × Nat × Nat × Nat × Nat) => x.1) behind with
      | some x => s.evict x.2
      | none =>
          match clockNext s.mig.clockHand (ps.filter fun p => (s.windowState p).isNone) with
          | none => if all.isEmpty then stop else s
          | some p =>
              let s := { s with mig := { s.mig with clockHand := [(p.1, p.2.1)] } }
              if bit p.2.2.2.2 5 then
                (s.storeNow none p.2.2.2.1 (leBytes 8 (setBits p.2.2.2.2 5 5 0)) none).engineInv p.1 p.2.1 |>.2
              else s.evict p)

end Sys2Proof.Machine
end

