-- ==== Sys2Proof/Machine/Hub.lean ====
section
/-! DEFINITION. The hub's outside: host and remote accesses, the management controller, bring-up after a module reset, and
the collectives of the UALink ports (18_host_and_scale_out.md R400 to R408, R420, R421; 04_coherence.md R98). -/

namespace Sys2Proof.Machine

/-! Accesses from outside (R7, R98, R137, R401, R404). -/

/-- The hub's RV64 cores of the RVA23 profile (R7); what they do reaches this machine as HOST_ACCESS. DESIGN CHOICE (log 49):
outside the machine. -/
def hubCores : Nat := 16

/-- A line of a range must be waited for: it is busy, or a cell may keep a modified copy of it for a while yet (R93, R96, R145). -/
def State.rangeHeld (s : State) (pa n : Nat) (store : Bool) (keep : Option Nat) : Bool :=
  (linePieces pa n).any fun p => s.busyLine (pa + p.1) || s.pullWaits (lineOf (pa + p.1)) store keep

/-- The host agent takes a copy of a line for its cores, as a sharer or as the owner, after the conflicting copies are recalled
(R96, R98). -/
def State.hostTake (s : State) (line : Nat) (store : Bool) : State :=
  let s := (((s.pull line store (some hostAgent)).dropCopy hostAgent line).sliceTouch line 0).correctAt line 128
  let (st, s) := s.dirGrant hostAgent line store
  let l : CchLine :=
    { pa := line, way := 0, st := st, data := memBytes s.mem line 128, dirty := 0, descs := [0, 0], descDirty := 0, recent := false,
      holdUntil := 0, described := false }
  { s with hostCopies := s.hostCopies ++ [l] }
/-- A read of the host agent's cores within a line of this module: from the copy it holds, or one taken for it (R98). A line that holds an
uncorrectable word is read at home, and such a word is counted (R87, R88). -/
def State.hostLoad (s : State) (pa n : Nat) : Nat × State :=
  let line := lineOf pa
  match s.copyOf hostAgent line, s.pullBad line false (some hostAgent) with
  | some l, _ => (leNat (sliceBytes l.data (pa % 128) n), s)
  | none, some c => (s.openRead pa n, s.countUncorr (dieOf c))
  | none, none =>
      if (s.correctAt pa n).spoiled pa n then (s.openRead pa n, (s.correctAt pa n).countUncorr (homeDie pa))
      else if s.spoiled line 128 then
        let (bs, s) := (s.correctAt pa n).loadNow none false pa n
        (leNat bs, s)
      else
        let s := s.hostTake line false
        (memNat s.mem pa n, s)
/-- A write of the host agent's cores within a line: into the copy that it owns, or owns from now on (R98). A line that holds an
uncorrectable word is written at home; where its tags, or a copy that would be recalled, are uncorrectable nothing is written (R87). -/
def State.hostStore (s : State) (pa : Nat) (bs : List Nat) : State :=
  let line := lineOf pa
  let o := pa % 128
  let owned := (s.copyOf hostAgent line).any CchLine.owned
  let put := fun (l : CchLine) =>
    { l with data := putBytes l.data o bs, dirty := Nat.lor l.dirty ((2 ^ bs.length - 1) * 2 ^ o), st := .modified }
  if !owned && s.tagSpoiled pa then s.countUncorr (homeDie pa)
  else match (if owned then none else s.pullBad line true (some hostAgent)) with
    | some c => s.countUncorr (dieOf c)
    | none =>
        if !owned && s.spoiled line 128 then s.storeNow none pa bs none
        else
          let s := if owned then s else s.hostTake line true
          let old := match s.copyOf hostAgent line with | some l => sliceBytes l.data o bs.length | none => bs
          { s with hostCopies := updateWhere (·.pa == line) put s.hostCopies }.markWatches pa old bs

/-- A read at home by an agent without fault records; none while a line must be waited for. -/
def State.outsideLoad (s : State) (pa n : Nat) : Option (Nat × State) :=
  match s.hubLoadPa pa n with
  | .ok bs s => some (leNat bs, s)
  | .wait => none
  | .fault code _ a => some (s.openRead a n, s.countPa code a)

/-- An atomic operation at home by an agent outside the cells, in its requester's turn: `f` acts on the n bytes, which no other copy hides;
an uncorrectable word is counted and left as it is. None while its line must be waited for (R87, R145, R404). -/
def State.outsideTurn (s : State) (who pa n : Nat) (f : State → Nat × State) : Option (Nat × State) :=
  let line := lineOf pa
  if s.homeWaits pa true || !s.inTurn line who then none
  else match s.pullBad line true none with
    | some c => some (s.openRead pa n, s.countUncorr (dieOf c))
    | none =>
        let s := (((s.pull line true none).sliceTouch pa 0).correctAt pa n).serveTurn line who
        if s.spoiled pa n then some (s.openRead pa n, s.countUncorr (homeDie pa)) else some (f s)

/-- A single-word atomic of such an agent: its old value (R139). -/
def State.outsideAtomic (s : State) (who op pa n value comparand : Nat) : Option (Nat × State) :=
  s.outsideTurn who pa n fun s =>
    let old := memNat s.mem pa n
    let (new, _, wr) := atomicNew op (8 * n) old value comparand
    (old, if wr then s.homeWrite pa (leBytes n new) else s)

/-- An answer to an agent outside the cells; without one the request goes on waiting. -/
def State.answer (s : State) (r : Option (Nat × State)) : State :=
  match r with
  | some (v, t) => { t with hostValue := v }
  | none => s

/-- An access of the hub's side to the MMIO windows (R11, R401, R421). A window of another module answers there (log 9). -/
def State.hostMmio (s : State) (q : HostReq) : State :=
  let rs := q.agent == .firmware
  if moduleOf q.addr == s.hub.modnum && !s.reaches q.agent q.addr then s
  else match q.op with
    | .read => { s with hostValue := leNat (s.mmioLoad q.addr q.size rs) }
    | .write => s.mmioStore q.addr (leBytes q.size q.value) rs
    | .atomic _ => s

/-- HOST_ACCESS (R7, R98, R145, R401, R407, R421): an access of a host core, of an agent behind the PCIe port or of hub firmware, at system
scope. The directory records the host agent for the lines that it holds; a later conflicting request recalls them. Resident-only
registers read 0 and ignore the writes of all but firmware (R11). DESIGN CHOICE (log 45): a line is held whole, every access takes or
uses a copy, and another module's memory is read and written where it lies. -/
def execHostAccess (q : HostReq) (s : State) : Out :=
  let ps := linePieces q.addr q.size
  if !s.populated q.addr q.size then .fault (.unpopulatedAddress q.addr)
  else if inMmio q.addr then .next (s.hostMmio q)
  else match q.op with
    | .atomic op => .next (s.answer (s.outsideAtomic hubRequester op q.addr q.size q.value q.comparand))
    | .read =>
        if moduleOf q.addr != s.hub.modnum then .next (s.answer (s.outsideLoad q.addr q.size))
        else if s.rangeHeld q.addr q.size false (some hostAgent) then .next s
        else
          let r := ps.foldl (fun (acc : Nat × State) p =>
            let (v, s) := acc.2.hostLoad (q.addr + p.1) p.2
            (acc.1 + v * 256 ^ p.1, s)) (0, s)
          .next { r.2 with hostValue := r.1 }
    | .write =>
        let bs := leBytes q.size q.value
        if moduleOf q.addr != s.hub.modnum then .next ((s.hubStorePa q.addr bs).getD s)
        else if s.rangeHeld q.addr q.size true (some hostAgent) then .next s
        else .next (ps.foldl (fun s p => s.hostStore (q.addr + p.1) (sliceBytes bs p.1 p.2)) s)

/-! Requests of other modules (R404). -/

/-- A lock request of another module's MWCAS: 1 where it holds the line now, 0 where it is refused, 2 where it queues, 3 where the line
cannot be had for an uncorrectable copy; unanswered while it waits (R145, R151, R154). -/
def State.remoteLock (s : State) (id who line : Nat) (elder : Bool) : State :=
  if s.locks.any fun k => k.line == line && k.holder == id then { s with hostValue := 1 }
  else if s.locks.any (fun k => k.line == line && k.queue.contains id) || s.recalling line || !s.inTurn line who then s
  else if s.locked line then
    let s := s.serveTurn line who
    if !elder then { s with hostValue := 0 }
    else { s with hostValue := 2,
                  locks := updateWhere (·.line == line) (fun k => { k with queue := s.insertElder id k.queue }) s.locks }
  else match s.pullBad line true none, s.conflicts line true none with
    | some c, _ => { s.countUncorr (dieOf c) with hostValue := 3 }
    | none, h :: hs => s.askRecall line (h :: hs)
    | none, [] => { s.serveTurn line who with locks := s.locks ++ [LineLock.mk line id []], hostValue := 1 }

/-- The locks and places in queues of an MWCAS of another module on a line are given up (R151, R153, R154). -/
def State.remoteUnlock (s : State) (id line : Nat) : State :=
  let s := s.releaseLine id line
  { s with locks := (s.locks.map fun k => if k.line == line then { k with queue := k.queue.filter (· != id) } else k).filter fun k =>
      !(k.holder == 0 && k.queue.isEmpty) }

/-- An access of a holder to a line that it has locked (R151 steps 6 and 7). -/
def State.asHolder (s : State) (id : Nat) (f : State → Option (Nat × State)) : Option (Nat × State) :=
  (f { s with locks := s.locks.filter (·.holder != id) }).map fun r => (r.1, { r.2 with locks := s.locks })

/-- The first read of another module's WAITA: answered at once where it is unequal, else watched (R158, R404). -/
def State.remoteWaita (s : State) (q : RemoteReq) : State :=
  match (if s.watches.any fun w => w.cell == outsideCell q.requester && w.ctx == q.ctx then none else s.outsideLoad q.addr q.size) with
  | none => s
  | some (v, t) =>
      if v != q.comparand % 256 ^ q.size then { t with hostValue := v }
      else
        let (id, t) := (t.loseWatch q.addr).newId
        { t with watches := t.watches ++
            [{ id := id, cell := outsideCell q.requester, elem := 0, ctx := q.ctx, slot := 0, pa := q.addr, size := q.size,
               comparand := q.comparand % 256 ^ q.size, dst := none, lane := 0, profile := 0, holder := none, loan := false, armed := true,
               woken := false, value := v, seq := 0, va := q.addr, asid := 2 ^ 16, leaf := plainLeaf, page := 4096 }] }

/-- A future form of another module: 0, or 1 + 4 j where the arrival at the record j is due, 2 for a double resolve, 3 for a format
fault (R291, R404). -/
def State.remoteFuture (s : State) (who : Nat) (q : RemoteReq) : Option (Nat × State) :=
  s.outsideTurn who q.addr 8 fun s =>
    let (new, arr, bad) := futureStep (q.op == .freg) (memNat s.mem q.addr 8) q.value
    let s := match new with | some v => s.homeWrite q.addr (leBytes 8 v) | none => s
    (match bad, arr with
      | some c, _ => if c = fDoubleResolve then 2 else 3
      | none, some j => 1 + 4 * j
      | none, none => 0, s)

/-- An arrival of another module: 0, or 1 + 4 b where the count has come to 0 and the continuation block b is the requester's to enqueue
(R292, R404). -/
def State.remoteArrive (s : State) (who : Nat) (q : RemoteReq) : Option (Nat × State) :=
  s.outsideTurn who q.addr 16 fun s =>
    let count := memNat s.mem q.addr 4
    let flags := memNat s.mem (q.addr + 4) 4
    if count = 0 then (0, s.homeWrite (q.addr + 4) (leBytes 4 (Nat.lor flags 2)))
    else if count = 1 then (1 + 4 * memNat s.mem (q.addr + 8) 8, s.homeWrite q.addr (leBytes 4 0 ++ leBytes 4 (Nat.lor flags 1)))
    else (0, s.homeWrite q.addr (leBytes 4 (count - 1)))

/-- A described store of another module, with its descriptor (R287, R404). -/
def State.remoteStx (s : State) (q : RemoteReq) : Option (Nat × State) :=
  (s.hubStorePa q.addr (leBytes q.size q.value)).map fun t =>
    (0, if (s.badPiece q.addr q.size).isSome then t else { t with mem := memStore t.mem (t.descAddr q.addr) (leBytes 2 q.desc) })

/-- The port of another module in a collective (R406). -/
def State.remotePort (s : State) (q : RemoteReq) (id die port : Nat) (block src : List Nat) : CollPort :=
  { id := id, die := die, port := port, cell := outsideCell q.requester, elem := 0, ctx := q.ctx, slot := 0, asid := 0, profile := 0,
    opcode := 0, addr := 0, block := block, colid := fieldAt block 24 4, joined := s.time, seq := 0, lanes := 0,
    module := q.requester / 4096 % 64, src := src }

/-- A request of another module to memory of this one (R404). -/
def State.remoteServe (s : State) (q : RemoteReq) : State :=
  let who := q.requester % 2 ^ 18
  let id := outsideMw q.fired q.requester q.ctx
  match q.op with
  | .load => s.answer (s.asHolder id fun s => s.outsideLoad q.addr q.size)
  | .store => s.answer (s.asHolder id fun s => (s.hubStorePa q.addr (leBytes q.size q.value)).map fun t => (0, t))
  | .ldx => s.answer ((s.outsideLoad q.addr q.size).map fun r =>
      (r.1 + memNat r.2.mem (r.2.descAddr q.addr) 2 * 256 ^ q.size, r.2))
  | .stx => s.answer (s.remoteStx q)
  | .atomic op => s.answer (s.outsideAtomic who op q.addr q.size q.value q.comparand)
  | .lock elder => s.remoteLock id who (lineOf q.addr) elder
  | .unlock => s.remoteUnlock id (lineOf q.addr)
  | .waita => s.remoteWaita q
  | .wake => if s.busyLine q.addr then s else s.wakeAt q.addr q.value
  | .freg | .fres => s.answer (s.remoteFuture who q)
  | .arrive => s.answer (s.remoteArrive who q)
  | .join .. => s

/-- A request of another module to an MMIO window: the hub's alone is mapped by other modules, for their resident graphs (R18, R421). -/
def State.remoteMmio (s : State) (q : RemoteReq) : State :=
  if !inHubWindow q.addr then s
  else match q.op with
    | .load => { s with hostValue := leNat (s.mmioLoad q.addr q.size true) }
    | .store => s.mmioStore q.addr (leBytes q.size q.value) true
    | _ => s

/-- REMOTE_ACCESS (R16, R404, R406, R408): a request of another module is served as a local one, and its ports join collectives; before
MODNUM is written it gets no answer. DEDUCED (log 55): what the answers look like, and that an arrival or a continuation it causes is
the requester's to send. -/
def execRemoteAccess (q : RemoteReq) (s : State) : Out :=
  if !s.hub.modWritten then .next s
  else match q.op with
    | .join die port block src =>
        let (id, t) := s.newId
        let p := s.remotePort q id die port block src
        let joined := p.module == s.hub.modnum || s.colls.any fun k => k.module == p.module && k.die == die && k.port == port && k.colid == p.colid
        .next (if joined then s else { t with colls := t.colls ++ [p] })
    | _ =>
        if moduleOf q.addr != s.hub.modnum then .next s
        else if !s.populated q.addr q.size then .fault (.unpopulatedAddress q.addr)
        else if inMmio q.addr then .next (s.remoteMmio q)
        else .next (s.remoteServe q)

/-- MANAGEMENT_REQUEST (R403): a power cap is written to PWRCAP and clamped there; telemetry reads a register; a firmware update
takes effect at the next module reset. DESIGN CHOICE (log 40): R403 names SERRCNT and DIEPWR among the telemetry and no further
register, and R11 does not speak of the management controller; here it reads any register, the resident-only ones with their
values. -/
def execManagementRequest (r : MgmtReq) (s : State) : Out :=
  .next (match r with
    | .powerCap watts => s.pwrcapSet (min watts 4095)
    | .telemetry pa => if inMmio pa then { s with hostValue := s.mmioRead pa 8 true } else s
    | .firmwareUpdate => s)

/-! Module reset (R408). -/

/-- Memory as firmware leaves it: what it places, both descriptor stores cleared, and the mirror of the enumeration table
(R78, R408). -/
def bootMemory (fw : Firmware) (table : List Nat) : List Host.Cell :=
  let g := gradeCode fw.grade
  let m := fw.mem.foldl (fun m c => memStore m c.1 [c.2.toNat]) []
  let inDs := fun (a : Nat) => moduleOf a == fw.modnum % 64 && meetsDs g (localOf a) 1
  memStore (m.filter fun c => !inDs c.1) (fw.enumPa % 2 ^ 52 / 4096 * 4096) (sliceBytes table 0 0x3000)

/-- A resident graph's cell as hub firmware loads it (R15, R408). DESIGN CHOICE (log 46): the cell of a draft without a bank-role vector has
every bank OFF, where R60 gives a default to the cells of a launch alone. -/
def residentCell (r : ResidentCell) (index : Nat) : Cell :=
  { freshCell r.cell (parseDraft r.image) 0 with seat := some ⟨0, dieOf r.cell, 0, index⟩, running := true }

/-- A loom die with its fuses and its power table of 65 16-bit values (R78, R369). -/
def bootDie (f : DieFuses) (table : List Nat) : Die :=
  { Die.reset with disabled := f.disabled, resident := f.resident, ptable := (table.take 65).map (· % 65536) }

/-- MODULE_RESET (R2, R373, R408): the machine right after reset, of the grade that the part's fuses give, then bring-up. The script
of the model stays. DESIGN CHOICE (log 52): memory that firmware does not place reads 0. -/
def execModuleReset (fw : Firmware) (s : State) : Out :=
  let grade := gradeCode fw.grade
  let table := enumBytes grade (fw.modnum % 64) fw.fuses fw.lanes fw.ports
  let r := State.reset
  let hub :=
    { r.hub with
        grade := grade, cap := defaultCap grade
        modnum := fw.modnum % 64, modWritten := true, dommask := fw.dommask % 2 ^ 64, allow := fw.allow % 4096,
        domgrade := (List.range 64).map fun n => fw.domgrade.getD n 0 % 256
        residentL4 := fw.residentL4, enumBase := fw.enumPa % 2 ^ 52 / 4096 * 4096, enumValid := true, enumTable := table
        imageNext := fw.imageBase }
  let index := fun (c : ResidentCell) => ((fw.residents.filter fun x => dieOf x.cell == dieOf c.cell).map (·.cell)).idxOf c.cell
  let mig := { r.mig with hbase := fw.modnum % 64 * 2 ^ 46 + lpDs grade }
  let b : State :=
    { r with
        hub := hub, mem := bootMemory fw table, mig := mig
        dies := (List.range 8).map fun d => bootDie (fw.fuses.getD d ⟨[], []⟩) (fw.powerTables.getD d [])
        cells := fw.residents.map fun c => residentCell c (index c)
        env := s.env, nextId := s.nextId }
  .next (fw.residents.foldl (fun s c => s.requestAll c.cell) b)

/-! Collectives (R405, R406). -/

def colSrc (b : List Nat) : Nat := fieldAt b 0 8
def colDst (b : List Nat) : Nat := fieldAt b 8 8
def colCount (b : List Nat) : Nat := fieldAt b 16 4
def colFmt (b : List Nat) : Nat := fieldAt b 20 1
def colOp (b : List Nat) : Nat := fieldAt b 21 1
def colRoot (b : List Nat) : Bool := bit (fieldAt b 22 1) 0
def colNpart (b : List Nat) : Nat := fieldAt b 23 1
def colFlag (b : List Nat) : Nat := fieldAt b 32 8
def colFval (b : List Nat) : Nat := fieldAt b 40 8
def colSize (b : List Nat) : Nat := if colFmt b = 1 then 4 else 2

/-- A block whose fields break R405. -/
def colBad (b : List Nat) : Bool :=
  colCount b < 1 || colCount b > 2 ^ 24 || (colFmt b != 1 && colFmt b != 2) || colOp b > 1 || fieldAt b 22 1 > 1 ||
  colNpart b < 2 || colNpart b > 64 || fieldAt b 28 4 != 0 || nonzeroAt b 48 16 != []

/-- A misaligned operand of a block. -/
def colMisaligned (b : List Nat) : Option Nat :=
  if colSrc b % colSize b != 0 then some (colSrc b)
  else if colDst b % colSize b != 0 then some (colDst b)
  else if colFlag b % 8 != 0 then some (colFlag b)
  else none

/-- A participant's engine command is over (R132, R405). -/
def State.colDrop (s : State) (p : CollPort) : State :=
  { s with colls := s.colls.filter (·.id != p.id) }.charge (s.cell p.cell).seat (-1)

/-- A participant whose output is performed leaves and the arc of its ST.w is set; where that firing stored to several ports, with
the last of them (R132). -/
def State.colLeave (s : State) (p : CollPort) : State :=
  let s := s.colDrop p
  let same := fun (c e x seq : Nat) => sameCtx c e x p.cell p.elem p.ctx && seq == p.seq
  if s.colls.any fun k => same k.cell k.elem k.ctx k.seq then s
  else if s.accs.any fun a => same a.cell a.elem a.ctx a.seq then
    { s with accs := updateWhere (fun (a : Access) => same a.cell a.elem a.ctx a.seq) (fun a => { a with told := false }) s.accs }
  else s.setArc p.cell p.elem p.ctx (arcOf p.profile)

/-- A participant ends in a fault, recorded against the storing context, which is held; it leaves the collective. DESIGN CHOICE
(log 39). -/
def State.colFault (s : State) (p : CollPort) (code cause addr : Nat) : State :=
  if p.module != s.hub.modnum then s.colDrop p
  else
  let s := s.countAt code none p.die p.asid addr
  let (_, s) := s.engineRecord p.cell p.elem p.ctx p.slot p.opcode p.profile p.lanes code cause addr .collective
  s.colDrop p

/-- COLPUSH (R405, R131, R132, R421): an ST.w to a port whose unit runs fewer than four collectives is performed: the block is read in
the context's ASID through the shared TLB of the port's die (R35), and the port joins. The store's arc is left to the collective. -/
def execColpush (id part : Nat) (s : State) : Out :=
  .next (match s.acc? id with
    | none => s
    | some a => match a.parts[part]?, (a.parts[part]?).bind fun p => colPort p.pa with
      | some p, some (die, port) =>
          let running := (s.colls.filter fun c => c.module == s.hub.modnum && c.die == die && c.port == port).length
          if a.op != .store || p.st != .waiting || p.size != 8 || s.blocked a part p || running ≥ 4 then s
          else
            let addr := leNat p.data
            let perform := fun (s : State) =>
              ((s.donePart id part).setAcc id fun a => { a with told := true }).setDie die fun d =>
                { d with colpush := d.colpush.set port addr }
            let (cid, s1) := s.newId
            let k : CollPort :=
              { id := cid, die := die, port := port, cell := a.cell, elem := a.elem, ctx := a.ctx, slot := a.slot, asid := a.asid,
                profile := a.profile, opcode := a.opcode, addr := addr, block := [], colid := 0, joined := s.time, seq := a.seq,
                lanes := lowMark a.m0,
                module := s.hub.modnum, src := [] }
            let join := fun (s : State) (k : CollPort) => { s with colls := s.colls ++ [k] }.charge (s.cell a.cell).seat 1
            let bad := fun (s : State) (code cause at_ : Nat) => (join (perform s) k).colFault k code cause at_
            if addr % 64 != 0 then bad s1 fAlignment 0 addr
            else match s1.translate none die a.asid ((s.cell a.cell).asid == 0) .load addr with
              | (.fault code cause, s2) => bad s2 code cause addr
              | (.mig .., _) | (.busy, _) => s
              | (.ok pa leaf _, _) =>
                  if s.descriptionWaits a.cell a.elem a.ctx a.seq a.asid addr pa leaf 64 then s
                  else match s1.engineLoadPiece none die a.asid ((s.cell a.cell).asid == 0) .load (hintOf a.profile) addr 64 with
                    | .wait => s
                    | .fault code cause v => bad s1 code cause v
                    | .ok b s2 =>
                        let k := { k with block := b, colid := fieldAt b 24 4 }
                        match (if colBad b then none else colMisaligned b) with
                        | some v => (join (perform s2) k).colFault k fAlignment 0 v
                        | none => join (perform s2) k
      | _, _ => s)

/-- A participant's position (R406). -/
def CollPort.position (p : CollPort) : Nat := p.module * 16 + p.die * 2 + p.port
/-- The ports of a collective, in ascending position (R406). -/
def State.colGroup (s : State) (colid : Nat) : List CollPort :=
  sortBy (fun a b => a.position ≤ b.position) (s.colls.filter (·.colid == colid))

/-- The defects that end a collective in a format fault at every participant (R406). -/
def groupBad (g : List CollPort) : Bool :=
  match g with
  | [] => false
  | p :: ps =>
      let b := p.block
      g.any (fun q => colBad q.block) || ps.any (fun q => colCount q.block != colCount b || colFmt q.block != colFmt b ||
        colOp q.block != colOp b || colNpart q.block != colNpart b) || g.length > colNpart b ||
      (g.length == colNpart b && colOp b == 1 && (g.filter fun q => colRoot q.block).length != 1)

/-- An element of a source as FP32 bits. -/
def colElem (fmt : Nat) (bs : List Nat) (i : Nat) : Nat :=
  if fmt = 1 then fieldAt bs (4 * i) 4 else fieldAt bs (2 * i) 2 * 65536

/-- An element of the output (R406). -/
def colNarrow (fmt acc : Nat) : List Nat :=
  if fmt = 1 then leBytes 4 acc else leBytes 2 (roundVal .bf16 .rne (fpDecode .fp32 acc)).1

/-- The output of an all-reduce from the sources in ascending position (R406). -/
def colSum (fmt count : Nat) (srcs : List (List Nat)) : List Nat :=
  (List.range count).flatMap fun i =>
    match srcs with
    | [] => []
    | x :: xs => colNarrow fmt (xs.foldl (fun acc y => (fpAdd .fp32 acc (colElem fmt y i)).1) (colElem fmt x i))

/-- The sources of a group read in order, those of other modules' ports being here already: the bytes, or the participant that cannot read. -/
def State.colReads (s : State) : List CollPort → List (List Nat) → Option (State × (List (List Nat) ⊕ (CollPort × Nat × Nat × Nat)))
  | [], acc => some (s, .inl acc)
  | p :: ps, acc =>
      let b := p.block
      if colOp b = 1 && !colRoot b then s.colReads ps acc
      else if p.module != s.hub.modnum then s.colReads ps (acc ++ [p.src])
      else match s.engineLoad none p.die p.asid ((s.cell p.cell).asid == 0) (hintOf p.profile) (colSrc b) (colCount b * colSize b) with
        | .wait => none
        | .fault code cause a => some (s, .inr (p, code, cause, a))
        | .ok bs s => s.colReads ps (acc ++ [bs])

/-- One participant's writes, its flag last (R406). -/
def State.colWrite (s : State) (p : CollPort) (out : List Nat) : HubResult :=
  let res := (s.cell p.cell).asid == 0
  let hint := hintOf p.profile
  match s.engineStore none p.die p.asid res hint (colDst p.block) out with
  | .ok _ s =>
      if colFlag p.block = 0 then .ok [] s
      else s.engineStore none p.die p.asid res hint (colFlag p.block) (leBytes 8 (colFval p.block))
  | r => r

/-- Every participant's writes, those of other modules' ports being made there from the same output; none while a page of one migrates. A participant that cannot write ends in a fault of its own. -/
def State.colWrites (s : State) (out : List Nat) : List CollPort → Option State
  | [] => some s
  | p :: ps =>
    if p.module != s.hub.modnum then { s.colDrop p with hostValue := leNat out }.colWrites out ps
    else match s.colWrite p out with
    | .wait => none
    | .fault code cause a => (s.colFault p code cause a).colWrites out ps
    | .ok _ s => (s.colLeave p).colWrites out ps

/-- A participant may not begin: a FENCE with e in its after set is open, its earlier loads have not bound, or its die waits for an access
that a narrow release has passed (R113, R118, R121, R131). -/
def State.colWaits (s : State) (p : CollPort) : Bool :=
  p.module == s.hub.modnum &&
    (s.fenced p.cell p.elem p.ctx p.seq 8 || s.loadsPending p.cell p.elem p.ctx p.seq || s.dieWaits p.die)

/-- COLLECTIVE_RUN (R406): with NPART ports joined, the sums or the broadcast are formed and every participant writes its own
destination and flag; a defect ends every participant in a format fault. -/
def execCollectiveRun (colid : Nat) (s : State) : Out :=
  let g := s.colGroup colid
  .next (match g with
    | [] => s
    | p :: _ =>
        if groupBad g then g.foldl (fun s q => s.colFault q fFormat 0 q.addr) s
        else if g.length < colNpart p.block || g.any s.colWaits then s
        else match s.colReads g [] with
          | none => s
          | some (s', .inr (q, code, cause, a)) => s'.colFault q code cause a
          | some (s', .inl srcs) =>
              let out := if colOp p.block = 1 then (srcs.headD []) else colSum (colFmt p.block) (colCount p.block) srcs
              (s'.colWrites out g).getD s)

/-- COLLECTIVE_TIMEOUT (R406): not filled 2 ms after its first join, it ends in a memory-timeout fault at each port that joined. -/
def execCollectiveTimeout (colid : Nat) (s : State) : Out :=
  let g := s.colGroup colid
  .next (match g with
    | [] => s
    | p :: _ =>
        let first := g.foldl (fun t q => min t q.joined) p.joined
        if groupBad g || g.length ≥ colNpart p.block || s.time < first + timeoutPs then s
        else g.foldl (fun s q => s.colFault q fMemoryTimeout 0 q.addr) s)

end Sys2Proof.Machine
end

