-- ==== Sys2Proof/Machine/Integer.lean ====
section
/-! DEFINITION. The integer instructions (10_isa_integer_lane_control.md R228 to R240). -/

namespace Sys2Proof.Machine

/-- NOP (R231). -/
def execNop (t : Fin 64) (s : State) : Out :=
  .next (s.endFiring t 0)

/-- MOV (R231). -/
def execMov (t : Fin 64) (d : Dst) (a : Src) (w : Bool) (s : State) : Out :=
  .next (s.alu1 t d a w id id)

/-- MOVI (R231). -/
def execMovi (t : Fin 64) (d : Dst) (i : BitVec 14) (s : State) : Out :=
  .next ((s.put t d fun _ => i.signExtend 32).endFiring t 0)

/-- IADD (R232). -/
def execIadd (t : Fin 64) (d : Dst) (a b : Src) (w : Bool) (s : State) : Out :=
  .next (s.alu2 t d a b w 0 (· + ·) (· + ·))

/-- ISUB (R232). -/
def execIsub (t : Fin 64) (d : Dst) (a b : Src) (w : Bool) (s : State) : Out :=
  .next (s.alu2 t d a b w 0 (· - ·) (· - ·))

/-- IADDI (R232). -/
def execIaddi (t : Fin 64) (d : Dst) (a : Src) (i : BitVec 9) (s : State) : Out :=
  .next ((s.put t d fun l => s.rd a l + i.signExtend 32).endFiring t 0)

/-- IMUL.lo (R232). -/
def execImulLo (t : Fin 64) (d : Dst) (a b : Src) (w : Bool) (s : State) : Out :=
  .next (s.alu2 t d a b w (if w then 1 else 0) mulLo mulLo)

/-- IMUL.hi (R232). -/
def execImulHi (t : Fin 64) (d : Dst) (a b : Src) (w : Bool) (s : State) : Out :=
  .next (s.alu2 t d a b w (if w then 1 else 0) mulHi mulHi)

/-- IMUL.hin (R232). -/
def execImulHin (t : Fin 64) (d : Dst) (a b : Src) (w : Bool) (s : State) : Out :=
  .next (s.alu2 t d a b w (if w then 1 else 0) mulHin mulHin)

/-- IMAD (R232). -/
def execImad (t : Fin 64) (d : Dst) (a b : Src) (c : VReg) (s : State) : Out :=
  .next ((s.put t d fun l => s.rd a l * s.rd b l + lane (s.vreg c.val) l).endFiring t 0)

/-- IMIN (R233). -/
def execImin (t : Fin 64) (d : Dst) (a b : Src) (w : Bool) (s : State) : Out :=
  .next (s.alu2 t d a b w 0 smin smin)

/-- IMAX (R233). -/
def execImax (t : Fin 64) (d : Dst) (a b : Src) (w : Bool) (s : State) : Out :=
  .next (s.alu2 t d a b w 0 smax smax)

/-- UMIN (R233). -/
def execUmin (t : Fin 64) (d : Dst) (a b : Src) (w : Bool) (s : State) : Out :=
  .next (s.alu2 t d a b w 0 umin umin)

/-- UMAX (R233). -/
def execUmax (t : Fin 64) (d : Dst) (a b : Src) (w : Bool) (s : State) : Out :=
  .next (s.alu2 t d a b w 0 umax umax)

/-- IABS (R233). -/
def execIabs (t : Fin 64) (d : Dst) (a : Src) (w : Bool) (s : State) : Out :=
  .next (s.alu1 t d a w iabs iabs)

/-- AND (R235). -/
def execBand (t : Fin 64) (d : Dst) (a b : Src) (w : Bool) (s : State) : Out :=
  .next (s.alu2 t d a b w 0 (· &&& ·) (· &&& ·))

/-- OR (R235). -/
def execBor (t : Fin 64) (d : Dst) (a b : Src) (w : Bool) (s : State) : Out :=
  .next (s.alu2 t d a b w 0 (· ||| ·) (· ||| ·))

/-- XOR (R235). -/
def execBxor (t : Fin 64) (d : Dst) (a b : Src) (w : Bool) (s : State) : Out :=
  .next (s.alu2 t d a b w 0 (· ^^^ ·) (· ^^^ ·))

/-- ANDN (R235). -/
def execBandn (t : Fin 64) (d : Dst) (a b : Src) (w : Bool) (s : State) : Out :=
  .next (s.alu2 t d a b w 0 (fun x y => x &&& ~~~y) (fun x y => x &&& ~~~y))

/-- NOT (R235). -/
def execBnot (t : Fin 64) (d : Dst) (a : Src) (w : Bool) (s : State) : Out :=
  .next (s.alu1 t d a w (~~~ ·) (~~~ ·))

/-- SHL (R236). -/
def execShl (t : Fin 64) (d : Dst) (a b : Src) (w : Bool) (s : State) : Out :=
  .next (s.shift t d a b w shiftLeft shiftLeft)

/-- SHR (R236). -/
def execShr (t : Fin 64) (d : Dst) (a b : Src) (w : Bool) (s : State) : Out :=
  .next (s.shift t d a b w shiftRight shiftRight)

/-- SAR (R236). -/
def execSar (t : Fin 64) (d : Dst) (a b : Src) (w : Bool) (s : State) : Out :=
  .next (s.shift t d a b w shiftArith shiftArith)

/-- ROL (R236). -/
def execRol (t : Fin 64) (d : Dst) (a b : Src) (w : Bool) (s : State) : Out :=
  .next (s.shift t d a b w rotLeft rotLeft)

/-- SHLI (R236). -/
def execShli (t : Fin 64) (d : Dst) (a : Src) (w : Bool) (n : Fin 64) (s : State) : Out :=
  .next (s.alu1 t d a w (shiftLeft · n.val) (shiftLeft · n.val))

/-- SHRI (R236). -/
def execShri (t : Fin 64) (d : Dst) (a : Src) (w : Bool) (n : Fin 64) (s : State) : Out :=
  .next (s.alu1 t d a w (shiftRight · n.val) (shiftRight · n.val))

/-- SARI (R236). -/
def execSari (t : Fin 64) (d : Dst) (a : Src) (w : Bool) (n : Fin 64) (s : State) : Out :=
  .next (s.alu1 t d a w (shiftArith · n.val) (shiftArith · n.val))

/-- ROLI (R236). -/
def execRoli (t : Fin 64) (d : Dst) (a : Src) (w : Bool) (n : Fin 64) (s : State) : Out :=
  .next (s.alu1 t d a w (rotLeft · n.val) (rotLeft · n.val))

/-- BFX (R237). -/
def execBfx (t : Fin 64) (d : Dst) (a b : Src) (w sx : Bool) (s : State) : Out :=
  .next ((s.putSel t w d (fun l => bfxVal sx (s.rd a l) (s.rdLow b l))
    (fun l => bfxVal sx (s.rdW a l) (s.rdLow b l))).endFiring t 0)

/-- BFI (R237). -/
def execBfi (t : Fin 64) (d : Dst) (a b : Src) (c : VReg) (s : State) : Out :=
  .next ((s.put t d fun l => bfiVal (s.rd a l) (s.rd b l) (lane (s.vreg c.val) l)).endFiring t 0)

/-- CLZ (R238). -/
def execClz (t : Fin 64) (d : Dst) (a : Src) (w : Bool) (s : State) : Out :=
  .next (s.alu1 t d a w clzVal clzVal)

/-- POPC (R238). -/
def execPopc (t : Fin 64) (d : Dst) (a : Src) (w : Bool) (s : State) : Out :=
  .next (s.alu1 t d a w popcVal popcVal)

/-- BREV (R238). -/
def execBrev (t : Fin 64) (d : Dst) (a : Src) (w : Bool) (s : State) : Out :=
  .next (s.alu1 t d a w brevVal brevVal)

/-- ICMP (R239). -/
def execIcmp (t : Fin 64) (d : MaskReg) (a b : Src) (k : Fin 8) (s : State) : Out :=
  .next (s.compare t d fun l => intCond k.val (s.rd a l).toInt (s.rd b l).toInt)

/-- UCMP (R239). -/
def execUcmp (t : Fin 64) (d : MaskReg) (a b : Src) (k : Fin 8) (s : State) : Out :=
  .next (s.compare t d fun l => intCond k.val (s.rd a l).toNat (s.rd b l).toNat)

/-- SEL (R240). -/
def execSel (t : Fin 64) (d : Dst) (a b : Src) (m : MaskReg) (s : State) : Out :=
  .next ((s.put t d fun l => if inMask (s.mask m) l then s.rd a l else s.rd b l).endFiring t 0)

/-- IDIV (R234). -/
def execIdiv (t : Fin 64) (d : Dst) (a b : Src) (w : Bool) (s : State) : Out :=
  .next (s.alu2 t d a b w (if w then 23 else 11)
    (fun x y => (sdivRem x y).1) (fun x y => (sdivRem x y).1))

/-- UDIV (R234). -/
def execUdiv (t : Fin 64) (d : Dst) (a b : Src) (w : Bool) (s : State) : Out :=
  .next (s.alu2 t d a b w (if w then 23 else 11)
    (fun x y => (udivRem x y).1) (fun x y => (udivRem x y).1))

/-- IREM (R234). -/
def execIrem (t : Fin 64) (d : Dst) (a b : Src) (w : Bool) (s : State) : Out :=
  .next (s.alu2 t d a b w (if w then 23 else 11)
    (fun x y => (sdivRem x y).2) (fun x y => (sdivRem x y).2))

/-- UREM (R234). -/
def execUrem (t : Fin 64) (d : Dst) (a b : Src) (w : Bool) (s : State) : Out :=
  .next (s.alu2 t d a b w (if w then 23 else 11)
    (fun x y => (udivRem x y).2) (fun x y => (udivRem x y).2))

/-- ICLAMP (R233); C names v0 to v7. -/
def execIclamp (t : Fin 64) (d : Dst) (a b : Src) (c : Fin 8) (s : State) : Out :=
  .next ((s.put t d fun l => iclampVal (s.rd a l) (s.rd b l) (lane (s.vreg c.val) l)).endFiring t 0)

/-- UCLAMP (R233); C names v0 to v7. -/
def execUclamp (t : Fin 64) (d : Dst) (a b : Src) (c : Fin 8) (s : State) : Out :=
  .next ((s.put t d fun l => uclampVal (s.rd a l) (s.rd b l) (lane (s.vreg c.val) l)).endFiring t 0)

end Sys2Proof.Machine
end

