-- ==== Sys2Proof/Machine/Lane.lean ====
section
/-! DEFINITION. Lane, mask, channel and census instructions (10_isa_integer_lane_control.md R241 to R251). -/

namespace Sys2Proof.Machine

/-- LBCAST (R241). -/
def execLbcast (t : Fin 64) (d : Dst) (a : Src) (n : Fin 64) (s : State) : Out :=
  .next ((s.put t d fun _ => s.rd a n.val).endFiring t 0)

/-- LSHFL (R241). -/
def execLshfl (t : Fin 64) (d : Dst) (a b : Src) (s : State) : Out :=
  .next ((s.put t d fun l => s.rd a ((s.rd b l).toNat % 64)).endFiring t 1)

/-- LROT (R241): k is signed. -/
def execLrot (t : Fin 64) (d : Dst) (a : Src) (i : BitVec 9) (s : State) : Out :=
  .next ((s.put t d fun l => s.rd a (((l : Int) - i.toInt) % 64).toNat).endFiring t 0)

/-- The contributions of LRED and LSCAN: lanes outside m0 hold the identity (R242). -/
def State.contribs (s : State) (a : Src) (op : Nat) : List Word :=
  let m := s.m0
  let xs := s.src a
  tab fun l => if inMask m l then lane xs l else lredIdentity op

/-- The floating-point operations of LRED and LSCAN, gathering flags: 8 fadd, 9 fmin, 10 fmax (R242). -/
def fredOp (op : Nat) (x y : Word) (fl : Nat) : Word × Nat :=
  let r := match op with
    | 8 => fadd32 x y
    | 9 => fminmax false false x y
    | _ => fminmax true false x y
  (r.1, Nat.lor fl r.2)

/-- One operation of LRED, integer forms without flags (R242). -/
def redOp (op : Nat) (x y : Word) (fl : Nat) : Word × Nat :=
  if op < 8 then (lredInt op x y, fl) else fredOp op x y fl

/-- LRED (R242). -/
def execLred (t : Fin 64) (d : Dst) (a : Src) (f : Fin 16) (s : State) : Out :=
  .next (let r := treeReduce (redOp f.val) (s.contribs a f.val) 0
    ((s.raiseFlags r.2).put t d fun _ => r.1).endFiring t 5)

/-- LSCAN (R243): f selects fadd. DESIGN CHOICE (log 58): lane 0 of the scan is its own contribution, so a NaN there keeps its payload; R207
has it so, and R191's canonical NaN speaks of what an instruction produces. -/
def execLscan (t : Fin 64) (d : Dst) (a : Src) (f : Bool) (s : State) : Out :=
  .next (let op := if f then 8 else 0
    let r := scan (redOp op) (s.contribs a op) 0
    ((s.raiseFlags r.2).put t d fun l => lane r.1 l).endFiring t (if f then 15 else 5))

/-- LCOMP (R244). -/
def execLcomp (t : Fin 64) (d : Dst) (a : Src) (b : MaskReg) (s : State) : Out :=
  .next (let p := packLanes (s.src a) (s.mask b)
    (s.put t d fun l => lane p l).endFiring t 1)

/-- A mask operation: all 64 bits of the destination written (R245). -/
def State.maskOp (s : State) (t : Fin 64) (d : MaskReg) (m : LaneMask) : State :=
  (s.writeMask d.val m).endFiring t 0

/-- A mask test: a predicate written in step 2 of R168 (R246). -/
def State.predOp (s : State) (t : Fin 64) (d : PredReg) (b : Bool) : State :=
  (s.writePred d.val b).endFiring t 0

/-- MAND (R245). -/
def execMand (t : Fin 64) (d a b : MaskReg) (s : State) : Out :=
  .next (s.maskOp t d (s.mask a &&& s.mask b))

/-- MOR (R245). -/
def execMor (t : Fin 64) (d a b : MaskReg) (s : State) : Out :=
  .next (s.maskOp t d (s.mask a ||| s.mask b))

/-- MXOR (R245). -/
def execMxor (t : Fin 64) (d a b : MaskReg) (s : State) : Out :=
  .next (s.maskOp t d (s.mask a ^^^ s.mask b))

/-- MANDN (R245). -/
def execMandn (t : Fin 64) (d a b : MaskReg) (s : State) : Out :=
  .next (s.maskOp t d (s.mask a &&& ~~~(s.mask b)))

/-- MNOT (R245). -/
def execMnot (t : Fin 64) (d a : MaskReg) (s : State) : Out :=
  .next (s.maskOp t d (~~~(s.mask a)))

/-- MMOV (R245). -/
def execMmov (t : Fin 64) (d a : MaskReg) (s : State) : Out :=
  .next (s.maskOp t d (s.mask a))

/-- MPOP (R246). -/
def execMpop (t : Fin 64) (d : Dst) (a : MaskReg) (s : State) : Out :=
  .next ((s.put t d fun _ => BitVec.ofNat 32 (popCount (s.mask a))).endFiring t 0)

/-- MANY (R246). -/
def execMany (t : Fin 64) (d : PredReg) (a : MaskReg) (s : State) : Out :=
  .next (s.predOp t d (s.mask a != 0))

/-- MALL (R246). -/
def execMall (t : Fin 64) (d : PredReg) (a : MaskReg) (s : State) : Out :=
  .next (s.predOp t d (s.mask a == BitVec.allOnes 64))

/-- MNONE (R246). -/
def execMnone (t : Fin 64) (d : PredReg) (a : MaskReg) (s : State) : Out :=
  .next (s.predOp t d (s.mask a == 0))

/-- MFROM (R247): lane 0 of the pair, whatever m0 holds. -/
def execMfrom (t : Fin 64) (d : MaskReg) (a : Pair) (s : State) : Out :=
  .next (s.maskOp t d (s.pairVal (2 * a.val) 0))

/-- A 64-bit result to a pair destination (R211, R247). -/
def State.putP (s : State) (d : PDst) (f : Nat → BitVec 64) : State :=
  match d with
  | .pair k => s.putPair (2 * k.val) f
  | .discard => s

/-- MTO (R247). -/
def execMto (t : Fin 64) (d : PDst) (a : MaskReg) (s : State) : Out :=
  .next ((s.putP d fun _ => s.mask a).endFiring t 0)

/-- MSETI (R248). -/
def execMseti (t : Fin 64) (d : MaskReg) (i : BitVec 9) (s : State) : Out :=
  .next (s.maskOp t d (msetiVal i))

/-- SENDT (R249): one token with the tag of lane 0 of a; payload lanes outside m0 are 0 (R174). -/
def execSendt (t : Fin 64) (o : ChanNo) (a b : Src) (s : State) : Out :=
  .next (let m := s.m0
    let w := routeWidth (s.routeOf s.cur.cell s.cur.elem o.val)
    (s.sendOn s.cur.cell s.cur.elem o.val (s.rd a 0)
      ((List.range w).map fun l => if inMask m l then s.rd b l else 0)).endFiring t 0)

/-- TAGR (R250). -/
def execTagr (t : Fin 64) (d : VReg) (n : ChanNo) (s : State) : Out :=
  .next (let g := match (s.curElem.chan n.val).tokens with
      | k :: _ => k.tag
      | [] => 0
    (s.writeReg d.val s.m0 fun _ => g).endFiring t 0)

/-- CENS (R251): a signed change of the census in step 2 of R168; CENS 0 changes nothing. -/
def execCens (t : Fin 64) (i : BitVec 9) (s : State) : Out :=
  .next ((if i = 0 then s else (s.charge s.curCell.seat i.toInt).touch s.cur.cell).endFiring t 0)

end Sys2Proof.Machine
end

