-- ==== Sys2Proof/Machine/MemEvents.lean ====
section
/-! DEFINITION. The memory system at work: requests at the home slices, recalls, hits and completions, walks ahead of an access,
replays of the side log, timeouts, sweeps and scrubs (02_translation_and_migration.md R36, R42, R47, R48;
03_hierarchy_and_enumeration.md R69, R87, R88; 04_coherence.md R90 to R100; 05_consistency.md R115, R121;
06_atomics_and_mwcas.md R143, R158, R159; 12_isa_memory_and_shuttle.md R282, R284, R291). -/

namespace Sys2Proof.Machine

/-! Requests at home (R90, R92, R96, R100). -/

/-- The reads of a DRAFTLD, which end with DRAFTLD_VALIDATION. -/
def State.validating (s : State) (id : Nat) : Bool := s.draftlds.any (·.id == id)

/-- A part of a waiting access may be served now (R96, R111, R145). -/
def State.askable (s : State) (a : Access) (i : Nat) (p : Part) : Bool :=
  p.st == .waiting && s.present a.cell && !s.blocked a i p && !s.busyLine p.pa

/-- The page's lines are software-managed: outside the directory (R27, R100). -/
def Part.sm (p : Part) : Bool := leafManaged p.leaf

/-- The access is performed at home, not in a copy of the cell: CP, another module, no CCH bank, or a hint that does not
allocate where the cell has no copy (R26, R63, R68, R69, R92). DESIGN CHOICE (log 47). -/
def State.atHomeOnly (s : State) (a : Access) (p : Part) : Bool :=
  !p.cached s || (s.cell a.cell).ways.isEmpty ||
  ((hintOf a.profile == 1 || hintOf a.profile == 2) && match (s.cell a.cell).line? (lineOf p.pa) with
    | some l => l.coherent != !p.sm
    | none => true)

/-- The slice's allocation for an access (R26, R69). -/
def State.touchFor (s : State) (a : Access) (p : Part) : State :=
  if leafCp p.leaf = 2 then s else s.sliceTouch p.pa (hintOf a.profile)

/-- What an access asks of the leaf of a part that is issued again (R29, R257). -/
def State.kindOf (s : State) (a : Access) : Kind :=
  match a.op with
  | .store => .store
  | .stx => .stx
  | .atomic _ => .atomic
  | .waita | .wake => .waita
  | .freg | .fres => .future
  | _ => if s.validating a.id then .draft else if a.opcode = 0x50 then .ldx else .load

/-- A part that is issued again is translated anew: one whose page is not there fails, and one that meets MIG = 1 or a walk under way
waits (R43, R158, R379, R380). -/
def State.serveAgain (s : State) (a : Access) (i : Nat) (p : Part) : State :=
  if a.op == .waita && (s.cell a.cell).stopped then s
  else match s.translateFor a.cell a.asid (s.kindOf a) p.va with
    | (.ok pa leaf page, s) =>
        s.setPart a.id i fun p => { p with pa := pa, leaf := leaf, page := page, st := .waiting, since := s.time }
    | (.fault code cause, s) => s.failPart a.id i (code + 256 * cause)
    | (.mig .., _) => s
    | (.busy, s) => s

/-- A load or a store performed at home, after the copies it conflicts with are recalled (R92); one that meets an uncorrectable error
there, or in a copy that a recall would find, fails (R87), and so does an LDX whose block's descriptor has become one it refuses (R286). -/
def State.serveHome (s : State) (a : Access) (i : Nat) (p : Part) : State :=
  let line := lineOf p.pa
  match (if p.sm then none else s.pullBad line a.isStore none), (if p.sm then [] else s.conflicts line a.isStore none) with
  | some h, _ => (s.countUncorr (dieOf h)).failPart a.id i fUncorrectable
  | none, h :: hs => s.askRecall p.pa (h :: hs)
  | none, [] =>
      let s := (s.touchFor a p).correctAt p.pa p.size
      if (if a.isStore then s.tagSpoiled p.pa else s.spoiled p.pa p.size)
      then (s.countUncorr (homeDie p.pa)).failPart a.id i fUncorrectable
      else match a.op with
      | .load =>
          let d := memNat s.mem (s.descAddr p.pa) 2
          if a.opcode = 0x50 && badLoadCode d then s.failPart a.id i fFormat
          else s.bindAt a.id p.pa (memBytes s.mem p.pa p.size) (if a.opcode = 0x50 then d else p.word)
      | .store => (s.homeWrite p.pa p.data).donePart a.id i
      | .stx =>
          let s := s.homeWrite p.pa p.data
          { s with mem := memStore s.mem (s.descAddr p.pa) (leBytes 2 p.word) }.donePart a.id i
      | _ => s

/-- The line of a miss brought into the cell's L1 with the state its request asks for, or the recall it first needs (R90, R96,
R100). -/
def State.bringLine (s : State) (a : Access) (p : Part) (store : Bool) : Bool × State :=
  let line := lineOf p.pa
  if p.sm then (true, ((s.evictLine a.cell line).touchFor a p).fill a.cell line .smPresent (leafDsc p.leaf))
  else
    let holders := s.conflicts line store (some a.cell)
    if !holders.isEmpty then (false, s.askRecall p.pa holders)
    else
      let (st, s) := ((s.evictLine a.cell line).touchFor a p).dirGrant a.cell line store
      (true, s.fill a.cell line st (leafDsc p.leaf))

/-- The line that a miss asks for holds an uncorrectable word, or a copy that the miss would recall does (R87). -/
def State.missSpoiled (s : State) (p : Part) (store : Bool) : Bool :=
  s.spoiled (lineOf p.pa) 128 || (!p.sm && (s.pullBad (lineOf p.pa) store none).isSome)

/-- A miss or an upgrade of a cached access; a line that holds an uncorrectable word is served at home. DESIGN CHOICE (log 47). -/
def State.serveMiss (s : State) (a : Access) (i : Nat) (p : Part) : State :=
  if s.missSpoiled p a.isStore then s.serveHome a i p
  else match s.bringLine a p a.isStore with
    | (true, s) => s.performHit a i p
    | (false, s) => s

/-- An access to an MMIO window (R26, R124, R421); a window of another module is that module's (log 9). -/
def State.serveMmio (s : State) (a : Access) (i : Nat) (p : Part) : State :=
  let res := (s.cell a.cell).asid == 0
  match a.op with
  | .load => s.bindAt a.id p.pa (s.mmioLoad p.pa p.size res) p.word
  | .store => (s.mmioStore p.pa p.data res).donePart a.id i
  | _ => s.donePart a.id i

/-- A prefetch part: translated once its walk is over, with the checks of the load it stands for, dropped on a fault, kept waiting by
MIG = 1; then its line is brought where CP and the hint allow (R29, R42, R43, R284). DESIGN CHOICE (log 47). -/
def State.servePrefetch (s : State) (a : Access) (i : Nat) (p : Part) : State :=
  match s.translateFor a.cell a.asid (if a.opcode = 0x50 then .ldx else .load) p.va with
  | (.fault .., _) => s.donePart a.id i
  | (.mig .., _) => s
  | (.busy, s) => s
  | (.ok pa leaf _, s') =>
      let q := { p with pa := pa, leaf := leaf }
      if inMmio pa then s'.donePart a.id i
      else if s'.busyLine pa then s
      else if s'.atHomeOnly a q then (s'.touchFor a q).donePart a.id i
      else if s'.hits a q || s'.missSpoiled q false then s'.donePart a.id i
      else match s'.bringLine a q false with
        | (true, s) => s.donePart a.id i
        | (false, s) => s

/-- The first read of a WAITA at home: copies that hide the word are recalled first (R144, R158); an uncorrectable word fails it
(R376). -/
def State.serveWaita (s : State) (a : Access) (i : Nat) (p : Part) : State :=
  if (s.cell a.cell).stopped then s
  else
    let line := lineOf p.pa
    let s := if p.sm then s.evictLine a.cell line else s
    match (if p.sm then none else s.pullBad line false none), (if p.sm then [] else s.conflicts line false none) with
    | some h, _ => (s.countUncorr (dieOf h)).failPart a.id i fUncorrectable
    | none, h :: hs => s.askRecall p.pa (h :: hs)
    | none, [] =>
        let s := s.correctAt p.pa p.size
        if s.spoiled p.pa p.size then (s.countUncorr (homeDie p.pa)).failPart a.id i fUncorrectable else s.firstRead a p

/-- HOME_SLICE_REQUEST (R92, R96): the home slice serves one waiting part that no copy of its cell serves; one that is issued again is first
translated. Atomics and futures are ATOMIC_AT_HOME's, a COLPUSH write is COLPUSH's. -/
def execHomeSliceRequest (id part : Nat) (s : State) : Out :=
  .next (match s.acc? id with
    | none => s
    | some a => match a.parts[part]? with
      | none => s
      | some p =>
          if p.st == .again then (if s.present a.cell then s.serveAgain a part p else s)
          else match a.op with
          | .atomic _ | .freg | .fres | .wbr | .inv _ => s
          | .prefetch => if p.st == .waiting && s.present a.cell then s.servePrefetch a part p else s
          | op =>
              if !s.askable a part p then s
              else match op with
                | .waita => s.serveWaita a part p
                | .wake => (s.wakeAt p.pa p.word).donePart id part
                | _ =>
                    if inMmio p.pa then
                      if op == .store && p.size == 8 && (colPort p.pa).isSome then s else s.serveMmio a part p
                    else if s.hits a p then s
                    else if s.atHomeOnly a p then s.serveHome a part p
                    else s.serveMiss a part p)

/-! Recalls (R91, R93, R96, R98). -/

/-- A copy may be given up: it is not a modified one within its 64 network cycles (R93). -/
def State.mayYield (s : State) (r : Recall) (holder : Nat) : Bool :=
  !s.keeps holder r.line || r.forced

/-- RECALL_RESPONSE (R91, R96): a holder gives its copy up and its dirty bytes are merged; when the last has answered, the line is
free for the request that waits. -/
def execRecallResponse (line holder : Nat) (s : State) : Out :=
  .next (match s.recalls.find? (·.line == line) with
    | none => s
    | some r =>
        if !r.holders.contains holder || !s.mayYield r holder then s
        else
          let s := if (s.copyOf holder line).any CchLine.coherent then s.evictLine holder line else s
          let left := r.holders.filter (· != holder)
          if !left.isEmpty then
            { s with recalls := updateWhere (·.line == line) (fun r => { r with holders := left }) s.recalls }
          else
            let s := { s with recalls := s.recalls.filter (·.line != line) }
            if (s.conflicts line true none).isEmpty then s.dirRelease line else s)

/-- OWNERSHIP_HOLD_EXPIRY (R93): 64 network cycles after the cell received the line. -/
def execOwnershipHoldExpiry (cell line : Nat) (s : State) : Out :=
  .next (match (s.cell cell).line? line with
    | none => s
    | some l =>
        if l.holdUntil = 0 || s.time < l.holdUntil then s
        else s.setCell cell fun c => c.setLine line fun l => { l with holdUntil := 0 })

/-! Completion (R115, R121, R143, R282, R291). -/

/-- The access returns something to its context: LOAD_BIND ends it. -/
def Access.returns (a : Access) : Bool :=
  match a.op with
  | .load | .waita => true
  | .atomic _ => a.res != .none
  | _ => false

/-- LOAD_BIND (R282): the parts that hit bind; when every part has bound, the destination is written in one step. -/
def execLoadBind (id : Nat) (s : State) : Out :=
  .next (match s.acc? id with
    | none => s
    | some a =>
        if !a.returns || !s.present a.cell then s
        else
          let s := if a.op = .load then s.runHits id else s
          match s.acc? id with
          | some a => if a.done && !s.validating id then s.endAccess a else s
          | none => s)

/-- The lines that a page part of WBR or INVR meets are free at home. -/
def State.maintFree (s : State) (p : Part) : Bool :=
  !s.locks.any (fun k => k.line < p.pa + p.size && p.pa < k.line + 128) &&
  !s.recalls.any (fun k => k.line < p.pa + p.size && p.pa < k.line + 128)

/-- Page parts of WBR and INVR performed in the cell, in order; one that would write back an uncorrectable word fails (R87, R102, R103). -/
def State.runMaint (s : State) (id : Nat) : State :=
  let n := match s.acc? id with | some a => a.parts.length | none => 0
  (List.range n).foldl (fun s i => match s.acc? id with
    | some a => match a.parts[i]? with
      | some p =>
          if !(p.st == .waiting && s.maintFree p && !s.blocked a i p) then s
          else if s.maintBad a p then (s.countUncorr (dieOf a.cell)).failPart id i fUncorrectable
          else (s.maintPart a p).donePart id i
      | none => s
    | none => s) s

/-- An access's arc is set at its profile's scope; it ends when it is performed at every scope (R115, R126, R130). -/
def State.tell (s : State) (a : Access) : State :=
  if s.completeAt 4 a then s.endAccess a
  else if a.told then s
  else if s.completeAt (scopeOf a.profile) a then
    (s.setAcc a.id fun a => { a with told := true }).setArc a.cell a.elem a.ctx (arcOf a.profile)
  else if s.tellsEarly a then
    (s.setAcc a.id fun a => { a.passAt (scopeOf a.profile) with told := true }).setArc a.cell a.elem a.ctx (arcOf a.profile)
  else s

/-- ACCESS_COMPLETION (R115): the parts that hit are performed; when the whole access is, at the scope of its profile, its arc is set.
The entries of a store's side log that it has replayed leave (R47). A FENCE completes when every access it marked has (R121). -/
def execAccessCompletion (id : Nat) (s : State) : Out :=
  .next (match s.acc? id with
    | none => match s.fences.find? (·.id == id) with
      | some f => s.endFence f
      | none => s
    | some a =>
        if a.returns || !s.present a.cell then s
        else
          let s := match a.op with
            | .store | .stx => s.runHits id
            | .wbr | .inv _ => s.runMaint id
            | _ => s
          match s.acc? id with
          | some a => (s.clearLog a).tell a
          | none => s)

/-- MEMORY_TIMEOUT (R48, R379): requests unanswered for 2 ms fail; a prefetch counts as answered (R42). -/
def execMemoryTimeout (id : Nat) (s : State) : Out :=
  .next (match s.acc? id with
    | none => s
    | some a =>
        if !s.present a.cell then s
        else
          let late := fun (x : Part × Nat) => x.1.st == .waiting && x.1.since + timeoutPs ≤ s.time && !s.blocked a x.2 x.1 &&
            (s.mergeOf id x.2).isNone
          let st := if a.op = .prefetch then PartSt.done else .failed fMemoryTimeout s.ticks
          let mark := fun (x : Part × Nat) => if late x then { x.1 with st := st } else x.1
          (s.setAcc id fun a => { a with parts := (a.parts.zip (List.range a.parts.length)).map mark }).reportFailed id)

/-! Walks and replays (R36, R45 to R47). -/

/-- PAGE_WALK (R36): a walk that has a walker installs its entry for every cell that joined it; a fault it meets is the access's to
report. -/
def execPageWalk (id : Nat) (s : State) : Out :=
  .next (match s.walks.find? (·.id == id) with
    | none => s
    | some w =>
        let gone := fun (s : State) => { s with walks := s.walks.filter fun (x : WalkReq) => x.id != id }
        if s.walksBefore w.die id ≥ 768 then s
        else match s.walkFor none w.die w.asid true .load w.va with
          | (.busy, _) => s
          | (.ok .., s) =>
              let give := fun (s : State) (c : Nat) => match s.tlbHit none w.die w.asid w.va with
                | some e => s.setCell c fun k => { k with tlb := installTlb 64 e k.tlb }
                | none => s
              w.cells.foldl give (gone s)
          | _ => gone s)

/-- The access that an entry belongs to, as it orders the entry's lanes: one that an image has brought back is made anew (R111, R117,
R121, R386). -/
def State.entryAccess (s : State) (cell : Nat) (e : SideEntry) : Access :=
  let lane := fun (l : Nat) => e.lanes.any fun x => x.1 == l || (e.opcode == 0x56 && x.1 == l / 16 * 16)
  (s.acc? e.id).getD
    { id := e.id, cell := cell, elem := e.elem, ctx := e.ctx, slot := e.slot, opcode := e.opcode, seq := e.seq,
      op := match e.reduction with | some op => .atomic op | none => if e.opcode = 0x56 then .stx else .store,
      res := .none, profile := e.profile, m0 := maskOf lane, asid := e.asid, parts := [], flags := 0,
      acquire := e.reduction.isSome && (e.order == 1 || e.order == 3), release := e.order == 2 || e.order == 3,
      told := false, passed := none }

/-- A part for a lane of an entry. -/
def State.entryPart (s : State) (e : SideEntry) (l : Nat × Nat × List Nat) (r : Trans) : Part :=
  mkPart s l.1 l.2.1 e.width r l.2.2 (((e.descs.find? (·.1 == l.1)).map (·.2)).getD 0)

/-- The kind under which an entry is checked again (R29, R47). -/
def SideEntry.kind (e : SideEntry) : Kind :=
  if e.reduction.isSome then .atomic else if e.opcode = 0x56 then .stx else .store

/-- The translations of an entry's lanes. -/
def State.entryWalk (s : State) (cell : Nat) (e : SideEntry) : List (Nat × Nat × Trans) × State :=
  e.lanes.foldl (fun (acc : List (Nat × Nat × Trans) × State) l =>
    let (r, s) := acc.2.translateFor cell e.asid e.kind l.2.1
    (acc.1 ++ [(l.1, l.2.1, r)], s)) ([], s)

/-- The entries of a page of an ASID, updated. -/
def State.setEntries (s : State) (cell asid page : Nat) (f : SideEntry → SideEntry) : State :=
  s.setCell cell fun c => { c with sideLog := updateWhere (fun e => e.page == page && e.asid == asid) f c.sideLog }

/-- A re-walk that faults: one logged record, charged to the store of the oldest entry; the entries wait for the handler (R47). -/
def State.replayFault (s : State) (cell : Nat) (e : SideEntry) (code cause addr : Nat) : State :=
  let a := s.entryAccess cell e
  let lanes := (e.lanes.map fun l => a.markOf (s.entryPart e l .busy)).foldl Nat.lor 0
  let s := (s.pushRecord cell e.elem e.ctx e.slot e.opcode rLogged e.profile (mkFault code cause lanes addr)
    (.logged cell e.page e.asid)).2
  s.setEntries cell e.asid e.page fun e => { e with replaying := false, mig := none }

/-- The lanes of an entry become waiting parts of its access, performed as those of any store or reduction are; the entry stays in the
log until they are (R46 to R48). -/
def State.issueEntry (s : State) (cell : Nat) (e : SideEntry) (ps : List Part) : State :=
  if s.accs.any (·.id == e.id) then s.setAcc e.id fun a => { a with parts := a.parts ++ ps }
  else { s with accs := s.accs ++ [{ s.entryAccess cell e with parts := ps }] }

/-- The parts of an entry have been issued and are not yet performed. -/
def State.issued (s : State) (e : SideEntry) : Bool :=
  s.accs.any fun a => a.id == e.id && a.parts.any fun p => p.va / 4096 * 4096 == e.page

/-- The oldest entry of a page walks again, and is issued where every check passes (R43, R47). -/
def State.replay (s : State) (cell : Nat) (e : SideEntry) : State :=
  let (rs, s) := s.entryWalk cell e
  match failure laneMark rs, waitOf e.asid e.kind rs with
  | some f, _ => s.replayFault cell e f.1 f.2.1 f.2.2.2
  | none, some (.migLeaf leafPa v ..) =>
      s.setEntries cell e.asid e.page fun e => { e with replaying := false, mig := some (leafPa, v) }
  | none, some _ => s
  | none, none => s.issueEntry cell e ((e.lanes.zip rs).map fun x => s.entryPart e x.1 x.2.2.2)

/-- A stop does not keep the log of a cell while an MWCAS that has fired there is still to complete (R157). -/
def State.logRuns (s : State) (cell : Nat) : Bool :=
  !(s.cell cell).stopped || s.mwops.any fun m => m.cell == cell && m.active

/-- SIDE_LOG_REPLAY (R45 to R47): the entries of a page whose replay is due are performed in append order: the oldest is issued once
the one before it has left the log. -/
def execSideLogReplay (cell page : Nat) (s : State) : Out :=
  .next (match (s.cell cell).sideLog.find? (fun e => e.page == page && e.replaying) with
    | none => s
    | some x =>
        if !s.logRuns cell then s
        else
          let s := s.setEntries cell x.asid page fun e => { e with replaying := true }
          match (s.cell cell).sideLog.find? fun e => e.page == page && e.asid == x.asid with
          | some e => if s.issued e then s else s.replay cell e
          | none => s)

/-! Sweeps and scrubs (R69, R87, R88). -/

/-- PERSIST_SWEEP (R69): every 256 us a slice clears the persistent marks that no persist access has touched since. -/
def execPersistSweep (slice : Nat) (s : State) : Out :=
  let due := s.persistNext.getD slice 0
  .next (if slice ≥ Config.slices || s.time < due then s
    else
      let sweep := fun (l : SliceLine) => { l with persist := l.persist && l.touched, touched := false }
      { s with sliceLines := updateWhere (fun l => homeSlice l.line == slice) sweep s.sliceLines
               persistNext := s.persistNext.set slice (due + 256000000 * Config.ps) })

/-- SLICE_SCRUB (R87): single-bit errors of what a slice holds and homes are corrected in place and counted; a clean copy with a
double-bit error is dropped; the next scrub is within 10 s. -/
def execSliceScrub (slice : Nat) (s : State) : Out :=
  let mine := fun (u : Upset) => [Place.memory, .sliceData, .sliceTag, .directory].contains u.place && homeSlice u.addr == slice
  let s' := (s.upsets.filter fun u => u.double && u.place == .sliceData && mine u).foldl (fun s u => s.refetch u.addr) s
  let s' := s'.correctSingles (slice / Config.slicesPerDie) mine
  .next { s' with sliceScrubs := s'.sliceScrubs.set slice (s.time + 10000000000000 * Config.ps) }

/-- CELL_SCRUB (R87): single-bit errors of a cell's banks that are not OFF, of its codebook, slots and trigger tables are corrected in
place and counted; the next scrub is within 1 s. -/
def execCellScrub (cell : Nat) (s : State) : Out :=
  let s' := s.correctSingles (dieOf cell) fun u => match u.place with
    | .sram c => c == cell && (s.cell cell).role (u.addr / 8192) != .off
    | .codebook c | .slots c _ | .entries c _ => c == cell
    | _ => false
  .next { s' with cellScrubs := s'.cellScrubs.set cell (s.time + 1000000000000 * Config.ps) }

end Sys2Proof.Machine
end

