-- ==== Sys2Proof/Machine/Dispatch.lean ====
section
/-! DEFINITION. One arm per row of the opcode table, each one call of its meaning. -/

namespace Sys2Proof.Machine

def exec (i : Instr) (s : State) : Host.Outcome State Fault Refusal :=
  match i with
  | .nop t => Sys2Proof.Machine.execNop t s
  | .mov t d a w => Sys2Proof.Machine.execMov t d a w s
  | .movi t d imm => Sys2Proof.Machine.execMovi t d imm s
  | .iadd t d a b w => Sys2Proof.Machine.execIadd t d a b w s
  | .isub t d a b w => Sys2Proof.Machine.execIsub t d a b w s
  | .iaddi t d a imm => Sys2Proof.Machine.execIaddi t d a imm s
  | .imulLo t d a b w => Sys2Proof.Machine.execImulLo t d a b w s
  | .imulHi t d a b w => Sys2Proof.Machine.execImulHi t d a b w s
  | .imulHin t d a b w => Sys2Proof.Machine.execImulHin t d a b w s
  | .imad t d a b c => Sys2Proof.Machine.execImad t d a b c s
  | .imin t d a b w => Sys2Proof.Machine.execImin t d a b w s
  | .imax t d a b w => Sys2Proof.Machine.execImax t d a b w s
  | .umin t d a b w => Sys2Proof.Machine.execUmin t d a b w s
  | .umax t d a b w => Sys2Proof.Machine.execUmax t d a b w s
  | .iabs t d a w => Sys2Proof.Machine.execIabs t d a w s
  | .band t d a b w => Sys2Proof.Machine.execBand t d a b w s
  | .bor t d a b w => Sys2Proof.Machine.execBor t d a b w s
  | .bxor t d a b w => Sys2Proof.Machine.execBxor t d a b w s
  | .bandn t d a b w => Sys2Proof.Machine.execBandn t d a b w s
  | .bnot t d a w => Sys2Proof.Machine.execBnot t d a w s
  | .shl t d a b w => Sys2Proof.Machine.execShl t d a b w s
  | .shr t d a b w => Sys2Proof.Machine.execShr t d a b w s
  | .sar t d a b w => Sys2Proof.Machine.execSar t d a b w s
  | .rol t d a b w => Sys2Proof.Machine.execRol t d a b w s
  | .shli t d a w n => Sys2Proof.Machine.execShli t d a w n s
  | .shri t d a w n => Sys2Proof.Machine.execShri t d a w n s
  | .sari t d a w n => Sys2Proof.Machine.execSari t d a w n s
  | .roli t d a w n => Sys2Proof.Machine.execRoli t d a w n s
  | .bfx t d a b w sx => Sys2Proof.Machine.execBfx t d a b w sx s
  | .bfi t d a b c => Sys2Proof.Machine.execBfi t d a b c s
  | .clz t d a w => Sys2Proof.Machine.execClz t d a w s
  | .popc t d a w => Sys2Proof.Machine.execPopc t d a w s
  | .brev t d a w => Sys2Proof.Machine.execBrev t d a w s
  | .icmp t d a b k => Sys2Proof.Machine.execIcmp t d a b k s
  | .ucmp t d a b k => Sys2Proof.Machine.execUcmp t d a b k s
  | .sel t d a b m => Sys2Proof.Machine.execSel t d a b m s
  | .idiv t d a b w => Sys2Proof.Machine.execIdiv t d a b w s
  | .udiv t d a b w => Sys2Proof.Machine.execUdiv t d a b w s
  | .irem t d a b w => Sys2Proof.Machine.execIrem t d a b w s
  | .urem t d a b w => Sys2Proof.Machine.execUrem t d a b w s
  | .iclamp t d a b c => Sys2Proof.Machine.execIclamp t d a b c s
  | .uclamp t d a b c => Sys2Proof.Machine.execUclamp t d a b c s
  | .lbcast t d a n => Sys2Proof.Machine.execLbcast t d a n s
  | .lshfl t d a b => Sys2Proof.Machine.execLshfl t d a b s
  | .lrot t d a imm => Sys2Proof.Machine.execLrot t d a imm s
  | .lred t d a f => Sys2Proof.Machine.execLred t d a f s
  | .lscan t d a f => Sys2Proof.Machine.execLscan t d a f s
  | .lcomp t d a b => Sys2Proof.Machine.execLcomp t d a b s
  | .mand t d a b => Sys2Proof.Machine.execMand t d a b s
  | .mor t d a b => Sys2Proof.Machine.execMor t d a b s
  | .mxor t d a b => Sys2Proof.Machine.execMxor t d a b s
  | .mandn t d a b => Sys2Proof.Machine.execMandn t d a b s
  | .mnot t d a => Sys2Proof.Machine.execMnot t d a s
  | .mmov t d a => Sys2Proof.Machine.execMmov t d a s
  | .mpop t d a => Sys2Proof.Machine.execMpop t d a s
  | .many t d a => Sys2Proof.Machine.execMany t d a s
  | .mall t d a => Sys2Proof.Machine.execMall t d a s
  | .mnone t d a => Sys2Proof.Machine.execMnone t d a s
  | .mfrom t d a => Sys2Proof.Machine.execMfrom t d a s
  | .mto t d a => Sys2Proof.Machine.execMto t d a s
  | .mseti t d imm => Sys2Proof.Machine.execMseti t d imm s
  | .sendt t o a b => Sys2Proof.Machine.execSendt t o a b s
  | .tagr t d n => Sys2Proof.Machine.execTagr t d n s
  | .cens t imm => Sys2Proof.Machine.execCens t imm s
  | .sysr t d imm => Sys2Proof.Machine.execSysr t d imm s
  | .sysw t a imm => Sys2Proof.Machine.execSysw t a imm s
  | .trap t imm => Sys2Proof.Machine.execTrap t imm s
  | .brk t imm => Sys2Proof.Machine.execBrk t imm s
  | .tlaunch t a => Sys2Proof.Machine.execTlaunch t a s
  | .draftld t a b p => Sys2Proof.Machine.execDraftld t a b p s
  | .draftsw t => Sys2Proof.Machine.execDraftsw t s
  | .ctximgSavef t a b => Sys2Proof.Machine.execCtximgSavef t a b s
  | .ctximgSaved t a b => Sys2Proof.Machine.execCtximgSaved t a b s
  | .ctximgRest t a b => Sys2Proof.Machine.execCtximgRest t a b s
  | .tlbinvPg t a b p => Sys2Proof.Machine.execTlbinvPg t a b p s
  | .tlbinvAs t a b p => Sys2Proof.Machine.execTlbinvAs t a b p s
  | .tlbinvAll t a b p => Sys2Proof.Machine.execTlbinvAll t a b p s
  | .fadd t d a b => Sys2Proof.Machine.execFadd t d a b s
  | .fsub t d a b => Sys2Proof.Machine.execFsub t d a b s
  | .fmul t d a b => Sys2Proof.Machine.execFmul t d a b s
  | .ffma t d a b c => Sys2Proof.Machine.execFfma t d a b c s
  | .ffms t d a b c => Sys2Proof.Machine.execFfms t d a b c s
  | .fmin t d a b => Sys2Proof.Machine.execFmin t d a b s
  | .fmax t d a b => Sys2Proof.Machine.execFmax t d a b s
  | .fminp t d a b => Sys2Proof.Machine.execFminp t d a b s
  | .fmaxp t d a b => Sys2Proof.Machine.execFmaxp t d a b s
  | .fabs t d a => Sys2Proof.Machine.execFabs t d a s
  | .fneg t d a => Sys2Proof.Machine.execFneg t d a s
  | .fcpys t d a b => Sys2Proof.Machine.execFcpys t d a b s
  | .fcmp t d a b k => Sys2Proof.Machine.execFcmp t d a b k s
  | .fclass t d a => Sys2Proof.Machine.execFclass t d a s
  | .frnd t d a k => Sys2Proof.Machine.execFrnd t d a k s
  | .fcvti t d a w u => Sys2Proof.Machine.execFcvti t d a w u s
  | .fcvtf t d a w u => Sys2Proof.Machine.execFcvtf t d a w u s
  | .fcvt t d a b sr k => Sys2Proof.Machine.execFcvt t d a b sr k s
  | .funp t d a h k => Sys2Proof.Machine.execFunp t d a h k s
  | .fx2f t d a => Sys2Proof.Machine.execFx2f t d a s
  | .flg2f t d a => Sys2Proof.Machine.execFlg2f t d a s
  | .fexp2 t d a => Sys2Proof.Machine.execFexp2 t d a s
  | .flog2 t d a => Sys2Proof.Machine.execFlog2 t d a s
  | .frcp t d a => Sys2Proof.Machine.execFrcp t d a s
  | .frsq t d a => Sys2Proof.Machine.execFrsq t d a s
  | .fsqrt t d a => Sys2Proof.Machine.execFsqrt t d a s
  | .fscl t d a b => Sys2Proof.Machine.execFscl t d a b s
  | .fgetx t d a => Sys2Proof.Machine.execFgetx t d a s
  | .fgetm t d a => Sys2Proof.Machine.execFgetm t d a s
  | .fsinp t d a => Sys2Proof.Machine.execFsinp t d a s
  | .fcosp t d a => Sys2Proof.Machine.execFcosp t d a s
  | .hfma2 t d a b h c => Sys2Proof.Machine.execHfma2 t d a b h c s
  | .hadd2 t d a b h => Sys2Proof.Machine.execHadd2 t d a b h s
  | .hmul2 t d a b h => Sys2Proof.Machine.execHmul2 t d a b h s
  | .fdot2 t d a b c => Sys2Proof.Machine.execFdot2 t d a b c s
  | .bscale t d a b => Sys2Proof.Machine.execBscale t d a b s
  | .packb t d a b => Sys2Proof.Machine.execPackb t d a b s
  | .unpkb t d a b => Sys2Proof.Machine.execUnpkb t d a b s
  | .ld t d a b p w => Sys2Proof.Machine.execLd t d a b p w s
  | .ldb8 t d a b p => Sys2Proof.Machine.execLdb8 t d a b p s
  | .ldh16 t d a b p => Sys2Proof.Machine.execLdh16 t d a b p s
  | .ldc t d a b p w => Sys2Proof.Machine.execLdc t d a b p w s
  | .ldx t d a b p => Sys2Proof.Machine.execLdx t d a b p s
  | .lds t d a b p w => Sys2Proof.Machine.execLds t d a b p w s
  | .st t d a b p w => Sys2Proof.Machine.execSt t d a b p w s
  | .stb8 t d a b p => Sys2Proof.Machine.execStb8 t d a b p s
  | .sth16 t d a b p => Sys2Proof.Machine.execSth16 t d a b p s
  | .stc t d a b p w => Sys2Proof.Machine.execStc t d a b p w s
  | .stx t d a b p => Sys2Proof.Machine.execStx t d a b p s
  | .sts t d a b p w => Sys2Proof.Machine.execSts t d a b p w s
  | .aadd t d a b p w => Sys2Proof.Machine.execAadd t d a b p w s
  | .amin t d a b p w => Sys2Proof.Machine.execAmin t d a b p w s
  | .amax t d a b p w => Sys2Proof.Machine.execAmax t d a b p w s
  | .aand t d a b p w => Sys2Proof.Machine.execAand t d a b p w s
  | .aor t d a b p w => Sys2Proof.Machine.execAor t d a b p w s
  | .axor t d a b p w => Sys2Proof.Machine.execAxor t d a b p w s
  | .axch t d a b p w => Sys2Proof.Machine.execAxch t d a b p w s
  | .acas t d a b p w => Sys2Proof.Machine.execAcas t d a b p w s
  | .afadd t d a b p w => Sys2Proof.Machine.execAfadd t d a b p w s
  | .mwcas t d a q p => Sys2Proof.Machine.execMwcas t d a q p s
  | .fence t bef aft p => Sys2Proof.Machine.execFence t bef aft p s
  | .waita t d a b p w => Sys2Proof.Machine.execWaita t d a b p w s
  | .wake t a b p => Sys2Proof.Machine.execWake t a b p s
  | .wbr t a b p => Sys2Proof.Machine.execWbr t a b p s
  | .invr t a b p w => Sys2Proof.Machine.execInvr t a b p w s
  | .freg t a b p => Sys2Proof.Machine.execFreg t a b p s
  | .fres t a b p => Sys2Proof.Machine.execFres t a b p s
  | .shcpy t a b p => Sys2Proof.Machine.execShcpy t a b p s
  | .shtile t a b p => Sys2Proof.Machine.execShtile t a b p s
  | .shmcast t a b p => Sys2Proof.Machine.execShmcast t a b p s
  | .shstrm t a p => Sys2Proof.Machine.execShstrm t a p s
  | .shclose t a p => Sys2Proof.Machine.execShclose t a p s
  | .hprep t a b => Sys2Proof.Machine.execHprep t a b s
  | .hwload t a b => Sys2Proof.Machine.execHwload t a b s
  | .hmma t a b => Sys2Proof.Machine.execHmma t a b s
  | .hwait t d a => Sys2Proof.Machine.execHwait t d a s
  | .hdrain t d a b => Sys2Proof.Machine.execHdrain t d a b s
  | .hzero t a b => Sys2Proof.Machine.execHzero t a b s
  | .cbdec t d a => Sys2Proof.Machine.execCbdec t d a s
  | .hcbload t a b => Sys2Proof.Machine.execHcbload t a b s
  | .binb t d a b => Sys2Proof.Machine.execBinb t d a b s
  | .edge t d a b k => Sys2Proof.Machine.execEdge t d a b k s
  | .bary t d a b => Sys2Proof.Machine.execBary t d a b s
  | .texb t d a b => Sys2Proof.Machine.execTexb t d a b s
  | .tnode t b => Sys2Proof.Machine.execTnode t b s
  | .rspush t a => Sys2Proof.Machine.execRspush t a s
  | .rspop t a => Sys2Proof.Machine.execRspop t a s
  | .tisect t b => Sys2Proof.Machine.execTisect t b s
  | .rayout t o => Sys2Proof.Machine.execRayout t o s
  | .rayin t n => Sys2Proof.Machine.execRayin t n s
  | .blnd t d n b k => Sys2Proof.Machine.execBlnd t d n b k s
  | .zcmp t d a b => Sys2Proof.Machine.execZcmp t d a b s
  | .sideLogReplay cell page => Sys2Proof.Machine.execSideLogReplay cell page s
  | .pageWalk id => Sys2Proof.Machine.execPageWalk id s
  | .migLeafWritten line => Sys2Proof.Machine.execMigLeafWritten line s
  | .loadBind id => Sys2Proof.Machine.execLoadBind id s
  | .accessCompletion id => Sys2Proof.Machine.execAccessCompletion id s
  | .tlbinvComplete id => Sys2Proof.Machine.execTlbinvComplete id s
  | .memoryTimeout id => Sys2Proof.Machine.execMemoryTimeout id s
  | .homeSliceRequest id part => Sys2Proof.Machine.execHomeSliceRequest id part s
  | .recallResponse line holder => Sys2Proof.Machine.execRecallResponse line holder s
  | .ownershipHoldExpiry cell line => Sys2Proof.Machine.execOwnershipHoldExpiry cell line s
  | .hostAccess q => Sys2Proof.Machine.execHostAccess q s
  | .remoteAccess q => Sys2Proof.Machine.execRemoteAccess q s
  | .smFlush cell frame => Sys2Proof.Machine.execSmFlush cell frame s
  | .atomicAtHome id part => Sys2Proof.Machine.execAtomicAtHome id part s
  | .mergeBufferForward router entry => Sys2Proof.Machine.execMergeBufferForward router entry s
  | .mwcasLockPhase id => Sys2Proof.Machine.execMwcasLockPhase id s
  | .mwcasQueuedLockGrant line => Sys2Proof.Machine.execMwcasQueuedLockGrant line s
  | .mwcasBoundExpiry id => Sys2Proof.Machine.execMwcasBoundExpiry id s
  | .mwcasLockTimeout id => Sys2Proof.Machine.execMwcasLockTimeout id s
  | .mwcasCommitTimeout id => Sys2Proof.Machine.execMwcasCommitTimeout id s
  | .waitaWake id => Sys2Proof.Machine.execWaitaWake id s
  | .futureArrive id => Sys2Proof.Machine.execFutureArrive id s
  | .tokenArrival id => Sys2Proof.Machine.execTokenArrival id s
  | .reservationGrant id => Sys2Proof.Machine.execReservationGrant id s
  | .stageQueueDispatch launch stage => Sys2Proof.Machine.execStageQueueDispatch launch stage s
  | .quiescenceReport die region => Sys2Proof.Machine.execQuiescenceReport die region s
  | .draftldValidation id => Sys2Proof.Machine.execDraftldValidation id s
  | .draftswCommit cell elem ctx => Sys2Proof.Machine.execDraftswCommit cell elem ctx s
  | .retirement launch => Sys2Proof.Machine.execRetirement launch s
  | .watchdogExpiry die region => Sys2Proof.Machine.execWatchdogExpiry die region s
  | .streamOpen id => Sys2Proof.Machine.execStreamOpen id s
  | .streamPush id => Sys2Proof.Machine.execStreamPush id s
  | .streamClose id => Sys2Proof.Machine.execStreamClose id s
  | .persistSweep slice => Sys2Proof.Machine.execPersistSweep slice s
  | .sliceScrub slice => Sys2Proof.Machine.execSliceScrub slice s
  | .cellScrub cell => Sys2Proof.Machine.execCellScrub cell s
  | .heddleCommandStart cell => Sys2Proof.Machine.execHeddleCommandStart cell s
  | .heddleCommandComplete cell id => Sys2Proof.Machine.execHeddleCommandComplete cell id s
  | .wovenPartial cell id => Sys2Proof.Machine.execWovenPartial cell id s
  | .shuttleCommandRun cell id => Sys2Proof.Machine.execShuttleCommandRun cell id s
  | .shuttleCommandComplete cell id => Sys2Proof.Machine.execShuttleCommandComplete cell id s
  | .rayoutSend cell elem ctx => Sys2Proof.Machine.execRayoutSend cell elem ctx s
  | .rayinMergeComplete cell elem ctx => Sys2Proof.Machine.execRayinMergeComplete cell elem ctx s
  | .traversalComplete id => Sys2Proof.Machine.execTraversalComplete id s
  | .migpush value => Sys2Proof.Machine.execMigpush value s
  | .migrationRequest id => Sys2Proof.Machine.execMigrationRequest id s
  | .migrationCopy id => Sys2Proof.Machine.execMigrationCopy id s
  | .migrationLost id => Sys2Proof.Machine.execMigrationLost id s
  | .pinExpiry imm => Sys2Proof.Machine.execPinExpiry imm s
  | .gddrEviction => Sys2Proof.Machine.execGddrEviction s
  | .migfree value => Sys2Proof.Machine.execMigfree value s
  | .migctlWrite value => Sys2Proof.Machine.execMigctlWrite value s
  | .migevqWrite value => Sys2Proof.Machine.execMigevqWrite value s
  | .migevcWrite value => Sys2Proof.Machine.execMigevcWrite value s
  | .mighbaseWrite value => Sys2Proof.Machine.execMighbaseWrite value s
  | .qpush queue value => Sys2Proof.Machine.execQpush queue value s
  | .admissionStep => Sys2Proof.Machine.execAdmissionStep s
  | .quantumExpiry launch => Sys2Proof.Machine.execQuantumExpiry launch s
  | .antiStarvationBoost queue => Sys2Proof.Machine.execAntiStarvationBoost queue s
  | .dobbySample die => Sys2Proof.Machine.execDobbySample die s
  | .replicaFree launch stage rep => Sys2Proof.Machine.execReplicaFree launch stage rep s
  | .preemptionDrainComplete id => Sys2Proof.Machine.execPreemptionDrainComplete id s
  | .restoreComplete id => Sys2Proof.Machine.execRestoreComplete id s
  | .powerSplit => Sys2Proof.Machine.execPowerSplit s
  | .grantEffect die => Sys2Proof.Machine.execGrantEffect die s
  | .pwrcapWrite value => Sys2Proof.Machine.execPwrcapWrite value s
  | .faultRecordWrite die => Sys2Proof.Machine.execFaultRecordWrite die s
  | .fqactResume die seq => Sys2Proof.Machine.execFqactResume die seq s
  | .fqactSkip die seq => Sys2Proof.Machine.execFqactSkip die seq s
  | .fqactTerminate die seq => Sys2Proof.Machine.execFqactTerminate die seq s
  | .fqconsWrite die value => Sys2Proof.Machine.execFqconsWrite die value s
  | .fqbaseWrite die value => Sys2Proof.Machine.execFqbaseWrite die value s
  | .modnumWrite value => Sys2Proof.Machine.execModnumWrite value s
  | .serrcntWrite die value => Sys2Proof.Machine.execSerrcntWrite die value s
  | .colpush id part => Sys2Proof.Machine.execColpush id part s
  | .collectiveRun colid => Sys2Proof.Machine.execCollectiveRun colid s
  | .collectiveTimeout colid => Sys2Proof.Machine.execCollectiveTimeout colid s
  | .ueLaunchPacket p => Sys2Proof.Machine.execUeLaunchPacket p s
  | .managementRequest r => Sys2Proof.Machine.execManagementRequest r s
  | .moduleReset fw => Sys2Proof.Machine.execModuleReset fw s
  | .mmioRegisterWrite pa size w => Sys2Proof.Machine.execMmioRegisterWrite pa size w s

end Sys2Proof.Machine
end

