-- ==== Sys2Proof/Machine/Agenda.lean ====
section
/-! DEFINITION. What may happen next: the firings that are due, the events of the machine, and time (log 1); one step is one of
them. -/

namespace Sys2Proof.Machine

/-! Firings (R165 to R168). -/

/-- The word of a slot, decoded (R209). -/
def State.slotInstr (s : State) (f : Firing) : Option Instr :=
  (((s.cell f.cell).draftElem f.elem).slots[f.slot]?).bind decode

/-- The state in which a firing's meaning acts: the firing is the current one, and its context waits for nothing (R41, R43). -/
def State.start (s : State) (f : Firing) : State :=
  { s with cur := f }.setCtx f.cell f.elem f.ctx fun k => { k with wait := none }

/-- The firing is due: the element's arbiter selects it now (R167). -/
def State.due (s : State) (f : Firing) : Bool := s.elementFiring (s.cell f.cell) f.elem == some f

/-- Every firing that is due. -/
def State.dueFirings (s : State) : List Firing :=
  s.cells.flatMap fun c => (List.range 4).filterMap fun e => s.elementFiring c e

/-! Events. -/

/-- An instruction that is no word of a slot: an event of the machine or of its outside. -/
def isEvent (i : Instr) : Bool := (encode i).isNone

/-- What a context's multi-step firing, or its DRAFTSW, may do next: context i = 4 elem + ctx. -/
def contextEvents (c : Cell) (i : Nat) : List Instr :=
  let k := c.ctx (i / 4) (i % 4)
  match k.multi, k.wait with
  | some (.rayout ..), _ => [Instr.rayoutSend c.id (i / 4) (i % 4)]
  | some (.rayin ..), _ => [Instr.rayinMergeComplete c.id (i / 4) (i % 4)]
  | none, some (.configPeriod ..) => [Instr.draftswCommit c.id (i / 4) (i % 4)]
  | none, _ => []

/-- What a cell's units may do next. -/
def cellEvents (c : Cell) : List Instr :=
  List.flatten [
    (c.sideLog.filter (·.replaying)).map fun e => Instr.sideLogReplay c.id e.page,
    (c.cch.filter (·.holdUntil != 0)).map fun l => Instr.ownershipHoldExpiry c.id l.pa,
    if c.heddle.queue.isEmpty then [] else [Instr.heddleCommandStart c.id],
    c.heddle.queue.flatMap fun x => [Instr.heddleCommandComplete c.id x.id, Instr.wovenPartial c.id x.id],
    c.shuttle.flatMap fun x => [Instr.shuttleCommandRun c.id x.id, Instr.shuttleCommandComplete c.id x.id],
    (List.range 16).flatMap (contextEvents c)]

/-- Leaf lines that a context or a logged page watches (R43, R45). -/
def watchedLines (c : Cell) : List Nat :=
  ((c.elems.flatMap (·.ctxs)).filterMap fun k => match k.wait with
    | some (.migLeaf pa ..) => some (lineOf pa)
    | _ => none) ++
  c.sideLog.filterMap fun e => if e.replaying then none else e.mig.map fun m => lineOf m.1

/-- What a memory access may do next. -/
def accessEvents (a : Access) : List Instr :=
  ((List.range a.parts.length).flatMap fun i =>
    [Instr.homeSliceRequest a.id i, Instr.atomicAtHome a.id i, Instr.colpush a.id i]) ++ [Instr.loadBind a.id, Instr.accessCompletion a.id]

/-- What the memory system may do next. -/
def State.memoryEvents (s : State) : List Instr :=
  List.flatten [
    s.accs.flatMap accessEvents,
    s.walks.map fun w => Instr.pageWalk w.id,
    (s.cells.flatMap watchedLines).map Instr.migLeafWritten,
    s.fences.map fun f => Instr.accessCompletion f.id,
    s.invs.map fun v => Instr.tlbinvComplete v.id,
    s.recalls.flatMap fun r => r.holders.map fun h => Instr.recallResponse r.line h,
    (s.merges.filter (·.router != departed)).map fun e => Instr.mergeBufferForward e.router e.id,
    s.locks.map fun k => Instr.mwcasQueuedLockGrant k.line,
    s.mwops.flatMap fun m => [Instr.mwcasLockPhase m.id, Instr.mwcasBoundExpiry m.id],
    (s.watches.filter (·.woken)).map fun w => Instr.waitaWake w.id,
    s.arrivals.map fun r => Instr.futureArrive r.id,
    s.traversals.map fun t => Instr.traversalComplete t.id,
    s.accs.map fun a => Instr.memoryTimeout a.id,
    s.mwops.flatMap fun m => [Instr.mwcasLockTimeout m.id, Instr.mwcasCommitTimeout m.id]]

/-- What the token fabric, the streams and the shadow stores may do next. -/
def State.fabricEvents (s : State) : List Instr :=
  List.flatten [
    s.flights.map fun f => Instr.tokenArrival f.id,
    s.grants.map fun g => Instr.reservationGrant g.id,
    s.queues.map fun q => Instr.stageQueueDispatch q.launch q.stage,
    s.streams.flatMap fun k => [Instr.streamOpen k.id, Instr.streamPush k.id, Instr.streamClose k.id],
    s.draftlds.map fun d => Instr.draftldValidation d.id,
    s.colls.flatMap fun p => [Instr.collectiveRun p.colid, Instr.collectiveTimeout p.colid]]

/-- What a migration request may do next. -/
def State.moveEvents (s : State) (r : MigReq) : List Instr :=
  Instr.migrationRequest r.id :: Instr.migrationLost r.id :: Instr.migrationCopy r.id ::
    r.flush.map fun c => Instr.smFlush c (pfnOf (s.coherentNat r.leafPa 8))

/-- What a launch may do next. -/
def launchEvents (l : Launch) : List Instr :=
  Instr.retirement l.uid :: Instr.quantumExpiry l.uid :: l.draining.map fun d => Instr.replicaFree l.uid d.1 d.2

/-- The instants by which a slice, or a loaded cell, scrubs again (R87). -/
def State.scrubDues (s : State) : List Nat := s.sliceScrubs ++ s.cells.map fun c => s.cellScrubs.getD c.id s.time
/-- The scrubs that are due (R87). -/
def State.scrubsDue (s : State) : List Instr :=
  ((List.range Config.slices).filter fun n => s.sliceScrubs.getD n 0 ≤ s.time).map Instr.sliceScrub ++
  ((s.cells.map (·.id)).filter fun c => s.cellScrubs.getD c 0 ≤ s.time).map Instr.cellScrub

/-- The scrub that meets an error. -/
def scrubOf (u : Upset) : Instr :=
  match u.place with
  | .sram c | .codebook c | .slots c _ | .entries c _ => Instr.cellScrub c
  | _ => Instr.sliceScrub (homeSlice u.addr)

/-- What the resident scheduler, the migration engine, the hub and the dies may do next. -/
def State.hubEvents (s : State) : List Instr :=
  List.flatten [
    (List.range 8).flatMap fun d => [Instr.faultRecordWrite d, Instr.grantEffect d],
    s.images.map fun i => if i.form = 2 then Instr.restoreComplete i.id else Instr.preemptionDrainComplete i.id,
    s.mig.requests.flatMap s.moveEvents,
    (List.range s.mig.history.length).map Instr.pinExpiry,
    [Instr.gddrEviction, Instr.admissionStep, Instr.powerSplit],
    s.regions.flatMap fun r => [Instr.quiescenceReport r.die r.index, Instr.watchdogExpiry r.die r.index],
    s.launches.flatMap launchEvents,
    (List.range 64).map Instr.antiStarvationBoost,
    (List.range 8).map Instr.dobbySample,
    ((List.range Config.slices).filter fun n => s.persistNext.getD n 0 ≤ s.time).map Instr.persistSweep,
    s.upsets.map scrubOf, s.scrubsDue]

def State.events (s : State) : List Instr :=
  List.flatten [s.cells.flatMap cellEvents, s.memoryEvents, s.fabricEvents, s.hubEvents]

/-- An event is enabled where it changes the state. -/
def State.changes (s : State) (i : Instr) : Bool :=
  match exec i s with
  | .next s' => s' != s
  | _ => false

/-! Time (log 1). -/

/-- Instants at which something may become due. -/
def State.deadlines (s : State) : List Nat :=
  s.cells.flatMap (fun c => c.elems.map (·.busyUntil) ++ c.cch.map (·.holdUntil)) ++
  s.accs.flatMap (fun a => a.parts.map (·.since + timeoutPs)) ++
  s.mwops.flatMap (fun m => [m.start + s.mwBound m, m.since + timeoutPs]) ++
  s.servedNow.map (fun x => (x.2.1 + 1) * s.ePeriod (homeDie x.1)) ++
  s.regions.filterMap (fun r => (s.launch? r.launch).map fun l => r.idleSince + (l.wdog - r.idle) * s.nPeriod r.die) ++
  s.colls.map (·.joined + timeoutPs) ++
  s.queues.flatMap (fun q => [q.growSince, q.shrinkSince].filterMap id) ++
  s.mig.history.map (·.time + 1000000000 * Config.ps) ++
  s.dies.map (·.dobbyNext) ++ s.persistNext ++ s.scrubDues ++ [s.hub.splitNext]

/-- With nothing enabled, time runs to the next instant at which something may be. -/
def State.nextTime (s : State) : Nat :=
  ((s.deadlines.filter (· > s.time)).foldl (fun m t => match m with | none => some t | some x => some (min x t)) none).getD
    (s.time + 1000 * Config.ps)

/-- What happens where the script is over: the first enabled event, else the first due firing, else time passes. -/
def State.ownPick (s : State) : Pick :=
  match s.events.find? s.changes with
  | some i => .event i
  | none => match s.dueFirings with
    | f :: _ => .fire f
    | [] => .elapse (s.nextTime - s.time)

/-- Time passes, but not beyond a scrub that is due (R87; log 23). -/
def State.elapse (s : State) (ps : Nat) : State :=
  { s with time := max s.time (s.scrubDues.foldl min (s.time + ps)) }

/-! A step. -/

/-- A firing meets a soft error: of its slot, of its trigger entry, or of a register that it reads (R59, R87, R166; log 23). -/
def State.firingMeets (s : State) (i : Instr) (u : Upset) : Bool :=
  let f := s.cur
  let word := ((s.cell f.cell).draftElem f.elem).slots.getD f.slot 0
  let bank := 4096 * (4 * f.elem + f.ctx)
  match u.place with
  | .slots c e => c == f.cell && e == f.elem && u.addr / 8 == 4 * f.slot / 8
  | .entries c e => c == f.cell && e == f.elem && u.addr / 8 == word.toNat / 2 ^ 26
  | .sram c => c == f.cell && bank ≤ u.addr && u.addr < bank + 4096 && bit (usesOf i).1 ((u.addr - bank) / 256)
  | _ => false

/-- Errors in 64-bit words of registers that a firing has written whole are gone, where it took no fault (R87). -/
def State.wipeWritten (s : State) (i : Instr) : State :=
  let f := s.cur
  let k := (s.cell f.cell).ctx f.elem f.ctx
  let bank := 4096 * (4 * f.elem + f.ctx)
  let over_ := fun (u : Upset) => u.place == .sram f.cell && bank ≤ u.addr && u.addr < bank + 4096 &&
    bit (usesOf i).2.1 ((u.addr - bank) / 256) && inMask s.m0 (u.addr % 256 / 4) && inMask s.m0 (u.addr % 256 / 4 + 1)
  if k.heldBy.isEmpty then { s with upsets := s.upsets.filter fun u => !over_ u } else s

/-- An instruction fires as the current firing. An uncorrectable word among those that it reads is a memory uncorrectable fault of
the firing, single-bit errors are corrected and counted, and the instruction acts as its meaning says (R87, R88, R376). -/
def State.fireNow (s : State) (i : Instr) : Out :=
  let die := dieOf s.cur.cell
  if s.upsets.any fun u => u.double && s.firingMeets i u
  then
    let prof := match profileOf i with | some p => s.profile p.val | none => 0
    .next ((s.countUncorr die).takeFault prof (mkFault fUncorrectable 0 s.firingLanes 0))
  else match exec i (s.correctSingles die (s.firingMeets i)) with
    | .next t => .next (t.wipeWritten i)
    | o => o

/-- A region's counters after a step: the watchdog counts only while the region was and is watched (R366). -/
def State.countIdle (old s : State) : State :=
  let was := fun (r : Region) => (old.regions.find? fun x => x.die == r.die && x.index == r.index).any old.watched
  let go := fun (r : Region) => if was r && s.watched r then r else { r with idle := 0, idleSince := s.time }
  { s with regions := s.regions.map go }

/-- The central split is recomputed at once when the launch that a die serves changes (R370). -/
def State.resplit (old s : State) : State :=
  let on := fun (s : State) => (List.range 8).map fun d => (s.served d).map (·.uid)
  if on old = on s then s else s.splitSoon

/-- What every step adds to its action: loans that have become due start too (R160). -/
def State.settle (old s : State) : State := (old.resplit (old.countIdle s)).startLoans

/-- The outcome of an action, settled. -/
def finishStep (old : State) : Out → Out
  | .next s => .next (old.settle s)
  | o => o

/-- One pick of the script taken: a firing only where the arbiter selects it, an event only where it is none of a slot's words;
anything else leaves the state. -/
def State.take (s : State) : Pick → Out
  | .fire f =>
      if s.due f then
        match s.slotInstr f with
        | some i => finishStep s ((s.start f).fireNow i)
        | none => .next s
      else .next s
  | .event i => if isEvent i then finishStep s (exec i s) else .next s
  | .elapse ps => .next (s.elapse ps)

/-! A state whose next step runs a given instruction (log 5). -/

/-- The draft element that a placed word stands in: one slot, every trigger entry matches and asks for nothing but tokens and
reservations on every channel, and output channels lead to the element's own inputs. -/
def placedElem (w : Word) : DraftElem :=
  { slots := [w], entries := List.replicate 64 (15 * 2 ^ 56 + 0xFFFF * 2 ^ 16), consts := List.replicate 8 0,
    profiles := List.replicate 8 0, routes := (List.range 8).map fun n => 7 * 2 ^ 28 + 2 ^ 3 * n, chans := List.replicate 8 3 }

/-- The cell as it must be for its element 0 to fire slot 0 in context 0 next. -/
def placedCell (c : Cell) (now : Nat) (w : Word) : Cell :=
  let chan := fun (h : Chan) => if h.tokens.isEmpty then { h with tokens := [⟨0, [], none, none⟩] } else h
  let free := fun (k : Ctx) => { k with multi := none }
  let ready := fun (k : Ctx) =>
    { k with pendV := 0, pendM := 0, heldBy := [], wait := none, asleep := false }
  let el := c.elem 0
  let el : Elem :=
    { el with lastFired := 3, busyUntil := min el.busyUntil now, occupant := none, outs := List.replicate 8 .held
              ins := (List.range 8).map fun n => chan (el.chan n)
              ctxs := (List.range 4).map fun x => if x = 0 then ready (free (el.ctx 0)) else free (el.ctx x) }
  { c with seat := c.seat.orElse (fun _ => some ⟨0, dieOf c.id, 0, 0⟩), running := true, stopped := false
           draft := { c.draft with elems := (List.range 4).map fun e => if e = 0 then placedElem w else c.draftElem e }
           elems := (List.range 4).map fun e => if e = 0 then el else c.elem e }

/-- Cell 0 holds the word as its next firing, and the script picks that firing. -/
def State.placeWord (s : State) (w : Word) : State :=
  let cell := placedCell (s.cell 0) s.time w
  let s := if s.cells.any (·.id == 0) then s.setCell 0 fun _ => cell else { s with cells := cell :: s.cells }
  { s with env := .fire ⟨0, 0, 0, 0⟩ :: s.env }

end Sys2Proof.Machine
end

