-- ==== Sys2Proof/Machine/Step.lean ====
section
/-! DEFINITION. One step of the module: the next pick of the script, or, where the script is over, what the module does on its own
(log 1). -/

namespace Sys2Proof.Machine

/-- One step (R165 to R168; log 1). -/
def step (s : State) : Host.Outcome State Fault Refusal :=
  match s.env with
  | [] => s.take s.ownPick
  | p :: rest => { s with env := rest }.take p

/-- A state whose next step fetches and runs the instruction of a word: the word stands in a slot of cell 0 whose firing the script
picks (log 5). A word is 32 bits (R209). -/
def State.withFetchWord (s : State) (nbits w : Nat) : State := s.placeWord (BitVec.ofNat 32 (w % 2 ^ nbits))

end Sys2Proof.Machine
end

