-- ==== Sys2Proof/Safety.lean ====
section
/-! DEFINITION. What the statements speak of: places, completion, what a firing may change, and the invariants. -/

namespace Sys2Proof.Machine

/-! Places. -/

/-- A draft has been loaded into the cell. -/
def State.loaded (s : State) (c : Nat) : Bool := s.cells.any (·.id == c)

/-- A context that exists, with its 16 registers and 4 masks (R162). -/
abbrev State.hasCtx (s : State) (c e x : Nat) : Prop :=
  s.loaded c = true ∧ e < (s.cell c).elems.length ∧ x < ((s.cell c).elem e).ctxs.length ∧
    (s.ctxOf c e x).v.length = 16 ∧ (s.ctxOf c e x).m.length = 4

/-- The current firing stands in a context that exists. -/
abbrev State.placed (s : State) : Prop := s.hasCtx s.cur.cell s.cur.elem s.cur.ctx

/-! Outcomes. -/

/-- The instruction answers a next state with a property: it neither faults nor is refused. -/
def Completes (i : Instr) (s : State) (P : State → Prop) : Prop := ∃ u, exec i s = .next u ∧ P u

/-! Results. -/

/-- Register n of the current context holds f in the lanes of m0 and its old lanes elsewhere (R164, R228). -/
def Wrote (s u : State) (n : Nat) (f : Nat → Word) : Prop :=
  ∀ l, l < 64 → lane (u.vreg n) l = if inMask s.m0 l then f l else lane (s.vreg n) l

/-- One token leaves on output channel n, where its route leads: the tag, and f in the lanes of m0 with 0 elsewhere, as
many lanes as the route is wide (R174, R228). -/
def Sent (s u : State) (n : Nat) (tag : Word) (f : Nat → Word) : Prop :=
  let r := s.routeOf s.cur.cell s.cur.elem n
  ∀ q, s.routeTarget s.curCell r = some q → ∃ id,
    u.flights = s.flights ++ [⟨id, .out s.cur.cell s.cur.elem n, q,
      [⟨tag, (List.range (routeWidth r)).map fun l => if inMask s.m0 l then f l else 0, s.curCell.seat, none⟩], none⟩]

/-- A 32-bit result has reached its destination; under `_` nothing is sent. -/
def Delivered (s u : State) (t : Fin 64) (d : Dst) (f : Nat → Word) : Prop :=
  match d with
  | .v r => Wrote s u r.val f ∧ u.flights = s.flights
  | .o n => Sent s u n.val (s.sendTag t) f
  | .discard => u.flights = s.flights

/-- A 64-bit result has reached its pair: the low halves in the even register, the high halves in the odd one (R164). -/
def DeliveredPair (s u : State) (d : Dst) (g : Nat → BitVec 64) : Prop :=
  match d with
  | .v r => Wrote s u r.val (fun l => (g l).setWidth 32) ∧ Wrote s u (r.val + 1) (fun l => (g l >>> 32).setWidth 32) ∧
      u.flights = s.flights
  | _ => u.flights = s.flights

/-- A result in either width (R228). -/
def DeliveredSel (s u : State) (t : Fin 64) (w : Bool) (d : Dst) (f : Nat → Word) (g : Nat → BitVec 64) : Prop :=
  if w then DeliveredPair s u d g else Delivered s u t d f

/-- The registers that a destination names, a pair under .w. -/
def dstRegs (w : Bool) : Dst → List Nat
  | .v r => if w then [r.val, r.val + 1] else [r.val]
  | _ => []

/-! What a firing leaves (R168, R228). -/

/-- What a firing leaves outside its own context: memory, other cells, other elements, other contexts, and of its own cell
everything but the elements and the marks of dirty rows. -/
def LeavesOthers (s u : State) : Prop :=
  (∀ a, memRead u.mem a = memRead s.mem a) ∧
  (∀ c, c ≠ s.cur.cell → u.cell c = s.cell c) ∧
  u.curCell = { s.curCell with elems := u.curCell.elems, dirtyRows := u.curCell.dirtyRows } ∧
  (∀ e, e ≠ s.cur.elem → u.curCell.elem e = s.curCell.elem e) ∧
  (∀ x, x ≠ s.cur.ctx → u.curElem.ctx x = s.curElem.ctx x)

/-- The module without what token traffic moves: the cells, the census, the tokens on their way, the reservation requests, the
next identifier, the windows of the streams and the idle marks of the regions. -/
def State.rest (s : State) : State :=
  let window := fun (k : Stream) => { k with popped := 0 }
  let mark := fun (r : Region) => { r with reported := false, idle := 0, idleSince := 0 }
  { s with cells := [], census := [], flights := [], grants := [], nextId := 0, streams := s.streams.map window
           regions := s.regions.map mark }

/-- The module outside the cells is as before, but for token traffic. -/
def LeavesModule (s u : State) : Prop := u.rest = s.rest

/-- The predicates after an entry's PSET and PCLR (R168). -/
def State.entryPreds (s : State) (t : Fin 64) (p : BitVec 8) : BitVec 8 :=
  (p ||| BitVec.ofNat 8 (eSet (s.entry t))) &&& ~~~(BitVec.ofNat 8 (eClr (s.entry t)))

/-- A firing under entry t that completes, changing at most the listed registers and masks of its context, with the predicates p
before the entry's effects and the flags fl (R168, R192, R228). -/
def Fired (s u : State) (t : Fin 64) (regs masks : List Nat) (p : BitVec 8) (fl : Nat) : Prop :=
  LeavesModule s u ∧ LeavesOthers s u ∧
  (∀ n, n ∉ regs → u.vreg n = s.vreg n) ∧
  (∀ n, n ∉ masks → u.curCtx.m.getD n 0 = s.curCtx.m.getD n 0) ∧
  u.curCtx = { s.curCtx with v := u.curCtx.v, m := u.curCtx.m, p := s.entryPreds t p, fpflags := fl,
                             exhausted := s.curCtx.exhausted || eSrcend (s.entry t), seq := s.curCtx.seq + 1 }

/-- A firing that writes registers only. -/
def FiredRegs (s u : State) (t : Fin 64) (regs : List Nat) : Prop :=
  Fired s u t regs [] s.curCtx.p s.curCtx.fpflags

/-- The firing took its cycle and n extra ones, and its context is the last fired (R167, R170). -/
def Took (s u : State) (n : Nat) : Prop :=
  u.curElem.lastFired = s.cur.ctx ∧ u.curElem.occupant = none ∧
  u.curElem.busyUntil = s.time + (1 + n) * s.vPeriod (dieOf s.cur.cell)

/-! The shapes of the statements about instructions that compute on registers: each says that the instruction completes, what it
delivers, what it leaves and how many extra cycles it takes. -/

/-- A result of 32 bits, or of 64 under w. -/
def Computes (i : Instr) (s : State) (t : Fin 64) (n : Nat) (w : Bool) (d : Dst) (f : Nat → Word) (g : Nat → BitVec 64) : Prop :=
  Completes i s fun u => DeliveredSel s u t w d f g ∧ FiredRegs s u t (dstRegs w d) ∧ Took s u n

/-- A result of 32 bits. -/
def Computes32 (i : Instr) (s : State) (t : Fin 64) (n : Nat) (d : Dst) (f : Nat → Word) : Prop :=
  Completes i s fun u => Delivered s u t d f ∧ FiredRegs s u t (dstRegs false d) ∧ Took s u n

/-- A result of 32 bits with the flags that the lanes of m0 raise. -/
def ComputesFp (i : Instr) (s : State) (t : Fin 64) (n : Nat) (d : Dst) (f : Nat → Word × Nat) : Prop :=
  Completes i s fun u => Delivered s u t d (fun l => (f l).1) ∧
    Fired s u t (dstRegs false d) [] s.curCtx.p (Nat.lor s.curCtx.fpflags (flagsOver s.m0 f % 64)) ∧ Took s u n

/-- A whole mask. -/
def ComputesMask (i : Instr) (s : State) (t : Fin 64) (d : MaskReg) (fl : Nat) (m : LaneMask) : Prop :=
  Completes i s fun u => u.mask d = m ∧ Fired s u t [] [d.val] s.curCtx.p (Nat.lor s.curCtx.fpflags (fl % 64)) ∧
    u.flights = s.flights ∧ Took s u 0

/-- A predicate, before the entry's PSET and PCLR. -/
def ComputesPred (i : Instr) (s : State) (t : Fin 64) (d : PredReg) (b : Bool) : Prop :=
  Completes i s fun u => Fired s u t [] [] (setPred s.curCtx.p d.val b) s.curCtx.fpflags ∧ u.flights = s.flights ∧ Took s u 0

/-- A result computed lane by lane from two sources, in both widths. -/
def Computes2 (i : Instr) (s : State) (t : Fin 64) (n : Nat) (w : Bool) (d : Dst) (a b : Src)
    (f : (k : Nat) → BitVec k → BitVec k → BitVec k) : Prop :=
  Computes i s t n w d (fun l => f 32 (s.rd a l) (s.rd b l)) (fun l => f 64 (s.rdW a l) (s.rdW b l))

/-- A result computed lane by lane from one source, in both widths. -/
def Computes1 (i : Instr) (s : State) (t : Fin 64) (w : Bool) (d : Dst) (a : Src)
    (f : (k : Nat) → BitVec k → BitVec k) : Prop :=
  Computes i s t 0 w d (fun l => f 32 (s.rd a l)) (fun l => f 64 (s.rdW a l))

/-- A result computed lane by lane from one source and a shift amount, in both widths. -/
def ComputesShift (i : Instr) (s : State) (t : Fin 64) (w : Bool) (d : Dst) (a : Src) (n m : Nat → Nat)
    (f : (k : Nat) → BitVec k → Nat → BitVec k) : Prop :=
  Computes i s t 0 w d (fun l => f 32 (s.rd a l) (n l)) (fun l => f 64 (s.rdW a l) (m l))

/-- A firing that only applies its entry's effects. -/
def OnlyEffects (s u : State) (t : Fin 64) (n : Nat) : Prop :=
  FiredRegs s u t [] ∧ u.flights = s.flights ∧ Took s u n

/-- Taking a fault at a firing: one record with the firing's place, the fault's code, cause, lanes and address joins the fault queue
of the cell's die and holds the context; no effect of the firing happens, and the element's cycle is used (R41, R167, R230, R374,
R375). -/
def FaultTaken (s u : State) (profile : Nat) (f : FaultInfo) : Prop :=
  ∃ r : OpenRecord,
    (u.die (dieOf s.cur.cell)).records = (s.die (dieOf s.cur.cell)).records ++ [r] ∧
    (r.record.code, r.record.cause, r.record.lanes, r.record.addr) = f ∧
    (r.record.cell, r.record.elem, r.record.ctx, r.record.slot) = (s.cur.cell, s.cur.elem, s.cur.ctx, s.cur.slot) ∧
    (r.record.flags, r.record.opcode, r.record.profile) = (0, s.curOpcode, profile) ∧
    (r.record.asid, r.record.time, r.record.launchid) = (s.curCell.asid, s.ticks, s.launchidOf s.curCell.launchUid) ∧
    r.of = .firing s.cur.cell s.cur.elem s.cur.ctx s.cur.slot ∧ r.seq = none ∧
    u.curCtx = { s.curCtx with heldBy := s.curCtx.heldBy ++ [r.record.id] } ∧
    LeavesOthers s u ∧ u.curElem.ins = s.curElem.ins ∧ u.flights = s.flights ∧ u.census = s.census ∧ u.accs = s.accs ∧
    Took s u 0

/-- An instruction whose firing takes a fault. -/
def TakesFault (i : Instr) (s : State) (profile : Nat) (f : FaultInfo) : Prop := Completes i s fun u => FaultTaken s u profile f

/-! Values of numbers, for the statements on floating point. -/

/-- The rational value of a number; an infinity stands beyond every finite FP32 value, a NaN has none and gets 0. -/
def fpValue : FVal → ℚ
  | .nan _ => 0
  | .inf neg => if neg then -2 ^ 200 else 2 ^ 200
  | .num neg m e => (if neg then -1 else 1) * (m : ℚ) * (2 : ℚ) ^ e

/-- The value of an FP32 lane. -/
def real32 (x : Word) : ℚ := fpValue (fpDecode .fp32 x.toNat)
/-- The lane is a NaN, a signalling NaN, a number that is finite, by its bits (R190). -/
abbrev nan32 (x : Word) : Prop := x.toNat % 2 ^ 31 > 0x7F800000
abbrev snan32 (x : Word) : Prop := nan32 x ∧ x.toNat % 2 ^ 23 < 2 ^ 22
abbrev finite32 (x : Word) : Prop := x.toNat % 2 ^ 31 < 0x7F800000

/-- The relation of a condition of FCMP (R267). -/
def fccHolds (cc : Nat) (x y : Word) : Prop :=
  match cc with
  | 0 => ¬nan32 x ∧ ¬nan32 y ∧ real32 x = real32 y
  | 1 => nan32 x ∨ nan32 y ∨ real32 x ≠ real32 y
  | 2 => ¬nan32 x ∧ ¬nan32 y ∧ real32 x < real32 y
  | 3 => ¬nan32 x ∧ ¬nan32 y ∧ real32 x ≤ real32 y
  | 4 => ¬nan32 x ∧ ¬nan32 y ∧ real32 x > real32 y
  | 5 => ¬nan32 x ∧ ¬nan32 y ∧ real32 x ≥ real32 y
  | 6 => nan32 x ∨ nan32 y
  | _ => ¬nan32 x ∧ ¬nan32 y

/-- An integer nearest to a rational in a mode of FRND (R201, R269). -/
def integralIn (k : Nat) (v : ℚ) (r : ℤ) : Prop :=
  match k with
  | 0 => |v - r| ≤ 1 / 2 ∧ (|v - r| = 1 / 2 → r % 2 = 0)
  | 1 => r = if 0 ≤ v then ⌊v⌋ else ⌈v⌉
  | 2 => r = ⌈v⌉
  | 3 => r = ⌊v⌋
  | _ => |v - r| ≤ 1 / 2 ∧ (|v - r| = 1 / 2 → |v| < |(r : ℚ)|)

/-- The limits of FCVTI's result type of k bits (R270). -/
def intMin (k : Nat) (u : Bool) : ℤ := if u then 0 else -2 ^ (k - 1)
def intMax (k : Nat) (u : Bool) : ℤ := if u then 2 ^ k - 1 else 2 ^ (k - 1) - 1
/-- A rational truncated toward zero (R270). -/
def truncInt (v : ℚ) : ℤ := if 0 ≤ v then ⌊v⌋ else ⌈v⌉

/-- The FP32 result x of an exact value y under RNE: no finite FP32 value is nearer, and on a tie x is even (R201). -/
def nearest32 (y : ℚ) (x : Word) : Prop :=
  finite32 x ∧ ∀ z : Word, finite32 z → |real32 x - y| ≤ |real32 z - y| ∧
    (|real32 x - y| = |real32 z - y| → real32 x ≠ real32 z → x.toNat % 2 = 0)

/-! Firings that give work to another unit. -/

/-- The arc of a profile, set after the entry's effects on the predicates (R115, R168). -/
def State.arcPreds (s : State) (t : Fin 64) (prof : Nat) : BitVec 8 :=
  match arcOf prof with
  | some n => setPred (s.entryPreds t s.curCtx.p) n true
  | none => s.entryPreds t s.curCtx.p

/-- A firing with no lane to act on: its entry's effects, and its arc at its end (R115, R280). -/
def EndsEmpty (s u : State) (t : Fin 64) (prof : Nat) : Prop :=
  LeavesModule s u ∧ LeavesOthers s u ∧ u.flights = s.flights ∧ Took s u 0 ∧
  u.curCtx = { s.curCtx with p := s.arcPreds t prof, exhausted := s.curCtx.exhausted || eSrcend (s.entry t)
                             seq := s.curCtx.seq + 1 }

/-- A firing that completes, whose own effect is g on the module outside the cells and f on its context. -/
def Issues (s u : State) (t : Fin 64) (g : State → State) (f : Ctx → Ctx) : Prop :=
  u.rest = (g s).rest ∧ LeavesOthers s u ∧ u.flights = s.flights ∧ Took s u 0 ∧
  u.curCtx = { f s.curCtx with p := s.entryPreds t s.curCtx.p, exhausted := s.curCtx.exhausted || eSrcend (s.entry t)
                               seq := s.curCtx.seq + 1 }

/-- A firing that completes, whose own effect is g on its own cell and f on its context. -/
def IssuesCell (s u : State) (t : Fin 64) (g : Cell → Cell) (f : Ctx → Ctx) : Prop :=
  LeavesModule s u ∧ u.flights = s.flights ∧ Took s u 0 ∧
  (∀ c, c ≠ s.cur.cell → u.cell c = s.cell c) ∧
  u.curCell = { g s.curCell with elems := u.curCell.elems } ∧
  (∀ e, e ≠ s.cur.elem → u.curCell.elem e = s.curCell.elem e) ∧
  (∀ x, x ≠ s.cur.ctx → u.curElem.ctx x = s.curElem.ctx x) ∧
  u.curCtx = { f s.curCtx with p := s.entryPreds t s.curCtx.p, exhausted := s.curCtx.exhausted || eSrcend (s.entry t)
                               seq := s.curCtx.seq + 1 }

/-- The census of every seat moved as a NOP under the same entry moves it, and n more for the firing's own seat (R182). -/
def Charged (s u : State) (t : Fin 64) (n : Int) : Prop :=
  Completes (.nop t) s fun v => ∀ q, u.partOf (some q) = v.partOf (some q) + if s.curCell.seat = some q then n else 0

/-- A firing that stays unfired and will be tested again (R41, R43, R46, R258). -/
def Stays (s u : State) (w : Wait) : Prop :=
  LeavesModule s u ∧ LeavesOthers s u ∧ u.flights = s.flights ∧ u.census = s.census ∧ u.curElem.ins = s.curElem.ins ∧
  u.curCtx = { s.curCtx with wait := some w } ∧ Took s u 0

/-- A firing that occupies its element until there is room (R282, R301, R309). -/
def Occupies (s u : State) : Prop :=
  LeavesModule s u ∧ LeavesOthers s u ∧ u.flights = s.flights ∧ u.census = s.census ∧ u.curCtx = s.curCtx ∧
  u.curElem = { s.curElem with occupant := some (s.cur.ctx, s.cur.slot), busyUntil := s.time + s.vPeriod (dieOf s.cur.cell) }

/-! Accesses at firing. -/

/-- The ASID of the accesses that the current context fires (R15, R254). -/
def State.curAsid (s : State) : Nat := s.asidOf s.cur.cell s.cur.elem s.cur.ctx

/-- The lanes' addresses translate, each from a cached translation that needs no change (R29, R35); `maps` gives frame, leaf
and page size. -/
abbrev State.maps (s : State) (k : Kind) (ls : List (Nat × Nat)) (pa leaf page : Nat → Nat) : Prop :=
  ∀ l ∈ ls, s.translateFor s.cur.cell s.curAsid k l.2 = (.ok (pa l.2) (leaf l.2) (page l.2), s)

/-- The cell has room for the lanes (R282). -/
abbrev State.room (s : State) (ls : List (Nat × Nat)) : Prop := s.outstanding s.cur.cell + ls.length ≤ 512

/-- The lanes are aligned, there is room for them, and no byte of theirs waits in the side log (R46, R281, R282). -/
abbrev State.clear (s : State) (n : Nat) (ls : List (Nat × Nat)) : Prop :=
  (∀ l ∈ ls, l.2 % n = 0) ∧ s.room ls ∧ ∀ l ∈ ls, s.curCell.pendingBytes s.curAsid l.2 n = false

/-- The parts of a new access: one per lane, in order. -/
def State.partsAt (s : State) (n : Nat) (ls : List (Nat × Nat)) (pa leaf page : Nat → Nat) (data : Nat → List Nat) (word : Nat → Nat) :
    List Part :=
  ls.map fun l => { lane := l.1, va := l.2, pa := pa l.2, size := n, leaf := leaf l.2, page := page l.2, data := data l.1, word := word l.1
                    st := .waiting, bound := [], since := s.time }

/-- The access of a firing under profile p (R107, R110, R117): acq marks a load class, rel a store class. -/
def State.newAccess (s : State) (op : AccOp) (res : Result) (prof : Nat) (acq rel : Bool) (m : LaneMask) (parts : List Part) : Access :=
  { id := s.nextId, cell := s.cur.cell, elem := s.cur.elem, ctx := s.cur.ctx, slot := s.cur.slot, opcode := s.curOpcode
    seq := s.curCtx.seq, op := op, res := res, profile := prof, m0 := m, asid := s.curAsid, parts := parts, flags := 0
    acquire := acq && (orderOf prof == 1 || orderOf prof == 3), release := rel && (orderOf prof == 2 || orderOf prof == 3)
    told := false, passed := none }

/-- The access enters the memory unit; the registers of its result are pending (R166, R282). -/
def EntersUnit (s u : State) (t : Fin 64) (a : Access) : Prop :=
  Issues s u t (fun s => { s with accs := s.accs ++ [a] }) fun k => { k with pendV := k.pendV ||| a.res.pends }

/-- A load of lanes of n bytes with a destination: it enters the memory unit as one access, and an output channel's reservation is
kept for its token; with no lane it ends at once, an output channel then sending zeros. -/
def LoadEnters (i : Instr) (s : State) (t : Fin 64) (d : Dst) (p : Profile) (w : Bool) (n : Nat) (ls : List (Nat × Nat)) : Prop :=
  (∀ pa leaf page, ls ≠ [] → d ≠ .discard → s.clear n ls → s.maps .load ls pa leaf page → Completes i s fun u =>
    EntersUnit s u t (s.newAccess .load (s.resultOf t d w) (s.profile p.val) true false s.m0
      (s.partsAt n ls pa leaf page (fun _ => []) (fun _ => 0))) ∧
    ∀ o, d = .o o → o.val < s.curElem.outs.length → u.curElem.outs.getD o.val .idle = .used) ∧
  (∀ r, ls = [] → d = .v r → Completes i s fun u => EndsEmpty s u t (s.profile p.val)) ∧
  (∀ o, ls = [] → d = .o o → s.m0 = 0 → Completes i s fun u =>
    Sent s u o.val (s.sendTag t) (fun _ => 0) ∧ Took s u 0 ∧ u.curCtx.p = s.arcPreds t (s.profile p.val))

/-- A prefetch of lanes whose translations are cached: it enters the memory unit with no result, and never faults (R42, R284). -/
def PrefetchEnters (i : Instr) (s : State) (t : Fin 64) (p : Profile) (n : Nat) (ls : List (Nat × Nat)) : Prop :=
  (ls ≠ [] → (∀ l ∈ ls, l.2 % n = 0 ∧ canonical l.2 = true) → s.outstanding s.cur.cell + ls.length ≤ 512 →
    (∀ l ∈ ls, (s.tlbHit (some s.cur.cell) (dieOf s.cur.cell) s.curAsid (l.2 % 2 ^ 57)).isSome = true) → Completes i s fun u =>
    EntersUnit s u t (s.newAccess .prefetch .none (s.profile p.val) false false s.m0
      (s.partsAt n ls (fun _ => 0) (fun _ => 0) (fun _ => 0) (fun _ => []) (fun _ => 0)))) ∧
  ((∀ l ∈ ls, l.2 % n ≠ 0 ∨ canonical l.2 = false) → s.outstanding s.cur.cell + ls.length ≤ 512 →
    Completes i s fun u => EndsEmpty s u t (s.profile p.val))

/-- A store of lanes of n bytes none of whose pages waits in the side log: it enters the memory unit as one access. -/
def StoreEnters (i : Instr) (s : State) (t : Fin 64) (p : Profile) (n : Nat) (ls : List (Nat × Nat)) (k : Kind) (op : AccOp)
    (data : Nat → List Nat) (word : Nat → Nat) : Prop :=
  (∀ pa leaf page, ls ≠ [] → (∀ l ∈ ls, l.2 % n = 0) → s.room ls →
    (∀ l ∈ ls, s.curCell.pending s.curAsid l.2 = false) → s.maps k ls pa leaf page → Completes i s fun u =>
    EntersUnit s u t (s.newAccess op .none (s.profile p.val) false true s.m0 (s.partsAt n ls pa leaf page data word))) ∧
  (ls = [] → Completes i s fun u => EndsEmpty s u t (s.profile p.val))

/-- The LANES bits of the lanes of a list that a test picks, the address of the first, and the lowest such address (R375). -/
def lanesBits (ls : List (Nat × Nat)) (f : Nat × Nat → Bool) (mark : Nat → Nat) : Nat := ((ls.filter f).map fun l => mark l.1).foldl Nat.lor 0
def lowestAddr (ls : List (Nat × Nat)) (f : Nat × Nat → Bool) : Nat := (((ls.filter f).map (·.2)).min?).getD 0
def firstAddr (ls : List (Nat × Nat)) (f : Nat × Nat → Bool) : Nat := ((ls.find? f).map (·.2)).getD 0

/-- A lane that is not aligned to n bytes is an alignment fault of the misaligned lanes (R281, R375). -/
def FaultsMisaligned (i : Instr) (s : State) (prof n : Nat) (ls : List (Nat × Nat)) (mark : Nat → Nat) : Prop :=
  let off := fun (l : Nat × Nat) => l.2 % n != 0
  (∃ l ∈ ls, off l = true) → TakesFault i s prof (0x04, 0, lanesBits ls off mark, lowestAddr ls off)

/-- Where no lane's translation waits for a walk and one refuses the access, the firing faults with the code and cause of the lowest such
lane (R41, R375). -/
def FaultsUntranslated (i : Instr) (s : State) (prof n : Nat) (k : Kind) (ls : List (Nat × Nat)) : Prop :=
  ∀ r : Nat → Trans, s.clear n ls → (∀ l ∈ ls, s.translateFor s.cur.cell s.curAsid k l.2 = (r l.2, s) ∧ r l.2 ≠ .busy) →
    let bad := fun (l : Nat × Nat) => match r l.2 with | .fault _ _ => true | _ => false
    ∀ code cause, (∃ l ∈ ls, bad l = true) → r (firstAddr ls bad) = .fault code cause →
      TakesFault i s prof (code, cause, lanesBits ls bad (fun l => 2 ^ l), firstAddr ls bad)

/-- A migrating leaf makes the firing wait for that leaf (R43). -/
def WaitsMigrating (i : Instr) (s : State) (n : Nat) (k : Kind) (ls : List (Nat × Nat)) : Prop :=
  ∀ r : Nat → Trans, s.clear n ls → (∀ l ∈ ls, s.translateFor s.cur.cell s.curAsid k l.2 = (r l.2, s) ∧ r l.2 ≠ .busy) →
    (∀ l ∈ ls, ∀ code cause, r l.2 ≠ .fault code cause) → ∀ before l after, ls = before ++ l :: after →
    (∀ b ∈ before, ∀ pa leaf lp v, r b.2 ≠ .mig pa leaf lp v) → ∀ pa leaf lp v, r l.2 = .mig pa leaf lp v →
    Completes i s fun u => Stays s u (.migLeaf lp v s.curAsid (ls.map (·.2)) k)

/-- A lane whose translation must wait, as one that joins a walk under way does, makes the firing wait for the walks of all its lanes
(R36). -/
def WaitsWalk (i : Instr) (s : State) (n : Nat) (k : Kind) (ls : List (Nat × Nat)) : Prop :=
  ∀ r : Nat → Trans, s.clear n ls → (∀ l ∈ ls, s.translateFor s.cur.cell s.curAsid k l.2 = (r l.2, s)) → (∃ l ∈ ls, r l.2 = .busy) →
    Completes i s fun u => Stays s u (.walk s.curAsid (ls.map (·.2)))

/-! Events. -/

/-- Memory after bytes are written from an address on: those bytes, and every other byte as before. -/
def WrittenAt (s u : State) (pa : Nat) (bs : List Nat) : Prop :=
  ∀ x, memRead u.mem x = if pa ≤ x ∧ x < pa + bs.length then bs.getD (x - pa) 0 % 256 else memRead s.mem x

/-- Neither a cell nor the host agent holds a copy of a line that a range meets. -/
abbrev State.uncopied (s : State) (pa n : Nat) : Prop :=
  (∀ c ∈ s.cells, ∀ l ∈ c.cch, l.pa + 128 ≤ pa ∨ pa + n ≤ l.pa) ∧ ∀ l ∈ s.hostCopies, l.pa + 128 ≤ pa ∨ pa + n ≤ l.pa

/-- No soft error stands in memory, a slice or the directory (R87). -/
abbrev State.sound (s : State) : Prop := ∀ x ∈ s.upsets, x.place ∉ [Place.memory, .sliceData, .sliceTag, .directory]

/-- A range of memory can be written at home at once: nobody holds a copy of its lines, no line is locked or under recall, and no soft error
stands. -/
abbrev State.openAt (s : State) (pa n : Nat) : Prop := s.uncopied pa n ∧ s.locks = [] ∧ s.recalls = [] ∧ s.sound

/-- The predicates of a context after the arc of a profile is set (R115). -/
def arcSet (prof : Nat) (p : BitVec 8) : BitVec 8 := match arcOf prof with | some n => setPred p n true | none => p

/-- Nothing changes in the cells but one context, and the marks of its cell's dirty rows. -/
def LeavesContexts (s u : State) (c e x : Nat) : Prop :=
  (∀ k, k ≠ c → u.cell k = s.cell k) ∧
  u.cell c = { s.cell c with elems := (u.cell c).elems, dirtyRows := (u.cell c).dirtyRows } ∧
  (∀ j, j ≠ e → (u.cell c).elem j = (s.cell c).elem j) ∧
  (u.cell c).elem e = { (s.cell c).elem e with ctxs := ((u.cell c).elem e).ctxs } ∧
  ∀ j, j ≠ x → u.ctxOf c e j = s.ctxOf c e j

/-- One record about a context's work joins the fault queue of its die, open and not yet written (R375, R377). -/
def Raised (s u : State) (c e x slot opcode flags prof : Nat) (f : FaultInfo) (what : RecordOf) (id : Nat) : Prop :=
  ∃ r : OpenRecord, (u.die (dieOf c)).records = (s.die (dieOf c)).records ++ [r] ∧ r.record.id = id ∧
    (r.record.code, r.record.cause, r.record.lanes, r.record.addr) = f ∧
    (r.record.flags, r.record.opcode, r.record.profile) = (flags, opcode, prof) ∧
    (r.record.cell, r.record.elem, r.record.ctx, r.record.slot) = (c, e, x, slot) ∧
    (r.record.asid, r.record.time) = ((s.cell c).asid, s.ticks) ∧ r.of = what ∧ r.seq = none

/-- A record that holds its context. -/
def RaisedHold (s u : State) (c e x slot opcode flags prof : Nat) (f : FaultInfo) (what : RecordOf) : Prop :=
  ∃ id, Raised s u c e x slot opcode flags prof f what id ∧
    u.ctxOf c e x = { s.ctxOf c e x with heldBy := (s.ctxOf c e x).heldBy ++ [id] } ∧ LeavesContexts s u c e x

/-! Stores that are logged. -/

/-- The entry that a store of lanes of n bytes appends to the side log of its cell for the page at g (R45, R46). -/
def State.entryAt (s : State) (prof g n : Nat) (ls : List (Nat × Nat)) (data : Nat → List Nat) (word : Nat → Nat)
    (mig : Option (Nat × Nat)) (replaying : Bool) : SideEntry :=
  { id := s.nextId, elem := s.cur.elem, ctx := s.cur.ctx, slot := s.cur.slot, opcode := s.curOpcode, seq := s.curCtx.seq
    asid := s.curAsid, page := g, profile := prof, lanes := ls.map fun l => (l.1, l.2, data l.1), reduction := none, width := n
    descs := ls.map fun l => (l.1, word l.1), mig := mig, order := orderOf prof, replaying := replaying }

/-- A firing whose stores are all logged, in one entry: it completes, as an access with nothing left to perform but that entry, and
memory is as before. -/
def LogsEntry (s u : State) (t : Fin 64) (op : AccOp) (prof : Nat) (e : SideEntry) : Prop :=
  u.accs = s.accs ++ [s.newAccess op .none prof false true s.m0 []] ∧
  (∀ c, c ≠ s.cur.cell → u.cell c = s.cell c) ∧
  u.curCell = { s.curCell with elems := u.curCell.elems, sideLog := s.curCell.sideLog ++ [e] } ∧
  (∀ a, memRead u.mem a = memRead s.mem a) ∧ u.flights = s.flights ∧ Took s u 0 ∧
  u.curCtx = { s.curCtx with p := s.entryPreds t s.curCtx.p, exhausted := s.curCtx.exhausted || eSrcend (s.entry t)
                             seq := s.curCtx.seq + 1 }

/-- A store of lanes of n bytes within one page, in the cases of the side log: on a page without a valid leaf it is logged and pushes one
record that holds no context; on a migrating leaf it is logged with that leaf and pushes none; behind an entry of its page it is logged as that
one is; with no free entry it waits (R44, R45, R46). -/
def StoreLogs (i : Instr) (s : State) (t : Fin 64) (p : Profile) (n : Nat) (ls : List (Nat × Nat)) (k : Kind) (op : AccOp)
    (mark : Nat → Nat) (data : Nat → List Nat) (word : Nat → Nat) : Prop :=
  let prof := s.profile p.val
  let fresh := ∀ l ∈ ls, s.curCell.pending s.curAsid l.2 = false
  let free := s.curCell.sideLog.length < 64
  ∀ g, ls ≠ [] → (∀ l ∈ ls, l.2 % n = 0 ∧ l.2 / 4096 * 4096 = g) → s.room ls →
  (fresh → (∀ l ∈ ls, s.translateFor s.cur.cell s.curAsid k l.2 = (.fault 0x01 0, s)) →
    (free → Completes i s fun u =>
      LogsEntry s u t op prof (s.entryAt prof g n ls data word none false) ∧
      ∃ id, Raised s u s.cur.cell s.cur.elem s.cur.ctx s.cur.slot s.curOpcode 1 prof
        (0x01, 0, lanesBits ls (fun _ => true) mark, firstAddr ls fun _ => true) (.logged s.cur.cell g s.curAsid) id) ∧
    (¬free → Completes i s fun u => Stays s u (.sideRoom 1))) ∧
  (fresh → ∀ pa leaf : Nat → Nat, ∀ lp v, (∀ l ∈ ls, s.translateFor s.cur.cell s.curAsid k l.2 = (.mig (pa l.2) (leaf l.2) lp v, s)) →
    (free → Completes i s fun u => LogsEntry s u t op prof (s.entryAt prof g n ls data word (some (lp, v)) false) ∧
      ∀ die, (u.die die).records = (s.die die).records) ∧
    (¬free → Completes i s fun u => Stays s u (.sideRoom 1))) ∧
  ∀ e, s.curCell.sideLog.find? (fun e => e.asid == s.curAsid && e.page == g) = some e →
    (free → Completes i s fun u => LogsEntry s u t op prof (s.entryAt prof g n ls data word e.mig e.replaying) ∧
      ∀ die, (u.die die).records = (s.die die).records) ∧
    (¬free → Completes i s fun u => Stays s u (.sideRoom 1))

end Sys2Proof.Machine
end

