-- ==== Sys2Proof/Certificates/Slice0/Obligations.lean ====
section
/-! DEFINITION. The statements for the provers. A statement of several clauses is the conjunction of named parts, each with the rules it
follows; the parts stand before it. -/

open Sys2Proof Sys2Proof.Machine

/-! Reset, the words, the step. -/

/-- R10, R19, R49, R56, R88, R351, R373, R377, R402, R405, R420: what a module reset leaves, before firmware's bring-up: no cell is loaded, nothing
is launched, outstanding, queued or open; time is 0; every register of the hub and of the loom dies reads its reset value. The values of DSBASEG,
DSBASEL and MIGHBASE are those of the grade that the model chose (log 3), and memory that lists nothing is the model's own (log 2). -/
def Obligations.ResetValues : Prop :=
  let s := State.reset
  Memory.wf s.mem ∧ s.cells = [] ∧ s.launches = [] ∧ s.regions = [] ∧ s.accs = [] ∧ s.flights = [] ∧ s.streams = [] ∧ s.images = [] ∧ s.saved = [] ∧
  s.upsets = [] ∧ s.time = 0 ∧ s.ticks = 0 ∧ s.dies.length = 8 ∧ s.lqueues.length = 64 ∧
  (∀ o, o ∈ [0x10000, 0x10008, 0x10020, 0x20000, 0x20008, 0x20010, 0x20018, 0x20020, 0x20030, 0x20038, 0x40008, 0x50008] → s.hubReg o = 0) ∧
  s.hubReg 0x10010 = 0x3E00000000 ∧ s.hubReg 0x10018 = 0xFA00000000 ∧ s.hubReg 0x20028 = 0xFA00000000 ∧ s.hubReg 0x40000 = 2200 ∧
  (∀ q, q < 64 → ∀ o, o ∈ [0x00, 0x08, 0x10] → s.hubReg (0x30000 + 0x20 * q + o) = 0) ∧
  (∀ d, d < 8 → s.hubReg (0x40100 + 0x10 * d) = 0x0046) ∧
  (∀ d, d < 8 → ∀ o, o ∈ [0x1000, 0x2000, 0x2008, 0x2010, 0x2018, 0x2020, 0x2028, 0x3000, 0x3008] → s.dieReg d o = 0) ∧
  (∀ d, d < 8 → (s.die d).tlb = [] ∧ (s.die d).records = [] ∧ (s.die d).changes = 0)

/-- R166: the conditions under which a slot of a context is eligible. -/
def Sys2Proof.Machine.State.eligible (s : State) (f : Firing) : Prop :=
  let c := s.cell f.cell
  let el := c.elem f.elem
  let k := el.ctx f.ctx
  let d := c.draftElem f.elem
  c.running = true ∧ c.stopped = false ∧ k.heldBy = [] ∧ k.asleep = false ∧ k.multi = none ∧ (∀ w, k.wait = some w → s.waitOver c w = true) ∧
  ∃ w i, d.slots[f.slot]? = some w ∧ decode w = some i ∧ k.pending (usesOf i) = false ∧
    let en := d.entries.getD (w.toNat / 2 ^ 26) 0
    (en / 2 ^ 56).testBit f.ctx = true ∧ (∀ n, n < 8 → en.testBit n = true → k.p.getLsbD n = (en / 2 ^ 8).testBit n) ∧
    (∀ n, n < 8 → (en / 2 ^ 16).testBit n = true → (el.chan n).tokens ≠ []) ∧
    (∀ n, n < 8 → (en / 2 ^ 24).testBit n = true → el.outs.getD n .idle = .held)

/-- R165, R166, R167: an element whose cycles are over fires an eligible slot: of the contexts after the last one fired, in rotation, the first that
has one, and of its slots the lowest; and it fires whenever some slot is eligible. -/
def Obligations.FiringsEligible : Prop := ∀ (s : State) (c e : Nat),
  let el := (s.cell c).elem e
  el.occupant = none → el.lastFired < 4 →
  (∀ f, f.cell = c → f.elem = e → s.due f = true →
    el.busyUntil ≤ s.time ∧ (∀ k ∈ el.ctxs, k.multi = none) ∧ f.ctx < 4 ∧ s.eligible f ∧
    (∀ i, i < f.slot → ¬s.eligible { f with slot := i }) ∧
    ∀ x i, x < 4 → s.eligible { f with ctx := x, slot := i } → (f.ctx + 3 - el.lastFired) % 4 ≤ (x + 3 - el.lastFired) % 4) ∧
  (∀ x i, x < 4 → s.eligible ⟨c, e, x, i⟩ → el.busyUntil ≤ s.time → (∀ k ∈ el.ctxs, k.multi = none) → ∃ f, f.cell = c ∧ f.elem = e ∧ s.due f = true)

/-- A step ends as its action did: a next state is the action's, but for the regions' idle marks (R366), a split that the change of a served launch
makes due at once (R370), and the priority loans that have become due: an armed watch whose holder is pre-empted lends, and an admission step is owed
(R160, R358). -/
def Sys2Proof.Machine.EndsAs (s : State) (o : Out) : Prop := match o with
  | .next u => ∃ v, step s = .next v ∧
      v = { u with
            regions := v.regions, hub := { u.hub with splitNext := v.hub.splitNext }, watches := v.watches
            sched := { u.sched with owed := v.sched.owed } } ∧
      (v.hub.splitNext = u.hub.splitNext ∨ v.hub.splitNext = u.time) ∧
      (v.watches = u.watches.map fun w => if w.armed && !w.woken && u.holderPreempted w.holder then { w with loan := true } else w) ∧
      v.sched.owed = (u.sched.owed || decide (v.watches ≠ u.watches)) ∧
      let unmarked := fun (r : Region) => { r with idle := 0, idleSince := 0 }
      v.regions.map unmarked = u.regions.map unmarked
  | o => step s = o

/-- What the firing f of instruction i does, in the state b: exec of i with f the current firing, whose context waits no more; errors that a next state
has overwritten in registers are gone. Of the soft errors that the firing meets in its slot, its trigger entry and the registers it reads, single-bit
ones are corrected and counted first, and a double-bit one makes it the memory uncorrectable fault, counted on the cell's die (R87, R88, R166, R376). -/
def Sys2Proof.Machine.Fires (s b : State) (f : Firing) (i : Instr) : Prop :=
  let t := { b with cur := f }.setCtx f.cell f.elem f.ctx fun k => { k with wait := none }
  let met := t.firingMeets i
  let runs := fun (t : State) => match exec i t with
    | .next u => Host.Outcome.next (u.wipeWritten i)
    | o => o
  ((∀ u ∈ s.upsets, met u = false) → EndsAs s (runs t)) ∧
  ((∀ u ∈ s.upsets, u.double = true → met u = false) → EndsAs s (runs (t.correctSingles (dieOf f.cell) met))) ∧
  ((∃ u ∈ s.upsets, u.double = true ∧ met u = true) →
    let prof := match profileOf i with | some p => t.profile p.val | none => 0
    EndsAs s (.next ((t.countUncorr (dieOf f.cell)).takeFault prof (mkFault 0x0C 0 t.m0.toNat 0))))

/-- R87, R165, R168, R376: a step whose pick is a due firing decodes the word of its slot and runs that instruction on the firing; a pick that is not due
leaves the state. An event of the machine or of the outside runs its meaning; time passes by itself, but not beyond a scrub of a slice or a loaded cell
that is due; with no pick left the first enabled event runs, else the first due firing. How a pick comes about is the model's choice (log 1), and so is
that an overdue scrub holds time back (log 23). -/
def Obligations.StepRunsDecodedInstruction : Prop := ∀ (s : State) (rest : List Pick),
  let b := { s with env := rest }
  let dues := s.sliceScrubs ++ s.cells.map fun c => s.cellScrubs.getD c.id s.time
  let passes := fun (b : State) (ps : Nat) => ∃ t, step s = .next { b with time := t } ∧ s.time ≤ t ∧ t ≤ s.time + ps ∧
    (∀ d ∈ dues, t ≤ max s.time d) ∧ ((∀ d ∈ dues, s.time + ps ≤ d) → t = s.time + ps)
  let holds := fun (b : State) (f : Firing) (i : Instr) => ∃ w, ((b.cell f.cell).draftElem f.elem).slots[f.slot]? = some w ∧ decode w = some i
  (∀ f i, s.env = .fire f :: rest → b.due f = true → holds b f i → Fires s b f i) ∧
  (∀ f, s.env = .fire f :: rest → b.due f = false → step s = .next b) ∧
  (∀ i, s.env = .event i :: rest → encode i = none → EndsAs s (exec i b)) ∧
  (∀ i, s.env = .event i :: rest → encode i ≠ none → step s = .next b) ∧
  (∀ ps, s.env = .elapse ps :: rest → passes b ps) ∧
  (∀ i, s.env = [] → s.events.find? s.changes = some i → encode i = none → EndsAs s (exec i s)) ∧
  (∀ f fs i, s.env = [] → s.events.find? s.changes = none → s.dueFirings = f :: fs → s.due f = true → holds s f i → Fires s s f i) ∧
  (s.env = [] → s.events.find? s.changes = none → s.dueFirings = [] → passes s (s.nextTime - s.time))

/-- R209 to R221: words that the spec's worked programs print, and words written out from its opcode map, decode to the instructions they stand for;
reserved encodings decode to none. -/
def Obligations.SpecWordsDecode : Prop :=
  decode 0x01906180 = some (.fmul 0 (.v 1) (.ch 0) (.c 0)) ∧
  decode 0x05BE6195 = some (.fcmp 1 1 (.ch 0) (.c 1) 5) ∧
  decode 0x088C2011 = some (.sel 2 (.o 0) (.ch 0) (.v 1) 1) ∧
  decode 0x0C000000 = some (.nop 3) ∧
  decode 0x00117FFF = some (.movi 0 (.v 5) (BitVec.ofInt 14 (-1))) ∧
  decode 0x006104E8 = some (.shri 0 (.v 4) (.v 2) true 40) ∧
  decode 0x1138C011 = some (.sysr 4 (.v 3) 0x11) ∧
  decode 0x0B170410 = some (.fence 2 2 1 0) ∧
  decode 0x0A618483 = some (.ld 2 (.v 6) 1 (.v 8) 1 true) ∧
  decode 0x02B28990 = some (.stx 0 5 2 (.c 1) 0) ∧
  decode 0x033F0985 = some (.fres 0 2 (.c 0) 2) ∧
  decode 0x05E40312 = some (.fcvt 1 (.o 0) (.v 1) (.o 1) false 2) ∧
  decode 0x01770441 = some (.ctximgSaved 0 1 (.v 4)) ∧
  decode 0x07C731F0 = some (.tnode 1 (.c 7)) ∧
  decode 0x03E72180 = some (.blnd 0 .discard 0 (.c 0) 0) ∧
  decode 0x00A00000 = none ∧ decode 0x00070000 = none ∧ decode 0x00174000 = none

/-- R209 to R221: the decoder answers exactly the well-formed instructions, each from its own one word: no bit of an encoding is dropped, and no word
has two meanings. -/
def Obligations.DecodingInvertsEncoding : Prop := ∀ (w : Word) (i : Instr), decode w = some i ↔ i.wellFormed = true ∧ encode i = some w

/-- R13, R65, R91: every step keeps memory in its canonical form, so that equal memories are equal data: addresses strictly rising, and no listed byte
equal to what an unlisted address reads as. The form is the model's own (log 2). -/
def Obligations.MemoryStaysCanonical : Prop := ∀ s s' : State, Memory.wf s.mem → step s = .next s' → Memory.wf s'.mem

/-! Tier 1: operands, the word encodings, the step. -/

/-- R173, R210: a register source reads the register's lane; a constant reads the same in every lane; a channel head reads its
payload lane, or lane 0 in every lane where the channel is one lane wide. -/
def Obligations.SourcesRead : Prop := ∀ (s : State) (r : VReg) (n : ChanNo) (c : Fin 8) (l : Nat), l < 64 →
  s.rd (.v r) l = lane (s.vreg r.val) l ∧
  s.rd (.c c) l = s.curDraft.consts.getD c.val 0 ∧
  (∀ k ks, (s.curElem.chan n.val).tokens = k :: ks →
    s.rd (.ch n) l = if bits (s.curDraft.chans.getD n.val 0) 1 0 = 0 then lane k.lanes 0 else lane k.lanes l) ∧
  (r.val % 2 = 0 → s.rdW (.v r) l = (lane (s.vreg (r.val + 1)) l) ++ (lane (s.vreg r.val) l))

/-! Integer instructions. -/

/-- R231: NOP does nothing but its entry's effects; MOV copies; MOVI writes its sign-extended immediate. -/
def Sys2Proof.Machine.MoveResults : Prop := ∀ (s : State) (t : Fin 64) (d : Dst) (a : Src) (w : Bool) (imm : BitVec 14), s.placed →
  Completes (.nop t) s (fun u => OnlyEffects s u t 0) ∧
  ((Instr.mov t d a w).wellFormed = true → Computes1 (.mov t d a w) s t w d a fun _ x => x) ∧
  Computes32 (.movi t d imm) s t 0 d fun _ => BitVec.ofInt 32 imm.toInt

/-- R232, R229: sums, differences and products modulo 2^w, and the high halves of the signed and unsigned products; a product under
.w takes one extra cycle. -/
def Sys2Proof.Machine.AddMultiplyResults : Prop :=
  ∀ (s : State) (t : Fin 64) (d : Dst) (a b : Src) (c : VReg) (w : Bool) (imm : BitVec 9), s.placed →
  Computes32 (.iaddi t d a imm) s t 0 d (fun l => BitVec.ofInt 32 ((s.rd a l).toInt + imm.toInt)) ∧
  Computes32 (.imad t d a b c) s t 0 d
    (fun l => BitVec.ofNat 32 ((s.rd a l).toNat * (s.rd b l).toNat + (lane (s.vreg c.val) l).toNat)) ∧
  ((Instr.iadd t d a b w).wellFormed = true →
    Computes2 (.iadd t d a b w) s t 0 w d a b (fun k x y => BitVec.ofNat k (x.toNat + y.toNat)) ∧
    Computes2 (.isub t d a b w) s t 0 w d a b (fun k x y => BitVec.ofInt k (x.toInt - y.toInt)) ∧
    Computes2 (.imulLo t d a b w) s t w.toNat w d a b (fun k x y => BitVec.ofNat k (x.toNat * y.toNat)) ∧
    Computes2 (.imulHi t d a b w) s t w.toNat w d a b (fun k x y => BitVec.ofInt k (x.toInt * y.toInt / 2 ^ k)) ∧
    Computes2 (.imulHin t d a b w) s t w.toNat w d a b (fun k x y => BitVec.ofNat k (x.toNat * y.toNat / 2 ^ k)))

/-- R233: signed and unsigned minimum and maximum, the absolute value, and the clamps between b and c, where c wins. -/
def Sys2Proof.Machine.MinMaxResults : Prop :=
  ∀ (s : State) (t : Fin 64) (d : Dst) (a b : Src) (c : Fin 8) (w : Bool), s.placed →
  Computes32 (.iclamp t d a b c) s t 0 d
    (fun l => BitVec.ofInt 32 (min (max (s.rd a l).toInt (s.rd b l).toInt) (lane (s.vreg c.val) l).toInt)) ∧
  Computes32 (.uclamp t d a b c) s t 0 d
    (fun l => BitVec.ofNat 32 (min (max (s.rd a l).toNat (s.rd b l).toNat) (lane (s.vreg c.val) l).toNat)) ∧
  ((Instr.iabs t d a w).wellFormed = true →
    Computes1 (.iabs t d a w) s t w d a fun k x => if 0 ≤ x.toInt then x else BitVec.ofInt k (-x.toInt)) ∧
  ((Instr.imin t d a b w).wellFormed = true →
    Computes2 (.imin t d a b w) s t 0 w d a b (fun k x y => BitVec.ofInt k (min x.toInt y.toInt)) ∧
    Computes2 (.imax t d a b w) s t 0 w d a b (fun k x y => BitVec.ofInt k (max x.toInt y.toInt)) ∧
    Computes2 (.umin t d a b w) s t 0 w d a b (fun k x y => BitVec.ofNat k (min x.toNat y.toNat)) ∧
    Computes2 (.umax t d a b w) s t 0 w d a b (fun k x y => BitVec.ofNat k (max x.toNat y.toNat)))

/-- R231, R232, R233: moves, sums, products, minima, maxima and clamps. -/
def Obligations.ArithmeticResults : Prop :=
  MoveResults ∧ AddMultiplyResults ∧ MinMaxResults

/-- The quotient and the remainder that R234 writes out, signed and unsigned. -/
def Sys2Proof.Machine.sQuot (k : Nat) (a b : BitVec k) : BitVec k :=
  if b = 0 then BitVec.ofNat k (2 ^ k - 1)
  else if a.toInt = -(2 ^ (k - 1) : Nat) ∧ b.toInt = -1 then BitVec.ofInt k (-(2 ^ (k - 1) : Nat))
  else BitVec.ofInt k (a.toInt.tdiv b.toInt)
def sRem (k : Nat) (a b : BitVec k) : BitVec k :=
  if b = 0 then a
  else if a.toInt = -(2 ^ (k - 1) : Nat) ∧ b.toInt = -1 then 0
  else BitVec.ofInt k (a.toInt - a.toInt.tdiv b.toInt * b.toInt)
def uQuot (k : Nat) (a b : BitVec k) : BitVec k :=
  if b = 0 then BitVec.ofNat k (2 ^ k - 1) else BitVec.ofNat k (a.toNat / b.toNat)
def uRem (k : Nat) (a b : BitVec k) : BitVec k :=
  if b = 0 then a else BitVec.ofNat k (a.toNat - a.toNat / b.toNat * b.toNat)

/-- R234: the divide forms, their encodings, and that no flag and no fault arises; R229: their extra cycles. -/
def Obligations.DivisionResults : Prop :=
  ∀ (s : State) (t : Fin 64) (d : Dst) (a b : Src) (w : Bool), s.placed → (Instr.idiv t d a b w).wellFormed = true →
  (Computes2 (.idiv t d a b w) s t (if w then 23 else 11) w d a b sQuot ∧
   Computes2 (.udiv t d a b w) s t (if w then 23 else 11) w d a b uQuot ∧
   Computes2 (.irem t d a b w) s t (if w then 23 else 11) w d a b sRem ∧
   Computes2 (.urem t d a b w) s t (if w then 23 else 11) w d a b uRem) ∧
  (encodeFields (.idiv t d a b w) = some ⟨t.val, 0x12, d.code, a.code, b.code, 8 * w.toNat⟩ ∧
   encodeFields (.udiv t d a b w) = some ⟨t.val, 0x12, d.code, a.code, b.code, 1 + 8 * w.toNat⟩ ∧
   encodeFields (.irem t d a b w) = some ⟨t.val, 0x12, d.code, a.code, b.code, 2 + 8 * w.toNat⟩ ∧
   encodeFields (.urem t d a b w) = some ⟨t.val, 0x12, d.code, a.code, b.code, 3 + 8 * w.toNat⟩)

/-- R235: the logical forms bit by bit, and their encodings. -/
def Obligations.LogicResults : Prop :=
  ∀ (s : State) (t : Fin 64) (d : Dst) (a b : Src) (w : Bool), s.placed → (Instr.band t d a b w).wellFormed = true →
  (∃ f g h i n : (k : Nat) → BitVec k → BitVec k → BitVec k,
    (∀ k x y j, j < k →
      (f k x y).getLsbD j = (x.getLsbD j && y.getLsbD j) ∧ (g k x y).getLsbD j = (x.getLsbD j || y.getLsbD j) ∧
      (h k x y).getLsbD j = (x.getLsbD j != y.getLsbD j) ∧ (i k x y).getLsbD j = (x.getLsbD j && !y.getLsbD j) ∧
      (n k x y).getLsbD j = !x.getLsbD j) ∧
    Computes2 (.band t d a b w) s t 0 w d a b f ∧ Computes2 (.bor t d a b w) s t 0 w d a b g ∧
    Computes2 (.bxor t d a b w) s t 0 w d a b h ∧ Computes2 (.bandn t d a b w) s t 0 w d a b i ∧
    Computes2 (.bnot t d a w) s t 0 w d a a n) ∧
  (encodeFields (.band t d a b w) = some ⟨t.val, 0x0A, d.code, a.code, b.code, 8 * w.toNat⟩ ∧
   encodeFields (.bor t d a b w) = some ⟨t.val, 0x0A, d.code, a.code, b.code, 1 + 8 * w.toNat⟩ ∧
   encodeFields (.bxor t d a b w) = some ⟨t.val, 0x0A, d.code, a.code, b.code, 2 + 8 * w.toNat⟩ ∧
   encodeFields (.bandn t d a b w) = some ⟨t.val, 0x0A, d.code, a.code, b.code, 3 + 8 * w.toNat⟩ ∧
   encodeFields (.bnot t d a w) = some ⟨t.val, 0x0A, d.code, a.code, 0, 4 + 8 * w.toNat⟩) ∧
  ∀ x : BitVec 32, x.toNat / 2 ^ 19 % 128 = 0x0A → x.toNat % 8 ≥ 5 → decode x = none

/-- R236: the shifts and the rotate, by a register amount modulo w or by an immediate. -/
def Sys2Proof.Machine.ShiftResults : Prop :=
  ∀ (s : State) (t : Fin 64) (d : Dst) (a b : Src) (w : Bool) (n : Fin 64), s.placed →
  ∃ shl shr sar rol : (k : Nat) → BitVec k → Nat → BitVec k,
  (∀ k x m, m < k →
    (shl k x m).toNat = x.toNat * 2 ^ m % 2 ^ k ∧ (shr k x m).toNat = x.toNat / 2 ^ m ∧
    (sar k x m).toInt = x.toInt / 2 ^ m ∧
    (∀ j, j < k → (rol k x m).getLsbD ((j + m) % k) = x.getLsbD j)) ∧
  ((Instr.shl t d a b w).wellFormed = true →
    ComputesShift (.shl t d a b w) s t w d a (fun l => (s.rd b l).toNat % 32) (fun l => (s.rd b l).toNat % 64) shl ∧
    ComputesShift (.shr t d a b w) s t w d a (fun l => (s.rd b l).toNat % 32) (fun l => (s.rd b l).toNat % 64) shr ∧
    ComputesShift (.sar t d a b w) s t w d a (fun l => (s.rd b l).toNat % 32) (fun l => (s.rd b l).toNat % 64) sar ∧
    ComputesShift (.rol t d a b w) s t w d a (fun l => (s.rd b l).toNat % 32) (fun l => (s.rd b l).toNat % 64) rol) ∧
  ((Instr.shli t d a w n).wellFormed = true →
    ComputesShift (.shli t d a w n) s t w d a (fun _ => n.val) (fun _ => n.val) shl ∧
    ComputesShift (.shri t d a w n) s t w d a (fun _ => n.val) (fun _ => n.val) shr ∧
    ComputesShift (.sari t d a w n) s t w d a (fun _ => n.val) (fun _ => n.val) sar ∧
    ComputesShift (.roli t d a w n) s t w d a (fun _ => n.val) (fun _ => n.val) rol)

/-- Position and length of the control word of R237. -/
def Sys2Proof.Machine.ctlPos (c : Nat) : Nat := c % 64
def ctlLen (k c : Nat) : Nat := if ctlPos c ≥ k then 0 else min (c / 256 % 64) (k - ctlPos c)

/-- BFX as R237 writes it out: the field shifted down, its length's bits kept, and sign-extended where signed. -/
def Sys2Proof.Machine.extractField (sx : Bool) (k : Nat) (a : BitVec k) (c : Nat) : BitVec k :=
  let f := a.toNat / 2 ^ ctlPos c % 2 ^ ctlLen k c
  if ctlLen k c = 0 then 0
  else if sx = true ∧ 2 ^ (ctlLen k c - 1) ≤ f then BitVec.ofInt k ((f : Int) - (2 ^ ctlLen k c : Nat))
  else BitVec.ofNat k f

/-- R237, R238: field extraction and insertion, the bit counts and the bit reversal. -/
def Sys2Proof.Machine.BitFieldResults : Prop :=
  ∀ (s : State) (t : Fin 64) (d : Dst) (a b : Src) (c : VReg) (w sx : Bool), s.placed →
  Computes32 (.bfi t d a b c) s t 0 d (fun l =>
    let p := ctlPos (s.rd b l).toNat
    let n := ctlLen 32 (s.rd b l).toNat
    let old := (lane (s.vreg c.val) l).toNat
    BitVec.ofNat 32 (old / 2 ^ (p + n) * 2 ^ (p + n) + (s.rd a l).toNat % 2 ^ n * 2 ^ p + old % 2 ^ p)) ∧
  ((Instr.bfx t d a b w sx).wellFormed = true →
    ComputesShift (.bfx t d a b w sx) s t w d a (fun l => (s.rd b l).toNat) (fun l => (s.rd b l).toNat) (extractField sx)) ∧
  ((Instr.clz t d a w).wellFormed = true → ∃ rev : (k : Nat) → BitVec k → BitVec k,
    (∀ k x j, j < k → (rev k x).getLsbD j = x.getLsbD (k - 1 - j)) ∧
    Computes1 (.clz t d a w) s t w d a (fun k x => BitVec.ofNat k ((List.range k).takeWhile fun j => !x.getMsbD j).length) ∧
    Computes1 (.popc t d a w) s t w d a (fun k x => BitVec.ofNat k ((List.range k).filter fun j => x.getLsbD j).length) ∧
    Computes1 (.brev t d a w) s t w d a rev)

/-- R236, R237, R238: shifts, rotations, bit fields and bit counts. -/
def Obligations.ShiftAndFieldResults : Prop :=
  ShiftResults ∧ BitFieldResults

/-- The relation of a condition code of R239. -/
def Sys2Proof.Machine.ccHolds (cc : Nat) (x y : Int) : Prop :=
  match cc with
  | 0 => x = y
  | 1 => x ≠ y
  | 2 => x < y
  | 3 => x ≤ y
  | 4 => x > y
  | _ => x ≥ y

/-- R239, R240: the compares write a whole mask, 0 outside m0, and SEL takes a where the named mask bit is set. -/
def Obligations.CompareSelectResults : Prop :=
  ∀ (s : State) (t : Fin 64) (m : MaskReg) (d : Dst) (a b : Src) (k : Fin 8) (n : MaskReg), s.placed → k.val < 6 →
  (∃ x, (∀ l, l < 64 → (x.getLsbD l = true ↔ inMask s.m0 l = true ∧ ccHolds k.val (s.rd a l).toInt (s.rd b l).toInt)) ∧
    ComputesMask (.icmp t m a b k) s t m 0 x) ∧
  (∃ x, (∀ l, l < 64 → (x.getLsbD l = true ↔ inMask s.m0 l = true ∧ ccHolds k.val (s.rd a l).toNat (s.rd b l).toNat)) ∧
    ComputesMask (.ucmp t m a b k) s t m 0 x) ∧
  Computes32 (.sel t d a b n) s t 0 d (fun l => if (s.mask n).getLsbD l then s.rd a l else s.rd b l)

/-! Lanes, masks, tokens and the census. -/

/-- R241, R244, R246, R229: broadcast, shuffle, rotate, compaction and the count of a mask. -/
def Sys2Proof.Machine.LaneMoveResults : Prop :=
  ∀ (s : State) (t : Fin 64) (d : Dst) (a b : Src) (n : Fin 64) (k : BitVec 9) (m : MaskReg), s.placed →
  Computes32 (.lbcast t d a n) s t 0 d (fun _ => s.rd a n.val) ∧
  Computes32 (.lshfl t d a b) s t 1 d (fun l => s.rd a ((s.rd b l).toNat % 64)) ∧
  ((Instr.lrot t d a k).wellFormed = true →
    Computes32 (.lrot t d a k) s t 0 d (fun l => s.rd a (((l : Int) - k.toInt) % 64).toNat)) ∧
  Computes32 (.lcomp t d a m) s t 1 d (fun l => match ((List.range 64).filter (s.mask m).getLsbD)[l]? with
    | some j => s.rd a j
    | none => 0) ∧
  Computes32 (.mpop t d m) s t 0 d (fun _ => BitVec.ofNat 32 ((List.range 64).filter (s.mask m).getLsbD).length)

/-- The pairwise tree of R207: lane i after r rounds. -/
def Sys2Proof.Machine.treeLane (op : Word → Word → Word) (x : Nat → Word) : Nat → Nat → Word
  | 0, i => x i
  | r + 1, i => op (treeLane op x r i) (treeLane op x r (i + 2 ^ (5 - r)))

/-- The ascending scan of R207. -/
def Sys2Proof.Machine.scanLane (op : Word → Word → Word) (x : Nat → Word) : Nat → Word
  | 0 => x 0
  | i + 1 => op (scanLane op x i) (x (i + 1))

/-- The operations of R242 by their F values, with the flags that the floating-point ones raise. -/
def Sys2Proof.Machine.lredStep (f : Nat) (x y : Word) : Word × Nat :=
  match f with
  | 0 => (x + y, 0)
  | 1 => (if x.toInt ≤ y.toInt then x else y, 0)
  | 2 => (if x.toInt ≤ y.toInt then y else x, 0)
  | 3 => (if x.toNat ≤ y.toNat then x else y, 0)
  | 4 => (if x.toNat ≤ y.toNat then y else x, 0)
  | 5 => (x &&& y, 0)
  | 6 => (x ||| y, 0)
  | 7 => (x ^^^ y, 0)
  | 8 => fadd32 x y
  | 9 => fminmax false false x y
  | _ => fminmax true false x y
def lredOp (f : Nat) (x y : Word) : Word := (lredStep f x y).1

/-- The identities of R242, and the contributions of the lanes. -/
def Sys2Proof.Machine.lredNeutral (f : Nat) : Word :=
  [0, 0x7FFFFFFF, 0x80000000, 0xFFFFFFFF, 0, 0xFFFFFFFF, 0, 0, 0x80000000, 0x7F800000, 0xFF800000].getD f 0
def contribution (s : State) (a : Src) (f l : Nat) : Word := if inMask s.m0 l then s.rd a l else lredNeutral f

/-- The flags that the tree and the scan raise in all their steps. -/
def Sys2Proof.Machine.treeFlags (f : Nat) (x : Nat → Word) : Nat → Nat → Nat
  | 0, _ => 0
  | r + 1, i => Nat.lor (Nat.lor (treeFlags f x r i) (treeFlags f x r (i + 2 ^ (5 - r))))
      (lredStep f (treeLane (lredOp f) x r i) (treeLane (lredOp f) x r (i + 2 ^ (5 - r)))).2
def scanFlags (f : Nat) (x : Nat → Word) : Nat → Nat
  | 0 => 0
  | i + 1 => Nat.lor (scanFlags f x i) (lredStep f (scanLane (lredOp f) x i) (x (i + 1))).2

/-- R207, R242, R243, R229: LRED combines the lanes of m0 and identities elsewhere by the pairwise tree, LSCAN by the ascending
scan, with the operation of each F value and the flags of every step. That lane 0 of LSCAN passes a NaN's payload is the model's choice
(log 58). -/
def Sys2Proof.Machine.ReductionResults : Prop :=
  ∀ (s : State) (t : Fin 64) (d : Dst) (a : Src) (f : Fin 16) (g : Bool), s.placed →
  (f.val < 11 → Completes (.lred t d a f) s fun u =>
    Delivered s u t d (fun _ => treeLane (lredOp f.val) (contribution s a f.val) 6 0) ∧ Took s u 5 ∧
    Fired s u t (dstRegs false d) [] s.curCtx.p (Nat.lor s.curCtx.fpflags (treeFlags f.val (contribution s a f.val) 6 0 % 64))) ∧
  let k := if g then 8 else 0
  Completes (.lscan t d a g) s fun u =>
    Delivered s u t d (fun l => scanLane (lredOp k) (contribution s a k) l) ∧ Took s u (if g then 15 else 5) ∧
    Fired s u t (dstRegs false d) [] s.curCtx.p (Nat.lor s.curCtx.fpflags (scanFlags k (contribution s a k) 63 % 64))

/-- R241 to R244: lane moves, scans and reductions. -/
def Obligations.LaneResults : Prop :=
  LaneMoveResults ∧ ReductionResults

/-- R245, R247, R248: the mask operations write all 64 bits. -/
def Sys2Proof.Machine.MaskResults : Prop :=
  ∀ (s : State) (t : Fin 64) (d a b : MaskReg) (v : Pair) (imm : BitVec 9), s.placed →
  (∃ x1 x2 x3 x4 x5 : LaneMask, (∀ l, l < 64 →
      x1.getLsbD l = ((s.mask a).getLsbD l && (s.mask b).getLsbD l) ∧
      x2.getLsbD l = ((s.mask a).getLsbD l || (s.mask b).getLsbD l) ∧
      x3.getLsbD l = ((s.mask a).getLsbD l != (s.mask b).getLsbD l) ∧
      x4.getLsbD l = ((s.mask a).getLsbD l && !(s.mask b).getLsbD l) ∧
      x5.getLsbD l = !(s.mask a).getLsbD l) ∧
    ComputesMask (.mand t d a b) s t d 0 x1 ∧ ComputesMask (.mor t d a b) s t d 0 x2 ∧
    ComputesMask (.mxor t d a b) s t d 0 x3 ∧ ComputesMask (.mandn t d a b) s t d 0 x4 ∧
    ComputesMask (.mnot t d a) s t d 0 x5) ∧
  ComputesMask (.mmov t d a) s t d 0 (s.mask a) ∧
  ComputesMask (.mfrom t d v) s t d 0 (lane (s.vreg (2 * v.val + 1)) 0 ++ lane (s.vreg (2 * v.val)) 0) ∧
  ((Instr.mseti t d imm).wellFormed = true → ∃ x : LaneMask, (∀ l, l < 64 →
      x.getLsbD l = (imm.getLsbD 8 != (match imm.toNat / 64 % 4 with
        | 0 => decide (l < imm.toNat % 64)
        | 1 => decide (imm.toNat % 64 ≤ l)
        | _ => decide (l = imm.toNat % 64)))) ∧
    ComputesMask (.mseti t d imm) s t d 0 x)

/-- R246, R247: the tests of a whole mask write a predicate, on which the entry's PSET and PCLR act afterwards; MTO writes the
halves of a mask to a pair. -/
def Sys2Proof.Machine.MaskTestResults : Prop :=
  ∀ (s : State) (t : Fin 64) (p : PredReg) (a : MaskReg) (d : PDst), s.placed →
  ComputesPred (.many t p a) s t p (decide (s.mask a ≠ 0)) ∧
  ComputesPred (.mall t p a) s t p (decide (s.mask a = BitVec.allOnes 64)) ∧
  ComputesPred (.mnone t p a) s t p (decide (s.mask a = 0)) ∧
  Completes (.mto t d a) s fun u => Took s u 0 ∧ u.flights = s.flights ∧ match d with
    | .pair k => Wrote s u (2 * k.val) (fun _ => (s.mask a).setWidth 32) ∧
        Wrote s u (2 * k.val + 1) (fun _ => (s.mask a >>> 32).setWidth 32) ∧ FiredRegs s u t [2 * k.val, 2 * k.val + 1]
    | .discard => FiredRegs s u t []

/-- R245 to R248: masks and predicates. -/
def Obligations.MaskRegisterResults : Prop :=
  MaskResults ∧ MaskTestResults

/-- R249, R250, R251: SENDT sends one token with the tag of lane 0 of A; TAGR reads the tag of a channel's head; CENS is a NOP that
also adds n to its seat's part of the census. -/
def Sys2Proof.Machine.TokenResults : Prop :=
  ∀ (s : State) (t : Fin 64) (o n : ChanNo) (a b : Src) (d : VReg) (k : BitVec 9), s.placed →
  Completes (.sendt t o a b) s (fun u =>
    Sent s u o.val (s.rd a 0) (fun l => s.rd b l) ∧ FiredRegs s u t [] ∧ Took s u 0) ∧
  (∀ x xs, (s.curElem.chan n.val).tokens = x :: xs → Completes (.tagr t d n) s fun u =>
    Wrote s u d.val (fun _ => x.tag) ∧ u.flights = s.flights ∧ FiredRegs s u t [d.val] ∧ Took s u 0) ∧
  Completes (.cens t k) s fun u => OnlyEffects s u t 0 ∧ Completes (.nop t) s fun v => ∀ q,
    u.partOf (some q) = v.partOf (some q) + if s.curCell.seat = some q then k.toInt else 0

/-! Floating point. -/

/-- R191, R263, R264: a NaN operand gives the canonical NaN, with NV where one signals and no flag where none does; the invalid cases give it
with NV; an infinity with a finite operand gives an infinity; an exact zero has the sign that R191 gives it; finite
operands give their exact sum, difference, product or fused sum, rounded once (`roundVal`, which SumsRound describes). The
instructions write that result in the lanes of m0 and raise the flags of those lanes. -/
def Obligations.FpArithmeticResults : Prop :=
  let fma := onWords3 (fpFma .fp32); let fms := onWords3 (fpFms .fp32)
  (∀ x y z, (nan32 x ∨ nan32 y → (fadd32 x y).1 = 0x7FC00000 ∧ (fsub32 x y).1 = 0x7FC00000 ∧ (fmul32 x y).1 = 0x7FC00000) ∧
    (nan32 x ∨ nan32 y ∨ nan32 z → (fma x y z).1 = 0x7FC00000 ∧ (fms x y z).1 = 0x7FC00000) ∧
    (snan32 x ∨ snan32 y → (fadd32 x y).2 = 1 ∧ (fsub32 x y).2 = 1 ∧ (fmul32 x y).2 = 1) ∧
    (snan32 x ∨ snan32 y ∨ snan32 z → (fma x y z).2 = 1 ∧ (fms x y z).2 = 1)) ∧
  (∀ x : Word, fadd32 0x7F800000 0xFF800000 = (0x7FC00000, 1) ∧ fsub32 0x7F800000 0x7F800000 = (0x7FC00000, 1) ∧
    fmul32 0x7F800000 0 = (0x7FC00000, 1) ∧ fmul32 0x80000000 0x7F800000 = (0x7FC00000, 1) ∧
    fma 0x7F800000 0 x = (0x7FC00000, 1) ∧ fms 0x7F800000 0 x = (0x7FC00000, 1) ∧
    fma 0x7F800000 0x3F800000 0xFF800000 = (0x7FC00000, 1) ∧ fms 0x7F800000 0x3F800000 0x7F800000 = (0x7FC00000, 1)) ∧
  (∀ x y z, ¬snan32 x → ¬snan32 y → ¬snan32 z →
    (nan32 x ∨ nan32 y → (fadd32 x y).2 = 0 ∧ (fsub32 x y).2 = 0 ∧ (fmul32 x y).2 = 0) ∧
    (nan32 x ∨ nan32 y ∨ (nan32 z ∧ finite32 x ∧ finite32 y) → (fma x y z).2 = 0 ∧ (fms x y z).2 = 0)) ∧
  (∀ (x : Word) (neg : Bool), finite32 x →
    let inf : Bool → Word := fun n => if n then 0xFF800000 else 0x7F800000
    fadd32 (inf neg) x = (inf neg, 0) ∧ fadd32 x (inf neg) = (inf neg, 0) ∧ fadd32 (inf neg) (inf neg) = (inf neg, 0) ∧
    fsub32 (inf neg) x = (inf neg, 0) ∧ fsub32 x (inf neg) = (inf !neg, 0) ∧ fsub32 (inf neg) (inf !neg) = (inf neg, 0) ∧
    (real32 x ≠ 0 → fmul32 (inf neg) x = (inf (neg != x.getLsbD 31), 0) ∧ fmul32 x (inf neg) = (inf (neg != x.getLsbD 31), 0))) ∧
  (∀ x y, finite32 x → finite32 y →
    (real32 x + real32 y = 0 → fadd32 x y = (if x = 0x80000000 ∧ y = 0x80000000 then 0x80000000 else 0, 0)) ∧
    (real32 x = real32 y → fsub32 x y = (if x = 0x80000000 ∧ y = 0 then 0x80000000 else 0, 0)) ∧
    (real32 x = 0 ∨ real32 y = 0 → fmul32 x y = (if x.getLsbD 31 != y.getLsbD 31 then 0x80000000 else 0, 0))) ∧
  (∀ x y z, finite32 x → finite32 y → finite32 z → ∃ p q r u v : FVal,
    (fpValue p = real32 x + real32 y ∧ fpValue q = real32 x - real32 y ∧ fpValue r = real32 x * real32 y ∧
      fpValue u = real32 x * real32 y + real32 z ∧ fpValue v = real32 x * real32 y - real32 z) ∧
    (fadd32 x y = onWords1 (fun _ => roundVal .fp32 .rne p) 0 ∧ fsub32 x y = onWords1 (fun _ => roundVal .fp32 .rne q) 0 ∧
      fmul32 x y = onWords1 (fun _ => roundVal .fp32 .rne r) 0 ∧ fma x y z = onWords1 (fun _ => roundVal .fp32 .rne u) 0 ∧
      fms x y z = onWords1 (fun _ => roundVal .fp32 .rne v) 0)) ∧
  ∀ (s : State) (t : Fin 64) (d : Dst) (a b : Src) (c : VReg), s.placed →
    ComputesFp (.fadd t d a b) s t 0 d (fun l => fadd32 (s.rd a l) (s.rd b l)) ∧
    ComputesFp (.fsub t d a b) s t 0 d (fun l => fsub32 (s.rd a l) (s.rd b l)) ∧
    ComputesFp (.fmul t d a b) s t 0 d (fun l => fmul32 (s.rd a l) (s.rd b l)) ∧
    ComputesFp (.ffma t d a b c) s t 0 d (fun l => fma (s.rd a l) (s.rd b l) (lane (s.vreg c.val) l)) ∧
    ComputesFp (.ffms t d a b c) s t 0 d (fun l => fms (s.rd a l) (s.rd b l) (lane (s.vreg c.val) l))

/-- R201, R263: a finite FP32 sum is the FP32 value nearest to the exact sum, the even one on a tie, with NX where it is not the sum; a sum
that rounds to no finite value, from half a unit beyond the largest one on, is the infinity of its sign, with OF and NX. -/
def Sys2Proof.Machine.SumsRound : Prop := ∀ x y : Word, finite32 x → finite32 y →
  let sum := real32 x + real32 y
  let bound : ℚ := (2 ^ 24 - 1 / 2) * 2 ^ 104
  (|sum| < bound → nearest32 sum (fadd32 x y).1 ∧ (fadd32 x y).2 = if real32 (fadd32 x y).1 = sum then 0 else 0x10) ∧
  (bound ≤ sum → fadd32 x y = (0x7F800000, 0x14)) ∧ (sum ≤ -bound → fadd32 x y = (0xFF800000, 0x14))

/-- The number that an element encodes in a destination of the narrowing index (R190, R193, R199). -/
def Sys2Proof.Machine.elemNumber (k c : Nat) : Option ℚ :=
  match elemVal (narrowFmt k) c with
  | .num neg m e => if c < 2 ^ elemBits (narrowFmt k) then some (fpValue (.num neg m e)) else none
  | _ => none

/-- The codes of the largest and the smallest value of each destination, its smallest normal number, and the numbers that round beyond its
limits by RNE (R190, R193, R200, R201). -/
def Sys2Proof.Machine.narrowMax (k : Nat) : Nat := [0x7F7F, 0x7BFF, 0x7E, 0x7B, 7, 0x7F, 7].getD k 0
def narrowMin (k : Nat) : Nat := [0xFF7F, 0xFBFF, 0xFE, 0xFB, 0xF, 0x80, 8].getD k 0
def narrowNormal (k : Nat) : ℚ := (2 : ℚ) ^ [(-126 : ℤ), -14, -6, -14, 0].getD k 0
def narrowsBeyond (k : Nat) (y : ℚ) : Prop :=
  match k with
  | 0 => (2 ^ 8 - 1 / 2) * 2 ^ 120 ≤ |y|
  | 1 => 65520 ≤ |y|
  | 2 => 464 < |y|
  | 3 => 61440 ≤ |y|
  | 4 => 7 ≤ |y|
  | 5 => 255 / 2 ≤ y ∨ y < -257 / 2
  | _ => 15 / 2 ≤ y ∨ y < -17 / 2
/-- The step by which the magnitudes of each destination would go on beyond its limits (R200, R203). -/
def narrowStep (k : Nat) : ℚ := [(2 : ℚ) ^ 120, 32, 32, 8192, 2, 1, 1].getD k 0
/-- The flags of a narrowing of y that gives v: NX where they differ, and UF where v is then below the smallest normal number (R200). -/
def narrowFlags (k : Nat) (y v : ℚ) : Nat := if v = y then 0 else if k < 5 ∧ |v| < narrowNormal k then 0x18 else 0x10

/-- R200, R201, R203: into each of the seven destinations, a finite lane narrows by RNE to the nearest value, the even code on a tie, and
saturates without OF or NX where it rounds beyond the limits; by SR, between two neighbours of its side, to the farther from zero
where the lane's random value is below the fraction, and beyond the limits to the limit, saturating where it would round away from it. -/
def Sys2Proof.Machine.NarrowingRounds : Prop := ∀ (k : Fin 7) (sc : Nat) (x : Word), sc < 255 → finite32 x →
  let y := real32 x * (2 : ℚ) ^ (127 - (sc : ℤ))
  let r := narrow (narrowFmt k.val) sc .rne x
  (narrowsBeyond k.val y → r = (if 0 < y then narrowMax k.val else narrowMin k.val, 0, true)) ∧
  (¬narrowsBeyond k.val y → r.2.2 = false ∧ ∃ v, elemNumber k.val r.1 = some v ∧ r.2.1 = narrowFlags k.val y v ∧
    (∀ c z, elemNumber k.val c = some z → |v - y| ≤ |z - y| ∧ (|v - y| = |z - y| → z ≠ v → r.1 % 2 = 0)) ∧
    (k.val < 5 → (2 ^ (elemBits (narrowFmt k.val) - 1) ≤ r.1 ↔ x.getLsbD 31 = true))) ∧
  (∀ (n : Nat) (v : ℚ), n < 65536 → let lim := if 0 < y then narrowMax k.val else narrowMin k.val
    elemNumber k.val lim = some v → |v| ≤ |y| → narrow (narrowFmt k.val) sc (.sr n) x =
      if (n : ℤ) < ⌊(|y| - |v|) / narrowStep k.val * 65536⌋ then (lim, 0, true) else (lim, if |v| = |y| then 0 else 0x10, false)) ∧
  ∀ (n c1 c2 : Nat) (v1 v2 : ℚ), n < 65536 → elemNumber k.val c1 = some v1 → elemNumber k.val c2 = some v2 → 0 ≤ v1 * y → 0 < v2 * y →
    |v1| ≤ |y| → |y| < |v2| → (∀ c z, elemNumber k.val c = some z → 0 ≤ z * y → |z| ≤ |v1| ∨ |v2| ≤ |z|) →
    let q := narrow (narrowFmt k.val) sc (.sr n) x
    let v := if (n : ℤ) < ⌊(|y| - |v1|) / (|v2| - |v1|) * 65536⌋ then v2 else v1
    q.2.2 = false ∧ elemNumber k.val q.1 = some v ∧ q.2.1 = narrowFlags k.val y v

/-- R200, R201, R203, R263: the rounding of a sum, and of a narrowing into each destination. -/
def Obligations.FaddAndNarrowingRound : Prop :=
  SumsRound ∧ NarrowingRounds

/-- R265: which operand FMIN and FMAX, and their propagating forms, return; NV is raised by a signalling operand alone. -/
def Sys2Proof.Machine.FpMinMaxResults : Prop :=
  (∀ mx pr x y,
    ((fminmax mx pr x y).2 = 1 ∨ (fminmax mx pr x y).2 = 0) ∧ ((fminmax mx pr x y).2 = 1 ↔ snan32 x ∨ snan32 y) ∧
    (nan32 x → nan32 y → (fminmax mx pr x y).1 = 0x7FC00000) ∧
    (pr = true → nan32 x ∨ nan32 y → (fminmax mx pr x y).1 = 0x7FC00000) ∧
    (pr = false → nan32 x → ¬nan32 y → (fminmax mx pr x y).1 = y ∧ (fminmax mx pr y x).1 = y) ∧
    (¬nan32 x → ¬nan32 y → real32 x < real32 y →
      (fminmax mx pr x y).1 = (if mx then y else x) ∧ (fminmax mx pr y x).1 = (if mx then y else x)) ∧
    (fminmax mx pr 0 0x80000000).1 = (if mx then 0 else 0x80000000) ∧
    (fminmax mx pr 0x80000000 0).1 = (if mx then 0 else 0x80000000)) ∧
  ∀ (s : State) (t : Fin 64) (d : Dst) (a b : Src), s.placed →
    ComputesFp (.fmin t d a b) s t 0 d (fun l => fminmax false false (s.rd a l) (s.rd b l)) ∧
    ComputesFp (.fmax t d a b) s t 0 d (fun l => fminmax true false (s.rd a l) (s.rd b l)) ∧
    ComputesFp (.fminp t d a b) s t 0 d (fun l => fminmax false true (s.rd a l) (s.rd b l)) ∧
    ComputesFp (.fmaxp t d a b) s t 0 d (fun l => fminmax true true (s.rd a l) (s.rd b l))

/-- R266, R267, R268: the sign edits, the compares and the classification. -/
def Sys2Proof.Machine.FpCompareResults : Prop :=
  ∀ (s : State) (t : Fin 64) (d : Dst) (a b : Src) (m : MaskReg) (k : Fin 8), s.placed →
  (∃ f g : Word → Word, ∃ h : Word → Word → Word,
    (∀ x y i, i < 32 → (f x).getLsbD i = (decide (i ≠ 31) && x.getLsbD i) ∧ (g x).getLsbD i = (decide (i = 31) != x.getLsbD i) ∧
      (h x y).getLsbD i = if i = 31 then y.getLsbD i else x.getLsbD i) ∧
    Computes32 (.fabs t d a) s t 0 d (fun l => f (s.rd a l)) ∧
    Computes32 (.fneg t d a) s t 0 d (fun l => g (s.rd a l)) ∧
    Computes32 (.fcpys t d a b) s t 0 d (fun l => h (s.rd a l) (s.rd b l))) ∧
  (∃ x fl, (∀ l, l < 64 → (x.getLsbD l = true ↔ inMask s.m0 l = true ∧ fccHolds k.val (s.rd a l) (s.rd b l))) ∧
    (fl = 1 ∨ fl = 0) ∧
    (fl = 1 ↔ ∃ l, l < 64 ∧ inMask s.m0 l = true ∧ if 2 ≤ k.val ∧ k.val ≤ 5 then nan32 (s.rd a l) ∨ nan32 (s.rd b l)
      else snan32 (s.rd a l) ∨ snan32 (s.rd b l)) ∧
    ComputesMask (.fcmp t m a b k) s t m fl x) ∧
  ∃ f : Word → Nat, (∀ x, f x < 10 ∧
      (f x = 0 ↔ x = 0xFF800000) ∧ (f x = 7 ↔ x = 0x7F800000) ∧ (f x = 3 ↔ x = 0x80000000) ∧ (f x = 4 ↔ x = 0) ∧
      (f x = 8 ↔ snan32 x) ∧ (f x = 9 ↔ nan32 x ∧ ¬snan32 x) ∧
      (f x = 2 ↔ finite32 x ∧ real32 x < 0 ∧ |real32 x| < (2 : ℚ) ^ (-126 : ℤ)) ∧
      (f x = 5 ↔ finite32 x ∧ 0 < real32 x ∧ |real32 x| < (2 : ℚ) ^ (-126 : ℤ)) ∧
      (f x = 1 ↔ finite32 x ∧ real32 x ≤ -(2 : ℚ) ^ (-126 : ℤ)) ∧ (f x = 6 ↔ finite32 x ∧ (2 : ℚ) ^ (-126 : ℤ) ≤ real32 x)) ∧
    Computes32 (.fclass t d a) s t 0 d (fun l => BitVec.ofNat 32 (2 ^ f (s.rd a l)))

/-- R269, R270, R271: rounding to an integral value, and the conversions between FP32 and the integers of 32 and 64 bits. -/
def Sys2Proof.Machine.FpIntegerResults : Prop :=
  (∀ (k : Fin 5) (x : Word), (nan32 x → (frndVal k.val x).1 = 0x7FC00000) ∧
    ((frndVal k.val x).2 = 1 ∨ (frndVal k.val x).2 = 0) ∧ ((frndVal k.val x).2 = 1 ↔ snan32 x) ∧
    (¬nan32 x → ¬finite32 x ∨ real32 x = 0 → (frndVal k.val x).1 = x) ∧
    (finite32 x → (frndVal k.val x).1.getLsbD 31 = x.getLsbD 31 ∧
      ∃ r : ℤ, real32 (frndVal k.val x).1 = r ∧ integralIn k.val (real32 x) r)) ∧
  (∀ (n : Nat) (u : Bool) (x : Word), n = 32 ∨ n = 64 →
    (nan32 x → fcvtiVal n u x = (0, 1)) ∧
    (¬nan32 x → intMin n u ≤ truncInt (real32 x) → truncInt (real32 x) ≤ intMax n u →
      fcvtiVal n u x = (wrapInt n (truncInt (real32 x)), 0)) ∧
    (¬nan32 x → truncInt (real32 x) < intMin n u → fcvtiVal n u x = (wrapInt n (intMin n u), 1)) ∧
    (¬nan32 x → intMax n u < truncInt (real32 x) → fcvtiVal n u x = (wrapInt n (intMax n u), 1))) ∧
  (∀ i : Int, |i| < 2 ^ 64 → nearest32 i (fcvtfVal i).1 ∧
    (fcvtfVal i).2 = (if real32 (fcvtfVal i).1 = i then 0 else 0x10)) ∧ fcvtfVal 0 = (0, 0) ∧
  ∀ (s : State) (t : Fin 64) (d : Dst) (a : Src) (k : Fin 8) (w u : Bool), s.placed →
    ((Instr.frnd t d a k).wellFormed = true → ComputesFp (.frnd t d a k) s t 0 d (fun l => frndVal k.val (s.rd a l))) ∧
    ((Instr.fcvti t d a w u).wellFormed = true → Completes (.fcvti t d a w u) s fun v =>
      DeliveredSel s v t w d (fun l => BitVec.ofNat 32 (fcvtiVal 32 u (s.rd a l)).1)
        (fun l => BitVec.ofNat 64 (fcvtiVal 64 u (s.rd a l)).1) ∧
      Fired s v t (dstRegs w d) [] s.curCtx.p
        (Nat.lor s.curCtx.fpflags (flagsOver s.m0 (fun l => (0, (fcvtiVal (if w then 64 else 32) u (s.rd a l)).2)) % 64)) ∧
      Took s v 0) ∧
    ComputesFp (.fcvtf t d a w u) s t 0 d (fun l => fcvtfVal (if w then (if u then ((s.rdW a l).toNat : Int) else (s.rdW a l).toInt)
      else if u then ((s.rd a l).toNat : Int) else (s.rd a l).toInt))

/-- R265 to R271: floating-point minima, maxima and comparisons, roundings to integral values, and the conversions to and from integers. -/
def Obligations.FpOrderAndIntegerResults : Prop :=
  FpMinMaxResults ∧ FpCompareResults ∧ FpIntegerResults

/-- R272, R202, R203: FCVT writes every lane of its destination with the packed encodings, 0 for lanes outside m0; it advances the SR
counter in the stochastic forms alone; overflowed lanes are reported by one token on B, or by NO where B is `_`. -/
def Sys2Proof.Machine.NarrowResults : Prop :=
  ∀ (s : State) (t : Fin 64) (d : Dst) (a : Src) (b : ODst) (sr : Bool) (k : Fin 8), s.placed →
  (Instr.fcvt t d a b sr k).wellFormed = true →
  let e := fun j => if inMask s.m0 j then narrow (narrowFmt k.val) s.scaleCode
    (if sr then .sr (srRandom (s.curDraft.consts.getD 7 0) j s.curCtx.srcnt) else .rne) (s.rd a j) else (0, 0, false)
  let packed := packElems (elemBits (narrowFmt k.val)) ((List.range 64).map fun j => (e j).1)
  let over_ := maskOf fun j => (e j).2.2
  let no := if b = .discard ∧ over_ ≠ 0 then 32 else 0
  let out := fun (n : ChanNo) (tag : Word) (xs : Nat → Lanes) =>
    (s.routeTarget s.curCell (s.routeOf s.cur.cell s.cur.elem n.val)).toList.map fun q =>
      (Producer.out s.cur.cell s.cur.elem n.val, q,
        [Token.mk tag (xs (routeWidth (s.routeOf s.cur.cell s.cur.elem n.val))) s.curCell.seat none])
  let own := match d with
    | .o n => out n (s.sendTag t) fun w => (List.range w).map fun l => lane packed l
    | _ => []
  let report := match b with
    | .o n => if over_ = 0 then [] else
        out n (BitVec.ofNat 32 (0x3C00 + narrowCode k.val)) fun _ => overflowToken over_ s.scaleCode (s.rd a)
    | .discard => []
  Completes (.fcvt t d a b sr k) s fun u =>
    u.flights.map (fun f => (f.source, f.target, f.items)) = s.flights.map (fun f => (f.source, f.target, f.items)) ++ own ++ report ∧
    (∀ r, d = .v r → ∀ l, l < 64 → lane (u.vreg r.val) l = lane packed l) ∧
    (∀ n, n ∉ dstRegs false d → u.vreg n = s.vreg n) ∧
    u.curCtx = { s.curCtx with v := u.curCtx.v, p := s.entryPreds t s.curCtx.p, seq := s.curCtx.seq + 1
                               exhausted := s.curCtx.exhausted || eSrcend (s.entry t)
                               srcnt := s.curCtx.srcnt + if sr then 1 else 0
                               fpflags := Nat.lor (Nat.lor s.curCtx.fpflags (flagsOver s.m0 (fun j => (0, (e j).2.1)) % 64)) no } ∧
    LeavesModule s u ∧ LeavesOthers s u ∧ Took s u 1

/-- R200 to R202: narrowing under scale 130 into E4M3 by RNE: encodings, flags and overflow, and the token that reports it. -/
def Sys2Proof.Machine.NarrowingWorked : Prop :=
  narrow (.flt .e4m3) 130 .rne 0x41200000 = (0x3A, 0, false) ∧ narrow (.flt .e4m3) 130 .rne 0x457A0000 = (0x7E, 0, true) ∧
  narrow (.flt .e4m3) 130 .rne 0xBC23D70A = (0x81, 0x18, false) ∧ narrow (.flt .e4m3) 130 .rne 0xFF800000 = (0xFE, 0, true) ∧
  narrow (.flt .e4m3) 130 .rne 0x7FC00000 = (0x7F, 0, false) ∧ narrow (.flt .e4m3) 130 .rne 0 = (0, 0, false) ∧
  overflowToken 0xA 130 (fun l => if l = 1 then 0x457A0000 else 0xFF800000) =
    [0xA, 0, 0x7F800000, 0x82] ++ List.replicate 12 0

/-- R191, R200: what a NaN, an infinity and the scale 255 narrow to in each destination: the canonical NaN, or 0 with NV where it has none;
an infinity, or the saturated limit of its side, reported as an overflow. -/
def Sys2Proof.Machine.NarrowingSpecials : Prop := ∀ (k : Fin 7) (sc : Nat) (mode : RoundMode) (x : Word),
  let nan := [0x7FC0, 0x7E00, 0x7F, 0x7E].getD k.val 0
  narrow (narrowFmt k.val) 255 mode x = (nan, 1, false) ∧
  (sc < 255 → nan32 x → narrow (narrowFmt k.val) sc mode x = (nan, if k.val < 4 then 0 else 1, false)) ∧
  (sc < 255 → narrow (narrowFmt k.val) sc mode 0x7F800000 =
    [(0x7F80, 0, false), (0x7C00, 0, false), (0x7E, 0, true), (0x7C, 0, false), (7, 0, true), (0x7F, 0, true), (7, 0, true)].getD k.val (0, 0, false)) ∧
  (sc < 255 → narrow (narrowFmt k.val) sc mode 0xFF800000 =
    [(0xFF80, 0, false), (0xFC00, 0, false), (0xFE, 0, true), (0xFC, 0, false), (0xF, 0, true), (0x80, 0, true), (8, 0, true)].getD k.val
      (0, 0, false))

/-- R200, R202, R203, R272: narrowing conversions: what FCVT writes and reports, the worked values of the spec, and the special values. -/
def Obligations.NarrowingResults : Prop :=
  NarrowResults ∧ NarrowingWorked ∧ NarrowingSpecials

/-- R273, R278, R279, R198: FUNP widens with one rounding, BSCALE chooses a scale, PACKB and UNPKB build and read a descriptor. -/
def Obligations.BlockHelperResults : Prop :=
  (∀ (k : Fin 7) (sc x : Nat), sc < 256 → x < 2 ^ elemBits (narrowFmt k.val) →
    (sc = 255 → widen (narrowFmt k.val) sc x = (0x7FC00000, 0)) ∧
    (sc < 255 → match elemVal (narrowFmt k.val) x with
      | .nan _ => widen (narrowFmt k.val) sc x = (0x7FC00000, 0)
      | .inf neg => widen (narrowFmt k.val) sc x = (if neg then 0xFF800000 else 0x7F800000, 0)
      | .num neg m e => finite32 (widen (narrowFmt k.val) sc x).1 →
          nearest32 (fpValue (.num neg m e) * (2 : ℚ) ^ ((sc : ℤ) - 127)) (widen (narrowFmt k.val) sc x).1)) ∧
  (∀ x y : Word, (y.getLsbD 0 = false → unpkbVal x y = BitVec.ofNat 32 (x.toNat / 256 % 256)) ∧
    (y.getLsbD 0 = true → x.toNat % 256 = 255 → unpkbVal x y = 0x7FC00000) ∧
    (y.getLsbD 0 = true → x.toNat % 256 < 255 → finite32 (unpkbVal x y) ∧
      real32 (unpkbVal x y) = (2 : ℚ) ^ (((x.toNat % 256 : Nat) : ℤ) - 127))) ∧
  ∀ (s : State) (t : Fin 64) (d : Dst) (a b : Src) (h : Bool) (k : Fin 8), s.placed →
    ((Instr.funp t d a h k).wellFormed = true → ComputesFp (.funp t d a h k) s t 0 d (fun l =>
      widen (narrowFmt k.val) s.scaleCode (elemAt (elemBits (narrowFmt k.val)) (s.src a) ((if h then 64 else 0) + l)))) ∧
    Computes32 (.packb t d a b) s t 0 d (fun l => BitVec.ofNat 32 ((s.rd a l).toNat % 256 * 256 + (s.rd b l).toNat % 256)) ∧
    Computes32 (.unpkb t d a b) s t 0 d (fun l => unpkbVal (s.rd a l) (s.rd b l)) ∧
    ∃ v : Word, Computes32 (.bscale t d a b) s t 5 d (fun _ => v) ∧
      ∀ j, (∀ l, l < j → inMask s.m0 l = false) → j < 64 → inMask s.m0 j = true →
        let k := (s.rd b j).toNat % 8
        let live := fun l => l < 64 ∧ inMask s.m0 l = true ∧ finite32 (s.rd a l) ∧ real32 (s.rd a l) ≠ 0
        ((k = 7 ∨ ∀ l, ¬live l) → v = 127) ∧
        (k < 7 → ∀ l, live l → (∀ l', live l' → |real32 (s.rd a l')| ≤ |real32 (s.rd a l)|) → ∃ g : ℤ,
          (2 : ℚ) ^ g ≤ |real32 (s.rd a l)| ∧ |real32 (s.rd a l)| < (2 : ℚ) ^ (g + 1) ∧
          (v.toNat : ℤ) = min (max (g - [127, 15, 8, 15, 2, 6, 2].getD k 0 + 127) 0) 254)

/-- R274, R191: the special functions complete with one result per lane in their number of cycles, a NaN gives the canonical NaN, and
the results of zeros, infinities and invalid operands are as listed; FEXP2 of an integer is exact. -/
def Sys2Proof.Machine.SpecialFunctionResults : Prop :=
  (∀ x, nan32 x → ∀ f ∈ [fx2fVal, flg2fVal, fexp2Val, flog2Val, frcpVal, frsqVal, fsqrtVal, fsinpVal, fcospVal],
    (f x).1 = 0x7FC00000 ∧ ((f x).2 = 1 ↔ snan32 x)) ∧
  (flg2fVal 0 = (0xFF800000, 2) ∧ flog2Val 0 = (0xFF800000, 2) ∧ frcpVal 0 = (0x7F800000, 2) ∧
    frcpVal 0x80000000 = (0xFF800000, 2) ∧ frsqVal 0x80000000 = (0xFF800000, 2) ∧ fexp2Val 0 = (0x3F800000, 0) ∧
    fsqrtVal 0x80000000 = (0x80000000, 0) ∧ fsinpVal 0x80000000 = (0x80000000, 0) ∧ fcospVal 0 = (0x3F800000, 0) ∧
    fexp2Val 0x7F800000 = (0x7F800000, 0) ∧ fexp2Val 0xFF800000 = (0, 0) ∧ frcpVal 0xFF800000 = (0x80000000, 0) ∧
    flog2Val 0xFF800000 = (0x7FC00000, 1) ∧ frsqVal 0xFF800000 = (0x7FC00000, 1) ∧ fsqrtVal 0xBF800000 = (0x7FC00000, 1) ∧
    fsinpVal 0x7F800000 = (0x7FC00000, 1) ∧ fcospVal 0xFF800000 = (0x7FC00000, 1) ∧ fx2fVal 0x7F800000 = (0x7FC00000, 1) ∧
    fexp2Val 0x43000000 = (0x7F800000, 0x14) ∧ fexp2Val 0xC3160000 = (0, 0x18)) ∧
  (∀ n : ℤ, -149 ≤ n → n ≤ 127 → ∀ x, finite32 x → real32 x = n → real32 (fexp2Val x).1 = (2 : ℚ) ^ n ∧ (fexp2Val x).2 = 0) ∧
  ∀ (s : State) (t : Fin 64) (d : Dst) (a : Src), s.placed →
    ComputesFp (.fx2f t d a) s t 1 d (fun l => fx2fVal (s.rd a l)) ∧ ComputesFp (.flg2f t d a) s t 1 d (fun l => flg2fVal (s.rd a l)) ∧
    ComputesFp (.fexp2 t d a) s t 1 d (fun l => fexp2Val (s.rd a l)) ∧ ComputesFp (.flog2 t d a) s t 1 d (fun l => flog2Val (s.rd a l)) ∧
    ComputesFp (.frcp t d a) s t 1 d (fun l => frcpVal (s.rd a l)) ∧ ComputesFp (.frsq t d a) s t 1 d (fun l => frsqVal (s.rd a l)) ∧
    ComputesFp (.fsqrt t d a) s t 7 d (fun l => fsqrtVal (s.rd a l)) ∧
    ComputesFp (.fsinp t d a) s t 3 d (fun l => fsinpVal (s.rd a l)) ∧ ComputesFp (.fcosp t d a) s t 3 d (fun l => fcospVal (s.rd a l))

/-- R204: FRCP and FRSQ lie within one unit in the last place of the exact result, whatever values the model's free choice takes (log 6); FSQRT is
correctly rounded, the FP32 value nearest to the root. -/
def Obligations.ReciprocalsWithinOneUlp : Prop := ∀ x : Word, finite32 x →
  ((2 : ℚ) ^ (-128 : ℤ) < |real32 x| → ∀ e : ℤ, (2 : ℚ) ^ e ≤ |1 / real32 x| → |1 / real32 x| < (2 : ℚ) ^ (e + 1) →
    |real32 (frcpVal x).1 - 1 / real32 x| ≤ (2 : ℚ) ^ (max e (-126) - 23)) ∧
  (0 < real32 x → ∀ e : ℤ, (2 : ℚ) ^ (2 * e) * real32 x ≤ 1 → 1 < (2 : ℚ) ^ (2 * e + 2) * real32 x →
    let r := real32 (frsqVal x).1; let u := (2 : ℚ) ^ (e - 23)
    0 < r - u ∧ (r - u) ^ 2 * real32 x ≤ 1 ∧ 1 ≤ (r + u) ^ 2 * real32 x) ∧
  (0 < real32 x → finite32 (fsqrtVal x).1 ∧ ∀ z : Word, finite32 z →
    |((real32 (fsqrtVal x).1 : ℚ) : ℝ) - √((real32 x : ℚ) : ℝ)| ≤ |((real32 z : ℚ) : ℝ) - √((real32 x : ℚ) : ℝ)|)

/-- R204, R274: the powers, the logarithms, the sine and the cosine lie within their bounds of the exact result, whatever values the model's free
choice takes (log 6): in units in the last place of the exact result, FX2F and FLG2F within one, FEXP2 and FLOG2 within two, and a subnormal result of
FEXP2 within one step; FSINP and FCOSP within 2^-22. FX2F lies in [1, 2), and FLG2F in [0, 1). -/
def Obligations.TranscendentalsWithinBounds : Prop := ∀ x : Word, finite32 x →
  let v : ℝ := ((real32 x : ℚ) : ℝ)
  let val : Word → ℝ := fun r => ((real32 r : ℚ) : ℝ)
  let within := fun (k y : ℝ) (r : Word) => finite32 r ∧ (y = 0 → val r = 0) ∧
    ∀ e : ℤ, (2 : ℝ) ^ e ≤ |y| → |y| < (2 : ℝ) ^ (e + 1) → |val r - y| ≤ k * (2 : ℝ) ^ (max e (-126) - 23)
  (within 1 ((2 : ℝ) ^ Int.fract v) (fx2fVal x).1 ∧ 1 ≤ val (fx2fVal x).1 ∧ val (fx2fVal x).1 < 2) ∧
  (∀ n : ℤ, (2 : ℝ) ^ n ≤ |v| → |v| < (2 : ℝ) ^ (n + 1) →
    within 1 (Real.logb 2 (|v| / (2 : ℝ) ^ n)) (flg2fVal x).1 ∧ 0 ≤ val (flg2fVal x).1 ∧ val (flg2fVal x).1 < 1) ∧
  (-150 < v → v < 128 → within (if v < -126 then 1 else 2) ((2 : ℝ) ^ v) (fexp2Val x).1) ∧
  (0 < v → within 2 (Real.logb 2 v) (flog2Val x).1) ∧
  (finite32 (fsinpVal x).1 ∧ |val (fsinpVal x).1 - Real.sin (Real.pi * v)| ≤ 1 / 2 ^ 22) ∧
  (finite32 (fcospVal x).1 ∧ |val (fcospVal x).1 - Real.cos (Real.pi * v)| ≤ 1 / 2 ^ 22)

/-- R274, R275: the exponent and the significand of a lane, and the scaling by a power of two with one rounding. -/
def Sys2Proof.Machine.ScaleResults : Prop :=
  (∀ x, (real32 x = 0 → ¬nan32 x → fgetxVal x = 0x80000000) ∧ (¬finite32 x → fgetxVal x = 0x7FFFFFFF) ∧
    (finite32 x → real32 x ≠ 0 → (2 : ℚ) ^ (fgetxVal x).toInt ≤ |real32 x| ∧ |real32 x| < (2 : ℚ) ^ ((fgetxVal x).toInt + 1))) ∧
  (∀ x, (finite32 x → real32 x ≠ 0 → 1 ≤ |real32 (fgetmVal x).1| ∧ |real32 (fgetmVal x).1| < 2 ∧
      ∃ n : ℤ, real32 x = real32 (fgetmVal x).1 * (2 : ℚ) ^ n) ∧
    (¬nan32 x → real32 x = 0 ∨ ¬finite32 x → fgetmVal x = (x, 0)) ∧ (nan32 x → (fgetmVal x).1 = 0x7FC00000)) ∧
  (∀ x y, (finite32 x → finite32 (fsclVal x y).1 → nearest32 (real32 x * (2 : ℚ) ^ y.toInt) (fsclVal x y).1) ∧
    (¬nan32 x → real32 x = 0 ∨ ¬finite32 x → fsclVal x y = (x, 0)) ∧ (nan32 x → (fsclVal x y).1 = 0x7FC00000)) ∧
  ∀ (s : State) (t : Fin 64) (d : Dst) (a b : Src), s.placed →
    Computes32 (.fgetx t d a) s t 0 d (fun l => fgetxVal (s.rd a l)) ∧
    ComputesFp (.fgetm t d a) s t 0 d (fun l => fgetmVal (s.rd a l)) ∧
    ComputesFp (.fscl t d a b) s t 0 d (fun l => fsclVal (s.rd a l) (s.rd b l))

/-- Special functions and scaling. -/
def Obligations.SpecialAndScaleResults : Prop :=
  SpecialFunctionResults ∧ ScaleResults

/-- R276, R277, R206: the packed half operations act on both halves of a lane, each with one rounding of the exact result; FDOT2 rounds
the sum of its two exact products, and then the sum with c. -/
def Obligations.PackedResults : Prop :=
  ∀ (s : State) (t : Fin 64) (d : Dst) (a b : Src) (h : Bool) (c : Fin 8) (v : VReg), s.placed →
  let hv := fun x => fpDecode (halfFmt h) x
  let both := fun (f : Nat → Nat × Nat) => (BitVec.ofNat 32 ((f 1).1 + 65536 * (f 65536).1), Nat.lor (f 1).2 (f 65536).2)
  let half := fun (x : Word) (p : Nat) => x.toNat / p % 65536
  ComputesFp (.hfma2 t d a b h c) s t 0 d (fun l => both fun p => roundVal (halfFmt h) .rne
    (addVal (mulVal (hv (half (s.rd a l) p)) (hv (half (s.rd b l) p))) (hv (half (lane (s.vreg c.val) l) p)))) ∧
  ComputesFp (.hadd2 t d a b h) s t 0 d (fun l => both fun p => roundVal (halfFmt h) .rne
    (addVal (hv (half (s.rd a l) p)) (hv (half (s.rd b l) p)))) ∧
  ComputesFp (.hmul2 t d a b h) s t 0 d (fun l => both fun p => roundVal (halfFmt h) .rne
    (mulVal (hv (half (s.rd a l) p)) (hv (half (s.rd b l) p)))) ∧
  ComputesFp (.fdot2 t d a b v) s t 1 d (fun l =>
    let p := fun (x : Word) (q : Nat) => fpDecode .bf16 (x.toNat / q % 65536)
    let inner := roundVal .fp32 .rne
      (addVal (mulVal (p (s.rd a l) 1) (p (s.rd b l) 1)) (mulVal (p (s.rd a l) 65536) (p (s.rd b l) 65536)))
    let r := roundVal .fp32 .rne (addVal (fpDecode .fp32 inner.1) (fpDecode .fp32 (lane (s.vreg v.val) l).toNat))
    (BitVec.ofNat 32 r.1, Nat.lor inner.2 r.2))

/-! Effects of a trigger entry. -/

/-- R168, R174, R177, R182: a firing pops one token from each channel of POP and charges the census one less for each, CINC and CDEC move the
part of its own seat, and a send charges one more and asks again for the channel's reservation. -/
def Sys2Proof.Machine.EntryEffects : Prop :=
  ∀ (s : State) (t : Fin 64) (o : ChanNo) (a b : Src), s.placed →
  let heads := (bitsSet 8 (ePop (s.entry t))).filterMap fun n => (s.curElem.chan n).tokens.head?
  let own := (if eCinc (s.entry t) then 1 else 0) - (if eCdec (s.entry t) then 1 else 0)
  let moved := fun (q : Seat) => (if s.curCell.seat = some q then own else (0 : Int)) -
    ((heads.filter fun k => k.charge == some q).length : Int)
  Completes (.nop t) s (fun u =>
    (∀ n, n < 8 → (u.curElem.chan n).tokens =
      if (ePop (s.entry t)).testBit n then (s.curElem.chan n).tokens.drop 1 else (s.curElem.chan n).tokens) ∧
    (∀ n, (u.curElem.chan n).granted = (s.curElem.chan n).granted) ∧
    u.curElem.outs = s.curElem.outs ∧ u.grants = s.grants ∧
    ∀ q, u.partOf (some q) = s.partOf (some q) + moved q) ∧
  ∀ q, s.routeTarget s.curCell (s.routeOf s.cur.cell s.cur.elem o.val) = some q → o.val < s.curElem.outs.length →
    Completes (.sendt t o a b) s fun u =>
      u.curElem.outs.getD o.val .idle = .requested ∧
      (∃ id, u.grants = s.grants ++ [⟨id, .out s.cur.cell s.cur.elem o.val, q⟩]) ∧
      ∀ k, u.partOf (some k) = s.partOf (some k) + moved k + if s.curCell.seat = some k then 1 else 0

/-- R168, R174, R182, R249 to R251: the effects of a trigger entry, and the instructions that act on tokens and the census. -/
def Obligations.EntryAndTokenEffects : Prop :=
  EntryEffects ∧ TokenResults

/-! System registers, traps and privileged instructions. -/

/-- R252, R253: SYSR reads each register, in every lane of m0. -/
def Sys2Proof.Machine.SystemRegisterReads : Prop :=
  (∀ (s : State) (t : Fin 64) (d : Dst) (n : BitVec 9), s.placed → (Instr.sysr t d n).wellFormed = true →
    (n = 0x030 ∨ n = 0x031 → s.curCell.asid = 0) →
    Computes (.sysr t d n) s t 0 (sysReg64 n.toNat) d (fun l => BitVec.ofNat 32 (s.sysValue n.toNat l))
      (fun l => BitVec.ofNat 64 (s.sysValue n.toNat l))) ∧
  (∀ n, sysReg64 n = true ↔ n = 0x010) ∧
  ∀ (s : State) (l : Nat),
    (s.sysValue 0x000 l = s.cur.cell ∧ s.sysValue 0x001 l = s.cur.cell / 256 ∧ s.sysValue 0x002 l = s.cur.elem ∧
      s.sysValue 0x003 l = s.cur.ctx ∧ s.sysValue 0x004 l = l ∧ s.sysValue 0x00A l = s.curCell.asid ∧
      s.sysValue 0x010 l = s.time / (1000 * Config.ps) % 2 ^ 64 ∧ s.sysValue 0x011 l = (s.die (s.cur.cell / 256)).grant ∧
      s.sysValue 0x020 l = s.curCtx.fpflags ∧ s.sysValue 0x021 l = s.curCtx.srcnt.toNat ∧ s.sysValue 0x022 l = s.curCtx.mwcnt ∧
      s.sysValue 0x030 l = s.curCtx.swregion.toNat ∧ s.sysValue 0x031 l = s.curCtx.xasid.toNat) ∧
    (∀ q, s.curCell.seat = some q → q.launch ≠ 0 → s.sysValue 0x006 l = q.stage ∧ s.sysValue 0x007 l = q.rep) ∧
    (∀ a, s.launch? s.curCell.launchUid = some a → s.sysValue 0x008 l = a.launchid ∧ s.sysValue 0x009 l = s.effPrio a.uid ∧
      s.sysValue 0x012 l = a.clkreq / 256 % 256 * 256 + max 4 (a.clkreq / 16 % 16) * 16 + max 6 (min 12 (a.clkreq % 16))) ∧
    ∀ r, s.regionOf s.cur.cell = some r → s.sysValue 0x005 l = r.die * 256 + r.index ∧
      ((s.sysValue 0x018 l : Int) - (r.cells.map fun c => s.partOf (s.cell c).seat).sum) % 2 ^ 32 = 0 ∧ s.sysValue 0x018 l < 2 ^ 32

/-- R252, R253: SYSW writes the value of the lowest lane of m0 to a register that can be written, and a read-only number or an empty m0
leaves only the entry's effects. -/
def Sys2Proof.Machine.SystemRegisterWrites : Prop :=
  ∀ (s : State) (t : Fin 64) (a : Src) (n : BitVec 9), s.placed → (n = 0x030 ∨ n = 0x031 → s.curCell.asid = 0) →
  (s.m0 = 0 → Completes (.sysw t a n) s fun u => OnlyEffects s u t 0) ∧
  (n ≠ 0x020 ∧ n ≠ 0x021 ∧ n ≠ 0x030 ∧ n ≠ 0x031 → Completes (.sysw t a n) s fun u => OnlyEffects s u t 0) ∧
  ∀ l, l < 64 → inMask s.m0 l = true → (∀ j, j < l → inMask s.m0 j = false) → Completes (.sysw t a n) s fun u =>
    Issues s u t id fun k =>
      { k with fpflags := if n = 0x020 then (s.rd a l).toNat % 64 else k.fpflags
               srcnt := if n = 0x021 then s.rd a l else k.srcnt
               swregion := if n = 0x030 then s.rd a l &&& 0xFFF else k.swregion
               xasid := if n = 0x031 then s.rd a l &&& 0xFFFF else k.xasid }

/-- R252, R253: every system register read and written. -/
def Obligations.SystemRegisters : Prop :=
  SystemRegisterReads ∧ SystemRegisterWrites

/-- R217, R230, R253, R257 to R260: outside ASID 0, every resident-only form takes a privilege fault and has no other effect. -/
def Obligations.PrivilegeFaults : Prop :=
  ∀ (s : State) (t : Fin 64) (a : Pair) (b : Src) (p : Profile) (d : Dst), s.placed → dieOf s.cur.cell < s.dies.length →
  s.curCell.asid ≠ 0 →
  let f : FaultInfo := (0x0E, 0, s.m0.toNat, 0)
  (TakesFault (.sysr t d 0x030) s 0 f ∧ TakesFault (.sysr t d 0x031) s 0 f ∧ TakesFault (.sysw t b 0x030) s 0 f ∧
    TakesFault (.sysw t b 0x031) s 0 f ∧ TakesFault (.draftsw t) s 0 f ∧ TakesFault (.ctximgSavef t a b) s 0 f ∧
    TakesFault (.ctximgSaved t a b) s 0 f ∧ TakesFault (.ctximgRest t a b) s 0 f) ∧
  TakesFault (.draftld t a b p) s (s.profile p.val) f ∧ TakesFault (.tlbinvPg t a b p) s (s.profile p.val) f ∧
  TakesFault (.tlbinvAs t a b p) s (s.profile p.val) f ∧ TakesFault (.tlbinvAll t a b p) s (s.profile p.val) f

/-- R255, R375, R379: TRAP and BRK apply their entry's effects and raise a record with DONE set, the immediate in ADDR and m0 in LANES; TRAP
holds its context, BRK the four contexts of its element. -/
def Sys2Proof.Machine.TrapResults : Prop :=
  ∀ (s : State) (t : Fin 64) (imm : BitVec 14), s.placed → dieOf s.cur.cell < s.dies.length →
  let raised := fun (u : State) (code : Nat) (what : RecordOf) (id : Nat) => ∃ r : OpenRecord,
    (u.die (dieOf s.cur.cell)).records = (s.die (dieOf s.cur.cell)).records ++ [r] ∧ r.record.id = id ∧
    (r.record.code, r.record.cause, r.record.lanes, r.record.addr) = (code, 0, s.m0.toNat, imm.toNat) ∧
    (r.record.flags, r.record.opcode, r.record.asid, r.record.time) = (4, s.curOpcode, s.curCell.asid, s.ticks) ∧
    (r.record.cell, r.record.elem, r.record.ctx, r.record.slot) = (s.cur.cell, s.cur.elem, s.cur.ctx, s.cur.slot) ∧
    r.of = what ∧ r.seq = none
  let done := fun (k : Ctx) => { k with p := s.entryPreds t k.p, exhausted := k.exhausted || eSrcend (s.entry t), seq := k.seq + 1 }
  Completes (.trap t imm) s (fun u => ∃ id, raised u 0x0F (.done s.cur.cell s.cur.elem s.cur.ctx) id ∧
    u.curCtx = { done s.curCtx with heldBy := s.curCtx.heldBy ++ [id] } ∧
    LeavesOthers s u ∧ u.flights = s.flights ∧ u.accs = s.accs ∧ Took s u 0) ∧
  Completes (.brk t imm) s fun u => ∃ id, raised u 0x10 (.brk s.cur.cell s.cur.elem) id ∧
    (s.cur.ctx < 4 → u.curCtx = { done s.curCtx with heldBy := s.curCtx.heldBy ++ [id] }) ∧
    (∀ x, x < 4 → x < s.curElem.ctxs.length → x ≠ s.cur.ctx →
      u.curElem.ctx x = { s.curElem.ctx x with heldBy := (s.curElem.ctx x).heldBy ++ [id] }) ∧
    (∀ c, c ≠ s.cur.cell → u.cell c = s.cell c) ∧ (∀ e, e ≠ s.cur.elem → u.curCell.elem e = s.curCell.elem e) ∧
    (∀ a, memRead u.mem a = memRead s.mem a) ∧ u.flights = s.flights ∧ u.accs = s.accs

/-- R256: TLAUNCH appends the address of the lowest lane of m0 to its launch's tail list; with no lane it only has its entry's effects; a
misaligned address is an alignment fault. -/
def Sys2Proof.Machine.TlaunchResults : Prop :=
  ∀ (s : State) (t : Fin 64) (a : Pair), s.placed →
  (s.m0 = 0 → Completes (.tlaunch t a) s fun u => OnlyEffects s u t 0) ∧
  ∀ l va, s.wordLane a = [(l, va)] →
    (va % 256 ≠ 0 → dieOf s.cur.cell < s.dies.length → TakesFault (.tlaunch t a) s 0 (0x04, 0, 2 ^ l, va)) ∧
    ∀ pa leaf page n, va % 256 = 0 → s.translateFor s.cur.cell s.curAsid .load va = (.ok pa leaf page, s) →
      s.launch? s.curCell.launchUid = some n → n.tail.length < 256 → Completes (.tlaunch t a) s fun u =>
        Issues s u t (fun s => s.setLaunch n.uid fun l => { l with tail := l.tail ++ [(s.nextId, va)] }) id

/-- R255, R256: traps, breakpoints and tail launches. -/
def Obligations.TrapAndLaunchResults : Prop :=
  TrapResults ∧ TlaunchResults

/-- R222, R257, R258: in ASID 0, DRAFTLD of images that may be read, to enabled sites, enters its reads as one load of the context, each image once,
in 8-byte words from its base and, beyond its first page, back from its last byte; with no lane it ends at once;
DRAFTSW waits for the configuration period of the region that swregion names, keeping the seats of its cells, and performs nothing where it
names none. -/
def Sys2Proof.Machine.DraftInstructions : Prop :=
  ∀ (s : State) (t : Fin 64) (a : Pair) (b : Src) (p : Profile), s.placed → s.curCell.asid = 0 →
  (s.m0 = 0 → Completes (.draftld t a b p) s fun u => EndsEmpty s u t (s.profile p.val)) ∧
  (∀ pa leaf page, let ls := (lanesOf s.m0).map fun l => (l, (s.pairVal (2 * a.val) l).toNat)
    let last := fun (va : Nat) => (va + 3135) % 2 ^ 64
    let word := fun (va i : Nat) => (va + 8 * i) % 2 ^ 64
    let at_ := fun (va i : Nat) => if word va i / 4096 = va / 4096 then va else last va
    s.m0 ≠ 0 → (∀ l ∈ ls, l.2 % 64 = 0) → (∀ l ∈ ls, s.curCell.pendingBytes s.curAsid l.2 3136 = false) →
    s.maps .draft (ls.flatMap fun l => [l, (l.1, last l.2)]) pa leaf page →
    (∀ l ∈ ls, s.siteOk (s.rd b l.1).toNat = true) → Completes (.draftld t a b p) s fun u =>
      let parts := ((ls.map (·.2)).eraseDups).flatMap fun va => (List.range 392).map fun i =>
        { lane := ((ls.find? (·.2 == va)).map (·.1)).getD 0, va := word va i, size := 8, leaf := leaf (at_ va i), page := page (at_ va i)
          pa := if at_ va i = va then pa va + 8 * i else pa (last va) + 8 * i + 1 - 3136
          data := [], word := 0, st := .waiting, bound := [], since := s.time }
      Issues s u t (fun s => { s with
        accs := s.accs ++ [s.newAccess .load .none (s.profile p.val) true false s.m0 parts]
        draftlds := s.draftlds ++ [{ id := s.nextId, cell := s.cur.cell, elem := s.cur.elem, ctx := s.cur.ctx, slot := s.cur.slot, m0 := s.m0, asid := s.curAsid, profile := s.profile p.val,
                                      seq := s.curCtx.seq, lanes := ls.map fun l => (l.1, l.2, (s.rd b l.1).toNat) }] }) id) ∧
  (s.regionNamed s.curCtx.swregion.toNat = none → Completes (.draftsw t) s fun u => OnlyEffects s u t 0) ∧
  ∀ r, s.regionNamed s.curCtx.swregion.toNat = some r → Completes (.draftsw t) s fun u => Stays s u
    (.configPeriod s.cur.slot (r.cells.filterMap fun c => (s.cell c).seat))

/-- R38, R39, R260: in ASID 0, the forms of TLBINV put a removal under way that waits for the context's earlier stores; with no lane they
end at once; the page form refuses an address that is not canonical. -/
def Sys2Proof.Machine.TlbinvInstructions : Prop :=
  ∀ (s : State) (t : Fin 64) (a : Pair) (b : Src) (p : Profile), s.placed → s.curCell.asid = 0 →
  ∀ form, form < 3 →
  let i := if form = 0 then Instr.tlbinvPg t a b p else if form = 1 then .tlbinvAs t a b p else .tlbinvAll t a b p
  (s.m0 = 0 → Completes i s fun u => EndsEmpty s u t (s.profile p.val)) ∧
  ∀ l va, s.wordLane a = [(l, va)] →
    (form = 0 → canonical va = false → dieOf s.cur.cell < s.dies.length → TakesFault i s (s.profile p.val) (0x01, 1, 2 ^ l, va)) ∧
    ((form = 0 → canonical va = true) → Completes i s fun u =>
      Issues s u t (fun s => { s with invs := s.invs ++ [
        { id := s.nextId, cell := s.cur.cell, elem := s.cur.elem, ctx := s.cur.ctx, form := form, asid := (s.rd b l).toNat % 65536
          va := va, begun := false, before := s.storesOf s.cur.cell s.cur.elem s.cur.ctx, waitFor := []
          arc := arcOf (s.profile p.val) }] }) id)

/-- R259, R380, R386: in ASID 0, the forms of CTXIMG with a page-aligned image and a live region put an image command under way, charged to
the census; the saves stop the region's cells. That an image off a page boundary is an alignment fault, with its lane and address, is DEDUCED
(log 24): R382 says only that images are aligned to pages. -/
def Sys2Proof.Machine.ContextImageInstructions : Prop :=
  ∀ (s : State) (t : Fin 64) (a : Pair) (b : Src), s.placed → s.curCell.asid = 0 →
  ∀ form, form < 3 →
  let i := if form = 0 then Instr.ctximgSavef t a b else if form = 1 then .ctximgSaved t a b else .ctximgRest t a b
  (s.m0 = 0 → Completes i s fun u => OnlyEffects s u t 0) ∧
  ∀ l va, s.wordLane a = [(l, va)] →
    (va % 4096 ≠ 0 → dieOf s.cur.cell < s.dies.length → TakesFault i s 0 (0x04, 0, 2 ^ l, va)) ∧
    ∀ r, va % 4096 = 0 → s.regionNamed (s.rd b l).toNat = some r →
      Completes i s fun u => Took s u 0 ∧
        u.images = s.images ++ [
          { id := s.nextId, cell := s.cur.cell, elem := s.cur.elem, ctx := s.cur.ctx, slot := s.cur.slot, asid := s.curAsid
            form := form, image := va, die := r.die, region := r.index, start := s.ticks, paused := none, seq := s.curCtx.seq, m0 := s.m0 }] ∧
        (∀ a, memRead u.mem a = memRead s.mem a) ∧
        (∀ c ∈ r.cells, s.loaded c = true → form < 2 → (u.cell c).stopped = true) ∧
        (∀ c, c ∉ r.cells → (u.cell c).stopped = (s.cell c).stopped) ∧
        (form < 2 → ∀ k ∈ u.regions, k.die = r.die → k.index = r.index → k.stopping = true) ∧
        (form = 2 → Issues s u t (fun s => { s with images := u.images }) id ∧ Charged s u t 1)

/-- R257 to R259: the privileged instructions in the resident space. -/
def Obligations.PrivilegedInstructions : Prop :=
  DraftInstructions ∧ TlbinvInstructions ∧ ContextImageInstructions

/-! Memory instructions at firing. -/

/-- R280, R283, R286: the lane addresses of the gather forms, of the contiguous forms and of the block forms. -/
def Obligations.EffectiveAddresses : Prop := ∀ (s : State) (a : Pair) (b : Src),
  (∀ l, l < 64 → ((s.ea a b l : Nat) : Int) = ((s.pairVal (2 * a.val) l).toNat + (s.rd b l).toInt) % 2 ^ 64) ∧
  (∀ l va, (l, va) ∈ s.gather a b ↔ l < 64 ∧ inMask s.m0 l = true ∧ va = s.ea a b l) ∧
  (∀ j, j < 64 → inMask s.m0 j = true → (∀ i, i < j → inMask s.m0 i = false) →
    (∀ n l va, (l, va) ∈ s.contig a b n ↔ l < 64 ∧ inMask s.m0 l = true ∧ va = (s.ea a b j + n * l) % 2 ^ 64) ∧
    ∀ l va, (l, va) ∈ s.blocks a b ↔ ∃ k, k < 4 ∧ l = 16 * k ∧ va = (s.ea a b j + 64 * k) % 2 ^ 64 ∧
      ∃ i, 16 * k ≤ i ∧ i < 16 * k + 16 ∧ inMask s.m0 i = true)

/-- R29, R35: a translation cached in the cell's L1 TLB serves an access that its leaf allows, without a change of state; one whose leaf
refuses the access faults; a store through an entry whose page is clean walks. -/
def Sys2Proof.Machine.CachedTranslation : Prop := ∀ (s : State) (c asid va : Nat) (k : Kind) (e : TlbEntry),
  canonical va = true → (s.cell c).tlb.find? (·.covers asid (va % 2 ^ 57)) = some e →
  let pa := e.pa + (va % 2 ^ 57 - e.va)
  (∀ f, leafFault k ((s.cell c).asid == 0) pa e.leaf = some f → s.translateFor c asid k va = (.fault f 0, s)) ∧
  (leafFault k ((s.cell c).asid == 0) pa e.leaf = none → (k.writes = true → e.dirtyAt (va % 2 ^ 57) = true) →
    s.translateFor c asid k va = (.ok pa e.leaf e.size, s))

/-- R14, R30: an address that is not canonical faults with cause 1 before any walk. -/
def Sys2Proof.Machine.NoncanonicalFaults : Prop := ∀ (s : State) (c asid va : Nat) (k : Kind),
  canonical va = (decide (va / 2 ^ 56 % 256 = 0) || decide (va / 2 ^ 56 % 256 = 255)) ∧
  (canonical va = false → s.translateFor c asid k va = (.fault 0x01 1, s))

/-- R11, R19, R29, R143, R152, R289, R291: the checks on a leaf, in their order, of a page of memory and of one of an MMIO window. -/
def Sys2Proof.Machine.LeafChecks : Prop := ∀ (k : Kind) (resident : Bool) (pa leaf : Nat),
  let rs := leaf.testBit 4
  (rs = true → resident = false → leafFault k resident pa leaf = some 0x02) ∧
  (rs = false ∨ resident = true →
    (leafOrd leaf = 3 ∨ leafCp leaf = 3 → leafFault k resident pa leaf = some 0x03) ∧
    (leafOrd leaf ≠ 3 → leafCp leaf ≠ 3 → inMmio pa = false →
      (k.writes = true → leaf.testBit 2 = false → leafFault k resident pa leaf = some 0x02) ∧
      (k.writes = false ∨ leaf.testBit 2 = true →
        (k = .load ∨ k = .store ∨ k = .atomic ∨ k = .waita → leafFault k resident pa leaf = none) ∧
        (k = .draft → leafFault k resident pa leaf = if leaf.testBit 3 then none else some 0x02) ∧
        (k = .future → leafFault k resident pa leaf = if leafOrd leaf = 2 then some 0x03 else none) ∧
        (k = .mwcas → leafFault k resident pa leaf = if leafOrd leaf = 2 ∨ leafSm leaf = true then some 0x03 else none) ∧
        (k = .ldx ∨ k = .stx → leafFault k resident pa leaf = if leafDsc leaf then none else some 0x05))) ∧
    (leafOrd leaf ≠ 3 → leafCp leaf ≠ 3 → inMmio pa = true →
      let plain := leafOrd leaf = 0 ∧ leafCp leaf = 2 ∧ leafDsc leaf = false ∧ leafSm leaf = false
      (¬plain → leafFault k resident pa leaf = some 0x03) ∧
      (plain → (k.writes = true → leaf.testBit 2 = false → leafFault k resident pa leaf = some 0x02) ∧
        (k.writes = false ∨ leaf.testBit 2 = true →
          (k = .atomic ∨ k = .mwcas ∨ k = .waita ∨ k = .future → leafFault k resident pa leaf = some 0x03) ∧
          (k = .ldx ∨ k = .stx → leafFault k resident pa leaf = some 0x05) ∧
          (k = .load ∨ k = .store → leafFault k resident pa leaf = if resident = false ∧ rsRegister pa = true then some 0x0E else none)))))

/-- R14, R29, R35: translation from a cached entry, non-canonical addresses, and the checks of a leaf. -/
def Obligations.TranslationResults : Prop :=
  CachedTranslation ∧ NoncanonicalFaults ∧ LeafChecks

/-- R283, R284, R286: the loads enter the memory unit with the addresses of their form, or are prefetches under `_`. -/
def Obligations.LoadsEnter : Prop :=
  ∀ (s : State) (t : Fin 64) (d : Dst) (a : Pair) (b : Src) (p : Profile) (w : Bool), s.placed →
  (LoadEnters (.ld t d a b p w) s t d p w (if w then 8 else 4) (s.gather a b) ∧
   LoadEnters (.ldb8 t d a b p) s t d p false 1 (s.gather a b) ∧
   LoadEnters (.ldh16 t d a b p) s t d p false 2 (s.gather a b) ∧
   LoadEnters (.ldc t d a b p w) s t d p w (if w then 8 else 4) (s.contig a b (if w then 8 else 4))) ∧
  (PrefetchEnters (.ld t .discard a b p w) s t p (if w then 8 else 4) (s.gather a b) ∧
   PrefetchEnters (.ldb8 t .discard a b p) s t p 1 (s.gather a b) ∧
   PrefetchEnters (.ldh16 t .discard a b p) s t p 2 (s.gather a b) ∧
   PrefetchEnters (.ldc t .discard a b p w) s t p (if w then 8 else 4) (s.contig a b (if w then 8 else 4)) ∧
   PrefetchEnters (.ldx t .discard a b p) s t p 64 (s.blocks a b)) ∧
  ∀ k : Fin 8, (∀ pa leaf page, s.blocks a b ≠ [] → s.clear 64 (s.blocks a b) → s.maps .ldx (s.blocks a b) pa leaf page →
      (∀ l ∈ s.blocks a b, badLoadCode (s.ownDesc (pa l.2) (leaf l.2)) = false) → Completes (.ldx t (.pair k) a b p) s fun u =>
      EntersUnit s u t (s.newAccess .load (.ldx (2 * k.val)) (s.profile p.val) true false s.m0
        (s.partsAt 64 (s.blocks a b) pa leaf page (fun _ => []) (fun _ => 0)))) ∧
    (s.blocks a b = [] → Completes (.ldx t (.pair k) a b p) s fun u => EndsEmpty s u t (s.profile p.val))

/-- R285, R287: the stores enter the memory unit with the bytes of their lanes, STX with whole blocks and their descriptors. -/
def Sys2Proof.Machine.StoresTranslated : Prop :=
  ∀ (s : State) (t : Fin 64) (d : Src) (a v : Pair) (b : Src) (p : Profile) (w : Bool), s.placed →
  let whole := fun l => leBytes (if w then 8 else 4) (if w then (s.rdW d l).toNat else (s.rd d l).toNat)
  let desc := fun l => (lane (s.vreg (2 * v.val + 1)) (l / 16)).toNat % 65536
  StoreEnters (.st t d a b p w) s t p (if w then 8 else 4) (s.gather a b) .store .store whole (fun _ => 0) ∧
  StoreEnters (.stb8 t d a b p) s t p 1 (s.gather a b) .store .store (fun l => leBytes 1 (s.rd d l).toNat) (fun _ => 0) ∧
  StoreEnters (.sth16 t d a b p) s t p 2 (s.gather a b) .store .store (fun l => leBytes 2 (s.rd d l).toNat) (fun _ => 0) ∧
  StoreEnters (.stc t d a b p w) s t p (if w then 8 else 4) (s.contig a b (if w then 8 else 4)) .store .store whole (fun _ => 0) ∧
  ((∀ l ∈ s.blocks a b, desc l.1 / 256 < 0x0A) →
    StoreEnters (.stx t v a b p) s t p 64 (s.blocks a b) .stx .stx
      (fun l => (List.range 16).flatMap fun i => leBytes 4 (lane (s.vreg (2 * v.val)) (l + i)).toNat) desc)

/-- R44, R45, R46, R285, R287: a store that meets no page of memory yet is kept in the side log of its cell. -/
def Sys2Proof.Machine.StoresLogged : Prop :=
  ∀ (s : State) (t : Fin 64) (d : Src) (a v : Pair) (b : Src) (p : Profile) (w : Bool), s.placed → dieOf s.cur.cell < s.dies.length →
  let whole := fun l => leBytes (if w then 8 else 4) (if w then (s.rdW d l).toNat else (s.rd d l).toNat)
  let desc := fun l => (lane (s.vreg (2 * v.val + 1)) (l / 16)).toNat % 65536
  StoreLogs (.st t d a b p w) s t p (if w then 8 else 4) (s.gather a b) .store .store (fun l => 2 ^ l) whole (fun _ => 0) ∧
  StoreLogs (.stb8 t d a b p) s t p 1 (s.gather a b) .store .store (fun l => 2 ^ l) (fun l => leBytes 1 (s.rd d l).toNat) (fun _ => 0) ∧
  StoreLogs (.sth16 t d a b p) s t p 2 (s.gather a b) .store .store (fun l => 2 ^ l) (fun l => leBytes 2 (s.rd d l).toNat) (fun _ => 0) ∧
  StoreLogs (.stc t d a b p w) s t p (if w then 8 else 4) (s.contig a b (if w then 8 else 4)) .store .store (fun l => 2 ^ l) whole
    (fun _ => 0) ∧
  ((∀ l ∈ s.blocks a b, desc l.1 / 256 < 0x0A) →
    StoreLogs (.stx t v a b p) s t p 64 (s.blocks a b) .stx .stx (fun l => Nat.land s.m0.toNat (0xFFFF * 2 ^ l))
      (fun l => (List.range 16).flatMap fun i => leBytes 4 (lane (s.vreg (2 * v.val)) (l + i)).toNat) desc)

/-- R44 to R46, R285, R287: stores at firing, with pages that are mapped and with pages that are logged. -/
def Obligations.StoresEnter : Prop :=
  StoresTranslated ∧ StoresLogged

/-- R41, R281, R375: a misaligned lane of a load, a store, an atomic or a future form faults the firing, as does a lane whose translation
refuses a load; a migrating leaf makes a load wait. -/
def Obligations.MemoryFaultsAtFiring : Prop :=
  ∀ (s : State) (t : Fin 64) (d : Dst) (e : Src) (r : RDst) (a : Pair) (b : Src) (p : Profile) (w : Bool), s.placed →
  dieOf s.cur.cell < s.dies.length →
  let n := if w then 8 else 4
  let prof := s.profile p.val
  let one := fun l => 2 ^ l
  let lanes := (lanesOf s.m0).map fun l => (l, (s.pairVal (2 * a.val) l).toNat)
  (∀ x ∈ s.accs, x.id ≠ s.nextId) →
  (d ≠ .discard → FaultsMisaligned (.ld t d a b p w) s prof n (s.gather a b) one ∧
    FaultsMisaligned (.ldh16 t d a b p) s prof 2 (s.gather a b) one ∧
    FaultsMisaligned (.ldc t d a b p w) s prof n (s.contig a b n) one ∧
    FaultsUntranslated (.ld t d a b p w) s prof n .load (s.gather a b) ∧
    FaultsUntranslated (.ldc t d a b p w) s prof n .load (s.contig a b n) ∧
    WaitsMigrating (.ld t d a b p w) s n .load (s.gather a b)) ∧
  FaultsMisaligned (.st t e a b p w) s prof n (s.gather a b) one ∧
  FaultsMisaligned (.sth16 t e a b p) s prof 2 (s.gather a b) one ∧
  FaultsMisaligned (.stc t e a b p w) s prof n (s.contig a b n) one ∧
  FaultsMisaligned (.aadd t r a b p w) s prof n lanes one ∧ FaultsMisaligned (.acas t r a b p w) s prof n lanes one ∧
  FaultsMisaligned (.fres t a b p) s prof 8 lanes one

/-- R288, R32: LDS reads the cell's scratchpad within its firing, and STS writes it, the highest lane of m0 winning on a common byte. -/
def Obligations.ScratchpadResults : Prop :=
  ∀ (s : State) (t : Fin 64) (d : Dst) (e a b : Src) (p : Profile) (w : Bool), s.placed →
  let n := if w then 8 else 4
  let spa := fun l => (s.rd a l + s.rd b l).toNat
  (∀ l, l < 64 → inMask s.m0 l = true → spa l % n = 0 ∧ spa l < 2 ^ 20 ∧ s.curCell.role (spa l / 8192) = .scr) →
  ((∀ x ∈ s.upsets, x.place ≠ .sram s.cur.cell) → d ≠ .discard → dstW w d = true → Completes (.lds t d a b p w) s fun u =>
    DeliveredSel s u t w d (fun l => BitVec.ofNat 32 (memNat s.curCell.sram (spa l) 4))
      (fun l => BitVec.ofNat 64 (memNat s.curCell.sram (spa l) 8)) ∧
    LeavesModule s u ∧ LeavesOthers s u ∧ (∀ j, j ∉ dstRegs w d → u.vreg j = s.vreg j) ∧
    u.curCtx.p = s.arcPreds t (s.profile p.val) ∧ Took s u 0) ∧
  Completes (.lds t .discard a b p w) s (fun u => EndsEmpty s u t (s.profile p.val)) ∧
  Completes (.sts t e a b p w) s fun u =>
    (∀ x, (∀ l, l < 64 → inMask s.m0 l = true → ¬(spa l ≤ x ∧ x < spa l + n)) → memRead u.curCell.sram x = memRead s.curCell.sram x) ∧
    (∀ l i, l < 64 → inMask s.m0 l = true → i < n →
      (∀ j, l < j → j < 64 → inMask s.m0 j = true → ¬(spa j ≤ spa l + i ∧ spa l + i < spa j + n)) →
      memRead u.curCell.sram (spa l + i) = (if w then (s.rdW e l).toNat else (s.rd e l).toNat) / 256 ^ i % 256) ∧
    u.rest = { s.rest with upsets := u.upsets } ∧ (∀ c, c ≠ s.cur.cell → u.cell c = s.cell c) ∧
    u.curCell = { s.curCell with elems := u.curCell.elems, sram := u.curCell.sram, dirtyRows := u.curCell.dirtyRows } ∧
    u.flights = s.flights ∧ (∀ j, u.vreg j = s.vreg j) ∧ u.curCtx.p = s.arcPreds t (s.profile p.val) ∧ Took s u 0

/-! Atomics at firing. -/

/-- An atomic without a destination enters as a reduction, one with a destination as an access that returns the old values (R140, R141). -/
def Sys2Proof.Machine.AtomicEnters (i : RDst → Instr) (s : State) (t : Fin 64) (op : Nat) (a : Pair) (b : Src) (p : Profile) (w : Bool) :
    Prop :=
  let n := if w then 8 else 4
  let ls := (lanesOf s.m0).map fun l => (l, (s.pairVal (2 * a.val) l).toNat)
  let data := fun l => leBytes n (if w then (s.rdW b l).toNat else (s.rd b l).toNat)
  (∀ d, s.m0 = 0 → Completes (i d) s fun u => EndsEmpty s u t (s.profile p.val)) ∧
  ∀ pa leaf page, s.m0 ≠ 0 → (∀ l ∈ ls, l.2 % n = 0) → s.room ls → (∀ l ∈ ls, s.curCell.pending s.curAsid l.2 = false) →
    s.maps .atomic ls pa leaf page →
    let red := s.newAccess (.atomic op) .none (s.profile p.val) true true s.m0 (s.partsAt n ls pa leaf page data fun _ => 0)
    (∀ r : VReg, Completes (i (.v r)) s fun u =>
      EntersUnit s u t (s.newAccess (.atomic op) (.regs r.val (if w then 2 else 1)) (s.profile p.val) true true s.m0
        (s.partsAt n ls pa leaf page data
          fun l => if w then (s.pairVal r.val l).toNat else (lane (s.vreg r.val) l).toNat))) ∧
    Completes (i .discard) s (fun u => u.accs = s.accs ++ [red] ∧ u.flights = s.flights ∧ Took s u 0 ∧
      u.curCtx = { s.curCtx with p := s.entryPreds t s.curCtx.p, exhausted := s.curCtx.exhausted || eSrcend (s.entry t)
                                 seq := s.curCtx.seq + 1 } ∧
      ((∀ l ∈ ls, leafSm (leaf l.2) = false) → (∀ x ∈ s.accs, x.id ≠ s.nextId) →
        LeavesOthers s u ∧ u.rest = { s.rest with merges := u.merges, accs := u.accs })) ∧
    (0x5D < op → Completes (i .discard) s fun u => EntersUnit s u t red)

/-- R139, R140, R141, R142: the nine atomics enter the memory unit with their operation, operands and comparands. -/
def Sys2Proof.Machine.AtomicsEnter : Prop :=
  ∀ (s : State) (t : Fin 64) (a : Pair) (b : Src) (p : Profile) (w : Bool), s.placed →
  AtomicEnters (fun d => .aadd t d a b p w) s t 0x58 a b p w ∧ AtomicEnters (fun d => .amin t d a b p w) s t 0x59 a b p w ∧
  AtomicEnters (fun d => .amax t d a b p w) s t 0x5A a b p w ∧ AtomicEnters (fun d => .aand t d a b p w) s t 0x5B a b p w ∧
  AtomicEnters (fun d => .aor t d a b p w) s t 0x5C a b p w ∧ AtomicEnters (fun d => .axor t d a b p w) s t 0x5D a b p w ∧
  AtomicEnters (fun d => .axch t d a b p w) s t 0x5E a b p w ∧ AtomicEnters (fun d => .acas t d a b p w) s t 0x5F a b p w ∧
  AtomicEnters (fun d => .afadd t d a b p w) s t 0x60 a b p w

/-- R139, R141, R142: what each atomic leaves in a word of 32 or 64 bits; AFADD acts on each 32-bit half. -/
def Sys2Proof.Machine.AtomicOperations : Prop := ∀ (k old b cmp : Nat), k = 32 ∨ k = 64 → old < 2 ^ k → b < 2 ^ k →
  let o := BitVec.ofNat k old; let x := BitVec.ofNat k b
  atomicNew 0x58 k old b cmp = ((o + x).toNat, 0, true) ∧
  atomicNew 0x59 k old b cmp = ((BitVec.ofInt k (min o.toInt x.toInt)).toNat, 0, true) ∧
  atomicNew 0x5A k old b cmp = ((BitVec.ofInt k (max o.toInt x.toInt)).toNat, 0, true) ∧
  atomicNew 0x5B k old b cmp = ((o &&& x).toNat, 0, true) ∧ atomicNew 0x5C k old b cmp = ((o ||| x).toNat, 0, true) ∧
  atomicNew 0x5D k old b cmp = ((o ^^^ x).toNat, 0, true) ∧ atomicNew 0x5E k old b cmp = (b, 0, true) ∧
  (old = cmp → atomicNew 0x5F k old b cmp = (b, 0, true)) ∧ (old ≠ cmp → atomicNew 0x5F k old b cmp = (old, 0, false)) ∧
  let lo := fadd32 (BitVec.ofNat 32 old) (BitVec.ofNat 32 b)
  let hi := fadd32 (BitVec.ofNat 32 (old / 2 ^ 32)) (BitVec.ofNat 32 (b / 2 ^ 32))
  (k = 32 → atomicNew 0x60 k old b cmp = (lo.1.toNat, lo.2, true)) ∧
  (k = 64 → atomicNew 0x60 k old b cmp = (lo.1.toNat + 2 ^ 32 * hi.1.toNat, Nat.lor lo.2 hi.2, true))

/-- R139 to R143: atomics at firing, and what each computes at home. -/
def Obligations.AtomicResults : Prop :=
  AtomicsEnter ∧ AtomicOperations

/-- R149 to R152: MWCAS reads the header of its block (h is the state after that), then the block with the entries that the header counts (b
is the state after that), and with no defect in it puts the operation under way; a block with a defect is a parameter fault; with no lane it
ends at once. What a defect is: a count not from 1 to 8, a header byte other than 0 after it, a block across its page, an entry off 8 bytes, or
two entries at one address. That the reads happen within the firing, and that ADDR is the block's address, is the model's choice (log 27). -/
def Obligations.MwcasEnters : Prop :=
  ∀ (s b : State) (t : Fin 64) (d : PDst) (a : Pair) (q : PredReg) (p : Profile), s.placed →
  (s.m0 = 0 → Completes (.mwcas t d a q p) s fun u => EndsEmpty s u t (s.profile p.val)) ∧
  (∀ va n bs es, (mwHeadBad va n bs = true ↔ n = 0 ∨ 8 < n ∨ (∃ x ∈ (bs.take 16).drop 1, x ≠ 0) ∨ 4096 < va % 4096 + 16 + 24 * n) ∧
    (mwBad va n bs es = true ↔ mwHeadBad va n bs = true ∨ (∃ e ∈ es, e.1 % 8 ≠ 0) ∨ ¬(es.map (·.1)).Nodup)) ∧
  ∀ l va, s.wordLane a = [(l, va)] →
    (va % 16 ≠ 0 → dieOf s.cur.cell < s.dies.length → TakesFault (.mwcas t d a q p) s (s.profile p.val) (0x04, 0, 2 ^ l, va)) ∧
    let reads := fun (s : State) (pa leaf n : Nat) (bs : List Nat) (u : State) =>
      s.curCell.pendingBytes s.curAsid va n = false ∧
      s.descriptionWaits s.cur.cell s.cur.elem s.cur.ctx s.curCtx.seq s.curAsid va pa leaf n = false ∧
      s.blockBytes s.cur.cell pa leaf va n = .ok bs u ∧ u.cur = s.cur
    ∀ h pa leaf page head, va % 16 = 0 → s.translateFor s.cur.cell s.curAsid .load va = (.ok pa leaf page, s) → inMmio pa = false →
      reads s pa leaf 16 head h →
      (mwHeadBad va (fieldAt head 0 1) head = true → dieOf h.cur.cell < h.dies.length →
        Completes (.mwcas t d a q p) s fun u => FaultTaken h u (s.profile p.val) (0x07, 0, 2 ^ l, va)) ∧
      ∀ bs, mwHeadBad va (fieldAt head 0 1) head = false → reads h pa leaf (16 + 24 * fieldAt head 0 1) bs b →
      let n := fieldAt bs 0 1
      let es := mwEntries n bs
      (mwBad va n bs es = true → dieOf b.cur.cell < b.dies.length →
        Completes (.mwcas t d a q p) s fun u => FaultTaken b u (s.profile p.val) (0x07, 0, 2 ^ l, va)) ∧
      ∀ at_ leaf' page' : Nat → Nat, mwBad va n bs es = false → (∀ e ∈ es, b.curCell.pending s.curAsid e.1 = false) →
        (∀ e ∈ es, b.translateFor s.cur.cell s.curAsid .mwcas e.1 = (.ok (at_ e.1) (leaf' e.1) (page' e.1), b)) →
        (es.map fun e => at_ e.1).Nodup →
        Completes (.mwcas t d a q p) s fun u =>
          let dst := match d with | .pair k => some (2 * k.val) | .discard => none
          Issues b u t (fun b => { b with mwops := b.mwops ++ [
            { id := b.nextId, fired := b.time, pages := es.map fun e => page' e.1, cell := s.cur.cell, elem := s.cur.elem, ctx := s.cur.ctx
              slot := s.cur.slot, seq := b.curCtx.seq, dst := dst, pred := q.val, profile := s.profile p.val, m0 := b.m0, asid := s.curAsid
              block := va, entries := es.map fun e => (e.1, at_ e.1, e.2.1, e.2.2), locked := [], phase := .waiting
              elder := decide (4 ≤ b.curCtx.mwcnt), start := 0, since := b.time, unacked := [] }] })
            fun k => { k with pendV := k.pendV ||| (match dst with | some r => regsMask r 2 | none => 0) }

/-- R158, R159: WAITA of the lowest lane of m0 enters the memory unit and its context sleeps; WAKE enters with its count. -/
def Sys2Proof.Machine.WaitAndWakeEnter : Prop :=
  ∀ (s : State) (t : Fin 64) (d : RDst) (a : Pair) (b : Src) (p : Profile) (w : Bool), s.placed →
  let n := if w then 8 else 4
  (s.m0 = 0 → Completes (.waita t d a b p w) s (fun u => EndsEmpty s u t (s.profile p.val)) ∧
    Completes (.wake t a b p) s fun u => EndsEmpty s u t (s.profile p.val)) ∧
  ∀ l va pa leaf page, s.wordLane a = [(l, va)] → s.translateFor s.cur.cell s.curAsid .waita va = (.ok pa leaf page, s) →
    (s.clear n [(l, va)] → (∀ x ∈ s.accs, x.id ≠ s.nextId) → Completes (.waita t d a b p w) s fun u =>
      let a := s.newAccess .waita (match d with | .v r => .regs r.val (if w then 2 else 1) | .discard => .none) (s.profile p.val) true false
        (1#64 <<< l) (s.partsAt n [(l, va)] (fun _ => pa) (fun _ => leaf) (fun _ => page)
          (fun _ => leBytes n (if w then (s.rdW b l).toNat else (s.rd b l).toNat)) fun _ => 0)
      Issues s u t (fun s => { s with accs := s.accs ++ [a] }) fun k => { k with pendV := k.pendV ||| a.res.pends, asleep := true }) ∧
    (s.clear 4 [(l, va)] → Completes (.wake t a b p) s fun u =>
      EntersUnit s u t (s.newAccess .wake .none (s.profile p.val) false true s.m0
        (s.partsAt 4 [(l, va)] (fun _ => pa) (fun _ => leaf) (fun _ => page) (fun _ => []) fun l => (s.rd b l).toNat)))

/-- R289, R291, R293: FREG and FRES enter the memory unit with one future per lane of m0, FREG with acquire and release and its join records,
FRES with release; none may lie on a UO page. -/
def Sys2Proof.Machine.FutureFormsEnter : Prop :=
  ∀ (s : State) (t : Fin 64) (a : Pair) (b : Src) (p : Profile), s.placed →
  let fs := (lanesOf s.m0).map fun l => (l, (s.pairVal (2 * a.val) l).toNat)
  let js := (lanesOf s.m0).map fun l => (l, s.ea a b l)
  (s.m0 = 0 → Completes (.freg t a b p) s (fun u => EndsEmpty s u t (s.profile p.val)) ∧
    Completes (.fres t a b p) s fun u => EndsEmpty s u t (s.profile p.val)) ∧
  ∀ pa leaf page, s.m0 ≠ 0 → (∀ l ∈ fs, l.2 % 8 = 0 ∧ s.curCell.pending s.curAsid l.2 = false) → s.room fs →
    s.maps .future fs pa leaf page →
    (Completes (.fres t a b p) s fun u => EntersUnit s u t
      { s.newAccess .fres .none (s.profile p.val) false true s.m0 (s.partsAt 8 fs pa leaf page (fun _ => []) fun _ => 0) with
        release := true }) ∧
    ∀ pa' leaf' page', s.maps .future js pa' leaf' page' → (∀ l ∈ js, l.2 % 16 = 0 ∧ s.curCell.pending s.curAsid l.2 = false) →
      Completes (.freg t a b p) s fun u => EntersUnit s u t
        { s.newAccess .freg .none (s.profile p.val) true true s.m0 (s.partsAt 8 fs pa leaf page (fun _ => []) fun l => s.ea a b l) with
          acquire := true, release := true }

/-- R289, R290, R291: the words of a future: unresolved with no waiter, with one, resolved, resolved with an arrival sent; and the refused steps. -/
def Sys2Proof.Machine.FutureSteps : Prop := ∀ f j : Nat, f < 2 ^ 64 → j < 2 ^ 64 → j % 4 = 0 →
  (f / 2 ^ 62 = 0 → futureStep true f j = (some (2 ^ 62 + j / 4), none, none) ∧ futureStep false f j = (some (2 ^ 63), none, none)) ∧
  (f = 2 ^ 62 + j / 4 → futureStep true f j = (none, none, some 0x08) ∧ futureStep false f j = (some (2 ^ 63 + j / 4), some j, none)) ∧
  (f / 2 ^ 62 = 2 → futureStep true f j = (none, some j, none) ∧ futureStep false f j = (none, none, some 0x08)) ∧
  (f / 2 ^ 62 = 3 → futureStep true f j = (none, none, some 0x05) ∧ futureStep false f j = (none, none, some 0x05))

/-- R158, R159, R290 to R293: WAITA, WAKE and the futures. -/
def Obligations.WaitsAndFuturesEnter : Prop :=
  WaitAndWakeEnter ∧ FutureFormsEnter ∧ FutureSteps

/-- R120, R121, R131: a FENCE with nothing to wait for only has its entry's effects and its arc; otherwise it marks the accesses, commands and
operations of its context that its first set names and that are not performed at its scope, and, with l, the commands whose own descriptions are not
read yet, and holds back its second set until they are. -/
def Sys2Proof.Machine.FenceEnters : Prop :=
  ∀ (s : State) (t : Fin 64) (bef aft : Fin 16) (p : Profile), s.placed →
  let mine := fun c e x => sameCtx c e x s.cur.cell s.cur.elem s.cur.ctx
  (bef.val = 0 ∨ ((∀ x ∈ s.accs, mine x.cell x.elem x.ctx = false) ∧ (∀ x ∈ s.mwops, mine x.cell x.elem x.ctx = false) ∧
      s.commandsOf s.cur.cell s.cur.elem s.cur.ctx = []) →
    Completes (.fence t bef aft p) s fun u => EndsEmpty s u t (s.profile p.val)) ∧
  let scope := scopeOf (s.profile p.val)
  let waits := fun (u : State) (marked reads : List Nat) => Issues s u t (fun s => { s with fences := s.fences ++ [
    ⟨s.nextId, s.cur.cell, s.cur.elem, s.cur.ctx, s.curCtx.seq, aft.val, scope, marked, reads, arcOf (s.profile p.val)⟩] }) id
  (∀ a ∈ s.accs, mine a.cell a.elem a.ctx = true → a.op ≠ .prefetch → Nat.land (s.accClasses scope a) bef.val ≠ 0 →
    Completes (.fence t bef aft p) s fun u => ∃ marked reads, a.id ∈ marked ∧ waits u marked reads) ∧
  (∀ m ∈ s.mwops, mine m.cell m.elem m.ctx = true → Nat.land bef.val 3 ≠ 0 →
    Completes (.fence t bef aft p) s fun u => ∃ marked reads, m.id ∈ marked ∧ waits u marked reads) ∧
  (∀ id ∈ s.commandsOf s.cur.cell s.cur.elem s.cur.ctx, bef.val.testBit 3 = true →
    Completes (.fence t bef aft p) s fun u => ∃ marked reads, id ∈ marked ∧ waits u marked reads) ∧
  ∀ id ∈ s.unread s.cur.cell s.cur.elem s.cur.ctx s.curCtx.seq, bef.val.testBit 0 = true →
    Completes (.fence t bef aft p) s fun u => ∃ marked reads, id ∈ reads ∧ waits u marked reads

/-- R101, R102, R104: WBR and INVR check every page of their ranges as loads and enter the memory unit with one part per page; a range that is
too long or leaves the address space is an alignment fault; with no range they end at once. -/
def Sys2Proof.Machine.MaintenanceEnters : Prop :=
  ∀ (s : State) (t : Fin 64) (a : Pair) (b : Src) (p : Profile) (w : Bool), s.placed →
  let prof := s.profile p.val
  let rs := ((lanesOf s.m0).map fun l => (l, (s.pairVal (2 * a.val) l).toNat, (s.rd b l).toNat)).filter fun r => r.2.2 != 0
  let bad := fun (r : Nat × Nat × Nat) => decide (r.2.2 > 0x01000000) || !canonical ((r.2.1 + r.2.2 - 1) % 2 ^ 64)
  let go := fun (i : Instr) (op : AccOp) =>
    (rs = [] → Completes i s fun u => EndsEmpty s u t prof) ∧
    (∀ r, dieOf s.cur.cell < s.dies.length → rs.find? bad = some r → TakesFault i s prof
      (0x04, 0, ((rs.filter bad).map fun x => 2 ^ x.1).foldl Nat.lor 0, r.2.1)) ∧
    ∀ pa leaf page, rs ≠ [] → (∀ r ∈ rs, bad r = false) →
      let pages := rs.flatMap fun r => pageParts r.1 r.2.1 r.2.2
      s.maps .load (pages.map fun g => (g.1, g.2.1)) pa leaf page → Completes i s fun u =>
        EntersUnit s u t (s.newAccess op .none prof (op != .wbr) (op == .wbr) s.m0 (pages.map fun g =>
          { lane := g.1, va := g.2.1, pa := pa g.2.1, size := g.2.2, leaf := leaf g.2.1, page := page g.2.1, data := [], word := 0, st := .waiting
            bound := [], since := s.time }))
  go (.wbr t a b p) .wbr ∧ go (.invr t a b p w) (.inv w)

/-- R101 to R104, R120, R121: fences and cache maintenance. -/
def Obligations.FenceAndMaintenanceEnter : Prop :=
  FenceEnters ∧ MaintenanceEnters

/-! Engine commands at firing. -/

/-- R294, R301: the shuttle commands enter their cell's queue with the address of their block, charged to the census; a misaligned block is an
alignment fault, a full queue makes the firing occupy its element, and with no lane the firing ends at once. -/
def Sys2Proof.Machine.ShuttleCommandsEnter : Prop :=
  ∀ (s : State) (t : Fin 64) (a : Pair) (b : Src) (p : Profile), s.placed →
  ∀ op, op < 3 →
  let i := if op = 0 then Instr.shcpy t a b p else if op = 1 then .shtile t a b p else .shmcast t a b p
  (s.m0 = 0 → Completes i s fun u => EndsEmpty s u t (s.profile p.val)) ∧
  ∀ l, l < 64 → inMask s.m0 l = true → (∀ j, j < l → inMask s.m0 j = false) →
    let va := s.ea a b l
    (16 ≤ s.curCell.shuttle.length → Completes i s fun u => Occupies s u) ∧
    (s.curCell.shuttle.length < 16 → va % 64 ≠ 0 → dieOf s.cur.cell < s.dies.length →
      TakesFault i s (s.profile p.val) (0x04, 0, 2 ^ l, va)) ∧
    ∀ pa leaf page, s.curCell.shuttle.length < 16 → va % 64 = 0 → s.curCell.pendingBytes s.curAsid va 64 = false →
      s.translateFor s.cur.cell s.curAsid .load va = (.ok pa leaf page, s) → Completes i s fun u =>
      IssuesCell s u t (fun k => { k with shuttle := k.shuttle ++ [
        { id := s.nextId, opcode := 0x68 + op, block := va, pa := pa, leaf := leaf, elem := s.cur.elem, ctx := s.cur.ctx, slot := s.cur.slot, m0 := s.m0
          asid := s.curAsid, profile := s.profile p.val, phase := 0, progress := 0, paused := none, fields := [], buffer := []
          seq := s.curCtx.seq }] }) id ∧ Charged s u t 1

/-- R71, R302: SHSTRM asks its slice for a stream and SHCLOSE asks for the end of the stream that its launch opened from the descriptor, both
charged to the census; without such a stream SHCLOSE ends at once; a slice with 16 streams makes SHSTRM wait. -/
def Sys2Proof.Machine.StreamCommandsEnter : Prop :=
  ∀ (s : State) (t : Fin 64) (a : Pair) (p : Profile), s.placed →
  (s.m0 = 0 → Completes (.shstrm t a p) s (fun u => EndsEmpty s u t (s.profile p.val)) ∧
    Completes (.shclose t a p) s fun u => EndsEmpty s u t (s.profile p.val)) ∧
  ∀ l va pa leaf page, s.wordLane a = [(l, va)] → va % 64 = 0 → s.curCell.pendingBytes s.curAsid va 64 = false →
    s.translateFor s.cur.cell s.curAsid .load va = (.ok pa leaf page, s) →
    ((s.streams.filter fun k => k.slice == homeSlice pa).length < 16 → Completes (.shstrm t a p) s fun u =>
      Issues s u t (fun s => { s with streams := s.streams ++ [
        { id := s.nextId, slice := homeSlice pa, addr := va, pa := pa, leaf := leaf, cell := s.cur.cell, elem := s.cur.elem, ctx := s.cur.ctx, slot := s.cur.slot
          m0 := s.m0, launch := s.curCell.launchUid, asid := s.curAsid, opened := false, closing := false, desc := []
          seat := s.curCell.seat, dest := none, profile := s.profile p.val, next := 0, pushed := 0, popped := 0, paused := none
          ended := false, cut := false, buf := [], seq := s.curCtx.seq }] }) id ∧ Charged s u t 1) ∧
    (16 ≤ (s.streams.filter fun k => k.slice == homeSlice pa).length → Completes (.shstrm t a p) s fun u =>
      Stays s u (.streamSlot (homeSlice pa))) ∧
    let opened := fun (k : Stream) => k.addr == va && k.opened && k.launch == s.curCell.launchUid && k.asid == s.curAsid
    (s.streams.find? opened = none → Completes (.shclose t a p) s fun u => EndsEmpty s u t (s.profile p.val)) ∧
    ∀ k, s.streams.find? opened = some k → Completes (.shclose t a p) s fun u =>
      Issues s u t (fun s => { s with
        closes := s.closes ++ [⟨s.nextId, s.cur.cell, s.cur.elem, s.cur.ctx, k.id, s.profile p.val, s.curCell.seat, s.curCtx.seq⟩]
        streams := s.streams.map fun x => if x.id = k.id then { x with closing := true } else x }) id ∧ Charged s u t 1

/-- R294, R301, R302: shuttle and stream commands at firing. -/
def Obligations.ShuttleAndStreamEnter : Prop :=
  ShuttleCommandsEnter ∧ StreamCommandsEnter

/-- A heddle command with well-formed words enters its cell's queue (R309, R310); n words are read whatever m0 holds. -/
def Sys2Proof.Machine.HeddleEnters (i : Instr) (s : State) (t : Fin 64) (op n : Nat) (dst : Option Nat) (a b : Src) : Prop :=
  let ws := (List.range 8).map fun j => if j < n then s.rd a j else 0
  let o := (s.rd b 0).toInt
  (s.m0 = 0 → Completes i s fun u => OnlyEffects s u t 0) ∧
  (s.m0 ≠ 0 → heddleOk op dst.isSome ws o = false → dieOf s.cur.cell < s.dies.length → TakesFault i s 0 (0x09, 0, s.m0.toNat, 0)) ∧
  (s.m0 ≠ 0 → heddleOk op dst.isSome ws o = true → 8 ≤ s.curCell.heddle.queue.length → Completes i s fun u => Occupies s u) ∧
  (s.m0 ≠ 0 → heddleOk op dst.isSome ws o = true → s.curCell.heddle.queue.length < 8 → Completes i s fun u =>
    IssuesCell s u t (fun k => { k with heddle := { k.heddle with
        queue := k.heddle.queue ++ [
          { id := s.nextId, opcode := op, words := ws, offset := o, elem := s.cur.elem, ctx := s.cur.ctx, slot := s.cur.slot, m0 := s.m0
            asid := s.curAsid, dst := dst, started := false, paused := none, progress := 0, wovenSeq := k.heddle.wovenCount
            chain0 := [], chain1 := [], out := [], seq := s.curCtx.seq }]
        counts := if cw ws 3 / 2048 % 2 = 1 then k.heddle.counts.modify (cw ws 3 / 256 % 8) (· + 1) else k.heddle.counts
        wovenCount := k.heddle.wovenCount + if op = 0x6E ∧ cw ws 0 / 2 ^ 29 % 2 = 1 then 1 else 0 } })
      (fun k => { k with pendV := k.pendV ||| (match dst with | some r => regsMask r 1 | none => 0) }) ∧ Charged s u t 1)

/-- R309, R310, R314 to R319: the heddle commands enter their cell's queue with their words and offset; a command with a field out of range is a
shape fault; a full queue makes the firing occupy its element. -/
def Sys2Proof.Machine.HeddleCommandsEnter : Prop :=
  ∀ (s : State) (t : Fin 64) (d : VReg) (a b : Src), s.placed →
  HeddleEnters (.hprep t a b) s t 0x6C 8 none a b ∧ HeddleEnters (.hwload t a b) s t 0x6D 4 none a b ∧
  HeddleEnters (.hmma t a b) s t 0x6E 4 none a b ∧ HeddleEnters (.hdrain t (.v d) a b) s t 0x70 4 (some d.val) a b ∧
  HeddleEnters (.hdrain t .discard a b) s t 0x70 4 none a b ∧ HeddleEnters (.hzero t a b) s t 0x71 4 none a b ∧
  HeddleEnters (.hcbload t a b) s t 0x73 4 none a b

/-- R309, R314 to R319: the ranges of the command words that each heddle command must keep, HDRAIN in both of its forms. -/
def Sys2Proof.Machine.HeddleFieldRanges : Prop := ∀ (ws : List Word) (o : Int), ws.length = 8 →
  let f := fun (lane hi lo : Nat) => (ws.getD lane 0).toNat / 2 ^ lo % 2 ^ (hi + 1 - lo)
  let sync := f 3 31 12 = 0
  let spa := fun (lane n : Nat) => f lane 31 20 = 0 ∧ 0 ≤ (f lane 31 0 : Int) + o ∧ (f lane 31 0 : Int) + o < 2 ^ 20 ∧
    ((f lane 31 0 : Int) + o) % n = 0
  (heddleOk 0x71 false ws o = true ↔ sync ∧ f 0 31 6 = 0 ∧ spa 1 2048 ∧ f 2 31 0 = 0) ∧
  (heddleOk 0x6E false ws o = true ↔ sync ∧ f 0 23 21 = 0 ∧ f 0 15 11 = 0 ∧ f 0 7 6 = 0 ∧
    1 ≤ f 0 28 24 ∧ f 0 28 24 ≤ 16 ∧ 2 ≤ f 0 20 16 ∧ f 0 20 16 ≤ 16 ∧ spa 1 32 ∧ f 2 31 20 = 0 ∧ f 2 31 0 % 2048 = 0) ∧
  (heddleOk 0x73 false ws o = true ↔ sync ∧ f 0 31 24 = 0 ∧ f 0 15 9 = 0 ∧ 1 ≤ f 0 8 0 ∧ f 0 23 16 + f 0 8 0 ≤ 256 ∧
    ((f 1 31 0 + 2 ^ 32 * f 2 31 0 : Nat) + o) % 4 = 0) ∧
  (heddleOk 0x6D false ws o = true ↔ sync ∧ f 0 30 29 = 0 ∧ f 0 23 3 = 0 ∧ 1 ≤ f 0 28 24 ∧ f 0 28 24 ≤ 16 ∧
    (f 0 28 24 ≤ 8 → f 0 31 31 = 0 ∧ (f 0 2 0 + 1) * f 0 28 24 ≤ 8) ∧ (9 ≤ f 0 28 24 → f 0 2 0 = 0) ∧ spa 1 32 ∧ f 2 31 0 = 0) ∧
  (∀ reg, heddleOk 0x70 reg ws o = true ↔ sync ∧ f 0 23 17 = 0 ∧ f 0 15 10 = 0 ∧ f 0 7 6 = 0 ∧ spa 1 2048 ∧
    (reg = true → f 2 31 0 = 0) ∧ (reg = false → f 0 9 8 = 0 ∧ f 2 31 20 = 0 ∧ f 2 31 0 % 32 = 0)) ∧
  (heddleOk 0x6C false ws o = true ↔ sync ∧
    (f 0 29 29 = 1 → f 0 31 31 = 1 ∧ f 0 7 0 ≤ 254) ∧ (f 0 29 29 = 0 → 2 ≤ f 0 28 24 ∧ f 0 7 0 = 0) ∧ 1 ≤ f 0 28 24 ∧ f 0 28 24 ≤ 16 ∧
    (f 0 30 30 = 1 → 1 ≤ f 0 23 16 ∧ f 0 23 16 ≤ 8 ∧ spa 1 32 ∧ f 2 31 0 = 0 ∧ f 4 31 0 % 32 = 0) ∧
    (f 0 30 30 = 0 → f 0 23 8 = 0 ∧ ((f 1 31 0 + 2 ^ 32 * f 2 31 0 : Nat) + o) % 64 = 0 ∧ f 4 31 0 % 64 = 0) ∧
    f 5 31 14 = 0 ∧ f 5 7 3 = 0 ∧ (f 0 31 31 = 1 → f 5 13 8 = 0) ∧ f 6 31 20 = 0 ∧ f 6 31 0 % 32 = 0 ∧ f 7 31 0 = 0)

/-- R311, R320: HWAIT clears its predicate and arms a watch on the commands queued in the slots that lane 0 of A names, or sets it at once where
there are none; CBDEC decodes a codebook index per lane, and an uncorrectable word of the codebook that it reads faults (R87). -/
def Sys2Proof.Machine.HwaitAndCbdecResults : Prop :=
  ∀ (s : State) (t : Fin 64) (q : PredReg) (d : Dst) (a : Src), s.placed →
  let mask := (s.rd a 0).toNat % 256
  let awaited := (s.curCell.heddle.queue.filter fun x =>
    (cw x.words 3).testBit 11 && mask.testBit (cw x.words 3 / 256 % 8)).map (·.id)
  let cleared := s.entryPreds t (setPred s.curCtx.p q.val false)
  let ended := fun (p : BitVec 8) =>
    { s.curCtx with p := p, exhausted := s.curCtx.exhausted || eSrcend (s.entry t), seq := s.curCtx.seq + 1 }
  Completes (.hwait t q a) s (fun u => u.flights = s.flights ∧ Took s u 0 ∧ LeavesModule s u ∧
    (∀ e, e ≠ s.cur.elem → u.curCell.elem e = s.curCell.elem e) ∧
    (awaited = [] → u.curCtx = ended (setPred cleared q.val true) ∧ u.curCell.heddle = s.curCell.heddle) ∧
    (awaited ≠ [] → u.curCtx = ended cleared ∧
      u.curCell.heddle = { s.curCell.heddle with watches := s.curCell.heddle.watches ++ [⟨s.cur.elem, s.cur.ctx, q.val, awaited⟩] })) ∧
  let index := fun l => (s.rd a (l / 2)).toNat / 2 ^ (16 * (l % 2)) % 65536
  ((∀ x ∈ s.upsets, x.place ≠ .codebook s.cur.cell) → Computes32 (.cbdec t d a) s t 1 d (fun l =>
    cbDecode (s.curCell.codebook.getD (index l / 256) 0).toNat (index l % 256))) ∧
  ∀ x ∈ s.upsets, x.double = true → x.place = .codebook s.cur.cell → (∃ l ∈ lanesOf s.m0, index l / 512 = x.addr / 8) →
    dieOf s.cur.cell < s.dies.length → TakesFault (.cbdec t d a) s 0 (0x0C, 0, s.m0.toNat, 0)

/-- R309 to R313, R319, R320: heddle commands at firing, their field ranges, HWAIT and CBDEC. -/
def Obligations.HeddleInstructions : Prop :=
  HeddleCommandsEnter ∧ HeddleFieldRanges ∧ HwaitAndCbdecResults

/-! Graphics. -/

/-- R327, R330, R332: BINB names the tiles that a box meets; BARY gives one value per coarse pixel, +0 where none of it is covered, a NaN where
the triangle is degenerate, else the perspective-correct barycentric of the mean of the covered centres, rounded once; TEXB gives the offset of a texel. -/
def Sys2Proof.Machine.RasterResults : Prop :=
  (∀ a b : Word, let x0 := a.toNat % 65536; let y0 := a.toNat / 65536; let x1 := b.toNat % 65536; let y1 := b.toNat / 65536
    (x1 < x0 ∨ y1 < y0 → binbVal a b = 0) ∧
    (x0 ≤ x1 → y0 ≤ y1 → ∀ i, i < 32 → ((binbVal a b).getLsbD i = true ↔
      (i < 16 ∧ i % 4 ≤ x1 / 32 - x0 / 32 ∧ i / 4 ≤ y1 / 32 - y0 / 32) ∨
      (i = 16 ∧ (x1 / 32 - x0 / 32 > 3 ∨ y1 / 32 - y0 / 32 > 3))))) ∧
  (∀ (a b : Lanes) (l : Nat), l < 64 → let fine : LaneMask := lane b 4 ++ lane b 3
    let k := match (lane b 2).toNat % 4 with | 1 => 2 | 2 => 4 | _ => 1
    let mates := fun j => j < 64 ∧ j % 8 / k = l % 8 / k ∧ j / 8 / k = l / 8 / k ∧ fine.getLsbD j = true
    let positive := fun i => finite32 (lane a i) ∧ 0 < real32 (lane a i)
    let v := fun i => ((BitVec.ofNat 24 (lane a i).toNat).toInt : ℚ)
    let area := (v 2 - v 0) * (v 5 - v 1) - (v 3 - v 1) * (v 4 - v 0)
    ((∀ j, ¬mates j) → baryVal a b l = 0) ∧
    ((∃ j, mates j) → area = 0 ∨ ¬positive 6 ∨ ¬positive 7 ∨ ¬positive 8 → baryVal a b l = 0x7FC00000) ∧
    ∀ (covered : List Nat), covered.Nodup → (∀ j, j ∈ covered ↔ mates j) → covered ≠ [] → area ≠ 0 → positive 6 → positive 7 → positive 8 →
      let mean := fun (f : Nat → Nat) => (covered.map fun j => ((256 * f j + 128 : Nat) : ℚ)).sum / covered.length
      let x := mean fun j => (lane b 0).toNat % 65536 / 8 * 8 + j % 8
      let y := mean fun j => (lane b 0).toNat / 65536 / 8 * 8 + j / 8
      let e := fun p q => (if 0 < area then 1 else -1) * ((v q - v p) * (y - v (p + 1)) - (v (q + 1) - v (p + 1)) * (x - v p))
      let wb := e 4 0 * real32 (lane a 7); let wc := e 0 2 * real32 (lane a 8); let sum := e 2 4 * real32 (lane a 6) + wb + wc
      sum ≠ 0 → finite32 (baryVal a b l) → nearest32 ((if (lane b 2).getLsbD 2 then wc else wb) / sum) (baryVal a b l)) ∧
  (∀ a b : Word, let wb := min (b.toNat / 256 % 16) 13; let hb := min (b.toNat / 4096 % 16) 13
    let wrap := fun (x : Int) (n : Nat) => match b.toNat / 65536 % 4 with
      | 0 => x % n
      | 2 => if x % (2 * n) < n then x % (2 * n) else 2 * n - 1 - x % (2 * n)
      | _ => max 0 (min x (n - 1))
    ∃ x y : Nat, (x : Int) = wrap (BitVec.ofNat 16 a.toNat).toInt (8 * 2 ^ wb) ∧
      (y : Int) = wrap (BitVec.ofNat 16 (a.toNat / 65536)).toInt (8 * 2 ^ hb) ∧
      (texbVal a b).toNat = ((y / 8 * 2 ^ wb + x / 8) * (64 * 2 ^ (b.toNat % 4)) +
        (x % 2 + 2 * (y % 2) + 4 * (x / 2 % 2) + 8 * (y / 2 % 2) + 16 * (x / 4 % 2) + 32 * (y / 4 % 2)) * 2 ^ (b.toNat % 4)) % 2 ^ 32) ∧
  ∀ (s : State) (t : Fin 64) (d : Dst) (a b : Src), s.placed →
    Computes32 (.binb t d a b) s t 0 d (fun l => binbVal (s.rd a l) (s.rd b l)) ∧
    Computes32 (.bary t d a b) s t 3 d (fun l => baryVal (s.src a) (s.src b) l) ∧
    Computes32 (.texb t d a b) s t 0 d (fun l => texbVal (s.rd a l) (s.rd b l))

/-- R328, R329, R331: EDGE writes the fine mask of the pixels whose centres lie inside the triangle by the top-left rule and inside the target,
and the anchor mask of the coarse pixels that hold one; ZCMP compares depths in the lanes of m0. -/
def Sys2Proof.Machine.CoverageResults : Prop :=
  ∀ (s : State) (t : Fin 64) (d : MaskReg) (a b : Src) (k : Fin 4), s.placed →
  let v := fun i => (BitVec.ofNat 24 (s.rd a i).toNat).toInt
  let area := (v 2 - v 0) * (v 5 - v 1) - (v 3 - v 1) * (v 4 - v 0)
  let px := fun l : Nat => (s.rd b 0).toNat % 65536 / 8 * 8 + l % 8
  let py := fun l : Nat => (s.rd b 0).toNat / 65536 / 8 * 8 + l / 8
  let inside := fun (l p q : Nat) =>
    let dx := area.sign * (v q - v p); let dy := area.sign * (v (q + 1) - v (p + 1))
    let e := dx * ((256 * py l + 128 : Nat) - v (p + 1)) - dy * ((256 * px l + 128 : Nat) - v p)
    0 < e ∨ e = 0 ∧ (0 < -dy ∨ dy = 0 ∧ 0 < dx)
  let fine := fun l => area ≠ 0 ∧ px l < min ((s.rd b 1).toNat % 65536) 16384 ∧ py l < min ((s.rd b 1).toNat / 65536) 16384 ∧
    inside l 0 2 ∧ inside l 2 4 ∧ inside l 4 0
  ((Instr.edge t d a b k).wellFormed = true → Completes (.edge t d a b k) s fun u =>
    (∀ l, l < 64 → ((u.curCtx.m.getD (d.val + 1) 0).getLsbD l = true ↔ fine l) ∧
      ((u.mask d).getLsbD l = true ↔ l % 8 % 2 ^ k.val = 0 ∧ l / 8 % 2 ^ k.val = 0 ∧
        ∃ j, j < 64 ∧ j % 8 / 2 ^ k.val = l % 8 / 2 ^ k.val ∧ j / 8 / 2 ^ k.val = l / 8 / 2 ^ k.val ∧ fine j)) ∧
    Fired s u t [] [d.val, d.val + 1] s.curCtx.p s.curCtx.fpflags ∧ u.flights = s.flights ∧ Took s u 1) ∧
  ∃ x, (∀ l, l < 64 → (x.getLsbD l = true ↔ inMask s.m0 l = true ∧ ¬nan32 (s.rd a l) ∧ ¬nan32 (s.rd b l) ∧
      real32 (s.rd a l) < real32 (s.rd b l))) ∧
    ComputesMask (.zcmp t d a b) s t d 0 x

/-- R327 to R332: binning, edges, barycentrics, texture addresses and coverage. -/
def Obligations.RasterAndCoverageResults : Prop :=
  RasterResults ∧ CoverageResults

/-- R337, R338: the ray stack: a push on a full stack drops its bottom entry and sets RESTART; a pop of an empty stack restarts at the root or ends
the ray; the instructions act on the lanes of m0 and write v6 to v15 alone. -/
def Obligations.RayStackResults : Prop :=
  (∀ (r : List Word) (x : Word), r.length = 16 →
    let c := min ((r.getD 7 0).toNat / 256 % 16) 7
    let v7 := fun (w : Word) (n : Nat) => w.toNat / 256 % 16 = n ∧ w.toNat / 4096 = (r.getD 7 0).toNat / 4096 ∧
      w.toNat % 128 = (r.getD 7 0).toNat % 128
    let restart := (r.getD 7 0).toNat / 128 % 2
    (∀ i, i < 16 → i ≠ 7 → (rayPush r x).getD i 0 =
      if i = 9 + (if c = 7 then 6 else c) then x else if c = 7 ∧ 9 ≤ i ∧ i < 15 then r.getD (i + 1) 0 else r.getD i 0) ∧
    v7 ((rayPush r x).getD 7 0) (if c = 7 then 7 else c + 1) ∧
    ((rayPush r x).getD 7 0).toNat / 128 % 2 = (if c = 7 then 1 else restart) ∧
    (∀ i, i < 16 → i ≠ 7 → i ≠ 8 → (rayPop r x).getD i 0 = r.getD i 0) ∧
    (rayPop r x).getD 8 0 = (if 0 < c then r.getD (8 + c) 0 else if restart = 1 then x else 0xFFFFFFFF) ∧
    v7 ((rayPop r x).getD 7 0) (c - 1) ∧ ((rayPop r x).getD 7 0).toNat / 128 % 2 = (if 0 < c then restart else 0)) ∧
  ∀ (s : State) (t : Fin 64) (a : Src), s.placed → ∀ pop : Bool,
    let i := if pop then Instr.rspop t a else .rspush t a
    let after := fun l => let r := (List.range 16).map fun n => lane (s.vreg n) l
      if pop then rayPop r (s.rd a l) else rayPush r (s.rd a l)
    Completes i s fun u => (∀ n, 6 ≤ n → n < 16 → Wrote s u n fun l => (after l).getD n 0) ∧
      FiredRegs s u t [6, 7, 8, 9, 10, 11, 12, 13, 14, 15] ∧ u.flights = s.flights ∧ Took s u 0

/-- R41, R336, R337, R339, R341, R342: TNODE and TISECT check their bases and the pages of every lane that acts, read its node or triangles by loads
of eight bytes (v is the state after the reads), and check every node and the pages of the hits; where one fails the context is held and nothing
else happens. Else the hits are issued as one access of signed-minimum reductions, and v6 to v15 and m1 to m3 are pending until the rays after
the step are written. That the reads are performed in the step of the firing is the model's choice (log 31). -/
def Sys2Proof.Machine.TraversalsEnter : Prop :=
  ∀ (s v : State) (t : Fin 64) (b : Src) (leaf : Bool), s.placed →
  let i := if leaf then Instr.tisect t b else .tnode t b
  let c := s.curDraft.consts
  let bases := [(addrConst c 0, 128), (addrConst c 2, 16), (addrConst c 5, 8)]
  let ref := fun l => (lane (s.vreg 8) l).toNat
  let acts := (List.range 64).filter fun l => inMask s.m0 l && ref l != 0xFFFFFFFF && ref l / 2 ^ 25 % 64 == (s.rd b 0).toNat % 64 &&
    (ref l).testBit 31 == leaf
  let from_ := fun l => if leaf then addrConst c 2 + 48 * (ref l / 16 % 2 ^ 21) else addrConst c 0 + 128 * (ref l % 2 ^ 25)
  let words := fun l => if leaf then 6 * (ref l % 16 + 1) else 10
  let ls := acts.flatMap fun l => (List.range (words l)).map fun j => (l, (from_ l % 2 ^ 64 + 8 * j) % 2 ^ 64)
  let bits := fun (ls : List Nat) => (ls.map fun l => 2 ^ l).foldl Nat.lor 0
  (∀ x, dieOf s.cur.cell < s.dies.length → x ∈ bases → x.1 % x.2 ≠ 0 → (∀ y ∈ bases, y.1 % y.2 ≠ 0 → x.1 ≤ y.1) →
    TakesFault i s 2 (0x04, 0, s.m0.toNat, x.1)) ∧
  ((∀ x ∈ bases, x.1 % x.2 = 0) → s.outstanding s.cur.cell + acts.length ≤ 512 → (∀ l ∈ ls, s.curCell.pendingBytes s.curAsid l.2 8 = false) →
    (∀ r : Nat → Trans, (∀ l ∈ ls, s.translateFor s.cur.cell s.curAsid .load l.2 = (r l.2, s) ∧ r l.2 ≠ .busy) →
      let bad := fun (l : Nat × Nat) => match r l.2 with | .fault _ _ => true | _ => false
      ∀ code cause, (∃ l ∈ ls, bad l = true) → r (firstAddr ls bad) = .fault code cause → dieOf s.cur.cell < s.dies.length →
        TakesFault i s 2 (code, cause, lanesBits ls bad (fun l => 2 ^ l), firstAddr ls bad)) ∧
    ∀ pa lf page bs, s.maps .load ls pa lf page → (∀ q ∈ s.partsAt 8 ls pa lf page (fun _ => []) (fun _ => 0), s.loadFree s.curAsid q = true) →
      s.readNow s.cur.cell 8 (ls.map fun l => (l.1, l.2, .ok (pa l.2) (lf l.2) (page l.2))) = .ok bs v → v.cur = s.cur → v.placed →
      v.curAsid = s.curAsid →
      let now := laneReads ls bs
      (∀ l ls', leaf = false → acts.filter (fun l => !nodeOk (now l)) = l :: ls' → dieOf v.cur.cell < v.dies.length → Completes i s fun u =>
        FaultTaken v u 2 (0x06, 0, bits (l :: ls'), from_ l % 2 ^ 64)) ∧
      ((leaf = false → ∀ l ∈ acts, nodeOk (now l) = true) →
        let res := traversalResults leaf (s.rd b 0).toNat c acts ((lanesOf s.m0).map fun l => (l, s.curCtx.ray l)) now
        let hits := res.2.map fun h => (h.1, h.2.1)
        let tr := fun id => ({ id := id, cell := s.cur.cell, elem := s.cur.elem, ctx := s.cur.ctx, m0 := v.m0, here := (s.rd b 0).toNat % 64
                               acts := acts, after := res.1 } : Traversal)
        let pend := fun (k : Ctx) => { k with pendV := k.pendV ||| 0xFFC0, pendM := k.pendM ||| 0xE }
        (∀ l ∈ hits, v.curCell.pending v.curAsid l.2 = false) →
        (∀ r : Nat → Trans, (∀ l ∈ hits, v.translateFor v.cur.cell v.curAsid .atomic l.2 = (r l.2, v) ∧ r l.2 ≠ .busy) →
          let bad := fun (l : Nat × Nat) => match r l.2 with | .fault _ _ => true | _ => false
          ∀ code cause, (∃ l ∈ hits, bad l = true) → r (firstAddr hits bad) = .fault code cause → dieOf v.cur.cell < v.dies.length →
            Completes i s fun u => FaultTaken v u 2 (code, cause, lanesBits hits bad (fun l => 2 ^ l), firstAddr hits bad)) ∧
        (hits = [] → Completes i s fun u => Issues v u t (fun v => { v with traversals := v.traversals ++ [tr v.nextId] }) pend) ∧
        ∀ pa' lf' page', hits ≠ [] → v.maps .atomic hits pa' lf' page' → Completes i s fun u =>
          let red := v.newAccess (.atomic 0x59) .none 2 true true v.m0 (res.2.map fun h =>
            { lane := h.1, va := h.2.1, pa := pa' h.2.1, size := 8, leaf := lf' h.2.1, page := page' h.2.1, data := leBytes 8 h.2.2, word := 0
              st := .waiting, bound := [], since := v.time })
          u.accs = v.accs ++ [red] ∧ u.traversals = v.traversals ++ [tr (v.nextId + 1)] ∧ u.flights = v.flights ∧ Took v u 0 ∧
          u.curCtx = { pend v.curCtx with p := v.entryPreds t v.curCtx.p, exhausted := v.curCtx.exhausted || eSrcend (v.entry t)
                                          seq := v.curCtx.seq + 1 } ∧
          ((∀ l ∈ hits, leafSm (lf' l.2) = false) → (∀ x ∈ v.accs, x.id ≠ v.nextId) → LeavesOthers v u ∧
            u.rest = { v.rest with merges := u.merges, accs := u.accs, traversals := u.traversals }))) ∧
  (∀ (n : Nat) (rs : List (Nat × Nat × Trans)) (c : Nat), n ≤ 128 → s.sound → (∀ x ∈ rs, ∃ pa leaf page, x.2.2 = .ok pa leaf page ∧ leafCp leaf = 2 ∧
      inMmio pa = false ∧ pa % 128 + n ≤ 128 ∧ s.busyLine pa = false ∧ s.uncopied (lineOf pa) 128) →
    s.readNow c n rs = .ok (rs.flatMap fun x => match x.2.2 with | .ok pa _ _ => memBytes s.mem pa n | _ => []) s)

/-- R168, R182, R343, R345: RAYOUT asks for 16 more reservations before its packet leaves, keeps its reservation where there is no lane, and faults
where the queue could never hold a packet; RAYIN pops a header, charged to the census, and merges what stands behind it, clears m1 and pops nothing
where too few lanes are free, and faults on any other head. -/
def Sys2Proof.Machine.RayPacketInstructions : Prop :=
  ∀ (s : State) (t : Fin 64) (n : ChanNo), s.placed →
  let route := s.routeTarget s.curCell (s.routeOf s.cur.cell s.cur.elem n.val)
  let room := s.queueRoom s.cur.cell s.cur.elem n.val
  let tokens := (s.curElem.chan n.val).tokens
  let tag := match tokens with | k :: _ => k.tag.toNat | [] => 0
  let lanes := (List.range 64).filter (inMask s.m0)
  let byEntry := fun (u : State) => ∀ k, k < 8 → (u.curElem.chan k).tokens =
    if (ePop (s.entry t)).testBit k then (s.curElem.chan k).tokens.drop 1 else (s.curElem.chan k).tokens
  (s.m0 = 0 → Completes (.rayout t n) s fun u => OnlyEffects s u t 0 ∧ u.curElem.outs = s.curElem.outs ∧ u.grants = s.grants ∧ byEntry u) ∧
  (s.m0 ≠ 0 → room < 17 → dieOf s.cur.cell < s.dies.length → TakesFault (.rayout t n) s 0 (0x05, 0, s.m0.toNat, 0)) ∧
  (∀ q, s.m0 ≠ 0 → 17 ≤ room → route = some q → Completes (.rayout t n) s fun u =>
    (∃ ids : List Nat, ids.length = 16 ∧ u.grants = s.grants ++ ids.map fun id => ⟨id, .ray s.cur.cell s.cur.elem s.cur.ctx, q⟩) ∧
    u.curCtx = { s.curCtx with multi := some (.rayout s.cur.slot n.val 0 0) } ∧ u.flights = s.flights ∧ u.census = s.census ∧
    u.curElem.ins = s.curElem.ins ∧ u.curElem.outs = s.curElem.outs.set n.val .used ∧ LeavesModule s u ∧ LeavesOthers s u) ∧
  (tag < 2 ^ 31 ∨ tag % 128 = 0 ∨ 64 < tag % 128 → dieOf s.cur.cell < s.dies.length →
    TakesFault (.rayin t n) s 0 (0x05, 0, s.m0.toNat, 0)) ∧
  (2 ^ 31 ≤ tag → 1 ≤ tag % 128 → tag % 128 ≤ 64 →
    (lanes.length < tag % 128 → Completes (.rayin t n) s fun u =>
      u.curCtx.m.getD 1 0 = 0 ∧ Fired s u t [] [1] s.curCtx.p s.curCtx.fpflags ∧ u.flights = s.flights ∧ Took s u 0 ∧ byEntry u) ∧
    (tag % 128 ≤ lanes.length → Completes (.rayin t n) s fun u => ∃ m,
      u.curCtx = { s.curCtx with multi := some (.rayin s.cur.slot n.val (tag % 128) m (((tokens.drop 1).take 16).map (·.lanes))) } ∧
      (∀ l, l < 64 → (m.getLsbD l = true ↔ l ∈ lanes.take (tag % 128))) ∧
      (∀ k, k < 8 → (u.curElem.chan k).tokens = if k = n.val then tokens.drop 17 else (s.curElem.chan k).tokens) ∧
      (∀ q, u.partOf (some q) = s.partOf (some q) - (((tokens.take 17).filter fun k => k.charge == some q).length : Int)) ∧
      u.curElem.busyUntil = s.time + 17 * s.vPeriod (dieOf s.cur.cell) ∧ LeavesModule s u ∧ LeavesOthers s u ∧ u.flights = s.flights))

/-- R333 to R345: traversal steps and ray packets at firing. That the reads of a traversal are performed in the step of its firing is the model's choice (log 31). -/
def Obligations.TraversalAndPacketInstructions : Prop :=
  TraversalsEnter ∧ RayPacketInstructions

/-- R349: one channel of a pixel in each mode, and the depth test. -/
def Sys2Proof.Machine.BlendChannels : Prop := ∀ s d sa : Nat, s < 256 → d < 256 → sa < 256 →
  (∃ q : Nat, blendChannel 0 s d sa = min 255 (s + q) ∧ 2 * (d * (255 - sa)) ≤ 2 * 255 * q + 255 ∧ 2 * 255 * q ≤ 2 * (d * (255 - sa)) + 255) ∧
  blendChannel 1 s d sa = min (s + d) 255 ∧ blendChannel 2 s d sa = min s d ∧ blendChannel 3 s d sa = max s d ∧
  blendChannel 4 s d sa = s ∧
  ∀ z w : Word, ¬nan32 z → zTest 0 z w = true ∧ zTest 6 z w = false ∧ zTest 7 z w = false ∧
    (∀ k, 1 ≤ k → k < 8 → nan32 w → zTest k z w = false) ∧
    (finite32 z → finite32 w → (zTest 1 z w = true ↔ real32 z < real32 w) ∧ (zTest 2 z w = true ↔ real32 z ≤ real32 w) ∧
      (zTest 3 z w = true ↔ real32 w < real32 z) ∧ (zTest 4 z w = true ↔ real32 w ≤ real32 z) ∧ (zTest 5 z w = true ↔ real32 z = real32 w))

/-- R346, R349: a token applied to a tile at T: for each pixel of its half block that its depth does not mark as not covered and that passes the
depth test, the colour is the blend of the colour at the top left of its coarse pixel, channel by channel, and the depth is its own under ZWRITE; every
other byte stays. -/
def Sys2Proof.Machine.TokensBlend : Prop :=
  ∀ (m : List Host.Cell) (rows : List Nat) (T mode zctl tag : Nat) (pay : Lanes), mode < 5 → tag < 2 ^ 32 → tag / 2 ^ 28 % 4 < 3 →
  let u := (applyTile (m, rows) T mode zctl (tag, pay)).1
  let pixel := fun k => 32 * (8 * (tag / 2 ^ 25 % 4) + 4 * (tag / 2 ^ 27 % 2) + k / 8) + 8 * (tag / 2 ^ 23 % 4) + k % 8
  let r := 2 ^ (tag / 2 ^ 28 % 4)
  let depth := fun k => T + 0x1000 + 4 * pixel k
  let passes := fun k => tag / 2 ^ 30 % 2 = 0 ∧ ¬nan32 (lane pay (32 + k)) ∧
    zTest zctl (lane pay (32 + k)) (BitVec.ofNat 32 (memNat m (depth k) 4)) = true
  (∀ k, k < 32 →
    (passes k →
      let src := (lane pay (8 * (k / 8 / r * r) + k % 8 / r * r)).toNat
      (∀ c, c < 4 → memRead u (T + 4 * pixel k + c) =
        blendChannel mode (src / 256 ^ c % 256) (memRead m (T + 4 * pixel k + c)) (src / 256 ^ 3)) ∧
      memNat u (depth k) 4 = if zctl / 8 % 2 = 1 then (lane pay (32 + k)).toNat else memNat m (depth k) 4) ∧
    (¬passes k → memNat u (T + 4 * pixel k) 4 = memNat m (T + 4 * pixel k) 4 ∧ memNat u (depth k) 4 = memNat m (depth k) 4)) ∧
  ∀ x, (∀ k, k < 32 → ¬(T + 4 * pixel k ≤ x ∧ x < T + 4 * pixel k + 4) ∧ ¬(depth k ≤ x ∧ x < depth k + 4)) → memRead u x = memRead m x

/-- R346 to R350: BLND of a token that is due blends it into the tile; a FINAL one advances EXPECT and applies the held entries of the next number,
in their order, where the last of them is not FINAL, which leave the reorder area; a token that comes early is held in the reorder area, or where
that is full in the spill list, and the tile stays; a misaligned tile is an alignment fault, DEDUCED (log 32), a tile outside the scratchpad banks
a translation fault with cause 7, and a bad control row, rate or order, or a full list, a format fault. -/
def Sys2Proof.Machine.BlendResults : Prop :=
  ∀ (s : State) (t : Fin 64) (d : Dst) (n : ChanNo) (b : Src) (k : Fin 8), s.placed → k.val < 5 →
  let i := Instr.blnd t d n b k
  let T := (s.rd b 0).toNat % 2 ^ 20
  let tag := match (s.curElem.chan n.val).tokens with | h :: _ => h.tag.toNat | [] => 0
  let head := (tag, s.headLanes n.val)
  let sram := s.curCell.sram
  let f := fun (o len : Nat) => memNat sram (T + 0x2000 + o) len
  let early := (tag % 2 ^ 23 + 2 ^ 23 - f 0 4) % 2 ^ 23
  let entry := fun (m : List Host.Cell) (j : Nat) => blendEntry (memBytes m (T + 0x2020 + 288 * j) 288)
  let format := TakesFault i s 2 (0x05, 0, s.m0.toNat, T)
  let row := f 0 4 < 2 ^ 23 ∧ f 4 2 ≤ 64 ∧ f 6 2 ≤ f 4 2 ∧ f 8 1 < 16 ∧ f 9 3 = 0 ∧ f 12 4 ≤ f 24 4 ∧ f 16 8 % 32 = 0 ∧ f 28 4 = 0
  (T % 32 ≠ 0 → dieOf s.cur.cell < s.dies.length → TakesFault i s 2 (0x04, 0, s.m0.toNat, T)) ∧
  (T % 32 = 0 → s.curCell.scratchRange T 0x2020 = false → dieOf s.cur.cell < s.dies.length → TakesFault i s 2 (0x01, 7, s.m0.toNat, T)) ∧
  (T % 32 = 0 → s.curCell.scratchRange T 0x2020 = true → ¬row → dieOf s.cur.cell < s.dies.length → format) ∧
  (T % 32 = 0 → s.curCell.scratchRange T 0x2020 = true → row → s.curCell.scratchRange (T + 0x2020) (288 * f 4 2) = true →
    (tag / 2 ^ 28 % 4 = 3 ∨ 2 ^ 22 ≤ early → dieOf s.cur.cell < s.dies.length → format) ∧
    (tag / 2 ^ 28 % 4 ≠ 3 → early < 2 ^ 22 → (∀ x ∈ s.upsets, x.place ≠ .sram s.cur.cell) →
    let frame := fun (u : State) => u.mem = s.mem ∧ (∀ c, c ≠ s.cur.cell → u.cell c = s.cell c) ∧
      (∀ j, j ∉ dstRegs false d → u.vreg j = s.vreg j) ∧ u.curCtx.m = s.curCtx.m ∧ u.curCtx.p = s.entryPreds t s.curCtx.p
    let tile := fun (u : State) => ∀ x, x < 0x2000 → memRead u.curCell.sram (T + x) = memRead sram (T + x)
    (early = 0 → tag < 2 ^ 31 → Completes i s fun u => frame u ∧ u.accs = s.accs ∧ Took s u 1 ∧ Delivered s u t d (fun _ => 0) ∧
      u.curCell.sram = (applyTile (sram, []) T k.val (f 8 1) head).1) ∧
    (early = 0 → 2 ^ 31 ≤ tag → f 12 4 = 0 →
      let held := (List.range (f 6 2)).map (entry sram)
      let due := held.filter fun e => e.1 % 2 ^ 23 = (f 0 4 + 1) % 2 ^ 23
      let left := held.filter fun e => e.1 % 2 ^ 23 ≠ (f 0 4 + 1) % 2 ^ 23
      (∀ e, due.getLast? = some e → e.1 < 2 ^ 31) → Completes i s fun u => frame u ∧ u.accs = s.accs ∧ Took s u (1 + due.length) ∧
        Delivered s u t d (fun _ => BitVec.ofNat 32 (256 * due.length)) ∧
        (let m := (head :: due).foldl (fun m e => applyTile m T k.val (f 8 1) e) (sram, [])
         ∀ x, x < 0x2000 → memRead u.curCell.sram (T + x) = memRead m.1 (T + x)) ∧
        memNat u.curCell.sram (T + 0x2000) 4 = (f 0 4 + 1) % 2 ^ 23 ∧ memNat u.curCell.sram (T + 0x2006) 2 = left.length ∧
        (List.range left.length).map (entry u.curCell.sram) = left) ∧
    (early ≠ 0 → f 6 2 < f 4 2 → f 12 4 = 0 → Completes i s fun u => frame u ∧ u.accs = s.accs ∧ Took s u 0 ∧
      Delivered s u t d (fun _ => 1) ∧ tile u ∧
      memNat u.curCell.sram (T + 0x2000) 4 = f 0 4 ∧ memNat u.curCell.sram (T + 0x2006) 2 = f 6 2 + 1 ∧
      memNat u.curCell.sram (T + 0x2020 + 288 * f 6 2) 4 = tag ∧
      ∀ l, l < 64 → memNat u.curCell.sram (T + 0x2020 + 288 * f 6 2 + 32 + 4 * l) 4 = (lane (s.headLanes n.val) l).toNat) ∧
    (early ≠ 0 → f 6 2 = f 4 2 ∨ f 12 4 ≠ 0 → f 24 4 ≤ f 12 4 → dieOf s.cur.cell < s.dies.length → format) ∧
    (early ≠ 0 → f 6 2 = f 4 2 ∨ f 12 4 ≠ 0 → f 12 4 < f 24 4 →
      let rows := (List.range 9).map fun j => (0, (f 16 8 + 288 * f 12 4 + 32 * j) % 2 ^ 64)
      ∀ pa leaf page, (∀ l ∈ rows, s.curCell.pending s.curAsid l.2 = false) → s.maps .store rows pa leaf page → Completes i s fun u =>
        frame u ∧ Took s u 0 ∧ Delivered s u t d (fun _ => 2) ∧ tile u ∧
        memNat u.curCell.sram (T + 0x2000) 4 = f 0 4 ∧ memNat u.curCell.sram (T + 0x2006) 2 = f 6 2 ∧
        memNat u.curCell.sram (T + 0x200C) 4 = f 12 4 + 1 ∧
        ∃ parts, u.accs = s.accs ++ [s.newAccess .store .none 2 false true s.m0 parts] ∧ parts.map (·.va) = rows.map (·.2) ∧
          parts.map (·.pa) = rows.map (fun l => pa l.2) ∧
          parts.flatMap (·.data) = leBytes 4 tag ++ List.replicate 28 0 ++ (List.range 64).flatMap fun l =>
            leBytes 4 (lane (s.headLanes n.val) l).toNat)))

/-- R346 to R350: blending. -/
def Obligations.BlendingResults : Prop :=
  BlendChannels ∧ TokensBlend ∧ BlendResults

/-! Events of the memory system. -/

/-- R92, R96, R108: a part of an uncached load or store is performed at its home slice, after the copies it conflicts with are recalled. -/
def Sys2Proof.Machine.HomeRequests : Prop := ∀ (s : State) (id i : Nat) (a : Access) (p : Part),
  s.acc? id = some a → a.parts[i]? = some p → p.st = .waiting → s.loaded a.cell = true → s.blocked a i p = false →
  s.locked p.pa = false → s.recalling p.pa = false → leafCp p.leaf = 2 → inMmio p.pa = false → s.sound →
  let holders := s.conflicts (lineOf p.pa) a.isStore none
  let bad := fun h => s.copySpoiled h (lineOf p.pa) = true
  (a.op = .load ∨ a.op = .store → holders ≠ [] → (∀ h ∈ holders, ¬bad h) →
    exec (.homeSliceRequest id i) s = .next { s with recalls := s.recalls ++ [⟨lineOf p.pa, holders, false⟩] }) ∧
  (a.op = .load → a.opcode ≠ 0x50 → holders = [] → Completes (.homeSliceRequest id i) s fun u =>
    u = { s with accs := u.accs } ∧ (∀ k, k ≠ id → u.acc? k = s.acc? k) ∧ ∃ b, u.acc? id = some b ∧ b = { a with parts := b.parts } ∧
      ∀ (j : Nat) (q : Part), a.parts[j]? = some q → b.parts[j]? = some
        (if q.st = .waiting ∧ q.pa = p.pa then { q with st := .done, bound := memBytes s.mem p.pa p.size, word := p.word } else q)) ∧
  (a.op = .store → holders = [] → Completes (.homeSliceRequest id i) s fun u =>
    WrittenAt s u p.pa p.data ∧
    u = { s with
          mem := u.mem, watches := u.watches, accs := u.accs
          sliceLines := s.sliceLines.map fun l => if l.line = lineOf p.pa then { l with dirty := true } else l } ∧
    (let unpassed := fun (x : Access) => { x with passed := none }
     (∀ k, k ≠ id → (u.acc? k).map unpassed = (s.acc? k).map unpassed) ∧
     (u.acc? id).map unpassed = some (unpassed { a with parts := a.parts.set i { p with st := .done } })) ∧
    (a.narrow = false → ∀ k, k ≠ id → u.acc? k = s.acc? k))

/-- R63, R90, R94, R96: the first cached load of a region brings its line exclusive into the cell's L1, records the cell as the region's owner
and binds. -/
def Sys2Proof.Machine.ExclusiveFill : Prop := ∀ (s : State) (id i : Nat) (a : Access) (p : Part) (w : Nat) (pl : List SlicePlru)
    (ls : List SliceLine),
  s.acc? id = some a → a.parts[i]? = some p → p.st = .waiting → s.loaded a.cell = true → s.blocked a i p = false →
  s.locked p.pa = false → s.recalling p.pa = false → leafCp p.leaf = 0 → leafSm p.leaf = false → inMmio p.pa = false →
  moduleOf p.pa = s.hub.modnum → hintOf a.profile = 0 → s.upsets = [] → a.op = .load → a.opcode ≠ 0x50 →
  s.uncopied (lineOf p.pa) 128 → s.dir.find? (·.region == lineOf p.pa / 4096) = none → s.dir.length < 16 →
  (s.cell a.cell).fillWay (lineOf p.pa) = some (w, none) → s.sliceTouch p.pa 0 = { s with plru := pl, sliceLines := ls } →
  Completes (.homeSliceRequest id i) s fun u =>
    (∃ l, (u.cell a.cell).line? (lineOf p.pa) = some l ∧ l.st = .exclusive ∧ l.way = w ∧ l.data = memBytes s.mem (lineOf p.pa) 128 ∧
      l.dirty = 0 ∧ l.holdUntil = s.time + 64 * s.nPeriod (dieOf a.cell)) ∧
    u.dir = s.dir ++ [⟨lineOf p.pa / 4096, .own a.cell, none, s.time⟩] ∧ u.mem = s.mem ∧
    ∃ b q, u.acc? id = some b ∧ b.parts[i]? = some q ∧ q.st = .done ∧ q.bound = sliceBytes (memBytes s.mem (lineOf p.pa) 128) (p.pa % 128) p.size

/-- R91, R93, R96, R98: a holder, a cell or the host agent, gives its copy up and its dirty bytes are merged at home as one event; a modified line is kept for 64 network
cycles. -/
def Sys2Proof.Machine.RecallAnswers : Prop := ∀ (s : State) (line h : Nat) (r : Recall) (l : CchLine),
  s.recalls.find? (·.line == line) = some r → h ∈ r.holders → s.copyOf h line = some l → l.coherent = true →
  l.data.length = 128 → l.descDirty = 0 →
  (l.st = .modified → s.time < l.holdUntil → r.forced = false → exec (.recallResponse line h) s = .next s) ∧
  (h ≠ 2048 → l.holdUntil ≠ 0 → l.holdUntil ≤ s.time →
    exec (.ownershipHoldExpiry h line) s = .next (s.setCell h fun c => c.setLine line fun l => { l with holdUntil := 0 })) ∧
  (l.st ≠ .modified ∨ l.holdUntil ≤ s.time → Completes (.recallResponse line h) s fun u =>
    (∀ x, memRead u.mem x = if line ≤ x ∧ x < line + 128 ∧ l.dirty.testBit (x - line) then l.data.getD (x - line) 0 % 256
      else memRead s.mem x) ∧
    u.copyOf h line = none ∧ (∀ k, k ≠ h → u.copyOf k line = s.copyOf k line) ∧ (∀ c, c ≠ h → u.cell c = s.cell c) ∧
    (h = 2048 → u.cells = s.cells) ∧
    (let left := r.holders.filter (· != h)
     u.recalls.find? (·.line == line) = if left = [] then none else some { r with holders := left }))

/-- R91 to R97: requests at home, fills and recalls. -/
def Obligations.HomeAndRecallEvents : Prop :=
  HomeRequests ∧ ExclusiveFill ∧ RecallAnswers

/-- R115, R121, R126, R131, R166, R282: a load or an atomic whose parts have bound writes its registers in one step, clears their marks and sets its arc; a
store whose parts are performed sets its arc, and one that is performed in a software-managed copy alone sets it at cell scope and stays; a FENCE
ends when nothing it marked is outstanding at its scope. -/
def Sys2Proof.Machine.AccessEnds : Prop :=
  (∀ (s : State) (a : Access), s.hasCtx a.cell a.elem a.ctx → s.acc? a.id = some a →
    (∀ p ∈ a.parts, p.st = .done ∧ p.word ≠ 2 ^ 64) →
    let k := s.ctxOf a.cell a.elem a.ctx
    (∀ n w, (a.op = .load ∨ ∃ o, a.op = .atomic o) → a.res = .regs n w → w = 1 ∨ w = 2 → n + w ≤ 16 → s.validating a.id = false →
      Completes (.loadBind a.id) s fun u =>
        let k' := u.ctxOf a.cell a.elem a.ctx
        (∀ j l, j < w → l < 64 → lane (k'.v.getD (n + j) []) l =
          if inMask a.m0 l then BitVec.ofNat 32 (fieldAt (a.laneBytes l) (4 * j) 4) else lane (k.v.getD (n + j) []) l) ∧
        (∀ r, r < n ∨ n + w ≤ r → k'.v.getD r [] = k.v.getD r []) ∧
        k' = { k with v := k'.v, pendV := k.pendV &&& ~~~(regsMask n w), p := if a.told then k.p else arcSet a.profile k.p
                      fpflags := Nat.lor k.fpflags (a.flags % 64) } ∧
        LeavesContexts s u a.cell a.elem a.ctx ∧ u.acc? a.id = none ∧ u = { s with cells := u.cells, accs := u.accs }) ∧
    ((a.op = .store ∨ a.op = .stx) → a.res = .none → (∀ r ∈ s.arrivals, r.source ≠ a.id) →
      (∀ e ∈ (s.cell a.cell).sideLog, e.id ≠ a.id) → Completes (.accessCompletion a.id) s fun u =>
        u.ctxOf a.cell a.elem a.ctx = { k with p := if a.told then k.p else arcSet a.profile k.p } ∧ LeavesContexts s u a.cell a.elem a.ctx ∧
        u.acc? a.id = none ∧ u = { s with cells := u.cells, accs := u.accs })) ∧
  (∀ (s : State) (a : Access), s.hasCtx a.cell a.elem a.ctx → s.acc? a.id = some a → a.op = .store ∨ a.op = .stx → a.told = false →
    (∀ p ∈ a.parts, p.st = .done ∨ p.st = .inCell) → (∃ p ∈ a.parts, p.st = .inCell) → (∀ r ∈ s.arrivals, r.source ≠ a.id) →
    (∀ e ∈ (s.cell a.cell).sideLog, e.id ≠ a.id) →
    let k := s.ctxOf a.cell a.elem a.ctx
    (scopeOf a.profile ≠ 0 → exec (.accessCompletion a.id) s = .next s) ∧
    (scopeOf a.profile = 0 → Completes (.accessCompletion a.id) s fun u =>
      u.ctxOf a.cell a.elem a.ctx = { k with p := arcSet a.profile k.p } ∧ LeavesContexts s u a.cell a.elem a.ctx ∧
      u.acc? a.id = some { a with told := true } ∧ u = { s with cells := u.cells, accs := u.accs })) ∧
  ∀ (s : State) (f : Fence), s.hasCtx f.cell f.elem f.ctx → s.acc? f.id = none → s.fences.find? (·.id == f.id) = some f →
    let unread := s.unread f.cell f.elem f.ctx f.seq
    ((∃ m ∈ f.marked, s.liveAt f.scope m = true) ∨ (∃ m ∈ f.reads, m ∈ unread) → exec (.accessCompletion f.id) s = .next s) ∧
    ((∀ m ∈ f.marked, s.liveAt f.scope m = false) → (∀ m ∈ f.reads, m ∉ unread) → Completes (.accessCompletion f.id) s fun u =>
      let k := s.ctxOf f.cell f.elem f.ctx
      u.ctxOf f.cell f.elem f.ctx = { k with p := (match f.arc with | some n => setPred k.p n true | none => k.p) } ∧
      LeavesContexts s u f.cell f.elem f.ctx ∧ u.fences = s.fences.filter (·.id != f.id) ∧
      u = { s with cells := u.cells, accs := u.accs, fences := u.fences })

/-- R48, R379: a request unanswered for 2 ms fails its access with a memory-timeout record that holds the context. -/
def Sys2Proof.Machine.Timeouts : Prop := ∀ (s : State) (a : Access) (p : Part), s.hasCtx a.cell a.elem a.ctx → dieOf a.cell < s.dies.length →
  s.acc? a.id = some a → a.parts = [p] → p.st = .waiting → a.op ≠ .prefetch → p.since + 2000000000 * Config.ps ≤ s.time → s.blocked a 0 p = false →
  s.mergeOf a.id 0 = none → s.reported a.id = false → Completes (.memoryTimeout a.id) s fun u =>
    RaisedHold s u a.cell a.elem a.ctx a.slot a.opcode 0 a.profile (0x0D, 0, a.markOf p, p.va) (.access a.id 0) ∧
    u.acc? a.id = some { a with parts := [{ p with st := .failed 0x0D s.ticks }] } ∧ u.mem = s.mem

/-- R48, R115, R282: accesses bind, complete and time out. -/
def Obligations.AccessEndEvents : Prop :=
  AccessEnds ∧ Timeouts

/-! Atomics, waits and futures at home. -/

/-- R96, R118, R139, R141, R144, R289, R291: an atomic or a future form at home reads its word, writes it and binds the old value as one event;
copies are recalled first, and the directory keeps the cell of a cached one as the owner of a region that nobody holds. What a release at cell or
die scope passes is the model's choice (log 12). -/
def Sys2Proof.Machine.AtomicsAtHome : Prop := ∀ (s : State) (id i : Nat) (a : Access) (p : Part) (pl : List SlicePlru) (ls : List SliceLine),
  s.acc? id = some a → a.parts[i]? = some p → s.atomicReady a i p = true → s.mergeOf id i = none → s.sound →
  (∀ x ∈ s.accs, x.res = .none → ∀ o, x.op = .atomic o → ∀ q ∈ x.parts, leafSm q.leaf = false ∨ leafCp q.leaf = 2) →
  leafSm p.leaf = false ∨ leafCp p.leaf = 2 → leafCp p.leaf = 2 ∨ s.sliceTouch p.pa 0 = { s with plru := pl, sliceLines := ls } →
  (leafCp p.leaf = 0 → s.dir.length < 16) →
  let holders := s.conflicts (lineOf p.pa) true none
  let old := memNat s.mem p.pa p.size
  let unpassed := fun (x : Access) => { x with passed := none }
  let owns := fun (u : State) => leafCp p.leaf = 0 → moduleOf p.pa = s.hub.modnum → s.dir.find? (·.region == lineOf p.pa / 4096) = none →
    u.dir = s.dir ++ [⟨lineOf p.pa / 4096, .own a.cell, none, s.time⟩]
  (holders ≠ [] → (∀ h ∈ holders, s.copySpoiled h (lineOf p.pa) = false) → exec (.atomicAtHome id i) s = .next { s with recalls := s.recalls ++ [⟨lineOf p.pa, holders, false⟩] }) ∧
  (∀ op, holders = [] → a.op = .atomic op → Completes (.atomicAtHome id i) s fun u =>
    let r := atomicNew op (8 * p.size) old (leNat p.data) p.word
    WrittenAt s u p.pa (if r.2.2 then leBytes p.size r.1 else []) ∧ u.cells = s.cells ∧ owns u ∧
    (∀ k, k ≠ id → (u.acc? k).map unpassed = (s.acc? k).map unpassed ∧ (a.narrow = false → u.acc? k = s.acc? k)) ∧
    (u.acc? id).map unpassed = some (unpassed { a with
      flags := Nat.lor a.flags r.2.1, parts := a.parts.set i { p with st := .done, bound := leBytes p.size old } })) ∧
  (holders = [] → a.op = .freg ∨ a.op = .fres → Completes (.atomicAtHome id i) s fun u =>
    let r := futureStep (a.op == .freg) old p.word
    WrittenAt s u p.pa (match r.1 with | some v => leBytes 8 v | none => []) ∧ u.cells = s.cells ∧ owns u ∧
    (r.2.1 = none → u.arrivals = s.arrivals) ∧
    (∀ j, r.2.1 = some j → ∃ y, u.arrivals = s.arrivals ++ [y] ∧ y.va = j % 2 ^ 64 ∧ y.source = id ∧ y.lane = p.lane ∧
      y.launch = (s.cell a.cell).launchUid) ∧
    u.acc? id = some { a with
      parts := a.parts.set i { p with st := .done, bound := (match r.2.2 with | some c => [c] | none => []), since := s.time } })

/-- R147: a merge buffer sends a held request on to the next router of its path, where it is held, or combines with a compatible request that is
within its eight network cycles; one with 16 contributions, or past its last router, is on its way home; a full buffer sends its oldest on. -/
def Sys2Proof.Machine.MergeForwards : Prop := ∀ (s : State) (e : MergeEntry),
  s.merges.find? (fun x => x.id == e.id && x.router == e.router && e.router != 4095) = some e →
  let rest := s.merges.filter (·.id != e.id)
  let forward := fun (ms : List MergeEntry) => exec (.mergeBufferForward e.router e.id) s = .next { s with merges := ms }
  let meets := fun (r : Nat) (x : MergeEntry) => x.router == r && x.fits e && s.mergeOpen x
  (e.path = [] → forward (rest ++ [{ e with router := 4095 }])) ∧
  ∀ r path, e.path = r :: path →
    let here := { e with router := r, path := path, since := s.time }
    (∀ x, rest.find? (meets r) = some x →
      let n := x.contribs ++ e.contribs
      let y := { x with operand := (atomicNew x.op (8 * x.size) x.operand e.operand 0).1, contribs := n }
      forward (rest.map fun k => if k.id = x.id then (if 16 ≤ n.length then { y with router := 4095, path := [] } else y) else k)) ∧
    (rest.find? (meets r) = none →
      ((rest.filter (·.router == r)).length < 16 → forward (rest ++ [here])) ∧
      ∀ old, 16 ≤ (rest.filter (·.router == r)).length → (rest.filter (·.router == r)).head? = some old → old.path = [] →
        forward (rest.filter (·.id != old.id) ++ [here] ++ [{ old with router := 4095 }]))

/-- R158, R376: a woken wait writes the value it last read, wakes its context and sets its arc; a word that has become uncorrectable raises a record
instead, which holds the context. -/
def Sys2Proof.Machine.Wakings : Prop := ∀ (s : State) (w : Watch), s.hasCtx w.cell w.elem w.ctx →
  s.watches.find? (fun x => x.id == w.id && x.woken) = some w →
  (w.armed = true → w.cell < 2 ^ 16 → s.spoiled w.pa w.size = true → (∀ x ∈ s.accs, x.id ≠ w.id) → s.reported w.id = false → dieOf w.cell < s.dies.length →
    Completes (.waitaWake w.id) s fun u =>
      RaisedHold s u w.cell w.elem w.ctx w.slot 0x63 0 w.profile (0x0C, 0, 2 ^ w.lane, w.va) (.access w.id 0) ∧
      u.watches = s.watches.filter (·.id != w.id) ∧ u.mem = s.mem) ∧
  (w.armed = false ∨ s.spoiled w.pa w.size = false → Completes (.waitaWake w.id) s fun u =>
    let k := s.ctxOf w.cell w.elem w.ctx
    let k' := u.ctxOf w.cell w.elem w.ctx
    let v := if w.armed then s.coherentNat w.pa w.size else w.value
    let n := w.size / 4
    u.watches = s.watches.filter (·.id != w.id) ∧ LeavesContexts s u w.cell w.elem w.ctx ∧ u.mem = s.mem ∧
    (w.dst = none → k' = { k with asleep := false, p := arcSet w.profile k.p }) ∧
    ∀ r, w.dst = some r → w.size = 4 ∨ w.size = 8 → r + n ≤ 16 → w.lane < 64 →
      (∀ j l, j < n → l < 64 → lane (k'.v.getD (r + j) []) l =
        if l = w.lane then BitVec.ofNat 32 (v / 2 ^ (32 * j)) else lane (k.v.getD (r + j) []) l) ∧
      (∀ j, j < r ∨ r + n ≤ j → k'.v.getD j [] = k.v.getD j []) ∧
      k' = { k with v := k'.v, asleep := false, pendV := k.pendV &&& ~~~(regsMask r n), p := arcSet w.profile k.p })

/-- R292: an arrival counts its join record down; the last one marks the record and gives its tail launch to the graph; one more marks an
overrun. -/
def Sys2Proof.Machine.Arrivals : Prop := ∀ (s : State) (r : Arrival) (pa leaf page : Nat),
  s.arrivals.find? (fun x => x.id == r.id && x.paused.isNone) = some r → r.va % 16 = 0 → r.va < 2 ^ 64 →
  s.translateFor r.cell r.asid .future r.va = (.ok pa leaf page, s) → leafSm leaf = false → s.locked pa = false → s.recalling pa = false →
  s.inTurn (lineOf pa) (s.requesterNo r.cell) = true → pa % 16 = 0 → s.uncopied (lineOf pa) 128 → s.sound →
  (leafCp leaf = 0 → s.dir.length < 16) →
  let count := memNat s.mem pa 4
  let flags := memNat s.mem (pa + 4) 4
  (count ≠ 1 → Completes (.futureArrive r.id) s fun u =>
    WrittenAt s u pa (if count = 0 then leBytes 4 0 ++ leBytes 4 (flags ||| 2) else leBytes 4 (count - 1)) ∧
    u.arrivals = s.arrivals.filter (·.id != r.id) ∧ u.launches = s.launches ∧ u.cells = s.cells) ∧
  ∀ n, count = 1 → s.launch? r.launch = some n → n.tail.length < 256 → Completes (.futureArrive r.id) s fun u =>
    WrittenAt s u pa (leBytes 4 0 ++ leBytes 4 (flags ||| 1)) ∧ u.arrivals = s.arrivals.filter (·.id != r.id) ∧
    u.launch? r.launch = some { n with tail := n.tail ++ [(s.nextId, memNat s.mem (pa + 8) 8)] } ∧ u.cells = s.cells

/-- R139, R147, R158, R292: atomics at home, merge buffers, wakings and arrivals. -/
def Obligations.AtomicEvents : Prop :=
  AtomicsAtHome ∧ MergeForwards ∧ Wakings ∧ Arrivals

/-! MWCAS at work. -/

/-- The end of an MWCAS: its predicate, its contention count, its arc, its result lanes, and none of its locks held (R151, R153). -/
def Sys2Proof.Machine.MwEnds (s u : State) (m : MwOp) (obs : List Nat) (ok contended : Bool) : Prop :=
  let k := s.ctxOf m.cell m.elem m.ctx
  let k' := u.ctxOf m.cell m.elem m.ctx
  u.mw? m.id = none ∧ (∀ x ∈ u.locks, x.line ∈ m.locked → x.holder ≠ m.id) ∧ LeavesContexts s u m.cell m.elem m.ctx ∧
  k'.p = arcSet m.profile (setPred k.p m.pred ok) ∧ k'.mwcnt = (if contended then min 7 (k.mwcnt + 1) else 0) ∧
  (m.dst = none → k' = { k with p := k'.p, mwcnt := k'.mwcnt }) ∧
  ∀ r, m.dst = some r → r + 2 ≤ 16 →
    k' = { k with p := k'.p, mwcnt := k'.mwcnt, v := k'.v, pendV := k.pendV &&& ~~~(regsMask r 2) } ∧
    (∀ j l, j < 2 → l < 64 → lane (k'.v.getD (r + j) []) l = if l < m.entries.length then BitVec.ofNat 32 (obs.getD l 0 / 2 ^ (32 * j))
      else lane (k.v.getD (r + j) []) l)

/-- R145, R151, R153, R154: an MWCAS waits for its context's earlier accesses, then locks its lines one by one in ascending order; a line held by another fails it, or queues it where it is an
elder; with every line locked all its words are compared and, where they are equal, written, as one event. -/
def Sys2Proof.Machine.MwcasPhases : Prop := ∀ (s : State) (m : MwOp) (pl : List SlicePlru) (ls : List SliceLine), s.hasCtx m.cell m.elem m.ctx → m.id ≠ 0 → s.mw? m.id = some m →
  (m.phase = .waiting → m.entries ≠ [] →
    (s.mwReady m = false → exec (.mwcasLockPhase m.id) s = .next s) ∧
    (s.mwReady m = true → exec (.mwcasLockPhase m.id) s = .next (s.setMw m.id fun x => { x with phase := .locking, since := s.time }))) ∧
  (m.phase = .locking → s.mwExpired m = false →
  (∀ l : Nat, m.lines.find? (fun l => !m.locked.contains l) = some l →
    (s.locks.find? (·.line == l) = none → s.recalling l = false → s.inTurn l (s.requesterNo m.cell) = true → s.conflicts l true none = [] →
      exec (.mwcasLockPhase m.id) s = .next (({ s.serveTurn l (s.requesterNo m.cell) with locks := s.locks ++ [⟨l, m.id, []⟩] } : State).setMw m.id fun x =>
        { x with locked := x.locked ++ [l], since := s.time, start := if x.locked.isEmpty then s.time else x.start })) ∧
    ∀ k, s.locks.find? (·.line == l) = some k → s.recalling l = false → s.inTurn l (s.requesterNo m.cell) = true →
      (m.elder = false → Completes (.mwcasLockPhase m.id) s fun u =>
        MwEnds s u m (m.entries.map fun e => e.2.2.1) false true ∧ u.mem = s.mem) ∧
      (m.elder = true → Completes (.mwcasLockPhase m.id) s fun u =>
        u.mw? m.id = some { m with phase := .queued l } ∧ u = { s with locks := u.locks, mwops := u.mwops, servedNow := u.servedNow } ∧
        ∀ q, u.locks.find? (·.line == l) = some q → m.id ∈ q.queue ∧ q.holder = k.holder)) ∧
  (m.lines.find? (fun l => !m.locked.contains l) = none → s.sound → s.mwTouch m = { s with plru := pl, sliceLines := ls } → (∀ e ∈ m.entries, e.2.1 % 8 = 0) → (m.entries.map (·.2.1)).Nodup →
    let obs := m.entries.map fun e => memNat s.mem e.2.1 8
    (obs = m.entries.map (·.2.2.1) → Completes (.mwcasLockPhase m.id) s fun u => MwEnds s u m obs true false ∧
      (∀ e ∈ m.entries, memNat u.mem e.2.1 8 = e.2.2.2 % 2 ^ 64) ∧
      ∀ x, (∀ e ∈ m.entries, x < e.2.1 ∨ e.2.1 + 8 ≤ x) → memRead u.mem x = memRead s.mem x) ∧
    (obs ≠ m.entries.map (·.2.2.1) → Completes (.mwcasLockPhase m.id) s fun u => MwEnds s u m obs false false ∧ u.mem = s.mem)))

/-- R154, R156: a released line passes to its first queued elder; an MWCAS that holds locks beyond its bound fails, or starts again where it is
an elder; a lock request or a commit unanswered for 2 ms ends in a memory-timeout record: of a commit, the writes at the homes that answered stay, and LANES
marks the others, all those of a module alike. -/
def Sys2Proof.Machine.MwcasTimers : Prop := ∀ (s : State) (m : MwOp), s.hasCtx m.cell m.elem m.ctx → dieOf m.cell < s.dies.length → m.id ≠ 0 →
  s.mw? m.id = some m →
  (∀ (k : LineLock) (rest : List Nat), s.locks.find? (fun k' => k'.line == k.line && k'.holder == 0) = some k → k.queue = m.id :: rest →
    exec (.mwcasQueuedLockGrant k.line) s = .next (({ s with locks := s.locks.map fun x =>
      if x.line = k.line then { x with holder := m.id, queue := rest } else x } : State).setMw m.id fun x =>
        { x with locked := x.locked ++ [k.line], phase := .locking, since := s.time
                 start := if x.locked.isEmpty then s.time else x.start })) ∧
  (s.mwExpired m = true →
    (m.elder = false → Completes (.mwcasBoundExpiry m.id) s fun u => MwEnds s u m (m.entries.map (·.2.2.1)) false true ∧ u.mem = s.mem) ∧
    (m.elder = true → Completes (.mwcasBoundExpiry m.id) s fun u =>
      u.mw? m.id = some { m with locked := [], phase := .locking, start := 0, since := s.time } ∧ u.cells = s.cells ∧ u.mem = s.mem ∧
      ∀ x ∈ u.locks, x.line ∈ m.locked → x.holder ≠ m.id)) ∧
  (∀ l lane e, m.phase = .locking → m.since + 2000000000 * Config.ps ≤ s.time → m.lines.find? (fun l => !m.locked.contains l) = some l →
    m.entries.find? (fun e => lineOf e.2.1 == l) = some e → lowest m.m0 = some lane → Completes (.mwcasLockTimeout m.id) s fun u =>
      RaisedHold s u m.cell m.elem m.ctx m.slot 0x61 0 m.profile (0x0D, 0, 2 ^ lane, e.1) (.mwcas m.id) ∧ u.mem = s.mem ∧
      u.mw? m.id = some { m with phase := .paused, locked := [], start := 0 }) ∧
  let lost := s.unreached m
  let home := fun (i : Nat) => (m.entries[i]?).map fun e => moduleOf e.2.1
  (s.commitLate m = true → m.entries.length ≤ 8 →
    lost ≠ [] ∧ (∀ i ∈ lost, ∃ n, home i = some n ∧ n ≠ s.hub.modnum) ∧ ∀ i j, i ∈ lost → home i = home j → j ∈ lost) ∧
  (s.commitLate m = true → (∀ e ∈ m.entries, e.2.1 % 8 = 0) → (m.entries.map (·.2.1)).Nodup → m.entries.length ≤ 8 → m.dst = none →
    Completes (.mwcasCommitTimeout m.id) s fun u =>
      (∀ i e, m.entries[i]? = some e → i ∉ lost → memNat u.mem e.2.1 8 = e.2.2.2 % 2 ^ 64) ∧
      (∀ x, (∀ i e, m.entries[i]? = some e → i ∉ lost → x < e.2.1 ∨ e.2.1 + 8 ≤ x) → memRead u.mem x = memRead s.mem x) ∧
      ∀ i e, lost.head? = some i → m.entries[i]? = some e →
        ∃ id, Raised s u m.cell m.elem m.ctx m.slot 0x61 0 m.profile (0x0D, 0, (lost.map fun i => 2 ^ i).sum, e.1) (.mwcas m.id) id ∧
          LeavesContexts s u m.cell m.elem m.ctx ∧
          u.ctxOf m.cell m.elem m.ctx = { s.ctxOf m.cell m.elem m.ctx with
            p := arcSet m.profile (setPred (s.ctxOf m.cell m.elem m.ctx).p m.pred true), mwcnt := 0
            heldBy := (s.ctxOf m.cell m.elem m.ctx).heldBy ++ [id] })

/-- R150 to R157: the phases of an MWCAS. Which homes a timeout loses and the ADDR of its record are the model's choice (log 6); that the block is read in the step of the firing, and that one lock is taken a step, is too (log 27). -/
def Obligations.MwcasEvents : Prop :=
  MwcasPhases ∧ MwcasTimers

/-! Walks, replays, invalidations, sweeps. -/

/-- R20, R21, R22, R30: a walk from an ASID's root goes down five levels of tables of 512 entries to a 4 KiB leaf; an invalid entry ends it
with cause 0, a last-level entry that is no leaf with cause 2, a defect of the leaf with its cause. -/
def Sys2Proof.Machine.TableWalks : Prop := ∀ (s : State) (die asid va : Nat), asid ≠ 0 → s.hub.asidEn = true → va < 2 ^ 57 →
  (s.die die).tableCache = [] → (∀ c ∈ s.cells, c.cch = []) → s.hostCopies = [] → s.locks = [] → s.recalls = [] → s.sound →
  let slot := fun (table level : Nat) => table + 8 * (va / 2 ^ (12 + 9 * level) % 512)
  let next := fun (e : Nat) => e / 2 ^ 16 % 2 ^ 40 * 4096
  let ok := fun (e : Nat) => e.testBit 0 = true ∧ e.testBit 1 = false ∧ s.tableCause asid (next e) = none
  let rootAt := s.hub.asidBase * 2 ^ 19 + 8 * asid
  let root := memNat s.mem rootAt 8
  s.tableCause 0 (rootAt / 4096 * 4096) = none →
  (root.testBit 0 = false → (s.walk die asid va).1 = .cause 0) ∧
  (root.testBit 0 = true → s.tableCause asid (next root) = none →
    let e4 := memNat s.mem (slot (next root) 4) 8
    let e3 := memNat s.mem (slot (next e4) 3) 8
    let e2 := memNat s.mem (slot (next e3) 2) 8
    let e1 := memNat s.mem (slot (next e2) 1) 8
    let e0 := memNat s.mem (slot (next e1) 0) 8
    (e4.testBit 0 = false → (s.walk die asid va).1 = .cause 0) ∧
    (ok e4 → ok e3 → ok e2 → ok e1 →
      (e0.testBit 0 = false → (s.walk die asid va).1 = .cause 0) ∧
      (e0.testBit 0 = true → e0.testBit 1 = false → (s.walk die asid va).1 = .cause 2) ∧
      (e0.testBit 0 = true → e0.testBit 1 = true → (s.walk die asid va).1 =
        match s.leafCause asid e0 0 with | some c => .cause c | none => .leaf e0 (slot (next e1) 0) 0)))

/-- R36, R42: a walk in a walker installs the leaf it reaches in the L1 TLB of the cell that asked for it, and nothing where it reaches none; one
whose table read waits stays, and one behind 768 others of its die stays in the queue. -/
def Sys2Proof.Machine.WalksAhead : Prop := ∀ (s s' : State) (w : WalkReq) (c : Nat), s.walks.find? (·.id == w.id) = some w → w.cells = [c] →
  s.loaded c = true → w.die < s.dies.length →
  (768 ≤ ((s.walks.takeWhile (·.id != w.id)).filter (·.die == w.die)).length → exec (.pageWalk w.id) s = .next s) ∧
  (((s.walks.takeWhile (·.id != w.id)).filter (·.die == w.die)).length < 768 →
    (s.walk w.die w.asid w.va = (.waits, s') → exec (.pageWalk w.id) s = .next s) ∧
    (∀ cause, s.walk w.die w.asid w.va = (.cause cause, s') ∨ s.walk w.die w.asid w.va = (.bad, s') →
      exec (.pageWalk w.id) s = .next { s with walks := s.walks.filter (·.id != w.id) }) ∧
    ∀ e pa level, s.walk w.die w.asid w.va = (.leaf e pa level, s') → e.testBit 13 = false → s'.homeWaits pa true = false →
      leafFault .load true (e / 2 ^ 16 % 2 ^ 40 * 4096 + w.va % pageSize level) e = none →
      Completes (.pageWalk w.id) s fun u =>
        u.walks = s.walks.filter (·.id != w.id) ∧ ∃ t ∈ (u.cell c).tlb, t.covers w.asid w.va = true)

/-- R38, R39: a TLBINV removes the translations it names from every cell and die once its context's earlier stores are performed at package
scope, and sets its arc once every access that was translated through them is. The migration engine's own does not wait for stores that are
performed in a cell's software-managed copy, which the move flushes afterwards: DEDUCED (log 44). -/
def Sys2Proof.Machine.Invalidations : Prop := ∀ (s : State) (v : TlbInv), s.invs.find? (·.id == v.id) = some v →
  let uses := fun (p : Part) => p.st = .waiting ∨ (p.st = .inCell ∧ v.cell ≠ hubActor)
  (v.begun = false → (∃ a ∈ s.accs, a.id ∈ v.before ∧ ∃ p ∈ a.parts, p.st ≠ .done) → exec (.tlbinvComplete v.id) s = .next s) ∧
  (v.begun = false → (∀ i ∈ v.before, s.storePending i = false) → Completes (.tlbinvComplete v.id) s fun u =>
    (∀ c ∈ u.cells, ∀ e ∈ c.tlb, e.named v.form v.asid (v.va % 2 ^ 57) = false) ∧
    (∀ d ∈ u.dies, (∀ e ∈ d.tlb, e.named v.form v.asid (v.va % 2 ^ 57) = false) ∧
      ∀ e ∈ d.tableCache, e.named v.form v.asid (v.va % 2 ^ 57) = false) ∧
    u = { s with cells := u.cells, dies := u.dies, invs := u.invs } ∧
    (∀ c, s.loaded c = true → u.cell c = { s.cell c with tlb := (s.cell c).tlb.filter fun e => !e.named v.form v.asid (v.va % 2 ^ 57) }) ∧
    ∃ x, u.invs.find? (·.id == v.id) = some x ∧ x.begun = true ∧
      ∀ a ∈ s.accs, a.op ≠ .prefetch →
        (∃ p ∈ a.parts, uses p ∧ namedPage v.form v.asid (v.va % 2 ^ 57) a.asid p.va p.page = true) → a.id ∈ x.waitFor) ∧
  (v.begun = true → (∃ a ∈ s.accs, a.id ∈ v.waitFor ∧ ∃ p ∈ a.parts, uses p) → exec (.tlbinvComplete v.id) s = .next s) ∧
  (v.begun = true → (∀ i ∈ v.waitFor, s.using (v.cell == hubActor) i = false) → s.hasCtx v.cell v.elem v.ctx →
    Completes (.tlbinvComplete v.id) s fun u =>
    let k := s.ctxOf v.cell v.elem v.ctx
    u.invs = s.invs.filter (·.id != v.id) ∧ LeavesContexts s u v.cell v.elem v.ctx ∧
    u.ctxOf v.cell v.elem v.ctx = { k with p := (match v.arc with | some n => setPred k.p n true | none => k.p) } ∧
    u = { s with cells := u.cells, invs := u.invs })

/-- R43, R45, R47: when the line of a migrating leaf is written, the logged stores of its page are due for their replay, and a context that waits
for the leaf walks again for all its lanes: it goes on waiting where one meets MIG = 1 or a walk, and is free to fire where all succeed or one
faults. -/
def Sys2Proof.Machine.LeavesWritten : Prop := ∀ (s : State) (line : Nat),
  let moved := fun (pa v : Nat) => lineOf pa == line && s.coherentNat pa 8 != v
  let due := fun (c : Cell) (e : SideEntry) => c.sideLog.any fun k => k.asid == e.asid && k.page == e.page && k.mig.any fun m => moved m.1 m.2
  let marked : State := { s with cells := s.cells.map fun c =>
    { c with sideLog := c.sideLog.map fun e => if due c e then { e with replaying := true } else e } }
  let still := fun (c e x : Nat) => ∀ pa v asid vas k, (s.ctxOf c e x).wait = some (.migLeaf pa v asid vas k) → moved pa v = false
  ((∀ c e x, still c e x) → exec (.migLeafWritten line) s = .next marked) ∧
  ∀ c e x pa v asid vas k, s.hasCtx c e x → e < 4 → x < 4 → (s.cells.map (·.id)).Nodup →
    (∀ c' e' x', (c', e', x') ≠ (c, e, x) → still c' e' x') →
    (s.ctxOf c e x).wait = some (.migLeaf pa v asid vas k) → moved pa v = true →
    ∀ r : Nat → Trans, (∀ va ∈ vas, marked.translateFor c asid k va = (r va, marked)) →
      let goes := fun (w : Option Wait) => exec (.migLeafWritten line) s = .next (marked.setCtx c e x fun q => { q with wait := w })
      ((∃ va ∈ vas, r va = .busy) → exec (.migLeafWritten line) s = .next marked) ∧
      ((∀ va ∈ vas, r va ≠ .busy) → (∃ va ∈ vas, ∃ code cause, r va = .fault code cause) → goes none) ∧
      ((∀ va ∈ vas, ∃ pa leaf page, r va = .ok pa leaf page) → goes none) ∧
      ∀ before va after, vas = before ++ va :: after → (∀ va ∈ vas, r va ≠ .busy) → (∀ va ∈ vas, ∀ code cause, r va ≠ .fault code cause) →
        (∀ b ∈ before, ∀ fpa leaf lp v, r b ≠ .mig fpa leaf lp v) → ∀ fpa leaf lp v', r va = .mig fpa leaf lp v' →
          goes (some (.migLeaf lp v' asid vas k))

/-- R43, R45, R46, R47: the replay of a page of the side log walks again: where the translation succeeds the logged store is issued, as a part of
its access, and its entry stays in the log until it is performed; a translation that faults raises a record with LOGGED set and keeps the
entry, and one that meets MIG = 1 leaves it waiting for that leaf. -/
def Sys2Proof.Machine.Replays : Prop :=
  (∀ (s : State) (c : Nat) (e : SideEntry) (l va : Nat) (data : List Nat) (r : Trans),
    s.loaded c = true → (s.cells.map (·.id)).Nodup → (s.cell c).sideLog = [e] → e.replaying = true → (s.cell c).stopped = false →
    e.lanes = [(l, va, data)] → e.reduction = none → e.opcode ≠ 0x56 → e.opcode ≠ 0x50 →
    (∀ a ∈ s.accs, a.id = e.id → ∀ p ∈ a.parts, p.va / 4096 * 4096 ≠ e.page) → s.translateFor c e.asid .store va = (r, s) →
    let kept := fun (u : State) (k : SideEntry) => u = { s with cells := u.cells } ∧ u.cell c = { s.cell c with sideLog := [k] } ∧
      ∀ k, k ≠ c → u.cell k = s.cell k
    (∀ pa leaf page, r = .ok pa leaf page →
      let part : Part :=
        { lane := l, va := va, pa := pa, size := e.width, leaf := leaf, page := page, data := data
          word := ((e.descs.find? (·.1 == l)).map (·.2)).getD 0, st := .waiting, bound := [], since := s.time }
      (∀ a, s.acc? e.id = some a → Completes (.sideLogReplay c e.page) s fun u =>
        u = { s with accs := u.accs } ∧ u.acc? e.id = some { a with parts := a.parts ++ [part] } ∧ ∀ k, k ≠ e.id → u.acc? k = s.acc? k) ∧
      (s.acc? e.id = none → Completes (.sideLogReplay c e.page) s fun u => ∃ m : LaneMask,
        (∀ j, j < 64 → (m.getLsbD j = true ↔ j = l)) ∧
        u = { s with accs := s.accs ++ [
          { id := e.id, cell := c, elem := e.elem, ctx := e.ctx, slot := e.slot, opcode := e.opcode, seq := e.seq, op := .store, res := .none
            profile := e.profile, m0 := m, asid := e.asid, parts := [part], flags := 0, acquire := false
            release := e.order == 2 || e.order == 3, told := false, passed := none }] })) ∧
    (∀ code cause, r = .fault code cause → s.acc? e.id = none → dieOf c < s.dies.length → Completes (.sideLogReplay c e.page) s fun u =>
      (∃ id, Raised s u c e.elem e.ctx e.slot e.opcode 1 e.profile (code, cause, 2 ^ l, va) (.logged c e.page e.asid) id) ∧
      u.cell c = { s.cell c with sideLog := [{ e with replaying := false, mig := none }] } ∧ u.mem = s.mem ∧ u.accs = s.accs) ∧
    (∀ pa leaf lp v, r = .mig pa leaf lp v → Completes (.sideLogReplay c e.page) s fun u =>
      kept u { e with replaying := false, mig := some (lp, v) }) ∧
    (r = .busy → exec (.sideLogReplay c e.page) s = .next s)) ∧
  ∀ (s : State) (a : Access) (e : SideEntry), s.loaded a.cell = true → s.acc? a.id = some a → a.op = .store ∨ a.op = .stx →
    (s.cell a.cell).sideLog = [e] → e.id = a.id → (∀ p ∈ a.parts, p.st = .done) → (∃ p ∈ a.parts, p.va / 4096 * 4096 = e.page) →
    (∀ r ∈ s.arrivals, r.source ≠ a.id) → Completes (.accessCompletion a.id) s fun u =>
      (u.cell a.cell).sideLog = [] ∧ u.acc? a.id = none ∧ u.mem = s.mem

/-- R59, R69, R87, R88: every 256 us a slice clears the persistent marks that no persist access has touched; a scrub corrects single-bit errors and
counts them, saturating, and the scrub of a slice drops a clean copy that a double-bit error has met; the next scrub of a slice is due within 10 s,
that of a cell within 1 s. That a scrub may come at any time before is the model's choice (log 23). -/
def Sys2Proof.Machine.SweepsAndScrubs : Prop :=
  (∀ (s : State) (u : Upset), u ∈ s.upsets → u.double = true → u.place = .sliceData →
    (∀ l ∈ s.sliceLines, l.line = lineOf u.addr → l.dirty = false) → Completes (.sliceScrub (homeSlice u.addr)) s fun v =>
      u ∉ v.upsets ∧ v.mem = s.mem ∧ v.sliceLines = s.sliceLines) ∧
  (∀ (s : State) (n : Nat), n < 384 → s.persistNext.getD n 0 ≤ s.time → exec (.persistSweep n) s = .next
    { s with sliceLines := s.sliceLines.map fun l =>
               if homeSlice l.line = n then { l with persist := l.persist && l.touched, touched := false } else l
             persistNext := s.persistNext.set n (s.persistNext.getD n 0 + 256000000 * Config.ps) }) ∧
  ∀ (s : State) (i : Instr) (die : Nat) (hit : Upset → Bool),
    (∃ n, i = .sliceScrub n ∧ die = n / 48 ∧ (∀ u ∈ s.upsets, u.double = true → u.place ≠ .sliceData) ∧
      hit = fun u => [Place.memory, .sliceData, .sliceTag, .directory].contains u.place && homeSlice u.addr == n) ∨
    (∃ c, i = .cellScrub c ∧ die = dieOf c ∧ hit = fun u => match u.place with
      | .sram k => k == c && (s.cell c).role (u.addr / 8192) != .off
      | .codebook k | .slots k _ | .entries k _ => k == c
      | _ => false) →
    let fixed := s.upsets.filter fun u => hit u && !u.double
    fixed ≠ [] → die < s.dies.length → Completes i s fun u =>
      u.upsets = s.upsets.filter (fun x => !(hit x && !x.double)) ∧
      u.die die = { s.die die with corr := min ((s.die die).corr + fixed.length) (2 ^ 32 - 1) } ∧
      u = { s with upsets := u.upsets, dies := u.dies, sliceScrubs := u.sliceScrubs, cellScrubs := u.cellScrubs } ∧
      (∀ n, i = .sliceScrub n → u.sliceScrubs = s.sliceScrubs.set n (s.time + 10 ^ 13 * Config.ps) ∧ u.cellScrubs = s.cellScrubs) ∧
      (∀ c, i = .cellScrub c → u.cellScrubs = s.cellScrubs.set c (s.time + 10 ^ 12 * Config.ps) ∧ u.sliceScrubs = s.sliceScrubs) ∧
      ∀ d, d ≠ die → u.die d = s.die d

/-- R20 to R47, R69, R87: walks, invalidations, replays, sweeps and scrubs. When a walk ahead ends (log 7), when a scrub meets a word and which words it meets (log 23), and what the engine's own TLBINV waits for (log 44) are the model's choices or deductions. -/
def Obligations.TranslationEvents : Prop :=
  TableWalks ∧ WalksAhead ∧ Invalidations ∧ LeavesWritten ∧ Replays ∧ SweepsAndScrubs

/-! Tokens, quiescence and drafts. -/

/-- A channel of a loaded cell. -/
abbrev Sys2Proof.Machine.State.hasChan (s : State) (c e n : Nat) : Prop :=
  s.loaded c = true ∧ e < (s.cell c).elems.length ∧ n < ((s.cell c).elem e).ins.length

/-- R177, R178, R345: tokens join the channel or the stage queue they were sent to, where their reservations end, in the order in which their
producer sent them: while an earlier token of the same producer is on its way, or where one of a stream or an event still waits for its reservation, a
token stays. -/
def Sys2Proof.Machine.TokensArrive : Prop := ∀ (s : State) (f : Flight), s.flights.find? (·.id == f.id) = some f →
  let fromEvent := ∃ a b, f.source = .event a b
  let waits := (fromEvent ∨ ∃ k, f.source = .stream k) ∧ f.place.isSome = true
  let first := ∀ g ∈ s.flights.takeWhile (·.id != f.id), g.source ≠ f.source
  (¬first ∨ waits → exec (.tokenArrival f.id) s = .next s) ∧
  (first → ¬waits →
    (∀ c e n, f.target = .chan c e n → s.hasChan c e n → (∀ x, x < 4 → (s.ctxOf c e x).multi = none) → Completes (.tokenArrival f.id) s fun u =>
      u.flights = s.flights.filter (·.id != f.id) ∧ u.mem = s.mem ∧ (∀ k, k ≠ c → u.cell k = s.cell k) ∧
      ((u.cell c).elem e).chan n = { tokens := (((s.cell c).elem e).chan n).tokens ++ f.items
                                     granted := (((s.cell c).elem e).chan n).granted - f.items.length } ∧
      (∀ j, j ≠ n → ((u.cell c).elem e).chan j = ((s.cell c).elem e).chan j)) ∧
    (∀ c e n x slot need m held, f.target = .chan c e n → s.hasChan c e n → s.hasCtx c e x → x < 4 →
      (∀ y, y < 4 → y ≠ x → (s.ctxOf c e y).multi = none) → (s.ctxOf c e x).multi = some (.rayin slot n need m held) →
      Completes (.tokenArrival f.id) s fun u =>
        let ts := (((s.cell c).elem e).chan n).tokens ++ f.items
        (((u.cell c).elem e).chan n).tokens = ts.drop (16 - held.length) ∧
        u.ctxOf c e x = { s.ctxOf c e x with multi := some (.rayin slot n need m (held ++ (ts.take (16 - held.length)).map (·.lanes))) } ∧
        u.flights = s.flights.filter (·.id != f.id)) ∧
    ∀ l st q, f.target = .queue l st → s.queue? l st = some q → Completes (.tokenArrival f.id) s fun u =>
      u.flights = s.flights.filter (·.id != f.id) ∧ u.cells = s.cells ∧
      (fromEvent → u.queue? l st = some { q with granted := q.granted - f.items.length, items := q.items ++ f.items.map .tok }) ∧
      (¬fromEvent → u.queue? l st = some { q with
        granted := q.granted - f.items.length
        items := match f.place with
          | some p => q.items.map fun i => if i = .place p then .packet f.items else i
          | none => q.items ++ f.items.map .tok }))

/-- R177, R186, R344, R372: a target with room grants the oldest request that contends for it, and its producer then holds the reservation, or its
waiting token leaves; while an older request contends for the target, where the target has no room, or where a stream's token would come into a
region in the configuration period that a DRAFTSW waits for, the request stays. -/
def Sys2Proof.Machine.ReservationsGranted : Prop := ∀ (s : State) (g : GrantReq), s.grants.find? (·.id == g.id) = some g →
  let held := ∃ k c e n, g.source = .stream k ∧ g.target = .chan c e n ∧ s.inPeriod c = true
  let first := ∀ x ∈ s.grants.takeWhile (·.id != g.id), x.target ≠ g.target
  let taken := fun (u : State) => u.grants = s.grants.filter (·.id != g.id)
  let leaves := fun (u : State) =>
    u.flights = s.flights.map fun f => if f.source = g.source ∧ f.place.isSome = true then { f with place := none } else f
  (s.hasRoom g.target = false ∨ ¬first ∨ held → exec (.reservationGrant g.id) s = .next s) ∧
  (s.hasRoom g.target = true → first → ¬held →
    (∀ c' e' n', g.target = .chan c' e' n' → s.hasChan c' e' n' →
      (∀ c e n, g.source = .out c e n → s.loaded c = true → e < (s.cell c).elems.length → n < ((s.cell c).elem e).outs.length →
        Completes (.reservationGrant g.id) s fun u => taken u ∧ ((u.cell c).elem e).outs.getD n .idle = .held ∧
          (((u.cell c').elem e').chan n').granted = (((s.cell c').elem e').chan n').granted + 1 ∧
          (((u.cell c').elem e').chan n').tokens = (((s.cell c').elem e').chan n').tokens ∧ u.flights = s.flights) ∧
      (∀ k x, g.source = .stream k → s.stream? k = some x → Completes (.reservationGrant g.id) s fun u => taken u ∧ leaves u ∧
        (((u.cell c').elem e').chan n').granted = (((s.cell c').elem e').chan n').granted + 1 ∧
        u.stream? k = some { x with pushed := x.pushed + 1 } ∧ ∀ q, x.seat = some q → u.partOf (some q) = s.partOf (some q) + 1) ∧
      ∀ a b, g.source = .event a b → Completes (.reservationGrant g.id) s fun u => taken u ∧ leaves u ∧
        (((u.cell c').elem e').chan n').granted = (((s.cell c').elem e').chan n').granted + 1) ∧
    ∀ l st q, g.target = .queue l st → s.queue? l st = some q →
      (∀ c e n, g.source = .out c e n → s.loaded c = true → e < (s.cell c).elems.length → n < ((s.cell c).elem e).outs.length →
        Completes (.reservationGrant g.id) s fun u => taken u ∧ ((u.cell c).elem e).outs.getD n .idle = .held ∧
          u.queue? l st = some { q with granted := q.granted + 1 } ∧ u.flights = s.flights) ∧
      (∀ a b, g.source = .event a b → Completes (.reservationGrant g.id) s fun u => taken u ∧ leaves u ∧
        u.queue? l st = some { q with granted := q.granted + 1 }) ∧
      ∀ c e x slot ch n place, g.source = .ray c e x → s.hasCtx c e x → (s.ctxOf c e x).multi = some (.rayout slot ch n place) →
        Completes (.reservationGrant g.id) s fun u => taken u ∧ u.flights = s.flights ∧
          (n + 1 ≠ 16 → u.ctxOf c e x = { s.ctxOf c e x with multi := some (.rayout slot ch (n + 1) place) } ∧
            u.queue? l st = some { q with granted := q.granted + 1 }) ∧
          (n + 1 = 16 → u.ctxOf c e x = { s.ctxOf c e x with multi := some (.rayout slot ch 16 s.nextId) } ∧
            u.queue? l st = some { q with granted := q.granted + 1, items := q.items ++ [.place s.nextId] })) ∧
  ∀ c e n, s.hasRoom (.chan c e n) = (s.loaded c &&
    decide ((((s.cell c).elem e).chan n).tokens.length + (((s.cell c).elem e).chan n).granted < 4))

/-- R179, R186, R344: a stage queue sends its head to a replica with a free reservation, taken in turn from the one after the last served; the rest of a
packet goes to the same replica, and until it has passed no other is served. That a queue's demand for a reservation comes after all the requests that
contend for the channel is the model's choice (log 28). -/
def Sys2Proof.Machine.QueuesDispatch : Prop := ∀ (s : State) (q : StageQueue) (l : Launch),
  s.queue? q.launch q.stage = some q → s.launch? q.launch = some l →
  let sends := fun (c e n : Nat) (t : Token) (after : StageQueue) => Completes (.stageQueueDispatch q.launch q.stage) s fun u =>
    u.queue? q.launch q.stage = some after ∧
    (∃ id, u.flights = s.flights ++ [⟨id, .dispatch q.launch q.stage, .chan c e n, [t], none⟩]) ∧
    (((u.cell c).elem e).chan n).granted = (((s.cell c).elem e).chan n).granted + 1
  (q.inDispatch = none → q.aside = [] →
    let open_ := fun (r : Nat) => ∃ c ∈ s.cells, s.servable l q.stage c = true ∧ c.seat.map (·.rep) = some r ∧ s.entryRoom l.uid q.stage r = true
    (∀ r, s.nextRep l q = some r → open_ r ∧ ∀ k, open_ k →
      (q.lastServed < k → q.lastServed < r ∧ r ≤ k) ∧ (k ≤ q.lastServed → q.lastServed < r ∨ r ≤ k)) ∧
    ((∀ r, ¬open_ r) → exec (.stageQueueDispatch q.launch q.stage) s = .next s) ∧
    ∀ rest r c e n, s.nextRep l q = some r → s.entryOfRep q.launch q.stage r = some (c, e, n) → s.hasChan c e n →
      (∀ t, q.items = .tok t :: rest → sends c e n t { q with items := rest, lastServed := r }) ∧
      ∀ t ts, q.items = .packet (t :: ts) :: rest → sends c e n t { q with items := rest, inDispatch := some (r, ts) }) ∧
  (∀ r, q.inDispatch = some (r, []) → Completes (.stageQueueDispatch q.launch q.stage) s fun u =>
    u.queue? q.launch q.stage = some { q with inDispatch := none, lastServed := r } ∧ u.flights = s.flights ∧ u.cells = s.cells) ∧
  ∀ r t ts c e n, q.inDispatch = some (r, t :: ts) → l.uid = q.launch → s.entryOfRep q.launch q.stage r = some (c, e, n) → s.hasChan c e n →
    (s.inPeriod c = true → exec (.stageQueueDispatch q.launch q.stage) s = .next s) ∧
    (s.inPeriod c = false →
      ((s.cell c).stopped = false → (s.cell c).running = true → s.hasRoom (.chan c e n) = true → (∀ g ∈ s.grants, g.target ≠ .chan c e n) →
        sends c e n t { q with inDispatch := some (r, ts) }) ∧
      ((s.cell c).stopped = true → s.merging q.launch q.stage r = false → Completes (.stageQueueDispatch q.launch q.stage) s fun u =>
        u.queue? q.launch q.stage = some { q with inDispatch := none, aside := q.aside ++ [(r, t :: ts)] } ∧ u.flights = s.flights))

/-- R177 to R179: tokens, reservations and stage queues. -/
def Obligations.TokenEvents : Prop :=
  TokensArrive ∧ ReservationsGranted ∧ QueuesDispatch

/-- R184, R185, R186: a region reports quiescence once, when it is quiescent, and its configuration period begins. -/
def Sys2Proof.Machine.Quiescence : Prop := ∀ (s : State) (r : Region), s.regions.find? (fun x => x.die == r.die && x.index == r.index) = some r →
  (r.reported = true ∨ r.stopping = true ∨ s.quiescent r = false → exec (.quiescenceReport r.die r.index) s = .next s) ∧
  (r.reported = false → r.stopping = false → s.quiescent r = true → Completes (.quiescenceReport r.die r.index) s fun u =>
    u = { s with regions := u.regions } ∧
    u.regions.find? (fun x => x.die == r.die && x.index == r.index) = some { r with reported := true, period := true }) ∧
  (s.quiescent r = true ↔ s.regionCensus r = 0 ∧ (∀ c ∈ r.cells, (s.cell c).sourcesDone = true ∧ (s.cell c).running = true) ∧
    s.channelsEmpty r.cells = true ∧ s.nothingOutstanding r.cells = true ∧ s.nothingEligible r.cells = true)

/-- R111, R117, R222, R257: the images of a DRAFTLD are decided once its loads are bound, with the words they bound: a valid image goes to its target
at once where the target is in no region, else to its shadow store; an invalid one empties the shadow store and leaves one record with DONE set and the
offending address; the access leaves the memory unit and the arc is set. -/
def Sys2Proof.Machine.DraftsDecided : Prop := ∀ (s : State) (k : DraftLd) (a : Access),
  s.draftlds.find? (·.id == k.id) = some k → s.acc? k.id = some a → a.id = k.id → (a.cell, a.elem, a.ctx) = (k.cell, k.elem, k.ctx) →
  a.profile = k.profile → a.res = .none →
  (a.done = false → exec (.draftldValidation k.id) s = .next s) ∧
  ∀ l va target, a.done = true → s.hasCtx k.cell k.elem k.ctx → k.lanes = [(l, va, target)] → (target = k.cell → (s.cell target).seat ≠ none) →
    let x := s.ctxOf k.cell k.elem k.ctx
    let bs := (a.parts.take 392).flatMap fun p => sliceBytes p.bound 0 8
    let draft := parseDraft bs
    let preds := if a.told then x.p else arcSet k.profile x.p
    (imageFault bs = none → Completes (.draftldValidation k.id) s fun u =>
      u.draftlds = s.draftlds.filter (·.id != k.id) ∧ u.acc? k.id = none ∧ u.ctxOf k.cell k.elem k.ctx = { x with p := preds } ∧
      ((s.loaded target = false ∨ (s.cell target).seat = none) → u.cell target = freshCell target draft 0) ∧
      ((s.cell target).seat ≠ none → (u.cell target).shadow = some ⟨draft, va, k.asid⟩ ∧ (u.cell target).draft = (s.cell target).draft)) ∧
    ∀ o, imageFault bs = some o → dieOf k.cell < s.dies.length → Completes (.draftldValidation k.id) s fun u =>
      u.draftlds = s.draftlds.filter (·.id != k.id) ∧ u.acc? k.id = none ∧ (u.cell target).shadow = none ∧
      (u.cell target).draft = (s.cell target).draft ∧
      ∃ id, Raised s u k.cell k.elem k.ctx k.slot 0x2C 4 k.profile (0x0A, 0, 2 ^ l, (va + o) % 2 ^ 64) (.done k.cell k.elem k.ctx) id ∧
        u.ctxOf k.cell k.elem k.ctx = { x with p := preds, heldBy := x.heldBy ++ [id] }

/-- R61, R163, R258, R387: in a region's configuration period a DRAFTSW commits the shadow stores of its cells: their drafts change, the contexts keep
their registers, masks and flags and take the drafts' initial predicates, and the period ends; outside it, while the region is pre-empted, and where its
own cell is stopped, DRAFTSW waits; one whose region is gone ends with nothing performed. -/
def Sys2Proof.Machine.DraftsSwitch : Prop := ∀ (s : State) (c e x slot : Nat) (ts : List Seat), s.hasCtx c e x →
  (s.ctxOf c e x).wait = some (.configPeriod slot ts) →
  let sits := fun (r : Region) => r.cells.any fun k => (s.cell k).seat.any ts.contains
  (s.regions.find? sits = none → (∃ v ∈ s.saved, ∃ q ∈ v.seats, q ∈ ts) → exec (.draftswCommit c e x) s = .next s) ∧
  (s.regions.find? sits = none → (∀ v ∈ s.saved, ∀ q ∈ v.seats, q ∉ ts) → Completes (.draftswCommit c e x) s fun u =>
    (u.ctxOf c e x).wait = none ∧ (u.ctxOf c e x).seq = (s.ctxOf c e x).seq + 1 ∧ u.mem = s.mem ∧ ∀ k, k ≠ c → u.cell k = s.cell k) ∧
  ∀ r : Region, s.regions.find? sits = some r →
  (r.period = false ∨ (s.cell c).stopped = true → exec (.draftswCommit c e x) s = .next s) ∧
  ∀ t sh, r.period = true → (s.cell c).stopped = false → r.cells = [t] → t ≠ c → s.loaded t = true → (s.cell t).shadow = some sh →
    (s.cell t).elems.length = 4 → (∀ j, j < 4 → ((s.cell t).elem j).ctxs.length = 4) → Completes (.draftswCommit c e x) s fun u =>
      (u.cell t).draft = sh.draft ∧ (u.cell t).shadow = none ∧
      (∀ j y, j < 4 → y < 4 → u.ctxOf t j y = { s.ctxOf t j y with p := sh.draft.init j y, exhausted := false }) ∧
      (u.cell t).heddle = (s.cell t).heddle ∧ (u.ctxOf c e x).wait = none ∧ (u.ctxOf c e x).seq = (s.ctxOf c e x).seq + 1 ∧
      ∃ q, u.regions.find? (fun y => y.die == r.die && y.index == r.index) = some q ∧ q.period = false ∧ q.reported = false

/-- R184 to R186, R220, R257, R258: quiescence and the switch of drafts. -/
def Obligations.DraftEvents : Prop :=
  Quiescence ∧ DraftsDecided ∧ DraftsSwitch

/-! Engines, streams and rays. -/

/-- The census of a seat has lost one command (R132, R182). -/
def Sys2Proof.Machine.Discharged (s u : State) (k : Option Seat) : Prop := ∀ q, k = some q → u.partOf (some q) = s.partOf (some q) - 1

/-- R70, R71, R72, R132, R302: a stream opens with a descriptor that keeps its rules, and SHSTRM is then complete; an open that breaks one is refused
with a record; an open stream with room in its window reads the elements of its next token that it has not read, under its profile's hint, and sends the
token; it closes when its last token is popped. That a token's reservation is asked for once its bytes are read is the model's choice (log 48). -/
def Sys2Proof.Machine.StreamsRun : Prop := ∀ (s : State) (k : Stream), s.stream? k.id = some k →
  let die := k.slice / 48
  (∀ pa leaf page d z, k.opened = false → k.paused = none → s.fenced k.cell k.elem k.ctx k.seq 8 = false →
    s.translate none die k.asid (k.launch == 0) .load k.addr = (.ok pa leaf page, s) →
    s.descriptionWaits k.cell k.elem k.ctx k.seq k.asid k.addr pa leaf 64 = false →
    s.engineLoadPiece none die k.asid (k.launch == 0) .load 0 k.addr 64 = .ok d z → z.hasCtx k.cell k.elem k.ctx →
    let x := z.ctxOf k.cell k.elem k.ctx
    (z.streamBad k d = none → Completes (.streamOpen k.id) s fun u =>
      u.stream? k.id = (z.stream? k.id).map (fun y => { y with opened := true, desc := d, dest := (z.cell (stCell d)).seat }) ∧
      Discharged z u k.seat ∧ u.ctxOf k.cell k.elem k.ctx = { x with p := arcSet k.profile x.p } ∧ u.flights = z.flights ∧ u.mem = z.mem) ∧
    ∀ code, z.streamBad k d = some code → dieOf k.cell < z.dies.length → Completes (.streamOpen k.id) s fun u =>
      u.stream? k.id = none ∧ Discharged z u k.seat ∧
      ∃ id, Raised z u k.cell k.elem k.ctx k.slot 0x6B 2 k.profile (code, 0, lowMark k.m0, k.addr) (.stream k.id) id ∧
        u.ctxOf k.cell k.elem k.ctx = { x with p := arcSet k.profile x.p, heldBy := x.heldBy ++ [id] }) ∧
  (∀ cell (t : Nat → State) (f : Nat → List Nat), k.opened = true → k.closing = false → k.ended = false → k.paused = none → k.cut = false →
    (∀ g ∈ s.grants, g.source ≠ .stream k.id) → k.pushed - k.popped < stWindow k.desc → k.dest.bind s.cellOfSeat = some cell →
    (s.cell cell).stopped = false → s.hasCtx k.cell k.elem k.ctx → s.dieWaits die = false →
    let per := stPer k.desc
    let lo := k.next * per + k.buf.length / stEsize k.desc
    let hi := min (stCount k.desc) (k.next * per + per)
    let z := t (hi - lo)
    (t 0 = s ∧ ∀ n, n < hi - lo → ∃ y,
      (t n).engineLoad none die k.asid (k.launch == 0) (hintOf (stProf k.desc)) (stAddr k.desc (lo + n)) (stEsize k.desc) = .ok (f n) y ∧
      t (n + 1) = y.setStream k.id fun x => { x with buf := k.buf ++ (List.range (n + 1)).flatMap f }) →
    Completes (.streamPush k.id) s fun u =>
      let bs := k.buf ++ (List.range (hi - lo)).flatMap f
      let last := decide (stCount k.desc ≤ (k.next + 1) * per)
      let target := Target.chan cell (stElem k.desc) (stChan k.desc)
      u.stream? k.id = (z.stream? k.id).map (fun y => { y with next := y.next + 1, ended := y.ended || last, cut := false, buf := [] }) ∧
      u.cells = z.cells ∧ u.mem = z.mem ∧ (∃ g, u.grants = z.grants ++ [⟨g, .stream k.id, target⟩]) ∧
      ∃ f, u.flights = z.flights ++ [⟨f, .stream k.id, target,
        [⟨BitVec.ofNat 32 ((stTag k.desc + k.next) % 2 ^ 31 + if last then 2 ^ 31 else 0),
          wordsOfBytes (stWidth k.desc) (sliceBytes bs 0 (4 * stWidth k.desc)), k.seat, some k.id⟩], some 0⟩]) ∧
  (k.closing = false → k.opened = true → k.ended = true → k.pushed = k.popped → (∀ f ∈ s.flights, f.source ≠ .stream k.id) →
    Completes (.streamClose k.id) s fun u => u.stream? k.id = none ∧ u.cells = s.cells ∧ u.census = s.census) ∧
  ∀ y, k.closing = true → s.closes.filter (·.stream == k.id) = [y] → s.hasCtx y.cell y.elem y.ctx → Completes (.streamClose k.id) s fun u =>
    u.stream? k.id = none ∧ Discharged s u y.seat ∧ u.closes = s.closes.filter (·.stream != k.id) ∧
    (∀ f ∈ u.flights, f.source = .stream k.id → f.place = none) ∧
    u.ctxOf y.cell y.elem y.ctx = { s.ctxOf y.cell y.elem y.ctx with p := arcSet y.profile (s.ctxOf y.cell y.elem y.ctx).p }

/-- R70, R71, R72, R302: what a descriptor of bytes must keep for a stream to open, the code of a refusal, and the address of its n-th element, dimension 0
innermost. That the reserved codes of SCOPE and COMP are accepted in PROF is the model's choice (log 48). -/
def Sys2Proof.Machine.StreamDescriptors : Prop := ∀ (s : State) (k : Stream) (d : List Nat), (∀ x ∈ d, x < 256) →
  let elem := 2 ^ (fieldAt d 40 1 % 4)
  let lanes := [1, 16, 32, 64].getD (fieldAt d 47 1 % 4) 0
  let well := fieldAt d 40 1 < 4 ∧ fieldAt d 46 1 < 64 ∧ fieldAt d 46 1 / 4 % 2 = 0 ∧ fieldAt d 47 1 < 4 ∧ fieldAt d 48 4 < 2 ^ 31 ∧
    fieldAt d 54 8 = 0 ∧ fieldAt d 62 2 = 0 ∧ fieldAt d 52 2 < 2 ^ 12 ∧ fieldAt d 52 2 / 8 % 4 ≤ 1 ∧ 1 ≤ fieldAt d 41 1 ∧ fieldAt d 41 1 ≤ 4 ∧
    fieldAt d 42 2 ≤ 4095 ∧ 4 * lanes % elem = 0
  let target := s.cell (fieldAt d 44 2)
  let width := (target.draftElem (fieldAt d 46 1 % 4)).chans.getD (fieldAt d 46 1 / 8 % 8) 0 % 4
  let again := ∃ x ∈ s.streams, x.id ≠ k.id ∧ x.opened = true ∧ (x.addr, x.asid, x.launch) = (k.addr, k.asid, k.launch)
  (¬well → s.streamBad k d = some 0x05) ∧
  (well → s.sameLaunch k.cell (fieldAt d 44 2) = false → s.streamBad k d = some 0x02) ∧
  (well → s.sameLaunch k.cell (fieldAt d 44 2) = true →
    (width ≠ fieldAt d 47 1 → s.streamBad k d = some 0x05) ∧ (width = fieldAt d 47 1 → again → s.streamBad k d = some 0x05) ∧
    (width = fieldAt d 47 1 → ¬again → s.streamBad k d = none)) ∧
  (stCount d = ((List.range (fieldAt d 41 1)).map fun i => fieldAt d (8 + 2 * i) 2 + 1).prod) ∧
  ∀ n, let size := fun i => fieldAt d (8 + 2 * i) 2 + 1
    let stride := fun i => (BitVec.ofNat 48 (fieldAt d (16 + 6 * i) 6)).toInt
    (stAddr d n : Int) = ((fieldAt d 0 8 : Int) + ((List.range (fieldAt d 41 1)).map fun i =>
      ((n / ((List.range i).map size).prod % size i : Nat) : Int) * stride i).sum) % 2 ^ 64

/-- R304, R316, R318: a group's sum over bit planes is the sum of activations times weights, exactly, and a drained value is the FP32 sum of the two
chains. -/
def Sys2Proof.Machine.ArraySums : Prop :=
  (∀ (pw n : Nat) (acts ws : List Int) (rows : List (List Nat)), 1 ≤ pw → acts.length = ws.length →
    (∀ w ∈ ws, -2 ^ (pw - 1) ≤ w ∧ w < 2 ^ (pw - 1)) →
    (∀ j, j < pw → (rows.getD j []).length = acts.length ∧
      ∀ r, r < acts.length → ((rows.getD j []).getD r 0).testBit n = (ws.getD r 0 % 2 ^ pw).toNat.testBit j) →
    groupSum acts ((List.range pw).map fun j => (planeWeight pw j, rows.getD j [])) n = ((acts.zip ws).map fun p => p.1 * p.2).sum) ∧
  (∀ c0 c1, drainVal 127 c0 c1 = (fpAdd .fp32 c0 c1).1 ∧ drainVal 255 c0 c1 = 0x7FC00000) ∧
  ∀ sum a w, (a = 255 ∨ w = 255 → groupVal sum a w = 0x7FC00000) ∧ (a ≠ 255 → w ≠ 255 → groupVal 0 a w = 0)

/-- R310, R311, R312, R316, R317: the oldest unstarted command starts when its checks pass, or pauses with a record against its context. A row of HMMA or
of HZERO is computed and then written one 32-byte row a step, in an order that is open. With the last row of its last logical row a command leaves the
queue: its slot's count falls, the census loses one and the watches that awaited it alone are satisfied. That the checks stand at the start, and that rows
are written one a step, is DEDUCED (log 17). -/
def Sys2Proof.Machine.HeddleRuns : Prop := ∀ (s : State) (c : Nat) (x : HCmd), s.loaded c = true → s.hcmd? c x.id = some x →
  let m := x.progress / x.unit
  (((s.cell c).heddle.queue.find? (!·.started)) = some x →
    (s.mayStart (s.cell c) x = false → exec (.heddleCommandStart c) s = .next s) ∧
    (s.mayStart (s.cell c) x = true → s.heddleFault (s.cell c) x = none → Completes (.heddleCommandStart c) s fun u =>
      u.hcmd? c x.id = some { x with started := true } ∧ u = { s with cells := u.cells }) ∧
    ∀ code cause a, s.mayStart (s.cell c) x = true → s.heddleFault (s.cell c) x = some (code, cause, a) → s.hasCtx c x.elem x.ctx →
      dieOf c < s.dies.length → Completes (.heddleCommandStart c) s fun u => ∃ id,
        Raised s u c x.elem x.ctx x.slot x.opcode 2 0 (code, cause, lowMark x.m0, a) (.heddle c x.id) id ∧
        (u.ctxOf c x.elem x.ctx).heldBy = (s.ctxOf c x.elem x.ctx).heldBy ++ [id] ∧
        u.hcmd? c x.id = some { x with started := true, paused := some id }) ∧
  (x.started = true → x.paused = none → (s.cell c).stopped = false → s.loadsPending c x.elem x.ctx x.seq = false →
    s.cellWaits c x.elem x.ctx = false →
    (x.out = [] → x.opcode = 0x71 → Completes (.heddleCommandComplete c x.id) s fun u =>
      u.hcmd? c x.id = some { x with out := accOut x.primary m zeroChains } ∧ u = { s with cells := u.cells }) ∧
    (x.out = [] → x.opcode = 0x6E → x.woven = false → s.upsets = [] → Completes (.heddleCommandComplete c x.id) s fun u =>
      let tile := accRow (s.cell c).sram (cw x.words 2) m
      u.hcmd? c x.id = some { x with out := accOut (cw x.words 2) m (x.mma (s.cell c) m (if mmaAcc x.words then tile else zeroChains)) } ∧
      u = { s with cells := u.cells }) ∧
    (x.out ≠ [] → Completes (.heddleCommandComplete c x.id) s fun u => ∃ i a bs, x.out[i]? = some (a, bs) ∧
      (∀ y, memRead (u.cell c).sram y = if a ≤ y ∧ y < a + bs.length then bs.getD (y - a) 0 % 256 else memRead (s.cell c).sram y) ∧
      u.mem = s.mem ∧ (x.out.length ≠ 1 → u.hcmd? c x.id = some { x with out := x.out.eraseIdx i }) ∧
      (x.out.length = 1 →
        (x.woven = true ∨ m + 1 < x.steps →
          u.hcmd? c x.id = some { x with out := [], progress := x.progress + x.unit, chain0 := [], chain1 := [] }) ∧
        (x.woven = false → x.steps ≤ m + 1 → u.hcmd? c x.id = none ∧ Discharged s u (s.cell c).seat ∧
          (u.cell c).heddle.counts = (if syncSeten x.words then (s.cell c).heddle.counts.modify (syncSet x.words) (· - 1)
            else (s.cell c).heddle.counts) ∧
          ∀ w ∈ (s.cell c).heddle.watches, w.awaited = [x.id] → s.hasCtx c w.elem w.ctx → w.pred < 8 →
            (u.ctxOf c w.elem w.ctx).p.getLsbD w.pred = true))))

/-- R321, R322: in a woven row whose cells have all started and agree, each cell adds its groups to the chains that reach it and passes them to the next
cell; the last one has the row written; a cell whose row cannot agree pauses with a shape fault. How a row of which a cell is gone or skipped ends is DEDUCED
(log 34). -/
def Sys2Proof.Machine.WovenRows : Prop := ∀ (s : State) (c lastCell : Nat) (x last : HCmd) (ch : List Word × List Word),
  s.upsets = [] → s.hcmd? c x.id = some x → x.woven = true → x.started = true → x.paused = none → x.out = [] → x.progress / x.unit < x.steps →
  let k := s.cell c
  let row := s.wovenRow k
  let len := wovenLen k.draft.woven
  let m := x.progress / x.unit
  let out := x.mma k m ch
  s.rowCommand (row.getD (len - 1) none) x.wovenSeq = some (lastCell, last) → last.started = true → last.paused = none →
  s.loadsPending c x.elem x.ctx x.seq = false → s.cellWaits c x.elem x.ctx = false → s.wovenIn k x last lastCell m = some ch → k.id = c →
  (s.rowBad k x = true → s.hasCtx c x.elem x.ctx → dieOf c < s.dies.length → Completes (.wovenPartial c x.id) s fun u => ∃ id,
    Raised s u c x.elem x.ctx x.slot 0x6E 2 0 (0x09, 0, lowMark x.m0, 0) (.heddle c x.id) id ∧
    (u.hcmd? c x.id).map (·.paused) = some (some id)) ∧
  (s.rowBad k x = false → s.rowGoes k x = true →
  (k.draft.pos = 0 → mmaAcc last.words = false → ch = zeroChains) ∧
  (∀ n y, k.draft.pos + 1 < len → s.rowCommand (row.getD (k.draft.pos + 1) none) x.wovenSeq = some (n, y) → n ≠ c → y.started = true →
    y.paused = none → y.chain0 = [] → y.out = [] → y.progress = x.progress → s.hcmd? n y.id = some y → Completes (.wovenPartial c x.id) s fun u =>
      u.hcmd? n y.id = some { y with chain0 := out.1, chain1 := out.2 } ∧
      u.hcmd? c x.id = some { x with progress := x.progress + x.unit, chain0 := [], chain1 := [] } ∧ u = { s with cells := u.cells }) ∧
  (len ≤ k.draft.pos + 1 → Completes (.wovenPartial c x.id) s fun u =>
    u.hcmd? c x.id = some { x with out := accOut (cw x.words 2) m out } ∧ u = { s with cells := u.cells }))

/-- R295, R296, R297, R301: a shuttle command's block is read, it starts after those fired before it and the FENCEs that hold it back, and
moves its payload before it stores its flag, then resolves its future; when all is done it leaves its
queue, its arc is set and the census loses one. That a step moves at most 128 bytes, up to a boundary of the payload, is the model's choice (log 16). -/
def Sys2Proof.Machine.ShuttleRuns : Prop := ∀ (s : State) (c : Nat) (x : ShCmd), s.shcmd? c x.id = some x →
  let stored := fun (u : State) (t a : Nat) (bs : List Nat) => ∀ y, memRead (u.cell t).sram y =
    if a ≤ y ∧ y < a + bs.length then bs.getD (y - a) 0 % 256 else memRead (s.cell t).sram y
  (∀ pa leaf page bs z, x.paused = none → (s.cell c).stopped = false → x.fields = [] →
    s.translateFor c x.asid .load x.block = (.ok pa leaf page, s) →
    s.descriptionWaits c x.elem x.ctx x.seq x.asid x.block pa leaf 64 = false →
    s.engineLoadPiece (some c) (dieOf c) x.asid ((s.cell c).asid == 0) .load (hintOf x.profile) x.block 64 = .ok bs z →
    blockFault x.opcode x.block bs = none →
    exec (.shuttleCommandRun c x.id) s = .next (z.setShcmd c x.id fun k => { k with fields := bs, progress := k.progress * shUnit x.opcode bs })) ∧
  (x.paused = none → (s.cell c).stopped = false → x.fields ≠ [] → x.phase = 0 → exec (.shuttleCommandRun c x.id) s = .next
    (if ((s.cell c).shuttle.takeWhile (·.id != x.id)).all (fun y => y.phase != 0 || y.paused.isSome) = true ∧ s.fenced c x.elem x.ctx x.seq 8 = false
      then s.setShcmd c x.id fun k => { k with phase := 1 } else s)) ∧
  (x.paused = none → (s.cell c).stopped = false → x.fields ≠ [] → s.cellWaits c x.elem x.ctx = false →
    (x.phase = 1 → x.opcode = 0x68 → shLen x.fields ≤ x.buffer.length → s.loadsPending c x.elem x.ctx x.seq = false →
      (x.progress < shLen x.fields → isRef (shDst x.fields) = true →
        let n := min (shLen x.fields - x.progress) (128 - x.progress % 128)
        s.spadFault c (refCell (shDst x.fields)) (refSpa (shDst x.fields) + x.progress : Nat) n = none →
        Completes (.shuttleCommandRun c x.id) s fun u =>
          stored u (refCell (shDst x.fields)) (refSpa (shDst x.fields) + x.progress) (sliceBytes x.buffer x.progress n) ∧ u.mem = s.mem ∧
          u.shcmd? c x.id = some { x with progress := x.progress + n }) ∧
      (shLen x.fields ≤ x.progress →
        (shFlag x.fields = 0 → exec (.shuttleCommandRun c x.id) s = .next (s.setShcmd c x.id fun k => { k with phase := 2, buffer := [] })) ∧
        (shFlag x.fields ≠ 0 → isRef (shFlag x.fields) = true →
          s.spadFault c (refCell (shFlag x.fields)) (refSpa (shFlag x.fields) : Nat) 8 = none → Completes (.shuttleCommandRun c x.id) s fun u =>
            stored u (refCell (shFlag x.fields)) (refSpa (shFlag x.fields)) (leBytes 8 (shVal x.fields)) ∧
            u.shcmd? c x.id = some { x with phase := 2, buffer := [] }))) ∧
    (x.phase = 2 → shFut x.fields = 0 → exec (.shuttleCommandRun c x.id) s = .next (s.setShcmd c x.id fun k => { k with phase := 3 }))) ∧
  (x.phase = 3 → (∀ r ∈ s.arrivals, r.source ≠ x.id) → s.hasCtx c x.elem x.ctx → Completes (.shuttleCommandComplete c x.id) s fun u =>
    u.shcmd? c x.id = none ∧ Discharged s u (s.cell c).seat ∧ u.mem = s.mem ∧
    u.ctxOf c x.elem x.ctx = { s.ctxOf c x.elem x.ctx with p := arcSet x.profile (s.ctxOf c x.elem x.ctx).p })

/-- R70 to R73, R295 to R322: streams, shuttle commands and the heddle array at work. -/
def Obligations.EngineEvents : Prop :=
  StreamsRun ∧ StreamDescriptors ∧ ShuttleRuns ∧ ArraySums ∧ HeddleRuns ∧ WovenRows

/-- R343, R345: a packet of a header and sixteen registers leaves when its reservations are granted; a merged packet writes its registers into the
lanes that were free, in ascending order, v7's stack count as at most 7, and names them in m1. -/
def Sys2Proof.Machine.PacketsMove : Prop := ∀ (s : State) (c e x slot chan : Nat), s.hasCtx c e x →
  let k := s.ctxOf c e x
  (∀ granted place q, k.multi = some (.rayout slot chan granted place) → 16 ≤ granted →
    s.routeTarget (s.cell c) (s.routeOf c e chan) = some q → Completes (.rayoutSend c e x) s fun u =>
      (u.ctxOf c e x).multi = none ∧ (u.ctxOf c e x).seq = k.seq + 1 ∧ (u.ctxOf c e x).v = k.v ∧
      ∃ id ts, u.flights = s.flights ++ [⟨id, .out c e chan, q, ts, some place⟩] ∧ ts.length = 17 ∧
        let lanes := (List.range 64).filter (inMask (k.m.getD 0 0))
        (∀ t ∈ ts.head?, t.tag = BitVec.ofNat 32 (2 ^ 31 + lanes.length) ∧ lane t.lanes 0 = BitVec.ofNat 32 lanes.length ∧
          lane t.lanes 1 = BitVec.ofNat 32 c) ∧
        ∀ r t, r < 16 → ts[r + 1]? = some t → t.tag = BitVec.ofNat 32 r ∧ t.charge = (s.cell c).seat ∧
          ∀ j, j < 64 → lane t.lanes j = match lanes[j]? with | some l => lane (k.v.getD r []) l | none => 0) ∧
  (∀ need (m : LaneMask) held, k.multi = some (.rayin slot chan need m held) → 16 ≤ held.length → Completes (.rayinMergeComplete c e x) s fun u =>
    let lanes := (List.range 64).filter (inMask m)
    (u.ctxOf c e x).multi = none ∧ (u.ctxOf c e x).seq = k.seq + 1 ∧ (u.ctxOf c e x).m = k.m.set 1 m ∧ u.mem = s.mem ∧
    ∀ r l, r < 16 → l < 64 → lane ((u.ctxOf c e x).v.getD r []) l =
      if inMask m l then
        let w := lane (held.getD r []) (lanes.idxOf l)
        if r = 7 ∧ 7 < w.toNat / 256 % 16 then w &&& 0xFFFFF7FF ||| 0x00000700 else w
      else lane (k.v.getD r []) l)

/-- R326, R337, R339, R341: when a traversal completes, v6 to v15 of the lanes it acted on take the rays after the step, v7 of the lanes whose ray is now in
another partition its partition, and m1 to m3 the lanes by status: at a leaf, done, to be sent; the marks of both are cleared and nothing else changes. That
the rays were read, and a malformed node found, at the firing already is the model's choice (log 31). -/
def Sys2Proof.Machine.TraversalsEnd : Prop := ∀ (s : State) (t : Traversal), s.hasCtx t.cell t.elem t.ctx →
  s.traversals.find? (·.id == t.id) = some t →
  let k := s.ctxOf t.cell t.elem t.ctx
  Completes (.traversalComplete t.id) s fun u =>
    let k' := u.ctxOf t.cell t.elem t.ctx
    let st := fun l => rayStatus t.here (((t.after.find? (·.1 == l)).map (·.2)).getD [])
    (∀ n l, 6 ≤ n → n < 16 → l < 64 → lane (k'.v.getD n []) l =
      if l ∈ t.acts ∨ n = 7 ∧ inMask t.m0 l ∧ (st l).1 = 3 then (st l).2.getD n 0 else lane (k.v.getD n []) l) ∧
    (∀ n, n < 6 → k'.v.getD n [] = k.v.getD n []) ∧
    (∀ i l, 1 ≤ i → i < 4 → l < 64 → ((k'.m.getD i 0).getLsbD l = true ↔ inMask t.m0 l = true ∧ (st l).1 = i)) ∧ k'.m.getD 0 0 = k.m.getD 0 0 ∧
    k' = { k with v := k'.v, m := k'.m, pendV := k.pendV &&& 0x003F, pendM := k.pendM &&& 0x1 } ∧
    LeavesContexts s u t.cell t.elem t.ctx ∧ u.traversals = s.traversals.filter (·.id != t.id) ∧ u.mem = s.mem ∧ u.accs = s.accs

/-- R337 to R345: ray packets and the end of traversal instructions. -/
def Obligations.RayEvents : Prop :=
  PacketsMove ∧ TraversalsEnd

/-! Migration. -/

/-- Neither a cell nor the host agent holds a copy of any line, no line is locked or under recall, and no bit error stands. -/
abbrev Sys2Proof.Machine.State.atRest (s : State) : Prop :=
  (∀ c ∈ s.cells, c.cch = []) ∧ s.hostCopies = [] ∧ s.locks = [] ∧ s.recalls = [] ∧ s.upsets = []

/-- A completion record's place: an aligned address of 52 bits in populated memory (R50, R51). -/
abbrev Sys2Proof.Machine.State.mayRecord (s : State) (pa : Nat) : Prop := pa < 2 ^ 52 ∧ s.populated pa 16 = true ∧ inMmio pa = false ∧ pa % 16 = 0

/-- A request is over: it leaves the engine, its record holds a status, a cause and a frame, DONE is set where it asks, and memory is otherwise
as `base` says; a record that has no place is dropped, which is the model's choice (R51; log 43). -/
def Sys2Proof.Machine.RequestOver (s u : State) (q : MigReq) (status cause frame : Nat) (base : Nat → Nat) : Prop :=
  u.mig.requests = s.mig.requests.filter (·.id != q.id) ∧ u.mig.done = (s.mig.done || q.irq) ∧
  u.hub = s.hub ∧ (s.mayRecord q.crec → ∀ x, memRead u.mem x =
    if q.crec ≤ x ∧ x < q.crec + 16 then (leBytes 4 status ++ leBytes 2 cause ++ [0, 0] ++ leBytes 8 frame).getD (x - q.crec) 0 else base x) ∧
  (¬s.mayRecord q.crec → ∀ x, memRead u.mem x = base x)

/-- R50, R51, R52, R53: a request block is read; a bad one ends with BADREQ, a walk that fails with FAULT, a page in its placement with DONE, a
pinned page and one that would move back within 100 us with PINNED, the latter pinned anew; a page that another request is moving is waited for; else
MIG is set and the page's translations are invalidated. A block that cannot be read leaves no record, a walk for a 2 MiB page that reaches a level-1
table entry ends with BADREQ, and PFRAME is 0 where R51 names no frame (log 43). -/
def Sys2Proof.Machine.RequestsBegin : Prop := ∀ (s : State) (r : MigReq), s.mig.requests.find? (·.id == r.id) = some r → s.mig.en = true →
  r.phase = 0 → r.eviction = false →
  (∀ cause pa, s.hubLoadPa r.block 32 = .fault 1 cause pa → Completes (.migrationRequest r.id) s fun u =>
    u = { s with mig := { s.mig with requests := s.mig.requests.filter (·.id != r.id) } }) ∧
  (s.hubLoadPa r.block 32 = .wait → exec (.migrationRequest r.id) s = .next s) ∧
  ∀ b y, s.hubLoadPa r.block 32 = .ok b y →
    let q := { r with asid := fieldAt b 0 2, size := fieldAt b 2 1, dest := fieldAt b 3 1, irq := (fieldAt b 4 4).testBit 0
                      va := fieldAt b 8 8, frame := fieldAt b 16 8, crec := fieldAt b 24 8 }
    let z := y.setReq r.id fun _ => q
    let walk := z.migRoot q.asid q.va q.size
    let ends_ := fun (status cause frame : Nat) => Completes (.migrationRequest r.id) s fun u =>
      RequestOver s u q status cause frame (memRead s.mem)
    (y.badReq b = false → walk.1 = .waits → exec (.migrationRequest r.id) s = .next s) ∧
    (y.badReq b = false → walk.1 = .bad → (∀ c ∈ s.cells, c.cch = []) → s.hostCopies = [] → s.locks = [] → s.recalls = [] →
      (∀ x ∈ s.upsets, x.place = .memory ∧ lineOf x.addr ≠ lineOf q.crec) → ends_ 4 0 0) ∧
    (s.atRest →
      y = { s with plru := y.plru, sliceLines := y.sliceLines, dir := y.dir } ∧
      (y.badReq b = true → ends_ 5 0 0) ∧
      (y.badReq b = false →
        (∀ cause, walk = (.cause cause, z) → ends_ 4 cause 0) ∧ (walk = (.unfit, z) → ends_ 5 0 0) ∧
        ∀ e pa level, walk = (.leaf e pa level, z) →
          let frame := e / 2 ^ 16 % 2 ^ 40 * 4096
          let usable := level = q.size ∧ e.testBit 4 = false ∧ s.frameOk frame (if q.size = 0 then 4096 else 2 ^ 21) = true
          let there := s.placementOf frame = q.dest ∧ e.testBit 13 = false
          let pinned := s.pinned q.asid q.va = true ∨ s.opposes q.asid q.va q.dest = true
          (¬usable → ends_ 5 0 frame) ∧ (usable → there → ends_ 0 0 frame) ∧
          (usable → ¬there → pinned → ends_ 2 0 frame) ∧
          (usable → ¬there → s.opposes q.asid q.va q.dest = true → Completes (.migrationRequest r.id) s fun u =>
            ∃ p ∈ u.mig.history, (p.asid, p.va, p.pinned, p.time) = (q.asid, q.va, true, s.time)) ∧
          (usable → ¬there → ¬pinned → e.testBit 13 = true → Completes (.migrationRequest r.id) s fun u =>
            u.mig.requests.find? (·.id == r.id) = some { q with phase := 3, leafPa := pa, leaf := e } ∧ u.mem = s.mem) ∧
          (usable → ¬there → ¬pinned → e.testBit 13 = false → Completes (.migrationRequest r.id) s fun u =>
            WrittenAt s u pa (leBytes 8 (e + 2 ^ 13)) ∧
            ∃ v, u.invs = s.invs ++ [v] ∧ (v.form, v.asid, v.va, v.begun, v.arc) = (0, q.asid, q.va, false, none) ∧
              u.mig.requests.find? (·.id == r.id) = some { q with phase := 4, leafPa := pa, leaf := e, inv := v.id })))

/-- R17, R50: what makes a request block bad. -/
def Sys2Proof.Machine.BadRequests : Prop := ∀ (s : State) (b : List Nat),
  let size := fieldAt b 2 1
  let n := if size = 0 then 4096 else 2 ^ 21
  let frame := fieldAt b 16 8
  s.badReq b = true ↔ fieldAt b 0 2 = 0 ∨ size > 1 ∨ fieldAt b 3 1 > 2 ∨ fieldAt b 4 4 > 1 ∨ fieldAt b 8 8 % n ≠ 0 ∨ fieldAt b 24 8 % 16 ≠ 0 ∨
    2 ^ 52 ≤ fieldAt b 24 8 ∨ (frame ≠ 0 ∧ (2 ^ 52 ≤ frame ∨ frame % n ≠ 0 ∨ s.frameOk frame n = false ∨ s.placementOf frame ≠ fieldAt b 3 1))

/-- R52, R53, R105, R134: once the page's translations are gone, the cells are asked to give up software-managed copies; then the page's bytes stand in
the new frame, with its descriptors, and the leaf names that frame with V set and MIG and A clear, and a watch on a word of the page is on the word's new place; without a frame MIG is cleared and the request
ends with NOSPACE. A request that waited for another ends with LOST once that one has written the leaf. -/
def Sys2Proof.Machine.PagesMove : Prop := ∀ (s : State) (r : MigReq), s.mig.requests.find? (·.id == r.id) = some r → r.eviction = false →
  let leaf := memNat s.mem r.leafPa 8
  let old := leaf / 2 ^ 16 % 2 ^ 40 * 4096
  let n := if r.size = 0 then 4096 else 2 ^ 21
  (r.phase = 4 → s.invs.any (·.id == r.inv) = false → s.atRest → Completes (.migrationCopy r.id) s fun u =>
    u.mig.requests.find? (·.id == r.id) = some { r with phase := 5, flush := if leaf.testBit 9 then s.cells.map (·.id) else [] } ∧
    u = { s with mig := u.mig }) ∧
  (r.phase = 4 → s.invs.any (·.id == r.inv) = true → exec (.migrationCopy r.id) s = .next s) ∧
  (r.phase = 5 → r.flush ≠ [] → exec (.migrationCopy r.id) s = .next s) ∧
  (r.phase = 5 → r.flush = [] → s.atRest → r.leafPa % 8 = 0 →
    (r.frame ≠ 0 → let from_ := s.descAddr old
      let to_ := s.descAddr r.frame
      (leaf.testBit 10 = true → (to_ + n / 32 ≤ r.frame ∨ r.frame + n ≤ to_) ∧ (from_ + n / 32 ≤ r.frame ∨ r.frame + n ≤ from_)) →
      Completes (.migrationCopy r.id) s fun u =>
        let moved := fun x => if r.frame ≤ x ∧ x < r.frame + n then memRead s.mem (x - r.frame + old)
          else if leaf.testBit 10 ∧ to_ ≤ x ∧ x < to_ + n / 32 then memRead s.mem (x - to_ + from_) else memRead s.mem x
        (∃ e, e < 2 ^ 64 ∧ e / 2 ^ 16 % 2 ^ 40 = r.frame / 4096 % 2 ^ 40 ∧ e.testBit 0 = true ∧ e.testBit 13 = false ∧ e.testBit 5 = false ∧
          (∀ i, i < 64 → ¬(16 ≤ i ∧ i < 56) → i ≠ 0 → i ≠ 13 → i ≠ 5 → e.testBit i = leaf.testBit i) ∧
          RequestOver s u r 0 0 r.frame (fun x => if r.leafPa ≤ x ∧ x < r.leafPa + 8 then (leBytes 8 e).getD (x - r.leafPa) 0 else moved x)) ∧
        ⟨r.asid, r.va, r.dest == 2, s.time, false⟩ ∈ u.mig.history ∧
        (∀ w ∈ s.watches, old ≤ w.pa → w.pa < old + n → ∃ y ∈ u.watches, y.id = w.id ∧ y.pa = w.pa - old + r.frame) ∧
        (r.size = 0 → s.mig.free4k.length = 3 → s.frameOk old 4096 = true → (s.mig.free4k.getD (s.placementOf old) []).length < 65536 →
          u.mig.free4k.getD (s.placementOf old) [] = s.mig.free4k.getD (s.placementOf old) [] ++ [old])) ∧
    (r.frame = 0 → (if r.size = 0 then s.mig.free4k else s.mig.free2m).getD r.dest [] = [] → leaf.testBit 13 = true →
      Completes (.migrationCopy r.id) s fun u => RequestOver s u r 3 0 old fun x =>
        if r.leafPa ≤ x ∧ x < r.leafPa + 8 then (leBytes 8 (leaf - 2 ^ 13)).getD (x - r.leafPa) 0 else memRead s.mem x) ∧
    (∀ f fs, r.frame = 0 → r.size = 0 → r.dest < s.mig.free4k.length → s.mig.free4k.getD r.dest [] = f :: fs → s.placementOf old ≠ r.dest →
      leaf.testBit 10 = false → Completes (.migrationCopy r.id) s fun u => u.mig.free4k.getD r.dest [] = fs ∧
        u.mig.requests = s.mig.requests.filter (·.id != r.id))) ∧
  (r.phase = 3 → s.atRest →
    ((leaf = r.leaf ∨ leaf.testBit 13 = true) → exec (.migrationLost r.id) s = .next s) ∧
    (leaf ≠ r.leaf → leaf.testBit 13 = false → Completes (.migrationLost r.id) s fun u => RequestOver s u r 1 0 old (memRead s.mem)))

/-- R105: before a page moves each cell merges the dirty bytes of its software-managed copies of the page at home and drops the copies. -/
def Sys2Proof.Machine.CellsFlush : Prop := ∀ (s : State) (r : MigReq) (c : Nat) (l : CchLine),
  s.mig.requests = [r] → r.phase = 5 → c ∈ r.flush → s.loaded c = true → (s.cell c).cch = [l] → s.upsets = [] →
  let frame := s.coherentNat r.leafPa 8 / 2 ^ 16 % 2 ^ 40 * 4096
  let n := if r.size = 0 then 4096 else 2 ^ 21
  frame ≤ l.pa → l.pa < frame + n → l.data.length = 128 → l.descDirty = 0 →
  (l.st = .smPresent → Completes (.smFlush c frame) s fun u =>
    (u.cell c).cch = [] ∧ u.mig.requests = [{ r with flush := r.flush.filter (· != c) }] ∧
    ∀ x, memRead u.mem x =
      if l.pa ≤ x ∧ x < l.pa + 128 ∧ l.dirty.testBit (x - l.pa) then l.data.getD (x - l.pa) 0 % 256 else memRead s.mem x) ∧
  (l.st ≠ .smPresent → Completes (.smFlush c frame) s fun u =>
    (u.cell c).cch = [l] ∧ u.mig.requests = [{ r with flush := r.flush.filter (· != c) }] ∧ u.mem = s.mem)

/-- R52: a pin lapses 1 ms after it was set, and not before. -/
def Sys2Proof.Machine.PinsLapse : Prop := ∀ (s : State) (i : Nat) (p : PinEntry), s.mig.history[i]? = some p →
  (p.pinned = true → p.time + 1000000000 * Config.ps ≤ s.time →
    exec (.pinExpiry i) s = .next { s with mig := { s.mig with history := s.mig.history.eraseIdx i } }) ∧
  ((p.pinned = false ∨ s.time < p.time + 1000000000 * Config.ps) → exec (.pinExpiry i) s = .next s)

/-- R51, R55, R56: an eviction that finds no frame clears MIG, is over, and leaves a NOSPACE record in the ring, with the parity of its pass. -/
def Sys2Proof.Machine.EvictionsEnd : Prop := ∀ (s : State) (r : MigReq), s.mig.requests.find? (·.id == r.id) = some r → r.eviction = true →
  let leaf := memNat s.mem r.leafPa 8
  let old := leaf / 2 ^ 16 % 2 ^ 40 * 4096
  let base := s.mig.evq / 16 % 2 ^ 48 * 16
  let size := 2 ^ min (s.mig.evq / 2 ^ 52) 16
  let at_ := base + 16 * (s.mig.evp % size)
  r.phase = 5 → r.flush = [] → s.atRest → r.frame = 0 → leaf.testBit 13 = true →
  (if r.size = 0 then s.mig.free4k else s.mig.free2m).getD r.dest [] = [] → s.mig.evq < 2 ^ 64 → base ≠ 0 → at_ < 2 ^ 52 →
  s.populated at_ 16 = true → inMmio at_ = false → Completes (.migrationCopy r.id) s fun u =>
    u.mig.requests = s.mig.requests.filter (·.id != r.id) ∧ u.mig.done = s.mig.done ∧ u.mig.evp = (s.mig.evp + 1) % 2 ^ 32 ∧
    ∀ x, memRead u.mem x =
      if at_ ≤ x ∧ x < at_ + 16 then
        (leBytes 4 3 ++ [0, 0] ++ [0, 1 - s.mig.evp / size % 2] ++ leBytes 8 old).getD (x - at_) 0
      else if r.leafPa ≤ x ∧ x < r.leafPa + 8 then (leBytes 8 (leaf - 2 ^ 13)).getD (x - r.leafPa) 0 else memRead s.mem x

/-- R54, R55, R56: evictions begin when free GDDR 7 falls below LOW and stop at HIGH. A page behind every open window is moved; a page that no
window covers is moved if A is clear, else A is cleared and its translations are invalidated; a page that a window still holds is no candidate, and with no
candidate left eviction stops. That a free 2 MiB frame counts as 512 of 4 KiB, that a page with A clear is moved on the clock's first visit, and that pages
without a frame are passed over after NOSPACE, is the model's choice (log 43). -/
def Sys2Proof.Machine.Evictions : Prop := ∀ (s : State),
  let low := min s.mig.low s.mig.high
  let free := s.mig.freeUnits 0
  ((s.mig.en = false ∨ low = 0 ∨ s.mig.evFull = true ∨ s.mig.requests.any (·.eviction) = true ∨ (low ≤ free ∧ s.mig.evicting = false)) →
    exec .gddrEviction s = .next s) ∧
  (s.mig.en = true → low ≠ 0 → s.mig.evFull = false → s.mig.requests.any (·.eviction) = false →
    (s.mig.high ≤ free → s.mig.evicting = true → exec .gddrEviction s = .next { s with mig := { s.mig with evicting := false } }) ∧
    ∀ asid va level pa e, free < low → s.mig.mayEvict level = true → s.evictable = [(asid, va, level, pa, e)] →
      s.uncopied (lineOf pa) 128 → e.testBit 13 = false → (∀ q ∈ s.mig.requests, q.id ≠ s.nextId) →
      let set := fun b => { s with mig := { s.mig with evicting := b } }
      (s.windowState (asid, va, level, pa, e) = some none → exec .gddrEviction s = .next (set false)) ∧
      (s.windowState (asid, va, level, pa, e) ≠ some none → s.leafFree pa = false → exec .gddrEviction s = .next (set true)) ∧
      (s.leafFree pa = true →
      let moves := Completes .gddrEviction s fun u =>
        WrittenAt s u pa (leBytes 8 (e + 2 ^ 13)) ∧
        ∃ q v, u.mig.requests = s.mig.requests ++ [q] ∧ u.invs = s.invs ++ [v] ∧
          (q.asid, q.va, q.size, q.dest, q.frame, q.eviction, q.phase, q.leafPa, q.leaf, q.inv) = (asid, va, level, 1, 0, true, 4, pa, e, v.id) ∧
          (v.form, v.asid, v.va) = (0, asid, va)
      (∀ d, s.windowState (asid, va, level, pa, e) = some (some d) → moves) ∧
      (s.windowState (asid, va, level, pa, e) = none → e.testBit 5 = false → moves) ∧
      (s.windowState (asid, va, level, pa, e) = none → e.testBit 5 = true → Completes .gddrEviction s fun u =>
        WrittenAt s u pa (leBytes 8 (e - 2 ^ 5)) ∧ u.mig.requests = s.mig.requests ∧
        ∃ v, u.invs = s.invs ++ [v] ∧ (v.form, v.asid, v.va) = (0, asid, va))))

/-- R49 to R57, R105: the migration engine. -/
def Obligations.MigrationEvents : Prop :=
  RequestsBegin ∧ BadRequests ∧ PagesMove ∧ CellsFlush ∧ PinsLapse ∧ Evictions ∧ EvictionsEnd

/-! Registers of the MMIO windows. -/

/-- R49, R56, R57: the registers of the migration engine read back what was written, MIGEVQ restarts both counts, MIGHBASE is ignored while EN is
set and refuses an address outside LPDDR 6, MIGPUSH submits a request and MIGFREE a frame. -/
def Sys2Proof.Machine.MigrationRegisters : Prop := ∀ (s : State) (v : Nat), v < 2 ^ 64 →
  Completes (.migctlWrite v) s (fun u => u = { s with mig := u.mig } ∧ u.hubReg 0x20010 = v % 2 ^ 50 ∧
    (u.mig.low, u.mig.high) = (v % 2 ^ 24, v / 2 ^ 24 % 2 ^ 24) ∧ (u.mig.en = v.testBit 48) ∧ u.mig.irqen = v.testBit 49 ∧
    u.mig.requests = s.mig.requests ∧ u.hubReg 0x20020 = s.hubReg 0x20020) ∧
  Completes (.migevqWrite v) s (fun u => u = { s with mig := { s.mig with evq := v / 16 * 16, evp := 0, evc := 0 } } ∧
    u.hubReg 0x20018 = v / 16 * 16 ∧ u.hubReg 0x20030 = 0 ∧ u.hubReg 0x20038 = 0) ∧
  Completes (.migevcWrite v) s (fun u => u = { s with mig := { s.mig with evc := v % 2 ^ 32 } } ∧ u.hubReg 0x20038 = v % 2 ^ 32) ∧
  (let a := v / 2 ^ 21 % 2 ^ 31 * 2 ^ 21;
    (s.mig.en = true → exec (.mighbaseWrite v) s = .next s) ∧
    (s.mig.en = false → moduleOf a = s.hub.modnum → 0x4000000000 ≤ localOf a → localOf a ≤ lpDs s.hub.grade →
      Completes (.mighbaseWrite v) s fun u => u = { s with mig := { s.mig with hbase := a } } ∧ u.hubReg 0x20028 = a ∧
        ∀ pa, 0x4000000000 ≤ localOf pa → (u.placementOf pa = 1 ↔ localOf pa < localOf a)) ∧
    (s.mig.en = false → (moduleOf a ≠ s.hub.modnum ∨ localOf a < 0x4000000000 ∨ lpDs s.hub.grade < localOf a) →
      Completes (.mighbaseWrite v) s fun u => u = { s with mig := { s.mig with badf := true } })) ∧
  (let pending := (s.mig.requests.filter (!·.eviction)).length;
    (pending < 1024 → Completes (.migpush v) s fun u => ∃ r, u.mig.requests = s.mig.requests ++ [r] ∧
      (r.block, r.phase, r.eviction) = (v / 32 % 2 ^ 47 * 32, 0, false) ∧ u.hubReg 0x20000 = v / 32 % 2 ^ 47 * 32 ∧ u.mig.ovf = s.mig.ovf) ∧
    (1024 ≤ pending → Completes (.migpush v) s fun u => u.mig.requests = s.mig.requests ∧ u.mig.ovf = true)) ∧
  (let pa := v / 2 ^ 12 % 2 ^ 40 * 4096;
    let huge := v.testBit 0;
    let n := if huge then 2 ^ 21 else 4096;
    let pl := s.placementOf pa;
    let lists := fun (m : Mig) => if huge then m.free2m else m.free4k;
    let room := ((lists s.mig).getD pl []).length < if huge then 4096 else 65536;
    (pa % n = 0 → s.frameOk pa n = true → room → (lists s.mig).length = 3 → Completes (.migfree v) s fun u =>
      (lists u.mig).getD pl [] = (lists s.mig).getD pl [] ++ [pa] ∧ u.mig.badf = s.mig.badf ∧
      ∀ k, k ≠ pl → (lists u.mig).getD k [] = (lists s.mig).getD k []) ∧
    ((pa % n ≠ 0 ∨ s.frameOk pa n = false ∨ ¬room) → Completes (.migfree v) s fun u =>
      u.mig.badf = true ∧ (u.mig.free4k, u.mig.free2m) = (s.mig.free4k, s.mig.free2m)))

/-- R19, R351, R352, R370, R373, R377: QPUSH appends to a launch queue of up to 256 entries, beyond them it is dropped and sets OVF; PWRCAP is
clamped into 1,000 to 2,600 W and a split is due at once; MODNUM takes its first write after reset only; a field of SERRCNT written as 0 is
cleared; FQBASE and FQCONS hold what was written. -/
def Sys2Proof.Machine.ModuleRegisters : Prop := ∀ (s : State) (v : Nat), v < 2 ^ 64 →
  (∀ q, q < s.lqueues.length →
    let k := s.lqueues.getD q LQueue.reset
    let a := v / 2 ^ 8 % 2 ^ 44 * 256
    (∀ j, j ≠ q → Completes (.qpush q v) s fun u => u.lqueues.getD j LQueue.reset = s.lqueues.getD j LQueue.reset) ∧
    (k.pushed.length < 256 → Completes (.qpush q v) s fun u => u.sched.owed = true ∧ ∃ h, u.lqueues.getD q LQueue.reset =
      { k with addr := a, pushed := k.pushed ++ [a], headSince := h }) ∧
    (256 ≤ k.pushed.length → Completes (.qpush q v) s fun u => u.lqueues.getD q LQueue.reset = { k with addr := a, ovf := true })) ∧
  Completes (.pwrcapWrite v) s (fun u => u = { s with hub := { s.hub with cap := max 1000 (min 2600 (v % 4096)), splitNext := s.time } } ∧
    u.hubReg 0x40000 = max 1000 (min 2600 (v % 4096))) ∧
  (s.hub.modWritten = false → Completes (.modnumWrite v) s fun u =>
    u = { s with hub := { s.hub with modnum := v % 64, modWritten := true } } ∧ u.hubReg 0x10008 = v % 64) ∧
  (s.hub.modWritten = true → exec (.modnumWrite v) s = .next s) ∧
  ∀ d, d < s.dies.length →
    Completes (.serrcntWrite d v) s (fun u => u = { s with dies := u.dies } ∧ (∀ j, j ≠ d → u.die j = s.die j) ∧
      u.die d = { s.die d with corr := if v % 2 ^ 32 = 0 then 0 else (s.die d).corr
                               uncorr := if v / 2 ^ 32 % 2 ^ 16 = 0 then 0 else (s.die d).uncorr } ∧
      u.dieReg d 0x1000 = (u.die d).uncorr * 2 ^ 32 + (u.die d).corr) ∧
    Completes (.fqbaseWrite d v) s (fun u => u = { s with dies := u.dies } ∧ (∀ j, j ≠ d → u.die j = s.die j) ∧
      u.die d = { s.die d with fqbase := v / 64 * 64 + v % 2 } ∧ u.dieReg d 0x2000 = v / 64 * 64 + v % 2) ∧
    Completes (.fqconsWrite d v) s (fun u => u = { s with dies := u.dies } ∧ (∀ j, j ≠ d → u.die j = s.die j) ∧
      u.die d = { s.die d with fqcons := v % 2 ^ 32 } ∧ u.dieReg d 0x2010 = v % 2 ^ 32)

/-- R11, R16, R401, R402, R421: a store of the hub's side to an MMIO window acts only as one whole aligned register of this module that its agent
reaches: an agent behind the PCIe port reaches the hub's window alone, and resident-only registers are hub firmware's; each register's write is
the event of its name. -/
def Sys2Proof.Machine.RegisterStores : Prop := ∀ (s : State) (n v : Nat) (agent : HostAgent), s.hub.modnum < 64 →
  let hub := s.hub.modnum * 2 ^ 46 + 0x3FF000000000
  let die := fun d => hub + (d + 1) * 2 ^ 32
  (∀ pa, s.reaches agent pa = true ↔
    inMmio pa = true ∧ moduleOf pa = s.hub.modnum ∧ (agent = .pcie → 0x3FF000000000 ≤ pa % 2 ^ 46 ∧ pa % 2 ^ 46 < 0x3FF100000000)) ∧
  (∀ pa, (n ≠ 8 ∨ pa % 8 ≠ 0 ∨ s.reaches agent pa = false ∨ (rsRegister pa = true ∧ agent ≠ .firmware)) →
    exec (.mmioRegisterWrite pa n ⟨v, agent⟩) s = .next s) ∧
  (∀ o i, (o, i) ∈ [(0x20000, Instr.migpush v), (0x20008, .migfree v), (0x20010, .migctlWrite v), (0x20018, .migevqWrite v),
      (0x20028, .mighbaseWrite v), (0x20038, .migevcWrite v), (0x40000, .pwrcapWrite v)] →
    exec (.mmioRegisterWrite (hub + o) 8 ⟨v, agent⟩) s = exec i s) ∧
  (∀ q, q < 64 → exec (.mmioRegisterWrite (hub + 0x30000 + 0x20 * q) 8 ⟨v, agent⟩) s = exec (.qpush q v) s) ∧
  (∀ q, q < 64 → q < s.lqueues.length → v < 2 ^ 34 → Completes (.mmioRegisterWrite (hub + 0x30008 + 0x20 * q) 8 ⟨v, agent⟩) s fun u =>
    u.queueReg q 8 = v) ∧
  (∀ o, o < 0x900000000 → (rsRegister (hub + o) = true ↔ ((0x10000 ≤ o ∧ o < 0x10010) ∨ (0x50000 ≤ o ∧ o < 0x50010) ∨
    (0x50100 ≤ o ∧ o < 0x50300) ∨ (2 ^ 32 ≤ o ∧ ((0x1000 ≤ o % 2 ^ 32 ∧ o % 2 ^ 32 < 0x1008) ∨ (0x2000 ≤ o % 2 ^ 32 ∧ o % 2 ^ 32 < 0x2028)))))) ∧
  (v < 2 ^ 64 →
    Completes (.mmioRegisterWrite (hub + 0x10000) 8 ⟨v, .firmware⟩) s (fun u =>
      u = { s with hub := { s.hub with asidBase := v / 2 ^ 19 % 2 ^ 33, asidEn := v.testBit 0 } }) ∧
    Completes (.mmioRegisterWrite (hub + 0x50000) 8 ⟨v, .firmware⟩) s (fun u => u = { s with hub := { s.hub with dommask := v } }) ∧
    Completes (.mmioRegisterWrite (hub + 0x50008) 8 ⟨v, .firmware⟩) s (fun u => u = { s with hub := { s.hub with
      norec := if v / 2 ^ 32 % 2 ^ 16 = 0 then 0 else s.hub.norec, uepkt := if v % 2 ^ 32 = 0 then 0 else s.hub.uepkt } }) ∧
    (∀ k, k < 64 → k ≠ s.hub.modnum → k < s.hub.domgrade.length →
      Completes (.mmioRegisterWrite (hub + 0x50100 + 8 * k) 8 ⟨v, .firmware⟩) s fun u => u.hubReg (0x50100 + 8 * k) = v % 256)) ∧
  ∀ d, d < 8 →
    (∀ pa, pa = die d + 0x2028 → agent ≠ .pcie → exec (.mmioRegisterWrite pa 8 ⟨v, agent⟩) s =
      .next (s.setDie d fun k => { k with badact := k.badact && !v.testBit 1 })) ∧
    exec (.mmioRegisterWrite (die d + 0x2020) 8 ⟨v, .firmware⟩) s = .next (s.setDie d fun k => { k with fqdoor := v / 8 % 2 ^ 49 * 8 }) ∧
    ((s.die d).colpush.length = 2 → d < s.dies.length → v < 2 ^ 64 → agent ≠ .pcie → ∀ k, k < 2 →
      Completes (.mmioRegisterWrite (die d + 0x3000 + 8 * k) 8 ⟨v, agent⟩) s fun u =>
        u.dieReg d (0x3000 + 8 * k) = v ∧ u.colls = s.colls ∧ u.mem = s.mem)

/-- R11, R19, R56, R88, R351, R373, R377, R421: writes of the registers of the MMIO windows. -/
def Obligations.RegisterWrites : Prop :=
  MigrationRegisters ∧ ModuleRegisters ∧ RegisterStores

/-! Launches, the scheduler, the dobby controllers, images and power. -/

/-- R357, R365, R402: a launch that has ended owes its completion record: 32 bytes with its status, its cause, its identifier, its faults, and the times
at which it first ran and at which it ended, and QSTAT.IRQ where it asks; an address that is not aligned is counted by NOREC; the launch is gone and an
admission step is owed. -/
def Sys2Proof.Machine.CompletionRecords : Prop := ∀ (s : State) (l : Launch) (status cause time : Nat), s.launch? l.uid = some l →
  l.st = .ended status cause time → l.tail = [] → l.rpt = none →
  (∀ pa leaf page, l.crec % 32 = 0 → s.translate none 0 l.asid (l.asid == 0) .store l.crec = (.ok pa leaf page, s) → pa % 32 = 0 →
    inMmio pa = false → s.openAt pa 32 → Completes (.retirement l.uid) s fun u =>
      WrittenAt s u pa (leBytes 4 status ++ leBytes 2 cause ++ leBytes 2 0 ++ leBytes 4 l.launchid ++ leBytes 4 l.faults ++ leBytes 8 l.first ++
        leBytes 8 time) ∧
      u.launches = s.launches.filter (·.uid != l.uid) ∧ u.sched.owed = true ∧ u.hub = s.hub ∧
      (l.irq = true → l.queue < s.lqueues.length → (u.lqueues.getD l.queue LQueue.reset).irq = true)) ∧
  (l.crec % 32 ≠ 0 → Completes (.retirement l.uid) s fun u =>
    u.hub = { s.hub with norec := min (s.hub.norec + 1) 65535 } ∧ u.launches = s.launches.filter (·.uid != l.uid) ∧ u.mem = s.mem)

/-- R187, R365: a graph is retired when all of its regions are quiescent and its stage queues are empty: its regions and its queues are
freed, and its end is timed; the admission step follows with its record and its tails, at once or later. -/
def Sys2Proof.Machine.Retirements : Prop := ∀ (s : State) (l : Launch), s.launch? l.uid = some l → l.st = .resident →
  let over_ := s.queuesEmpty l.uid = true ∧ (∀ v ∈ s.saved, v.launch ≠ l.uid) ∧ ∀ r ∈ s.regions, r.launch = l.uid → s.quiescent r = true ∧ r.stopping = false
  (¬over_ → exec (.retirement l.uid) s = .next s) ∧
  (over_ → Completes (.retirement l.uid) s fun u =>
    (∀ r ∈ u.regions, r.launch ≠ l.uid) ∧ (∀ q ∈ u.queues, q.launch ≠ l.uid) ∧
    ((u.launch? l.uid = none ∧ u.sched.owed = true) ∨ ∃ k, u.launch? l.uid = some k ∧ k.st = .ended 0 0 s.ticks) ∧ u.hub.splitNext = s.time)

/-- R353, R356, R358, R360, R361: a head that has not been read is read at once, line by line, and validated or refused, which an admission step follows.
An admission step waits while victims are stopped. With no head to be read, the first candidate that fits is admitted:
its cells take its drafts, its seats, its ASID and start, its region holds them, it is resident and leaves its queue; where none fits, the victims
that make room are stopped for the first candidate, a launch without a region at once, or nothing happens. A head whose block cannot be read is refused
without a record. That a step reads one head, or admits one launch, is the model's choice (log 36); when a block and its tables are read
rests on logs 10 and 38. -/
def Sys2Proof.Machine.AdmissionSteps : Prop := ∀ (s : State),
  ((∀ q ∈ s.unreadHeads, s.readHead q = none) → (s.sched.owed = false ∨ ∃ l ∈ s.launches, l.st = .stopping) → exec .admissionStep s = .next s) ∧
  (∀ q qs a rest, s.unreadHeads = q :: qs → q < s.lqueues.length → (s.lqueue q).spliced = [] → (s.lqueue q).pushed = a :: rest → (s.lqueue q).read = [] →
    (∀ cause pa, s.hubLoadPa a 128 = .fault 1 cause pa → Completes .admissionStep s fun u =>
      u.hub = { s.hub with norec := min (s.hub.norec + 1) 65535 } ∧ (u.lqueue q).pushed = rest ∧ u.launches = s.launches ∧ u.sched.owed = true) ∧
    ∀ b b' y z, s.hubLoadPa a 128 = .ok b y → y.hubLoadPa (a + 128) 128 = .ok b' z → b ≠ [] →
      let w := z.setLqueue q fun k => { k with read := b ++ b' }
      (w.validate q a false (b ++ b') = none → exec .admissionStep s = .next w) ∧
      ∀ v l, w.validate q a false (b ++ b') = some (v, .inr l) →
        exec .admissionStep s = .next { v with launches := v.launches ++ [l], sched := { v.sched with owed := true } }) ∧
  (s.sched.owed = true → (∀ l ∈ s.launches, l.st ≠ .stopping) →
    (s.unreadHeads = [] → s.order.find? (fun c => s.fits c s.freeCells) = none →
      (s.order = [] → exec .admissionStep s = .next { s with sched := { s.sched with owed := false, stoppingFor := none } }) ∧
      ∀ c rest, s.order = c :: rest →
        (s.chooseVictims c (s.victimsBelow (s.effPrio c.uid)) [] = none →
          exec .admissionStep s = .next { s with sched := { s.sched with owed := false, stoppingFor := none } }) ∧
        ∀ vs, s.chooseVictims c (s.victimsBelow (s.effPrio c.uid)) [] = some vs →
          (∀ v ∈ vs, s.regionsOf v = [] → ∀ l, s.launch? v = some l → l.rpt = none) → Completes .admissionStep s fun u =>
          u.sched = { s.sched with owed := true, stoppingFor := some c.uid } ∧
          ∀ v ∈ vs, (∃ l ∈ s.launches, l.uid = v ∧ l.st = .resident ∧ s.effPrio v < s.effPrio c.uid) ∧
            (u.launch? v).map (·.st) = some (if s.regionsOf v = [] then .preempted else .stopping)) ∧
    ∀ l st va c frees d z, s.unreadHeads = [] → s.sched.stoppingFor = none → s.order.find? (fun c => s.fits c s.freeCells) = some l →
      l.st = .waiting → l.stages = [st] → st.minrep = 1 → st.images = [va] →
      placeRep s.freeCells st 0 = some ([c], frees) → s.loadDrafts l.asid [(c, va)] = some (z, [], [d]) → setCause [[d]] l.evstage = none →
      l.ptab = 0 → l.rpt = none → z.launch? l.uid = some l → z.queue? l.uid 0 = none →
      (z.regions.any fun r => r.launch == l.uid && r.die == dieOf c) = false →
      Completes .admissionStep s fun u =>
        s.regionOf c = none ∧ u.loaded c = true ∧ (u.cell c).draft = d ∧ (u.cell c).seat = some ⟨l.uid, 0, 0, 0⟩ ∧ (u.cell c).asid = l.asid ∧
        (u.cell c).running = true ∧ (u.cell c).stopped = false ∧
        (∃ r ∈ u.regions, r.launch = l.uid ∧ r.die = dieOf c ∧ r.cells = [c]) ∧
        u.launch? l.uid = some { l with st := .resident, admitted := z.ticks, first := z.ticks, lastRun := z.time } ∧
        (l.queue < z.lqueues.length → (z.lqueue l.queue).spliced = [] → (u.lqueue l.queue).pushed = (z.lqueue l.queue).pushed.drop 1) ∧
        (∃ q, u.queue? l.uid 0 = some q ∧ (q.capacity, q.homeDie, q.items) = (st.qcap, dieOf c, [])) ∧
        u.sched.owed = true ∧ u.hub.splitNext = z.time)

/-- R359: a replica goes to the first allowed die with room from the one that its index names, and takes the lowest free cells there. -/
def Sys2Proof.Machine.ReplicasPlaced : Prop := ∀ (s : State) (st : Stage) (i : Nat) (cs : List Nat) (rest : List (List Nat)),
  placeRep s.freeCells st i = some (cs, rest) → 0 < st.foot → cs.length = st.foot ∧ ∃ k, k < (dieList st.dies).length ∧
    let die := fun j => (dieList st.dies).getD ((i + j) % (dieList st.dies).length) 0
    (∀ j, j < k → (s.freeCells.getD (die j) []).length < st.foot) ∧
    (∀ c ∈ cs, dieOf c = die k ∧ s.regionOf c = none ∧ c % 256 < s.userCells (die k)) ∧
    ∀ c, dieOf c = die k → c % 256 < s.userCells (die k) → s.regionOf c = none → c ∉ cs → ∀ x ∈ cs, x < c

/-- R362: a resident launch that has run for its quantum while one of equal priority waits unfit is stopped for it, and a boosted one returns to its
own priority; the head of a queue that has waited for its quantum, its own or else its queue's, is a candidate at priority 7. -/
def Sys2Proof.Machine.TimeSlices : Prop := ∀ (s : State) (l : Launch), s.launch? l.uid = some l →
  let q := 1000000 * Config.ps * (if l.quantum = 0 then (s.lqueue l.queue).quantum else l.quantum)
  let due := l.st = .resident ∧ q ≠ 0 ∧ l.lastRun + q ≤ s.time ∧ ∀ x ∈ s.launches, x.st ≠ .stopping
  let waits := (s.headLaunches ++ s.preemptedLaunches).find? fun c => s.effPrio c.uid == s.effPrio l.uid && !s.fits c s.freeCells
  (¬due → exec (.quantumExpiry l.uid) s = .next s) ∧
  (due → l.boost.isSome = true → Completes (.quantumExpiry l.uid) s fun u =>
    u.launch? l.uid = some { l with boost := none } ∧ u.sched = { s.sched with owed := true } ∧ u.regions = s.regions) ∧
  (due → l.boost = none → waits = none → exec (.quantumExpiry l.uid) s = .next s) ∧
  (∀ c, due → l.boost = none → waits = some c → s.regionsOf l.uid = [] → l.rpt = none → Completes (.quantumExpiry l.uid) s fun u =>
    (u.launch? l.uid).map (·.st) = some .preempted ∧ u.sched = { s.sched with owed := true, stoppingFor := some c.uid } ∧ u.cells = s.cells) ∧
  (∀ c, due → l.boost = none → waits = some c → s.regionsOf l.uid ≠ [] → Completes (.quantumExpiry l.uid) s fun u =>
    (u.launch? l.uid).map (·.st) = some .stopping ∧ u.sched = { s.sched with owed := true, stoppingFor := some c.uid } ∧
    (∀ r ∈ u.regions, r.launch = l.uid → r.stopping = true) ∧ ∀ c ∈ s.cellsOf l.uid, s.loaded c = true → (u.cell c).stopped = true) ∧
  ∀ n, s.headLaunch n = some l →
    let k := s.lqueue n
    ((q = 0 ∨ s.time < k.headSince + q ∨ l.boost.isSome = true) → exec (.antiStarvationBoost n) s = .next s) ∧
    (q ≠ 0 → k.headSince + q ≤ s.time → l.boost = none → Completes (.antiStarvationBoost n) s fun u =>
      u.launch? l.uid = some { l with boost := some s.time } ∧ 7 ≤ u.effPrio l.uid ∧ u.sched.owed = true)

/-- R363, R364: each microsecond a die's controller samples the queues homed on it: the two conditions are timed; a stage whose depth has been low
for SHRT drains its highest replica, one whose depth has been high for GROWT, or that has no replica and a token, gains one;
of a stage whose region is pre-empted, or being stopped or restored, only the timers run. -/
def Sys2Proof.Machine.DobbySamples : Prop := ∀ (s : State) (die : Nat), die < s.dies.length →
  (s.time < (s.die die).dobbyNext → exec (.dobbySample die) s = .next s) ∧
  ∀ q l k, (s.die die).dobbyNext ≤ s.time → s.queues = [q] → q.homeDie = die → s.launch? q.launch = some l →
    l.stages[q.stage]? = some k →
    let since := fun (b : Bool) (old : Option Nat) => if b then some (old.getD s.time) else none
    let g := since (decide (k.growd ≤ q.depth)) q.growSince
    let r := since (decide (q.depth ≤ k.shrd)) q.shrinkSince
    let old := fun (t : Option Nat) (ns : Nat) => ∃ x, t = some x ∧ x + 1000 * Config.ps * ns ≤ s.time
    let reps := s.liveReps l q.stage
    let runs := s.stageRuns l q.stage = true
    let grows := runs ∧ ((reps = [] ∧ 1 ≤ q.depth) ∨ (old g k.growt ∧ reps.length < k.maxrep))
    let shrinks := runs ∧ old r k.shrt ∧ k.minrep < reps.length
    let fresh := { q with growSince := if k.growd ≤ q.depth then some s.time else none
                          shrinkSince := if q.depth ≤ k.shrd then some s.time else none }
    (¬grows → ¬shrinks → Completes (.dobbySample die) s fun u =>
      u.queues = [{ q with growSince := g, shrinkSince := r }] ∧ u.launches = s.launches ∧ u.cells = s.cells ∧
      (u.die die).dobbyNext = (s.die die).dobbyNext + 1000000 * Config.ps) ∧
    (¬grows → shrinks → Completes (.dobbySample die) s fun u =>
      u.queues = [fresh] ∧ u.cells = s.cells ∧
      ∃ top ∈ reps, (∀ x ∈ reps, x ≤ top) ∧ u.launch? l.uid = some { l with draining := l.draining ++ [(q.stage, top)] }) ∧
    (grows → placeRep s.freeCells k (s.nextIndex l q.stage) = none → Completes (.dobbySample die) s fun u =>
      u.queues = [fresh] ∧ u.launches = s.launches ∧ u.cells = s.cells) ∧
    ∀ c frees va d z, grows → placeRep s.freeCells k (s.nextIndex l q.stage) = some ([c], frees) → k.images = [va] →
      let sampled := { s with queues := [{ q with growSince := g, shrinkSince := r }] }
      sampled.loadDrafts l.asid [(c, va)] = some (z, [], [d]) → Completes (.dobbySample die) s fun u =>
        u.loaded c = true ∧ (u.cell c).draft = d ∧ (u.cell c).seat = some ⟨l.uid, q.stage, s.nextIndex l q.stage, 0⟩ ∧
        (u.cell c).asid = l.asid ∧ (u.cell c).running = true ∧ u.queues.map (fun x => (x.growSince, x.shrinkSince)) = [(fresh.growSince, fresh.shrinkSince)] ∧
        u.launches = z.launches

/-- R364: a draining replica with nothing outstanding, nothing eligible, empty channels and parts of the census that sum to 0 gives up its cells. -/
def Sys2Proof.Machine.ReplicasFreed : Prop := ∀ (s : State) (l : Launch) (st rep c : Nat), s.launch? l.uid = some l → (s.cells.map (·.id)).Nodup →
  ((st, rep) ∉ l.draining → exec (.replicaFree l.uid st rep) s = .next s) ∧
  ((st, rep) ∈ l.draining → (s.cells.filter fun k => match k.seat with | some t => t.launch == l.uid && t.stage == st && t.rep == rep | none => false).map
      (·.id) = [c] → (s.cell c).stopped = false →
    ((s.channelsEmpty [c] = false ∨ s.nothingOutstanding [c] = false ∨ s.nothingEligible [c] = false ∨ wrapInt 32 (s.partOf (s.cell c).seat) ≠ 0) →
      exec (.replicaFree l.uid st rep) s = .next s) ∧
    (s.channelsEmpty [c] = true → s.nothingOutstanding [c] = true → s.nothingEligible [c] = true → wrapInt 32 (s.partOf (s.cell c).seat) = 0 →
      (∀ q, s.queue? l.uid st = some q → q.inDispatch = none ∧ q.aside = []) → Completes (.replicaFree l.uid st rep) s fun u =>
        u.loaded c = false ∧ (∀ r ∈ u.regions, r.launch = l.uid → c ∉ r.cells) ∧
        u.launch? l.uid = some { l with draining := l.draining.filter (· != (st, rep)) } ∧ u.sched.owed = true))

/-- R357 to R365: the resident scheduler and the dobby controllers. Through which die its tables are read (log 10), what one step does (log 36) and when a tail's block is read (log 38) are the model's. -/
def Obligations.SchedulerEvents : Prop :=
  CompletionRecords ∧ Retirements ∧ AdmissionSteps ∧ ReplicasPlaced ∧ TimeSlices ∧ DobbySamples ∧ ReplicasFreed

/-- R380, R381, R382: a region's image is written once the region has drained, DONE last; then a CTXIMG ends, and a region that the scheduler
stopped gives up its cells and is saved under its image. It waits for the earlier images of its region, and first stops a region that runs. A row
that cannot be read pauses the image, with DONE at 0. -/
def Sys2Proof.Machine.ImagesWritten : Prop := ∀ (s : State) (op : ImageOp) (r : Region), s.images.find? (·.id == op.id) = some op → op.form ≠ 2 →
  s.regionAt op.die op.region = some r →
  let (full, depth, prev) := imageKind op.form r
  let q := s.quiet r.cells
  let blocks := r.cells.map fun c => (q.controlBytes (q.cell c), (q.cell c).dataBytes ((q.cell c).rows full))
  let head := fun (len : Nat) => imageHeader (if full then 0 else 1) depth (r.die * 256 + r.index) (q.launchidOf r.launch) r.cells.length prev len
    (s.stopTime op r) 0
  ((op.paused ≠ none ∨ s.imageTurn op = false) → exec (.preemptionDrainComplete op.id) s = .next s) ∧
  (op.paused = none → s.imageTurn op = true → r.stopping = false → exec (.preemptionDrainComplete op.id) s = .next (s.stopRegion r)) ∧
  (r.stopping = true → s.drained r.cells = false → exec (.preemptionDrainComplete op.id) s = .next s) ∧
  (op.paused = none → s.imageTurn op = true → r.stopping = true → s.drained r.cells = true →
    (∀ a, s.badRow r.cells full = some a → op.cell ≠ 4096 →
      let p := s.imageBegun op
      p.hasCtx op.cell op.elem op.ctx → dieOf op.cell < p.dies.length → p.images.find? (·.id == op.id) = some op →
      Completes (.preemptionDrainComplete op.id) s fun u =>
        (∃ id, Raised p u op.cell op.elem op.ctx op.slot 0x2E 2 0 (0x0C, 0, lowMark op.m0, a) (.image op.id) id) ∧
        u.mem = p.mem ∧ (u.images.find? (·.id == op.id)).map (·.paused.isSome) = some true) ∧
    ∀ q1 q2, s.badRow r.cells full = none → q.imagePut op op.image (imageBytes head blocks) = .ok [] q1 →
      q1.imageStore op (op.image + 56) (leBytes 8 1) = .ok [] q2 → q2.regionAt op.die op.region = some r →
      (op.cell = 4096 → ∀ l, q2.launch? r.launch = some l → l.rpt = none) → Completes (.preemptionDrainComplete op.id) s fun u =>
        u.images = q2.images.filter (·.id != op.id) ∧
        (op.cell ≠ 4096 → u.mem = q2.mem ∧ u.regionAt op.die op.region = some { r with lastImage := some op.image, depth := depth } ∧
          ∀ c ∈ r.cells, q2.loaded c = true → (u.cell c).dirtyRows = [] ∧ (u.cell c).shadow = none) ∧
        (op.cell = 4096 → u.regionAt op.die op.region = none ∧ (∀ c ∈ r.cells, u.loaded c = false) ∧
          ∃ v ∈ u.saved, (v.launch, v.die, v.image) = (r.launch, r.die, op.image) ∧ v.seats = r.cells.map fun c => (q2.cell c).seat.getD ⟨0, 0, 0, 0⟩))

/-- R382, R383, R384: the layout of an image's header and of a context in it. -/
def Sys2Proof.Machine.ImageLayout : Prop :=
  (∀ kind depth region launchid ncells prev len time done : Nat,
    let h := imageHeader kind depth region launchid ncells prev len time done
    h.length = 64 ∧ fieldAt h 0 4 = 0x4D495843 ∧ fieldAt h 4 2 = 1 ∧ fieldAt h 6 1 = kind % 256 ∧ fieldAt h 7 1 = depth % 256 ∧
    fieldAt h 8 4 = region % 2 ^ 32 ∧ fieldAt h 12 4 = launchid % 2 ^ 32 ∧ fieldAt h 16 2 = ncells % 2 ^ 16 ∧ fieldAt h 24 8 = prev % 2 ^ 64 ∧
    fieldAt h 32 8 = len % 2 ^ 64 ∧ fieldAt h 40 8 = time % 2 ^ 64 ∧ fieldAt h 56 8 = done % 2 ^ 64) ∧
  ∀ (s : State) (c : Cell) (e x : Nat), e < 4 → x < 4 → (c.ctx e x).m.length = 4 →
    let b := s.controlBytes c
    let at_ := 64 + 64 * (4 * e + x)
    let k := c.ctx e x
    b.length = 0x34000 ∧ (∀ n, n < 65536 → b.getD (0x20000 + n) 0 = c.heddle.weights.getD n 0) ∧
    (∀ n, n < 256 → fieldAt b (0x1C200 + 4 * n) 4 = (c.codebook.getD n 0).toNat) ∧
    fieldAt b 0 4 = c.id % 2 ^ 32 ∧ fieldAt b 12 22 = c.roles % 2 ^ 176 ∧ fieldAt b at_ 1 = k.p.toNat ∧
    (fieldAt b (at_ + 1) 1).testBit 0 = k.exhausted ∧ fieldAt b (at_ + 2) 1 = k.fpflags % 256 ∧ fieldAt b (at_ + 3) 1 = k.mwcnt % 256 ∧
    fieldAt b (at_ + 4) 4 = k.srcnt.toNat ∧ ∀ n, n < 4 → fieldAt b (at_ + 8 + 8 * n) 8 = (k.m.getD n 0).toNat

/-- R384, R386: a cell restored from the control block that was written of it has every context's predicates, masks, flags, counts and exhaustion as
they were, and its bank roles. -/
def Sys2Proof.Machine.ImagesRestoreContexts : Prop := ∀ (s : State) (c k : Cell) (id e x : Nat), e < 4 → x < 4 →
  k.elems.length = 4 → (∀ i, i < 4 → (k.elem i).ctxs.length = 4) → (c.ctx e x).m.length = 4 → (c.ctx e x).fpflags < 64 → (c.ctx e x).mwcnt < 256 →
  c.roles < 2 ^ 176 → ∀ held : Ctx → List Nat → List Nat,
  let r := k.fromControl (s.controlBytes c) id held
  r.roles = c.roles ∧ (r.ctx e x).p = (c.ctx e x).p ∧ (r.ctx e x).m = (c.ctx e x).m ∧ (r.ctx e x).fpflags = (c.ctx e x).fpflags ∧
  (r.ctx e x).mwcnt = (c.ctx e x).mwcnt ∧ (r.ctx e x).srcnt = (c.ctx e x).srcnt ∧ (r.ctx e x).exhausted = (c.ctx e x).exhausted

/-- R386: nothing is restored of a chain whose header is no image's, counts other cells, was not finished or is too deep: the restore pauses with a
format fault. -/
def Sys2Proof.Machine.BadChains : Prop := ∀ (s : State) (op : ImageOp) (r : Region) (h : List Nat) (z : State), s.images.find? (·.id == op.id) = some op →
  op.form = 2 → op.paused = none → s.imageTurn op = true → s.regionAt op.die op.region = some r → s.imageLoad op op.image 64 = .ok h z →
  (if op.cell = 4096 then op.die else dieOf op.cell) < s.dies.length →
  (fieldAt h 0 4 ≠ 0x4D495843 ∨ fieldAt h 16 2 ≠ r.cells.length ∨ fieldAt h 56 8 ≠ 1 ∨ 15 < fieldAt h 7 1) →
  Completes (.restoreComplete op.id) s fun u =>
    u.mem = s.mem ∧ u.regions = s.regions ∧ (u.images.find? (·.id == op.id)).map (·.paused.isSome) = some true ∧
    ∃ d x, (u.die d).records = (s.die d).records ++ [x] ∧ (x.record.code, x.record.cause, x.record.addr, x.record.flags) = (0x05, 0, op.image, 2)

/-- R386: a restored region goes on: its cells run, and its chain continues from the restored image. -/
def Sys2Proof.Machine.RegionsRestored : Prop := ∀ (s : State) (op : ImageOp) (r : Region) (c : Nat) (chain d : List Nat) (s1 s2 s3 s4 : State),
  s.images.find? (·.id == op.id) = some op → op.form = 2 → op.paused = none → s.imageTurn op = true → s.regionAt op.die op.region = some r →
  r.cells = [c] →
  s.imageChain op 1 16 op.image = .ok chain s1 → s1.restoreCell op c 0 chain = .ok [] s2 → s2.imageLoad op (op.image + 7) 1 = .ok d s3 →
  s3.imageStore op (op.image + 56) (leBytes 8 1) = .ok [] s4 → s4.loaded c = true → s4.regionAt op.die op.region = some r →
  (∀ e x, (s4.ctxOf c e x).stored = []) → Completes (.restoreComplete op.id) s fun u =>
    u.images = s4.images.filter (·.id != op.id) ∧ (u.cell c).stopped = false ∧ (u.cell c).running = true ∧ u.mem = s4.mem ∧
    u.regionAt op.die op.region = some { r with stopping := false, reported := false, idle := 0, idleSince := s4.time
                                                lastImage := some op.image, depth := d.headD 0 }

/-- R366, R375: a region whose watchdog has counted WDOG cycles raises one region-stall record with a snapshot, and no further one until a handler
acts. Its cycles are those counted before the die's last change of clocks and those since. -/
def Sys2Proof.Machine.RegionsStall : Prop := ∀ (s : State) (die region : Nat) (r : Region) (l : Launch), s.regionAt die region = some r →
  s.launch? r.launch = some l → die < s.dies.length →
  let counted := r.idle + (s.time - r.idleSince) / s.nPeriod die
  let image := (s.takeImage r.cells.length).2.snapshot r s.hub.imageNext
  ((r.stalled = true ∨ s.watched r = false ∨ counted < l.wdog) → exec (.watchdogExpiry die region) s = .next s) ∧
  (r.stalled = false → s.watched r = true → l.wdog ≤ counted →
    (image.regions, image.launches, image.time) = (s.regions, s.launches, s.time) → image.dies.length = s.dies.length →
    (image.die die).records = (s.die die).records → Completes (.watchdogExpiry die region) s fun u =>
    u.regionAt die region = some { r with stalled := true } ∧
    ∃ x : OpenRecord, (u.die die).records = (s.die die).records ++ [x] ∧ (x.record.code, x.record.cause, x.record.flags) = (0x0B, 0, 8) ∧
      (x.record.launchid, x.record.asid, x.record.time, x.record.snap) = (l.launchid, l.asid, s.ticks, s.hub.imageNext) ∧
      (∀ c ∈ r.cells, x.record.cell ≤ c) ∧ x.of = .stall die region)

/-- R366, R380 to R386: context images and the watchdog. Where the scheduler's images stand and the CELL of its records (log 19), the numbers of cells put aside (log 41), TIME and LANES of a record (log 37) and the content of a stall's snapshot (log 42) are the model's. -/
def Obligations.ImageEvents : Prop :=
  ImagesWritten ∧ ImageLayout ∧ ImagesRestoreContexts ∧ BadChains ∧ RegionsRestored ∧ RegionsStall

/-- R370: the split gives every die its minimum where the cap does not reach, and sets SHORT; else one level for all dies, in proportion to their
weights and below their maxima, within the cap: the rest is spent but for less than a unit of 0.125 W a die, or every die with a weight stands at its maximum.
That a table whose highest set is below its lowest leaves nothing to distribute is DEDUCED (log 50). -/
def Sys2Proof.Machine.PowerSplits : Prop := ∀ (s : State), s.dies.length = 8 →
  (s.time < s.hub.splitNext → exec .powerSplit s = .next s) ∧
  (s.hub.splitNext ≤ s.time → Completes .powerSplit s fun u =>
    let a : Int := 8 * ((s.hub.cap : Int) - (s.hub.allow : Int))
    let low := fun d => (s.die d).power 0x0046
    let high := fun d => max (low d) ((s.die d).power 0xFFFC)
    let weight := fun d => match s.served d with | some l => (s.die d).power (clampSet l.clkreq) * l.pweight | none => low d * 16
    let total := fun (f : Nat → Nat) => ((List.range 8).map f).sum
    u.hub = { s.hub with short := decide (a < (total low : Int)), splitNext := s.time + 50000000 * Config.ps } ∧
    (a < (total low : Int) → ∀ d, d < 8 → (u.die d).budget = low d) ∧
    ((total low : Int) ≤ a →
      (∃ m n, n ≠ 0 ∧ ∀ d, d < 8 → (u.die d).budget = min (high d) (low d + m * weight d / n)) ∧
      (total (fun d => (u.die d).budget) : Int) ≤ a ∧
      (a < (total (fun d => (u.die d).budget) : Int) + 8 ∨ ∀ d, d < 8 → (u.die d).budget = high d ∨ weight d = 0)))

/-- R371: a die is granted the legal set within its budget that is nearest to the request of the launch it serves by the launch's weights, then the
one of least power, then the highest; some legal set is always within it. Without a launch it is granted V0 M0 N4 E6. -/
def Sys2Proof.Machine.GrantsChosen : Prop := ∀ (s : State) (d : Nat), s.dies.length = 8 → d < 8 → s.hub.splitNext ≤ s.time →
  (∀ n ∈ (s.die d).ptable, n < 2 ^ 16) → Completes .powerSplit s fun u =>
    let g := (u.die d).pending.getD (s.die d).grant
    let legal := fun x => x < 2 ^ 16 ∧ 4 ≤ x / 16 % 16 ∧ 6 ≤ x % 16 ∧ x % 16 ≤ 12
    let fits := fun x => legal x ∧ (s.die d).power x ≤ (u.die d).budget
    (s.served d = none → g = 0x0046 ∧ (u.die d).overBudget = false) ∧
    ∀ l, s.served d = some l → fits g ∧ (u.die d).overBudget = false ∧
      ∀ x, fits x →
        let cost := grantCost l.clkw (clampSet l.clkreq)
        (cost g < cost x ∨ (cost g = cost x ∧ ((s.die d).power g < (s.die d).power x ∨ ((s.die d).power g = (s.die d).power x ∧ x ≤ g))))

/-- R369, R371: the estimate of a set and its distance from a request. -/
def Sys2Proof.Machine.GrantCosts : Prop :=
  (∀ (d : Die) (v m n e : Nat), v < 16 → m < 16 → n < 16 → e < 16 →
    d.power (v * 4096 + m * 256 + n * 16 + e) =
      d.ptable.getD 0 0 + d.ptable.getD (1 + v) 0 + d.ptable.getD (17 + m) 0 + d.ptable.getD (33 + n) 0 + d.ptable.getD (49 + e) 0) ∧
  ∀ (w v m n e v' m' n' e' : Nat), v < 16 → m < 16 → n < 16 → e < 16 → v' < 16 → m' < 16 → n' < 16 → e' < 16 →
    let far := fun (a b : Nat) => ((a : Int) - (b : Int)).natAbs
    grantCost w (v' * 4096 + m' * 256 + n' * 16 + e') (v * 4096 + m * 256 + n * 16 + e) =
      (w / 64 % 4 + 1) * far v v' + (w / 16 % 4 + 1) * far m m' + (w / 4 % 4 + 1) * far n n' + (w % 4 + 1) * far e e'

/-- R372: a computed set takes effect once, is counted, and is told to each launch on the die with an event stage; a token that still waits for its
reservation takes the later change's values. A set equal to the grant in force does nothing. -/
def Sys2Proof.Machine.GrantsTakeEffect : Prop := ∀ (s : State) (d : Nat), d < 8 → d < s.dies.length →
  let told := s.launches.filter fun l => l.evstage != 255 && (s.regionsOf l.uid).any (·.die == d) && !s.sourcesOver l.uid
  let set := fun (g : Nat) => { s.die d with grant := g, pending := none, changes := (s.die d).changes + 1 }
  let tok := fun (old g : Nat) (t : Token) => t.tag = BitVec.ofNat 32 (2 ^ 28 + ((s.die d).changes + 1) % 2 ^ 28) ∧
    t.lanes.take 5 = [BitVec.ofNat 32 d, BitVec.ofNat 32 old, BitVec.ofNat 32 g, BitVec.ofNat 32 s.ticks, BitVec.ofNat 32 (s.ticks / 2 ^ 32)] ∧
    ∀ n, 5 ≤ n → lane t.lanes n = 0
  ((s.die d).pending = none → exec (.grantEffect d) s = .next s) ∧
  ((s.die d).pending = some (s.die d).grant → Completes (.grantEffect d) s fun u =>
    u.die d = { s.die d with pending := none } ∧ u.flights = s.flights) ∧
  ∀ g, (s.die d).pending = some g → g ≠ (s.die d).grant →
    (told = [] → Completes (.grantEffect d) s fun u => u.die d = set g ∧ u.flights = s.flights) ∧
    ∀ l, told = [l] →
      let src := Producer.event l.uid d
      ((∀ f ∈ s.flights, f.source = src → f.place = none) → Completes (.grantEffect d) s fun u =>
        u.die d = set g ∧ u.census = s.census ∧ ∃ id t, u.flights = s.flights ++ [⟨id, src, .queue l.uid l.evstage, [t], some 0⟩] ∧
          tok (s.die d).grant g t ∧ t.charge = none ∧ ∃ r ∈ u.grants, (r.source, r.target) = (src, .queue l.uid l.evstage)) ∧
      ∀ f o rest, s.flights = f :: rest → f.source = src → f.place.isSome = true → f.items = [o] → (∀ x ∈ rest, x.source ≠ src) →
        ∀ old, lane o.lanes 1 = BitVec.ofNat 32 old → Completes (.grantEffect d) s fun u =>
          u.die d = set g ∧ ∃ t, u.flights = { f with items := [t] } :: rest ∧ tok old g t

/-- R369 to R372: the power split, the grants and their tokens. -/
def Obligations.PowerEvents : Prop :=
  PowerSplits ∧ GrantsChosen ∧ GrantCosts ∧ GrantsTakeEffect

/-! The fault queue. -/

/-- R375, R376, R377, R378: the oldest waiting record is written to the ring, 64 bytes in the layout of R375 under the next sequence number, FQPROD
advances and is stored at the doorbell's address where it is not 0; a ring that is off, full or has nothing to take changes nothing. That a SIZE above 12
acts as 12 is the model's choice (log 35). -/
def Sys2Proof.Machine.RecordsWritten : Prop := ∀ (s : State) (die : Nat), die < s.dies.length →
  let d := s.die die
  let size := 2 ^ min (d.fqbase / 2 ^ 52 % 2 ^ 12) 12
  let at_ := d.fqbase / 2 ^ 6 % 2 ^ 46 * 64 + 64 * (d.fqprod % size)
  let door := d.fqdoor / 2 ^ 3 % 2 ^ 49 * 8
  ((d.fqbase.testBit 0 = false ∨ (d.fqprod + 2 ^ 32 - d.fqcons) % 2 ^ 32 = size ∨ d.nextRecord = none) →
    exec (.faultRecordWrite die) s = .next s) ∧
  ∀ r, d.fqbase.testBit 0 = true → (d.fqprod + 2 ^ 32 - d.fqcons) % 2 ^ 32 ≠ size → d.nextRecord = some r → s.populated at_ 64 = true →
    inMmio at_ = false → s.openAt at_ 64 → (door ≠ 0 → s.populated door 8 = true ∧ inMmio door = false ∧ s.openAt door 8) →
    Completes (.faultRecordWrite die) s fun u =>
      let f := r.record
      let bytes := [f.code, f.cause, f.flags, f.opcode] ++ leBytes 4 f.cell ++ [f.elem, f.ctx, f.slot, 0] ++ leBytes 4 f.launchid ++ leBytes 8 f.lanes ++
        leBytes 8 f.addr ++ leBytes 2 f.profile ++ leBytes 2 f.asid ++ leBytes 4 d.fqprod ++ leBytes 8 f.time ++ leBytes 8 f.snap ++
        List.replicate 8 0
      let next := (d.fqprod + 1) % 2 ^ 32
      (∀ x, memRead u.mem x = if door ≠ 0 ∧ door ≤ x ∧ x < door + 8 then (leBytes 8 next).getD (x - door) 0
        else if at_ ≤ x ∧ x < at_ + 64 then bytes.getD (x - at_) 0 % 256 else memRead s.mem x) ∧
      u.die die = { d with fqprod := next
                           records := d.records.map fun x => if x.record.id = f.id then { x with seq := some d.fqprod } else x } ∧
      u.cells = s.cells

/-- R375, R377, R378, R379: THE RETURN from a fault. An action that names no open record sets BADACT. Resume closes the record and releases what it
held, so that the instruction fires again; skip also applies the firing's trigger effects and sets its arc; for an access the failed parts are
issued again, or bound to 0 and dropped, a lane of FREG or FRES without an update, and an LDX whose block has a format fault without a result (R286); terminate ends the launch. While the context is stopped the action, a terminate too, is stored instead. -/
def Sys2Proof.Machine.HandlersAct : Prop := ∀ (s : State) (die seq : Nat), die < s.dies.length →
  (s.openRecord die seq = none → ∀ i, i ∈ [Instr.fqactResume die seq, .fqactSkip die seq, .fqactTerminate die seq] → Completes i s fun u =>
    u = { s with dies := u.dies } ∧ u.die die = { s.die die with badact := true } ∧ ∀ d, d ≠ die → u.die d = s.die d) ∧
  ∀ r, s.openRecord die seq = some r →
    let id := r.record.id
    let closed := fun (u : State) => u.die die = { s.die die with records := (s.die die).records.filter (·.record.id != id) }
    (∀ i n, (i, n) ∈ [(Instr.fqactResume die seq, 1), (.fqactSkip die seq, 2), (.fqactTerminate die seq, 3)] → s.actWaits r = true → s.hasCtx r.cell r.record.elem r.record.ctx →
      (s.cells.map (·.id)).Nodup → Completes i s fun u =>
        u.dies = s.dies ∧ u.openRecord die seq ≠ some r ∧ LeavesContexts s u r.cell r.record.elem r.record.ctx ∧
        let k := s.ctxOf r.cell r.record.elem r.record.ctx
        u.ctxOf r.cell r.record.elem r.record.ctx = { k with stored := k.stored ++ [(id, n)] }) ∧
    (∀ c e x slot, s.actWaits r = false → r.of = .firing c e x slot → s.hasCtx c e x → id ∈ (s.ctxOf c e x).heldBy →
      let k := s.ctxOf c e x
      let free := k.heldBy.filter (· != id)
      (Completes (.fqactResume die seq) s fun u => closed u ∧ u.mem = s.mem ∧ u.ctxOf c e x = { k with heldBy := free } ∧ u.census = s.census) ∧
      let en := ((s.cell c).draftElem e).entries.getD ((((s.cell c).draftElem e).slots.getD slot 0).toNat / 2 ^ 26 % 64) 0
      (ePop en = 0 → eCinc en = eCdec en → Completes (.fqactSkip die seq) s fun u => closed u ∧ u.mem = s.mem ∧
        u.ctxOf c e x = { k with heldBy := free, p := arcSet r.record.profile ((k.p ||| BitVec.ofNat 8 (eSet en)) &&& ~~~(BitVec.ofNat 8 (eClr en)))
                                 exhausted := k.exhausted || eSrcend en, seq := k.seq + 1 } ∧ u.cur = s.cur)) ∧
    (∀ a i, s.actWaits r = false → r.of = .access a.id i → s.acc? a.id = some a →
      let bad := fun (p : Part) => match p.st with | .failed .. => true | _ => false
      (Completes (.fqactResume die seq) s fun u => closed u ∧ u.mem = s.mem ∧
        u.acc? a.id = some { a with parts := a.parts.map fun p => if bad p then { p with st := .again } else p }) ∧
      let zero := fun (p : Part) => if a.isLoad ∧ a.op ≠ .freg ∧ a.op ≠ .fres then List.replicate p.size 0 else []
      let format := a.parts.any fun p => match p.st with | .failed code _ => code == 0x05 | _ => false
      (Completes (.fqactSkip die seq) s fun u => closed u ∧ u.mem = s.mem ∧
        u.acc? a.id = some { a with res := if format then .none else a.res
                                    parts := a.parts.map fun p => if bad p then { p with st := .done, bound := zero p } else p })) ∧
    (∀ c page asid, s.actWaits r = false → r.of = .logged c page asid → s.loaded c = true →
      (Completes (.fqactResume die seq) s fun u => closed u ∧ (u.cell c).sideLog =
        (s.cell c).sideLog.map fun e => if e.page = page ∧ e.asid = asid then { e with replaying := true } else e) ∧
      (Completes (.fqactSkip die seq) s fun u => closed u ∧ (u.cell c).sideLog =
        (s.cell c).sideLog.filter fun e => !(e.page == page && e.asid == asid))) ∧
    (∀ k, s.actWaits r = false → r.of = .arrival k →
      (Completes (.fqactResume die seq) s fun u => closed u ∧
        u.arrivals = s.arrivals.map fun a => if a.id = k then { a with paused := none } else a) ∧
      (Completes (.fqactSkip die seq) s fun u => closed u ∧ u.arrivals = s.arrivals.filter (·.id != k))) ∧
    (∀ d n q i, r.of = .stall d n → s.regionAt d n = some q → q.launch = r.launch → i ∈ [Instr.fqactResume die seq, .fqactSkip die seq] → Completes i s fun u =>
      closed u ∧ u.regionAt d n = some { q with stalled := false, idle := 0, idleSince := s.time }) ∧
    ∀ l, s.actWaits r = false → s.launch? r.launch = some l → (∀ n cause time, l.st ≠ .ended n cause time) →
      Completes (.fqactTerminate die seq) s fun u =>
      (∀ q ∈ u.regions, q.launch ≠ l.uid) ∧ (∀ q ∈ u.queues, q.launch ≠ l.uid) ∧ (∀ x ∈ u.saved, x.launch ≠ l.uid) ∧
      ((u.launch? l.uid = none ∧ u.sched.owed = true) ∨ ∃ k, u.launch? l.uid = some k ∧ k.st = .ended 2 0 s.ticks)

/-- R375 to R381: the fault queue and the return from a fault. -/
def Obligations.FaultQueueEvents : Prop :=
  RecordsWritten ∧ HandlersAct

/-! The outside: the host, other modules, the management controller, module reset, Ultra Ethernet and collectives. -/

/-- R11, R16, R17, R93, R96, R98, R145, R401, R421: an access of the hub's side to an address that does not exist faults; one to a line that is busy at home,
or that a cell keeps for a while yet, waits. A load of a line that nobody holds brings a copy to the host agent, which the directory records as the
region's owner, and answers the coherent bytes; a store writes such a copy, which stays modified until it is recalled; a line that the agent holds is
read, and where it owns it written, in its copy; an atomic is one event at home. Another module's memory is read and written where it lies. A register
is read and written as the agent may: resident-only ones read 0 but for firmware. That a line is held whole and that every access takes a copy is the
model's choice (log 45); what a window of another module answers is left open (log 9). -/
def Sys2Proof.Machine.HostAccesses : Prop := ∀ (s : State) (q : HostReq),
  let line := lineOf q.addr
  let o := q.addr % 128
  let marks := (2 ^ q.size - 1) * 2 ^ o
  let there := s.populated q.addr q.size = true ∧ inMmio q.addr = false
  let mine := moduleOf q.addr = s.hub.modnum
  (s.populated q.addr q.size = false → exec (.hostAccess q) s = .fault (.unpopulatedAddress q.addr)) ∧
  (there → mine →
    (q.op = .read → s.rangeHeld q.addr q.size false (some 2048) = true → exec (.hostAccess q) s = .next s) ∧
    (q.op = .write → s.rangeHeld q.addr q.size true (some 2048) = true → exec (.hostAccess q) s = .next s)) ∧
  (there → 0 < q.size → o + q.size ≤ 128 → s.openAt line 128 →
    (¬mine →
      (q.op = .read → Completes (.hostAccess q) s fun u => u.hostValue = memNat s.mem q.addr q.size ∧ u.mem = s.mem ∧ u.cells = s.cells) ∧
      (q.op = .write → Completes (.hostAccess q) s fun u => WrittenAt s u q.addr (leBytes q.size q.value) ∧ u.cells = s.cells)) ∧
    (∀ op, q.op = .atomic op → s.inTurn line 0x3FFFF = true → Completes (.hostAccess q) s fun u =>
      let r := atomicNew op (8 * q.size) (memNat s.mem q.addr q.size) q.value q.comparand
      WrittenAt s u q.addr (if r.2.2 then leBytes q.size r.1 else []) ∧ u.hostValue = memNat s.mem q.addr q.size ∧ u.cells = s.cells) ∧
    (∀ op, q.op = .atomic op → s.inTurn line 0x3FFFF = false → exec (.hostAccess q) s = .next s) ∧
    (mine → s.dir.find? (·.region == line / 4096) = none → s.dir.length < 16 →
      let fresh := memBytes s.mem line 128
      let holds := fun (u : State) (st : CchState) (data : List Nat) (dirty : Nat) =>
        u.mem = s.mem ∧ u.cells = s.cells ∧ u.dir = s.dir ++ [⟨line / 4096, .own 2048, none, s.time⟩] ∧
        ∃ l, u.hostCopies = s.hostCopies ++ [l] ∧ (l.pa, l.st, l.data, l.dirty) = (line, st, data, dirty)
      (q.op = .read → Completes (.hostAccess q) s fun u => holds u .exclusive fresh 0 ∧ u.hostValue = memNat s.mem q.addr q.size) ∧
      (q.op = .write → Completes (.hostAccess q) s fun u =>
        holds u .modified (putBytes fresh o (leBytes q.size q.value)) marks ∧ u.hostValue = s.hostValue))) ∧
  (∀ l, there → mine → 0 < q.size → o + q.size ≤ 128 → s.hostCopies = [l] → l.pa = line →
    (q.op = .read → s.rangeHeld q.addr q.size false (some 2048) = false →
      exec (.hostAccess q) s = .next { s with hostValue := leNat (sliceBytes l.data o q.size) }) ∧
    (q.op = .write → s.rangeHeld q.addr q.size true (some 2048) = false → l.owned = true → Completes (.hostAccess q) s fun u =>
      u.mem = s.mem ∧ u.cells = s.cells ∧ u.dir = s.dir ∧
      u.hostCopies = [{ l with st := .modified, data := putBytes l.data o (leBytes q.size q.value), dirty := Nat.lor l.dirty marks }])) ∧
  (s.populated q.addr q.size = true → inMmio q.addr = true →
    (∀ op, q.op = .atomic op → exec (.hostAccess q) s = .next s) ∧
    (mine → s.reaches q.agent q.addr = false → exec (.hostAccess q) s = .next s) ∧
    (¬mine → q.op = .write → exec (.hostAccess q) s = .next s) ∧
    (¬mine → q.op = .read → Completes (.hostAccess q) s fun u => u = { s with hostValue := u.hostValue }) ∧
    (s.reaches q.agent q.addr = true → 0 < q.size → q.addr % 8 + q.size ≤ 8 →
      (q.op = .write → q.value < 2 ^ 64 → exec (.hostAccess q) s = exec (.mmioRegisterWrite q.addr q.size ⟨q.value, q.agent⟩) s) ∧
      (q.op = .read → q.agent ≠ .firmware → rsRegister q.addr = true → exec (.hostAccess q) s = .next { s with hostValue := 0 }) ∧
      ∀ a, q.op = .read → (q.agent = .firmware ∨ rsRegister q.addr = false) → localOf q.addr = 0x3FF000000000 + a → a < 2 ^ 32 →
        exec (.hostAccess q) s = .next { s with hostValue := s.hubReg (a / 8 * 8) / 256 ^ (a % 8) % 256 ^ q.size }))

/-- R16, R137, R145, R151, R154, R158, R291, R292, R404, R406, R408: until MODNUM is written, and for an address of another module, a request of another module
gets no answer; else it is served at home as a local one, an atomic, a future form and an arrival as one event in the requester's turn, and waits for a line
that is busy or that a cell keeps for a while yet; a lock is granted on a free line, refused on a locked one, or queues there for an elder; of the MMIO
windows it reaches the hub's; its ports join collectives. The answers' form, and that an arrival due or a continuation is the requester's to send, is the
model's (log 55). -/
def Sys2Proof.Machine.RemoteAccesses : Prop := ∀ (s : State) (q : RemoteReq),
  let joins := ∃ die port block src, q.op = .join die port block src
  (s.hub.modWritten = false → exec (.remoteAccess q) s = .next s) ∧
  (s.hub.modWritten = true → ∀ die port block src, q.op = .join die port block src → let m := q.requester / 4096 % 64
    (m = s.hub.modnum → exec (.remoteAccess q) s = .next s) ∧
    (m ≠ s.hub.modnum → (∀ k ∈ s.colls, (k.module, k.die, k.port, k.colid) ≠ (m, die, port, fieldAt block 24 4)) → Completes (.remoteAccess q) s fun u =>
      u.mem = s.mem ∧ u.census = s.census ∧ ∃ k, u.colls = s.colls ++ [k] ∧
        (k.module, k.die, k.port, k.colid, k.block, k.src, k.joined) = (m, die, port, fieldAt block 24 4, block, src, s.time))) ∧
  (s.hub.modWritten = true → ¬joins →
    (moduleOf q.addr ≠ s.hub.modnum → exec (.remoteAccess q) s = .next s) ∧
    (moduleOf q.addr = s.hub.modnum →
    (s.populated q.addr q.size = false → exec (.remoteAccess q) s = .fault (.unpopulatedAddress q.addr)) ∧
    (s.populated q.addr q.size = true → inMmio q.addr = true →
      (inHubWindow q.addr = false → exec (.remoteAccess q) s = .next s) ∧
      (inHubWindow q.addr = true → q.op ≠ .load → q.op ≠ .store → exec (.remoteAccess q) s = .next s) ∧
      ∀ a, localOf q.addr = 0x3FF000000000 + a → a < 2 ^ 32 → a % 8 = 0 → q.size = 8 →
        (q.op = .load → exec (.remoteAccess q) s = .next { s with hostValue := s.hubReg a % 2 ^ 64 }) ∧
        (q.op = .store → q.value < 2 ^ 64 → exec (.remoteAccess q) s = exec (.mmioRegisterWrite q.addr 8 ⟨q.value, .firmware⟩) s)) ∧
    (s.populated q.addr q.size = true → inMmio q.addr = false → 0 < q.size → q.addr % 128 + q.size ≤ 128 →
      let line := lineOf q.addr
      let who := q.requester % 2 ^ 18
      let id := 2 ^ 64 + (q.fired * 2 ^ 18 + who) * 16 + q.ctx % 16
      let old := memNat s.mem q.addr q.size
      let answers := fun (bs : List Nat) (v : Nat) => Completes (.remoteAccess q) s fun u =>
        WrittenAt s u q.addr bs ∧ u.hostValue = v ∧ u.cells = s.cells
      ((s.busyLine q.addr = true ∨ s.inTurn line who = false) → (∃ op, q.op = .atomic op) ∨ q.op = .freg ∨ q.op = .fres ∨ q.op = .arrive →
        exec (.remoteAccess q) s = .next s) ∧
      (s.recalls.any (·.line == line) = false → s.inTurn line who = true → ∀ elder, q.op = .lock elder →
        (∀ k, s.locks = [k] → k.line = line → k.holder ≠ id → id ∉ k.queue →
          (elder = false → Completes (.remoteAccess q) s fun u => u.hostValue = 0 ∧ u.locks = s.locks) ∧
          (elder = true → k.queue = [] → Completes (.remoteAccess q) s fun u => u.hostValue = 2 ∧ u.locks = [{ k with queue := [id] }])) ∧
        (s.locks = [] → s.uncopied line 128 → Completes (.remoteAccess q) s fun u => u.hostValue = 1 ∧ u.locks = [⟨line, id, []⟩])) ∧
      (∀ k, s.locks = [k] → k.line = line → k.holder = id → k.queue = [] → q.op = .unlock → Completes (.remoteAccess q) s fun u =>
        u.locks = [] ∧ u.mem = s.mem) ∧
      (s.openAt line 128 →
        (q.op = .load → answers [] old) ∧
        (q.op = .store → answers (leBytes q.size q.value) 0) ∧
        (q.op = .ldx → answers [] (old + memNat s.mem (s.descAddr q.addr) 2 * 256 ^ q.size)) ∧
        (q.op = .stx → (s.descAddr q.addr + 2 ≤ q.addr ∨ q.addr + q.size ≤ s.descAddr q.addr) → Completes (.remoteAccess q) s fun u =>
          ∀ x, memRead u.mem x = if q.addr ≤ x ∧ x < q.addr + q.size then (leBytes q.size q.value).getD (x - q.addr) 0
            else if s.descAddr q.addr ≤ x ∧ x < s.descAddr q.addr + 2 then (leBytes 2 q.desc).getD (x - s.descAddr q.addr) 0 else memRead s.mem x) ∧
        (q.op = .wake → exec (.remoteAccess q) s = .next (s.wakeAt q.addr q.value)) ∧
        (q.op = .waita → old ≠ q.comparand % 256 ^ q.size → (∀ w ∈ s.watches, w.cell < 2 ^ 16) → answers [] old) ∧
        (q.op = .waita → old = q.comparand % 256 ^ q.size → s.watches = [] → Completes (.remoteAccess q) s fun u => u.mem = s.mem ∧
          ∃ w, u.watches = [w] ∧ (w.pa, w.size, w.comparand, w.armed, w.woken) = (q.addr, q.size, old, true, false)) ∧
        (s.inTurn line who = true →
          (∀ op, q.op = .atomic op → let r := atomicNew op (8 * q.size) old q.value q.comparand
            answers (if r.2.2 then leBytes q.size r.1 else []) old) ∧
          (q.op = .freg ∨ q.op = .fres → q.addr % 8 = 0 → q.size = 8 → let r := futureStep (q.op == .freg) old q.value
            answers (match r.1 with | some v => leBytes 8 v | none => [])
              (match r.2.2, r.2.1 with | some c, _ => if c = 0x08 then 2 else 3 | none, some j => 1 + 4 * j | none, none => 0)) ∧
          (q.op = .arrive → q.addr % 16 = 0 → q.size = 16 →
            let n := memNat s.mem q.addr 4
            let flags := memNat s.mem (q.addr + 4) 4
            (1 < n → answers (leBytes 4 (n - 1)) 0) ∧
            (n = 1 → answers (leBytes 4 0 ++ leBytes 4 (Nat.lor flags 1)) (1 + 4 * memNat s.mem (q.addr + 8) 8)) ∧
            (n = 0 → answers (leBytes 4 0 ++ leBytes 4 (Nat.lor flags 2)) 0)))))))

/-- R403: a power cap acts as a write of PWRCAP, a telemetry read answers a register (that it may be any register is the model's choice,
log 40), and a firmware update has no effect before a module reset. -/
def Sys2Proof.Machine.ManagementRequests : Prop := ∀ (s : State),
  (∀ watts, exec (.managementRequest (.powerCap watts)) s = exec (.pwrcapWrite (min watts 4095)) s) ∧
  (∀ pa, inMmio pa = true → exec (.managementRequest (.telemetry pa)) s = .next { s with hostValue := s.mmioRead pa 8 true }) ∧
  (∀ pa, inMmio pa = false → exec (.managementRequest (.telemetry pa)) s = .next s) ∧
  exec (.managementRequest .firmwareUpdate) s = .next s

/-- R2, R17, R19, R57, R78, R373, R408: a module reset, of a part of the grade that firmware finds (0x60, 0x44 or 0x28; any other code stands for the
first, log 3), leaves nothing of launches, cells, queues, faults or time; hub firmware writes MODNUM, places the
enumeration table and its mirror, clears the descriptor stores and loads the resident graphs. -/
def Sys2Proof.Machine.ModuleResets : Prop := ∀ (s : State) (fw : Firmware), Completes (.moduleReset fw) s fun u =>
  let grade := if fw.grade = 0x44 ∨ fw.grade = 0x28 then fw.grade else 0x60
  let cap := if grade = 0x60 then 2200 else if grade = 0x44 then 1800 else 1500
  let store := if grade = 0x60 then 0xFA00000000 else if grade = 0x44 then 0xBC00000000 else 0x9D00000000
  (u.hub.modnum, u.hub.modWritten, u.hub.enumValid, u.hub.asidEn) = (fw.modnum % 64, true, true, false) ∧ (u.hub.grade, u.hub.cap) = (grade, cap) ∧
  u.launches = [] ∧ u.regions = [] ∧ u.accs = [] ∧ u.saved = [] ∧ u.streams = [] ∧ u.queues = [] ∧ u.flights = [] ∧ u.upsets = [] ∧ u.time = 0 ∧
  (∀ d, d < 8 → (u.die d).records = [] ∧ (u.die d).grant = 0x0046 ∧ (u.die d).tlb = [] ∧ (u.die d).disabled = (fw.fuses.getD d ⟨[], []⟩).disabled) ∧
  (∀ q, u.lqueue q = LQueue.reset) ∧ u.mig = { Mig.reset with hbase := fw.modnum % 64 * 2 ^ 46 + store } ∧
  u.hubReg 0x10020 = fw.enumPa / 4096 * 4096 + 1 ∧
  (∀ a, a / 2 ^ 46 % 64 = fw.modnum % 64 → meetsDs grade (a % 2 ^ 46) 1 = true →
    (a < fw.enumPa / 4096 * 4096 ∨ fw.enumPa / 4096 * 4096 + 0x3000 ≤ a) → memRead u.mem a = 0) ∧
  (∀ o, o < 0x2500 → memRead u.mem (fw.enumPa / 4096 * 4096 + o) = (enumBytes grade (fw.modnum % 64) fw.fuses fw.lanes fw.ports).getD o 0 % 256) ∧
  ∀ r, fw.residents = [r] → u.loaded r.cell = true ∧ (u.cell r.cell).asid = 0 ∧ (u.cell r.cell).draft = parseDraft r.image ∧
    (u.cell r.cell).running = true

/-- R367, R402, R407: a malformed launch packet is dropped and counted; one for which there is no room in this module's own memory is dropped; else its block
is copied into memory and pushed on its queue. -/
def Sys2Proof.Machine.LaunchPackets : Prop := ∀ (s : State) (p : UePacket),
  (p.wellFormed = false → exec (.ueLaunchPacket p) s = .next { s with hub := { s.hub with uepkt := min (s.hub.uepkt + 1) (2 ^ 32 - 1) } }) ∧
  (p.wellFormed = true → (p.addr % 256 ≠ 0 ∨ moduleOf p.addr ≠ s.hub.modnum ∨ s.populated p.addr 256 = false ∨ inMmio p.addr = true) →
    exec (.ueLaunchPacket p) s = .next s) ∧
  (p.wellFormed = true → p.block.length = 256 → p.addr < 2 ^ 52 → p.addr % 256 = 0 → moduleOf p.addr = s.hub.modnum → s.populated p.addr 256 = true →
    inMmio p.addr = false → s.openAt p.addr 256 → p.queue < s.lqueues.length → (s.lqueue p.queue).pushed.length < 256 → Completes (.ueLaunchPacket p) s fun u =>
      WrittenAt s u p.addr p.block ∧ (u.lqueue p.queue).pushed = (s.lqueue p.queue).pushed ++ [p.addr] ∧ u.sched.owed = true)

/-- R131, R405: a store to a COLPUSH register joins its port to the collective that its block names, as an engine command of its cell; a port runs at
most four; a misaligned block is an alignment fault. The arc of the store is left to the collective. -/
def Sys2Proof.Machine.CollectivesJoin : Prop := ∀ (s : State) (id i : Nat) (a : Access) (p : Part) (die port : Nat),
  s.acc? id = some a → a.parts[i]? = some p → colPort p.pa = some (die, port) → a.op = .store → p.st = .waiting → p.size = 8 →
  s.blocked a i p = false →
  let running := (s.colls.filter fun c => c.module == s.hub.modnum && c.die == die && c.port == port).length
  let addr := leNat p.data
  (4 ≤ running → exec (.colpush id i) s = .next s) ∧
  (running < 4 → addr % 64 ≠ 0 → s.hasCtx a.cell a.elem a.ctx → dieOf a.cell < s.dies.length → Completes (.colpush id i) s fun u =>
    (∃ r, Raised s u a.cell a.elem a.ctx a.slot a.opcode 2 a.profile (0x04, 0, lowMark a.m0, addr) .collective r ∧
      (u.ctxOf a.cell a.elem a.ctx).heldBy = (s.ctxOf a.cell a.elem a.ctx).heldBy ++ [r]) ∧
    ∃ y, u.acc? id = some y ∧ y.told = true ∧ y.parts = a.parts.set i { p with st := .done }) ∧
  ∀ pa leaf page b z, running < 4 → addr % 64 = 0 → let t := (s.newId).2
    t.translate none die a.asid ((s.cell a.cell).asid == 0) .load addr = (.ok pa leaf page, t) → s.descriptionWaits a.cell a.elem a.ctx a.seq a.asid addr pa leaf 64 = false →
    t.engineLoadPiece none die a.asid ((s.cell a.cell).asid == 0) .load (hintOf a.profile) addr 64 = .ok b z → colBad b = false → colMisaligned b = none → z.acc? id = some a →
    Completes (.colpush id i) s fun u =>
      (∃ k, u.colls = z.colls ++ [k] ∧ (k.die, k.port, k.cell, k.elem, k.ctx, k.asid) = (die, port, a.cell, a.elem, a.ctx, a.asid) ∧
        (k.block, k.colid, k.joined, k.addr, k.module) = (b, fieldAt b 24 4, s.time, addr, s.hub.modnum)) ∧
      (∀ q, u.partOf (some q) = z.partOf (some q) + if (z.cell a.cell).seat = some q then 1 else 0) ∧
      ∃ y, u.acc? id = some y ∧ y.told = true ∧ y.parts = a.parts.set i { p with st := .done }

/-- R406: with its participants joined a collective reads their sources in ascending position and writes to each participant the sum of each element,
added in that order, or the root's elements, and then its flag; blocks that disagree end each participant in a format fault; a group that is not
filled 2 ms after its first join ends in memory timeouts. A participant whose output is performed leaves, the census loses one and the arc of the store
that joined it is set (R132). A port of another module counts by its position and its source; its output and its fault are its own module's. What a
handler's action does after such a fault is the model's choice (logs 39, 45). -/
def Sys2Proof.Machine.CollectivesRun : Prop := ∀ (s : State) (colid : Nat),
  let g := s.colGroup colid
  (g.Pairwise fun p q => p.module * 16 + p.die * 2 + p.port ≤ q.module * 16 + q.die * 2 + q.port) ∧
  (∀ p, p ∈ g ↔ p ∈ s.colls ∧ p.colid = colid) ∧
  (g = [] → exec (.collectiveRun colid) s = .next s ∧ exec (.collectiveTimeout colid) s = .next s) ∧
  (∀ p rest, g = p :: rest → groupBad g = false → g.length < colNpart p.block → exec (.collectiveRun colid) s = .next s) ∧
  (∀ p q a b z t, g = [p, q] → groupBad g = false → colNpart p.block = 2 → (∀ x ∈ g, s.colWaits x = false) →
    s.colReads g [] = some (z, .inl [a, b]) → colOp p.block = 0 → colFmt p.block = 1 →
    let out := (List.range (colCount p.block)).flatMap fun n => leBytes 4 (fpAdd .fp32 (fieldAt a (4 * n) 4) (fieldAt b (4 * n) 4)).1
    z.colWrites out g = some t → exec (.collectiveRun colid) s = .next t) ∧
  (∀ p q a z t, g = [p, q] → groupBad g = false → colNpart p.block = 2 → (∀ x ∈ g, s.colWaits x = false) → s.colReads g [] = some (z, .inl [a]) →
    colOp p.block = 1 → z.colWrites a g = some t → exec (.collectiveRun colid) s = .next t) ∧
  (∀ p, g = [p] → p.module ≠ s.hub.modnum → groupBad g = true → s.cell p.cell = Cell.blank p.cell → Completes (.collectiveRun colid) s fun u =>
    u.colls = s.colls.filter (·.id != p.id) ∧ u.dies = s.dies ∧ u.mem = s.mem) ∧
  (∀ p, g = [p] → p.module = s.hub.modnum → s.hasCtx p.cell p.elem p.ctx → dieOf p.cell < s.dies.length →
    let ends_ := fun (i : Instr) (code : Nat) => Completes i s fun u => u.colls = s.colls.filter (·.id != p.id) ∧
      ∃ r, Raised s u p.cell p.elem p.ctx p.slot p.opcode 2 p.profile (code, 0, p.lanes, p.addr) .collective r ∧
        (u.ctxOf p.cell p.elem p.ctx).heldBy = (s.ctxOf p.cell p.elem p.ctx).heldBy ++ [r]
    (groupBad g = true → ends_ (.collectiveRun colid) 0x05) ∧
    (groupBad g = false → 1 < colNpart p.block →
      (s.time < p.joined + 2000000000 * Config.ps → exec (.collectiveTimeout colid) s = .next s) ∧
      (p.joined + 2000000000 * Config.ps ≤ s.time → ends_ (.collectiveTimeout colid) 0x0D))) ∧
  ∀ (p : CollPort) (out : List Nat) (t w : State), s.engineStore none p.die p.asid ((s.cell p.cell).asid == 0) (hintOf p.profile) (colDst p.block) out = .ok [] t →
    (colFlag p.block = 0 → s.colWrite p out = .ok [] t) ∧
    (colFlag p.block ≠ 0 → t.engineStore none p.die p.asid ((s.cell p.cell).asid == 0) (hintOf p.profile) (colFlag p.block)
      (leBytes 8 (colFval p.block)) = .ok [] w → s.colWrite p out = .ok [] w) ∧
    ((∀ c ∈ s.colls, c.id ≠ p.id → ¬((c.cell, c.elem, c.ctx, c.seq) = (p.cell, p.elem, p.ctx, p.seq))) →
      (∀ a ∈ s.accs, ¬((a.cell, a.elem, a.ctx, a.seq) = (p.cell, p.elem, p.ctx, p.seq))) → s.hasCtx p.cell p.elem p.ctx →
      let u := s.colLeave p
      let x := s.ctxOf p.cell p.elem p.ctx
      u.colls = s.colls.filter (·.id != p.id) ∧ u.ctxOf p.cell p.elem p.ctx = { x with p := arcSet p.profile x.p } ∧
      ∀ k, (s.cell p.cell).seat = some k → u.partOf (some k) = s.partOf (some k) - 1)

/-- R98, R367, R401 to R408, R421: the outside of the module, and collectives. What other modules answer (log 9), what a collective's fault leaves (log 39), what a host access holds (log 45), what memory reads after a reset (log 52) and the form of answers to other modules (log 55) are the model's. -/
def Obligations.OutsideEvents : Prop :=
  HostAccesses ∧ RemoteAccesses ∧ ManagementRequests ∧ ModuleResets ∧ LaunchPackets ∧ CollectivesJoin ∧ CollectivesRun
end

