-- ==== Sys2Proof/Laws/State.lean ====
section
/-! SUPPORT. What each update of State leaves: one lemma per field per update. -/

namespace Sys2Proof.Machine

/-! setCell -/
@[simp] theorem State.setCell_mem (s : State) (c : Nat) (f : Cell → Cell) : (s.setCell c f).mem = s.mem := rfl
@[simp] theorem State.setCell_census (s : State) (c : Nat) (f : Cell → Cell) : (s.setCell c f).census = s.census := rfl
@[simp] theorem State.setCell_accs (s : State) (c : Nat) (f : Cell → Cell) : (s.setCell c f).accs = s.accs := rfl
@[simp] theorem State.setCell_fences (s : State) (c : Nat) (f : Cell → Cell) : (s.setCell c f).fences = s.fences := rfl
@[simp] theorem State.setCell_invs (s : State) (c : Nat) (f : Cell → Cell) : (s.setCell c f).invs = s.invs := rfl
@[simp] theorem State.setCell_mwops (s : State) (c : Nat) (f : Cell → Cell) : (s.setCell c f).mwops = s.mwops := rfl
@[simp] theorem State.setCell_locks (s : State) (c : Nat) (f : Cell → Cell) : (s.setCell c f).locks = s.locks := rfl
@[simp] theorem State.setCell_watches (s : State) (c : Nat) (f : Cell → Cell) : (s.setCell c f).watches = s.watches := rfl
@[simp] theorem State.setCell_arrivals (s : State) (c : Nat) (f : Cell → Cell) : (s.setCell c f).arrivals = s.arrivals := rfl
@[simp] theorem State.setCell_dir (s : State) (c : Nat) (f : Cell → Cell) : (s.setCell c f).dir = s.dir := rfl
@[simp] theorem State.setCell_recalls (s : State) (c : Nat) (f : Cell → Cell) : (s.setCell c f).recalls = s.recalls := rfl
@[simp] theorem State.setCell_sliceLines (s : State) (c : Nat) (f : Cell → Cell) : (s.setCell c f).sliceLines = s.sliceLines := rfl
@[simp] theorem State.setCell_plru (s : State) (c : Nat) (f : Cell → Cell) : (s.setCell c f).plru = s.plru := rfl
@[simp] theorem State.setCell_merges (s : State) (c : Nat) (f : Cell → Cell) : (s.setCell c f).merges = s.merges := rfl
@[simp] theorem State.setCell_flights (s : State) (c : Nat) (f : Cell → Cell) : (s.setCell c f).flights = s.flights := rfl
@[simp] theorem State.setCell_grants (s : State) (c : Nat) (f : Cell → Cell) : (s.setCell c f).grants = s.grants := rfl
@[simp] theorem State.setCell_queues (s : State) (c : Nat) (f : Cell → Cell) : (s.setCell c f).queues = s.queues := rfl
@[simp] theorem State.setCell_launches (s : State) (c : Nat) (f : Cell → Cell) : (s.setCell c f).launches = s.launches := rfl
@[simp] theorem State.setCell_regions (s : State) (c : Nat) (f : Cell → Cell) : (s.setCell c f).regions = s.regions := rfl
@[simp] theorem State.setCell_saved (s : State) (c : Nat) (f : Cell → Cell) : (s.setCell c f).saved = s.saved := rfl
@[simp] theorem State.setCell_images (s : State) (c : Nat) (f : Cell → Cell) : (s.setCell c f).images = s.images := rfl
@[simp] theorem State.setCell_draftlds (s : State) (c : Nat) (f : Cell → Cell) : (s.setCell c f).draftlds = s.draftlds := rfl
@[simp] theorem State.setCell_streams (s : State) (c : Nat) (f : Cell → Cell) : (s.setCell c f).streams = s.streams := rfl
@[simp] theorem State.setCell_closes (s : State) (c : Nat) (f : Cell → Cell) : (s.setCell c f).closes = s.closes := rfl
@[simp] theorem State.setCell_colls (s : State) (c : Nat) (f : Cell → Cell) : (s.setCell c f).colls = s.colls := rfl
@[simp] theorem State.setCell_traversals (s : State) (c : Nat) (f : Cell → Cell) : (s.setCell c f).traversals = s.traversals := rfl
@[simp] theorem State.setCell_walks (s : State) (c : Nat) (f : Cell → Cell) : (s.setCell c f).walks = s.walks := rfl
@[simp] theorem State.setCell_dies (s : State) (c : Nat) (f : Cell → Cell) : (s.setCell c f).dies = s.dies := rfl
@[simp] theorem State.setCell_lqueues (s : State) (c : Nat) (f : Cell → Cell) : (s.setCell c f).lqueues = s.lqueues := rfl
@[simp] theorem State.setCell_mig (s : State) (c : Nat) (f : Cell → Cell) : (s.setCell c f).mig = s.mig := rfl
@[simp] theorem State.setCell_hub (s : State) (c : Nat) (f : Cell → Cell) : (s.setCell c f).hub = s.hub := rfl
@[simp] theorem State.setCell_sched (s : State) (c : Nat) (f : Cell → Cell) : (s.setCell c f).sched = s.sched := rfl
@[simp] theorem State.setCell_time (s : State) (c : Nat) (f : Cell → Cell) : (s.setCell c f).time = s.time := rfl
@[simp] theorem State.setCell_persistNext (s : State) (c : Nat) (f : Cell → Cell) : (s.setCell c f).persistNext = s.persistNext := rfl
@[simp] theorem State.setCell_upsets (s : State) (c : Nat) (f : Cell → Cell) : (s.setCell c f).upsets = s.upsets := rfl
@[simp] theorem State.setCell_hostCopies (s : State) (c : Nat) (f : Cell → Cell) : (s.setCell c f).hostCopies = s.hostCopies := rfl
@[simp] theorem State.setCell_servedNow (s : State) (c : Nat) (f : Cell → Cell) : (s.setCell c f).servedNow = s.servedNow := rfl
@[simp] theorem State.setCell_nextId (s : State) (c : Nat) (f : Cell → Cell) : (s.setCell c f).nextId = s.nextId := rfl
@[simp] theorem State.setCell_hostValue (s : State) (c : Nat) (f : Cell → Cell) : (s.setCell c f).hostValue = s.hostValue := rfl
@[simp] theorem State.setCell_cur (s : State) (c : Nat) (f : Cell → Cell) : (s.setCell c f).cur = s.cur := rfl
@[simp] theorem State.setCell_env (s : State) (c : Nat) (f : Cell → Cell) : (s.setCell c f).env = s.env := rfl

/-! setElem -/
@[simp] theorem State.setElem_mem (s : State) (c e : Nat) (f : Elem → Elem) : (s.setElem c e f).mem = s.mem := rfl
@[simp] theorem State.setElem_census (s : State) (c e : Nat) (f : Elem → Elem) : (s.setElem c e f).census = s.census := rfl
@[simp] theorem State.setElem_accs (s : State) (c e : Nat) (f : Elem → Elem) : (s.setElem c e f).accs = s.accs := rfl
@[simp] theorem State.setElem_fences (s : State) (c e : Nat) (f : Elem → Elem) : (s.setElem c e f).fences = s.fences := rfl
@[simp] theorem State.setElem_invs (s : State) (c e : Nat) (f : Elem → Elem) : (s.setElem c e f).invs = s.invs := rfl
@[simp] theorem State.setElem_mwops (s : State) (c e : Nat) (f : Elem → Elem) : (s.setElem c e f).mwops = s.mwops := rfl
@[simp] theorem State.setElem_locks (s : State) (c e : Nat) (f : Elem → Elem) : (s.setElem c e f).locks = s.locks := rfl
@[simp] theorem State.setElem_watches (s : State) (c e : Nat) (f : Elem → Elem) : (s.setElem c e f).watches = s.watches := rfl
@[simp] theorem State.setElem_arrivals (s : State) (c e : Nat) (f : Elem → Elem) : (s.setElem c e f).arrivals = s.arrivals := rfl
@[simp] theorem State.setElem_dir (s : State) (c e : Nat) (f : Elem → Elem) : (s.setElem c e f).dir = s.dir := rfl
@[simp] theorem State.setElem_recalls (s : State) (c e : Nat) (f : Elem → Elem) : (s.setElem c e f).recalls = s.recalls := rfl
@[simp] theorem State.setElem_sliceLines (s : State) (c e : Nat) (f : Elem → Elem) : (s.setElem c e f).sliceLines = s.sliceLines := rfl
@[simp] theorem State.setElem_plru (s : State) (c e : Nat) (f : Elem → Elem) : (s.setElem c e f).plru = s.plru := rfl
@[simp] theorem State.setElem_merges (s : State) (c e : Nat) (f : Elem → Elem) : (s.setElem c e f).merges = s.merges := rfl
@[simp] theorem State.setElem_flights (s : State) (c e : Nat) (f : Elem → Elem) : (s.setElem c e f).flights = s.flights := rfl
@[simp] theorem State.setElem_grants (s : State) (c e : Nat) (f : Elem → Elem) : (s.setElem c e f).grants = s.grants := rfl
@[simp] theorem State.setElem_queues (s : State) (c e : Nat) (f : Elem → Elem) : (s.setElem c e f).queues = s.queues := rfl
@[simp] theorem State.setElem_launches (s : State) (c e : Nat) (f : Elem → Elem) : (s.setElem c e f).launches = s.launches := rfl
@[simp] theorem State.setElem_regions (s : State) (c e : Nat) (f : Elem → Elem) : (s.setElem c e f).regions = s.regions := rfl
@[simp] theorem State.setElem_saved (s : State) (c e : Nat) (f : Elem → Elem) : (s.setElem c e f).saved = s.saved := rfl
@[simp] theorem State.setElem_images (s : State) (c e : Nat) (f : Elem → Elem) : (s.setElem c e f).images = s.images := rfl
@[simp] theorem State.setElem_draftlds (s : State) (c e : Nat) (f : Elem → Elem) : (s.setElem c e f).draftlds = s.draftlds := rfl
@[simp] theorem State.setElem_streams (s : State) (c e : Nat) (f : Elem → Elem) : (s.setElem c e f).streams = s.streams := rfl
@[simp] theorem State.setElem_closes (s : State) (c e : Nat) (f : Elem → Elem) : (s.setElem c e f).closes = s.closes := rfl
@[simp] theorem State.setElem_colls (s : State) (c e : Nat) (f : Elem → Elem) : (s.setElem c e f).colls = s.colls := rfl
@[simp] theorem State.setElem_traversals (s : State) (c e : Nat) (f : Elem → Elem) : (s.setElem c e f).traversals = s.traversals := rfl
@[simp] theorem State.setElem_walks (s : State) (c e : Nat) (f : Elem → Elem) : (s.setElem c e f).walks = s.walks := rfl
@[simp] theorem State.setElem_dies (s : State) (c e : Nat) (f : Elem → Elem) : (s.setElem c e f).dies = s.dies := rfl
@[simp] theorem State.setElem_lqueues (s : State) (c e : Nat) (f : Elem → Elem) : (s.setElem c e f).lqueues = s.lqueues := rfl
@[simp] theorem State.setElem_mig (s : State) (c e : Nat) (f : Elem → Elem) : (s.setElem c e f).mig = s.mig := rfl
@[simp] theorem State.setElem_hub (s : State) (c e : Nat) (f : Elem → Elem) : (s.setElem c e f).hub = s.hub := rfl
@[simp] theorem State.setElem_sched (s : State) (c e : Nat) (f : Elem → Elem) : (s.setElem c e f).sched = s.sched := rfl
@[simp] theorem State.setElem_time (s : State) (c e : Nat) (f : Elem → Elem) : (s.setElem c e f).time = s.time := rfl
@[simp] theorem State.setElem_persistNext (s : State) (c e : Nat) (f : Elem → Elem) : (s.setElem c e f).persistNext = s.persistNext := rfl
@[simp] theorem State.setElem_upsets (s : State) (c e : Nat) (f : Elem → Elem) : (s.setElem c e f).upsets = s.upsets := rfl
@[simp] theorem State.setElem_hostCopies (s : State) (c e : Nat) (f : Elem → Elem) : (s.setElem c e f).hostCopies = s.hostCopies := rfl
@[simp] theorem State.setElem_servedNow (s : State) (c e : Nat) (f : Elem → Elem) : (s.setElem c e f).servedNow = s.servedNow := rfl
@[simp] theorem State.setElem_nextId (s : State) (c e : Nat) (f : Elem → Elem) : (s.setElem c e f).nextId = s.nextId := rfl
@[simp] theorem State.setElem_hostValue (s : State) (c e : Nat) (f : Elem → Elem) : (s.setElem c e f).hostValue = s.hostValue := rfl
@[simp] theorem State.setElem_cur (s : State) (c e : Nat) (f : Elem → Elem) : (s.setElem c e f).cur = s.cur := rfl
@[simp] theorem State.setElem_env (s : State) (c e : Nat) (f : Elem → Elem) : (s.setElem c e f).env = s.env := rfl

/-! setCtx -/
@[simp] theorem State.setCtx_mem (s : State) (c e x : Nat) (f : Ctx → Ctx) : (s.setCtx c e x f).mem = s.mem := rfl
@[simp] theorem State.setCtx_census (s : State) (c e x : Nat) (f : Ctx → Ctx) : (s.setCtx c e x f).census = s.census := rfl
@[simp] theorem State.setCtx_accs (s : State) (c e x : Nat) (f : Ctx → Ctx) : (s.setCtx c e x f).accs = s.accs := rfl
@[simp] theorem State.setCtx_fences (s : State) (c e x : Nat) (f : Ctx → Ctx) : (s.setCtx c e x f).fences = s.fences := rfl
@[simp] theorem State.setCtx_invs (s : State) (c e x : Nat) (f : Ctx → Ctx) : (s.setCtx c e x f).invs = s.invs := rfl
@[simp] theorem State.setCtx_mwops (s : State) (c e x : Nat) (f : Ctx → Ctx) : (s.setCtx c e x f).mwops = s.mwops := rfl
@[simp] theorem State.setCtx_locks (s : State) (c e x : Nat) (f : Ctx → Ctx) : (s.setCtx c e x f).locks = s.locks := rfl
@[simp] theorem State.setCtx_watches (s : State) (c e x : Nat) (f : Ctx → Ctx) : (s.setCtx c e x f).watches = s.watches := rfl
@[simp] theorem State.setCtx_arrivals (s : State) (c e x : Nat) (f : Ctx → Ctx) : (s.setCtx c e x f).arrivals = s.arrivals := rfl
@[simp] theorem State.setCtx_dir (s : State) (c e x : Nat) (f : Ctx → Ctx) : (s.setCtx c e x f).dir = s.dir := rfl
@[simp] theorem State.setCtx_recalls (s : State) (c e x : Nat) (f : Ctx → Ctx) : (s.setCtx c e x f).recalls = s.recalls := rfl
@[simp] theorem State.setCtx_sliceLines (s : State) (c e x : Nat) (f : Ctx → Ctx) : (s.setCtx c e x f).sliceLines = s.sliceLines := rfl
@[simp] theorem State.setCtx_plru (s : State) (c e x : Nat) (f : Ctx → Ctx) : (s.setCtx c e x f).plru = s.plru := rfl
@[simp] theorem State.setCtx_merges (s : State) (c e x : Nat) (f : Ctx → Ctx) : (s.setCtx c e x f).merges = s.merges := rfl
@[simp] theorem State.setCtx_flights (s : State) (c e x : Nat) (f : Ctx → Ctx) : (s.setCtx c e x f).flights = s.flights := rfl
@[simp] theorem State.setCtx_grants (s : State) (c e x : Nat) (f : Ctx → Ctx) : (s.setCtx c e x f).grants = s.grants := rfl
@[simp] theorem State.setCtx_queues (s : State) (c e x : Nat) (f : Ctx → Ctx) : (s.setCtx c e x f).queues = s.queues := rfl
@[simp] theorem State.setCtx_launches (s : State) (c e x : Nat) (f : Ctx → Ctx) : (s.setCtx c e x f).launches = s.launches := rfl
@[simp] theorem State.setCtx_regions (s : State) (c e x : Nat) (f : Ctx → Ctx) : (s.setCtx c e x f).regions = s.regions := rfl
@[simp] theorem State.setCtx_saved (s : State) (c e x : Nat) (f : Ctx → Ctx) : (s.setCtx c e x f).saved = s.saved := rfl
@[simp] theorem State.setCtx_images (s : State) (c e x : Nat) (f : Ctx → Ctx) : (s.setCtx c e x f).images = s.images := rfl
@[simp] theorem State.setCtx_draftlds (s : State) (c e x : Nat) (f : Ctx → Ctx) : (s.setCtx c e x f).draftlds = s.draftlds := rfl
@[simp] theorem State.setCtx_streams (s : State) (c e x : Nat) (f : Ctx → Ctx) : (s.setCtx c e x f).streams = s.streams := rfl
@[simp] theorem State.setCtx_closes (s : State) (c e x : Nat) (f : Ctx → Ctx) : (s.setCtx c e x f).closes = s.closes := rfl
@[simp] theorem State.setCtx_colls (s : State) (c e x : Nat) (f : Ctx → Ctx) : (s.setCtx c e x f).colls = s.colls := rfl
@[simp] theorem State.setCtx_traversals (s : State) (c e x : Nat) (f : Ctx → Ctx) : (s.setCtx c e x f).traversals = s.traversals := rfl
@[simp] theorem State.setCtx_walks (s : State) (c e x : Nat) (f : Ctx → Ctx) : (s.setCtx c e x f).walks = s.walks := rfl
@[simp] theorem State.setCtx_dies (s : State) (c e x : Nat) (f : Ctx → Ctx) : (s.setCtx c e x f).dies = s.dies := rfl
@[simp] theorem State.setCtx_lqueues (s : State) (c e x : Nat) (f : Ctx → Ctx) : (s.setCtx c e x f).lqueues = s.lqueues := rfl
@[simp] theorem State.setCtx_mig (s : State) (c e x : Nat) (f : Ctx → Ctx) : (s.setCtx c e x f).mig = s.mig := rfl
@[simp] theorem State.setCtx_hub (s : State) (c e x : Nat) (f : Ctx → Ctx) : (s.setCtx c e x f).hub = s.hub := rfl
@[simp] theorem State.setCtx_sched (s : State) (c e x : Nat) (f : Ctx → Ctx) : (s.setCtx c e x f).sched = s.sched := rfl
@[simp] theorem State.setCtx_time (s : State) (c e x : Nat) (f : Ctx → Ctx) : (s.setCtx c e x f).time = s.time := rfl
@[simp] theorem State.setCtx_persistNext (s : State) (c e x : Nat) (f : Ctx → Ctx) : (s.setCtx c e x f).persistNext = s.persistNext := rfl
@[simp] theorem State.setCtx_upsets (s : State) (c e x : Nat) (f : Ctx → Ctx) : (s.setCtx c e x f).upsets = s.upsets := rfl
@[simp] theorem State.setCtx_hostCopies (s : State) (c e x : Nat) (f : Ctx → Ctx) : (s.setCtx c e x f).hostCopies = s.hostCopies := rfl
@[simp] theorem State.setCtx_servedNow (s : State) (c e x : Nat) (f : Ctx → Ctx) : (s.setCtx c e x f).servedNow = s.servedNow := rfl
@[simp] theorem State.setCtx_nextId (s : State) (c e x : Nat) (f : Ctx → Ctx) : (s.setCtx c e x f).nextId = s.nextId := rfl
@[simp] theorem State.setCtx_hostValue (s : State) (c e x : Nat) (f : Ctx → Ctx) : (s.setCtx c e x f).hostValue = s.hostValue := rfl
@[simp] theorem State.setCtx_cur (s : State) (c e x : Nat) (f : Ctx → Ctx) : (s.setCtx c e x f).cur = s.cur := rfl
@[simp] theorem State.setCtx_env (s : State) (c e x : Nat) (f : Ctx → Ctx) : (s.setCtx c e x f).env = s.env := rfl

/-! setCurCtx -/
@[simp] theorem State.setCurCtx_mem (s : State) (f : Ctx → Ctx) : (s.setCurCtx f).mem = s.mem := rfl
@[simp] theorem State.setCurCtx_census (s : State) (f : Ctx → Ctx) : (s.setCurCtx f).census = s.census := rfl
@[simp] theorem State.setCurCtx_accs (s : State) (f : Ctx → Ctx) : (s.setCurCtx f).accs = s.accs := rfl
@[simp] theorem State.setCurCtx_fences (s : State) (f : Ctx → Ctx) : (s.setCurCtx f).fences = s.fences := rfl
@[simp] theorem State.setCurCtx_invs (s : State) (f : Ctx → Ctx) : (s.setCurCtx f).invs = s.invs := rfl
@[simp] theorem State.setCurCtx_mwops (s : State) (f : Ctx → Ctx) : (s.setCurCtx f).mwops = s.mwops := rfl
@[simp] theorem State.setCurCtx_locks (s : State) (f : Ctx → Ctx) : (s.setCurCtx f).locks = s.locks := rfl
@[simp] theorem State.setCurCtx_watches (s : State) (f : Ctx → Ctx) : (s.setCurCtx f).watches = s.watches := rfl
@[simp] theorem State.setCurCtx_arrivals (s : State) (f : Ctx → Ctx) : (s.setCurCtx f).arrivals = s.arrivals := rfl
@[simp] theorem State.setCurCtx_dir (s : State) (f : Ctx → Ctx) : (s.setCurCtx f).dir = s.dir := rfl
@[simp] theorem State.setCurCtx_recalls (s : State) (f : Ctx → Ctx) : (s.setCurCtx f).recalls = s.recalls := rfl
@[simp] theorem State.setCurCtx_sliceLines (s : State) (f : Ctx → Ctx) : (s.setCurCtx f).sliceLines = s.sliceLines := rfl
@[simp] theorem State.setCurCtx_plru (s : State) (f : Ctx → Ctx) : (s.setCurCtx f).plru = s.plru := rfl
@[simp] theorem State.setCurCtx_merges (s : State) (f : Ctx → Ctx) : (s.setCurCtx f).merges = s.merges := rfl
@[simp] theorem State.setCurCtx_flights (s : State) (f : Ctx → Ctx) : (s.setCurCtx f).flights = s.flights := rfl
@[simp] theorem State.setCurCtx_grants (s : State) (f : Ctx → Ctx) : (s.setCurCtx f).grants = s.grants := rfl
@[simp] theorem State.setCurCtx_queues (s : State) (f : Ctx → Ctx) : (s.setCurCtx f).queues = s.queues := rfl
@[simp] theorem State.setCurCtx_launches (s : State) (f : Ctx → Ctx) : (s.setCurCtx f).launches = s.launches := rfl
@[simp] theorem State.setCurCtx_regions (s : State) (f : Ctx → Ctx) : (s.setCurCtx f).regions = s.regions := rfl
@[simp] theorem State.setCurCtx_saved (s : State) (f : Ctx → Ctx) : (s.setCurCtx f).saved = s.saved := rfl
@[simp] theorem State.setCurCtx_images (s : State) (f : Ctx → Ctx) : (s.setCurCtx f).images = s.images := rfl
@[simp] theorem State.setCurCtx_draftlds (s : State) (f : Ctx → Ctx) : (s.setCurCtx f).draftlds = s.draftlds := rfl
@[simp] theorem State.setCurCtx_streams (s : State) (f : Ctx → Ctx) : (s.setCurCtx f).streams = s.streams := rfl
@[simp] theorem State.setCurCtx_closes (s : State) (f : Ctx → Ctx) : (s.setCurCtx f).closes = s.closes := rfl
@[simp] theorem State.setCurCtx_colls (s : State) (f : Ctx → Ctx) : (s.setCurCtx f).colls = s.colls := rfl
@[simp] theorem State.setCurCtx_traversals (s : State) (f : Ctx → Ctx) : (s.setCurCtx f).traversals = s.traversals := rfl
@[simp] theorem State.setCurCtx_walks (s : State) (f : Ctx → Ctx) : (s.setCurCtx f).walks = s.walks := rfl
@[simp] theorem State.setCurCtx_dies (s : State) (f : Ctx → Ctx) : (s.setCurCtx f).dies = s.dies := rfl
@[simp] theorem State.setCurCtx_lqueues (s : State) (f : Ctx → Ctx) : (s.setCurCtx f).lqueues = s.lqueues := rfl
@[simp] theorem State.setCurCtx_mig (s : State) (f : Ctx → Ctx) : (s.setCurCtx f).mig = s.mig := rfl
@[simp] theorem State.setCurCtx_hub (s : State) (f : Ctx → Ctx) : (s.setCurCtx f).hub = s.hub := rfl
@[simp] theorem State.setCurCtx_sched (s : State) (f : Ctx → Ctx) : (s.setCurCtx f).sched = s.sched := rfl
@[simp] theorem State.setCurCtx_time (s : State) (f : Ctx → Ctx) : (s.setCurCtx f).time = s.time := rfl
@[simp] theorem State.setCurCtx_persistNext (s : State) (f : Ctx → Ctx) : (s.setCurCtx f).persistNext = s.persistNext := rfl
@[simp] theorem State.setCurCtx_upsets (s : State) (f : Ctx → Ctx) : (s.setCurCtx f).upsets = s.upsets := rfl
@[simp] theorem State.setCurCtx_hostCopies (s : State) (f : Ctx → Ctx) : (s.setCurCtx f).hostCopies = s.hostCopies := rfl
@[simp] theorem State.setCurCtx_servedNow (s : State) (f : Ctx → Ctx) : (s.setCurCtx f).servedNow = s.servedNow := rfl
@[simp] theorem State.setCurCtx_nextId (s : State) (f : Ctx → Ctx) : (s.setCurCtx f).nextId = s.nextId := rfl
@[simp] theorem State.setCurCtx_hostValue (s : State) (f : Ctx → Ctx) : (s.setCurCtx f).hostValue = s.hostValue := rfl
@[simp] theorem State.setCurCtx_cur (s : State) (f : Ctx → Ctx) : (s.setCurCtx f).cur = s.cur := rfl
@[simp] theorem State.setCurCtx_env (s : State) (f : Ctx → Ctx) : (s.setCurCtx f).env = s.env := rfl

/-! setDie -/
@[simp] theorem State.setDie_mem (s : State) (d : Nat) (f : Die → Die) : (s.setDie d f).mem = s.mem := rfl
@[simp] theorem State.setDie_cells (s : State) (d : Nat) (f : Die → Die) : (s.setDie d f).cells = s.cells := rfl
@[simp] theorem State.setDie_census (s : State) (d : Nat) (f : Die → Die) : (s.setDie d f).census = s.census := rfl
@[simp] theorem State.setDie_accs (s : State) (d : Nat) (f : Die → Die) : (s.setDie d f).accs = s.accs := rfl
@[simp] theorem State.setDie_fences (s : State) (d : Nat) (f : Die → Die) : (s.setDie d f).fences = s.fences := rfl
@[simp] theorem State.setDie_invs (s : State) (d : Nat) (f : Die → Die) : (s.setDie d f).invs = s.invs := rfl
@[simp] theorem State.setDie_mwops (s : State) (d : Nat) (f : Die → Die) : (s.setDie d f).mwops = s.mwops := rfl
@[simp] theorem State.setDie_locks (s : State) (d : Nat) (f : Die → Die) : (s.setDie d f).locks = s.locks := rfl
@[simp] theorem State.setDie_watches (s : State) (d : Nat) (f : Die → Die) : (s.setDie d f).watches = s.watches := rfl
@[simp] theorem State.setDie_arrivals (s : State) (d : Nat) (f : Die → Die) : (s.setDie d f).arrivals = s.arrivals := rfl
@[simp] theorem State.setDie_dir (s : State) (d : Nat) (f : Die → Die) : (s.setDie d f).dir = s.dir := rfl
@[simp] theorem State.setDie_recalls (s : State) (d : Nat) (f : Die → Die) : (s.setDie d f).recalls = s.recalls := rfl
@[simp] theorem State.setDie_sliceLines (s : State) (d : Nat) (f : Die → Die) : (s.setDie d f).sliceLines = s.sliceLines := rfl
@[simp] theorem State.setDie_plru (s : State) (d : Nat) (f : Die → Die) : (s.setDie d f).plru = s.plru := rfl
@[simp] theorem State.setDie_merges (s : State) (d : Nat) (f : Die → Die) : (s.setDie d f).merges = s.merges := rfl
@[simp] theorem State.setDie_flights (s : State) (d : Nat) (f : Die → Die) : (s.setDie d f).flights = s.flights := rfl
@[simp] theorem State.setDie_grants (s : State) (d : Nat) (f : Die → Die) : (s.setDie d f).grants = s.grants := rfl
@[simp] theorem State.setDie_queues (s : State) (d : Nat) (f : Die → Die) : (s.setDie d f).queues = s.queues := rfl
@[simp] theorem State.setDie_launches (s : State) (d : Nat) (f : Die → Die) : (s.setDie d f).launches = s.launches := rfl
@[simp] theorem State.setDie_regions (s : State) (d : Nat) (f : Die → Die) : (s.setDie d f).regions = s.regions := rfl
@[simp] theorem State.setDie_saved (s : State) (d : Nat) (f : Die → Die) : (s.setDie d f).saved = s.saved := rfl
@[simp] theorem State.setDie_images (s : State) (d : Nat) (f : Die → Die) : (s.setDie d f).images = s.images := rfl
@[simp] theorem State.setDie_draftlds (s : State) (d : Nat) (f : Die → Die) : (s.setDie d f).draftlds = s.draftlds := rfl
@[simp] theorem State.setDie_streams (s : State) (d : Nat) (f : Die → Die) : (s.setDie d f).streams = s.streams := rfl
@[simp] theorem State.setDie_closes (s : State) (d : Nat) (f : Die → Die) : (s.setDie d f).closes = s.closes := rfl
@[simp] theorem State.setDie_colls (s : State) (d : Nat) (f : Die → Die) : (s.setDie d f).colls = s.colls := rfl
@[simp] theorem State.setDie_traversals (s : State) (d : Nat) (f : Die → Die) : (s.setDie d f).traversals = s.traversals := rfl
@[simp] theorem State.setDie_walks (s : State) (d : Nat) (f : Die → Die) : (s.setDie d f).walks = s.walks := rfl
@[simp] theorem State.setDie_lqueues (s : State) (d : Nat) (f : Die → Die) : (s.setDie d f).lqueues = s.lqueues := rfl
@[simp] theorem State.setDie_mig (s : State) (d : Nat) (f : Die → Die) : (s.setDie d f).mig = s.mig := rfl
@[simp] theorem State.setDie_hub (s : State) (d : Nat) (f : Die → Die) : (s.setDie d f).hub = s.hub := rfl
@[simp] theorem State.setDie_sched (s : State) (d : Nat) (f : Die → Die) : (s.setDie d f).sched = s.sched := rfl
@[simp] theorem State.setDie_time (s : State) (d : Nat) (f : Die → Die) : (s.setDie d f).time = s.time := rfl
@[simp] theorem State.setDie_persistNext (s : State) (d : Nat) (f : Die → Die) : (s.setDie d f).persistNext = s.persistNext := rfl
@[simp] theorem State.setDie_upsets (s : State) (d : Nat) (f : Die → Die) : (s.setDie d f).upsets = s.upsets := rfl
@[simp] theorem State.setDie_hostCopies (s : State) (d : Nat) (f : Die → Die) : (s.setDie d f).hostCopies = s.hostCopies := rfl
@[simp] theorem State.setDie_servedNow (s : State) (d : Nat) (f : Die → Die) : (s.setDie d f).servedNow = s.servedNow := rfl
@[simp] theorem State.setDie_nextId (s : State) (d : Nat) (f : Die → Die) : (s.setDie d f).nextId = s.nextId := rfl
@[simp] theorem State.setDie_hostValue (s : State) (d : Nat) (f : Die → Die) : (s.setDie d f).hostValue = s.hostValue := rfl
@[simp] theorem State.setDie_cur (s : State) (d : Nat) (f : Die → Die) : (s.setDie d f).cur = s.cur := rfl
@[simp] theorem State.setDie_env (s : State) (d : Nat) (f : Die → Die) : (s.setDie d f).env = s.env := rfl

/-! setLaunch -/
@[simp] theorem State.setLaunch_mem (s : State) (l : Nat) (f : Launch → Launch) : (s.setLaunch l f).mem = s.mem := rfl
@[simp] theorem State.setLaunch_cells (s : State) (l : Nat) (f : Launch → Launch) : (s.setLaunch l f).cells = s.cells := rfl
@[simp] theorem State.setLaunch_census (s : State) (l : Nat) (f : Launch → Launch) : (s.setLaunch l f).census = s.census := rfl
@[simp] theorem State.setLaunch_accs (s : State) (l : Nat) (f : Launch → Launch) : (s.setLaunch l f).accs = s.accs := rfl
@[simp] theorem State.setLaunch_fences (s : State) (l : Nat) (f : Launch → Launch) : (s.setLaunch l f).fences = s.fences := rfl
@[simp] theorem State.setLaunch_invs (s : State) (l : Nat) (f : Launch → Launch) : (s.setLaunch l f).invs = s.invs := rfl
@[simp] theorem State.setLaunch_mwops (s : State) (l : Nat) (f : Launch → Launch) : (s.setLaunch l f).mwops = s.mwops := rfl
@[simp] theorem State.setLaunch_locks (s : State) (l : Nat) (f : Launch → Launch) : (s.setLaunch l f).locks = s.locks := rfl
@[simp] theorem State.setLaunch_watches (s : State) (l : Nat) (f : Launch → Launch) : (s.setLaunch l f).watches = s.watches := rfl
@[simp] theorem State.setLaunch_arrivals (s : State) (l : Nat) (f : Launch → Launch) : (s.setLaunch l f).arrivals = s.arrivals := rfl
@[simp] theorem State.setLaunch_dir (s : State) (l : Nat) (f : Launch → Launch) : (s.setLaunch l f).dir = s.dir := rfl
@[simp] theorem State.setLaunch_recalls (s : State) (l : Nat) (f : Launch → Launch) : (s.setLaunch l f).recalls = s.recalls := rfl
@[simp] theorem State.setLaunch_sliceLines (s : State) (l : Nat) (f : Launch → Launch) : (s.setLaunch l f).sliceLines = s.sliceLines := rfl
@[simp] theorem State.setLaunch_plru (s : State) (l : Nat) (f : Launch → Launch) : (s.setLaunch l f).plru = s.plru := rfl
@[simp] theorem State.setLaunch_merges (s : State) (l : Nat) (f : Launch → Launch) : (s.setLaunch l f).merges = s.merges := rfl
@[simp] theorem State.setLaunch_flights (s : State) (l : Nat) (f : Launch → Launch) : (s.setLaunch l f).flights = s.flights := rfl
@[simp] theorem State.setLaunch_grants (s : State) (l : Nat) (f : Launch → Launch) : (s.setLaunch l f).grants = s.grants := rfl
@[simp] theorem State.setLaunch_queues (s : State) (l : Nat) (f : Launch → Launch) : (s.setLaunch l f).queues = s.queues := rfl
@[simp] theorem State.setLaunch_regions (s : State) (l : Nat) (f : Launch → Launch) : (s.setLaunch l f).regions = s.regions := rfl
@[simp] theorem State.setLaunch_saved (s : State) (l : Nat) (f : Launch → Launch) : (s.setLaunch l f).saved = s.saved := rfl
@[simp] theorem State.setLaunch_images (s : State) (l : Nat) (f : Launch → Launch) : (s.setLaunch l f).images = s.images := rfl
@[simp] theorem State.setLaunch_draftlds (s : State) (l : Nat) (f : Launch → Launch) : (s.setLaunch l f).draftlds = s.draftlds := rfl
@[simp] theorem State.setLaunch_streams (s : State) (l : Nat) (f : Launch → Launch) : (s.setLaunch l f).streams = s.streams := rfl
@[simp] theorem State.setLaunch_closes (s : State) (l : Nat) (f : Launch → Launch) : (s.setLaunch l f).closes = s.closes := rfl
@[simp] theorem State.setLaunch_colls (s : State) (l : Nat) (f : Launch → Launch) : (s.setLaunch l f).colls = s.colls := rfl
@[simp] theorem State.setLaunch_traversals (s : State) (l : Nat) (f : Launch → Launch) : (s.setLaunch l f).traversals = s.traversals := rfl
@[simp] theorem State.setLaunch_walks (s : State) (l : Nat) (f : Launch → Launch) : (s.setLaunch l f).walks = s.walks := rfl
@[simp] theorem State.setLaunch_dies (s : State) (l : Nat) (f : Launch → Launch) : (s.setLaunch l f).dies = s.dies := rfl
@[simp] theorem State.setLaunch_lqueues (s : State) (l : Nat) (f : Launch → Launch) : (s.setLaunch l f).lqueues = s.lqueues := rfl
@[simp] theorem State.setLaunch_mig (s : State) (l : Nat) (f : Launch → Launch) : (s.setLaunch l f).mig = s.mig := rfl
@[simp] theorem State.setLaunch_hub (s : State) (l : Nat) (f : Launch → Launch) : (s.setLaunch l f).hub = s.hub := rfl
@[simp] theorem State.setLaunch_sched (s : State) (l : Nat) (f : Launch → Launch) : (s.setLaunch l f).sched = s.sched := rfl
@[simp] theorem State.setLaunch_time (s : State) (l : Nat) (f : Launch → Launch) : (s.setLaunch l f).time = s.time := rfl
@[simp] theorem State.setLaunch_persistNext (s : State) (l : Nat) (f : Launch → Launch) : (s.setLaunch l f).persistNext = s.persistNext := rfl
@[simp] theorem State.setLaunch_upsets (s : State) (l : Nat) (f : Launch → Launch) : (s.setLaunch l f).upsets = s.upsets := rfl
@[simp] theorem State.setLaunch_hostCopies (s : State) (l : Nat) (f : Launch → Launch) : (s.setLaunch l f).hostCopies = s.hostCopies := rfl
@[simp] theorem State.setLaunch_servedNow (s : State) (l : Nat) (f : Launch → Launch) : (s.setLaunch l f).servedNow = s.servedNow := rfl
@[simp] theorem State.setLaunch_nextId (s : State) (l : Nat) (f : Launch → Launch) : (s.setLaunch l f).nextId = s.nextId := rfl
@[simp] theorem State.setLaunch_hostValue (s : State) (l : Nat) (f : Launch → Launch) : (s.setLaunch l f).hostValue = s.hostValue := rfl
@[simp] theorem State.setLaunch_cur (s : State) (l : Nat) (f : Launch → Launch) : (s.setLaunch l f).cur = s.cur := rfl
@[simp] theorem State.setLaunch_env (s : State) (l : Nat) (f : Launch → Launch) : (s.setLaunch l f).env = s.env := rfl

/-! setRegion -/
@[simp] theorem State.setRegion_mem (s : State) (d i : Nat) (f : Region → Region) : (s.setRegion d i f).mem = s.mem := rfl
@[simp] theorem State.setRegion_cells (s : State) (d i : Nat) (f : Region → Region) : (s.setRegion d i f).cells = s.cells := rfl
@[simp] theorem State.setRegion_census (s : State) (d i : Nat) (f : Region → Region) : (s.setRegion d i f).census = s.census := rfl
@[simp] theorem State.setRegion_accs (s : State) (d i : Nat) (f : Region → Region) : (s.setRegion d i f).accs = s.accs := rfl
@[simp] theorem State.setRegion_fences (s : State) (d i : Nat) (f : Region → Region) : (s.setRegion d i f).fences = s.fences := rfl
@[simp] theorem State.setRegion_invs (s : State) (d i : Nat) (f : Region → Region) : (s.setRegion d i f).invs = s.invs := rfl
@[simp] theorem State.setRegion_mwops (s : State) (d i : Nat) (f : Region → Region) : (s.setRegion d i f).mwops = s.mwops := rfl
@[simp] theorem State.setRegion_locks (s : State) (d i : Nat) (f : Region → Region) : (s.setRegion d i f).locks = s.locks := rfl
@[simp] theorem State.setRegion_watches (s : State) (d i : Nat) (f : Region → Region) : (s.setRegion d i f).watches = s.watches := rfl
@[simp] theorem State.setRegion_arrivals (s : State) (d i : Nat) (f : Region → Region) : (s.setRegion d i f).arrivals = s.arrivals := rfl
@[simp] theorem State.setRegion_dir (s : State) (d i : Nat) (f : Region → Region) : (s.setRegion d i f).dir = s.dir := rfl
@[simp] theorem State.setRegion_recalls (s : State) (d i : Nat) (f : Region → Region) : (s.setRegion d i f).recalls = s.recalls := rfl
@[simp] theorem State.setRegion_sliceLines (s : State) (d i : Nat) (f : Region → Region) : (s.setRegion d i f).sliceLines = s.sliceLines := rfl
@[simp] theorem State.setRegion_plru (s : State) (d i : Nat) (f : Region → Region) : (s.setRegion d i f).plru = s.plru := rfl
@[simp] theorem State.setRegion_merges (s : State) (d i : Nat) (f : Region → Region) : (s.setRegion d i f).merges = s.merges := rfl
@[simp] theorem State.setRegion_flights (s : State) (d i : Nat) (f : Region → Region) : (s.setRegion d i f).flights = s.flights := rfl
@[simp] theorem State.setRegion_grants (s : State) (d i : Nat) (f : Region → Region) : (s.setRegion d i f).grants = s.grants := rfl
@[simp] theorem State.setRegion_queues (s : State) (d i : Nat) (f : Region → Region) : (s.setRegion d i f).queues = s.queues := rfl
@[simp] theorem State.setRegion_launches (s : State) (d i : Nat) (f : Region → Region) : (s.setRegion d i f).launches = s.launches := rfl
@[simp] theorem State.setRegion_saved (s : State) (d i : Nat) (f : Region → Region) : (s.setRegion d i f).saved = s.saved := rfl
@[simp] theorem State.setRegion_images (s : State) (d i : Nat) (f : Region → Region) : (s.setRegion d i f).images = s.images := rfl
@[simp] theorem State.setRegion_draftlds (s : State) (d i : Nat) (f : Region → Region) : (s.setRegion d i f).draftlds = s.draftlds := rfl
@[simp] theorem State.setRegion_streams (s : State) (d i : Nat) (f : Region → Region) : (s.setRegion d i f).streams = s.streams := rfl
@[simp] theorem State.setRegion_closes (s : State) (d i : Nat) (f : Region → Region) : (s.setRegion d i f).closes = s.closes := rfl
@[simp] theorem State.setRegion_colls (s : State) (d i : Nat) (f : Region → Region) : (s.setRegion d i f).colls = s.colls := rfl
@[simp] theorem State.setRegion_traversals (s : State) (d i : Nat) (f : Region → Region) : (s.setRegion d i f).traversals = s.traversals := rfl
@[simp] theorem State.setRegion_walks (s : State) (d i : Nat) (f : Region → Region) : (s.setRegion d i f).walks = s.walks := rfl
@[simp] theorem State.setRegion_dies (s : State) (d i : Nat) (f : Region → Region) : (s.setRegion d i f).dies = s.dies := rfl
@[simp] theorem State.setRegion_lqueues (s : State) (d i : Nat) (f : Region → Region) : (s.setRegion d i f).lqueues = s.lqueues := rfl
@[simp] theorem State.setRegion_mig (s : State) (d i : Nat) (f : Region → Region) : (s.setRegion d i f).mig = s.mig := rfl
@[simp] theorem State.setRegion_hub (s : State) (d i : Nat) (f : Region → Region) : (s.setRegion d i f).hub = s.hub := rfl
@[simp] theorem State.setRegion_sched (s : State) (d i : Nat) (f : Region → Region) : (s.setRegion d i f).sched = s.sched := rfl
@[simp] theorem State.setRegion_time (s : State) (d i : Nat) (f : Region → Region) : (s.setRegion d i f).time = s.time := rfl
@[simp] theorem State.setRegion_persistNext (s : State) (d i : Nat) (f : Region → Region) : (s.setRegion d i f).persistNext = s.persistNext := rfl
@[simp] theorem State.setRegion_upsets (s : State) (d i : Nat) (f : Region → Region) : (s.setRegion d i f).upsets = s.upsets := rfl
@[simp] theorem State.setRegion_hostCopies (s : State) (d i : Nat) (f : Region → Region) : (s.setRegion d i f).hostCopies = s.hostCopies := rfl
@[simp] theorem State.setRegion_servedNow (s : State) (d i : Nat) (f : Region → Region) : (s.setRegion d i f).servedNow = s.servedNow := rfl
@[simp] theorem State.setRegion_nextId (s : State) (d i : Nat) (f : Region → Region) : (s.setRegion d i f).nextId = s.nextId := rfl
@[simp] theorem State.setRegion_hostValue (s : State) (d i : Nat) (f : Region → Region) : (s.setRegion d i f).hostValue = s.hostValue := rfl
@[simp] theorem State.setRegion_cur (s : State) (d i : Nat) (f : Region → Region) : (s.setRegion d i f).cur = s.cur := rfl
@[simp] theorem State.setRegion_env (s : State) (d i : Nat) (f : Region → Region) : (s.setRegion d i f).env = s.env := rfl

/-! writeRegOf -/
@[simp] theorem State.writeRegOf_mem (s : State) (c e x n : Nat) (m : LaneMask) (f : Nat → Word) : (s.writeRegOf c e x n m f).mem = s.mem := rfl
@[simp] theorem State.writeRegOf_census (s : State) (c e x n : Nat) (m : LaneMask) (f : Nat → Word) : (s.writeRegOf c e x n m f).census = s.census := rfl
@[simp] theorem State.writeRegOf_accs (s : State) (c e x n : Nat) (m : LaneMask) (f : Nat → Word) : (s.writeRegOf c e x n m f).accs = s.accs := rfl
@[simp] theorem State.writeRegOf_fences (s : State) (c e x n : Nat) (m : LaneMask) (f : Nat → Word) : (s.writeRegOf c e x n m f).fences = s.fences := rfl
@[simp] theorem State.writeRegOf_invs (s : State) (c e x n : Nat) (m : LaneMask) (f : Nat → Word) : (s.writeRegOf c e x n m f).invs = s.invs := rfl
@[simp] theorem State.writeRegOf_mwops (s : State) (c e x n : Nat) (m : LaneMask) (f : Nat → Word) : (s.writeRegOf c e x n m f).mwops = s.mwops := rfl
@[simp] theorem State.writeRegOf_locks (s : State) (c e x n : Nat) (m : LaneMask) (f : Nat → Word) : (s.writeRegOf c e x n m f).locks = s.locks := rfl
@[simp] theorem State.writeRegOf_watches (s : State) (c e x n : Nat) (m : LaneMask) (f : Nat → Word) : (s.writeRegOf c e x n m f).watches = s.watches := rfl
@[simp] theorem State.writeRegOf_arrivals (s : State) (c e x n : Nat) (m : LaneMask) (f : Nat → Word) : (s.writeRegOf c e x n m f).arrivals = s.arrivals := rfl
@[simp] theorem State.writeRegOf_dir (s : State) (c e x n : Nat) (m : LaneMask) (f : Nat → Word) : (s.writeRegOf c e x n m f).dir = s.dir := rfl
@[simp] theorem State.writeRegOf_recalls (s : State) (c e x n : Nat) (m : LaneMask) (f : Nat → Word) : (s.writeRegOf c e x n m f).recalls = s.recalls := rfl
@[simp] theorem State.writeRegOf_sliceLines (s : State) (c e x n : Nat) (m : LaneMask) (f : Nat → Word) : (s.writeRegOf c e x n m f).sliceLines = s.sliceLines := rfl
@[simp] theorem State.writeRegOf_plru (s : State) (c e x n : Nat) (m : LaneMask) (f : Nat → Word) : (s.writeRegOf c e x n m f).plru = s.plru := rfl
@[simp] theorem State.writeRegOf_merges (s : State) (c e x n : Nat) (m : LaneMask) (f : Nat → Word) : (s.writeRegOf c e x n m f).merges = s.merges := rfl
@[simp] theorem State.writeRegOf_flights (s : State) (c e x n : Nat) (m : LaneMask) (f : Nat → Word) : (s.writeRegOf c e x n m f).flights = s.flights := rfl
@[simp] theorem State.writeRegOf_grants (s : State) (c e x n : Nat) (m : LaneMask) (f : Nat → Word) : (s.writeRegOf c e x n m f).grants = s.grants := rfl
@[simp] theorem State.writeRegOf_queues (s : State) (c e x n : Nat) (m : LaneMask) (f : Nat → Word) : (s.writeRegOf c e x n m f).queues = s.queues := rfl
@[simp] theorem State.writeRegOf_launches (s : State) (c e x n : Nat) (m : LaneMask) (f : Nat → Word) : (s.writeRegOf c e x n m f).launches = s.launches := rfl
@[simp] theorem State.writeRegOf_regions (s : State) (c e x n : Nat) (m : LaneMask) (f : Nat → Word) : (s.writeRegOf c e x n m f).regions = s.regions := rfl
@[simp] theorem State.writeRegOf_saved (s : State) (c e x n : Nat) (m : LaneMask) (f : Nat → Word) : (s.writeRegOf c e x n m f).saved = s.saved := rfl
@[simp] theorem State.writeRegOf_images (s : State) (c e x n : Nat) (m : LaneMask) (f : Nat → Word) : (s.writeRegOf c e x n m f).images = s.images := rfl
@[simp] theorem State.writeRegOf_draftlds (s : State) (c e x n : Nat) (m : LaneMask) (f : Nat → Word) : (s.writeRegOf c e x n m f).draftlds = s.draftlds := rfl
@[simp] theorem State.writeRegOf_streams (s : State) (c e x n : Nat) (m : LaneMask) (f : Nat → Word) : (s.writeRegOf c e x n m f).streams = s.streams := rfl
@[simp] theorem State.writeRegOf_closes (s : State) (c e x n : Nat) (m : LaneMask) (f : Nat → Word) : (s.writeRegOf c e x n m f).closes = s.closes := rfl
@[simp] theorem State.writeRegOf_colls (s : State) (c e x n : Nat) (m : LaneMask) (f : Nat → Word) : (s.writeRegOf c e x n m f).colls = s.colls := rfl
@[simp] theorem State.writeRegOf_traversals (s : State) (c e x n : Nat) (m : LaneMask) (f : Nat → Word) : (s.writeRegOf c e x n m f).traversals = s.traversals := rfl
@[simp] theorem State.writeRegOf_walks (s : State) (c e x n : Nat) (m : LaneMask) (f : Nat → Word) : (s.writeRegOf c e x n m f).walks = s.walks := rfl
@[simp] theorem State.writeRegOf_dies (s : State) (c e x n : Nat) (m : LaneMask) (f : Nat → Word) : (s.writeRegOf c e x n m f).dies = s.dies := rfl
@[simp] theorem State.writeRegOf_lqueues (s : State) (c e x n : Nat) (m : LaneMask) (f : Nat → Word) : (s.writeRegOf c e x n m f).lqueues = s.lqueues := rfl
@[simp] theorem State.writeRegOf_mig (s : State) (c e x n : Nat) (m : LaneMask) (f : Nat → Word) : (s.writeRegOf c e x n m f).mig = s.mig := rfl
@[simp] theorem State.writeRegOf_hub (s : State) (c e x n : Nat) (m : LaneMask) (f : Nat → Word) : (s.writeRegOf c e x n m f).hub = s.hub := rfl
@[simp] theorem State.writeRegOf_sched (s : State) (c e x n : Nat) (m : LaneMask) (f : Nat → Word) : (s.writeRegOf c e x n m f).sched = s.sched := rfl
@[simp] theorem State.writeRegOf_time (s : State) (c e x n : Nat) (m : LaneMask) (f : Nat → Word) : (s.writeRegOf c e x n m f).time = s.time := rfl
@[simp] theorem State.writeRegOf_persistNext (s : State) (c e x n : Nat) (m : LaneMask) (f : Nat → Word) : (s.writeRegOf c e x n m f).persistNext = s.persistNext := rfl
@[simp] theorem State.writeRegOf_upsets (s : State) (c e x n : Nat) (m : LaneMask) (f : Nat → Word) : (s.writeRegOf c e x n m f).upsets = s.upsets := rfl
@[simp] theorem State.writeRegOf_hostCopies (s : State) (c e x n : Nat) (m : LaneMask) (f : Nat → Word) : (s.writeRegOf c e x n m f).hostCopies = s.hostCopies := rfl
@[simp] theorem State.writeRegOf_servedNow (s : State) (c e x n : Nat) (m : LaneMask) (f : Nat → Word) : (s.writeRegOf c e x n m f).servedNow = s.servedNow := rfl
@[simp] theorem State.writeRegOf_nextId (s : State) (c e x n : Nat) (m : LaneMask) (f : Nat → Word) : (s.writeRegOf c e x n m f).nextId = s.nextId := rfl
@[simp] theorem State.writeRegOf_hostValue (s : State) (c e x n : Nat) (m : LaneMask) (f : Nat → Word) : (s.writeRegOf c e x n m f).hostValue = s.hostValue := rfl
@[simp] theorem State.writeRegOf_cur (s : State) (c e x n : Nat) (m : LaneMask) (f : Nat → Word) : (s.writeRegOf c e x n m f).cur = s.cur := rfl
@[simp] theorem State.writeRegOf_env (s : State) (c e x n : Nat) (m : LaneMask) (f : Nat → Word) : (s.writeRegOf c e x n m f).env = s.env := rfl

/-! writeReg -/
@[simp] theorem State.writeReg_mem (s : State) (n : Nat) (m : LaneMask) (f : Nat → Word) : (s.writeReg n m f).mem = s.mem := rfl
@[simp] theorem State.writeReg_census (s : State) (n : Nat) (m : LaneMask) (f : Nat → Word) : (s.writeReg n m f).census = s.census := rfl
@[simp] theorem State.writeReg_accs (s : State) (n : Nat) (m : LaneMask) (f : Nat → Word) : (s.writeReg n m f).accs = s.accs := rfl
@[simp] theorem State.writeReg_fences (s : State) (n : Nat) (m : LaneMask) (f : Nat → Word) : (s.writeReg n m f).fences = s.fences := rfl
@[simp] theorem State.writeReg_invs (s : State) (n : Nat) (m : LaneMask) (f : Nat → Word) : (s.writeReg n m f).invs = s.invs := rfl
@[simp] theorem State.writeReg_mwops (s : State) (n : Nat) (m : LaneMask) (f : Nat → Word) : (s.writeReg n m f).mwops = s.mwops := rfl
@[simp] theorem State.writeReg_locks (s : State) (n : Nat) (m : LaneMask) (f : Nat → Word) : (s.writeReg n m f).locks = s.locks := rfl
@[simp] theorem State.writeReg_watches (s : State) (n : Nat) (m : LaneMask) (f : Nat → Word) : (s.writeReg n m f).watches = s.watches := rfl
@[simp] theorem State.writeReg_arrivals (s : State) (n : Nat) (m : LaneMask) (f : Nat → Word) : (s.writeReg n m f).arrivals = s.arrivals := rfl
@[simp] theorem State.writeReg_dir (s : State) (n : Nat) (m : LaneMask) (f : Nat → Word) : (s.writeReg n m f).dir = s.dir := rfl
@[simp] theorem State.writeReg_recalls (s : State) (n : Nat) (m : LaneMask) (f : Nat → Word) : (s.writeReg n m f).recalls = s.recalls := rfl
@[simp] theorem State.writeReg_sliceLines (s : State) (n : Nat) (m : LaneMask) (f : Nat → Word) : (s.writeReg n m f).sliceLines = s.sliceLines := rfl
@[simp] theorem State.writeReg_plru (s : State) (n : Nat) (m : LaneMask) (f : Nat → Word) : (s.writeReg n m f).plru = s.plru := rfl
@[simp] theorem State.writeReg_merges (s : State) (n : Nat) (m : LaneMask) (f : Nat → Word) : (s.writeReg n m f).merges = s.merges := rfl
@[simp] theorem State.writeReg_flights (s : State) (n : Nat) (m : LaneMask) (f : Nat → Word) : (s.writeReg n m f).flights = s.flights := rfl
@[simp] theorem State.writeReg_grants (s : State) (n : Nat) (m : LaneMask) (f : Nat → Word) : (s.writeReg n m f).grants = s.grants := rfl
@[simp] theorem State.writeReg_queues (s : State) (n : Nat) (m : LaneMask) (f : Nat → Word) : (s.writeReg n m f).queues = s.queues := rfl
@[simp] theorem State.writeReg_launches (s : State) (n : Nat) (m : LaneMask) (f : Nat → Word) : (s.writeReg n m f).launches = s.launches := rfl
@[simp] theorem State.writeReg_regions (s : State) (n : Nat) (m : LaneMask) (f : Nat → Word) : (s.writeReg n m f).regions = s.regions := rfl
@[simp] theorem State.writeReg_saved (s : State) (n : Nat) (m : LaneMask) (f : Nat → Word) : (s.writeReg n m f).saved = s.saved := rfl
@[simp] theorem State.writeReg_images (s : State) (n : Nat) (m : LaneMask) (f : Nat → Word) : (s.writeReg n m f).images = s.images := rfl
@[simp] theorem State.writeReg_draftlds (s : State) (n : Nat) (m : LaneMask) (f : Nat → Word) : (s.writeReg n m f).draftlds = s.draftlds := rfl
@[simp] theorem State.writeReg_streams (s : State) (n : Nat) (m : LaneMask) (f : Nat → Word) : (s.writeReg n m f).streams = s.streams := rfl
@[simp] theorem State.writeReg_closes (s : State) (n : Nat) (m : LaneMask) (f : Nat → Word) : (s.writeReg n m f).closes = s.closes := rfl
@[simp] theorem State.writeReg_colls (s : State) (n : Nat) (m : LaneMask) (f : Nat → Word) : (s.writeReg n m f).colls = s.colls := rfl
@[simp] theorem State.writeReg_traversals (s : State) (n : Nat) (m : LaneMask) (f : Nat → Word) : (s.writeReg n m f).traversals = s.traversals := rfl
@[simp] theorem State.writeReg_walks (s : State) (n : Nat) (m : LaneMask) (f : Nat → Word) : (s.writeReg n m f).walks = s.walks := rfl
@[simp] theorem State.writeReg_dies (s : State) (n : Nat) (m : LaneMask) (f : Nat → Word) : (s.writeReg n m f).dies = s.dies := rfl
@[simp] theorem State.writeReg_lqueues (s : State) (n : Nat) (m : LaneMask) (f : Nat → Word) : (s.writeReg n m f).lqueues = s.lqueues := rfl
@[simp] theorem State.writeReg_mig (s : State) (n : Nat) (m : LaneMask) (f : Nat → Word) : (s.writeReg n m f).mig = s.mig := rfl
@[simp] theorem State.writeReg_hub (s : State) (n : Nat) (m : LaneMask) (f : Nat → Word) : (s.writeReg n m f).hub = s.hub := rfl
@[simp] theorem State.writeReg_sched (s : State) (n : Nat) (m : LaneMask) (f : Nat → Word) : (s.writeReg n m f).sched = s.sched := rfl
@[simp] theorem State.writeReg_time (s : State) (n : Nat) (m : LaneMask) (f : Nat → Word) : (s.writeReg n m f).time = s.time := rfl
@[simp] theorem State.writeReg_persistNext (s : State) (n : Nat) (m : LaneMask) (f : Nat → Word) : (s.writeReg n m f).persistNext = s.persistNext := rfl
@[simp] theorem State.writeReg_upsets (s : State) (n : Nat) (m : LaneMask) (f : Nat → Word) : (s.writeReg n m f).upsets = s.upsets := rfl
@[simp] theorem State.writeReg_hostCopies (s : State) (n : Nat) (m : LaneMask) (f : Nat → Word) : (s.writeReg n m f).hostCopies = s.hostCopies := rfl
@[simp] theorem State.writeReg_servedNow (s : State) (n : Nat) (m : LaneMask) (f : Nat → Word) : (s.writeReg n m f).servedNow = s.servedNow := rfl
@[simp] theorem State.writeReg_nextId (s : State) (n : Nat) (m : LaneMask) (f : Nat → Word) : (s.writeReg n m f).nextId = s.nextId := rfl
@[simp] theorem State.writeReg_hostValue (s : State) (n : Nat) (m : LaneMask) (f : Nat → Word) : (s.writeReg n m f).hostValue = s.hostValue := rfl
@[simp] theorem State.writeReg_cur (s : State) (n : Nat) (m : LaneMask) (f : Nat → Word) : (s.writeReg n m f).cur = s.cur := rfl
@[simp] theorem State.writeReg_env (s : State) (n : Nat) (m : LaneMask) (f : Nat → Word) : (s.writeReg n m f).env = s.env := rfl

/-! writeMask -/
@[simp] theorem State.writeMask_mem (s : State) (n : Nat) (m : LaneMask) : (s.writeMask n m).mem = s.mem := rfl
@[simp] theorem State.writeMask_census (s : State) (n : Nat) (m : LaneMask) : (s.writeMask n m).census = s.census := rfl
@[simp] theorem State.writeMask_accs (s : State) (n : Nat) (m : LaneMask) : (s.writeMask n m).accs = s.accs := rfl
@[simp] theorem State.writeMask_fences (s : State) (n : Nat) (m : LaneMask) : (s.writeMask n m).fences = s.fences := rfl
@[simp] theorem State.writeMask_invs (s : State) (n : Nat) (m : LaneMask) : (s.writeMask n m).invs = s.invs := rfl
@[simp] theorem State.writeMask_mwops (s : State) (n : Nat) (m : LaneMask) : (s.writeMask n m).mwops = s.mwops := rfl
@[simp] theorem State.writeMask_locks (s : State) (n : Nat) (m : LaneMask) : (s.writeMask n m).locks = s.locks := rfl
@[simp] theorem State.writeMask_watches (s : State) (n : Nat) (m : LaneMask) : (s.writeMask n m).watches = s.watches := rfl
@[simp] theorem State.writeMask_arrivals (s : State) (n : Nat) (m : LaneMask) : (s.writeMask n m).arrivals = s.arrivals := rfl
@[simp] theorem State.writeMask_dir (s : State) (n : Nat) (m : LaneMask) : (s.writeMask n m).dir = s.dir := rfl
@[simp] theorem State.writeMask_recalls (s : State) (n : Nat) (m : LaneMask) : (s.writeMask n m).recalls = s.recalls := rfl
@[simp] theorem State.writeMask_sliceLines (s : State) (n : Nat) (m : LaneMask) : (s.writeMask n m).sliceLines = s.sliceLines := rfl
@[simp] theorem State.writeMask_plru (s : State) (n : Nat) (m : LaneMask) : (s.writeMask n m).plru = s.plru := rfl
@[simp] theorem State.writeMask_merges (s : State) (n : Nat) (m : LaneMask) : (s.writeMask n m).merges = s.merges := rfl
@[simp] theorem State.writeMask_flights (s : State) (n : Nat) (m : LaneMask) : (s.writeMask n m).flights = s.flights := rfl
@[simp] theorem State.writeMask_grants (s : State) (n : Nat) (m : LaneMask) : (s.writeMask n m).grants = s.grants := rfl
@[simp] theorem State.writeMask_queues (s : State) (n : Nat) (m : LaneMask) : (s.writeMask n m).queues = s.queues := rfl
@[simp] theorem State.writeMask_launches (s : State) (n : Nat) (m : LaneMask) : (s.writeMask n m).launches = s.launches := rfl
@[simp] theorem State.writeMask_regions (s : State) (n : Nat) (m : LaneMask) : (s.writeMask n m).regions = s.regions := rfl
@[simp] theorem State.writeMask_saved (s : State) (n : Nat) (m : LaneMask) : (s.writeMask n m).saved = s.saved := rfl
@[simp] theorem State.writeMask_images (s : State) (n : Nat) (m : LaneMask) : (s.writeMask n m).images = s.images := rfl
@[simp] theorem State.writeMask_draftlds (s : State) (n : Nat) (m : LaneMask) : (s.writeMask n m).draftlds = s.draftlds := rfl
@[simp] theorem State.writeMask_streams (s : State) (n : Nat) (m : LaneMask) : (s.writeMask n m).streams = s.streams := rfl
@[simp] theorem State.writeMask_closes (s : State) (n : Nat) (m : LaneMask) : (s.writeMask n m).closes = s.closes := rfl
@[simp] theorem State.writeMask_colls (s : State) (n : Nat) (m : LaneMask) : (s.writeMask n m).colls = s.colls := rfl
@[simp] theorem State.writeMask_traversals (s : State) (n : Nat) (m : LaneMask) : (s.writeMask n m).traversals = s.traversals := rfl
@[simp] theorem State.writeMask_walks (s : State) (n : Nat) (m : LaneMask) : (s.writeMask n m).walks = s.walks := rfl
@[simp] theorem State.writeMask_dies (s : State) (n : Nat) (m : LaneMask) : (s.writeMask n m).dies = s.dies := rfl
@[simp] theorem State.writeMask_lqueues (s : State) (n : Nat) (m : LaneMask) : (s.writeMask n m).lqueues = s.lqueues := rfl
@[simp] theorem State.writeMask_mig (s : State) (n : Nat) (m : LaneMask) : (s.writeMask n m).mig = s.mig := rfl
@[simp] theorem State.writeMask_hub (s : State) (n : Nat) (m : LaneMask) : (s.writeMask n m).hub = s.hub := rfl
@[simp] theorem State.writeMask_sched (s : State) (n : Nat) (m : LaneMask) : (s.writeMask n m).sched = s.sched := rfl
@[simp] theorem State.writeMask_time (s : State) (n : Nat) (m : LaneMask) : (s.writeMask n m).time = s.time := rfl
@[simp] theorem State.writeMask_persistNext (s : State) (n : Nat) (m : LaneMask) : (s.writeMask n m).persistNext = s.persistNext := rfl
@[simp] theorem State.writeMask_upsets (s : State) (n : Nat) (m : LaneMask) : (s.writeMask n m).upsets = s.upsets := rfl
@[simp] theorem State.writeMask_hostCopies (s : State) (n : Nat) (m : LaneMask) : (s.writeMask n m).hostCopies = s.hostCopies := rfl
@[simp] theorem State.writeMask_servedNow (s : State) (n : Nat) (m : LaneMask) : (s.writeMask n m).servedNow = s.servedNow := rfl
@[simp] theorem State.writeMask_nextId (s : State) (n : Nat) (m : LaneMask) : (s.writeMask n m).nextId = s.nextId := rfl
@[simp] theorem State.writeMask_hostValue (s : State) (n : Nat) (m : LaneMask) : (s.writeMask n m).hostValue = s.hostValue := rfl
@[simp] theorem State.writeMask_cur (s : State) (n : Nat) (m : LaneMask) : (s.writeMask n m).cur = s.cur := rfl
@[simp] theorem State.writeMask_env (s : State) (n : Nat) (m : LaneMask) : (s.writeMask n m).env = s.env := rfl

/-! setPredOf -/
@[simp] theorem State.setPredOf_mem (s : State) (c e x n : Nat) (b : Bool) : (s.setPredOf c e x n b).mem = s.mem := rfl
@[simp] theorem State.setPredOf_census (s : State) (c e x n : Nat) (b : Bool) : (s.setPredOf c e x n b).census = s.census := rfl
@[simp] theorem State.setPredOf_accs (s : State) (c e x n : Nat) (b : Bool) : (s.setPredOf c e x n b).accs = s.accs := rfl
@[simp] theorem State.setPredOf_fences (s : State) (c e x n : Nat) (b : Bool) : (s.setPredOf c e x n b).fences = s.fences := rfl
@[simp] theorem State.setPredOf_invs (s : State) (c e x n : Nat) (b : Bool) : (s.setPredOf c e x n b).invs = s.invs := rfl
@[simp] theorem State.setPredOf_mwops (s : State) (c e x n : Nat) (b : Bool) : (s.setPredOf c e x n b).mwops = s.mwops := rfl
@[simp] theorem State.setPredOf_locks (s : State) (c e x n : Nat) (b : Bool) : (s.setPredOf c e x n b).locks = s.locks := rfl
@[simp] theorem State.setPredOf_watches (s : State) (c e x n : Nat) (b : Bool) : (s.setPredOf c e x n b).watches = s.watches := rfl
@[simp] theorem State.setPredOf_arrivals (s : State) (c e x n : Nat) (b : Bool) : (s.setPredOf c e x n b).arrivals = s.arrivals := rfl
@[simp] theorem State.setPredOf_dir (s : State) (c e x n : Nat) (b : Bool) : (s.setPredOf c e x n b).dir = s.dir := rfl
@[simp] theorem State.setPredOf_recalls (s : State) (c e x n : Nat) (b : Bool) : (s.setPredOf c e x n b).recalls = s.recalls := rfl
@[simp] theorem State.setPredOf_sliceLines (s : State) (c e x n : Nat) (b : Bool) : (s.setPredOf c e x n b).sliceLines = s.sliceLines := rfl
@[simp] theorem State.setPredOf_plru (s : State) (c e x n : Nat) (b : Bool) : (s.setPredOf c e x n b).plru = s.plru := rfl
@[simp] theorem State.setPredOf_merges (s : State) (c e x n : Nat) (b : Bool) : (s.setPredOf c e x n b).merges = s.merges := rfl
@[simp] theorem State.setPredOf_flights (s : State) (c e x n : Nat) (b : Bool) : (s.setPredOf c e x n b).flights = s.flights := rfl
@[simp] theorem State.setPredOf_grants (s : State) (c e x n : Nat) (b : Bool) : (s.setPredOf c e x n b).grants = s.grants := rfl
@[simp] theorem State.setPredOf_queues (s : State) (c e x n : Nat) (b : Bool) : (s.setPredOf c e x n b).queues = s.queues := rfl
@[simp] theorem State.setPredOf_launches (s : State) (c e x n : Nat) (b : Bool) : (s.setPredOf c e x n b).launches = s.launches := rfl
@[simp] theorem State.setPredOf_regions (s : State) (c e x n : Nat) (b : Bool) : (s.setPredOf c e x n b).regions = s.regions := rfl
@[simp] theorem State.setPredOf_saved (s : State) (c e x n : Nat) (b : Bool) : (s.setPredOf c e x n b).saved = s.saved := rfl
@[simp] theorem State.setPredOf_images (s : State) (c e x n : Nat) (b : Bool) : (s.setPredOf c e x n b).images = s.images := rfl
@[simp] theorem State.setPredOf_draftlds (s : State) (c e x n : Nat) (b : Bool) : (s.setPredOf c e x n b).draftlds = s.draftlds := rfl
@[simp] theorem State.setPredOf_streams (s : State) (c e x n : Nat) (b : Bool) : (s.setPredOf c e x n b).streams = s.streams := rfl
@[simp] theorem State.setPredOf_closes (s : State) (c e x n : Nat) (b : Bool) : (s.setPredOf c e x n b).closes = s.closes := rfl
@[simp] theorem State.setPredOf_colls (s : State) (c e x n : Nat) (b : Bool) : (s.setPredOf c e x n b).colls = s.colls := rfl
@[simp] theorem State.setPredOf_traversals (s : State) (c e x n : Nat) (b : Bool) : (s.setPredOf c e x n b).traversals = s.traversals := rfl
@[simp] theorem State.setPredOf_walks (s : State) (c e x n : Nat) (b : Bool) : (s.setPredOf c e x n b).walks = s.walks := rfl
@[simp] theorem State.setPredOf_dies (s : State) (c e x n : Nat) (b : Bool) : (s.setPredOf c e x n b).dies = s.dies := rfl
@[simp] theorem State.setPredOf_lqueues (s : State) (c e x n : Nat) (b : Bool) : (s.setPredOf c e x n b).lqueues = s.lqueues := rfl
@[simp] theorem State.setPredOf_mig (s : State) (c e x n : Nat) (b : Bool) : (s.setPredOf c e x n b).mig = s.mig := rfl
@[simp] theorem State.setPredOf_hub (s : State) (c e x n : Nat) (b : Bool) : (s.setPredOf c e x n b).hub = s.hub := rfl
@[simp] theorem State.setPredOf_sched (s : State) (c e x n : Nat) (b : Bool) : (s.setPredOf c e x n b).sched = s.sched := rfl
@[simp] theorem State.setPredOf_time (s : State) (c e x n : Nat) (b : Bool) : (s.setPredOf c e x n b).time = s.time := rfl
@[simp] theorem State.setPredOf_persistNext (s : State) (c e x n : Nat) (b : Bool) : (s.setPredOf c e x n b).persistNext = s.persistNext := rfl
@[simp] theorem State.setPredOf_upsets (s : State) (c e x n : Nat) (b : Bool) : (s.setPredOf c e x n b).upsets = s.upsets := rfl
@[simp] theorem State.setPredOf_hostCopies (s : State) (c e x n : Nat) (b : Bool) : (s.setPredOf c e x n b).hostCopies = s.hostCopies := rfl
@[simp] theorem State.setPredOf_servedNow (s : State) (c e x n : Nat) (b : Bool) : (s.setPredOf c e x n b).servedNow = s.servedNow := rfl
@[simp] theorem State.setPredOf_nextId (s : State) (c e x n : Nat) (b : Bool) : (s.setPredOf c e x n b).nextId = s.nextId := rfl
@[simp] theorem State.setPredOf_hostValue (s : State) (c e x n : Nat) (b : Bool) : (s.setPredOf c e x n b).hostValue = s.hostValue := rfl
@[simp] theorem State.setPredOf_cur (s : State) (c e x n : Nat) (b : Bool) : (s.setPredOf c e x n b).cur = s.cur := rfl
@[simp] theorem State.setPredOf_env (s : State) (c e x n : Nat) (b : Bool) : (s.setPredOf c e x n b).env = s.env := rfl

/-! writePred -/
@[simp] theorem State.writePred_mem (s : State) (n : Nat) (b : Bool) : (s.writePred n b).mem = s.mem := rfl
@[simp] theorem State.writePred_census (s : State) (n : Nat) (b : Bool) : (s.writePred n b).census = s.census := rfl
@[simp] theorem State.writePred_accs (s : State) (n : Nat) (b : Bool) : (s.writePred n b).accs = s.accs := rfl
@[simp] theorem State.writePred_fences (s : State) (n : Nat) (b : Bool) : (s.writePred n b).fences = s.fences := rfl
@[simp] theorem State.writePred_invs (s : State) (n : Nat) (b : Bool) : (s.writePred n b).invs = s.invs := rfl
@[simp] theorem State.writePred_mwops (s : State) (n : Nat) (b : Bool) : (s.writePred n b).mwops = s.mwops := rfl
@[simp] theorem State.writePred_locks (s : State) (n : Nat) (b : Bool) : (s.writePred n b).locks = s.locks := rfl
@[simp] theorem State.writePred_watches (s : State) (n : Nat) (b : Bool) : (s.writePred n b).watches = s.watches := rfl
@[simp] theorem State.writePred_arrivals (s : State) (n : Nat) (b : Bool) : (s.writePred n b).arrivals = s.arrivals := rfl
@[simp] theorem State.writePred_dir (s : State) (n : Nat) (b : Bool) : (s.writePred n b).dir = s.dir := rfl
@[simp] theorem State.writePred_recalls (s : State) (n : Nat) (b : Bool) : (s.writePred n b).recalls = s.recalls := rfl
@[simp] theorem State.writePred_sliceLines (s : State) (n : Nat) (b : Bool) : (s.writePred n b).sliceLines = s.sliceLines := rfl
@[simp] theorem State.writePred_plru (s : State) (n : Nat) (b : Bool) : (s.writePred n b).plru = s.plru := rfl
@[simp] theorem State.writePred_merges (s : State) (n : Nat) (b : Bool) : (s.writePred n b).merges = s.merges := rfl
@[simp] theorem State.writePred_flights (s : State) (n : Nat) (b : Bool) : (s.writePred n b).flights = s.flights := rfl
@[simp] theorem State.writePred_grants (s : State) (n : Nat) (b : Bool) : (s.writePred n b).grants = s.grants := rfl
@[simp] theorem State.writePred_queues (s : State) (n : Nat) (b : Bool) : (s.writePred n b).queues = s.queues := rfl
@[simp] theorem State.writePred_launches (s : State) (n : Nat) (b : Bool) : (s.writePred n b).launches = s.launches := rfl
@[simp] theorem State.writePred_regions (s : State) (n : Nat) (b : Bool) : (s.writePred n b).regions = s.regions := rfl
@[simp] theorem State.writePred_saved (s : State) (n : Nat) (b : Bool) : (s.writePred n b).saved = s.saved := rfl
@[simp] theorem State.writePred_images (s : State) (n : Nat) (b : Bool) : (s.writePred n b).images = s.images := rfl
@[simp] theorem State.writePred_draftlds (s : State) (n : Nat) (b : Bool) : (s.writePred n b).draftlds = s.draftlds := rfl
@[simp] theorem State.writePred_streams (s : State) (n : Nat) (b : Bool) : (s.writePred n b).streams = s.streams := rfl
@[simp] theorem State.writePred_closes (s : State) (n : Nat) (b : Bool) : (s.writePred n b).closes = s.closes := rfl
@[simp] theorem State.writePred_colls (s : State) (n : Nat) (b : Bool) : (s.writePred n b).colls = s.colls := rfl
@[simp] theorem State.writePred_traversals (s : State) (n : Nat) (b : Bool) : (s.writePred n b).traversals = s.traversals := rfl
@[simp] theorem State.writePred_walks (s : State) (n : Nat) (b : Bool) : (s.writePred n b).walks = s.walks := rfl
@[simp] theorem State.writePred_dies (s : State) (n : Nat) (b : Bool) : (s.writePred n b).dies = s.dies := rfl
@[simp] theorem State.writePred_lqueues (s : State) (n : Nat) (b : Bool) : (s.writePred n b).lqueues = s.lqueues := rfl
@[simp] theorem State.writePred_mig (s : State) (n : Nat) (b : Bool) : (s.writePred n b).mig = s.mig := rfl
@[simp] theorem State.writePred_hub (s : State) (n : Nat) (b : Bool) : (s.writePred n b).hub = s.hub := rfl
@[simp] theorem State.writePred_sched (s : State) (n : Nat) (b : Bool) : (s.writePred n b).sched = s.sched := rfl
@[simp] theorem State.writePred_time (s : State) (n : Nat) (b : Bool) : (s.writePred n b).time = s.time := rfl
@[simp] theorem State.writePred_persistNext (s : State) (n : Nat) (b : Bool) : (s.writePred n b).persistNext = s.persistNext := rfl
@[simp] theorem State.writePred_upsets (s : State) (n : Nat) (b : Bool) : (s.writePred n b).upsets = s.upsets := rfl
@[simp] theorem State.writePred_hostCopies (s : State) (n : Nat) (b : Bool) : (s.writePred n b).hostCopies = s.hostCopies := rfl
@[simp] theorem State.writePred_servedNow (s : State) (n : Nat) (b : Bool) : (s.writePred n b).servedNow = s.servedNow := rfl
@[simp] theorem State.writePred_nextId (s : State) (n : Nat) (b : Bool) : (s.writePred n b).nextId = s.nextId := rfl
@[simp] theorem State.writePred_hostValue (s : State) (n : Nat) (b : Bool) : (s.writePred n b).hostValue = s.hostValue := rfl
@[simp] theorem State.writePred_cur (s : State) (n : Nat) (b : Bool) : (s.writePred n b).cur = s.cur := rfl
@[simp] theorem State.writePred_env (s : State) (n : Nat) (b : Bool) : (s.writePred n b).env = s.env := rfl

/-! stir -/
@[simp] theorem State.stir_mem (s : State) (c : Nat) : (s.stir c).mem = s.mem := rfl
@[simp] theorem State.stir_cells (s : State) (c : Nat) : (s.stir c).cells = s.cells := rfl
@[simp] theorem State.stir_census (s : State) (c : Nat) : (s.stir c).census = s.census := rfl
@[simp] theorem State.stir_accs (s : State) (c : Nat) : (s.stir c).accs = s.accs := rfl
@[simp] theorem State.stir_fences (s : State) (c : Nat) : (s.stir c).fences = s.fences := rfl
@[simp] theorem State.stir_invs (s : State) (c : Nat) : (s.stir c).invs = s.invs := rfl
@[simp] theorem State.stir_mwops (s : State) (c : Nat) : (s.stir c).mwops = s.mwops := rfl
@[simp] theorem State.stir_locks (s : State) (c : Nat) : (s.stir c).locks = s.locks := rfl
@[simp] theorem State.stir_watches (s : State) (c : Nat) : (s.stir c).watches = s.watches := rfl
@[simp] theorem State.stir_arrivals (s : State) (c : Nat) : (s.stir c).arrivals = s.arrivals := rfl
@[simp] theorem State.stir_dir (s : State) (c : Nat) : (s.stir c).dir = s.dir := rfl
@[simp] theorem State.stir_recalls (s : State) (c : Nat) : (s.stir c).recalls = s.recalls := rfl
@[simp] theorem State.stir_sliceLines (s : State) (c : Nat) : (s.stir c).sliceLines = s.sliceLines := rfl
@[simp] theorem State.stir_plru (s : State) (c : Nat) : (s.stir c).plru = s.plru := rfl
@[simp] theorem State.stir_merges (s : State) (c : Nat) : (s.stir c).merges = s.merges := rfl
@[simp] theorem State.stir_flights (s : State) (c : Nat) : (s.stir c).flights = s.flights := rfl
@[simp] theorem State.stir_grants (s : State) (c : Nat) : (s.stir c).grants = s.grants := rfl
@[simp] theorem State.stir_queues (s : State) (c : Nat) : (s.stir c).queues = s.queues := rfl
@[simp] theorem State.stir_launches (s : State) (c : Nat) : (s.stir c).launches = s.launches := rfl
@[simp] theorem State.stir_saved (s : State) (c : Nat) : (s.stir c).saved = s.saved := rfl
@[simp] theorem State.stir_images (s : State) (c : Nat) : (s.stir c).images = s.images := rfl
@[simp] theorem State.stir_draftlds (s : State) (c : Nat) : (s.stir c).draftlds = s.draftlds := rfl
@[simp] theorem State.stir_streams (s : State) (c : Nat) : (s.stir c).streams = s.streams := rfl
@[simp] theorem State.stir_closes (s : State) (c : Nat) : (s.stir c).closes = s.closes := rfl
@[simp] theorem State.stir_colls (s : State) (c : Nat) : (s.stir c).colls = s.colls := rfl
@[simp] theorem State.stir_traversals (s : State) (c : Nat) : (s.stir c).traversals = s.traversals := rfl
@[simp] theorem State.stir_walks (s : State) (c : Nat) : (s.stir c).walks = s.walks := rfl
@[simp] theorem State.stir_dies (s : State) (c : Nat) : (s.stir c).dies = s.dies := rfl
@[simp] theorem State.stir_lqueues (s : State) (c : Nat) : (s.stir c).lqueues = s.lqueues := rfl
@[simp] theorem State.stir_mig (s : State) (c : Nat) : (s.stir c).mig = s.mig := rfl
@[simp] theorem State.stir_hub (s : State) (c : Nat) : (s.stir c).hub = s.hub := rfl
@[simp] theorem State.stir_sched (s : State) (c : Nat) : (s.stir c).sched = s.sched := rfl
@[simp] theorem State.stir_time (s : State) (c : Nat) : (s.stir c).time = s.time := rfl
@[simp] theorem State.stir_persistNext (s : State) (c : Nat) : (s.stir c).persistNext = s.persistNext := rfl
@[simp] theorem State.stir_upsets (s : State) (c : Nat) : (s.stir c).upsets = s.upsets := rfl
@[simp] theorem State.stir_hostCopies (s : State) (c : Nat) : (s.stir c).hostCopies = s.hostCopies := rfl
@[simp] theorem State.stir_servedNow (s : State) (c : Nat) : (s.stir c).servedNow = s.servedNow := rfl
@[simp] theorem State.stir_nextId (s : State) (c : Nat) : (s.stir c).nextId = s.nextId := rfl
@[simp] theorem State.stir_hostValue (s : State) (c : Nat) : (s.stir c).hostValue = s.hostValue := rfl
@[simp] theorem State.stir_cur (s : State) (c : Nat) : (s.stir c).cur = s.cur := rfl
@[simp] theorem State.stir_env (s : State) (c : Nat) : (s.stir c).env = s.env := rfl

/-! touch -/
@[simp] theorem State.touch_mem (s : State) (c : Nat) : (s.touch c).mem = s.mem := rfl
@[simp] theorem State.touch_cells (s : State) (c : Nat) : (s.touch c).cells = s.cells := rfl
@[simp] theorem State.touch_census (s : State) (c : Nat) : (s.touch c).census = s.census := rfl
@[simp] theorem State.touch_accs (s : State) (c : Nat) : (s.touch c).accs = s.accs := rfl
@[simp] theorem State.touch_fences (s : State) (c : Nat) : (s.touch c).fences = s.fences := rfl
@[simp] theorem State.touch_invs (s : State) (c : Nat) : (s.touch c).invs = s.invs := rfl
@[simp] theorem State.touch_mwops (s : State) (c : Nat) : (s.touch c).mwops = s.mwops := rfl
@[simp] theorem State.touch_locks (s : State) (c : Nat) : (s.touch c).locks = s.locks := rfl
@[simp] theorem State.touch_watches (s : State) (c : Nat) : (s.touch c).watches = s.watches := rfl
@[simp] theorem State.touch_arrivals (s : State) (c : Nat) : (s.touch c).arrivals = s.arrivals := rfl
@[simp] theorem State.touch_dir (s : State) (c : Nat) : (s.touch c).dir = s.dir := rfl
@[simp] theorem State.touch_recalls (s : State) (c : Nat) : (s.touch c).recalls = s.recalls := rfl
@[simp] theorem State.touch_sliceLines (s : State) (c : Nat) : (s.touch c).sliceLines = s.sliceLines := rfl
@[simp] theorem State.touch_plru (s : State) (c : Nat) : (s.touch c).plru = s.plru := rfl
@[simp] theorem State.touch_merges (s : State) (c : Nat) : (s.touch c).merges = s.merges := rfl
@[simp] theorem State.touch_flights (s : State) (c : Nat) : (s.touch c).flights = s.flights := rfl
@[simp] theorem State.touch_grants (s : State) (c : Nat) : (s.touch c).grants = s.grants := rfl
@[simp] theorem State.touch_queues (s : State) (c : Nat) : (s.touch c).queues = s.queues := rfl
@[simp] theorem State.touch_launches (s : State) (c : Nat) : (s.touch c).launches = s.launches := rfl
@[simp] theorem State.touch_saved (s : State) (c : Nat) : (s.touch c).saved = s.saved := rfl
@[simp] theorem State.touch_images (s : State) (c : Nat) : (s.touch c).images = s.images := rfl
@[simp] theorem State.touch_draftlds (s : State) (c : Nat) : (s.touch c).draftlds = s.draftlds := rfl
@[simp] theorem State.touch_streams (s : State) (c : Nat) : (s.touch c).streams = s.streams := rfl
@[simp] theorem State.touch_closes (s : State) (c : Nat) : (s.touch c).closes = s.closes := rfl
@[simp] theorem State.touch_colls (s : State) (c : Nat) : (s.touch c).colls = s.colls := rfl
@[simp] theorem State.touch_traversals (s : State) (c : Nat) : (s.touch c).traversals = s.traversals := rfl
@[simp] theorem State.touch_walks (s : State) (c : Nat) : (s.touch c).walks = s.walks := rfl
@[simp] theorem State.touch_dies (s : State) (c : Nat) : (s.touch c).dies = s.dies := rfl
@[simp] theorem State.touch_lqueues (s : State) (c : Nat) : (s.touch c).lqueues = s.lqueues := rfl
@[simp] theorem State.touch_mig (s : State) (c : Nat) : (s.touch c).mig = s.mig := rfl
@[simp] theorem State.touch_hub (s : State) (c : Nat) : (s.touch c).hub = s.hub := rfl
@[simp] theorem State.touch_sched (s : State) (c : Nat) : (s.touch c).sched = s.sched := rfl
@[simp] theorem State.touch_time (s : State) (c : Nat) : (s.touch c).time = s.time := rfl
@[simp] theorem State.touch_persistNext (s : State) (c : Nat) : (s.touch c).persistNext = s.persistNext := rfl
@[simp] theorem State.touch_upsets (s : State) (c : Nat) : (s.touch c).upsets = s.upsets := rfl
@[simp] theorem State.touch_hostCopies (s : State) (c : Nat) : (s.touch c).hostCopies = s.hostCopies := rfl
@[simp] theorem State.touch_servedNow (s : State) (c : Nat) : (s.touch c).servedNow = s.servedNow := rfl
@[simp] theorem State.touch_nextId (s : State) (c : Nat) : (s.touch c).nextId = s.nextId := rfl
@[simp] theorem State.touch_hostValue (s : State) (c : Nat) : (s.touch c).hostValue = s.hostValue := rfl
@[simp] theorem State.touch_cur (s : State) (c : Nat) : (s.touch c).cur = s.cur := rfl
@[simp] theorem State.touch_env (s : State) (c : Nat) : (s.touch c).env = s.env := rfl

/-! request -/
@[simp] theorem State.request_mem (s : State) (p : Producer) (q : Target) : (s.request p q).mem = s.mem := rfl
@[simp] theorem State.request_cells (s : State) (p : Producer) (q : Target) : (s.request p q).cells = s.cells := rfl
@[simp] theorem State.request_census (s : State) (p : Producer) (q : Target) : (s.request p q).census = s.census := rfl
@[simp] theorem State.request_accs (s : State) (p : Producer) (q : Target) : (s.request p q).accs = s.accs := rfl
@[simp] theorem State.request_fences (s : State) (p : Producer) (q : Target) : (s.request p q).fences = s.fences := rfl
@[simp] theorem State.request_invs (s : State) (p : Producer) (q : Target) : (s.request p q).invs = s.invs := rfl
@[simp] theorem State.request_mwops (s : State) (p : Producer) (q : Target) : (s.request p q).mwops = s.mwops := rfl
@[simp] theorem State.request_locks (s : State) (p : Producer) (q : Target) : (s.request p q).locks = s.locks := rfl
@[simp] theorem State.request_watches (s : State) (p : Producer) (q : Target) : (s.request p q).watches = s.watches := rfl
@[simp] theorem State.request_arrivals (s : State) (p : Producer) (q : Target) : (s.request p q).arrivals = s.arrivals := rfl
@[simp] theorem State.request_dir (s : State) (p : Producer) (q : Target) : (s.request p q).dir = s.dir := rfl
@[simp] theorem State.request_recalls (s : State) (p : Producer) (q : Target) : (s.request p q).recalls = s.recalls := rfl
@[simp] theorem State.request_sliceLines (s : State) (p : Producer) (q : Target) : (s.request p q).sliceLines = s.sliceLines := rfl
@[simp] theorem State.request_plru (s : State) (p : Producer) (q : Target) : (s.request p q).plru = s.plru := rfl
@[simp] theorem State.request_merges (s : State) (p : Producer) (q : Target) : (s.request p q).merges = s.merges := rfl
@[simp] theorem State.request_flights (s : State) (p : Producer) (q : Target) : (s.request p q).flights = s.flights := rfl
@[simp] theorem State.request_queues (s : State) (p : Producer) (q : Target) : (s.request p q).queues = s.queues := rfl
@[simp] theorem State.request_launches (s : State) (p : Producer) (q : Target) : (s.request p q).launches = s.launches := rfl
@[simp] theorem State.request_regions (s : State) (p : Producer) (q : Target) : (s.request p q).regions = s.regions := rfl
@[simp] theorem State.request_saved (s : State) (p : Producer) (q : Target) : (s.request p q).saved = s.saved := rfl
@[simp] theorem State.request_images (s : State) (p : Producer) (q : Target) : (s.request p q).images = s.images := rfl
@[simp] theorem State.request_draftlds (s : State) (p : Producer) (q : Target) : (s.request p q).draftlds = s.draftlds := rfl
@[simp] theorem State.request_streams (s : State) (p : Producer) (q : Target) : (s.request p q).streams = s.streams := rfl
@[simp] theorem State.request_closes (s : State) (p : Producer) (q : Target) : (s.request p q).closes = s.closes := rfl
@[simp] theorem State.request_colls (s : State) (p : Producer) (q : Target) : (s.request p q).colls = s.colls := rfl
@[simp] theorem State.request_traversals (s : State) (p : Producer) (q : Target) : (s.request p q).traversals = s.traversals := rfl
@[simp] theorem State.request_walks (s : State) (p : Producer) (q : Target) : (s.request p q).walks = s.walks := rfl
@[simp] theorem State.request_dies (s : State) (p : Producer) (q : Target) : (s.request p q).dies = s.dies := rfl
@[simp] theorem State.request_lqueues (s : State) (p : Producer) (q : Target) : (s.request p q).lqueues = s.lqueues := rfl
@[simp] theorem State.request_mig (s : State) (p : Producer) (q : Target) : (s.request p q).mig = s.mig := rfl
@[simp] theorem State.request_hub (s : State) (p : Producer) (q : Target) : (s.request p q).hub = s.hub := rfl
@[simp] theorem State.request_sched (s : State) (p : Producer) (q : Target) : (s.request p q).sched = s.sched := rfl
@[simp] theorem State.request_time (s : State) (p : Producer) (q : Target) : (s.request p q).time = s.time := rfl
@[simp] theorem State.request_persistNext (s : State) (p : Producer) (q : Target) : (s.request p q).persistNext = s.persistNext := rfl
@[simp] theorem State.request_upsets (s : State) (p : Producer) (q : Target) : (s.request p q).upsets = s.upsets := rfl
@[simp] theorem State.request_hostCopies (s : State) (p : Producer) (q : Target) : (s.request p q).hostCopies = s.hostCopies := rfl
@[simp] theorem State.request_servedNow (s : State) (p : Producer) (q : Target) : (s.request p q).servedNow = s.servedNow := rfl
@[simp] theorem State.request_hostValue (s : State) (p : Producer) (q : Target) : (s.request p q).hostValue = s.hostValue := rfl
@[simp] theorem State.request_cur (s : State) (p : Producer) (q : Target) : (s.request p q).cur = s.cur := rfl
@[simp] theorem State.request_env (s : State) (p : Producer) (q : Target) : (s.request p q).env = s.env := rfl

/-! launchTokens -/
@[simp] theorem State.launchTokens_mem (s : State) (p : Producer) (q : Target) (ts : List Token) (k : Option Nat) : (s.launchTokens p q ts k).mem = s.mem := rfl
@[simp] theorem State.launchTokens_cells (s : State) (p : Producer) (q : Target) (ts : List Token) (k : Option Nat) : (s.launchTokens p q ts k).cells = s.cells := rfl
@[simp] theorem State.launchTokens_census (s : State) (p : Producer) (q : Target) (ts : List Token) (k : Option Nat) : (s.launchTokens p q ts k).census = s.census := rfl
@[simp] theorem State.launchTokens_accs (s : State) (p : Producer) (q : Target) (ts : List Token) (k : Option Nat) : (s.launchTokens p q ts k).accs = s.accs := rfl
@[simp] theorem State.launchTokens_fences (s : State) (p : Producer) (q : Target) (ts : List Token) (k : Option Nat) : (s.launchTokens p q ts k).fences = s.fences := rfl
@[simp] theorem State.launchTokens_invs (s : State) (p : Producer) (q : Target) (ts : List Token) (k : Option Nat) : (s.launchTokens p q ts k).invs = s.invs := rfl
@[simp] theorem State.launchTokens_mwops (s : State) (p : Producer) (q : Target) (ts : List Token) (k : Option Nat) : (s.launchTokens p q ts k).mwops = s.mwops := rfl
@[simp] theorem State.launchTokens_locks (s : State) (p : Producer) (q : Target) (ts : List Token) (k : Option Nat) : (s.launchTokens p q ts k).locks = s.locks := rfl
@[simp] theorem State.launchTokens_watches (s : State) (p : Producer) (q : Target) (ts : List Token) (k : Option Nat) : (s.launchTokens p q ts k).watches = s.watches := rfl
@[simp] theorem State.launchTokens_arrivals (s : State) (p : Producer) (q : Target) (ts : List Token) (k : Option Nat) : (s.launchTokens p q ts k).arrivals = s.arrivals := rfl
@[simp] theorem State.launchTokens_dir (s : State) (p : Producer) (q : Target) (ts : List Token) (k : Option Nat) : (s.launchTokens p q ts k).dir = s.dir := rfl
@[simp] theorem State.launchTokens_recalls (s : State) (p : Producer) (q : Target) (ts : List Token) (k : Option Nat) : (s.launchTokens p q ts k).recalls = s.recalls := rfl
@[simp] theorem State.launchTokens_sliceLines (s : State) (p : Producer) (q : Target) (ts : List Token) (k : Option Nat) : (s.launchTokens p q ts k).sliceLines = s.sliceLines := rfl
@[simp] theorem State.launchTokens_plru (s : State) (p : Producer) (q : Target) (ts : List Token) (k : Option Nat) : (s.launchTokens p q ts k).plru = s.plru := rfl
@[simp] theorem State.launchTokens_merges (s : State) (p : Producer) (q : Target) (ts : List Token) (k : Option Nat) : (s.launchTokens p q ts k).merges = s.merges := rfl
@[simp] theorem State.launchTokens_grants (s : State) (p : Producer) (q : Target) (ts : List Token) (k : Option Nat) : (s.launchTokens p q ts k).grants = s.grants := rfl
@[simp] theorem State.launchTokens_queues (s : State) (p : Producer) (q : Target) (ts : List Token) (k : Option Nat) : (s.launchTokens p q ts k).queues = s.queues := rfl
@[simp] theorem State.launchTokens_launches (s : State) (p : Producer) (q : Target) (ts : List Token) (k : Option Nat) : (s.launchTokens p q ts k).launches = s.launches := rfl
@[simp] theorem State.launchTokens_regions (s : State) (p : Producer) (q : Target) (ts : List Token) (k : Option Nat) : (s.launchTokens p q ts k).regions = s.regions := rfl
@[simp] theorem State.launchTokens_saved (s : State) (p : Producer) (q : Target) (ts : List Token) (k : Option Nat) : (s.launchTokens p q ts k).saved = s.saved := rfl
@[simp] theorem State.launchTokens_images (s : State) (p : Producer) (q : Target) (ts : List Token) (k : Option Nat) : (s.launchTokens p q ts k).images = s.images := rfl
@[simp] theorem State.launchTokens_draftlds (s : State) (p : Producer) (q : Target) (ts : List Token) (k : Option Nat) : (s.launchTokens p q ts k).draftlds = s.draftlds := rfl
@[simp] theorem State.launchTokens_streams (s : State) (p : Producer) (q : Target) (ts : List Token) (k : Option Nat) : (s.launchTokens p q ts k).streams = s.streams := rfl
@[simp] theorem State.launchTokens_closes (s : State) (p : Producer) (q : Target) (ts : List Token) (k : Option Nat) : (s.launchTokens p q ts k).closes = s.closes := rfl
@[simp] theorem State.launchTokens_colls (s : State) (p : Producer) (q : Target) (ts : List Token) (k : Option Nat) : (s.launchTokens p q ts k).colls = s.colls := rfl
@[simp] theorem State.launchTokens_traversals (s : State) (p : Producer) (q : Target) (ts : List Token) (k : Option Nat) : (s.launchTokens p q ts k).traversals = s.traversals := rfl
@[simp] theorem State.launchTokens_walks (s : State) (p : Producer) (q : Target) (ts : List Token) (k : Option Nat) : (s.launchTokens p q ts k).walks = s.walks := rfl
@[simp] theorem State.launchTokens_dies (s : State) (p : Producer) (q : Target) (ts : List Token) (k : Option Nat) : (s.launchTokens p q ts k).dies = s.dies := rfl
@[simp] theorem State.launchTokens_lqueues (s : State) (p : Producer) (q : Target) (ts : List Token) (k : Option Nat) : (s.launchTokens p q ts k).lqueues = s.lqueues := rfl
@[simp] theorem State.launchTokens_mig (s : State) (p : Producer) (q : Target) (ts : List Token) (k : Option Nat) : (s.launchTokens p q ts k).mig = s.mig := rfl
@[simp] theorem State.launchTokens_hub (s : State) (p : Producer) (q : Target) (ts : List Token) (k : Option Nat) : (s.launchTokens p q ts k).hub = s.hub := rfl
@[simp] theorem State.launchTokens_sched (s : State) (p : Producer) (q : Target) (ts : List Token) (k : Option Nat) : (s.launchTokens p q ts k).sched = s.sched := rfl
@[simp] theorem State.launchTokens_time (s : State) (p : Producer) (q : Target) (ts : List Token) (k : Option Nat) : (s.launchTokens p q ts k).time = s.time := rfl
@[simp] theorem State.launchTokens_persistNext (s : State) (p : Producer) (q : Target) (ts : List Token) (k : Option Nat) : (s.launchTokens p q ts k).persistNext = s.persistNext := rfl
@[simp] theorem State.launchTokens_upsets (s : State) (p : Producer) (q : Target) (ts : List Token) (k : Option Nat) : (s.launchTokens p q ts k).upsets = s.upsets := rfl
@[simp] theorem State.launchTokens_hostCopies (s : State) (p : Producer) (q : Target) (ts : List Token) (k : Option Nat) : (s.launchTokens p q ts k).hostCopies = s.hostCopies := rfl
@[simp] theorem State.launchTokens_servedNow (s : State) (p : Producer) (q : Target) (ts : List Token) (k : Option Nat) : (s.launchTokens p q ts k).servedNow = s.servedNow := rfl
@[simp] theorem State.launchTokens_hostValue (s : State) (p : Producer) (q : Target) (ts : List Token) (k : Option Nat) : (s.launchTokens p q ts k).hostValue = s.hostValue := rfl
@[simp] theorem State.launchTokens_cur (s : State) (p : Producer) (q : Target) (ts : List Token) (k : Option Nat) : (s.launchTokens p q ts k).cur = s.cur := rfl
@[simp] theorem State.launchTokens_env (s : State) (p : Producer) (q : Target) (ts : List Token) (k : Option Nat) : (s.launchTokens p q ts k).env = s.env := rfl

/-! spend -/
@[simp] theorem State.spend_mem (s : State) (n : Nat) : (s.spend n).mem = s.mem := rfl
@[simp] theorem State.spend_census (s : State) (n : Nat) : (s.spend n).census = s.census := rfl
@[simp] theorem State.spend_accs (s : State) (n : Nat) : (s.spend n).accs = s.accs := rfl
@[simp] theorem State.spend_fences (s : State) (n : Nat) : (s.spend n).fences = s.fences := rfl
@[simp] theorem State.spend_invs (s : State) (n : Nat) : (s.spend n).invs = s.invs := rfl
@[simp] theorem State.spend_mwops (s : State) (n : Nat) : (s.spend n).mwops = s.mwops := rfl
@[simp] theorem State.spend_locks (s : State) (n : Nat) : (s.spend n).locks = s.locks := rfl
@[simp] theorem State.spend_watches (s : State) (n : Nat) : (s.spend n).watches = s.watches := rfl
@[simp] theorem State.spend_arrivals (s : State) (n : Nat) : (s.spend n).arrivals = s.arrivals := rfl
@[simp] theorem State.spend_dir (s : State) (n : Nat) : (s.spend n).dir = s.dir := rfl
@[simp] theorem State.spend_recalls (s : State) (n : Nat) : (s.spend n).recalls = s.recalls := rfl
@[simp] theorem State.spend_sliceLines (s : State) (n : Nat) : (s.spend n).sliceLines = s.sliceLines := rfl
@[simp] theorem State.spend_plru (s : State) (n : Nat) : (s.spend n).plru = s.plru := rfl
@[simp] theorem State.spend_merges (s : State) (n : Nat) : (s.spend n).merges = s.merges := rfl
@[simp] theorem State.spend_flights (s : State) (n : Nat) : (s.spend n).flights = s.flights := rfl
@[simp] theorem State.spend_grants (s : State) (n : Nat) : (s.spend n).grants = s.grants := rfl
@[simp] theorem State.spend_queues (s : State) (n : Nat) : (s.spend n).queues = s.queues := rfl
@[simp] theorem State.spend_launches (s : State) (n : Nat) : (s.spend n).launches = s.launches := rfl
@[simp] theorem State.spend_regions (s : State) (n : Nat) : (s.spend n).regions = s.regions := rfl
@[simp] theorem State.spend_saved (s : State) (n : Nat) : (s.spend n).saved = s.saved := rfl
@[simp] theorem State.spend_images (s : State) (n : Nat) : (s.spend n).images = s.images := rfl
@[simp] theorem State.spend_draftlds (s : State) (n : Nat) : (s.spend n).draftlds = s.draftlds := rfl
@[simp] theorem State.spend_streams (s : State) (n : Nat) : (s.spend n).streams = s.streams := rfl
@[simp] theorem State.spend_closes (s : State) (n : Nat) : (s.spend n).closes = s.closes := rfl
@[simp] theorem State.spend_colls (s : State) (n : Nat) : (s.spend n).colls = s.colls := rfl
@[simp] theorem State.spend_traversals (s : State) (n : Nat) : (s.spend n).traversals = s.traversals := rfl
@[simp] theorem State.spend_walks (s : State) (n : Nat) : (s.spend n).walks = s.walks := rfl
@[simp] theorem State.spend_dies (s : State) (n : Nat) : (s.spend n).dies = s.dies := rfl
@[simp] theorem State.spend_lqueues (s : State) (n : Nat) : (s.spend n).lqueues = s.lqueues := rfl
@[simp] theorem State.spend_mig (s : State) (n : Nat) : (s.spend n).mig = s.mig := rfl
@[simp] theorem State.spend_hub (s : State) (n : Nat) : (s.spend n).hub = s.hub := rfl
@[simp] theorem State.spend_sched (s : State) (n : Nat) : (s.spend n).sched = s.sched := rfl
@[simp] theorem State.spend_time (s : State) (n : Nat) : (s.spend n).time = s.time := rfl
@[simp] theorem State.spend_persistNext (s : State) (n : Nat) : (s.spend n).persistNext = s.persistNext := rfl
@[simp] theorem State.spend_upsets (s : State) (n : Nat) : (s.spend n).upsets = s.upsets := rfl
@[simp] theorem State.spend_hostCopies (s : State) (n : Nat) : (s.spend n).hostCopies = s.hostCopies := rfl
@[simp] theorem State.spend_servedNow (s : State) (n : Nat) : (s.spend n).servedNow = s.servedNow := rfl
@[simp] theorem State.spend_nextId (s : State) (n : Nat) : (s.spend n).nextId = s.nextId := rfl
@[simp] theorem State.spend_hostValue (s : State) (n : Nat) : (s.spend n).hostValue = s.hostValue := rfl
@[simp] theorem State.spend_cur (s : State) (n : Nat) : (s.spend n).cur = s.cur := rfl
@[simp] theorem State.spend_env (s : State) (n : Nat) : (s.spend n).env = s.env := rfl

/-! hold -/
@[simp] theorem State.hold_mem (s : State) (c e x id : Nat) : (s.hold c e x id).mem = s.mem := rfl
@[simp] theorem State.hold_census (s : State) (c e x id : Nat) : (s.hold c e x id).census = s.census := rfl
@[simp] theorem State.hold_accs (s : State) (c e x id : Nat) : (s.hold c e x id).accs = s.accs := rfl
@[simp] theorem State.hold_fences (s : State) (c e x id : Nat) : (s.hold c e x id).fences = s.fences := rfl
@[simp] theorem State.hold_invs (s : State) (c e x id : Nat) : (s.hold c e x id).invs = s.invs := rfl
@[simp] theorem State.hold_mwops (s : State) (c e x id : Nat) : (s.hold c e x id).mwops = s.mwops := rfl
@[simp] theorem State.hold_locks (s : State) (c e x id : Nat) : (s.hold c e x id).locks = s.locks := rfl
@[simp] theorem State.hold_watches (s : State) (c e x id : Nat) : (s.hold c e x id).watches = s.watches := rfl
@[simp] theorem State.hold_arrivals (s : State) (c e x id : Nat) : (s.hold c e x id).arrivals = s.arrivals := rfl
@[simp] theorem State.hold_dir (s : State) (c e x id : Nat) : (s.hold c e x id).dir = s.dir := rfl
@[simp] theorem State.hold_recalls (s : State) (c e x id : Nat) : (s.hold c e x id).recalls = s.recalls := rfl
@[simp] theorem State.hold_sliceLines (s : State) (c e x id : Nat) : (s.hold c e x id).sliceLines = s.sliceLines := rfl
@[simp] theorem State.hold_plru (s : State) (c e x id : Nat) : (s.hold c e x id).plru = s.plru := rfl
@[simp] theorem State.hold_merges (s : State) (c e x id : Nat) : (s.hold c e x id).merges = s.merges := rfl
@[simp] theorem State.hold_flights (s : State) (c e x id : Nat) : (s.hold c e x id).flights = s.flights := rfl
@[simp] theorem State.hold_grants (s : State) (c e x id : Nat) : (s.hold c e x id).grants = s.grants := rfl
@[simp] theorem State.hold_queues (s : State) (c e x id : Nat) : (s.hold c e x id).queues = s.queues := rfl
@[simp] theorem State.hold_launches (s : State) (c e x id : Nat) : (s.hold c e x id).launches = s.launches := rfl
@[simp] theorem State.hold_regions (s : State) (c e x id : Nat) : (s.hold c e x id).regions = s.regions := rfl
@[simp] theorem State.hold_saved (s : State) (c e x id : Nat) : (s.hold c e x id).saved = s.saved := rfl
@[simp] theorem State.hold_images (s : State) (c e x id : Nat) : (s.hold c e x id).images = s.images := rfl
@[simp] theorem State.hold_draftlds (s : State) (c e x id : Nat) : (s.hold c e x id).draftlds = s.draftlds := rfl
@[simp] theorem State.hold_streams (s : State) (c e x id : Nat) : (s.hold c e x id).streams = s.streams := rfl
@[simp] theorem State.hold_closes (s : State) (c e x id : Nat) : (s.hold c e x id).closes = s.closes := rfl
@[simp] theorem State.hold_colls (s : State) (c e x id : Nat) : (s.hold c e x id).colls = s.colls := rfl
@[simp] theorem State.hold_traversals (s : State) (c e x id : Nat) : (s.hold c e x id).traversals = s.traversals := rfl
@[simp] theorem State.hold_walks (s : State) (c e x id : Nat) : (s.hold c e x id).walks = s.walks := rfl
@[simp] theorem State.hold_dies (s : State) (c e x id : Nat) : (s.hold c e x id).dies = s.dies := rfl
@[simp] theorem State.hold_lqueues (s : State) (c e x id : Nat) : (s.hold c e x id).lqueues = s.lqueues := rfl
@[simp] theorem State.hold_mig (s : State) (c e x id : Nat) : (s.hold c e x id).mig = s.mig := rfl
@[simp] theorem State.hold_hub (s : State) (c e x id : Nat) : (s.hold c e x id).hub = s.hub := rfl
@[simp] theorem State.hold_sched (s : State) (c e x id : Nat) : (s.hold c e x id).sched = s.sched := rfl
@[simp] theorem State.hold_time (s : State) (c e x id : Nat) : (s.hold c e x id).time = s.time := rfl
@[simp] theorem State.hold_persistNext (s : State) (c e x id : Nat) : (s.hold c e x id).persistNext = s.persistNext := rfl
@[simp] theorem State.hold_upsets (s : State) (c e x id : Nat) : (s.hold c e x id).upsets = s.upsets := rfl
@[simp] theorem State.hold_hostCopies (s : State) (c e x id : Nat) : (s.hold c e x id).hostCopies = s.hostCopies := rfl
@[simp] theorem State.hold_servedNow (s : State) (c e x id : Nat) : (s.hold c e x id).servedNow = s.servedNow := rfl
@[simp] theorem State.hold_nextId (s : State) (c e x id : Nat) : (s.hold c e x id).nextId = s.nextId := rfl
@[simp] theorem State.hold_hostValue (s : State) (c e x id : Nat) : (s.hold c e x id).hostValue = s.hostValue := rfl
@[simp] theorem State.hold_cur (s : State) (c e x id : Nat) : (s.hold c e x id).cur = s.cur := rfl
@[simp] theorem State.hold_env (s : State) (c e x id : Nat) : (s.hold c e x id).env = s.env := rfl

/-! release -/
@[simp] theorem State.release_mem (s : State) (c e x id : Nat) : (s.release c e x id).mem = s.mem := rfl
@[simp] theorem State.release_census (s : State) (c e x id : Nat) : (s.release c e x id).census = s.census := rfl
@[simp] theorem State.release_accs (s : State) (c e x id : Nat) : (s.release c e x id).accs = s.accs := rfl
@[simp] theorem State.release_fences (s : State) (c e x id : Nat) : (s.release c e x id).fences = s.fences := rfl
@[simp] theorem State.release_invs (s : State) (c e x id : Nat) : (s.release c e x id).invs = s.invs := rfl
@[simp] theorem State.release_mwops (s : State) (c e x id : Nat) : (s.release c e x id).mwops = s.mwops := rfl
@[simp] theorem State.release_locks (s : State) (c e x id : Nat) : (s.release c e x id).locks = s.locks := rfl
@[simp] theorem State.release_watches (s : State) (c e x id : Nat) : (s.release c e x id).watches = s.watches := rfl
@[simp] theorem State.release_arrivals (s : State) (c e x id : Nat) : (s.release c e x id).arrivals = s.arrivals := rfl
@[simp] theorem State.release_dir (s : State) (c e x id : Nat) : (s.release c e x id).dir = s.dir := rfl
@[simp] theorem State.release_recalls (s : State) (c e x id : Nat) : (s.release c e x id).recalls = s.recalls := rfl
@[simp] theorem State.release_sliceLines (s : State) (c e x id : Nat) : (s.release c e x id).sliceLines = s.sliceLines := rfl
@[simp] theorem State.release_plru (s : State) (c e x id : Nat) : (s.release c e x id).plru = s.plru := rfl
@[simp] theorem State.release_merges (s : State) (c e x id : Nat) : (s.release c e x id).merges = s.merges := rfl
@[simp] theorem State.release_flights (s : State) (c e x id : Nat) : (s.release c e x id).flights = s.flights := rfl
@[simp] theorem State.release_grants (s : State) (c e x id : Nat) : (s.release c e x id).grants = s.grants := rfl
@[simp] theorem State.release_queues (s : State) (c e x id : Nat) : (s.release c e x id).queues = s.queues := rfl
@[simp] theorem State.release_launches (s : State) (c e x id : Nat) : (s.release c e x id).launches = s.launches := rfl
@[simp] theorem State.release_regions (s : State) (c e x id : Nat) : (s.release c e x id).regions = s.regions := rfl
@[simp] theorem State.release_saved (s : State) (c e x id : Nat) : (s.release c e x id).saved = s.saved := rfl
@[simp] theorem State.release_images (s : State) (c e x id : Nat) : (s.release c e x id).images = s.images := rfl
@[simp] theorem State.release_draftlds (s : State) (c e x id : Nat) : (s.release c e x id).draftlds = s.draftlds := rfl
@[simp] theorem State.release_streams (s : State) (c e x id : Nat) : (s.release c e x id).streams = s.streams := rfl
@[simp] theorem State.release_closes (s : State) (c e x id : Nat) : (s.release c e x id).closes = s.closes := rfl
@[simp] theorem State.release_colls (s : State) (c e x id : Nat) : (s.release c e x id).colls = s.colls := rfl
@[simp] theorem State.release_traversals (s : State) (c e x id : Nat) : (s.release c e x id).traversals = s.traversals := rfl
@[simp] theorem State.release_walks (s : State) (c e x id : Nat) : (s.release c e x id).walks = s.walks := rfl
@[simp] theorem State.release_dies (s : State) (c e x id : Nat) : (s.release c e x id).dies = s.dies := rfl
@[simp] theorem State.release_lqueues (s : State) (c e x id : Nat) : (s.release c e x id).lqueues = s.lqueues := rfl
@[simp] theorem State.release_mig (s : State) (c e x id : Nat) : (s.release c e x id).mig = s.mig := rfl
@[simp] theorem State.release_hub (s : State) (c e x id : Nat) : (s.release c e x id).hub = s.hub := rfl
@[simp] theorem State.release_sched (s : State) (c e x id : Nat) : (s.release c e x id).sched = s.sched := rfl
@[simp] theorem State.release_time (s : State) (c e x id : Nat) : (s.release c e x id).time = s.time := rfl
@[simp] theorem State.release_persistNext (s : State) (c e x id : Nat) : (s.release c e x id).persistNext = s.persistNext := rfl
@[simp] theorem State.release_upsets (s : State) (c e x id : Nat) : (s.release c e x id).upsets = s.upsets := rfl
@[simp] theorem State.release_hostCopies (s : State) (c e x id : Nat) : (s.release c e x id).hostCopies = s.hostCopies := rfl
@[simp] theorem State.release_servedNow (s : State) (c e x id : Nat) : (s.release c e x id).servedNow = s.servedNow := rfl
@[simp] theorem State.release_nextId (s : State) (c e x id : Nat) : (s.release c e x id).nextId = s.nextId := rfl
@[simp] theorem State.release_hostValue (s : State) (c e x id : Nat) : (s.release c e x id).hostValue = s.hostValue := rfl
@[simp] theorem State.release_cur (s : State) (c e x id : Nat) : (s.release c e x id).cur = s.cur := rfl
@[simp] theorem State.release_env (s : State) (c e x id : Nat) : (s.release c e x id).env = s.env := rfl

/-! stay -/
@[simp] theorem State.stay_mem (s : State) (w : Wait) : (s.stay w).mem = s.mem := rfl
@[simp] theorem State.stay_census (s : State) (w : Wait) : (s.stay w).census = s.census := rfl
@[simp] theorem State.stay_accs (s : State) (w : Wait) : (s.stay w).accs = s.accs := rfl
@[simp] theorem State.stay_fences (s : State) (w : Wait) : (s.stay w).fences = s.fences := rfl
@[simp] theorem State.stay_invs (s : State) (w : Wait) : (s.stay w).invs = s.invs := rfl
@[simp] theorem State.stay_mwops (s : State) (w : Wait) : (s.stay w).mwops = s.mwops := rfl
@[simp] theorem State.stay_locks (s : State) (w : Wait) : (s.stay w).locks = s.locks := rfl
@[simp] theorem State.stay_watches (s : State) (w : Wait) : (s.stay w).watches = s.watches := rfl
@[simp] theorem State.stay_arrivals (s : State) (w : Wait) : (s.stay w).arrivals = s.arrivals := rfl
@[simp] theorem State.stay_dir (s : State) (w : Wait) : (s.stay w).dir = s.dir := rfl
@[simp] theorem State.stay_recalls (s : State) (w : Wait) : (s.stay w).recalls = s.recalls := rfl
@[simp] theorem State.stay_sliceLines (s : State) (w : Wait) : (s.stay w).sliceLines = s.sliceLines := rfl
@[simp] theorem State.stay_plru (s : State) (w : Wait) : (s.stay w).plru = s.plru := rfl
@[simp] theorem State.stay_merges (s : State) (w : Wait) : (s.stay w).merges = s.merges := rfl
@[simp] theorem State.stay_flights (s : State) (w : Wait) : (s.stay w).flights = s.flights := rfl
@[simp] theorem State.stay_grants (s : State) (w : Wait) : (s.stay w).grants = s.grants := rfl
@[simp] theorem State.stay_queues (s : State) (w : Wait) : (s.stay w).queues = s.queues := rfl
@[simp] theorem State.stay_launches (s : State) (w : Wait) : (s.stay w).launches = s.launches := rfl
@[simp] theorem State.stay_regions (s : State) (w : Wait) : (s.stay w).regions = s.regions := rfl
@[simp] theorem State.stay_saved (s : State) (w : Wait) : (s.stay w).saved = s.saved := rfl
@[simp] theorem State.stay_images (s : State) (w : Wait) : (s.stay w).images = s.images := rfl
@[simp] theorem State.stay_draftlds (s : State) (w : Wait) : (s.stay w).draftlds = s.draftlds := rfl
@[simp] theorem State.stay_streams (s : State) (w : Wait) : (s.stay w).streams = s.streams := rfl
@[simp] theorem State.stay_closes (s : State) (w : Wait) : (s.stay w).closes = s.closes := rfl
@[simp] theorem State.stay_colls (s : State) (w : Wait) : (s.stay w).colls = s.colls := rfl
@[simp] theorem State.stay_traversals (s : State) (w : Wait) : (s.stay w).traversals = s.traversals := rfl
@[simp] theorem State.stay_walks (s : State) (w : Wait) : (s.stay w).walks = s.walks := rfl
@[simp] theorem State.stay_dies (s : State) (w : Wait) : (s.stay w).dies = s.dies := rfl
@[simp] theorem State.stay_lqueues (s : State) (w : Wait) : (s.stay w).lqueues = s.lqueues := rfl
@[simp] theorem State.stay_mig (s : State) (w : Wait) : (s.stay w).mig = s.mig := rfl
@[simp] theorem State.stay_hub (s : State) (w : Wait) : (s.stay w).hub = s.hub := rfl
@[simp] theorem State.stay_sched (s : State) (w : Wait) : (s.stay w).sched = s.sched := rfl
@[simp] theorem State.stay_time (s : State) (w : Wait) : (s.stay w).time = s.time := rfl
@[simp] theorem State.stay_persistNext (s : State) (w : Wait) : (s.stay w).persistNext = s.persistNext := rfl
@[simp] theorem State.stay_upsets (s : State) (w : Wait) : (s.stay w).upsets = s.upsets := rfl
@[simp] theorem State.stay_hostCopies (s : State) (w : Wait) : (s.stay w).hostCopies = s.hostCopies := rfl
@[simp] theorem State.stay_servedNow (s : State) (w : Wait) : (s.stay w).servedNow = s.servedNow := rfl
@[simp] theorem State.stay_nextId (s : State) (w : Wait) : (s.stay w).nextId = s.nextId := rfl
@[simp] theorem State.stay_hostValue (s : State) (w : Wait) : (s.stay w).hostValue = s.hostValue := rfl
@[simp] theorem State.stay_cur (s : State) (w : Wait) : (s.stay w).cur = s.cur := rfl
@[simp] theorem State.stay_env (s : State) (w : Wait) : (s.stay w).env = s.env := rfl

/-! raiseFlagsOf -/
@[simp] theorem State.raiseFlagsOf_mem (s : State) (c e x n : Nat) : (s.raiseFlagsOf c e x n).mem = s.mem := rfl
@[simp] theorem State.raiseFlagsOf_census (s : State) (c e x n : Nat) : (s.raiseFlagsOf c e x n).census = s.census := rfl
@[simp] theorem State.raiseFlagsOf_accs (s : State) (c e x n : Nat) : (s.raiseFlagsOf c e x n).accs = s.accs := rfl
@[simp] theorem State.raiseFlagsOf_fences (s : State) (c e x n : Nat) : (s.raiseFlagsOf c e x n).fences = s.fences := rfl
@[simp] theorem State.raiseFlagsOf_invs (s : State) (c e x n : Nat) : (s.raiseFlagsOf c e x n).invs = s.invs := rfl
@[simp] theorem State.raiseFlagsOf_mwops (s : State) (c e x n : Nat) : (s.raiseFlagsOf c e x n).mwops = s.mwops := rfl
@[simp] theorem State.raiseFlagsOf_locks (s : State) (c e x n : Nat) : (s.raiseFlagsOf c e x n).locks = s.locks := rfl
@[simp] theorem State.raiseFlagsOf_watches (s : State) (c e x n : Nat) : (s.raiseFlagsOf c e x n).watches = s.watches := rfl
@[simp] theorem State.raiseFlagsOf_arrivals (s : State) (c e x n : Nat) : (s.raiseFlagsOf c e x n).arrivals = s.arrivals := rfl
@[simp] theorem State.raiseFlagsOf_dir (s : State) (c e x n : Nat) : (s.raiseFlagsOf c e x n).dir = s.dir := rfl
@[simp] theorem State.raiseFlagsOf_recalls (s : State) (c e x n : Nat) : (s.raiseFlagsOf c e x n).recalls = s.recalls := rfl
@[simp] theorem State.raiseFlagsOf_sliceLines (s : State) (c e x n : Nat) : (s.raiseFlagsOf c e x n).sliceLines = s.sliceLines := rfl
@[simp] theorem State.raiseFlagsOf_plru (s : State) (c e x n : Nat) : (s.raiseFlagsOf c e x n).plru = s.plru := rfl
@[simp] theorem State.raiseFlagsOf_merges (s : State) (c e x n : Nat) : (s.raiseFlagsOf c e x n).merges = s.merges := rfl
@[simp] theorem State.raiseFlagsOf_flights (s : State) (c e x n : Nat) : (s.raiseFlagsOf c e x n).flights = s.flights := rfl
@[simp] theorem State.raiseFlagsOf_grants (s : State) (c e x n : Nat) : (s.raiseFlagsOf c e x n).grants = s.grants := rfl
@[simp] theorem State.raiseFlagsOf_queues (s : State) (c e x n : Nat) : (s.raiseFlagsOf c e x n).queues = s.queues := rfl
@[simp] theorem State.raiseFlagsOf_launches (s : State) (c e x n : Nat) : (s.raiseFlagsOf c e x n).launches = s.launches := rfl
@[simp] theorem State.raiseFlagsOf_regions (s : State) (c e x n : Nat) : (s.raiseFlagsOf c e x n).regions = s.regions := rfl
@[simp] theorem State.raiseFlagsOf_saved (s : State) (c e x n : Nat) : (s.raiseFlagsOf c e x n).saved = s.saved := rfl
@[simp] theorem State.raiseFlagsOf_images (s : State) (c e x n : Nat) : (s.raiseFlagsOf c e x n).images = s.images := rfl
@[simp] theorem State.raiseFlagsOf_draftlds (s : State) (c e x n : Nat) : (s.raiseFlagsOf c e x n).draftlds = s.draftlds := rfl
@[simp] theorem State.raiseFlagsOf_streams (s : State) (c e x n : Nat) : (s.raiseFlagsOf c e x n).streams = s.streams := rfl
@[simp] theorem State.raiseFlagsOf_closes (s : State) (c e x n : Nat) : (s.raiseFlagsOf c e x n).closes = s.closes := rfl
@[simp] theorem State.raiseFlagsOf_colls (s : State) (c e x n : Nat) : (s.raiseFlagsOf c e x n).colls = s.colls := rfl
@[simp] theorem State.raiseFlagsOf_traversals (s : State) (c e x n : Nat) : (s.raiseFlagsOf c e x n).traversals = s.traversals := rfl
@[simp] theorem State.raiseFlagsOf_walks (s : State) (c e x n : Nat) : (s.raiseFlagsOf c e x n).walks = s.walks := rfl
@[simp] theorem State.raiseFlagsOf_dies (s : State) (c e x n : Nat) : (s.raiseFlagsOf c e x n).dies = s.dies := rfl
@[simp] theorem State.raiseFlagsOf_lqueues (s : State) (c e x n : Nat) : (s.raiseFlagsOf c e x n).lqueues = s.lqueues := rfl
@[simp] theorem State.raiseFlagsOf_mig (s : State) (c e x n : Nat) : (s.raiseFlagsOf c e x n).mig = s.mig := rfl
@[simp] theorem State.raiseFlagsOf_hub (s : State) (c e x n : Nat) : (s.raiseFlagsOf c e x n).hub = s.hub := rfl
@[simp] theorem State.raiseFlagsOf_sched (s : State) (c e x n : Nat) : (s.raiseFlagsOf c e x n).sched = s.sched := rfl
@[simp] theorem State.raiseFlagsOf_time (s : State) (c e x n : Nat) : (s.raiseFlagsOf c e x n).time = s.time := rfl
@[simp] theorem State.raiseFlagsOf_persistNext (s : State) (c e x n : Nat) : (s.raiseFlagsOf c e x n).persistNext = s.persistNext := rfl
@[simp] theorem State.raiseFlagsOf_upsets (s : State) (c e x n : Nat) : (s.raiseFlagsOf c e x n).upsets = s.upsets := rfl
@[simp] theorem State.raiseFlagsOf_hostCopies (s : State) (c e x n : Nat) : (s.raiseFlagsOf c e x n).hostCopies = s.hostCopies := rfl
@[simp] theorem State.raiseFlagsOf_servedNow (s : State) (c e x n : Nat) : (s.raiseFlagsOf c e x n).servedNow = s.servedNow := rfl
@[simp] theorem State.raiseFlagsOf_nextId (s : State) (c e x n : Nat) : (s.raiseFlagsOf c e x n).nextId = s.nextId := rfl
@[simp] theorem State.raiseFlagsOf_hostValue (s : State) (c e x n : Nat) : (s.raiseFlagsOf c e x n).hostValue = s.hostValue := rfl
@[simp] theorem State.raiseFlagsOf_cur (s : State) (c e x n : Nat) : (s.raiseFlagsOf c e x n).cur = s.cur := rfl
@[simp] theorem State.raiseFlagsOf_env (s : State) (c e x n : Nat) : (s.raiseFlagsOf c e x n).env = s.env := rfl

/-! raiseFlags -/
@[simp] theorem State.raiseFlags_mem (s : State) (n : Nat) : (s.raiseFlags n).mem = s.mem := rfl
@[simp] theorem State.raiseFlags_census (s : State) (n : Nat) : (s.raiseFlags n).census = s.census := rfl
@[simp] theorem State.raiseFlags_accs (s : State) (n : Nat) : (s.raiseFlags n).accs = s.accs := rfl
@[simp] theorem State.raiseFlags_fences (s : State) (n : Nat) : (s.raiseFlags n).fences = s.fences := rfl
@[simp] theorem State.raiseFlags_invs (s : State) (n : Nat) : (s.raiseFlags n).invs = s.invs := rfl
@[simp] theorem State.raiseFlags_mwops (s : State) (n : Nat) : (s.raiseFlags n).mwops = s.mwops := rfl
@[simp] theorem State.raiseFlags_locks (s : State) (n : Nat) : (s.raiseFlags n).locks = s.locks := rfl
@[simp] theorem State.raiseFlags_watches (s : State) (n : Nat) : (s.raiseFlags n).watches = s.watches := rfl
@[simp] theorem State.raiseFlags_arrivals (s : State) (n : Nat) : (s.raiseFlags n).arrivals = s.arrivals := rfl
@[simp] theorem State.raiseFlags_dir (s : State) (n : Nat) : (s.raiseFlags n).dir = s.dir := rfl
@[simp] theorem State.raiseFlags_recalls (s : State) (n : Nat) : (s.raiseFlags n).recalls = s.recalls := rfl
@[simp] theorem State.raiseFlags_sliceLines (s : State) (n : Nat) : (s.raiseFlags n).sliceLines = s.sliceLines := rfl
@[simp] theorem State.raiseFlags_plru (s : State) (n : Nat) : (s.raiseFlags n).plru = s.plru := rfl
@[simp] theorem State.raiseFlags_merges (s : State) (n : Nat) : (s.raiseFlags n).merges = s.merges := rfl
@[simp] theorem State.raiseFlags_flights (s : State) (n : Nat) : (s.raiseFlags n).flights = s.flights := rfl
@[simp] theorem State.raiseFlags_grants (s : State) (n : Nat) : (s.raiseFlags n).grants = s.grants := rfl
@[simp] theorem State.raiseFlags_queues (s : State) (n : Nat) : (s.raiseFlags n).queues = s.queues := rfl
@[simp] theorem State.raiseFlags_launches (s : State) (n : Nat) : (s.raiseFlags n).launches = s.launches := rfl
@[simp] theorem State.raiseFlags_regions (s : State) (n : Nat) : (s.raiseFlags n).regions = s.regions := rfl
@[simp] theorem State.raiseFlags_saved (s : State) (n : Nat) : (s.raiseFlags n).saved = s.saved := rfl
@[simp] theorem State.raiseFlags_images (s : State) (n : Nat) : (s.raiseFlags n).images = s.images := rfl
@[simp] theorem State.raiseFlags_draftlds (s : State) (n : Nat) : (s.raiseFlags n).draftlds = s.draftlds := rfl
@[simp] theorem State.raiseFlags_streams (s : State) (n : Nat) : (s.raiseFlags n).streams = s.streams := rfl
@[simp] theorem State.raiseFlags_closes (s : State) (n : Nat) : (s.raiseFlags n).closes = s.closes := rfl
@[simp] theorem State.raiseFlags_colls (s : State) (n : Nat) : (s.raiseFlags n).colls = s.colls := rfl
@[simp] theorem State.raiseFlags_traversals (s : State) (n : Nat) : (s.raiseFlags n).traversals = s.traversals := rfl
@[simp] theorem State.raiseFlags_walks (s : State) (n : Nat) : (s.raiseFlags n).walks = s.walks := rfl
@[simp] theorem State.raiseFlags_dies (s : State) (n : Nat) : (s.raiseFlags n).dies = s.dies := rfl
@[simp] theorem State.raiseFlags_lqueues (s : State) (n : Nat) : (s.raiseFlags n).lqueues = s.lqueues := rfl
@[simp] theorem State.raiseFlags_mig (s : State) (n : Nat) : (s.raiseFlags n).mig = s.mig := rfl
@[simp] theorem State.raiseFlags_hub (s : State) (n : Nat) : (s.raiseFlags n).hub = s.hub := rfl
@[simp] theorem State.raiseFlags_sched (s : State) (n : Nat) : (s.raiseFlags n).sched = s.sched := rfl
@[simp] theorem State.raiseFlags_time (s : State) (n : Nat) : (s.raiseFlags n).time = s.time := rfl
@[simp] theorem State.raiseFlags_persistNext (s : State) (n : Nat) : (s.raiseFlags n).persistNext = s.persistNext := rfl
@[simp] theorem State.raiseFlags_upsets (s : State) (n : Nat) : (s.raiseFlags n).upsets = s.upsets := rfl
@[simp] theorem State.raiseFlags_hostCopies (s : State) (n : Nat) : (s.raiseFlags n).hostCopies = s.hostCopies := rfl
@[simp] theorem State.raiseFlags_servedNow (s : State) (n : Nat) : (s.raiseFlags n).servedNow = s.servedNow := rfl
@[simp] theorem State.raiseFlags_nextId (s : State) (n : Nat) : (s.raiseFlags n).nextId = s.nextId := rfl
@[simp] theorem State.raiseFlags_hostValue (s : State) (n : Nat) : (s.raiseFlags n).hostValue = s.hostValue := rfl
@[simp] theorem State.raiseFlags_cur (s : State) (n : Nat) : (s.raiseFlags n).cur = s.cur := rfl
@[simp] theorem State.raiseFlags_env (s : State) (n : Nat) : (s.raiseFlags n).env = s.env := rfl

/-! putPair -/
@[simp] theorem State.putPair_mem (s : State) (n : Nat) (f : Nat → BitVec 64) : (s.putPair n f).mem = s.mem := rfl
@[simp] theorem State.putPair_census (s : State) (n : Nat) (f : Nat → BitVec 64) : (s.putPair n f).census = s.census := rfl
@[simp] theorem State.putPair_accs (s : State) (n : Nat) (f : Nat → BitVec 64) : (s.putPair n f).accs = s.accs := rfl
@[simp] theorem State.putPair_fences (s : State) (n : Nat) (f : Nat → BitVec 64) : (s.putPair n f).fences = s.fences := rfl
@[simp] theorem State.putPair_invs (s : State) (n : Nat) (f : Nat → BitVec 64) : (s.putPair n f).invs = s.invs := rfl
@[simp] theorem State.putPair_mwops (s : State) (n : Nat) (f : Nat → BitVec 64) : (s.putPair n f).mwops = s.mwops := rfl
@[simp] theorem State.putPair_locks (s : State) (n : Nat) (f : Nat → BitVec 64) : (s.putPair n f).locks = s.locks := rfl
@[simp] theorem State.putPair_watches (s : State) (n : Nat) (f : Nat → BitVec 64) : (s.putPair n f).watches = s.watches := rfl
@[simp] theorem State.putPair_arrivals (s : State) (n : Nat) (f : Nat → BitVec 64) : (s.putPair n f).arrivals = s.arrivals := rfl
@[simp] theorem State.putPair_dir (s : State) (n : Nat) (f : Nat → BitVec 64) : (s.putPair n f).dir = s.dir := rfl
@[simp] theorem State.putPair_recalls (s : State) (n : Nat) (f : Nat → BitVec 64) : (s.putPair n f).recalls = s.recalls := rfl
@[simp] theorem State.putPair_sliceLines (s : State) (n : Nat) (f : Nat → BitVec 64) : (s.putPair n f).sliceLines = s.sliceLines := rfl
@[simp] theorem State.putPair_plru (s : State) (n : Nat) (f : Nat → BitVec 64) : (s.putPair n f).plru = s.plru := rfl
@[simp] theorem State.putPair_merges (s : State) (n : Nat) (f : Nat → BitVec 64) : (s.putPair n f).merges = s.merges := rfl
@[simp] theorem State.putPair_flights (s : State) (n : Nat) (f : Nat → BitVec 64) : (s.putPair n f).flights = s.flights := rfl
@[simp] theorem State.putPair_grants (s : State) (n : Nat) (f : Nat → BitVec 64) : (s.putPair n f).grants = s.grants := rfl
@[simp] theorem State.putPair_queues (s : State) (n : Nat) (f : Nat → BitVec 64) : (s.putPair n f).queues = s.queues := rfl
@[simp] theorem State.putPair_launches (s : State) (n : Nat) (f : Nat → BitVec 64) : (s.putPair n f).launches = s.launches := rfl
@[simp] theorem State.putPair_regions (s : State) (n : Nat) (f : Nat → BitVec 64) : (s.putPair n f).regions = s.regions := rfl
@[simp] theorem State.putPair_saved (s : State) (n : Nat) (f : Nat → BitVec 64) : (s.putPair n f).saved = s.saved := rfl
@[simp] theorem State.putPair_images (s : State) (n : Nat) (f : Nat → BitVec 64) : (s.putPair n f).images = s.images := rfl
@[simp] theorem State.putPair_draftlds (s : State) (n : Nat) (f : Nat → BitVec 64) : (s.putPair n f).draftlds = s.draftlds := rfl
@[simp] theorem State.putPair_streams (s : State) (n : Nat) (f : Nat → BitVec 64) : (s.putPair n f).streams = s.streams := rfl
@[simp] theorem State.putPair_closes (s : State) (n : Nat) (f : Nat → BitVec 64) : (s.putPair n f).closes = s.closes := rfl
@[simp] theorem State.putPair_colls (s : State) (n : Nat) (f : Nat → BitVec 64) : (s.putPair n f).colls = s.colls := rfl
@[simp] theorem State.putPair_traversals (s : State) (n : Nat) (f : Nat → BitVec 64) : (s.putPair n f).traversals = s.traversals := rfl
@[simp] theorem State.putPair_walks (s : State) (n : Nat) (f : Nat → BitVec 64) : (s.putPair n f).walks = s.walks := rfl
@[simp] theorem State.putPair_dies (s : State) (n : Nat) (f : Nat → BitVec 64) : (s.putPair n f).dies = s.dies := rfl
@[simp] theorem State.putPair_lqueues (s : State) (n : Nat) (f : Nat → BitVec 64) : (s.putPair n f).lqueues = s.lqueues := rfl
@[simp] theorem State.putPair_mig (s : State) (n : Nat) (f : Nat → BitVec 64) : (s.putPair n f).mig = s.mig := rfl
@[simp] theorem State.putPair_hub (s : State) (n : Nat) (f : Nat → BitVec 64) : (s.putPair n f).hub = s.hub := rfl
@[simp] theorem State.putPair_sched (s : State) (n : Nat) (f : Nat → BitVec 64) : (s.putPair n f).sched = s.sched := rfl
@[simp] theorem State.putPair_time (s : State) (n : Nat) (f : Nat → BitVec 64) : (s.putPair n f).time = s.time := rfl
@[simp] theorem State.putPair_persistNext (s : State) (n : Nat) (f : Nat → BitVec 64) : (s.putPair n f).persistNext = s.persistNext := rfl
@[simp] theorem State.putPair_upsets (s : State) (n : Nat) (f : Nat → BitVec 64) : (s.putPair n f).upsets = s.upsets := rfl
@[simp] theorem State.putPair_hostCopies (s : State) (n : Nat) (f : Nat → BitVec 64) : (s.putPair n f).hostCopies = s.hostCopies := rfl
@[simp] theorem State.putPair_servedNow (s : State) (n : Nat) (f : Nat → BitVec 64) : (s.putPair n f).servedNow = s.servedNow := rfl
@[simp] theorem State.putPair_nextId (s : State) (n : Nat) (f : Nat → BitVec 64) : (s.putPair n f).nextId = s.nextId := rfl
@[simp] theorem State.putPair_hostValue (s : State) (n : Nat) (f : Nat → BitVec 64) : (s.putPair n f).hostValue = s.hostValue := rfl
@[simp] theorem State.putPair_cur (s : State) (n : Nat) (f : Nat → BitVec 64) : (s.putPair n f).cur = s.cur := rfl
@[simp] theorem State.putPair_env (s : State) (n : Nat) (f : Nat → BitVec 64) : (s.putPair n f).env = s.env := rfl

/-! charge -/
@[simp] theorem State.charge_mem (s : State) (k : Option Seat) (n : Int) : (s.charge k n).mem = s.mem := by
  cases k <;> rfl
@[simp] theorem State.charge_cells (s : State) (k : Option Seat) (n : Int) : (s.charge k n).cells = s.cells := by
  cases k <;> rfl
@[simp] theorem State.charge_accs (s : State) (k : Option Seat) (n : Int) : (s.charge k n).accs = s.accs := by
  cases k <;> rfl
@[simp] theorem State.charge_fences (s : State) (k : Option Seat) (n : Int) : (s.charge k n).fences = s.fences := by
  cases k <;> rfl
@[simp] theorem State.charge_invs (s : State) (k : Option Seat) (n : Int) : (s.charge k n).invs = s.invs := by
  cases k <;> rfl
@[simp] theorem State.charge_mwops (s : State) (k : Option Seat) (n : Int) : (s.charge k n).mwops = s.mwops := by
  cases k <;> rfl
@[simp] theorem State.charge_locks (s : State) (k : Option Seat) (n : Int) : (s.charge k n).locks = s.locks := by
  cases k <;> rfl
@[simp] theorem State.charge_watches (s : State) (k : Option Seat) (n : Int) : (s.charge k n).watches = s.watches := by
  cases k <;> rfl
@[simp] theorem State.charge_arrivals (s : State) (k : Option Seat) (n : Int) : (s.charge k n).arrivals = s.arrivals := by
  cases k <;> rfl
@[simp] theorem State.charge_dir (s : State) (k : Option Seat) (n : Int) : (s.charge k n).dir = s.dir := by
  cases k <;> rfl
@[simp] theorem State.charge_recalls (s : State) (k : Option Seat) (n : Int) : (s.charge k n).recalls = s.recalls := by
  cases k <;> rfl
@[simp] theorem State.charge_sliceLines (s : State) (k : Option Seat) (n : Int) : (s.charge k n).sliceLines = s.sliceLines := by
  cases k <;> rfl
@[simp] theorem State.charge_plru (s : State) (k : Option Seat) (n : Int) : (s.charge k n).plru = s.plru := by
  cases k <;> rfl
@[simp] theorem State.charge_merges (s : State) (k : Option Seat) (n : Int) : (s.charge k n).merges = s.merges := by
  cases k <;> rfl
@[simp] theorem State.charge_flights (s : State) (k : Option Seat) (n : Int) : (s.charge k n).flights = s.flights := by
  cases k <;> rfl
@[simp] theorem State.charge_grants (s : State) (k : Option Seat) (n : Int) : (s.charge k n).grants = s.grants := by
  cases k <;> rfl
@[simp] theorem State.charge_queues (s : State) (k : Option Seat) (n : Int) : (s.charge k n).queues = s.queues := by
  cases k <;> rfl
@[simp] theorem State.charge_launches (s : State) (k : Option Seat) (n : Int) : (s.charge k n).launches = s.launches := by
  cases k <;> rfl
@[simp] theorem State.charge_regions (s : State) (k : Option Seat) (n : Int) : (s.charge k n).regions = s.regions := by
  cases k <;> rfl
@[simp] theorem State.charge_saved (s : State) (k : Option Seat) (n : Int) : (s.charge k n).saved = s.saved := by
  cases k <;> rfl
@[simp] theorem State.charge_images (s : State) (k : Option Seat) (n : Int) : (s.charge k n).images = s.images := by
  cases k <;> rfl
@[simp] theorem State.charge_draftlds (s : State) (k : Option Seat) (n : Int) : (s.charge k n).draftlds = s.draftlds := by
  cases k <;> rfl
@[simp] theorem State.charge_streams (s : State) (k : Option Seat) (n : Int) : (s.charge k n).streams = s.streams := by
  cases k <;> rfl
@[simp] theorem State.charge_closes (s : State) (k : Option Seat) (n : Int) : (s.charge k n).closes = s.closes := by
  cases k <;> rfl
@[simp] theorem State.charge_colls (s : State) (k : Option Seat) (n : Int) : (s.charge k n).colls = s.colls := by
  cases k <;> rfl
@[simp] theorem State.charge_traversals (s : State) (k : Option Seat) (n : Int) : (s.charge k n).traversals = s.traversals := by
  cases k <;> rfl
@[simp] theorem State.charge_walks (s : State) (k : Option Seat) (n : Int) : (s.charge k n).walks = s.walks := by
  cases k <;> rfl
@[simp] theorem State.charge_dies (s : State) (k : Option Seat) (n : Int) : (s.charge k n).dies = s.dies := by
  cases k <;> rfl
@[simp] theorem State.charge_lqueues (s : State) (k : Option Seat) (n : Int) : (s.charge k n).lqueues = s.lqueues := by
  cases k <;> rfl
@[simp] theorem State.charge_mig (s : State) (k : Option Seat) (n : Int) : (s.charge k n).mig = s.mig := by
  cases k <;> rfl
@[simp] theorem State.charge_hub (s : State) (k : Option Seat) (n : Int) : (s.charge k n).hub = s.hub := by
  cases k <;> rfl
@[simp] theorem State.charge_sched (s : State) (k : Option Seat) (n : Int) : (s.charge k n).sched = s.sched := by
  cases k <;> rfl
@[simp] theorem State.charge_time (s : State) (k : Option Seat) (n : Int) : (s.charge k n).time = s.time := by
  cases k <;> rfl
@[simp] theorem State.charge_persistNext (s : State) (k : Option Seat) (n : Int) : (s.charge k n).persistNext = s.persistNext := by
  cases k <;> rfl
@[simp] theorem State.charge_upsets (s : State) (k : Option Seat) (n : Int) : (s.charge k n).upsets = s.upsets := by
  cases k <;> rfl
@[simp] theorem State.charge_hostCopies (s : State) (k : Option Seat) (n : Int) : (s.charge k n).hostCopies = s.hostCopies := by
  cases k <;> rfl
@[simp] theorem State.charge_servedNow (s : State) (k : Option Seat) (n : Int) : (s.charge k n).servedNow = s.servedNow := by
  cases k <;> rfl
@[simp] theorem State.charge_nextId (s : State) (k : Option Seat) (n : Int) : (s.charge k n).nextId = s.nextId := by
  cases k <;> rfl
@[simp] theorem State.charge_hostValue (s : State) (k : Option Seat) (n : Int) : (s.charge k n).hostValue = s.hostValue := by
  cases k <;> rfl
@[simp] theorem State.charge_cur (s : State) (k : Option Seat) (n : Int) : (s.charge k n).cur = s.cur := by
  cases k <;> rfl
@[simp] theorem State.charge_env (s : State) (k : Option Seat) (n : Int) : (s.charge k n).env = s.env := by
  cases k <;> rfl

/-! setArc -/
@[simp] theorem State.setArc_mem (s : State) (c e x : Nat) (k : Option Nat) : (s.setArc c e x k).mem = s.mem := by
  cases k <;> rfl
@[simp] theorem State.setArc_census (s : State) (c e x : Nat) (k : Option Nat) : (s.setArc c e x k).census = s.census := by
  cases k <;> rfl
@[simp] theorem State.setArc_accs (s : State) (c e x : Nat) (k : Option Nat) : (s.setArc c e x k).accs = s.accs := by
  cases k <;> rfl
@[simp] theorem State.setArc_fences (s : State) (c e x : Nat) (k : Option Nat) : (s.setArc c e x k).fences = s.fences := by
  cases k <;> rfl
@[simp] theorem State.setArc_invs (s : State) (c e x : Nat) (k : Option Nat) : (s.setArc c e x k).invs = s.invs := by
  cases k <;> rfl
@[simp] theorem State.setArc_mwops (s : State) (c e x : Nat) (k : Option Nat) : (s.setArc c e x k).mwops = s.mwops := by
  cases k <;> rfl
@[simp] theorem State.setArc_locks (s : State) (c e x : Nat) (k : Option Nat) : (s.setArc c e x k).locks = s.locks := by
  cases k <;> rfl
@[simp] theorem State.setArc_watches (s : State) (c e x : Nat) (k : Option Nat) : (s.setArc c e x k).watches = s.watches := by
  cases k <;> rfl
@[simp] theorem State.setArc_arrivals (s : State) (c e x : Nat) (k : Option Nat) : (s.setArc c e x k).arrivals = s.arrivals := by
  cases k <;> rfl
@[simp] theorem State.setArc_dir (s : State) (c e x : Nat) (k : Option Nat) : (s.setArc c e x k).dir = s.dir := by
  cases k <;> rfl
@[simp] theorem State.setArc_recalls (s : State) (c e x : Nat) (k : Option Nat) : (s.setArc c e x k).recalls = s.recalls := by
  cases k <;> rfl
@[simp] theorem State.setArc_sliceLines (s : State) (c e x : Nat) (k : Option Nat) : (s.setArc c e x k).sliceLines = s.sliceLines := by
  cases k <;> rfl
@[simp] theorem State.setArc_plru (s : State) (c e x : Nat) (k : Option Nat) : (s.setArc c e x k).plru = s.plru := by
  cases k <;> rfl
@[simp] theorem State.setArc_merges (s : State) (c e x : Nat) (k : Option Nat) : (s.setArc c e x k).merges = s.merges := by
  cases k <;> rfl
@[simp] theorem State.setArc_flights (s : State) (c e x : Nat) (k : Option Nat) : (s.setArc c e x k).flights = s.flights := by
  cases k <;> rfl
@[simp] theorem State.setArc_grants (s : State) (c e x : Nat) (k : Option Nat) : (s.setArc c e x k).grants = s.grants := by
  cases k <;> rfl
@[simp] theorem State.setArc_queues (s : State) (c e x : Nat) (k : Option Nat) : (s.setArc c e x k).queues = s.queues := by
  cases k <;> rfl
@[simp] theorem State.setArc_launches (s : State) (c e x : Nat) (k : Option Nat) : (s.setArc c e x k).launches = s.launches := by
  cases k <;> rfl
@[simp] theorem State.setArc_regions (s : State) (c e x : Nat) (k : Option Nat) : (s.setArc c e x k).regions = s.regions := by
  cases k <;> rfl
@[simp] theorem State.setArc_saved (s : State) (c e x : Nat) (k : Option Nat) : (s.setArc c e x k).saved = s.saved := by
  cases k <;> rfl
@[simp] theorem State.setArc_images (s : State) (c e x : Nat) (k : Option Nat) : (s.setArc c e x k).images = s.images := by
  cases k <;> rfl
@[simp] theorem State.setArc_draftlds (s : State) (c e x : Nat) (k : Option Nat) : (s.setArc c e x k).draftlds = s.draftlds := by
  cases k <;> rfl
@[simp] theorem State.setArc_streams (s : State) (c e x : Nat) (k : Option Nat) : (s.setArc c e x k).streams = s.streams := by
  cases k <;> rfl
@[simp] theorem State.setArc_closes (s : State) (c e x : Nat) (k : Option Nat) : (s.setArc c e x k).closes = s.closes := by
  cases k <;> rfl
@[simp] theorem State.setArc_colls (s : State) (c e x : Nat) (k : Option Nat) : (s.setArc c e x k).colls = s.colls := by
  cases k <;> rfl
@[simp] theorem State.setArc_traversals (s : State) (c e x : Nat) (k : Option Nat) : (s.setArc c e x k).traversals = s.traversals := by
  cases k <;> rfl
@[simp] theorem State.setArc_walks (s : State) (c e x : Nat) (k : Option Nat) : (s.setArc c e x k).walks = s.walks := by
  cases k <;> rfl
@[simp] theorem State.setArc_dies (s : State) (c e x : Nat) (k : Option Nat) : (s.setArc c e x k).dies = s.dies := by
  cases k <;> rfl
@[simp] theorem State.setArc_lqueues (s : State) (c e x : Nat) (k : Option Nat) : (s.setArc c e x k).lqueues = s.lqueues := by
  cases k <;> rfl
@[simp] theorem State.setArc_mig (s : State) (c e x : Nat) (k : Option Nat) : (s.setArc c e x k).mig = s.mig := by
  cases k <;> rfl
@[simp] theorem State.setArc_hub (s : State) (c e x : Nat) (k : Option Nat) : (s.setArc c e x k).hub = s.hub := by
  cases k <;> rfl
@[simp] theorem State.setArc_sched (s : State) (c e x : Nat) (k : Option Nat) : (s.setArc c e x k).sched = s.sched := by
  cases k <;> rfl
@[simp] theorem State.setArc_time (s : State) (c e x : Nat) (k : Option Nat) : (s.setArc c e x k).time = s.time := by
  cases k <;> rfl
@[simp] theorem State.setArc_persistNext (s : State) (c e x : Nat) (k : Option Nat) : (s.setArc c e x k).persistNext = s.persistNext := by
  cases k <;> rfl
@[simp] theorem State.setArc_upsets (s : State) (c e x : Nat) (k : Option Nat) : (s.setArc c e x k).upsets = s.upsets := by
  cases k <;> rfl
@[simp] theorem State.setArc_hostCopies (s : State) (c e x : Nat) (k : Option Nat) : (s.setArc c e x k).hostCopies = s.hostCopies := by
  cases k <;> rfl
@[simp] theorem State.setArc_servedNow (s : State) (c e x : Nat) (k : Option Nat) : (s.setArc c e x k).servedNow = s.servedNow := by
  cases k <;> rfl
@[simp] theorem State.setArc_nextId (s : State) (c e x : Nat) (k : Option Nat) : (s.setArc c e x k).nextId = s.nextId := by
  cases k <;> rfl
@[simp] theorem State.setArc_hostValue (s : State) (c e x : Nat) (k : Option Nat) : (s.setArc c e x k).hostValue = s.hostValue := by
  cases k <;> rfl
@[simp] theorem State.setArc_cur (s : State) (c e x : Nat) (k : Option Nat) : (s.setArc c e x k).cur = s.cur := by
  cases k <;> rfl
@[simp] theorem State.setArc_env (s : State) (c e x : Nat) (k : Option Nat) : (s.setArc c e x k).env = s.env := by
  cases k <;> rfl

/-! requestOut -/
@[simp] theorem State.requestOut_mem (s : State) (c e n : Nat) : (s.requestOut c e n).mem = s.mem := by
  unfold State.requestOut; split <;> rfl
@[simp] theorem State.requestOut_census (s : State) (c e n : Nat) : (s.requestOut c e n).census = s.census := by
  unfold State.requestOut; split <;> rfl
@[simp] theorem State.requestOut_accs (s : State) (c e n : Nat) : (s.requestOut c e n).accs = s.accs := by
  unfold State.requestOut; split <;> rfl
@[simp] theorem State.requestOut_fences (s : State) (c e n : Nat) : (s.requestOut c e n).fences = s.fences := by
  unfold State.requestOut; split <;> rfl
@[simp] theorem State.requestOut_invs (s : State) (c e n : Nat) : (s.requestOut c e n).invs = s.invs := by
  unfold State.requestOut; split <;> rfl
@[simp] theorem State.requestOut_mwops (s : State) (c e n : Nat) : (s.requestOut c e n).mwops = s.mwops := by
  unfold State.requestOut; split <;> rfl
@[simp] theorem State.requestOut_locks (s : State) (c e n : Nat) : (s.requestOut c e n).locks = s.locks := by
  unfold State.requestOut; split <;> rfl
@[simp] theorem State.requestOut_watches (s : State) (c e n : Nat) : (s.requestOut c e n).watches = s.watches := by
  unfold State.requestOut; split <;> rfl
@[simp] theorem State.requestOut_arrivals (s : State) (c e n : Nat) : (s.requestOut c e n).arrivals = s.arrivals := by
  unfold State.requestOut; split <;> rfl
@[simp] theorem State.requestOut_dir (s : State) (c e n : Nat) : (s.requestOut c e n).dir = s.dir := by
  unfold State.requestOut; split <;> rfl
@[simp] theorem State.requestOut_recalls (s : State) (c e n : Nat) : (s.requestOut c e n).recalls = s.recalls := by
  unfold State.requestOut; split <;> rfl
@[simp] theorem State.requestOut_sliceLines (s : State) (c e n : Nat) : (s.requestOut c e n).sliceLines = s.sliceLines := by
  unfold State.requestOut; split <;> rfl
@[simp] theorem State.requestOut_plru (s : State) (c e n : Nat) : (s.requestOut c e n).plru = s.plru := by
  unfold State.requestOut; split <;> rfl
@[simp] theorem State.requestOut_merges (s : State) (c e n : Nat) : (s.requestOut c e n).merges = s.merges := by
  unfold State.requestOut; split <;> rfl
@[simp] theorem State.requestOut_flights (s : State) (c e n : Nat) : (s.requestOut c e n).flights = s.flights := by
  unfold State.requestOut; split <;> rfl
@[simp] theorem State.requestOut_queues (s : State) (c e n : Nat) : (s.requestOut c e n).queues = s.queues := by
  unfold State.requestOut; split <;> rfl
@[simp] theorem State.requestOut_launches (s : State) (c e n : Nat) : (s.requestOut c e n).launches = s.launches := by
  unfold State.requestOut; split <;> rfl
@[simp] theorem State.requestOut_regions (s : State) (c e n : Nat) : (s.requestOut c e n).regions = s.regions := by
  unfold State.requestOut; split <;> rfl
@[simp] theorem State.requestOut_saved (s : State) (c e n : Nat) : (s.requestOut c e n).saved = s.saved := by
  unfold State.requestOut; split <;> rfl
@[simp] theorem State.requestOut_images (s : State) (c e n : Nat) : (s.requestOut c e n).images = s.images := by
  unfold State.requestOut; split <;> rfl
@[simp] theorem State.requestOut_draftlds (s : State) (c e n : Nat) : (s.requestOut c e n).draftlds = s.draftlds := by
  unfold State.requestOut; split <;> rfl
@[simp] theorem State.requestOut_streams (s : State) (c e n : Nat) : (s.requestOut c e n).streams = s.streams := by
  unfold State.requestOut; split <;> rfl
@[simp] theorem State.requestOut_closes (s : State) (c e n : Nat) : (s.requestOut c e n).closes = s.closes := by
  unfold State.requestOut; split <;> rfl
@[simp] theorem State.requestOut_colls (s : State) (c e n : Nat) : (s.requestOut c e n).colls = s.colls := by
  unfold State.requestOut; split <;> rfl
@[simp] theorem State.requestOut_traversals (s : State) (c e n : Nat) : (s.requestOut c e n).traversals = s.traversals := by
  unfold State.requestOut; split <;> rfl
@[simp] theorem State.requestOut_walks (s : State) (c e n : Nat) : (s.requestOut c e n).walks = s.walks := by
  unfold State.requestOut; split <;> rfl
@[simp] theorem State.requestOut_dies (s : State) (c e n : Nat) : (s.requestOut c e n).dies = s.dies := by
  unfold State.requestOut; split <;> rfl
@[simp] theorem State.requestOut_lqueues (s : State) (c e n : Nat) : (s.requestOut c e n).lqueues = s.lqueues := by
  unfold State.requestOut; split <;> rfl
@[simp] theorem State.requestOut_mig (s : State) (c e n : Nat) : (s.requestOut c e n).mig = s.mig := by
  unfold State.requestOut; split <;> rfl
@[simp] theorem State.requestOut_hub (s : State) (c e n : Nat) : (s.requestOut c e n).hub = s.hub := by
  unfold State.requestOut; split <;> rfl
@[simp] theorem State.requestOut_sched (s : State) (c e n : Nat) : (s.requestOut c e n).sched = s.sched := by
  unfold State.requestOut; split <;> rfl
@[simp] theorem State.requestOut_time (s : State) (c e n : Nat) : (s.requestOut c e n).time = s.time := by
  unfold State.requestOut; split <;> rfl
@[simp] theorem State.requestOut_persistNext (s : State) (c e n : Nat) : (s.requestOut c e n).persistNext = s.persistNext := by
  unfold State.requestOut; split <;> rfl
@[simp] theorem State.requestOut_upsets (s : State) (c e n : Nat) : (s.requestOut c e n).upsets = s.upsets := by
  unfold State.requestOut; split <;> rfl
@[simp] theorem State.requestOut_hostCopies (s : State) (c e n : Nat) : (s.requestOut c e n).hostCopies = s.hostCopies := by
  unfold State.requestOut; split <;> rfl
@[simp] theorem State.requestOut_servedNow (s : State) (c e n : Nat) : (s.requestOut c e n).servedNow = s.servedNow := by
  unfold State.requestOut; split <;> rfl
@[simp] theorem State.requestOut_hostValue (s : State) (c e n : Nat) : (s.requestOut c e n).hostValue = s.hostValue := by
  unfold State.requestOut; split <;> rfl
@[simp] theorem State.requestOut_cur (s : State) (c e n : Nat) : (s.requestOut c e n).cur = s.cur := by
  unfold State.requestOut; split <;> rfl
@[simp] theorem State.requestOut_env (s : State) (c e n : Nat) : (s.requestOut c e n).env = s.env := by
  unfold State.requestOut; split <;> rfl

/-! popped -/
@[simp] theorem State.popped_mem (s : State) (k : Token) : (s.popped k).mem = s.mem := by
  unfold State.popped; split <;> simp
@[simp] theorem State.popped_cells (s : State) (k : Token) : (s.popped k).cells = s.cells := by
  unfold State.popped; split <;> simp
@[simp] theorem State.popped_accs (s : State) (k : Token) : (s.popped k).accs = s.accs := by
  unfold State.popped; split <;> simp
@[simp] theorem State.popped_fences (s : State) (k : Token) : (s.popped k).fences = s.fences := by
  unfold State.popped; split <;> simp
@[simp] theorem State.popped_invs (s : State) (k : Token) : (s.popped k).invs = s.invs := by
  unfold State.popped; split <;> simp
@[simp] theorem State.popped_mwops (s : State) (k : Token) : (s.popped k).mwops = s.mwops := by
  unfold State.popped; split <;> simp
@[simp] theorem State.popped_locks (s : State) (k : Token) : (s.popped k).locks = s.locks := by
  unfold State.popped; split <;> simp
@[simp] theorem State.popped_watches (s : State) (k : Token) : (s.popped k).watches = s.watches := by
  unfold State.popped; split <;> simp
@[simp] theorem State.popped_arrivals (s : State) (k : Token) : (s.popped k).arrivals = s.arrivals := by
  unfold State.popped; split <;> simp
@[simp] theorem State.popped_dir (s : State) (k : Token) : (s.popped k).dir = s.dir := by
  unfold State.popped; split <;> simp
@[simp] theorem State.popped_recalls (s : State) (k : Token) : (s.popped k).recalls = s.recalls := by
  unfold State.popped; split <;> simp
@[simp] theorem State.popped_sliceLines (s : State) (k : Token) : (s.popped k).sliceLines = s.sliceLines := by
  unfold State.popped; split <;> simp
@[simp] theorem State.popped_plru (s : State) (k : Token) : (s.popped k).plru = s.plru := by
  unfold State.popped; split <;> simp
@[simp] theorem State.popped_merges (s : State) (k : Token) : (s.popped k).merges = s.merges := by
  unfold State.popped; split <;> simp
@[simp] theorem State.popped_flights (s : State) (k : Token) : (s.popped k).flights = s.flights := by
  unfold State.popped; split <;> simp
@[simp] theorem State.popped_grants (s : State) (k : Token) : (s.popped k).grants = s.grants := by
  unfold State.popped; split <;> simp
@[simp] theorem State.popped_queues (s : State) (k : Token) : (s.popped k).queues = s.queues := by
  unfold State.popped; split <;> simp
@[simp] theorem State.popped_launches (s : State) (k : Token) : (s.popped k).launches = s.launches := by
  unfold State.popped; split <;> simp
@[simp] theorem State.popped_regions (s : State) (k : Token) : (s.popped k).regions = s.regions := by
  unfold State.popped; split <;> simp
@[simp] theorem State.popped_saved (s : State) (k : Token) : (s.popped k).saved = s.saved := by
  unfold State.popped; split <;> simp
@[simp] theorem State.popped_images (s : State) (k : Token) : (s.popped k).images = s.images := by
  unfold State.popped; split <;> simp
@[simp] theorem State.popped_draftlds (s : State) (k : Token) : (s.popped k).draftlds = s.draftlds := by
  unfold State.popped; split <;> simp
@[simp] theorem State.popped_closes (s : State) (k : Token) : (s.popped k).closes = s.closes := by
  unfold State.popped; split <;> simp
@[simp] theorem State.popped_colls (s : State) (k : Token) : (s.popped k).colls = s.colls := by
  unfold State.popped; split <;> simp
@[simp] theorem State.popped_traversals (s : State) (k : Token) : (s.popped k).traversals = s.traversals := by
  unfold State.popped; split <;> simp
@[simp] theorem State.popped_walks (s : State) (k : Token) : (s.popped k).walks = s.walks := by
  unfold State.popped; split <;> simp
@[simp] theorem State.popped_dies (s : State) (k : Token) : (s.popped k).dies = s.dies := by
  unfold State.popped; split <;> simp
@[simp] theorem State.popped_lqueues (s : State) (k : Token) : (s.popped k).lqueues = s.lqueues := by
  unfold State.popped; split <;> simp
@[simp] theorem State.popped_mig (s : State) (k : Token) : (s.popped k).mig = s.mig := by
  unfold State.popped; split <;> simp
@[simp] theorem State.popped_hub (s : State) (k : Token) : (s.popped k).hub = s.hub := by
  unfold State.popped; split <;> simp
@[simp] theorem State.popped_sched (s : State) (k : Token) : (s.popped k).sched = s.sched := by
  unfold State.popped; split <;> simp
@[simp] theorem State.popped_time (s : State) (k : Token) : (s.popped k).time = s.time := by
  unfold State.popped; split <;> simp
@[simp] theorem State.popped_persistNext (s : State) (k : Token) : (s.popped k).persistNext = s.persistNext := by
  unfold State.popped; split <;> simp
@[simp] theorem State.popped_upsets (s : State) (k : Token) : (s.popped k).upsets = s.upsets := by
  unfold State.popped; split <;> simp
@[simp] theorem State.popped_hostCopies (s : State) (k : Token) : (s.popped k).hostCopies = s.hostCopies := by
  unfold State.popped; split <;> simp
@[simp] theorem State.popped_servedNow (s : State) (k : Token) : (s.popped k).servedNow = s.servedNow := by
  unfold State.popped; split <;> simp
@[simp] theorem State.popped_nextId (s : State) (k : Token) : (s.popped k).nextId = s.nextId := by
  unfold State.popped; split <;> simp
@[simp] theorem State.popped_hostValue (s : State) (k : Token) : (s.popped k).hostValue = s.hostValue := by
  unfold State.popped; split <;> simp
@[simp] theorem State.popped_cur (s : State) (k : Token) : (s.popped k).cur = s.cur := by
  unfold State.popped; split <;> simp
@[simp] theorem State.popped_env (s : State) (k : Token) : (s.popped k).env = s.env := by
  unfold State.popped; split <;> simp

/-! popChan -/
@[simp] theorem State.popChan_mem (s : State) (c e n : Nat) : (s.popChan c e n).mem = s.mem := by
  unfold State.popChan; split <;> simp
@[simp] theorem State.popChan_accs (s : State) (c e n : Nat) : (s.popChan c e n).accs = s.accs := by
  unfold State.popChan; split <;> simp
@[simp] theorem State.popChan_fences (s : State) (c e n : Nat) : (s.popChan c e n).fences = s.fences := by
  unfold State.popChan; split <;> simp
@[simp] theorem State.popChan_invs (s : State) (c e n : Nat) : (s.popChan c e n).invs = s.invs := by
  unfold State.popChan; split <;> simp
@[simp] theorem State.popChan_mwops (s : State) (c e n : Nat) : (s.popChan c e n).mwops = s.mwops := by
  unfold State.popChan; split <;> simp
@[simp] theorem State.popChan_locks (s : State) (c e n : Nat) : (s.popChan c e n).locks = s.locks := by
  unfold State.popChan; split <;> simp
@[simp] theorem State.popChan_watches (s : State) (c e n : Nat) : (s.popChan c e n).watches = s.watches := by
  unfold State.popChan; split <;> simp
@[simp] theorem State.popChan_arrivals (s : State) (c e n : Nat) : (s.popChan c e n).arrivals = s.arrivals := by
  unfold State.popChan; split <;> simp
@[simp] theorem State.popChan_dir (s : State) (c e n : Nat) : (s.popChan c e n).dir = s.dir := by
  unfold State.popChan; split <;> simp
@[simp] theorem State.popChan_recalls (s : State) (c e n : Nat) : (s.popChan c e n).recalls = s.recalls := by
  unfold State.popChan; split <;> simp
@[simp] theorem State.popChan_sliceLines (s : State) (c e n : Nat) : (s.popChan c e n).sliceLines = s.sliceLines := by
  unfold State.popChan; split <;> simp
@[simp] theorem State.popChan_plru (s : State) (c e n : Nat) : (s.popChan c e n).plru = s.plru := by
  unfold State.popChan; split <;> simp
@[simp] theorem State.popChan_merges (s : State) (c e n : Nat) : (s.popChan c e n).merges = s.merges := by
  unfold State.popChan; split <;> simp
@[simp] theorem State.popChan_flights (s : State) (c e n : Nat) : (s.popChan c e n).flights = s.flights := by
  unfold State.popChan; split <;> simp
@[simp] theorem State.popChan_grants (s : State) (c e n : Nat) : (s.popChan c e n).grants = s.grants := by
  unfold State.popChan; split <;> simp
@[simp] theorem State.popChan_queues (s : State) (c e n : Nat) : (s.popChan c e n).queues = s.queues := by
  unfold State.popChan; split <;> simp
@[simp] theorem State.popChan_launches (s : State) (c e n : Nat) : (s.popChan c e n).launches = s.launches := by
  unfold State.popChan; split <;> simp
@[simp] theorem State.popChan_saved (s : State) (c e n : Nat) : (s.popChan c e n).saved = s.saved := by
  unfold State.popChan; split <;> simp
@[simp] theorem State.popChan_images (s : State) (c e n : Nat) : (s.popChan c e n).images = s.images := by
  unfold State.popChan; split <;> simp
@[simp] theorem State.popChan_draftlds (s : State) (c e n : Nat) : (s.popChan c e n).draftlds = s.draftlds := by
  unfold State.popChan; split <;> simp
@[simp] theorem State.popChan_closes (s : State) (c e n : Nat) : (s.popChan c e n).closes = s.closes := by
  unfold State.popChan; split <;> simp
@[simp] theorem State.popChan_colls (s : State) (c e n : Nat) : (s.popChan c e n).colls = s.colls := by
  unfold State.popChan; split <;> simp
@[simp] theorem State.popChan_traversals (s : State) (c e n : Nat) : (s.popChan c e n).traversals = s.traversals := by
  unfold State.popChan; split <;> simp
@[simp] theorem State.popChan_walks (s : State) (c e n : Nat) : (s.popChan c e n).walks = s.walks := by
  unfold State.popChan; split <;> simp
@[simp] theorem State.popChan_dies (s : State) (c e n : Nat) : (s.popChan c e n).dies = s.dies := by
  unfold State.popChan; split <;> simp
@[simp] theorem State.popChan_lqueues (s : State) (c e n : Nat) : (s.popChan c e n).lqueues = s.lqueues := by
  unfold State.popChan; split <;> simp
@[simp] theorem State.popChan_mig (s : State) (c e n : Nat) : (s.popChan c e n).mig = s.mig := by
  unfold State.popChan; split <;> simp
@[simp] theorem State.popChan_hub (s : State) (c e n : Nat) : (s.popChan c e n).hub = s.hub := by
  unfold State.popChan; split <;> simp
@[simp] theorem State.popChan_sched (s : State) (c e n : Nat) : (s.popChan c e n).sched = s.sched := by
  unfold State.popChan; split <;> simp
@[simp] theorem State.popChan_time (s : State) (c e n : Nat) : (s.popChan c e n).time = s.time := by
  unfold State.popChan; split <;> simp
@[simp] theorem State.popChan_persistNext (s : State) (c e n : Nat) : (s.popChan c e n).persistNext = s.persistNext := by
  unfold State.popChan; split <;> simp
@[simp] theorem State.popChan_upsets (s : State) (c e n : Nat) : (s.popChan c e n).upsets = s.upsets := by
  unfold State.popChan; split <;> simp
@[simp] theorem State.popChan_hostCopies (s : State) (c e n : Nat) : (s.popChan c e n).hostCopies = s.hostCopies := by
  unfold State.popChan; split <;> simp
@[simp] theorem State.popChan_servedNow (s : State) (c e n : Nat) : (s.popChan c e n).servedNow = s.servedNow := by
  unfold State.popChan; split <;> simp
@[simp] theorem State.popChan_nextId (s : State) (c e n : Nat) : (s.popChan c e n).nextId = s.nextId := by
  unfold State.popChan; split <;> simp
@[simp] theorem State.popChan_hostValue (s : State) (c e n : Nat) : (s.popChan c e n).hostValue = s.hostValue := by
  unfold State.popChan; split <;> simp
@[simp] theorem State.popChan_cur (s : State) (c e n : Nat) : (s.popChan c e n).cur = s.cur := by
  unfold State.popChan; split <;> simp
@[simp] theorem State.popChan_env (s : State) (c e n : Nat) : (s.popChan c e n).env = s.env := by
  unfold State.popChan; split <;> simp

/-! sendOn -/
@[simp] theorem State.sendOn_mem (s : State) (c e n : Nat) (tag : Word) (ls : Lanes) : (s.sendOn c e n tag ls).mem = s.mem := by
  unfold State.sendOn; dsimp only; split <;> simp
@[simp] theorem State.sendOn_accs (s : State) (c e n : Nat) (tag : Word) (ls : Lanes) : (s.sendOn c e n tag ls).accs = s.accs := by
  unfold State.sendOn; dsimp only; split <;> simp
@[simp] theorem State.sendOn_fences (s : State) (c e n : Nat) (tag : Word) (ls : Lanes) : (s.sendOn c e n tag ls).fences = s.fences := by
  unfold State.sendOn; dsimp only; split <;> simp
@[simp] theorem State.sendOn_invs (s : State) (c e n : Nat) (tag : Word) (ls : Lanes) : (s.sendOn c e n tag ls).invs = s.invs := by
  unfold State.sendOn; dsimp only; split <;> simp
@[simp] theorem State.sendOn_mwops (s : State) (c e n : Nat) (tag : Word) (ls : Lanes) : (s.sendOn c e n tag ls).mwops = s.mwops := by
  unfold State.sendOn; dsimp only; split <;> simp
@[simp] theorem State.sendOn_locks (s : State) (c e n : Nat) (tag : Word) (ls : Lanes) : (s.sendOn c e n tag ls).locks = s.locks := by
  unfold State.sendOn; dsimp only; split <;> simp
@[simp] theorem State.sendOn_watches (s : State) (c e n : Nat) (tag : Word) (ls : Lanes) : (s.sendOn c e n tag ls).watches = s.watches := by
  unfold State.sendOn; dsimp only; split <;> simp
@[simp] theorem State.sendOn_arrivals (s : State) (c e n : Nat) (tag : Word) (ls : Lanes) : (s.sendOn c e n tag ls).arrivals = s.arrivals := by
  unfold State.sendOn; dsimp only; split <;> simp
@[simp] theorem State.sendOn_dir (s : State) (c e n : Nat) (tag : Word) (ls : Lanes) : (s.sendOn c e n tag ls).dir = s.dir := by
  unfold State.sendOn; dsimp only; split <;> simp
@[simp] theorem State.sendOn_recalls (s : State) (c e n : Nat) (tag : Word) (ls : Lanes) : (s.sendOn c e n tag ls).recalls = s.recalls := by
  unfold State.sendOn; dsimp only; split <;> simp
@[simp] theorem State.sendOn_sliceLines (s : State) (c e n : Nat) (tag : Word) (ls : Lanes) : (s.sendOn c e n tag ls).sliceLines = s.sliceLines := by
  unfold State.sendOn; dsimp only; split <;> simp
@[simp] theorem State.sendOn_plru (s : State) (c e n : Nat) (tag : Word) (ls : Lanes) : (s.sendOn c e n tag ls).plru = s.plru := by
  unfold State.sendOn; dsimp only; split <;> simp
@[simp] theorem State.sendOn_merges (s : State) (c e n : Nat) (tag : Word) (ls : Lanes) : (s.sendOn c e n tag ls).merges = s.merges := by
  unfold State.sendOn; dsimp only; split <;> simp
@[simp] theorem State.sendOn_queues (s : State) (c e n : Nat) (tag : Word) (ls : Lanes) : (s.sendOn c e n tag ls).queues = s.queues := by
  unfold State.sendOn; dsimp only; split <;> simp
@[simp] theorem State.sendOn_launches (s : State) (c e n : Nat) (tag : Word) (ls : Lanes) : (s.sendOn c e n tag ls).launches = s.launches := by
  unfold State.sendOn; dsimp only; split <;> simp
@[simp] theorem State.sendOn_saved (s : State) (c e n : Nat) (tag : Word) (ls : Lanes) : (s.sendOn c e n tag ls).saved = s.saved := by
  unfold State.sendOn; dsimp only; split <;> simp
@[simp] theorem State.sendOn_images (s : State) (c e n : Nat) (tag : Word) (ls : Lanes) : (s.sendOn c e n tag ls).images = s.images := by
  unfold State.sendOn; dsimp only; split <;> simp
@[simp] theorem State.sendOn_draftlds (s : State) (c e n : Nat) (tag : Word) (ls : Lanes) : (s.sendOn c e n tag ls).draftlds = s.draftlds := by
  unfold State.sendOn; dsimp only; split <;> simp
@[simp] theorem State.sendOn_streams (s : State) (c e n : Nat) (tag : Word) (ls : Lanes) : (s.sendOn c e n tag ls).streams = s.streams := by
  unfold State.sendOn; dsimp only; split <;> simp
@[simp] theorem State.sendOn_closes (s : State) (c e n : Nat) (tag : Word) (ls : Lanes) : (s.sendOn c e n tag ls).closes = s.closes := by
  unfold State.sendOn; dsimp only; split <;> simp
@[simp] theorem State.sendOn_colls (s : State) (c e n : Nat) (tag : Word) (ls : Lanes) : (s.sendOn c e n tag ls).colls = s.colls := by
  unfold State.sendOn; dsimp only; split <;> simp
@[simp] theorem State.sendOn_traversals (s : State) (c e n : Nat) (tag : Word) (ls : Lanes) : (s.sendOn c e n tag ls).traversals = s.traversals := by
  unfold State.sendOn; dsimp only; split <;> simp
@[simp] theorem State.sendOn_walks (s : State) (c e n : Nat) (tag : Word) (ls : Lanes) : (s.sendOn c e n tag ls).walks = s.walks := by
  unfold State.sendOn; dsimp only; split <;> simp
@[simp] theorem State.sendOn_dies (s : State) (c e n : Nat) (tag : Word) (ls : Lanes) : (s.sendOn c e n tag ls).dies = s.dies := by
  unfold State.sendOn; dsimp only; split <;> simp
@[simp] theorem State.sendOn_lqueues (s : State) (c e n : Nat) (tag : Word) (ls : Lanes) : (s.sendOn c e n tag ls).lqueues = s.lqueues := by
  unfold State.sendOn; dsimp only; split <;> simp
@[simp] theorem State.sendOn_mig (s : State) (c e n : Nat) (tag : Word) (ls : Lanes) : (s.sendOn c e n tag ls).mig = s.mig := by
  unfold State.sendOn; dsimp only; split <;> simp
@[simp] theorem State.sendOn_hub (s : State) (c e n : Nat) (tag : Word) (ls : Lanes) : (s.sendOn c e n tag ls).hub = s.hub := by
  unfold State.sendOn; dsimp only; split <;> simp
@[simp] theorem State.sendOn_sched (s : State) (c e n : Nat) (tag : Word) (ls : Lanes) : (s.sendOn c e n tag ls).sched = s.sched := by
  unfold State.sendOn; dsimp only; split <;> simp
@[simp] theorem State.sendOn_time (s : State) (c e n : Nat) (tag : Word) (ls : Lanes) : (s.sendOn c e n tag ls).time = s.time := by
  unfold State.sendOn; dsimp only; split <;> simp
@[simp] theorem State.sendOn_persistNext (s : State) (c e n : Nat) (tag : Word) (ls : Lanes) : (s.sendOn c e n tag ls).persistNext = s.persistNext := by
  unfold State.sendOn; dsimp only; split <;> simp
@[simp] theorem State.sendOn_upsets (s : State) (c e n : Nat) (tag : Word) (ls : Lanes) : (s.sendOn c e n tag ls).upsets = s.upsets := by
  unfold State.sendOn; dsimp only; split <;> simp
@[simp] theorem State.sendOn_hostCopies (s : State) (c e n : Nat) (tag : Word) (ls : Lanes) : (s.sendOn c e n tag ls).hostCopies = s.hostCopies := by
  unfold State.sendOn; dsimp only; split <;> simp
@[simp] theorem State.sendOn_servedNow (s : State) (c e n : Nat) (tag : Word) (ls : Lanes) : (s.sendOn c e n tag ls).servedNow = s.servedNow := by
  unfold State.sendOn; dsimp only; split <;> simp
@[simp] theorem State.sendOn_hostValue (s : State) (c e n : Nat) (tag : Word) (ls : Lanes) : (s.sendOn c e n tag ls).hostValue = s.hostValue := by
  unfold State.sendOn; dsimp only; split <;> simp
@[simp] theorem State.sendOn_cur (s : State) (c e n : Nat) (tag : Word) (ls : Lanes) : (s.sendOn c e n tag ls).cur = s.cur := by
  unfold State.sendOn; dsimp only; split <;> simp
@[simp] theorem State.sendOn_env (s : State) (c e n : Nat) (tag : Word) (ls : Lanes) : (s.sendOn c e n tag ls).env = s.env := by
  unfold State.sendOn; dsimp only; split <;> simp

/-! effects: the pops one by one, then the context and the census. -/

theorem popAll_field {α : Type} (g : State → α) (h : ∀ (s : State) (c e n : Nat), g (s.popChan c e n) = g s)
    (ns : List Nat) (c e : Nat) (s : State) : g (ns.foldl (fun s n => s.popChan c e n) s) = g s := by
  induction ns generalizing s with
  | nil => rfl
  | cons n ns ih => exact (ih _).trans (h s c e n)
@[simp] theorem State.effects_mem (s : State) (t : Fin 64) : (s.effects t).mem = s.mem := by
  unfold State.effects; dsimp only; split <;> simp [popAll_field State.mem (fun s c e n => State.popChan_mem s c e n)]
@[simp] theorem State.effects_accs (s : State) (t : Fin 64) : (s.effects t).accs = s.accs := by
  unfold State.effects; dsimp only; split <;> simp [popAll_field State.accs (fun s c e n => State.popChan_accs s c e n)]
@[simp] theorem State.effects_fences (s : State) (t : Fin 64) : (s.effects t).fences = s.fences := by
  unfold State.effects; dsimp only; split <;> simp [popAll_field State.fences (fun s c e n => State.popChan_fences s c e n)]
@[simp] theorem State.effects_invs (s : State) (t : Fin 64) : (s.effects t).invs = s.invs := by
  unfold State.effects; dsimp only; split <;> simp [popAll_field State.invs (fun s c e n => State.popChan_invs s c e n)]
@[simp] theorem State.effects_mwops (s : State) (t : Fin 64) : (s.effects t).mwops = s.mwops := by
  unfold State.effects; dsimp only; split <;> simp [popAll_field State.mwops (fun s c e n => State.popChan_mwops s c e n)]
@[simp] theorem State.effects_locks (s : State) (t : Fin 64) : (s.effects t).locks = s.locks := by
  unfold State.effects; dsimp only; split <;> simp [popAll_field State.locks (fun s c e n => State.popChan_locks s c e n)]
@[simp] theorem State.effects_watches (s : State) (t : Fin 64) : (s.effects t).watches = s.watches := by
  unfold State.effects; dsimp only; split <;> simp [popAll_field State.watches (fun s c e n => State.popChan_watches s c e n)]
@[simp] theorem State.effects_arrivals (s : State) (t : Fin 64) : (s.effects t).arrivals = s.arrivals := by
  unfold State.effects; dsimp only; split <;> simp [popAll_field State.arrivals (fun s c e n => State.popChan_arrivals s c e n)]
@[simp] theorem State.effects_dir (s : State) (t : Fin 64) : (s.effects t).dir = s.dir := by
  unfold State.effects; dsimp only; split <;> simp [popAll_field State.dir (fun s c e n => State.popChan_dir s c e n)]
@[simp] theorem State.effects_recalls (s : State) (t : Fin 64) : (s.effects t).recalls = s.recalls := by
  unfold State.effects; dsimp only; split <;> simp [popAll_field State.recalls (fun s c e n => State.popChan_recalls s c e n)]
@[simp] theorem State.effects_sliceLines (s : State) (t : Fin 64) : (s.effects t).sliceLines = s.sliceLines := by
  unfold State.effects; dsimp only; split <;> simp [popAll_field State.sliceLines (fun s c e n => State.popChan_sliceLines s c e n)]
@[simp] theorem State.effects_plru (s : State) (t : Fin 64) : (s.effects t).plru = s.plru := by
  unfold State.effects; dsimp only; split <;> simp [popAll_field State.plru (fun s c e n => State.popChan_plru s c e n)]
@[simp] theorem State.effects_merges (s : State) (t : Fin 64) : (s.effects t).merges = s.merges := by
  unfold State.effects; dsimp only; split <;> simp [popAll_field State.merges (fun s c e n => State.popChan_merges s c e n)]
@[simp] theorem State.effects_flights (s : State) (t : Fin 64) : (s.effects t).flights = s.flights := by
  unfold State.effects; dsimp only; split <;> simp [popAll_field State.flights (fun s c e n => State.popChan_flights s c e n)]
@[simp] theorem State.effects_grants (s : State) (t : Fin 64) : (s.effects t).grants = s.grants := by
  unfold State.effects; dsimp only; split <;> simp [popAll_field State.grants (fun s c e n => State.popChan_grants s c e n)]
@[simp] theorem State.effects_queues (s : State) (t : Fin 64) : (s.effects t).queues = s.queues := by
  unfold State.effects; dsimp only; split <;> simp [popAll_field State.queues (fun s c e n => State.popChan_queues s c e n)]
@[simp] theorem State.effects_launches (s : State) (t : Fin 64) : (s.effects t).launches = s.launches := by
  unfold State.effects; dsimp only; split <;> simp [popAll_field State.launches (fun s c e n => State.popChan_launches s c e n)]
@[simp] theorem State.effects_saved (s : State) (t : Fin 64) : (s.effects t).saved = s.saved := by
  unfold State.effects; dsimp only; split <;> simp [popAll_field State.saved (fun s c e n => State.popChan_saved s c e n)]
@[simp] theorem State.effects_images (s : State) (t : Fin 64) : (s.effects t).images = s.images := by
  unfold State.effects; dsimp only; split <;> simp [popAll_field State.images (fun s c e n => State.popChan_images s c e n)]
@[simp] theorem State.effects_draftlds (s : State) (t : Fin 64) : (s.effects t).draftlds = s.draftlds := by
  unfold State.effects; dsimp only; split <;> simp [popAll_field State.draftlds (fun s c e n => State.popChan_draftlds s c e n)]
@[simp] theorem State.effects_closes (s : State) (t : Fin 64) : (s.effects t).closes = s.closes := by
  unfold State.effects; dsimp only; split <;> simp [popAll_field State.closes (fun s c e n => State.popChan_closes s c e n)]
@[simp] theorem State.effects_colls (s : State) (t : Fin 64) : (s.effects t).colls = s.colls := by
  unfold State.effects; dsimp only; split <;> simp [popAll_field State.colls (fun s c e n => State.popChan_colls s c e n)]
@[simp] theorem State.effects_traversals (s : State) (t : Fin 64) : (s.effects t).traversals = s.traversals := by
  unfold State.effects; dsimp only; split <;> simp [popAll_field State.traversals (fun s c e n => State.popChan_traversals s c e n)]
@[simp] theorem State.effects_walks (s : State) (t : Fin 64) : (s.effects t).walks = s.walks := by
  unfold State.effects; dsimp only; split <;> simp [popAll_field State.walks (fun s c e n => State.popChan_walks s c e n)]
@[simp] theorem State.effects_dies (s : State) (t : Fin 64) : (s.effects t).dies = s.dies := by
  unfold State.effects; dsimp only; split <;> simp [popAll_field State.dies (fun s c e n => State.popChan_dies s c e n)]
@[simp] theorem State.effects_lqueues (s : State) (t : Fin 64) : (s.effects t).lqueues = s.lqueues := by
  unfold State.effects; dsimp only; split <;> simp [popAll_field State.lqueues (fun s c e n => State.popChan_lqueues s c e n)]
@[simp] theorem State.effects_mig (s : State) (t : Fin 64) : (s.effects t).mig = s.mig := by
  unfold State.effects; dsimp only; split <;> simp [popAll_field State.mig (fun s c e n => State.popChan_mig s c e n)]
@[simp] theorem State.effects_hub (s : State) (t : Fin 64) : (s.effects t).hub = s.hub := by
  unfold State.effects; dsimp only; split <;> simp [popAll_field State.hub (fun s c e n => State.popChan_hub s c e n)]
@[simp] theorem State.effects_sched (s : State) (t : Fin 64) : (s.effects t).sched = s.sched := by
  unfold State.effects; dsimp only; split <;> simp [popAll_field State.sched (fun s c e n => State.popChan_sched s c e n)]
@[simp] theorem State.effects_time (s : State) (t : Fin 64) : (s.effects t).time = s.time := by
  unfold State.effects; dsimp only; split <;> simp [popAll_field State.time (fun s c e n => State.popChan_time s c e n)]
@[simp] theorem State.effects_persistNext (s : State) (t : Fin 64) : (s.effects t).persistNext = s.persistNext := by
  unfold State.effects; dsimp only; split <;> simp [popAll_field State.persistNext (fun s c e n => State.popChan_persistNext s c e n)]
@[simp] theorem State.effects_upsets (s : State) (t : Fin 64) : (s.effects t).upsets = s.upsets := by
  unfold State.effects; dsimp only; split <;> simp [popAll_field State.upsets (fun s c e n => State.popChan_upsets s c e n)]
@[simp] theorem State.effects_hostCopies (s : State) (t : Fin 64) : (s.effects t).hostCopies = s.hostCopies := by
  unfold State.effects; dsimp only; split <;> simp [popAll_field State.hostCopies (fun s c e n => State.popChan_hostCopies s c e n)]
@[simp] theorem State.effects_servedNow (s : State) (t : Fin 64) : (s.effects t).servedNow = s.servedNow := by
  unfold State.effects; dsimp only; split <;> simp [popAll_field State.servedNow (fun s c e n => State.popChan_servedNow s c e n)]
@[simp] theorem State.effects_nextId (s : State) (t : Fin 64) : (s.effects t).nextId = s.nextId := by
  unfold State.effects; dsimp only; split <;> simp [popAll_field State.nextId (fun s c e n => State.popChan_nextId s c e n)]
@[simp] theorem State.effects_hostValue (s : State) (t : Fin 64) : (s.effects t).hostValue = s.hostValue := by
  unfold State.effects; dsimp only; split <;> simp [popAll_field State.hostValue (fun s c e n => State.popChan_hostValue s c e n)]
@[simp] theorem State.effects_cur (s : State) (t : Fin 64) : (s.effects t).cur = s.cur := by
  unfold State.effects; dsimp only; split <;> simp [popAll_field State.cur (fun s c e n => State.popChan_cur s c e n)]
@[simp] theorem State.effects_env (s : State) (t : Fin 64) : (s.effects t).env = s.env := by
  unfold State.effects; dsimp only; split <;> simp [popAll_field State.env (fun s c e n => State.popChan_env s c e n)]

/-! endFiring -/
@[simp] theorem State.endFiring_mem (s : State) (t : Fin 64) (n : Nat) : (s.endFiring t n).mem = s.mem := by
  simp [State.endFiring]
@[simp] theorem State.endFiring_accs (s : State) (t : Fin 64) (n : Nat) : (s.endFiring t n).accs = s.accs := by
  simp [State.endFiring]
@[simp] theorem State.endFiring_fences (s : State) (t : Fin 64) (n : Nat) : (s.endFiring t n).fences = s.fences := by
  simp [State.endFiring]
@[simp] theorem State.endFiring_invs (s : State) (t : Fin 64) (n : Nat) : (s.endFiring t n).invs = s.invs := by
  simp [State.endFiring]
@[simp] theorem State.endFiring_mwops (s : State) (t : Fin 64) (n : Nat) : (s.endFiring t n).mwops = s.mwops := by
  simp [State.endFiring]
@[simp] theorem State.endFiring_locks (s : State) (t : Fin 64) (n : Nat) : (s.endFiring t n).locks = s.locks := by
  simp [State.endFiring]
@[simp] theorem State.endFiring_watches (s : State) (t : Fin 64) (n : Nat) : (s.endFiring t n).watches = s.watches := by
  simp [State.endFiring]
@[simp] theorem State.endFiring_arrivals (s : State) (t : Fin 64) (n : Nat) : (s.endFiring t n).arrivals = s.arrivals := by
  simp [State.endFiring]
@[simp] theorem State.endFiring_dir (s : State) (t : Fin 64) (n : Nat) : (s.endFiring t n).dir = s.dir := by
  simp [State.endFiring]
@[simp] theorem State.endFiring_recalls (s : State) (t : Fin 64) (n : Nat) : (s.endFiring t n).recalls = s.recalls := by
  simp [State.endFiring]
@[simp] theorem State.endFiring_sliceLines (s : State) (t : Fin 64) (n : Nat) : (s.endFiring t n).sliceLines = s.sliceLines := by
  simp [State.endFiring]
@[simp] theorem State.endFiring_plru (s : State) (t : Fin 64) (n : Nat) : (s.endFiring t n).plru = s.plru := by
  simp [State.endFiring]
@[simp] theorem State.endFiring_merges (s : State) (t : Fin 64) (n : Nat) : (s.endFiring t n).merges = s.merges := by
  simp [State.endFiring]
@[simp] theorem State.endFiring_flights (s : State) (t : Fin 64) (n : Nat) : (s.endFiring t n).flights = s.flights := by
  simp [State.endFiring]
@[simp] theorem State.endFiring_grants (s : State) (t : Fin 64) (n : Nat) : (s.endFiring t n).grants = s.grants := by
  simp [State.endFiring]
@[simp] theorem State.endFiring_queues (s : State) (t : Fin 64) (n : Nat) : (s.endFiring t n).queues = s.queues := by
  simp [State.endFiring]
@[simp] theorem State.endFiring_launches (s : State) (t : Fin 64) (n : Nat) : (s.endFiring t n).launches = s.launches := by
  simp [State.endFiring]
@[simp] theorem State.endFiring_saved (s : State) (t : Fin 64) (n : Nat) : (s.endFiring t n).saved = s.saved := by
  simp [State.endFiring]
@[simp] theorem State.endFiring_images (s : State) (t : Fin 64) (n : Nat) : (s.endFiring t n).images = s.images := by
  simp [State.endFiring]
@[simp] theorem State.endFiring_draftlds (s : State) (t : Fin 64) (n : Nat) : (s.endFiring t n).draftlds = s.draftlds := by
  simp [State.endFiring]
@[simp] theorem State.endFiring_closes (s : State) (t : Fin 64) (n : Nat) : (s.endFiring t n).closes = s.closes := by
  simp [State.endFiring]
@[simp] theorem State.endFiring_colls (s : State) (t : Fin 64) (n : Nat) : (s.endFiring t n).colls = s.colls := by
  simp [State.endFiring]
@[simp] theorem State.endFiring_traversals (s : State) (t : Fin 64) (n : Nat) : (s.endFiring t n).traversals = s.traversals := by
  simp [State.endFiring]
@[simp] theorem State.endFiring_walks (s : State) (t : Fin 64) (n : Nat) : (s.endFiring t n).walks = s.walks := by
  simp [State.endFiring]
@[simp] theorem State.endFiring_dies (s : State) (t : Fin 64) (n : Nat) : (s.endFiring t n).dies = s.dies := by
  simp [State.endFiring]
@[simp] theorem State.endFiring_lqueues (s : State) (t : Fin 64) (n : Nat) : (s.endFiring t n).lqueues = s.lqueues := by
  simp [State.endFiring]
@[simp] theorem State.endFiring_mig (s : State) (t : Fin 64) (n : Nat) : (s.endFiring t n).mig = s.mig := by
  simp [State.endFiring]
@[simp] theorem State.endFiring_hub (s : State) (t : Fin 64) (n : Nat) : (s.endFiring t n).hub = s.hub := by
  simp [State.endFiring]
@[simp] theorem State.endFiring_sched (s : State) (t : Fin 64) (n : Nat) : (s.endFiring t n).sched = s.sched := by
  simp [State.endFiring]
@[simp] theorem State.endFiring_time (s : State) (t : Fin 64) (n : Nat) : (s.endFiring t n).time = s.time := by
  simp [State.endFiring]
@[simp] theorem State.endFiring_persistNext (s : State) (t : Fin 64) (n : Nat) : (s.endFiring t n).persistNext = s.persistNext := by
  simp [State.endFiring]
@[simp] theorem State.endFiring_upsets (s : State) (t : Fin 64) (n : Nat) : (s.endFiring t n).upsets = s.upsets := by
  simp [State.endFiring]
@[simp] theorem State.endFiring_hostCopies (s : State) (t : Fin 64) (n : Nat) : (s.endFiring t n).hostCopies = s.hostCopies := by
  simp [State.endFiring]
@[simp] theorem State.endFiring_servedNow (s : State) (t : Fin 64) (n : Nat) : (s.endFiring t n).servedNow = s.servedNow := by
  simp [State.endFiring]
@[simp] theorem State.endFiring_nextId (s : State) (t : Fin 64) (n : Nat) : (s.endFiring t n).nextId = s.nextId := by
  simp [State.endFiring]
@[simp] theorem State.endFiring_hostValue (s : State) (t : Fin 64) (n : Nat) : (s.endFiring t n).hostValue = s.hostValue := by
  simp [State.endFiring]
@[simp] theorem State.endFiring_cur (s : State) (t : Fin 64) (n : Nat) : (s.endFiring t n).cur = s.cur := by
  simp [State.endFiring]
@[simp] theorem State.endFiring_env (s : State) (t : Fin 64) (n : Nat) : (s.endFiring t n).env = s.env := by
  simp [State.endFiring]

/-! put -/
@[simp] theorem State.put_mem (s : State) (t : Fin 64) (d : Dst) (f : Nat → Word) : (s.put t d f).mem = s.mem := by
  cases d <;> simp [State.put]
@[simp] theorem State.put_accs (s : State) (t : Fin 64) (d : Dst) (f : Nat → Word) : (s.put t d f).accs = s.accs := by
  cases d <;> simp [State.put]
@[simp] theorem State.put_fences (s : State) (t : Fin 64) (d : Dst) (f : Nat → Word) : (s.put t d f).fences = s.fences := by
  cases d <;> simp [State.put]
@[simp] theorem State.put_invs (s : State) (t : Fin 64) (d : Dst) (f : Nat → Word) : (s.put t d f).invs = s.invs := by
  cases d <;> simp [State.put]
@[simp] theorem State.put_mwops (s : State) (t : Fin 64) (d : Dst) (f : Nat → Word) : (s.put t d f).mwops = s.mwops := by
  cases d <;> simp [State.put]
@[simp] theorem State.put_locks (s : State) (t : Fin 64) (d : Dst) (f : Nat → Word) : (s.put t d f).locks = s.locks := by
  cases d <;> simp [State.put]
@[simp] theorem State.put_watches (s : State) (t : Fin 64) (d : Dst) (f : Nat → Word) : (s.put t d f).watches = s.watches := by
  cases d <;> simp [State.put]
@[simp] theorem State.put_arrivals (s : State) (t : Fin 64) (d : Dst) (f : Nat → Word) : (s.put t d f).arrivals = s.arrivals := by
  cases d <;> simp [State.put]
@[simp] theorem State.put_dir (s : State) (t : Fin 64) (d : Dst) (f : Nat → Word) : (s.put t d f).dir = s.dir := by
  cases d <;> simp [State.put]
@[simp] theorem State.put_recalls (s : State) (t : Fin 64) (d : Dst) (f : Nat → Word) : (s.put t d f).recalls = s.recalls := by
  cases d <;> simp [State.put]
@[simp] theorem State.put_sliceLines (s : State) (t : Fin 64) (d : Dst) (f : Nat → Word) : (s.put t d f).sliceLines = s.sliceLines := by
  cases d <;> simp [State.put]
@[simp] theorem State.put_plru (s : State) (t : Fin 64) (d : Dst) (f : Nat → Word) : (s.put t d f).plru = s.plru := by
  cases d <;> simp [State.put]
@[simp] theorem State.put_merges (s : State) (t : Fin 64) (d : Dst) (f : Nat → Word) : (s.put t d f).merges = s.merges := by
  cases d <;> simp [State.put]
@[simp] theorem State.put_queues (s : State) (t : Fin 64) (d : Dst) (f : Nat → Word) : (s.put t d f).queues = s.queues := by
  cases d <;> simp [State.put]
@[simp] theorem State.put_launches (s : State) (t : Fin 64) (d : Dst) (f : Nat → Word) : (s.put t d f).launches = s.launches := by
  cases d <;> simp [State.put]
@[simp] theorem State.put_saved (s : State) (t : Fin 64) (d : Dst) (f : Nat → Word) : (s.put t d f).saved = s.saved := by
  cases d <;> simp [State.put]
@[simp] theorem State.put_images (s : State) (t : Fin 64) (d : Dst) (f : Nat → Word) : (s.put t d f).images = s.images := by
  cases d <;> simp [State.put]
@[simp] theorem State.put_draftlds (s : State) (t : Fin 64) (d : Dst) (f : Nat → Word) : (s.put t d f).draftlds = s.draftlds := by
  cases d <;> simp [State.put]
@[simp] theorem State.put_streams (s : State) (t : Fin 64) (d : Dst) (f : Nat → Word) : (s.put t d f).streams = s.streams := by
  cases d <;> simp [State.put]
@[simp] theorem State.put_closes (s : State) (t : Fin 64) (d : Dst) (f : Nat → Word) : (s.put t d f).closes = s.closes := by
  cases d <;> simp [State.put]
@[simp] theorem State.put_colls (s : State) (t : Fin 64) (d : Dst) (f : Nat → Word) : (s.put t d f).colls = s.colls := by
  cases d <;> simp [State.put]
@[simp] theorem State.put_traversals (s : State) (t : Fin 64) (d : Dst) (f : Nat → Word) : (s.put t d f).traversals = s.traversals := by
  cases d <;> simp [State.put]
@[simp] theorem State.put_walks (s : State) (t : Fin 64) (d : Dst) (f : Nat → Word) : (s.put t d f).walks = s.walks := by
  cases d <;> simp [State.put]
@[simp] theorem State.put_dies (s : State) (t : Fin 64) (d : Dst) (f : Nat → Word) : (s.put t d f).dies = s.dies := by
  cases d <;> simp [State.put]
@[simp] theorem State.put_lqueues (s : State) (t : Fin 64) (d : Dst) (f : Nat → Word) : (s.put t d f).lqueues = s.lqueues := by
  cases d <;> simp [State.put]
@[simp] theorem State.put_mig (s : State) (t : Fin 64) (d : Dst) (f : Nat → Word) : (s.put t d f).mig = s.mig := by
  cases d <;> simp [State.put]
@[simp] theorem State.put_hub (s : State) (t : Fin 64) (d : Dst) (f : Nat → Word) : (s.put t d f).hub = s.hub := by
  cases d <;> simp [State.put]
@[simp] theorem State.put_sched (s : State) (t : Fin 64) (d : Dst) (f : Nat → Word) : (s.put t d f).sched = s.sched := by
  cases d <;> simp [State.put]
@[simp] theorem State.put_time (s : State) (t : Fin 64) (d : Dst) (f : Nat → Word) : (s.put t d f).time = s.time := by
  cases d <;> simp [State.put]
@[simp] theorem State.put_persistNext (s : State) (t : Fin 64) (d : Dst) (f : Nat → Word) : (s.put t d f).persistNext = s.persistNext := by
  cases d <;> simp [State.put]
@[simp] theorem State.put_upsets (s : State) (t : Fin 64) (d : Dst) (f : Nat → Word) : (s.put t d f).upsets = s.upsets := by
  cases d <;> simp [State.put]
@[simp] theorem State.put_hostCopies (s : State) (t : Fin 64) (d : Dst) (f : Nat → Word) : (s.put t d f).hostCopies = s.hostCopies := by
  cases d <;> simp [State.put]
@[simp] theorem State.put_servedNow (s : State) (t : Fin 64) (d : Dst) (f : Nat → Word) : (s.put t d f).servedNow = s.servedNow := by
  cases d <;> simp [State.put]
@[simp] theorem State.put_hostValue (s : State) (t : Fin 64) (d : Dst) (f : Nat → Word) : (s.put t d f).hostValue = s.hostValue := by
  cases d <;> simp [State.put]
@[simp] theorem State.put_cur (s : State) (t : Fin 64) (d : Dst) (f : Nat → Word) : (s.put t d f).cur = s.cur := by
  cases d <;> simp [State.put]
@[simp] theorem State.put_env (s : State) (t : Fin 64) (d : Dst) (f : Nat → Word) : (s.put t d f).env = s.env := by
  cases d <;> simp [State.put]

/-! putW -/
@[simp] theorem State.putW_mem (s : State) (d : Dst) (f : Nat → BitVec 64) : (s.putW d f).mem = s.mem := by
  cases d <;> simp [State.putW]
@[simp] theorem State.putW_census (s : State) (d : Dst) (f : Nat → BitVec 64) : (s.putW d f).census = s.census := by
  cases d <;> simp [State.putW]
@[simp] theorem State.putW_accs (s : State) (d : Dst) (f : Nat → BitVec 64) : (s.putW d f).accs = s.accs := by
  cases d <;> simp [State.putW]
@[simp] theorem State.putW_fences (s : State) (d : Dst) (f : Nat → BitVec 64) : (s.putW d f).fences = s.fences := by
  cases d <;> simp [State.putW]
@[simp] theorem State.putW_invs (s : State) (d : Dst) (f : Nat → BitVec 64) : (s.putW d f).invs = s.invs := by
  cases d <;> simp [State.putW]
@[simp] theorem State.putW_mwops (s : State) (d : Dst) (f : Nat → BitVec 64) : (s.putW d f).mwops = s.mwops := by
  cases d <;> simp [State.putW]
@[simp] theorem State.putW_locks (s : State) (d : Dst) (f : Nat → BitVec 64) : (s.putW d f).locks = s.locks := by
  cases d <;> simp [State.putW]
@[simp] theorem State.putW_watches (s : State) (d : Dst) (f : Nat → BitVec 64) : (s.putW d f).watches = s.watches := by
  cases d <;> simp [State.putW]
@[simp] theorem State.putW_arrivals (s : State) (d : Dst) (f : Nat → BitVec 64) : (s.putW d f).arrivals = s.arrivals := by
  cases d <;> simp [State.putW]
@[simp] theorem State.putW_dir (s : State) (d : Dst) (f : Nat → BitVec 64) : (s.putW d f).dir = s.dir := by
  cases d <;> simp [State.putW]
@[simp] theorem State.putW_recalls (s : State) (d : Dst) (f : Nat → BitVec 64) : (s.putW d f).recalls = s.recalls := by
  cases d <;> simp [State.putW]
@[simp] theorem State.putW_sliceLines (s : State) (d : Dst) (f : Nat → BitVec 64) : (s.putW d f).sliceLines = s.sliceLines := by
  cases d <;> simp [State.putW]
@[simp] theorem State.putW_plru (s : State) (d : Dst) (f : Nat → BitVec 64) : (s.putW d f).plru = s.plru := by
  cases d <;> simp [State.putW]
@[simp] theorem State.putW_merges (s : State) (d : Dst) (f : Nat → BitVec 64) : (s.putW d f).merges = s.merges := by
  cases d <;> simp [State.putW]
@[simp] theorem State.putW_flights (s : State) (d : Dst) (f : Nat → BitVec 64) : (s.putW d f).flights = s.flights := by
  cases d <;> simp [State.putW]
@[simp] theorem State.putW_grants (s : State) (d : Dst) (f : Nat → BitVec 64) : (s.putW d f).grants = s.grants := by
  cases d <;> simp [State.putW]
@[simp] theorem State.putW_queues (s : State) (d : Dst) (f : Nat → BitVec 64) : (s.putW d f).queues = s.queues := by
  cases d <;> simp [State.putW]
@[simp] theorem State.putW_launches (s : State) (d : Dst) (f : Nat → BitVec 64) : (s.putW d f).launches = s.launches := by
  cases d <;> simp [State.putW]
@[simp] theorem State.putW_regions (s : State) (d : Dst) (f : Nat → BitVec 64) : (s.putW d f).regions = s.regions := by
  cases d <;> simp [State.putW]
@[simp] theorem State.putW_saved (s : State) (d : Dst) (f : Nat → BitVec 64) : (s.putW d f).saved = s.saved := by
  cases d <;> simp [State.putW]
@[simp] theorem State.putW_images (s : State) (d : Dst) (f : Nat → BitVec 64) : (s.putW d f).images = s.images := by
  cases d <;> simp [State.putW]
@[simp] theorem State.putW_draftlds (s : State) (d : Dst) (f : Nat → BitVec 64) : (s.putW d f).draftlds = s.draftlds := by
  cases d <;> simp [State.putW]
@[simp] theorem State.putW_streams (s : State) (d : Dst) (f : Nat → BitVec 64) : (s.putW d f).streams = s.streams := by
  cases d <;> simp [State.putW]
@[simp] theorem State.putW_closes (s : State) (d : Dst) (f : Nat → BitVec 64) : (s.putW d f).closes = s.closes := by
  cases d <;> simp [State.putW]
@[simp] theorem State.putW_colls (s : State) (d : Dst) (f : Nat → BitVec 64) : (s.putW d f).colls = s.colls := by
  cases d <;> simp [State.putW]
@[simp] theorem State.putW_traversals (s : State) (d : Dst) (f : Nat → BitVec 64) : (s.putW d f).traversals = s.traversals := by
  cases d <;> simp [State.putW]
@[simp] theorem State.putW_walks (s : State) (d : Dst) (f : Nat → BitVec 64) : (s.putW d f).walks = s.walks := by
  cases d <;> simp [State.putW]
@[simp] theorem State.putW_dies (s : State) (d : Dst) (f : Nat → BitVec 64) : (s.putW d f).dies = s.dies := by
  cases d <;> simp [State.putW]
@[simp] theorem State.putW_lqueues (s : State) (d : Dst) (f : Nat → BitVec 64) : (s.putW d f).lqueues = s.lqueues := by
  cases d <;> simp [State.putW]
@[simp] theorem State.putW_mig (s : State) (d : Dst) (f : Nat → BitVec 64) : (s.putW d f).mig = s.mig := by
  cases d <;> simp [State.putW]
@[simp] theorem State.putW_hub (s : State) (d : Dst) (f : Nat → BitVec 64) : (s.putW d f).hub = s.hub := by
  cases d <;> simp [State.putW]
@[simp] theorem State.putW_sched (s : State) (d : Dst) (f : Nat → BitVec 64) : (s.putW d f).sched = s.sched := by
  cases d <;> simp [State.putW]
@[simp] theorem State.putW_time (s : State) (d : Dst) (f : Nat → BitVec 64) : (s.putW d f).time = s.time := by
  cases d <;> simp [State.putW]
@[simp] theorem State.putW_persistNext (s : State) (d : Dst) (f : Nat → BitVec 64) : (s.putW d f).persistNext = s.persistNext := by
  cases d <;> simp [State.putW]
@[simp] theorem State.putW_upsets (s : State) (d : Dst) (f : Nat → BitVec 64) : (s.putW d f).upsets = s.upsets := by
  cases d <;> simp [State.putW]
@[simp] theorem State.putW_hostCopies (s : State) (d : Dst) (f : Nat → BitVec 64) : (s.putW d f).hostCopies = s.hostCopies := by
  cases d <;> simp [State.putW]
@[simp] theorem State.putW_servedNow (s : State) (d : Dst) (f : Nat → BitVec 64) : (s.putW d f).servedNow = s.servedNow := by
  cases d <;> simp [State.putW]
@[simp] theorem State.putW_nextId (s : State) (d : Dst) (f : Nat → BitVec 64) : (s.putW d f).nextId = s.nextId := by
  cases d <;> simp [State.putW]
@[simp] theorem State.putW_hostValue (s : State) (d : Dst) (f : Nat → BitVec 64) : (s.putW d f).hostValue = s.hostValue := by
  cases d <;> simp [State.putW]
@[simp] theorem State.putW_cur (s : State) (d : Dst) (f : Nat → BitVec 64) : (s.putW d f).cur = s.cur := by
  cases d <;> simp [State.putW]
@[simp] theorem State.putW_env (s : State) (d : Dst) (f : Nat → BitVec 64) : (s.putW d f).env = s.env := by
  cases d <;> simp [State.putW]

/-! putSel -/
@[simp] theorem State.putSel_mem (s : State) (t : Fin 64) (w : Bool) (d : Dst) (f : Nat → Word) (g : Nat → BitVec 64) : (s.putSel t w d f g).mem = s.mem := by
  cases w <;> simp [State.putSel]
@[simp] theorem State.putSel_accs (s : State) (t : Fin 64) (w : Bool) (d : Dst) (f : Nat → Word) (g : Nat → BitVec 64) : (s.putSel t w d f g).accs = s.accs := by
  cases w <;> simp [State.putSel]
@[simp] theorem State.putSel_fences (s : State) (t : Fin 64) (w : Bool) (d : Dst) (f : Nat → Word) (g : Nat → BitVec 64) : (s.putSel t w d f g).fences = s.fences := by
  cases w <;> simp [State.putSel]
@[simp] theorem State.putSel_invs (s : State) (t : Fin 64) (w : Bool) (d : Dst) (f : Nat → Word) (g : Nat → BitVec 64) : (s.putSel t w d f g).invs = s.invs := by
  cases w <;> simp [State.putSel]
@[simp] theorem State.putSel_mwops (s : State) (t : Fin 64) (w : Bool) (d : Dst) (f : Nat → Word) (g : Nat → BitVec 64) : (s.putSel t w d f g).mwops = s.mwops := by
  cases w <;> simp [State.putSel]
@[simp] theorem State.putSel_locks (s : State) (t : Fin 64) (w : Bool) (d : Dst) (f : Nat → Word) (g : Nat → BitVec 64) : (s.putSel t w d f g).locks = s.locks := by
  cases w <;> simp [State.putSel]
@[simp] theorem State.putSel_watches (s : State) (t : Fin 64) (w : Bool) (d : Dst) (f : Nat → Word) (g : Nat → BitVec 64) : (s.putSel t w d f g).watches = s.watches := by
  cases w <;> simp [State.putSel]
@[simp] theorem State.putSel_arrivals (s : State) (t : Fin 64) (w : Bool) (d : Dst) (f : Nat → Word) (g : Nat → BitVec 64) : (s.putSel t w d f g).arrivals = s.arrivals := by
  cases w <;> simp [State.putSel]
@[simp] theorem State.putSel_dir (s : State) (t : Fin 64) (w : Bool) (d : Dst) (f : Nat → Word) (g : Nat → BitVec 64) : (s.putSel t w d f g).dir = s.dir := by
  cases w <;> simp [State.putSel]
@[simp] theorem State.putSel_recalls (s : State) (t : Fin 64) (w : Bool) (d : Dst) (f : Nat → Word) (g : Nat → BitVec 64) : (s.putSel t w d f g).recalls = s.recalls := by
  cases w <;> simp [State.putSel]
@[simp] theorem State.putSel_sliceLines (s : State) (t : Fin 64) (w : Bool) (d : Dst) (f : Nat → Word) (g : Nat → BitVec 64) : (s.putSel t w d f g).sliceLines = s.sliceLines := by
  cases w <;> simp [State.putSel]
@[simp] theorem State.putSel_plru (s : State) (t : Fin 64) (w : Bool) (d : Dst) (f : Nat → Word) (g : Nat → BitVec 64) : (s.putSel t w d f g).plru = s.plru := by
  cases w <;> simp [State.putSel]
@[simp] theorem State.putSel_merges (s : State) (t : Fin 64) (w : Bool) (d : Dst) (f : Nat → Word) (g : Nat → BitVec 64) : (s.putSel t w d f g).merges = s.merges := by
  cases w <;> simp [State.putSel]
@[simp] theorem State.putSel_queues (s : State) (t : Fin 64) (w : Bool) (d : Dst) (f : Nat → Word) (g : Nat → BitVec 64) : (s.putSel t w d f g).queues = s.queues := by
  cases w <;> simp [State.putSel]
@[simp] theorem State.putSel_launches (s : State) (t : Fin 64) (w : Bool) (d : Dst) (f : Nat → Word) (g : Nat → BitVec 64) : (s.putSel t w d f g).launches = s.launches := by
  cases w <;> simp [State.putSel]
@[simp] theorem State.putSel_saved (s : State) (t : Fin 64) (w : Bool) (d : Dst) (f : Nat → Word) (g : Nat → BitVec 64) : (s.putSel t w d f g).saved = s.saved := by
  cases w <;> simp [State.putSel]
@[simp] theorem State.putSel_images (s : State) (t : Fin 64) (w : Bool) (d : Dst) (f : Nat → Word) (g : Nat → BitVec 64) : (s.putSel t w d f g).images = s.images := by
  cases w <;> simp [State.putSel]
@[simp] theorem State.putSel_draftlds (s : State) (t : Fin 64) (w : Bool) (d : Dst) (f : Nat → Word) (g : Nat → BitVec 64) : (s.putSel t w d f g).draftlds = s.draftlds := by
  cases w <;> simp [State.putSel]
@[simp] theorem State.putSel_streams (s : State) (t : Fin 64) (w : Bool) (d : Dst) (f : Nat → Word) (g : Nat → BitVec 64) : (s.putSel t w d f g).streams = s.streams := by
  cases w <;> simp [State.putSel]
@[simp] theorem State.putSel_closes (s : State) (t : Fin 64) (w : Bool) (d : Dst) (f : Nat → Word) (g : Nat → BitVec 64) : (s.putSel t w d f g).closes = s.closes := by
  cases w <;> simp [State.putSel]
@[simp] theorem State.putSel_colls (s : State) (t : Fin 64) (w : Bool) (d : Dst) (f : Nat → Word) (g : Nat → BitVec 64) : (s.putSel t w d f g).colls = s.colls := by
  cases w <;> simp [State.putSel]
@[simp] theorem State.putSel_traversals (s : State) (t : Fin 64) (w : Bool) (d : Dst) (f : Nat → Word) (g : Nat → BitVec 64) : (s.putSel t w d f g).traversals = s.traversals := by
  cases w <;> simp [State.putSel]
@[simp] theorem State.putSel_walks (s : State) (t : Fin 64) (w : Bool) (d : Dst) (f : Nat → Word) (g : Nat → BitVec 64) : (s.putSel t w d f g).walks = s.walks := by
  cases w <;> simp [State.putSel]
@[simp] theorem State.putSel_dies (s : State) (t : Fin 64) (w : Bool) (d : Dst) (f : Nat → Word) (g : Nat → BitVec 64) : (s.putSel t w d f g).dies = s.dies := by
  cases w <;> simp [State.putSel]
@[simp] theorem State.putSel_lqueues (s : State) (t : Fin 64) (w : Bool) (d : Dst) (f : Nat → Word) (g : Nat → BitVec 64) : (s.putSel t w d f g).lqueues = s.lqueues := by
  cases w <;> simp [State.putSel]
@[simp] theorem State.putSel_mig (s : State) (t : Fin 64) (w : Bool) (d : Dst) (f : Nat → Word) (g : Nat → BitVec 64) : (s.putSel t w d f g).mig = s.mig := by
  cases w <;> simp [State.putSel]
@[simp] theorem State.putSel_hub (s : State) (t : Fin 64) (w : Bool) (d : Dst) (f : Nat → Word) (g : Nat → BitVec 64) : (s.putSel t w d f g).hub = s.hub := by
  cases w <;> simp [State.putSel]
@[simp] theorem State.putSel_sched (s : State) (t : Fin 64) (w : Bool) (d : Dst) (f : Nat → Word) (g : Nat → BitVec 64) : (s.putSel t w d f g).sched = s.sched := by
  cases w <;> simp [State.putSel]
@[simp] theorem State.putSel_time (s : State) (t : Fin 64) (w : Bool) (d : Dst) (f : Nat → Word) (g : Nat → BitVec 64) : (s.putSel t w d f g).time = s.time := by
  cases w <;> simp [State.putSel]
@[simp] theorem State.putSel_persistNext (s : State) (t : Fin 64) (w : Bool) (d : Dst) (f : Nat → Word) (g : Nat → BitVec 64) : (s.putSel t w d f g).persistNext = s.persistNext := by
  cases w <;> simp [State.putSel]
@[simp] theorem State.putSel_upsets (s : State) (t : Fin 64) (w : Bool) (d : Dst) (f : Nat → Word) (g : Nat → BitVec 64) : (s.putSel t w d f g).upsets = s.upsets := by
  cases w <;> simp [State.putSel]
@[simp] theorem State.putSel_hostCopies (s : State) (t : Fin 64) (w : Bool) (d : Dst) (f : Nat → Word) (g : Nat → BitVec 64) : (s.putSel t w d f g).hostCopies = s.hostCopies := by
  cases w <;> simp [State.putSel]
@[simp] theorem State.putSel_servedNow (s : State) (t : Fin 64) (w : Bool) (d : Dst) (f : Nat → Word) (g : Nat → BitVec 64) : (s.putSel t w d f g).servedNow = s.servedNow := by
  cases w <;> simp [State.putSel]
@[simp] theorem State.putSel_hostValue (s : State) (t : Fin 64) (w : Bool) (d : Dst) (f : Nat → Word) (g : Nat → BitVec 64) : (s.putSel t w d f g).hostValue = s.hostValue := by
  cases w <;> simp [State.putSel]
@[simp] theorem State.putSel_cur (s : State) (t : Fin 64) (w : Bool) (d : Dst) (f : Nat → Word) (g : Nat → BitVec 64) : (s.putSel t w d f g).cur = s.cur := by
  cases w <;> simp [State.putSel]
@[simp] theorem State.putSel_env (s : State) (t : Fin 64) (w : Bool) (d : Dst) (f : Nat → Word) (g : Nat → BitVec 64) : (s.putSel t w d f g).env = s.env := by
  cases w <;> simp [State.putSel]

/-! pushRecord: the state after the record. -/
@[simp] theorem State.pushRecord_mem (s : State) (c e x i o fl pr : Nat) (q : FaultInfo) (r : RecordOf) :
    (s.pushRecord c e x i o fl pr q r).2.mem = s.mem := rfl
@[simp] theorem State.pushRecord_cells (s : State) (c e x i o fl pr : Nat) (q : FaultInfo) (r : RecordOf) :
    (s.pushRecord c e x i o fl pr q r).2.cells = s.cells := rfl
@[simp] theorem State.pushRecord_census (s : State) (c e x i o fl pr : Nat) (q : FaultInfo) (r : RecordOf) :
    (s.pushRecord c e x i o fl pr q r).2.census = s.census := rfl
@[simp] theorem State.pushRecord_accs (s : State) (c e x i o fl pr : Nat) (q : FaultInfo) (r : RecordOf) :
    (s.pushRecord c e x i o fl pr q r).2.accs = s.accs := rfl
@[simp] theorem State.pushRecord_fences (s : State) (c e x i o fl pr : Nat) (q : FaultInfo) (r : RecordOf) :
    (s.pushRecord c e x i o fl pr q r).2.fences = s.fences := rfl
@[simp] theorem State.pushRecord_invs (s : State) (c e x i o fl pr : Nat) (q : FaultInfo) (r : RecordOf) :
    (s.pushRecord c e x i o fl pr q r).2.invs = s.invs := rfl
@[simp] theorem State.pushRecord_mwops (s : State) (c e x i o fl pr : Nat) (q : FaultInfo) (r : RecordOf) :
    (s.pushRecord c e x i o fl pr q r).2.mwops = s.mwops := rfl
@[simp] theorem State.pushRecord_locks (s : State) (c e x i o fl pr : Nat) (q : FaultInfo) (r : RecordOf) :
    (s.pushRecord c e x i o fl pr q r).2.locks = s.locks := rfl
@[simp] theorem State.pushRecord_watches (s : State) (c e x i o fl pr : Nat) (q : FaultInfo) (r : RecordOf) :
    (s.pushRecord c e x i o fl pr q r).2.watches = s.watches := rfl
@[simp] theorem State.pushRecord_arrivals (s : State) (c e x i o fl pr : Nat) (q : FaultInfo) (r : RecordOf) :
    (s.pushRecord c e x i o fl pr q r).2.arrivals = s.arrivals := rfl
@[simp] theorem State.pushRecord_dir (s : State) (c e x i o fl pr : Nat) (q : FaultInfo) (r : RecordOf) :
    (s.pushRecord c e x i o fl pr q r).2.dir = s.dir := rfl
@[simp] theorem State.pushRecord_recalls (s : State) (c e x i o fl pr : Nat) (q : FaultInfo) (r : RecordOf) :
    (s.pushRecord c e x i o fl pr q r).2.recalls = s.recalls := rfl
@[simp] theorem State.pushRecord_sliceLines (s : State) (c e x i o fl pr : Nat) (q : FaultInfo) (r : RecordOf) :
    (s.pushRecord c e x i o fl pr q r).2.sliceLines = s.sliceLines := rfl
@[simp] theorem State.pushRecord_plru (s : State) (c e x i o fl pr : Nat) (q : FaultInfo) (r : RecordOf) :
    (s.pushRecord c e x i o fl pr q r).2.plru = s.plru := rfl
@[simp] theorem State.pushRecord_merges (s : State) (c e x i o fl pr : Nat) (q : FaultInfo) (r : RecordOf) :
    (s.pushRecord c e x i o fl pr q r).2.merges = s.merges := rfl
@[simp] theorem State.pushRecord_flights (s : State) (c e x i o fl pr : Nat) (q : FaultInfo) (r : RecordOf) :
    (s.pushRecord c e x i o fl pr q r).2.flights = s.flights := rfl
@[simp] theorem State.pushRecord_grants (s : State) (c e x i o fl pr : Nat) (q : FaultInfo) (r : RecordOf) :
    (s.pushRecord c e x i o fl pr q r).2.grants = s.grants := rfl
@[simp] theorem State.pushRecord_queues (s : State) (c e x i o fl pr : Nat) (q : FaultInfo) (r : RecordOf) :
    (s.pushRecord c e x i o fl pr q r).2.queues = s.queues := rfl
@[simp] theorem State.pushRecord_regions (s : State) (c e x i o fl pr : Nat) (q : FaultInfo) (r : RecordOf) :
    (s.pushRecord c e x i o fl pr q r).2.regions = s.regions := rfl
@[simp] theorem State.pushRecord_saved (s : State) (c e x i o fl pr : Nat) (q : FaultInfo) (r : RecordOf) :
    (s.pushRecord c e x i o fl pr q r).2.saved = s.saved := rfl
@[simp] theorem State.pushRecord_images (s : State) (c e x i o fl pr : Nat) (q : FaultInfo) (r : RecordOf) :
    (s.pushRecord c e x i o fl pr q r).2.images = s.images := rfl
@[simp] theorem State.pushRecord_draftlds (s : State) (c e x i o fl pr : Nat) (q : FaultInfo) (r : RecordOf) :
    (s.pushRecord c e x i o fl pr q r).2.draftlds = s.draftlds := rfl
@[simp] theorem State.pushRecord_streams (s : State) (c e x i o fl pr : Nat) (q : FaultInfo) (r : RecordOf) :
    (s.pushRecord c e x i o fl pr q r).2.streams = s.streams := rfl
@[simp] theorem State.pushRecord_closes (s : State) (c e x i o fl pr : Nat) (q : FaultInfo) (r : RecordOf) :
    (s.pushRecord c e x i o fl pr q r).2.closes = s.closes := rfl
@[simp] theorem State.pushRecord_colls (s : State) (c e x i o fl pr : Nat) (q : FaultInfo) (r : RecordOf) :
    (s.pushRecord c e x i o fl pr q r).2.colls = s.colls := rfl
@[simp] theorem State.pushRecord_traversals (s : State) (c e x i o fl pr : Nat) (q : FaultInfo) (r : RecordOf) :
    (s.pushRecord c e x i o fl pr q r).2.traversals = s.traversals := rfl
@[simp] theorem State.pushRecord_walks (s : State) (c e x i o fl pr : Nat) (q : FaultInfo) (r : RecordOf) :
    (s.pushRecord c e x i o fl pr q r).2.walks = s.walks := rfl
@[simp] theorem State.pushRecord_lqueues (s : State) (c e x i o fl pr : Nat) (q : FaultInfo) (r : RecordOf) :
    (s.pushRecord c e x i o fl pr q r).2.lqueues = s.lqueues := rfl
@[simp] theorem State.pushRecord_mig (s : State) (c e x i o fl pr : Nat) (q : FaultInfo) (r : RecordOf) :
    (s.pushRecord c e x i o fl pr q r).2.mig = s.mig := rfl
@[simp] theorem State.pushRecord_hub (s : State) (c e x i o fl pr : Nat) (q : FaultInfo) (r : RecordOf) :
    (s.pushRecord c e x i o fl pr q r).2.hub = s.hub := rfl
@[simp] theorem State.pushRecord_sched (s : State) (c e x i o fl pr : Nat) (q : FaultInfo) (r : RecordOf) :
    (s.pushRecord c e x i o fl pr q r).2.sched = s.sched := rfl
@[simp] theorem State.pushRecord_time (s : State) (c e x i o fl pr : Nat) (q : FaultInfo) (r : RecordOf) :
    (s.pushRecord c e x i o fl pr q r).2.time = s.time := rfl
@[simp] theorem State.pushRecord_persistNext (s : State) (c e x i o fl pr : Nat) (q : FaultInfo) (r : RecordOf) :
    (s.pushRecord c e x i o fl pr q r).2.persistNext = s.persistNext := rfl
@[simp] theorem State.pushRecord_upsets (s : State) (c e x i o fl pr : Nat) (q : FaultInfo) (r : RecordOf) :
    (s.pushRecord c e x i o fl pr q r).2.upsets = s.upsets := rfl
@[simp] theorem State.pushRecord_hostCopies (s : State) (c e x i o fl pr : Nat) (q : FaultInfo) (r : RecordOf) :
    (s.pushRecord c e x i o fl pr q r).2.hostCopies = s.hostCopies := rfl
@[simp] theorem State.pushRecord_servedNow (s : State) (c e x i o fl pr : Nat) (q : FaultInfo) (r : RecordOf) :
    (s.pushRecord c e x i o fl pr q r).2.servedNow = s.servedNow := rfl
@[simp] theorem State.pushRecord_hostValue (s : State) (c e x i o fl pr : Nat) (q : FaultInfo) (r : RecordOf) :
    (s.pushRecord c e x i o fl pr q r).2.hostValue = s.hostValue := rfl
@[simp] theorem State.pushRecord_cur (s : State) (c e x i o fl pr : Nat) (q : FaultInfo) (r : RecordOf) :
    (s.pushRecord c e x i o fl pr q r).2.cur = s.cur := rfl
@[simp] theorem State.pushRecord_env (s : State) (c e x i o fl pr : Nat) (q : FaultInfo) (r : RecordOf) :
    (s.pushRecord c e x i o fl pr q r).2.env = s.env := rfl

/-! takeFault -/
@[simp] theorem State.takeFault_mem (s : State) (n : Nat) (q : FaultInfo) : (s.takeFault n q).mem = s.mem := by
  simp [State.takeFault]
@[simp] theorem State.takeFault_census (s : State) (n : Nat) (q : FaultInfo) : (s.takeFault n q).census = s.census := by
  simp [State.takeFault]
@[simp] theorem State.takeFault_accs (s : State) (n : Nat) (q : FaultInfo) : (s.takeFault n q).accs = s.accs := by
  simp [State.takeFault]
@[simp] theorem State.takeFault_fences (s : State) (n : Nat) (q : FaultInfo) : (s.takeFault n q).fences = s.fences := by
  simp [State.takeFault]
@[simp] theorem State.takeFault_invs (s : State) (n : Nat) (q : FaultInfo) : (s.takeFault n q).invs = s.invs := by
  simp [State.takeFault]
@[simp] theorem State.takeFault_mwops (s : State) (n : Nat) (q : FaultInfo) : (s.takeFault n q).mwops = s.mwops := by
  simp [State.takeFault]
@[simp] theorem State.takeFault_locks (s : State) (n : Nat) (q : FaultInfo) : (s.takeFault n q).locks = s.locks := by
  simp [State.takeFault]
@[simp] theorem State.takeFault_watches (s : State) (n : Nat) (q : FaultInfo) : (s.takeFault n q).watches = s.watches := by
  simp [State.takeFault]
@[simp] theorem State.takeFault_arrivals (s : State) (n : Nat) (q : FaultInfo) : (s.takeFault n q).arrivals = s.arrivals := by
  simp [State.takeFault]
@[simp] theorem State.takeFault_dir (s : State) (n : Nat) (q : FaultInfo) : (s.takeFault n q).dir = s.dir := by
  simp [State.takeFault]
@[simp] theorem State.takeFault_recalls (s : State) (n : Nat) (q : FaultInfo) : (s.takeFault n q).recalls = s.recalls := by
  simp [State.takeFault]
@[simp] theorem State.takeFault_sliceLines (s : State) (n : Nat) (q : FaultInfo) : (s.takeFault n q).sliceLines = s.sliceLines := by
  simp [State.takeFault]
@[simp] theorem State.takeFault_plru (s : State) (n : Nat) (q : FaultInfo) : (s.takeFault n q).plru = s.plru := by
  simp [State.takeFault]
@[simp] theorem State.takeFault_merges (s : State) (n : Nat) (q : FaultInfo) : (s.takeFault n q).merges = s.merges := by
  simp [State.takeFault]
@[simp] theorem State.takeFault_flights (s : State) (n : Nat) (q : FaultInfo) : (s.takeFault n q).flights = s.flights := by
  simp [State.takeFault]
@[simp] theorem State.takeFault_grants (s : State) (n : Nat) (q : FaultInfo) : (s.takeFault n q).grants = s.grants := by
  simp [State.takeFault]
@[simp] theorem State.takeFault_queues (s : State) (n : Nat) (q : FaultInfo) : (s.takeFault n q).queues = s.queues := by
  simp [State.takeFault]
@[simp] theorem State.takeFault_regions (s : State) (n : Nat) (q : FaultInfo) : (s.takeFault n q).regions = s.regions := by
  simp [State.takeFault]
@[simp] theorem State.takeFault_saved (s : State) (n : Nat) (q : FaultInfo) : (s.takeFault n q).saved = s.saved := by
  simp [State.takeFault]
@[simp] theorem State.takeFault_images (s : State) (n : Nat) (q : FaultInfo) : (s.takeFault n q).images = s.images := by
  simp [State.takeFault]
@[simp] theorem State.takeFault_draftlds (s : State) (n : Nat) (q : FaultInfo) : (s.takeFault n q).draftlds = s.draftlds := by
  simp [State.takeFault]
@[simp] theorem State.takeFault_streams (s : State) (n : Nat) (q : FaultInfo) : (s.takeFault n q).streams = s.streams := by
  simp [State.takeFault]
@[simp] theorem State.takeFault_closes (s : State) (n : Nat) (q : FaultInfo) : (s.takeFault n q).closes = s.closes := by
  simp [State.takeFault]
@[simp] theorem State.takeFault_colls (s : State) (n : Nat) (q : FaultInfo) : (s.takeFault n q).colls = s.colls := by
  simp [State.takeFault]
@[simp] theorem State.takeFault_traversals (s : State) (n : Nat) (q : FaultInfo) : (s.takeFault n q).traversals = s.traversals := by
  simp [State.takeFault]
@[simp] theorem State.takeFault_walks (s : State) (n : Nat) (q : FaultInfo) : (s.takeFault n q).walks = s.walks := by
  simp [State.takeFault]
@[simp] theorem State.takeFault_lqueues (s : State) (n : Nat) (q : FaultInfo) : (s.takeFault n q).lqueues = s.lqueues := by
  simp [State.takeFault]
@[simp] theorem State.takeFault_mig (s : State) (n : Nat) (q : FaultInfo) : (s.takeFault n q).mig = s.mig := by
  simp [State.takeFault]
@[simp] theorem State.takeFault_hub (s : State) (n : Nat) (q : FaultInfo) : (s.takeFault n q).hub = s.hub := by
  simp [State.takeFault]
@[simp] theorem State.takeFault_sched (s : State) (n : Nat) (q : FaultInfo) : (s.takeFault n q).sched = s.sched := by
  simp [State.takeFault]
@[simp] theorem State.takeFault_time (s : State) (n : Nat) (q : FaultInfo) : (s.takeFault n q).time = s.time := by
  simp [State.takeFault]
@[simp] theorem State.takeFault_persistNext (s : State) (n : Nat) (q : FaultInfo) : (s.takeFault n q).persistNext = s.persistNext := by
  simp [State.takeFault]
@[simp] theorem State.takeFault_upsets (s : State) (n : Nat) (q : FaultInfo) : (s.takeFault n q).upsets = s.upsets := by
  simp [State.takeFault]
@[simp] theorem State.takeFault_hostCopies (s : State) (n : Nat) (q : FaultInfo) : (s.takeFault n q).hostCopies = s.hostCopies := by
  simp [State.takeFault]
@[simp] theorem State.takeFault_servedNow (s : State) (n : Nat) (q : FaultInfo) : (s.takeFault n q).servedNow = s.servedNow := by
  simp [State.takeFault]
@[simp] theorem State.takeFault_hostValue (s : State) (n : Nat) (q : FaultInfo) : (s.takeFault n q).hostValue = s.hostValue := by
  simp [State.takeFault]
@[simp] theorem State.takeFault_cur (s : State) (n : Nat) (q : FaultInfo) : (s.takeFault n q).cur = s.cur := by
  simp [State.takeFault]
@[simp] theorem State.takeFault_env (s : State) (n : Nat) (q : FaultInfo) : (s.takeFault n q).env = s.env := by
  simp [State.takeFault]

/-! takePrivilege -/
@[simp] theorem State.takePrivilege_mem (s : State) (n : Nat) : (s.takePrivilege n).mem = s.mem := by
  simp [State.takePrivilege]
@[simp] theorem State.takePrivilege_census (s : State) (n : Nat) : (s.takePrivilege n).census = s.census := by
  simp [State.takePrivilege]
@[simp] theorem State.takePrivilege_accs (s : State) (n : Nat) : (s.takePrivilege n).accs = s.accs := by
  simp [State.takePrivilege]
@[simp] theorem State.takePrivilege_fences (s : State) (n : Nat) : (s.takePrivilege n).fences = s.fences := by
  simp [State.takePrivilege]
@[simp] theorem State.takePrivilege_invs (s : State) (n : Nat) : (s.takePrivilege n).invs = s.invs := by
  simp [State.takePrivilege]
@[simp] theorem State.takePrivilege_mwops (s : State) (n : Nat) : (s.takePrivilege n).mwops = s.mwops := by
  simp [State.takePrivilege]
@[simp] theorem State.takePrivilege_locks (s : State) (n : Nat) : (s.takePrivilege n).locks = s.locks := by
  simp [State.takePrivilege]
@[simp] theorem State.takePrivilege_watches (s : State) (n : Nat) : (s.takePrivilege n).watches = s.watches := by
  simp [State.takePrivilege]
@[simp] theorem State.takePrivilege_arrivals (s : State) (n : Nat) : (s.takePrivilege n).arrivals = s.arrivals := by
  simp [State.takePrivilege]
@[simp] theorem State.takePrivilege_dir (s : State) (n : Nat) : (s.takePrivilege n).dir = s.dir := by
  simp [State.takePrivilege]
@[simp] theorem State.takePrivilege_recalls (s : State) (n : Nat) : (s.takePrivilege n).recalls = s.recalls := by
  simp [State.takePrivilege]
@[simp] theorem State.takePrivilege_sliceLines (s : State) (n : Nat) : (s.takePrivilege n).sliceLines = s.sliceLines := by
  simp [State.takePrivilege]
@[simp] theorem State.takePrivilege_plru (s : State) (n : Nat) : (s.takePrivilege n).plru = s.plru := by
  simp [State.takePrivilege]
@[simp] theorem State.takePrivilege_merges (s : State) (n : Nat) : (s.takePrivilege n).merges = s.merges := by
  simp [State.takePrivilege]
@[simp] theorem State.takePrivilege_flights (s : State) (n : Nat) : (s.takePrivilege n).flights = s.flights := by
  simp [State.takePrivilege]
@[simp] theorem State.takePrivilege_grants (s : State) (n : Nat) : (s.takePrivilege n).grants = s.grants := by
  simp [State.takePrivilege]
@[simp] theorem State.takePrivilege_queues (s : State) (n : Nat) : (s.takePrivilege n).queues = s.queues := by
  simp [State.takePrivilege]
@[simp] theorem State.takePrivilege_regions (s : State) (n : Nat) : (s.takePrivilege n).regions = s.regions := by
  simp [State.takePrivilege]
@[simp] theorem State.takePrivilege_saved (s : State) (n : Nat) : (s.takePrivilege n).saved = s.saved := by
  simp [State.takePrivilege]
@[simp] theorem State.takePrivilege_images (s : State) (n : Nat) : (s.takePrivilege n).images = s.images := by
  simp [State.takePrivilege]
@[simp] theorem State.takePrivilege_draftlds (s : State) (n : Nat) : (s.takePrivilege n).draftlds = s.draftlds := by
  simp [State.takePrivilege]
@[simp] theorem State.takePrivilege_streams (s : State) (n : Nat) : (s.takePrivilege n).streams = s.streams := by
  simp [State.takePrivilege]
@[simp] theorem State.takePrivilege_closes (s : State) (n : Nat) : (s.takePrivilege n).closes = s.closes := by
  simp [State.takePrivilege]
@[simp] theorem State.takePrivilege_colls (s : State) (n : Nat) : (s.takePrivilege n).colls = s.colls := by
  simp [State.takePrivilege]
@[simp] theorem State.takePrivilege_traversals (s : State) (n : Nat) : (s.takePrivilege n).traversals = s.traversals := by
  simp [State.takePrivilege]
@[simp] theorem State.takePrivilege_walks (s : State) (n : Nat) : (s.takePrivilege n).walks = s.walks := by
  simp [State.takePrivilege]
@[simp] theorem State.takePrivilege_lqueues (s : State) (n : Nat) : (s.takePrivilege n).lqueues = s.lqueues := by
  simp [State.takePrivilege]
@[simp] theorem State.takePrivilege_mig (s : State) (n : Nat) : (s.takePrivilege n).mig = s.mig := by
  simp [State.takePrivilege]
@[simp] theorem State.takePrivilege_hub (s : State) (n : Nat) : (s.takePrivilege n).hub = s.hub := by
  simp [State.takePrivilege]
@[simp] theorem State.takePrivilege_sched (s : State) (n : Nat) : (s.takePrivilege n).sched = s.sched := by
  simp [State.takePrivilege]
@[simp] theorem State.takePrivilege_time (s : State) (n : Nat) : (s.takePrivilege n).time = s.time := by
  simp [State.takePrivilege]
@[simp] theorem State.takePrivilege_persistNext (s : State) (n : Nat) : (s.takePrivilege n).persistNext = s.persistNext := by
  simp [State.takePrivilege]
@[simp] theorem State.takePrivilege_upsets (s : State) (n : Nat) : (s.takePrivilege n).upsets = s.upsets := by
  simp [State.takePrivilege]
@[simp] theorem State.takePrivilege_hostCopies (s : State) (n : Nat) : (s.takePrivilege n).hostCopies = s.hostCopies := by
  simp [State.takePrivilege]
@[simp] theorem State.takePrivilege_servedNow (s : State) (n : Nat) : (s.takePrivilege n).servedNow = s.servedNow := by
  simp [State.takePrivilege]
@[simp] theorem State.takePrivilege_hostValue (s : State) (n : Nat) : (s.takePrivilege n).hostValue = s.hostValue := by
  simp [State.takePrivilege]
@[simp] theorem State.takePrivilege_cur (s : State) (n : Nat) : (s.takePrivilege n).cur = s.cur := by
  simp [State.takePrivilege]
@[simp] theorem State.takePrivilege_env (s : State) (n : Nat) : (s.takePrivilege n).env = s.env := by
  simp [State.takePrivilege]

end Sys2Proof.Machine
end

