-- ==== Sys2Proof/Laws/Cells.lean ====
section
/-! SUPPORT. Looking up cells, elements and contexts after an update. -/

namespace Sys2Proof.Machine

theorem getD_modify {α : Type} (xs : List α) (i j : Nat) (f : α → α) (d : α) :
    (xs.modify i f).getD j d = if i = j ∧ j < xs.length then f (xs.getD j d) else xs.getD j d := by
  simp only [List.getD_eq_getElem?_getD, List.getElem?_modify]
  by_cases h : i = j
  · subst h
    by_cases k : i < xs.length <;> simp [k]
  · simp [h]

theorem find_updateWhere (xs : List Cell) (c d : Nat) (f : Cell → Cell) (hf : ∀ k, (f k).id = k.id) :
    (updateWhere (·.id == c) f xs).find? (·.id == d) =
      if d = c then (xs.find? (·.id == d)).map f else xs.find? (·.id == d) := by
  induction xs with
  | nil => simp [updateWhere]
  | cons k ks ih =>
    have hid : ∀ k : Cell, (if (k.id == c) = true then f k else k).id = k.id := by intro k; split <;> simp [hf]
    simp only [updateWhere, List.map_cons, List.find?_cons, hid] at ih ⊢
    by_cases hd : k.id = d
    · subst hd
      by_cases hk : k.id = c <;> simp [hk]
    · have h1 : (k.id == d) = false := beq_eq_false_iff_ne.2 hd
      simp only [h1]; exact ih

/-- A cell after an update of one that is loaded. -/
theorem State.cell_setCell (s : State) (c d : Nat) (f : Cell → Cell) (hf : ∀ k, (f k).id = k.id)
    (h : s.loaded c = true) : (s.setCell c f).cell d = if d = c then f (s.cell d) else s.cell d := by
  unfold State.cell State.setCell
  rw [find_updateWhere _ _ _ _ hf]
  by_cases hd : d = c
  · subst hd
    have : (s.cells.find? (·.id == d)).isSome := by simpa [State.loaded, List.find?_isSome] using h
    obtain ⟨k, hk⟩ := Option.isSome_iff_exists.1 this
    simp [hk]
  · simp [hd]

/-- Another cell after an update, loaded or not. -/
theorem State.cell_setCell_ne (s : State) (c d : Nat) (f : Cell → Cell) (hf : ∀ k, (f k).id = k.id)
    (h : d ≠ c) : (s.setCell c f).cell d = s.cell d := by
  unfold State.cell State.setCell
  rw [find_updateWhere _ _ _ _ hf]; simp [h]

/-- A property of a cell that an update keeps, loaded or not. -/
theorem State.cell_setCell_same {α : Type} (g : Cell → α) (s : State) (c d : Nat) (f : Cell → Cell)
    (hf : ∀ k, (f k).id = k.id) (hg : ∀ k, g (f k) = g k) : g ((s.setCell c f).cell d) = g (s.cell d) := by
  unfold State.cell State.setCell
  rw [find_updateWhere _ _ _ _ hf]
  split
  · cases s.cells.find? (·.id == d) <;> simp [hg]
  · rfl

@[simp] theorem State.loaded_setCell (s : State) (c d : Nat) (f : Cell → Cell) (hf : ∀ k, (f k).id = k.id) :
    (s.setCell c f).loaded d = s.loaded d := by
  simp only [State.loaded, State.setCell, updateWhere, List.any_map]
  congr 1; funext k; simp only [Function.comp]; split <;> simp [hf]

theorem Cell.elem_setElem (c : Cell) (e j : Nat) (f : Elem → Elem) :
    (c.setElem e f).elem j = if e = j ∧ j < c.elems.length then f (c.elem j) else c.elem j := by
  exact getD_modify _ _ _ _ _

theorem Elem.ctx_setCtx (k : Elem) (x j : Nat) (f : Ctx → Ctx) :
    (k.setCtx x f).ctx j = if x = j ∧ j < k.ctxs.length then f (k.ctx j) else k.ctx j := by
  exact getD_modify _ _ _ _ _

@[simp] theorem Cell.setElem_id (c : Cell) (e : Nat) (f : Elem → Elem) : (c.setElem e f).id = c.id := rfl
@[simp] theorem Cell.setElem_length (c : Cell) (e : Nat) (f : Elem → Elem) :
    (c.setElem e f).elems.length = c.elems.length := by simp [Cell.setElem, modifyAt]
@[simp] theorem Elem.setCtx_length (k : Elem) (x : Nat) (f : Ctx → Ctx) :
    (k.setCtx x f).ctxs.length = k.ctxs.length := by simp [Elem.setCtx, modifyAt]

/-- What an update of one element leaves of its cell. -/
theorem Cell.setElem_rest (c : Cell) (e : Nat) (f : Elem → Elem) :
    c.setElem e f = { c with elems := (c.setElem e f).elems } := rfl

theorem State.cell_setElem (s : State) (c d e : Nat) (f : Elem → Elem) (h : s.loaded c = true) :
    (s.setElem c e f).cell d = if d = c then (s.cell d).setElem e f else s.cell d :=
  s.cell_setCell c d _ (fun _ => rfl) h

theorem State.cell_setElem_ne (s : State) (c d e : Nat) (f : Elem → Elem) (h : d ≠ c) :
    (s.setElem c e f).cell d = s.cell d := s.cell_setCell_ne c d _ (fun _ => rfl) h

@[simp] theorem State.loaded_setElem (s : State) (c d e : Nat) (f : Elem → Elem) :
    (s.setElem c e f).loaded d = s.loaded d := s.loaded_setCell c d _ (fun _ => rfl)

@[simp] theorem State.loaded_setCtx (s : State) (c d e x : Nat) (f : Ctx → Ctx) :
    (s.setCtx c e x f).loaded d = s.loaded d := s.loaded_setElem c d e _

/-- The context after an update of it. -/
theorem State.ctxOf_setCtx (s : State) (c e x : Nat) (f : Ctx → Ctx) (h : s.loaded c = true)
    (he : e < (s.cell c).elems.length) (hx : x < ((s.cell c).elem e).ctxs.length) :
    (s.setCtx c e x f).ctxOf c e x = f (s.ctxOf c e x) := by
  simp [State.ctxOf, Cell.ctx, State.setCtx, State.cell_setElem _ _ _ _ _ h, Cell.elem_setElem, Elem.ctx_setCtx, he, hx]

/-- Another context after an update. -/
theorem State.ctxOf_setCtx_ne (s : State) (c e x d j y : Nat) (f : Ctx → Ctx) (h : s.loaded c = true) (hn : (d, j, y) ≠ (c, e, x)) :
    (s.setCtx c e x f).ctxOf d j y = s.ctxOf d j y := by
  simp only [State.ctxOf, Cell.ctx, State.setCtx, State.cell_setElem _ _ _ _ _ h]
  split
  · rw [Cell.elem_setElem]; split
    · rw [Elem.ctx_setCtx, if_neg]; rintro ⟨rfl, _⟩; simp_all
    · rfl
  · rfl

end Sys2Proof.Machine
end

