-- ==== Sys2Proof/Laws/Mem.lean ====
section
/-! SUPPORT. Memory: every operation on it keeps the canonical form, and what a byte reads as after it. -/

namespace Sys2Proof.Machine

/-! Runs of bytes. -/

theorem runCells_bounds {a : Nat} {bs : List Nat} {c : Host.Cell} (h : c ∈ runCells a bs) : a ≤ c.1 ∧ c.1 < a + bs.length := by
  induction bs generalizing a with
  | nil => simp [runCells] at h
  | cons b bs ih =>
    simp only [runCells] at h
    split at h
    · have := ih h; simp only [List.length_cons]; omega
    · rcases List.mem_cons.1 h with rfl | h
      · simp only [List.length_cons]; omega
      · have := ih h; simp only [List.length_cons]; omega

theorem runCells_nonzero {a : Nat} {bs : List Nat} {c : Host.Cell} (h : c ∈ runCells a bs) : c.2 ≠ 0 := by
  induction bs generalizing a with
  | nil => simp [runCells] at h
  | cons b bs ih =>
    simp only [runCells] at h
    split at h
    · exact ih h
    · rcases List.mem_cons.1 h with rfl | h
      · assumption
      · exact ih h

theorem runCells_rising (a : Nat) (bs : List Nat) : (runCells a bs).Pairwise fun x y => x.1 < y.1 := by
  induction bs generalizing a with
  | nil => simp [runCells]
  | cons b bs ih =>
    simp only [runCells]
    split
    · exact ih _
    · refine List.pairwise_cons.2 ⟨fun c hc => ?_, ih _⟩
      have := runCells_bounds hc
      simp only; omega

/-! The canonical form is kept. -/

theorem Memory.wf_nil : Memory.wf [] := by simp [Memory.wf]

theorem Memory.wf_filter {m : List Host.Cell} (p : Host.Cell → Bool) (h : Memory.wf m) : Memory.wf (m.filter p) :=
  ⟨h.1.filter p, fun c hc => h.2 c (List.mem_of_mem_filter hc)⟩

/-- Three parts below, within and above a range make a canonical memory where each is canonical. -/
theorem Memory.wf_parts {x y z : List Host.Cell} {a b : Nat} (hx : Memory.wf x) (hy : Memory.wf y) (hz : Memory.wf z)
    (h1 : ∀ c ∈ x, c.1 < a) (h2 : ∀ c ∈ y, a ≤ c.1 ∧ c.1 < b) (h3 : ∀ c ∈ z, b ≤ c.1) (hab : a ≤ b) : Memory.wf (x ++ y ++ z) := by
  refine ⟨?_, ?_⟩
  · simp only [List.pairwise_append, List.mem_append]
    refine ⟨⟨hx.1, hy.1, fun c hc d hd => ?_⟩, hz.1, fun c hc d hd => ?_⟩
    · have := h1 c hc; have := h2 d hd; omega
    · have := h3 d hd
      rcases hc with hc | hc
      · have := h1 c hc; omega
      · have := h2 c hc; omega
  · intro c hc
    simp only [List.mem_append] at hc
    rcases hc with (hc | hc) | hc
    · exact hx.2 c hc
    · exact hy.2 c hc
    · exact hz.2 c hc

theorem memStore_wf {m : List Host.Cell} (a : Nat) (bs : List Nat) (h : Memory.wf m) : Memory.wf (memStore m a bs) :=
  Memory.wf_parts (a := a) (b := a + bs.length) (Memory.wf_filter _ h) ⟨runCells_rising a bs, fun _ hc => runCells_nonzero hc⟩
    (Memory.wf_filter _ h)
    (fun c hc => by simpa using (List.mem_filter.1 hc).2) (fun _ hc => runCells_bounds hc)
    (fun c hc => by simpa using (List.mem_filter.1 hc).2) (by omega)

theorem memStoreMasked_wf {m : List Host.Cell} (a mask : Nat) (bs : List Nat) (h : Memory.wf m) :
    Memory.wf (memStoreMasked m a mask bs) := memStore_wf a _ h

theorem moveRange_wf {m : List Host.Cell} (src dst n : Nat) (h : Memory.wf m) : Memory.wf (moveRange m src dst n) := by
  have moved : Memory.wf ((m.filter fun c => src ≤ c.1 && c.1 < src + n).map fun c => (c.1 - src + dst, c.2)) := by
    refine ⟨?_, fun c hc => ?_⟩
    · refine List.pairwise_map.2 ((h.1.filter _).imp_of_mem fun {x y} hx hy k => ?_)
      have := (List.mem_filter.1 hx).2; have := (List.mem_filter.1 hy).2
      simp only [Bool.and_eq_true, decide_eq_true_eq] at *
      omega
    · obtain ⟨d, hd, rfl⟩ := List.mem_map.1 hc
      exact h.2 d (List.mem_of_mem_filter hd)
  refine Memory.wf_parts (a := dst) (b := dst + n) (Memory.wf_filter _ h) moved (Memory.wf_filter _ h)
    (fun c hc => by simpa using (List.mem_filter.1 hc).2) (fun c hc => ?_) (fun c hc => by simpa using (List.mem_filter.1 hc).2) (by omega)
  obtain ⟨d, hd, rfl⟩ := List.mem_map.1 hc
  have := (List.mem_filter.1 hd).2
  simp only [Bool.and_eq_true, decide_eq_true_eq] at *
  omega

theorem bootMemory_wf (fw : Firmware) (table : List Nat) : Memory.wf (bootMemory fw table) := by
  refine memStore_wf _ _ (Memory.wf_filter _ ?_)
  have go : ∀ (xs m : List Host.Cell), Memory.wf m → Memory.wf (xs.foldl (fun m c => memStore m c.1 [c.2.toNat]) m) := by
    intro xs
    induction xs with
    | nil => exact fun m h => h
    | cons x xs ih => exact fun m h => ih _ (memStore_wf _ _ h)
  exact go _ _ Memory.wf_nil

theorem reset_mem_wf : Memory.wf State.reset.mem := Memory.wf_nil

/-! Reads after writes. -/

theorem memRead_nil (x : Nat) : memRead [] x = 0 := rfl

theorem memRead_cons (c : Host.Cell) (m : List Host.Cell) (x : Nat) : memRead (c :: m) x = if c.1 = x then c.2.toNat else memRead m x := by
  simp only [memRead, List.find?_cons]
  by_cases h : c.1 = x
  · simp [h]
  · have : (c.1 == x) = false := by simpa using h
    simp [this, h]

theorem memRead_unlisted {m : List Host.Cell} {x : Nat} (h : ∀ c ∈ m, c.1 ≠ x) : memRead m x = 0 := by
  induction m with
  | nil => rfl
  | cons c m ih =>
    rw [memRead_cons, if_neg (h c (by simp))]
    exact ih fun d hd => h d (by simp [hd])

theorem memRead_append {m n : List Host.Cell} {x : Nat} (h : ∀ c ∈ m, c.1 ≠ x) : memRead (m ++ n) x = memRead n x := by
  induction m with
  | nil => rfl
  | cons c m ih =>
    rw [List.cons_append, memRead_cons, if_neg (h c (by simp))]
    exact ih fun d hd => h d (by simp [hd])

theorem memRead_append_left {m n : List Host.Cell} {x : Nat} (h : ∀ c ∈ n, c.1 ≠ x) : memRead (m ++ n) x = memRead m x := by
  induction m with
  | nil => exact memRead_unlisted h
  | cons c m ih => rw [List.cons_append, memRead_cons, memRead_cons, ih]

theorem memRead_filter {m : List Host.Cell} {x : Nat} (p : Host.Cell → Bool) (h : ∀ c, c.1 = x → p c = true) :
    memRead (m.filter p) x = memRead m x := by
  induction m with
  | nil => rfl
  | cons c m ih =>
    rw [List.filter_cons, memRead_cons]
    split
    · rw [memRead_cons, ih]
    · rename_i hp
      rw [if_neg fun hc => hp (h c hc), ih]

theorem memRead_runCells (a : Nat) (bs : List Nat) (x : Nat) :
    memRead (runCells a bs) x = if a ≤ x ∧ x < a + bs.length then bs.getD (x - a) 0 % 256 else 0 := by
  induction bs generalizing a with
  | nil => simp [runCells, memRead_nil]
  | cons b bs ih =>
    have zero : BitVec.ofNat 8 b = 0 → b % 256 = 0 := by
      intro h; have := congrArg BitVec.toNat h; simpa using this
    have cons : memRead (runCells a (b :: bs)) x = if a = x then b % 256 else memRead (runCells (a + 1) bs) x := by
      simp only [runCells]
      split
      · rename_i hz
        split
        · rename_i hx
          rw [zero hz, memRead_unlisted]
          exact fun c hc => by have := runCells_bounds hc; omega
        · rfl
      · rw [memRead_cons]; simp
    rw [cons, ih]
    split
    · rename_i hx
      subst hx; simp
    · by_cases hr : a + 1 ≤ x ∧ x < a + 1 + bs.length
      · obtain ⟨k, rfl⟩ : ∃ k, x = a + 1 + k := ⟨x - (a + 1), by omega⟩
        have h1 : a + 1 + k - a = k + 1 := by omega
        have h2 : a + 1 + k - (a + 1) = k := by omega
        rw [if_pos hr, if_pos (by simp only [List.length_cons]; omega), h1, h2]; rfl
      · rw [if_neg hr, if_neg (by simp only [List.length_cons]; omega)]

/-- After a run of bytes is stored, its bytes read back, and every other byte as before. -/
theorem memRead_memStore (m : List Host.Cell) (a : Nat) (bs : List Nat) (x : Nat) :
    memRead (memStore m a bs) x = if a ≤ x ∧ x < a + bs.length then bs.getD (x - a) 0 % 256 else memRead m x := by
  simp only [memStore]
  have low : ∀ c ∈ m.filter (fun c => decide (c.1 < a)), c.1 < a := fun c hc => by simpa using (List.mem_filter.1 hc).2
  have high : ∀ c ∈ m.filter (fun c => decide (a + bs.length ≤ c.1)), a + bs.length ≤ c.1 :=
    fun c hc => by simpa using (List.mem_filter.1 hc).2
  have run := fun c (hc : c ∈ runCells a bs) => runCells_bounds hc
  by_cases h1 : x < a
  · rw [if_neg (by omega), memRead_append_left fun c hc => by have := high c hc; omega,
      memRead_append_left fun c hc => by have := run c hc; omega]
    exact memRead_filter _ fun c hc => by simpa [hc] using h1
  · by_cases h2 : x < a + bs.length
    · rw [if_pos (by omega), memRead_append_left fun c hc => by have := high c hc; omega,
        memRead_append fun c hc => by have := low c hc; omega, memRead_runCells, if_pos (by omega)]
    · rw [if_neg (by omega), List.append_assoc, memRead_append fun c hc => by have := low c hc; omega,
        memRead_append fun c hc => by have := run c hc; omega]
      exact memRead_filter _ fun c hc => by rw [hc]; simpa using h2

theorem memRead_lt (m : List Host.Cell) (x : Nat) : memRead m x < 256 := by
  simp only [memRead]
  split
  · exact BitVec.isLt _
  · decide

/-- The bytes that a mask selects are stored, and every other byte reads as before. -/
theorem memRead_memStoreMasked (m : List Host.Cell) (a mask : Nat) (bs : List Nat) (x : Nat) :
    memRead (memStoreMasked m a mask bs) x =
      if a ≤ x ∧ x < a + bs.length ∧ bit mask (x - a) = true then bs.getD (x - a) 0 % 256 else memRead m x := by
  simp only [memStoreMasked, memRead_memStore, List.length_map, List.length_zip, List.length_range, Nat.min_self]
  by_cases h : a ≤ x ∧ x < a + bs.length
  · have hi : x - a < bs.length := by omega
    have hg : ((bs.zip (List.range bs.length)).map fun p => if bit mask p.2 = true then p.1 else memRead m (a + p.2)).getD (x - a) 0 =
        if bit mask (x - a) = true then bs.getD (x - a) 0 else memRead m x := by
      simp [hi, List.getD_eq_getElem?_getD, show a + (x - a) = x by omega]
    rw [if_pos h, hg]
    by_cases hb : bit mask (x - a) = true
    · simp [h, hb]
    · simp [h, hb, Nat.mod_eq_of_lt (memRead_lt m x)]
  · rw [if_neg h, if_neg fun k => h ⟨k.1, k.2.1⟩]

/-- Bytes of a range moved stand at the destination; every byte outside it reads as before. -/
theorem memRead_moveRange (m : List Host.Cell) (src dst n x : Nat) :
    memRead (moveRange m src dst n) x = if dst ≤ x ∧ x < dst + n then memRead m (x - dst + src) else memRead m x := by
  simp only [moveRange]
  have low : ∀ c ∈ m.filter (fun c => decide (c.1 < dst)), c.1 < dst := fun c hc => by simpa using (List.mem_filter.1 hc).2
  have high : ∀ c ∈ m.filter (fun c => decide (dst + n ≤ c.1)), dst + n ≤ c.1 := fun c hc => by simpa using (List.mem_filter.1 hc).2
  have mid : ∀ c ∈ (m.filter fun c => decide (src ≤ c.1) && decide (c.1 < src + n)).map (fun c => (c.1 - src + dst, c.2)),
      dst ≤ c.1 ∧ c.1 < dst + n := fun c hc => by
    obtain ⟨d, hd, rfl⟩ := List.mem_map.1 hc
    have := (List.mem_filter.1 hd).2
    simp only [Bool.and_eq_true, decide_eq_true_eq] at *
    omega
  have moved : ∀ m : List Host.Cell, dst ≤ x → x < dst + n →
      memRead ((m.filter fun c => decide (src ≤ c.1) && decide (c.1 < src + n)).map fun c => (c.1 - src + dst, c.2)) x =
        memRead m (x - dst + src) := by
    intro m h1 h2
    induction m with
    | nil => rfl
    | cons c m ih =>
      rw [List.filter_cons, memRead_cons]
      split
      · rename_i hc
        simp only [Bool.and_eq_true, decide_eq_true_eq] at hc
        rw [List.map_cons, memRead_cons, ih]
        by_cases k : c.1 = x - dst + src
        · rw [if_pos k, if_pos (by simp only; omega)]
        · rw [if_neg k, if_neg (by simp only; omega)]
      · rename_i hc
        simp only [Bool.and_eq_true, decide_eq_true_eq] at hc
        rw [if_neg (by omega), ih]
  by_cases h1 : x < dst
  · rw [if_neg (by omega), memRead_append_left fun c hc => by have := high c hc; omega,
      memRead_append_left fun c hc => by have := mid c hc; omega]
    exact memRead_filter _ fun c hc => by simpa [hc] using h1
  · by_cases h2 : x < dst + n
    · rw [if_pos (by omega), memRead_append_left fun c hc => by have := high c hc; omega,
        memRead_append fun c hc => by have := low c hc; omega, moved m (by omega) h2]
    · rw [if_neg (by omega), List.append_assoc, memRead_append fun c hc => by have := low c hc; omega,
        memRead_append fun c hc => by have := mid c hc; omega]
      exact memRead_filter _ fun c hc => by rw [hc]; simpa using h2

/-- Equal memories are equal data: canonical memories with the same bytes are the same list. -/
theorem Memory.ext {m n : List Host.Cell} (hm : Memory.wf m) (hn : Memory.wf n) (h : ∀ x, memRead m x = memRead n x) : m = n := by
  have nz : ∀ c : Host.Cell, c.2 ≠ 0 → c.2.toNat ≠ 0 := fun c hc h => hc (by simpa using congrArg (BitVec.ofNat 8) h)
  induction m generalizing n with
  | nil =>
    cases n with
    | nil => rfl
    | cons c n =>
      have := h c.1
      rw [memRead_cons, if_pos rfl, memRead_nil] at this
      exact absurd this.symm (nz c (hn.2 c (by simp)))
  | cons c m ih =>
    have hc := List.pairwise_cons.1 hm.1
    cases n with
    | nil =>
      have := h c.1
      rw [memRead_cons, if_pos rfl, memRead_nil] at this
      exact absurd this (nz c (hm.2 c (by simp)))
    | cons d n =>
      have hd := List.pairwise_cons.1 hn.1
      have tail : ∀ {c : Host.Cell} {m : List Host.Cell}, (∀ x ∈ m, c.1 < x.1) → ∀ x, x ≤ c.1 → memRead m x = 0 := by
        intro c m hc x hx
        exact memRead_unlisted fun e he => by have := hc e he; omega
      have key : c.1 = d.1 := by
        rcases Nat.lt_trichotomy c.1 d.1 with k | k | k
        · have := h c.1
          rw [memRead_cons, if_pos rfl, memRead_cons, if_neg (by omega), tail hd.1 c.1 (by omega)] at this
          exact absurd this (nz c (hm.2 c (by simp)))
        · exact k
        · have := h d.1
          rw [memRead_cons, if_neg (by omega), memRead_cons, if_pos rfl, tail hc.1 d.1 (by omega)] at this
          exact absurd this.symm (nz d (hn.2 d (by simp)))
      have val : c = d := by
        have := h c.1
        rw [memRead_cons, if_pos rfl, memRead_cons, if_pos key.symm] at this
        exact Prod.ext key (BitVec.eq_of_toNat_eq this)
      subst val
      rw [ih ⟨hc.2, fun x hx => hm.2 x (by simp [hx])⟩ ⟨hd.2, fun x hx => hn.2 x (by simp [hx])⟩ fun x => ?_]
      have := h x
      rw [memRead_cons, memRead_cons] at this
      by_cases k : c.1 = x
      · rw [tail hc.1 x (by omega), tail hd.1 x (by omega)]
      · rwa [if_neg k, if_neg k] at this

/-! The state's memory: the operations that write it keep its form. -/

theorem homeWriteMasked_mem (s : State) (pa mask : Nat) (bs : List Nat) :
    (s.homeWriteMasked pa mask bs).mem = memStoreMasked s.mem pa mask bs := rfl

theorem homeWrite_wf {s : State} (pa : Nat) (bs : List Nat) (h : Memory.wf s.mem) : Memory.wf (s.homeWrite pa bs).mem :=
  memStoreMasked_wf _ _ _ h

theorem foldl_wf {α : Type} (f : State → α → State) (hf : ∀ s a, Memory.wf s.mem → Memory.wf (f s a).mem) (xs : List α) {s : State}
    (h : Memory.wf s.mem) : Memory.wf (xs.foldl f s).mem := by
  induction xs generalizing s with
  | nil => exact h
  | cons x xs ih => exact ih (hf s x h)

/-! The directory and the records of what is performed do not touch memory. -/

@[simp] theorem setGroupLine_mem (s : State) (r i : Nat) (ls : List DirMode) (m : DirMode) : (s.setGroupLine r i ls m).mem = s.mem := rfl

@[simp] theorem dirRelease_mem (s : State) (line : Nat) : (s.dirRelease line).mem = s.mem := by
  unfold State.dirRelease
  dsimp only
  split
  · split <;> rfl
  · rfl

@[simp] theorem dirDrop_mem (s : State) (agent line : Nat) : (s.dirDrop agent line).mem = s.mem := by
  unfold State.dirDrop
  dsimp only
  split
  · rfl
  · split
    · rfl
    · split <;> rfl
    · rfl

@[simp] theorem dropCopy_mem (s : State) (agent line : Nat) : (s.dropCopy agent line).mem = s.mem := by
  unfold State.dropCopy; split <;> rfl

@[simp] theorem carryErrors_mem (s : State) (agent : Nat) (l : CchLine) : (s.carryErrors agent l).mem = s.mem := rfl

@[simp] theorem merged_mem (s : State) (cell line mask : Nat) : (s.merged cell line mask).mem = s.mem := rfl

theorem evictLine_wf {s : State} (cell line : Nat) (h : Memory.wf s.mem) : Memory.wf (s.evictLine cell line).mem := by
  simp only [State.evictLine]
  split
  · exact h
  · rename_i l _
    have h1 : Memory.wf (s.writeBytes l l.dirty).mem := by
      simp only [State.writeBytes]
      split
      · exact h
      · exact memStoreMasked_wf _ _ _ h
    have h2 : Memory.wf ((s.writeBytes l l.dirty).writeDescs l 3).mem :=
      foldl_wf _ (fun s b hs => by split <;> first | exact memStore_wf _ _ hs | exact hs) _ h1
    split <;> simpa using h2

theorem evictAll_wf {s : State} (cell : Nat) (h : Memory.wf s.mem) : Memory.wf (s.evictAll cell).mem :=
  foldl_wf _ (fun _ _ hs => evictLine_wf _ _ hs) _ h

theorem pull_wf {s : State} (line : Nat) (store : Bool) (keep : Option Nat) (h : Memory.wf s.mem) : Memory.wf (s.pull line store keep).mem := by
  unfold State.pull
  dsimp only
  split
  · exact h
  · have h1 := foldl_wf (fun s c => s.evictLine c line) (fun _ _ hs => evictLine_wf _ _ hs) (s.conflicts line store keep) h
    split
    · simpa using h1
    · exact h1

@[simp] theorem writeCopy_mem (s : State) (c pa : Nat) (bs : List Nat) (desc : Option Nat) : (s.writeCopy c pa bs desc).mem = s.mem := by
  unfold State.writeCopy
  dsimp only
  split
  · rfl
  · split <;> rfl

theorem storeHome_wf {s : State} (pa : Nat) (bs : List Nat) (desc : Option Nat) (h : Memory.wf s.mem) :
    Memory.wf (s.storeHome pa bs desc).mem := by
  cases desc with
  | none => exact homeWrite_wf _ _ (pull_wf _ _ _ h)
  | some d => exact memStore_wf _ _ (homeWrite_wf _ _ (pull_wf _ _ _ h))

/-- A store performed at once keeps the form, whether it lands in a copy or at home. -/
theorem storeNow_wf {s : State} (cell : Option Nat) (pa : Nat) (bs : List Nat) (desc : Option Nat) (h : Memory.wf s.mem) :
    Memory.wf (s.storeNow cell pa bs desc).mem := by
  unfold State.storeNow
  split
  · split
    · rwa [writeCopy_mem]
    · exact storeHome_wf _ _ _ h
  · exact storeHome_wf _ _ _ h

/-- A store merged at home on a software-managed page keeps the form. -/
theorem storeThrough_wf {s : State} (cell : Option Nat) (pa : Nat) (bs : List Nat) (h : Memory.wf s.mem) :
    Memory.wf (s.storeThrough cell pa bs).mem := by
  unfold State.storeThrough
  dsimp only
  split <;> exact homeWrite_wf _ _ h

/-- Single-bit errors are put right without touching memory. -/
@[simp] theorem correctSingles_mem (s : State) (die : Nat) (hit : Upset → Bool) : (s.correctSingles die hit).mem = s.mem := by
  unfold State.correctSingles; dsimp only; split <;> rfl

@[simp] theorem correctAt_mem (s : State) (pa n : Nat) : (s.correctAt pa n).mem = s.mem := by
  rw [State.correctAt, correctSingles_mem, State.refetch]; split <;> rfl

theorem copyPage_wf {s : State} (src dst n : Nat) (d : Bool) (h : Memory.wf s.mem) : Memory.wf (s.copyPage src dst n d).mem := by
  have pull : ∀ {s : State} (pa n : Nat), Memory.wf s.mem → Memory.wf (s.pullRange pa n).mem := fun pa n h =>
    foldl_wf _ (fun _ _ hs => pull_wf _ _ _ hs) _ h
  have h1 := moveRange_wf src dst n (pull dst n (pull src n h))
  have h2 : (s.copyPage src dst n d).mem = if d then moveRange (moveRange ((s.pullRange src n).pullRange dst n).mem src dst n)
      (((s.pullRange src n).pullRange dst n).descAddr src) (((s.pullRange src n).pullRange dst n).descAddr dst) (n / 32)
      else moveRange ((s.pullRange src n).pullRange dst n).mem src dst n := rfl
  rw [h2]
  cases d with
  | false => exact h1
  | true => exact moveRange_wf _ _ _ h1

/-- The SRAM pool of a cell keeps the form under a store of a run of its bytes. -/
theorem sramStore_wf {s : State} (c a : Nat) (bs : List Nat) (hl : s.loaded c = true) (h : Memory.wf (s.cell c).sram) :
    Memory.wf ((s.sramStore c a bs).cell c).sram := by
  simp only [State.sramStore]
  rw [State.cell_setCell _ _ _ _ (by exact fun _ => rfl) (by exact hl), if_pos rfl]
  exact memStore_wf _ _ h

end Sys2Proof.Machine
end

