-- ==== Sys2Proof/Laws/Engine.lean ====
section
/-! SUPPORT. What the loads and stores of engines answer where nothing holds them up (R31, R131, R132), and that the saved form of a side log
can be read back (R48). -/

namespace Sys2Proof.Machine

/-- No line is locked or recalled, no soft error stands anywhere, and neither a cell nor the host agent holds a copy. -/
structure State.Still (s : State) : Prop where
  locks : s.locks = []
  recalls : s.recalls = []
  upsets : s.upsets = []
  copies : ∀ c ∈ s.cells, c.cch = []
  host : s.hostCopies = []

theorem State.Still.conflicts {s : State} (h : s.Still) (line : Nat) (store : Bool) (keep : Option Nat) : s.conflicts line store keep = [] := by
  have hc : ∀ c ∈ s.cells, c.line? line = none := fun c hm => by simp [Cell.line?, h.copies c hm]
  simp [State.conflicts, State.copyOf, h.host, conflicting]
  exact fun c hm _ => by rw [hc c hm]; rfl

theorem State.Still.pull {s : State} (h : s.Still) (line : Nat) (store : Bool) (keep : Option Nat) : s.pull line store keep = s := by
  rw [State.pull, h.conflicts]; rfl

theorem State.Still.busy {s : State} (h : s.Still) (pa : Nat) : s.busyLine pa = false := by
  simp [State.busyLine, State.locked, State.recalling, h.locks, h.recalls]

theorem State.Still.correct {s : State} (h : s.Still) (pa n : Nat) : s.correctAt pa n = s := by
  simp [State.correctAt, State.refetch, State.upsetAt, State.correctSingles, h.upsets]

theorem State.Still.tagSpoiled {s : State} (h : s.Still) (pa : Nat) : s.tagSpoiled pa = false := by
  simp [State.tagSpoiled, State.upsetAt, h.upsets]

theorem State.Still.spoiled {s : State} (h : s.Still) (pa n : Nat) : s.spoiled pa n = false := by
  simp [State.spoiled, State.sliceSpoiled, h.tagSpoiled, State.upsetAt, h.upsets]

theorem State.Still.ownCopy {s : State} (h : s.Still) (cell : Option Nat) (sm : Bool) (pa : Nat) : s.ownCopy cell sm pa = none := by
  cases cell with
  | none => rfl
  | some c =>
    have : (s.cell c).cch = [] := by
      unfold State.cell
      cases hk : s.cells.find? (·.id == c) with
      | none => rfl
      | some k => exact h.copies _ (List.mem_of_find?_eq_some hk)
    simp [State.ownCopy, Cell.line?, this]

theorem l1Of_bypass (s : State) (cell : Option Nat) {pa leaf : Nat} (h : leafCp leaf = 2) : s.l1Of cell pa leaf = none := by
  simp [State.l1Of, h]

theorem leafManaged_bypass {leaf : Nat} (h : leafCp leaf = 2) : leafManaged leaf = false := by simp [leafManaged, h]

theorem smFill_bypass (s : State) (cell : Option Nat) {hint pa leaf : Nat} (h : leafCp leaf = 2) : s.smFill cell hint pa leaf = s := by
  rw [State.smFill, l1Of_bypass s cell h]

/-- A load through a page that no cache holds (CP = 10, R26) leaves such a state. -/
theorem readPiece_still {s : State} (h : s.Still) {cell : Option Nat} {hint pa leaf va n : Nat} (hl : leafCp leaf = 2) :
    s.readPiece cell hint pa leaf va n = .ok (memBytes s.mem pa n) s := by
  simp [State.readPiece, h.busy, l1Of_bypass s cell hl, leafManaged_bypass hl, State.dropSpoiled, State.ownCopy, State.pullWaits,
    State.pullBad, h.conflicts, hl, h.correct, h.spoiled, smFill_bypass s cell hl, State.loadNow, h.pull]

theorem engineLoadPiece_still {s : State} (h : s.Still) {cell : Option Nat} {die asid hint va n pa leaf page : Nat} {res : Bool} {k : Kind}
    (ht : s.translate cell die asid res k va = (.ok pa leaf page, s)) (hm : inMmio pa = false) (hl : leafCp leaf = 2) :
    s.engineLoadPiece cell die asid res k hint va n = .ok (memBytes s.mem pa n) s := by
  simp [State.engineLoadPiece, ht, hm, readPiece_still h hl]

/-- A fold of reads that leave the state gathers their bytes. -/
theorem foldl_reads {α : Type} (f : HubResult → α → HubResult) (g : α → List Nat) (s : State) (ps : List α)
    (h : ∀ p ∈ ps, ∀ acc, f (.ok acc s) p = .ok (acc ++ g p) s) (acc : List Nat) : ps.foldl f (.ok acc s) = .ok (acc ++ ps.flatMap g) s := by
  induction ps generalizing acc with
  | nil => simp
  | cons p ps ih =>
    rw [List.foldl_cons, h p (by simp), ih fun q hq => h q (by simp [hq])]
    simp

theorem engineLoad_still {s : State} (h : s.Still) {cell : Option Nat} {die asid hint va n : Nat} {res : Bool} (pa leaf page : Nat → Nat)
    (ht : ∀ p ∈ linePieces va n, s.translate cell die asid res .load ((va + p.1) % 2 ^ 64) = (.ok (pa p.1) (leaf p.1) (page p.1), s) ∧
      inMmio (pa p.1) = false ∧ leafCp (leaf p.1) = 2) :
    s.engineLoad cell die asid res hint va n = .ok ((linePieces va n).flatMap fun p => memBytes s.mem (pa p.1) p.2) s := by
  rw [State.engineLoad, foldl_reads (g := fun p => memBytes s.mem (pa p.1) p.2), List.nil_append]
  intro p hp acc
  simp only [engineLoadPiece_still h (ht p hp).1 (ht p hp).2.1 (ht p hp).2.2]

theorem engineStorePiece_still {s : State} (h : s.Still) {cell : Option Nat} {die asid hint va pa leaf page : Nat} {res : Bool}
    (bs : List Nat) (ht : s.translate cell die asid res .store va = (.ok pa leaf page, s)) (hm : inMmio pa = false) (hl : leafCp leaf = 2) :
    s.engineStorePiece cell die asid res hint va bs = .ok [] (s.storeNow none pa bs none) := by
  simp [State.engineStorePiece, State.writePiece, ht, hm, h.busy, l1Of_bypass s cell hl, leafManaged_bypass hl, State.ownCopy,
    State.pullWaits, State.pullBad, h.tagSpoiled, h.conflicts, hl]

/-- The translations asked first: the cell's own, or without a cell the die's (R34). -/
def State.tlbOf (s : State) (cell : Option Nat) (die : Nat) : List TlbEntry :=
  match cell with
  | some c => (s.cell c).tlb
  | none => (s.die die).tlb

/-- A translation that the asking cell holds, or without a cell the die, is used as it stands (R34, R35). -/
theorem translate_held {s : State} {cell : Option Nat} {die asid va : Nat} {res : Bool} {k : Kind} {e : TlbEntry} (hv : va < 2 ^ 56)
    (hh : (s.tlbOf cell die).find? (·.covers asid va) = some e)
    (hf : leafFault k res (e.paOf va) e.leaf = none) (hd : k.writes = true → e.dirtyAt va = true) :
    s.translate cell die asid res k va = (.ok (e.paOf va) e.leaf e.size, s) := by
  have hc : canonical va = true := by simp [canonical, bits]; omega
  have hm : va % 2 ^ 57 = va := by omega
  have hn : (k.writes && !e.dirtyAt va) = false := by cases hk : k.writes <;> simp_all
  rw [State.translate, hc]
  cases cell with
  | none =>
    rw [State.tlbOf] at hh
    simp only [hm, State.tlbHit, State.throughEntry, Option.bind_none, hh, hf, hn, Bool.not_true, Bool.false_eq_true, if_false]
  | some c =>
    rw [State.tlbOf] at hh
    have ha : (s.cell c).tlb.any (·.covers asid va) = true := by
      rw [List.any_eq_true]
      exact ⟨e, List.mem_of_find?_eq_some hh, List.find?_some (p := fun x : TlbEntry => x.covers asid va) hh⟩
    simp only [hm, State.tlbHit, State.throughEntry, Option.bind_some, hh, hf, hn, ha, Bool.not_true, Bool.false_eq_true, if_false, if_true]

/-- A translation that the asking cell holds refuses an access that its leaf does not allow (R29). -/
theorem translate_refused {s : State} {c die asid va : Nat} {res : Bool} {k : Kind} {e : TlbEntry} {f : Nat} (hv : va < 2 ^ 56)
    (hh : (s.cell c).tlb.find? (·.covers asid va) = some e) (hf : leafFault k res (e.paOf va) e.leaf = some f) :
    s.translate (some c) die asid res k va = (.fault f 0, s) := by
  have hc : canonical va = true := by simp [canonical, bits]; omega
  have hm : va % 2 ^ 57 = va := by omega
  rw [State.translate, hc]
  simp only [hm, State.tlbHit, State.throughEntry, Option.bind_some, hh, hf, Bool.not_true, Bool.false_eq_true, if_false]

/-- A restore takes off the mask that a save put over a side log's entry (R48, R386). -/
theorem sideUnmask_sideMask (n : Nat) (bs : List Nat) (h : bs.head? = some 1) : sideUnmask n (sideMask n bs) = bs := by
  have hl : (sideMask n bs).length = bs.length := by simp [sideMask]
  refine List.ext_getElem? fun i => ?_
  by_cases hi : i < bs.length
  · have hm : (sideMask n bs)[i]? = some (if i = 0 then 1 + Config.openValue 383 (1152 * n) % 255 else Nat.xor bs[i] (Config.openValue 383 (1152 * n + i) % 256)) := by
      simp [sideMask, hi, List.getElem_zip]
    have hz : ((sideMask n bs).zip (List.range (sideMask n bs).length))[i]? = some ((sideMask n bs)[i]'(by omega), i) := by
      rw [List.getElem?_eq_getElem (by simp [hl, hi])]
      simp
    rw [sideUnmask, List.getElem?_map, hz, List.getElem?_eq_getElem hi]
    rw [List.getElem?_eq_getElem (by omega)] at hm
    have hm := Option.some.inj hm
    simp only [Option.map_some, hm]
    by_cases h0 : i = 0
    · subst h0
      obtain ⟨x, xs, rfl⟩ := List.exists_cons_of_length_pos hi
      simpa using h.symm
    · simp only [if_neg h0]
      congr 1
      change (bs[i] ^^^ _) ^^^ _ = _
      rw [Nat.xor_assoc, Nat.xor_self, Nat.xor_zero]
  · rw [List.getElem?_eq_none (by simp [sideUnmask, hl]; omega), List.getElem?_eq_none (by omega)]

end Sys2Proof.Machine
end

