-- ==== Sys2Proof/Laws/Firing.lean ====
section
/-! SUPPORT. What the parts of a firing do to cells: one relation for all of them, and what a completed firing leaves. -/

namespace Sys2Proof.Machine

/-! The relation: outside context x of element e of cell c no context changes, and that context becomes g of itself. -/

def Moves (c e x : Nat) (g : Ctx → Ctx) (s u : State) : Prop :=
  u.cur = s.cur ∧ (∀ d, u.loaded d = s.loaded d) ∧ (∀ d, d ≠ c → u.cell d = s.cell d) ∧
  u.cell c = { s.cell c with elems := (u.cell c).elems, dirtyRows := (u.cell c).dirtyRows } ∧
  (u.cell c).elems.length = (s.cell c).elems.length ∧
  (∀ j, j ≠ e → (u.cell c).elem j = (s.cell c).elem j) ∧
  ((u.cell c).elem e).ctxs = ((s.cell c).elem e).ctxs.modify x g

theorem Moves.refl (c e x : Nat) (s : State) : Moves c e x id s s := by simp [Moves]

theorem Moves.trans {c e x : Nat} {g h : Ctx → Ctx} {s u w : State} (m : Moves c e x g s u) (n : Moves c e x h u w) :
    Moves c e x (h ∘ g) s w := by
  obtain ⟨m1, m2, m3, m4, m5, m6, m7⟩ := m
  obtain ⟨n1, n2, n3, n4, n5, n6, n7⟩ := n
  refine ⟨n1.trans m1, fun d => (n2 d).trans (m2 d), fun d hd => (n3 d hd).trans (m3 d hd), ?_, n5.trans m5,
    fun j hj => (n6 j hj).trans (m6 j hj), ?_⟩
  · rw [n4, m4]
  · rw [n7, m7, List.modify_modify_eq]

theorem Moves.loaded {c e x : Nat} {g : Ctx → Ctx} {s u : State} (m : Moves c e x g s u) (d : Nat) : u.loaded d = s.loaded d :=
  m.2.1 d

theorem Moves.ctx {c e x : Nat} {g : Ctx → Ctx} {s u : State} (m : Moves c e x g s u)
    (hx : x < ((s.cell c).elem e).ctxs.length) : u.ctxOf c e x = g (s.ctxOf c e x) := by
  have := m.2.2.2.2.2.2
  simp only [State.ctxOf, Cell.ctx, Elem.ctx, this, getD_modify, hx, and_self, if_true]

theorem Moves.hasCtx_bounds {c e x : Nat} {g : Ctx → Ctx} {s u : State} (m : Moves c e x g s u)
    (h : s.loaded c = true ∧ e < (s.cell c).elems.length ∧ x < ((s.cell c).elem e).ctxs.length) :
    u.loaded c = true ∧ e < (u.cell c).elems.length ∧ x < ((u.cell c).elem e).ctxs.length := by
  obtain ⟨m1, m2, m3, m4, m5, m6, m7⟩ := m
  refine ⟨(m2 c).trans h.1, by omega, ?_⟩
  rw [m7, List.length_modify]; exact h.2.2

/-! Its instances. -/

/-- An update of a part of State other than the cells. -/
theorem Moves.of_cells {c e x : Nat} {s u : State} (h : u.cells = s.cells) (k : u.cur = s.cur) : Moves c e x id s u := by
  have hc : ∀ d, u.cell d = s.cell d := fun d => by simp [State.cell, h]
  simp [Moves, hc, k, State.loaded, h]

/-- An update of an element that leaves its contexts. -/
theorem Moves.setElem (c e x : Nat) (f : Elem → Elem) (s : State) (hf : ∀ k, (f k).ctxs = k.ctxs) :
    Moves c e x id s (s.setElem c e f) := by
  have hr : (s.setElem c e f).cell c = { s.cell c with elems := ((s.setElem c e f).cell c).elems } := by
    by_cases h : s.loaded c = true
    · rw [s.cell_setElem c c e f h]; simp [Cell.setElem]
    · have : s.setElem c e f = s := by
        have h' : ∀ k ∈ s.cells, (k.id == c) = false := by simpa [State.loaded] using h
        have h2 : updateWhere (fun x : Cell => x.id == c) (fun k => k.setElem e f) s.cells = s.cells := by
          simp only [updateWhere]
          refine (List.map_congr_left (g := id) fun k hk => ?_).trans (List.map_id _)
          simp [h' k hk]
        simp only [State.setElem, State.setCell, h2]
      rw [this]
  refine ⟨rfl, fun d => s.loaded_setElem c d e f, fun d hd => s.cell_setElem_ne c d e f hd, ?_, ?_, ?_, ?_⟩
  · rw [hr]
  · exact State.cell_setCell_same (·.elems.length) s c c _ (fun _ => rfl) (fun k => by simp)
  · intro j hj
    refine State.cell_setCell_same (·.elem j) s c c _ (fun _ => rfl) (fun k => ?_)
    simp only [Cell.elem_setElem]; rw [if_neg]; exact fun h => hj h.1.symm
  · rw [List.modify_id]
    refine State.cell_setCell_same (fun k => (k.elem e).ctxs) s c c _ (fun _ => rfl) (fun k => ?_)
    simp only [Cell.elem_setElem]; split <;> simp [hf]

/-- An update of a context. -/
theorem Moves.setCtx (c e x : Nat) (f : Ctx → Ctx) (s : State) (h : s.loaded c = true) (he : e < (s.cell c).elems.length) :
    Moves c e x f s (s.setCtx c e x f) := by
  have hc : (s.setCtx c e x f).cell c = (s.cell c).setElem e fun k => k.setCtx x f := by
    simp [State.setCtx, s.cell_setElem c c e _ h]
  refine ⟨rfl, fun d => by simp, fun d hd => s.cell_setElem_ne c d e _ hd, ?_, ?_, ?_, ?_⟩
  · rw [hc]; rfl
  · rw [hc]; simp
  · intro j hj; rw [hc, Cell.elem_setElem, if_neg]; exact fun h => hj h.1.symm
  · rw [hc, Cell.elem_setElem, if_pos ⟨rfl, he⟩]; rfl

/-- Marks of dirty rows. -/
theorem Moves.setRows (c e x : Nat) (f : List Nat → List Nat) (s : State) :
    Moves c e x id s (s.setCell c fun k => { k with dirtyRows := f k.dirtyRows }) := by
  have g := fun {α : Type} (p : Cell → α) (hp : ∀ k : Cell, p { k with dirtyRows := f k.dirtyRows } = p k) (d : Nat) =>
    State.cell_setCell_same p s c d (fun k => { k with dirtyRows := f k.dirtyRows }) (fun _ => rfl) hp
  refine ⟨rfl, fun d => s.loaded_setCell c d _ (fun _ => rfl), fun d hd => s.cell_setCell_ne c d _ (fun _ => rfl) hd, ?_, ?_, ?_, ?_⟩
  · have := g (fun k => { k with dirtyRows := [] }) (fun _ => rfl) c
    have h2 : ∀ a b : Cell, ({ a with dirtyRows := [] } : Cell) = { b with dirtyRows := [] } →
        a = { b with elems := a.elems, dirtyRows := a.dirtyRows } := by
      intro a b h; cases a; cases b; simp_all
    exact h2 _ _ this
  · exact g (·.elems.length) (fun _ => rfl) c
  · exact fun j _ => g (·.elem j) (fun _ => rfl) c
  · rw [List.modify_id]; exact g (fun k => (k.elem e).ctxs) (fun _ => rfl) c

theorem Moves.charge (c e x : Nat) (k : Option Seat) (n : Int) (s : State) : Moves c e x id s (s.charge k n) := by
  cases k <;> exact Moves.of_cells rfl rfl

theorem Moves.popChan (c e x n : Nat) (s : State) : Moves c e x id s (s.popChan c e n) := by
  unfold State.popChan
  split
  · rename_i t _ _
    refine Moves.trans (g := id) (h := id) (Moves.setElem c e x (fun k => k.setChan n fun h => { h with tokens := h.tokens.drop 1 }) s (fun _ => rfl)) (Moves.of_cells (by simp) (by simp))
  · exact Moves.refl ..

theorem Moves.popAll (ns : List Nat) (c e x : Nat) (s : State) :
    Moves c e x id s (ns.foldl (fun s n => s.popChan c e n) s) := by
  induction ns generalizing s with
  | nil => exact Moves.refl ..
  | cons n ns ih => exact (Moves.popChan c e x n s).trans (ih _)

theorem Moves.sendOn (c e x n : Nat) (tag : Word) (ls : Lanes) (s : State) : Moves c e x id s (s.sendOn c e n tag ls) := by
  unfold State.sendOn
  dsimp only
  split
  · rename_i q _
    have h0 : ∀ (s : State) tok, Moves c e x id s ((((s.launchTokens (.out c e n) q tok none).charge (s.cell c).seat 1)).touch c) := by
      intro s tok; refine Moves.of_cells ?_ ?_ <;> simp
    refine (h0 s [⟨tag, ls, (s.cell c).seat, none⟩]).trans (h := id) ?_
    unfold State.requestOut
    split
    · refine (Moves.setElem c e x (fun k => { k with outs := k.outs.set n .requested }) _ (fun _ => rfl)).trans (h := id)
        (Moves.of_cells rfl rfl)
    · exact Moves.setElem c e x _ _ (fun _ => rfl)
  · exact Moves.refl ..

theorem Moves.spend (n : Nat) (s : State) (x : Nat) : Moves s.cur.cell s.cur.elem x id s (s.spend n) :=
  Moves.setElem _ _ _ _ _ (fun _ => rfl)

/-- What the end of a firing makes of its context (R168). -/
def endCtx (s : State) (t : Fin 64) (k : Ctx) : Ctx :=
  { k with p := s.entryPreds t k.p, exhausted := k.exhausted || eSrcend (s.entry t), seq := k.seq + 1 }

theorem Moves.effects (s : State) (t : Fin 64) (h : s.loaded s.cur.cell = true) (he : s.cur.elem < s.curCell.elems.length) :
    Moves s.cur.cell s.cur.elem s.cur.ctx
      (fun k => { k with p := s.entryPreds t k.p, exhausted := k.exhausted || eSrcend (s.entry t) }) s (s.effects t) := by
  have hp := Moves.popAll (bitsSet 8 (ePop (s.entry t))) s.cur.cell s.cur.elem s.cur.ctx s
  have hc := Moves.setCtx s.cur.cell s.cur.elem s.cur.ctx
    (fun k : Ctx => { k with p := s.entryPreds t k.p, exhausted := k.exhausted || eSrcend (s.entry t) }) _
    ((hp.loaded _).trans h) (by rw [hp.2.2.2.2.1]; exact he)
  have h2 := hp.trans hc
  have hcur := hp.1
  have h3 : ∀ w : State, ∀ k : Option Seat, ∀ n : Int, ∀ d,
      Moves s.cur.cell s.cur.elem s.cur.ctx id w ((w.charge k n).touch d) := fun w k n d => Moves.of_cells (by simp) (by simp)
  unfold State.effects State.setCurCtx
  dsimp only
  rw [hcur]
  split
  · exact h2
  · exact h2.trans (h3 _ _ _ _)

/-- The end of a firing: the predicates, the SRCEND flag and the firing number of its context. -/
theorem Moves.endFiring (s : State) (t : Fin 64) (n : Nat) (h : s.loaded s.cur.cell = true)
    (he : s.cur.elem < s.curCell.elems.length) :
    Moves s.cur.cell s.cur.elem s.cur.ctx (endCtx s t) s (s.endFiring t n) := by
  have h1 := Moves.effects s t h he
  have h2 := h1.trans (Moves.setCtx s.cur.cell s.cur.elem s.cur.ctx (fun k => { k with seq := k.seq + 1 }) _
    ((h1.loaded _).trans h) (by rw [h1.2.2.2.2.1]; exact he))
  have h3 := h2.trans (Moves.setElem s.cur.cell s.cur.elem s.cur.ctx
    (fun k => { k with lastFired := s.cur.ctx, occupant := none,
                       busyUntil := s.time + (1 + n) * (s.effects t).vPeriod (dieOf s.cur.cell) }) _ (fun _ => rfl))
  have h4 := h3.trans (Moves.of_cells (s := _) (u := (s.endFiring t n)) (by simp [State.endFiring, State.stir, State.spend, State.setCurCtx]; rfl) (by simp))
  exact h4

/-! Outside the cells. -/

theorem LeavesModule.refl (s : State) : LeavesModule s s := rfl

theorem LeavesModule.trans {s u w : State} (h : LeavesModule s u) (k : LeavesModule u w) : LeavesModule s w :=
  Eq.trans k h

theorem map_updateWhere {α β : Type} (p : α → Bool) (f : α → α) (g : α → β) (h : ∀ x, g (f x) = g x) (xs : List α) :
    (updateWhere p f xs).map g = xs.map g := by
  simp only [updateWhere, List.map_map]
  refine List.map_congr_left fun x _ => ?_
  simp only [Function.comp]; split <;> simp [h]

@[simp] theorem rest_setCell (s : State) (c : Nat) (f : Cell → Cell) : (s.setCell c f).rest = s.rest := rfl
@[simp] theorem rest_setElem (s : State) (c e : Nat) (f : Elem → Elem) : (s.setElem c e f).rest = s.rest := rfl
@[simp] theorem rest_setCtx (s : State) (c e x : Nat) (f : Ctx → Ctx) : (s.setCtx c e x f).rest = s.rest := rfl
@[simp] theorem rest_setCurCtx (s : State) (f : Ctx → Ctx) : (s.setCurCtx f).rest = s.rest := rfl
@[simp] theorem rest_spend (s : State) (n : Nat) : (s.spend n).rest = s.rest := rfl
@[simp] theorem rest_request (s : State) (p : Producer) (q : Target) : (s.request p q).rest = s.rest := rfl
@[simp] theorem rest_launchTokens (s : State) (p : Producer) (q : Target) (ts : List Token) (k : Option Nat) :
    (s.launchTokens p q ts k).rest = s.rest := rfl
@[simp] theorem rest_charge (s : State) (k : Option Seat) (n : Int) : (s.charge k n).rest = s.rest := by cases k <;> rfl
@[simp] theorem rest_stir (s : State) (c : Nat) : (s.stir c).rest = s.rest := by
  simp [State.rest, State.stir, map_updateWhere]
@[simp] theorem rest_touch (s : State) (c : Nat) : (s.touch c).rest = s.rest := by
  simp [State.rest, State.touch, map_updateWhere]
@[simp] theorem rest_popped (s : State) (k : Token) : (s.popped k).rest = s.rest := by
  unfold State.popped
  split
  · refine Eq.trans ?_ (rest_charge s k.charge (-1))
    simp [State.rest, map_updateWhere]
  · simp
@[simp] theorem rest_popChan (s : State) (c e n : Nat) : (s.popChan c e n).rest = s.rest := by
  unfold State.popChan; split <;> simp
@[simp] theorem rest_popAll (ns : List Nat) (c e : Nat) (s : State) :
    (ns.foldl (fun s n => s.popChan c e n) s).rest = s.rest := popAll_field State.rest (fun s c e n => rest_popChan s c e n) ns c e s
@[simp] theorem rest_requestOut (s : State) (c e n : Nat) : (s.requestOut c e n).rest = s.rest := by
  unfold State.requestOut; split <;> simp
@[simp] theorem rest_sendOn (s : State) (c e n : Nat) (tag : Word) (ls : Lanes) : (s.sendOn c e n tag ls).rest = s.rest := by
  unfold State.sendOn; dsimp only; split <;> simp
@[simp] theorem rest_effects (s : State) (t : Fin 64) : (s.effects t).rest = s.rest := by
  unfold State.effects; dsimp only; split <;> simp
@[simp] theorem rest_endFiring (s : State) (t : Fin 64) (n : Nat) : (s.endFiring t n).rest = s.rest := by
  simp [State.endFiring]
@[simp] theorem rest_writeReg (s : State) (n : Nat) (m : LaneMask) (f : Nat → Word) : (s.writeReg n m f).rest = s.rest := rfl
@[simp] theorem rest_writeMask (s : State) (n : Nat) (m : LaneMask) : (s.writeMask n m).rest = s.rest := rfl
@[simp] theorem rest_writePred (s : State) (n : Nat) (b : Bool) : (s.writePred n b).rest = s.rest := rfl
@[simp] theorem rest_raiseFlags (s : State) (n : Nat) : (s.raiseFlags n).rest = s.rest := rfl
@[simp] theorem rest_putPair (s : State) (n : Nat) (f : Nat → BitVec 64) : (s.putPair n f).rest = s.rest := rfl
@[simp] theorem rest_put (s : State) (t : Fin 64) (d : Dst) (f : Nat → Word) : (s.put t d f).rest = s.rest := by
  cases d <;> simp [State.put]
@[simp] theorem rest_putW (s : State) (d : Dst) (f : Nat → BitVec 64) : (s.putW d f).rest = s.rest := by
  cases d <;> simp [State.putW]
@[simp] theorem rest_putSel (s : State) (t : Fin 64) (w : Bool) (d : Dst) (f : Nat → Word) (g : Nat → BitVec 64) :
    (s.putSel t w d f g).rest = s.rest := by cases w <;> simp [State.putSel]

theorem LeavesModule.mem {s u : State} (h : LeavesModule s u) : u.mem = s.mem := (congrArg State.mem h : u.rest.mem = s.rest.mem)

/-! A completed firing. -/

theorem Moves.entry {c e x : Nat} {g : Ctx → Ctx} {s w : State} (m : Moves c e x g s w) (h : s.cur.cell = c) (t : Fin 64) :
    w.entry t = s.entry t := by
  obtain ⟨m1, _, _, m4, _⟩ := m
  subst h
  have hd : (w.cell s.cur.cell).draft = (s.cell s.cur.cell).draft := by rw [m4]
  simp only [State.entry, State.curDraft, Cell.draftElem, State.curCell, m1, hd]

/-- What stays in place outside the context. -/
theorem Moves.leavesOthers {g : Ctx → Ctx} {s u : State} (m : Moves s.cur.cell s.cur.elem s.cur.ctx g s u)
    (l : LeavesModule s u) : LeavesOthers s u := by
  obtain ⟨m1, m2, m3, m4, m5, m6, m7⟩ := m
  refine ⟨fun a => by rw [l.mem], m3, by simpa [State.curCell, m1] using m4, by simpa [State.curCell, m1] using m6, fun x hx => ?_⟩
  simp only [State.curElem, State.curCell, m1, Elem.ctx, m7, getD_modify]
  rw [if_neg]; exact fun h => hx h.1.symm

/-- THE END OF A FIRING: from a state that the firing's own writes lead to (g), what the end adds and all that stays. -/
theorem endFiring_after {s w : State} {g : Ctx → Ctx} (t : Fin 64) (n : Nat) (hp : s.placed)
    (m : Moves s.cur.cell s.cur.elem s.cur.ctx g s w) (l : LeavesModule s w) :
    LeavesModule s (w.endFiring t n) ∧ LeavesOthers s (w.endFiring t n) ∧
      (w.endFiring t n).curCtx = endCtx s t (g s.curCtx) := by
  have hc := m.1
  have hb := m.hasCtx_bounds ⟨hp.1, hp.2.1, hp.2.2.1⟩
  have he := Moves.endFiring w t n (by rw [hc]; exact hb.1) (by simp only [State.curCell, hc]; exact hb.2.1)
  rw [hc] at he
  have h := m.trans he
  have hl := l.trans (rest_endFiring w t n)
  refine ⟨hl, h.leavesOthers hl, ?_⟩
  have := h.ctx hp.2.2.1
  have hcur : (w.endFiring t n).cur = s.cur := h.1
  simp only [State.curCtx, State.curElem, State.curCell, hcur]
  refine this.trans ?_
  simp [endCtx, State.entryPreds, m.entry rfl, State.ctxOf, Cell.ctx]

/-! Registers written. -/

theorem lane_tab (f : Nat → Word) (l : Nat) (h : l < 64) : lane (tab f) l = f l := by
  simp [lane, tab, List.getD_eq_getElem?_getD, h]

/-- The context with register n replaced in the lanes of a mask. -/
def Ctx.withReg (k : Ctx) (n : Nat) (m : LaneMask) (f : Nat → Word) : Ctx :=
  { k with v := k.v.modify n fun old => tab fun l => if inMask m l then f l else lane old l }

theorem Moves.writeReg (s : State) (n : Nat) (m : LaneMask) (f : Nat → Word) (h : s.placed) :
    Moves s.cur.cell s.cur.elem s.cur.ctx (fun k => k.withReg n m f) s (s.writeReg n m f) :=
  (Moves.setCtx _ _ _ _ s h.1 h.2.1).trans (h := id)
    (Moves.setRows _ _ _ (fun r => markRows r ((lanesOf m).map (regRow (4 * s.cur.elem + s.cur.ctx) n))) _)

theorem Ctx.withReg_self (k : Ctx) (n : Nat) (m : LaneMask) (f : Nat → Word) (h : n < k.v.length) (l : Nat) (hl : l < 64) :
    lane ((k.withReg n m f).v.getD n []) l = if inMask m l then f l else lane (k.v.getD n []) l := by
  simp only [Ctx.withReg, getD_modify, h, and_self, if_true, lane_tab _ _ hl]

theorem Ctx.withReg_other (k : Ctx) (n j : Nat) (m : LaneMask) (f : Nat → Word) (h : j ≠ n) :
    (k.withReg n m f).v.getD j [] = k.v.getD j [] := by
  simp only [Ctx.withReg, getD_modify]; rw [if_neg]; exact fun e => h e.1.symm

/-! THE RESULT OF A FIRING: a value in registers, on an output channel or nowhere, in both widths. -/

theorem put_result (s : State) (t : Fin 64) (d : Dst) (f : Nat → Word) (n : Nat) (h : s.placed) :
    Delivered s ((s.put t d f).endFiring t n) t d f ∧ FiredRegs s ((s.put t d f).endFiring t n) t (dstRegs false d) := by
  cases d with
  | v r =>
    have m := Moves.writeReg s r.val s.m0 f h
    obtain ⟨a, b, c⟩ := endFiring_after t n h m (rest_writeReg s r.val s.m0 f)
    have hr : r.val < s.curCtx.v.length := by
      have := h.2.2.2.1; simp only [State.ctxOf, Cell.ctx] at this; simp only [State.curCtx, State.curElem, State.curCell]; omega
    refine ⟨⟨fun l hl => ?_, ?_⟩, a, b, fun j hj => ?_, fun j _ => ?_, ?_⟩
    · simp only [State.put, State.vreg, c, endCtx, Ctx.withReg_self _ _ _ _ hr l hl]
    · simp [State.put]
    · simp only [State.put, State.vreg, c, endCtx]
      exact Ctx.withReg_other _ _ _ _ _ (by simpa [dstRegs] using hj)
    · simp only [State.put, c, endCtx, Ctx.withReg]
    · simp only [State.put, c, endCtx, Ctx.withReg]
  | o k =>
    have m := Moves.sendOn s.cur.cell s.cur.elem s.cur.ctx k.val (s.sendTag t)
      ((List.range (routeWidth (s.routeOf s.cur.cell s.cur.elem k.val))).map fun l => if inMask s.m0 l then f l else 0) s
    obtain ⟨a, b, c⟩ := endFiring_after t n h m (rest_sendOn ..)
    refine ⟨fun q hq => ⟨s.nextId, ?_⟩, a, b, fun j hj => ?_, fun j _ => ?_, ?_⟩
    · have hq' : s.routeTarget (s.cell s.cur.cell) (s.routeOf s.cur.cell s.cur.elem k.val) = some q := hq
      simp only [State.put, State.endFiring_flights, State.sendOn, hq']
      simp [State.launchTokens, State.newId]
      rfl
    · simp only [State.put, State.vreg, c, endCtx, id]
    · simp only [State.put, c, endCtx, id]
    · simp only [State.put, c, endCtx, id]
  | discard =>
    obtain ⟨a, b, c⟩ := endFiring_after t n h (Moves.refl _ _ _ s) rfl
    refine ⟨by simp [Delivered, State.put], a, b, fun j hj => ?_, fun j _ => ?_, ?_⟩
    · simp only [State.put, State.vreg, c, endCtx, id]
    · simp only [State.put, c, endCtx, id]
    · simp only [State.put, c, endCtx, id]

theorem Moves.placed {g : Ctx → Ctx} {s w : State} (m : Moves s.cur.cell s.cur.elem s.cur.ctx g s w) (h : s.placed)
    (hv : ∀ k, (g k).v.length = k.v.length) (hm : ∀ k, (g k).m.length = k.m.length) : w.placed := by
  have hb := m.hasCtx_bounds ⟨h.1, h.2.1, h.2.2.1⟩
  have hc := m.ctx h.2.2.1
  have h1 := m.1
  refine ⟨?_, ?_, ?_, ?_, ?_⟩ <;> rw [h1]
  · exact hb.1
  · exact hb.2.1
  · exact hb.2.2
  · rw [hc, hv]; exact h.2.2.2.1
  · rw [hc, hm]; exact h.2.2.2.2

theorem Moves.putPair (s : State) (n : Nat) (f : Nat → BitVec 64) (h : s.placed) :
    Moves s.cur.cell s.cur.elem s.cur.ctx
      (fun k => (k.withReg n s.m0 fun l => (f l).setWidth 32).withReg (n + 1) s.m0 fun l => (f l >>> 32).setWidth 32) s
      (s.putPair n f) := by
  have m1 := Moves.writeReg s n s.m0 (fun l => (f l).setWidth 32) h
  have p1 := m1.placed h (fun k => by simp [Ctx.withReg]) (fun k => rfl)
  exact m1.trans (Moves.writeReg (s.writeReg n s.m0 fun l => (f l).setWidth 32) (n + 1) s.m0
    (fun l => (f l >>> 32).setWidth 32) p1)

theorem placed_len {s : State} (h : s.placed) : s.curCtx.v.length = 16 ∧ s.curCtx.m.length = 4 := h.2.2.2

theorem putW_result (s : State) (t : Fin 64) (d : Dst) (f : Nat → BitVec 64) (n : Nat) (h : s.placed) (hd : d.isDw = true) :
    DeliveredPair s ((s.putW d f).endFiring t n) d f ∧ FiredRegs s ((s.putW d f).endFiring t n) t (dstRegs true d) := by
  cases d with
  | v r =>
    obtain ⟨a, b, c⟩ := endFiring_after t n h (Moves.putPair s r.val f h) rfl
    have hr : r.val + 1 < s.curCtx.v.length := by
      have := placed_len h; have h2 : r.val % 2 = 0 := by simpa [Dst.isDw] using hd
      have := r.isLt; omega
    refine ⟨⟨fun l hl => ?_, fun l hl => ?_, ?_⟩, a, b, fun j hj => ?_, fun j _ => ?_, ?_⟩
    · simp only [State.putW, State.vreg, c, endCtx]
      rw [Ctx.withReg_other _ _ _ _ _ (by omega), Ctx.withReg_self _ _ _ _ (by omega) l hl]
    · simp only [State.putW, State.vreg, c, endCtx]
      rw [Ctx.withReg_self _ _ _ _ (by simpa [Ctx.withReg] using hr) l hl, Ctx.withReg_other _ _ _ _ _ (by omega)]
    · simp [State.putW]
    · have hj' : j ≠ r.val ∧ j ≠ r.val + 1 := by simpa [dstRegs] using hj
      simp only [State.putW, State.vreg, c, endCtx]
      rw [Ctx.withReg_other _ _ _ _ _ hj'.2, Ctx.withReg_other _ _ _ _ _ hj'.1]
    · simp only [State.putW, c, endCtx, Ctx.withReg]
    · simp only [State.putW, c, endCtx, Ctx.withReg]
  | o k => simp [Dst.isDw] at hd
  | discard =>
    obtain ⟨a, b, c⟩ := endFiring_after t n h (Moves.refl _ _ _ s) rfl
    refine ⟨by simp [DeliveredPair, State.putW], a, b, fun j hj => ?_, fun j _ => ?_, ?_⟩
    · simp only [State.putW, State.vreg, c, endCtx, id]
    · simp only [State.putW, c, endCtx, id]
    · simp only [State.putW, c, endCtx, id]

theorem putSel_result (s : State) (t : Fin 64) (w : Bool) (d : Dst) (f : Nat → Word) (g : Nat → BitVec 64) (n : Nat)
    (h : s.placed) (hd : dstW w d = true) :
    DeliveredSel s ((s.putSel t w d f g).endFiring t n) t w d f g ∧
      FiredRegs s ((s.putSel t w d f g).endFiring t n) t (dstRegs w d) := by
  cases w with
  | false => exact put_result s t d f n h
  | true => exact putW_result s t d g n h (by simpa [dstW] using hd)

/-! Masks, predicates and flags written. -/

theorem writeMask_result (s : State) (t : Fin 64) (d : MaskReg) (m : LaneMask) (n : Nat) (h : s.placed) :
    ((s.writeMask d.val m).endFiring t n).mask d = m ∧
      Fired s ((s.writeMask d.val m).endFiring t n) t [] [d.val] s.curCtx.p s.curCtx.fpflags := by
  have mv := Moves.setCtx s.cur.cell s.cur.elem s.cur.ctx (fun k => { k with m := k.m.set d.val m }) s h.1 h.2.1
  obtain ⟨a, b, c⟩ := endFiring_after t n h mv rfl
  have hl := placed_len h
  refine ⟨?_, a, b, fun j _ => ?_, fun j hj => ?_, ?_⟩
  · have := d.isLt
    have c' : ((s.writeMask d.val m).endFiring t n).curCtx = _ := c
    simp only [State.mask, c', endCtx, List.getD_eq_getElem?_getD, List.getElem?_set, hl.2]
    simp
  · have c' : ((s.writeMask d.val m).endFiring t n).curCtx = _ := c
    simp only [State.vreg, c', endCtx]
  · have c' : ((s.writeMask d.val m).endFiring t n).curCtx = _ := c
    simp only [c', endCtx, List.getD_eq_getElem?_getD, List.getElem?_set]
    rw [if_neg]; simpa [eq_comm] using hj
  · have c' : ((s.writeMask d.val m).endFiring t n).curCtx = _ := c
    simp only [c', endCtx]

theorem writePred_result (s : State) (t : Fin 64) (d : PredReg) (b : Bool) (n : Nat) (h : s.placed) :
    Fired s ((s.writePred d.val b).endFiring t n) t [] [] (setPred s.curCtx.p d.val b) s.curCtx.fpflags := by
  have mv := Moves.setCtx s.cur.cell s.cur.elem s.cur.ctx (fun k => { k with p := setPred k.p d.val b }) s h.1 h.2.1
  obtain ⟨a, b', c⟩ := endFiring_after t n h mv rfl
  have c' : ((s.writePred d.val b).endFiring t n).curCtx = _ := c
  refine ⟨a, b', fun j _ => ?_, fun j _ => ?_, ?_⟩
  · simp only [State.vreg, c', endCtx]
  · simp only [c', endCtx]
  · simp only [c', endCtx]

/-! What an update of the current context leaves of a send. -/

theorem cellOfSeat_setCell (s : State) (c : Nat) (f : Cell → Cell) (hi : ∀ k, (f k).id = k.id) (hs : ∀ k, (f k).seat = k.seat)
    (q : Seat) : (s.setCell c f).cellOfSeat q = s.cellOfSeat q := by
  simp only [State.cellOfSeat, State.setCell]
  induction s.cells with
  | nil => rfl
  | cons k ks ih =>
    have h1 : ∀ k : Cell, (if (k.id == c) = true then f k else k).seat = k.seat := by intro k; split <;> simp [hs]
    have h2 : ∀ k : Cell, (if (k.id == c) = true then f k else k).id = k.id := by intro k; split <;> simp [hi]
    simp only [updateWhere, List.map_cons, List.find?_cons, h1] at ih ⊢
    split
    · exact congrArg some (h2 k)
    · exact ih

theorem curCell_setCurCtx (s : State) (g : Ctx → Ctx) :
    (s.setCurCtx g).curCell = { s.curCell with elems := (s.setCurCtx g).curCell.elems } := by
  have h2 : ∀ a b : Cell, ({ a with elems := [] } : Cell) = { b with elems := [] } → a = { b with elems := a.elems } := by
    intro a b h; cases a; cases b; simp_all
  exact h2 _ _ (State.cell_setCell_same (fun k : Cell => ({ k with elems := [] } : Cell)) s _ _ _ (fun _ => rfl) (fun _ => rfl))

theorem routeTarget_setCurCtx (s : State) (g : Ctx → Ctx) (r : Nat) :
    (s.setCurCtx g).routeTarget (s.setCurCtx g).curCell r = s.routeTarget s.curCell r := by
  have hc := curCell_setCurCtx s g
  have h1 : (s.setCurCtx g).curCell.seat = s.curCell.seat := by rw [hc]
  have h2 : (s.setCurCtx g).curCell.id = s.curCell.id := by rw [hc]
  have h3 : ∀ q, (s.setCurCtx g).cellOfSeat q = s.cellOfSeat q := fun q =>
    cellOfSeat_setCell s s.cur.cell (fun k => k.setElem s.cur.elem fun k => k.setCtx s.cur.ctx g) (fun _ => rfl) (fun _ => rfl) q
  simp only [State.routeTarget, h1, h2, h3, Cell.launchUid]

theorem routeOf_setCurCtx (s : State) (g : Ctx → Ctx) (c e n : Nat) : (s.setCurCtx g).routeOf c e n = s.routeOf c e n :=
  State.cell_setCell_same (fun k => (k.draftElem e).routes.getD n 0) s _ c _ (fun _ => rfl) (fun _ => rfl)

theorem sendTag_setCurCtx (s : State) (g : Ctx → Ctx) (t : Fin 64) : (s.setCurCtx g).sendTag t = s.sendTag t := by
  have hd : (s.setCurCtx g).entry t = s.entry t :=
    State.cell_setCell_same (fun k => (k.draftElem s.cur.elem).entries.getD t.val 0) s _ _ _ (fun _ => rfl) (fun _ => rfl)
  have hi : ∀ n, (s.setCurCtx g).curElem.chan n = s.curElem.chan n := fun n =>
    State.cell_setCell_same (fun k => (k.elem s.cur.elem).chan n) s _ _ _ (fun _ => rfl) (fun k => by
      simp only [Cell.elem_setElem]; split <;> rfl)
  simp only [State.sendTag, hd, hi]

theorem curCtx_setCurCtx (s : State) (g : Ctx → Ctx) (h : s.placed) : (s.setCurCtx g).curCtx = g s.curCtx :=
  s.ctxOf_setCtx _ _ _ g h.1 h.2.1 h.2.2.1

theorem LeavesOthers.trans {s w u : State} (a : LeavesOthers s w) (b : LeavesOthers w u) (h : w.cur = s.cur) :
    LeavesOthers s u := by
  obtain ⟨a1, a2, a3, a4, a5⟩ := a
  obtain ⟨b1, b2, b3, b4, b5⟩ := b
  rw [h] at b2 b4 b5
  refine ⟨fun x => (b1 x).trans (a1 x), fun c hc => (b2 c hc).trans (a2 c hc), ?_, fun e he => (b4 e he).trans (a4 e he),
    fun x hx => (b5 x hx).trans (a5 x hx)⟩
  rw [b3, a3]

/-- A result after an update g of the context that leaves its registers and masks. -/
theorem put_result_after (s : State) (g : Ctx → Ctx) (t : Fin 64) (d : Dst) (f : Nat → Word) (n : Nat) (h : s.placed)
    (hv : ∀ k, (g k).v = k.v) (hm : ∀ k, (g k).m = k.m) :
    let u := ((s.setCurCtx g).put t d f).endFiring t n
    Delivered s u t d f ∧ LeavesModule s u ∧ LeavesOthers s u ∧
      (∀ j, j ∉ dstRegs false d → u.vreg j = s.vreg j) ∧ (∀ j, u.curCtx.m.getD j 0 = s.curCtx.m.getD j 0) ∧
      u.curCtx = { endCtx s t (g s.curCtx) with v := u.curCtx.v, m := u.curCtx.m } := by
  intro u
  have mv := Moves.setCtx s.cur.cell s.cur.elem s.cur.ctx g s h.1 h.2.1
  have hp : (s.setCurCtx g).placed := mv.placed h (fun k => by rw [hv]) (fun k => by rw [hm])
  obtain ⟨r1, r2, r3, r4, r5, r6⟩ := put_result (s.setCurCtx g) t d f n hp
  have hc := curCtx_setCurCtx s g h
  have hreg : ∀ j, (s.setCurCtx g).vreg j = s.vreg j := fun j => by simp only [State.vreg, hc, hv]
  have hm0 : (s.setCurCtx g).m0 = s.m0 := by simp only [State.m0, hc, hm]
  have hent : (s.setCurCtx g).entry t = s.entry t := mv.entry rfl t
  refine ⟨?_, r2, ?_, fun j hj => (r4 j hj).trans (hreg j), fun j => (r5 j (by simp)).trans (by rw [hc, hm]), ?_⟩
  · cases d with
    | v r => exact ⟨fun l hl => by rw [r1.1 l hl, hm0, hreg], r1.2⟩
    | o k =>
      intro q hq
      have := r1 q (by rw [← routeTarget_setCurCtx s g] at hq; simpa [routeOf_setCurCtx] using hq)
      obtain ⟨id, hid⟩ := this
      refine ⟨id, hid.trans ?_⟩
      have hseat : (s.setCurCtx g).curCell.seat = s.curCell.seat := by rw [curCell_setCurCtx s g]
      simp [hm0, sendTag_setCurCtx, routeOf_setCurCtx, hseat]
    | discard => exact r1
  · exact (mv.leavesOthers rfl).trans r3 rfl
  · rw [r6, hc, hent]; simp [endCtx, State.entryPreds, hent]

/-! The cycles that a firing takes. -/

theorem vPeriod_of {s w : State} (h : w.dies = s.dies) (d : Nat) : w.vPeriod d = s.vPeriod d := by
  simp only [State.vPeriod, State.die, h]

theorem endFiring_took {s w : State} {g : Ctx → Ctx} (t : Fin 64) (n : Nat) (hp : s.placed)
    (m : Moves s.cur.cell s.cur.elem s.cur.ctx g s w) (hd : w.dies = s.dies) (ht : w.time = s.time) :
    Took s (w.endFiring t n) n := by
  have hb := m.hasCtx_bounds ⟨hp.1, hp.2.1, hp.2.2.1⟩
  have hc := m.1
  have h1 := Moves.effects w t (by rw [hc]; exact hb.1) (by simp only [State.curCell, hc]; exact hb.2.1)
  rw [hc] at h1
  have h2 := h1.trans (Moves.setCtx s.cur.cell s.cur.elem s.cur.ctx (fun k => { k with seq := k.seq + 1 }) _
    ((h1.loaded _).trans hb.1) (by rw [h1.2.2.2.2.1]; exact hb.2.1))
  generalize hx : (w.effects t).setCtx s.cur.cell s.cur.elem s.cur.ctx (fun k => { k with seq := k.seq + 1 }) = x at h2
  have hxe : w.endFiring t n = (x.spend n).stir x.cur.cell := by
    rw [← hx]; simp only [State.endFiring, State.setCurCtx, State.effects_cur, hc]
  have hxc : x.cur = s.cur := h2.1.trans hc
  have hel : ((x.spend n).stir x.cur.cell).curElem = (x.spend n).curElem := rfl
  have hxl : x.loaded s.cur.cell = true := (h2.loaded _).trans hb.1
  have hxb : s.cur.elem < (x.cell s.cur.cell).elems.length := by rw [h2.2.2.2.2.1]; exact hb.2.1
  have hxt : x.time = s.time := by rw [← hx]; simp [ht]
  have hxd : x.dies = s.dies := by rw [← hx]; simp [hd]
  have he : (x.spend n).curElem = { x.curElem with
      lastFired := s.cur.ctx, occupant := none, busyUntil := s.time + (1 + n) * s.vPeriod (dieOf s.cur.cell) } := by
    simp only [State.curElem, State.curCell, State.spend, State.setElem_cur, hxc, x.cell_setElem _ _ _ _ hxl, if_true,
      Cell.elem_setElem, hxb, and_self, hxt, vPeriod_of hxd]
  rw [Took, hxe, hel, he]
  exact ⟨rfl, rfl, rfl⟩

end Sys2Proof.Machine
end

