-- ==== Sys2Proof/Laws/Shapes.lean ====
section
/-! SUPPORT. One lemma per shape of instruction: what a meaning of that shape computes. -/

namespace Sys2Proof.Machine

theorem put_took (s : State) (t : Fin 64) (d : Dst) (f : Nat → Word) (n : Nat) (h : s.placed) :
    Took s ((s.put t d f).endFiring t n) n := by
  cases d with
  | v r => exact endFiring_took t n h (Moves.writeReg s r.val s.m0 f h) rfl rfl
  | o k =>
    have m := Moves.sendOn s.cur.cell s.cur.elem s.cur.ctx k.val (s.sendTag t)
      ((List.range (routeWidth (s.routeOf s.cur.cell s.cur.elem k.val))).map fun l => if inMask s.m0 l then f l else 0) s
    exact endFiring_took t n h m (by simp) (by simp)
  | discard => exact endFiring_took t n h (Moves.refl _ _ _ s) rfl rfl

theorem putW_took (s : State) (t : Fin 64) (d : Dst) (f : Nat → BitVec 64) (n : Nat) (h : s.placed) :
    Took s ((s.putW d f).endFiring t n) n := by
  cases d with
  | v r => exact endFiring_took t n h (Moves.putPair s r.val f h) rfl rfl
  | o k => exact endFiring_took t n h (Moves.refl _ _ _ s) rfl rfl
  | discard => exact endFiring_took t n h (Moves.refl _ _ _ s) rfl rfl

theorem computes32_put {i : Instr} {s : State} {t : Fin 64} {n : Nat} {d : Dst} {f : Nat → Word}
    (hi : exec i s = .next ((s.put t d f).endFiring t n)) (h : s.placed) : Computes32 i s t n d f :=
  ⟨_, hi, (put_result s t d f n h).1, (put_result s t d f n h).2, put_took s t d f n h⟩

theorem computes_putSel {i : Instr} {s : State} {t : Fin 64} {n : Nat} {w : Bool} {d : Dst} {f : Nat → Word}
    {g : Nat → BitVec 64} (hi : exec i s = .next ((s.putSel t w d f g).endFiring t n)) (h : s.placed)
    (hd : dstW w d = true) : Computes i s t n w d f g := by
  refine ⟨_, hi, (putSel_result s t w d f g n h hd).1, (putSel_result s t w d f g n h hd).2, ?_⟩
  cases w with
  | false => exact put_took s t d f n h
  | true => exact putW_took s t d g n h

theorem computesFp_fpu {i : Instr} {s : State} {t : Fin 64} {n : Nat} {d : Dst} {f : Nat → Word × Nat}
    (hi : exec i s = .next (s.fpu t d n f)) (h : s.placed) : ComputesFp i s t n d f := by
  have hr := put_result_after s (fun k => { k with fpflags := Nat.lor k.fpflags (flagsOver s.m0 f % 64) }) t d
    (fun l => (f l).1) n h (fun _ => rfl) (fun _ => rfl)
  obtain ⟨a, b, c, e, m, k⟩ := hr
  refine ⟨_, hi, a, ⟨b, c, e, fun j _ => m j, k⟩, ?_⟩
  have mv := Moves.setCtx s.cur.cell s.cur.elem s.cur.ctx
    (fun k => { k with fpflags := Nat.lor k.fpflags (flagsOver s.m0 f % 64) }) s h.1 h.2.1
  have hp := mv.placed h (fun _ => rfl) (fun _ => rfl)
  obtain ⟨x, y, z⟩ := put_took (s.raiseFlags (flagsOver s.m0 f)) t d (fun l => (f l).1) n hp
  exact ⟨x, y, z⟩

theorem computesMask_write {i : Instr} {s : State} {t : Fin 64} {d : MaskReg} {m : LaneMask}
    (hi : exec i s = .next ((s.writeMask d.val m).endFiring t 0)) (h : s.placed) : ComputesMask i s t d 0 m := by
  obtain ⟨a, b⟩ := writeMask_result s t d m 0 h
  refine ⟨_, hi, a, by simpa using b, by simp, ?_⟩
  exact endFiring_took t 0 h (Moves.setCtx s.cur.cell s.cur.elem s.cur.ctx (fun k => { k with m := k.m.set d.val m }) s h.1 h.2.1)
    rfl rfl

theorem computesPred_write {i : Instr} {s : State} {t : Fin 64} {d : PredReg} {b : Bool}
    (hi : exec i s = .next ((s.writePred d.val b).endFiring t 0)) (h : s.placed) : ComputesPred i s t d b := by
  refine ⟨_, hi, writePred_result s t d b 0 h, by simp, ?_⟩
  exact endFiring_took t 0 h (Moves.setCtx s.cur.cell s.cur.elem s.cur.ctx (fun k => { k with p := setPred k.p d.val b }) s h.1 h.2.1)
    rfl rfl

/-! The same results under other names of the values. -/

theorem Computes32.congr {i : Instr} {s : State} {t : Fin 64} {n : Nat} {d : Dst} {f f' : Nat → Word}
    (h : Computes32 i s t n d f) (hf : ∀ l, f l = f' l) : Computes32 i s t n d f' := by
  rw [← funext hf]; exact h

theorem Computes.congr {i : Instr} {s : State} {t : Fin 64} {n : Nat} {w : Bool} {d : Dst} {f f' : Nat → Word}
    {g g' : Nat → BitVec 64} (h : Computes i s t n w d f g) (hf : ∀ l, f l = f' l) (hg : ∀ l, g l = g' l) :
    Computes i s t n w d f' g' := by
  rw [← funext hf, ← funext hg]; exact h

/-- Arithmetic on two sources in both widths. -/
theorem computes2_alu2 {i : Instr} {s : State} {t : Fin 64} {n m : Nat} {w : Bool} {d : Dst} {a b : Src}
    {f : Word → Word → Word} {g : BitVec 64 → BitVec 64 → BitVec 64} {k : (k : Nat) → BitVec k → BitVec k → BitVec k}
    (hi : exec i s = .next (s.alu2 t d a b w m f g)) (hn : m = n) (h : s.placed) (hd : dstW w d = true)
    (hf : ∀ x y, f x y = k 32 x y) (hg : ∀ x y, g x y = k 64 x y) : Computes2 i s t n w d a b k := by
  subst hn
  exact (computes_putSel hi h hd).congr (fun _ => hf _ _) (fun _ => hg _ _)

/-- Arithmetic on one source in both widths. -/
theorem computes1_alu1 {i : Instr} {s : State} {t : Fin 64} {w : Bool} {d : Dst} {a : Src}
    {f : Word → Word} {g : BitVec 64 → BitVec 64} {k : (k : Nat) → BitVec k → BitVec k}
    (hi : exec i s = .next (s.alu1 t d a w f g)) (h : s.placed) (hd : dstW w d = true)
    (hf : ∀ x, f x = k 32 x) (hg : ∀ x, g x = k 64 x) : Computes1 i s t w d a k :=
  (computes_putSel hi h hd).congr (fun _ => hf _) (fun _ => hg _)

end Sys2Proof.Machine
end

