-- ==== Sys2Proof/Laws/Faults.lean ====
section
/-! SUPPORT. Taking a fault at a firing: everything it does. -/

namespace Sys2Proof.Machine

theorem Moves.pushRecord (c e x : Nat) (s : State) (c' e' x' i o fl pr : Nat) (q : FaultInfo) (r : RecordOf) :
    Moves c e x id s (s.pushRecord c' e' x' i o fl pr q r).2 := Moves.of_cells rfl rfl

theorem Moves.hold (s : State) (id' : Nat) (h : s.placed) :
    Moves s.cur.cell s.cur.elem s.cur.ctx (fun k => { k with heldBy := k.heldBy ++ [id'] }) s
      (s.hold s.cur.cell s.cur.elem s.cur.ctx id') := Moves.setCtx _ _ _ _ s h.1 h.2.1

/-- The records of a die after an update of it. -/
theorem State.die_setDie (s : State) (d : Nat) (f : Die → Die) (h : d < s.dies.length) : (s.setDie d f).die d = f (s.die d) := by
  simp only [State.die, State.setDie, modifyAt, getD_modify, h, and_self, if_true]

/-- The element after the cycle of a firing that ends without effects. -/
theorem spend_elem {s w : State} {g : Ctx → Ctx} (hp : s.placed) (m : Moves s.cur.cell s.cur.elem s.cur.ctx g s w) (n : Nat) :
    (w.spend n).curElem = { w.curElem with
      lastFired := s.cur.ctx, occupant := none, busyUntil := w.time + (1 + n) * w.vPeriod (dieOf s.cur.cell) } := by
  have hb := m.hasCtx_bounds ⟨hp.1, hp.2.1, hp.2.2.1⟩
  simp only [State.curElem, State.curCell, State.spend, State.setElem_cur, m.1, w.cell_setElem _ _ _ _ hb.1, if_true,
    Cell.elem_setElem, hb.2.1, and_self]

/-- The channels of the element keep their tokens through an update of a context. -/
theorem ins_setCtx (s : State) (c e x : Nat) (f : Ctx → Ctx) (d j : Nat) :
    (((s.setCtx c e x f).cell d).elem j).ins = ((s.cell d).elem j).ins :=
  State.cell_setCell_same (fun k => (k.elem j).ins) s c d _ (fun _ => rfl) (fun k => by
    simp only [Cell.elem_setElem]; split <;> rfl)

/-- A record changes no grant. -/
theorem vPeriod_pushRecord (s : State) (c e x i o fl pr d : Nat) (q : FaultInfo) (r : RecordOf) :
    (s.pushRecord c e x i o fl pr q r).2.vPeriod d = s.vPeriod d := by
  have : ((s.pushRecord c e x i o fl pr q r).2.die d).grant = (s.die d).grant := by
    simp only [State.pushRecord, State.pushRecordAt, State.die, State.setLaunch_dies, State.setDie, modifyAt, getD_modify, State.newId]
    split <;> rfl
  simp only [State.vPeriod, this]

theorem takeFault_takes {i : Instr} {s : State} {profile : Nat} {f : FaultInfo}
    (hi : exec i s = .next (s.takeFault profile f)) (h : s.placed) (hd : dieOf s.cur.cell < s.dies.length) :
    TakesFault i s profile f := by
  let x := s.pushRecord s.cur.cell s.cur.elem s.cur.ctx s.cur.slot s.curOpcode 0 profile f
    (.firing s.cur.cell s.cur.elem s.cur.ctx s.cur.slot)
  have m1 : Moves s.cur.cell s.cur.elem s.cur.ctx id s x.2 := Moves.pushRecord ..
  have hp : x.2.placed := m1.placed h (fun _ => rfl) (fun _ => rfl)
  have m2 : Moves s.cur.cell s.cur.elem s.cur.ctx (fun k => { k with heldBy := k.heldBy ++ [x.1] }) s
      (x.2.hold s.cur.cell s.cur.elem s.cur.ctx x.1) := m1.trans (Moves.hold x.2 x.1 hp)
  have m3 := m2.trans (Moves.spend 0 (x.2.hold s.cur.cell s.cur.elem s.cur.ctx x.1) s.cur.ctx)
  have hu : s.takeFault profile f = (x.2.hold s.cur.cell s.cur.elem s.cur.ctx x.1).spend 0 := rfl
  have hel := spend_elem h m2 0
  have hmem : (s.takeFault profile f).mem = s.mem := by simp
  refine ⟨_, hi, ⟨⟨x.1, f.1, f.2.1, 0, s.curOpcode, s.cur.cell, s.cur.elem, s.cur.ctx, s.cur.slot,
    s.launchidOf s.curCell.launchUid, f.2.2.1, f.2.2.2, profile, s.curCell.asid, s.ticks, 0⟩,
    .firing s.cur.cell s.cur.elem s.cur.ctx s.cur.slot, none, s.curCell.launchUid, s.cur.cell⟩, ?_, rfl, rfl, rfl, rfl, rfl, rfl, ?_, ?_, ?_, ?_⟩
  · exact congrArg Die.records (s.die_setDie (dieOf s.cur.cell) _ hd)
  · rw [hu]; exact m3.ctx h.2.2.1
  · obtain ⟨a1, a2, a3, a4, a5, a6, a7⟩ := m3
    refine ⟨fun a => by rw [hmem], a3, a4, a6, fun y hy => ?_⟩
    rw [hu]
    show (((_ : State).cell s.cur.cell).elem s.cur.elem).ctxs.getD y Ctx.blank = _
    rw [a7, getD_modify, if_neg]; rfl
    exact fun e => hy e.1.symm
  · rw [hu, hel]
    show (((State.setCtx _ _ _ _ _).cell _).elem _).ins = _
    rw [ins_setCtx]; rfl
  · refine ⟨by simp, by simp, by simp, ?_⟩
    rw [Took, hu, hel]
    refine ⟨rfl, rfl, ?_⟩
    show s.time + (1 + 0) * x.2.vPeriod (dieOf s.cur.cell) = _
    rw [vPeriod_pushRecord]

end Sys2Proof.Machine
end

