-- ==== Sys2Proof/Laws/PerInstr.lean ====
section
/-! SUPPORT. What holds of each instruction as syntax: every field of its word fits the bits that R209 gives it. -/

namespace Sys2Proof.Laws

set_option Elab.async false

/-- Every field within its bits (R209). -/
def InBits (x : Fields) : Prop := x.t < 64 ∧ x.op < 128 ∧ x.d < 32 ∧ x.a < 32 ∧ x.b < 32 ∧ x.f < 16

theorem src_code_lt (a : Src) : a.code < 32 := by cases a <;> simp only [Src.code] <;> omega
theorem dst_code_lt (d : Dst) : d.code < 32 := by cases d <;> simp only [Dst.code] <;> omega
theorem pdst_code_lt (d : PDst) : d.code < 32 := by cases d <;> simp only [PDst.code] <;> omega
theorem rdst_code_lt (d : RDst) : d.code < 32 := by cases d <;> simp only [RDst.code] <;> omega
theorem odst_code_lt (d : ODst) : d.code < 32 := by cases d <;> simp only [ODst.code] <;> omega

/-- Fields within their bits come back from the word that they make (R209). -/
theorem fieldsOf_wordOf {x : Fields} (h : InBits x) : fieldsOf (wordOf x) = x := by
  obtain ⟨t, op, d, a, b, f⟩ := x
  obtain ⟨h1, h2, h3, h4, h5, h6⟩ := h
  simp only [fieldsOf, wordOf, Fields.mk.injEq] at *
  omega

/-- A word made of fields within their bits has 32 bits (R209). -/
theorem wordOf_lt {x : Fields} (h : InBits x) : wordOf x < 2 ^ 32 := by
  obtain ⟨h1, h2, h3, h4, h5, h6⟩ := h
  simp only [wordOf]
  omega

/-- The fields of an instruction's word lie within their bits. -/
def Shape.Statement (i : Instr) : Prop := ∀ x, encodeFields i = some x → InBits x

theorem Shape.nop (x0 : Fin 64) : Shape.Statement (.nop x0) := by
  intro x h; cases h; simp only [InBits]; omega

theorem Shape.mov (x0 : Fin 64) (x1 : Dst) (x2 : Src) (x3 : Bool) : Shape.Statement (.mov x0 x1 x2 x3) := by
  intro x h; cases h; have := dst_code_lt x1; have := src_code_lt x2; have := x3.toNat_lt; simp only [InBits]; omega

theorem Shape.movi (x0 : Fin 64) (x1 : Dst) (x2 : BitVec 14) : Shape.Statement (.movi x0 x1 x2) := by
  intro x h; cases h; have := dst_code_lt x1; have := x2.isLt; simp only [InBits]; omega

theorem Shape.iadd (x0 : Fin 64) (x1 : Dst) (x2 : Src) (x3 : Src) (x4 : Bool) : Shape.Statement (.iadd x0 x1 x2 x3 x4) := by
  intro x h; cases h; have := dst_code_lt x1; have := src_code_lt x2; have := src_code_lt x3; have := x4.toNat_lt; simp only [InBits]; omega

theorem Shape.isub (x0 : Fin 64) (x1 : Dst) (x2 : Src) (x3 : Src) (x4 : Bool) : Shape.Statement (.isub x0 x1 x2 x3 x4) := by
  intro x h; cases h; have := dst_code_lt x1; have := src_code_lt x2; have := src_code_lt x3; have := x4.toNat_lt; simp only [InBits]; omega

theorem Shape.iaddi (x0 : Fin 64) (x1 : Dst) (x2 : Src) (x3 : BitVec 9) : Shape.Statement (.iaddi x0 x1 x2 x3) := by
  intro x h; cases h; have := dst_code_lt x1; have := src_code_lt x2; have := x3.isLt; simp only [InBits]; omega

theorem Shape.imulLo (x0 : Fin 64) (x1 : Dst) (x2 : Src) (x3 : Src) (x4 : Bool) : Shape.Statement (.imulLo x0 x1 x2 x3 x4) := by
  intro x h; cases h; have := dst_code_lt x1; have := src_code_lt x2; have := src_code_lt x3; have := x4.toNat_lt; simp only [InBits]; omega

theorem Shape.imulHi (x0 : Fin 64) (x1 : Dst) (x2 : Src) (x3 : Src) (x4 : Bool) : Shape.Statement (.imulHi x0 x1 x2 x3 x4) := by
  intro x h; cases h; have := dst_code_lt x1; have := src_code_lt x2; have := src_code_lt x3; have := x4.toNat_lt; simp only [InBits]; omega

theorem Shape.imulHin (x0 : Fin 64) (x1 : Dst) (x2 : Src) (x3 : Src) (x4 : Bool) : Shape.Statement (.imulHin x0 x1 x2 x3 x4) := by
  intro x h; cases h; have := dst_code_lt x1; have := src_code_lt x2; have := src_code_lt x3; have := x4.toNat_lt; simp only [InBits]; omega

theorem Shape.imad (x0 : Fin 64) (x1 : Dst) (x2 : Src) (x3 : Src) (x4 : VReg) : Shape.Statement (.imad x0 x1 x2 x3 x4) := by
  intro x h; cases h; have := dst_code_lt x1; have := src_code_lt x2; have := src_code_lt x3; simp only [InBits]; omega

theorem Shape.imin (x0 : Fin 64) (x1 : Dst) (x2 : Src) (x3 : Src) (x4 : Bool) : Shape.Statement (.imin x0 x1 x2 x3 x4) := by
  intro x h; cases h; have := dst_code_lt x1; have := src_code_lt x2; have := src_code_lt x3; have := x4.toNat_lt; simp only [InBits]; omega

theorem Shape.imax (x0 : Fin 64) (x1 : Dst) (x2 : Src) (x3 : Src) (x4 : Bool) : Shape.Statement (.imax x0 x1 x2 x3 x4) := by
  intro x h; cases h; have := dst_code_lt x1; have := src_code_lt x2; have := src_code_lt x3; have := x4.toNat_lt; simp only [InBits]; omega

theorem Shape.umin (x0 : Fin 64) (x1 : Dst) (x2 : Src) (x3 : Src) (x4 : Bool) : Shape.Statement (.umin x0 x1 x2 x3 x4) := by
  intro x h; cases h; have := dst_code_lt x1; have := src_code_lt x2; have := src_code_lt x3; have := x4.toNat_lt; simp only [InBits]; omega

theorem Shape.umax (x0 : Fin 64) (x1 : Dst) (x2 : Src) (x3 : Src) (x4 : Bool) : Shape.Statement (.umax x0 x1 x2 x3 x4) := by
  intro x h; cases h; have := dst_code_lt x1; have := src_code_lt x2; have := src_code_lt x3; have := x4.toNat_lt; simp only [InBits]; omega

theorem Shape.iabs (x0 : Fin 64) (x1 : Dst) (x2 : Src) (x3 : Bool) : Shape.Statement (.iabs x0 x1 x2 x3) := by
  intro x h; cases h; have := dst_code_lt x1; have := src_code_lt x2; have := x3.toNat_lt; simp only [InBits]; omega

theorem Shape.band (x0 : Fin 64) (x1 : Dst) (x2 : Src) (x3 : Src) (x4 : Bool) : Shape.Statement (.band x0 x1 x2 x3 x4) := by
  intro x h; cases h; have := dst_code_lt x1; have := src_code_lt x2; have := src_code_lt x3; have := x4.toNat_lt; simp only [InBits]; omega

theorem Shape.bor (x0 : Fin 64) (x1 : Dst) (x2 : Src) (x3 : Src) (x4 : Bool) : Shape.Statement (.bor x0 x1 x2 x3 x4) := by
  intro x h; cases h; have := dst_code_lt x1; have := src_code_lt x2; have := src_code_lt x3; have := x4.toNat_lt; simp only [InBits]; omega

theorem Shape.bxor (x0 : Fin 64) (x1 : Dst) (x2 : Src) (x3 : Src) (x4 : Bool) : Shape.Statement (.bxor x0 x1 x2 x3 x4) := by
  intro x h; cases h; have := dst_code_lt x1; have := src_code_lt x2; have := src_code_lt x3; have := x4.toNat_lt; simp only [InBits]; omega

theorem Shape.bandn (x0 : Fin 64) (x1 : Dst) (x2 : Src) (x3 : Src) (x4 : Bool) : Shape.Statement (.bandn x0 x1 x2 x3 x4) := by
  intro x h; cases h; have := dst_code_lt x1; have := src_code_lt x2; have := src_code_lt x3; have := x4.toNat_lt; simp only [InBits]; omega

theorem Shape.bnot (x0 : Fin 64) (x1 : Dst) (x2 : Src) (x3 : Bool) : Shape.Statement (.bnot x0 x1 x2 x3) := by
  intro x h; cases h; have := dst_code_lt x1; have := src_code_lt x2; have := x3.toNat_lt; simp only [InBits]; omega

theorem Shape.shl (x0 : Fin 64) (x1 : Dst) (x2 : Src) (x3 : Src) (x4 : Bool) : Shape.Statement (.shl x0 x1 x2 x3 x4) := by
  intro x h; cases h; have := dst_code_lt x1; have := src_code_lt x2; have := src_code_lt x3; have := x4.toNat_lt; simp only [InBits]; omega

theorem Shape.shr (x0 : Fin 64) (x1 : Dst) (x2 : Src) (x3 : Src) (x4 : Bool) : Shape.Statement (.shr x0 x1 x2 x3 x4) := by
  intro x h; cases h; have := dst_code_lt x1; have := src_code_lt x2; have := src_code_lt x3; have := x4.toNat_lt; simp only [InBits]; omega

theorem Shape.sar (x0 : Fin 64) (x1 : Dst) (x2 : Src) (x3 : Src) (x4 : Bool) : Shape.Statement (.sar x0 x1 x2 x3 x4) := by
  intro x h; cases h; have := dst_code_lt x1; have := src_code_lt x2; have := src_code_lt x3; have := x4.toNat_lt; simp only [InBits]; omega

theorem Shape.rol (x0 : Fin 64) (x1 : Dst) (x2 : Src) (x3 : Src) (x4 : Bool) : Shape.Statement (.rol x0 x1 x2 x3 x4) := by
  intro x h; cases h; have := dst_code_lt x1; have := src_code_lt x2; have := src_code_lt x3; have := x4.toNat_lt; simp only [InBits]; omega

theorem Shape.shli (x0 : Fin 64) (x1 : Dst) (x2 : Src) (x3 : Bool) (x4 : Fin 64) : Shape.Statement (.shli x0 x1 x2 x3 x4) := by
  intro x h; cases h; have := dst_code_lt x1; have := src_code_lt x2; have := x3.toNat_lt; simp only [InBits]; omega

theorem Shape.shri (x0 : Fin 64) (x1 : Dst) (x2 : Src) (x3 : Bool) (x4 : Fin 64) : Shape.Statement (.shri x0 x1 x2 x3 x4) := by
  intro x h; cases h; have := dst_code_lt x1; have := src_code_lt x2; have := x3.toNat_lt; simp only [InBits]; omega

theorem Shape.sari (x0 : Fin 64) (x1 : Dst) (x2 : Src) (x3 : Bool) (x4 : Fin 64) : Shape.Statement (.sari x0 x1 x2 x3 x4) := by
  intro x h; cases h; have := dst_code_lt x1; have := src_code_lt x2; have := x3.toNat_lt; simp only [InBits]; omega

theorem Shape.roli (x0 : Fin 64) (x1 : Dst) (x2 : Src) (x3 : Bool) (x4 : Fin 64) : Shape.Statement (.roli x0 x1 x2 x3 x4) := by
  intro x h; cases h; have := dst_code_lt x1; have := src_code_lt x2; have := x3.toNat_lt; simp only [InBits]; omega

theorem Shape.bfx (x0 : Fin 64) (x1 : Dst) (x2 : Src) (x3 : Src) (x4 : Bool) (x5 : Bool) : Shape.Statement (.bfx x0 x1 x2 x3 x4 x5) := by
  intro x h; cases h; have := dst_code_lt x1; have := src_code_lt x2; have := src_code_lt x3; have := x4.toNat_lt; have := x5.toNat_lt; simp only [InBits]; omega

theorem Shape.bfi (x0 : Fin 64) (x1 : Dst) (x2 : Src) (x3 : Src) (x4 : VReg) : Shape.Statement (.bfi x0 x1 x2 x3 x4) := by
  intro x h; cases h; have := dst_code_lt x1; have := src_code_lt x2; have := src_code_lt x3; simp only [InBits]; omega

theorem Shape.clz (x0 : Fin 64) (x1 : Dst) (x2 : Src) (x3 : Bool) : Shape.Statement (.clz x0 x1 x2 x3) := by
  intro x h; cases h; have := dst_code_lt x1; have := src_code_lt x2; have := x3.toNat_lt; simp only [InBits]; omega

theorem Shape.popc (x0 : Fin 64) (x1 : Dst) (x2 : Src) (x3 : Bool) : Shape.Statement (.popc x0 x1 x2 x3) := by
  intro x h; cases h; have := dst_code_lt x1; have := src_code_lt x2; have := x3.toNat_lt; simp only [InBits]; omega

theorem Shape.brev (x0 : Fin 64) (x1 : Dst) (x2 : Src) (x3 : Bool) : Shape.Statement (.brev x0 x1 x2 x3) := by
  intro x h; cases h; have := dst_code_lt x1; have := src_code_lt x2; have := x3.toNat_lt; simp only [InBits]; omega

theorem Shape.icmp (x0 : Fin 64) (x1 : MaskReg) (x2 : Src) (x3 : Src) (x4 : Fin 8) : Shape.Statement (.icmp x0 x1 x2 x3 x4) := by
  intro x h; cases h; have := src_code_lt x2; have := src_code_lt x3; simp only [InBits]; omega

theorem Shape.ucmp (x0 : Fin 64) (x1 : MaskReg) (x2 : Src) (x3 : Src) (x4 : Fin 8) : Shape.Statement (.ucmp x0 x1 x2 x3 x4) := by
  intro x h; cases h; have := src_code_lt x2; have := src_code_lt x3; simp only [InBits]; omega

theorem Shape.sel (x0 : Fin 64) (x1 : Dst) (x2 : Src) (x3 : Src) (x4 : MaskReg) : Shape.Statement (.sel x0 x1 x2 x3 x4) := by
  intro x h; cases h; have := dst_code_lt x1; have := src_code_lt x2; have := src_code_lt x3; simp only [InBits]; omega

theorem Shape.idiv (x0 : Fin 64) (x1 : Dst) (x2 : Src) (x3 : Src) (x4 : Bool) : Shape.Statement (.idiv x0 x1 x2 x3 x4) := by
  intro x h; cases h; have := dst_code_lt x1; have := src_code_lt x2; have := src_code_lt x3; have := x4.toNat_lt; simp only [InBits]; omega

theorem Shape.udiv (x0 : Fin 64) (x1 : Dst) (x2 : Src) (x3 : Src) (x4 : Bool) : Shape.Statement (.udiv x0 x1 x2 x3 x4) := by
  intro x h; cases h; have := dst_code_lt x1; have := src_code_lt x2; have := src_code_lt x3; have := x4.toNat_lt; simp only [InBits]; omega

theorem Shape.irem (x0 : Fin 64) (x1 : Dst) (x2 : Src) (x3 : Src) (x4 : Bool) : Shape.Statement (.irem x0 x1 x2 x3 x4) := by
  intro x h; cases h; have := dst_code_lt x1; have := src_code_lt x2; have := src_code_lt x3; have := x4.toNat_lt; simp only [InBits]; omega

theorem Shape.urem (x0 : Fin 64) (x1 : Dst) (x2 : Src) (x3 : Src) (x4 : Bool) : Shape.Statement (.urem x0 x1 x2 x3 x4) := by
  intro x h; cases h; have := dst_code_lt x1; have := src_code_lt x2; have := src_code_lt x3; have := x4.toNat_lt; simp only [InBits]; omega

theorem Shape.iclamp (x0 : Fin 64) (x1 : Dst) (x2 : Src) (x3 : Src) (x4 : Fin 8) : Shape.Statement (.iclamp x0 x1 x2 x3 x4) := by
  intro x h; cases h; have := dst_code_lt x1; have := src_code_lt x2; have := src_code_lt x3; simp only [InBits]; omega

theorem Shape.uclamp (x0 : Fin 64) (x1 : Dst) (x2 : Src) (x3 : Src) (x4 : Fin 8) : Shape.Statement (.uclamp x0 x1 x2 x3 x4) := by
  intro x h; cases h; have := dst_code_lt x1; have := src_code_lt x2; have := src_code_lt x3; simp only [InBits]; omega

theorem Shape.lbcast (x0 : Fin 64) (x1 : Dst) (x2 : Src) (x3 : Fin 64) : Shape.Statement (.lbcast x0 x1 x2 x3) := by
  intro x h; cases h; have := dst_code_lt x1; have := src_code_lt x2; simp only [InBits]; omega

theorem Shape.lshfl (x0 : Fin 64) (x1 : Dst) (x2 : Src) (x3 : Src) : Shape.Statement (.lshfl x0 x1 x2 x3) := by
  intro x h; cases h; have := dst_code_lt x1; have := src_code_lt x2; have := src_code_lt x3; simp only [InBits]; omega

theorem Shape.lrot (x0 : Fin 64) (x1 : Dst) (x2 : Src) (x3 : BitVec 9) : Shape.Statement (.lrot x0 x1 x2 x3) := by
  intro x h; cases h; have := dst_code_lt x1; have := src_code_lt x2; have := x3.isLt; simp only [InBits]; omega

theorem Shape.lred (x0 : Fin 64) (x1 : Dst) (x2 : Src) (x3 : Fin 16) : Shape.Statement (.lred x0 x1 x2 x3) := by
  intro x h; cases h; have := dst_code_lt x1; have := src_code_lt x2; simp only [InBits]; omega

theorem Shape.lscan (x0 : Fin 64) (x1 : Dst) (x2 : Src) (x3 : Bool) : Shape.Statement (.lscan x0 x1 x2 x3) := by
  intro x h; cases h; have := dst_code_lt x1; have := src_code_lt x2; have := x3.toNat_lt; simp only [InBits]; omega

theorem Shape.lcomp (x0 : Fin 64) (x1 : Dst) (x2 : Src) (x3 : MaskReg) : Shape.Statement (.lcomp x0 x1 x2 x3) := by
  intro x h; cases h; have := dst_code_lt x1; have := src_code_lt x2; simp only [InBits]; omega

theorem Shape.mand (x0 : Fin 64) (x1 : MaskReg) (x2 : MaskReg) (x3 : MaskReg) : Shape.Statement (.mand x0 x1 x2 x3) := by
  intro x h; cases h; simp only [InBits]; omega

theorem Shape.mor (x0 : Fin 64) (x1 : MaskReg) (x2 : MaskReg) (x3 : MaskReg) : Shape.Statement (.mor x0 x1 x2 x3) := by
  intro x h; cases h; simp only [InBits]; omega

theorem Shape.mxor (x0 : Fin 64) (x1 : MaskReg) (x2 : MaskReg) (x3 : MaskReg) : Shape.Statement (.mxor x0 x1 x2 x3) := by
  intro x h; cases h; simp only [InBits]; omega

theorem Shape.mandn (x0 : Fin 64) (x1 : MaskReg) (x2 : MaskReg) (x3 : MaskReg) : Shape.Statement (.mandn x0 x1 x2 x3) := by
  intro x h; cases h; simp only [InBits]; omega

theorem Shape.mnot (x0 : Fin 64) (x1 : MaskReg) (x2 : MaskReg) : Shape.Statement (.mnot x0 x1 x2) := by
  intro x h; cases h; simp only [InBits]; omega

theorem Shape.mmov (x0 : Fin 64) (x1 : MaskReg) (x2 : MaskReg) : Shape.Statement (.mmov x0 x1 x2) := by
  intro x h; cases h; simp only [InBits]; omega

theorem Shape.mpop (x0 : Fin 64) (x1 : Dst) (x2 : MaskReg) : Shape.Statement (.mpop x0 x1 x2) := by
  intro x h; cases h; have := dst_code_lt x1; simp only [InBits]; omega

theorem Shape.many (x0 : Fin 64) (x1 : PredReg) (x2 : MaskReg) : Shape.Statement (.many x0 x1 x2) := by
  intro x h; cases h; simp only [InBits]; omega

theorem Shape.mall (x0 : Fin 64) (x1 : PredReg) (x2 : MaskReg) : Shape.Statement (.mall x0 x1 x2) := by
  intro x h; cases h; simp only [InBits]; omega

theorem Shape.mnone (x0 : Fin 64) (x1 : PredReg) (x2 : MaskReg) : Shape.Statement (.mnone x0 x1 x2) := by
  intro x h; cases h; simp only [InBits]; omega

theorem Shape.mfrom (x0 : Fin 64) (x1 : MaskReg) (x2 : Pair) : Shape.Statement (.mfrom x0 x1 x2) := by
  intro x h; cases h; simp only [InBits]; omega

theorem Shape.mto (x0 : Fin 64) (x1 : PDst) (x2 : MaskReg) : Shape.Statement (.mto x0 x1 x2) := by
  intro x h; cases h; have := pdst_code_lt x1; simp only [InBits]; omega

theorem Shape.mseti (x0 : Fin 64) (x1 : MaskReg) (x2 : BitVec 9) : Shape.Statement (.mseti x0 x1 x2) := by
  intro x h; cases h; have := x2.isLt; simp only [InBits]; omega

theorem Shape.sendt (x0 : Fin 64) (x1 : ChanNo) (x2 : Src) (x3 : Src) : Shape.Statement (.sendt x0 x1 x2 x3) := by
  intro x h; cases h; have := src_code_lt x2; have := src_code_lt x3; simp only [InBits]; omega

theorem Shape.tagr (x0 : Fin 64) (x1 : VReg) (x2 : ChanNo) : Shape.Statement (.tagr x0 x1 x2) := by
  intro x h; cases h; simp only [InBits]; omega

theorem Shape.cens (x0 : Fin 64) (x1 : BitVec 9) : Shape.Statement (.cens x0 x1) := by
  intro x h; cases h; have := x1.isLt; simp only [InBits]; omega

theorem Shape.sysr (x0 : Fin 64) (x1 : Dst) (x2 : BitVec 9) : Shape.Statement (.sysr x0 x1 x2) := by
  intro x h; cases h; have := dst_code_lt x1; have := x2.isLt; simp only [InBits]; omega

theorem Shape.sysw (x0 : Fin 64) (x1 : Src) (x2 : BitVec 9) : Shape.Statement (.sysw x0 x1 x2) := by
  intro x h; cases h; have := src_code_lt x1; have := x2.isLt; simp only [InBits]; omega

theorem Shape.trap (x0 : Fin 64) (x1 : BitVec 14) : Shape.Statement (.trap x0 x1) := by
  intro x h; cases h; have := x1.isLt; simp only [InBits]; omega

theorem Shape.brk (x0 : Fin 64) (x1 : BitVec 14) : Shape.Statement (.brk x0 x1) := by
  intro x h; cases h; have := x1.isLt; simp only [InBits]; omega

theorem Shape.tlaunch (x0 : Fin 64) (x1 : Pair) : Shape.Statement (.tlaunch x0 x1) := by
  intro x h; cases h; simp only [InBits]; omega

theorem Shape.draftld (x0 : Fin 64) (x1 : Pair) (x2 : Src) (x3 : Profile) : Shape.Statement (.draftld x0 x1 x2 x3) := by
  intro x h; cases h; have := src_code_lt x2; simp only [InBits]; omega

theorem Shape.draftsw (x0 : Fin 64) : Shape.Statement (.draftsw x0) := by
  intro x h; cases h; simp only [InBits]; omega

theorem Shape.ctximgSavef (x0 : Fin 64) (x1 : Pair) (x2 : Src) : Shape.Statement (.ctximgSavef x0 x1 x2) := by
  intro x h; cases h; have := src_code_lt x2; simp only [InBits]; omega

theorem Shape.ctximgSaved (x0 : Fin 64) (x1 : Pair) (x2 : Src) : Shape.Statement (.ctximgSaved x0 x1 x2) := by
  intro x h; cases h; have := src_code_lt x2; simp only [InBits]; omega

theorem Shape.ctximgRest (x0 : Fin 64) (x1 : Pair) (x2 : Src) : Shape.Statement (.ctximgRest x0 x1 x2) := by
  intro x h; cases h; have := src_code_lt x2; simp only [InBits]; omega

theorem Shape.tlbinvPg (x0 : Fin 64) (x1 : Pair) (x2 : Src) (x3 : Profile) : Shape.Statement (.tlbinvPg x0 x1 x2 x3) := by
  intro x h; cases h; have := src_code_lt x2; simp only [InBits]; omega

theorem Shape.tlbinvAs (x0 : Fin 64) (x1 : Pair) (x2 : Src) (x3 : Profile) : Shape.Statement (.tlbinvAs x0 x1 x2 x3) := by
  intro x h; cases h; have := src_code_lt x2; simp only [InBits]; omega

theorem Shape.tlbinvAll (x0 : Fin 64) (x1 : Pair) (x2 : Src) (x3 : Profile) : Shape.Statement (.tlbinvAll x0 x1 x2 x3) := by
  intro x h; cases h; have := src_code_lt x2; simp only [InBits]; omega

theorem Shape.fadd (x0 : Fin 64) (x1 : Dst) (x2 : Src) (x3 : Src) : Shape.Statement (.fadd x0 x1 x2 x3) := by
  intro x h; cases h; have := dst_code_lt x1; have := src_code_lt x2; have := src_code_lt x3; simp only [InBits]; omega

theorem Shape.fsub (x0 : Fin 64) (x1 : Dst) (x2 : Src) (x3 : Src) : Shape.Statement (.fsub x0 x1 x2 x3) := by
  intro x h; cases h; have := dst_code_lt x1; have := src_code_lt x2; have := src_code_lt x3; simp only [InBits]; omega

theorem Shape.fmul (x0 : Fin 64) (x1 : Dst) (x2 : Src) (x3 : Src) : Shape.Statement (.fmul x0 x1 x2 x3) := by
  intro x h; cases h; have := dst_code_lt x1; have := src_code_lt x2; have := src_code_lt x3; simp only [InBits]; omega

theorem Shape.ffma (x0 : Fin 64) (x1 : Dst) (x2 : Src) (x3 : Src) (x4 : VReg) : Shape.Statement (.ffma x0 x1 x2 x3 x4) := by
  intro x h; cases h; have := dst_code_lt x1; have := src_code_lt x2; have := src_code_lt x3; simp only [InBits]; omega

theorem Shape.ffms (x0 : Fin 64) (x1 : Dst) (x2 : Src) (x3 : Src) (x4 : VReg) : Shape.Statement (.ffms x0 x1 x2 x3 x4) := by
  intro x h; cases h; have := dst_code_lt x1; have := src_code_lt x2; have := src_code_lt x3; simp only [InBits]; omega

theorem Shape.fmin (x0 : Fin 64) (x1 : Dst) (x2 : Src) (x3 : Src) : Shape.Statement (.fmin x0 x1 x2 x3) := by
  intro x h; cases h; have := dst_code_lt x1; have := src_code_lt x2; have := src_code_lt x3; simp only [InBits]; omega

theorem Shape.fmax (x0 : Fin 64) (x1 : Dst) (x2 : Src) (x3 : Src) : Shape.Statement (.fmax x0 x1 x2 x3) := by
  intro x h; cases h; have := dst_code_lt x1; have := src_code_lt x2; have := src_code_lt x3; simp only [InBits]; omega

theorem Shape.fminp (x0 : Fin 64) (x1 : Dst) (x2 : Src) (x3 : Src) : Shape.Statement (.fminp x0 x1 x2 x3) := by
  intro x h; cases h; have := dst_code_lt x1; have := src_code_lt x2; have := src_code_lt x3; simp only [InBits]; omega

theorem Shape.fmaxp (x0 : Fin 64) (x1 : Dst) (x2 : Src) (x3 : Src) : Shape.Statement (.fmaxp x0 x1 x2 x3) := by
  intro x h; cases h; have := dst_code_lt x1; have := src_code_lt x2; have := src_code_lt x3; simp only [InBits]; omega

theorem Shape.fabs (x0 : Fin 64) (x1 : Dst) (x2 : Src) : Shape.Statement (.fabs x0 x1 x2) := by
  intro x h; cases h; have := dst_code_lt x1; have := src_code_lt x2; simp only [InBits]; omega

theorem Shape.fneg (x0 : Fin 64) (x1 : Dst) (x2 : Src) : Shape.Statement (.fneg x0 x1 x2) := by
  intro x h; cases h; have := dst_code_lt x1; have := src_code_lt x2; simp only [InBits]; omega

theorem Shape.fcpys (x0 : Fin 64) (x1 : Dst) (x2 : Src) (x3 : Src) : Shape.Statement (.fcpys x0 x1 x2 x3) := by
  intro x h; cases h; have := dst_code_lt x1; have := src_code_lt x2; have := src_code_lt x3; simp only [InBits]; omega

theorem Shape.fcmp (x0 : Fin 64) (x1 : MaskReg) (x2 : Src) (x3 : Src) (x4 : Fin 8) : Shape.Statement (.fcmp x0 x1 x2 x3 x4) := by
  intro x h; cases h; have := src_code_lt x2; have := src_code_lt x3; simp only [InBits]; omega

theorem Shape.fclass (x0 : Fin 64) (x1 : Dst) (x2 : Src) : Shape.Statement (.fclass x0 x1 x2) := by
  intro x h; cases h; have := dst_code_lt x1; have := src_code_lt x2; simp only [InBits]; omega

theorem Shape.frnd (x0 : Fin 64) (x1 : Dst) (x2 : Src) (x3 : Fin 8) : Shape.Statement (.frnd x0 x1 x2 x3) := by
  intro x h; cases h; have := dst_code_lt x1; have := src_code_lt x2; simp only [InBits]; omega

theorem Shape.fcvti (x0 : Fin 64) (x1 : Dst) (x2 : Src) (x3 : Bool) (x4 : Bool) : Shape.Statement (.fcvti x0 x1 x2 x3 x4) := by
  intro x h; cases h; have := dst_code_lt x1; have := src_code_lt x2; have := x3.toNat_lt; have := x4.toNat_lt; simp only [InBits]; omega

theorem Shape.fcvtf (x0 : Fin 64) (x1 : Dst) (x2 : Src) (x3 : Bool) (x4 : Bool) : Shape.Statement (.fcvtf x0 x1 x2 x3 x4) := by
  intro x h; cases h; have := dst_code_lt x1; have := src_code_lt x2; have := x3.toNat_lt; have := x4.toNat_lt; simp only [InBits]; omega

theorem Shape.fcvt (x0 : Fin 64) (x1 : Dst) (x2 : Src) (x3 : ODst) (x4 : Bool) (x5 : Fin 8) : Shape.Statement (.fcvt x0 x1 x2 x3 x4 x5) := by
  intro x h; cases h; have := dst_code_lt x1; have := src_code_lt x2; have := odst_code_lt x3; have := x4.toNat_lt; simp only [InBits]; omega

theorem Shape.funp (x0 : Fin 64) (x1 : Dst) (x2 : Src) (x3 : Bool) (x4 : Fin 8) : Shape.Statement (.funp x0 x1 x2 x3 x4) := by
  intro x h; cases h; have := dst_code_lt x1; have := src_code_lt x2; have := x3.toNat_lt; simp only [InBits]; omega

theorem Shape.fx2f (x0 : Fin 64) (x1 : Dst) (x2 : Src) : Shape.Statement (.fx2f x0 x1 x2) := by
  intro x h; cases h; have := dst_code_lt x1; have := src_code_lt x2; simp only [InBits]; omega

theorem Shape.flg2f (x0 : Fin 64) (x1 : Dst) (x2 : Src) : Shape.Statement (.flg2f x0 x1 x2) := by
  intro x h; cases h; have := dst_code_lt x1; have := src_code_lt x2; simp only [InBits]; omega

theorem Shape.fexp2 (x0 : Fin 64) (x1 : Dst) (x2 : Src) : Shape.Statement (.fexp2 x0 x1 x2) := by
  intro x h; cases h; have := dst_code_lt x1; have := src_code_lt x2; simp only [InBits]; omega

theorem Shape.flog2 (x0 : Fin 64) (x1 : Dst) (x2 : Src) : Shape.Statement (.flog2 x0 x1 x2) := by
  intro x h; cases h; have := dst_code_lt x1; have := src_code_lt x2; simp only [InBits]; omega

theorem Shape.frcp (x0 : Fin 64) (x1 : Dst) (x2 : Src) : Shape.Statement (.frcp x0 x1 x2) := by
  intro x h; cases h; have := dst_code_lt x1; have := src_code_lt x2; simp only [InBits]; omega

theorem Shape.frsq (x0 : Fin 64) (x1 : Dst) (x2 : Src) : Shape.Statement (.frsq x0 x1 x2) := by
  intro x h; cases h; have := dst_code_lt x1; have := src_code_lt x2; simp only [InBits]; omega

theorem Shape.fsqrt (x0 : Fin 64) (x1 : Dst) (x2 : Src) : Shape.Statement (.fsqrt x0 x1 x2) := by
  intro x h; cases h; have := dst_code_lt x1; have := src_code_lt x2; simp only [InBits]; omega

theorem Shape.fscl (x0 : Fin 64) (x1 : Dst) (x2 : Src) (x3 : Src) : Shape.Statement (.fscl x0 x1 x2 x3) := by
  intro x h; cases h; have := dst_code_lt x1; have := src_code_lt x2; have := src_code_lt x3; simp only [InBits]; omega

theorem Shape.fgetx (x0 : Fin 64) (x1 : Dst) (x2 : Src) : Shape.Statement (.fgetx x0 x1 x2) := by
  intro x h; cases h; have := dst_code_lt x1; have := src_code_lt x2; simp only [InBits]; omega

theorem Shape.fgetm (x0 : Fin 64) (x1 : Dst) (x2 : Src) : Shape.Statement (.fgetm x0 x1 x2) := by
  intro x h; cases h; have := dst_code_lt x1; have := src_code_lt x2; simp only [InBits]; omega

theorem Shape.fsinp (x0 : Fin 64) (x1 : Dst) (x2 : Src) : Shape.Statement (.fsinp x0 x1 x2) := by
  intro x h; cases h; have := dst_code_lt x1; have := src_code_lt x2; simp only [InBits]; omega

theorem Shape.fcosp (x0 : Fin 64) (x1 : Dst) (x2 : Src) : Shape.Statement (.fcosp x0 x1 x2) := by
  intro x h; cases h; have := dst_code_lt x1; have := src_code_lt x2; simp only [InBits]; omega

theorem Shape.hfma2 (x0 : Fin 64) (x1 : Dst) (x2 : Src) (x3 : Src) (x4 : Bool) (x5 : Fin 8) : Shape.Statement (.hfma2 x0 x1 x2 x3 x4 x5) := by
  intro x h; cases h; have := dst_code_lt x1; have := src_code_lt x2; have := src_code_lt x3; have := x4.toNat_lt; simp only [InBits]; omega

theorem Shape.hadd2 (x0 : Fin 64) (x1 : Dst) (x2 : Src) (x3 : Src) (x4 : Bool) : Shape.Statement (.hadd2 x0 x1 x2 x3 x4) := by
  intro x h; cases h; have := dst_code_lt x1; have := src_code_lt x2; have := src_code_lt x3; have := x4.toNat_lt; simp only [InBits]; omega

theorem Shape.hmul2 (x0 : Fin 64) (x1 : Dst) (x2 : Src) (x3 : Src) (x4 : Bool) : Shape.Statement (.hmul2 x0 x1 x2 x3 x4) := by
  intro x h; cases h; have := dst_code_lt x1; have := src_code_lt x2; have := src_code_lt x3; have := x4.toNat_lt; simp only [InBits]; omega

theorem Shape.fdot2 (x0 : Fin 64) (x1 : Dst) (x2 : Src) (x3 : Src) (x4 : VReg) : Shape.Statement (.fdot2 x0 x1 x2 x3 x4) := by
  intro x h; cases h; have := dst_code_lt x1; have := src_code_lt x2; have := src_code_lt x3; simp only [InBits]; omega

theorem Shape.bscale (x0 : Fin 64) (x1 : Dst) (x2 : Src) (x3 : Src) : Shape.Statement (.bscale x0 x1 x2 x3) := by
  intro x h; cases h; have := dst_code_lt x1; have := src_code_lt x2; have := src_code_lt x3; simp only [InBits]; omega

theorem Shape.packb (x0 : Fin 64) (x1 : Dst) (x2 : Src) (x3 : Src) : Shape.Statement (.packb x0 x1 x2 x3) := by
  intro x h; cases h; have := dst_code_lt x1; have := src_code_lt x2; have := src_code_lt x3; simp only [InBits]; omega

theorem Shape.unpkb (x0 : Fin 64) (x1 : Dst) (x2 : Src) (x3 : Src) : Shape.Statement (.unpkb x0 x1 x2 x3) := by
  intro x h; cases h; have := dst_code_lt x1; have := src_code_lt x2; have := src_code_lt x3; simp only [InBits]; omega

theorem Shape.ld (x0 : Fin 64) (x1 : Dst) (x2 : Pair) (x3 : Src) (x4 : Profile) (x5 : Bool) : Shape.Statement (.ld x0 x1 x2 x3 x4 x5) := by
  intro x h; cases h; have := dst_code_lt x1; have := src_code_lt x3; have := x5.toNat_lt; simp only [InBits]; omega

theorem Shape.ldb8 (x0 : Fin 64) (x1 : Dst) (x2 : Pair) (x3 : Src) (x4 : Profile) : Shape.Statement (.ldb8 x0 x1 x2 x3 x4) := by
  intro x h; cases h; have := dst_code_lt x1; have := src_code_lt x3; simp only [InBits]; omega

theorem Shape.ldh16 (x0 : Fin 64) (x1 : Dst) (x2 : Pair) (x3 : Src) (x4 : Profile) : Shape.Statement (.ldh16 x0 x1 x2 x3 x4) := by
  intro x h; cases h; have := dst_code_lt x1; have := src_code_lt x3; simp only [InBits]; omega

theorem Shape.ldc (x0 : Fin 64) (x1 : Dst) (x2 : Pair) (x3 : Src) (x4 : Profile) (x5 : Bool) : Shape.Statement (.ldc x0 x1 x2 x3 x4 x5) := by
  intro x h; cases h; have := dst_code_lt x1; have := src_code_lt x3; have := x5.toNat_lt; simp only [InBits]; omega

theorem Shape.ldx (x0 : Fin 64) (x1 : PDst) (x2 : Pair) (x3 : Src) (x4 : Profile) : Shape.Statement (.ldx x0 x1 x2 x3 x4) := by
  intro x h; cases h; have := pdst_code_lt x1; have := src_code_lt x3; simp only [InBits]; omega

theorem Shape.lds (x0 : Fin 64) (x1 : Dst) (x2 : Src) (x3 : Src) (x4 : Profile) (x5 : Bool) : Shape.Statement (.lds x0 x1 x2 x3 x4 x5) := by
  intro x h; cases h; have := dst_code_lt x1; have := src_code_lt x2; have := src_code_lt x3; have := x5.toNat_lt; simp only [InBits]; omega

theorem Shape.st (x0 : Fin 64) (x1 : Src) (x2 : Pair) (x3 : Src) (x4 : Profile) (x5 : Bool) : Shape.Statement (.st x0 x1 x2 x3 x4 x5) := by
  intro x h; cases h; have := src_code_lt x1; have := src_code_lt x3; have := x5.toNat_lt; simp only [InBits]; omega

theorem Shape.stb8 (x0 : Fin 64) (x1 : Src) (x2 : Pair) (x3 : Src) (x4 : Profile) : Shape.Statement (.stb8 x0 x1 x2 x3 x4) := by
  intro x h; cases h; have := src_code_lt x1; have := src_code_lt x3; simp only [InBits]; omega

theorem Shape.sth16 (x0 : Fin 64) (x1 : Src) (x2 : Pair) (x3 : Src) (x4 : Profile) : Shape.Statement (.sth16 x0 x1 x2 x3 x4) := by
  intro x h; cases h; have := src_code_lt x1; have := src_code_lt x3; simp only [InBits]; omega

theorem Shape.stc (x0 : Fin 64) (x1 : Src) (x2 : Pair) (x3 : Src) (x4 : Profile) (x5 : Bool) : Shape.Statement (.stc x0 x1 x2 x3 x4 x5) := by
  intro x h; cases h; have := src_code_lt x1; have := src_code_lt x3; have := x5.toNat_lt; simp only [InBits]; omega

theorem Shape.stx (x0 : Fin 64) (x1 : Pair) (x2 : Pair) (x3 : Src) (x4 : Profile) : Shape.Statement (.stx x0 x1 x2 x3 x4) := by
  intro x h; cases h; have := src_code_lt x3; simp only [InBits]; omega

theorem Shape.sts (x0 : Fin 64) (x1 : Src) (x2 : Src) (x3 : Src) (x4 : Profile) (x5 : Bool) : Shape.Statement (.sts x0 x1 x2 x3 x4 x5) := by
  intro x h; cases h; have := src_code_lt x1; have := src_code_lt x2; have := src_code_lt x3; have := x5.toNat_lt; simp only [InBits]; omega

theorem Shape.aadd (x0 : Fin 64) (x1 : RDst) (x2 : Pair) (x3 : Src) (x4 : Profile) (x5 : Bool) : Shape.Statement (.aadd x0 x1 x2 x3 x4 x5) := by
  intro x h; cases h; have := rdst_code_lt x1; have := src_code_lt x3; have := x5.toNat_lt; simp only [InBits]; omega

theorem Shape.amin (x0 : Fin 64) (x1 : RDst) (x2 : Pair) (x3 : Src) (x4 : Profile) (x5 : Bool) : Shape.Statement (.amin x0 x1 x2 x3 x4 x5) := by
  intro x h; cases h; have := rdst_code_lt x1; have := src_code_lt x3; have := x5.toNat_lt; simp only [InBits]; omega

theorem Shape.amax (x0 : Fin 64) (x1 : RDst) (x2 : Pair) (x3 : Src) (x4 : Profile) (x5 : Bool) : Shape.Statement (.amax x0 x1 x2 x3 x4 x5) := by
  intro x h; cases h; have := rdst_code_lt x1; have := src_code_lt x3; have := x5.toNat_lt; simp only [InBits]; omega

theorem Shape.aand (x0 : Fin 64) (x1 : RDst) (x2 : Pair) (x3 : Src) (x4 : Profile) (x5 : Bool) : Shape.Statement (.aand x0 x1 x2 x3 x4 x5) := by
  intro x h; cases h; have := rdst_code_lt x1; have := src_code_lt x3; have := x5.toNat_lt; simp only [InBits]; omega

theorem Shape.aor (x0 : Fin 64) (x1 : RDst) (x2 : Pair) (x3 : Src) (x4 : Profile) (x5 : Bool) : Shape.Statement (.aor x0 x1 x2 x3 x4 x5) := by
  intro x h; cases h; have := rdst_code_lt x1; have := src_code_lt x3; have := x5.toNat_lt; simp only [InBits]; omega

theorem Shape.axor (x0 : Fin 64) (x1 : RDst) (x2 : Pair) (x3 : Src) (x4 : Profile) (x5 : Bool) : Shape.Statement (.axor x0 x1 x2 x3 x4 x5) := by
  intro x h; cases h; have := rdst_code_lt x1; have := src_code_lt x3; have := x5.toNat_lt; simp only [InBits]; omega

theorem Shape.axch (x0 : Fin 64) (x1 : RDst) (x2 : Pair) (x3 : Src) (x4 : Profile) (x5 : Bool) : Shape.Statement (.axch x0 x1 x2 x3 x4 x5) := by
  intro x h; cases h; have := rdst_code_lt x1; have := src_code_lt x3; have := x5.toNat_lt; simp only [InBits]; omega

theorem Shape.acas (x0 : Fin 64) (x1 : RDst) (x2 : Pair) (x3 : Src) (x4 : Profile) (x5 : Bool) : Shape.Statement (.acas x0 x1 x2 x3 x4 x5) := by
  intro x h; cases h; have := rdst_code_lt x1; have := src_code_lt x3; have := x5.toNat_lt; simp only [InBits]; omega

theorem Shape.afadd (x0 : Fin 64) (x1 : RDst) (x2 : Pair) (x3 : Src) (x4 : Profile) (x5 : Bool) : Shape.Statement (.afadd x0 x1 x2 x3 x4 x5) := by
  intro x h; cases h; have := rdst_code_lt x1; have := src_code_lt x3; have := x5.toNat_lt; simp only [InBits]; omega

theorem Shape.mwcas (x0 : Fin 64) (x1 : PDst) (x2 : Pair) (x3 : PredReg) (x4 : Profile) : Shape.Statement (.mwcas x0 x1 x2 x3 x4) := by
  intro x h; cases h; have := pdst_code_lt x1; simp only [InBits]; omega

theorem Shape.fence (x0 : Fin 64) (x1 : Fin 16) (x2 : Fin 16) (x3 : Profile) : Shape.Statement (.fence x0 x1 x2 x3) := by
  intro x h; cases h; simp only [InBits]; omega

theorem Shape.waita (x0 : Fin 64) (x1 : RDst) (x2 : Pair) (x3 : Src) (x4 : Profile) (x5 : Bool) : Shape.Statement (.waita x0 x1 x2 x3 x4 x5) := by
  intro x h; cases h; have := rdst_code_lt x1; have := src_code_lt x3; have := x5.toNat_lt; simp only [InBits]; omega

theorem Shape.wake (x0 : Fin 64) (x1 : Pair) (x2 : Src) (x3 : Profile) : Shape.Statement (.wake x0 x1 x2 x3) := by
  intro x h; cases h; have := src_code_lt x2; simp only [InBits]; omega

theorem Shape.wbr (x0 : Fin 64) (x1 : Pair) (x2 : Src) (x3 : Profile) : Shape.Statement (.wbr x0 x1 x2 x3) := by
  intro x h; cases h; have := src_code_lt x2; simp only [InBits]; omega

theorem Shape.invr (x0 : Fin 64) (x1 : Pair) (x2 : Src) (x3 : Profile) (x4 : Bool) : Shape.Statement (.invr x0 x1 x2 x3 x4) := by
  intro x h; cases h; have := src_code_lt x2; have := x4.toNat_lt; simp only [InBits]; omega

theorem Shape.freg (x0 : Fin 64) (x1 : Pair) (x2 : Src) (x3 : Profile) : Shape.Statement (.freg x0 x1 x2 x3) := by
  intro x h; cases h; have := src_code_lt x2; simp only [InBits]; omega

theorem Shape.fres (x0 : Fin 64) (x1 : Pair) (x2 : Src) (x3 : Profile) : Shape.Statement (.fres x0 x1 x2 x3) := by
  intro x h; cases h; have := src_code_lt x2; simp only [InBits]; omega

theorem Shape.shcpy (x0 : Fin 64) (x1 : Pair) (x2 : Src) (x3 : Profile) : Shape.Statement (.shcpy x0 x1 x2 x3) := by
  intro x h; cases h; have := src_code_lt x2; simp only [InBits]; omega

theorem Shape.shtile (x0 : Fin 64) (x1 : Pair) (x2 : Src) (x3 : Profile) : Shape.Statement (.shtile x0 x1 x2 x3) := by
  intro x h; cases h; have := src_code_lt x2; simp only [InBits]; omega

theorem Shape.shmcast (x0 : Fin 64) (x1 : Pair) (x2 : Src) (x3 : Profile) : Shape.Statement (.shmcast x0 x1 x2 x3) := by
  intro x h; cases h; have := src_code_lt x2; simp only [InBits]; omega

theorem Shape.shstrm (x0 : Fin 64) (x1 : Pair) (x2 : Profile) : Shape.Statement (.shstrm x0 x1 x2) := by
  intro x h; cases h; simp only [InBits]; omega

theorem Shape.shclose (x0 : Fin 64) (x1 : Pair) (x2 : Profile) : Shape.Statement (.shclose x0 x1 x2) := by
  intro x h; cases h; simp only [InBits]; omega

theorem Shape.hprep (x0 : Fin 64) (x1 : Src) (x2 : Src) : Shape.Statement (.hprep x0 x1 x2) := by
  intro x h; cases h; have := src_code_lt x1; have := src_code_lt x2; simp only [InBits]; omega

theorem Shape.hwload (x0 : Fin 64) (x1 : Src) (x2 : Src) : Shape.Statement (.hwload x0 x1 x2) := by
  intro x h; cases h; have := src_code_lt x1; have := src_code_lt x2; simp only [InBits]; omega

theorem Shape.hmma (x0 : Fin 64) (x1 : Src) (x2 : Src) : Shape.Statement (.hmma x0 x1 x2) := by
  intro x h; cases h; have := src_code_lt x1; have := src_code_lt x2; simp only [InBits]; omega

theorem Shape.hwait (x0 : Fin 64) (x1 : PredReg) (x2 : Src) : Shape.Statement (.hwait x0 x1 x2) := by
  intro x h; cases h; have := src_code_lt x2; simp only [InBits]; omega

theorem Shape.hdrain (x0 : Fin 64) (x1 : RDst) (x2 : Src) (x3 : Src) : Shape.Statement (.hdrain x0 x1 x2 x3) := by
  intro x h; cases h; have := rdst_code_lt x1; have := src_code_lt x2; have := src_code_lt x3; simp only [InBits]; omega

theorem Shape.hzero (x0 : Fin 64) (x1 : Src) (x2 : Src) : Shape.Statement (.hzero x0 x1 x2) := by
  intro x h; cases h; have := src_code_lt x1; have := src_code_lt x2; simp only [InBits]; omega

theorem Shape.cbdec (x0 : Fin 64) (x1 : Dst) (x2 : Src) : Shape.Statement (.cbdec x0 x1 x2) := by
  intro x h; cases h; have := dst_code_lt x1; have := src_code_lt x2; simp only [InBits]; omega

theorem Shape.hcbload (x0 : Fin 64) (x1 : Src) (x2 : Src) : Shape.Statement (.hcbload x0 x1 x2) := by
  intro x h; cases h; have := src_code_lt x1; have := src_code_lt x2; simp only [InBits]; omega

theorem Shape.binb (x0 : Fin 64) (x1 : Dst) (x2 : Src) (x3 : Src) : Shape.Statement (.binb x0 x1 x2 x3) := by
  intro x h; cases h; have := dst_code_lt x1; have := src_code_lt x2; have := src_code_lt x3; simp only [InBits]; omega

theorem Shape.edge (x0 : Fin 64) (x1 : MaskReg) (x2 : Src) (x3 : Src) (x4 : Fin 4) : Shape.Statement (.edge x0 x1 x2 x3 x4) := by
  intro x h; cases h; have := src_code_lt x2; have := src_code_lt x3; simp only [InBits]; omega

theorem Shape.bary (x0 : Fin 64) (x1 : Dst) (x2 : Src) (x3 : Src) : Shape.Statement (.bary x0 x1 x2 x3) := by
  intro x h; cases h; have := dst_code_lt x1; have := src_code_lt x2; have := src_code_lt x3; simp only [InBits]; omega

theorem Shape.texb (x0 : Fin 64) (x1 : Dst) (x2 : Src) (x3 : Src) : Shape.Statement (.texb x0 x1 x2 x3) := by
  intro x h; cases h; have := dst_code_lt x1; have := src_code_lt x2; have := src_code_lt x3; simp only [InBits]; omega

theorem Shape.tnode (x0 : Fin 64) (x1 : Src) : Shape.Statement (.tnode x0 x1) := by
  intro x h; cases h; have := src_code_lt x1; simp only [InBits]; omega

theorem Shape.rspush (x0 : Fin 64) (x1 : Src) : Shape.Statement (.rspush x0 x1) := by
  intro x h; cases h; have := src_code_lt x1; simp only [InBits]; omega

theorem Shape.rspop (x0 : Fin 64) (x1 : Src) : Shape.Statement (.rspop x0 x1) := by
  intro x h; cases h; have := src_code_lt x1; simp only [InBits]; omega

theorem Shape.tisect (x0 : Fin 64) (x1 : Src) : Shape.Statement (.tisect x0 x1) := by
  intro x h; cases h; have := src_code_lt x1; simp only [InBits]; omega

theorem Shape.rayout (x0 : Fin 64) (x1 : ChanNo) : Shape.Statement (.rayout x0 x1) := by
  intro x h; cases h; simp only [InBits]; omega

theorem Shape.rayin (x0 : Fin 64) (x1 : ChanNo) : Shape.Statement (.rayin x0 x1) := by
  intro x h; cases h; simp only [InBits]; omega

theorem Shape.blnd (x0 : Fin 64) (x1 : Dst) (x2 : ChanNo) (x3 : Src) (x4 : Fin 8) : Shape.Statement (.blnd x0 x1 x2 x3 x4) := by
  intro x h; cases h; have := dst_code_lt x1; have := src_code_lt x3; simp only [InBits]; omega

theorem Shape.zcmp (x0 : Fin 64) (x1 : MaskReg) (x2 : Src) (x3 : Src) : Shape.Statement (.zcmp x0 x1 x2 x3) := by
  intro x h; cases h; have := src_code_lt x2; have := src_code_lt x3; simp only [InBits]; omega

theorem Shape.sideLogReplay (x0 : Nat) (x1 : Nat) : Shape.Statement (.sideLogReplay x0 x1) := by
  intro x h; simp [encodeFields] at h

theorem Shape.pageWalk (x0 : Nat) : Shape.Statement (.pageWalk x0) := by
  intro x h; simp [encodeFields] at h

theorem Shape.migLeafWritten (x0 : Nat) : Shape.Statement (.migLeafWritten x0) := by
  intro x h; simp [encodeFields] at h

theorem Shape.loadBind (x0 : Nat) : Shape.Statement (.loadBind x0) := by
  intro x h; simp [encodeFields] at h

theorem Shape.accessCompletion (x0 : Nat) : Shape.Statement (.accessCompletion x0) := by
  intro x h; simp [encodeFields] at h

theorem Shape.tlbinvComplete (x0 : Nat) : Shape.Statement (.tlbinvComplete x0) := by
  intro x h; simp [encodeFields] at h

theorem Shape.memoryTimeout (x0 : Nat) : Shape.Statement (.memoryTimeout x0) := by
  intro x h; simp [encodeFields] at h

theorem Shape.homeSliceRequest (x0 : Nat) (x1 : Nat) : Shape.Statement (.homeSliceRequest x0 x1) := by
  intro x h; simp [encodeFields] at h

theorem Shape.recallResponse (x0 : Nat) (x1 : Nat) : Shape.Statement (.recallResponse x0 x1) := by
  intro x h; simp [encodeFields] at h

theorem Shape.ownershipHoldExpiry (x0 : Nat) (x1 : Nat) : Shape.Statement (.ownershipHoldExpiry x0 x1) := by
  intro x h; simp [encodeFields] at h

theorem Shape.hostAccess (x0 : HostReq) : Shape.Statement (.hostAccess x0) := by
  intro x h; simp [encodeFields] at h

theorem Shape.remoteAccess (x0 : RemoteReq) : Shape.Statement (.remoteAccess x0) := by
  intro x h; simp [encodeFields] at h

theorem Shape.smFlush (x0 : Nat) (x1 : Nat) : Shape.Statement (.smFlush x0 x1) := by
  intro x h; simp [encodeFields] at h

theorem Shape.atomicAtHome (x0 : Nat) (x1 : Nat) : Shape.Statement (.atomicAtHome x0 x1) := by
  intro x h; simp [encodeFields] at h

theorem Shape.mergeBufferForward (x0 : Nat) (x1 : Nat) : Shape.Statement (.mergeBufferForward x0 x1) := by
  intro x h; simp [encodeFields] at h

theorem Shape.mwcasLockPhase (x0 : Nat) : Shape.Statement (.mwcasLockPhase x0) := by
  intro x h; simp [encodeFields] at h

theorem Shape.mwcasQueuedLockGrant (x0 : Nat) : Shape.Statement (.mwcasQueuedLockGrant x0) := by
  intro x h; simp [encodeFields] at h

theorem Shape.mwcasBoundExpiry (x0 : Nat) : Shape.Statement (.mwcasBoundExpiry x0) := by
  intro x h; simp [encodeFields] at h

theorem Shape.mwcasLockTimeout (x0 : Nat) : Shape.Statement (.mwcasLockTimeout x0) := by
  intro x h; simp [encodeFields] at h

theorem Shape.mwcasCommitTimeout (x0 : Nat) : Shape.Statement (.mwcasCommitTimeout x0) := by
  intro x h; simp [encodeFields] at h

theorem Shape.waitaWake (x0 : Nat) : Shape.Statement (.waitaWake x0) := by
  intro x h; simp [encodeFields] at h

theorem Shape.futureArrive (x0 : Nat) : Shape.Statement (.futureArrive x0) := by
  intro x h; simp [encodeFields] at h

theorem Shape.tokenArrival (x0 : Nat) : Shape.Statement (.tokenArrival x0) := by
  intro x h; simp [encodeFields] at h

theorem Shape.reservationGrant (x0 : Nat) : Shape.Statement (.reservationGrant x0) := by
  intro x h; simp [encodeFields] at h

theorem Shape.stageQueueDispatch (x0 : Nat) (x1 : Nat) : Shape.Statement (.stageQueueDispatch x0 x1) := by
  intro x h; simp [encodeFields] at h

theorem Shape.quiescenceReport (x0 : Nat) (x1 : Nat) : Shape.Statement (.quiescenceReport x0 x1) := by
  intro x h; simp [encodeFields] at h

theorem Shape.draftldValidation (x0 : Nat) : Shape.Statement (.draftldValidation x0) := by
  intro x h; simp [encodeFields] at h

theorem Shape.draftswCommit (x0 : Nat) (x1 : Nat) (x2 : Nat) : Shape.Statement (.draftswCommit x0 x1 x2) := by
  intro x h; simp [encodeFields] at h

theorem Shape.retirement (x0 : Nat) : Shape.Statement (.retirement x0) := by
  intro x h; simp [encodeFields] at h

theorem Shape.watchdogExpiry (x0 : Nat) (x1 : Nat) : Shape.Statement (.watchdogExpiry x0 x1) := by
  intro x h; simp [encodeFields] at h

theorem Shape.streamOpen (x0 : Nat) : Shape.Statement (.streamOpen x0) := by
  intro x h; simp [encodeFields] at h

theorem Shape.streamPush (x0 : Nat) : Shape.Statement (.streamPush x0) := by
  intro x h; simp [encodeFields] at h

theorem Shape.streamClose (x0 : Nat) : Shape.Statement (.streamClose x0) := by
  intro x h; simp [encodeFields] at h

theorem Shape.persistSweep (x0 : Nat) : Shape.Statement (.persistSweep x0) := by
  intro x h; simp [encodeFields] at h

theorem Shape.sliceScrub (x0 : Nat) : Shape.Statement (.sliceScrub x0) := by
  intro x h; simp [encodeFields] at h

theorem Shape.cellScrub (x0 : Nat) : Shape.Statement (.cellScrub x0) := by
  intro x h; simp [encodeFields] at h

theorem Shape.heddleCommandStart (x0 : Nat) : Shape.Statement (.heddleCommandStart x0) := by
  intro x h; simp [encodeFields] at h

theorem Shape.heddleCommandComplete (x0 : Nat) (x1 : Nat) : Shape.Statement (.heddleCommandComplete x0 x1) := by
  intro x h; simp [encodeFields] at h

theorem Shape.wovenPartial (x0 : Nat) (x1 : Nat) : Shape.Statement (.wovenPartial x0 x1) := by
  intro x h; simp [encodeFields] at h

theorem Shape.shuttleCommandRun (x0 : Nat) (x1 : Nat) : Shape.Statement (.shuttleCommandRun x0 x1) := by
  intro x h; simp [encodeFields] at h

theorem Shape.shuttleCommandComplete (x0 : Nat) (x1 : Nat) : Shape.Statement (.shuttleCommandComplete x0 x1) := by
  intro x h; simp [encodeFields] at h

theorem Shape.rayoutSend (x0 : Nat) (x1 : Nat) (x2 : Nat) : Shape.Statement (.rayoutSend x0 x1 x2) := by
  intro x h; simp [encodeFields] at h

theorem Shape.rayinMergeComplete (x0 : Nat) (x1 : Nat) (x2 : Nat) : Shape.Statement (.rayinMergeComplete x0 x1 x2) := by
  intro x h; simp [encodeFields] at h

theorem Shape.traversalComplete (x0 : Nat) : Shape.Statement (.traversalComplete x0) := by
  intro x h; simp [encodeFields] at h

theorem Shape.migpush (x0 : Nat) : Shape.Statement (.migpush x0) := by
  intro x h; simp [encodeFields] at h

theorem Shape.migrationRequest (x0 : Nat) : Shape.Statement (.migrationRequest x0) := by
  intro x h; simp [encodeFields] at h

theorem Shape.migrationCopy (x0 : Nat) : Shape.Statement (.migrationCopy x0) := by
  intro x h; simp [encodeFields] at h

theorem Shape.migrationLost (x0 : Nat) : Shape.Statement (.migrationLost x0) := by
  intro x h; simp [encodeFields] at h

theorem Shape.pinExpiry (x0 : Nat) : Shape.Statement (.pinExpiry x0) := by
  intro x h; simp [encodeFields] at h

theorem Shape.gddrEviction : Shape.Statement .gddrEviction := by
  intro x h; simp [encodeFields] at h

theorem Shape.migfree (x0 : Nat) : Shape.Statement (.migfree x0) := by
  intro x h; simp [encodeFields] at h

theorem Shape.migctlWrite (x0 : Nat) : Shape.Statement (.migctlWrite x0) := by
  intro x h; simp [encodeFields] at h

theorem Shape.migevqWrite (x0 : Nat) : Shape.Statement (.migevqWrite x0) := by
  intro x h; simp [encodeFields] at h

theorem Shape.migevcWrite (x0 : Nat) : Shape.Statement (.migevcWrite x0) := by
  intro x h; simp [encodeFields] at h

theorem Shape.mighbaseWrite (x0 : Nat) : Shape.Statement (.mighbaseWrite x0) := by
  intro x h; simp [encodeFields] at h

theorem Shape.qpush (x0 : Nat) (x1 : Nat) : Shape.Statement (.qpush x0 x1) := by
  intro x h; simp [encodeFields] at h

theorem Shape.admissionStep : Shape.Statement .admissionStep := by
  intro x h; simp [encodeFields] at h

theorem Shape.quantumExpiry (x0 : Nat) : Shape.Statement (.quantumExpiry x0) := by
  intro x h; simp [encodeFields] at h

theorem Shape.antiStarvationBoost (x0 : Nat) : Shape.Statement (.antiStarvationBoost x0) := by
  intro x h; simp [encodeFields] at h

theorem Shape.dobbySample (x0 : Nat) : Shape.Statement (.dobbySample x0) := by
  intro x h; simp [encodeFields] at h

theorem Shape.replicaFree (x0 : Nat) (x1 : Nat) (x2 : Nat) : Shape.Statement (.replicaFree x0 x1 x2) := by
  intro x h; simp [encodeFields] at h

theorem Shape.preemptionDrainComplete (x0 : Nat) : Shape.Statement (.preemptionDrainComplete x0) := by
  intro x h; simp [encodeFields] at h

theorem Shape.restoreComplete (x0 : Nat) : Shape.Statement (.restoreComplete x0) := by
  intro x h; simp [encodeFields] at h

theorem Shape.powerSplit : Shape.Statement .powerSplit := by
  intro x h; simp [encodeFields] at h

theorem Shape.grantEffect (x0 : Nat) : Shape.Statement (.grantEffect x0) := by
  intro x h; simp [encodeFields] at h

theorem Shape.pwrcapWrite (x0 : Nat) : Shape.Statement (.pwrcapWrite x0) := by
  intro x h; simp [encodeFields] at h

theorem Shape.faultRecordWrite (x0 : Nat) : Shape.Statement (.faultRecordWrite x0) := by
  intro x h; simp [encodeFields] at h

theorem Shape.fqactResume (x0 : Nat) (x1 : Nat) : Shape.Statement (.fqactResume x0 x1) := by
  intro x h; simp [encodeFields] at h

theorem Shape.fqactSkip (x0 : Nat) (x1 : Nat) : Shape.Statement (.fqactSkip x0 x1) := by
  intro x h; simp [encodeFields] at h

theorem Shape.fqactTerminate (x0 : Nat) (x1 : Nat) : Shape.Statement (.fqactTerminate x0 x1) := by
  intro x h; simp [encodeFields] at h

theorem Shape.fqconsWrite (x0 : Nat) (x1 : Nat) : Shape.Statement (.fqconsWrite x0 x1) := by
  intro x h; simp [encodeFields] at h

theorem Shape.fqbaseWrite (x0 : Nat) (x1 : Nat) : Shape.Statement (.fqbaseWrite x0 x1) := by
  intro x h; simp [encodeFields] at h

theorem Shape.modnumWrite (x0 : Nat) : Shape.Statement (.modnumWrite x0) := by
  intro x h; simp [encodeFields] at h

theorem Shape.serrcntWrite (x0 : Nat) (x1 : Nat) : Shape.Statement (.serrcntWrite x0 x1) := by
  intro x h; simp [encodeFields] at h

theorem Shape.colpush (x0 : Nat) (x1 : Nat) : Shape.Statement (.colpush x0 x1) := by
  intro x h; simp [encodeFields] at h

theorem Shape.collectiveRun (x0 : Nat) : Shape.Statement (.collectiveRun x0) := by
  intro x h; simp [encodeFields] at h

theorem Shape.collectiveTimeout (x0 : Nat) : Shape.Statement (.collectiveTimeout x0) := by
  intro x h; simp [encodeFields] at h

theorem Shape.ueLaunchPacket (x0 : UePacket) : Shape.Statement (.ueLaunchPacket x0) := by
  intro x h; simp [encodeFields] at h

theorem Shape.managementRequest (x0 : MgmtReq) : Shape.Statement (.managementRequest x0) := by
  intro x h; simp [encodeFields] at h

theorem Shape.moduleReset (x0 : Firmware) : Shape.Statement (.moduleReset x0) := by
  intro x h; simp [encodeFields] at h

theorem Shape.mmioRegisterWrite (x0 : Nat) (x1 : Nat) (x2 : RegWrite) : Shape.Statement (.mmioRegisterWrite x0 x1 x2) := by
  intro x h; simp [encodeFields] at h

end Sys2Proof.Laws
end

