-- ==== Sys2Proof/Laws/Special.lean ====
section
/-! SUPPORT. The enclosures of the special functions hold: those of 2^f, of the binary logarithm of a significand and of the sine in the
first quarter contain the exact result (R204, R274). -/

namespace Sys2Proof.Laws

open Sys2Proof.Machine

/-! Integer square roots. -/

theorem isqrtGo_spec (x : Nat) : ∀ k r, r * r ≤ x → x < (r + 2 ^ k) * (r + 2 ^ k) →
    isqrtGo x k r * isqrtGo x k r ≤ x ∧ x < (isqrtGo x k r + 1) * (isqrtGo x k r + 1)
  | 0, r, h1, h2 => ⟨h1, by simpa [isqrtGo] using h2⟩
  | k + 1, r, h1, h2 => by
      simp only [isqrtGo]
      split
      · rename_i h
        refine isqrtGo_spec x k _ h ?_
        rwa [pow_succ, mul_two, ← add_assoc] at h2
      · rename_i h
        exact isqrtGo_spec x k _ h1 (not_le.mp h)

/-- The integer square root. -/
theorem isqrt_spec (x : Nat) : isqrt x * isqrt x ≤ x ∧ x < (isqrt x + 1) * (isqrt x + 1) := by
  refine isqrtGo_spec x _ 0 (by simp) ?_
  have h : x < 2 ^ (Nat.log2 x + 1) := Nat.lt_log2_self
  refine lt_of_lt_of_le h ?_
  rw [zero_add, ← pow_add]
  exact Nat.pow_le_pow_right (by norm_num) (by omega)

theorem isqrt_le (x : Nat) : (isqrt x : ℝ) ≤ √x := by
  refine Real.le_sqrt_of_sq_le ?_
  have := (isqrt_spec x).1
  rw [sq]; exact_mod_cast this
theorem le_isqrt (x : Nat) : √x ≤ (isqrt x + 1 : ℕ) := by
  refine (Real.sqrt_le_sqrt ?_).trans_eq (Real.sqrt_sq (Nat.cast_nonneg (isqrt x + 1)))
  have := (isqrt_spec x).2.le
  rw [sq]; exact_mod_cast this

/-! The number pi. -/

/-- A bound of the iterated root of Viète's product, as a multiple of 1 / k. -/
def rootsBound (up k : Nat) : Nat → Nat
  | 0 => 0
  | n + 1 => isqrt (k * (2 * k + rootsBound up k n)) + up

theorem sqrtTwo_le (k n : Nat) : Real.sqrtTwoAddSeries 0 n * k ≤ rootsBound 1 k n := by
  induction n with
  | zero => simp [rootsBound]
  | succ n ih =>
    rw [Real.sqrtTwoAddSeries]
    refine le_trans ?_ (le_isqrt _)
    refine Real.le_sqrt_of_sq_le ?_
    rw [mul_pow, Real.sq_sqrt (by have := Real.sqrtTwoAddSeries_zero_nonneg n; linarith)]
    push_cast
    nlinarith [mul_le_mul_of_nonneg_right ih (Nat.cast_nonneg (α := ℝ) k)]

theorem le_sqrtTwo (k n : Nat) : rootsBound 0 k n ≤ Real.sqrtTwoAddSeries 0 n * k := by
  induction n with
  | zero => simp [rootsBound]
  | succ n ih =>
    rw [Real.sqrtTwoAddSeries]
    refine le_trans (isqrt_le _) ?_
    refine Real.sqrt_le_iff.mpr ⟨by positivity, ?_⟩
    rw [mul_pow, Real.sq_sqrt (by have := Real.sqrtTwoAddSeries_zero_nonneg n; linarith)]
    push_cast
    nlinarith [mul_le_mul_of_nonneg_right ih (Nat.cast_nonneg (α := ℝ) k)]

theorem le_root (k u p n : Nat) (hk : 0 < k) (hu : 0 < u) (h : p ^ 2 * k + rootsBound 1 k n * u ^ 2 ≤ 2 * k * u ^ 2) :
    (p : ℝ) / u ≤ √(2 - Real.sqrtTwoAddSeries 0 n) := by
  have h' : (p : ℝ) ^ 2 * k + rootsBound 1 k n * (u : ℝ) ^ 2 ≤ 2 * k * (u : ℝ) ^ 2 := by exact_mod_cast h
  have hk' : (0 : ℝ) < k := by exact_mod_cast hk
  have hu' : (0 : ℝ) < u := by exact_mod_cast hu
  refine Real.le_sqrt_of_sq_le ?_
  rw [div_pow, div_le_iff₀ (by positivity)]
  refine le_of_mul_le_mul_right ?_ hk'
  nlinarith [mul_le_mul_of_nonneg_right (sqrtTwo_le k n) (sq_nonneg (u : ℝ))]

theorem root_le (k u p n : Nat) (hk : 0 < k) (hu : 0 < u) (h : 2 * k * u ^ 2 ≤ p ^ 2 * k + rootsBound 0 k n * u ^ 2) :
    √(2 - Real.sqrtTwoAddSeries 0 n) ≤ (p : ℝ) / u := by
  have h' : 2 * k * (u : ℝ) ^ 2 ≤ (p : ℝ) ^ 2 * k + rootsBound 0 k n * (u : ℝ) ^ 2 := by exact_mod_cast h
  have hk' : (0 : ℝ) < k := by exact_mod_cast hk
  have hu' : (0 : ℝ) < u := by exact_mod_cast hu
  refine Real.sqrt_le_iff.mpr ⟨by positivity, ?_⟩
  rw [div_pow, le_div_iff₀ (by positivity)]
  refine le_of_mul_le_mul_right ?_ hk'
  nlinarith [mul_le_mul_of_nonneg_right (le_sqrtTwo k n) (sq_nonneg (u : ℝ))]

/-- The scale of pi in `sinBounds`. -/
theorem piScaled_le : (piScaled : ℝ) ≤ Real.pi * 2 ^ 100 := by
  have h := le_root (2 ^ 240) (2 ^ 153) piScaled 52 (by positivity) (by positivity) (by decide +kernel)
  rw [Nat.cast_pow, Nat.cast_ofNat, div_le_iff₀ (by positivity)] at h
  refine h.trans ?_
  have := mul_le_mul_of_nonneg_right (Real.pi_gt_sqrtTwoAddSeries 52).le (show (0 : ℝ) ≤ 2 ^ 100 by positivity)
  refine le_trans (le_of_eq ?_) this
  ring

theorem pi_le_piScaled : Real.pi * 2 ^ 100 ≤ piScaled + 1 := by
  have h := root_le (2 ^ 240) (2 ^ 157) (2 ^ 4 * piScaled + 15) 52 (by positivity) (by positivity) (by decide +kernel)
  rw [Nat.cast_pow, Nat.cast_ofNat, le_div_iff₀ (by positivity)] at h
  have := mul_le_mul_of_nonneg_right (Real.pi_lt_sqrtTwoAddSeries 52).le (show (0 : ℝ) ≤ 2 ^ 100 by positivity)
  refine this.trans ?_
  push_cast at h
  have e : (2 : ℝ) ^ (52 + 1) * √(2 - Real.sqrtTwoAddSeries 0 52) * 2 ^ 4 * 2 ^ 100 = √(2 - Real.sqrtTwoAddSeries 0 52) * 2 ^ 157 := by ring
  linarith


/-! Sines. -/

/-- The Taylor sums of sine and cosine with n terms. -/
noncomputable def sinSum (n : Nat) (x : ℝ) : ℝ := ∑ j ∈ Finset.range n, (-1) ^ j * x ^ (2 * j + 1) / (2 * j + 1).factorial
noncomputable def cosSum (n : Nat) (x : ℝ) : ℝ := ∑ j ∈ Finset.range n, (-1) ^ j * x ^ (2 * j) / (2 * j).factorial

theorem hasDerivAt_sinSum (n : Nat) (x : ℝ) : HasDerivAt (sinSum n) (cosSum n x) x := by
  unfold sinSum cosSum
  refine HasDerivAt.fun_sum fun j _ => ?_
  have h := ((hasDerivAt_pow (2 * j + 1) x).const_mul ((-1 : ℝ) ^ j)).div_const ((2 * j + 1).factorial : ℝ)
  refine h.congr_deriv ?_
  rw [Nat.factorial_succ]
  push_cast
  have : ((2 * j).factorial : ℝ) ≠ 0 := by positivity
  have : (2 * (j : ℝ) + 1) ≠ 0 := by positivity
  field_simp

theorem hasDerivAt_cosSum (n : Nat) (x : ℝ) : HasDerivAt (cosSum (n + 1)) (-sinSum n x) x := by
  have e : cosSum (n + 1) = fun x : ℝ => (∑ j ∈ Finset.range n, (-1) ^ (j + 1) * x ^ (2 * (j + 1)) / (2 * (j + 1)).factorial) + 1 := by
    funext y; simp [cosSum, Finset.sum_range_succ']
  rw [e, sinSum, ← Finset.sum_neg_distrib]
  refine HasDerivAt.add_const 1 (HasDerivAt.fun_sum fun j _ => ?_)
  have h := ((hasDerivAt_pow (2 * (j + 1)) x).const_mul ((-1 : ℝ) ^ (j + 1))).div_const ((2 * (j + 1)).factorial : ℝ)
  refine h.congr_deriv ?_
  rw [show 2 * (j + 1) = 2 * j + 1 + 1 by ring, Nat.factorial_succ]
  push_cast
  have : ((2 * j + 1).factorial : ℝ) ≠ 0 := by positivity
  have : (2 * (j : ℝ) + 1 + 1) ≠ 0 := by positivity
  field_simp
  ring

/-- A function that is 0 at 0 and has a derivative that is nowhere negative above 0 is nowhere negative above 0. -/
theorem nonneg_of_deriv {f g : ℝ → ℝ} (hf : ∀ x, HasDerivAt f (g x) x) (h0 : f 0 = 0) (hg : ∀ x, 0 ≤ x → 0 ≤ g x) :
    ∀ x, 0 ≤ x → 0 ≤ f x := by
  have hm : MonotoneOn f (Set.Ici 0) := by
    refine monotoneOn_of_deriv_nonneg (convex_Ici 0) (fun x _ => (hf x).continuousAt.continuousWithinAt)
      (fun x _ => (hf x).differentiableAt.differentiableWithinAt) fun x hx => ?_
    rw [(hf x).deriv]
    exact hg x (interior_subset hx)
  intro x hx
  rw [← h0]
  exact hm (Set.mem_Ici.mpr le_rfl) hx hx

/-- The Taylor sums lie alternately above and below. -/
theorem taylor_sign (n : Nat) : (∀ x : ℝ, 0 ≤ x → 0 ≤ (-1) ^ n * (cosSum (n + 1) x - Real.cos x)) ∧
    (∀ x : ℝ, 0 ≤ x → 0 ≤ (-1) ^ n * (sinSum (n + 1) x - Real.sin x)) := by
  have hs : ∀ n, (∀ x : ℝ, 0 ≤ x → 0 ≤ (-1) ^ n * (cosSum (n + 1) x - Real.cos x)) →
      ∀ x : ℝ, 0 ≤ x → 0 ≤ (-1) ^ n * (sinSum (n + 1) x - Real.sin x) := fun n h =>
    nonneg_of_deriv (fun x => (((hasDerivAt_sinSum (n + 1) x).sub (Real.hasDerivAt_sin x)).const_mul ((-1 : ℝ) ^ n)))
      (by simp [sinSum]) h
  have hc : ∀ n, (∀ x : ℝ, 0 ≤ x → 0 ≤ (-1) ^ n * (sinSum (n + 1) x - Real.sin x)) →
      ∀ x : ℝ, 0 ≤ x → 0 ≤ (-1) ^ (n + 1) * (cosSum (n + 1 + 1) x - Real.cos x) := fun n h =>
    nonneg_of_deriv (fun x => ((((hasDerivAt_cosSum (n + 1) x).sub (Real.hasDerivAt_cos x)).const_mul ((-1 : ℝ) ^ (n + 1))).congr_deriv
      (show _ = (-1) ^ n * (sinSum (n + 1) x - Real.sin x) by ring)))
      (by simp [cosSum, Finset.sum_range_succ']) h
  induction n with
  | zero =>
    have h0 : ∀ x : ℝ, 0 ≤ x → 0 ≤ (-1) ^ 0 * (cosSum (0 + 1) x - Real.cos x) := fun x _ => by
      simp [cosSum, Real.cos_le_one]
    exact ⟨h0, hs 0 h0⟩
  | succ n ih => exact ⟨hc n ih.2, hs _ (hc n ih.2)⟩

theorem sinSum_le (x : ℝ) (h : 0 ≤ x) : sinSum 12 x ≤ Real.sin x := by
  have := (taylor_sign 11).2 x h
  norm_num at this; linarith
theorem le_sinSum (n : Nat) (x : ℝ) (h : 0 ≤ x) : Real.sin x ≤ sinSum (2 * n + 1) x := by
  have := (taylor_sign (2 * n)).2 x h
  simp at this; linarith

/-- The upper sum stays above the greatest value of the sine a little beyond its place. -/
theorem one_le_sinSum (x : ℝ) (h : Real.pi / 2 ≤ x) (h' : x ≤ Real.pi / 2 + 1 / 2 ^ 90) : 1 ≤ sinSum 13 x := by
  have hp := Real.pi_gt_three
  have hp' := Real.pi_lt_four
  have hx : 1.5 ≤ x := by linarith
  have hx2 : x ≤ 2.5 := by norm_num at h'; linarith
  have h15 := le_sinSum 7 x (by linarith)
  have hstep : sinSum (2 * 7 + 1) x = sinSum 13 x - x ^ 27 / (27).factorial + x ^ 29 / (29).factorial := by
    simp only [sinSum, show 2 * 7 + 1 = 13 + 1 + 1 by norm_num, Finset.sum_range_succ]
    norm_num
    ring
  have hs : 1 - (x - Real.pi / 2) ^ 2 / 2 ≤ Real.sin x := by
    have := Real.one_sub_sq_div_two_le_cos (x := x - Real.pi / 2)
    rwa [Real.cos_sub_pi_div_two] at this
  have hd : (x - Real.pi / 2) ^ 2 ≤ (1 / 2 ^ 90) ^ 2 := by
    apply pow_le_pow_left₀ (by linarith); linarith
  have hpow : x ^ 29 = x ^ 27 * x ^ 2 := by ring
  have h27 : (1.5 : ℝ) ^ 27 ≤ x ^ 27 := pow_le_pow_left₀ (by norm_num) hx 27
  have hx4 : x ^ 2 ≤ 6.25 := by nlinarith
  have hf : ((29).factorial : ℝ) = (27).factorial * 812 := by norm_num [Nat.factorial]
  have hf27 : ((27).factorial : ℝ) = 10888869450418352160768000000 := by norm_num [Nat.factorial]
  have key : x ^ 29 / (29).factorial ≤ x ^ 27 / (27).factorial * (1 / 2) := by
    rw [hpow, hf]
    have : x ^ 27 * x ^ 2 / ((27).factorial * 812) = x ^ 27 / (27).factorial * (x ^ 2 / 812) := by
      field_simp
    rw [this]
    exact mul_le_mul_of_nonneg_left (by linarith) (by positivity)
  have low : (1 / 2 ^ 90 : ℝ) ^ 2 / 2 ≤ x ^ 27 / (27).factorial * (1 / 2) := by
    rw [hf27]
    have : (1.5 : ℝ) ^ 27 / 10888869450418352160768000000 * (1 / 2) ≤ x ^ 27 / 10888869450418352160768000000 * (1 / 2) := by gcongr
    refine le_trans ?_ this
    norm_num
  linarith

theorem sinTerm (z j : Nat) (h : j ≤ 12) :
    ((z ^ (2 * j + 1) * 2 ^ (100 * (24 - 2 * j)) * (Nat.factorial 25 / Nat.factorial (2 * j + 1)) : Nat) : ℝ) =
      sinDen * (((z : ℝ) / 2 ^ 100) ^ (2 * j + 1) / (2 * j + 1).factorial) := by
  have hd : (2 * j + 1).factorial ∣ (25).factorial := Nat.factorial_dvd_factorial (by omega)
  have hf : (((2 * j + 1).factorial : ℕ) : ℝ) ≠ 0 := by positivity
  have he : (2 : ℝ) ^ 2500 = 2 ^ (100 * (24 - 2 * j)) * (2 ^ 100) ^ (2 * j + 1) := by
    rw [← pow_mul, ← pow_add]; congr 1; omega
  have h2 : ((2 : ℝ) ^ 100) ^ (2 * j + 1) ≠ 0 := by positivity
  rw [sinDen, Nat.cast_mul, Nat.cast_mul, Nat.cast_div hd hf, Nat.cast_mul, Nat.cast_pow, Nat.cast_pow, Nat.cast_pow, Nat.cast_ofNat,
    he, div_pow]
  field_simp

theorem sinTaylor_eq (z k : Nat) (h : k ≤ 12) : ((sinTaylor z k : ℤ) : ℝ) = sinDen * sinSum (k + 1) ((z : ℝ) / 2 ^ 100) := by
  have go : ∀ (n : Nat), n ≤ 13 → ((((List.range n).foldl (fun acc j =>
      let t : Int := (z ^ (2 * j + 1) * 2 ^ (100 * (24 - 2 * j)) * (Nat.factorial 25 / Nat.factorial (2 * j + 1)) : Nat)
      if j % 2 = 0 then acc + t else acc - t) 0 : ℤ)) : ℝ) = sinDen * sinSum n ((z : ℝ) / 2 ^ 100) := by
    intro n
    induction n with
    | zero =>
      intro _
      rw [show sinSum 0 ((z : ℝ) / 2 ^ 100) = 0 from rfl, mul_zero]
      exact Int.cast_zero
    | succ n ih =>
      intro hn
      rw [List.range_succ, List.foldl_append, List.foldl_cons, List.foldl_nil]
      have ht := sinTerm z n (by omega)
      have hi := ih (by omega)
      simp only [sinSum, Finset.sum_range_succ] at hi ⊢
      rcases Nat.even_or_odd n with he | ho
      · rw [if_pos (Nat.even_iff.mp he), Int.cast_add, hi, Int.cast_natCast, ht, he.neg_one_pow]
        ring
      · rw [if_neg (by have := Nat.odd_iff.mp ho; omega), Int.cast_sub, hi, Int.cast_natCast, ht, ho.neg_one_pow]
        ring
  exact go (k + 1) (by omega)

/-- The enclosure of a sine in the first quarter (R204). -/
theorem sinBounds_spec (num den : Nat) (hd : 0 < den) (hh : 2 * num ≤ den) :
    ((sinBounds num den).1 : ℝ) ≤ sinDen * Real.sin (Real.pi * (num / den)) ∧
      sinDen * Real.sin (Real.pi * (num / den)) ≤ (sinBounds num den).2 := by
  have hd' : (0 : ℝ) < den := by exact_mod_cast hd
  have ht0 : (0 : ℝ) ≤ num / den := by positivity
  have ht : (num : ℝ) / den ≤ 1 / 2 := by
    rw [div_le_iff₀ hd']
    have : (2 : ℝ) * num ≤ den := by exact_mod_cast hh
    linarith
  have hp := Real.pi_pos
  have hD : (0 : ℝ) < 2 ^ 100 := by positivity
  have hy : Real.pi * (num / den) ≤ Real.pi / 2 := by nlinarith
  have hy0 : 0 ≤ Real.pi * ((num : ℝ) / den) := by positivity
  have hs : (0 : ℝ) ≤ sinDen := Nat.cast_nonneg _
  constructor
  · have hz : ((piScaled * num / den : ℕ) : ℝ) / 2 ^ 100 ≤ Real.pi * (num / den) := by
      rw [div_le_iff₀ hD]
      refine le_trans Nat.cast_div_le ?_
      rw [Nat.cast_mul, div_le_iff₀ hd']
      have e : Real.pi * (num / den) * 2 ^ 100 * den = (Real.pi * 2 ^ 100) * num := by field_simp
      rw [e]
      exact mul_le_mul_of_nonneg_right piScaled_le (Nat.cast_nonneg _)
    have hz0 : (0 : ℝ) ≤ ((piScaled * num / den : ℕ) : ℝ) / 2 ^ 100 := div_nonneg (Nat.cast_nonneg _) hD.le
    have h1 := (sinSum_le _ hz0).trans (Real.sin_le_sin_of_le_of_le_pi_div_two (by linarith) hy hz)
    show ((sinTaylor (piScaled * num / den) 11 : ℤ) : ℝ) ≤ _
    rw [sinTaylor_eq _ _ (by norm_num)]
    exact mul_le_mul_of_nonneg_left h1 hs
  · set z := (piScaled + 1) * num / den + 1 with hz
    have hq : ((piScaled + 1 : ℕ) * num : ℝ) / den ≤ z := by
      rw [div_le_iff₀ hd']
      have : (piScaled + 1) * num < z * den := by
        rw [hz, ← Nat.div_lt_iff_lt_mul hd]; omega
      exact_mod_cast this.le
    have hlo : Real.pi * (num / den) ≤ (z : ℝ) / 2 ^ 100 := by
      rw [le_div_iff₀ hD]
      refine le_trans ?_ hq
      rw [le_div_iff₀ hd']
      have e : Real.pi * (num / den) * 2 ^ 100 * den = (Real.pi * 2 ^ 100) * num := by field_simp
      rw [e]
      refine mul_le_mul_of_nonneg_right ?_ (Nat.cast_nonneg _)
      exact_mod_cast pi_le_piScaled
    have hz0 : (0 : ℝ) ≤ (z : ℝ) / 2 ^ 100 := div_nonneg (Nat.cast_nonneg _) hD.le
    show _ ≤ ((sinTaylor z 12 : ℤ) : ℝ)
    rw [sinTaylor_eq _ _ (by norm_num)]
    refine mul_le_mul_of_nonneg_left ?_ hs
    by_cases hc : (z : ℝ) / 2 ^ 100 ≤ Real.pi / 2
    · exact (Real.sin_le_sin_of_le_of_le_pi_div_two (by linarith) hc hlo).trans (le_sinSum 6 _ hz0)
    · refine (Real.sin_le_one _).trans (one_le_sinSum _ (not_le.mp hc).le ?_)
      have hzu : (z : ℝ) ≤ (piScaled + 1 : ℕ) * (num / den) + 1 := by
        rw [hz, Nat.cast_add, Nat.cast_one]
        have := @Nat.cast_div_le ℝ _ _ _ ((piScaled + 1) * num) den
        rw [Nat.cast_mul, mul_div_assoc] at this
        linarith
      have hle := piScaled_le
      rw [div_le_iff₀ hD]
      have : ((piScaled + 1 : ℕ) : ℝ) * (num / den) ≤ (Real.pi * 2 ^ 100 + 1) * (1 / 2) := by
        refine mul_le_mul ?_ ht ht0 (by positivity)
        push_cast; linarith
      have e : (1 : ℝ) / 2 ^ 90 * 2 ^ 100 = 1024 := by norm_num
      nlinarith

/-! Powers of two. -/

/-- The number with given bits after the point. -/
noncomputable def fracBits : List Bool → ℝ
  | [] => 0
  | b :: bs => ((if b then 1 else 0) + fracBits bs) / 2

theorem fracBits_range (b n : Nat) : fracBits ((List.range n).map fun i => Sys2Proof.Machine.bit b (n - 1 - i)) = ((b % 2 ^ n : ℕ) : ℝ) / 2 ^ n := by
  induction n with
  | zero => simp [fracBits, Nat.mod_one]
  | succ n ih =>
    rw [List.range_succ_eq_map, List.map_cons, List.map_map, fracBits]
    have e : ((fun i => Sys2Proof.Machine.bit b (n + 1 - 1 - i)) ∘ Nat.succ) = fun i => Sys2Proof.Machine.bit b (n - 1 - i) := by
      funext i; simp only [Function.comp]; congr 1; omega
    rw [e, ih, Nat.mod_pow_succ]
    have hb : Sys2Proof.Machine.bit b (n + 1 - 1 - 0) = decide (b / 2 ^ n % 2 = 1) := by rw [Bool.eq_iff_iff]; simp [Sys2Proof.Machine.bit]
    rw [hb]
    have h2 : b / 2 ^ n % 2 = 0 ∨ b / 2 ^ n % 2 = 1 := by omega
    push_cast
    rcases h2 with h | h <;> rw [h] <;> simp <;> field_simp <;> ring

/-- One step of the product keeps an enclosure. -/
theorem mul_floor (a b : Nat) (x y : ℝ) (hx0 : 0 ≤ x) (hx : (a : ℝ) ≤ encDen * x) (hy : (b : ℝ) ≤ encDen * y) :
    ((a * b / encDen : ℕ) : ℝ) ≤ encDen * (x * y) := by
  have hD : (0 : ℝ) < encDen := by unfold encDen; positivity
  refine le_trans Nat.cast_div_le ?_
  rw [div_le_iff₀ hD, Nat.cast_mul]
  have := mul_le_mul hx hy (Nat.cast_nonneg b) (by positivity)
  linarith
theorem mul_ceil (a b : Nat) (x y : ℝ) (hy0 : 0 ≤ y) (hx : encDen * x ≤ (a : ℝ)) (hy : encDen * y ≤ (b : ℝ)) :
    encDen * (x * y) ≤ ((a * b / encDen + 1 : ℕ) : ℝ) := by
  have hD : (0 : ℝ) < encDen := by unfold encDen; positivity
  have hD' : 0 < encDen := by unfold encDen; positivity
  have h1 : ((a * b : ℕ) : ℝ) ≤ (a * b / encDen + 1 : ℕ) * encDen := by
    have := (Nat.div_lt_iff_lt_mul hD').mp (Nat.lt_succ_self (a * b / encDen))
    exact_mod_cast this.le
  have h2 := mul_le_mul hx hy (by positivity) (Nat.cast_nonneg a)
  rw [Nat.cast_mul] at h1
  have h3 : encDen * (encDen * (x * y)) ≤ encDen * ((a * b / encDen + 1 : ℕ) : ℝ) := by nlinarith
  exact le_of_mul_le_mul_left h3 hD

theorem expFold (bs : List Bool) : ∀ (lo hi a b : Nat) (y z : ℝ), 0 ≤ y → 0 ≤ z →
    (lo : ℝ) ≤ encDen * y → encDen * y ≤ hi → (a : ℝ) ≤ encDen * z → encDen * z ≤ b →
    (((((rootsOfTwo bs.length (lo, hi)).zip bs).foldl expStep (a, b)).1 : ℕ) : ℝ) ≤ encDen * (z * y ^ fracBits bs) ∧
      encDen * (z * y ^ fracBits bs) ≤ ((((rootsOfTwo bs.length (lo, hi)).zip bs).foldl expStep (a, b)).2 : ℕ) := by
  induction bs with
  | nil => intro lo hi a b y z _ _ _ _ h1 h2; simpa [fracBits, rootsOfTwo] using ⟨h1, h2⟩
  | cons c bs ih =>
    intro lo hi a b y z hy hz hlo hhi ha hb
    have hD : (0 : ℝ) < encDen := by unfold encDen; positivity
    have r1 : ((isqrt (lo * encDen) : ℕ) : ℝ) ≤ encDen * √y := by
      refine (isqrt_le _).trans (Real.sqrt_le_iff.mpr ⟨by positivity, ?_⟩)
      rw [mul_pow, Real.sq_sqrt hy, Nat.cast_mul]
      nlinarith
    have r2 : encDen * √y ≤ ((isqrt (hi * encDen) + 1 : ℕ) : ℝ) := by
      refine le_trans (Real.le_sqrt_of_sq_le ?_) (le_isqrt _)
      rw [mul_pow, Real.sq_sqrt hy, Nat.cast_mul]
      nlinarith
    have hpow : y ^ fracBits (c :: bs) = (if c then √y else 1) * √y ^ fracBits bs := by
      rw [fracBits, Real.sqrt_eq_rpow, ← Real.rpow_mul hy]
      cases c
      · simp; congr 1; ring
      · have : (1 + fracBits bs) / 2 = 1 / 2 + 1 / 2 * fracBits bs := by ring
        have nn : ∀ l, 0 ≤ fracBits l := by
          intro l; induction l with
          | nil => exact le_rfl
          | cons d l h => rw [fracBits]; split <;> linarith
        simp only [if_true]
        rw [this, Real.rpow_add_of_nonneg hy (by norm_num) (by have := nn bs; positivity)]
    rw [hpow, ← mul_assoc z]
    rw [List.length_cons, rootsOfTwo, List.zip_cons_cons, List.foldl_cons]
    cases c
    · simp only [expStep, Bool.false_eq_true, if_false, mul_one]
      exact ih _ _ a b (√y) z (Real.sqrt_nonneg y) hz r1 r2 ha hb
    · simp only [expStep, if_true]
      exact ih _ _ _ _ (√y) (z * √y) (Real.sqrt_nonneg y) (by positivity) r1 r2 (mul_floor _ _ _ _ hz ha r1)
        (mul_ceil _ _ _ _ (Real.sqrt_nonneg y) hb r2)

theorem pow2_cast (k : ℤ) : ((pow2 k).1 : ℝ) / (pow2 k).2 = (2 : ℝ) ^ k := by
  unfold pow2
  split
  · rename_i h
    obtain ⟨n, rfl⟩ := Int.eq_ofNat_of_zero_le h
    simp
  · rename_i h
    obtain ⟨n, hn⟩ : ∃ n : ℕ, k = -n := ⟨(-k).toNat, by omega⟩
    subst hn
    simp

/-- The enclosure of 2^f for f = m * 2^e below 1 (R204). -/
theorem exp2Bounds_spec (m : Nat) (e : ℤ) (h : (m : ℝ) * 2 ^ e < 1) :
    ((exp2Bounds m e).1 : ℝ) ≤ encDen * (2 : ℝ) ^ ((m : ℝ) * 2 ^ e) ∧
      encDen * (2 : ℝ) ^ ((m : ℝ) * 2 ^ e) ≤ (exp2Bounds m e).2 := by
  obtain ⟨p, q, hpq⟩ : ∃ p q, pow2 (e + 96) = (p, q) := ⟨_, _, rfl⟩
  have hq : 0 < q := by
    have : (pow2 (e + 96)).2 = q := by rw [hpq]
    rw [← this]; unfold pow2; split <;> simp
  have hq' : (0 : ℝ) < q := by exact_mod_cast hq
  have hpow : (p : ℝ) / q = 2 ^ e * 2 ^ 96 := by
    have := pow2_cast (e + 96)
    rw [hpq] at this
    rw [this, zpow_add₀ (by norm_num)]
    norm_cast
  set f := (m : ℝ) * 2 ^ e with hf
  set b := m * p / q with hb
  have hfe : f * 2 ^ 96 = (m * p : ℕ) / q := by rw [hf, Nat.cast_mul, mul_assoc, ← hpow]; ring
  have hb1 : (b : ℝ) ≤ f * 2 ^ 96 := by rw [hfe]; exact Nat.cast_div_le
  have hb2 : f * 2 ^ 96 ≤ b + 1 := by
    rw [hfe, div_le_iff₀ hq']
    have := (Nat.div_lt_iff_lt_mul hq).mp (Nat.lt_succ_self (m * p / q))
    exact_mod_cast this.le
  have hlt : b < 2 ^ 96 := by
    have : (b : ℝ) < 2 ^ 96 := lt_of_le_of_lt hb1 (by nlinarith [h])
    exact_mod_cast this
  have hD : (0 : ℝ) < encDen := by unfold encDen; positivity
  have key := expFold ((List.range 96).map fun i => Sys2Proof.Machine.bit b (95 - i)) (2 * encDen) (2 * encDen) encDen encDen 2 1 (by norm_num) (by norm_num)
    (by push_cast; linarith) (by push_cast; linarith) (by simp) (by simp)
  have hfr : fracBits ((List.range 96).map fun i => Sys2Proof.Machine.bit b (95 - i)) = b / 2 ^ 96 := by
    have := fracBits_range b 96
    rwa [Nat.mod_eq_of_lt hlt] at this
  rw [hfr, List.length_map, List.length_range, one_mul] at key
  rw [show ((rootsOfTwo 96 (2 * encDen, 2 * encDen)).zip ((List.range 96).map fun i => Sys2Proof.Machine.bit b (95 - i))).foldl expStep
    (encDen, encDen) = exp2Pair b by rw [exp2Pair]] at key
  obtain ⟨lo, hi, hlh⟩ : ∃ lo hi, exp2Pair b = (lo, hi) := ⟨_, _, rfl⟩
  rw [hlh] at key
  have hdef : exp2Bounds m e = (lo, min (hi + hi / 2 ^ 96 + 1) (2 * encDen)) := by
    rw [exp2Bounds, hpq, ← hb, hlh]
  rw [hdef]
  have hbf : (b : ℝ) / 2 ^ 96 ≤ f := by rw [div_le_iff₀ (by positivity)]; exact hb1
  constructor
  · refine key.1.trans (mul_le_mul_of_nonneg_left ?_ hD.le)
    exact Real.rpow_le_rpow_of_exponent_le (by norm_num) hbf
  · show _ ≤ ((min (hi + hi / 2 ^ 96 + 1) (2 * encDen) : ℕ) : ℝ)
    rw [Nat.cast_min]
    refine le_min ?_ ?_
    · have hff : f ≤ b / 2 ^ 96 + 1 / 2 ^ 96 := by
        rw [← add_div, le_div_iff₀ (by positivity)]; exact hb2
      have h1 : (2 : ℝ) ^ f ≤ 2 ^ ((b : ℝ) / 2 ^ 96) * (1 + 1 / 2 ^ 96) := by
        refine (Real.rpow_le_rpow_of_exponent_le (by norm_num) hff).trans ?_
        rw [Real.rpow_add (by norm_num)]
        refine mul_le_mul_of_nonneg_left ?_ (by positivity)
        have := rpow_one_add_le_one_add_mul_self (s := 1) (p := 1 / 2 ^ 96) (by linarith) (by positivity)
          (div_le_one_of_le₀ (one_le_pow₀ one_le_two) (by positivity))
        rwa [one_add_one_eq_two, mul_one] at this
      have h2 : ((hi : ℝ)) / 2 ^ 96 ≤ (hi / 2 ^ 96 : ℕ) + 1 := by
        rw [div_le_iff₀ (by positivity)]
        have := (Nat.div_lt_iff_lt_mul (show 0 < 2 ^ 96 by positivity)).mp (Nat.lt_succ_self (hi / 2 ^ 96))
        exact_mod_cast this.le
      have h3 : encDen * (2 : ℝ) ^ f ≤ hi * (1 + 1 / 2 ^ 96) := by
        refine (mul_le_mul_of_nonneg_left h1 hD.le).trans ?_
        rw [← mul_assoc]
        exact mul_le_mul_of_nonneg_right key.2 (by positivity)
      have h4 : (hi : ℝ) * (1 + 1 / 2 ^ 96) = hi + hi / 2 ^ 96 := by ring
      rw [Nat.cast_add, Nat.cast_add, Nat.cast_one]
      linarith
    · rw [Nat.cast_mul, Nat.cast_ofNat, mul_comm (2 : ℝ)]
      refine mul_le_mul_of_nonneg_left ?_ hD.le
      have := Real.rpow_le_rpow_of_exponent_le (x := 2) (by norm_num) h.le
      rwa [Real.rpow_one] at this

/-! Binary logarithms. -/

/-- The binary logarithm of a scaled significand. -/
noncomputable def lg (k x : Nat) : ℝ := Real.logb 2 ((x : ℝ) / 2 ^ k)

theorem lg_nonneg {k x : Nat} (h : 2 ^ k ≤ x) : 0 ≤ lg k x := by
  refine Real.logb_nonneg (by norm_num) ?_
  rw [le_div_iff₀ (by positivity), one_mul]
  exact_mod_cast h
theorem lg_le_one {k x : Nat} (h : 2 ^ k ≤ x) (h' : x < 2 ^ (k + 1)) : lg k x ≤ 1 := by
  have hx : 0 < x := lt_of_lt_of_le (by positivity) h
  refine (Real.logb_le_iff_le_rpow (by norm_num) (by positivity)).mpr ?_
  rw [Real.rpow_one, div_le_iff₀ (by positivity)]
  have : x ≤ 2 * 2 ^ k := by rw [← pow_succ']; exact h'.le
  exact_mod_cast this

/-- What rounding a scaled number down costs its logarithm. -/
theorem lg_floor {k y : Nat} {z : ℝ} (hy : 2 ^ k ≤ y) (h1 : (y : ℝ) ≤ z) (h2 : z < y + 1) :
    lg k y ≤ Real.logb 2 (z / 2 ^ k) ∧ Real.logb 2 (z / 2 ^ k) ≤ lg k y + 2 / 2 ^ k := by
  have hy0 : (0 : ℝ) < y := by exact_mod_cast lt_of_lt_of_le (by positivity) hy
  have hz0 : 0 < z := by linarith
  have hk : (0 : ℝ) < 2 ^ k := by positivity
  refine ⟨Real.logb_le_logb_of_le (by norm_num) (by positivity) (by gcongr), ?_⟩
  have hyk : (2 : ℝ) ^ k ≤ y := by exact_mod_cast hy
  have hr : z / 2 ^ k ≤ (y / 2 ^ k) * (1 + 1 / 2 ^ k) := by
    rw [div_mul_eq_mul_div]
    refine div_le_div_of_nonneg_right ?_ hk.le
    have : 1 ≤ (y : ℝ) * (1 / 2 ^ k) := by rw [mul_one_div, le_div_iff₀ hk]; linarith
    nlinarith
  refine (Real.logb_le_logb_of_le (by norm_num) (by positivity) hr).trans ?_
  rw [Real.logb_mul (by positivity) (by positivity)]
  refine add_le_add le_rfl ?_
  have hl : Real.log (1 + 1 / 2 ^ k) ≤ 1 / 2 ^ k := by
    have := Real.log_le_sub_one_of_pos (show (0 : ℝ) < 1 + 1 / 2 ^ k by positivity)
    linarith
  rw [Real.logb, div_le_iff₀ (Real.log_pos (by norm_num))]
  have h2 := Real.log_two_gt_d9
  refine hl.trans ?_
  have : (1 : ℝ) / 2 ^ k * 1 ≤ 1 / 2 ^ k * (2 * Real.log 2) := mul_le_mul_of_nonneg_left (by linarith) (by positivity)
  calc (1 : ℝ) / 2 ^ k = 1 / 2 ^ k * 1 := by ring
    _ ≤ 1 / 2 ^ k * (2 * Real.log 2) := this
    _ = 2 / 2 ^ k * Real.log 2 := by ring

theorem log2Go_spec (n : Nat) : ∀ x acc, 2 ^ 400 ≤ x → x < 2 ^ 401 →
    (log2Go n x acc : ℝ) ≤ acc * 2 ^ n + 2 ^ n * lg 400 x ∧
      acc * 2 ^ n + 2 ^ n * lg 400 x ≤ log2Go n x acc + 1 + (2 ^ n - 1) * (4 / 2 ^ 400) := by
  induction n with
  | zero =>
    intro x acc h h'
    have := lg_nonneg h
    have := lg_le_one h h'
    rw [log2Go, pow_zero]
    constructor <;> linarith
  | succ n ih =>
    intro x acc h h'
    have hx0 : (0 : ℝ) < x := by exact_mod_cast lt_of_lt_of_le (by positivity) h
    have hk : (0 : ℝ) < 2 ^ 400 := by positivity
    have hK : 0 < 2 ^ 400 := by positivity
    set y := x * x / 2 ^ 400 with hy
    have hy1 : (y : ℝ) ≤ x * x / 2 ^ 400 := by
      have := @Nat.cast_div_le ℝ _ _ _ (x * x) (2 ^ 400)
      rwa [Nat.cast_mul, Nat.cast_pow, Nat.cast_ofNat] at this
    have hy2 : (x : ℝ) * x / 2 ^ 400 < y + 1 := by
      rw [div_lt_iff₀ hk]
      have := (Nat.div_lt_iff_lt_mul hK).mp (Nat.lt_succ_self (x * x / 2 ^ 400))
      exact_mod_cast this
    have hy400 : 2 ^ 400 ≤ y := by
      rw [hy, Nat.le_div_iff_mul_le hK]
      exact Nat.mul_le_mul h h
    have hsq : Real.logb 2 (x * x / 2 ^ 400 / 2 ^ 400) = 2 * lg 400 x := by
      rw [lg, show (x : ℝ) * x / 2 ^ 400 / 2 ^ 400 = (x / 2 ^ 400) ^ 2 by ring, Real.logb_pow]
      norm_num
    have hf := lg_floor hy400 hy1 hy2
    rw [hsq] at hf
    have hpow : (2 : ℝ) ^ (n + 1) = 2 * 2 ^ n := by ring
    have hn : (0 : ℝ) < 2 ^ n := by positivity
    have e4 : (4 : ℝ) / 2 ^ 400 = 2 / 2 ^ 400 + 2 / 2 ^ 400 := by ring
    rw [log2Go]
    split
    · rename_i hge
      have hy402 : y < 2 ^ 402 := by
        rw [hy, Nat.div_lt_iff_lt_mul hK]
        calc x * x < 2 ^ 401 * 2 ^ 401 := Nat.mul_lt_mul'' h' h'
          _ = 2 ^ 402 * 2 ^ 400 := by rw [← pow_add, ← pow_add]
      have hh1 : 2 ^ 400 ≤ y / 2 := by rw [Nat.le_div_iff_mul_le (by norm_num), ← pow_succ]; exact hge
      have hh2 : y / 2 < 2 ^ 401 := by rw [Nat.div_lt_iff_lt_mul (by norm_num), ← pow_succ]; exact hy402
      have hhalf : Real.logb 2 ((y : ℝ) / 2 / 2 ^ 400) = lg 400 y - 1 := by
        have hy0 : (y : ℝ) ≠ 0 := by
          have : 0 < y := lt_of_lt_of_le hK hy400
          exact_mod_cast this.ne'
        rw [lg, div_right_comm, Real.logb_div (by positivity) (by norm_num), Real.logb_self_eq_one (by norm_num)]
      have hg := lg_floor (z := (y : ℝ) / 2) hh1 (by have := @Nat.cast_div_le ℝ _ _ _ y 2; exact_mod_cast this)
        (by
          rw [div_lt_iff₀ (by norm_num)]
          have : y < (y / 2 + 1) * 2 := by omega
          exact_mod_cast this)
      rw [hhalf] at hg
      have := ih (y / 2) (2 * acc + 1) hh1 hh2
      have hup := mul_le_mul_of_nonneg_left (show 2 * lg 400 x ≤ lg 400 (y / 2) + 1 + 4 / 2 ^ 400 by rw [e4]; linarith [hf.2, hg.2]) hn.le
      have hdn := mul_le_mul_of_nonneg_left (show lg 400 (y / 2) + 1 ≤ 2 * lg 400 x by linarith [hf.1, hg.1]) hn.le
      push_cast at this ⊢
      rw [hpow]
      have e1 := this.1
      have e2 := this.2
      generalize (4 : ℝ) / 2 ^ 400 = d at *
      constructor
      · refine e1.trans ?_; linarith
      · refine le_trans ?_ (le_trans (add_le_add e2 (show (2 : ℝ) ^ n * d ≤ 2 ^ n * d from le_rfl)) ?_) <;> linarith
    · rename_i hlt
      have := ih y (2 * acc) hy400 (not_le.mp hlt)
      have hup := mul_le_mul_of_nonneg_left (show 2 * lg 400 x ≤ lg 400 y + 4 / 2 ^ 400 by
        rw [e4]; linarith [hf.2, show (0 : ℝ) < 2 / 2 ^ 400 by positivity]) hn.le
      have hdn := mul_le_mul_of_nonneg_left hf.1 hn.le
      push_cast at this ⊢
      rw [hpow]
      have e1 := this.1
      have e2 := this.2
      generalize (4 : ℝ) / 2 ^ 400 = d at *
      constructor
      · refine e1.trans ?_; linarith
      · refine le_trans ?_ (le_trans (add_le_add e2 (show (2 : ℝ) ^ n * d ≤ 2 ^ n * d from le_rfl)) ?_) <;> linarith

/-- The enclosure of the binary logarithm of a significand (R204). -/
theorem log2Bounds_spec (m : Nat) (h : 0 < m) (h24 : Nat.log2 m ≤ 400) :
    ((log2Bounds m).1 : ℝ) ≤ encDen * Real.logb 2 (m / 2 ^ Nat.log2 m) ∧
      encDen * Real.logb 2 (m / 2 ^ Nat.log2 m) ≤ (log2Bounds m).2 := by
  have h1 : 2 ^ Nat.log2 m ≤ m := Nat.log2_self_le h.ne'
  have h2 : m < 2 ^ (Nat.log2 m + 1) := Nat.lt_log2_self
  have hs : 2 ^ Nat.log2 m * 2 ^ (400 - Nat.log2 m) = 2 ^ 400 := by rw [← pow_add]; congr 1; omega
  have hx1 : 2 ^ 400 ≤ m * 2 ^ (400 - Nat.log2 m) := by rw [← hs]; exact Nat.mul_le_mul_right _ h1
  have hx2 : m * 2 ^ (400 - Nat.log2 m) < 2 ^ 401 := by
    rw [show 2 ^ 401 = 2 ^ (Nat.log2 m + 1) * 2 ^ (400 - Nat.log2 m) by rw [← pow_add]; congr 1; omega]
    exact Nat.mul_lt_mul_of_pos_right h2 (by positivity)
  have key := log2Go_spec 160 _ 0 hx1 hx2
  have hlg : lg 400 (m * 2 ^ (400 - Nat.log2 m)) = Real.logb 2 (m / 2 ^ Nat.log2 m) := by
    rw [lg]; congr 1
    have hs' : (2 : ℝ) ^ Nat.log2 m * 2 ^ (400 - Nat.log2 m) = 2 ^ 400 := by exact_mod_cast hs
    rw [← hs', Nat.cast_mul, Nat.cast_pow, Nat.cast_ofNat]
    field_simp
  rw [hlg, Nat.cast_zero, zero_mul, zero_add] at key
  have hE : ((encDen : ℕ) : ℝ) = 2 ^ 160 := by rw [encDen, Nat.cast_pow, Nat.cast_ofNat]
  have hsmall : ((2 : ℝ) ^ 160 - 1) * (4 / 2 ^ 400) ≤ 1 := by
    have e : (2 : ℝ) ^ 400 = 2 ^ 162 * 2 ^ 238 := by rw [← pow_add]
    have e' : (4 : ℝ) * 2 ^ 160 = 2 ^ 162 := by norm_num
    rw [← mul_div_assoc, div_le_one (by positivity), e]
    have : (1 : ℝ) ≤ 2 ^ 238 := one_le_pow₀ one_le_two
    nlinarith
  rw [hE, log2Bounds]
  refine ⟨key.1, key.2.trans ?_⟩
  rw [Nat.cast_add, Nat.cast_ofNat]
  linarith

end Sys2Proof.Laws
end

