-- ==== Sys2Proof/Tests/Slice0.lean ====
section
/-! SUPPORT. Tests: ill-formed words are refused, words of every family decode, a placed word runs, and every hypothesis of a statement is met
by some state. Expected values are written out from the spec's encodings and worked programs, or by hand. -/

namespace Sys2Proof.Tests

set_option Elab.async false

open Sys2Proof Sys2Proof.Machine

/-! Ill-formed words, one for each check of WellFormed (R211, R215, R220). -/

theorem test_odd_pair_destination : (Instr.mov 0 (.v 1) (.v 2) true).wellFormed = false := by decide
theorem test_channel_destination_wide : (Instr.mov 0 (.o 1) (.v 2) true).wellFormed = false := by decide
theorem test_odd_pair_source : (Instr.mov 0 (.v 2) (.v 3) true).wellFormed = false := by decide
theorem test_channel_source_wide : (Instr.iadd 0 (.v 2) (.v 4) (.ch 0) true).wellFormed = false := by decide
theorem test_shift_immediate : (Instr.shli 0 (.v 1) (.v 2) false 32).wellFormed = false ∧ (Instr.shli 0 (.v 2) (.v 2) true 32).wellFormed = true := by decide
theorem test_compare_code : (Instr.icmp 0 1 (.v 1) (.v 2) 6).wellFormed = false := by decide
theorem test_rotate_limit : (Instr.lrot 0 (.v 1) (.v 2) 64).wellFormed = false ∧ (Instr.lrot 0 (.v 1) (.v 2) (-64)).wellFormed = false := by decide
theorem test_reduction_code : (Instr.lred 0 (.v 1) (.v 2) 11).wellFormed = false := by decide
theorem test_mask_immediate : (Instr.mseti 0 1 0xC0).wellFormed = false := by decide
theorem test_system_register_absent : (Instr.sysr 0 (.v 1) 0x013).wellFormed = false ∧ (Instr.sysw 0 (.v 1) 0x013).wellFormed = false := by decide
theorem test_system_register_wide : (Instr.sysr 0 (.v 1) 0x010).wellFormed = false := by decide
theorem test_round_mode : (Instr.frnd 0 (.v 1) (.v 2) 5).wellFormed = false := by decide
theorem test_narrow_code : (Instr.fcvt 0 (.v 1) (.v 2) .discard false 7).wellFormed = false := by decide
theorem test_narrow_same_channel : (Instr.fcvt 0 (.o 1) (.v 2) (.o 1) false 2).wellFormed = false := by decide
theorem test_widen_half : (Instr.funp 0 (.v 1) (.v 2) true 0).wellFormed = false ∧ (Instr.funp 0 (.v 1) (.v 2) true 4).wellFormed = true := by decide
theorem test_atomic_pair : (Instr.aadd 0 (.v 1) 1 (.v 4) 0 true).wellFormed = false := by decide
theorem test_acas_destination : (Instr.acas 0 .discard 1 (.v 4) 0 false).wellFormed = false := by decide
theorem test_fence_sets : (Instr.fence 0 0 1 0).wellFormed = false ∧ (Instr.fence 0 1 0 0).wellFormed = false := by decide
theorem test_edge_mask : (Instr.edge 0 1 (.v 1) (.v 2) 0).wellFormed = false ∧ (Instr.edge 0 0 (.v 1) (.v 2) 3).wellFormed = false := by decide
theorem test_blend_mode : (Instr.blnd 0 (.v 1) 0 (.v 2) 5).wellFormed = false := by decide

/-- Fuses of a part of one of the three grades: four sites disabled and four resident (KV-960), 12 and 20 disabled (R2). -/
def fusesOf (disabled : Nat) : List DieFuses := List.replicate 8 ⟨List.range disabled, [156, 157, 158, 159]⟩
def partOf (grade disabled : Nat) : Firmware :=
  { grade := grade, modnum := 0, dommask := 0, domgrade := [], allow := 0, residentL4 := 0, enumPa := 0x4000000000, imageBase := 0, lanes := [], ports := []
    fuses := fusesOf disabled, powerTables := List.replicate 8 (List.replicate 65 0), mem := [], residents := [] }

theorem test_grade_fuses : (Instr.moduleReset (partOf 0x60 4)).wellFormed = true ∧ (Instr.moduleReset (partOf 0x44 12)).wellFormed = true ∧
    (Instr.moduleReset (partOf 0x28 20)).wellFormed = true := by decide +kernel
theorem test_grade_unknown : (Instr.moduleReset (partOf 0x61 4)).wellFormed = false := by decide +kernel
theorem test_grade_sites : (Instr.moduleReset (partOf 0x60 12)).wellFormed = false ∧
    (Instr.moduleReset { partOf 0x60 4 with fuses := [] }).wellFormed = false := by decide +kernel
/-- The mirror of the table lies in LPDDR 6, and a die's power table never falls (R78, R369). -/
theorem test_part_tables : (Instr.moduleReset { partOf 0x60 4 with enumPa := 0x3FFFFFF000 }).wellFormed = false ∧
    (Instr.moduleReset { partOf 0x60 4 with powerTables := List.replicate 8 (0 :: 2 :: List.replicate 63 1) }).wellFormed = false := by decide +kernel

/-! Words of each family, written out field by field: T, opcode, D, A, B, F (R209 to R215). -/

theorem test_decode_integer : decode 0x00117FFF = some (.movi 0 (.v 5) (-1)) ∧ decode 0x006104E8 = some (.shri 0 (.v 4) (.v 2) true 40) := by decide +kernel
theorem test_decode_select : decode 0x088C2011 = some (.sel 2 (.o 0) (.ch 0) (.v 1) 1) := by decide +kernel
theorem test_decode_masks : decode 0x01160040 = some (.mseti 0 0 0x40) := by decide +kernel
theorem test_decode_census : decode 0x153701FD = some (.cens 5 (-3)) := by decide +kernel
theorem test_decode_system : decode 0x1138C011 = some (.sysr 4 (.v 3) 0x11) ∧ decode 0x014F0021 = some (.trap 0 0x21) := by decide +kernel
theorem test_decode_privileged : decode 0x01770441 = some (.ctximgSaved 0 1 (.v 4)) ∧ decode 0x01780442 = some (.tlbinvPg 0 1 (.v 4) 1) := by decide +kernel
theorem test_decode_float : decode 0x0198C224 = some (.ffma 0 (.v 3) (.v 1) (.v 2) 4) ∧ decode 0x01BE8006 = some (.fcmp 0 2 (.v 0) (.v 0) 6) := by decide +kernel
theorem test_decode_convert : decode 0x05E40312 = some (.fcvt 1 (.o 0) (.v 1) (.o 1) false 2) ∧ decode 0x01C88203 = some (.frnd 0 (.v 2) (.v 1) 3) := by decide +kernel
theorem test_decode_load : decode 0x0A618483 = some (.ld 2 (.v 6) 1 (.v 8) 1 true) ∧ decode 0x0288C380 = some (.lds 0 (.v 3) (.v 1) (.c 0) 0 false) := by decide +kernel
theorem test_decode_store : decode 0x02B28990 = some (.stx 0 5 2 (.c 1) 0) := by decide +kernel
theorem test_decode_order : decode 0x0B170410 = some (.fence 2 2 1 0) ∧ decode 0x17370443 = some (.invr 5 1 (.v 4) 1 true) := by decide +kernel
theorem test_decode_future : decode 0x033F0985 = some (.fres 0 2 (.c 0) 2) ∧ decode 0x033F0864 = some (.freg 0 2 (.v 6) 2) := by decide +kernel
theorem test_decode_graphics : decode 0x03A10010 = some (.binb 0 (.v 4) (.v 0) (.v 1)) ∧ decode 0x03AE0011 = some (.edge 0 0 (.v 0) (.v 1) 1) := by decide +kernel
theorem test_decode_rays : decode 0x07C731F0 = some (.tnode 1 (.c 7)) ∧ decode 0x0FDC8000 = some (.rayout 3 2) ∧ decode 0x03DF2001 = some (.rayin 0 0) := by decide +kernel
theorem test_decode_blend : decode 0x03E72180 = some (.blnd 0 .discard 0 (.c 0) 0) ∧ decode 0x03EE4430 = some (.zcmp 0 1 (.v 2) (.v 3)) := by decide +kernel
theorem test_decode_table_word : decodeTableWord 32 0x00117FFF = some (.movi 0 (.v 5) (-1)) ∧ decodeTableWord 0 0 = none := by decide +kernel

/-! States for the witnesses. -/

def ramp (k : Nat) : Lanes := (List.range 64).map fun l => BitVec.ofNat 32 (k * l)

/-- A translation of 2 MiB with every page dirty. -/
def page (asid va pa leaf : Nat) : TlbEntry := ⟨asid, va, 2 ^ 21, pa, leaf, 1, 0⟩

/-- A resident cell whose element 0 may fire: registers 0 to 3 and 4 hold addresses and data, the constants name a coherent, an uncached, a described,
a UO and an absent page, banks 8 to 63 are scratchpad and 88 to 95 hold lines. -/
def demo : State :=
  let s : State := { State.reset.placeWord 0 with env := [] }
  (s.setCell 0 fun c =>
    { c with roles := (List.range 88).foldl (fun n b => n + (if b < 56 then 1 else if b < 80 then 0 else 3) * 4 ^ b) 0
             draft := { c.draft with elems := c.draft.elems.map fun e => { e with
               consts := [0, 0x200000, 0x400000, 0x600000, 0x800000, 1, 0x41, 0], profiles := [0, 0x108, 0x110, 0x118, 0, 0, 0, 0] } }
             tlb := [page 0 0 0x10000000 0xC, page 0 0x200000 0x10200000 0x100C, page 0 0x400000 0x10400000 0x40C,
               page 0 0x600000 0x10600000 0x10C] }).setCtx 0 0 0 fun k =>
    { k with v := [ramp 64, [], ramp 1, ramp 3] ++ List.replicate 12 [] }

/-- The same cell outside ASID 0. -/
def user : State := demo.setCell 0 fun c => { c with asid := 7, seat := some ⟨1, 0, 0, 0⟩ }

/-- No lane is in m0. -/
def State.idle (s : State) : State := s.setCtx 0 0 0 fun k => { k with m := [0, 0, 0, 0] }

/-- Lane 3 alone is in m0. -/
def State.lone (s : State) : State := s.setCtx 0 0 0 fun k => { k with m := [8, 0, 0, 0] }

/-! Witnesses: the step and the words. -/

theorem wit_placed : demo.placed ∧ user.placed ∧ (State.idle demo).placed ∧ (State.lone demo).placed ∧ dieOf demo.cur.cell < demo.dies.length := by
  decide +kernel

theorem wit_FiringsEligible : demo.eligible ⟨0, 0, 0, 0⟩ ∧ demo.due ⟨0, 0, 0, 0⟩ = true ∧ ((demo.cell 0).elem 0).occupant = none ∧
    ((demo.cell 0).elem 0).lastFired < 4 ∧ ((demo.cell 0).elem 0).busyUntil ≤ demo.time ∧ ∀ k ∈ ((demo.cell 0).elem 0).ctxs, k.multi = none := by
  refine ⟨?_, by decide +kernel⟩
  refine ⟨by decide +kernel, by decide +kernel, by decide +kernel, by decide +kernel, by decide +kernel, ?_, 0, .nop 0, by decide +kernel⟩
  intro w h
  have hn : (((demo.cell 0).elem 0).ctx 0).wait = none := by decide +kernel
  exact absurd (hn.symm.trans h) (by simp)

theorem wit_StepRunsDecodedInstruction :
    (demo.due ⟨0, 0, 0, 0⟩ = true ∧ ((demo.cell 0).draftElem 0).slots[0]? = some 0 ∧ decode 0 = some (.nop 0)) ∧
    State.reset.due ⟨0, 0, 0, 0⟩ = false ∧ encode (.modnumWrite 5) = none ∧ encode (.nop 0) ≠ none ∧
    (let s : State := { State.reset with time := 1000000 * Config.ps }; s.env = [] ∧ s.events.find? s.changes = some (.dobbySample 0) ∧ encode (.dobbySample 0) = none) ∧
    (State.reset.env = [] ∧ State.reset.events.find? State.reset.changes = none ∧ State.reset.dueFirings = []) := by decide +kernel

/-- A state of the seventh clause: nothing enabled, and a firing due. -/
theorem wit_StepRunsDecodedInstruction_due : demo.env = [] ∧ demo.events.find? demo.changes = none ∧ demo.dueFirings = [⟨0, 0, 0, 0⟩] := by decide +kernel

/-- Time passes from a pick; every scrub is due in the future. -/
theorem wit_StepRunsDecodedInstruction_time : let s := { demo with env := [.elapse 5] }
    s.env = .elapse 5 :: [] ∧ ∀ d ∈ s.sliceScrubs ++ s.cells.map fun c => s.cellScrubs.getD c.id s.time, s.time + 5 ≤ d ∨ d = s.time := by decide +kernel

/-- A due firing meets an uncorrectable word in its slot, or a single-bit one there, or none. -/
theorem wit_StepRunsDecodedInstruction_errors : ∀ b ∈ [false, true], let u : Upset := ⟨.slots 0 0, 0, b⟩; let s : State := { demo with upsets := [u] };
    let t := { s with cur := ⟨0, 0, 0, 0⟩ }.setCtx 0 0 0 fun k => { k with wait := none }
    s.due ⟨0, 0, 0, 0⟩ = true ∧ t.firingMeets (.nop 0) u = true ∧ t.firingMeets (.nop 0) ⟨.slots 0 1, 0, b⟩ = false ∧ dieOf t.cur.cell < t.dies.length := by
  decide +kernel

/-- The outcome is a next state. -/
def goesOn (o : Out) : Bool := match o with | .next _ => true | _ => false

theorem next_of {o : Out} (h : goesOn o = true) : ∃ u, o = .next u := by
  cases o with
  | next u => exact ⟨u, rfl⟩
  | fault r => simp [goesOn] at h
  | refused r => simp [goesOn] at h

theorem wit_MemoryStaysCanonical : Memory.wf demo.mem ∧ ∃ u, step demo = .next u := ⟨by decide +kernel, next_of (by decide +kernel)⟩

theorem wit_SourcesRead : (demo.curElem.chan 7).tokens = [⟨0, [], none, none⟩] ∧ (14 : VReg).val % 2 = 0 := by decide +kernel

/-! Witnesses: instructions on registers. -/

theorem wit_ArithmeticResults : (Instr.mov 63 (.v 14) (.v 14) true).wellFormed = true ∧ (Instr.iadd 0 .discard (.v 0) (.v 2) true).wellFormed = true ∧
    (Instr.iadd 0 (.o 7) (.ch 7) (.c 7) false).wellFormed = true ∧ (Instr.iabs 0 (.v 2) (.v 2) true).wellFormed = true ∧
    (Instr.imin 0 (.v 2) (.v 2) (.v 4) true).wellFormed = true := by decide

theorem wit_DivisionResults : (Instr.idiv 0 (.v 2) (.v 4) (.v 6) true).wellFormed = true ∧ (Instr.idiv 0 (.o 0) (.ch 0) (.c 0) false).wellFormed = true := by
  decide

theorem wit_LogicResults : (Instr.band 0 (.v 2) (.v 4) (.v 6) true).wellFormed = true ∧ (Instr.band 0 (.o 0) (.ch 0) (.c 0) false).wellFormed = true ∧
    (0x00500005#32).toNat / 2 ^ 19 % 128 = 0x0A ∧ (0x00500005#32).toNat % 8 ≥ 5 := by decide

theorem wit_ShiftAndFieldResults : (Instr.shl 0 (.v 2) (.v 4) (.v 6) true).wellFormed = true ∧ (Instr.shli 0 (.v 2) (.v 4) true 63).wellFormed = true ∧
    (Instr.shli 0 (.v 1) (.ch 0) false 31).wellFormed = true ∧ (Instr.bfx 0 (.v 2) (.v 4) (.v 6) true true).wellFormed = true ∧
    (Instr.clz 0 (.v 2) (.v 4) true).wellFormed = true := by decide

theorem wit_CompareSelectResults : (5 : Fin 8).val < 6 ∧ inMask demo.m0 63 = true := by decide +kernel

theorem wit_LaneResults : (Instr.lrot 0 (.v 1) (.v 2) (-63)).wellFormed = true ∧ (10 : Fin 16).val < 11 := by decide

theorem wit_MaskRegisterResults : (Instr.mseti 0 3 0x1BF).wellFormed = true := by decide

theorem wit_EntryAndTokenEffects : demo.routeTarget demo.curCell (demo.routeOf 0 0 7) = some (.chan 0 0 7) ∧ 7 < demo.curElem.outs.length ∧
    (demo.curElem.chan 7).tokens = [⟨0, [], none, none⟩] := by decide +kernel

/-! Witnesses: numbers. -/

theorem value_of {x : Word} {neg : Bool} {m : Nat} {e : Int} (h : fpDecode .fp32 x.toNat = .num neg m e) :
    real32 x = (if neg then -1 else 1) * (m : ℚ) * (2 : ℚ) ^ e := by rw [real32, h]; rfl

theorem value_zero : real32 0 = 0 := by rw [value_of (x := 0) (neg := false) (m := 0) (e := -149) (by decide +kernel)]; norm_num
theorem value_one : real32 0x3F800000 = 1 := by
  rw [value_of (x := 0x3F800000) (neg := false) (m := 0x800000) (e := -23) (by decide +kernel)]; norm_num
theorem value_minus : real32 0xBF800000 = -1 := by
  rw [value_of (x := 0xBF800000) (neg := true) (m := 0x800000) (e := -23) (by decide +kernel)]; norm_num
theorem value_high : real32 0x42FE0000 = 127 := by
  rw [value_of (x := 0x42FE0000) (neg := false) (m := 0xFE0000) (e := -17) (by decide +kernel)]; norm_num

theorem value_max : real32 0x7F7FFFFF = (2 ^ 24 - 1) * 2 ^ 104 := by
  rw [value_of (x := 0x7F7FFFFF) (neg := false) (m := 0xFFFFFF) (e := 104) (by decide +kernel)]; norm_num
theorem value_least : real32 0xFF7FFFFF = -((2 ^ 24 - 1) * 2 ^ 104) := by
  rw [value_of (x := 0xFF7FFFFF) (neg := true) (m := 0xFFFFFF) (e := 104) (by decide +kernel)]; norm_num

theorem wit_FpArithmeticResults : (snan32 0x7F800001 ∧ nan32 0xFFC00000 ∧ ¬snan32 0xFFC00000 ∧ finite32 0x7F7FFFFF ∧ finite32 0x80000001) ∧
    real32 0x3F800000 ≠ 0 ∧ real32 0x3F800000 + real32 0xBF800000 = 0 ∧ real32 0x3F800000 = real32 0x3F800000 ∧ real32 0 = 0 := by
  refine ⟨by decide, ?_⟩
  rw [value_one, value_minus, value_zero]; norm_num

theorem wit_FaddAndNarrowingRound_sums : (finite32 0x7F7FFFFF ∧ finite32 0xFF7FFFFF ∧ finite32 0) ∧ |real32 0 + real32 0| < (2 ^ 24 - 1 / 2) * 2 ^ 104 ∧
    (2 ^ 24 - 1 / 2) * 2 ^ 104 ≤ real32 0x7F7FFFFF + real32 0x7F7FFFFF ∧ real32 0xFF7FFFFF + real32 0xFF7FFFFF ≤ -((2 ^ 24 - 1 / 2) * 2 ^ 104) := by
  refine ⟨by decide, ?_⟩
  rw [value_max, value_least, value_zero]; norm_num

/-- Every number of INT4 is an integer. -/
theorem element_integer (c : Nat) (z : ℚ) (h : elemNumber 6 c = some z) : ∃ n : ℤ, z = n := by
  simp only [elemNumber, narrowFmt, elemVal, fpValue, zpow_zero, mul_one] at h
  split at h
  · injection h with h
    refine ⟨(if decide (signed 4 c < 0) = true then -1 else 1) * ((signed 4 c).natAbs : ℤ), ?_⟩
    rw [← h]; split <;> simp
  · cases h

/-- At scale 127 INT4 takes 1 exactly; its neighbour is 2; FP32's extremes are beyond its limits, 7 and -8. -/
theorem wit_FaddAndNarrowingRound_narrowing : finite32 0x3F800000 ∧ real32 0x3F800000 * (2 : ℚ) ^ (127 - ((127 : Nat) : ℤ)) = 1 ∧ ¬narrowsBeyond 6 1 ∧
    narrowsBeyond 6 ((2 ^ 24 - 1) * 2 ^ 104) ∧ elemNumber 6 1 = some 1 ∧ elemNumber 6 2 = some 2 ∧ elemNumber 6 (narrowMax 6) = some 7 ∧
    (∀ c z, elemNumber 6 c = some z → 0 ≤ z * 1 → |z| ≤ |1| ∨ |2| ≤ |z|) := by
  have el (c m : Nat) (h : elemVal (narrowFmt 6) c = .num false m 0) (hc : c < 16) : elemNumber 6 c = some (m : ℚ) := by
    rw [elemNumber, h]; simp [elemBits, narrowFmt, fpValue, hc]
  refine ⟨by decide, by rw [value_one]; norm_num, by norm_num [narrowsBeyond], by norm_num [narrowsBeyond], by simpa using el 1 1 (by decide +kernel) (by decide),
    by simpa using el 2 2 (by decide +kernel) (by decide), by simpa [narrowMax] using el 7 7 (by decide +kernel) (by decide), ?_⟩
  intro c z h _
  obtain ⟨n, rfl⟩ := element_integer c z h
  rcases le_or_gt |n| 1 with h | h
  · left; simpa using (by exact_mod_cast h : |(n : ℚ)| ≤ 1)
  · right; rw [abs_two]; exact_mod_cast h

theorem wit_FpOrderAndIntegerResults : nan32 0x7FC00000 ∧ snan32 0xFF800001 ∧ ¬nan32 0 ∧ ¬nan32 0x3F800000 ∧ real32 0 < real32 0x3F800000 := by
  refine ⟨by decide, by decide, by decide, by decide, ?_⟩
  rw [value_zero, value_one]; norm_num

theorem wit_FpIntegerResults : (¬nan32 0 ∧ real32 0 = 0) ∧ (¬nan32 0xFF800000 ∧ ¬finite32 0xFF800000) ∧ finite32 0x3F800000 ∧ nan32 0x7FC00000 ∧
    (intMin 32 true ≤ truncInt (real32 0) ∧ truncInt (real32 0) ≤ intMax 32 true) ∧
    (¬nan32 0xBF800000 ∧ truncInt (real32 0xBF800000) < intMin 64 true) ∧ (¬nan32 0x7F800000 ∧ intMax 32 false < truncInt (real32 0x7F800000)) ∧
    |((2 : Int) ^ 64 - 1)| < 2 ^ 64 ∧ (Instr.frnd 0 (.v 1) (.v 2) 4).wellFormed = true ∧ (Instr.fcvti 0 (.v 2) (.v 1) true true).wellFormed = true := by
  have inf : real32 0x7F800000 = 2 ^ 200 := by
    rw [real32, show fpDecode .fp32 (0x7F800000 : Word).toNat = .inf false by decide +kernel]; rfl
  refine ⟨⟨by decide, value_zero⟩, by decide, by decide, by decide, ?_, ⟨by decide, ?_⟩, ⟨by decide, ?_⟩, by decide, by decide, by decide⟩
  · rw [value_zero]; norm_num [intMin, intMax, truncInt]
  · rw [value_minus]; norm_num [intMin, truncInt]
  · rw [inf]; norm_num [intMax, truncInt]

theorem wit_NarrowingResults : (Instr.fcvt 0 (.o 0) (.v 2) (.o 7) true 6).wellFormed = true ∧ (Instr.fcvt 0 (.v 1) (.v 2) .discard false 0).wellFormed = true := by
  decide

theorem wit_BlockHelperResults : (254 < 256 ∧ 0xFF < 2 ^ elemBits (narrowFmt 2)) ∧
    (∃ b, elemVal (narrowFmt 2) 0x7F = .nan b) ∧ (∃ b, elemVal (narrowFmt 3) 0xFC = .inf b) ∧
    (∃ a b c, elemVal (narrowFmt 2) 1 = .num a b c) ∧ finite32 (widen (narrowFmt 2) 127 1).1 ∧
    ((1 : Word).getLsbD 0 = true ∧ (0xFE : Word).toNat % 256 < 255) ∧ (Instr.funp 0 (.v 1) (.v 2) true 6).wellFormed = true ∧
    (inMask demo.m0 0 = true ∧ (State.lone demo).m0 = 8 ∧ (∀ l, l < 3 → inMask (State.lone demo).m0 l = false) ∧ inMask (State.lone demo).m0 3 = true) ∧
    (finite32 0x3F800000 ∧ real32 0x3F800000 ≠ 0) := by
  refine ⟨by decide, ⟨false, by decide +kernel⟩, ⟨true, by decide +kernel⟩, ⟨false, 1, -9, by decide +kernel⟩, by decide +kernel, by decide, by decide,
    by decide +kernel, by decide, ?_⟩
  rw [value_one]; norm_num

theorem wit_ReciprocalsWithinOneUlp : finite32 0x3F800000 ∧ 0 < real32 0x3F800000 ∧ (2 : ℚ) ^ (-128 : ℤ) < |real32 0x3F800000| ∧ (2 : ℚ) ^ (0 : ℤ) ≤ |1 / real32 0x3F800000| ∧
    |1 / real32 0x3F800000| < (2 : ℚ) ^ ((0 : ℤ) + 1) ∧ (2 : ℚ) ^ (2 * (0 : ℤ)) * real32 0x3F800000 ≤ 1 ∧ 1 < (2 : ℚ) ^ (2 * (0 : ℤ) + 2) * real32 0x3F800000 := by
  refine ⟨by decide, ?_⟩
  rw [value_one]; norm_num

theorem wit_TranscendentalsWithinBounds : finite32 0x3F800000 ∧ (2 : ℝ) ^ (0 : ℤ) ≤ |((real32 0x3F800000 : ℚ) : ℝ)| ∧
    |((real32 0x3F800000 : ℚ) : ℝ)| < (2 : ℝ) ^ ((0 : ℤ) + 1) ∧ (-150 : ℝ) < ((real32 0x3F800000 : ℚ) : ℝ) ∧
    ((real32 0x3F800000 : ℚ) : ℝ) < 128 ∧ (0 : ℝ) < ((real32 0x3F800000 : ℚ) : ℝ) := by
  refine ⟨by decide, ?_⟩
  rw [value_one]; norm_num

theorem wit_SpecialAndScaleResults : nan32 0x7F800001 ∧ ((-149 : ℤ) ≤ 127 ∧ finite32 0x42FE0000 ∧ real32 0x42FE0000 = (127 : ℤ)) ∧
    (real32 0x80000000 = 0 ∧ ¬nan32 0x80000000) ∧ (finite32 (fsclVal 0x3F800000 127).1 ∧ finite32 0x3F800000 ∧ real32 0x3F800000 ≠ 0) := by
  refine ⟨by decide, ⟨by decide, by decide, by rw [value_high]; norm_num⟩, ⟨?_, by decide⟩, by decide +kernel, by decide, by rw [value_one]; norm_num⟩
  rw [value_of (x := 0x80000000) (neg := true) (m := 0) (e := -149) (by decide +kernel)]; norm_num

/-! Witnesses: system instructions. A launch with a region of one cell. -/

def launchA : Launch :=
  { uid := 1, queue := 0, st := .resident, asid := 7, prio := 3, boost := none, qscope := 0, irq := true, rpt := none, clkreq := 0, clkw := 0
    pweight := 16, crec := 0x400, block := 0, fromTail := false, ptab := 0, evstage := 255, wdog := 100, quantum := 1, roles := 0
    stages := [{ drafts := [0], foot := 1, part := 1, dies := 1, minrep := 1, maxrep := 1, qcap := 16, growd := 4, growt := 100, shrd := 1, shrt := 100 }]
    launchid := 9, admitted := 0, lastRun := 0, first := 0, faults := 0, tail := [], draining := [] }

def regionA : Region :=
  { die := 0, index := 0, launch := 1, cells := [0], idle := 0, idleSince := 0, stalled := false, reported := false, period := false, stopping := false
    lastImage := none, depth := 0 }

/-- The cell works for a launch. -/
def graph : State :=
  { user.setCell 0 fun c => { c with tlb := [page 7 0 0x10000000 0xC, page 7 0x200000 0x10200000 0x100C] } with
    launches := [launchA], regions := [regionA] }

/-- A resident cell whose context names that region in swregion. -/
def loader : State := { demo.setCtx 0 0 0 fun k => { k with swregion := 0 } with launches := [launchA], regions := [regionA] }

theorem wit_SystemRegisters : (Instr.sysr 0 (.v 2) 0x010).wellFormed = true ∧ (Instr.sysr 0 (.o 1) 0x031).wellFormed = true ∧ demo.curCell.asid = 0 ∧
    (graph.curCell.seat = some ⟨1, 0, 0, 0⟩ ∧ graph.launch? graph.curCell.launchUid = some launchA ∧ graph.regionOf graph.cur.cell = some regionA) ∧
    (State.idle demo).m0 = 0 ∧ inMask (State.lone demo).m0 3 = true ∧ ∀ j, j < 3 → inMask (State.lone demo).m0 j = false := by decide +kernel

theorem wit_PrivilegeFaults : user.placed ∧ dieOf user.cur.cell < user.dies.length ∧ user.curCell.asid ≠ 0 := by decide +kernel

theorem wit_TrapAndLaunchResults : graph.placed ∧ graph.cur.ctx < 4 ∧ (State.idle graph).m0 = 0 ∧
    ((State.lone graph).wordLane 0 = [(3, 192)] ∧ 192 % 256 ≠ 0) ∧
    (graph.wordLane 0 = [(0, 0)] ∧ graph.translateFor 0 graph.curAsid .load 0 = (.ok 0x10000000 0xC (2 ^ 21), graph) ∧
      graph.launch? graph.curCell.launchUid = some launchA ∧ launchA.tail.length < 256) := by decide +kernel

theorem wit_PrivilegedInstructions : loader.placed ∧ loader.curCell.asid = 0 ∧ (State.idle loader).m0 = 0 ∧
    (let s := State.lone loader; s.m0 ≠ 0 ∧ (lanesOf s.m0).map (fun l => (l, (s.pairVal 0 l).toNat)) = [(3, 192)] ∧ s.curCell.pendingBytes s.curAsid 192 3136 = false ∧
      s.maps .draft [(3, 192), (3, 192 + 3135)] (0x10000000 + ·) (fun _ => 0xC) (fun _ => 2 ^ 21) ∧ s.siteOk (s.rd (.c 0) 3).toNat = true ∧
      (s.pairVal 0 3).toNat = 192) ∧
    loader.regionNamed loader.curCtx.swregion.toNat = some regionA ∧ demo.regionNamed demo.curCtx.swregion.toNat = none ∧
    ((State.lone loader).wordLane 0 = [(3, 192)] ∧ 192 % 4096 ≠ 0) ∧ (loader.wordLane 0 = [(0, 0)] ∧ loader.regionNamed (loader.rd (.c 0) 0).toNat = some regionA) ∧
    ((loader.setCtx 0 0 0 fun k => { k with v := [ramp 64, List.replicate 64 0x02000000] ++ k.v.drop 2 }).wordLane 0 = [(0, 0x200000000000000)] ∧
      canonical 0x200000000000000 = false) ∧ canonical 0xFF00000000000000 = true := by decide +kernel

/-! Witnesses: memory instructions at their firing. -/

theorem wit_EffectiveAddresses : inMask (State.lone demo).m0 3 = true ∧ (∀ i, i < 3 → inMask (State.lone demo).m0 i = false) ∧
    (State.lone demo).blocks 0 (.c 0) = [(0, 192)] := by decide +kernel

theorem wit_TranslationResults :
    (canonical 0x1FFFFF = true ∧ (demo.cell 0).tlb.find? (·.covers 0 (0x1FFFFF % 2 ^ 57)) = some (page 0 0 0x10000000 0xC) ∧
      leafFault .store true 0x101FFFFF 0xC = none ∧ (page 0 0 0x10000000 0xC).dirtyAt 0x1FFFFF = true ∧ Kind.writes .store = true ∧
      leafFault .ldx true 0x101FFFFF 0xC = some 0x05) ∧
    canonical (2 ^ 56) = false ∧ canonical (2 ^ 56 - 1) = true ∧ canonical (2 ^ 64 - 1) = true ∧
    (0x10 : Nat).testBit 4 = true ∧ (leafOrd 0x180 = 3 ∧ leafCp 0x180 = 0) ∧ leafCp 0x1800 = 3 ∧
    (leafOrd 0x10C = 2 ∧ leafCp 0x10C ≠ 3 ∧ inMmio 0x10000000 = false ∧ (0x10C : Nat).testBit 2 = true) ∧
    (inMmio hubWindow = true ∧ leafOrd 0x100C = 0 ∧ leafCp 0x100C = 2 ∧ leafDsc 0x100C = false ∧ leafSm 0x100C = false ∧ (0x100C : Nat).testBit 2 = true ∧
      (0x1008 : Nat).testBit 2 = false ∧ leafCp 0xC ≠ 2 ∧ rsRegister (hubWindow + 0x10000) = true ∧ rsRegister hubWindow = false) := by decide +kernel

/-- Addresses: 64 bytes a lane, 4 a lane, and lane 3 of the first alone. -/
def narrow4 (s : State) : State := s.setCtx 0 0 0 fun k => { k with v := [ramp 4, []] ++ k.v.drop 2 }

/-- The blocks of the described page have the descriptor of code 1. -/
def described : State := { demo with mem := memStore [] (demo.descAddr 0x10400000) [0, 1, 0, 1, 0, 1, 0, 1] }

theorem wit_LoadsEnter :
    (let ls := demo.gather 0 (.c 0); ls ≠ [] ∧ demo.clear 8 ls ∧ demo.maps .load ls (0x10000000 + ·) (fun _ => 0xC) (fun _ => 2 ^ 21)) ∧
    (let ls := demo.contig 0 (.c 1) 8; ls ≠ [] ∧ demo.clear 8 ls ∧ demo.maps .load ls (0x10000000 + ·) (fun _ => 0x100C) (fun _ => 2 ^ 21)) ∧
    ((State.idle demo).gather 0 (.c 0) = [] ∧ (State.idle demo).contig 0 (.c 0) 4 = [] ∧ (State.idle demo).m0 = 0 ∧ 7 < demo.curElem.outs.length) ∧
    (∀ l ∈ demo.gather 0 (.c 0), l.2 % 64 = 0 ∧ canonical l.2 = true ∧ (demo.tlbHit (some 0) 0 demo.curAsid (l.2 % 2 ^ 57)).isSome = true) ∧
    (∀ l ∈ demo.gather 0 (.c 5), l.2 % 8 ≠ 0) := by decide +kernel

theorem wit_LoadsEnter_blocks : let ls := described.blocks 0 (.c 2)
    ls = [(0, 0x400000), (16, 0x400040), (32, 0x400080), (48, 0x4000C0)] ∧ described.clear 64 ls ∧
    described.maps .ldx ls (0x10000000 + ·) (fun _ => 0x40C) (fun _ => 2 ^ 21) ∧ (∀ l ∈ ls, badLoadCode (described.ownDesc (0x10000000 + l.2) 0x40C) = false) ∧
    (State.idle described).blocks 0 (.c 2) = [] := by decide +kernel

theorem wit_StoresEnter :
    (let ls := demo.gather 0 (.c 0); (∀ l ∈ ls, l.2 % 8 = 0) ∧ demo.outstanding 0 + ls.length ≤ 512 ∧
      (∀ l ∈ ls, demo.curCell.pending demo.curAsid l.2 = false) ∧ demo.maps .store ls (0x10000000 + ·) (fun _ => 0xC) (fun _ => 2 ^ 21)) ∧
    (let ls := demo.blocks 0 (.c 2); ls ≠ [] ∧ (∀ l ∈ ls, l.2 % 64 = 0) ∧ demo.maps .stx ls (0x10000000 + ·) (fun _ => 0x40C) (fun _ => 2 ^ 21) ∧
      ∀ l ∈ ls, (lane (demo.vreg 3) (l.1 / 16)).toNat % 65536 / 256 < 0x0A) := by decide +kernel

/-- A page whose leaf is migrating; the levels above it are in the die's table cache. -/
def moving : State :=
  { (demo.setCell 0 fun c => { c with tlb := [] }) with
    mem := memStore [] 0x20000000 (leBytes 8 0x10000200F)
    dies := modifyAt demo.dies 0 fun d => { d with tableCache := [4, 3, 2, 1].map fun n => ⟨0, 0, n, 0x200000001⟩ } }

/-- A side log of n entries of one page. -/
def State.logged (s : State) (n g : Nat) : State := s.setCell 0 fun c => { c with sideLog := (List.range n).map fun i =>
  { id := 50 + i, elem := 0, ctx := 1, slot := 0, opcode := 0x2A, seq := 0, asid := 0, page := g, profile := 0, lanes := [], reduction := none
    width := 4, descs := [], mig := none, order := 0, replaying := false } }

/-- The store of lane 3 meets a page without a leaf, a migrating leaf, or an entry of its page, with room in the log and with none. -/
theorem wit_StoresEnter_logged :
    (∀ n ∈ [0, 64], let s := State.logged (State.lone demo) n 0x7000; let ls := s.gather 0 (.c 4);
      ls ≠ [] ∧ (∀ l ∈ ls, l.2 % 8 = 0 ∧ l.2 / 4096 * 4096 = 0x800000) ∧ s.room ls ∧ (∀ l ∈ ls, s.curCell.pending s.curAsid l.2 = false) ∧
      (∀ l ∈ ls, s.translateFor s.cur.cell s.curAsid .store l.2 = (.fault 0x01 0, s)) ∧ s.curCell.sideLog.length = n) ∧
    (∀ n ∈ [0, 64], let s := State.logged (State.lone moving) n 0x7000; let ls := s.gather 0 (.c 0);
      ls ≠ [] ∧ (∀ l ∈ ls, l.2 % 8 = 0 ∧ l.2 / 4096 * 4096 = 0) ∧ s.room ls ∧ (∀ l ∈ ls, s.curCell.pending s.curAsid l.2 = false) ∧
      ∀ l ∈ ls, s.translateFor s.cur.cell s.curAsid .store l.2 = (.mig 0x100000C0 0x10000200F 0x20000000 0x10000200F, s)) ∧
    (∀ n ∈ [1, 64], let s := State.logged (State.lone demo) n 0x800000; let ls := s.gather 0 (.c 4);
      s.room ls ∧ (s.curCell.sideLog.find? fun e => e.asid == s.curAsid && e.page == 0x800000).isSome = true) := by decide +kernel

theorem wit_MemoryFaultsAtFiring : (∀ x ∈ demo.accs, x.id ≠ demo.nextId) ∧ (∃ l ∈ demo.gather 0 (.c 5), l.2 % 2 ≠ 0) ∧
    (∃ l ∈ demo.contig 0 (.c 5) 4, l.2 % 4 ≠ 0) ∧
    (∃ l ∈ ((lanesOf (narrow4 demo).m0).map fun l => (l, ((narrow4 demo).pairVal 0 l).toNat)), l.2 % 8 ≠ 0) ∧
    (let s := State.lone demo; let ls := s.gather 0 (.c 4); s.clear 8 ls ∧ (∀ l ∈ ls, s.translateFor 0 s.curAsid .load l.2 = (.fault 0x01 0, s)) ∧
      firstAddr ls (fun _ => true) = 0x8000C0) ∧
    (let s := State.lone moving; let ls := s.gather 0 (.c 0); s.clear 8 ls ∧
      ls = [] ++ (3, 192) :: [] ∧ s.translateFor 0 s.curAsid .load 192 = (.mig 0x100000C0 0x10000200F 0x20000000 0x10000200F, s)) := by decide +kernel

/-- The scratchpad address of a lane is its part of register 0 past constant 7. -/
def scratch : State := demo.setCell 0 fun c =>
  { c with draft := { c.draft with elems := c.draft.elems.map fun e => { e with consts := e.consts.set 7 0x10000 } } }

theorem wit_ScratchpadResults :
    (∀ l, l < 64 → inMask scratch.m0 l = true → (scratch.rd (.v 0) l + scratch.rd (.c 7) l).toNat % 8 = 0 ∧
      (scratch.rd (.v 0) l + scratch.rd (.c 7) l).toNat < 2 ^ 20 ∧
      scratch.curCell.role ((scratch.rd (.v 0) l + scratch.rd (.c 7) l).toNat / 8192) = .scr) ∧
    (∀ x ∈ scratch.upsets, x.place ≠ .sram scratch.cur.cell) ∧ dstW true (.v 2) = true := by decide +kernel

def lanesAt (s : State) : List (Nat × Nat) := (lanesOf s.m0).map fun l => (l, (s.pairVal 0 l).toNat)

theorem wit_AtomicResults : (State.idle demo).m0 = 0 ∧ demo.m0 ≠ 0 ∧ demo.clear 8 (lanesAt demo) ∧
    demo.maps .atomic (lanesAt demo) (0x10000000 + ·) (fun _ => 0xC) (fun _ => 2 ^ 21) ∧ (∀ l ∈ lanesAt demo, demo.curCell.pending demo.curAsid l.2 = false) ∧
    (∀ l ∈ lanesAt demo, leafOrd 0xC ≠ 1) := by decide +kernel

/-- The block of a one-word MWCAS on the word at 0x1000, in the page of lane 0's address. -/
def compareBlock : State := { demo with mem := memStore [] 0x10000000 ([1] ++ List.replicate 15 0 ++ leBytes 8 0x1000 ++ leBytes 8 0 ++ leBytes 8 5) }

/-- The state after a block has been read. -/
def afterRead (r : HubResult) : State := match r with | .ok _ s => s | _ => State.reset

/-- The bytes and the state that the read of n bytes of a block leaves. -/
def blockRead (s : State) (n : Nat) : List Nat × State := (memBytes s.mem 0x10000000 n, afterRead (s.blockBytes 0 0x10000000 0xC 0 n))

/-- A read of a block meets the premises. -/
abbrev reads (s : State) (n : Nat) : Prop := s.curCell.pendingBytes s.curAsid 0 n = false ∧
  s.descriptionWaits s.cur.cell s.cur.elem s.cur.ctx s.curCtx.seq s.curAsid 0 0x10000000 0xC n = false ∧
  s.blockBytes s.cur.cell 0x10000000 0xC 0 n = .ok (blockRead s n).1 (blockRead s n).2 ∧ (blockRead s n).2.cur = s.cur

/-- A block off 16 bytes; a header of zeros; a block whose entry is misaligned, and one without a defect. -/
theorem wit_MwcasEnters :
    (let s := State.lone (demo.setCtx 0 0 0 fun k => { k with v := [ramp 4, []] ++ k.v.drop 2 }); s.wordLane 0 = [(3, 12)] ∧ 12 % 16 ≠ 0) ∧
    (demo.wordLane 0 = [(0, 0)] ∧ demo.translateFor 0 demo.curAsid .load 0 = (.ok 0x10000000 0xC (2 ^ 21), demo) ∧ inMmio 0x10000000 = false) ∧
    (reads demo 16 ∧ mwHeadBad 0 (fieldAt (blockRead demo 16).1 0 1) (blockRead demo 16).1 = true ∧ dieOf (blockRead demo 16).2.cur.cell < (blockRead demo 16).2.dies.length) ∧
    (let s := { compareBlock with mem := memStore compareBlock.mem 0x10000010 [1] }; let h := (blockRead s 16).2; let bs := (blockRead h 40).1
      reads s 16 ∧ reads h 40 ∧ fieldAt (blockRead s 16).1 0 1 = 1 ∧ mwHeadBad 0 1 (blockRead s 16).1 = false ∧ mwBad 0 1 bs (mwEntries 1 bs) = true ∧
      dieOf (blockRead h 40).2.cur.cell < (blockRead h 40).2.dies.length) ∧
    (let s := compareBlock; let h := (blockRead s 16).2; let bs := (blockRead h 40).1; let b := (blockRead h 40).2
      reads s 16 ∧ reads h 40 ∧ fieldAt (blockRead s 16).1 0 1 = 1 ∧ mwHeadBad 0 1 (blockRead s 16).1 = false ∧ fieldAt bs 0 1 = 1 ∧
      mwEntries 1 bs = [(0x1000, 0, 5)] ∧ mwBad 0 1 bs [(0x1000, 0, 5)] = false ∧ b.curCell.pending s.curAsid 0x1000 = false ∧
      b.translateFor 0 s.curAsid .mwcas 0x1000 = (.ok 0x10001000 0xC (2 ^ 21), b)) := by decide +kernel

theorem wit_WaitsAndFuturesEnter :
    (demo.wordLane 0 = [(0, 0)] ∧ demo.translateFor 0 demo.curAsid .waita 0 = (.ok 0x10000000 0xC (2 ^ 21), demo) ∧ demo.clear 8 [(0, 0)] ∧
      ∀ x ∈ demo.accs, x.id ≠ demo.nextId) ∧ (State.idle demo).m0 = 0 ∧
    (demo.clear 8 (lanesAt demo) ∧ demo.maps .atomic (lanesAt demo) (0x10000000 + ·) (fun _ => 0xC) (fun _ => 2 ^ 21) ∧ leafOrd 0xC ≠ 2) ∧
    (let js := (lanesOf demo.m0).map fun l => (l, demo.ea 0 (.c 1) l); demo.maps .atomic js (0x10000000 + ·) (fun _ => 0x100C) (fun _ => 2 ^ 21) ∧
      ∀ l ∈ js, l.2 % 16 = 0 ∧ leafOrd 0x100C ≠ 2 ∧ demo.curCell.pendingBytes demo.curAsid l.2 16 = false) ∧
    (2 ^ 63 / 2 ^ 62 = 2 ∧ (2 ^ 64 - 4) / 2 ^ 62 = 3 ∧ 2 ^ 62 + (2 ^ 64 - 4) / 4 < 2 ^ 64) := by decide +kernel

/-- A store of the current context is outstanding. -/
def storing : State := { demo with accs := [{ demo.newAccess .store .none 0 false true 1 (demo.partsAt 4 [(0, 0)] (fun _ => 0x10000000) (fun _ => 0xC) (fun _ => 2 ^ 21)
  (fun _ => [1, 2, 3, 4]) fun _ => 0) with id := 90 }] }

/-- A command of the current context in its cell's shuttle queue, whose block is not read yet. -/
def commanding : State := demo.setCell 0 fun c => { c with shuttle := [
  { id := 91, opcode := 0x68, block := 0, pa := 0x10000000, leaf := 0xC, elem := 0, ctx := 0, slot := 0, m0 := 1, asid := 0, profile := 0, phase := 0, progress := 0, paused := none
    fields := [], buffer := [], seq := 0 }] }

theorem wit_FenceAndMaintenanceEnter :
    ((∀ x ∈ demo.accs, sameCtx x.cell x.elem x.ctx 0 0 0 = false) ∧ demo.mwops = [] ∧ demo.draftlds = [] ∧ demo.commandsOf 0 0 0 = []) ∧
    (∃ a ∈ storing.accs, sameCtx a.cell a.elem a.ctx 0 0 0 = true ∧ a.op ≠ .prefetch ∧ Nat.land (storing.accClasses 0 a) 2 ≠ 0) ∧
    (91 ∈ (commanding.setCtx 0 0 0 fun k => { k with seq := 1 }).commandsOf 0 0 0 ∧ 91 ∈ commanding.unread 0 0 0 1) ∧
    (let s := State.lone demo; let pages := pageParts 3 192 0x200000;
      (s.rd (.c 1) 3).toNat = 0x200000 ∧ canonical (192 + 0x200000 - 1) = true ∧ pages.length = 513 ∧
      s.maps .load (pages.map fun g => (g.1, g.2.1)) (0x10000000 + ·) (fun a => if a < 0x200000 then 0xC else 0x100C) (fun _ => 2 ^ 21)) ∧
    (let s := State.lone (demo.setCtx 0 0 0 fun k => { k with v := k.v.set 4 (List.replicate 64 0x01000001) }); (s.rd (.v 4) 3).toNat > 0x01000000) ∧
    (State.lone demo).rd (.c 0) 3 = 0 := by decide +kernel

/-! Witnesses: engine commands and graphics at their firing. -/

def shuttleA (n : Nat) : ShCmd :=
  { id := n, opcode := 0x68, block := 0, pa := 0x10000000, leaf := 0xC, elem := 0, ctx := 0, slot := 0, m0 := 1, asid := 0, profile := 0, phase := 0, progress := 0
    paused := none, fields := [], buffer := [], seq := 0 }

def streamA (n addr : Nat) (opened : Bool) : Stream :=
  { id := n, slice := homeSlice 0x10000000, addr := addr, pa := 0x10000000, leaf := 0xC, cell := 0, elem := 0, ctx := 0, slot := 0, m0 := 1, launch := 0, asid := 0
    opened := opened, closing := false, desc := [], seat := some ⟨0, 0, 0, 0⟩, dest := none, profile := 0, next := 0, pushed := 0, popped := 0
    paused := none, ended := false, cut := false, buf := [], seq := 0 }

theorem wit_ShuttleAndStreamEnter : (State.idle demo).m0 = 0 ∧ inMask demo.m0 0 = true ∧ demo.ea 0 (.c 0) 0 = 0 ∧ demo.curCell.shuttle.length < 16 ∧
    demo.ea 0 (.c 5) 0 % 64 ≠ 0 ∧ demo.curCell.pendingBytes demo.curAsid 0 64 = false ∧
    demo.translateFor 0 demo.curAsid .load 0 = (.ok 0x10000000 0xC (2 ^ 21), demo) ∧
    16 ≤ (demo.setCell 0 fun c => { c with shuttle := (List.range 16).map shuttleA }).curCell.shuttle.length ∧
    (demo.streams.filter fun k => k.slice == homeSlice 0x10000000).length < 16 ∧
    (let s : State := { demo with streams := (List.range 16).map fun n => streamA n (64 * n) true };
      16 ≤ (s.streams.filter fun k => k.slice == homeSlice 0x10000000).length ∧ s.translateFor 0 s.curAsid .load 0 = (.ok 0x10000000 0xC (2 ^ 21), s) ∧
      s.streams.find? (fun k => k.addr == 0 && k.opened && k.launch == s.curCell.launchUid && k.asid == s.curAsid) = some (streamA 0 0 true)) ∧
    demo.streams.find? (fun k => k.addr == 0 && k.opened && k.launch == demo.curCell.launchUid && k.asid == demo.curAsid) = none := by decide +kernel

def heddleA (n : Nat) : HCmd :=
  { id := n, opcode := 0x71, words := List.replicate 8 0, offset := 0, elem := 0, ctx := 0, slot := 0, m0 := 1, asid := 0, dst := none
    started := false, paused := none, progress := 0, wovenSeq := 0, chain0 := [], chain1 := [], out := [], seq := 0 }

theorem wit_HeddleInstructions : (State.idle demo).m0 = 0 ∧ demo.m0 ≠ 0 ∧ demo.curCell.heddle.queue.length < 8 ∧
    8 ≤ (demo.setCell 0 fun c => { c with heddle := { c.heddle with queue := (List.range 8).map heddleA } }).curCell.heddle.queue.length ∧
    heddleOk 0x6C false [0x42010000, 0, 0, 0, 0, 0, 0, 0] 0 = true ∧ heddleOk 0x6D false [0x01000000, 0, 0, 0, 0, 0, 0, 0] 0xFFFE0 = true ∧
    heddleOk 0x6E false [0x01020000, 0, 0, 0, 0, 0, 0, 0] 0 = true ∧ heddleOk 0x70 true [0x300, 0, 0, 0, 0, 0, 0, 0] 0 = true ∧
    heddleOk 0x70 false [0x3F, 0, 0, 0, 0, 0, 0, 0] 0 = true ∧ heddleOk 0x71 false [0x3F, 0, 0, 0xFFF, 0, 0, 0, 0] 2048 = true ∧
    heddleOk 0x73 false [0x00FF0001, 0, 0, 0, 0, 0, 0, 0] 4 = true ∧ heddleOk 0x73 false [0x00FF0002, 0, 0, 0, 0, 0, 0, 0] 4 = false ∧
    heddleOk 0x6E false [0x01010000, 0, 0, 0, 0, 0, 0, 0] 0 = false := by decide +kernel

/-- A right triangle over a tile's corner, and the tile with its first pixel covered. -/
def corner : Lanes := [0, 0, 2048, 0, 0, 2048, 0x3F800000, 0x3F800000, 0x3F800000] ++ List.replicate 55 0
def cornerTile : Lanes := [0, 0, 0, 1, 0] ++ List.replicate 59 0

theorem wit_RasterAndCoverageResults : (Instr.edge 0 2 (.v 0) (.v 1) 2).wellFormed = true ∧
    (∃ j, j < 64 ∧ j % 8 / 4 = 63 % 8 / 4 ∧ j / 8 / 4 = 63 / 8 / 4 ∧ (1#64 <<< 63).getLsbD j = true) := ⟨by decide, 63, by decide⟩

theorem wit_RasterAndCoverageResults_barycentrics :
    let fine : LaneMask := lane cornerTile 4 ++ lane cornerTile 3
    let v := fun i => ((BitVec.ofNat 24 (lane corner i).toNat).toInt : ℚ)
    let e := fun p q => (v q - v p) * ((128 : ℚ) - v (p + 1)) - (v (q + 1) - v (p + 1)) * ((128 : ℚ) - v p)
    (∀ j, j < 64 → (fine.getLsbD j = true ↔ j = 0)) ∧ 0 < (v 2 - v 0) * (v 5 - v 1) - (v 3 - v 1) * (v 4 - v 0) ∧
    (∀ i ∈ [6, 7, 8], finite32 (lane corner i) ∧ 0 < real32 (lane corner i)) ∧
    e 2 4 * real32 (lane corner 6) + e 4 0 * real32 (lane corner 7) + e 0 2 * real32 (lane corner 8) ≠ 0 ∧ finite32 (baryVal corner cornerTile 0) := by
  have one : ∀ i ∈ [6, 7, 8], lane corner i = 0x3F800000 := by decide
  have low : (BitVec.ofNat 24 (lane corner 0).toNat).toInt = 0 ∧ (BitVec.ofNat 24 (lane corner 1).toNat).toInt = 0 ∧
    (BitVec.ofNat 24 (lane corner 2).toNat).toInt = 2048 ∧ (BitVec.ofNat 24 (lane corner 3).toNat).toInt = 0 ∧
    (BitVec.ofNat 24 (lane corner 4).toNat).toInt = 0 ∧ (BitVec.ofNat 24 (lane corner 5).toNat).toInt = 2048 := by decide
  obtain ⟨h0, h1, h2, h3, h4, h5⟩ := low
  refine ⟨by decide +kernel, ?_, fun i h => ?_, ?_, by decide +kernel⟩
  · simp only [h0, h1, h2, h3, h4, h5]; norm_num
  · rw [one i h, value_one]; exact ⟨by decide, by norm_num⟩
  · simp only [one 6 (by decide), one 7 (by decide), one 8 (by decide), value_one, h0, h1, h2, h3, h4, h5]; norm_num

/-- The codebook's first word is uncorrectable. -/
def spoiltCodes : State := { demo with upsets := [⟨.codebook 0, 0, true⟩] }

theorem wit_HeddleInstructions_codebook : (∀ x ∈ demo.upsets, x.place ≠ .codebook demo.cur.cell) ∧
    ∃ x ∈ spoiltCodes.upsets, x.double = true ∧ x.place = .codebook spoiltCodes.cur.cell ∧
      ∃ l ∈ lanesOf spoiltCodes.m0, (spoiltCodes.rd (.c 0) (l / 2)).toNat / 2 ^ (16 * (l % 2)) % 65536 / 512 = x.addr / 8 := by
  refine ⟨by decide +kernel, ⟨.codebook 0, 0, true⟩, by decide +kernel, by decide, by decide +kernel, 0, by decide +kernel⟩

theorem wit_RayStackResults : (List.replicate 16 (0 : Word)).length = 16 ∧ min ((((List.replicate 16 (0 : Word)).set 7 0xF80).getD 7 0).toNat / 256 % 16) 7 = 7 := by
  decide

/-- Lane 3 alone holds a ray from the origin along z, whose v8 is the reference; the eight constants, and the bytes at 0x10000000. -/
def tracing (v8 : Word) (consts : List Word) (bytes : List Nat) : State :=
  let s := (State.lone demo).setCell 0 fun c =>
    { c with draft := { c.draft with elems := c.draft.elems.map fun e => { e with consts := consts } }, tlb := page 0 0xA00000 0x10A00000 8 :: c.tlb }
  let s : State := { s with mem := memStore [] 0x10000000 bytes }
  s.setCtx 0 0 0 fun k => { k with v := [0, 0, 0, 0, 0, 0x3F800000, 0x7F000000, 0, v8].map (List.replicate 64) ++ k.v.drop 9 }

/-- A triangle across the ray at z = 1, and a node of one child. -/
def triangle : List Nat := ([0xBF800000, 0xBF800000, 0x3F800000, 0x40400000, 0xBF800000, 0x3F800000, 0xBF800000, 0x40400000, 0x3F800000, 5].flatMap
  (leBytes 4)) ++ List.replicate 8 0
def oneChild : List Nat := [0, 0, 0, 1]

/-- The lanes of a traversal at its firing, its reads, the bytes they give and the state they leave. -/
def tracedLanes (s : State) (leaf : Bool) : List Nat := (List.range 64).filter fun l => let r := (lane (s.vreg 8) l).toNat
  inMask s.m0 l && r != 0xFFFFFFFF && r / 2 ^ 25 % 64 == (s.rd (.c 7) 0).toNat % 64 && r.testBit 31 == leaf
def tracedReads (s : State) (leaf : Bool) : List (Nat × Nat) := (tracedLanes s leaf).flatMap fun l =>
  let r := (lane (s.vreg 8) l).toNat; let c := s.curDraft.consts
  let x := if leaf then addrConst c 2 + 48 * (r / 16 % 2 ^ 21) else addrConst c 0 + 128 * (r % 2 ^ 25)
  (List.range (if leaf then 6 * (r % 16 + 1) else 10)).map fun j => (l, (x % 2 ^ 64 + 8 * j) % 2 ^ 64)
def tracedRead (s : State) (leaf : Bool) : HubResult :=
  s.readNow 0 8 ((tracedReads s leaf).map fun l => (l.1, l.2, .ok (0x10000000 + l.2) 0xC (2 ^ 21)))
def traced (s : State) (leaf : Bool) : List Nat × State := match tracedRead s leaf with | .ok bs v => (bs, v) | _ => ([], s)
def given (r : HubResult) : Bool := match r with | .ok _ _ => true | _ => false
theorem traced_given (s : State) (leaf : Bool) (h : given (tracedRead s leaf) = true) :
    s.readNow 0 8 ((tracedReads s leaf).map fun l => (l.1, l.2, .ok (0x10000000 + l.2) 0xC (2 ^ 21))) = .ok (traced s leaf).1 (traced s leaf).2 := by
  rw [traced, ← tracedRead]; revert h; cases tracedRead s leaf <;> simp [given]
def tracedHits (s : State) (leaf : Bool) : List (Nat × Nat × Nat) :=
  (traversalResults leaf (s.rd (.c 7) 0).toNat s.curDraft.consts (tracedLanes s leaf) ((lanesOf s.m0).map fun l => (l, s.curCtx.ray l))
    (laneReads (tracedReads s leaf) (traced s leaf).1)).2

/-- The premises up to the reads. -/
abbrev traceReads (s : State) (leaf : Bool) : Prop := let ls := tracedReads s leaf; let v := (traced s leaf).2
  (tracedLanes s leaf).length = 1 ∧ (∀ x ∈ [(addrConst s.curDraft.consts 0, 128), (addrConst s.curDraft.consts 2, 16), (addrConst s.curDraft.consts 5, 8)], x.1 % x.2 = 0) ∧
  s.outstanding 0 + 1 ≤ 512 ∧ (∀ l ∈ ls, s.curCell.pendingBytes s.curAsid l.2 8 = false) ∧
  s.maps .load ls (0x10000000 + ·) (fun _ => 0xC) (fun _ => 2 ^ 21) ∧
  (∀ q ∈ s.partsAt 8 ls (0x10000000 + ·) (fun _ => 0xC) (fun _ => 2 ^ 21) (fun _ => []) (fun _ => 0), s.loadFree s.curAsid q = true) ∧
  given (tracedRead s leaf) = true ∧ v.cur = s.cur ∧ v.placed ∧
  v.curAsid = s.curAsid ∧ dieOf v.cur.cell < v.dies.length

/-- A base off its alignment; nodes on a page without a leaf. -/
theorem wit_TraversalAndPacketInstructions_refused :
    (let s := tracing 0 [4, 0, 0, 0, 0, 0, 0, 0] []; addrConst s.curDraft.consts 0 % 128 ≠ 0 ∧ addrConst s.curDraft.consts 2 = 0 ∧ addrConst s.curDraft.consts 5 = 0) ∧
    (let s := tracing 0 [0x800000, 0, 0, 0, 0, 0, 0, 0] []; let ls := tracedReads s false
      ls.length = 10 ∧ s.outstanding 0 + 1 ≤ 512 ∧ (∀ l ∈ ls, s.curCell.pendingBytes s.curAsid l.2 8 = false) ∧ firstAddr ls (fun _ => true) = 0x800000 ∧
      ∀ l ∈ ls, s.translateFor 0 s.curAsid .load l.2 = (.fault 0x01 0, s)) := by decide +kernel

/-- A malformed node; one without a hit. -/
theorem wit_TraversalAndPacketInstructions_nodes :
    (let s := tracing 0 (List.replicate 8 0) []; traceReads s false ∧
      (tracedLanes s false).filter (fun l => !nodeOk (laneReads (tracedReads s false) (traced s false).1 l)) = [3]) ∧
    (let s := tracing 0 (List.replicate 8 0) oneChild; traceReads s false ∧
      (∀ l ∈ tracedLanes s false, nodeOk (laneReads (tracedReads s false) (traced s false).1 l) = true) ∧ tracedHits s false = []) := by decide +kernel

/-- A triangle is hit, whose record lies on a page that may be written, or on one that may not. -/
def hitting (c5 : Word) : State := tracing 0x80000000 [0, 0, 0, 0, 0, c5, 0, 0] triangle

theorem hitting_reads : (traceReads (hitting 0x1000) true ∧ traceReads (hitting 0xA00000) true) ∧ (traced (hitting 0x1000) true).1 = triangle ∧
    (traced (hitting 0xA00000) true).1 = triangle := by decide +kernel

theorem wit_TraversalAndPacketInstructions_hits :
    (traceReads (hitting 0x1000) true ∧ tracedHits (hitting 0x1000) true = [(3, 0x1000, 0x3F80000000000005)]) ∧
    (traceReads (hitting 0xA00000) true ∧ tracedHits (hitting 0xA00000) true = [(3, 0xA00000, 0x3F80000000000005)]) := by
  refine ⟨⟨hitting_reads.1.1, ?_⟩, hitting_reads.1.2, ?_⟩
  · rw [tracedHits, hitting_reads.2.1]; decide +kernel
  · rw [tracedHits, hitting_reads.2.2]; decide +kernel

theorem wit_TraversalAndPacketInstructions_pages :
    (let v := (traced (hitting 0x1000) true).2; v.curCell.pending v.curAsid 0x1000 = false ∧
      v.translateFor 0 v.curAsid .atomic 0x1000 = (.ok 0x10001000 0xC (2 ^ 21), v)) ∧
    (let v := (traced (hitting 0xA00000) true).2; v.curCell.pending v.curAsid 0xA00000 = false ∧
      v.translateFor 0 v.curAsid .atomic 0xA00000 = (.fault 0x02 0, v)) :=
  ⟨⟨by decide +kernel, translate_held (e := page 0 0 0x10000000 0xC) (by decide) (by decide +kernel) (by decide +kernel) (by decide +kernel)⟩,
   by decide +kernel, translate_refused (e := page 0 0xA00000 0x10A00000 8) (by decide) (by decide +kernel) (by decide +kernel)⟩

/-- Reads of uncached memory that nobody holds. -/
theorem wit_TraversalAndPacketInstructions_reads : leafCp 0x100C = 2 ∧ inMmio 0x10200000 = false ∧ demo.sound ∧ demo.busyLine 0x10200000 = false ∧
    demo.uncopied (lineOf 0x10200000) 128 := by decide +kernel

/-- Output channel 0 leads to the entry queue of stage 0, input channel 0 holds a ray header. -/
def packets : State :=
  { (State.setCell graph 0 fun c =>
      { c with draft := { c.draft with elems := c.draft.elems.map fun e => { e with routes := (3 * 2 ^ 30 + 3 * 2 ^ 28) :: e.routes.drop 1 } }
               elems := c.elems.map fun e => { e with ins := ⟨[⟨0x80000040, [], none, none⟩], 0⟩ :: e.ins.drop 1 } }) with
    queues := [{ launch := 1, stage := 0, capacity := 17, homeDie := 0, items := [], granted := 0, lastServed := 0, inDispatch := none, aside := []
                 growSince := none, shrinkSince := none }] }

theorem wit_TraversalAndPacketInstructions_packets : packets.placed ∧ packets.m0 ≠ 0 ∧ packets.queueRoom 0 0 0 = 17 ∧
    packets.routeTarget packets.curCell (packets.routeOf 0 0 0) = some (.queue 1 0) ∧ packets.queueRoom 0 0 7 < 17 ∧
    (packets.curElem.chan 0).tokens = [⟨0x80000040, [], none, none⟩] ∧ (0x80000040 % 128 = 64 ∧ 64 ≤ ((List.range 64).filter (inMask packets.m0)).length) ∧
    ((List.range 64).filter (inMask (State.lone packets).m0)).length < 64 ∧ (packets.curElem.chan 7).tokens = [⟨0, [], none, none⟩] := by decide +kernel

/-- A tile at 0x10000 with its control row, after which stand the entries of its reorder area; the head token has a tag. -/
def blending (row : List Nat) (tag : Nat) : State :=
  scratch.setCell 0 fun c => { c with
    sram := memStore [] 0x12000 (row ++ leBytes 4 0x80000001)
    elems := c.elems.map fun e => { e with ins := ⟨[⟨BitVec.ofNat 32 tag, [], none, none⟩], 0⟩ :: e.ins.drop 1 } }

/-- A control row: EXPECT, the capacity and the count of the reorder area, the spill count and its limit. -/
def control (expect cap count spilled limit : Nat) : List Nat :=
  leBytes 4 expect ++ leBytes 2 cap ++ leBytes 2 count ++ leBytes 4 0 ++ leBytes 4 spilled ++ leBytes 8 0x1000 ++ leBytes 4 limit ++ leBytes 4 0

/-- The premises of a token that is taken; `g` is how far ahead of its turn it is. -/
def blends (s : State) (tag g : Nat) : Bool := decide <| let T := (s.rd (.c 7) 0).toNat % 2 ^ 20
  let f := fun (o len : Nat) => memNat s.curCell.sram (T + 0x2000 + o) len
  s.placed ∧ T = 0x10000 ∧ ((s.curElem.chan 0).tokens.map (·.tag.toNat)) = [tag] ∧ s.curCell.scratchRange T 0x2020 = true ∧
  (f 0 4 < 2 ^ 23 ∧ f 4 2 ≤ 64 ∧ f 6 2 ≤ f 4 2 ∧ f 8 1 < 16 ∧ f 9 3 = 0 ∧ f 12 4 ≤ f 24 4 ∧ f 16 8 % 32 = 0 ∧ f 28 4 = 0) ∧
  s.curCell.scratchRange (T + 0x2020) (288 * f 4 2) = true ∧ tag / 2 ^ 28 % 4 ≠ 3 ∧ (tag % 2 ^ 23 + 2 ^ 23 - f 0 4) % 2 ^ 23 = g ∧ g < 2 ^ 22 ∧
  ∀ x ∈ s.upsets, x.place ≠ .sram s.cur.cell

/-- A due token; a due FINAL one, behind which a held one is due; an early one with room in the reorder area; early ones that spill, and one with a
full list. -/
theorem wit_BlendingResults_due : blends (blending (control 0 1 0 0 0) 0) 0 0 ∧
    (let s := blending (control 0 1 1 0 0) 0x80000000; blends s 0x80000000 0 ∧ memNat s.curCell.sram 0x1200C 4 = 0 ∧
      (blendEntry (memBytes s.curCell.sram 0x12020 288)).1 = 0x80000001) ∧
    (let s := (blending (control 0 1 1 0 0) 0x80000000).setCell 0 fun c => { c with sram := memStore c.sram 0x12023 [0] }
     blends s 0x80000000 0 ∧ (blendEntry (memBytes s.curCell.sram 0x12020 288)).1 = 1) := by decide +kernel

theorem wit_BlendingResults_early : blends (blending (control 0 1 0 0 0) 1) 1 1 ∧ blends (blending (control 0 1 0 1 2) 1) 1 1 ∧
    blends (blending (control 0 1 1 2 2) 2) 2 2 := by decide +kernel

theorem wit_BlendingResults_spilled : let s := blending (control 0 1 1 0 2) 2; blends s 2 2 ∧
    (∀ j ∈ List.range 9, s.curCell.pending s.curAsid (0x1000 + 32 * j) = false) ∧
    s.maps .store ((List.range 9).map fun j => (0, (0x1000 + 288 * 0 + 32 * j) % 2 ^ 64)) (0x10000000 + ·) (fun _ => 0xC) (fun _ => 2 ^ 21) := by decide +kernel

/-- A misaligned tile; one outside the scratchpad; a bad control row; a reserved rate, and a token of an earlier turn. -/
theorem wit_BlendingResults_refused :
    (demo.rd (.c 6) 0).toNat % 2 ^ 20 % 32 ≠ 0 ∧ ((demo.rd (.c 7) 0).toNat % 2 ^ 20 % 32 = 0 ∧ demo.curCell.scratchRange 0 0x2020 = false) ∧
    (let s := blending (control 0 0 1 0 0) 0; s.curCell.scratchRange 0x10000 0x2020 = true ∧ ¬memNat s.curCell.sram 0x12006 2 ≤ memNat s.curCell.sram 0x12004 2) ∧
    (0x30000000 / 2 ^ 28 % 4 = 3 ∧ 2 ^ 22 ≤ (0 % 2 ^ 23 + 2 ^ 23 - 1) % 2 ^ 23) := by decide +kernel

theorem wit_BlendChannels : ¬nan32 0 ∧ nan32 0x7FC00000 ∧ finite32 0 ∧ finite32 0x3F800000 := by decide

/-! Witnesses: events of the memory system. -/

/-- The current context has one access of four bytes outstanding. -/
def accessA (op : AccOp) (res : Result) (pa leaf : Nat) (data : List Nat) (st : PartSt) (bound : List Nat) : Access :=
  { demo.newAccess op res 0x108 true true 1 [] with
    parts := [{ lane := 0, va := 0, pa := pa, size := 4, leaf := leaf, page := 2 ^ 21, data := data, word := 0, st := st, bound := bound, since := 0 }] }

def lineA (pa : Nat) (st : CchState) : CchLine :=
  { pa := pa, way := 88, st := st, data := (List.range 128), dirty := 3, descs := [0, 0], descDirty := 0, recent := false
    holdUntil := if st = .modified then 500 else 0, described := false }

/-- The access is outstanding, and cell 1 may hold a line. -/
def waiting (a : Access) (ls : List CchLine) : State := { demo with accs := [a], cells := demo.cells ++ [{ Cell.blank 1 with cch := ls }] }

theorem wit_HomeAndRecallEvents_requests :
    (let a := accessA .load (.regs 4 1) 0x10200000 0x100C [] .waiting [];
     ∀ ls ∈ [[], [lineA 0x10200000 .modified]], let s := waiting a ls;
      s.acc? 1 = some a ∧ s.loaded a.cell = true ∧ (∀ p ∈ a.parts, p.st = .waiting ∧ s.blocked a 0 p = false ∧ leafCp p.leaf = 2) ∧
      s.locked 0x10200000 = false ∧ s.recalling 0x10200000 = false ∧ inMmio 0x10200000 = false ∧ s.sound ∧ a.opcode ≠ 0x50 ∧
      s.conflicts (lineOf 0x10200000) a.isStore none = (ls.map fun _ => 1) ∧ s.copySpoiled 1 (lineOf 0x10200000) = false) ∧
    (let a := accessA .store .none 0x10200000 0x100C [1, 2, 3, 4] .waiting []; let s := waiting a [];
      s.acc? 1 = some a ∧ (∀ p ∈ a.parts, s.blocked a 0 p = false) ∧ s.conflicts (lineOf 0x10200000) a.isStore none = []) := by decide +kernel

theorem wit_HomeAndRecallEvents_fill :
    let a := accessA .load (.regs 4 1) 0x10000000 0xC [] .waiting []; let s := waiting a [];
    s.acc? 1 = some a ∧ (∀ p ∈ a.parts, p.st = .waiting ∧ s.blocked a 0 p = false ∧ leafCp p.leaf = 0 ∧ leafSm p.leaf = false) ∧
    s.locked 0x10000000 = false ∧ s.recalling 0x10000000 = false ∧ moduleOf 0x10000000 = s.hub.modnum ∧ hintOf a.profile = 0 ∧ s.upsets = [] ∧
    s.uncopied (lineOf 0x10000000) 128 ∧ s.dir.find? (·.region == lineOf 0x10000000 / 4096) = none ∧ s.dir.length < 16 ∧
    (s.cell a.cell).fillWay (lineOf 0x10000000) = some (88, none) ∧
    s.sliceTouch 0x10000000 0 = { s with plru := (s.sliceTouch 0x10000000 0).plru, sliceLines := (s.sliceTouch 0x10000000 0).sliceLines } := by
  decide +kernel

theorem wit_HomeAndRecallEvents_recalls : ∀ p ∈ [(CchState.modified, 499), (.modified, 500), (.exclusive, 0)],
    let l := lineA 0x10000000 p.1; let s := { waiting (accessA .load .none 0 0 [] .waiting []) [l] with recalls := [⟨0x10000000, [1], false⟩], time := p.2 };
    s.recalls.find? (·.line == 0x10000000) = some ⟨0x10000000, [1], false⟩ ∧ s.copyOf 1 0x10000000 = some l ∧ l.coherent = true ∧
    l.data.length = 128 ∧ l.descDirty = 0 ∧ (p.2 = 499 → l.st = .modified ∧ s.time < l.holdUntil) ∧
    (p.2 ≠ 499 → (l.st ≠ .modified ∨ l.holdUntil ≤ s.time)) ∧ (p.2 = 500 → l.holdUntil ≠ 0 ∧ l.holdUntil ≤ s.time) := by decide +kernel

/-- The host agent holds the line. -/
theorem wit_HomeAndRecallEvents_host : let l := lineA 0x10000000 .exclusive; let r : Recall := ⟨0x10000000, [2048, 1], false⟩
    let s := { waiting (accessA .load .none 0 0 [] .waiting []) [] with recalls := [r], hostCopies := [l], time := 500 }
    s.recalls.find? (·.line == 0x10000000) = some r ∧ s.copyOf 2048 0x10000000 = some l ∧ l.coherent = true ∧ l.st ≠ .modified ∧
    r.holders.filter (· != 2048) ≠ [] := by decide +kernel

/-- A fence of the current context over access 1. -/
def fenceA : Fence := ⟨2, 0, 0, 0, 0, 2, 4, [1], [], some 0⟩

theorem wit_AccessEndEvents :
    (let a := accessA .load (.regs 14 2) 0x10000000 0xC [] .done [1, 2, 3, 4]; let s := waiting a [];
      s.hasCtx a.cell a.elem a.ctx ∧ s.acc? a.id = some a ∧ (∀ p ∈ a.parts, p.st = .done ∧ p.word ≠ 2 ^ 64) ∧ s.validating a.id = false) ∧
    (let a := accessA .store .none 0x10000000 0xC [1, 2, 3, 4] .done []; let s := waiting a [];
      s.acc? a.id = some a ∧ (∀ r ∈ s.arrivals, r.source ≠ a.id) ∧ ∀ e ∈ (s.cell a.cell).sideLog, e.id ≠ a.id) ∧
    (let a := accessA .store .none 0x10000000 0xC [1, 2, 3, 4] .waiting []; let s := { waiting a [] with fences := [fenceA] };
      s.hasCtx fenceA.cell fenceA.elem fenceA.ctx ∧ s.acc? fenceA.id = none ∧ s.fences.find? (·.id == fenceA.id) = some fenceA ∧
      (∃ m ∈ fenceA.marked, s.liveAt fenceA.scope m = true) ∧ (∀ m ∈ fenceA.marked, ({ s with accs := [] } : State).liveAt fenceA.scope m = false) ∧
      (∀ m ∈ fenceA.reads, m ∉ s.unread 0 0 0 0) ∧ ∃ m ∈ ({ fenceA with seq := 1, reads := [91] } : Fence).reads, m ∈ commanding.unread 0 0 0 1) ∧
    (∀ p ∈ [0x109, 0x108], let a := { accessA .store .none 0x10000000 0x18C [1, 2, 3, 4] .inCell [] with profile := p, told := false }; let s := waiting a [];
      s.hasCtx a.cell a.elem a.ctx ∧ s.acc? a.id = some a ∧ (∃ q ∈ a.parts, q.st = .inCell) ∧ (∀ r ∈ s.arrivals, r.source ≠ a.id) ∧
      (∀ e ∈ (s.cell a.cell).sideLog, e.id ≠ a.id) ∧ (p = 0x109 → scopeOf a.profile ≠ 0) ∧ (p = 0x108 → scopeOf a.profile = 0)) ∧
    (let a := accessA .store .none 0x10000000 0xC [1, 2, 3, 4] .waiting []; let s := { waiting a [] with time := 2000000000 * Config.ps };
      s.acc? a.id = some a ∧ a.op ≠ .prefetch ∧ (∀ p ∈ a.parts, p.since + 2000000000 * Config.ps ≤ s.time ∧ s.blocked a 0 p = false) ∧
      s.mergeOf a.id 0 = none ∧ s.reported a.id = false ∧ dieOf a.cell < s.dies.length) := by decide +kernel

def mergeA (id router operand : Nat) (path : List Nat) : MergeEntry := ⟨id, router, 0x58, 4, 0x10000000, operand, [(1, 0)], path, 0⟩

def watchA : Watch :=
  { id := 5, cell := 0, elem := 0, ctx := 0, slot := 0, pa := 0x10000000, size := 8, comparand := 0, dst := some 14, lane := 63, profile := 0x108
    holder := none, loan := false, armed := true, woken := true, value := 0, seq := 0, va := 0, asid := 0, leaf := 0xC, page := 2 ^ 21 }

def arrivalA : Arrival :=
  { id := 6, source := 1, cell := 0, elem := 0, ctx := 0, slot := 0, opcode := 0x67, lane := 0, asid := 0, launch := 1, va := 0, profile := 0, paused := none }

theorem wit_AtomicEvents :
    (∀ o ∈ [(AccOp.atomic 0x58, Result.regs 4 1), (.freg, .none), (.fres, .none)], ∀ ls ∈ [[], [lineA 0x10200000 .shared]],
      let a := accessA o.1 o.2 0x10200000 0x100C [1, 2, 3, 4] .waiting []; let s := waiting a ls;
      s.acc? 1 = some a ∧ (∀ p ∈ a.parts, s.atomicReady a 0 p = true ∧ leafCp p.leaf = 2) ∧ s.mergeOf 1 0 = none ∧ s.sound ∧
      (∀ x ∈ s.accs, x.res ≠ .none ∨ x.op = .freg ∨ x.op = .fres) ∧
      s.conflicts (lineOf 0x10200000) true none = (ls.map fun _ => 1) ∧ s.copySpoiled 1 (lineOf 0x10200000) = false) := by decide +kernel

/-- An atomic on a coherent page, whose region nobody holds. -/
theorem wit_AtomicEvents_owns : let a := accessA (.atomic 0x58) (.regs 4 1) 0x10000000 0xC [1, 2, 3, 4] .waiting []; let s := waiting a []
    (∀ p ∈ a.parts, s.atomicReady a 0 p = true ∧ leafCp p.leaf = 0 ∧ leafSm p.leaf = false) ∧ s.dir.length < 16 ∧ s.conflicts (lineOf 0x10000000) true none = [] ∧
    s.sliceTouch 0x10000000 0 = { s with plru := (s.sliceTouch 0x10000000 0).plru, sliceLines := (s.sliceTouch 0x10000000 0).sliceLines } ∧
    moduleOf 0x10000000 = s.hub.modnum ∧ s.dir.find? (·.region == lineOf 0x10000000 / 4096) = none := by decide +kernel

theorem wit_AtomicEvents_merges :
    (let e := mergeA 8 0 1 []; let s : State := { demo with merges := [e] };
      s.merges.find? (fun x => x.id == 8 && x.router == 0 && x.router != 4095) = some e ∧ e.path = []) ∧
    (let e := mergeA 8 0 1 [16]; let s : State := { demo with merges := [e, mergeA 9 16 2 []] };
      s.merges.find? (fun x => x.id == 8 && x.router == 0 && x.router != 4095) = some e ∧ e.path = 16 :: [] ∧
      (s.merges.filter (·.id != 8)).find? (fun y => y.router == 16 && y.fits e && s.mergeOpen y) = some (mergeA 9 16 2 [])) ∧
    (let e := mergeA 8 0 1 [16]; let s : State := { demo with merges := [e] };
      s.merges.filter (·.id != 8) = [] ∧ s.merges.find? (fun x => x.id == 8 && x.router == 0 && x.router != 4095) = some e) ∧
    (let e := mergeA 8 0 1 [16]; let held := (List.range 16).map fun n => { mergeA (10 + n) 16 2 [] with pa := 0x10000080 + 8 * n }
     let s : State := { demo with merges := e :: held }; let rest := s.merges.filter (·.id != 8)
      s.merges.find? (fun x => x.id == 8 && x.router == 0 && x.router != 4095) = some e ∧
      rest.find? (fun y => y.router == 16 && y.fits e && s.mergeOpen y) = none ∧ 16 ≤ (rest.filter (·.router == 16)).length ∧
      (rest.filter (·.router == 16)).head? = held.head? ∧ held.head?.map (·.path) = some []) := by decide +kernel

theorem wit_AtomicEvents_wakings :
    (let s : State := { demo with watches := [watchA] }; s.hasCtx 0 0 0 ∧ s.watches.find? (fun x => x.id == 5 && x.woken) = some watchA ∧
      s.spoiled watchA.pa watchA.size = false ∧ watchA.armed = true ∧ watchA.cell < 2 ^ 16 ∧ let u : State := { s with upsets := [⟨.memory, 0x10000000, true⟩] }
      u.spoiled watchA.pa watchA.size = true ∧ (∀ x ∈ u.accs, x.id ≠ 5) ∧ u.reported 5 = false ∧ dieOf watchA.cell < u.dies.length) := by decide +kernel

theorem wit_AtomicEvents_arrivals :
    (∀ n ∈ [0, 1, 2], let s : State := { demo with arrivals := [arrivalA], launches := [launchA], mem := memStore [] 0x10000000 [n] };
      s.arrivals.find? (fun x => x.id == 6 && x.paused.isNone) = some arrivalA ∧
      s.translateFor 0 0 .future 0 = (.ok 0x10000000 0xC (2 ^ 21), s) ∧ leafSm 0xC = false ∧ s.locked 0x10000000 = false ∧
      s.recalling 0x10000000 = false ∧ s.inTurn 0x10000000 (s.requesterNo 0) = true ∧ s.sound ∧
      s.uncopied (lineOf 0x10000000) 128 ∧ s.dir.length < 16 ∧ memNat s.mem 0x10000000 4 = n ∧ s.launch? 1 = some launchA) := by decide +kernel

def mwA (phase : MwPhase) (elder : Bool) (locked : List Nat) (pa : Nat) : MwOp :=
  { id := 7, fired := 0, pages := [2 ^ 21], cell := 0, elem := 0, ctx := 0, slot := 0, seq := 0, dst := none, pred := 2, profile := 0x108, m0 := 8, asid := 0, block := 0
    entries := [(0, pa, 0, 5)], locked := locked, phase := phase, elder := elder, start := 0, since := 0, unacked := [] }

/-- An MWCAS on one word, the line locked or not, the word holding n. -/
def swapping (m : MwOp) (ks : List LineLock) (n time : Nat) : State :=
  { demo with mwops := [m], locks := ks, mem := memStore [] 0x10000000 [n], time := time }

theorem wit_MwcasEvents_phases :
    (let m := mwA .waiting false [] 0x10000000; let s := swapping m [] 0 0;
      s.mw? m.id = some m ∧ m.entries ≠ [] ∧ s.mwReady m = true ∧
      let s : State := { s with accs := [{ accessA .store .none 0x10000000 0xC [1, 2, 3, 4] .waiting [] with seq := 0 }] }
      ({ s with mwops := [{ m with seq := 1 }] } : State).mwReady { m with seq := 1 } = false) ∧
    (∀ e ∈ [false, true], ∀ ks ∈ [[], [⟨0x10000000, 99, []⟩]], let m := mwA .locking e [] 0x10000000; let s := swapping m ks 0 0;
      s.hasCtx m.cell m.elem m.ctx ∧ s.mw? m.id = some m ∧ s.mwExpired m = false ∧ s.inTurn 0x10000000 (s.requesterNo m.cell) = true ∧
      m.lines.find? (fun l => !m.locked.contains l) = some 0x10000000 ∧ s.recalling 0x10000000 = false ∧ s.conflicts 0x10000000 true none = [] ∧
      s.locks.find? (·.line == 0x10000000) = ks.head?) ∧
    (∀ n ∈ [0, 1], let m := mwA .locking false [0x10000000] 0x10000000; let s := swapping m [⟨0x10000000, 7, []⟩] n 0;
      m.lines.find? (fun l => !m.locked.contains l) = none ∧ s.sound ∧
      s.mwTouch m = { s with plru := (s.mwTouch m).plru, sliceLines := (s.mwTouch m).sliceLines } ∧ (∀ e ∈ m.entries, e.2.1 % 8 = 0) ∧ (m.entries.map (·.2.1)).Nodup ∧
      s.mwExpired m = false ∧ (m.entries.map fun e => memNat s.mem e.2.1 8) = [n]) := by decide +kernel

theorem wit_MwcasEvents_timers :
    (let m := mwA (.queued 0x10000000) true [] 0x10000000; let s := swapping m [⟨0x10000000, 0, [7]⟩] 0 0;
      s.locks.find? (fun k => k.line == 0x10000000 && k.holder == 0) = some ⟨0x10000000, 0, [7]⟩ ∧ s.mw? 7 = some m) ∧
    (∀ e ∈ [false, true], let m := { mwA .locking e [0x10000000] 0x10000000 with entries := [(0, 0x10000000, 0, 5), (8, 0x20000000, 0, 5)] };
      let s := swapping m [⟨0x10000000, 7, []⟩] 0 (1000000000 * Config.ps); s.mwExpired m = true) ∧
    (let m := mwA .locking false [] 0x10000000; let s := swapping m [] 0 (2000000000 * Config.ps);
      m.phase = .locking ∧ m.since + 2000000000 * Config.ps ≤ s.time ∧ m.lines.find? (fun l => !m.locked.contains l) = some 0x10000000 ∧
      m.entries.find? (fun e => lineOf e.2.1 == 0x10000000) = some (0, 0x10000000, 0, 5) ∧ lowest m.m0 = some 3) ∧
    (let m := { mwA .locking false [0x10000000, 0x400000000000] 0x10000000 with entries := [(0, 0x10000000, 0, 5), (8, 0x400000000000, 0, 5)] };
     let s := swapping m [⟨0x10000000, 7, []⟩, ⟨0x400000000000, 7, []⟩] 0 (2000000000 * Config.ps);
      s.mw? 7 = some m ∧ s.commitLate m = true ∧ (∀ e ∈ m.entries, e.2.1 % 8 = 0) ∧ (m.entries.map (·.2.1)).Nodup ∧ m.entries.length ≤ 8 ∧
      m.dst = none) := by decide +kernel

/-- A fence of a context with an MWCAS under way marks it. -/
theorem wit_FenceAndMaintenanceEnter_mwcas : ∃ m ∈ (swapping (mwA .locking false [] 0x10000000) [] 0 0).mwops, sameCtx m.cell m.elem m.ctx 0 0 0 = true :=
  ⟨_, .head _, by decide⟩

/-! Witnesses: events of translation, tokens and drafts. -/

/-- Tables of ASID 7 down to the leaf of page 0, and a walk asked for. -/
def walking (leaf : Nat) : State :=
  let put := fun (m : List Host.Cell) (p : Nat × Nat) => memStore m p.1 (leBytes 8 p.2)
  { demo with
    hub := { demo.hub with asidEn := true, asidBase := 0x300 }
    mem := [(0x18000038, 0x100010001), (0x10001000, 0x100020001), (0x10002000, 0x100030001), (0x10003000, 0x100040001), (0x10004000, 0x100050001),
      (0x10005000, leaf)].foldl put []
    walks := [⟨3, 0, [0], 7, 0⟩] }

theorem wit_TranslationEvents_walks :
    (∀ leaf ∈ [0x10400000F, 0, 1, 0x10400800F], let s := walking leaf;
      s.hub.asidEn = true ∧ (s.die 0).tableCache = [] ∧ (∀ c ∈ s.cells, c.cch = []) ∧ s.hostCopies = [] ∧ s.locks = [] ∧ s.recalls = [] ∧ s.sound ∧
      s.tableCause 0 0x18000000 = none ∧ (memNat s.mem 0x18000038 8).testBit 0 = true ∧ s.tableCause 7 0x10001000 = none ∧
      ∀ t ∈ [0x10001000, 0x10002000, 0x10003000, 0x10004000], (memNat s.mem t 8).testBit 0 = true ∧ (memNat s.mem t 8).testBit 1 = false ∧
        memNat s.mem t 8 / 2 ^ 16 % 2 ^ 40 * 4096 = t + 4096 ∧ s.tableCause 7 (t + 4096) = none) ∧
    (∀ leaf ∈ [0x10400000F, 0], let s := walking leaf; s.walks.find? (·.id == 3) = some ⟨3, 0, [0], 7, 0⟩ ∧ s.loaded 0 = true ∧ 0 < s.dies.length ∧
      ((s.walks.takeWhile (·.id != 3)).filter (·.die == 0)).length < 768 ∧ (leaf = 0 → (s.walk 0 7 0).1 = .cause 0) ∧
      (leaf ≠ 0 → (s.walk 0 7 0).1 = .leaf leaf 0x10005000 0 ∧ leaf.testBit 13 = false ∧ (s.walk 0 7 0).2.homeWaits 0x10005000 true = false ∧
        leafFault .load true 0x10400000 leaf = none)) := by
  decide +kernel

/-- A table's line is kept by cell 1, or its word is uncorrectable; 768 walks stand before the walk. -/
theorem wit_TranslationEvents_held :
    (let s := { walking 0 with cells := demo.cells ++ [{ Cell.blank 1 with cch := [lineA 0x10005000 .modified] }] }; (s.walk 0 7 0).1 = .waits) ∧
    (let s := { walking 0 with upsets := [⟨.memory, 0x10005000, true⟩] }; (s.walk 0 7 0).1 = .bad) ∧
    (let s : State := { walking 0 with walks := ((List.range 768).map fun n => ⟨10 + n, 0, [0], 7, 0⟩) ++ [⟨3, 0, [0], 7, 0⟩] };
      768 ≤ ((s.walks.takeWhile (·.id != 3)).filter (·.die == 0)).length) := by decide +kernel

def invA (begun : Bool) : TlbInv := ⟨4, 0, 0, 0, 0, 0, 0x200000, begun, [], [], some 1⟩

theorem wit_TranslationEvents_invalidations : ∀ b ∈ [false, true], let s : State := { demo with invs := [invA b] };
    s.invs.find? (·.id == 4) = some (invA b) ∧ (∀ i ∈ (invA b).before, s.storePending i = false) ∧ (∀ i ∈ (invA b).waitFor, s.using false i = false) ∧
    s.hasCtx 0 0 0 ∧
    ∃ a ∈ (waiting { accessA .load .none 0x10200000 0x100C [] .waiting [] with
        parts := [{ lane := 0, va := 0x200040, pa := 0x10200040, size := 4, leaf := 0x100C, page := 2 ^ 21, data := [], word := 0, st := .waiting
                    bound := [], since := 0 }] } []).accs, a.op ≠ .prefetch ∧
      ∃ q ∈ a.parts, q.st = .waiting ∧ namedPage (invA b).form (invA b).asid (0x200000 % 2 ^ 57) a.asid q.va q.page = true := by decide +kernel

/-- An earlier store that is not performed, and a use that is performed in a cell alone, hold an invalidation back. -/
theorem wit_TranslationEvents_used :
    (let v := { invA false with before := [1] }; let s := { waiting (accessA .store .none 0x10000000 0xC [1, 2, 3, 4] .waiting []) [] with invs := [v] }
     s.invs.find? (·.id == v.id) = some v ∧ ∃ a ∈ s.accs, a.id ∈ v.before ∧ ∃ p ∈ a.parts, p.st ≠ .done) ∧
    (let v := { invA true with waitFor := [1] }; let s := { waiting (accessA .store .none 0x10000000 0xC [1, 2, 3, 4] .inCell []) [] with invs := [v] }
     s.invs.find? (·.id == v.id) = some v ∧ v.cell ≠ hubActor ∧ ∃ a ∈ s.accs, a.id ∈ v.waitFor ∧ ∃ p ∈ a.parts, p.st = .inCell) := by decide +kernel

/-- A store of lane 5 to an address of the first page, in the side log. -/
def sideA (va : Nat) : SideEntry :=
  { id := 11, elem := 0, ctx := 0, slot := 0, opcode := 0x52, seq := 0, asid := 0, page := va / 4096 * 4096, profile := 0x108
    lanes := [(5, va, [1, 2, 3, 4])], reduction := none, width := 4, descs := [], mig := some (0x10005000, 0x10400200F), order := 0, replaying := true }

def logging (e : SideEntry) : State := demo.setCell 0 fun c => { c with sideLog := [e] }

/-- The translation of a replay succeeds, faults, meets a migrating leaf, or waits for a walk under way. -/
theorem wit_TranslationEvents_replays :
    (∀ va ∈ [16, 0x800000], let e := sideA va; let s := logging e;
      s.loaded 0 = true ∧ (s.cells.map (·.id)).Nodup ∧ (s.cell 0).sideLog = [e] ∧ e.replaying = true ∧ (s.cell 0).stopped = false ∧ e.reduction = none ∧
      e.opcode ≠ 0x56 ∧ e.opcode ≠ 0x50 ∧ s.accs = [] ∧ dieOf 0 < s.dies.length ∧
      s.translateFor 0 0 .store va = (if va = 16 then .ok 0x10000010 0xC (2 ^ 21) else .fault 1 0, s)) ∧
    (let s := moving.setCell 0 fun c => { c with sideLog := [sideA 192] }
     s.translateFor 0 0 .store 192 = (.mig 0x100000C0 0x10000200F 0x20000000 0x10000200F, s)) ∧
    (let s := { logging (sideA 0x800000) with walks := [⟨3, 0, [0], 0, 0x800000⟩] }; s.translateFor 0 0 .store 0x800000 = (.busy, s)) := by decide +kernel

/-- The access of the entry is under way: it has a part in another page, or is done in the page. -/
theorem wit_TranslationEvents_replayed : ∀ st ∈ [PartSt.waiting, .done], let e := sideA 16
    let a := { accessA .store .none 0x10000010 0xC [1, 2, 3, 4] st [] with
      id := 11, parts := [{ lane := 5, va := if st = .done then 16 else 0x1000, pa := 0x10000010, size := 4, leaf := 0xC, page := 2 ^ 21
                            data := [1, 2, 3, 4], word := 0, st := st, bound := [], since := 0 }] }
    let s := { logging e with accs := [a] }
    s.acc? e.id = some a ∧ s.acc? a.id = some a ∧ (st = .waiting → ∀ p ∈ a.parts, p.va / 4096 * 4096 ≠ e.page) ∧
    (st = .done → (s.cell a.cell).sideLog = [e] ∧ e.id = a.id ∧ (∀ p ∈ a.parts, p.st = .done) ∧ (∃ p ∈ a.parts, p.va / 4096 * 4096 = e.page) ∧ s.arrivals = []) := by
  decide +kernel

/-- Context 0 waits for a leaf whose line has been written, with the loads of two lanes. -/
def awaitingLeaf (s : State) (vas : List Nat) : State := s.setCtx 0 0 0 fun k => { k with wait := some (.migLeaf 0x10005000 0x10400200F 0 vas .load) }

theorem getD_of_all {α : Type} {P : α → Prop} (xs : List α) (i : Nat) (d : α) (h : ∀ x ∈ xs, P x) (hd : P d) : P (xs.getD i d) := by
  rw [List.getD_eq_getElem?_getD]
  cases hi : xs[i]? with
  | none => exact hd
  | some x => exact h x (List.mem_of_getElem? hi)

theorem noWaits (s : State) (h : (s.cells.all fun c => c.elems.all fun e => e.ctxs.all (·.wait.isNone)) = true) (c e x : Nat) :
    (s.ctxOf c e x).wait = none := by
  have blank : ∀ k ∈ Elem.blank.ctxs, k.wait = none := by decide
  have elem : ∀ k : Elem, (∀ q ∈ k.ctxs, q.wait = none) → (k.ctx x).wait = none := fun k hk => getD_of_all _ _ _ hk rfl
  have cell : ∀ k : Cell, (∀ j ∈ k.elems, ∀ q ∈ j.ctxs, q.wait = none) → ((k.elem e).ctx x).wait = none := fun k hk =>
    elem _ (getD_of_all (P := fun j : Elem => ∀ q ∈ j.ctxs, q.wait = none) _ _ _ hk blank)
  refine cell _ ?_
  rw [State.cell]
  cases hf : s.cells.find? (·.id == c) with
  | some k =>
    intro j hj q hq
    simpa using List.all_eq_true.1 (List.all_eq_true.1 (List.all_eq_true.1 h k (List.mem_of_find?_eq_some hf)) j hj) q hq
  | none => intro j hj; rw [List.eq_of_mem_replicate hj]; exact blank

/-- No context waits, or context 0 alone does. -/
theorem wit_TranslationEvents_waiters : (∀ c e x, (demo.ctxOf c e x).wait = none) ∧ ∀ c e x, (c, e, x) ≠ (0, 0, 0) → ((awaitingLeaf demo [0, 8]).ctxOf c e x).wait = none := by
  have h := noWaits demo (by decide +kernel)
  exact ⟨h, fun c e x hn => by rw [awaitingLeaf, State.ctxOf_setCtx_ne _ _ _ _ _ _ _ _ (by decide +kernel) hn]; exact h c e x⟩

/-- Its lanes all succeed, one faults, one waits for a walk, or the second meets MIG = 1. -/
theorem wit_TranslationEvents_leaves :
    (let s := awaitingLeaf demo [0, 8]; s.hasCtx 0 0 0 ∧ (s.cells.map (·.id)).Nodup ∧
      (s.ctxOf 0 0 0).wait = some (.migLeaf 0x10005000 0x10400200F 0 [0, 8] .load) ∧ s.coherentNat 0x10005000 8 ≠ 0x10400200F ∧ lineOf 0x10005000 = 0x10005000 ∧
      ∀ va ∈ [0, 8], s.translateFor 0 0 .load va = (.ok (0x10000000 + va) 0xC (2 ^ 21), s)) ∧
    (let s := awaitingLeaf demo [0, 0x800000]; (s.translateFor 0 0 .load 0x800000) = (.fault 1 0, s)) ∧
    (let s := awaitingLeaf { demo with walks := [⟨3, 0, [0], 0, 0x800000⟩] } [0, 0x800000]; (s.translateFor 0 0 .load 0x800000) = (.busy, s)) ∧
    (let s := awaitingLeaf (moving.setCell 0 fun c => { c with tlb := [page 0 0x200000 0x10200000 0x100C] }) [0x200000, 192]
     s.translateFor 0 0 .load 0x200000 = (.ok 0x10200000 0x100C (2 ^ 21), s) ∧
      s.translateFor 0 0 .load 192 = (.mig 0x100000C0 0x10000200F 0x20000000 0x10000200F, s)) := by decide +kernel

theorem wit_TranslationEvents_scrubs : let u : Upset := ⟨.memory, 0x10000000, false⟩; let v : Upset := ⟨.sram 0, 8 * 8192, false⟩
    let w : Upset := ⟨.sliceData, 0x10000100, true⟩
    (let s : State := { demo with upsets := [w] }; (∀ l ∈ s.sliceLines, l.line = lineOf w.addr → l.dirty = false) ∧ w ∈ s.upsets) ∧
    let s : State := { demo with upsets := [u, v, ⟨.memory, 0x10000008, true⟩], time := 256000000 * Config.ps }
    (∀ n < 384, s.persistNext.getD n 0 ≤ s.time) ∧ (∀ x ∈ s.upsets, x.double = true → x.place ≠ .sliceData) ∧
    (s.upsets.filter fun x => ([Place.memory, .sliceData, .sliceTag, .directory].contains x.place && homeSlice x.addr == homeSlice 0x10000000) && !x.double) =
      [u] ∧ homeSlice 0x10000000 / 48 < s.dies.length ∧ (s.cell 0).role (v.addr / 8192) ≠ .off := by decide +kernel

def tok : Token := ⟨7, [], some ⟨1, 0, 0, 0⟩, none⟩
def queueA (items : List QItem) : StageQueue :=
  { launch := 1, stage := 0, capacity := 16, homeDie := 0, items := items, granted := 1, lastServed := 0, inDispatch := none, aside := []
    growSince := none, shrinkSince := none }

/-- Two flights of one producer, a stage queue, and a cell whose draft lets tokens in at channel 3 of element 1. -/
def flowing (items : List QItem) : State :=
  { graph.setCell 0 fun c => { c with draft := { c.draft with elems := c.draft.elems.modify 1 fun e => { e with chans := [0, 0, 0, 0x80] } } } with
    queues := [queueA items]
    flights := [⟨20, .out 0 0 1, .chan 0 1 3, [tok], none⟩, ⟨21, .out 0 0 1, .chan 0 1 3, [tok], none⟩, ⟨22, .out 0 0 2, .queue 1 0, [tok], none⟩]
    grants := [⟨30, .out 0 0 1, .chan 0 2 5⟩, ⟨31, .out 0 0 2, .chan 0 2 5⟩] }

def flightA : Flight := ⟨20, .out 0 0 1, .chan 0 1 3, [tok], none⟩

/-- The first token of a producer and its next; a token of a stream that still waits for its reservation. -/
theorem wit_TokenEvents_arrivals :
    (let s := flowing []; s.flights.find? (·.id == 20) = some flightA ∧ (∀ g ∈ s.flights.takeWhile (·.id != 20), g.source ≠ .out 0 0 1) ∧
      s.hasChan 0 1 3 ∧ (∀ x ∈ List.range 4, (s.ctxOf 0 1 x).multi = none) ∧ (∃ g ∈ s.flights.takeWhile (·.id != 21), g.source = .out 0 0 1) ∧
      (∀ g ∈ s.flights.takeWhile (·.id != 22), g.source ≠ .out 0 0 2) ∧ s.queue? 1 0 = some (queueA [])) ∧
    (∀ f ∈ [(⟨23, .stream 5, .chan 0 1 3, [tok], some 9⟩ : Flight), ⟨23, .event 1 0, .queue 1 0, [tok], none⟩], let s := { flowing [] with flights := [f] };
      s.flights.find? (·.id == f.id) = some f ∧ s.flights.takeWhile (·.id != f.id) = []) ∧
    (let s := (flowing []).setCtx 0 1 2 fun k => { k with multi := some (.rayin 0 3 4 0xF (List.replicate 15 [])) };
      s.hasCtx 0 1 2 ∧ s.hasChan 0 1 3 ∧ (∀ y ∈ [0, 1, 3], (s.ctxOf 0 1 y).multi = none) ∧
      (s.ctxOf 0 1 2).multi = some (.rayin 0 3 4 0xF (List.replicate 15 []))) := by decide +kernel

/-- A request is first for a channel with room and the next is not; a channel without room. -/
theorem wit_TokenEvents_grants :
    (let s := flowing []; s.grants.find? (·.id == 30) = some ⟨30, .out 0 0 1, .chan 0 2 5⟩ ∧ s.hasRoom (.chan 0 2 5) = true ∧ s.hasChan 0 2 5 ∧ s.loaded 0 = true ∧
      1 < ((s.cell 0).elem 0).outs.length ∧ (∀ x ∈ s.grants.takeWhile (·.id != 30), x.target ≠ .chan 0 2 5) ∧
      ∃ x ∈ s.grants.takeWhile (·.id != 31), x.target = .chan 0 2 5) ∧
    (let s := (flowing []).setElem 0 2 fun e => e.setChan 5 fun _ => ⟨[tok, tok, tok], 1⟩;
      s.grants.find? (·.id == 30) = some ⟨30, .out 0 0 1, .chan 0 2 5⟩ ∧ s.hasRoom (.chan 0 2 5) = false) := by decide +kernel

/-- Requests of a stream and of an event for a channel, and of an output, an event and a RAYOUT for a queue. -/
theorem wit_TokenEvents_producers :
    (∀ src ∈ [Producer.stream 5, .event 1 0], let s := { flowing [] with grants := [⟨30, src, .chan 0 2 5⟩], streams := [streamA 5 0 true] };
      s.grants.find? (·.id == 30) = some ⟨30, src, .chan 0 2 5⟩ ∧ s.hasRoom (.chan 0 2 5) = true ∧ s.hasChan 0 2 5 ∧ s.stream? 5 = some (streamA 5 0 true) ∧
      s.inPeriod 0 = false) ∧
    (∀ src ∈ [Producer.out 0 0 1, .event 1 0, .ray 0 0 0], ∀ n ∈ [3, 15], let s := { (flowing []).setCtx 0 0 0 (fun k => { k with multi := some (.rayout 0 1 n 0) }) with
        grants := [⟨30, src, .queue 1 0⟩] };
      s.grants.find? (·.id == 30) = some ⟨30, src, .queue 1 0⟩ ∧ s.hasRoom (.queue 1 0) = true ∧ s.queue? 1 0 = some (queueA []) ∧ s.hasCtx 0 0 0 ∧
      (s.ctxOf 0 0 0).multi = some (.rayout 0 1 n 0)) := by decide +kernel

/-- A queue whose replica is open, for a token and for a packet; one whose entry channel another contends for. -/
theorem wit_TokenEvents_dispatch :
    (∀ i ∈ [QItem.tok tok, .packet [tok, tok]], let s := flowing [i]; s.launch? 1 = some launchA ∧ s.queue? 1 0 = some (queueA [i]) ∧
      s.nextRep launchA (queueA [i]) = some 0 ∧ s.entryOfRep 1 0 0 = some (0, 1, 3) ∧ s.hasChan 0 1 3 ∧ s.servable launchA 0 (s.cell 0) = true ∧ s.entryRoom 1 0 0 = true) ∧
    (let s : State := { flowing [.tok tok] with grants := [⟨32, .out 0 0 1, .chan 0 1 3⟩] }; s.entryRoom 1 0 0 = false ∧ s.cells.length = 1) ∧
    (let q := { queueA [] with inDispatch := some (0, []) }; let s : State := { flowing [] with queues := [q] }; s.queue? 1 0 = some q) := by
  decide +kernel

/-- A packet in dispatch whose replica runs, is stopped, or is in a configuration period that another cell's DRAFTSW waits for. -/
def passing (stopped period : Bool) : State :=
  { (flowing []).setCell 0 fun c => { c with stopped := stopped } with
    cells := ((flowing []).setCell 0 fun c => { c with stopped := stopped }).cells ++ [{ Cell.blank 1 with elems := (Cell.blank 1).elems.map fun e =>
      { e with ctxs := e.ctxs.map fun k => { k with wait := some (.configPeriod 0 [⟨1, 0, 0, 0⟩]) } } }]
    regions := [{ regionA with period := period }], queues := [{ queueA [] with inDispatch := some (0, [tok]) }], grants := [] }

theorem wit_TokenEvents_packets : ∀ p ∈ [(false, false), (true, false), (false, true)], let s := passing p.1 p.2; let q := { queueA [] with inDispatch := some (0, [tok]) }
    s.queue? 1 0 = some q ∧ s.launch? 1 = some launchA ∧ launchA.uid = q.launch ∧ s.entryOfRep 1 0 0 = some (0, 1, 3) ∧ s.hasChan 0 1 3 ∧ s.inPeriod 0 = p.2 ∧
    (s.cell 0).stopped = p.1 ∧ (s.cell 0).running = true ∧ s.hasRoom (.chan 0 1 3) = true ∧ s.grants = [] ∧ s.merging 1 0 0 = false := by decide +kernel

/-- An image of NOPs, with an entry at channel 0 of element 0. -/
def imageA (check : Nat) : List Nat :=
  leBytes 4 0x54465244 ++ [1, 0, 0x40, 0x0C] ++ List.replicate 48 0 ++ leBytes 4 check ++ List.replicate 724 0 ++ 0x80 :: List.replicate 2351 0

/-- The reads of a DRAFTLD of lane 3, bound or not, and its target. -/
def draftReads (check : Nat) (st : PartSt) : Access :=
  { demo.newAccess .load .none 0x100 true false 8 [] with
    id := 13, parts := (List.range 392).map fun i =>
      { lane := 3, va := 8 * i, pa := 0x10000000 + 8 * i, size := 8, leaf := 0xC, page := 2 ^ 21, data := [], word := 0, st := st
        bound := sliceBytes (imageA check) (8 * i) 8, since := 0 } }
def drafting (check target : Nat) (st : PartSt) : State :=
  { demo with draftlds := [⟨13, 0, 0, 0, 0, 8, 0, 0x100, 0, [(3, 0, target)]⟩], accs := [draftReads check st] }

/-! The image is valid. -/

/-- The check value with each byte's step evaluated before the next. -/
def crcGo : List Nat → Nat → Nat
  | [], c => c
  | b :: bs, c => Nat.rec (crcGo bs (crcByte 0 b)) (fun n _ => crcGo bs (crcByte (n + 1) b)) c

theorem crcGo_eq : ∀ (bs : List Nat) (c : Nat), bs.foldl crcByte c = crcGo bs c
  | [], _ => rfl
  | _ :: bs, 0 => crcGo_eq bs _
  | _ :: bs, _ + 1 => crcGo_eq bs _

theorem crc_imageA : crc32 (putBytes (imageA 3654633869) 56 [0, 0, 0, 0]) = 3654633869 := by
  rw [crc32, crcGo_eq]
  decide +kernel

theorem header_imageA : headerFaults (imageA 3654633869) = [] := by
  rw [headerFaults, crc_imageA]
  decide +kernel

theorem leNat_zero (n : Nat) : leNat (List.replicate n 0) = 0 := by
  induction n with
  | zero => rfl
  | succ n ih => simp [List.replicate_succ, leNat, ih]

theorem fieldAt_zero (k o n : Nat) : fieldAt (List.replicate k 0) o n = 0 := by
  simp [fieldAt, sliceBytes, leNat_zero]

theorem elems_imageA (k e : Nat) (he : e < 4) (hk : imageA k = (imageA k).take 64 ++ (List.replicate 720 0 ++ 0x80 :: List.replicate 2351 0))
    (hl : ((imageA k).take 64).length = 64) : elemFaults (imageA k) 0 e = [] := by
  have hb : ((imageA k).drop (elemBase e)).take 768 = if e = 0 then List.replicate 720 0 ++ 0x80 :: List.replicate 47 0 else List.replicate 768 0 := by
    rw [hk, List.drop_append, List.drop_eq_nil_of_le (by rw [hl]; simp [elemBase]), hl]
    match e, he with
    | 0, _ | 1, _ | 2, _ | 3, _ => decide +kernel
  have hz : nonzeroAt (imageA k) (elemBase e + 728) 40 = [] := by
    rw [hk, nonzeroAt, List.filter_eq_nil_iff]
    simp only [List.mem_map, List.mem_range, forall_exists_index, and_imp]
    rintro _ j hj rfl
    rw [List.getD_eq_getElem?_getD, List.getElem?_append_right (by rw [hl, elemBase]; omega), List.getElem?_append_right (by rw [hl, elemBase, List.length_replicate]; omega),
      hl, List.length_replicate, show elemBase e + 728 + j - 64 - 720 = elemBase e + j - 57 + 1 by rw [elemBase]; omega, List.getElem?_cons_succ,
      List.getElem?_replicate]
    split <;> simp
  have hp : parseElem (imageA k) e = ⟨List.replicate 32 0, List.replicate 64 0, List.replicate 8 0, List.replicate 8 0, List.replicate 8 0,
      if e = 0 then 0x80 :: List.replicate 7 0 else List.replicate 8 0⟩ := by
    rw [parseElem, hb]
    by_cases h0 : e = 0
    · rw [if_pos h0, if_pos h0]
      decide +kernel
    · rw [if_neg h0, if_neg h0]
      simp only [fieldAt_zero, List.map_const', List.length_range]
      rfl
  rw [elemFaults, hp, hz]
  clear hp hz hb hk hl
  match e, he with
  | 0, _ | 1, _ | 2, _ | 3, _ => decide +kernel

theorem valid_imageA : imageFault (imageA 3654633869) = none ∧ imageFault (imageA 0) = some 56 := by
  have h : ∀ k ∈ [3654633869, 0], (List.range 4).flatMap (elemFaults (imageA k) 0) = [] := fun k hk =>
    List.flatMap_eq_nil_iff.mpr fun e he => elems_imageA k e (by simpa using he) (by revert hk; revert k; decide +kernel)
      (by revert hk; revert k; decide +kernel)
  constructor
  · rw [imageFault, header_imageA, show fieldAt (imageA 3654633869) 10 2 = 0 by decide +kernel, h _ (by simp)]
    rfl
  · have hf : headerFaults (imageA 0) = [56] := by
      rw [headerFaults, show putBytes (imageA 0) 56 [0, 0, 0, 0] = putBytes (imageA 3654633869) 56 [0, 0, 0, 0] by decide +kernel, crc_imageA]
      decide +kernel
    rw [imageFault, hf, show fieldAt (imageA 0) 10 2 = 0 by decide +kernel, h _ (by simp)]
    rfl

/-- The region of the cell, which has nothing to do. -/
def resting (r : Region) : State :=
  { graph.setElem 0 0 fun e => { e with ins := List.replicate 8 ⟨[], 0⟩ } with regions := [r] }

/-- A context that waits to switch the drafts of the cells with a seat: cell 5 has it and holds a shadow draft, and stands in region 0, in a saved
region, or in none. -/
def switching (period : Bool) : State :=
  let s := demo.setCtx 0 0 0 fun k => { k with swregion := 0, wait := some (.configPeriod 0 [⟨1, 0, 0, 0⟩]) }
  { s.setCell 0 (fun c => { c with seat := some ⟨2, 0, 0, 0⟩ }) with
    cells := (s.setCell 0 fun c => { c with seat := some ⟨2, 0, 0, 0⟩ }).cells ++ [{ Cell.blank 5 with shadow := some ⟨demo.curCell.draft, 0, 0⟩, seat := some ⟨1, 0, 0, 0⟩ }]
    launches := [launchA], regions := [{ regionA with cells := [5], period := period }] }

theorem wit_DraftEvents_regions :
    (let s := resting regionA; s.regions.find? (fun x => x.die == 0 && x.index == 0) = some regionA ∧ regionA.reported = false ∧
      regionA.stopping = false ∧ s.quiescent regionA = true) ∧ graph.quiescent regionA = false ∧
    (∀ b ∈ [false, true], let s := switching b;
      s.hasCtx 0 0 0 ∧ (s.ctxOf 0 0 0).wait = some (.configPeriod 0 [⟨1, 0, 0, 0⟩]) ∧ (s.cell 0).stopped = false ∧ s.loaded 5 = true ∧
      s.regions.find? (fun r => r.cells.any fun k => (s.cell k).seat.any [⟨1, 0, 0, 0⟩].contains) = some { regionA with cells := [5], period := b } ∧
      (s.cell 5).shadow = some ⟨demo.curCell.draft, 0, 0⟩ ∧ (s.cell 5).elems.length = 4 ∧ ∀ j ∈ List.range 4, ((s.cell 5).elem j).ctxs.length = 4) := by
  decide +kernel

theorem wit_DraftEvents_saved : let s := { switching true with regions := [], saved := [] }
    s.regions.find? (fun r => r.cells.any fun k => (s.cell k).seat.any [⟨1, 0, 0, 0⟩].contains) = none ∧ s.saved = [] ∧
    let s := { s with saved := [⟨1, 0, 0, [⟨1, 0, 0, 0⟩], []⟩] }; ∃ v ∈ s.saved, ∃ q ∈ v.seats, q ∈ [(⟨1, 0, 0, 0⟩ : Seat)] := by decide +kernel

theorem wit_DraftEvents_decided :
    ∀ c ∈ [4, 0], ∀ st ∈ [PartSt.waiting, .done], let a := draftReads 3654633869 st; let s := drafting 3654633869 c st
      s.draftlds.find? (·.id == 13) = some ⟨13, 0, 0, 0, 0, 8, 0, 0x100, 0, [(3, 0, c)]⟩ ∧ s.acc? 13 = some a ∧ a.id = 13 ∧
      (a.cell, a.elem, a.ctx) = (0, 0, 0) ∧ a.profile = 0x100 ∧ a.res = .none ∧ a.done = (st == .done) ∧ s.hasCtx 0 0 0 ∧
      (c = 0 → (s.cell 0).seat ≠ none) := by
  intro c hc st hst a s
  have hd : a.done = (st == .done) := by
    simp only [a, draftReads, Access.done, List.all_map, Function.comp_def]
    revert hst; revert st; decide +kernel
  refine ⟨rfl, rfl, rfl, rfl, rfl, rfl, hd, ?_, ?_⟩
  · exact show demo.hasCtx 0 0 0 by decide +kernel
  · exact fun _ => show (demo.cell 0).seat ≠ none by decide +kernel

/-- A list cut into pieces of eight bytes. -/
theorem pieces_flatMap : ∀ (n : Nat) (l : List Nat), l.length = 8 * n → (List.range n).flatMap (fun i => sliceBytes (sliceBytes l (8 * i) 8) 0 8) = l
  | 0, l, h => by simp_all
  | n + 1, l, h => by
    have hs : ∀ i, sliceBytes l (8 * (i + 1)) 8 = sliceBytes (l.drop 8) (8 * i) 8 := fun i => by
      simp only [sliceBytes, List.drop_drop]
      rw [show 8 * (i + 1) = 8 + 8 * i by omega]
    rw [List.range_succ_eq_map, List.flatMap_cons, List.flatMap_map]
    simp only [Nat.succ_eq_add_one, hs]
    rw [pieces_flatMap n (l.drop 8) (by rw [List.length_drop]; omega)]
    have h8 : (l.take 8).length = 8 := by rw [List.length_take]; omega
    simp only [sliceBytes, Nat.mul_zero, List.drop_zero, h8, Nat.sub_self, List.replicate_zero, List.append_nil, List.take_take, Nat.min_self]
    exact List.take_append_drop 8 l

theorem wit_DraftEvents_images : ((draftReads 3654633869 .done).parts.take 392).flatMap (fun p => sliceBytes p.bound 0 8) = imageA 3654633869 ∧
    ((draftReads 0 .done).parts.take 392).flatMap (fun p => sliceBytes p.bound 0 8) = imageA 0 := by
  have h : ∀ k, ((draftReads k .done).parts.take 392).flatMap (fun p => sliceBytes p.bound 0 8) = imageA k := fun k => by
    rw [draftReads, List.take_of_length_le (by simp), List.flatMap_map]
    exact pieces_flatMap 392 (imageA k) (by
      simp only [imageA, List.length_append, List.length_cons, List.length_replicate, List.length_nil]
      rfl)
  exact ⟨h _, h _⟩

/-! Witnesses: events of engines, rays and traversals. -/

/-- A descriptor of 65 4-byte elements at 256, stride 64, to channel 1 of element 0 of a cell. -/
def descA (prof : Nat) : List Nat :=
  leBytes 8 256 ++ [64, 0] ++ List.replicate 6 0 ++ leBytes 6 64 ++ List.replicate 18 0 ++ [2, 1, 0, 0, 0, 0, 8, 3] ++ List.replicate 4 0 ++ leBytes 2 prof ++
    List.replicate 10 0

/-- A stream of the resident cell; its descriptor stands at 0x10000000. -/
def streaming (k : Stream) (prof : Nat) : State :=
  { demo with streams := [k], mem := memStore [] 0x10000000 (descA prof)
              dies := demo.dies.map fun d => { d with tlb := [page 0 0 0x10000000 0x100C] } }

theorem wit_EngineEvents_streams :
    (∀ prof ∈ [0, 0x10], let k := streamA 40 0 false; let s := streaming k prof;
      s.stream? 40 = some k ∧ s.hasCtx 0 0 0 ∧ s.fenced 0 0 0 0 8 = false ∧ s.translate none (k.slice / 48) 0 true .load 0 = (.ok 0x10000000 0x100C (2 ^ 21), s) ∧
      s.descriptionWaits 0 0 0 0 0 0 0x10000000 0x100C 64 = false ∧ s.engineLoadPiece none (k.slice / 48) 0 true .load 0 0 64 = .ok (descA prof) s ∧
      s.streamBad k (descA prof) = (if prof = 0 then none else some fFormat) ∧ dieOf 0 < s.dies.length) ∧
    (∀ n ∈ [0, 1], let k := { streamA 40 0 true with desc := descA 0, dest := some ⟨0, 0, 0, 0⟩, next := n, pushed := n, popped := n };
     let s := streaming k 0;
      s.stream? 40 = some k ∧ (∀ g ∈ s.grants, g.source ≠ .stream 40) ∧ k.pushed - k.popped < stWindow k.desc ∧ k.dest.bind s.cellOfSeat = some 0 ∧
      (s.cell 0).stopped = false ∧ s.hasCtx 0 0 0 ∧ s.dieWaits (k.slice / 48) = false ∧ stCount k.desc = 65 ∧ stPer k.desc = 64 ∧ stEsize k.desc = 4 ∧ k.cut = false ∧ k.closing = false) ∧
    (let k := { streamA 40 0 true with ended := true }; let s := streaming k 0;
      k.closing = false ∧ k.opened = true ∧ k.pushed = k.popped ∧ ∀ f ∈ s.flights, f.source ≠ .stream 40) ∧
    (let k := { streamA 40 0 true with closing := true };
     let s : State := { streaming k 0 with closes := [⟨41, 0, 0, 0, 40, 0x100, some ⟨0, 0, 0, 0⟩, 0⟩] };
      s.stream? 40 = some k ∧ s.closes.filter (·.stream == 40) = [⟨41, 0, 0, 0, 40, 0x100, some ⟨0, 0, 0, 0⟩, 0⟩] ∧ s.hasCtx 0 0 0) := by
  decide +kernel

/-- Descriptors that keep every rule and break one; a target in another launch, a channel of another width, and a stream open from the address already. -/
theorem wit_EngineEvents_descriptors :
    (∀ x ∈ descA 0, x < 256) ∧ (fieldAt (descA 0) 40 1 < 4 ∧ fieldAt (descA 0) 46 1 < 64 ∧ fieldAt (descA 0) 46 1 / 4 % 2 = 0 ∧ fieldAt (descA 0) 47 1 < 4 ∧
      fieldAt (descA 0) 48 4 < 2 ^ 31 ∧ fieldAt (descA 0) 54 8 = 0 ∧ fieldAt (descA 0) 62 2 = 0 ∧ fieldAt (descA 0) 52 2 < 2 ^ 12 ∧
      fieldAt (descA 0) 52 2 / 8 % 4 ≤ 1 ∧ fieldAt (descA 0) 41 1 = 1 ∧ fieldAt (descA 0) 42 2 ≤ 4095 ∧
      4 * [1, 16, 32, 64].getD (fieldAt (descA 0) 47 1 % 4) 0 % 2 ^ (fieldAt (descA 0) 40 1 % 4) = 0) ∧ ¬fieldAt (descA 0x10) 52 2 / 8 % 4 ≤ 1 ∧
    (let s := streaming (streamA 40 0 false) 0; s.sameLaunch 0 0 = true ∧ fieldAt (descA 0) 44 2 = 0 ∧ fieldAt (descA 0) 46 1 % 4 = 0 ∧
      fieldAt (descA 0) 46 1 / 8 % 8 = 1 ∧ ((s.cell 0).draftElem 0).chans.getD 1 0 % 4 = fieldAt (descA 0) 47 1 ∧
      (∀ x ∈ s.streams, x.id = 40)) ∧
    (streaming (streamA 40 0 false) 0).sameLaunch 0 5 = false ∧
    (let s := (streaming (streamA 40 0 false) 0).setCell 0 fun c => { c with draft := { c.draft with elems := c.draft.elems.map fun e => { e with chans := [0, 1] } } };
      ((s.cell 0).draftElem 0).chans.getD 1 0 % 4 ≠ fieldAt (descA 0) 47 1) ∧
    (let s : State := { streaming (streamA 40 0 false) 0 with streams := [streamA 40 0 false, streamA 41 0 true] }; ∃ x ∈ s.streams, x.id ≠ 40 ∧ x.opened = true ∧
      (x.addr, x.asid, x.launch) = (0, 0, 0)) := by decide +kernel

/-- The elements of an open stream are read whatever its buffer holds. -/
theorem wit_EngineEvents_elements : let k := { streamA 40 0 true with desc := descA 0, dest := some ⟨0, 0, 0, 0⟩ }
    let s := streaming k 0
    ∃ f : Nat → List Nat, ∀ n w, n < 65 → let b := s.setStream k.id fun x => { x with buf := w }
      b.engineLoad none (k.slice / 48) k.asid (k.launch == 0) (hintOf (stProf k.desc)) (stAddr k.desc n) (stEsize k.desc) = .ok (f n) b := by
  intro k s
  refine ⟨fun n => (linePieces (stAddr k.desc n) 4).flatMap fun p => memBytes s.mem (0x10000000 + (stAddr k.desc n + p.1) % 2 ^ 64) p.2,
    fun n w hn => ?_⟩
  have still : (s.setStream k.id fun x => { x with buf := w }).Still := ⟨rfl, rfl, rfl, by
    show ∀ c ∈ s.cells, c.cch = []
    decide +kernel, rfl⟩
  have held : ∀ n < 65, ∀ p ∈ linePieces (stAddr k.desc n) (stEsize k.desc), let va := (stAddr k.desc n + p.1) % 2 ^ 64
      va < 2 ^ 56 ∧ (s.tlbOf none (k.slice / 48)).find? (·.covers k.asid va) = some (page 0 0 0x10000000 0x100C) ∧
      leafFault .load (k.launch == 0) ((page 0 0 0x10000000 0x100C).paOf va) 0x100C = none ∧
      (page 0 0 0x10000000 0x100C).paOf va = 0x10000000 + va ∧ inMmio (0x10000000 + va) = false := by decide +kernel
  refine engineLoad_still still (fun p => 0x10000000 + (stAddr k.desc n + p) % 2 ^ 64) (fun _ => 0x100C) (fun _ => 2 ^ 21) fun p hp => ?_
  obtain ⟨h1, h2, h3, h4, h5⟩ := held n hn p hp
  refine ⟨?_, h5, by decide⟩
  have h := translate_held (s := s.setStream k.id fun x => { x with buf := w }) (cell := none) (die := k.slice / 48) (asid := k.asid)
    (res := k.launch == 0) (k := .load) h1 h2 h3 (by simp [Kind.writes])
  rw [h4] at h
  exact h

/-- So a stream of 65 elements reads the 64 of its first token, one state after another. -/
theorem wit_EngineEvents_pushes : let k := { streamA 40 0 true with desc := descA 0, dest := some ⟨0, 0, 0, 0⟩ }
    let s := streaming k 0
    ∃ (t : Nat → State) (f : Nat → List Nat), t 0 = s ∧ ∀ n, n < 64 → ∃ y,
      (t n).engineLoad none (k.slice / 48) k.asid (k.launch == 0) (hintOf (stProf k.desc)) (stAddr k.desc n) (stEsize k.desc) = .ok (f n) y ∧
      t (n + 1) = y.setStream k.id fun x => { x with buf := k.buf ++ (List.range (n + 1)).flatMap f } := by
  intro k s
  obtain ⟨f, h⟩ := wit_EngineEvents_elements
  exact ⟨fun n => s.setStream k.id fun x => { x with buf := (List.range n).flatMap f }, f, rfl, fun n hn => ⟨_, h n _ (by omega), rfl⟩⟩

theorem wit_EngineEvents_sums : let ws : List Int := [-8, 7]; let rows : List (List Nat) := [[0, 1], [0, 1], [0, 1], [1, 0]];
    (∀ w ∈ ws, -2 ^ (4 - 1) ≤ w ∧ w < 2 ^ (4 - 1)) ∧ ∀ j < 4, (rows.getD j []).length = 2 ∧
      ∀ r < 2, ((rows.getD j []).getD r 0).testBit 0 = (ws.getD r 0 % 2 ^ 4).toNat.testBit j := by decide

/-- Bank 64 holds accumulators, and a heddle queue. -/
def weaving (q : List HCmd) (ws : List HWatch) : State :=
  demo.setCell 0 fun c => { c with roles := c.roles + 2 * 4 ^ 56, heddle := { c.heddle with queue := q, watches := ws, counts := [0, 1, 0, 0, 0, 0, 0, 0] } }

/-- HZERO of rows at an address, in count slot 1. -/
def zeroA (rows addr : Nat) (started : Bool) : HCmd :=
  { heddleA 50 with words := [BitVec.ofNat 32 (rows - 1), BitVec.ofNat 32 addr, 0, 0x900, 0, 0, 0, 0], started := started }

theorem wit_EngineEvents_heddle :
    (∀ a ∈ [0x80000, 0x10000], let x := zeroA 2 a false; let s := weaving [x] [];
      s.loaded 0 = true ∧ s.hcmd? 0 50 = some x ∧ (s.cell 0).heddle.queue.find? (!·.started) = some x ∧ s.mayStart (s.cell 0) x = true ∧
      s.heddleFault (s.cell 0) x = (if a = 0x80000 then none else some (fHeddleShape, 0, 0x10000)) ∧ s.hasCtx 0 0 0 ∧ dieOf 0 < s.dies.length) ∧
    (let x := zeroA 2 0x80000 false; let s := weaving [{ zeroA 1 0x80000 true with id := 49 }, x] [];
      s.hcmd? 0 50 = some x ∧ (s.cell 0).heddle.queue.find? (!·.started) = some x ∧ s.mayStart (s.cell 0) x = false) ∧
    (let x := zeroA 2 0x80000 true; let s := weaving [x] [];
      s.hcmd? 0 50 = some x ∧ x.out = [] ∧ x.opcode = 0x71 ∧ (s.cell 0).stopped = false ∧ s.loadsPending 0 0 0 0 = false ∧ s.cellWaits 0 0 0 = false) ∧
    (let x := { heddleA 50 with opcode := 0x6E, words := [0x02010000, 0x10000, 0x80000, 0, 0, 0, 0, 0], started := true }; let s := weaving [x] [];
      s.hcmd? 0 50 = some x ∧ x.out = [] ∧ x.woven = false ∧ s.upsets = [] ∧ s.loadsPending 0 0 0 0 = false ∧ s.cellWaits 0 0 0 = false) ∧
    (∀ p ∈ [0, 64], ∀ rows ∈ [[(0x80000, List.replicate 32 0)], [(0x80000, List.replicate 32 0), (0x80020, List.replicate 32 0)]],
      let x := { zeroA 2 0x80000 true with progress := p, out := rows }; let s := weaving [x] [⟨0, 0, 2, [50]⟩];
      s.hcmd? 0 50 = some x ∧ x.out ≠ [] ∧ (s.cell 0).stopped = false ∧ s.loadsPending 0 0 0 0 = false ∧ s.cellWaits 0 0 0 = false ∧
      syncSeten x.words = true ∧ x.woven = false ∧ (p = 64 → x.steps ≤ x.progress / x.unit + 1) ∧ (p = 0 → x.progress / x.unit + 1 < x.steps) ∧
      s.hasCtx 0 0 0) := by decide +kernel

/-- One row of a product over a woven row: 1 bit of weight, 2 planes of activations, 256 deep. -/
def wovenA (acc : Bool) : HCmd :=
  { heddleA 60 with opcode := 0x6E, words := [0x22010000 + if acc then 0x80000000 else 0, 0x10000, 0x80000, 0, 0, 0, 0, 0], started := true }

/-- The cell at a position of a woven row of two. -/
def wovenAt (id pos : Nat) (x : HCmd) : Cell :=
  { demo.curCell with id := id, seat := some ⟨1, 0, 0, pos⟩, draft := { demo.curCell.draft with woven := 1, pos := pos }
                      heddle := { demo.curCell.heddle with queue := [x] } }

theorem wit_EngineEvents_woven :
    (let x := wovenA false; let s : State := { demo with cells := [wovenAt 0 0 x, wovenAt 1 1 x] };
      s.upsets = [] ∧ s.hcmd? 0 60 = some x ∧ x.woven = true ∧ x.progress / x.unit < x.steps ∧ s.wovenRow (s.cell 0) = [some 0, some 1] ∧
      s.rowCommand (some 1) x.wovenSeq = some (1, x) ∧ s.loadsPending 0 0 0 0 = false ∧ s.wovenIn (s.cell 0) x x 1 0 = some zeroChains ∧
      mmaAcc x.words = false ∧ s.rowBad (s.cell 0) x = false ∧ s.rowGoes (s.cell 0) x = true ∧ s.hcmd? 1 60 = some x ∧ x.chain0 = [] ∧ x.out = [] ∧ s.cellWaits 0 0 0 = false) ∧
    (let x := { wovenA true with chain0 := List.replicate 256 1, chain1 := List.replicate 256 2 };
     let s : State := { demo with cells := [wovenAt 0 0 (wovenA true), wovenAt 1 1 x] };
      s.hcmd? 1 60 = some x ∧ (wovenLen (s.cell 1).draft.woven ≤ (s.cell 1).draft.pos + 1) ∧ s.rowCommand (some 1) x.wovenSeq = some (1, x) ∧
      s.rowBad (s.cell 1) x = false ∧ s.rowGoes (s.cell 1) x = true ∧ s.wovenIn (s.cell 1) x x 1 0 = some (x.chain0, x.chain1)) ∧
    (let x := wovenA false; let y := { x with words := x.words.set 0 0x22020000 }; let s : State := { demo with cells := [wovenAt 0 0 x, wovenAt 1 1 y] };
      s.upsets = [] ∧ s.hcmd? 0 60 = some x ∧ s.rowCommand (some 1) x.wovenSeq = some (1, y) ∧ s.rowBad (s.cell 0) x = true ∧
      s.wovenIn (s.cell 0) x y 1 0 = some zeroChains ∧ s.hasCtx 0 0 0 ∧ dieOf 0 < s.dies.length) := by decide +kernel

/-- SHLD's command for 16 bytes to the cell's scratchpad, with or without a flag, at a phase. -/
def moveA (phase flag progress : Nat) : ShCmd :=
  { shuttleA 70 with phase := phase, progress := progress, buffer := List.range 16, profile := 0x100
                     fields := leBytes 8 0 ++ leBytes 8 (mkRef 0 0x10040) ++ leBytes 4 16 ++ List.replicate 12 0 ++ leBytes 8 flag ++ leBytes 8 77 ++ List.replicate 16 0 }

/-- A command whose block, at 0x200000, names a copy of 16 bytes to a scratchpad. -/
def readingBlock : State :=
  { demo.setCell 0 fun c => { c with shuttle := [{ moveA 0 0 0 with block := 0x200000, fields := [], buffer := [] }] } with
    mem := memStore [] 0x10200000 (moveA 0 0 0).fields }

theorem wit_EngineEvents_blocks :
    (let x := { moveA 0 0 0 with block := 0x200000, fields := [], buffer := [] }; let s := readingBlock;
      s.shcmd? 0 70 = some x ∧ x.paused = none ∧ s.translateFor 0 0 .load 0x200000 = (.ok 0x10200000 0x100C (2 ^ 21), s) ∧
      s.descriptionWaits 0 0 0 0 0 0x200000 0x10200000 0x100C 64 = false ∧
      s.engineLoadPiece (some 0) 0 0 true .load (hintOf x.profile) 0x200000 64 = .ok (moveA 0 0 0).fields s ∧
      blockFault 0x68 0x200000 (moveA 0 0 0).fields = none) ∧
    (let s := demo.setCell 0 fun c => { c with shuttle := [moveA 0 0 0] };
      s.shcmd? 0 70 = some (moveA 0 0 0) ∧ (moveA 0 0 0).fields ≠ [] ∧ (moveA 0 0 0).phase = 0 ∧
      ((s.cell 0).shuttle.takeWhile (·.id != 70)).all (fun y => y.phase != 0 || y.paused.isSome) = true ∧ s.fenced 0 0 0 0 8 = false) := by decide +kernel

theorem wit_EngineEvents_shuttle : ∀ m ∈ [moveA 1 0 0, moveA 1 0 16, moveA 1 (mkRef 0 0x10080) 16, moveA 2 0 0, moveA 3 0 0],
    let s := demo.setCell 0 fun c => { c with shuttle := [m] };
    s.shcmd? 0 70 = some m ∧ m.paused = none ∧ (s.cell 0).stopped = false ∧ m.fields ≠ [] ∧ shLen m.fields ≤ m.buffer.length ∧
    s.loadsPending 0 0 0 0 = false ∧ s.cellWaits 0 0 0 = false ∧ isRef (shDst m.fields) = true ∧ s.spadFault 0 0 0x10040 16 = none ∧ s.spadFault 0 0 0x10080 8 = none ∧
    refCell (shDst m.fields) = 0 ∧ refSpa (shDst m.fields) = 0x10040 ∧ shFut m.fields = 0 ∧ (∀ r ∈ s.arrivals, r.source ≠ 70) ∧ s.hasCtx 0 0 0 := by
  decide +kernel

/-- The context merges a packet or waits to send one. -/
def packing (m : Multi) : State :=
  (demo.setCell 0 fun c => { c with draft := { c.draft with elems := c.draft.elems.map fun e => { e with routes := [0x40000000] } } }).setCtx 0 0 0 fun k =>
    { k with multi := some m, m := [5, 0, 0, 0] }

/-- A traversal of two lanes: lane 3 has acted and is at a leaf, lane 4 has not and goes to partition 1. -/
def traversalA : Traversal :=
  { id := 1, cell := 0, elem := 0, ctx := 0, m0 := 0x18, here := 0, acts := [3]
    after := [(3, (List.replicate 16 0).set 8 0x80000000), (4, (List.replicate 16 0).set 8 0x02000000)] }

theorem wit_RayEvents :
    (let s := packing (.rayout 0 0 16 9); s.hasCtx 0 0 0 ∧ (s.ctxOf 0 0 0).multi = some (.rayout 0 0 16 9) ∧
      s.routeTarget (s.cell 0) (s.routeOf 0 0 0) = some (.chan 0 0 0)) ∧
    (let s := packing (.rayin 0 0 2 0x8000000000000001 (List.replicate 16 [1, 2])); s.hasCtx 0 0 0 ∧
      (s.ctxOf 0 0 0).multi = some (.rayin 0 0 2 0x8000000000000001 (List.replicate 16 [1, 2])) ∧ 16 ≤ (List.replicate 16 ([1, 2] : Lanes)).length) ∧
    (let s : State := { demo with traversals := [traversalA] }; s.hasCtx 0 0 0 ∧ s.traversals.find? (·.id == 1) = some traversalA) := by decide +kernel

/-! Witnesses: events of migration and registers. -/

/-- A request of the migration engine for page 0 of ASID 7. -/
def reqA (phase : Nat) : MigReq :=
  { id := 80, block := 0x10006000, asid := 7, size := 0, dest := 1, irq := true, va := 0, frame := 0, crec := 0x10006040, phase := phase
    leafPa := 0x10005000, leaf := 0, inv := 5, flush := [], eviction := false }

/-- A request block: size and destination. -/
def blockA (size dest crec : Nat) : List Nat := [7, 0, size, dest, 1, 0, 0, 0] ++ List.replicate 16 0 ++ leBytes 8 crec

/-- The tables of ASID 7, a request and its block. -/
def migrating (r : MigReq) (b : List Nat) (leaf : Nat) (history : List PinEntry) : State :=
  let s := walking leaf
  { s with mem := memStore s.mem 0x10006000 b
           mig := { s.mig with en := true, requests := [r], history := history, free4k := [[], [0x4000100000], []] } }

/-- What a read of a request block gives, and the state it leaves. -/
def blockOf (s : State) : List Nat := match s.hubLoadPa 0x10006000 32 with | .ok b _ => b | _ => []
def afterBlock (s : State) : State := match s.hubLoadPa 0x10006000 32 with | .ok _ y => y | _ => s

theorem blockOf_given (s : State) (h : given (s.hubLoadPa 0x10006000 32) = true) : s.hubLoadPa 0x10006000 32 = .ok (blockOf s) (afterBlock s) := by
  rw [blockOf, afterBlock]; revert h; cases s.hubLoadPa 0x10006000 32 <;> simp [given]

/-- A block that does not exist, and one whose line is locked. -/
theorem wit_MigrationEvents_requests :
    (let r := { reqA 0 with block := 0x3F000000000 }; let s := migrating r [] 0 []; s.mig.requests.find? (·.id == 80) = some r ∧ s.mig.en = true ∧
      s.hubLoadPa r.block 32 = .fault 1 5 0x3F000000000) ∧
    ({ migrating (reqA 0) [] 0 [] with locks := [⟨0x10006000, 99, []⟩] } : State).hubLoadPa 0x10006000 32 = .wait := by decide +kernel

theorem wit_MigrationEvents_blocks :
    (∀ p ∈ [(0, 1, 0x10400000F), (0, 3, 0x10400000F), (1, 1, 0x10400000F), (0, 0, 0x10400000F)], let b := blockA p.1 p.2.1 0x10006040
      let s := migrating (reqA 0) b p.2.2 []; given (s.hubLoadPa 0x10006000 32) = true ∧ blockOf s = b ∧ ((afterBlock s).badReq b = true ↔ p.2.1 = 3) ∧
      s.mayRecord 0x10006040 ∧ s.atRest) := by
  decide +kernel

/-- The state in which a request of a block walks. -/
def walked (s : State) : State := (afterBlock s).setReq 80 fun _ => reqA 0

theorem wit_MigrationEvents_roots :
    ((walked (migrating (reqA 0) (blockA 0 1 0x10006040) 0 [])).migRoot 7 0 0).1 = .cause 0 ∧
    ((walked (migrating (reqA 0) (blockA 0 1 0x10006040) 0x10400000F [])).migRoot 7 0 1).1 = .unfit ∧
    ∀ e ∈ [0x10400000F, 0x10400200F, 0x10400001F], let s := migrating (reqA 0) (blockA 0 1 0x10006040) e []
      ((walked s).migRoot 7 0 0).1 = .leaf e 0x10005000 0 ∧ (e.testBit 4 = true ↔ e = 0x10400001F) ∧ (e.testBit 13 = true ↔ e = 0x10400200F) ∧
      s.frameOk 0x10400000 4096 = true ∧ s.placementOf 0x10400000 = 0 ∧ s.pinned 7 0 = false ∧ s.opposes 7 0 1 = false := by
  decide +kernel

/-- The walk leaves the state as it was, where nobody holds a copy and no bit error stands. -/
theorem wit_MigrationEvents_walks : let s := walked (migrating (reqA 0) (blockA 0 1 0x10006040) 0x10400000F [])
    s.migRoot 7 0 0 = (.leaf 0x10400000F 0x10005000 0, s) := by decide +kernel

/-- A table's line is kept by cell 1, or one of its words is uncorrectable. -/
theorem wit_MigrationEvents_tables :
    (let s := { migrating (reqA 0) (blockA 0 1 0x10006040) 0 [] with cells := demo.cells ++ [{ Cell.blank 1 with cch := [lineA 0x10005000 .modified] }] }
     given (s.hubLoadPa 0x10006000 32) = true ∧ ((walked s).migRoot 7 0 0).1 = .waits) ∧
    (let s := { migrating (reqA 0) (blockA 0 1 0x10006040) 0 [] with upsets := [⟨.memory, 0x10005000, true⟩] }
     given (s.hubLoadPa 0x10006000 32) = true ∧ (∀ c ∈ s.cells, c.cch = []) ∧ s.hostCopies = [] ∧ s.locks = [] ∧ s.recalls = [] ∧
      (∀ x ∈ s.upsets, x.place = .memory ∧ lineOf x.addr ≠ lineOf 0x10006040) ∧ ((walked s).migRoot 7 0 0).1 = .bad) := by decide +kernel

theorem wit_MigrationEvents_pins : ∀ h ∈ [(⟨7, 0, false, 0, true⟩ : PinEntry), ⟨7, 0, true, 0, false⟩],
    let b := blockA 0 1 0x3F000000000; let s := migrating (reqA 0) b 0x10400000F [h];
    given (s.hubLoadPa 0x10006000 32) = true ∧ blockOf s = b ∧ (s.pinned 7 0 = true ∨ s.opposes 7 0 1 = true) ∧
    (h.pinned = false → s.pinned 7 0 = false ∧ s.opposes 7 0 1 = true) ∧ ¬s.mayRecord 0x3F000000000 ∧ s.badReq b = false ∧ s.atRest ∧
    ((walked s).migRoot 7 0 0).1 = .leaf 0x10400000F 0x10005000 0 := by decide +kernel

theorem wit_MigrationEvents_pages :
    (∀ p ∈ [(4, 0x10400200F), (5, 0x10400200F), (3, 0x10400000F), (3, 0x10400200F)], let r := { reqA p.1 with frame := 0x4000100000 };
     let s := migrating r [] p.2 [];
      s.mig.requests.find? (·.id == 80) = some r ∧ s.invs.any (·.id == 5) = false ∧ s.atRest ∧ s.busyLine r.leafPa = false ∧ r.leafPa % 8 = 0 ∧
      memNat s.mem r.leafPa 8 = p.2 ∧ p.2.testBit 10 = false ∧ s.mig.free4k.length = 3 ∧ s.frameOk 0x10400000 4096 = true ∧ p.2 ≠ r.leaf) ∧
    (let r := { reqA 5 with frame := 0x4000100000 }; let s := migrating r [] 0x10400240F [];
      (0x10400240F : Nat).testBit 10 = true ∧ (s.descAddr 0x4000100000 + 128 ≤ 0x4000100000 ∨ 0x4000101000 ≤ s.descAddr 0x4000100000) ∧
      (s.descAddr 0x10400000 + 128 ≤ 0x4000100000 ∨ 0x4000101000 ≤ s.descAddr 0x10400000)) ∧
    (let r := { reqA 5 with dest := 2 }; let s := migrating r [] 0x10400200F []; s.mig.free4k.getD 2 [] = [] ∧ (0x10400200F : Nat).testBit 13 = true) ∧
    (let s := migrating (reqA 5) [] 0x10400200F []; 1 < s.mig.free4k.length ∧ s.mig.free4k.getD 1 [] = [0x4000100000] ∧ s.placementOf 0x10400000 ≠ 1) ∧
    (let r := { reqA 5 with flush := [0] }; ∀ st ∈ [CchState.smPresent, .shared],
     let s := (migrating r [] 0x10400220F []).setCell 0 fun c => { c with cch := [lineA 0x10400080 st] };
      s.mig.requests = [r] ∧ (s.cell 0).cch = [lineA 0x10400080 st] ∧ s.coherentNat r.leafPa 8 / 2 ^ 16 % 2 ^ 40 * 4096 = 0x10400000 ∧ s.loaded 0 = true ∧ s.upsets = []) ∧
    (let s := migrating { reqA 4 with inv := 4 } [] 0x10400200F []; ({ s with invs := [invA true] } : State).invs.any (·.id == 4) = true) := by
  decide +kernel

/-- Free frames of GDDR are below the low watermark; a stream may hold the page. -/
def short (leaf : Nat) (ks : List Stream) : State :=
  let s := migrating (reqA 0) [] leaf []
  { s with mig := { s.mig with requests := [], low := 1, high := 2 }, streams := ks }

/-- A stream whose window stands past, or at, the first page. -/
def windowA (popped : Nat) : Stream :=
  { streamA 40 0 true with asid := 7, desc := leBytes 8 0 ++ [64, 0] ++ List.replicate 6 0 ++ leBytes 6 4096 ++ List.replicate 18 0 ++ [2, 1, 0, 0, 0, 0, 8, 1] ++
                             List.replicate 16 0, pushed := popped, popped := popped }

theorem wit_MigrationEvents_evictions :
    (∀ p ∈ [(0x10400000F, [], 0), (0x10400002F, [], 1), (0x10400000F, [windowA 0], 2), (0x10400002F, [windowA 1], 3)], let s := short p.1 p.2.1;
      s.mig.en = true ∧ s.mig.evFull = false ∧ s.mig.freeUnits 0 < 1 ∧ s.mig.mayEvict 0 = true ∧ (∀ q ∈ s.mig.requests, q.id ≠ s.nextId) ∧ s.evictable = [(7, 0, 0, 0x10005000, p.1)] ∧
      s.leafFree 0x10005000 = true ∧ s.uncopied (lineOf 0x10005000) 128 ∧ p.1.testBit 13 = false ∧ p.1.testBit 5 = (p.2.2 % 2 == 1) ∧
      s.windowState (7, 0, 0, 0x10005000, p.1) = (if p.2.2 < 2 then none else if p.2.2 = 2 then some none else some (some 61440))) := by
  decide +kernel

/-- The leaf's line is locked; eviction has freed enough; a pin has lapsed. -/
theorem wit_MigrationEvents_idle :
    (let s := { short 0x10400000F [] with locks := [⟨0x10005000, 99, []⟩] }; s.leafFree 0x10005000 = false ∧ s.evictable = [(7, 0, 0, 0x10005000, 0x10400000F)] ∧
      s.windowState (7, 0, 0, 0x10005000, 0x10400000F) ≠ some none) ∧
    (let s := short 0 []; let t : State := { s with mig := { s.mig with evicting := true, free4k := [List.replicate 1024 0, [], []] } };
      2 ≤ t.mig.freeUnits 0 ∧ t.mig.evFull = false) ∧
    (let p : PinEntry := ⟨7, 0, false, 0, true⟩; let s : State := { demo with mig := { demo.mig with history := [p] }, time := 1000000000 * Config.ps };
      s.mig.history[0]? = some p ∧ p.time + 1000000000 * Config.ps ≤ s.time) := by decide +kernel

/-- An eviction of a page for which there is no frame, and a ring of two records. -/
theorem wit_MigrationEvents_ring : let r := { reqA 5 with eviction := true, dest := 2, irq := false }
    let t := migrating r [] 0x10400200F []; let s : State := { t with mig := { t.mig with evq := 2 ^ 52 + 0x10007000, evp := 2 } }
    s.mig.requests.find? (·.id == 80) = some r ∧ s.busyLine r.leafPa = false ∧ s.atRest ∧ (0x10400200F : Nat).testBit 13 = true ∧
    memNat s.mem r.leafPa 8 = 0x10400200F ∧ s.mig.free4k.getD r.dest [] = [] ∧ s.mig.evq / 16 % 2 ^ 48 * 16 = 0x10007000 ∧
    s.populated 0x10007000 16 = true ∧ inMmio 0x10007000 = false := by decide +kernel

theorem wit_RegisterWrites_migration :
    (∀ a ∈ [0x4000000000, 0xFA00000000], demo.mig.en = false ∧ a / 2 ^ 21 % 2 ^ 31 * 2 ^ 21 = a ∧ moduleOf a = demo.hub.modnum ∧
      0x4000000000 ≤ localOf a ∧ localOf a ≤ lpDs demo.hub.grade) ∧
    (localOf 0xFA00200000 > lpDs demo.hub.grade ∧ localOf 0x3FFFE00000 < 0x4000000000 ∧ moduleOf (2 ^ 46) ≠ demo.hub.modnum) ∧
    (migrating (reqA 0) [] 0 []).mig.en = true ∧
    (let s : State := { demo with mig := { demo.mig with requests := List.replicate 1024 (reqA 0) } };
      1024 ≤ (s.mig.requests.filter (!·.eviction)).length ∧ (demo.mig.requests.filter (!·.eviction)).length < 1024) ∧
    (∀ p ∈ [(0x10400000, 4096), (0x10400001, 2 ^ 21)], let pa := p.1 / 2 ^ 12 % 2 ^ 40 * 4096;
      pa % p.2 = 0 ∧ demo.frameOk pa p.2 = true ∧ p.1.testBit 0 = (p.2 == 2 ^ 21) ∧ (demo.mig.free4k.getD 0 []).length < 4096 ∧
      (demo.mig.free2m.getD 0 []).length < 4096 ∧ demo.mig.free4k.length = 3 ∧ demo.mig.free2m.length = 3) ∧
    0x10401000 % 2 ^ 21 ≠ 0 ∧ demo.frameOk 0x3F000000000 4096 = false ∧
    (let s : State := { demo with mig := { demo.mig with free2m := [List.replicate 4096 0, [], []] } }; 4096 ≤ (s.mig.free2m.getD 0 []).length) := by
  decide +kernel

theorem wit_RegisterWrites_module :
    63 < demo.lqueues.length ∧ (demo.lqueue 63).pushed.length < 256 ∧ demo.hub.modWritten = false ∧ 7 < demo.dies.length ∧ demo.hub.modnum < 64 ∧
    (let s : State := { demo with lqueues := [{ LQueue.reset with pushed := List.replicate 256 0 }], hub := { demo.hub with modWritten := true } };
      256 ≤ (s.lqueue 0).pushed.length ∧ s.hub.modWritten = true ∧ 0 < s.lqueues.length) ∧
    rsRegister 0x3FF000010008 = true ∧ inMmio 0x10000000 = false ∧ moduleOf (2 ^ 46 + 0x3FF000040000) ≠ demo.hub.modnum := by decide +kernel

/-- Registers that an agent reaches or not, and the state that their writes need. -/
theorem wit_RegisterWrites_stores : demo.hub.modnum = 0 ∧
    demo.reaches .pcie 0x3FF000040000 = true ∧ demo.reaches .pcie 0x3FF100001000 = false ∧ demo.reaches .core 0x3FF100001000 = true ∧
    demo.reaches .core (2 ^ 46 + 0x3FF000040000) = false ∧ rsRegister 0x3FF000010000 = true ∧ rsRegister 0x3FF000040000 = false ∧
    demo.lqueues.length = 64 ∧ 1 < demo.hub.domgrade.length ∧ (∀ d ∈ List.range 8, (demo.die d).colpush.length = 2) ∧ demo.dies.length = 8 := by decide +kernel

/-! Witnesses: launches, the scheduler, images and power. -/

/-- Memory that holds a list of bytes. -/
def storeBytes (a : Nat) (bs : List Nat) : List Host.Cell :=
  ((bs.zip (List.range bs.length)).filter (·.1 != 0)).map fun p => (a + p.2, BitVec.ofNat 8 p.1)

/-- The cell's launch has ended, or runs, and the dies hold its translations. -/
def launched (ls : List Launch) (s : State) : State :=
  { s with launches := ls, dies := s.dies.map fun d => { d with tlb := [page 7 0 0x10000000 0x100C] } }

theorem wit_SchedulerEvents_ends :
    (∀ c ∈ [0x400, 0x410], let l := { launchA with st := .ended 0 0 5, crec := c }; let s := launched [l] graph;
      s.launch? 1 = some l ∧ (c = 0x400 → s.translate none 0 7 false .store c = (.ok 0x10000400 0x100C (2 ^ 21), s) ∧ inMmio 0x10000400 = false ∧ s.openAt 0x10000400 32 ∧
        0x10000400 % 32 = 0 ∧ l.tail = [] ∧ l.rpt = none)) ∧
    (let s : State := { resting regionA with queues := [queueA []] };
      s.launch? 1 = some launchA ∧ s.queuesEmpty 1 = true ∧ s.saved = [] ∧ ∀ r ∈ s.regions, r.launch = 1 → s.quiescent r = true ∧ r.stopping = false) ∧
    ({ resting regionA with queues := [queueA [.tok tok]] } : State).queuesEmpty 1 = false := by decide +kernel

/-- A launch that waits at the head of queue 0 for its stages; its block is at 0x10000800. -/
def headA (prio : Nat) (foot : Nat) : Launch :=
  { launchA with uid := 2, st := .waiting, prio := prio, block := 0x10000800, launchid := 10, stages := launchA.stages.map fun k => { k with foot := foot } }

/-- That launch waits; others are resident, and regions hold cells. -/
def queueing (l : Launch) (ls : List Launch) (rs : List Region) : State :=
  { State.reset with
    sched := { State.reset.sched with owed := true }, launches := ls ++ [l], regions := rs
    lqueues := State.reset.lqueues.set 0 { LQueue.reset with en := true, pushed := [0x10000800], quantum := 1 }
    dies := State.reset.dies.map fun d => { d with tlb := [page 7 0 0x10000000 0x100C] }
    mem := storeBytes 0x10000000 (imageA 3654633869) }

/-- Every user cell of die 0 is taken by launch 1. -/
def regionB : Region := { regionA with cells := List.range 160 }

theorem wit_SchedulerEvents_steps :
    State.reset.unreadHeads = [] ∧ State.reset.sched.owed = false ∧ (∃ l ∈ (queueing (headA 3 1) [{ launchA with st := .stopping }] []).launches, l.st = .stopping) ∧
    (let s : State := { queueing (headA 3 1) [] [] with lqueues := State.reset.lqueues.set 5 { LQueue.reset with en := true, pushed := [0x3F000000000, 0] }
                                                        launches := [] };
      s.sched.owed = true ∧ s.unreadHeads = [5] ∧ 5 < s.lqueues.length ∧ s.hubLoadPa 0x3F000000000 128 = .fault 1 5 0x3F000000000 ∧
      (s.lqueue 5).spliced = [] ∧ (s.lqueue 5).read = []) ∧
    (let s : State := { State.reset with sched := { State.reset.sched with owed := true } }; s.unreadHeads = [] ∧ s.order = []) ∧
    (∀ p ∈ [3, 5], let s := queueing (headA p 1) [launchA] [regionB];
      s.unreadHeads = [] ∧ (s.order.find? fun c => s.fits c s.freeCells) = none ∧ s.order = [headA p 1] ∧ s.regionsOf 1 ≠ [] ∧
      s.chooseVictims (headA p 1) (s.victimsBelow (s.effPrio 2)) [] = (if p = 5 then some [1] else none)) := by decide +kernel

/-- Launch 1 holds no region, another launch of priority 3 all cells of die 0: both are stopped for the head. -/
theorem wit_SchedulerEvents_bare : let other := { launchA with uid := 4 };
    let s := queueing (headA 5 1) [launchA, other] [{ regionB with launch := 4 }]
    s.chooseVictims (headA 5 1) (s.victimsBelow (s.effPrio 2)) [] = some [1, 4] ∧ s.regionsOf 1 = [] ∧ s.launch? 1 = some launchA ∧ launchA.rpt = none ∧
    s.unreadHeads = [] ∧ (s.order.find? fun c => s.fits c s.freeCells) = none ∧ s.order = [headA 5 1] := by decide +kernel

/-- The block of a launch of one stage and ASID 7 in queue 0, its descriptor and its stage table. -/
def blockB : List Nat := leBytes 4 0x4B4C4E43 ++ [1, 0, 7, 0, 3, 0, 0, 1, 0, 0, 0, 0] ++ leBytes 8 0x2100 ++ leBytes 8 0x2200 ++ leBytes 8 0x400 ++
  [255, 0, 0, 0] ++ leBytes 4 100 ++ leBytes 4 1 ++ List.replicate 204 0
def tablesB : List Nat := [1] ++ List.replicate 255 0 ++ List.replicate 128 0 ++ [1, 255, 1, 0, 1, 0, 1, 0, 16, 0, 0, 0] ++ leBytes 4 4 ++ leBytes 4 100 ++
  leBytes 4 1 ++ leBytes 4 100 ++ List.replicate 100 0

/-- An unread head of queue 0, its two lines read one after the other; it passes validation. -/
def unread0 : State :=
  { queueing (headA 3 1) [] [] with
    launches := [], mem := storeBytes 0x10002000 (blockB ++ tablesB)
    lqueues := State.reset.lqueues.set 0 { LQueue.reset with en := true, pushed := [0x10002000], quantum := 1 } }
def lineRead (s : State) (a : Nat) : List Nat × State := match s.hubLoadPa a 128 with | .ok b y => (b, y) | _ => ([], s)

theorem lineRead_given (s : State) (a : Nat) (h : given (s.hubLoadPa a 128) = true) : s.hubLoadPa a 128 = .ok (lineRead s a).1 (lineRead s a).2 := by
  rw [lineRead]; revert h; cases s.hubLoadPa a 128 <;> simp [given]

theorem wit_SchedulerEvents_heads : let s := unread0; let y := (lineRead s 0x10002000).2; let b := (lineRead s 0x10002000).1
    let b' := (lineRead y 0x10002080).1; let z := (lineRead y 0x10002080).2
    s.unreadHeads = [0] ∧ 0 < s.lqueues.length ∧ (s.lqueue 0).spliced = [] ∧ (s.lqueue 0).pushed = 0x10002000 :: [] ∧ (s.lqueue 0).read = [] ∧
    given (s.hubLoadPa 0x10002000 128) = true ∧ given (y.hubLoadPa 0x10002080 128) = true ∧ b ≠ [] ∧ b ++ b' = blockB ∧
    (match (z.setLqueue 0 fun k => { k with read := b ++ b' }).validate 0 0x10002000 false (b ++ b') with
     | some (_, .inr l) => (l.asid, l.prio, l.crec, l.wdog) == (7, 3, 0x400, 100)
     | _ => false) = true := by decide +kernel

theorem loads_valid (s : State) (c : Nat) (bs : List Nat) (h : s.loadImage (dieOf c) 7 0 = .ok bs s) (hv : imageFault bs = none) :
    s.loadDrafts 7 [(c, 0)] = some (s, [], [parseDraft bs]) := by
  simp only [State.loadDrafts, h, hv, Option.map_some]

theorem wit_SchedulerEvents_admission : let l := headA 3 1; let s := queueing l [] []; let k := l.stages.headD (l.stages.headD (parseStage [] 0));
    s.loadDrafts 7 [(0, 0)] = some (s, [], [parseDraft (imageA 3654633869)]) ∧ setCause [[parseDraft (imageA 3654633869)]] 255 = none ∧
    s.unreadHeads = [] ∧ s.sched.stoppingFor = none ∧ (s.order.find? fun c => s.fits c s.freeCells) = some l ∧ s.launch? 2 = some l ∧
    l.stages = [k] ∧ k.minrep = 1 ∧ k.images = [0] ∧ (placeRep s.freeCells k 0).map (·.1) = some [0] ∧ l.ptab = 0 ∧ l.rpt = none ∧
    s.queue? 2 0 = none ∧ (s.regions.any fun r => r.launch == 2 && r.die == 0) = false := ⟨loads_valid _ _ _ (by decide +kernel) valid_imageA.1, by decide +kernel⟩

theorem wit_SchedulerEvents_slices :
    (let k := parseStage (List.replicate 128 0 ++ [2] ++ List.replicate 127 0) 6; let s := queueing (headA 3 1) [] [{ regionB with die := 1, cells := [256] }];
      0 < k.foot ∧ placeRep s.freeCells k 3 = some ([512, 513], modifyAt s.freeCells 2 (·.drop 2)) ∧
      placeRep s.freeCells k 0 = some ([257, 258], modifyAt s.freeCells 1 (·.drop 2))) ∧
    (∀ p ∈ [(999999, none, 3), (1000000, none, 3), (1000000, some 0, 3), (1000000, none, 4)], let l := { launchA with boost := p.2.1 };
     let s : State := { queueing (headA p.2.2 1) [l] [regionB] with time := p.1 * Config.ps, cells := [wovenAt 0 0 (zeroA 1 0 false)] };
      s.launch? 1 = some l ∧ (p.1 = 1000000 ↔ l.lastRun + 1000000 * Config.ps * l.quantum ≤ s.time) ∧ (∀ x ∈ s.launches, x.st ≠ .stopping) ∧
      (p.2.2 = 3 → p.2.1 = none → (s.headLaunches ++ s.preemptedLaunches).find? (fun c => s.effPrio c.uid == s.effPrio 1 && !s.fits c s.freeCells) =
        some (headA 3 1)) ∧
      (p.2.2 = 4 → ((s.headLaunches ++ s.preemptedLaunches).find? fun c => s.effPrio c.uid == s.effPrio 1 && !s.fits c s.freeCells) = none) ∧
      s.cellsOf 1 = List.range 160 ∧ s.loaded 0 = true) ∧
    (∀ n ∈ [999999, 1000000], let s : State := { queueing (headA 3 1) [] [] with time := n * Config.ps };
      s.headLaunch 0 = some (headA 3 1) ∧ s.launch? 2 = some (headA 3 1) ∧
      (n = 999999 ↔ s.time < (s.lqueue 0).headSince + 1000000 * Config.ps * (headA 3 1).quantum)) := by decide +kernel

/-- A launch without a region whose quantum is over while an equal waits. -/
theorem wit_SchedulerEvents_unplaced : let s : State := { queueing (headA 3 1) [launchA, { launchA with uid := 4, prio := 4 }] [{ regionB with launch := 4 }] with
      time := 1000000 * Config.ps }
    s.launch? 1 = some launchA ∧ launchA.lastRun + 1000000 * Config.ps * launchA.quantum ≤ s.time ∧ (∀ x ∈ s.launches, x.st ≠ .stopping) ∧ s.regionsOf 1 = [] ∧
    ((s.headLaunches ++ s.preemptedLaunches).find? fun c => s.effPrio c.uid == s.effPrio 1 && !s.fits c s.freeCells) = some (headA 3 1) ∧
    launchA.st = .resident ∧ launchA.quantum ≠ 0 ∧ launchA.boost = none ∧ launchA.rpt = none := by decide +kernel

/-- A stage queue of the cell's launch is sampled. -/
def sampling (items : List QItem) (grow shrink : Option Nat) (k : Stage → Stage) (time : Nat) : State :=
  let s := launched [{ launchA with stages := launchA.stages.map k }] graph
  { s with queues := [{ queueA items with growSince := grow, shrinkSince := shrink }], time := time, mem := storeBytes 0x10000000 (imageA 3654633869) }

theorem wit_SchedulerEvents_dobby :
    (sampling [] none none id (999999 * Config.ps)).time < ((sampling [] none none id (999999 * Config.ps)).die 0).dobbyNext ∧
    (∀ p ∈ [([], none, none), ([], none, some 0), (List.replicate 4 (QItem.tok tok), some 0, none), (List.replicate 4 (QItem.tok tok), some 1000001, none)],
     let k := fun (x : Stage) => { x with maxrep := 2, minrep := 0, growt := 1000, shrt := 1000 }; let s := sampling p.1 p.2.1 p.2.2 k (1000000 * Config.ps);
      (s.die 0).dobbyNext ≤ s.time ∧ ((s.launch? 1).map fun l => (l.st, s.stageRuns l 0)) = some (.resident, true) ∧ (s.launch? 1).bind (·.stages[0]?) = launchA.stages.head?.map k ∧
      (s.launch? 1).map (fun l => (s.liveReps l 0, s.nextIndex l 0, (launchA.stages.head?.map fun x => placeRep s.freeCells (k x) 1).map (·.map (·.1)))) =
        some ([0], 1, some (some [1]))) ∧
    (let s := sampling [] none none (fun x => { x with foot := 200, maxrep := 2 }) (1000000 * Config.ps);
      (launchA.stages.head?.map fun x => placeRep s.freeCells { x with foot := 200 } 1) = some none) ∧
    (let s := sampling (List.replicate 4 (QItem.tok tok)) (some 0) none id (1000000 * Config.ps);
      s.loadDrafts 7 [(1, 0)] = some (s, [], [parseDraft (imageA 3654633869)])) :=
  ⟨by decide +kernel, by decide +kernel, by decide +kernel, loads_valid _ _ _ (by decide +kernel) valid_imageA.1⟩

theorem wit_SchedulerEvents_freed : let l := { launchA with draining := [(0, 0)] }; let s : State := { resting regionA with launches := [l], queues := [queueA []] };
    s.launch? 1 = some l ∧ (s.cells.map (·.id)).Nodup ∧ (0, 0) ∈ l.draining ∧ (s.cell 0).stopped = false ∧
    (s.cells.filter fun k => match k.seat with | some t => t.launch == 1 && t.stage == 0 && t.rep == 0 | none => false).map (·.id) = [0] ∧
    s.channelsEmpty [0] = true ∧ s.nothingOutstanding [0] = true ∧ s.nothingEligible [0] = true ∧ wrapInt 32 (s.partOf (s.cell 0).seat) = 0 ∧
    graph.channelsEmpty [0] = false := by decide +kernel

/-! Accesses to the first page of ASID 0, which die 0 or the asking cell holds. -/

theorem inMmio_low {pa : Nat} (h : pa < 0x20000000) : inMmio pa = false := by
  have hl : localOf pa = pa := Nat.mod_eq_of_lt (by omega)
  simp [inMmio, hl, hubWindow]
  omega

def Held (s : State) (cell : Option Nat) : Prop := ∃ es, s.tlbOf cell 0 = page 0 0 0x10000000 0x100C :: es

theorem translate_page {s : State} {cell : Option Nat} (h : Held s cell) {va : Nat} (hv : va < 2 ^ 21) {k : Kind} (hk : k = .load ∨ k = .store) :
    s.translate cell 0 0 true k va = (.ok (0x10000000 + va) 0x100C (2 ^ 21), s) := by
  have hp : (page 0 0 0x10000000 0x100C).paOf va = 0x10000000 + va := by simp [page, TlbEntry.paOf]
  have hm := inMmio_low (pa := 0x10000000 + va) (by omega)
  obtain ⟨es, h⟩ := h
  have := translate_held (s := s) (cell := cell) (die := 0) (asid := 0) (va := va) (res := true) (k := k) (e := page 0 0 0x10000000 0x100C) (by omega)
    (by rw [h]; simp [page, TlbEntry.covers]; omega)
    (by rw [hp]; rcases hk with rfl | rfl <;> simp [leafFault, hm, page, Kind.writes, Kind.noMmio] <;> decide)
    (fun _ => by simp [page, TlbEntry.dirtyAt]; decide)
  rwa [hp] at this

theorem pieces_lt {a n : Nat} {p : Nat × Nat} (h : p ∈ linePieces a n) : p.1 + p.2 ≤ n ∧ 0 < p.2 := by
  simp only [linePieces, List.mem_filterMap, List.mem_range] at h
  obtain ⟨i, _, hi⟩ := h
  split at hi
  · cases hi
    omega
  · cases hi

theorem load_page {s : State} {cell : Option Nat} (h : s.Still) (ht : Held s cell) {hint va n : Nat} (hn : va + n ≤ 2 ^ 21) :
    s.engineLoad cell 0 0 true hint va n = .ok ((linePieces va n).flatMap fun p => memBytes s.mem (0x10000000 + (va + p.1)) p.2) s := by
  refine engineLoad_still h (fun o => 0x10000000 + (va + o)) (fun _ => 0x100C) (fun _ => 2 ^ 21) fun p hp => ?_
  have := pieces_lt hp
  rw [Nat.mod_eq_of_lt (by omega)]
  exact ⟨translate_page ht (by omega) (.inl rfl), inMmio_low (by omega), by decide⟩

/-- Only memory, the marks of watches and of slice lines differ. -/
def SameButMem (s t : State) : Prop := ∃ m w l, t = { s with mem := m, watches := w, sliceLines := l }

theorem store_same {s : State} (h : s.Still) (pa : Nat) (bs : List Nat) : SameButMem s (s.storeNow none pa bs none) := by
  rw [State.storeNow, h.ownCopy]
  simp only [State.storeHome, h.pull, State.homeWrite, State.homeWriteMasked, h.upsets, List.filter_nil, State.markWatches]
  exact ⟨_, _, _, by rw [← h.upsets]⟩

theorem SameButMem.still {s t : State} (h : s.Still) (hs : SameButMem s t) : t.Still := by
  obtain ⟨m, w, l, rfl⟩ := hs
  exact ⟨h.locks, h.recalls, h.upsets, h.copies, h.host⟩

theorem SameButMem.held {s t : State} {cell : Option Nat} (h : Held s cell) (hs : SameButMem s t) : Held t cell := by
  obtain ⟨m, w, l, rfl⟩ := hs
  exact h

theorem SameButMem.trans {s t u : State} (h : SameButMem s t) (k : SameButMem t u) : SameButMem s u := by
  obtain ⟨m, w, l, rfl⟩ := h
  obtain ⟨m', w', l', rfl⟩ := k
  exact ⟨m', w', l', rfl⟩

theorem store_page {s : State} {cell : Option Nat} (h : s.Still) (ht : Held s cell) {hint va : Nat} {bs : List Nat} (hn : va + bs.length ≤ 2 ^ 21) :
    ∃ t, s.engineStore cell 0 0 true hint va bs = .ok [] t ∧ SameButMem s t := by
  have go : ∀ (f : HubResult → Nat × Nat → HubResult) (ps : List (Nat × Nat)),
      (∀ p ∈ ps, ∀ t, SameButMem s t → ∃ u, f (.ok [] t) p = .ok [] u ∧ SameButMem t u) → ∀ t, SameButMem s t →
      ∃ u, ps.foldl f (.ok [] t) = .ok [] u ∧ SameButMem s u := by
    intro f ps
    induction ps with
    | nil => exact fun _ t h => ⟨t, rfl, h⟩
    | cons p ps ih =>
      intro hf t hs
      obtain ⟨u, hu, hsu⟩ := hf p (by simp) t hs
      rw [List.foldl_cons, hu]
      exact ih (fun q hq => hf q (by simp [hq])) u (hs.trans hsu)
  refine go _ (linePieces va bs.length) (fun p hp t hs => ?_) s ⟨s.mem, s.watches, s.sliceLines, rfl⟩
  have := pieces_lt hp
  simp only [Nat.mod_eq_of_lt (show va + p.1 < 2 ^ 64 by omega)]
  exact ⟨_, engineStorePiece_still (hs.still h) _ (translate_page (hs.held ht) (by omega) (.inr rfl)) (inMmio_low (by omega)) (by decide),
    store_same (hs.still h) _ _⟩

/-- A CTXIMG of cell 0, or of the resident scheduler, of region 0, with its image at 0x1000. -/
def imageOpA (form cell : Nat) : ImageOp :=
  { id := 90, cell := cell, elem := 0, ctx := 0, slot := 0, asid := 0, form := form, image := 0x1000, die := 0, region := 0, start := 3, paused := none, seq := 0, m0 := 1 }

theorem imageStore_page {s : State} (form cell : Nat) (hc : cell = 0 ∨ cell = 4096) (h : s.Still) (ht : Held s (if cell = 0 then some 0 else none))
    {va : Nat} {bs : List Nat} (hn : va + bs.length ≤ 2 ^ 21) : ∃ t, s.imageStore (imageOpA form cell) va bs = .ok [] t ∧ SameButMem s t := by
  rcases hc with rfl | rfl
  · simpa [State.imageStore, imageOpA, hubActor, dieOf] using store_page (cell := some 0) h ht hn
  · simpa [State.imageStore, imageOpA, hubActor] using store_page (cell := none) h ht hn

theorem imagePut_page (form cell : Nat) (hc : cell = 0 ∨ cell = 4096) : ∀ (parts : List (List Nat)) (s : State) (va : Nat), s.Still →
    Held s (if cell = 0 then some 0 else none) → va + (parts.map (·.length)).sum ≤ 2 ^ 21 →
    ∃ t, s.imagePut (imageOpA form cell) va parts = .ok [] t ∧ SameButMem s t
  | [], s, _, _, _, _ => ⟨s, rfl, s.mem, s.watches, s.sliceLines, rfl⟩
  | b :: bs, s, va, h, ht, hn => by
    simp only [List.map_cons, List.sum_cons] at hn
    obtain ⟨t, e, hs⟩ := imageStore_page form cell hc h ht (va := va) (bs := b) (by omega)
    obtain ⟨u, e', hs'⟩ := imagePut_page form cell hc bs t (va + b.length) (hs.still h) (hs.held ht) (by omega)
    exact ⟨u, by rw [State.imagePut, e]; exact e', hs.trans hs'⟩

theorem pad_length (n : Nat) (bs : List Nat) : (pad n bs).length = n := by
  simp [pad, sliceBytes]

theorem controlBytes_length (s : State) (c : Cell) : (s.controlBytes c).length = 0x34000 := by
  simp only [State.controlBytes, List.length_append, List.length_flatMap, State.headerBytes, State.ctxBytes, elemBytes, Heddle.bytes, Cell.chanBytes,
    pad_length, List.map_const', List.length_range, List.sum_replicate]
  rfl

/-- The region is to be written, at once or as a delta; or its first row cannot be read. -/
def saving (form cell : Nat) (upsets : List Upset) : State :=
  { resting { regionA with stopping := true, lastImage := some 0x1000 } with images := [imageOpA form cell], upsets := upsets }.setCell 0 fun c =>
    { c with tlb := [page 0 0 0x10000000 0x100C], dirtyRows := [] }

theorem wit_ImageEvents_written (cell : Nat) (hc : cell = 0 ∨ cell = 4096) :
    let s := (saving 1 cell []).setDie 0 fun d => { d with tlb := [page 0 0 0x10000000 0x100C] }
    let r : Region := { regionA with stopping := true, lastImage := some 0x1000 }
    let q := s.quiet [0]
    let blocks := [(q.controlBytes (q.cell 0), (q.cell 0).dataBytes ((q.cell 0).rows false))]
    s.images.find? (·.id == 90) = some (imageOpA 1 cell) ∧ s.regionAt 0 0 = some r ∧ imageKind 1 r = (false, 1, 0x1000) ∧ s.drained [0] = true ∧
    s.badRow [0] false = none ∧ s.imageTurn (imageOpA 1 cell) = true ∧
    ∀ head, ∃ q1 q2, q.imagePut (imageOpA 1 cell) 0x1000 (imageBytes head blocks) = .ok [] q1 ∧
      q1.imageStore (imageOpA 1 cell) (0x1000 + 56) (leBytes 8 1) = .ok [] q2 ∧ q2.regionAt 0 0 = some r := by
  intro s r q blocks
  have hq : q.Still ∧ Held q (if cell = 0 then some 0 else none) := by
    rcases hc with rfl | rfl
    · exact ⟨⟨by decide +kernel, by decide +kernel, by decide +kernel, by decide +kernel, by decide +kernel⟩, [], by decide +kernel⟩
    · exact ⟨⟨by decide +kernel, by decide +kernel, by decide +kernel, by decide +kernel, by decide +kernel⟩, [], by decide +kernel⟩
  have hrows : (q.cell 0).rows false = [] := by rcases hc with rfl | rfl <;> decide +kernel
  refine ⟨?_, ?_, by decide, ?_, ?_, ?_, fun head => ?_⟩
  · rcases hc with rfl | rfl <;> decide +kernel
  · rcases hc with rfl | rfl <;> decide +kernel
  · rcases hc with rfl | rfl <;> decide +kernel
  · rcases hc with rfl | rfl <;> decide +kernel
  · rcases hc with rfl | rfl <;> decide +kernel
  · have hd : ((q.cell 0).dataBytes ((q.cell 0).rows false)).length = 3072 := by
      rw [hrows, Cell.dataBytes, List.length_append, List.length_map, List.length_range, List.flatMap_nil, List.length_nil]
    obtain ⟨q1, h1, hs⟩ := imagePut_page 1 cell hc (imageBytes head blocks) q 0x1000 hq.1 hq.2 (by
      simp only [imageBytes, blocks, List.map_cons, List.map_nil, List.length_append, pad_length, controlBytes_length, hd, List.sum_cons, List.sum_nil]
      decide)
    obtain ⟨q2, h2, hs'⟩ := imageStore_page 1 cell hc (hs.still hq.1) (hs.held hq.2) (va := 0x1000 + 56) (bs := leBytes 8 1) (by decide)
    obtain ⟨m, w, l, rfl⟩ := hs.trans hs'
    exact ⟨q1, _, h1, h2, by rcases hc with rfl | rfl <;> exact show q.regionAt 0 0 = some r by decide +kernel⟩

theorem wit_ImageEvents_held :
    (let s := saving 0 0 [⟨.sram 0, 0, true⟩]; let r : Region := { regionA with stopping := true, lastImage := some 0x1000 };
      s.images.find? (·.id == 90) = some (imageOpA 0 0) ∧ s.regionAt 0 0 = some r ∧ imageKind 0 r = (true, 0, 0) ∧ s.drained [0] = true ∧
      s.badRow [0] true = some (mkRef 0 0) ∧
      let p := s.imageBegun (imageOpA 0 0)
      p.hasCtx 0 0 0 ∧ dieOf 0 < p.dies.length ∧ p.images.find? (·.id == 90) = some (imageOpA 0 0) ∧ memNat p.mem 0x10001038 8 = 0) ∧
    (let s := { saving 0 0 [] with images := [{ imageOpA 0 0 with paused := some 4 }] }; s.images.find? (·.id == 90) = some { imageOpA 0 0 with paused := some 4 } ∧
      (s.regionAt 0 0).isSome = true) ∧
    (let s := { saving 0 0 [] with images := [{ imageOpA 0 0 with id := 89 }, imageOpA 0 0] }; s.imageTurn (imageOpA 0 0) = false) ∧
    (let s := { saving 0 0 [] with regions := [regionA] }; s.imageTurn (imageOpA 0 0) = true ∧ s.regionAt 0 0 = some regionA ∧ regionA.stopping = false) ∧
    (let s := { saving 0 0 [] with accs := [{ accessA .store .none 0x10000000 0xC [1, 2, 3, 4] .waiting [] with seq := 0 }] };
      s.drained [0] = false) := by decide +kernel

/-- A full image of one cell at 0x1000, its control block and its rows all zeros. -/
def restoring : State :=
  { resting { regionA with stopping := true } with
    images := [imageOpA 2 4096], dies := graph.dies.map fun d => { d with tlb := [page 0 0 0x10000000 0x100C] }
    mem := memStore [] 0x10001000 (imageHeader 0 0 0 9 1 0 0x36000 3 1 ++ leBytes 8 0x1000 ++ leBytes 4 3072) }

theorem restoring_still : restoring.Still ∧ Held restoring none :=
  ⟨⟨by decide +kernel, by decide +kernel, by decide +kernel, by decide +kernel, by decide +kernel⟩, [], by decide +kernel⟩

theorem imageLoad_page {s : State} (h : s.Still) (ht : Held s none) {va n : Nat} (hn : va + n ≤ 2 ^ 21) :
    s.imageLoad (imageOpA 2 4096) va n = .ok ((linePieces va n).flatMap fun p => memBytes s.mem (0x10000000 + (va + p.1)) p.2) s := by
  simpa [State.imageLoad, imageOpA, hubActor] using load_page (cell := none) h ht hn

theorem restoring_chain : restoring.imageChain (imageOpA 2 4096) 1 16 0x1000 = .ok [0x1000] restoring := by
  rw [State.imageChain, imageLoad_page restoring_still.1 restoring_still.2 (by decide)]
  simp only [HubResult.andThen]
  rw [if_neg (by decide +kernel), if_pos (by decide +kernel)]

theorem load_zero {s : State} (h : s.Still) (ht : Held s none) {va n : Nat} (hn : va + n ≤ 2 ^ 21) (hm : ∀ c ∈ s.mem, c.1 < 0x10000000 + va) :
    ∃ k, s.imageLoad (imageOpA 2 4096) va n = .ok (List.replicate k 0) s := by
  rw [imageLoad_page h ht hn, show (linePieces va n).flatMap (fun p => memBytes s.mem (0x10000000 + (va + p.1)) p.2) =
    List.replicate ((linePieces va n).flatMap fun p => memBytes s.mem (0x10000000 + (va + p.1)) p.2).length 0 from ?_]
  · exact ⟨_, rfl⟩
  · refine List.eq_replicate_iff.mpr ⟨rfl, fun b hb => ?_⟩
    simp only [List.mem_flatMap, memBytes, List.mem_map, List.mem_range] at hb
    obtain ⟨p, _, i, _, rfl⟩ := hb
    exact memRead_unlisted fun c hc => by have := hm c hc; omega

theorem bitmapRows_zero (k : Nat) : bitmapRows (List.replicate k 0) = [] := by
  rw [bitmapRows, List.flatMap_eq_nil_iff]
  rintro ⟨b, i⟩ hp
  have hb := (List.of_mem_zip hp).1
  rw [List.mem_of_mem_take hb |> List.eq_of_mem_replicate]
  simp [show bitsSet 8 0 = [] by decide]

/-- Nothing of a state but its cell 0 and its counts differs, and that cell keeps neither copies nor actions. -/
structure OnlyCell (s t : State) : Prop where
  mem : t.mem = s.mem
  dies : t.dies = s.dies
  locks : t.locks = s.locks
  recalls : t.recalls = s.recalls
  upsets : t.upsets = []
  regions : t.regions = s.regions
  copies : ∀ c ∈ t.cells, c.cch = []
  host : t.hostCopies = []
  stored : ∀ e x, (t.ctxOf 0 e x).stored = []
  loaded : t.loaded 0 = true

theorem OnlyCell.still {s t : State} (h : s.Still) (hs : OnlyCell s t) : t.Still := ⟨by rw [hs.locks, h.locks], by rw [hs.recalls, h.recalls], hs.upsets, hs.copies, hs.host⟩

theorem OnlyCell.held {s t : State} (h : Held s none) (hs : OnlyCell s t) : Held t none := by
  unfold Held State.tlbOf State.die
  rw [hs.dies]
  exact h

theorem only_set {s t : State} (hs : OnlyCell s t) (f : Cell → Cell) (hi : ∀ k, (f k).id = k.id) (hc : ∀ k, k.cch = [] → (f k).cch = [])
    (hx : ∀ e x, ((f (t.cell 0)).ctx e x).stored = []) : OnlyCell s (t.setCell 0 f) := by
  have hl : (t.setCell 0 f).loaded 0 = true := by
    have h0 := hs.loaded
    simp only [State.loaded, State.setCell, updateWhere, List.any_map, List.any_eq_true, Function.comp] at h0 ⊢
    obtain ⟨k, hk, he⟩ := h0
    exact ⟨k, hk, by split <;> simp_all⟩
  refine ⟨hs.mem, hs.dies, hs.locks, hs.recalls, hs.upsets, hs.regions, fun c hm => ?_, hs.host, fun e x => ?_, hl⟩
  · simp only [State.setCell, updateWhere, List.mem_map] at hm
    obtain ⟨k, hk, rfl⟩ := hm
    split
    · exact hc k (hs.copies k hk)
    · exact hs.copies k hk
  · rw [State.ctxOf, State.cell_setCell t 0 0 f hi hs.loaded, if_pos rfl]
    exact hx e x

theorem getD_const {α : Type} (xs : List α) (n : Nat) (d : α) (h : ∀ x ∈ xs, x = d) : xs.getD n d = d := by
  rw [List.getD_eq_getElem?_getD]
  generalize hg : xs[n]? = o
  cases o with
  | none => rfl
  | some x => exact h x (List.mem_of_getElem? hg)

theorem fieldAt_zeros (k a w n : Nat) : fieldAt (sliceBytes (List.replicate k 0) a w) n 1 = 0 := by
  rw [show sliceBytes (List.replicate k 0) a w = List.replicate w 0 from
    List.eq_replicate_iff.mpr ⟨by simp [sliceBytes], fun b hb => by simp [sliceBytes] at hb; omega⟩, fieldAt_zero]

/-- A control block of zeros has no stored action. -/
theorem fromControl_stored (c : Cell) (k id e x : Nat) (held : Ctx → List Nat → List Nat) :
    ((c.fromControl (List.replicate k 0) id held).ctx e x).stored = [] := by
  by_cases he : e < 4
  · have hel : (c.fromControl (List.replicate k 0) id held).elem e = mapCtxs
        (fun x c => c.fromBytes (sliceBytes (List.replicate k 0) (64 + 64 * (4 * e + x)) 64) (held c (sliceBytes (List.replicate k 0) (64 + 64 * (4 * e + x)) 64)))
        ((c.elem e).fromBytes (sliceBytes (List.replicate k 0) (0x440 + 64 * e) 64) (sliceBytes (List.replicate k 0) (0x2000 + 8320 * e) 8320)) := by
      simp [Cell.fromControl, Cell.elem, List.getD_eq_getElem?_getD, he]
    rw [Cell.ctx, hel, Elem.ctx, mapCtxs, List.getD_eq_getElem?_getD]
    generalize hg : (List.map _ _)[x]? = o
    cases o with
    | none => rfl
    | some c =>
      obtain ⟨p, hp, rfl⟩ := List.mem_map.mp (List.mem_of_getElem? hg)
      simp only [Ctx.fromBytes, fieldAt_zeros, if_pos, Option.getD_some]
  · rw [Cell.ctx, Cell.elem, List.getD_eq_getElem?_getD, List.getElem?_eq_none (by simp [Cell.fromControl]; omega)]
    rw [Option.getD_none, Elem.ctx, show Elem.blank.ctxs.getD x Ctx.blank = Ctx.blank from getD_const _ _ _ (by decide)]
    rfl

theorem only_start : OnlyCell restoring restoring := by
  refine ⟨rfl, rfl, rfl, rfl, by decide +kernel, rfl, by decide +kernel, by decide +kernel, fun e x => ?_, by decide +kernel⟩
  have h : ∀ k ∈ restoring.cells, ∀ j ∈ k.elems, ∀ c ∈ j.ctxs, c.stored = [] := by decide +kernel
  have hf : restoring.cells.find? (·.id == 0) = some (restoring.cell 0) := by decide +kernel
  have h0 := h _ (List.mem_of_find?_eq_some hf)
  rw [State.ctxOf, Cell.ctx, Elem.ctx, List.getD_eq_getElem?_getD]
  generalize hg : ((restoring.cell 0).elem e).ctxs[x]? = o
  cases o with
  | none => rfl
  | some c =>
    rw [Cell.elem, List.getD_eq_getElem?_getD] at hg
    generalize hj : (restoring.cell 0).elems[e]? = q at hg
    cases q with
    | none =>
      have hb : ∀ c ∈ Elem.blank.ctxs, c.stored = [] := by decide
      exact hb c (List.mem_of_getElem? hg)
    | some j => exact h0 j (List.mem_of_getElem? hj) c (List.mem_of_getElem? hg)

theorem only_part {s t : State} (hs : OnlyCell s t) (b : List Nat) : OnlyCell s (t.restorePart 0 b) := by
  rw [State.restorePart]
  generalize h : t.charge _ _ = q
  have hq : OnlyCell s q := by
    subst h
    unfold State.charge
    split
    · exact ⟨hs.mem, hs.dies, hs.locks, hs.recalls, hs.upsets, hs.regions, hs.copies, hs.host, hs.stored, hs.loaded⟩
    · exact hs
  exact only_set hq _ (fun _ => rfl) (fun _ h => h) hq.stored

theorem only_waits {s t : State} (hs : OnlyCell s t) (b : List Nat) : OnlyCell s (t.restoreWaits 0 b) :=
  ⟨hs.mem, hs.dies, hs.locks, hs.recalls, hs.upsets, hs.regions, hs.copies, hs.host, hs.stored, hs.loaded⟩

theorem only_restored {s t : State} (hs : OnlyCell s t) (n : Nat) (us : List Upset) (gs : List GrantReq) (k id : Nat) (held : Ctx → List Nat → List Nat)
    (hu : us = []) : let b := List.replicate k 0
    OnlyCell s ((({ t with nextId := n, upsets := us, grants := gs }.restorePart 0 b).restoreWaits 0 b).setCell 0 fun k => k.fromControl b id held) := by
  have hp := only_part (t := { t with nextId := n, upsets := us, grants := gs })
    ⟨hs.mem, hs.dies, hs.locks, hs.recalls, hu, hs.regions, hs.copies, hs.host, hs.stored, hs.loaded⟩ (List.replicate k 0)
  exact only_set (only_waits hp _) _ (fun _ => rfl) (fun _ _ => rfl) fun e x => fromControl_stored _ k id e x held

theorem putRows_none (k : Cell) (b : List Nat) : k.putRows [] b = { k with dirtyRows := k.dirtyRows.filter fun _ => true } := by
  simp [Cell.putRows]

theorem entry_page {s : State} (hs : OnlyCell restoring s) : s.imageEntry (imageOpA 2 4096) 0x1000 0 = .ok (leBytes 8 0x1000 ++ leBytes 4 3072) s := by
  rw [State.imageEntry, imageLoad_page (hs.still restoring_still.1) (hs.held restoring_still.2) (by decide), hs.mem]
  congr 1

theorem rows_page {s : State} (hs : OnlyCell restoring s) : ∃ b, s.restoreRows (imageOpA 2 4096) 0 0 0x1000 = .ok [] (s.setCell 0 fun k => k.putRows [] b) := by
  have hm : ∀ c ∈ s.mem, c.1 < 0x10000000 + 0x36000 := by rw [hs.mem]; decide +kernel
  obtain ⟨k, hk⟩ := load_zero (hs.still restoring_still.1) (hs.held restoring_still.2) (va := 0x1000 + 0x1000 + 0x34000) (n := 3072) (by decide)
    (fun c hc => by have := hm c hc; omega)
  have h0 : ∀ va, va + 0 ≤ 2 ^ 21 → ∃ b, s.imageLoad (imageOpA 2 4096) va 0 = .ok b s := fun va hv =>
    ⟨_, imageLoad_page (hs.still restoring_still.1) (hs.held restoring_still.2) hv⟩
  rw [State.restoreRows, entry_page hs]
  simp only [HubResult.andThen]
  rw [show fieldAt (leBytes 8 0x1000 ++ leBytes 4 3072) 0 8 = 0x1000 by decide +kernel, hk]
  simp only [bitmapRows_zero, List.length_nil, Nat.mul_zero]
  obtain ⟨b, hb⟩ := h0 (0x1000 + 0x1000 + 0x34000 + 3072) (by decide)
  rw [hb]
  exact ⟨b, rfl⟩

theorem cell_restored {s : State} (hr : OnlyCell restoring s) :
    ∃ s2, s.restoreCell (imageOpA 2 4096) 0 0 [0x1000] = .ok [] s2 ∧ OnlyCell restoring s2 := by
  have hm : ∀ c ∈ s.mem, c.1 < 0x10000000 + 0x2000 := by rw [hr.mem]; decide +kernel
  obtain ⟨k, hk⟩ := load_zero (hr.still restoring_still.1) (hr.held restoring_still.2) (va := 0x1000 + 0x1000) (n := 0x34000) (by decide) hm
  rw [State.restoreCell, List.headD_cons, entry_page hr]
  simp only [HubResult.andThen]
  rw [show fieldAt (leBytes 8 0x1000 ++ leBytes 4 3072) 0 8 = 0x1000 by decide +kernel, hk]
  simp only [fieldAt_zero, if_pos, List.reverse_singleton, List.foldl_cons, List.foldl_nil]
  generalize hq : State.setCell _ 0 _ = q
  have hs : OnlyCell restoring q := by
    rw [← hq]
    exact only_restored hr _ _ _ _ _ _ (by rw [hr.upsets]; rfl)
  obtain ⟨b, hb⟩ := rows_page hs
  refine ⟨_, hb, only_set hs _ (fun _ => by rw [putRows_none]) (fun _ h => by rw [putRows_none]; exact h) fun e x => ?_⟩
  rw [putRows_none]
  exact hs.stored e x

theorem wit_ImageEvents_restored : let op := imageOpA 2 4096; let r : Region := { regionA with stopping := true };
    restoring.images.find? (·.id == 90) = some op ∧ restoring.imageTurn op = true ∧ restoring.regionAt 0 0 = some r ∧ r.cells = [0] ∧
    restoring.imageChain op 1 16 0x1000 = .ok [0x1000] restoring ∧
    ∃ s2 d s4, restoring.restoreCell op 0 0 [0x1000] = .ok [] s2 ∧ s2.imageLoad op (0x1000 + 7) 1 = .ok d s2 ∧
      s2.imageStore op (0x1000 + 56) (leBytes 8 1) = .ok [] s4 ∧ s4.loaded 0 = true ∧ s4.regionAt 0 0 = some r ∧
      ∀ e x, (s4.ctxOf 0 e x).stored = [] := by
  intro op r
  have hr : restoring.regionAt 0 0 = some r := by decide +kernel
  refine ⟨by decide +kernel, by decide +kernel, hr, by decide, restoring_chain, ?_⟩
  obtain ⟨s2, h2, hs⟩ := cell_restored only_start
  have hl := imageLoad_page (hs.still restoring_still.1) (hs.held restoring_still.2) (va := 0x1000 + 7) (n := 1) (by decide)
  obtain ⟨s4, h4, m, w, l, rfl⟩ := imageStore_page 2 4096 (.inr rfl) (hs.still restoring_still.1) (hs.held restoring_still.2) (va := 0x1000 + 56)
    (bs := leBytes 8 1) (by decide)
  refine ⟨s2, _, _, h2, hl, h4, hs.loaded, ?_, hs.stored⟩
  rw [← hr, State.regionAt, State.regionAt, ← hs.regions]

/-- A header at 0x1000 of no image, of one of other cells, of one not finished, or of one too deep. -/
def chained (h : List Nat) : State := { restoring with mem := memStore [] 0x10001000 h }

theorem wit_ImageEvents_bad :
    ∀ p ∈ [(List.replicate 64 0, 0, 0, 0, 0), (imageHeader 0 0 0 9 2 0 0x36000 3 1, 0x4D495843, 2, 1, 0), (imageHeader 0 0 0 9 1 0 0x36000 3 0, 0x4D495843, 1, 0, 0),
      (imageHeader 0 16 0 9 1 0 0x36000 3 1, 0x4D495843, 1, 1, 16)], let s := chained p.1; let h := memBytes s.mem 0x10001000 64;
      s.images.find? (·.id == 90) = some (imageOpA 2 4096) ∧ (s.imageTurn (imageOpA 2 4096) = true ∧ (s.regionAt 0 0).isSome = true ∧ 0 < s.dies.length) ∧ s.imageLoad (imageOpA 2 4096) 0x1000 64 = .ok h s ∧
      (fieldAt h 0 4, fieldAt h 16 2, fieldAt h 56 8, fieldAt h 7 1) = p.2 := by
  have h : ∀ m, (chained m).imageLoad (imageOpA 2 4096) 0x1000 64 = .ok (memBytes (chained m).mem 0x10001000 64) (chained m) := fun m => by
    rw [imageLoad_page (s := chained m) ⟨restoring_still.1.locks, restoring_still.1.recalls, restoring_still.1.upsets, restoring_still.1.copies, restoring_still.1.host⟩ restoring_still.2 (by decide)]
    rfl
  intro p hp
  refine ⟨rfl, ?_, h _, ?_⟩ <;> (revert hp; revert p; decide +kernel)

theorem wit_ImageEvents_contexts : let c := demo.cell 0;
    c.elems.length = 4 ∧ (∀ i < 4, (c.elem i).ctxs.length = 4) ∧ (c.ctx 0 0).m.length = 4 ∧ (c.ctx 0 0).fpflags < 64 ∧ (c.ctx 0 0).mwcnt < 256 ∧
    c.roles < 2 ^ 176 := by decide +kernel

theorem wit_ImageEvents_stall :
    (∀ n ∈ [99, 100], let s : State := { resting regionA with census := [(⟨1, 0, 0, 0⟩, 1)], time := n * demo.nPeriod 0 }
      let image := (s.takeImage regionA.cells.length).2.snapshot regionA s.hub.imageNext
      s.regionAt 0 0 = some regionA ∧ s.launch? 1 = some launchA ∧ s.watched regionA = true ∧
      (n = 100 ↔ launchA.wdog ≤ regionA.idle + (s.time - regionA.idleSince) / s.nPeriod 0) ∧
      (image.regions, image.launches, image.time) = (s.regions, s.launches, s.time) ∧ image.dies.length = s.dies.length ∧
      (image.die 0).records = (s.die 0).records) ∧ (resting regionA).watched regionA = false := by decide +kernel

/-! Witnesses: power, the fault queue and the outside. -/

/-- Every die's least estimate is 15 W; die 0 serves launch 1. -/
def powered (cap time : Nat) : State :=
  { graph with dies := graph.dies.map fun d => { d with ptable := 40 :: (List.range 64).map fun i => 8 * (i % 16) }
               hub := { graph.hub with cap := cap, allow := 10, splitNext := 7 }, time := time }

theorem wit_PowerEvents_splits :
    (powered 130 6).time < (powered 130 6).hub.splitNext ∧
    ∀ cap ∈ [129, 130, 500], let s := powered cap 7;
      s.dies.length = 8 ∧ s.hub.splitNext ≤ s.time ∧ (∀ n ∈ (s.die 0).ptable, n < 2 ^ 16) ∧ s.served 1 = none ∧ s.served 0 = some launchA ∧
      (cap = 129 ↔ 8 * ((s.hub.cap : Int) - (s.hub.allow : Int)) < (((List.range 8).map fun d => (s.die d).power 0x0046).sum : Nat)) := by decide +kernel

/-- Die 0 has computed a set; some launch there has an event stage. -/
def granted (pending : Option Nat) (stage : Nat) (fs : List Flight) : State :=
  { graph with dies := graph.dies.map fun d => { d with pending := pending }, launches := [{ launchA with evstage := stage }], flights := fs }

/-- A token of an earlier change, which waits for its reservation. -/
def toldA (place : Option Nat) : Flight := ⟨5, .event 1 0, .queue 1 0, [⟨0x10000001, [0, 0x146, 0x46, 0, 0], none, none⟩], place⟩

theorem wit_PowerEvents_effects :
    (∀ p ∈ [none, some 0x0046, some 0x2346], ((granted p 255 []).die 0).pending = p) ∧ ((granted none 255 []).die 0).grant = 0x0046 ∧
    (∀ stage ∈ [255, 0], ∀ fs ∈ [[], [toldA none], [toldA (some 0)]], let s := granted (some 0x2346) stage fs;
      0 < s.dies.length ∧ (s.launches.filter fun l => l.evstage != 255 && (s.regionsOf l.uid).any (·.die == 0) && !s.sourcesOver l.uid) =
        (if stage = 0 then [{ launchA with evstage := 0 }] else [])) ∧
    (∀ f ∈ [toldA none], f.place = none) ∧ (toldA (some 0)).source = .event 1 0 ∧ (toldA (some 0)).place.isSome = true := by decide +kernel

/-- The record of a memory fault of lane 0 under opcode 0x18, for launch 1. -/
def recordA (of : RecordOf) (seq : Option Nat) : OpenRecord :=
  ⟨{ id := 50, code := 6, cause := 1, flags := 0, opcode := 0x18, cell := 0, elem := 0, ctx := 0, slot := 0, launchid := 9, lanes := 1, addr := 3
     profile := 0x108, asid := 7, time := 2, snap := 0 }, of, seq, 1, 0⟩

/-- Die 0 holds that record, and its context waits for the handler; the ring of two records is at 0x10003000. -/
def faulted (of : RecordOf) (seq : Option Nat) (fqbase fqcons fqdoor : Nat) : State :=
  (graph.setDie 0 fun d => { d with fqbase := fqbase, fqprod := 5, fqcons := fqcons, fqdoor := fqdoor, records := [recordA of seq] }).setCtx 0 0 0
    fun k => { k with heldBy := [50] }

theorem wit_FaultQueueEvents_written :
    (∀ p ∈ [((0x10003000, 4) : Nat × Nat), (0x10000010003001, 3)], let d := (faulted .collective none p.1 p.2 0).die 0;
      d.fqbase.testBit 0 = false ∨ (d.fqprod + 2 ^ 32 - d.fqcons) % 2 ^ 32 = 2 ^ min (d.fqbase / 2 ^ 52 % 2 ^ 12) 12) ∧
    ((faulted .collective (some 5) 0x10000010003001 4 0).die 0).nextRecord = none ∧
    ∀ door ∈ [0, 0x10003800], let s := faulted .collective none 0x10000010003001 4 door; let d := s.die 0;
      let at_ := d.fqbase / 2 ^ 6 % 2 ^ 46 * 64 + 64 * (d.fqprod % 2);
      0 < s.dies.length ∧ d.fqbase.testBit 0 = true ∧ 2 ^ min (d.fqbase / 2 ^ 52 % 2 ^ 12) 12 = 2 ∧ (d.fqprod + 2 ^ 32 - d.fqcons) % 2 ^ 32 ≠ 2 ∧
      d.nextRecord = some (recordA .collective none) ∧ at_ = 0x10003040 ∧ s.populated at_ 64 = true ∧ inMmio at_ = false ∧
      d.fqdoor / 2 ^ 3 % 2 ^ 49 * 8 = door ∧ (door ≠ 0 → s.populated door 8 = true ∧ inMmio door = false) := by decide +kernel

theorem wit_FaultQueueEvents_open : ∀ door ∈ [0, 0x10003800], let s := faulted .collective none 0x10000010003001 4 door;
    s.openAt 0x10003040 64 ∧ s.openAt 0x10003800 8 := by decide +kernel

/-- The access whose first part failed, and the arrival that paused. -/
def failedA : Access :=
  let p := fun (l : Nat) (st : PartSt) => ({ lane := l, va := 4 * l, pa := 0x10000000 + 4 * l, size := 4, leaf := 0xC, page := 2 ^ 21, data := [], word := 0, st := st
                                             bound := [], since := 0 } : Part)
  { accessA .load (.regs 14 1) 0x10000000 0xC [] .waiting [] with id := 60, parts := [p 0 (.failed 6 0), p 1 .done] }

theorem wit_FaultQueueEvents_acts :
    (let s := faulted (.firing 0 0 0 0) (some 5) 0 0 0; s.openRecord 0 6 = none ∧ s.openRecord 0 5 = some (recordA (.firing 0 0 0 0) (some 5)) ∧
      s.actWaits (recordA (.firing 0 0 0 0) (some 5)) = false ∧ s.hasCtx 0 0 0 ∧ 50 ∈ (s.ctxOf 0 0 0).heldBy ∧ (s.cells.map (·.id)).Nodup ∧
      (let en := ((s.cell 0).draftElem 0).entries.getD ((((s.cell 0).draftElem 0).slots.getD 0 0).toNat / 2 ^ 26 % 64) 0; ePop en = 0 ∧ eCinc en = eCdec en) ∧
      (let p := s.setCell 0 fun c => { c with stopped := true }; p.actWaits (recordA (.firing 0 0 0 0) (some 5)) = true ∧ p.hasCtx 0 0 0 ∧
        (p.cells.map (·.id)).Nodup ∧ p.openRecord 0 5 = some (recordA (.firing 0 0 0 0) (some 5))) ∧ s.launch? 1 = some launchA) ∧
    (let r := recordA (.access 60 0) (some 5); let s := { faulted (.access 60 0) (some 5) 0 0 0 with accs := [failedA] };
      s.openRecord 0 5 = some r ∧ s.actWaits r = false ∧ s.acc? failedA.id = some failedA) ∧
    (let r := recordA (.logged 0 0 0) (some 5); let s := (faulted (.logged 0 0 0) (some 5) 0 0 0).setCell 0 fun c => { c with sideLog := [sideA 16] };
      s.openRecord 0 5 = some r ∧ s.actWaits r = false ∧ s.loaded 0 = true ∧ (sideA 16).page = 0) ∧
    (let r := recordA (.arrival 6) (some 5); let s := { faulted (.arrival 6) (some 5) 0 0 0 with arrivals := [{ arrivalA with paused := some 50 }] };
      s.openRecord 0 5 = some r ∧ s.actWaits r = false) ∧
    (let r := recordA (.stall 0 0) (some 5); let s := { faulted (.stall 0 0) (some 5) 0 0 0 with regions := [{ regionA with stalled := true }] };
      s.openRecord 0 5 = some r ∧ s.actWaits r = false ∧ s.regionAt 0 0 = some { regionA with stalled := true }) := by decide +kernel

/-! The outside. -/

/-- The host agent's copy of the line at 0x10000000. -/
def agentLine (st : CchState) : CchLine := { lineA 0x10000000 st with holdUntil := 0 }

theorem wit_OutsideEvents_absent : demo.populated 0x3E00000000 8 = true ∧ demo.populated 0x3F00000000000 8 = false := by decide +kernel

theorem wit_OutsideEvents_held :
    (let s : State := { demo with recalls := [⟨0x10000000, [1], false⟩] }; s.populated 0x10000078 8 = true ∧ inMmio 0x10000078 = false ∧
      ∀ w ∈ [false, true], s.rangeHeld 0x10000078 8 w (some 2048) = true) ∧
    (let s := waiting (accessA .load .none 0 0 [] .waiting []) [lineA 0x10000000 .modified]; s.rangeHeld 0x10000078 8 false (some 2048) = true ∧
      moduleOf 0x10000078 = s.hub.modnum) ∧
    (∀ w ∈ [false, true], demo.rangeHeld 0x10000078 8 w (some 2048) = false) := by decide +kernel

/-- Module 1 is populated too. -/
def pair : State := { demo with hub := { demo.hub with dommask := 2, domgrade := [0, 0x60] } }

theorem wit_OutsideEvents_host :
    (demo.openAt (lineOf 0x10000078) 128 ∧ 0x10000078 % 128 + 8 ≤ 128 ∧ moduleOf 0x10000078 = demo.hub.modnum ∧
      demo.dir.find? (·.region == lineOf 0x10000078 / 4096) = none ∧ demo.dir.length < 16 ∧ demo.inTurn (lineOf 0x10000078) 0x3FFFF = true ∧
      ({ demo with servedNow := [(lineOf 0x10000078, demo.eCycle (lineOf 0x10000078), 0x40000)] } : State).inTurn (lineOf 0x10000078) 0x3FFFF = false) ∧
    (let pa := 2 ^ 46 + 0x10000078; moduleOf pa ≠ pair.hub.modnum ∧ pair.populated pa 8 = true ∧ inMmio pa = false ∧ pair.openAt (lineOf pa) 128) ∧
    (∀ st ∈ [CchState.exclusive, .modified], let s : State := { demo with hostCopies := [agentLine st] };
      (agentLine st).pa = lineOf 0x10000078 ∧ (agentLine st).owned = true ∧
      ∀ w ∈ [false, true], s.rangeHeld 0x10000078 8 w (some 2048) = false) := by decide +kernel

theorem wit_OutsideEvents_windows :
    (∀ pa ∈ [0x3FF000010000, 0x3FF100001000], demo.populated pa 8 = true ∧ inMmio pa = true ∧ rsRegister pa = true ∧
      demo.reaches .core pa = true ∧ demo.reaches .firmware pa = true ∧ demo.reaches .pcie pa = inHubWindow pa) ∧
    (localOf 0x3FF000040000 = 0x3FF000000000 + 0x40000 ∧ demo.populated 0x3FF000040000 8 = true ∧ rsRegister 0x3FF000040000 = false ∧
      demo.reaches .pcie 0x3FF000040000 = true) ∧ inHubWindow 0x3FF100001000 = false ∧
    (let pa := 2 ^ 46 + 0x3FF000040000; moduleOf pa ≠ pair.hub.modnum ∧ pair.populated pa 8 = true ∧ inMmio pa = true) := by decide +kernel

/-- Firmware has written MODNUM 0. -/
def booted : State := { demo with hub := { demo.hub with modWritten := true } }

theorem wit_OutsideEvents_remote :
    demo.hub.modWritten = false ∧ booted.hub.modWritten = true ∧ moduleOf 0x10000078 = booted.hub.modnum ∧ moduleOf (2 ^ 46) ≠ booted.hub.modnum ∧
    0x1000 / 4096 % 64 ≠ booted.hub.modnum ∧ 0 / 4096 % 64 = booted.hub.modnum ∧ booted.colls = [] ∧
    booted.populated 0x3F0000000000 8 = false ∧ booted.populated 0x3FF100003000 8 = true ∧ inMmio 0x3FF100003000 = true ∧
    inHubWindow 0x3FF100003000 = false ∧
    booted.populated 0x3FF000010008 8 = true ∧ inMmio 0x3FF000010008 = true ∧ inHubWindow 0x3FF000010008 = true ∧
    localOf 0x3FF000010008 = 0x3FF000000000 + 0x10008 ∧ booted.populated 0x10000078 8 = true ∧ inMmio 0x10000078 = false := by
  decide +kernel

/-- A request numbered 0x1005 of context 2 fired at 9; the line it names is free, under recall, taken in this cycle by a higher number, or locked. -/
def requestId : Nat := 2 ^ 64 + (9 * 2 ^ 18 + 0x1005) * 16 + 2

theorem wit_OutsideEvents_turns : let line := lineOf 0x10000078
    (({ booted with recalls := [⟨0x10000000, [1], false⟩] } : State).busyLine 0x10000078 = true) ∧
    (({ booted with servedNow := [(line, booted.eCycle line, 0x2000)] } : State).inTurn line 0x1005 = false) ∧
    (booted.recalls.any (·.line == line) = false ∧ booted.inTurn line 0x1005 = true ∧ booted.locks = [] ∧ booted.uncopied line 128) ∧
    (∀ h ∈ [1, requestId], let k : LineLock := ⟨line, h, []⟩; let s : State := { booted with locks := [k] };
      s.locks = [k] ∧ k.line = line ∧ (h = 1 ↔ k.holder ≠ requestId) ∧ requestId ∉ k.queue ∧ s.inTurn line 0x1005 = true) := by decide +kernel

theorem wit_OutsideEvents_served : let line := lineOf 0x10000078
    booted.openAt line 128 ∧ booted.watches = [] ∧ 0x10000078 % 8 = 0 ∧ 0x10000078 % 128 + 8 ≤ 128 ∧ 0x10000070 % 16 = 0 ∧ 0x10000070 % 128 + 16 ≤ 128 ∧
    0x10000078 + 8 ≤ booted.descAddr 0x10000078 ∧ memNat booted.mem 0x10000078 8 = 0 ∧
    ∀ n ∈ [0, 1, 2], memNat (memStore [] 0x10000070 (leBytes 4 n)) 0x10000070 4 = n := by decide +kernel

theorem wit_OutsideEvents_reset :
    (∀ pa ∈ [0x3FF000040000, 0x10000000], inMmio pa = (pa == 0x3FF000040000)) ∧ meetsDs 0x60 (0x3E00000000 % 2 ^ 46) 1 = true ∧
    0x3E00000000 / 2 ^ 46 % 64 = 0 % 64 ∧ 0x10000000 / 4096 * 4096 + 0x3000 ≤ 0x3E00000000 ∧
    (∀ g ∈ [0x60, 0x44, 0x28], (partOf g 4).grade = g ∧ ∃ a ∈ [0xFA00000000, 0xBC00000000, 0x9D00000000], meetsDs g a 1 = true) := by decide +kernel

theorem wit_OutsideEvents_packets : let p : UePacket := ⟨true, 63, 0x10003000, List.replicate 256 1⟩;
    p.block.length = 256 ∧ p.addr < 2 ^ 52 ∧ p.addr % 256 = 0 ∧ demo.populated p.addr 256 = true ∧ inMmio p.addr = false ∧ demo.openAt p.addr 256 ∧ moduleOf p.addr = demo.hub.modnum ∧
    p.queue < demo.lqueues.length ∧ (demo.lqueue p.queue).pushed.length < 256 := by decide +kernel

/-- The block of a collective of two: one FP32 element from 0x40 to 0x80, or the broadcast of the root's. -/
def colA (op root flag : Nat) : List Nat :=
  leBytes 8 0x40 ++ leBytes 8 0x80 ++ leBytes 4 1 ++ [1, op, root, 2] ++ leBytes 4 7 ++ leBytes 4 0 ++ leBytes 8 flag ++ leBytes 8 9 ++ List.replicate 16 0

def pushA (addr : Nat) : Access :=
  { accessA .store .none 0x3FF200003008 0x10 [] .waiting [] with
    asid := 7
    parts := [{ lane := 0, va := 0, pa := 0x3FF200003008, size := 8, leaf := 0x10, page := 4096, data := leBytes 8 addr, word := 0, st := .waiting, bound := [], since := 0 }] }

def portA (id port : Nat) (block : List Nat) : CollPort :=
  { id := id, die := 1, port := port, cell := 0, elem := 0, ctx := 0, slot := 0, asid := 7, profile := 0x108, opcode := 0x52, addr := 0, block := block
    colid := 7, joined := 3, seq := 9, lanes := 1, module := 0, src := [] }

/-- A store to COLPUSH 1 of die 1 names a block at 0. -/
def pushing (addr : Nat) (cs : List CollPort) : State :=
  { launched [launchA] graph with accs := [pushA addr], colls := cs, mem := memStore [] 0x10000000 (colA 0 0 0) }

theorem wit_OutsideEvents_joins :
    colPort 0x3FF200003008 = some (1, 1) ∧
    (∀ p ∈ [(0, ([] : List CollPort)), (63, []), (0, List.replicate 4 (portA 8 1 []))], let s := pushing p.1 p.2;
      s.acc? 1 = some (pushA p.1) ∧ (∀ q ∈ (pushA p.1).parts, q.pa = 0x3FF200003008 ∧ q.st = .waiting ∧ q.size = 8 ∧ leNat q.data = p.1 ∧
        s.blocked (pushA p.1) 0 q = false) ∧ (pushA p.1).op = .store ∧ s.hasCtx 0 0 0 ∧ dieOf 0 < s.dies.length ∧
      (s.colls.filter fun c => c.die == 1 && c.port == 1).length = p.2.length) ∧
    (let t := (pushing 0 []).newId.2; t.translate none 1 7 ((pushing 0 []).curCell.asid == 0) .load 0 = (.ok 0x10000000 0x100C (2 ^ 21), t) ∧
      (pushing 0 []).descriptionWaits 0 0 0 (pushA 0).seq 7 0 0x10000000 0x100C 64 = false ∧
      t.engineLoadPiece none 1 7 ((pushing 0 []).curCell.asid == 0) .load (hintOf (pushA 0).profile) 0 64 = .ok (colA 0 0 0) t ∧ colBad (colA 0 0 0) = false ∧
      colMisaligned (colA 0 0 0) = none ∧ t.acc? 1 = some (pushA 0)) := by decide +kernel

/-- Ports that have joined; the die holds the translations. -/
def joined (cs : List CollPort) (time : Nat) : State := { launched [launchA] graph with colls := cs, time := time }

theorem some_pair {α β : Type} {o : Option (α × β)} {a : α} {b : β} (h : o.map (·.1) = some a) (k : o.map (·.2) = some b) : o = some (a, b) := by
  cases o <;> simp_all [Prod.ext_iff]

theorem wit_OutsideEvents_reads :
    (∀ flag ∈ [0, 0x88], let g := [portA 8 0 (colA 0 0 flag), portA 9 1 (colA 0 0 flag)];
      (joined g 0).colReads g [] = some (joined g 0, .inl [[0, 0, 0, 0], [0, 0, 0, 0]])) ∧
    let g := [portA 8 0 (colA 1 1 0), portA 9 1 (colA 1 0 0)]; (joined g 0).colReads g [] = some (joined g 0, .inl [[0, 0, 0, 0]]) := by
  refine ⟨fun flag hf => some_pair ?_ ?_, some_pair (by decide +kernel) (by decide +kernel)⟩ <;> (revert hf; revert flag; decide +kernel)

/-- A port of another module whose block breaks a rule. -/
theorem wit_OutsideEvents_remotes : let p := { portA 8 0 (colA 2 0 0) with module := 1, cell := 300 }; let s := joined [p] 0;
    s.colGroup 7 = [p] ∧ p.module ≠ s.hub.modnum ∧ groupBad [p] = true ∧ s.cell 300 = Cell.blank 300 := by decide +kernel

theorem wit_OutsideEvents_runs :
    (joined [] 0).colGroup 7 = [] ∧
    (let g := [portA 8 0 (colA 0 0 0)]; let s := joined g 0; s.colGroup 7 = g ∧ groupBad g = false ∧ g.length < colNpart (colA 0 0 0)) ∧
    (∀ flag ∈ [0, 0x88], let g := [portA 8 0 (colA 0 0 flag), portA 9 1 (colA 0 0 flag)]; let s := joined g 0;
      s.colGroup 7 = g ∧ groupBad g = false ∧ colNpart (colA 0 0 flag) = 2 ∧ (∀ x ∈ g, s.colWaits x = false) ∧
      colFmt (colA 0 0 flag) = 1 ∧ (s.colWrites [0, 0, 0, 0] g).isSome = true) ∧
    (let g := [portA 8 0 (colA 1 1 0), portA 9 1 (colA 1 0 0)]; let s := joined g 0;
      s.colGroup 7 = g ∧ groupBad g = false ∧ colNpart (colA 1 1 0) = 2 ∧ colOp (colA 1 1 0) = 1 ∧
      (s.colWrites [0, 0, 0, 0] g).isSome = true) ∧
    (∀ p ∈ [(colA 2 0 0, 3), (colA 0 0 0, 2000000000 * Config.ps + 2), (colA 0 0 0, 2000000000 * Config.ps + 3)], let g := [portA 8 0 p.1]; let s := joined g p.2;
      s.colGroup 7 = g ∧ s.hasCtx 0 0 0 ∧ dieOf 0 < s.dies.length ∧ (groupBad g = true ↔ p.2 = 3) ∧
      (p.2 ≠ 3 → (1 < colNpart p.1 ∧ (p.2 = 2000000000 * Config.ps + 2 ↔ s.time < 3 + 2000000000 * Config.ps)))) ∧
    (∀ flag ∈ [0, 0x88], let p := portA 8 0 (colA 0 0 flag); let s := joined [p] 0;
      (s.colls = [p] ∧ s.accs = [] ∧ s.hasCtx 0 0 0) ∧ ∃ t, s.engineStore none 1 7 ((s.cell 0).asid == 0) (hintOf p.profile) 0x80 [1, 2, 3, 4] = .ok [] t ∧
        (flag ≠ 0 → ∃ w, t.engineStore none 1 7 ((s.cell 0).asid == 0) (hintOf p.profile) 0x88 (leBytes 8 9) = .ok [] w)) := by
  refine ⟨by decide +kernel, by decide +kernel, by decide +kernel, by decide +kernel, by decide +kernel, fun flag hf => ?_⟩
  exact ⟨by revert hf; revert flag; decide +kernel, _, rfl, fun _ => ⟨_, rfl⟩⟩

/-! One step on the state that withFetchWord builds from reset; the expected values are the spec's. -/

/-- The state after one step on an instruction's word. -/
def after (w : Nat) : State := match step (State.reset.withFetchWord 32 w) with | .next u => u | _ => State.reset

/-- MOVI v5, -1 writes every lane (R231). -/
theorem test_step_movi : lane (((after 0x00117FFF).ctxOf 0 0 0).v.getD 5 []) 0 = 0xFFFFFFFF ∧ lane (((after 0x00117FFF).ctxOf 0 0 0).v.getD 5 []) 63 = 0xFFFFFFFF := by
  decide +kernel

/-- SYSR v3, clkgrant reads the set V0 M0 N4 E6 of a die after reset (R252, R253, R368). -/
theorem test_step_sysr : lane (((after 0x1138C011).ctxOf 0 0 0).v.getD 3 []) 9 = 0x46 := by decide +kernel

/-- TRAP 0x21 pushes a record with code 0x0F and its own code in the address, and holds its context (R255, R374). -/
theorem test_step_trap : (((after 0x014F0021).die 0).records.map fun (r : OpenRecord) => (r.record.code, r.record.addr, r.record.opcode)) = [(0x0F, 0x21, 0x29)] ∧
    ((after 0x014F0021).ctxOf 0 0 0).heldBy.length = 1 := by decide +kernel

/-- CENS -3 lowers the cell's part of the census by 3 (R182, R251). -/
theorem test_step_cens : ((after 0x153701FD).partOf ((after 0x153701FD).cell 0).seat) = -3 := by decide +kernel

/-- A compare of a register with itself for equality writes m1 in every lane of m0 (R239). -/
theorem test_exec_icmp : (match exec (.icmp 0 1 (.v 0) (.v 0) 0) demo with | .next u => (u.ctxOf 0 0 0).m.getD 1 0 | _ => 0) = 0xFFFFFFFFFFFFFFFF := by
  decide +kernel

/-- -7 divided by 0 is all ones, and its remainder -7 (R234). -/
theorem test_exec_divide_by_zero :
    let s := demo.setCtx 0 0 0 fun k => { k with v := [List.replicate 64 (BitVec.ofInt 32 (-7)), List.replicate 64 0] ++ k.v.drop 2 };
    (match exec (.idiv 0 (.v 4) (.v 0) (.v 1) false) s with | .next u => lane ((u.ctxOf 0 0 0).v.getD 4 []) 3 | _ => 0) = 0xFFFFFFFF ∧
    (match exec (.irem 0 (.v 4) (.v 0) (.v 1) false) s with | .next u => lane ((u.ctxOf 0 0 0).v.getD 4 []) 3 | _ => 0) = 0xFFFFFFF9 := by decide +kernel

/-- The largest FP32 number doubled is infinite, with OF and NX (R192, R201). -/
theorem test_exec_fadd_overflow :
    let s := demo.setCtx 0 0 0 fun k => { k with v := List.replicate 64 0x7F7FFFFF :: k.v.drop 1 };
    (match exec (.fadd 0 (.v 4) (.v 0) (.v 0)) s with | .next u => (lane ((u.ctxOf 0 0 0).v.getD 4 []) 3, (u.ctxOf 0 0 0).fpflags) | _ => (0, 0)) =
      (0x7F800000, 20) := by decide +kernel

end Sys2Proof.Tests
end

section
/-! # Memory stays in its canonical form (O6)

What each operation of the model does to memory: a lemma `…_mem` where it leaves memory as it is, a lemma `…_canonical` where it may write
and keeps the canonical form. `…_ok_…`, `…_some_…` and `…_pair_…` say the same of the state inside an engine's answer, an option
or a pair that has been taken apart. They stand in the order of the model's files; `exec_canonical` collects the
instructions and the events, and `step_canonical` is the invariant. -/

namespace Sys2Proof.Machine
open Sys2Proof

/-- The canonical form as a predicate that `simp` does not take apart. -/
def Canonical (m : List Host.Cell) : Prop := Memory.wf m

/-- The next state of an outcome, where it has one, has its memory in canonical form. -/
def CanonicalOut (o : Out) : Prop := ∀ u, o = .next u → Canonical u.mem

/-- The state that an engine's access leaves, where it is performed, has its memory in canonical form. -/
def CanonicalHub (r : HubResult) : Prop := ∀ bs u, r = .ok bs u → Canonical u.mem
@[simp] theorem canonicalOut_next (u : State) : CanonicalOut (.next u) ↔ Canonical u.mem :=
  ⟨fun h => h u rfl, by rintro h _ ⟨⟩; exact h⟩
@[simp] theorem canonicalOut_fault (r : Fault) : CanonicalOut (.fault r) := by rintro _ ⟨⟩
@[simp] theorem canonicalOut_refused (r : Refusal) : CanonicalOut (.refused r) := by rintro _ ⟨⟩
@[simp] theorem canonicalHub_ok (bs : List Nat) (s : State) : CanonicalHub (.ok bs s) ↔ Canonical s.mem :=
  ⟨fun h => h bs s rfl, by rintro h _ _ ⟨⟩; exact h⟩
@[simp] theorem canonicalHub_wait : CanonicalHub .wait := by rintro _ _ ⟨⟩
@[simp] theorem canonicalHub_fault (code cause va : Nat) : CanonicalHub (.fault code cause va) := by rintro _ _ ⟨⟩
theorem CanonicalHub.of_ok {r : HubResult} {bs : List Nat} {u : State} (h : CanonicalHub r) (e : r = .ok bs u) :
    Canonical u.mem := h bs u e

/-! The operations on memory. -/
@[simp] theorem canonical_memStore {m : List Host.Cell} (a : Nat) (bs : List Nat) (h : Canonical m) :
    Canonical (memStore m a bs) := memStore_wf a bs h
@[simp] theorem canonical_memStoreMasked {m : List Host.Cell} (a mask : Nat) (bs : List Nat) (h : Canonical m) :
    Canonical (memStoreMasked m a mask bs) := memStoreMasked_wf a mask bs h
@[simp] theorem canonical_bootMemory (fw : Firmware) (table : List Nat) : Canonical (bootMemory fw table) :=
  bootMemory_wf fw table

/-! A fold of steps that each leave memory, or keep its form, does so too. -/

@[simp] theorem foldl_mem {α : Type} (f : State → α → State) (hf : ∀ s a, (f s a).mem = s.mem) (xs : List α)
    (s : State) : (xs.foldl f s).mem = s.mem := by
  induction xs generalizing s with
  | nil => rfl
  | cons x xs ih => rw [List.foldl_cons, ih, hf]

@[simp] theorem foldl_canonical {α : Type} (f : State → α → State)
    (hf : ∀ s a, Canonical s.mem → Canonical (f s a).mem) (xs : List α) (s : State) (h : Canonical s.mem) :
    Canonical (xs.foldl f s).mem := foldl_wf f hf xs h
theorem ite_canonical {c : Prop} [Decidable c] {s t : State} (hs : Canonical s.mem) (ht : Canonical t.mem) :
    Canonical (if c then s else t).mem := by split <;> assumption

/-- A state that takes a step where it can, and else stands as it is. -/
theorem getD_canonical {o : Option State} {s : State} (h : ∀ u, o = some u → Canonical u.mem) (wf : Canonical s.mem) :
    Canonical (o.getD s).mem := by
  cases o with
  | none => exact wf
  | some u => exact h u rfl

/-- A fold of accesses of an engine keeps the form where each access does. -/
theorem foldl_canonicalHub {α : Type} (f : HubResult → α → HubResult)
    (hf : ∀ r a, CanonicalHub r → CanonicalHub (f r a)) (xs : List α) {bs : List Nat} {s : State}
    (wf : Canonical s.mem) : CanonicalHub (xs.foldl f (.ok bs s)) :=
  List.foldlRecOn xs f ((canonicalHub_ok bs s).2 wf) fun r hr a _ => hf r a hr

/-! Line eviction, recalls and stores performed at once (Laws/Mem.lean). -/
@[simp] theorem State.homeWrite_canonical (s : State) (pa : Nat) (bs : List Nat) (wf : Canonical s.mem) :
    Canonical (s.homeWrite pa bs).mem := homeWrite_wf pa bs wf
@[simp] theorem State.evictLine_canonical (s : State) (cell line : Nat) (wf : Canonical s.mem) :
    Canonical (s.evictLine cell line).mem := evictLine_wf cell line wf
@[simp] theorem State.evictAll_canonical (s : State) (cell : Nat) (wf : Canonical s.mem) :
    Canonical (s.evictAll cell).mem := evictAll_wf cell wf
@[simp] theorem State.pull_canonical (s : State) (line : Nat) (store : Bool) (keep : Option Nat)
    (wf : Canonical s.mem) : Canonical (s.pull line store keep).mem := pull_wf line store keep wf
@[simp] theorem State.storeNow_canonical (s : State) (cell : Option Nat) (pa : Nat) (bs : List Nat)
    (desc : Option Nat) (wf : Canonical s.mem) : Canonical (s.storeNow cell pa bs desc).mem :=
  storeNow_wf cell pa bs desc wf
@[simp] theorem State.storeThrough_canonical (s : State) (cell : Option Nat) (pa : Nat) (bs : List Nat)
    (wf : Canonical s.mem) : Canonical (s.storeThrough cell pa bs).mem := storeThrough_wf cell pa bs wf
@[simp] theorem State.copyPage_canonical (s : State) (src dst n : Nat) (descs : Bool) (wf : Canonical s.mem) :
    Canonical (s.copyPage src dst n descs).mem := copyPage_wf src dst n descs wf

/-! Operations -/

@[simp] theorem State.newId_mem (s : State) : s.newId.2.mem = s.mem := by simp [State.newId]
theorem State.newId_pair_mem {s : State} {r : Nat} {u : State} (eqn : s.newId = (r, u)) : u.mem = s.mem := by
  have h := State.newId_mem s
  rwa [eqn] at h
@[simp] theorem State.stepOwed_mem (s : State) : s.stepOwed.mem = s.mem := by simp [State.stepOwed]
@[simp] theorem State.splitSoon_mem (s : State) : s.splitSoon.mem = s.mem := by simp [State.splitSoon]
@[simp] theorem State.pushRecordAt_mem (s : State) (time c e x slot opcode flags profile : Nat) (f : FaultInfo)
    (of_ : RecordOf) : (s.pushRecordAt time c e x slot opcode flags profile f of_).2.mem = s.mem := by
  simp [State.pushRecordAt]

/-! Operands -/

@[simp] theorem State.alu2_mem (s : State) (t : Fin 64) (d : Dst) (a b : Src) (w : Bool) (extra : Nat)
    (f : Word → Word → Word) (g : BitVec 64 → BitVec 64 → BitVec 64) : (s.alu2 t d a b w extra f g).mem = s.mem := by
  simp [State.alu2]
@[simp] theorem State.alu1_mem (s : State) (t : Fin 64) (d : Dst) (a : Src) (w : Bool) (f : Word → Word)
    (g : BitVec 64 → BitVec 64) : (s.alu1 t d a w f g).mem = s.mem := by simp [State.alu1]
@[simp] theorem State.shift_mem (s : State) (t : Fin 64) (d : Dst) (a b : Src) (w : Bool) (f : Word → Nat → Word)
    (g : BitVec 64 → Nat → BitVec 64) : (s.shift t d a b w f g).mem = s.mem := by simp [State.shift]
@[simp] theorem State.fpu_mem (s : State) (t : Fin 64) (d : Dst) (extra : Nat) (f : Nat → Word × Nat) :
    (s.fpu t d extra f).mem = s.mem := by simp [State.fpu]
@[simp] theorem State.compare_mem (s : State) (t : Fin 64) (d : MaskReg) (f : Nat → Bool) :
    (s.compare t d f).mem = s.mem := by simp [State.compare]

/-! Cells and dies -/

@[simp] theorem State.serveTurn_mem (s : State) (line who : Nat) : (s.serveTurn line who).mem = s.mem := by
  simp [State.serveTurn]

/-! The cells' L1 and the directory -/

@[simp] theorem State.markWatches_mem (s : State) (pa : Nat) (old new : List Nat) :
    (s.markWatches pa old new).mem = s.mem := by simp [State.markWatches]
@[simp] theorem State.homeWriteMasked_canonical (s : State) (pa mask : Nat) (bs : List Nat) (wf : Canonical s.mem) :
    Canonical (s.homeWriteMasked pa mask bs).mem := by simp [State.homeWriteMasked, wf]
@[simp] theorem State.countUncorr_mem (s : State) (die : Nat) : (s.countUncorr die).mem = s.mem := by
  simp [State.countUncorr]
@[simp] theorem State.refetch_mem (s : State) (pa : Nat) : (s.refetch pa).mem = s.mem := by
  simp [State.refetch, apply_ite State.mem]
@[simp] theorem State.correctSram_mem (s : State) (cell a n : Nat) : (s.correctSram cell a n).mem = s.mem := by
  simp [State.correctSram]
@[simp] theorem State.cleanSpot_mem (s : State) (cell : Nat) (l : CchLine) : (s.cleanSpot cell l).mem = s.mem := by
  simp [State.cleanSpot]
@[simp] theorem State.writeBytes_canonical (s : State) (l : CchLine) (mask : Nat) (wf : Canonical s.mem) :
    Canonical (s.writeBytes l mask).mem := by
  unfold State.writeBytes; split <;> simp [wf]
@[simp] theorem State.writeDescs_canonical (s : State) (l : CchLine) (blocks : Nat) (wf : Canonical s.mem) :
    Canonical (s.writeDescs l blocks).mem :=
  foldl_canonical _ (fun s b h => by split <;> simp [h]) _ s wf
@[simp] theorem State.homeNat_canonical (s : State) (pa n : Nat) (wf : Canonical s.mem) :
    Canonical (s.homeNat pa n).2.mem := by simp [State.homeNat, wf]
@[simp] theorem State.recallRegion_canonical (s : State) (region : Nat) (wf : Canonical s.mem) :
    Canonical (s.recallRegion region).mem := by simp +contextual [State.recallRegion, wf]

@[simp] theorem State.makeEntryRoom_canonical (s : State) (region : Nat) (wf : Canonical s.mem) :
    Canonical (s.makeEntryRoom region).mem := by
  simp only [State.makeEntryRoom]
  repeat' split
  all_goals simp [wf]

@[simp] theorem State.makeGroupRoom_canonical (s : State) (region : Nat) (wf : Canonical s.mem) :
    Canonical (s.makeGroupRoom region).mem := by
  simp only [State.makeGroupRoom]
  repeat' split
  all_goals simp [wf]

@[simp] theorem State.dirGrant_canonical (s : State) (q line : Nat) (store : Bool) (wf : Canonical s.mem) :
    Canonical (s.dirGrant q line store).2.mem := by
  simp only [State.dirGrant]
  repeat' split
  all_goals simp [wf]

@[simp] theorem State.setPlru_mem (s : State) (line b : Nat) : (s.setPlru line b).mem = s.mem := by
  simp [State.setPlru]
@[simp] theorem State.sliceEvict_canonical (s : State) (line : Nat) (wf : Canonical s.mem) :
    Canonical (s.sliceEvict line).mem := by simp [State.sliceEvict, wf]

@[simp] theorem State.sliceTouch_canonical (s : State) (pa hint : Nat) (wf : Canonical s.mem) :
    Canonical (s.sliceTouch pa hint).mem := by
  simp only [State.sliceTouch]
  repeat' split
  all_goals simp [wf]

@[simp] theorem State.fill_canonical (s : State) (cell line : Nat) (st : CchState) (described : Bool)
    (wf : Canonical s.mem) : Canonical (s.fill cell line st described).mem := by
  simp only [State.fill]
  repeat' split
  all_goals simp [wf]

@[simp] theorem State.loadNow_canonical (s : State) (cell : Option Nat) (sm : Bool) (pa n : Nat)
    (wf : Canonical s.mem) : Canonical (s.loadNow cell sm pa n).2.mem := by
  unfold State.loadNow; split <;> simp [wf]

@[simp] theorem State.smFill_canonical (s : State) (cell : Option Nat) (hint pa leaf : Nat) (wf : Canonical s.mem) :
    Canonical (s.smFill cell hint pa leaf).mem := by
  simp only [State.smFill]
  repeat' split
  all_goals simp [wf]

@[simp] theorem State.dirAtomic_canonical (s : State) (cell pa : Nat) (wf : Canonical s.mem) :
    Canonical (s.dirAtomic cell pa).mem := by
  unfold State.dirAtomic; split <;> simp [wf]

/-! Translation -/

@[simp] theorem State.readEntry_canonical (s : State) (pa : Nat) (wf : Canonical s.mem) :
    Canonical (s.readEntry pa).2.mem := by
  simp only [State.readEntry]
  repeat' split
  all_goals simp [wf]

theorem State.readEntry_pair_canonical {s : State} {pa : Nat} {r : TableRead} {u : State}
    (eqn : s.readEntry pa = (r, u)) (wf : Canonical s.mem) : Canonical u.mem := by
  have h := State.readEntry_canonical s pa wf
  rwa [eqn] at h
@[simp] theorem State.readTable_canonical (s : State) (die asid va level pa : Nat) (wf : Canonical s.mem) :
    Canonical (s.readTable die asid va level pa).2.mem := by
  unfold State.readTable; split <;> simp [wf]
theorem State.readTable_pair_canonical {s : State} {die asid va level pa : Nat} {r : TableRead} {u : State}
    (eqn : s.readTable die asid va level pa = (r, u)) (wf : Canonical s.mem) : Canonical u.mem := by
  have h := State.readTable_canonical s die asid va level pa wf
  rwa [eqn] at h
@[simp] theorem State.keepTable_mem (s : State) (die asid va level v : Nat) :
    (s.keepTable die asid va level v).mem = s.mem := by simp [State.keepTable]

@[simp] theorem State.walkFrom_canonical (s : State) (die asid va fuel table : Nat) (wf : Canonical s.mem) :
    Canonical (s.walkFrom die asid va fuel table).2.mem := by
  induction fuel generalizing s table with
  | zero => exact wf
  | succ fuel ih => grind [State.walkFrom, → State.readTable_pair_canonical, State.keepTable_mem]

@[simp] theorem State.walk_canonical (s : State) (die asid va : Nat) (wf : Canonical s.mem) :
    Canonical (s.walk die asid va).2.mem := by
  grind [State.walk, State.walkFrom_canonical, State.readTable_canonical, State.keepTable_mem]
@[simp] theorem State.installAt_mem (s : State) (cell : Option Nat) (die : Nat) (e : TlbEntry) :
    (s.installAt cell die e).mem = s.mem := by
  unfold State.installAt; split <;> simp
@[simp] theorem State.walkFor_canonical (s : State) (cell : Option Nat) (die asid : Nat) (resident : Bool) (k : Kind)
    (va : Nat) (wf : Canonical s.mem) : Canonical (s.walkFor cell die asid resident k va).2.mem := by
  grind [State.walkFor, State.walk_canonical, State.storeNow_canonical, State.installAt_mem]

theorem State.walkFor_pair_canonical {s : State} {cell : Option Nat} {die asid : Nat} {resident : Bool} {k : Kind}
    {va : Nat} {r : Trans} {u : State} (eqn : s.walkFor cell die asid resident k va = (r, u)) (wf : Canonical s.mem)
    : Canonical u.mem := by
  have h := State.walkFor_canonical s cell die asid resident k va wf
  rwa [eqn] at h

@[simp] theorem State.joinWalk_mem (s : State) (cell : Option Nat) (die asid va : Nat) :
    (s.joinWalk cell die asid va).mem = s.mem := by
  simp only [State.joinWalk]
  repeat' split
  all_goals simp

@[simp] theorem State.throughEntry_canonical (s : State) (cell : Option Nat) (die asid : Nat) (resident : Bool)
    (k : Kind) (va : Nat) (e : TlbEntry) (wf : Canonical s.mem) :
    Canonical (s.throughEntry cell die asid resident k va e).2.mem := by
  simp only [State.throughEntry]
  repeat' split
  all_goals simp [wf]

@[simp] theorem State.translate_canonical (s : State) (cell : Option Nat) (die asid : Nat) (resident : Bool)
    (k : Kind) (va : Nat) (wf : Canonical s.mem) : Canonical (s.translate cell die asid resident k va).2.mem := by
  simp only [State.translate]
  repeat' split
  all_goals simp [wf]

theorem State.translate_pair_canonical {s : State} {cell : Option Nat} {die asid : Nat} {resident : Bool} {k : Kind}
    {va : Nat} {r : Trans} {u : State} (eqn : s.translate cell die asid resident k va = (r, u))
    (wf : Canonical s.mem) : Canonical u.mem := by
  have h := State.translate_canonical s cell die asid resident k va wf
  rwa [eqn] at h

@[simp] theorem State.translateFor_canonical (s : State) (c asid : Nat) (k : Kind) (va : Nat) (wf : Canonical s.mem)
    : Canonical (s.translateFor c asid k va).2.mem := by simp [State.translateFor, wf]
theorem State.translateFor_pair_canonical {s : State} {c asid : Nat} {k : Kind} {va : Nat} {r : Trans} {u : State}
    (eqn : s.translateFor c asid k va = (r, u)) (wf : Canonical s.mem) : Canonical u.mem := by
  have h := State.translateFor_canonical s c asid k va wf
  rwa [eqn] at h
@[simp] theorem State.removeTranslations_mem (s : State) (form asid va : Nat) :
    (s.removeTranslations form asid va).mem = s.mem := by simp [State.removeTranslations]

/-! The memory unit -/

@[simp] theorem State.setAcc_mem (s : State) (id : Nat) (f : Access → Access) : (s.setAcc id f).mem = s.mem := by
  simp [State.setAcc]
@[simp] theorem State.dropAcc_mem (s : State) (id : Nat) : (s.dropAcc id).mem = s.mem := by simp [State.dropAcc]
@[simp] theorem State.setPart_mem (s : State) (id i : Nat) (f : Part → Part) : (s.setPart id i f).mem = s.mem := by
  simp [State.setPart]
@[simp] theorem State.bindAt_mem (s : State) (id pa : Nat) (bytes : List Nat) (word : Nat) :
    (s.bindAt id pa bytes word).mem = s.mem := by simp [State.bindAt]
@[simp] theorem State.passEarlier_mem (s : State) (a : Access) : (s.passEarlier a).mem = s.mem := by
  simp [State.passEarlier, apply_ite State.mem]
@[simp] theorem State.passFor_mem (s : State) (id : Nat) : (s.passFor id).mem = s.mem := by
  unfold State.passFor; split <;> simp
@[simp] theorem State.donePart_mem (s : State) (id i : Nat) : (s.donePart id i).mem = s.mem := by
  simp [State.donePart]

@[simp] theorem State.translateAll_canonical (s : State) (asid : Nat) (k : Kind) (ls : List (Nat × Nat))
    (wf : Canonical s.mem) : Canonical (s.translateAll asid k ls).2.mem := by
  simp only [State.translateAll]
  induction ls using List.reverseRecOn with
  | nil => exact wf
  | append_singleton ls l ih => rw [List.foldl_concat]; exact State.translateFor_canonical _ _ _ _ _ ih

theorem State.translateAll_pair_canonical {s : State} {asid : Nat} {k : Kind} {ls : List (Nat × Nat)}
    {r : List (Nat × Nat × Trans)} {u : State} (eqn : s.translateAll asid k ls = (r, u)) (wf : Canonical s.mem) :
    Canonical u.mem := by
  have h := State.translateAll_canonical s asid k ls wf
  rwa [eqn] at h

@[simp] theorem State.occupy_mem (s : State) : s.occupy.mem = s.mem := by simp [State.occupy]
@[simp] theorem State.enter_mem (s : State) (op : AccOp) (res : Result) (profile asid : Nat) (parts : List Part) :
    (s.enter op res profile asid parts).2.mem = s.mem := by simp [State.enter]
@[simp] theorem State.endEmpty_mem (s : State) (t : Fin 64) (profile : Nat) : (s.endEmpty t profile).mem = s.mem := by
  simp [State.endEmpty]

@[simp] theorem State.fireLoad_canonical (s : State) (t : Fin 64) (p : Profile) (k : Kind) (op : AccOp)
    (res : Result) (mark : Nat → Nat) (size : Nat) (ls : List (Nat × Nat)) (data : Nat → List Nat) (word : Nat → Nat)
    (check : State → List (Nat × Nat × Trans) → Option FaultInfo) (wf : Canonical s.mem) :
    Canonical (s.fireLoad t p k op res mark size ls data word check).mem := by
  simp only [State.fireLoad]
  repeat' split
  all_goals simp [wf]

@[simp] theorem State.logRecord_mem (s : State) (mark : Nat → Nat) (prof page asid : Nat) (ls : List (Nat × Nat)) :
    (s.logRecord mark prof page asid ls).mem = s.mem := by simp [State.logRecord]

@[simp] theorem State.fireStore_canonical (s : State) (t : Fin 64) (p : Profile) (k : Kind) (op : AccOp)
    (mark : Nat → Nat) (size : Nat) (ls : List (Nat × Nat)) (data : Nat → List Nat) (word : Nat → Nat)
    (reduction : Option Nat) (wf : Canonical s.mem) :
    Canonical (s.fireStore t p k op mark size ls data word reduction).mem := by
  simp only [State.fireStore]
  repeat' split
  case h_2.isFalse.isFalse.isFalse.isFalse =>
    rw [foldl_mem _ fun _ _ => State.logRecord_mem .., State.endFiring_mem]
    rw [foldl_mem _ (fun _ _ => by rfl)]
    simp [wf]
  all_goals simp [wf]

@[simp] theorem State.reportFailed_mem (s : State) (id : Nat) : (s.reportFailed id).mem = s.mem := by
  simp only [State.reportFailed]
  repeat' split
  all_goals simp
@[simp] theorem State.failPart_mem (s : State) (id i code : Nat) : (s.failPart id i code).mem = s.mem := by
  simp [State.failPart]
@[simp] theorem State.writeResult_mem (s : State) (a : Access) : (s.writeResult a).mem = s.mem := by
  simp only [State.writeResult]
  repeat' split
  all_goals simp
@[simp] theorem State.reissue_mem (s old : State) (c e x : Nat) : (s.reissue old c e x).mem = s.mem := by
  simp [State.reissue]
@[simp] theorem State.finish_mem (s : State) (a : Access) : (s.finish a).mem = s.mem := by
  simp [State.finish, apply_ite State.mem]
@[simp] theorem State.clearLog_mem (s : State) (a : Access) : (s.clearLog a).mem = s.mem := by
  simp [State.clearLog, apply_ite State.mem]
@[simp] theorem State.endAccess_mem (s : State) (a : Access) : (s.endAccess a).mem = s.mem := by
  simp only [State.endAccess]
  repeat' split
  all_goals simp
@[simp] theorem State.endFence_mem (s : State) (f : Fence) : (s.endFence f).mem = s.mem := by
  simp [State.endFence, apply_ite State.mem]
@[simp] theorem State.storedPart_mem (s : State) (id i : Nat) (l : CchLine) : (s.storedPart id i l).mem = s.mem := by
  simp [State.storedPart, apply_ite State.mem]

@[simp] theorem State.performHit_mem (s : State) (a : Access) (i : Nat) (p : Part) :
    (s.performHit a i p).mem = s.mem := by
  simp only [State.performHit]
  repeat' split
  all_goals simp

@[simp] theorem State.spoiledHit_mem (s : State) (a : Access) (i : Nat) (l : CchLine) :
    (s.spoiledHit a i l).mem = s.mem := by simp [State.spoiledHit, apply_ite State.mem]
@[simp] theorem State.tryHit_mem (s : State) (a : Access) (i : Nat) (p : Part) : (s.tryHit a i p).mem = s.mem := by
  simp only [State.tryHit]
  repeat' split
  all_goals simp

@[simp] theorem State.runHits_mem (s : State) (id : Nat) : (s.runHits id).mem = s.mem :=
  foldl_mem _ (fun s i => by
    split
    · split
      · split <;> simp
      · rfl
    · rfl) _ s

/-! Loads, stores and maintenance -/

@[simp] theorem State.useOut_mem (s : State) (d : Dst) : (s.useOut d).mem = s.mem := by
  unfold State.useOut; split <;> simp
@[simp] theorem State.firePrefetch_mem (s : State) (t : Fin 64) (p : Profile) (size : Nat) (ls : List (Nat × Nat)) :
    (s.firePrefetch t p size ls).mem = s.mem := by simp [State.firePrefetch, apply_ite State.mem]

@[simp] theorem State.loadLanes_canonical (s : State) (t : Fin 64) (d : Dst) (p : Profile) (w : Bool) (size : Nat)
    (ls : List (Nat × Nat)) (wf : Canonical s.mem) : Canonical (s.loadLanes t d p w size ls).mem := by
  simp only [State.loadLanes]
  repeat' split
  all_goals simp [wf]

@[simp] theorem execLd_canonical (t : Fin 64) (d : Dst) (a : Pair) (b : Src) (p : Profile) (w : Bool) (s : State)
    (wf : Canonical s.mem) : CanonicalOut (execLd t d a b p w s) := by simp [execLd, wf]
@[simp] theorem execLdb8_canonical (t : Fin 64) (d : Dst) (a : Pair) (b : Src) (p : Profile) (s : State)
    (wf : Canonical s.mem) : CanonicalOut (execLdb8 t d a b p s) := by simp [execLdb8, wf]
@[simp] theorem execLdh16_canonical (t : Fin 64) (d : Dst) (a : Pair) (b : Src) (p : Profile) (s : State)
    (wf : Canonical s.mem) : CanonicalOut (execLdh16 t d a b p s) := by simp [execLdh16, wf]
@[simp] theorem execLdc_canonical (t : Fin 64) (d : Dst) (a : Pair) (b : Src) (p : Profile) (w : Bool) (s : State)
    (wf : Canonical s.mem) : CanonicalOut (execLdc t d a b p w s) := by simp [execLdc, wf]
@[simp] theorem execLdx_canonical (t : Fin 64) (d : PDst) (a : Pair) (b : Src) (p : Profile) (s : State)
    (wf : Canonical s.mem) : CanonicalOut (execLdx t d a b p s) := by
  unfold execLdx; split <;> simp [wf]
@[simp] theorem State.storeLanes_canonical (s : State) (t : Fin 64) (d : Src) (p : Profile) (w : Bool) (size : Nat)
    (ls : List (Nat × Nat)) (wf : Canonical s.mem) : Canonical (s.storeLanes t d p w size ls).mem := by
  unfold State.storeLanes; split <;> simp [wf]
@[simp] theorem execSt_canonical (t : Fin 64) (d : Src) (a : Pair) (b : Src) (p : Profile) (w : Bool) (s : State)
    (wf : Canonical s.mem) : CanonicalOut (execSt t d a b p w s) := by simp [execSt, wf]
@[simp] theorem execStb8_canonical (t : Fin 64) (d : Src) (a : Pair) (b : Src) (p : Profile) (s : State)
    (wf : Canonical s.mem) : CanonicalOut (execStb8 t d a b p s) := by simp [execStb8, wf]
@[simp] theorem execSth16_canonical (t : Fin 64) (d : Src) (a : Pair) (b : Src) (p : Profile) (s : State)
    (wf : Canonical s.mem) : CanonicalOut (execSth16 t d a b p s) := by simp [execSth16, wf]
@[simp] theorem execStc_canonical (t : Fin 64) (d : Src) (a : Pair) (b : Src) (p : Profile) (w : Bool) (s : State)
    (wf : Canonical s.mem) : CanonicalOut (execStc t d a b p w s) := by simp [execStc, wf]

@[simp] theorem execStx_canonical (t : Fin 64) (d a : Pair) (b : Src) (p : Profile) (s : State)
    (wf : Canonical s.mem) : CanonicalOut (execStx t d a b p s) := by
  simp only [execStx]
  repeat' split
  all_goals simp [wf]

@[simp] theorem State.sramStore_mem (s : State) (cell a : Nat) (bs : List Nat) :
    (s.sramStore cell a bs).mem = s.mem := by simp [State.sramStore]

@[simp] theorem execLds_canonical (t : Fin 64) (d : Dst) (a b : Src) (p : Profile) (w : Bool) (s : State)
    (wf : Canonical s.mem) : CanonicalOut (execLds t d a b p w s) := by
  simp only [execLds]
  repeat' split
  all_goals simp [wf]

@[simp] theorem execSts_canonical (t : Fin 64) (d a b : Src) (p : Profile) (w : Bool) (s : State)
    (wf : Canonical s.mem) : CanonicalOut (execSts t d a b p w s) := by
  simp only [execSts, canonicalOut_next]
  split
  · simp [wf]
  · rw [State.endEmpty_mem, foldl_mem _ fun _ _ => State.sramStore_mem ..]
    exact wf

@[simp] theorem execFence_canonical (t : Fin 64) (bef aft : Fin 16) (p : Profile) (s : State) (wf : Canonical s.mem)
    : CanonicalOut (execFence t bef aft p s) := by simp [execFence, apply_ite State.mem, wf]

@[simp] theorem State.fireMaint_canonical (s : State) (t : Fin 64) (a : Pair) (b : Src) (p : Profile) (op : AccOp)
    (wf : Canonical s.mem) : Canonical (s.fireMaint t a b p op).mem := by
  simp only [State.fireMaint]
  repeat' split
  all_goals simp [wf]

@[simp] theorem execWbr_canonical (t : Fin 64) (a : Pair) (b : Src) (p : Profile) (s : State) (wf : Canonical s.mem)
    : CanonicalOut (execWbr t a b p s) := by simp [execWbr, wf]
@[simp] theorem execInvr_canonical (t : Fin 64) (a : Pair) (b : Src) (p : Profile) (w : Bool) (s : State)
    (wf : Canonical s.mem) : CanonicalOut (execInvr t a b p w s) := by simp [execInvr, wf]

@[simp] theorem State.maintLine_canonical (s : State) (cell : Nat) (op : AccOp) (inr : Nat) (l : CchLine)
    (wf : Canonical s.mem) : Canonical (s.maintLine cell op inr l).mem := by
  simp only [State.maintLine]
  repeat' split
  all_goals simp [wf]

@[simp] theorem State.maintPart_canonical (s : State) (a : Access) (p : Part) (wf : Canonical s.mem) :
    Canonical (s.maintPart a p).mem := by
  unfold State.maintPart
  split
  · exact wf
  · refine foldl_canonical _ (fun s l h => ?_) _ _ wf
    split
    · split <;> simp [h]
    · exact h

/-! System registers -/

@[simp] theorem State.setLqueue_mem (s : State) (q : Nat) (f : LQueue → LQueue) : (s.setLqueue q f).mem = s.mem := by
  simp [State.setLqueue]
@[simp] theorem State.fqconsSet_mem (s : State) (die v : Nat) : (s.fqconsSet die v).mem = s.mem := by
  simp [State.fqconsSet]
@[simp] theorem State.fqbaseSet_mem (s : State) (die v : Nat) : (s.fqbaseSet die v).mem = s.mem := by
  simp [State.fqbaseSet]
@[simp] theorem State.pushFrame_mem (s : State) (pa : Nat) (huge : Bool) : (s.pushFrame pa huge).mem = s.mem := by
  simp [State.pushFrame, apply_ite State.mem]
@[simp] theorem State.migpushSet_mem (s : State) (v : Nat) : (s.migpushSet v).mem = s.mem := by
  simp [State.migpushSet, apply_ite State.mem]
@[simp] theorem State.migfreeSet_mem (s : State) (v : Nat) : (s.migfreeSet v).mem = s.mem := by
  simp [State.migfreeSet]
@[simp] theorem State.migctlSet_mem (s : State) (v : Nat) : (s.migctlSet v).mem = s.mem := by simp [State.migctlSet]
@[simp] theorem State.migevqSet_mem (s : State) (v : Nat) : (s.migevqSet v).mem = s.mem := by simp [State.migevqSet]
@[simp] theorem State.migevcSet_mem (s : State) (v : Nat) : (s.migevcSet v).mem = s.mem := by simp [State.migevcSet]
@[simp] theorem State.mighbaseSet_mem (s : State) (v : Nat) : (s.mighbaseSet v).mem = s.mem := by
  simp [State.mighbaseSet, apply_ite State.mem]
@[simp] theorem State.migstatSet_mem (s : State) (v : Nat) : (s.migstatSet v).mem = s.mem := by
  simp [State.migstatSet]
@[simp] theorem State.qpushSet_mem (s : State) (q v : Nat) : (s.qpushSet q v).mem = s.mem := by simp [State.qpushSet]
@[simp] theorem State.qctlSet_mem (s : State) (q v : Nat) : (s.qctlSet q v).mem = s.mem := by simp [State.qctlSet]
@[simp] theorem State.qstatSet_mem (s : State) (q v : Nat) : (s.qstatSet q v).mem = s.mem := by simp [State.qstatSet]
@[simp] theorem State.pwrcapSet_mem (s : State) (v : Nat) : (s.pwrcapSet v).mem = s.mem := by simp [State.pwrcapSet]
@[simp] theorem State.modnumSet_mem (s : State) (v : Nat) : (s.modnumSet v).mem = s.mem := by
  simp [State.modnumSet, apply_ite State.mem]
@[simp] theorem State.serrcntSet_mem (s : State) (die v : Nat) : (s.serrcntSet die v).mem = s.mem := by
  simp [State.serrcntSet]
@[simp] theorem State.hubfltSet_mem (s : State) (v : Nat) : (s.hubfltSet v).mem = s.mem := by simp [State.hubfltSet]

@[simp] theorem State.hubSet_mem (s : State) (o v : Nat) : (s.hubSet o v).mem = s.mem := by
  unfold State.hubSet
  split
  · rfl
  · split
    · dsimp only
      split <;> simp
    · split <;> simp

@[simp] theorem State.dieSet_mem (s : State) (die o v : Nat) : (s.dieSet die o v).mem = s.mem := by
  unfold State.dieSet; split <;> simp

@[simp] theorem State.regWrite_mem (s : State) (pa n v : Nat) (rs : Bool) : (s.regWrite pa n v rs).mem = s.mem := by
  by_cases h : (n != 8 || pa % 8 != 0 || (!rs && rsRegister pa)) = true
  · rw [State.regWrite, if_pos h]
  · rw [State.regWrite, if_neg h]
    generalize mmioWindow pa = x
    obtain ⟨w, o⟩ := x
    dsimp only
    rw [apply_ite State.mem, State.hubSet_mem, State.dieSet_mem, ite_self]

@[simp] theorem State.regStore_mem (s : State) (pa : Nat) (bs : List Nat) (rs : Bool) :
    (s.regStore pa bs rs).mem = s.mem := by simp [State.regStore, apply_ite State.mem]

/-! Fault records -/

@[simp] theorem State.dropSpoiled_mem (s : State) (cell : Option Nat) (sm : Bool) (pa n : Nat) :
    (s.dropSpoiled cell sm pa n).2.mem = s.mem := by
  simp only [State.dropSpoiled]
  repeat' split
  all_goals simp

@[simp] theorem State.readPiece_canonical (s : State) (cell : Option Nat) (hint pa leaf va n : Nat)
    (wf : Canonical s.mem) : CanonicalHub (s.readPiece cell hint pa leaf va n) := by
  grind [State.readPiece, State.dropSpoiled_mem, State.loadNow_canonical, correctAt_mem, State.sliceTouch_canonical,
    State.smFill_canonical, canonicalHub_ok, canonicalHub_wait, canonicalHub_fault]
@[simp] theorem State.writePiece_canonical (s : State) (cell : Option Nat) (hint pa leaf va : Nat) (bs : List Nat)
    (wf : Canonical s.mem) : CanonicalHub (s.writePiece cell hint pa leaf va bs) := by
  grind [State.writePiece, State.sliceTouch_canonical, State.storeThrough_canonical, State.smFill_canonical,
    State.storeNow_canonical, canonicalHub_ok, canonicalHub_wait, canonicalHub_fault]

@[simp] theorem State.hubLoad_canonical (s : State) (res : Bool) (asid va n : Nat) (wf : Canonical s.mem) :
    CanonicalHub (s.hubLoad res asid va n) :=
  foldl_canonicalHub _ (fun r p h => by
    grind [canonicalHub_ok, canonicalHub_wait, canonicalHub_fault, → State.translate_pair_canonical,
      State.readPiece_canonical]) _ wf

theorem State.hubLoad_ok_canonical {s : State} {res : Bool} {asid va n : Nat} {out : List Nat} {u : State}
    (eqn : s.hubLoad res asid va n = .ok out u) (wf : Canonical s.mem) : Canonical u.mem :=
  (State.hubLoad_canonical s res asid va n wf).of_ok eqn
@[simp] theorem State.hubRoom_canonical (s : State) (res : Bool) (asid va n : Nat) (wf : Canonical s.mem) :
    CanonicalHub (s.hubRoom res asid va n) :=
  foldl_canonicalHub _ (fun r p h => by grind [canonicalHub_ok, canonicalHub_wait, canonicalHub_fault,
    → State.translate_pair_canonical]) _ wf
theorem State.hubRoom_ok_canonical {s : State} {res : Bool} {asid va n : Nat} {out : List Nat} {u : State}
    (eqn : s.hubRoom res asid va n = .ok out u) (wf : Canonical s.mem) : Canonical u.mem :=
  (State.hubRoom_canonical s res asid va n wf).of_ok eqn

@[simp] theorem State.hubStore_canonical (s : State) (res : Bool) (asid va : Nat) (bs : List Nat)
    (wf : Canonical s.mem) : CanonicalHub (s.hubStore res asid va bs) := by
  unfold State.hubStore
  dsimp only
  split
  next e =>
    refine foldl_canonicalHub _ (fun r p h => ?_) _ (State.hubRoom_ok_canonical e wf)
    grind [canonicalHub_ok, State.regStore_mem, State.writePiece_canonical]
  next => exact State.hubRoom_canonical _ _ _ _ _ wf

theorem State.hubStore_ok_canonical {s : State} {res : Bool} {asid va : Nat} {bs : List Nat} {out : List Nat}
    {u : State} (eqn : s.hubStore res asid va bs = .ok out u) (wf : Canonical s.mem) : Canonical u.mem :=
  (State.hubStore_canonical s res asid va bs wf).of_ok eqn
@[simp] theorem State.countAt_canonical (s : State) (code : Nat) (cell : Option Nat) (die asid va : Nat)
    (wf : Canonical s.mem) : Canonical (s.countAt code cell die asid va).mem := by
  grind [State.countAt, State.translate_canonical, State.countUncorr_mem]

@[simp] theorem State.hubLoadPa_canonical (s : State) (pa n : Nat) (wf : Canonical s.mem) :
    CanonicalHub (s.hubLoadPa pa n) := by
  unfold State.hubLoadPa
  split
  · simp
  · split
    · simp [wf]
    · exact foldl_canonicalHub _ (fun r p h => by grind [canonicalHub_ok, State.readPiece_canonical]) _ wf

theorem State.hubLoadPa_ok_canonical {s : State} {pa n : Nat} {out : List Nat} {u : State}
    (eqn : s.hubLoadPa pa n = .ok out u) (wf : Canonical s.mem) : Canonical u.mem :=
  (State.hubLoadPa_canonical s pa n wf).of_ok eqn

theorem State.hubStorePa_some_canonical {s : State} {pa : Nat} {bs : List Nat} {u : State}
    (eqn : s.hubStorePa pa bs = some u) (wf : Canonical s.mem) : Canonical u.mem := by
  have stored (ps : List (Nat × Nat)) :
      Canonical (ps.foldl (fun s p => (s.sliceTouch (pa + p.1) 0).storeNow none (pa + p.1) (sliceBytes bs p.1 p.2)
        none) s).mem :=
    foldl_canonical _ (fun s p h => by simp [h]) ps s wf
  grind [State.hubStorePa, State.regStore_mem, State.countUncorr_mem]

@[simp] theorem State.countPa_mem (s : State) (code pa : Nat) : (s.countPa code pa).mem = s.mem := by
  simp [State.countPa, apply_ite State.mem]

theorem State.loadBlock_some_canonical {s : State} {load : State → Nat → HubResult}
    {count : State → Nat → Nat → State} {a : Nat} {r : List Nat} {u : State}
    (hl : ∀ s a, Canonical s.mem → CanonicalHub (load s a))
    (hc : ∀ s c x, Canonical s.mem → Canonical (count s c x).mem) (eqn : s.loadBlock load count a = some (r, u))
    (wf : Canonical s.mem) : Canonical u.mem := by
  have ok {s t : State} {a : Nat} {bs : List Nat} (e : load s a = .ok bs t) (h : Canonical s.mem) : Canonical t.mem
    := (hl s a h).of_ok e
  grind [State.loadBlock]

@[simp] theorem State.noRecord_mem (s : State) : s.noRecord.mem = s.mem := by simp [State.noRecord]
theorem State.writeCrec_some_canonical {s : State} {asid crec status cause launchid faults start end_ : Nat}
    {u : State} (eqn : s.writeCrec asid crec status cause launchid faults start end_ = some u) (wf : Canonical s.mem)
    : Canonical u.mem := by
  grind [State.writeCrec, → State.hubStore_ok_canonical, State.noRecord_mem, State.countAt_canonical]
theorem State.cancelTail_some_canonical {s : State} {asid block cause : Nat} {u : State}
    (eqn : s.cancelTail asid block cause = some u) (wf : Canonical s.mem) : Canonical u.mem := by
  grind [State.cancelTail, → State.hubLoad_ok_canonical, → State.writeCrec_some_canonical, State.noRecord_mem,
    State.countAt_canonical]
theorem State.addTail_some_canonical {s : State} {launch block : Nat} {u : State}
    (eqn : s.addTail launch block = some u) (wf : Canonical s.mem) : Canonical u.mem := by
  grind [State.addTail, State.newId_mem, State.setLaunch_mem, → State.cancelTail_some_canonical]

/-! Atomics -/

@[simp] theorem State.reachRouter_mem (s : State) (fuel : Nat) (e : MergeEntry) :
    (s.reachRouter fuel e).mem = s.mem := by
  induction fuel generalizing s e with
  | zero => rfl
  | succ fuel ih => grind [State.reachRouter]

@[simp] theorem State.enterMerges_canonical (s : State) (who : List Access) (wf : Canonical s.mem) :
    Canonical (s.enterMerges who).mem :=
  foldl_canonical _ (fun s k h => by
    grind [State.evictLine_canonical, State.reachRouter_mem, → State.newId_pair_mem]) _ s wf
@[simp] theorem State.mergeAll_canonical (s : State) (wf : Canonical s.mem) : Canonical s.mergeAll.mem := by
  simp [State.mergeAll, wf]
@[simp] theorem execMergeBufferForward_canonical (router entry : Nat) (s : State) (wf : Canonical s.mem) :
    CanonicalOut (execMergeBufferForward router entry s) := by
  unfold execMergeBufferForward; split <;> simp [wf]

@[simp] theorem State.fireAtomic_canonical (s : State) (t : Fin 64) (op : Nat) (d : RDst) (a : Pair) (b : Src)
    (p : Profile) (w : Bool) (wf : Canonical s.mem) : Canonical (s.fireAtomic t op d a b p w).mem := by
  simp only [State.fireAtomic]
  repeat' split
  all_goals simp [wf]

@[simp] theorem execAadd_canonical (t : Fin 64) (d : RDst) (a : Pair) (b : Src) (p : Profile) (w : Bool) (s : State)
    (wf : Canonical s.mem) : CanonicalOut (execAadd t d a b p w s) := by simp [execAadd, wf]
@[simp] theorem execAmin_canonical (t : Fin 64) (d : RDst) (a : Pair) (b : Src) (p : Profile) (w : Bool) (s : State)
    (wf : Canonical s.mem) : CanonicalOut (execAmin t d a b p w s) := by simp [execAmin, wf]
@[simp] theorem execAmax_canonical (t : Fin 64) (d : RDst) (a : Pair) (b : Src) (p : Profile) (w : Bool) (s : State)
    (wf : Canonical s.mem) : CanonicalOut (execAmax t d a b p w s) := by simp [execAmax, wf]
@[simp] theorem execAand_canonical (t : Fin 64) (d : RDst) (a : Pair) (b : Src) (p : Profile) (w : Bool) (s : State)
    (wf : Canonical s.mem) : CanonicalOut (execAand t d a b p w s) := by simp [execAand, wf]
@[simp] theorem execAor_canonical (t : Fin 64) (d : RDst) (a : Pair) (b : Src) (p : Profile) (w : Bool) (s : State)
    (wf : Canonical s.mem) : CanonicalOut (execAor t d a b p w s) := by simp [execAor, wf]
@[simp] theorem execAxor_canonical (t : Fin 64) (d : RDst) (a : Pair) (b : Src) (p : Profile) (w : Bool) (s : State)
    (wf : Canonical s.mem) : CanonicalOut (execAxor t d a b p w s) := by simp [execAxor, wf]
@[simp] theorem execAxch_canonical (t : Fin 64) (d : RDst) (a : Pair) (b : Src) (p : Profile) (w : Bool) (s : State)
    (wf : Canonical s.mem) : CanonicalOut (execAxch t d a b p w s) := by simp [execAxch, wf]
@[simp] theorem execAcas_canonical (t : Fin 64) (d : RDst) (a : Pair) (b : Src) (p : Profile) (w : Bool) (s : State)
    (wf : Canonical s.mem) : CanonicalOut (execAcas t d a b p w s) := by simp [execAcas, wf]
@[simp] theorem execAfadd_canonical (t : Fin 64) (d : RDst) (a : Pair) (b : Src) (p : Profile) (w : Bool) (s : State)
    (wf : Canonical s.mem) : CanonicalOut (execAfadd t d a b p w s) := by simp [execAfadd, wf]

@[simp] theorem execWaita_canonical (t : Fin 64) (d : RDst) (a : Pair) (b : Src) (p : Profile) (w : Bool) (s : State)
    (wf : Canonical s.mem) : CanonicalOut (execWaita t d a b p w s) := by
  simp only [execWaita]
  repeat' split
  all_goals simp [wf]

@[simp] theorem execWake_canonical (t : Fin 64) (a : Pair) (b : Src) (p : Profile) (s : State) (wf : Canonical s.mem)
    : CanonicalOut (execWake t a b p s) := by
  simp only [execWake]; split <;> simp [wf]

@[simp] theorem execFreg_canonical (t : Fin 64) (a : Pair) (b : Src) (p : Profile) (s : State) (wf : Canonical s.mem)
    : CanonicalOut (execFreg t a b p s) := by
  simp only [execFreg, canonicalOut_next]
  split
  · simp [wf]
  split
  · simp [wf]
  split
  · simp [wf]
  split
  · simp [wf]
  · simp [wf]
  · apply State.fireLoad_canonical
    simp [wf]

@[simp] theorem execFres_canonical (t : Fin 64) (a : Pair) (_b : Src) (p : Profile) (s : State)
    (wf : Canonical s.mem) : CanonicalOut (execFres t a _b p s) := by
  simp only [execFres]; split <;> simp [wf]
@[simp] theorem State.askRecall_mem (s : State) (pa : Nat) (holders : List Nat) :
    (s.askRecall pa holders).mem = s.mem := by simp [State.askRecall]
@[simp] theorem State.sendArrival_mem (s : State) (a : Access) (l j : Nat) : (s.sendArrival a l j).mem = s.mem := by
  simp [State.sendArrival]
@[simp] theorem State.spoilLane_mem (s : State) (die id i : Nat) : (s.spoilLane die id i).mem = s.mem := by
  simp [State.spoilLane]

@[simp] theorem State.performAtomic_canonical (s : State) (a : Access) (i : Nat) (p : Part) (operand : Nat)
    (wf : Canonical s.mem) : Canonical (s.performAtomic a i p operand).mem := by
  simp only [State.performAtomic]
  repeat' split
  all_goals simp [wf]

@[simp] theorem State.atomicNow_canonical (s : State) (a : Access) (i : Nat) (p : Part) (wf : Canonical s.mem) :
    Canonical (s.atomicNow a i p).mem := by
  unfold State.atomicNow; split <;> simp [wf]

@[simp] theorem execAtomicAtHome_canonical (id part : Nat) (s : State) (wf : Canonical s.mem) :
    CanonicalOut (execAtomicAtHome id part s) := by
  simp only [execAtomicAtHome, canonicalOut_next]
  split
  · exact wf
  next a _ =>
  split
  · exact wf
  next p _ =>
  split
  · simp [wf]
  split
  · exact wf
  have home : Canonical (if leafManaged p.leaf then s.evictLine a.cell (lineOf p.pa) else s).mem := by split <;>
    simp [wf]
  generalize (if leafManaged p.leaf then s.evictLine a.cell (lineOf p.pa) else s) = t at home ⊢
  split
  · rwa [foldl_mem _ fun _ _ => State.spoilLane_mem ..]
  · simpa using home
  · grind [State.sliceTouch_canonical, correctAt_mem, State.serveTurn_mem, State.dirAtomic_canonical,
      State.atomicNow_canonical, State.mergeAll_canonical]

@[simp] theorem State.spoilWatch_mem (s : State) (w : Watch) : (s.spoilWatch w).mem = s.mem := by
  simp [State.spoilWatch, apply_ite State.mem]
@[simp] theorem State.loseWatch_mem (s : State) (pa : Nat) : (s.loseWatch pa).mem = s.mem := by
  simp only [State.loseWatch]
  repeat' split
  all_goals simp
@[simp] theorem State.firstRead_mem (s : State) (a : Access) (p : Part) : (s.firstRead a p).mem = s.mem := by
  simp [State.firstRead, apply_ite State.mem]
@[simp] theorem State.wakeAt_mem (s : State) (pa count : Nat) : (s.wakeAt pa count).mem = s.mem := by
  simp [State.wakeAt]
@[simp] theorem State.wakeUp_mem (s : State) (w : Watch) (v : Nat) : (s.wakeUp w v).mem = s.mem := by
  simp only [State.wakeUp]
  repeat' split
  all_goals simp

@[simp] theorem execWaitaWake_canonical (id : Nat) (s : State) (wf : Canonical s.mem) :
    CanonicalOut (execWaitaWake id s) := by
  simp only [execWaitaWake]
  repeat' split
  all_goals simp [wf]

@[simp] theorem State.startLoans_mem (s : State) : s.startLoans.mem = s.mem := by
  simp [State.startLoans, apply_ite State.mem]
theorem State.arrive_some_canonical {s : State} {launch pa : Nat} {u : State} (eqn : s.arrive launch pa = some u)
    (wf : Canonical s.mem) : Canonical u.mem := by
  grind [State.arrive, State.homeWrite_canonical, → State.addTail_some_canonical]
@[simp] theorem State.engineRecord_mem (s : State) (c e x slot opcode prof lanes code cause addr : Nat)
    (of_ : RecordOf) : (s.engineRecord c e x slot opcode prof lanes code cause addr of_).2.mem = s.mem := by
  simp [State.engineRecord]

@[simp] theorem execFutureArrive_canonical (id : Nat) (s : State) (wf : Canonical s.mem) :
    CanonicalOut (execFutureArrive id s) := by
  grind [execFutureArrive, State.engineRecord_mem, State.translateFor_canonical, State.countUncorr_mem,
    State.evictLine_canonical, State.pull_canonical, State.serveTurn_mem, correctAt_mem, State.dirAtomic_canonical,
    → State.arrive_some_canonical, canonicalOut_next]

/-! Draft images -/

@[simp] theorem State.requestAll_mem (s : State) (c : Nat) : (s.requestAll c).mem = s.mem := by
  simp [State.requestAll, apply_ite State.mem]
@[simp] theorem State.giveBack_mem (s : State) (t : Target) (n : Nat) : (s.giveBack t n).mem = s.mem := by
  unfold State.giveBack; split <;> simp
@[simp] theorem State.dropOuts_mem (s : State) (c : Nat) : (s.dropOuts c).mem = s.mem := by
  simp only [State.dropOuts, State.setCell_mem]
  refine foldl_mem _ (fun s i => ?_) _ s
  split <;> simp
@[simp] theorem State.changeRoles_canonical (s : State) (c new : Nat) (wf : Canonical s.mem) :
    Canonical (s.changeRoles c new).mem := by simp +contextual [State.changeRoles, wf]
@[simp] theorem State.switchDraft_canonical (s : State) (c : Nat) (wf : Canonical s.mem) :
    Canonical (s.switchDraft c).mem := by
  unfold State.switchDraft; split <;> simp [wf]
@[simp] theorem State.freeCell_canonical (s : State) (c : Nat) (wf : Canonical s.mem) :
    Canonical (s.freeCell c).mem := by
  simp only [State.freeCell]; split <;> simp [wf]

/-! Heddle -/

@[simp] theorem State.setHeddle_mem (s : State) (c : Nat) (f : Heddle → Heddle) : (s.setHeddle c f).mem = s.mem := by
  simp [State.setHeddle]
@[simp] theorem State.fireHeddle_mem (s : State) (t : Fin 64) (op n : Nat) (dst : Option Nat) (a b : Src) :
    (s.fireHeddle t op n dst a b).mem = s.mem := by simp [State.fireHeddle, apply_ite State.mem]
@[simp] theorem execHprep_canonical (t : Fin 64) (a b : Src) (s : State) (wf : Canonical s.mem) :
    CanonicalOut (execHprep t a b s) := by simp [execHprep, wf]
@[simp] theorem execHwload_canonical (t : Fin 64) (a b : Src) (s : State) (wf : Canonical s.mem) :
    CanonicalOut (execHwload t a b s) := by simp [execHwload, wf]
@[simp] theorem execHmma_canonical (t : Fin 64) (a b : Src) (s : State) (wf : Canonical s.mem) :
    CanonicalOut (execHmma t a b s) := by simp [execHmma, wf]
@[simp] theorem execHdrain_canonical (t : Fin 64) (d : RDst) (a b : Src) (s : State) (wf : Canonical s.mem) :
    CanonicalOut (execHdrain t d a b s) := by simp [execHdrain, wf]
@[simp] theorem execHzero_canonical (t : Fin 64) (a b : Src) (s : State) (wf : Canonical s.mem) :
    CanonicalOut (execHzero t a b s) := by simp [execHzero, wf]
@[simp] theorem execHcbload_canonical (t : Fin 64) (a b : Src) (s : State) (wf : Canonical s.mem) :
    CanonicalOut (execHcbload t a b s) := by simp [execHcbload, wf]
@[simp] theorem execHwait_canonical (t : Fin 64) (d : PredReg) (a : Src) (s : State) (wf : Canonical s.mem) :
    CanonicalOut (execHwait t d a s) := by simp [execHwait, apply_ite State.mem, wf]
@[simp] theorem execCbdec_canonical (t : Fin 64) (d : Dst) (a : Src) (s : State) (wf : Canonical s.mem) :
    CanonicalOut (execCbdec t d a s) := by simp [execCbdec, apply_ite State.mem, wf]

/-! Multi-word compare and swap -/

@[simp] theorem State.blockBytes_canonical (s : State) (c pa leaf va n : Nat) (wf : Canonical s.mem) :
    CanonicalHub (s.blockBytes c pa leaf va n) :=
  foldl_canonicalHub _ (fun r p h => by grind [canonicalHub_ok, State.readPiece_canonical]) _ wf
theorem State.blockBytes_ok_canonical {s : State} {c pa leaf va n : Nat} {out : List Nat} {u : State}
    (eqn : s.blockBytes c pa leaf va n = .ok out u) (wf : Canonical s.mem) : Canonical u.mem :=
  (State.blockBytes_canonical s c pa leaf va n wf).of_ok eqn

@[simp] theorem State.mwBlock_canonical (s : State) (c e x seq asid l va : Nat) (wf : Canonical s.mem) :
    Canonical (s.mwBlock c e x seq asid l va).2.mem := by
  unfold State.mwBlock
  extract_lets stop wait read
  have reads : ∀ {s : State} {pa leaf n r u}, read s pa leaf n = (r, u) → Canonical s.mem → Canonical u.mem := by
    intro s pa leaf n r u e h
    simp only [read] at e
    grind [→ State.blockBytes_ok_canonical, State.countAt_canonical]
  clear_value read
  grind [→ State.translateFor_pair_canonical]

theorem State.mwBlock_pair_canonical {s : State} {c e x seq asid l va : Nat} {r : (MwEval ⊕ List Nat)} {u : State}
    (eqn : s.mwBlock c e x seq asid l va = (r, u)) (wf : Canonical s.mem) : Canonical u.mem := by
  have h := State.mwBlock_canonical s c e x seq asid l va wf
  rwa [eqn] at h

@[simp] theorem State.mwEval_canonical (s : State) (c e x seq asid l va : Nat) (wf : Canonical s.mem) :
    Canonical (s.mwEval c e x seq asid l va).2.mem := by
  unfold State.mwEval
  extract_lets stop
  split
  · exact wf
  split
  next e => exact State.mwBlock_pair_canonical e wf
  next bs t e =>
  have block : Canonical t.mem := State.mwBlock_pair_canonical e wf
  extract_lets n es
  split
  · exact block
  split
  · exact block
  split
  next rs u e =>
  have entries : Canonical u.mem := by
    rw [show u = (rs, u).2 from rfl, ← e]
    exact List.foldlRecOn (motive := fun (acc : List (Nat × Nat × Trans) × State) => Canonical acc.2.mem) es _ block
      fun acc ha k _ => State.translateFor_canonical _ _ _ _ _ ha
  split
  · exact entries
  · exact entries
  · dsimp only
    split <;> exact entries

theorem State.mwEval_pair_canonical {s : State} {c e x seq asid l va : Nat} {r : MwEval} {u : State}
    (eqn : s.mwEval c e x seq asid l va = (r, u)) (wf : Canonical s.mem) : Canonical u.mem := by
  have h := State.mwEval_canonical s c e x seq asid l va wf
  rwa [eqn] at h

@[simp] theorem execMwcas_canonical (t : Fin 64) (d : PDst) (a : Pair) (q : PredReg) (p : Profile) (s : State)
    (wf : Canonical s.mem) : CanonicalOut (execMwcas t d a q p s) := by
  unfold execMwcas
  grind [canonicalOut_next, State.endEmpty_mem, → State.mwEval_pair_canonical, State.takeFault_mem, State.stay_mem,
    → State.newId_pair_mem, State.setCurCtx_mem, State.endFiring_mem]

@[simp] theorem State.setMw_mem (s : State) (id : Nat) (f : MwOp → MwOp) : (s.setMw id f).mem = s.mem := by
  simp [State.setMw]
@[simp] theorem State.releaseLine_mem (s : State) (id line : Nat) : (s.releaseLine id line).mem = s.mem := by
  simp [State.releaseLine]
@[simp] theorem State.releaseLocks_mem (s : State) (m : MwOp) : (s.releaseLocks m).mem = s.mem := by
  simp [State.releaseLocks]
@[simp] theorem State.mwEnd_mem (s : State) (m : MwOp) (obs : List Nat) (ok contended : Bool) :
    (s.mwEnd m obs ok contended).mem = s.mem := by
  unfold State.mwEnd; split <;> simp
@[simp] theorem State.mwContend_mem (s : State) (m : MwOp) : (s.mwContend m).mem = s.mem := by simp [State.mwContend]
@[simp] theorem State.mwFault_mem (s : State) (m : MwOp) (f : FaultInfo) : (s.mwFault m f).mem = s.mem := by
  simp [State.mwFault]

@[simp] theorem State.mwTouch_canonical (s : State) (m : MwOp) (wf : Canonical s.mem) : Canonical (s.mwTouch m).mem :=
  foldl_canonical _ (fun s e h => by
    split
    · split <;> simp [h]
    · exact h) _ s wf

@[simp] theorem State.mwSpoil_mem (s : State) (m : MwOp) (die va : Nat) : (s.mwSpoil m die va).mem = s.mem := by
  simp [State.mwSpoil]

@[simp] theorem State.mwCommit_canonical (s : State) (m : MwOp) (wf : Canonical s.mem) :
    Canonical (s.mwCommit m).mem := by
  simp only [State.mwCommit]
  repeat' split
  all_goals simp +contextual [wf]

@[simp] theorem State.mwAgain_canonical (s : State) (m : MwOp) (wf : Canonical s.mem) :
    Canonical (s.mwAgain m).mem := by
  grind [State.mwAgain, State.mwEval_canonical, State.mwFault_mem, State.setMw_mem]

@[simp] theorem State.mwLock_canonical (s : State) (m : MwOp) (wf : Canonical s.mem) :
    Canonical (s.mwLock m).mem := by
  simp only [State.mwLock]
  repeat' split
  all_goals simp [wf]

@[simp] theorem execMwcasLockPhase_canonical (id : Nat) (s : State) (wf : Canonical s.mem) :
    CanonicalOut (execMwcasLockPhase id s) := by
  simp only [execMwcasLockPhase]
  repeat' split
  all_goals simp [wf]

@[simp] theorem execMwcasQueuedLockGrant_canonical (line : Nat) (s : State) (wf : Canonical s.mem) :
    CanonicalOut (execMwcasQueuedLockGrant line s) := by
  simp only [execMwcasQueuedLockGrant]
  repeat' split
  all_goals simp [wf]

@[simp] theorem execMwcasBoundExpiry_canonical (id : Nat) (s : State) (wf : Canonical s.mem) :
    CanonicalOut (execMwcasBoundExpiry id s) := by
  simp only [execMwcasBoundExpiry]
  repeat' split
  all_goals simp [wf]

@[simp] theorem execMwcasLockTimeout_canonical (id : Nat) (s : State) (wf : Canonical s.mem) :
    CanonicalOut (execMwcasLockTimeout id s) := by
  simp only [execMwcasLockTimeout]
  repeat' split
  all_goals simp [wf]

@[simp] theorem execMwcasCommitTimeout_canonical (id : Nat) (s : State) (wf : Canonical s.mem) :
    CanonicalOut (execMwcasCommitTimeout id s) := by
  simp only [execMwcasCommitTimeout]
  repeat' split
  all_goals simp +contextual [wf]

/-! Shuttle -/

theorem State.checkBase_canonical (s : State) (prof m va : Nat) (go : Nat → Nat → State → State)
    (hg : ∀ pa leaf s, Canonical s.mem → Canonical (go pa leaf s).mem) (wf : Canonical s.mem) :
    Canonical (s.checkBase prof m va go).mem := by
  grind [State.checkBase, State.takeFault_mem, State.stay_mem, → State.translateFor_pair_canonical]

@[simp] theorem State.fireShuttle_canonical (s : State) (t : Fin 64) (op : Nat) (a : Pair) (b : Src) (p : Profile)
    (wf : Canonical s.mem) : Canonical (s.fireShuttle t op a b p).mem := by
  simp only [State.fireShuttle]
  split
  · simp [wf]
  split
  · simp [wf]
  · exact State.checkBase_canonical _ _ _ _ _ (fun pa leaf s h => by simp [h]) wf

@[simp] theorem execShcpy_canonical (t : Fin 64) (a : Pair) (b : Src) (p : Profile) (s : State)
    (wf : Canonical s.mem) : CanonicalOut (execShcpy t a b p s) := by simp [execShcpy, wf]
@[simp] theorem execShtile_canonical (t : Fin 64) (a : Pair) (b : Src) (p : Profile) (s : State)
    (wf : Canonical s.mem) : CanonicalOut (execShtile t a b p s) := by simp [execShtile, wf]
@[simp] theorem execShmcast_canonical (t : Fin 64) (a : Pair) (b : Src) (p : Profile) (s : State)
    (wf : Canonical s.mem) : CanonicalOut (execShmcast t a b p s) := by simp [execShmcast, wf]

@[simp] theorem execShstrm_canonical (t : Fin 64) (a : Pair) (p : Profile) (s : State) (wf : Canonical s.mem) :
    CanonicalOut (execShstrm t a p s) := by
  simp only [execShstrm, canonicalOut_next]
  split
  · simp [wf]
  · refine State.checkBase_canonical _ _ _ _ _ (fun pa leaf s h => ?_) wf
    split <;> simp [h]

@[simp] theorem execShclose_canonical (t : Fin 64) (a : Pair) (p : Profile) (s : State) (wf : Canonical s.mem) :
    CanonicalOut (execShclose t a p s) := by
  simp only [execShclose, canonicalOut_next]
  split
  · simp [wf]
  · refine State.checkBase_canonical _ _ _ _ _ (fun pa leaf s h => ?_) wf
    split <;> simp [h]

/-! Launches -/

@[simp] theorem State.dropWork_mem (s : State) (cs : List Nat) : (s.dropWork cs).mem = s.mem := by
  simp [State.dropWork]
@[simp] theorem State.renameCell_mem (s : State) (old new : Nat) : (s.renameCell old new).mem = s.mem := by
  simp [State.renameCell]
@[simp] theorem State.freeRegions_canonical (s : State) (uid : Nat) (wf : Canonical s.mem) :
    Canonical (s.freeRegions uid).mem := by simp +contextual [State.freeRegions, wf]
@[simp] theorem State.dropQueues_mem (s : State) (uid : Nat) : (s.dropQueues uid).mem = s.mem := by
  simp [State.dropQueues]
theorem State.report_some_canonical {s : State} {uid kind time : Nat} {u : State}
    (eqn : s.report uid kind time = some u) (wf : Canonical s.mem) : Canonical u.mem := by
  grind [State.report, → State.hubStorePa_some_canonical]
theorem State.launchStopped_some_canonical {s : State} {uid : Nat} {u : State} (eqn : s.launchStopped uid = some u)
    (wf : Canonical s.mem) : Canonical u.mem := by
  obtain ⟨v, e, rfl⟩ := Option.map_eq_some_iff.1 eqn
  simpa using State.report_some_canonical e wf

theorem State.endRecord_some_canonical {s : State} {q : Nat} {irq : Bool}
    {asid crec status cause launchid faults start end_ : Nat} {u : State}
    (eqn : s.endRecord q irq asid crec status cause launchid faults start end_ = some u) (wf : Canonical s.mem) :
    Canonical u.mem := by
  obtain ⟨v, e, rfl⟩ := Option.map_eq_some_iff.1 eqn
  have := State.writeCrec_some_canonical e wf
  rw [apply_ite State.mem]
  simpa

@[simp] theorem State.endLaunch_canonical (s : State) (uid status cause : Nat) (wf : Canonical s.mem) :
    Canonical (s.endLaunch uid status cause).mem := by simp [State.endLaunch, wf]

theorem State.cancelTails_some_canonical {s : State} {asid : Nat} {bs : List (Nat × Nat)} {u : State}
    (eqn : s.cancelTails asid bs = some u) (wf : Canonical s.mem) : Canonical u.mem := by
  induction bs generalizing s with
  | nil => cases eqn; exact wf
  | cons b bs ih =>
    obtain ⟨v, e, e'⟩ := Option.bind_eq_some_iff.1 eqn
    exact ih e' (State.cancelTail_some_canonical e wf)

theorem State.readTails_some_canonical {s : State} {asid : Nat} {bs : List (Nat × Nat)}
    {r : List (Nat × Nat × List Nat)} {u : State} (eqn : s.readTails asid bs = some (r, u)) (wf : Canonical s.mem) :
    Canonical u.mem := by
  induction bs generalizing s r with
  | nil => cases eqn; exact wf
  | cons b bs ih =>
    obtain ⟨⟨x, v⟩, got, rest⟩ := Option.bind_eq_some_iff.1 eqn
    obtain ⟨⟨y, w⟩, more, k⟩ := Option.map_eq_some_iff.1 rest
    cases k
    refine ih more ?_
    split at got
    · cases got; exact wf
    · exact State.loadBlock_some_canonical (fun s a h => State.hubLoad_canonical _ _ _ _ _ h) (fun s c x h =>
        State.countAt_canonical _ _ _ _ _ _ h) got wf

theorem State.finishLaunch_some_canonical {s : State} {uid : Nat} {u : State} (eqn : s.finishLaunch uid = some u)
    (wf : Canonical s.mem) : Canonical u.mem := by
  unfold State.finishLaunch at eqn
  split at eqn
  · cases eqn
  next l _ =>
  split at eqn
  · obtain ⟨v, done, rfl⟩ := Option.map_eq_some_iff.1 eqn
    obtain ⟨w, ended, tails⟩ := Option.bind_eq_some_iff.1 done
    obtain ⟨x, reported, recorded⟩ := Option.bind_eq_some_iff.1 ended
    have hx : Canonical x.mem := by
      split at reported
      · exact State.report_some_canonical reported wf
      · cases reported; exact wf
    have hw := State.endRecord_some_canonical recorded hx
    split at tails
    · obtain ⟨⟨r, y⟩, read, rfl⟩ := Option.map_eq_some_iff.1 tails
      simpa using State.readTails_some_canonical read hw
    · simpa using State.cancelTails_some_canonical tails hw
  · cases eqn

@[simp] theorem State.terminateLaunch_canonical (s : State) (uid : Nat) (wf : Canonical s.mem) :
    Canonical (s.terminateLaunch uid).mem := by
  have ended : Canonical (s.endLaunch uid stTerminated 0).mem := State.endLaunch_canonical _ _ _ _ wf
  unfold State.terminateLaunch
  split
  · exact wf
  split
  · exact wf
  · exact getD_canonical (fun u e => State.finishLaunch_some_canonical e ended) ended

@[simp] theorem State.heddleLeave_mem (s : State) (c : Nat) (x : HCmd) : (s.heddleLeave c x).mem = s.mem := by
  simp only [State.heddleLeave]
  rw [State.charge_mem, foldl_mem _ fun _ _ => State.setPredOf_mem .., State.setHeddle_mem]
@[simp] theorem State.shuttleLeave_mem (s : State) (c : Nat) (x : ShCmd) : (s.shuttleLeave c x).mem = s.mem := by
  simp [State.shuttleLeave]
@[simp] theorem State.setHcmd_mem (s : State) (c id : Nat) (f : HCmd → HCmd) : (s.setHcmd c id f).mem = s.mem := by
  simp [State.setHcmd]
@[simp] theorem State.setShcmd_mem (s : State) (c id : Nat) (f : ShCmd → ShCmd) :
    (s.setShcmd c id f).mem = s.mem := by simp [State.setShcmd]

/-! Faults -/

@[simp] theorem execFaultRecordWrite_canonical (die : Nat) (s : State) (wf : Canonical s.mem) :
    CanonicalOut (execFaultRecordWrite die s) := by
  simp only [execFaultRecordWrite, canonicalOut_next]
  split
  · exact wf
  split
  · exact wf
  next r _ =>
  refine getD_canonical ?_ wf
  intro u e
  obtain ⟨v, e, door⟩ := Option.bind_eq_some_iff.1 e
  have hv := State.hubStorePa_some_canonical e wf
  split at door
  · cases door; exact hv
  · exact State.hubStorePa_some_canonical door hv

@[simp] theorem State.releaseAll_mem (s : State) (id : Nat) : (s.releaseAll id).mem = s.mem := by
  simp [State.releaseAll]
@[simp] theorem State.skipFiring_mem (s : State) (c e x slot profile id : Nat) :
    (s.skipFiring c e x slot profile id).mem = s.mem := by simp [State.skipFiring, apply_ite State.mem]
@[simp] theorem State.giveUpResult_mem (s : State) (a : Access) : (s.giveUpResult a).mem = s.mem := by
  simp [State.giveUpResult]
@[simp] theorem State.actAccess_mem (s : State) (id : Nat) (again : Bool) : (s.actAccess id again).mem = s.mem := by
  simp only [State.actAccess]
  repeat' split
  all_goals simp

@[simp] theorem State.actMwcas_canonical (s : State) (id : Nat) (again : Bool) (wf : Canonical s.mem) :
    Canonical (s.actMwcas id again).mem := by
  simp only [State.actMwcas]
  repeat' split
  all_goals simp +contextual [wf]

@[simp] theorem State.actStream_mem (s : State) (id : Nat) (again : Bool) : (s.actStream id again).mem = s.mem := by
  simp only [State.actStream]
  repeat' split
  all_goals simp
@[simp] theorem State.actLogged_mem (s : State) (cell page asid : Nat) (again : Bool) :
    (s.actLogged cell page asid again).mem = s.mem := by simp [State.actLogged]
@[simp] theorem State.clearRow_mem (s : State) (ref : Nat) : (s.clearRow ref).mem = s.mem := by simp [State.clearRow]

@[simp] theorem State.act_canonical (s : State) (r : OpenRecord) (again : Bool) (wf : Canonical s.mem) :
    Canonical (s.act r again).mem := by
  simp only [State.act]
  repeat' split
  all_goals simp [wf]

@[simp] theorem State.storeAction_mem (s : State) (r : OpenRecord) (action : Nat) :
    (s.storeAction r action).mem = s.mem := by simp [State.storeAction]
@[simp] theorem State.closeRecord_mem (s : State) (die id : Nat) : (s.closeRecord die id).mem = s.mem := by
  simp [State.closeRecord]
@[simp] theorem State.badAct_mem (s : State) (die : Nat) : (s.badAct die).mem = s.mem := by simp [State.badAct]
@[simp] theorem State.perform_canonical (s : State) (r : OpenRecord) (action : Nat) (wf : Canonical s.mem) :
    Canonical (s.perform r action).mem := by
  unfold State.perform; split <;> simp [wf]

@[simp] theorem State.fqAct_canonical (s : State) (die seq action : Nat) (wf : Canonical s.mem) :
    Canonical (s.fqAct die seq action).mem := by
  simp only [State.fqAct]
  repeat' split
  all_goals simp [wf]

@[simp] theorem execFqactResume_canonical (die seq : Nat) (s : State) (wf : Canonical s.mem) :
    CanonicalOut (execFqactResume die seq s) := by simp [execFqactResume, wf]
@[simp] theorem execFqactSkip_canonical (die seq : Nat) (s : State) (wf : Canonical s.mem) :
    CanonicalOut (execFqactSkip die seq s) := by simp [execFqactSkip, wf]
@[simp] theorem execFqactTerminate_canonical (die seq : Nat) (s : State) (wf : Canonical s.mem) :
    CanonicalOut (execFqactTerminate die seq s) := by simp [execFqactTerminate, wf]
@[simp] theorem State.fqactWrite_canonical (s : State) (die v : Nat) (wf : Canonical s.mem) :
    Canonical (s.fqactWrite die v).mem := by
  simp only [State.fqactWrite]; split <;> simp [wf]
@[simp] theorem execFqconsWrite_canonical (die value : Nat) (s : State) (wf : Canonical s.mem) :
    CanonicalOut (execFqconsWrite die value s) := by simp [execFqconsWrite, wf]
@[simp] theorem execFqbaseWrite_canonical (die value : Nat) (s : State) (wf : Canonical s.mem) :
    CanonicalOut (execFqbaseWrite die value s) := by simp [execFqbaseWrite, wf]

/-- A register's write, with the window's two parts named. The window is kept a variable while the definition is
  unfolded: the kernel would
else compute the address minus the hub's window in unary. -/
theorem State.mmioWrite_eq (s : State) (pa n v : Nat) (rs : Bool) :
    s.mmioWrite pa n v rs = if n == 8 && rs && (mmioWindow pa).1 < 8 && (mmioWindow pa).2 == 0x2018 then
      (s.regWrite pa n v rs).fqactWrite (mmioWindow pa).1 v else s.regWrite pa n v rs := by
  suffices h : ∀ write window, write = State.mmioWrite → window = mmioWindow → write s pa n v rs =
      if n == 8 && rs && (window pa).1 < 8 && (window pa).2 == 0x2018 then (s.regWrite pa n v rs).fqactWrite (window
        pa).1 v
      else s.regWrite pa n v rs from h _ _ rfl rfl
  intro write window unfolded win
  delta State.mmioWrite at unfolded
  rw [← win] at unfolded
  rw [unfolded]

/-! MMIO windows -/

@[simp] theorem State.mmioWrite_canonical (s : State) (pa n v : Nat) (rs : Bool) (wf : Canonical s.mem) :
    Canonical (s.mmioWrite pa n v rs).mem := by
  have regs : Canonical (s.regWrite pa n v rs).mem := by rwa [State.regWrite_mem]
  rw [State.mmioWrite_eq]
  exact ite_canonical (State.fqactWrite_canonical _ _ _ regs) regs

@[simp] theorem State.mmioStore_canonical (s : State) (pa : Nat) (bs : List Nat) (rs : Bool) (wf : Canonical s.mem) :
    Canonical (s.mmioStore pa bs rs).mem := by
  have pieces (write : State → Nat → Nat → Nat → Bool → State) (hw : ∀ s pa n v,
    Canonical s.mem → Canonical (write s pa n v rs).mem) :
      Canonical ((wordPieces pa bs.length).foldl (fun s p => write s (pa + p.1) p.2 (leNat (sliceBytes bs p.1 p.2))
        rs) s).mem :=
    foldl_canonical _ (fun s p h => hw _ _ _ _ h) _ s wf
  unfold State.mmioStore
  exact ite_canonical (pieces State.mmioWrite fun s pa n v h => State.mmioWrite_canonical s pa n v rs h) wf

@[simp] theorem execMigpush_canonical (value : Nat) (s : State) (wf : Canonical s.mem) :
    CanonicalOut (execMigpush value s) := by simp [execMigpush, wf]
@[simp] theorem execMigfree_canonical (value : Nat) (s : State) (wf : Canonical s.mem) :
    CanonicalOut (execMigfree value s) := by simp [execMigfree, wf]
@[simp] theorem execMigctlWrite_canonical (value : Nat) (s : State) (wf : Canonical s.mem) :
    CanonicalOut (execMigctlWrite value s) := by simp [execMigctlWrite, wf]
@[simp] theorem execMigevqWrite_canonical (value : Nat) (s : State) (wf : Canonical s.mem) :
    CanonicalOut (execMigevqWrite value s) := by simp [execMigevqWrite, wf]
@[simp] theorem execMigevcWrite_canonical (value : Nat) (s : State) (wf : Canonical s.mem) :
    CanonicalOut (execMigevcWrite value s) := by simp [execMigevcWrite, wf]
@[simp] theorem execMighbaseWrite_canonical (value : Nat) (s : State) (wf : Canonical s.mem) :
    CanonicalOut (execMighbaseWrite value s) := by simp [execMighbaseWrite, wf]
@[simp] theorem execQpush_canonical (queue value : Nat) (s : State) (wf : Canonical s.mem) :
    CanonicalOut (execQpush queue value s) := by simp [execQpush, wf]
@[simp] theorem execPwrcapWrite_canonical (value : Nat) (s : State) (wf : Canonical s.mem) :
    CanonicalOut (execPwrcapWrite value s) := by simp [execPwrcapWrite, wf]
@[simp] theorem execModnumWrite_canonical (value : Nat) (s : State) (wf : Canonical s.mem) :
    CanonicalOut (execModnumWrite value s) := by simp [execModnumWrite, wf]
@[simp] theorem execSerrcntWrite_canonical (die value : Nat) (s : State) (wf : Canonical s.mem) :
    CanonicalOut (execSerrcntWrite die value s) := by simp [execSerrcntWrite, wf]
@[simp] theorem execMmioRegisterWrite_canonical (pa size : Nat) (w : RegWrite) (s : State) (wf : Canonical s.mem) :
    CanonicalOut (execMmioRegisterWrite pa size w s) := by
  unfold execMmioRegisterWrite; split <;> simp [wf]

/-! Engines -/

@[simp] theorem State.engineLoadPiece_canonical (s : State) (cell : Option Nat) (die asid : Nat) (res : Bool)
    (k : Kind) (hint va n : Nat) (wf : Canonical s.mem) :
    CanonicalHub (s.engineLoadPiece cell die asid res k hint va n) := by
  grind [State.engineLoadPiece, State.translate_canonical, State.readPiece_canonical, canonicalHub_ok,
    canonicalHub_wait, canonicalHub_fault]

theorem State.engineLoadPiece_ok_canonical {s : State} {cell : Option Nat} {die asid : Nat} {res : Bool} {k : Kind}
    {hint va n : Nat} {out : List Nat} {u : State}
    (eqn : s.engineLoadPiece cell die asid res k hint va n = .ok out u) (wf : Canonical s.mem) : Canonical u.mem :=
  (State.engineLoadPiece_canonical s cell die asid res k hint va n wf).of_ok eqn

@[simp] theorem State.engineStorePiece_canonical (s : State) (cell : Option Nat) (die asid : Nat) (res : Bool)
    (hint va : Nat) (bs : List Nat) (wf : Canonical s.mem) :
    CanonicalHub (s.engineStorePiece cell die asid res hint va bs) := by
  grind [State.engineStorePiece, State.translate_canonical, State.mmioStore_canonical, State.writePiece_canonical,
    canonicalHub_ok, canonicalHub_wait, canonicalHub_fault]

@[simp] theorem State.engineLoad_canonical (s : State) (cell : Option Nat) (die asid : Nat) (res : Bool)
    (hint va n : Nat) (wf : Canonical s.mem) : CanonicalHub (s.engineLoad cell die asid res hint va n) :=
  foldl_canonicalHub _ (fun r p h => by grind [canonicalHub_ok, State.engineLoadPiece_canonical]) _ wf
theorem State.engineLoad_ok_canonical {s : State} {cell : Option Nat} {die asid : Nat} {res : Bool} {hint va n : Nat}
    {out : List Nat} {u : State} (eqn : s.engineLoad cell die asid res hint va n = .ok out u) (wf : Canonical s.mem)
    : Canonical u.mem := (State.engineLoad_canonical s cell die asid res hint va n wf).of_ok eqn
@[simp] theorem State.engineStore_canonical (s : State) (cell : Option Nat) (die asid : Nat) (res : Bool)
    (hint va : Nat) (bs : List Nat) (wf : Canonical s.mem) :
    CanonicalHub (s.engineStore cell die asid res hint va bs) :=
  foldl_canonicalHub _ (fun r p h => by grind [canonicalHub_ok, State.engineStorePiece_canonical]) _ wf
theorem State.engineStore_ok_canonical {s : State} {cell : Option Nat} {die asid : Nat} {res : Bool} {hint va : Nat}
    {bs : List Nat} {out : List Nat} {u : State} (eqn : s.engineStore cell die asid res hint va bs = .ok out u)
    (wf : Canonical s.mem) : Canonical u.mem :=
  (State.engineStore_canonical s cell die asid res hint va bs wf).of_ok eqn

@[simp] theorem State.heddlePause_canonical (s : State) (c : Nat) (x : HCmd) (code cause addr : Nat)
    (wf : Canonical s.mem) : Canonical (s.heddlePause c x code cause addr).mem := by
  simp only [State.heddlePause]
  repeat' split
  all_goals simp [wf]

@[simp] theorem execHeddleCommandStart_canonical (cell : Nat) (s : State) (wf : Canonical s.mem) :
    CanonicalOut (execHeddleCommandStart cell s) := by
  simp only [execHeddleCommandStart]
  repeat' split
  all_goals simp [wf]

@[simp] theorem State.correctRanges_mem (s : State) (c : Nat) (rs : List (Nat × Nat)) :
    (s.correctRanges c rs).mem = s.mem := by simp [State.correctRanges]

@[simp] theorem State.prepBlocks_canonical (s : State) (c : Nat) (x : HCmd) (need n va : Nat) (acc : List Nat)
    (wf : Canonical s.mem) : CanonicalHub (s.prepBlocks c x need n va acc) := by
  induction n generalizing s va acc with
  | zero => simpa [State.prepBlocks]
  | succ n ih => grind [State.prepBlocks, canonicalHub_ok, canonicalHub_wait, canonicalHub_fault,
    → State.translateFor_pair_canonical, State.engineLoadPiece_canonical]

@[simp] theorem State.prepRow_canonical (s : State) (c : Nat) (x : HCmd) (r : Nat) (wf : Canonical s.mem) :
    CanonicalHub (s.prepRow c x r) := by
  simp only [State.prepRow]
  repeat' split
  all_goals simp [wf]

theorem State.prepRow_ok_canonical {s : State} {c : Nat} {x : HCmd} {r : Nat} {out : List Nat} {u : State}
    (eqn : s.prepRow c x r = .ok out u) (wf : Canonical s.mem) : Canonical u.mem :=
  (State.prepRow_canonical s c x r wf).of_ok eqn
@[simp] theorem State.setOut_mem (s : State) (c : Nat) (x : HCmd) (rows : List (Nat × List Nat)) :
    (s.setOut c x rows).mem = s.mem := by simp [State.setOut]

@[simp] theorem State.prepCols_canonical (s : State) (c : Nat) (x : HCmd) (wf : Canonical s.mem) :
    CanonicalHub (s.prepCols c x) := by
  unfold State.prepCols
  generalize List.range 256 = rows
  exact foldl_canonicalHub _ (fun r n h => by grind [canonicalHub_ok, State.prepRow_canonical]) _ wf

theorem State.prepCols_ok_canonical {s : State} {c : Nat} {x : HCmd} {out : List Nat} {u : State}
    (eqn : s.prepCols c x = .ok out u) (wf : Canonical s.mem) : Canonical u.mem :=
  (State.prepCols_canonical s c x wf).of_ok eqn
@[simp] theorem State.runLoad_canonical (s : State) (cell : Nat) (x : HCmd) (wf : Canonical s.mem) :
    CanonicalHub (s.runLoad cell x) := by
  simp only [State.runLoad]; split <;> simp [wf]

@[simp] theorem State.heddleRow_canonical (s : State) (cell : Nat) (x : HCmd) (m : Nat) (wf : Canonical s.mem) :
    CanonicalHub (s.heddleRow cell x m) := by
  unfold State.heddleRow
  extract_lets c ws w0 guard
  have guarded (rs : List (Nat × Nat)) (go : State → State) (hg : ∀ s,
    (go s).mem = s.mem) : CanonicalHub (guard rs go) := by
    simp only [guard]
    split
    · simp
    · simpa [hg] using wf
  clear_value guard
  split
  · split
    · split
      next e => rw [canonicalHub_ok, State.setOut_mem]; exact State.prepCols_ok_canonical e wf
      next => exact State.prepCols_canonical _ _ _ wf
    · split
      next e => simpa using State.prepRow_ok_canonical e wf
      next => exact State.prepRow_canonical _ _ _ _ wf
  · exact State.runLoad_canonical _ _ _ wf
  · exact guarded _ _ fun s => State.setOut_mem ..
  · simpa using wf
  · apply guarded
    intro s
    dsimp only
    split
    · rw [State.setOut_mem, State.setCtx_mem, State.writeRegOf_mem]
    · exact State.setOut_mem ..
  · split
    · simp
    · split
      next e => simpa using State.engineLoad_ok_canonical e wf
      next => exact State.engineLoad_canonical _ _ _ _ _ _ _ _ wf

theorem State.heddleRow_ok_canonical {s : State} {cell : Nat} {x : HCmd} {m : Nat} {out : List Nat} {u : State}
    (eqn : s.heddleRow cell x m = .ok out u) (wf : Canonical s.mem) : Canonical u.mem :=
  (State.heddleRow_canonical s cell x m wf).of_ok eqn
@[simp] theorem State.rowDone_mem (s : State) (cell : Nat) (x : HCmd) : (s.rowDone cell x).mem = s.mem := by
  simp [State.rowDone, apply_ite State.mem]
@[simp] theorem State.writeRow_mem (s : State) (cell : Nat) (x : HCmd) : (s.writeRow cell x).mem = s.mem := by
  simp only [State.writeRow]
  repeat' split
  all_goals simp
@[simp] theorem execHeddleCommandComplete_canonical (cell id : Nat) (s : State) (wf : Canonical s.mem) :
    CanonicalOut (execHeddleCommandComplete cell id s) := by
  grind [execHeddleCommandComplete, State.writeRow_mem, State.heddleLeave_mem, → State.heddleRow_ok_canonical,
    State.heddlePause_canonical, State.rowDone_mem, canonicalOut_next]

@[simp] theorem execWovenPartial_canonical (cell id : Nat) (s : State) (wf : Canonical s.mem) :
    CanonicalOut (execWovenPartial cell id s) := by
  simp only [execWovenPartial]
  repeat' split
  all_goals simp [wf]

/-! Graphics -/

@[simp] theorem execBinb_canonical (t : Fin 64) (d : Dst) (a b : Src) (s : State) (wf : Canonical s.mem) :
    CanonicalOut (execBinb t d a b s) := by simp [execBinb, wf]
@[simp] theorem execEdge_canonical (t : Fin 64) (d : MaskReg) (a b : Src) (k : Fin 4) (s : State)
    (wf : Canonical s.mem) : CanonicalOut (execEdge t d a b k s) := by simp [execEdge, wf]
@[simp] theorem execBary_canonical (t : Fin 64) (d : Dst) (a b : Src) (s : State) (wf : Canonical s.mem) :
    CanonicalOut (execBary t d a b s) := by simp [execBary, wf]
@[simp] theorem execZcmp_canonical (t : Fin 64) (d : MaskReg) (a b : Src) (s : State) (wf : Canonical s.mem) :
    CanonicalOut (execZcmp t d a b s) := by simp [execZcmp, wf]
@[simp] theorem execTexb_canonical (t : Fin 64) (d : Dst) (a b : Src) (s : State) (wf : Canonical s.mem) :
    CanonicalOut (execTexb t d a b s) := by simp [execTexb, wf]
@[simp] theorem State.writeRays_mem (s : State) (c e x : Nat) (m : LaneMask) (ray : Nat → List Word) :
    (s.writeRays c e x m ray).mem = s.mem := by
  rw [State.writeRays, foldl_mem _ fun _ _ => State.writeRegOf_mem ..]
@[simp] theorem execRspush_canonical (t : Fin 64) (a : Src) (s : State) (wf : Canonical s.mem) :
    CanonicalOut (execRspush t a s) := by simp [execRspush, wf]
@[simp] theorem execRspop_canonical (t : Fin 64) (a : Src) (s : State) (wf : Canonical s.mem) :
    CanonicalOut (execRspop t a s) := by simp [execRspop, wf]
@[simp] theorem State.beginTraversal_mem (s : State) (t : Fin 64) (tr : Traversal) :
    (s.beginTraversal t tr).mem = s.mem := by simp [State.beginTraversal]
@[simp] theorem State.readNow_canonical (s : State) (cell n : Nat) (rs : List (Nat × Nat × Trans))
    (wf : Canonical s.mem) : CanonicalHub (s.readNow cell n rs) :=
  foldl_canonicalHub _ (fun r x h => by grind [canonicalHub_ok, State.readPiece_canonical]) _ wf
theorem State.readNow_ok_canonical {s : State} {cell n : Nat} {rs : List (Nat × Nat × Trans)} {out : List Nat}
    {u : State} (eqn : s.readNow cell n rs = .ok out u) (wf : Canonical s.mem) : Canonical u.mem :=
  (State.readNow_canonical s cell n rs wf).of_ok eqn

@[simp] theorem State.fireTraversal_canonical (s : State) (t : Fin 64) (b : Src) (leaf : Bool) (wf : Canonical s.mem)
    : Canonical (s.fireTraversal t b leaf).mem := by
  unfold State.fireTraversal
  dsimp only
  split
  · simp [wf]
  split
  · simp [wf]
  split
  · simp [wf]
  split
  · simp [wf]
  · simp [wf]
  split
  · simp [wf]
  split
  · simp [wf]
  · simp [wf]
  next bs u e =>
  have read : Canonical u.mem := State.readNow_ok_canonical e (by simp [wf])
  split
  · simp [read]
  split
  · simp [read]
  split
  · simp [read]
  · simp [read]
  · apply State.enterMerges_canonical
    rw [State.beginTraversal_mem, State.newId_mem]
    split <;> simp [read]

@[simp] theorem execTnode_canonical (t : Fin 64) (b : Src) (s : State) (wf : Canonical s.mem) :
    CanonicalOut (execTnode t b s) := by simp [execTnode, wf]
@[simp] theorem execTisect_canonical (t : Fin 64) (b : Src) (s : State) (wf : Canonical s.mem) :
    CanonicalOut (execTisect t b s) := by simp [execTisect, wf]
@[simp] theorem State.endTraversal_mem (s : State) (t : Traversal) : (s.endTraversal t).mem = s.mem := by
  simp [State.endTraversal]

@[simp] theorem execTraversalComplete_canonical (id : Nat) (s : State) (wf : Canonical s.mem) :
    CanonicalOut (execTraversalComplete id s) := by
  simp only [execTraversalComplete]
  repeat' split
  all_goals simp [wf]

@[simp] theorem State.asFiring_mem (s : State) (f : Firing) (g : State → State) (hg : ∀ s, (g s).mem = s.mem) :
    (s.asFiring f g).mem = s.mem :=
  hg _

@[simp] theorem execRayout_canonical (t : Fin 64) (o : ChanNo) (s : State) (wf : Canonical s.mem) :
    CanonicalOut (execRayout t o s) := by
  simp only [execRayout, canonicalOut_next]
  split
  · simp [wf]
  split
  · simp [wf]
  split
  · exact wf
  · rw [State.setCurCtx_mem, State.setElem_mem, foldl_mem _ fun _ _ => State.request_mem ..]
    exact wf

@[simp] theorem execRayoutSend_canonical (cell elem ctx : Nat) (s : State) (wf : Canonical s.mem) :
    CanonicalOut (execRayoutSend cell elem ctx s) := by
  simp only [execRayoutSend]
  repeat' split
  all_goals simp [wf]

@[simp] theorem State.mergeRays_mem (s : State) (cell elem ctx : Nat) : (s.mergeRays cell elem ctx).mem = s.mem := by
  unfold State.mergeRays; split <;> simp
@[simp] theorem execRayin_canonical (t : Fin 64) (n : ChanNo) (s : State) (wf : Canonical s.mem) :
    CanonicalOut (execRayin t n s) := by simp [execRayin, apply_ite State.mem, wf]

@[simp] theorem execRayinMergeComplete_canonical (cell elem ctx : Nat) (s : State) (wf : Canonical s.mem) :
    CanonicalOut (execRayinMergeComplete cell elem ctx s) := by
  simp only [execRayinMergeComplete, canonicalOut_next]
  split
  · split
    · exact wf
    · rw [State.setElem_mem, State.asFiring_mem _ _ _ fun _ => State.endFiring_mem .., State.setCtx_mem,
        foldl_mem _ fun _ _ => State.writeRegOf_mem ..]
      exact wf
  · exact wf

@[simp] theorem State.blendEnd_mem (s : State) (t : Fin 64) (d : Dst) (code n applied : Nat) :
    (s.blendEnd t d code n applied).mem = s.mem := by simp [State.blendEnd]
theorem State.spillCheck_left_canonical {s : State} {k : Kind} {ls : List (Nat × Nat)} {t u : State}
    (eqn : s.spillCheck k ls = (.inl t, u)) (wf : Canonical s.mem) : Canonical t.mem := by
  grind [State.spillCheck, State.stay_mem, State.takeFault_mem, → State.translateAll_pair_canonical]
theorem State.spillCheck_right_canonical {s : State} {k : Kind} {ls : List (Nat × Nat)}
    {rs : List (Nat × Nat × Trans)} {u : State} (eqn : s.spillCheck k ls = (.inr rs, u)) (wf : Canonical s.mem) :
    Canonical u.mem := by
  grind [State.spillCheck, → State.translateAll_pair_canonical]
@[simp] theorem State.spillStore_mem (s : State) (rs : List (Nat × Nat × Trans)) (bs : List Nat) :
    (s.spillStore rs bs).mem = s.mem := by simp [State.spillStore, apply_ite State.mem]
@[simp] theorem State.spillRead_canonical (s : State) (rs : List (Nat × Nat × Trans)) (wf : Canonical s.mem) :
    CanonicalHub (s.spillRead rs) := by
  simp only [State.spillRead]; split <;> simp [wf]
theorem State.spillRead_ok_canonical {s : State} {rs : List (Nat × Nat × Trans)} {out : List Nat} {u : State}
    (eqn : s.spillRead rs = .ok out u) (wf : Canonical s.mem) : Canonical u.mem :=
  (State.spillRead_canonical s rs wf).of_ok eqn

@[simp] theorem State.blendFinal_canonical (s : State) (t : Fin 64) (d : Dst) (T mode zctl expect rcount : Nat)
    (row : List Nat) (spill : Nat) (spilled : List (Nat × Lanes)) (head : Nat × Lanes) (wf : Canonical s.mem) :
    Canonical (s.blendFinal t d T mode zctl expect rcount row spill spilled head).mem := by
  simp only [State.blendFinal]
  split
  next e => exact State.spillCheck_left_canonical e wf
  next e => simpa using State.spillCheck_right_canonical e wf

@[simp] theorem execBlnd_canonical (t : Fin 64) (d : Dst) (n : ChanNo) (b : Src) (k : Fin 8) (s : State)
    (wf : Canonical s.mem) : CanonicalOut (execBlnd t d n b k s) := by
  unfold execBlnd
  extract_lets c T tag head sram row f format cause7 reorder
  dsimp -zeta only
  extract_lets g good kept
  have hf : Canonical format.mem := by simp [format, wf]
  have h7 : Canonical cause7.mem := by simp [cause7, wf]
  have hg : Canonical good.mem := by simp [good, wf]
  have hk : Canonical kept.mem := by simp [kept, hg]
  clear_value format cause7 good kept
  rw [canonicalOut_next]
  split
  · simp [wf]
  split
  · exact h7
  split
  · exact hf
  split
  · exact h7
  split
  · exact hf
  split
  · simp [wf]
  split
  · split
    · simp [hg]
    · split
      next e => exact State.spillCheck_left_canonical e hg
      next e =>
        have checked := State.spillCheck_right_canonical e hg
        split
        · simp [checked]
        · simp [checked]
        next r => exact State.blendFinal_canonical _ _ _ _ _ _ _ _ _ _ _ _ (State.spillRead_ok_canonical r checked)
  split
  · simp [hk]
  split
  · split
    next e => exact State.spillCheck_left_canonical e hg
    next e => simpa using State.spillCheck_right_canonical e hg
  · exact hf

/-! Shuttle commands -/

@[simp] theorem State.shuttleLoad_canonical (s : State) (c : Nat) (x : ShCmd) (base : Nat) (d : Int) (n : Nat)
    (wf : Canonical s.mem) : CanonicalHub (s.shuttleLoad c x base d n) := by
  simp only [State.shuttleLoad]
  repeat' split
  all_goals simp [wf]

theorem State.shuttleLoad_ok_canonical {s : State} {c : Nat} {x : ShCmd} {base : Nat} {d : Int} {n : Nat}
    {out : List Nat} {u : State} (eqn : s.shuttleLoad c x base d n = .ok out u) (wf : Canonical s.mem) :
    Canonical u.mem := (State.shuttleLoad_canonical s c x base d n wf).of_ok eqn

@[simp] theorem State.shuttleStore_canonical (s : State) (c : Nat) (x : ShCmd) (base : Nat) (d : Int) (bs : List Nat)
    (wf : Canonical s.mem) : CanonicalHub (s.shuttleStore c x base d bs) := by
  simp only [State.shuttleStore]
  repeat' split
  all_goals simp [wf]

theorem State.shuttleStore_ok_canonical {s : State} {c : Nat} {x : ShCmd} {base : Nat} {d : Int} {bs : List Nat}
    {out : List Nat} {u : State} (eqn : s.shuttleStore c x base d bs = .ok out u) (wf : Canonical s.mem) :
    Canonical u.mem := (State.shuttleStore_canonical s c x base d bs wf).of_ok eqn

@[simp] theorem State.shuttlePause_canonical (s : State) (c : Nat) (x : ShCmd) (code cause addr : Nat)
    (wf : Canonical s.mem) : Canonical (s.shuttlePause c x code cause addr).mem := by
  simp only [State.shuttlePause]
  repeat' split
  all_goals simp [wf]

@[simp] theorem State.shuttleBlock_canonical (s : State) (c : Nat) (x : ShCmd) (wf : Canonical s.mem) :
    Canonical (s.shuttleBlock c x).mem := by
  grind [State.shuttleBlock, State.translateFor_canonical, State.shuttlePause_canonical,
    → State.engineLoadPiece_ok_canonical, State.setShcmd_mem]
@[simp] theorem State.shuttleStart_mem (s : State) (c : Nat) (x : ShCmd) : (s.shuttleStart c x).mem = s.mem := by
  simp [State.shuttleStart, apply_ite State.mem]
@[simp] theorem State.shuttleRead_canonical (s : State) (c : Nat) (x : ShCmd) (wf : Canonical s.mem) :
    Canonical (s.shuttleRead c x).mem := by
  grind [State.shuttleRead, → State.shuttleLoad_ok_canonical, State.shuttlePause_canonical, State.setShcmd_mem]
@[simp] theorem State.shuttleWrite_canonical (s : State) (c : Nat) (x : ShCmd) (wf : Canonical s.mem) :
    Canonical (s.shuttleWrite c x).mem := by
  grind [State.shuttleWrite, → State.shuttleStore_ok_canonical, State.shuttlePause_canonical, State.setShcmd_mem]
@[simp] theorem State.shuttleFlag_canonical (s : State) (c : Nat) (x : ShCmd) (wf : Canonical s.mem) :
    Canonical (s.shuttleFlag c x).mem := by
  grind [State.shuttleFlag, State.setShcmd_mem, → State.shuttleStore_ok_canonical, State.shuttlePause_canonical]

@[simp] theorem State.shuttleFuture_canonical (s : State) (c : Nat) (x : ShCmd) (wf : Canonical s.mem) :
    Canonical (s.shuttleFuture c x).mem := by
  unfold State.shuttleFuture
  extract_lets next va
  have nexts (s : State) : (next s).mem = s.mem := State.setShcmd_mem ..
  clear_value next
  split
  · rwa [nexts]
  split
  next e => simp [State.translateFor_pair_canonical e wf]
  · exact wf
  · exact wf
  next pa leaf _ u e =>
  have walked : Canonical u.mem := State.translateFor_pair_canonical e wf
  extract_lets sm u1 u2 u3
  have h1 : Canonical u1.mem := ite_canonical (by simp [walked]) (by simp [walked])
  have h2 : Canonical u2.mem := by
    simp only [u2, State.serveTurn_mem, correctAt_mem]
    exact ite_canonical h1 (by simp [h1])
  have h3 : Canonical u3.mem := ite_canonical (by simp [h2]) h2
  clear_value u3
  split
  · exact wf
  split
  · simp [walked]
  split
  · simp [h3]
  dsimp only
  split
  · simp [h3]
  have stored (new : Option Nat) :
      Canonical (match new with | some v => u3.homeWrite pa (leBytes 8 v) | none => u3).mem := by
    split <;> simp [h3]
  split
  · rw [nexts]; exact stored _
  · simp only [nexts, State.newId_mem]; exact stored _

@[simp] theorem execShuttleCommandRun_canonical (cell id : Nat) (s : State) (wf : Canonical s.mem) :
    CanonicalOut (execShuttleCommandRun cell id s) := by
  simp only [execShuttleCommandRun]
  repeat' split
  all_goals simp [wf]

@[simp] theorem execShuttleCommandComplete_canonical (cell id : Nat) (s : State) (wf : Canonical s.mem) :
    CanonicalOut (execShuttleCommandComplete cell id s) := by
  simp only [execShuttleCommandComplete]
  repeat' split
  all_goals simp [wf]

@[simp] theorem State.setStream_mem (s : State) (id : Nat) (f : Stream → Stream) :
    (s.setStream id f).mem = s.mem := by simp [State.setStream]
@[simp] theorem State.streamPause_canonical (s : State) (k : Stream) (code cause addr : Nat) (wf : Canonical s.mem) :
    Canonical (s.streamPause k code cause addr).mem := by simp [State.streamPause, wf]
@[simp] theorem State.streamOpened_mem (s : State) (k : Stream) : (s.streamOpened k).mem = s.mem := by
  simp [State.streamOpened]
@[simp] theorem State.streamRefuse_canonical (s : State) (k : Stream) (code : Nat) (wf : Canonical s.mem) :
    Canonical (s.streamRefuse k code).mem := by simp [State.streamRefuse, wf]

@[simp] theorem execStreamOpen_canonical (id : Nat) (s : State) (wf : Canonical s.mem) :
    CanonicalOut (execStreamOpen id s) := by
  simp only [execStreamOpen, canonicalOut_next]
  split
  · exact wf
  split
  · exact wf
  split
  next e => simp [State.translate_pair_canonical e wf]
  · exact wf
  · exact wf
  split
  · exact wf
  split
  · exact wf
  · simp [wf]
  next e =>
    have read := State.engineLoadPiece_ok_canonical e wf
    split <;> simp [read]

theorem State.streamRead_canonical (s : State) (k : Stream) (wf : Canonical s.mem) :
    Canonical (s.streamRead k).1.mem ∧ CanonicalHub (s.streamRead k).2 := by
  unfold State.streamRead
  refine List.foldlRecOn (motive := fun (p : State × HubResult) => Canonical p.1.mem ∧ CanonicalHub p.2) _ _ ⟨wf,
    by simpa⟩ ?_
  rintro ⟨t, r⟩ ⟨ht, hr⟩ i -
  grind [canonicalHub_ok, State.engineLoad_canonical, State.setStream_mem]

@[simp] theorem State.streamSend_mem (s : State) (k : Stream) (cell tag : Nat) (bs : List Nat) (last : Bool) :
    (s.streamSend k cell tag bs last).mem = s.mem := by simp [State.streamSend]

@[simp] theorem execStreamPush_canonical (id : Nat) (s : State) (wf : Canonical s.mem) :
    CanonicalOut (execStreamPush id s) := by
  simp only [execStreamPush, canonicalOut_next]
  split
  · exact wf
  next k _ =>
  have read := State.streamRead_canonical s k wf
  split
  · exact wf
  split
  · exact wf
  split
  · exact wf
  split
  · simp [wf]
  split
  all_goals next e => rw [e] at read; simp [read.1]

@[simp] theorem execStreamClose_canonical (id : Nat) (s : State) (wf : Canonical s.mem) :
    CanonicalOut (execStreamClose id s) := by
  simp only [execStreamClose]
  repeat' split
  all_goals simp [wf]

/-! Shuttle, traversal and errors -/

@[simp] theorem execSysr_canonical (t : Fin 64) (d : Dst) (i : BitVec 9) (s : State) (wf : Canonical s.mem) :
    CanonicalOut (execSysr t d i s) := by simp [execSysr, apply_ite State.mem, wf]

@[simp] theorem execSysw_canonical (t : Fin 64) (a : Src) (i : BitVec 9) (s : State) (wf : Canonical s.mem) :
    CanonicalOut (execSysw t a i s) := by
  simp only [execSysw]
  repeat' split
  all_goals simp [wf]

@[simp] theorem State.trapRecord_mem (s : State) (t : Fin 64) (code imm : Nat) (of_ : RecordOf) :
    (s.trapRecord t code imm of_).2.mem = s.mem := by simp [State.trapRecord]
@[simp] theorem execTrap_canonical (t : Fin 64) (i : BitVec 14) (s : State) (wf : Canonical s.mem) :
    CanonicalOut (execTrap t i s) := by simp [execTrap, wf]

@[simp] theorem execBrk_canonical (t : Fin 64) (i : BitVec 14) (s : State) (wf : Canonical s.mem) :
    CanonicalOut (execBrk t i s) := by
  simp only [execBrk, canonicalOut_next]
  rw [foldl_mem _ fun _ _ => State.hold_mem .., State.trapRecord_mem]
  exact wf

@[simp] theorem execTlaunch_canonical (t : Fin 64) (a : Pair) (s : State) (wf : Canonical s.mem) :
    CanonicalOut (execTlaunch t a s) := by
  grind [execTlaunch, State.endFiring_mem, State.takeFault_mem, State.translateFor_canonical, State.stay_mem,
    → State.addTail_some_canonical, State.occupy_mem, canonicalOut_next]

@[simp] theorem execDraftld_canonical (t : Fin 64) (a : Pair) (b : Src) (p : Profile) (s : State)
    (wf : Canonical s.mem) : CanonicalOut (execDraftld t a b p s) := by
  simp only [execDraftld]
  repeat' split
  all_goals simp [wf]

@[simp] theorem execDraftsw_canonical (t : Fin 64) (s : State) (wf : Canonical s.mem) :
    CanonicalOut (execDraftsw t s) := by
  simp only [execDraftsw]
  repeat' split
  all_goals simp [wf]

@[simp] theorem State.abandonRay_mem (s : State) (c e x : Nat) : (s.abandonRay c e x).mem = s.mem := by
  simp only [State.abandonRay]
  repeat' split
  all_goals simp
@[simp] theorem State.stopRegion_mem (s : State) (r : Region) : (s.stopRegion r).mem = s.mem := by
  simp [State.stopRegion]

@[simp] theorem State.fireImage_mem (s : State) (t : Fin 64) (a : Pair) (b : Src) (form : Nat) :
    (s.fireImage t a b form).mem = s.mem := by
  simp only [State.fireImage]
  repeat' split
  all_goals simp

@[simp] theorem execCtximgSavef_canonical (t : Fin 64) (a : Pair) (b : Src) (s : State) (wf : Canonical s.mem) :
    CanonicalOut (execCtximgSavef t a b s) := by simp [execCtximgSavef, wf]
@[simp] theorem execCtximgSaved_canonical (t : Fin 64) (a : Pair) (b : Src) (s : State) (wf : Canonical s.mem) :
    CanonicalOut (execCtximgSaved t a b s) := by simp [execCtximgSaved, wf]
@[simp] theorem execCtximgRest_canonical (t : Fin 64) (a : Pair) (b : Src) (s : State) (wf : Canonical s.mem) :
    CanonicalOut (execCtximgRest t a b s) := by simp [execCtximgRest, wf]

@[simp] theorem State.fireInv_mem (s : State) (t : Fin 64) (a : Pair) (b : Src) (p : Profile) (form : Nat) :
    (s.fireInv t a b p form).mem = s.mem := by
  simp only [State.fireInv]
  repeat' split
  all_goals simp

@[simp] theorem execTlbinvPg_canonical (t : Fin 64) (a : Pair) (b : Src) (p : Profile) (s : State)
    (wf : Canonical s.mem) : CanonicalOut (execTlbinvPg t a b p s) := by simp [execTlbinvPg, wf]
@[simp] theorem execTlbinvAs_canonical (t : Fin 64) (a : Pair) (b : Src) (p : Profile) (s : State)
    (wf : Canonical s.mem) : CanonicalOut (execTlbinvAs t a b p s) := by simp [execTlbinvAs, wf]
@[simp] theorem execTlbinvAll_canonical (t : Fin 64) (a : Pair) (b : Src) (p : Profile) (s : State)
    (wf : Canonical s.mem) : CanonicalOut (execTlbinvAll t a b p s) := by simp [execTlbinvAll, wf]

/-! Fabric -/

@[simp] theorem State.setQueue_mem (s : State) (l st : Nat) (f : StageQueue → StageQueue) :
    (s.setQueue l st f).mem = s.mem := by simp [State.setQueue]
@[simp] theorem State.arriveChan_mem (s : State) (c e n : Nat) (ts : List Token) :
    (s.arriveChan c e n ts).mem = s.mem := by simp [State.arriveChan, apply_ite State.mem]
@[simp] theorem State.arriveQueue_mem (s : State) (l st : Nat) (ts : List Token) (place : Option Nat) :
    (s.arriveQueue l st ts place).mem = s.mem := by simp [State.arriveQueue]

@[simp] theorem execTokenArrival_canonical (id : Nat) (s : State) (wf : Canonical s.mem) :
    CanonicalOut (execTokenArrival id s) := by
  simp only [execTokenArrival]
  repeat' split
  all_goals simp [wf]

@[simp] theorem State.reserve_mem (s : State) (x1 : Target) : (s.reserve x1).mem = s.mem := by
  unfold State.reserve; split <;> simp
@[simp] theorem State.grantRay_mem (s : State) (c e x : Nat) (t : Target) : (s.grantRay c e x t).mem = s.mem := by
  simp only [State.grantRay]
  repeat' split
  all_goals simp
@[simp] theorem State.departs_mem (s : State) (p : Producer) : (s.departs p).mem = s.mem := by simp [State.departs]
@[simp] theorem State.endPeriod_mem (s : State) (c : Nat) : (s.endPeriod c).mem = s.mem := by simp [State.endPeriod]

@[simp] theorem execReservationGrant_canonical (id : Nat) (s : State) (wf : Canonical s.mem) :
    CanonicalOut (execReservationGrant id s) := by
  simp only [execReservationGrant]
  repeat' split
  all_goals simp [wf]

@[simp] theorem State.dispatchTo_mem (s : State) (l st rep : Nat) (t : Token) :
    (s.dispatchTo l st rep t).mem = s.mem := by
  unfold State.dispatchTo; split <;> simp

@[simp] theorem execStageQueueDispatch_canonical (launch stage : Nat) (s : State) (wf : Canonical s.mem) :
    CanonicalOut (execStageQueueDispatch launch stage s) := by
  simp only [execStageQueueDispatch]
  repeat' split
  all_goals simp [wf]

@[simp] theorem execQuiescenceReport_canonical (die region : Nat) (s : State) (wf : Canonical s.mem) :
    CanonicalOut (execQuiescenceReport die region s) := by
  simp only [execQuiescenceReport]
  repeat' split
  all_goals simp [wf]

@[simp] theorem State.acceptDraft_mem (s : State) (target asid va : Nat) (bs : List Nat) :
    (s.acceptDraft target asid va bs).mem = s.mem := by
  simp only [State.acceptDraft]
  repeat' split
  all_goals simp

@[simp] theorem State.decideDrafts_mem (s : State) (k : DraftLd) (a : Access) :
    (s.decideDrafts k a).1.mem = s.mem := by
  refine List.foldlRecOn k.lanes _ (motive := fun (p : State × List (Nat × Nat)) => p.1.mem = s.mem) rfl fun p hp x
    _ => ?_
  dsimp only
  split
  · rw [State.setCell_mem, hp]
  · rw [State.acceptDraft_mem, hp]

@[simp] theorem execDraftldValidation_canonical (id : Nat) (s : State) (wf : Canonical s.mem) :
    CanonicalOut (execDraftldValidation id s) := by
  simp only [execDraftldValidation]
  repeat' split
  all_goals simp [wf]

@[simp] theorem execDraftswCommit_canonical (cell elem ctx : Nat) (s : State) (wf : Canonical s.mem) :
    CanonicalOut (execDraftswCommit cell elem ctx s) := by
  simp only [execDraftswCommit]
  repeat' split
  all_goals simp +contextual [wf]

/-! Floating point -/

@[simp] theorem State.bitsOp_mem (s : State) (t : Fin 64) (d : Dst) (f : Nat → Word) :
    (s.bitsOp t d f).mem = s.mem := by simp [State.bitsOp]
@[simp] theorem execFadd_canonical (t : Fin 64) (d : Dst) (a b : Src) (s : State) (wf : Canonical s.mem) :
    CanonicalOut (execFadd t d a b s) := by simp [execFadd, wf]
@[simp] theorem execFsub_canonical (t : Fin 64) (d : Dst) (a b : Src) (s : State) (wf : Canonical s.mem) :
    CanonicalOut (execFsub t d a b s) := by simp [execFsub, wf]
@[simp] theorem execFmul_canonical (t : Fin 64) (d : Dst) (a b : Src) (s : State) (wf : Canonical s.mem) :
    CanonicalOut (execFmul t d a b s) := by simp [execFmul, wf]
@[simp] theorem execFfma_canonical (t : Fin 64) (d : Dst) (a b : Src) (c : VReg) (s : State) (wf : Canonical s.mem) :
    CanonicalOut (execFfma t d a b c s) := by simp [execFfma, wf]
@[simp] theorem execFfms_canonical (t : Fin 64) (d : Dst) (a b : Src) (c : VReg) (s : State) (wf : Canonical s.mem) :
    CanonicalOut (execFfms t d a b c s) := by simp [execFfms, wf]
@[simp] theorem execFmin_canonical (t : Fin 64) (d : Dst) (a b : Src) (s : State) (wf : Canonical s.mem) :
    CanonicalOut (execFmin t d a b s) := by simp [execFmin, wf]
@[simp] theorem execFmax_canonical (t : Fin 64) (d : Dst) (a b : Src) (s : State) (wf : Canonical s.mem) :
    CanonicalOut (execFmax t d a b s) := by simp [execFmax, wf]
@[simp] theorem execFminp_canonical (t : Fin 64) (d : Dst) (a b : Src) (s : State) (wf : Canonical s.mem) :
    CanonicalOut (execFminp t d a b s) := by simp [execFminp, wf]
@[simp] theorem execFmaxp_canonical (t : Fin 64) (d : Dst) (a b : Src) (s : State) (wf : Canonical s.mem) :
    CanonicalOut (execFmaxp t d a b s) := by simp [execFmaxp, wf]
@[simp] theorem execFabs_canonical (t : Fin 64) (d : Dst) (a : Src) (s : State) (wf : Canonical s.mem) :
    CanonicalOut (execFabs t d a s) := by simp [execFabs, wf]
@[simp] theorem execFneg_canonical (t : Fin 64) (d : Dst) (a : Src) (s : State) (wf : Canonical s.mem) :
    CanonicalOut (execFneg t d a s) := by simp [execFneg, wf]
@[simp] theorem execFcpys_canonical (t : Fin 64) (d : Dst) (a b : Src) (s : State) (wf : Canonical s.mem) :
    CanonicalOut (execFcpys t d a b s) := by simp [execFcpys, wf]
@[simp] theorem execFcmp_canonical (t : Fin 64) (d : MaskReg) (a b : Src) (k : Fin 8) (s : State)
    (wf : Canonical s.mem) : CanonicalOut (execFcmp t d a b k s) := by simp [execFcmp, wf]
@[simp] theorem execFclass_canonical (t : Fin 64) (d : Dst) (a : Src) (s : State) (wf : Canonical s.mem) :
    CanonicalOut (execFclass t d a s) := by simp [execFclass, wf]
@[simp] theorem execFrnd_canonical (t : Fin 64) (d : Dst) (a : Src) (k : Fin 8) (s : State) (wf : Canonical s.mem) :
    CanonicalOut (execFrnd t d a k s) := by simp [execFrnd, wf]
@[simp] theorem execFcvti_canonical (t : Fin 64) (d : Dst) (a : Src) (w u : Bool) (s : State) (wf : Canonical s.mem)
    : CanonicalOut (execFcvti t d a w u s) := by simp [execFcvti, wf]
@[simp] theorem execFcvtf_canonical (t : Fin 64) (d : Dst) (a : Src) (w u : Bool) (s : State) (wf : Canonical s.mem)
    : CanonicalOut (execFcvtf t d a w u s) := by simp [execFcvtf, wf]
@[simp] theorem State.putWhole_mem (s : State) (t : Fin 64) (d : Dst) (xs : Lanes) :
    (s.putWhole t d xs).mem = s.mem := by
  unfold State.putWhole; split <;> simp

@[simp] theorem State.reportOverflow_mem (s : State) (b : ODst) (over_ : LaneMask) (code opcode scale : Nat)
    (x : Nat → Word) : (s.reportOverflow b over_ code opcode scale x).mem = s.mem := by
  simp only [State.reportOverflow]
  repeat' split
  all_goals simp

@[simp] theorem execFcvt_canonical (t : Fin 64) (d : Dst) (a : Src) (b : ODst) (sr : Bool) (k : Fin 8) (s : State)
    (wf : Canonical s.mem) : CanonicalOut (execFcvt t d a b sr k s) := by simp [execFcvt, wf]
@[simp] theorem execFunp_canonical (t : Fin 64) (d : Dst) (a : Src) (h : Bool) (k : Fin 8) (s : State)
    (wf : Canonical s.mem) : CanonicalOut (execFunp t d a h k s) := by simp [execFunp, wf]
@[simp] theorem execFx2f_canonical (t : Fin 64) (d : Dst) (a : Src) (s : State) (wf : Canonical s.mem) :
    CanonicalOut (execFx2f t d a s) := by simp [execFx2f, wf]
@[simp] theorem execFlg2f_canonical (t : Fin 64) (d : Dst) (a : Src) (s : State) (wf : Canonical s.mem) :
    CanonicalOut (execFlg2f t d a s) := by simp [execFlg2f, wf]
@[simp] theorem execFexp2_canonical (t : Fin 64) (d : Dst) (a : Src) (s : State) (wf : Canonical s.mem) :
    CanonicalOut (execFexp2 t d a s) := by simp [execFexp2, wf]
@[simp] theorem execFlog2_canonical (t : Fin 64) (d : Dst) (a : Src) (s : State) (wf : Canonical s.mem) :
    CanonicalOut (execFlog2 t d a s) := by simp [execFlog2, wf]
@[simp] theorem execFrcp_canonical (t : Fin 64) (d : Dst) (a : Src) (s : State) (wf : Canonical s.mem) :
    CanonicalOut (execFrcp t d a s) := by simp [execFrcp, wf]
@[simp] theorem execFrsq_canonical (t : Fin 64) (d : Dst) (a : Src) (s : State) (wf : Canonical s.mem) :
    CanonicalOut (execFrsq t d a s) := by simp [execFrsq, wf]
@[simp] theorem execFsqrt_canonical (t : Fin 64) (d : Dst) (a : Src) (s : State) (wf : Canonical s.mem) :
    CanonicalOut (execFsqrt t d a s) := by simp [execFsqrt, wf]
@[simp] theorem execFscl_canonical (t : Fin 64) (d : Dst) (a b : Src) (s : State) (wf : Canonical s.mem) :
    CanonicalOut (execFscl t d a b s) := by simp [execFscl, wf]
@[simp] theorem execFgetx_canonical (t : Fin 64) (d : Dst) (a : Src) (s : State) (wf : Canonical s.mem) :
    CanonicalOut (execFgetx t d a s) := by simp [execFgetx, wf]
@[simp] theorem execFgetm_canonical (t : Fin 64) (d : Dst) (a : Src) (s : State) (wf : Canonical s.mem) :
    CanonicalOut (execFgetm t d a s) := by simp [execFgetm, wf]
@[simp] theorem execFsinp_canonical (t : Fin 64) (d : Dst) (a : Src) (s : State) (wf : Canonical s.mem) :
    CanonicalOut (execFsinp t d a s) := by simp [execFsinp, wf]
@[simp] theorem execFcosp_canonical (t : Fin 64) (d : Dst) (a : Src) (s : State) (wf : Canonical s.mem) :
    CanonicalOut (execFcosp t d a s) := by simp [execFcosp, wf]
@[simp] theorem execHfma2_canonical (t : Fin 64) (d : Dst) (a b : Src) (h : Bool) (c : Fin 8) (s : State)
    (wf : Canonical s.mem) : CanonicalOut (execHfma2 t d a b h c s) := by simp [execHfma2, wf]
@[simp] theorem execHadd2_canonical (t : Fin 64) (d : Dst) (a b : Src) (h : Bool) (s : State) (wf : Canonical s.mem)
    : CanonicalOut (execHadd2 t d a b h s) := by simp [execHadd2, wf]
@[simp] theorem execHmul2_canonical (t : Fin 64) (d : Dst) (a b : Src) (h : Bool) (s : State) (wf : Canonical s.mem)
    : CanonicalOut (execHmul2 t d a b h s) := by simp [execHmul2, wf]
@[simp] theorem execFdot2_canonical (t : Fin 64) (d : Dst) (a b : Src) (c : VReg) (s : State) (wf : Canonical s.mem)
    : CanonicalOut (execFdot2 t d a b c s) := by simp [execFdot2, wf]
@[simp] theorem execBscale_canonical (t : Fin 64) (d : Dst) (a b : Src) (s : State) (wf : Canonical s.mem) :
    CanonicalOut (execBscale t d a b s) := by simp [execBscale, wf]
@[simp] theorem execPackb_canonical (t : Fin 64) (d : Dst) (a b : Src) (s : State) (wf : Canonical s.mem) :
    CanonicalOut (execPackb t d a b s) := by simp [execPackb, wf]
@[simp] theorem execUnpkb_canonical (t : Fin 64) (d : Dst) (a b : Src) (s : State) (wf : Canonical s.mem) :
    CanonicalOut (execUnpkb t d a b s) := by simp [execUnpkb, wf]

/-! Admission -/

@[simp] theorem State.newLaunchid_mem (s : State) : s.newLaunchid.2.mem = s.mem := by simp [State.newLaunchid]

theorem State.tableBytes_some_canonical {s : State} {asid va n : Nat} {r0 : Bool} {r1 : List Nat} {u : State}
    (eqn : s.tableBytes asid va n = some (r0, r1, u)) (wf : Canonical s.mem) : Canonical u.mem := by
  suffices h : ∀ r, s.tableBytes asid va n = some r → Canonical r.2.2.mem from h _ eqn
  refine List.foldlRecOn (linePieces va n) _ (motive := fun (o : Option (Bool × List Nat × State)) => ∀ r,
    o = some r → Canonical r.2.2.mem) ?_ fun o ho p _ r e => ?_
  · rintro _ ⟨⟩
    exact wf
  · obtain ⟨⟨bad, bs, v⟩, e', e⟩ := Option.bind_eq_some_iff.1 e
    have hv : Canonical v.mem := ho _ e'
    dsimp only at e
    split at e
    · cases e
    · cases e
      simp [hv]
    next load =>
      cases e
      exact State.hubLoad_ok_canonical load hv

theorem State.validate_some_canonical {s : State} {q block : Nat} {fromTail : Bool} {b : List Nat} {u : State}
    {r : Nat ⊕ Launch} (eqn : s.validate q block fromTail b = some (u, r)) (wf : Canonical s.mem) :
    Canonical u.mem := by
  obtain ⟨⟨badG, g, v⟩, graph, eqn⟩ := Option.bind_eq_some_iff.1 eqn
  obtain ⟨⟨badT, t, w⟩, stages, eqn⟩ := Option.bind_eq_some_iff.1 eqn
  have hw : Canonical w.mem := State.tableBytes_some_canonical stages (State.tableBytes_some_canonical graph wf)
  dsimp only at eqn
  split at eqn
  · cases eqn
    exact hw
  · cases eqn
    simpa using hw

@[simp] theorem State.popHead_mem (s : State) (q : Nat) : (s.popHead q).mem = s.mem := by simp [State.popHead]

@[simp] theorem State.refuse_canonical (s : State) (q block : Nat) (fromTail : Bool) (b : List Nat) (cause : Nat)
    (wf : Canonical s.mem) : Canonical (s.refuse q block fromTail b cause).mem := by
  unfold State.refuse
  split
  · simp [wf]
  · rw [State.stepOwed_mem]
    exact getD_canonical (fun _ e => State.finishLaunch_some_canonical e (by simp [wf])) (by simp [wf])

theorem State.readHead_some_canonical {s : State} {q : Nat} {u : State} (eqn : s.readHead q = some u)
    (wf : Canonical s.mem) : Canonical u.mem := by
  obtain ⟨⟨b, v⟩, got, eqn⟩ := Option.bind_eq_some_iff.1 eqn
  have hv : Canonical v.mem := by
    split at got
    · cases got
      exact wf
    split at got
    · cases got
      exact wf
    obtain ⟨⟨x, w⟩, load, e⟩ := Option.map_eq_some_iff.1 got
    cases e
    rw [State.setLqueue_mem]
    exact State.loadBlock_some_canonical (fun _ _ h => State.hubLoadPa_canonical _ _ _ h) (fun _ _ _ h => by simpa
      using h) load wf
  dsimp only at eqn
  split at eqn
  · cases eqn
    simp [hv]
  split at eqn
  · split at eqn
    · cases eqn
      exact hv
    · cases eqn
  next e =>
    cases eqn
    exact State.refuse_canonical _ _ _ _ _ _ (State.validate_some_canonical e hv)
  next e =>
    cases eqn
    simpa using State.validate_some_canonical e hv

@[simp] theorem State.loadImage_canonical (s : State) (die asid va : Nat) (wf : Canonical s.mem) :
    CanonicalHub (s.loadImage die asid va) := by
  refine foldl_canonicalHub _ (fun r p hr => ?_) _ wf
  grind [canonicalHub_ok, State.engineLoadPiece_canonical]
theorem State.loadImage_ok_canonical {s : State} {die asid va : Nat} {out : List Nat} {u : State}
    (eqn : s.loadImage die asid va = .ok out u) (wf : Canonical s.mem) : Canonical u.mem :=
  (State.loadImage_canonical s die asid va wf).of_ok eqn

theorem State.loadDrafts_some_canonical {s : State} {asid : Nat} {ds : List (Nat × Nat)} {u : State}
    {r : List (Nat × Nat × FaultInfo) × List Draft} (eqn : s.loadDrafts asid ds = some (u, r)) (wf : Canonical s.mem)
    : Canonical u.mem := by
  suffices h : ∀ p, s.loadDrafts asid ds = some p → Canonical p.1.mem from h _ eqn
  clear eqn
  induction ds generalizing s with
  | nil =>
    rintro _ ⟨⟩
    exact wf
  | cons d ds ih =>
    intro p eqn
    unfold State.loadDrafts at eqn
    split at eqn
    · cases eqn
    · obtain ⟨v, rest, rfl⟩ := Option.map_eq_some_iff.1 eqn
      exact ih (by simp [wf]) v rest
    next load =>
      obtain ⟨v, rest, rfl⟩ := Option.map_eq_some_iff.1 eqn
      have hv : Canonical v.1.mem := ih (State.loadImage_ok_canonical load wf) v rest
      split <;> exact hv

@[simp] theorem State.joinRegion_mem (s : State) (uid die : Nat) (cs : List Nat) :
    (s.joinRegion uid die cs).mem = s.mem := by
  unfold State.joinRegion; split <;> simp
@[simp] theorem State.startReps_mem (s : State) (l : Launch) (drafts : List (List Draft))
    (placed : List (Nat × Nat × List Nat)) : (s.startReps l drafts placed).mem = s.mem := by simp [State.startReps]
@[simp] theorem State.makeQueues_mem (s : State) (l : Launch) (placed : List (Nat × Nat × List Nat)) :
    (s.makeQueues l placed).mem = s.mem := by simp [State.makeQueues]

theorem State.admitLaunch_some_canonical {s : State} {l : Launch} {u : State} (eqn : s.admitLaunch l = some u)
    (wf : Canonical s.mem) : Canonical u.mem := by
  unfold State.admitLaunch at eqn
  extract_lets gone at eqn
  have ended {v w : State} {cause : Nat} (e : gone v cause = some w) (h : Canonical v.mem) : Canonical w.mem := by
    cases e
    rw [State.stepOwed_mem]
    exact getD_canonical (fun _ e => State.finishLaunch_some_canonical e (by simp [h])) (by simp [h])
  clear_value gone
  split at eqn
  · cases eqn
    exact wf
  dsimp only at eqn
  split at eqn
  · cases eqn
  next load => exact ended eqn (State.loadDrafts_some_canonical load wf)
  next v _ load =>
    have hv : Canonical v.mem := State.loadDrafts_some_canonical load wf
    split at eqn
    · exact ended eqn hv
    split at eqn
    · cases eqn
    · exact ended eqn hv
    next w stored =>
      have hw : Canonical w.mem := by
        split at stored
        · cases stored
          exact hv
        · exact State.hubStore_ok_canonical stored hv
      obtain ⟨x, reported, rfl⟩ := Option.map_eq_some_iff.1 eqn
      rw [State.stepOwed_mem, State.splitSoon_mem]
      exact State.report_some_canonical reported (by simp [hw])

theorem imageNext_add_mem (s : State) (room : Nat) :
    (s.hub.imageNext, { s with hub := { s.hub with imageNext := s.hub.imageNext + room } }).2.mem = s.mem := rfl

/-! Scheduling -/

@[simp] theorem State.takeImage_mem (s : State) (n : Nat) : (s.takeImage n).2.mem = s.mem :=
  imageNext_add_mem s (imageRoom n)
@[simp] theorem State.schedImage_mem (s : State) (form image die index : Nat) :
    (s.schedImage form image die index).mem = s.mem := by simp [State.schedImage]

theorem State.preempt_some_canonical {s : State} {uid : Nat} {u : State} (eqn : s.preempt uid = some u)
    (wf : Canonical s.mem) : Canonical u.mem := by
  unfold State.preempt at eqn
  split at eqn
  · exact State.launchStopped_some_canonical eqn wf
  · cases eqn
    rw [foldl_mem _ fun _ _ => by simp]
    exact wf

@[simp] theorem State.renameStall_mem (s : State) (d i d' i' : Nat) : (s.renameStall d i d' i').mem = s.mem := by
  simp [State.renameStall]
@[simp] theorem State.resumeRegion_mem (s : State) (uid : Nat) (v : SavedRegion) (cs : List Nat) :
    (s.resumeRegion uid v cs).mem = s.mem := by simp [State.resumeRegion]

theorem State.resumeLaunch_some_canonical {s : State} {l : Launch} {u : State} (eqn : s.resumeLaunch l = some u)
    (wf : Canonical s.mem) : Canonical u.mem := by
  unfold State.resumeLaunch at eqn
  split at eqn
  · cases eqn
  · obtain ⟨v, reported, rfl⟩ := Option.map_eq_some_iff.1 eqn
    rw [State.stepOwed_mem, State.splitSoon_mem]
    exact State.report_some_canonical reported (by simp [wf])

theorem State.step358_some_canonical {s : State} {u : State} (eqn : s.step358 = some u) (wf : Canonical s.mem) :
    Canonical u.mem := by
  unfold State.step358 at eqn
  dsimp only at eqn
  split at eqn
  · split at eqn
    · exact State.resumeLaunch_some_canonical eqn wf
    · exact State.admitLaunch_some_canonical eqn wf
  split at eqn
  · cases eqn
    exact wf
  split at eqn
  · cases eqn
    exact wf
  next vs _ =>
    obtain ⟨v, stopped, rfl⟩ := Option.map_eq_some_iff.1 eqn
    refine List.foldlRecOn vs _ (motive := fun o => ∀ v,
      o = some v → Canonical v.mem) ?_ (fun o ho p _ v e => ?_) v stopped
    · rintro _ ⟨⟩
      exact wf
    · obtain ⟨w, e', e⟩ := Option.bind_eq_some_iff.1 e
      exact State.preempt_some_canonical e (ho w e')

@[simp] theorem execAdmissionStep_canonical (s : State) (wf : Canonical s.mem) :
    CanonicalOut (execAdmissionStep s) := by
  simp only [execAdmissionStep, canonicalOut_next]
  split
  next e =>
    obtain ⟨q, _, e⟩ := List.exists_of_findSome?_eq_some e
    exact State.readHead_some_canonical e wf
  split
  · exact wf
  · exact getD_canonical (fun _ e => State.step358_some_canonical e wf) wf

@[simp] theorem execRetirement_canonical (launch : Nat) (s : State) (wf : Canonical s.mem) :
    CanonicalOut (execRetirement launch s) := by
  have finished (s : State) (wf : Canonical s.mem) : Canonical ((s.finishLaunch launch).getD s).mem :=
    getD_canonical (fun _ e => State.finishLaunch_some_canonical e wf) wf
  simp only [execRetirement, canonicalOut_next]
  split
  · exact wf
  split
  · exact finished s wf
  · split
    · exact finished _ (State.endLaunch_canonical _ _ _ _ wf)
    · exact wf
  · exact wf

@[simp] theorem execQuantumExpiry_canonical (launch : Nat) (s : State) (wf : Canonical s.mem) :
    CanonicalOut (execQuantumExpiry launch s) := by
  grind [execQuantumExpiry, State.stepOwed_mem, State.setLaunch_mem, → State.preempt_some_canonical,
    canonicalOut_next]

@[simp] theorem execAntiStarvationBoost_canonical (queue : Nat) (s : State) (wf : Canonical s.mem) :
    CanonicalOut (execAntiStarvationBoost queue s) := by
  simp only [execAntiStarvationBoost]
  repeat' split
  all_goals simp [wf]

@[simp] theorem State.growRecord_mem (s : State) (l : Launch) (cell : Nat) (f : FaultInfo) :
    (s.growRecord l cell f).mem = s.mem := by simp [State.growRecord]
@[simp] theorem State.restartTimers_mem (s : State) (l st depth : Nat) (k : Stage) :
    (s.restartTimers l st depth k).mem = s.mem := by simp [State.restartTimers]
@[simp] theorem State.grow_canonical (s : State) (l : Launch) (st depth : Nat) (k : Stage) (wf : Canonical s.mem) :
    Canonical (s.grow l st depth k).mem := by
  grind [State.grow, State.restartTimers_mem, → State.loadDrafts_some_canonical, State.growRecord_mem,
    State.splitSoon_mem, State.startReps_mem]

@[simp] theorem State.sampleStage_canonical (s : State) (q : StageQueue) (wf : Canonical s.mem) :
    Canonical (s.sampleStage q).mem := by
  simp only [State.sampleStage]
  repeat' split
  all_goals simp [wf]

@[simp] theorem execDobbySample_canonical (die : Nat) (s : State) (wf : Canonical s.mem) :
    CanonicalOut (execDobbySample die s) := by
  simp only [execDobbySample]
  repeat' split
  all_goals simp +contextual [wf]

@[simp] theorem execReplicaFree_canonical (launch stage rep : Nat) (s : State) (wf : Canonical s.mem) :
    CanonicalOut (execReplicaFree launch stage rep s) := by
  simp only [execReplicaFree]
  repeat' split
  all_goals simp +contextual [wf]

@[simp] theorem execUeLaunchPacket_canonical (p : UePacket) (s : State) (wf : Canonical s.mem) :
    CanonicalOut (execUeLaunchPacket p s) := by
  grind [execUeLaunchPacket, → State.hubStorePa_some_canonical, State.qpushSet_mem, canonicalOut_next]

/-! Power -/

@[simp] theorem execPowerSplit_canonical (s : State) (wf : Canonical s.mem) : CanonicalOut (execPowerSplit s) := by
  simp only [execPowerSplit, canonicalOut_next]
  split
  · exact wf
  · rw [foldl_mem _ fun _ _ => State.setDie_mem ..]
    exact wf

@[simp] theorem State.tellLaunch_mem (s : State) (die : Nat) (t : Token) (l : Launch) :
    (s.tellLaunch die t l).mem = s.mem := by simp [State.tellLaunch, apply_ite State.mem]
@[simp] theorem State.holdIdle_mem (s : State) (die : Nat) : (s.holdIdle die).mem = s.mem := by simp [State.holdIdle]

@[simp] theorem execGrantEffect_canonical (die : Nat) (s : State) (wf : Canonical s.mem) :
    CanonicalOut (execGrantEffect die s) := by
  simp only [execGrantEffect]
  repeat' split
  all_goals simp [wf]

/-! Context images -/

@[simp] theorem State.quiet_canonical (s : State) (cs : List Nat) (wf : Canonical s.mem) :
    Canonical (s.quiet cs).mem := by simp +contextual [State.quiet, wf]
@[simp] theorem State.imageStore_canonical (s : State) (op : ImageOp) (va : Nat) (bs : List Nat)
    (wf : Canonical s.mem) : CanonicalHub (s.imageStore op va bs) := by
  unfold State.imageStore; split <;> simp [wf]
theorem State.imageStore_ok_canonical {s : State} {op : ImageOp} {va : Nat} {bs : List Nat} {out : List Nat}
    {u : State} (eqn : s.imageStore op va bs = .ok out u) (wf : Canonical s.mem) : Canonical u.mem :=
  (State.imageStore_canonical s op va bs wf).of_ok eqn
@[simp] theorem State.imageLoad_canonical (s : State) (op : ImageOp) (va n : Nat) (wf : Canonical s.mem) :
    CanonicalHub (s.imageLoad op va n) := by
  unfold State.imageLoad; split <;> simp [wf]

/-- What an access read is used where it is performed. -/
theorem CanonicalHub.andThen {r : HubResult} {f : List Nat → State → HubResult} (hr : CanonicalHub r)
    (hf : ∀ bs u, Canonical u.mem → CanonicalHub (f bs u)) : CanonicalHub (r.andThen f) := by
  cases r with
  | ok bs u => exact hf bs u (hr bs u rfl)
  | wait => exact canonicalHub_wait
  | fault code cause va => exact canonicalHub_fault code cause va

@[simp] theorem State.imagePut_canonical (s : State) (op : ImageOp) (va : Nat) (bs : List (List Nat))
    (wf : Canonical s.mem) : CanonicalHub (s.imagePut op va bs) := by
  induction bs generalizing s va with
  | nil => simpa [State.imagePut] using wf
  | cons b bs ih =>
    unfold State.imagePut
    split
    next e => exact ih _ _ (State.imageStore_ok_canonical e wf)
    · exact State.imageStore_canonical _ _ _ _ wf

theorem State.imagePut_ok_canonical {s : State} {op : ImageOp} {x2 : Nat} {x3 : List (List Nat)} {out : List Nat}
    {u : State} (eqn : s.imagePut op x2 x3 = .ok out u) (wf : Canonical s.mem) : Canonical u.mem :=
  (State.imagePut_canonical s op x2 x3 wf).of_ok eqn
@[simp] theorem State.imageRecord_mem (s : State) (op : ImageOp) (flags code cause addr : Nat) (of_ : RecordOf) :
    (s.imageRecord op flags code cause addr of_).2.mem = s.mem := by
  unfold State.imageRecord; split <;> simp

@[simp] theorem State.imagePause_canonical (s : State) (op : ImageOp) (code cause addr : Nat) (wf : Canonical s.mem)
    : Canonical (s.imagePause op code cause addr).mem := by
  simp only [State.imagePause]
  repeat' split
  all_goals simp [wf]

@[simp] theorem State.imageLeave_mem (s : State) (op : ImageOp) : (s.imageLeave op).mem = s.mem := by
  simp [State.imageLeave]
@[simp] theorem State.putAside_mem (s : State) (c : Nat) : (s.putAside c).2.mem = s.mem := by simp [State.putAside]

theorem putAsideAll_mem (cs : List Nat) (ks : List Cell) (s : State) :
    (cs.foldl (fun (acc : List Cell × State) c => (acc.1 ++ [(acc.2.putAside c).1], (acc.2.putAside c).2)) (ks, s)).2.mem
      = s.mem :=
  List.foldlRecOn cs _ (motive := fun (p : List Cell × State) => p.2.mem = s.mem) rfl fun p hp c _ => by simpa using
    hp

theorem State.saveRegion_some_canonical {s : State} {r : Region} {image : Nat} {u : State}
    (eqn : s.saveRegion r image = some u) (wf : Canonical s.mem) : Canonical u.mem := by
  unfold State.saveRegion at eqn
  dsimp only at eqn
  have aside := putAsideAll_mem r.cells [] s
  split at eqn
  · cases eqn
    simpa [aside] using wf
  · exact State.launchStopped_some_canonical eqn (by simpa [aside] using wf)

@[simp] theorem State.imageBegun_canonical (s : State) (op : ImageOp) (wf : Canonical s.mem) :
    Canonical (s.imageBegun op).mem := by grind [State.imageBegun, → State.imageStore_ok_canonical]

@[simp] theorem execPreemptionDrainComplete_canonical (id : Nat) (s : State) (wf : Canonical s.mem) :
    CanonicalOut (execPreemptionDrainComplete id s) := by
  have paused (op : ImageOp) (code cause a : Nat) : Canonical ((s.imageBegun op).imagePause op code cause a).mem :=
    by simp [wf]
  simp only [execPreemptionDrainComplete, canonicalOut_next]
  split
  · exact wf
  next op _ =>
  split
  · split <;> simp [wf]
  next r _ =>
  split
  · exact wf
  split
  · simp [wf]
  split
  · exact wf
  split
  · exact paused ..
  have quiet : Canonical (s.quiet r.cells).mem := State.quiet_canonical _ _ wf
  split
  · exact wf
  · exact paused ..
  next put =>
  have blocks := State.imagePut_ok_canonical put quiet
  split
  next store =>
    have written := State.imageStore_ok_canonical store blocks
    split
    · exact getD_canonical (fun _ e => State.saveRegion_some_canonical e (by simpa using written)) wf
    · simpa using written
  · exact wf
  · exact paused ..

@[simp] theorem State.imageChain_canonical (s : State) (op : ImageOp) (ncells n va : Nat) (wf : Canonical s.mem) :
    CanonicalHub (s.imageChain op ncells n va) := by
  induction n generalizing s va with
  | zero => exact canonicalHub_fault fFormat 0 va
  | succ n ih =>
    refine (State.imageLoad_canonical s op va 64 wf).andThen fun h u hu => ?_
    split
    · simp
    split
    · simpa using hu
    · exact (ih u _ hu).andThen fun vs v hv => by simpa using hv

@[simp] theorem State.imageEntry_canonical (s : State) (op : ImageOp) (va i : Nat) (wf : Canonical s.mem) :
    CanonicalHub (s.imageEntry op va i) := by simp [State.imageEntry, wf]

@[simp] theorem State.restoreRows_canonical (s : State) (op : ImageOp) (c i va : Nat) (wf : Canonical s.mem) :
    CanonicalHub (s.restoreRows op c i va) :=
  (State.imageEntry_canonical s op va i wf).andThen fun _ u hu => (State.imageLoad_canonical u op _ _ hu).andThen
    fun _ v hv =>
    (State.imageLoad_canonical v op _ _ hv).andThen fun _ w hw => by simpa using hw

@[simp] theorem State.reloadShadow_canonical (s : State) (op : ImageOp) (c asid va : Nat) (wf : Canonical s.mem) :
    CanonicalHub (s.reloadShadow op c asid va) := by
  unfold State.reloadShadow
  extract_lets got fail
  have read : CanonicalHub got := foldl_canonicalHub _ (fun r p hr => hr.andThen fun _ u hu =>
    (State.engineLoadPiece_canonical _ _ _ _ _ _ _ _ _ hu).andThen fun _ v hv => by simpa using hv) _ wf
  clear_value got
  split
  · simp
  · simp [fail, wf]
  next u =>
    have hu : Canonical u.mem := read.of_ok rfl
    split
    · simp [fail, hu]
    · simpa using hu

@[simp] theorem State.restorePart_mem (s : State) (c : Nat) (b : List Nat) : (s.restorePart c b).mem = s.mem := by
  simp [State.restorePart]
@[simp] theorem State.restoreWaits_mem (s : State) (c : Nat) (b : List Nat) : (s.restoreWaits c b).mem = s.mem := by
  simp [State.restoreWaits]

@[simp] theorem State.restoreCell_canonical (s : State) (op : ImageOp) (c i : Nat) (chain : List Nat)
    (wf : Canonical s.mem) : CanonicalHub (s.restoreCell op c i chain) := by
  unfold State.restoreCell
  refine (State.imageEntry_canonical s op _ _ wf).andThen fun d u hu => (State.imageLoad_canonical u op _ _
    hu).andThen fun b v hv => ?_
  extract_lets id v1 asks v2 held v3 r shadow
  have h3 : Canonical v3.mem := by simpa [v3, v2, v1] using hv
  have hr : CanonicalHub r := foldl_canonicalHub _ (fun q va hq => hq.andThen fun _ w hw =>
    State.restoreRows_canonical _ _ _ _ _ hw) _ h3
  split
  · exact hr
  · exact hr.andThen fun _ w hw => State.reloadShadow_canonical _ _ _ _ _ hw

@[simp] theorem State.runStored_canonical (s : State) (c : Nat) (wf : Canonical s.mem) :
    Canonical (s.runStored c).mem := by
  refine foldl_canonical _ (fun s i h => foldl_canonical _ (fun t a ht => ?_) _ _ (by simpa using h)) _ _ wf
  split
  · exact ht
  · exact State.perform_canonical _ _ _ ht

@[simp] theorem State.releaseRegion_canonical (s : State) (r : Region) (op : ImageOp) (depth : Nat)
    (wf : Canonical s.mem) : Canonical (s.releaseRegion r op depth).mem := by
  simp +contextual [State.releaseRegion, wf]

@[simp] theorem execRestoreComplete_canonical (id : Nat) (s : State) (wf : Canonical s.mem) :
    CanonicalOut (execRestoreComplete id s) := by
  unfold execRestoreComplete
  rw [canonicalOut_next]
  split
  · exact wf
  next op _ =>
  split
  · split <;> simp [wf]
  next r _ =>
  split
  · exact wf
  extract_lets cells got
  have hc : CanonicalHub cells := (State.imageChain_canonical s op _ _ _ wf).andThen fun chain u hu =>
    foldl_canonicalHub _ (fun q c hq => hq.andThen fun _ v hv => State.restoreCell_canonical _ _ _ _ _ hv) _ hu
  have hg : CanonicalHub got := hc.andThen fun _ u hu => (State.imageLoad_canonical u op _ _ hu).andThen fun _ v hv =>
    (State.imageStore_canonical v op _ _ hv).andThen fun _ w hw => by simpa using hw
  clear_value got
  split
  · exact wf
  · exact State.imagePause_canonical _ _ _ _ _ wf
  · exact State.releaseRegion_canonical _ _ _ _ (by simpa using hg.of_ok rfl)

@[simp] theorem State.snapshot_canonical (s : State) (r : Region) (va : Nat) (wf : Canonical s.mem) :
    Canonical (s.snapshot r va).mem := by
  unfold State.snapshot
  extract_lets op head
  clear_value op head
  split
  next e => exact State.imagePut_ok_canonical e wf
  · exact wf

@[simp] theorem execWatchdogExpiry_canonical (die region : Nat) (s : State) (wf : Canonical s.mem) :
    CanonicalOut (execWatchdogExpiry die region s) := by
  simp only [execWatchdogExpiry]
  repeat' split
  all_goals simp [wf]

/-! Migration -/

@[simp] theorem execTlbinvComplete_canonical (id : Nat) (s : State) (wf : Canonical s.mem) :
    CanonicalOut (execTlbinvComplete id s) := by
  simp only [execTlbinvComplete]
  repeat' split
  all_goals simp [wf]

@[simp] theorem State.engineInv_mem (s : State) (asid va : Nat) : (s.engineInv asid va).2.mem = s.mem := by
  simp [State.engineInv]

/-- The walks of the lanes of a context. -/
theorem walks_canonical (c asid : Nat) (k : Kind) (vas : List Nat) (rs : List (Nat × Nat × Trans)) (s : State)
    (wf : Canonical s.mem) :
    Canonical
      (vas.foldl (fun (r : List (Nat × Nat × Trans) × State) va =>
      (r.1 ++ [(0, va, (r.2.translateFor c asid k va).1)], (r.2.translateFor c asid k va).2)) (rs, s)).2.mem
      :=
  List.foldlRecOn vas _ (motive := fun (p : List (Nat × Nat × Trans) × State) => Canonical p.2.mem) wf
    fun _ hp _ _ => State.translateFor_canonical _ _ _ _ _ hp

@[simp] theorem State.rewalk_canonical (s : State) (line c e x : Nat) (wf : Canonical s.mem) :
    Canonical (s.rewalk line c e x).mem := by
  unfold State.rewalk
  split
  · split
    · exact wf
    dsimp only
    split
    · exact walks_canonical _ _ _ _ _ _ wf
    · exact walks_canonical _ _ _ _ _ _ wf
  · exact wf

@[simp] theorem execMigLeafWritten_canonical (line : Nat) (s : State) (wf : Canonical s.mem) :
    CanonicalOut (execMigLeafWritten line s) := by
  simp only [execMigLeafWritten, canonicalOut_next]
  exact foldl_canonical _ (fun s c h => foldl_canonical _ (fun t i ht => State.rewalk_canonical _ _ _ _ _ ht) _ _ h)
    _ _ wf

@[simp] theorem State.setReq_mem (s : State) (id : Nat) (f : MigReq → MigReq) : (s.setReq id f).mem = s.mem := by
  simp [State.setReq]
@[simp] theorem State.dropReq_mem (s : State) (id : Nat) : (s.dropReq id).mem = s.mem := by simp [State.dropReq]

theorem State.ringRecord_some_canonical {s : State} {status frame : Nat} {u : State}
    (eqn : s.ringRecord status frame = some u) (wf : Canonical s.mem) : Canonical u.mem := by
  unfold State.ringRecord at eqn
  dsimp only at eqn
  split at eqn
  · cases eqn
    exact wf
  · obtain ⟨v, store, rfl⟩ := Option.map_eq_some_iff.1 eqn
    have stored := State.hubStorePa_some_canonical store wf
    exact stored

theorem State.endReq_some_canonical {s : State} {r : MigReq} {status cause frame : Nat} {u : State}
    (eqn : s.endReq r status cause frame = some u) (wf : Canonical s.mem) : Canonical u.mem := by
  unfold State.endReq at eqn
  dsimp only at eqn
  split at eqn
  · exact State.ringRecord_some_canonical eqn (by simpa using wf)
  · obtain ⟨v, record, rfl⟩ := Option.map_eq_some_iff.1 eqn
    have hv : Canonical v.mem := by
      split at record
      · exact State.hubStorePa_some_canonical record (by simpa using wf)
      · cases record
        simpa using wf
    split <;> exact hv

@[simp] theorem State.migWalk_canonical (s : State) (asid va size level table : Nat) (wf : Canonical s.mem) :
    Canonical (s.migWalk asid va size level table).2.mem := by
  induction level generalizing s table with
  | zero => exact wf
  | succ level ih =>
    unfold State.migWalk
    dsimp only
    split
    next e => exact State.readEntry_pair_canonical e wf
    next e => exact State.readEntry_pair_canonical e wf
    next e =>
      have read := State.readEntry_pair_canonical e wf
      grind

@[simp] theorem State.migRoot_canonical (s : State) (asid va size : Nat) (wf : Canonical s.mem) :
    Canonical (s.migRoot asid va size).2.mem := by
  grind [State.migRoot, State.readEntry_canonical, State.migWalk_canonical]
@[simp] theorem State.pin_mem (s : State) (asid va : Nat) : (s.pin asid va).mem = s.mem := by simp [State.pin]
@[simp] theorem State.remember_mem (s : State) (asid va dest : Nat) : (s.remember asid va dest).mem = s.mem := by
  simp [State.remember]
@[simp] theorem State.startMove_canonical (s : State) (r : MigReq) (leafPa leaf : Nat) (wf : Canonical s.mem) :
    Canonical (s.startMove r leafPa leaf).mem := by simp [State.startMove, wf]
theorem State.beginReq_some_canonical {s : State} {r : MigReq} {u : State} (eqn : s.beginReq r = some u)
    (wf : Canonical s.mem) : Canonical u.mem := by
  grind [State.beginReq, State.migRoot_canonical, → State.endReq_some_canonical, State.pin_mem, State.setReq_mem,
    State.startMove_canonical]

@[simp] theorem execMigrationRequest_canonical (id : Nat) (s : State) (wf : Canonical s.mem) :
    CanonicalOut (execMigrationRequest id s) := by
  simp only [execMigrationRequest, canonicalOut_next]
  split
  · exact wf
  split
  · exact wf
  split
  · exact wf
  · simpa using wf
  next load =>
    have read := State.hubLoadPa_ok_canonical load wf
    refine getD_canonical (fun u e => ?_) wf
    split at e
    · exact State.endReq_some_canonical e (by simpa using read)
    · exact State.beginReq_some_canonical e (by simpa using read)

@[simp] theorem execMigrationLost_canonical (id : Nat) (s : State) (wf : Canonical s.mem) :
    CanonicalOut (execMigrationLost id s) := by
  simp only [execMigrationLost, canonicalOut_next]
  split
  · exact wf
  split
  · exact wf
  · exact getD_canonical (fun _ e => State.endReq_some_canonical e wf) wf

theorem State.takeFrame_some_mem {s : State} {r : MigReq} {f : Nat} {u : State} (eqn : s.takeFrame r = some (f, u)) :
    u.mem = s.mem := by
  grind [State.takeFrame]

theorem State.finishMove_some_canonical {s : State} {r : MigReq} {u : State} (eqn : s.finishMove r = some u)
    (wf : Canonical s.mem) : Canonical u.mem := by
  unfold State.finishMove at eqn
  split at eqn
  · cases eqn
  next e => exact State.endReq_some_canonical eqn (State.readEntry_pair_canonical e wf)
  next v e =>
    have hv : Canonical v.mem := State.readEntry_pair_canonical e wf
    dsimp only at eqn
    split at eqn
    · cases eqn
    split at eqn
    · refine State.endReq_some_canonical eqn (State.storeNow_canonical _ _ _ _ _ ?_)
      split <;> exact hv
    next e =>
      rw [← State.takeFrame_some_mem e] at hv
      split at eqn
      · cases eqn
      · refine State.endReq_some_canonical eqn ?_
        simp only [State.pushFrame_mem, State.remember_mem]
        exact State.storeNow_canonical _ _ _ _ _ (State.copyPage_canonical _ _ _ _ _ hv)

@[simp] theorem execMigrationCopy_canonical (id : Nat) (s : State) (wf : Canonical s.mem) :
    CanonicalOut (execMigrationCopy id s) := by
  simp only [execMigrationCopy, canonicalOut_next]
  split
  · exact wf
  split
  · split <;> simp [wf]
  split
  · exact getD_canonical (fun _ e => State.finishMove_some_canonical e wf) wf
  · exact wf

@[simp] theorem execSmFlush_canonical (cell frame : Nat) (s : State) (wf : Canonical s.mem) :
    CanonicalOut (execSmFlush cell frame s) := by
  simp only [execSmFlush, canonicalOut_next]
  split
  · exact wf
  · rw [State.setReq_mem]
    refine foldl_canonical _ (fun t l ht => ?_) _ _ wf
    split
    · exact State.evictLine_canonical _ _ _ ht
    · exact ht

@[simp] theorem execPinExpiry_canonical (i : Nat) (s : State) (wf : Canonical s.mem) :
    CanonicalOut (execPinExpiry i s) := by
  simp only [execPinExpiry]
  repeat' split
  all_goals simp [wf]

@[simp] theorem State.evict_canonical (s : State) (p : Nat × Nat × Nat × Nat × Nat) (wf : Canonical s.mem) :
    Canonical (s.evict p).mem := by simp [State.evict, wf]

@[simp] theorem execGddrEviction_canonical (s : State) (wf : Canonical s.mem) :
    CanonicalOut (execGddrEviction s) := by
  simp only [execGddrEviction]
  repeat' split
  all_goals simp [wf]

/-! The hub's side -/

@[simp] theorem State.hostTake_canonical (s : State) (line : Nat) (store : Bool) (wf : Canonical s.mem) :
    Canonical (s.hostTake line store).mem := by
  grind [State.hostTake, correctAt_mem, State.sliceTouch_canonical, dropCopy_mem, State.pull_canonical,
    State.dirGrant_canonical]

@[simp] theorem State.hostLoad_canonical (s : State) (pa n : Nat) (wf : Canonical s.mem) :
    Canonical (s.hostLoad pa n).2.mem := by
  simp only [State.hostLoad]
  repeat' split
  all_goals simp [wf]

@[simp] theorem State.hostStore_canonical (s : State) (pa : Nat) (bs : List Nat) (wf : Canonical s.mem) :
    Canonical (s.hostStore pa bs).mem := by
  simp only [State.hostStore]
  repeat' split
  all_goals simp [wf]

theorem State.outsideLoad_some_canonical {s : State} {pa n : Nat} {r : Nat} {u : State}
    (eqn : s.outsideLoad pa n = some (r, u)) (wf : Canonical s.mem) : Canonical u.mem := by
  grind [State.outsideLoad, → State.hubLoadPa_ok_canonical, State.countPa_mem]

theorem State.outsideTurn_some_canonical {s : State} {who pa n : Nat} {f : State → Nat × State} {r : Nat} {u : State}
    (hf : ∀ t, Canonical t.mem → Canonical (f t).2.mem) (eqn : s.outsideTurn who pa n f = some (r, u))
    (wf : Canonical s.mem) : Canonical u.mem := by
  unfold State.outsideTurn at eqn
  dsimp only at eqn
  split at eqn
  · cases eqn
  split at eqn
  · cases eqn
    simpa using wf
  have served : Canonical ((((s.pull (lineOf pa) true none).sliceTouch pa 0).correctAt pa n).serveTurn (lineOf pa)
    who).mem := by simp [wf]
  split at eqn
  · cases eqn
    rw [State.countUncorr_mem]
    exact served
  · obtain h := hf _ served
    rw [Option.some.inj eqn] at h
    exact h

theorem State.outsideAtomic_some_canonical {s : State} {who op pa n value comparand : Nat} {r : Nat} {u : State}
    (eqn : s.outsideAtomic who op pa n value comparand = some (r, u)) (wf : Canonical s.mem) : Canonical u.mem := by
  refine State.outsideTurn_some_canonical (fun t ht => ?_) eqn wf
  dsimp only
  split <;> simp [ht]

theorem State.answer_canonical {s : State} {r : Option (Nat × State)} (hr : ∀ v t, r = some (v, t) → Canonical t.mem)
    (wf : Canonical s.mem) : Canonical (s.answer r).mem := by
  unfold State.answer
  split
  next v t => exact hr v t rfl
  · exact wf

@[simp] theorem State.hostMmio_canonical (s : State) (q : HostReq) (wf : Canonical s.mem) :
    Canonical (s.hostMmio q).mem := by
  simp only [State.hostMmio]
  repeat' split
  all_goals simp [wf]

/-- The pieces of a host's read, each from the host agent's copy. -/
theorem hostLoads_canonical (pa : Nat) (ps : List (Nat × Nat)) (v : Nat) (s : State) (wf : Canonical s.mem) :
    Canonical (ps.foldl (fun (acc : Nat × State) p =>
      (acc.1 + (acc.2.hostLoad (pa + p.1) p.2).1 * 256 ^ p.1, (acc.2.hostLoad (pa + p.1) p.2).2)) (v, s)).2.mem :=
  List.foldlRecOn ps _ (motive := fun (p : Nat × State) => Canonical p.2.mem) wf fun _ hp _ _ =>
    State.hostLoad_canonical _ _ _ hp

@[simp] theorem execHostAccess_canonical (q : HostReq) (s : State) (wf : Canonical s.mem) :
    CanonicalOut (execHostAccess q s) := by
  unfold execHostAccess
  dsimp only
  split
  · simp
  split
  · simp [wf]
  split
  · exact (canonicalOut_next _).2 (State.answer_canonical (fun _ _ e => State.outsideAtomic_some_canonical e wf) wf)
  · split
    · exact (canonicalOut_next _).2 (State.answer_canonical (fun _ _ e => State.outsideLoad_some_canonical e wf) wf)
    split
    · simpa using wf
    · exact (canonicalOut_next _).2 (hostLoads_canonical _ _ _ _ wf)
  · split
    · exact (canonicalOut_next _).2 (getD_canonical (fun _ e => State.hubStorePa_some_canonical e wf) wf)
    split
    · simpa using wf
    · exact (canonicalOut_next _).2 (foldl_canonical _ (fun t p ht => State.hostStore_canonical _ _ _ ht) _ _ wf)

@[simp] theorem State.remoteLock_mem (s : State) (id who line : Nat) (elder : Bool) :
    (s.remoteLock id who line elder).mem = s.mem := by
  simp only [State.remoteLock]
  repeat' split
  all_goals simp

@[simp] theorem State.remoteUnlock_mem (s : State) (id line : Nat) : (s.remoteUnlock id line).mem = s.mem := by
  simp [State.remoteUnlock]

theorem State.asHolder_some_canonical {s : State} {id : Nat} {f : State → Option (Nat × State)} {r : Nat} {u : State}
    (hf : ∀ t v w, f t = some (v, w) → Canonical t.mem → Canonical w.mem) (eqn : s.asHolder id f = some (r, u))
    (wf : Canonical s.mem) : Canonical u.mem := by
  obtain ⟨⟨v, w⟩, e, h⟩ := Option.map_eq_some_iff.1 eqn
  cases h
  have hw := hf _ v w e wf
  exact hw

@[simp] theorem State.remoteWaita_canonical (s : State) (q : RemoteReq) (wf : Canonical s.mem) :
    Canonical (s.remoteWaita q).mem := by
  grind [State.remoteWaita, → State.outsideLoad_some_canonical, State.newId_mem, State.loseWatch_mem]

theorem State.remoteFuture_some_canonical {s : State} {who : Nat} {q : RemoteReq} {r : Nat} {u : State}
    (eqn : s.remoteFuture who q = some (r, u)) (wf : Canonical s.mem) : Canonical u.mem := by
  refine State.outsideTurn_some_canonical (fun t ht => ?_) eqn wf
  dsimp only
  split <;> simp [ht]

theorem State.remoteArrive_some_canonical {s : State} {who : Nat} {q : RemoteReq} {r : Nat} {u : State}
    (eqn : s.remoteArrive who q = some (r, u)) (wf : Canonical s.mem) : Canonical u.mem := by
  refine State.outsideTurn_some_canonical (fun t ht => ?_) eqn wf
  dsimp only
  split
  · simp [ht]
  split <;> simp [ht]

theorem State.remoteStx_some_canonical {s : State} {q : RemoteReq} {r : Nat} {u : State}
    (eqn : s.remoteStx q = some (r, u)) (wf : Canonical s.mem) : Canonical u.mem := by
  obtain ⟨t, store, e⟩ := Option.map_eq_some_iff.1 eqn
  have ht := State.hubStorePa_some_canonical store wf
  cases e
  split
  · exact ht
  · exact canonical_memStore _ _ ht

@[simp] theorem State.remoteServe_canonical (s : State) (q : RemoteReq) (wf : Canonical s.mem) :
    Canonical (s.remoteServe q).mem := by
  have stored (t : State) (v : Nat) (w : State) 
      (e : (t.hubStorePa q.addr (leBytes q.size q.value)).map (fun t => (0, t)) = some (v,
        w)) (ht : Canonical t.mem) : Canonical w.mem := by
    obtain ⟨x, store, h⟩ := Option.map_eq_some_iff.1 e
    cases h
    exact State.hubStorePa_some_canonical store ht
  unfold State.remoteServe
  dsimp only
  split
  · exact State.answer_canonical (fun _ _ e =>
      State.asHolder_some_canonical (fun _ _ _ e ht => State.outsideLoad_some_canonical e ht) e wf) wf
  · exact State.answer_canonical (fun _ _ e => State.asHolder_some_canonical stored e wf) wf
  · refine State.answer_canonical (fun _ _ e => ?_) wf
    obtain ⟨x, load, h⟩ := Option.map_eq_some_iff.1 e
    cases h
    exact State.outsideLoad_some_canonical load wf
  · exact State.answer_canonical (fun _ _ e => State.remoteStx_some_canonical e wf) wf
  · exact State.answer_canonical (fun _ _ e => State.outsideAtomic_some_canonical e wf) wf
  · simpa using wf
  · simpa using wf
  · exact State.remoteWaita_canonical _ _ wf
  · split <;> simp [wf]
  · exact State.answer_canonical (fun _ _ e => State.remoteFuture_some_canonical e wf) wf
  · exact State.answer_canonical (fun _ _ e => State.remoteFuture_some_canonical e wf) wf
  · exact State.answer_canonical (fun _ _ e => State.remoteArrive_some_canonical e wf) wf
  · exact wf

@[simp] theorem State.remoteMmio_canonical (s : State) (q : RemoteReq) (wf : Canonical s.mem) :
    Canonical (s.remoteMmio q).mem := by
  simp only [State.remoteMmio]
  repeat' split
  all_goals simp [wf]

@[simp] theorem execRemoteAccess_canonical (q : RemoteReq) (s : State) (wf : Canonical s.mem) :
    CanonicalOut (execRemoteAccess q s) := by
  simp only [execRemoteAccess]
  repeat' split
  all_goals simp [wf]

@[simp] theorem execManagementRequest_canonical (r : MgmtReq) (s : State) (wf : Canonical s.mem) :
    CanonicalOut (execManagementRequest r s) := by
  simp only [execManagementRequest]
  repeat' split
  all_goals simp [wf]

@[simp] theorem State.colDrop_mem (s : State) (p : CollPort) : (s.colDrop p).mem = s.mem := by simp [State.colDrop]
@[simp] theorem State.colLeave_mem (s : State) (p : CollPort) : (s.colLeave p).mem = s.mem := by
  simp [State.colLeave, apply_ite State.mem]
@[simp] theorem State.colFault_canonical (s : State) (p : CollPort) (code cause addr : Nat) (wf : Canonical s.mem) :
    Canonical (s.colFault p code cause addr).mem := by
  unfold State.colFault; split <;> simp [wf]

@[simp] theorem execColpush_canonical (id part : Nat) (s : State) (wf : Canonical s.mem) :
    CanonicalOut (execColpush id part s) := by
  unfold execColpush
  rw [canonicalOut_next]
  split
  · exact wf
  next a _ =>
  split
  next p die port _ _ =>
    extract_lets running addr perform join
    have performed (t : State) : (perform t).mem = t.mem := by simp [perform]
    have joined (t : State) (k : CollPort) : (join t k).mem = t.mem := by simp [join]
    clear_value perform join
    split
    · exact wf
    split
    next cid s1 fresh =>
    have h1 : Canonical s1.mem := by
      rw [State.newId_pair_mem fresh]
      exact wf
    extract_lets k bad
    have failed (t : State) (code cause at_ : Nat) (h : Canonical t.mem) : Canonical (bad t code cause at_).mem := by
      simp [bad, joined, performed, h]
    clear_value bad
    split
    · exact failed _ _ _ _ h1
    split
    next e => exact failed _ _ _ _ (State.translate_pair_canonical e h1)
    · exact wf
    · exact wf
    split
    · exact wf
    split
    · exact wf
    · exact failed _ _ _ _ h1
    next e =>
      have read := State.engineLoadPiece_ok_canonical e h1
      dsimp only
      split
      · simp [joined, performed, read]
      · simp [joined, performed, read]
  · exact wf

theorem State.colReads_some_canonical {s : State} {ps : List CollPort} {acc : List (List Nat)} {u : State}
    {r : List (List Nat) ⊕ CollPort × Nat × Nat × Nat} (eqn : s.colReads ps acc = some (u, r)) (wf : Canonical s.mem)
    : Canonical u.mem := by
  induction ps generalizing s acc with
  | nil =>
    cases eqn
    exact wf
  | cons p ps ih =>
    unfold State.colReads at eqn
    dsimp only at eqn
    split at eqn
    · exact ih eqn wf
    split at eqn
    · exact ih eqn wf
    split at eqn
    · cases eqn
    · cases eqn
      exact wf
    next e => exact ih eqn (State.engineLoad_ok_canonical e wf)

@[simp] theorem State.colWrite_canonical (s : State) (p : CollPort) (out : List Nat) (wf : Canonical s.mem) :
    CanonicalHub (s.colWrite p out) := by
  grind [State.colWrite, State.engineStore_canonical, → State.engineStore_ok_canonical, canonicalHub_ok]
theorem State.colWrite_ok_canonical {s : State} {p : CollPort} {bs : List Nat} {out : List Nat} {u : State}
    (eqn : s.colWrite p bs = .ok out u) (wf : Canonical s.mem) : Canonical u.mem :=
  (State.colWrite_canonical s p bs wf).of_ok eqn

theorem State.colWrites_some_canonical {s : State} {out : List Nat} {ps : List CollPort} {u : State}
    (eqn : s.colWrites out ps = some u) (wf : Canonical s.mem) : Canonical u.mem := by
  induction ps generalizing s with
  | nil =>
    cases eqn
    exact wf
  | cons p ps ih =>
    unfold State.colWrites at eqn
    split at eqn
    · exact ih eqn (by simpa using wf)
    split at eqn
    · cases eqn
    · exact ih eqn (State.colFault_canonical _ _ _ _ _ wf)
    next e => exact ih eqn (by simpa using State.colWrite_ok_canonical e wf)

@[simp] theorem execCollectiveRun_canonical (colid : Nat) (s : State) (wf : Canonical s.mem) :
    CanonicalOut (execCollectiveRun colid s) := by
  simp only [execCollectiveRun, canonicalOut_next]
  split
  · exact wf
  split
  · exact foldl_canonical _ (fun t q ht => State.colFault_canonical _ _ _ _ _ ht) _ _ wf
  split
  · exact wf
  split
  · exact wf
  next e => exact State.colFault_canonical _ _ _ _ _ (State.colReads_some_canonical e wf)
  next e => exact getD_canonical (fun _ h => State.colWrites_some_canonical h (State.colReads_some_canonical e wf)) wf

@[simp] theorem execCollectiveTimeout_canonical (colid : Nat) (s : State) (wf : Canonical s.mem) :
    CanonicalOut (execCollectiveTimeout colid s) := by
  simp only [execCollectiveTimeout]
  repeat' split
  all_goals simp +contextual [wf]

/-! Integer instructions -/

@[simp] theorem execNop_canonical (t : Fin 64) (s : State) (wf : Canonical s.mem) : CanonicalOut (execNop t s) := by
  simp [execNop, wf]
@[simp] theorem execMov_canonical (t : Fin 64) (d : Dst) (a : Src) (w : Bool) (s : State) (wf : Canonical s.mem) :
    CanonicalOut (execMov t d a w s) := by simp [execMov, wf]
@[simp] theorem execMovi_canonical (t : Fin 64) (d : Dst) (i : BitVec 14) (s : State) (wf : Canonical s.mem) :
    CanonicalOut (execMovi t d i s) := by simp [execMovi, wf]
@[simp] theorem execIadd_canonical (t : Fin 64) (d : Dst) (a b : Src) (w : Bool) (s : State) (wf : Canonical s.mem) :
    CanonicalOut (execIadd t d a b w s) := by simp [execIadd, wf]
@[simp] theorem execIsub_canonical (t : Fin 64) (d : Dst) (a b : Src) (w : Bool) (s : State) (wf : Canonical s.mem) :
    CanonicalOut (execIsub t d a b w s) := by simp [execIsub, wf]
@[simp] theorem execIaddi_canonical (t : Fin 64) (d : Dst) (a : Src) (i : BitVec 9) (s : State)
    (wf : Canonical s.mem) : CanonicalOut (execIaddi t d a i s) := by simp [execIaddi, wf]
@[simp] theorem execImulLo_canonical (t : Fin 64) (d : Dst) (a b : Src) (w : Bool) (s : State) (wf : Canonical s.mem)
    : CanonicalOut (execImulLo t d a b w s) := by simp [execImulLo, wf]
@[simp] theorem execImulHi_canonical (t : Fin 64) (d : Dst) (a b : Src) (w : Bool) (s : State) (wf : Canonical s.mem)
    : CanonicalOut (execImulHi t d a b w s) := by simp [execImulHi, wf]
@[simp] theorem execImulHin_canonical (t : Fin 64) (d : Dst) (a b : Src) (w : Bool) (s : State)
    (wf : Canonical s.mem) : CanonicalOut (execImulHin t d a b w s) := by simp [execImulHin, wf]
@[simp] theorem execImad_canonical (t : Fin 64) (d : Dst) (a b : Src) (c : VReg) (s : State) (wf : Canonical s.mem) :
    CanonicalOut (execImad t d a b c s) := by simp [execImad, wf]
@[simp] theorem execImin_canonical (t : Fin 64) (d : Dst) (a b : Src) (w : Bool) (s : State) (wf : Canonical s.mem) :
    CanonicalOut (execImin t d a b w s) := by simp [execImin, wf]
@[simp] theorem execImax_canonical (t : Fin 64) (d : Dst) (a b : Src) (w : Bool) (s : State) (wf : Canonical s.mem) :
    CanonicalOut (execImax t d a b w s) := by simp [execImax, wf]
@[simp] theorem execUmin_canonical (t : Fin 64) (d : Dst) (a b : Src) (w : Bool) (s : State) (wf : Canonical s.mem) :
    CanonicalOut (execUmin t d a b w s) := by simp [execUmin, wf]
@[simp] theorem execUmax_canonical (t : Fin 64) (d : Dst) (a b : Src) (w : Bool) (s : State) (wf : Canonical s.mem) :
    CanonicalOut (execUmax t d a b w s) := by simp [execUmax, wf]
@[simp] theorem execIabs_canonical (t : Fin 64) (d : Dst) (a : Src) (w : Bool) (s : State) (wf : Canonical s.mem) :
    CanonicalOut (execIabs t d a w s) := by simp [execIabs, wf]
@[simp] theorem execBand_canonical (t : Fin 64) (d : Dst) (a b : Src) (w : Bool) (s : State) (wf : Canonical s.mem) :
    CanonicalOut (execBand t d a b w s) := by simp [execBand, wf]
@[simp] theorem execBor_canonical (t : Fin 64) (d : Dst) (a b : Src) (w : Bool) (s : State) (wf : Canonical s.mem) :
    CanonicalOut (execBor t d a b w s) := by simp [execBor, wf]
@[simp] theorem execBxor_canonical (t : Fin 64) (d : Dst) (a b : Src) (w : Bool) (s : State) (wf : Canonical s.mem) :
    CanonicalOut (execBxor t d a b w s) := by simp [execBxor, wf]
@[simp] theorem execBandn_canonical (t : Fin 64) (d : Dst) (a b : Src) (w : Bool) (s : State) (wf : Canonical s.mem)
    : CanonicalOut (execBandn t d a b w s) := by simp [execBandn, wf]
@[simp] theorem execBnot_canonical (t : Fin 64) (d : Dst) (a : Src) (w : Bool) (s : State) (wf : Canonical s.mem) :
    CanonicalOut (execBnot t d a w s) := by simp [execBnot, wf]
@[simp] theorem execShl_canonical (t : Fin 64) (d : Dst) (a b : Src) (w : Bool) (s : State) (wf : Canonical s.mem) :
    CanonicalOut (execShl t d a b w s) := by simp [execShl, wf]
@[simp] theorem execShr_canonical (t : Fin 64) (d : Dst) (a b : Src) (w : Bool) (s : State) (wf : Canonical s.mem) :
    CanonicalOut (execShr t d a b w s) := by simp [execShr, wf]
@[simp] theorem execSar_canonical (t : Fin 64) (d : Dst) (a b : Src) (w : Bool) (s : State) (wf : Canonical s.mem) :
    CanonicalOut (execSar t d a b w s) := by simp [execSar, wf]
@[simp] theorem execRol_canonical (t : Fin 64) (d : Dst) (a b : Src) (w : Bool) (s : State) (wf : Canonical s.mem) :
    CanonicalOut (execRol t d a b w s) := by simp [execRol, wf]
@[simp] theorem execShli_canonical (t : Fin 64) (d : Dst) (a : Src) (w : Bool) (n : Fin 64) (s : State)
    (wf : Canonical s.mem) : CanonicalOut (execShli t d a w n s) := by simp [execShli, wf]
@[simp] theorem execShri_canonical (t : Fin 64) (d : Dst) (a : Src) (w : Bool) (n : Fin 64) (s : State)
    (wf : Canonical s.mem) : CanonicalOut (execShri t d a w n s) := by simp [execShri, wf]
@[simp] theorem execSari_canonical (t : Fin 64) (d : Dst) (a : Src) (w : Bool) (n : Fin 64) (s : State)
    (wf : Canonical s.mem) : CanonicalOut (execSari t d a w n s) := by simp [execSari, wf]
@[simp] theorem execRoli_canonical (t : Fin 64) (d : Dst) (a : Src) (w : Bool) (n : Fin 64) (s : State)
    (wf : Canonical s.mem) : CanonicalOut (execRoli t d a w n s) := by simp [execRoli, wf]
@[simp] theorem execBfx_canonical (t : Fin 64) (d : Dst) (a b : Src) (w sx : Bool) (s : State) (wf : Canonical s.mem)
    : CanonicalOut (execBfx t d a b w sx s) := by simp [execBfx, wf]
@[simp] theorem execBfi_canonical (t : Fin 64) (d : Dst) (a b : Src) (c : VReg) (s : State) (wf : Canonical s.mem) :
    CanonicalOut (execBfi t d a b c s) := by simp [execBfi, wf]
@[simp] theorem execClz_canonical (t : Fin 64) (d : Dst) (a : Src) (w : Bool) (s : State) (wf : Canonical s.mem) :
    CanonicalOut (execClz t d a w s) := by simp [execClz, wf]
@[simp] theorem execPopc_canonical (t : Fin 64) (d : Dst) (a : Src) (w : Bool) (s : State) (wf : Canonical s.mem) :
    CanonicalOut (execPopc t d a w s) := by simp [execPopc, wf]
@[simp] theorem execBrev_canonical (t : Fin 64) (d : Dst) (a : Src) (w : Bool) (s : State) (wf : Canonical s.mem) :
    CanonicalOut (execBrev t d a w s) := by simp [execBrev, wf]
@[simp] theorem execIcmp_canonical (t : Fin 64) (d : MaskReg) (a b : Src) (k : Fin 8) (s : State)
    (wf : Canonical s.mem) : CanonicalOut (execIcmp t d a b k s) := by simp [execIcmp, wf]
@[simp] theorem execUcmp_canonical (t : Fin 64) (d : MaskReg) (a b : Src) (k : Fin 8) (s : State)
    (wf : Canonical s.mem) : CanonicalOut (execUcmp t d a b k s) := by simp [execUcmp, wf]
@[simp] theorem execSel_canonical (t : Fin 64) (d : Dst) (a b : Src) (m : MaskReg) (s : State) (wf : Canonical s.mem)
    : CanonicalOut (execSel t d a b m s) := by simp [execSel, wf]
@[simp] theorem execIdiv_canonical (t : Fin 64) (d : Dst) (a b : Src) (w : Bool) (s : State) (wf : Canonical s.mem) :
    CanonicalOut (execIdiv t d a b w s) := by simp [execIdiv, wf]
@[simp] theorem execUdiv_canonical (t : Fin 64) (d : Dst) (a b : Src) (w : Bool) (s : State) (wf : Canonical s.mem) :
    CanonicalOut (execUdiv t d a b w s) := by simp [execUdiv, wf]
@[simp] theorem execIrem_canonical (t : Fin 64) (d : Dst) (a b : Src) (w : Bool) (s : State) (wf : Canonical s.mem) :
    CanonicalOut (execIrem t d a b w s) := by simp [execIrem, wf]
@[simp] theorem execUrem_canonical (t : Fin 64) (d : Dst) (a b : Src) (w : Bool) (s : State) (wf : Canonical s.mem) :
    CanonicalOut (execUrem t d a b w s) := by simp [execUrem, wf]
@[simp] theorem execIclamp_canonical (t : Fin 64) (d : Dst) (a b : Src) (c : Fin 8) (s : State)
    (wf : Canonical s.mem) : CanonicalOut (execIclamp t d a b c s) := by simp [execIclamp, wf]
@[simp] theorem execUclamp_canonical (t : Fin 64) (d : Dst) (a b : Src) (c : Fin 8) (s : State)
    (wf : Canonical s.mem) : CanonicalOut (execUclamp t d a b c s) := by simp [execUclamp, wf]

/-! Lane instructions -/

@[simp] theorem execLbcast_canonical (t : Fin 64) (d : Dst) (a : Src) (n : Fin 64) (s : State) (wf : Canonical s.mem)
    : CanonicalOut (execLbcast t d a n s) := by simp [execLbcast, wf]
@[simp] theorem execLshfl_canonical (t : Fin 64) (d : Dst) (a b : Src) (s : State) (wf : Canonical s.mem) :
    CanonicalOut (execLshfl t d a b s) := by simp [execLshfl, wf]
@[simp] theorem execLrot_canonical (t : Fin 64) (d : Dst) (a : Src) (i : BitVec 9) (s : State) (wf : Canonical s.mem)
    : CanonicalOut (execLrot t d a i s) := by simp [execLrot, wf]
@[simp] theorem execLred_canonical (t : Fin 64) (d : Dst) (a : Src) (f : Fin 16) (s : State) (wf : Canonical s.mem) :
    CanonicalOut (execLred t d a f s) := by simp [execLred, wf]
@[simp] theorem execLscan_canonical (t : Fin 64) (d : Dst) (a : Src) (f : Bool) (s : State) (wf : Canonical s.mem) :
    CanonicalOut (execLscan t d a f s) := by simp [execLscan, wf]
@[simp] theorem execLcomp_canonical (t : Fin 64) (d : Dst) (a : Src) (b : MaskReg) (s : State) (wf : Canonical s.mem)
    : CanonicalOut (execLcomp t d a b s) := by simp [execLcomp, wf]
@[simp] theorem State.maskOp_mem (s : State) (t : Fin 64) (d : MaskReg) (m : LaneMask) :
    (s.maskOp t d m).mem = s.mem := by simp [State.maskOp]
@[simp] theorem State.predOp_mem (s : State) (t : Fin 64) (d : PredReg) (b : Bool) :
    (s.predOp t d b).mem = s.mem := by simp [State.predOp]
@[simp] theorem execMand_canonical (t : Fin 64) (d a b : MaskReg) (s : State) (wf : Canonical s.mem) :
    CanonicalOut (execMand t d a b s) := by simp [execMand, wf]
@[simp] theorem execMor_canonical (t : Fin 64) (d a b : MaskReg) (s : State) (wf : Canonical s.mem) :
    CanonicalOut (execMor t d a b s) := by simp [execMor, wf]
@[simp] theorem execMxor_canonical (t : Fin 64) (d a b : MaskReg) (s : State) (wf : Canonical s.mem) :
    CanonicalOut (execMxor t d a b s) := by simp [execMxor, wf]
@[simp] theorem execMandn_canonical (t : Fin 64) (d a b : MaskReg) (s : State) (wf : Canonical s.mem) :
    CanonicalOut (execMandn t d a b s) := by simp [execMandn, wf]
@[simp] theorem execMnot_canonical (t : Fin 64) (d a : MaskReg) (s : State) (wf : Canonical s.mem) :
    CanonicalOut (execMnot t d a s) := by simp [execMnot, wf]
@[simp] theorem execMmov_canonical (t : Fin 64) (d a : MaskReg) (s : State) (wf : Canonical s.mem) :
    CanonicalOut (execMmov t d a s) := by simp [execMmov, wf]
@[simp] theorem execMpop_canonical (t : Fin 64) (d : Dst) (a : MaskReg) (s : State) (wf : Canonical s.mem) :
    CanonicalOut (execMpop t d a s) := by simp [execMpop, wf]
@[simp] theorem execMany_canonical (t : Fin 64) (d : PredReg) (a : MaskReg) (s : State) (wf : Canonical s.mem) :
    CanonicalOut (execMany t d a s) := by simp [execMany, wf]
@[simp] theorem execMall_canonical (t : Fin 64) (d : PredReg) (a : MaskReg) (s : State) (wf : Canonical s.mem) :
    CanonicalOut (execMall t d a s) := by simp [execMall, wf]
@[simp] theorem execMnone_canonical (t : Fin 64) (d : PredReg) (a : MaskReg) (s : State) (wf : Canonical s.mem) :
    CanonicalOut (execMnone t d a s) := by simp [execMnone, wf]
@[simp] theorem execMfrom_canonical (t : Fin 64) (d : MaskReg) (a : Pair) (s : State) (wf : Canonical s.mem) :
    CanonicalOut (execMfrom t d a s) := by simp [execMfrom, wf]
@[simp] theorem State.putP_mem (s : State) (d : PDst) (f : Nat → BitVec 64) : (s.putP d f).mem = s.mem := by
  unfold State.putP; split <;> simp
@[simp] theorem execMto_canonical (t : Fin 64) (d : PDst) (a : MaskReg) (s : State) (wf : Canonical s.mem) :
    CanonicalOut (execMto t d a s) := by simp [execMto, wf]
@[simp] theorem execMseti_canonical (t : Fin 64) (d : MaskReg) (i : BitVec 9) (s : State) (wf : Canonical s.mem) :
    CanonicalOut (execMseti t d i s) := by simp [execMseti, wf]
@[simp] theorem execSendt_canonical (t : Fin 64) (o : ChanNo) (a b : Src) (s : State) (wf : Canonical s.mem) :
    CanonicalOut (execSendt t o a b s) := by simp [execSendt, wf]
@[simp] theorem execTagr_canonical (t : Fin 64) (d : VReg) (n : ChanNo) (s : State) (wf : Canonical s.mem) :
    CanonicalOut (execTagr t d n s) := by simp [execTagr, wf]
@[simp] theorem execCens_canonical (t : Fin 64) (i : BitVec 9) (s : State) (wf : Canonical s.mem) :
    CanonicalOut (execCens t i s) := by simp [execCens, apply_ite State.mem, wf]

/-! Memory events -/

@[simp] theorem State.touchFor_canonical (s : State) (a : Access) (p : Part) (wf : Canonical s.mem) :
    Canonical (s.touchFor a p).mem := by
  unfold State.touchFor; split <;> simp [wf]
@[simp] theorem State.serveAgain_canonical (s : State) (a : Access) (i : Nat) (p : Part) (wf : Canonical s.mem) :
    Canonical (s.serveAgain a i p).mem := by
  grind [State.serveAgain, State.translateFor_canonical, State.setPart_mem, State.failPart_mem]

@[simp] theorem State.serveHome_canonical (s : State) (a : Access) (i : Nat) (p : Part) (wf : Canonical s.mem) :
    Canonical (s.serveHome a i p).mem := by
  have touched : Canonical ((s.touchFor a p).correctAt p.pa p.size).mem := by simp [wf]
  unfold State.serveHome
  dsimp only
  generalize (s.touchFor a p).correctAt p.pa p.size = t at touched ⊢
  split
  · simp [wf]
  · simp [wf]
  · refine ite_canonical (by simp [touched]) ?_
    split
    · split <;> simp [touched]
    · simp [touched]
    · simp [touched]
    · exact touched

@[simp] theorem State.bringLine_canonical (s : State) (a : Access) (p : Part) (store : Bool) (wf : Canonical s.mem) :
    Canonical (s.bringLine a p store).2.mem := by
  grind [State.bringLine, State.fill_canonical, State.touchFor_canonical, State.evictLine_canonical,
    State.askRecall_mem, State.dirGrant_canonical]
@[simp] theorem State.serveMiss_canonical (s : State) (a : Access) (i : Nat) (p : Part) (wf : Canonical s.mem) :
    Canonical (s.serveMiss a i p).mem := by
  grind [State.serveMiss, State.serveHome_canonical, State.bringLine_canonical, State.performHit_mem]
@[simp] theorem State.serveMmio_canonical (s : State) (a : Access) (i : Nat) (p : Part) (wf : Canonical s.mem) :
    Canonical (s.serveMmio a i p).mem := by
  unfold State.serveMmio; split <;> simp [wf]
@[simp] theorem State.servePrefetch_canonical (s : State) (a : Access) (i : Nat) (p : Part) (wf : Canonical s.mem) :
    Canonical (s.servePrefetch a i p).mem := by
  grind [State.servePrefetch, State.translateFor_canonical, State.donePart_mem, State.touchFor_canonical,
    State.bringLine_canonical]

@[simp] theorem State.serveWaita_canonical (s : State) (a : Access) (i : Nat) (p : Part) (wf : Canonical s.mem) :
    Canonical (s.serveWaita a i p).mem := by
  simp only [State.serveWaita]
  repeat' split
  all_goals simp [wf]

@[simp] theorem execHomeSliceRequest_canonical (id part : Nat) (s : State) (wf : Canonical s.mem) :
    CanonicalOut (execHomeSliceRequest id part s) := by
  simp only [execHomeSliceRequest]
  repeat' split
  all_goals simp [wf]

@[simp] theorem execRecallResponse_canonical (line holder : Nat) (s : State) (wf : Canonical s.mem) :
    CanonicalOut (execRecallResponse line holder s) := by
  simp only [execRecallResponse]
  repeat' split
  all_goals simp [wf]

@[simp] theorem execOwnershipHoldExpiry_canonical (cell line : Nat) (s : State) (wf : Canonical s.mem) :
    CanonicalOut (execOwnershipHoldExpiry cell line s) := by
  simp only [execOwnershipHoldExpiry]
  repeat' split
  all_goals simp [wf]

@[simp] theorem execLoadBind_canonical (id : Nat) (s : State) (wf : Canonical s.mem) :
    CanonicalOut (execLoadBind id s) := by
  simp only [execLoadBind]
  repeat' split
  all_goals simp [wf]

@[simp] theorem State.runMaint_canonical (s : State) (id : Nat) (wf : Canonical s.mem) :
    Canonical (s.runMaint id).mem := by
  refine foldl_canonical _ (fun t i ht => ?_) _ _ wf
  split
  · split
    · split
      · exact ht
      split
      · simpa using ht
      · simpa using State.maintPart_canonical _ _ _ ht
    · exact ht
  · exact ht

@[simp] theorem State.tell_mem (s : State) (a : Access) : (s.tell a).mem = s.mem := by
  simp [State.tell, apply_ite State.mem]

@[simp] theorem execAccessCompletion_canonical (id : Nat) (s : State) (wf : Canonical s.mem) :
    CanonicalOut (execAccessCompletion id s) := by
  simp only [execAccessCompletion]
  repeat' split
  all_goals simp [wf]

@[simp] theorem execMemoryTimeout_canonical (id : Nat) (s : State) (wf : Canonical s.mem) :
    CanonicalOut (execMemoryTimeout id s) := by
  simp only [execMemoryTimeout]
  repeat' split
  all_goals simp [wf]

@[simp] theorem execPageWalk_canonical (id : Nat) (s : State) (wf : Canonical s.mem) :
    CanonicalOut (execPageWalk id s) := by
  unfold execPageWalk
  rw [canonicalOut_next]
  split
  · exact wf
  extract_lets gone give
  have dropped (t : State) : (gone t).mem = t.mem := rfl
  have given (t : State) (c : Nat) (ht : Canonical t.mem) : Canonical (give t c).mem := by
    simp only [give]
    split
    · exact ht
    · exact ht
  clear_value gone give
  split
  · exact wf
  split
  · exact wf
  next e => exact foldl_canonical _ given _ _ (by rw [dropped]; exact State.walkFor_pair_canonical e wf)
  · rw [dropped]
    exact wf

@[simp] theorem State.entryWalk_canonical (s : State) (cell : Nat) (e : SideEntry) (wf : Canonical s.mem) :
    Canonical (s.entryWalk cell e).2.mem :=
  List.foldlRecOn e.lanes _ (motive := fun (p : List (Nat × Nat × Trans) × State) => Canonical p.2.mem) wf
    fun _ hp _ _ => State.translateFor_canonical _ _ _ _ _ hp
@[simp] theorem State.setEntries_mem (s : State) (cell asid page : Nat) (f : SideEntry → SideEntry) :
    (s.setEntries cell asid page f).mem = s.mem := by simp [State.setEntries]
@[simp] theorem State.replayFault_mem (s : State) (cell : Nat) (e : SideEntry) (code cause addr : Nat) :
    (s.replayFault cell e code cause addr).mem = s.mem := by simp [State.replayFault]
@[simp] theorem State.issueEntry_mem (s : State) (cell : Nat) (e : SideEntry) (ps : List Part) :
    (s.issueEntry cell e ps).mem = s.mem := by simp [State.issueEntry, apply_ite State.mem]
@[simp] theorem State.replay_canonical (s : State) (cell : Nat) (e : SideEntry) (wf : Canonical s.mem) :
    Canonical (s.replay cell e).mem := by
  simp only [State.replay]; split <;> simp [wf]

@[simp] theorem execSideLogReplay_canonical (cell page : Nat) (s : State) (wf : Canonical s.mem) :
    CanonicalOut (execSideLogReplay cell page s) := by
  simp only [execSideLogReplay]
  repeat' split
  all_goals simp [wf]

@[simp] theorem execPersistSweep_canonical (slice : Nat) (s : State) (wf : Canonical s.mem) :
    CanonicalOut (execPersistSweep slice s) := by simp [execPersistSweep, apply_ite State.mem, wf]
@[simp] theorem execSliceScrub_canonical (slice : Nat) (s : State) (wf : Canonical s.mem) :
    CanonicalOut (execSliceScrub slice s) := by simp [execSliceScrub, wf]
@[simp] theorem execCellScrub_canonical (cell : Nat) (s : State) (wf : Canonical s.mem) :
    CanonicalOut (execCellScrub cell s) := by simp [execCellScrub, wf]

/-! The agenda -/

@[simp] theorem State.start_mem (s : State) (f : Firing) : (s.start f).mem = s.mem := by simp [State.start]
@[simp] theorem State.elapse_mem (s : State) (ps : Nat) : (s.elapse ps).mem = s.mem := by simp [State.elapse]
@[simp] theorem State.wipeWritten_mem (s : State) (i : Instr) : (s.wipeWritten i).mem = s.mem := by
  simp [State.wipeWritten, apply_ite State.mem]

@[simp] theorem execModuleReset_canonical (fw : Firmware) (s : State) (_ : Canonical s.mem) :
    CanonicalOut (execModuleReset fw s) := by
  unfold execModuleReset
  dsimp only
  rw [canonicalOut_next, foldl_mem _ fun _ _ => State.requestAll_mem ..]
  exact canonical_bootMemory _ _

/-! Every instruction and event -/

/-- Every instruction and every event keeps memory in canonical form. -/
theorem exec_canonical : ∀ (i : Instr) (s : State), Canonical s.mem → CanonicalOut (exec i s)
  | .nop t, s, wf => execNop_canonical t s wf
  | .mov t d a w, s, wf => execMov_canonical t d a w s wf
  | .movi t d imm, s, wf => execMovi_canonical t d imm s wf
  | .iadd t d a b w, s, wf => execIadd_canonical t d a b w s wf
  | .isub t d a b w, s, wf => execIsub_canonical t d a b w s wf
  | .iaddi t d a imm, s, wf => execIaddi_canonical t d a imm s wf
  | .imulLo t d a b w, s, wf => execImulLo_canonical t d a b w s wf
  | .imulHi t d a b w, s, wf => execImulHi_canonical t d a b w s wf
  | .imulHin t d a b w, s, wf => execImulHin_canonical t d a b w s wf
  | .imad t d a b c, s, wf => execImad_canonical t d a b c s wf
  | .imin t d a b w, s, wf => execImin_canonical t d a b w s wf
  | .imax t d a b w, s, wf => execImax_canonical t d a b w s wf
  | .umin t d a b w, s, wf => execUmin_canonical t d a b w s wf
  | .umax t d a b w, s, wf => execUmax_canonical t d a b w s wf
  | .iabs t d a w, s, wf => execIabs_canonical t d a w s wf
  | .band t d a b w, s, wf => execBand_canonical t d a b w s wf
  | .bor t d a b w, s, wf => execBor_canonical t d a b w s wf
  | .bxor t d a b w, s, wf => execBxor_canonical t d a b w s wf
  | .bandn t d a b w, s, wf => execBandn_canonical t d a b w s wf
  | .bnot t d a w, s, wf => execBnot_canonical t d a w s wf
  | .shl t d a b w, s, wf => execShl_canonical t d a b w s wf
  | .shr t d a b w, s, wf => execShr_canonical t d a b w s wf
  | .sar t d a b w, s, wf => execSar_canonical t d a b w s wf
  | .rol t d a b w, s, wf => execRol_canonical t d a b w s wf
  | .shli t d a w n, s, wf => execShli_canonical t d a w n s wf
  | .shri t d a w n, s, wf => execShri_canonical t d a w n s wf
  | .sari t d a w n, s, wf => execSari_canonical t d a w n s wf
  | .roli t d a w n, s, wf => execRoli_canonical t d a w n s wf
  | .bfx t d a b w sx, s, wf => execBfx_canonical t d a b w sx s wf
  | .bfi t d a b c, s, wf => execBfi_canonical t d a b c s wf
  | .clz t d a w, s, wf => execClz_canonical t d a w s wf
  | .popc t d a w, s, wf => execPopc_canonical t d a w s wf
  | .brev t d a w, s, wf => execBrev_canonical t d a w s wf
  | .icmp t d a b k, s, wf => execIcmp_canonical t d a b k s wf
  | .ucmp t d a b k, s, wf => execUcmp_canonical t d a b k s wf
  | .sel t d a b m, s, wf => execSel_canonical t d a b m s wf
  | .idiv t d a b w, s, wf => execIdiv_canonical t d a b w s wf
  | .udiv t d a b w, s, wf => execUdiv_canonical t d a b w s wf
  | .irem t d a b w, s, wf => execIrem_canonical t d a b w s wf
  | .urem t d a b w, s, wf => execUrem_canonical t d a b w s wf
  | .iclamp t d a b c, s, wf => execIclamp_canonical t d a b c s wf
  | .uclamp t d a b c, s, wf => execUclamp_canonical t d a b c s wf
  | .lbcast t d a n, s, wf => execLbcast_canonical t d a n s wf
  | .lshfl t d a b, s, wf => execLshfl_canonical t d a b s wf
  | .lrot t d a imm, s, wf => execLrot_canonical t d a imm s wf
  | .lred t d a f, s, wf => execLred_canonical t d a f s wf
  | .lscan t d a f, s, wf => execLscan_canonical t d a f s wf
  | .lcomp t d a b, s, wf => execLcomp_canonical t d a b s wf
  | .mand t d a b, s, wf => execMand_canonical t d a b s wf
  | .mor t d a b, s, wf => execMor_canonical t d a b s wf
  | .mxor t d a b, s, wf => execMxor_canonical t d a b s wf
  | .mandn t d a b, s, wf => execMandn_canonical t d a b s wf
  | .mnot t d a, s, wf => execMnot_canonical t d a s wf
  | .mmov t d a, s, wf => execMmov_canonical t d a s wf
  | .mpop t d a, s, wf => execMpop_canonical t d a s wf
  | .many t d a, s, wf => execMany_canonical t d a s wf
  | .mall t d a, s, wf => execMall_canonical t d a s wf
  | .mnone t d a, s, wf => execMnone_canonical t d a s wf
  | .mfrom t d a, s, wf => execMfrom_canonical t d a s wf
  | .mto t d a, s, wf => execMto_canonical t d a s wf
  | .mseti t d imm, s, wf => execMseti_canonical t d imm s wf
  | .sendt t o a b, s, wf => execSendt_canonical t o a b s wf
  | .tagr t d n, s, wf => execTagr_canonical t d n s wf
  | .cens t imm, s, wf => execCens_canonical t imm s wf
  | .sysr t d imm, s, wf => execSysr_canonical t d imm s wf
  | .sysw t a imm, s, wf => execSysw_canonical t a imm s wf
  | .trap t imm, s, wf => execTrap_canonical t imm s wf
  | .brk t imm, s, wf => execBrk_canonical t imm s wf
  | .tlaunch t a, s, wf => execTlaunch_canonical t a s wf
  | .draftld t a b p, s, wf => execDraftld_canonical t a b p s wf
  | .draftsw t, s, wf => execDraftsw_canonical t s wf
  | .ctximgSavef t a b, s, wf => execCtximgSavef_canonical t a b s wf
  | .ctximgSaved t a b, s, wf => execCtximgSaved_canonical t a b s wf
  | .ctximgRest t a b, s, wf => execCtximgRest_canonical t a b s wf
  | .tlbinvPg t a b p, s, wf => execTlbinvPg_canonical t a b p s wf
  | .tlbinvAs t a b p, s, wf => execTlbinvAs_canonical t a b p s wf
  | .tlbinvAll t a b p, s, wf => execTlbinvAll_canonical t a b p s wf
  | .fadd t d a b, s, wf => execFadd_canonical t d a b s wf
  | .fsub t d a b, s, wf => execFsub_canonical t d a b s wf
  | .fmul t d a b, s, wf => execFmul_canonical t d a b s wf
  | .ffma t d a b c, s, wf => execFfma_canonical t d a b c s wf
  | .ffms t d a b c, s, wf => execFfms_canonical t d a b c s wf
  | .fmin t d a b, s, wf => execFmin_canonical t d a b s wf
  | .fmax t d a b, s, wf => execFmax_canonical t d a b s wf
  | .fminp t d a b, s, wf => execFminp_canonical t d a b s wf
  | .fmaxp t d a b, s, wf => execFmaxp_canonical t d a b s wf
  | .fabs t d a, s, wf => execFabs_canonical t d a s wf
  | .fneg t d a, s, wf => execFneg_canonical t d a s wf
  | .fcpys t d a b, s, wf => execFcpys_canonical t d a b s wf
  | .fcmp t d a b k, s, wf => execFcmp_canonical t d a b k s wf
  | .fclass t d a, s, wf => execFclass_canonical t d a s wf
  | .frnd t d a k, s, wf => execFrnd_canonical t d a k s wf
  | .fcvti t d a w u, s, wf => execFcvti_canonical t d a w u s wf
  | .fcvtf t d a w u, s, wf => execFcvtf_canonical t d a w u s wf
  | .fcvt t d a b sr k, s, wf => execFcvt_canonical t d a b sr k s wf
  | .funp t d a h k, s, wf => execFunp_canonical t d a h k s wf
  | .fx2f t d a, s, wf => execFx2f_canonical t d a s wf
  | .flg2f t d a, s, wf => execFlg2f_canonical t d a s wf
  | .fexp2 t d a, s, wf => execFexp2_canonical t d a s wf
  | .flog2 t d a, s, wf => execFlog2_canonical t d a s wf
  | .frcp t d a, s, wf => execFrcp_canonical t d a s wf
  | .frsq t d a, s, wf => execFrsq_canonical t d a s wf
  | .fsqrt t d a, s, wf => execFsqrt_canonical t d a s wf
  | .fscl t d a b, s, wf => execFscl_canonical t d a b s wf
  | .fgetx t d a, s, wf => execFgetx_canonical t d a s wf
  | .fgetm t d a, s, wf => execFgetm_canonical t d a s wf
  | .fsinp t d a, s, wf => execFsinp_canonical t d a s wf
  | .fcosp t d a, s, wf => execFcosp_canonical t d a s wf
  | .hfma2 t d a b h c, s, wf => execHfma2_canonical t d a b h c s wf
  | .hadd2 t d a b h, s, wf => execHadd2_canonical t d a b h s wf
  | .hmul2 t d a b h, s, wf => execHmul2_canonical t d a b h s wf
  | .fdot2 t d a b c, s, wf => execFdot2_canonical t d a b c s wf
  | .bscale t d a b, s, wf => execBscale_canonical t d a b s wf
  | .packb t d a b, s, wf => execPackb_canonical t d a b s wf
  | .unpkb t d a b, s, wf => execUnpkb_canonical t d a b s wf
  | .ld t d a b p w, s, wf => execLd_canonical t d a b p w s wf
  | .ldb8 t d a b p, s, wf => execLdb8_canonical t d a b p s wf
  | .ldh16 t d a b p, s, wf => execLdh16_canonical t d a b p s wf
  | .ldc t d a b p w, s, wf => execLdc_canonical t d a b p w s wf
  | .ldx t d a b p, s, wf => execLdx_canonical t d a b p s wf
  | .lds t d a b p w, s, wf => execLds_canonical t d a b p w s wf
  | .st t d a b p w, s, wf => execSt_canonical t d a b p w s wf
  | .stb8 t d a b p, s, wf => execStb8_canonical t d a b p s wf
  | .sth16 t d a b p, s, wf => execSth16_canonical t d a b p s wf
  | .stc t d a b p w, s, wf => execStc_canonical t d a b p w s wf
  | .stx t d a b p, s, wf => execStx_canonical t d a b p s wf
  | .sts t d a b p w, s, wf => execSts_canonical t d a b p w s wf
  | .aadd t d a b p w, s, wf => execAadd_canonical t d a b p w s wf
  | .amin t d a b p w, s, wf => execAmin_canonical t d a b p w s wf
  | .amax t d a b p w, s, wf => execAmax_canonical t d a b p w s wf
  | .aand t d a b p w, s, wf => execAand_canonical t d a b p w s wf
  | .aor t d a b p w, s, wf => execAor_canonical t d a b p w s wf
  | .axor t d a b p w, s, wf => execAxor_canonical t d a b p w s wf
  | .axch t d a b p w, s, wf => execAxch_canonical t d a b p w s wf
  | .acas t d a b p w, s, wf => execAcas_canonical t d a b p w s wf
  | .afadd t d a b p w, s, wf => execAfadd_canonical t d a b p w s wf
  | .mwcas t d a q p, s, wf => execMwcas_canonical t d a q p s wf
  | .fence t bef aft p, s, wf => execFence_canonical t bef aft p s wf
  | .waita t d a b p w, s, wf => execWaita_canonical t d a b p w s wf
  | .wake t a b p, s, wf => execWake_canonical t a b p s wf
  | .wbr t a b p, s, wf => execWbr_canonical t a b p s wf
  | .invr t a b p w, s, wf => execInvr_canonical t a b p w s wf
  | .freg t a b p, s, wf => execFreg_canonical t a b p s wf
  | .fres t a b p, s, wf => execFres_canonical t a b p s wf
  | .shcpy t a b p, s, wf => execShcpy_canonical t a b p s wf
  | .shtile t a b p, s, wf => execShtile_canonical t a b p s wf
  | .shmcast t a b p, s, wf => execShmcast_canonical t a b p s wf
  | .shstrm t a p, s, wf => execShstrm_canonical t a p s wf
  | .shclose t a p, s, wf => execShclose_canonical t a p s wf
  | .hprep t a b, s, wf => execHprep_canonical t a b s wf
  | .hwload t a b, s, wf => execHwload_canonical t a b s wf
  | .hmma t a b, s, wf => execHmma_canonical t a b s wf
  | .hwait t d a, s, wf => execHwait_canonical t d a s wf
  | .hdrain t d a b, s, wf => execHdrain_canonical t d a b s wf
  | .hzero t a b, s, wf => execHzero_canonical t a b s wf
  | .cbdec t d a, s, wf => execCbdec_canonical t d a s wf
  | .hcbload t a b, s, wf => execHcbload_canonical t a b s wf
  | .binb t d a b, s, wf => execBinb_canonical t d a b s wf
  | .edge t d a b k, s, wf => execEdge_canonical t d a b k s wf
  | .bary t d a b, s, wf => execBary_canonical t d a b s wf
  | .texb t d a b, s, wf => execTexb_canonical t d a b s wf
  | .tnode t b, s, wf => execTnode_canonical t b s wf
  | .rspush t a, s, wf => execRspush_canonical t a s wf
  | .rspop t a, s, wf => execRspop_canonical t a s wf
  | .tisect t b, s, wf => execTisect_canonical t b s wf
  | .rayout t o, s, wf => execRayout_canonical t o s wf
  | .rayin t n, s, wf => execRayin_canonical t n s wf
  | .blnd t d n b k, s, wf => execBlnd_canonical t d n b k s wf
  | .zcmp t d a b, s, wf => execZcmp_canonical t d a b s wf
  | .sideLogReplay cell page, s, wf => execSideLogReplay_canonical cell page s wf
  | .pageWalk id, s, wf => execPageWalk_canonical id s wf
  | .migLeafWritten line, s, wf => execMigLeafWritten_canonical line s wf
  | .loadBind id, s, wf => execLoadBind_canonical id s wf
  | .accessCompletion id, s, wf => execAccessCompletion_canonical id s wf
  | .tlbinvComplete id, s, wf => execTlbinvComplete_canonical id s wf
  | .memoryTimeout id, s, wf => execMemoryTimeout_canonical id s wf
  | .homeSliceRequest id part, s, wf => execHomeSliceRequest_canonical id part s wf
  | .recallResponse line holder, s, wf => execRecallResponse_canonical line holder s wf
  | .ownershipHoldExpiry cell line, s, wf => execOwnershipHoldExpiry_canonical cell line s wf
  | .hostAccess q, s, wf => execHostAccess_canonical q s wf
  | .remoteAccess q, s, wf => execRemoteAccess_canonical q s wf
  | .smFlush cell frame, s, wf => execSmFlush_canonical cell frame s wf
  | .atomicAtHome id part, s, wf => execAtomicAtHome_canonical id part s wf
  | .mergeBufferForward router entry, s, wf => execMergeBufferForward_canonical router entry s wf
  | .mwcasLockPhase id, s, wf => execMwcasLockPhase_canonical id s wf
  | .mwcasQueuedLockGrant line, s, wf => execMwcasQueuedLockGrant_canonical line s wf
  | .mwcasBoundExpiry id, s, wf => execMwcasBoundExpiry_canonical id s wf
  | .mwcasLockTimeout id, s, wf => execMwcasLockTimeout_canonical id s wf
  | .mwcasCommitTimeout id, s, wf => execMwcasCommitTimeout_canonical id s wf
  | .waitaWake id, s, wf => execWaitaWake_canonical id s wf
  | .futureArrive id, s, wf => execFutureArrive_canonical id s wf
  | .tokenArrival id, s, wf => execTokenArrival_canonical id s wf
  | .reservationGrant id, s, wf => execReservationGrant_canonical id s wf
  | .stageQueueDispatch launch stage, s, wf => execStageQueueDispatch_canonical launch stage s wf
  | .quiescenceReport die region, s, wf => execQuiescenceReport_canonical die region s wf
  | .draftldValidation id, s, wf => execDraftldValidation_canonical id s wf
  | .draftswCommit cell elem ctx, s, wf => execDraftswCommit_canonical cell elem ctx s wf
  | .retirement launch, s, wf => execRetirement_canonical launch s wf
  | .watchdogExpiry die region, s, wf => execWatchdogExpiry_canonical die region s wf
  | .streamOpen id, s, wf => execStreamOpen_canonical id s wf
  | .streamPush id, s, wf => execStreamPush_canonical id s wf
  | .streamClose id, s, wf => execStreamClose_canonical id s wf
  | .persistSweep slice, s, wf => execPersistSweep_canonical slice s wf
  | .sliceScrub slice, s, wf => execSliceScrub_canonical slice s wf
  | .cellScrub cell, s, wf => execCellScrub_canonical cell s wf
  | .heddleCommandStart cell, s, wf => execHeddleCommandStart_canonical cell s wf
  | .heddleCommandComplete cell id, s, wf => execHeddleCommandComplete_canonical cell id s wf
  | .wovenPartial cell id, s, wf => execWovenPartial_canonical cell id s wf
  | .shuttleCommandRun cell id, s, wf => execShuttleCommandRun_canonical cell id s wf
  | .shuttleCommandComplete cell id, s, wf => execShuttleCommandComplete_canonical cell id s wf
  | .rayoutSend cell elem ctx, s, wf => execRayoutSend_canonical cell elem ctx s wf
  | .rayinMergeComplete cell elem ctx, s, wf => execRayinMergeComplete_canonical cell elem ctx s wf
  | .traversalComplete id, s, wf => execTraversalComplete_canonical id s wf
  | .migpush value, s, wf => execMigpush_canonical value s wf
  | .migrationRequest id, s, wf => execMigrationRequest_canonical id s wf
  | .migrationCopy id, s, wf => execMigrationCopy_canonical id s wf
  | .migrationLost id, s, wf => execMigrationLost_canonical id s wf
  | .pinExpiry imm, s, wf => execPinExpiry_canonical imm s wf
  | .gddrEviction, s, wf => execGddrEviction_canonical s wf
  | .migfree value, s, wf => execMigfree_canonical value s wf
  | .migctlWrite value, s, wf => execMigctlWrite_canonical value s wf
  | .migevqWrite value, s, wf => execMigevqWrite_canonical value s wf
  | .migevcWrite value, s, wf => execMigevcWrite_canonical value s wf
  | .mighbaseWrite value, s, wf => execMighbaseWrite_canonical value s wf
  | .qpush queue value, s, wf => execQpush_canonical queue value s wf
  | .admissionStep, s, wf => execAdmissionStep_canonical s wf
  | .quantumExpiry launch, s, wf => execQuantumExpiry_canonical launch s wf
  | .antiStarvationBoost queue, s, wf => execAntiStarvationBoost_canonical queue s wf
  | .dobbySample die, s, wf => execDobbySample_canonical die s wf
  | .replicaFree launch stage rep, s, wf => execReplicaFree_canonical launch stage rep s wf
  | .preemptionDrainComplete id, s, wf => execPreemptionDrainComplete_canonical id s wf
  | .restoreComplete id, s, wf => execRestoreComplete_canonical id s wf
  | .powerSplit, s, wf => execPowerSplit_canonical s wf
  | .grantEffect die, s, wf => execGrantEffect_canonical die s wf
  | .pwrcapWrite value, s, wf => execPwrcapWrite_canonical value s wf
  | .faultRecordWrite die, s, wf => execFaultRecordWrite_canonical die s wf
  | .fqactResume die seq, s, wf => execFqactResume_canonical die seq s wf
  | .fqactSkip die seq, s, wf => execFqactSkip_canonical die seq s wf
  | .fqactTerminate die seq, s, wf => execFqactTerminate_canonical die seq s wf
  | .fqconsWrite die value, s, wf => execFqconsWrite_canonical die value s wf
  | .fqbaseWrite die value, s, wf => execFqbaseWrite_canonical die value s wf
  | .modnumWrite value, s, wf => execModnumWrite_canonical value s wf
  | .serrcntWrite die value, s, wf => execSerrcntWrite_canonical die value s wf
  | .colpush id part, s, wf => execColpush_canonical id part s wf
  | .collectiveRun colid, s, wf => execCollectiveRun_canonical colid s wf
  | .collectiveTimeout colid, s, wf => execCollectiveTimeout_canonical colid s wf
  | .ueLaunchPacket p, s, wf => execUeLaunchPacket_canonical p s wf
  | .managementRequest r, s, wf => execManagementRequest_canonical r s wf
  | .moduleReset fw, s, wf => execModuleReset_canonical fw s wf
  | .mmioRegisterWrite pa size w, s, wf => execMmioRegisterWrite_canonical pa size w s wf

/-! The agenda -/

@[simp] theorem State.fireNow_canonical (s : State) (i : Instr) (wf : Canonical s.mem) :
    CanonicalOut (s.fireNow i) := by
  unfold State.fireNow
  dsimp only
  split
  · simp [wf]
  have ran := exec_canonical i (s.correctSingles (dieOf s.cur.cell) (s.firingMeets i)) (by simpa using wf)
  split
  next e =>
    rw [e, canonicalOut_next] at ran
    simpa using ran
  · exact ran

@[simp] theorem State.countIdle_mem (old s : State) : (old.countIdle s).mem = s.mem := rfl

@[simp] theorem State.resplit_mem (old s : State) : (old.resplit s).mem = s.mem := by
  unfold State.resplit
  dsimp only
  split
  · rfl
  · exact State.splitSoon_mem s

@[simp] theorem State.settle_mem (old s : State) : (old.settle s).mem = s.mem := by simp [State.settle]

theorem finishStep_canonical (old : State) {o : Out} (h : CanonicalOut o) : CanonicalOut (finishStep old o) := by
  cases o with
  | next t => simpa [finishStep] using h
  | fault r => simp [finishStep]
  | refused r => simp [finishStep]

theorem State.take_canonical (s : State) (p : Pick) (wf : Canonical s.mem) : CanonicalOut (s.take p) := by
  cases p with
  | fire f =>
    unfold State.take
    dsimp only
    split
    · split
      next i _ => exact finishStep_canonical s (State.fireNow_canonical _ i (by simpa using wf))
      · simpa using wf
    · simpa using wf
  | event i =>
    unfold State.take
    dsimp only
    split
    · exact finishStep_canonical s (exec_canonical i s wf)
    · simpa using wf
  | elapse ps => simpa [State.take] using wf

/-! A step -/

theorem step_canonical (s : State) (wf : Canonical s.mem) : CanonicalOut (step s) := by
  unfold step
  split
  · exact State.take_canonical s _ wf
  · exact State.take_canonical _ _ wf

/-- Settles O6: the canonical form is an invariant of `step`. -/
theorem memoryStaysCanonical : Obligations.MemoryStaysCanonical :=
  fun s s' wf e => step_canonical s wf s' e

end Sys2Proof.Machine
end

section
/-! # What a module reset leaves (O1) -/

namespace Sys2Proof.Machine
open Sys2Proof

/-- Hub registers that reset clears: ASID, ENUMPA's base, the migration engine's, ALLOW and HUBFLT. -/
def clearedHubRegs : List Nat :=
  [0x10000, 0x10008, 0x10020, 0x20000, 0x20008, 0x20010, 0x20018, 0x20020, 0x20030, 0x20038, 0x40008, 0x50008]

/-- Registers of a loom die that reset clears. -/
def clearedDieRegs : List Nat := [0x1000, 0x2000, 0x2008, 0x2010, 0x2018, 0x2020, 0x2028, 0x3000, 0x3008]

theorem reset_hubReg_cleared : ∀ o ∈ clearedHubRegs, State.reset.hubReg o = 0 := by decide +kernel

theorem reset_hubReg_queue : ∀ q < 64, ∀ o ∈ [0x00, 0x08, 0x10], State.reset.hubReg (0x30000 + 0x20 * q + o) = 0 := by
  decide +kernel

theorem reset_hubReg_grant : ∀ d < 8, State.reset.hubReg (0x40100 + 0x10 * d) = 0x0046 := by decide +kernel

theorem reset_dieReg_cleared : ∀ d < 8, ∀ o ∈ clearedDieRegs, State.reset.dieReg d o = 0 := by decide +kernel

theorem reset_die : ∀ d < 8, (State.reset.die d).tlb = [] ∧ (State.reset.die d).records = [] ∧
    (State.reset.die d).changes = 0 := by decide +kernel

/-- Settles O1: the state's parts are those of `State.reset` by definition; the registers are read one by one. -/
theorem resetValues : Obligations.ResetValues :=
  ⟨by decide +kernel, rfl, rfl, rfl, rfl, rfl, rfl, rfl, rfl, rfl, rfl, by decide +kernel, rfl, rfl,
    reset_hubReg_cleared, by decide +kernel, by decide +kernel, by decide +kernel, by decide +kernel,
    reset_hubReg_queue, reset_hubReg_grant, reset_dieReg_cleared, reset_die⟩

end Sys2Proof.Machine
end

section
/-! # Translation from a cached entry and the checks of a leaf (O30) -/

namespace Sys2Proof.Machine
open Sys2Proof

theorem bit_eq_testBit (n i : Nat) : bit n i = n.testBit i := by
  rw [bit, Nat.testBit_eq_decide_div_mod_eq]
  exact beq_eq_decide _ _

/-! A translation that the cell holds (R29, R35). -/

theorem tlbHit_own {s : State} {c die asid va : Nat} {e : TlbEntry}
    (hit : (s.cell c).tlb.find? (·.covers asid va) = some e) : s.tlbHit (some c) die asid va = some e := by
  simp only [State.tlbHit, Option.bind_some, hit]

theorem translateFor_of_hit {s : State} {c asid va : Nat} {k : Kind} {e : TlbEntry} (hc : canonical va = true)
    (hit : (s.cell c).tlb.find? (·.covers asid (va % 2 ^ 57)) = some e) :
    s.translateFor c asid k va = s.throughEntry (some c) (dieOf c) asid ((s.cell c).asid == 0) k (va % 2 ^ 57) e := by
  simp only [State.translateFor, State.translate, hc, tlbHit_own hit, Bool.not_true, Bool.false_eq_true, if_false]

theorem throughEntry_of_fault {s : State} {cell : Option Nat} {die asid va f : Nat} {res : Bool}
    {k : Kind} {e : TlbEntry}
    (hf : leafFault k res (e.paOf va) e.leaf = some f) : s.throughEntry cell die asid res k va e = (.fault f 0, s) := by
  simp only [State.throughEntry, hf]

theorem throughEntry_of_held {s : State} {c die asid va : Nat} {res : Bool} {k : Kind} {e : TlbEntry}
    (hit : (s.cell c).tlb.find? (·.covers asid va) = some e) (hf : leafFault k res (e.paOf va) e.leaf = none)
    (hd : k.writes = true → e.dirtyAt va = true) :
    s.throughEntry (some c) die asid res k va e = (.ok (e.paOf va) e.leaf e.size, s) := by
  have held : (s.cell c).tlb.any (·.covers asid va) = true :=
    List.any_eq_true.2 ⟨e, List.mem_of_find?_eq_some hit,
      List.find?_some (p := fun x : TlbEntry => x.covers asid va) hit⟩
  have clean : (k.writes && !e.dirtyAt va) = false := by
    cases hk : k.writes
    · rfl
    · simp [hd hk]
  simp only [State.throughEntry, hf, held, clean, Bool.false_eq_true, if_false, if_true]

theorem cachedTranslation : CachedTranslation := by
  intro s c asid va k e hc hit
  exact ⟨fun f hf => (translateFor_of_hit hc hit).trans (throughEntry_of_fault hf),
    fun hf hd => (translateFor_of_hit hc hit).trans (throughEntry_of_held hit hf hd)⟩

theorem noncanonicalFaults : NoncanonicalFaults := by
  intro s c asid va k
  refine ⟨?_, fun hc => ?_⟩
  · simp only [canonical, bits, beq_eq_decide, Nat.reduceAdd, Nat.reduceSub, Nat.reducePow]
  · simp only [State.translateFor, State.translate, hc, Bool.not_false, if_true]
    rfl

/-! The checks of a leaf, in their order (R29, R143, R289, R11). -/

theorem leafFault_supervisor (k : Kind) (pa : Nat) {leaf : Nat} (hs : leaf.testBit 4 = true) :
    leafFault k false pa leaf = some fPermission := by
  simp [leafFault, bit_eq_testBit, hs]

theorem leafFault_kind (k : Kind) {resident : Bool} (pa : Nat) {leaf : Nat}
    (hs : (leaf.testBit 4 && !resident) = false)
    (hk : leafOrd leaf = 3 ∨ leafCp leaf = 3) : leafFault k resident pa leaf = some fPageKind := by
  simp [leafFault, bit_eq_testBit, hs, hk]

theorem inMmio_of_inHubWindow {pa : Nat} (h : inHubWindow pa = true) : inMmio pa = true := by
  simp only [inHubWindow, inMmio, Bool.and_eq_true, decide_eq_true_eq] at h ⊢
  exact ⟨h.1, h.2.trans_le (by decide)⟩

theorem rsRegister_of_not_mmio {pa : Nat} (hm : inMmio pa = false) : rsRegister pa = false := by
  have out : inHubWindow pa = false := by
    by_contra h
    simp [inMmio_of_inHubWindow (Bool.eq_true_of_not_eq_false h)] at hm
  simp [rsRegister, out, hm]

section
variable {k : Kind} {resident : Bool} {pa leaf : Nat} (hs : (leaf.testBit 4 && !resident) = false)
  (ho : leafOrd leaf ≠ 3) (hc : leafCp leaf ≠ 3)
include hs ho hc

/-- Of a page of memory: the write permission, then what the kind of the access asks for. -/
theorem leafFault_memory (hm : inMmio pa = false) : leafFault k resident pa leaf =
    if k.writes && !leaf.testBit 2 then some fPermission
    else if k == .draft && !leaf.testBit 3 then some fPermission
    else if k == .mwcas && (leafOrd leaf == 2 || leafSm leaf) then some fPageKind
    else if (k == .ldx || k == .stx) && !leafDsc leaf then some fFormat
    else if k == .future && leafOrd leaf == 2 then some fPageKind
    else none := by
  simp [leafFault, bit_eq_testBit, hs, ho, hc, hm, rsRegister_of_not_mmio hm]

/-- Of a page of an MMIO window that is not plain: its kind is refused. -/
theorem leafFault_mmio_kind (hm : inMmio pa = true)
    (hp : ¬(leafOrd leaf = 0 ∧ leafCp leaf = 2 ∧ leafDsc leaf = false ∧ leafSm leaf = false)) :
    leafFault k resident pa leaf = some fPageKind := by
  have kind : (leafOrd leaf == 0 && leafCp leaf == 2 && !leafDsc leaf && !leafSm leaf) = false := by
    by_contra h
    simp only [Bool.not_eq_false, Bool.and_eq_true, beq_iff_eq, Bool.not_eq_true'] at h
    obtain ⟨⟨⟨h1, h2⟩, h3⟩, h4⟩ := h
    exact hp ⟨h1, h2, h3, h4⟩
  simp [leafFault, bit_eq_testBit, hs, ho, hc, hm, kind]

end

/-- Of a plain page of an MMIO window: the write permission, the kinds that may not lie there, and the registers of
the resident graphs. -/
theorem leafFault_mmio {k : Kind} {resident : Bool} {pa leaf : Nat} (hs : (leaf.testBit 4 && !resident) = false)
    (hm : inMmio pa = true) (hp : leafOrd leaf = 0 ∧ leafCp leaf = 2 ∧ leafDsc leaf = false ∧ leafSm leaf = false) :
    leafFault k resident pa leaf =
    if k.writes && !leaf.testBit 2 then some fPermission
    else if k == .draft && !leaf.testBit 3 then some fPermission
    else if k == .ldx || k == .stx then some fFormat
    else if k.noMmio then some fPageKind
    else if !resident && rsRegister pa then some fPrivilege
    else none := by
  obtain ⟨ho, hc, hd, hsm⟩ := hp
  simp [leafFault, bit_eq_testBit, hs, ho, hc, hd, hsm, hm]

theorem leafChecks : LeafChecks := by
  intro k resident pa leaf rs
  refine ⟨fun h4 hr => hr ▸ leafFault_supervisor k pa h4, fun h => ?_⟩
  have hs : (leaf.testBit 4 && !resident) = false := by
    rcases h with h | h <;> simp [show leaf.testBit 4 = rs from rfl, h]
  refine ⟨leafFault_kind k pa hs, fun ho hc hm => ⟨fun hw hb => ?_, fun hw => ?_⟩,
    fun ho hc hm => ⟨leafFault_mmio_kind hs ho hc hm, fun hp => ⟨fun hw hb => ?_, fun hw => ?_⟩⟩⟩
  · simp [leafFault_memory hs ho hc hm, hw, hb]
    rfl
  · have may : (k.writes && !leaf.testBit 2) = false := by rcases hw with h | h <;> simp [h]
    rw [leafFault_memory hs ho hc hm, may]
    cases k
    case ldx | stx => cases hd : leafDsc leaf <;> simp [fFormat]
    case draft => cases hx : leaf.testBit 3 <;> simp [fPermission]
    all_goals simp [fPageKind]
  · simp [leafFault_mmio hs hm hp, hw, hb]
    rfl
  · have may : (k.writes && !leaf.testBit 2) = false := by rcases hw with h | h <;> simp [h]
    rw [leafFault_mmio hs hm hp, may]
    cases k <;> simp [fPageKind, fFormat, fPrivilege, Kind.noMmio]

/-- Settles O30: the parts above. -/
theorem translationResults : Obligations.TranslationResults :=
  ⟨cachedTranslation, noncanonicalFaults, leafChecks⟩

end Sys2Proof.Machine
end

section
/-! # Writes of the MMIO registers (O55) -/

namespace Sys2Proof.Machine
open Sys2Proof

/-! ## Where an MMIO address lies (R16, R421) -/

/-- The address at an offset above the hub's window of a module: the windows of the loom dies follow the hub's, 2^32
bytes each. -/
abbrev windowAt (m o : Nat) : Nat := m * 2 ^ 46 + 0x3FF000000000 + o

theorem localOf_window {m o : Nat} (ho : o < 0x900000000) : localOf (windowAt m o) = 0x3FF000000000 + o := by
  rw [windowAt, localOf]
  omega

theorem moduleOf_window {m o : Nat} (hm : m < 64) (ho : o < 0x900000000) : moduleOf (windowAt m o) = m := by
  rw [windowAt, moduleOf]
  omega

theorem inMmio_window {m o : Nat} (ho : o < 0x900000000) : inMmio (windowAt m o) = true := by
  rw [inMmio, localOf_window ho, hubWindow, mmioTop]
  simp only [Bool.and_eq_true, decide_eq_true_eq]
  omega

theorem inHubWindow_window {m o : Nat} (ho : o < 0x900000000) :
    inHubWindow (windowAt m o) = decide (o < 2 ^ 32) := by
  rw [inHubWindow, localOf_window ho, hubWindow, Bool.eq_iff_iff]
  simp only [Bool.and_eq_true, decide_eq_true_eq]
  omega

theorem mmioWindow_hub {m o : Nat} (ho : o < 2 ^ 32) : mmioWindow (windowAt m o) = (8, o) := by
  rw [mmioWindow, localOf_window (by omega), hubWindow, Nat.add_sub_cancel_left]
  exact if_pos ho

theorem mmioWindow_die {m d o : Nat} (hd : d < 8) (ho : o < 2 ^ 32) :
    mmioWindow (windowAt m ((d + 1) * 2 ^ 32 + o)) = (d, o) := by
  rw [mmioWindow, localOf_window (by omega), hubWindow, Nat.add_sub_cancel_left]
  have far : ¬(d + 1) * 2 ^ 32 + o < 2 ^ 32 := by omega
  have window : ((d + 1) * 2 ^ 32 + o) / 2 ^ 32 - 1 = d := by omega
  have offset : ((d + 1) * 2 ^ 32 + o) % 2 ^ 32 = o := by omega
  exact (if_neg far).trans (by rw [window, offset])

/-- The registers of the resident graphs and of hub firmware, by their offset in the windows (R11, R19, R88, R377,
R402, R420). -/
theorem rsRegister_window {m o : Nat} (ho : o < 0x900000000) : rsRegister (windowAt m o) = true ↔
    ((0x10000 ≤ o ∧ o < 0x10010) ∨ (0x50000 ≤ o ∧ o < 0x50010) ∨ (0x50100 ≤ o ∧ o < 0x50300) ∨
      (2 ^ 32 ≤ o ∧ ((0x1000 ≤ o % 2 ^ 32 ∧ o % 2 ^ 32 < 0x1008) ∨ (0x2000 ≤ o % 2 ^ 32 ∧ o % 2 ^ 32 < 0x2028)))) := by
  rw [rsRegister, inHubWindow_window ho, localOf_window ho, inMmio_window ho, hubWindow, Nat.add_sub_cancel_left]
  have offset : (0x3FF000000000 + o) % 2 ^ 32 = o % 2 ^ 32 := by omega
  rw [offset]
  by_cases h : o < 2 ^ 32
  · simp only [h, decide_true, if_true, Bool.or_eq_true, Bool.and_eq_true, decide_eq_true_eq]
    omega
  · simp only [h, decide_false, Bool.false_eq_true, if_false, Bool.true_and, Bool.or_eq_true, Bool.and_eq_true,
      decide_eq_true_eq]
    omega

/-! ## What reaches a register (R11, R401, R421) -/

theorem reaches_window {s : State} {agent : HostAgent} {o : Nat} (hm : s.hub.modnum < 64) (ho : o < 0x900000000) :
    s.reaches agent (windowAt s.hub.modnum o) = (agent != .pcie || decide (o < 2 ^ 32)) := by
  rw [State.reaches, inMmio_window ho, moduleOf_window hm ho, inHubWindow_window ho, beq_self_eq_true]
  rfl

theorem regWrite_of_register {s : State} {pa v w o : Nat} {rs : Bool} (hw : mmioWindow pa = (w, o)) (ha : pa % 8 = 0)
    (hr : rsRegister pa = true → rs = true) : s.regWrite pa 8 v rs = if w = 8 then s.hubSet o v else s.dieSet w o v := by
  have acts : ¬(8 != 8 || pa % 8 != 0 || (!rs && rsRegister pa)) = true := by
    cases h : rsRegister pa
    · simp [ha]
    · simp [ha, hr h]
  rw [State.regWrite, if_neg acts, hw]

theorem mmioWrite_hub {s : State} {m o v : Nat} {rs : Bool} (ho : o < 2 ^ 32) (ha : o % 8 = 0)
    (hr : rsRegister (windowAt m o) = true → rs = true) :
    s.mmioWrite (windowAt m o) 8 v rs = s.hubSet o v := by
  have align : windowAt m o % 8 = 0 := by
    rw [windowAt]
    omega
  have window := mmioWindow_hub (m := m) ho
  generalize windowAt m o = pa at hr align window ⊢
  rw [State.mmioWrite_eq, regWrite_of_register window align hr, window, if_pos rfl, if_neg (by simp)]

theorem mmioWrite_die {s : State} {m d o v : Nat} {rs : Bool} (hd : d < 8) (ho : o < 2 ^ 32) (ha : o % 8 = 0)
    (hr : rsRegister (windowAt m ((d + 1) * 2 ^ 32 + o)) = true → rs = true) (hf : o ≠ 0x2018) :
    s.mmioWrite (windowAt m ((d + 1) * 2 ^ 32 + o)) 8 v rs = s.dieSet d o v := by
  have align : windowAt m ((d + 1) * 2 ^ 32 + o) % 8 = 0 := by
    rw [windowAt]
    omega
  have window := mmioWindow_die (m := m) hd ho
  generalize windowAt m ((d + 1) * 2 ^ 32 + o) = pa at hr align window ⊢
  rw [State.mmioWrite_eq, regWrite_of_register window align hr, window, if_neg (by simp [hf]), if_neg (by omega)]

/-- The event of a register write, where its agent reaches the hub's register. -/
theorem exec_mmioRegisterWrite_hub {s : State} {o v : Nat} {agent : HostAgent} (hm : s.hub.modnum < 64)
    (ho : o < 2 ^ 32) (ha : o % 8 = 0) (hr : rsRegister (windowAt s.hub.modnum o) = true → agent = .firmware) :
    exec (.mmioRegisterWrite (windowAt s.hub.modnum o) 8 ⟨v, agent⟩) s = .next (s.hubSet o v) := by
  have reached : s.reaches agent (windowAt s.hub.modnum o) = true := by
    rw [reaches_window hm (by omega), decide_eq_true ho, Bool.or_true]
  show execMmioRegisterWrite _ 8 ⟨v, agent⟩ s = _
  rw [execMmioRegisterWrite, if_pos reached, mmioWrite_hub ho ha fun h => beq_iff_eq.2 (hr h)]

/-- The same for a register of a loom die, which an agent behind the PCIe port does not reach; an action on a fault
record (FQACT) apart. -/
theorem exec_mmioRegisterWrite_die {s : State} {d o v : Nat} {agent : HostAgent} (hm : s.hub.modnum < 64) (hd : d < 8)
    (ho : o < 2 ^ 32) (ha : o % 8 = 0)
    (hr : rsRegister (windowAt s.hub.modnum ((d + 1) * 2 ^ 32 + o)) = true → agent = .firmware)
    (hp : agent ≠ .pcie) (hf : o ≠ 0x2018) :
    exec (.mmioRegisterWrite (windowAt s.hub.modnum ((d + 1) * 2 ^ 32 + o)) 8 ⟨v, agent⟩) s =
      .next (s.dieSet d o v) := by
  have reached : s.reaches agent (windowAt s.hub.modnum ((d + 1) * 2 ^ 32 + o)) = true := by
    rw [reaches_window hm (by omega), bne_iff_ne.2 hp, Bool.true_or]
  show execMmioRegisterWrite _ 8 ⟨v, agent⟩ s = _
  rw [execMmioRegisterWrite, if_pos reached, mmioWrite_die hd ho ha (fun h => beq_iff_eq.2 (hr h)) hf]

/-! What a write of each register of the hub does (R421). -/
section
variable (s : State) (v : Nat)

theorem hubSet_asid :
    s.hubSet 0x10000 v = { s with hub := { s.hub with asidBase := bits v 51 19, asidEn := bit v 0 } } := rfl
theorem hubSet_migpush : s.hubSet 0x20000 v = s.migpushSet v := rfl
theorem hubSet_migfree : s.hubSet 0x20008 v = s.migfreeSet v := rfl
theorem hubSet_migctl : s.hubSet 0x20010 v = s.migctlSet v := rfl
theorem hubSet_migevq : s.hubSet 0x20018 v = s.migevqSet v := rfl
theorem hubSet_mighbase : s.hubSet 0x20028 v = s.mighbaseSet v := by
  rw [State.hubSet, if_neg (by decide), if_neg (by decide)]
theorem hubSet_migevc : s.hubSet 0x20038 v = s.migevcSet v := rfl
theorem hubSet_pwrcap : s.hubSet 0x40000 v = s.pwrcapSet v := rfl
theorem hubSet_dommask : s.hubSet 0x50000 v = { s with hub := { s.hub with dommask := v % 2 ^ 64 } } := rfl
theorem hubSet_hubflt : s.hubSet 0x50008 v = s.hubfltSet v := rfl

theorem hubSet_queue {a : Nat} (ha : 0x30000 ≤ a ∧ a < 0x30800) :
    (a % 0x20 = 0 → s.hubSet a v = s.qpushSet ((a - 0x30000) / 0x20) v) ∧
      (a % 0x20 = 8 → s.hubSet a v = s.qctlSet ((a - 0x30000) / 0x20) v) := by
  have grades : ¬(0x50100 ≤ a && a < 0x50300) = true := by
    simp only [Bool.and_eq_true, decide_eq_true_eq]; omega
  have queues : (0x30000 ≤ a && a < 0x30800) = true := by
    simp only [Bool.and_eq_true, decide_eq_true_eq]; exact ha
  unfold State.hubSet
  rw [if_neg grades, if_pos queues]
  exact ⟨fun offset => by simp only [offset], fun offset => by simp only [offset]⟩

theorem hubSet_qpush {q : Nat} (hq : q < 64) : s.hubSet (0x30000 + 0x20 * q) v = s.qpushSet q v := by
  rw [(hubSet_queue s v (by omega)).1 (by omega), show (0x30000 + 0x20 * q - 0x30000) / 0x20 = q by omega]

theorem hubSet_qctl {q : Nat} (hq : q < 64) : s.hubSet (0x30008 + 0x20 * q) v = s.qctlSet q v := by
  rw [(hubSet_queue s v (by omega)).2 (by omega), show (0x30008 + 0x20 * q - 0x30000) / 0x20 = q by omega]

end

theorem boolBit_bit (v i : Nat) : boolBit (bit v i) i = v / 2 ^ i % 2 * 2 ^ i := by
  rw [boolBit, bit]
  rcases Nat.mod_two_eq_zero_or_one (v / 2 ^ i) with h | h <;> simp [h]

/-! The registers of the migration engine (R56). -/
section
variable (s : State)

theorem hubReg_migpush : s.hubReg 0x20000 = s.mig.push := rfl
theorem hubReg_migctl :
    s.hubReg 0x20010 = boolBit s.mig.irqen 49 + boolBit s.mig.en 48 + s.mig.high * 2 ^ 24 + s.mig.low := rfl

end

section
variable (s : State) (v : Nat)

theorem migctlSet_reads : (s.migctlSet v).hubReg 0x20010 = v % 2 ^ 50 := by
  rw [hubReg_migctl]
  show boolBit (bit v 49) 49 + boolBit (bit v 48) 48 + bits v 47 24 * 2 ^ 24 + bits v 23 0 = _
  simp only [boolBit_bit, bits]
  omega

theorem migevqSet_eq (hv : v < 2 ^ 64) :
    s.migevqSet v = { s with mig := { s.mig with evq := v / 16 * 16, evp := 0, evc := 0 } } := by
  rw [State.migevqSet, show bits v 63 4 = v / 16 by rw [bits]; omega]

/-- MIGHBASE takes an address of this module's LPDDR 6 while EN is clear (R49). -/
theorem mighbaseSet_eq {a : Nat} (ha : bits v 51 21 * 2 ^ 21 = a) (he : s.mig.en = false) : s.mighbaseSet v =
    if moduleOf a ≠ s.hub.modnum ∨ localOf a < lpBase ∨ lpDs s.hub.grade < localOf a then
      { s with mig := { s.mig with badf := true } }
    else { s with mig := { s.mig with hbase := a } } := by
  subst ha
  simp only [State.mighbaseSet, he, Bool.or_eq_true, bne_iff_ne, ne_eq, decide_eq_true_eq, or_assoc,
    Bool.false_eq_true, if_false]

theorem placementOf_device {pa : Nat} (hp : lpBase ≤ localOf pa) :
    s.placementOf pa = 1 ↔ localOf pa < localOf s.mig.hbase := by
  rw [State.placementOf, if_neg (by omega)]
  split <;> simp [*]

/-- What a submission leaves in the state (R50). -/
theorem migpushSet_room {p : Nat} (hp : bits v 51 5 * 32 = p)
    (hr : (s.mig.requests.filter (!·.eviction)).length < 1024) :
    ∃ r, (s.migpushSet v).mig = { s.mig with push := p, requests := s.mig.requests ++ [r] } ∧
      (r.block, r.phase, r.eviction) = (p, 0, false) := by
  subst hp
  rw [State.migpushSet, if_neg (by simpa using hr)]
  exact ⟨_, rfl, rfl⟩

theorem migpushSet_full (hr : 1024 ≤ (s.mig.requests.filter (!·.eviction)).length) :
    (s.migpushSet v).mig = { s.mig with push := bits v 51 5 * 32, ovf := true } := by
  rw [State.migpushSet, if_pos (by simpa using hr)]

end

/-! Free frames (R49, R56, R57). -/

/-- The free lists of frames of a size, by placement. -/
def Mig.freeList (m : Mig) (huge : Bool) : List (List Nat) := if huge then m.free2m else m.free4k

theorem getD_modifyAt {α : Type} (xs : List α) (i j : Nat) (f : α → α) (d : α) (hi : i < xs.length) :
    (modifyAt xs i f).getD j d = if j = i then f (xs.getD j d) else xs.getD j d := by
  rw [modifyAt, getD_modify]
  by_cases h : j = i
  · subst h
    simp [hi]
  · simp [h, Ne.symm h]

section
variable {s : State} {pa : Nat} {huge : Bool}

theorem pushFrame_refused
    (h : pa % (if huge then 2 ^ 21 else 4096) ≠ 0 ∨ s.frameOk pa (if huge then 2 ^ 21 else 4096) = false ∨
      ¬((s.mig.freeList huge).getD (s.placementOf pa) []).length < if huge then 4096 else 65536) :
    s.pushFrame pa huge = { s with mig := { s.mig with badf := true } } := by
  rw [State.pushFrame]
  dsimp only
  cases huge
  all_goals
    refine if_pos ?_
    simp only [Mig.freeList, if_true, if_false, Bool.false_eq_true] at h
    simp only [if_true, if_false, Bool.or_eq_true, bne_iff_ne, Bool.not_eq_true', decide_eq_false_iff_not,
      Bool.false_eq_true, or_assoc]
    exact h

theorem pushFrame_joins (ha : pa % (if huge then 2 ^ 21 else 4096) = 0)
    (hf : s.frameOk pa (if huge then 2 ^ 21 else 4096) = true)
    (hr : ((s.mig.freeList huge).getD (s.placementOf pa) []).length < if huge then 4096 else 65536) :
    (s.pushFrame pa huge).mig.freeList huge = modifyAt (s.mig.freeList huge) (s.placementOf pa) (· ++ [pa]) ∧
      (s.pushFrame pa huge).mig.badf = s.mig.badf := by
  rw [State.pushFrame]
  dsimp only
  cases huge
  all_goals
    simp only [Mig.freeList, if_true, if_false, Bool.false_eq_true] at ha hf hr ⊢
    simp only [ha, hf, hr, bne_self_eq_false, Bool.not_true, decide_true, Bool.or_self, Bool.false_eq_true, if_false,
      and_self]

theorem placementOf_lt (s : State) (pa : Nat) : s.placementOf pa < 3 := by
  rw [State.placementOf]
  split
  · simp
  split <;> simp

end

/-- MIGFREE (R56, R57), by the size of the frame. -/
theorem migfree_returns {s : State} {v pa : Nat} {huge : Bool} (hp : bits v 51 12 * 4096 = pa) (hh : bit v 0 = huge)
    (ha : pa % (if huge then 2 ^ 21 else 4096) = 0) (hf : s.frameOk pa (if huge then 2 ^ 21 else 4096) = true)
    (hr : ((s.mig.freeList huge).getD (s.placementOf pa) []).length < if huge then 4096 else 65536)
    (hl : (s.mig.freeList huge).length = 3) :
    Completes (.migfree v) s fun u =>
      (u.mig.freeList huge).getD (s.placementOf pa) [] = (s.mig.freeList huge).getD (s.placementOf pa) [] ++ [pa] ∧
      u.mig.badf = s.mig.badf ∧
      ∀ k, k ≠ s.placementOf pa → (u.mig.freeList huge).getD k [] = (s.mig.freeList huge).getD k [] := by
  subst hp hh
  obtain ⟨list, badf⟩ := pushFrame_joins (s := { s with mig := { s.mig with free := bits v 51 12 * 4096 + v % 2 } })
    ha hf hr
  refine ⟨_, rfl, ?_, badf, fun k hk => ?_⟩
  all_goals
    rw [State.migfreeSet, list]
    refine (getD_modifyAt _ _ _ _ _ (hl ▸ placementOf_lt s _)).trans ?_
  · exact if_pos rfl
  · exact if_neg hk

theorem migfree_refused {s : State} {v pa : Nat} {huge : Bool} (hp : bits v 51 12 * 4096 = pa) (hh : bit v 0 = huge)
    (h : pa % (if huge then 2 ^ 21 else 4096) ≠ 0 ∨ s.frameOk pa (if huge then 2 ^ 21 else 4096) = false ∨
      ¬((s.mig.freeList huge).getD (s.placementOf pa) []).length < if huge then 4096 else 65536) :
    Completes (.migfree v) s fun u =>
      u.mig.badf = true ∧ (u.mig.free4k, u.mig.free2m) = (s.mig.free4k, s.mig.free2m) := by
  subst hp hh
  have refused := pushFrame_refused (s := { s with mig := { s.mig with free := bits v 51 12 * 4096 + v % 2 } }) h
  refine ⟨_, rfl, ?_⟩
  rw [State.migfreeSet, refused]
  exact ⟨rfl, rfl⟩

theorem migrationRegisters : MigrationRegisters := by
  intro s v hv
  have block : bits v 51 5 * 32 = v / 32 % 2 ^ 47 * 32 := by simp [bits]
  have base : bits v 51 21 * 2 ^ 21 = v / 2 ^ 21 % 2 ^ 31 * 2 ^ 21 := by rw [bits]
  have frame : bits v 51 12 * 4096 = v / 2 ^ 12 % 2 ^ 40 * 4096 := by rw [bits]
  refine ⟨?_, ?_, ⟨_, rfl, rfl, rfl⟩, ⟨fun he => ?_, fun he h1 h2 h3 => ?_, fun he h => ?_⟩,
    ⟨fun hr => ?_, fun hr => ?_⟩, migfree_returns frame (bit_eq_testBit v 0),
    migfree_refused frame (bit_eq_testBit v 0)⟩
  · exact ⟨_, rfl, rfl, migctlSet_reads s v, by simp [State.migctlSet, bits], bit_eq_testBit v 48,
      bit_eq_testBit v 49, rfl, rfl⟩
  · exact ⟨_, rfl, migevqSet_eq s v hv, by rw [migevqSet_eq s v hv]; rfl, rfl, rfl⟩
  · show Host.Outcome.next (s.mighbaseSet v) = _
    rw [State.mighbaseSet, if_pos he]
  · have written := mighbaseSet_eq s v base he
    rw [if_neg (by rw [lpBase]; omega)] at written
    refine ⟨_, rfl, written, by rw [written]; rfl, fun pa hpa => ?_⟩
    rw [placementOf_device _ hpa, written]
  · exact ⟨_, rfl, (mighbaseSet_eq s v base he).trans (if_pos h)⟩
  · obtain ⟨r, written, hr⟩ := migpushSet_room s v block hr
    refine ⟨_, rfl, r, by rw [written], hr, ?_, by rw [written]⟩
    rw [hubReg_migpush, written]
  · refine ⟨s.migpushSet v, rfl, ?_⟩
    dsimp only
    rw [migpushSet_full s v hr]
    exact ⟨rfl, rfl⟩

/-! The launch queues (R351, R352). -/

theorem rehead_eq (k n : LQueue) (now : Nat) : ∃ h, k.rehead n now = { n with headSince := h } := by
  rw [LQueue.rehead]
  split
  · exact ⟨n.headSince, rfl⟩
  · exact ⟨now, rfl⟩

/-- A queue after a write of its QPUSH. -/
def LQueue.push (k : LQueue) (a now : Nat) : LQueue :=
  if k.pushed.length ≥ 256 then { k with addr := a, ovf := true }
  else { k with addr := a }.rehead { k with addr := a, pushed := k.pushed ++ [a] } now

theorem qpushSet_lqueues (s : State) (q v : Nat) :
    (s.qpushSet q v).lqueues = modifyAt s.lqueues q fun k => k.push (bits v 51 8 * 256) s.time := rfl

theorem qpush_others {s : State} {q v j : Nat} (hq : q < s.lqueues.length) (hj : j ≠ q) :
    Completes (.qpush q v) s fun u => u.lqueues.getD j LQueue.reset = s.lqueues.getD j LQueue.reset := by
  refine ⟨s.qpushSet q v, rfl, ?_⟩
  dsimp only
  rw [qpushSet_lqueues, getD_modifyAt _ _ _ _ _ hq, if_neg hj]

theorem qpush_same {s : State} {q v : Nat} (hq : q < s.lqueues.length) :
    Completes (.qpush q v) s fun u => u.sched.owed = true ∧
      u.lqueues.getD q LQueue.reset = (s.lqueues.getD q LQueue.reset).push (v / 2 ^ 8 % 2 ^ 44 * 256) s.time := by
  refine ⟨s.qpushSet q v, rfl, rfl, ?_⟩
  rw [qpushSet_lqueues, getD_modifyAt _ _ _ _ _ hq, if_pos rfl, bits]

theorem qpush_room {s : State} {q v : Nat} (hq : q < s.lqueues.length)
    (hr : (s.lqueues.getD q LQueue.reset).pushed.length < 256) :
    Completes (.qpush q v) s fun u => u.sched.owed = true ∧ ∃ h, u.lqueues.getD q LQueue.reset =
      { s.lqueues.getD q LQueue.reset with
        addr := v / 2 ^ 8 % 2 ^ 44 * 256
        pushed := (s.lqueues.getD q LQueue.reset).pushed ++ [v / 2 ^ 8 % 2 ^ 44 * 256], headSince := h } := by
  obtain ⟨u, ran, owed, written⟩ := qpush_same (v := v) hq
  rw [LQueue.push, if_neg (by omega)] at written
  obtain ⟨h, headed⟩ := rehead_eq _ _ _
  exact ⟨u, ran, owed, h, written.trans headed⟩

theorem qpush_full {s : State} {q v : Nat} (hq : q < s.lqueues.length)
    (hr : 256 ≤ (s.lqueues.getD q LQueue.reset).pushed.length) :
    Completes (.qpush q v) s fun u => u.lqueues.getD q LQueue.reset =
      { s.lqueues.getD q LQueue.reset with addr := v / 2 ^ 8 % 2 ^ 44 * 256, ovf := true } := by
  obtain ⟨u, ran, -, written⟩ := qpush_same (v := v) hq
  rw [LQueue.push, if_pos hr] at written
  exact ⟨u, ran, written⟩

/-! The registers of a loom die (R88, R377). -/

theorem die_setDie_other (s : State) {d j : Nat} (f : Die → Die) (hj : j ≠ d) : (s.setDie d f).die j = s.die j := by
  rw [State.die, State.setDie, modifyAt, getD_modify, if_neg fun h => hj h.1.symm]
  rfl

section
variable (s : State) (d : Nat)

theorem dieReg_serrcnt : s.dieReg d 0x1000 = (s.die d).uncorr * 2 ^ 32 + (s.die d).corr := rfl
theorem dieReg_fqbase : s.dieReg d 0x2000 = (s.die d).fqbase := rfl
theorem dieReg_fqcons : s.dieReg d 0x2010 = (s.die d).fqcons := rfl
theorem dieReg_colpush0 : s.dieReg d 0x3000 = (s.die d).colpush.getD 0 0 := rfl
theorem dieReg_colpush1 : s.dieReg d 0x3008 = (s.die d).colpush.getD 1 0 := rfl

end

theorem fqbase_bits {v : Nat} (hv : v < 2 ^ 64) : setBits (v % 2 ^ 64) 5 1 0 = v / 64 * 64 + v % 2 := by
  simp only [setBits, bits]
  omega

theorem serrcntWrite_completes {s : State} {d : Nat} (v : Nat) (hd : d < s.dies.length) :
    Completes (.serrcntWrite d v) s fun u =>
      u = { s with dies := u.dies } ∧ (∀ j, j ≠ d → u.die j = s.die j) ∧
      u.die d = { s.die d with corr := if v % 2 ^ 32 = 0 then 0 else (s.die d).corr
                               uncorr := if v / 2 ^ 32 % 2 ^ 16 = 0 then 0 else (s.die d).uncorr } ∧
      u.dieReg d 0x1000 = (u.die d).uncorr * 2 ^ 32 + (u.die d).corr := by
  refine ⟨s.serrcntSet d v, rfl, rfl, fun j hj => die_setDie_other s _ hj, ?_, dieReg_serrcnt _ _⟩
  have low : bits v 31 0 = v % 2 ^ 32 := by simp [bits]
  rw [State.serrcntSet, State.die_setDie s d _ hd, low]
  rfl

theorem fqbaseWrite_completes {s : State} {d v : Nat} (hv : v < 2 ^ 64) (hd : d < s.dies.length) :
    Completes (.fqbaseWrite d v) s fun u =>
      u = { s with dies := u.dies } ∧ (∀ j, j ≠ d → u.die j = s.die j) ∧
      u.die d = { s.die d with fqbase := v / 64 * 64 + v % 2 } ∧ u.dieReg d 0x2000 = v / 64 * 64 + v % 2 := by
  have written : (s.fqbaseSet d v).die d = { s.die d with fqbase := v / 64 * 64 + v % 2 } := by
    rw [State.fqbaseSet, State.die_setDie s d _ hd, fqbase_bits hv]
  refine ⟨s.fqbaseSet d v, rfl, rfl, fun j hj => die_setDie_other s _ hj, written, ?_⟩
  rw [dieReg_fqbase, written]

theorem fqconsWrite_completes {s : State} {d : Nat} (v : Nat) (hd : d < s.dies.length) :
    Completes (.fqconsWrite d v) s fun u =>
      u = { s with dies := u.dies } ∧ (∀ j, j ≠ d → u.die j = s.die j) ∧
      u.die d = { s.die d with fqcons := v % 2 ^ 32 } ∧ u.dieReg d 0x2010 = v % 2 ^ 32 := by
  have written : (s.fqconsSet d v).die d = { s.die d with fqcons := v % 2 ^ 32 } := State.die_setDie s d _ hd
  refine ⟨s.fqconsSet d v, rfl, rfl, fun j hj => die_setDie_other s _ hj, written, ?_⟩
  rw [dieReg_fqcons, written]

theorem modnumSet_first {s : State} {v : Nat} (h : s.hub.modWritten = false) :
    s.modnumSet v = { s with hub := { s.hub with modnum := v % 64, modWritten := true } } := by
  rw [State.modnumSet, if_neg (by simp [h])]

theorem modnumSet_again {s : State} {v : Nat} (h : s.hub.modWritten = true) : s.modnumSet v = s := by
  rw [State.modnumSet, if_pos h]

theorem moduleRegisters : ModuleRegisters := by
  intro s v hv
  refine ⟨fun q hq => ⟨fun j hj => qpush_others hq hj, qpush_room hq, qpush_full hq⟩, ⟨_, rfl, rfl, rfl⟩,
    fun h => ⟨_, rfl, modnumSet_first h, ?_⟩, fun h => congrArg _ (modnumSet_again h),
    fun d hd => ⟨serrcntWrite_completes v hd, fqbaseWrite_completes hv hd, fqconsWrite_completes v hd⟩⟩
  rw [modnumSet_first h]
  rfl

/-! Stores of the hub's side to the windows (R11, R16, R401, R402, R421). -/

theorem reaches_iff {s : State} {agent : HostAgent} {pa : Nat} : s.reaches agent pa = true ↔
    inMmio pa = true ∧ moduleOf pa = s.hub.modnum ∧
      (agent = .pcie → 0x3FF000000000 ≤ pa % 2 ^ 46 ∧ pa % 2 ^ 46 < 0x3FF100000000) := by
  have window : inHubWindow pa = true ↔ 0x3FF000000000 ≤ pa % 2 ^ 46 ∧ pa % 2 ^ 46 < 0x3FF100000000 := by
    rw [inHubWindow, Bool.and_eq_true, decide_eq_true_eq, decide_eq_true_eq]
    exact Iff.rfl
  rw [State.reaches, Bool.and_eq_true, Bool.and_eq_true, Bool.or_eq_true, beq_iff_eq, bne_iff_ne, window, and_assoc,
    ne_eq, ← imp_iff_not_or]

theorem regWrite_refused {s : State} {pa n v : Nat} {rs : Bool}
    (h : n ≠ 8 ∨ pa % 8 ≠ 0 ∨ (rsRegister pa = true ∧ rs = false)) :
    s.regWrite pa n v rs = s := by
  rw [State.regWrite, if_pos]
  simp only [Bool.or_eq_true, bne_iff_ne, Bool.and_eq_true, Bool.not_eq_true', or_assoc]
  exact h.imp_right fun h => h.imp_right And.symm

/-- The offset of a misaligned address in its window is no register's. -/
theorem mmioWindow_offset_mod {pa : Nat} (hm : inMmio pa = true) : (mmioWindow pa).2 % 8 = pa % 8 := by
  have above : 0x3FF000000000 ≤ localOf pa := by
    rw [inMmio, Bool.and_eq_true, decide_eq_true_eq] at hm
    exact hm.1
  have offset : (localOf pa - 0x3FF000000000) % 8 = pa % 8 := by
    rw [localOf] at above ⊢
    omega
  rw [mmioWindow, hubWindow]
  split <;> dsimp only <;> omega

theorem mmioWrite_refused {s : State} {pa n v : Nat} {rs : Bool} (hm : inMmio pa = true)
    (h : n ≠ 8 ∨ pa % 8 ≠ 0 ∨ (rsRegister pa = true ∧ rs = false)) : s.mmioWrite pa n v rs = s := by
  have offset := mmioWindow_offset_mod hm
  rw [State.mmioWrite_eq, regWrite_refused h, if_neg]
  generalize mmioWindow pa = x at offset
  simp only [Bool.and_eq_true, beq_iff_eq, decide_eq_true_eq]
  rintro ⟨⟨⟨rfl, rfl⟩, -⟩, action⟩
  rcases h with h | h | ⟨-, h⟩
  · exact h rfl
  · omega
  · cases h

theorem mmioRegisterWrite_refused {s : State} {pa n v : Nat} {agent : HostAgent}
    (h : n ≠ 8 ∨ pa % 8 ≠ 0 ∨ s.reaches agent pa = false ∨ (rsRegister pa = true ∧ agent ≠ .firmware)) :
    exec (.mmioRegisterWrite pa n ⟨v, agent⟩) s = .next s := by
  show execMmioRegisterWrite pa n ⟨v, agent⟩ s = _
  rw [execMmioRegisterWrite]
  by_cases reached : s.reaches agent pa = true
  · rw [if_pos reached, mmioWrite_refused (reaches_iff.1 reached).1]
    rcases h with h | h | h | ⟨h, f⟩
    · exact .inl h
    · exact .inr (.inl h)
    · rw [reached] at h
      cases h
    · exact .inr (.inr ⟨h, beq_eq_false_iff_ne.2 f⟩)
  · rw [if_neg reached]

/-- A register that every agent of the hub's side may write. -/
theorem exec_mmioRegisterWrite_open {s : State} {o v : Nat} {agent : HostAgent} (hm : s.hub.modnum < 64)
    (ha : o % 8 = 0) (ho : 0x10010 ≤ o ∧ o < 0x50000) :
    exec (.mmioRegisterWrite (windowAt s.hub.modnum o) 8 ⟨v, agent⟩) s = .next (s.hubSet o v) :=
  exec_mmioRegisterWrite_hub hm (by omega) ha fun h => by
    have := (rsRegister_window (m := s.hub.modnum) (o := o) (by omega)).1 h
    omega

theorem exec_mmioRegisterWrite_event {s : State} {o v : Nat} {i : Instr} {agent : HostAgent} (hm : s.hub.modnum < 64)
    (h : (o, i) ∈ [(0x20000, Instr.migpush v), (0x20008, .migfree v), (0x20010, .migctlWrite v),
      (0x20018, .migevqWrite v), (0x20028, .mighbaseWrite v), (0x20038, .migevcWrite v),
      (0x40000, .pwrcapWrite v)]) :
    exec (.mmioRegisterWrite (windowAt s.hub.modnum o) 8 ⟨v, agent⟩) s = exec i s := by
  have event : o % 8 = 0 ∧ (0x10010 ≤ o ∧ o < 0x50000) ∧ exec i s = .next (s.hubSet o v) := by
    simp only [List.mem_cons, Prod.mk.injEq, List.not_mem_nil, or_false] at h
    rcases h with ⟨rfl, rfl⟩ | ⟨rfl, rfl⟩ | ⟨rfl, rfl⟩ | ⟨rfl, rfl⟩ | ⟨rfl, rfl⟩ | ⟨rfl, rfl⟩ | ⟨rfl, rfl⟩
    · exact ⟨rfl, by decide, congrArg Host.Outcome.next (hubSet_migpush s v).symm⟩
    · exact ⟨rfl, by decide, congrArg Host.Outcome.next (hubSet_migfree s v).symm⟩
    · exact ⟨rfl, by decide, congrArg Host.Outcome.next (hubSet_migctl s v).symm⟩
    · exact ⟨rfl, by decide, congrArg Host.Outcome.next (hubSet_migevq s v).symm⟩
    · exact ⟨rfl, by decide, congrArg Host.Outcome.next (hubSet_mighbase s v).symm⟩
    · exact ⟨rfl, by decide, congrArg Host.Outcome.next (hubSet_migevc s v).symm⟩
    · exact ⟨rfl, by decide, congrArg Host.Outcome.next (hubSet_pwrcap s v).symm⟩
  obtain ⟨ha, ho, he⟩ := event
  rw [exec_mmioRegisterWrite_open hm ha ho, he]

theorem exec_mmioRegisterWrite_qpush {s : State} {q v : Nat} {agent : HostAgent} (hm : s.hub.modnum < 64)
    (hq : q < 64) :
    exec (.mmioRegisterWrite (windowAt s.hub.modnum (0x30000 + 0x20 * q)) 8 ⟨v, agent⟩) s = exec (.qpush q v) s := by
  rw [exec_mmioRegisterWrite_open hm (by omega) (by omega), hubSet_qpush s v hq]
  rfl

theorem queueReg_qctlSet {s : State} {q v : Nat} (hq : q < s.lqueues.length) (hv : v < 2 ^ 34) :
    (s.qctlSet q v).queueReg q 8 = v := by
  have written : (s.qctlSet q v).lqueue q =
      { s.lqueue q with irqen := bit v 33, en := bit v 32, quantum := v % 2 ^ 32 } :=
    (getD_modifyAt s.lqueues q q _ LQueue.reset hq).trans (if_pos rfl)
  show boolBit ((s.qctlSet q v).lqueue q).irqen 33 + boolBit ((s.qctlSet q v).lqueue q).en 32 +
    ((s.qctlSet q v).lqueue q).quantum = v
  rw [written]
  dsimp only
  rw [boolBit_bit, boolBit_bit]
  omega

theorem mmioRegisterWrite_qctl {s : State} {q v : Nat} {agent : HostAgent} (hm : s.hub.modnum < 64) (hq : q < 64)
    (hl : q < s.lqueues.length) (hv : v < 2 ^ 34) :
    Completes (.mmioRegisterWrite (windowAt s.hub.modnum (0x30008 + 0x20 * q)) 8 ⟨v, agent⟩) s fun u =>
      u.queueReg q 8 = v := by
  refine ⟨s.qctlSet q v, ?_, queueReg_qctlSet hl hv⟩
  rw [exec_mmioRegisterWrite_open hm (by omega) (by omega), hubSet_qctl s v hq]

theorem hubReg_grade {s : State} {k : Nat} (hk : k < 64) (hm : k ≠ s.hub.modnum) :
    s.hubReg (0x50100 + 8 * k) = s.hub.domgrade.getD k 0 := by
  have enum : ¬(0x100000 ≤ 0x50100 + 8 * k && 0x50100 + 8 * k < 0x102500) = true := by
    simp only [Bool.and_eq_true, decide_eq_true_eq]; omega
  have grades : (0x50100 ≤ 0x50100 + 8 * k && 0x50100 + 8 * k < 0x50300) = true := by
    simp only [Bool.and_eq_true, decide_eq_true_eq]; omega
  have module : (0x50100 + 8 * k - 0x50100) / 8 = k := by omega
  generalize 0x50100 + 8 * k = a at enum grades module
  unfold State.hubReg
  rw [if_neg enum, if_pos grades, module]
  exact if_neg hm

theorem hubSet_grade {s : State} {k v : Nat} (hk : k < 64) :
    s.hubSet (0x50100 + 8 * k) v = { s with hub := { s.hub with domgrade := s.hub.domgrade.set k (v % 256) } } := by
  have grades : (0x50100 ≤ 0x50100 + 8 * k && 0x50100 + 8 * k < 0x50300) = true := by
    simp only [Bool.and_eq_true, decide_eq_true_eq]; omega
  have module : (0x50100 + 8 * k - 0x50100) / 8 = k := by omega
  generalize 0x50100 + 8 * k = a at grades module
  unfold State.hubSet
  rw [if_pos grades, module]

theorem mmioRegisterWrite_grade {s : State} {k v : Nat} (hm : s.hub.modnum < 64) (hk : k < 64) (ho : k ≠ s.hub.modnum)
    (hl : k < s.hub.domgrade.length) :
    Completes (.mmioRegisterWrite (windowAt s.hub.modnum (0x50100 + 8 * k)) 8 ⟨v, .firmware⟩) s fun u =>
      u.hubReg (0x50100 + 8 * k) = v % 256 := by
  have read := hubReg_grade (s := { s with hub := { s.hub with domgrade := s.hub.domgrade.set k (v % 256) } }) hk ho
  refine ⟨_, ?_, read.trans (by simp [hl])⟩
  rw [exec_mmioRegisterWrite_hub hm (by omega) (by omega) fun _ => rfl, hubSet_grade hk]

section
variable (s : State) (d v : Nat)

theorem dieSet_badact : s.dieSet d 0x2028 v = s.setDie d fun k => { k with badact := k.badact && !bit v 1 } := rfl
theorem dieSet_fqdoor : s.dieSet d 0x2020 v = s.setDie d fun k => { k with fqdoor := bits v 51 3 * 8 } := rfl
theorem dieSet_colpush0 : s.dieSet d 0x3000 v = s.setDie d fun k => { k with colpush := k.colpush.set 0 v } := rfl
theorem dieSet_colpush1 : s.dieSet d 0x3008 v = s.setDie d fun k => { k with colpush := k.colpush.set 1 v } := rfl

end

theorem exec_mmioRegisterWrite_firmware {s : State} {v o : Nat} (hm : s.hub.modnum < 64) (ho : o < 2 ^ 32)
    (ha : o % 8 = 0) :
    exec (.mmioRegisterWrite (windowAt s.hub.modnum o) 8 ⟨v, .firmware⟩) s = .next (s.hubSet o v) :=
  exec_mmioRegisterWrite_hub hm ho ha fun _ => rfl

theorem hubSet_asid_eq (s : State) (v : Nat) : s.hubSet 0x10000 v =
    { s with hub := { s.hub with asidBase := v / 2 ^ 19 % 2 ^ 33, asidEn := v.testBit 0 } } := by
  rw [hubSet_asid, bits, bit_eq_testBit]

theorem hubSet_hubflt_eq (s : State) (v : Nat) : s.hubSet 0x50008 v = { s with hub := { s.hub with
      norec := if v / 2 ^ 32 % 2 ^ 16 = 0 then 0 else s.hub.norec
      uepkt := if v % 2 ^ 32 = 0 then 0 else s.hub.uepkt } } := by
  have low : bits v 31 0 = v % 2 ^ 32 := by simp [bits]
  rw [hubSet_hubflt, State.hubfltSet, low]
  rfl

/-- A register of a loom die that firmware and the host's cores may write. -/
theorem exec_mmioRegisterWrite_die_open {s : State} {d o v : Nat} {agent : HostAgent} (hm : s.hub.modnum < 64)
    (hd : d < 8) (ha : o % 8 = 0) (ho : 0x2028 ≤ o ∧ o < 0x3010) (hp : agent ≠ .pcie) :
    exec (.mmioRegisterWrite (windowAt s.hub.modnum ((d + 1) * 2 ^ 32 + o)) 8 ⟨v, agent⟩) s =
      .next (s.dieSet d o v) :=
  exec_mmioRegisterWrite_die hm hd (by omega) ha (fun h => by
    have := (rsRegister_window (m := s.hub.modnum) (o := (d + 1) * 2 ^ 32 + o) (by omega)).1 h
    omega) hp (by omega)

theorem mmioRegisterWrite_colpush {s : State} {d k v : Nat} {agent : HostAgent} (hm : s.hub.modnum < 64) (hd : d < 8)
    (hp : agent ≠ .pcie) (hc : (s.die d).colpush.length = 2) (hl : d < s.dies.length) (hk : k < 2) :
    Completes (.mmioRegisterWrite (windowAt s.hub.modnum ((d + 1) * 2 ^ 32 + (0x3000 + 8 * k))) 8 ⟨v, agent⟩) s fun u =>
      u.dieReg d (0x3000 + 8 * k) = v ∧ u.colls = s.colls ∧ u.mem = s.mem := by
  have written (f : Die → Die) : (s.setDie d f).die d = f (s.die d) := State.die_setDie s d f hl
  obtain rfl | rfl : k = 0 ∨ k = 1 := by omega
  · refine ⟨_, (exec_mmioRegisterWrite_die_open hm hd rfl (by decide) hp).trans
      (congrArg Host.Outcome.next (dieSet_colpush0 s d v)), ?_, rfl, rfl⟩
    rw [dieReg_colpush0, written]
    simp [hc]
  · refine ⟨_, (exec_mmioRegisterWrite_die_open hm hd rfl (by decide) hp).trans
      (congrArg Host.Outcome.next (dieSet_colpush1 s d v)), ?_, rfl, rfl⟩
    rw [dieReg_colpush1, written]
    simp [hc]

theorem registerStores : RegisterStores := by
  intro s n v agent hm hub die
  have inHub (a b : Nat) : hub + a + b = windowAt s.hub.modnum (a + b) := Nat.add_assoc ..
  have inDie (d o : Nat) : die d + o = windowAt s.hub.modnum ((d + 1) * 2 ^ 32 + o) := Nat.add_assoc ..
  refine ⟨fun pa => reaches_iff, fun pa h => mmioRegisterWrite_refused h,
    fun o i h => exec_mmioRegisterWrite_event hm h, fun q hq => ?_, fun q hq hl hv => ?_,
    fun o ho => rsRegister_window ho, fun hv => ⟨?_, ?_, ?_, fun k hk ho hl => ?_⟩,
    fun d hd => ⟨?_, ?_, fun hc hl hv hp k hk => ?_⟩⟩
  · rw [inHub]
    exact exec_mmioRegisterWrite_qpush hm hq
  · rw [inHub]
    exact mmioRegisterWrite_qctl hm hq hl hv
  · exact ⟨_, exec_mmioRegisterWrite_firmware hm (by decide) rfl, hubSet_asid_eq s v⟩
  · refine ⟨_, exec_mmioRegisterWrite_firmware hm (by decide) rfl, ?_⟩
    rw [hubSet_dommask, Nat.mod_eq_of_lt hv]
  · exact ⟨_, exec_mmioRegisterWrite_firmware hm (by decide) rfl, hubSet_hubflt_eq s v⟩
  · rw [inHub]
    exact mmioRegisterWrite_grade hm hk ho hl
  · rintro pa rfl hp
    rw [inDie, exec_mmioRegisterWrite_die_open hm hd rfl (by decide) hp, dieSet_badact, bit_eq_testBit]
  · rw [inDie, exec_mmioRegisterWrite_die hm hd (by decide) rfl (fun _ => rfl) (by decide) (by decide), dieSet_fqdoor,
      show bits v 51 3 = v / 8 % 2 ^ 49 by simp [bits]]
  · rw [Nat.add_assoc (die d), inDie]
    exact mmioRegisterWrite_colpush hm hd hp hc hl hk

/-- Settles O55: the registers of the migration engine, those of the module, and the stores that reach them. -/
theorem registerWrites : Obligations.RegisterWrites :=
  ⟨migrationRegisters, moduleRegisters, registerStores⟩

end Sys2Proof.Machine
end

section
/-! # What a host access may change (O60, refuted) -/

namespace Sys2Proof.Machine
open Sys2Proof

/-- The line that cell 0 holds as its owner in `fullSet`, and that the pseudo-LRU names as its set's victim. -/
def heldLine : Nat := 0x30400000

/-- A module at work: 16 lines fill one set of a slice, and cell 0 holds the first of them, clean. -/
def fullSet : State :=
  { State.reset with
    sliceLines := (List.range 16).map fun w => ⟨heldLine + 0x20400000 * w, w, false, false, false⟩
    dir := [⟨heldLine / 4096, .own 0, none, 0⟩]
    cells := [{ Cell.blank 0 with cch := [
      { pa := heldLine, way := 0, st := .exclusive, data := List.replicate 128 0, dirty := 0, descs := [0, 0],
        descDirty := 0, recent := true, holdUntil := 0, described := false }] }] }

/-- A load by a host core of a line of the same set that nobody holds. -/
def hostRead : HostReq :=
  { agent := .core, op := .read, addr := 0x10000000, size := 8, value := 0, comparand := 0 }

/-- How many lines cell 0 keeps after an outcome. -/
def linesOfCell0 : Out → Option Nat
  | .next u => some (u.cell 0).cch.length
  | _ => none

/-- R68: the read makes room in its set for its line; the slice gives up `heldLine` and recalls cell 0's copy. -/
theorem hostRead_recalls_line_of_cell0 : linesOfCell0 (exec (.hostAccess hostRead) fullSet) = some 0 := by
  decide +kernel

theorem fullSet_openAt_hostRead : fullSet.openAt (lineOf hostRead.addr) 128 :=
  ⟨⟨by decide +kernel, by decide +kernel⟩, rfl, rfl, by decide +kernel⟩

/-- The clause of a read of a line that nobody holds says that no cell changes; in `fullSet`, cell 0 does. -/
theorem not_hostAccesses : ¬HostAccesses := by
  intro h
  obtain ⟨-, -, alone, -⟩ := h fullSet hostRead
  have there : fullSet.populated hostRead.addr hostRead.size = true ∧ inMmio hostRead.addr = false := by decide +kernel
  obtain ⟨-, -, -, takes⟩ := alone there (by decide) (by decide) fullSet_openAt_hostRead
  obtain ⟨read, -⟩ := takes (by decide +kernel) (by decide +kernel) (by decide)
  obtain ⟨u, ran, ⟨-, cells, -⟩, -⟩ := read rfl
  have recalled := hostRead_recalls_line_of_cell0
  have kept : (u.cell 0).cch.length = (fullSet.cell 0).cch.length := by rw [State.cell, State.cell, cells]
  rw [ran] at recalled
  cases kept.symm.trans (Option.some.inj recalled)

/-- Refutes O60: a host core's load of a line that nobody holds may change a cell. The copy that it takes needs a line
of its home slice (R68); where the set is full, the slice evicts a line, and a cell's copy of that line is recalled. -/
theorem not_outsideEvents : ¬ Obligations.OutsideEvents := by
  rintro ⟨host, -⟩
  exact not_hostAccesses host

end Sys2Proof.Machine
end

section
/-! # Bytes of a word, and runs of stores -/

namespace Sys2Proof.Machine
open Sys2Proof

@[simp] theorem length_leBytes (n v : Nat) : (leBytes n v).length = n := by
  induction n generalizing v with
  | zero => rfl
  | succ n ih => rw [leBytes, List.length_cons, ih]

/-- Byte i of a word in little-endian order. -/
theorem getD_leBytes {n i : Nat} (v : Nat) (h : i < n) : (leBytes n v).getD i 0 = v / 256 ^ i % 256 := by
  induction n generalizing v i with
  | zero => omega
  | succ n ih =>
    cases i with
    | zero => simp [leBytes]
    | succ i =>
      rw [leBytes, List.getD_cons_succ, ih (v / 256) (by omega), Nat.div_div_eq_div_mul, Nat.pow_succ']

/-- A run of stores: each entry's bytes at its address, in the list's order. -/
def memStores (ls : List (Nat × Nat)) (bs : Nat → List Nat) (m : List Host.Cell) : List Host.Cell :=
  ls.foldl (fun m l => memStore m l.2 (bs l.1)) m

/-- A byte that no store of a run covers is kept. -/
theorem memRead_memStores_other {ls : List (Nat × Nat)} {bs : Nat → List Nat} {x : Nat} (m : List Host.Cell)
    (h : ∀ l ∈ ls, ¬(l.2 ≤ x ∧ x < l.2 + (bs l.1).length)) : memRead (memStores ls bs m) x = memRead m x := by
  induction ls generalizing m with
  | nil => rfl
  | cons l ls ih =>
    rw [memStores, List.foldl_cons]
    refine (ih _ fun k hk => h k (List.mem_cons_of_mem l hk)).trans ?_
    rw [memRead_memStore, if_neg (h l List.mem_cons_self)]

/-- The last store of a run that covers a byte gives it its value. -/
theorem memRead_memStores_last {pre post : List (Nat × Nat)} {l : Nat × Nat} {bs : Nat → List Nat} {x : Nat} (m : List Host.Cell)
    (covers : l.2 ≤ x ∧ x < l.2 + (bs l.1).length) (last : ∀ k ∈ post, ¬(k.2 ≤ x ∧ x < k.2 + (bs k.1).length)) :
    memRead (memStores (pre ++ l :: post) bs m) x = (bs l.1).getD (x - l.2) 0 % 256 := by
  rw [memStores, List.foldl_append, List.foldl_cons]
  refine (memRead_memStores_other _ last).trans ?_
  rw [memRead_memStore, if_pos covers]

end Sys2Proof.Machine
end

section
/-! # The end of a firing without a lane to wait for -/

namespace Sys2Proof.Machine
open Sys2Proof

theorem LeavesModule.dies {s u : State} (h : LeavesModule s u) : u.dies = s.dies :=
  (congrArg State.dies h : u.rest.dies = s.rest.dies)
theorem LeavesModule.time {s u : State} (h : LeavesModule s u) : u.time = s.time :=
  (congrArg State.time h : u.rest.time = s.rest.time)
theorem LeavesModule.upsets {s u : State} (h : LeavesModule s u) : u.upsets = s.upsets :=
  (congrArg State.upsets h : u.rest.upsets = s.rest.upsets)

/-- What a completion arc makes of its context (R115). -/
def arcCtx (arc : Option Nat) (k : Ctx) : Ctx :=
  match arc with
  | some n => { k with p := setPred k.p n true }
  | none => k

theorem Moves.setArc (c e x : Nat) (arc : Option Nat) (s : State) (h : s.loaded c = true) (he : e < (s.cell c).elems.length) :
    Moves c e x (arcCtx arc) s (s.setArc c e x arc) := by
  cases arc with
  | none => exact Moves.refl c e x s
  | some n => exact Moves.setCtx c e x (fun k => { k with p := setPred k.p n true }) s h he

@[simp] theorem rest_setArc (s : State) (c e x : Nat) (arc : Option Nat) : (s.setArc c e x arc).rest = s.rest := by
  cases arc <;> rfl

theorem curElem_setCurCtx_same {α : Type} (g : Elem → α) (s : State) (f : Ctx → Ctx) (hg : ∀ k : Elem, g (k.setCtx s.cur.ctx f) = g k) :
    g (s.setCurCtx f).curElem = g s.curElem := by
  refine State.cell_setCell_same (fun k => g (k.elem s.cur.elem)) s s.cur.cell s.cur.cell _ (fun _ => rfl) fun k => ?_
  rw [Cell.elem_setElem]
  split
  · exact hg _
  · rfl

/-- An arc does not take time (R115). -/
theorem took_setArc {s w : State} {n : Nat} (arc : Option Nat) (h : Took s w n) :
    Took s (w.setArc w.cur.cell w.cur.elem w.cur.ctx arc) n := by
  cases arc with
  | none => exact h
  | some k =>
    obtain ⟨last, free, busy⟩ := h
    exact ⟨(curElem_setCurCtx_same (·.lastFired) w _ fun _ => rfl).trans last,
      (curElem_setCurCtx_same (·.occupant) w _ fun _ => rfl).trans free,
      (curElem_setCurCtx_same (·.busyUntil) w _ fun _ => rfl).trans busy⟩

/-- A firing that has written its result (w) and ends with its arc: what `endFiring` says of it holds, and the arc is set. -/
theorem endEmpty_after {s w : State} {g : Ctx → Ctx} (t : Fin 64) (prof : Nat) (hp : s.placed)
    (m : Moves s.cur.cell s.cur.elem s.cur.ctx g s w) (l : LeavesModule s w) :
    LeavesModule s (w.endEmpty t prof) ∧ LeavesOthers s (w.endEmpty t prof) ∧ (w.endEmpty t prof).flights = w.flights ∧
      Took s (w.endEmpty t prof) 0 ∧ (w.endEmpty t prof).curCtx = arcCtx (arcOf prof) (endCtx s t (g s.curCtx)) := by
  obtain ⟨module, -, ctx⟩ := endFiring_after t 0 hp m l
  have took := endFiring_took t 0 hp m l.dies l.time
  have bounds := m.hasCtx_bounds ⟨hp.1, hp.2.1, hp.2.2.1⟩
  have cur : w.cur = s.cur := m.1
  rw [← cur] at bounds
  have ends := Moves.endFiring w t 0 bounds.1 bounds.2.1
  obtain ⟨loaded, elem, place⟩ := ends.hasCtx_bounds bounds
  have arc := Moves.setArc w.cur.cell w.cur.elem w.cur.ctx (arcOf prof) (w.endFiring t 0) loaded elem
  have whole : Moves s.cur.cell s.cur.elem s.cur.ctx (arcCtx (arcOf prof) ∘ endCtx w t) w (w.endEmpty t prof) := by
    have both := ends.trans arc
    rw [State.endEmpty]
    rwa [cur] at both ⊢
  have moduleArc : LeavesModule s (w.endEmpty t prof) := module.trans (rest_setArc _ _ _ _ _)
  refine ⟨moduleArc, (m.trans whole).leavesOthers moduleArc, ?_, ?_, ?_⟩
  · rw [State.endEmpty, State.setArc_flights, State.endFiring_flights]
  · have := took_setArc (arcOf prof) took
    rwa [State.endFiring_cur] at this
  · have after := arc.ctx place
    have same : (w.endFiring t 0).ctxOf w.cur.cell w.cur.elem w.cur.ctx = (w.endFiring t 0).curCtx := by
      rw [State.curCtx, State.curElem, State.curCell, State.endFiring_cur]
      rfl
    rw [same, ctx] at after
    have curArc : (w.endEmpty t prof).cur = w.cur := arc.1.trans ends.1
    rw [State.curCtx, State.curElem, State.curCell, curArc]
    exact after

theorem arcCtx_v (arc : Option Nat) (k : Ctx) : (arcCtx arc k).v = k.v := by cases arc <;> rfl

/-- A firing with no lane ends so (R115, R280). -/
theorem endsEmpty_endEmpty (s : State) (t : Fin 64) (prof : Nat) (hp : s.placed) : EndsEmpty s (s.endEmpty t prof) t prof := by
  obtain ⟨module, others, flights, took, ctx⟩ := endEmpty_after t prof hp (Moves.refl _ _ _ s) (LeavesModule.refl s)
  refine ⟨module, others, flights, took, ctx.trans ?_⟩
  rw [State.arcPreds]
  cases arcOf prof <;> rfl

/-- What a result's registers make of the context. -/
theorem moves_putSel (s : State) (t : Fin 64) (w : Bool) (d : Dst) (f : Nat → Word) (g : Nat → BitVec 64) (h : s.placed) :
    ∃ k, Moves s.cur.cell s.cur.elem s.cur.ctx k s (s.putSel t w d f g) := by
  cases w with
  | true =>
    cases d with
    | v r => exact ⟨_, Moves.putPair s r.val g h⟩
    | o n => exact ⟨_, Moves.refl _ _ _ s⟩
    | discard => exact ⟨_, Moves.refl _ _ _ s⟩
  | false =>
    cases d with
    | v r => exact ⟨_, Moves.writeReg s r.val s.m0 f h⟩
    | o n => exact ⟨_, Moves.sendOn s.cur.cell s.cur.elem s.cur.ctx n.val _ _ s⟩
    | discard => exact ⟨_, Moves.refl _ _ _ s⟩

/-- A delivered result is seen in the registers and in the tokens on their way alone. -/
theorem deliveredSel_of_same {s u v : State} {t : Fin 64} {w : Bool} {d : Dst} {f : Nat → Word} {g : Nat → BitVec 64}
    (h : DeliveredSel s u t w d f g) (regs : ∀ j, v.vreg j = u.vreg j) (flights : v.flights = u.flights) :
    DeliveredSel s v t w d f g := by
  cases w <;> cases d <;>
    simpa only [DeliveredSel, Delivered, DeliveredPair, Wrote, Sent, regs, flights] using h

/-- A result of one width does not depend on what the other width would give. -/
theorem deliveredSel_width {s u : State} {t : Fin 64} {w : Bool} {d : Dst} {f f' : Nat → Word} {g g' : Nat → BitVec 64}
    (h : DeliveredSel s u t w d f g) (narrow : w = false → f' = f) (wide : w = true → g' = g) : DeliveredSel s u t w d f' g' := by
  cases w with
  | false => rw [narrow rfl]; exact h
  | true => rw [wide rfl]; exact h

/-- THE RESULT OF A FIRING THAT ENDS WITH ITS ARC: as `putSel_result` has it, and the arc is set (R115). -/
theorem putSel_endEmpty (s : State) (t : Fin 64) (w : Bool) (d : Dst) (f : Nat → Word) (g : Nat → BitVec 64) (prof : Nat)
    (hp : s.placed) (hd : dstW w d = true) :
    let u := (s.putSel t w d f g).endEmpty t prof
    DeliveredSel s u t w d f g ∧ LeavesModule s u ∧ LeavesOthers s u ∧ (∀ j, j ∉ dstRegs w d → u.vreg j = s.vreg j) ∧
      u.curCtx.p = s.arcPreds t prof ∧ Took s u 0 := by
  obtain ⟨k, m⟩ := moves_putSel s t w d f g hp
  have l : LeavesModule s (s.putSel t w d f g) := rest_putSel s t w d f g
  obtain ⟨delivered, -, -, regs, -, fired⟩ := putSel_result s t w d f g 0 hp hd
  obtain ⟨-, -, ctxEnd⟩ := endFiring_after t 0 hp m l
  obtain ⟨module, others, flights, took, ctx⟩ := endEmpty_after t prof hp m l
  rw [← ctxEnd] at ctx
  have vregs : ∀ j, ((s.putSel t w d f g).endEmpty t prof).vreg j = ((s.putSel t w d f g).endFiring t 0).vreg j := fun j => by
    rw [State.vreg, ctx, arcCtx_v, State.vreg]
  refine ⟨deliveredSel_of_same delivered vregs ?_, module, others, fun j hj => (vregs j).trans (regs j hj), ?_, took⟩
  · rw [flights, State.endFiring_flights]
  · rw [ctx, fired, State.arcPreds]
    cases arcOf prof <;> rfl

end Sys2Proof.Machine
end

section
/-! # Scratchpad loads and stores (O34) -/

namespace Sys2Proof.Machine
open Sys2Proof

theorem mem_lanesOf {m : LaneMask} {l : Nat} : l ∈ lanesOf m ↔ l < 64 ∧ inMask m l = true := by
  rw [lanesOf, List.mem_filter, List.mem_range]

theorem lanesOf_ascending (m : LaneMask) : (lanesOf m).Pairwise (· < ·) :=
  List.pairwise_lt_range.filter _

/-- The lanes of m0 lie aligned in scratchpad banks (R32, R288). -/
def State.spaInOrder (s : State) (a b : Src) (n : Nat) : Prop :=
  ∀ l, l < 64 → inMask s.m0 l = true → (s.rd a l + s.rd b l).toNat % n = 0 ∧ (s.rd a l + s.rd b l).toNat < 2 ^ 20 ∧
    s.curCell.role ((s.rd a l + s.rd b l).toNat / 8192) = .scr

/-- Lanes in order raise no fault (R281, R288). -/
theorem spaFault_none {s : State} {a b : Src} {n : Nat} (h : s.spaInOrder a b n) : s.spaFault n (s.spas a b) = none := by
  have lanes : ∀ x ∈ s.spas a b, x.2 % n = 0 ∧ s.curCell.scratchOk x.2 = true := by
    intro x hx
    obtain ⟨l, hl, rfl⟩ := List.mem_map.1 hx
    obtain ⟨lt, on⟩ := mem_lanesOf.1 hl
    obtain ⟨aligned, low, scr⟩ := h l lt on
    exact ⟨aligned, by simp only [Cell.scratchOk, low, scr, decide_true, beq_self_eq_true, Bool.and_self]⟩
  have aligned : (s.spas a b).filter (fun l => l.2 % n != 0) = [] :=
    List.filter_eq_nil_iff.2 fun x hx => by simp [(lanes x hx).1]
  have scratch : (s.spas a b).filter (fun l => !s.curCell.scratchOk l.2) = [] :=
    List.filter_eq_nil_iff.2 fun x hx => by simp [(lanes x hx).2]
  simp only [State.spaFault, misaligned, aligned, scratch]

theorem upset_meets_place {u : Upset} {place : Place} {a n : Nat} (h : u.place ≠ place) : u.meets place a n = false := by
  simp [Upset.meets, h]

/-- A cell whose SRAM holds no error reads it as it stands (R87). -/
theorem sramSpoiled_clean {s : State} {c : Nat} (h : ∀ x ∈ s.upsets, x.place ≠ .sram c) (a n : Nat) : s.sramSpoiled c a n = false := by
  rw [State.sramSpoiled, State.upsetAt, List.any_eq_false]
  intro x hx
  simp [upset_meets_place (h x hx)]

/-- A scrub that meets no error changes nothing. -/
theorem correctSingles_none {s : State} {die : Nat} {hit : Upset → Bool} (h : ∀ x ∈ s.upsets, hit x = false) :
    s.correctSingles die hit = s := by
  have none : s.upsets.filter (fun u => hit u && !u.double) = [] :=
    List.filter_eq_nil_iff.2 fun x hx => by simp [h x hx]
  simp [State.correctSingles, none]

theorem correctSram_clean {s : State} {c : Nat} (h : ∀ x ∈ s.upsets, x.place ≠ .sram c) (a n : Nat) : s.correctSram c a n = s :=
  correctSingles_none fun x hx => upset_meets_place (h x hx)

theorem correctSram_clean_all {s : State} {c : Nat} (h : ∀ x ∈ s.upsets, x.place ≠ .sram c) (n : Nat) (ls : List (Nat × Nat)) :
    ls.foldl (fun s' l => s'.correctSram c l.2 n) s = s := by
  induction ls with
  | nil => rfl
  | cons l ls ih => rw [List.foldl_cons, correctSram_clean h, ih]

/-- LDS of lanes in order reads the scratchpad in its firing (R288). -/
theorem exec_lds {s : State} {t : Fin 64} {d : Dst} {a b : Src} {p : Profile} {w : Bool} (order : s.spaInOrder a b (wBytes w))
    (clean : ∀ x ∈ s.upsets, x.place ≠ .sram s.cur.cell) (hd : d ≠ .discard) :
    exec (.lds t d a b p w) s = .next ((s.putSel t w d
      (fun l => BitVec.ofNat 32 (memNat s.curCell.sram (s.rd a l + s.rd b l).toNat (wBytes w)))
      (fun l => BitVec.ofNat 64 (memNat s.curCell.sram (s.rd a l + s.rd b l).toNat (wBytes w)))).endEmpty t (s.profile p.val)) := by
  have unspoiled : (s.spas a b).find? (fun l => s.sramSpoiled s.cur.cell l.2 (wBytes w)) = none :=
    List.find?_eq_none.2 fun x _ => by simp [sramSpoiled_clean clean]
  change execLds t d a b p w s = _
  simp only [execLds, if_neg hd, spaFault_none order, unspoiled, correctSram_clean_all clean]

/-! Stores to the scratchpad. -/

/-- What stores to the SRAM pool of cell c do: m to its bytes; beside them they mark rows, and errors go with the bytes that they
overwrite (R87, R385). -/
structure Scratches (c : Nat) (m : List Host.Cell → List Host.Cell) (s u : State) : Prop where
  cur : u.cur = s.cur
  rest : u.rest = { s.rest with upsets := u.upsets }
  flights : u.flights = s.flights
  time : u.time = s.time
  dies : u.dies = s.dies
  loaded : ∀ d, u.loaded d = s.loaded d
  others : ∀ d, d ≠ c → u.cell d = s.cell d
  own : s.loaded c = true → u.cell c = { s.cell c with sram := m (s.cell c).sram, dirtyRows := (u.cell c).dirtyRows }

theorem Scratches.refl (c : Nat) (s : State) : Scratches c id s s := 
  ⟨rfl, rfl, rfl, rfl, rfl, fun _ => rfl, fun _ _ => rfl, fun _ => rfl⟩

theorem Scratches.trans {c : Nat} {m n : List Host.Cell → List Host.Cell} {s u w : State} (h : Scratches c m s u)
    (k : Scratches c n u w) : Scratches c (n ∘ m) s w where
  cur := k.cur.trans h.cur
  rest := by rw [k.rest, h.rest]
  flights := k.flights.trans h.flights
  time := k.time.trans h.time
  dies := k.dies.trans h.dies
  loaded d := (k.loaded d).trans (h.loaded d)
  others d hd := (k.others d hd).trans (h.others d hd)
  own hc := by
    rw [k.own ((h.loaded c).trans hc), h.own hc]
    rfl

theorem Scratches.sramStore (c a : Nat) (bs : List Nat) (s : State) : Scratches c (fun m => memStore m a bs) s (s.sramStore c a bs) where
  cur := rfl
  rest := rfl
  flights := rfl
  time := rfl
  dies := rfl
  loaded d := State.loaded_setCell _ c d _ fun _ => rfl
  others d hd := State.cell_setCell_ne _ c d _ (fun _ => rfl) hd
  own hc := by
    have after : (s.sramStore c a bs).cell c = _ := (State.cell_setCell _ c c _ (by exact fun _ => rfl) hc).trans (if_pos rfl)
    rw [after]

theorem Scratches.run (c : Nat) (bs : Nat → List Nat) (ls : List (Nat × Nat)) (s : State) :
    Scratches c (memStores ls bs) s (ls.foldl (fun s l => s.sramStore c l.2 (bs l.1)) s) := by
  induction ls generalizing s with
  | nil => exact Scratches.refl c s
  | cons l ls ih => exact (Scratches.sramStore c l.2 (bs l.1) s).trans (ih _)

/-- The context stays in place, as it is. -/
theorem Scratches.ctx {m : List Host.Cell → List Host.Cell} {s u : State} (h : Scratches s.cur.cell m s u) (hp : s.placed) :
    u.placed ∧ u.curCtx = s.curCtx := by
  have elems : (u.cell s.cur.cell).elems = (s.cell s.cur.cell).elems := by rw [h.own hp.1]
  have elem : (u.cell s.cur.cell).elem s.cur.elem = (s.cell s.cur.cell).elem s.cur.elem := by rw [Cell.elem, elems, Cell.elem]
  constructor
  · rw [State.placed, State.hasCtx, h.cur, h.loaded, elems, State.ctxOf, Cell.ctx, elem]
    exact hp
  · rw [State.curCtx, State.curElem, State.curCell, h.cur, elem]
    rfl

theorem Scratches.curCell {m : List Host.Cell → List Host.Cell} {s u : State} (h : Scratches s.cur.cell m s u) (hp : s.placed) :
    u.curCell = { s.curCell with sram := m s.curCell.sram, dirtyRows := u.curCell.dirtyRows } := by
  rw [State.curCell, h.cur]
  exact h.own hp.1

/-- The draft of the firing stays. -/
theorem Scratches.entry {m : List Host.Cell → List Host.Cell} {s u : State} (h : Scratches s.cur.cell m s u) (hp : s.placed)
    (t : Fin 64) : u.entry t = s.entry t := by
  rw [State.entry, State.curDraft, State.curCell, h.cur, h.own hp.1]
  rfl

/-- The state after STS has written its lanes. -/
def State.stsWritten (s : State) (e a b : Src) (w : Bool) : State :=
  (s.spas a b).foldl (fun s' l => s'.sramStore s.cur.cell l.2 (s.storeBytes e w (wBytes w) l.1)) s

/-- STS of lanes in order writes the scratchpad in its firing (R288). -/
theorem exec_sts {s : State} {t : Fin 64} {e a b : Src} {p : Profile} {w : Bool} (order : s.spaInOrder a b (wBytes w)) :
    exec (.sts t e a b p w) s = .next ((s.stsWritten e a b w).endEmpty t (s.profile p.val)) := by
  change execSts t e a b p w s = _
  simp only [execSts, spaFault_none order]
  rfl

theorem length_storeBytes (s : State) (d : Src) (w : Bool) (n l : Nat) : (s.storeBytes d w n l).length = n := length_leBytes n _

/-- A byte that no lane covers is kept. -/
theorem memRead_spas_other {s : State} {e a b : Src} {w : Bool} {x : Nat} (m : List Host.Cell)
    (h : ∀ l, l < 64 → inMask s.m0 l = true →
      ¬((s.rd a l + s.rd b l).toNat ≤ x ∧ x < (s.rd a l + s.rd b l).toNat + wBytes w)) :
    memRead (memStores (s.spas a b) (s.storeBytes e w (wBytes w)) m) x = memRead m x := by
  refine memRead_memStores_other m fun k hk => ?_
  obtain ⟨l, hl, rfl⟩ := List.mem_map.1 hk
  rw [length_storeBytes]
  exact h l (mem_lanesOf.1 hl).1 (mem_lanesOf.1 hl).2

/-- The highest lane that covers a byte gives it its value (R288). -/
theorem memRead_spas_highest {s : State} {e a b : Src} {w : Bool} {l i : Nat} (m : List Host.Cell) (hl : l < 64)
    (on : inMask s.m0 l = true) (hi : i < wBytes w)
    (highest : ∀ j, l < j → j < 64 → inMask s.m0 j = true →
      ¬((s.rd a j + s.rd b j).toNat ≤ (s.rd a l + s.rd b l).toNat + i ∧
        (s.rd a l + s.rd b l).toNat + i < (s.rd a j + s.rd b j).toNat + wBytes w)) :
    memRead (memStores (s.spas a b) (s.storeBytes e w (wBytes w)) m) ((s.rd a l + s.rd b l).toNat + i) =
      (if w then (s.rdW e l).toNat else (s.rd e l).toNat) / 256 ^ i % 256 := by
  obtain ⟨pre, post, split⟩ := List.append_of_mem (mem_lanesOf.2 ⟨hl, on⟩)
  have above : ∀ j ∈ post, l < j := by
    have ascending := lanesOf_ascending s.m0
    rw [split] at ascending
    exact (List.pairwise_cons.1 (List.pairwise_append.1 ascending).2.1).1
  have inLanes : ∀ j ∈ post, j < 64 ∧ inMask s.m0 j = true := fun j hj => mem_lanesOf.1 (by rw [split]; simp [hj])
  rw [State.spas, split, List.map_append, List.map_cons, memRead_memStores_last m, State.storeBytes]
  · rw [Nat.add_sub_cancel_left, getD_leBytes _ hi, Nat.mod_mod]
  · rw [length_storeBytes]
    exact ⟨Nat.le_add_right _ _, Nat.add_lt_add_left hi _⟩
  · intro k hk
    obtain ⟨j, hj, rfl⟩ := List.mem_map.1 hk
    rw [length_storeBytes]
    exact highest j (above j hj) (inLanes j hj).1 (inLanes j hj).2

/-- LDS (R288). -/
theorem lds_result {s : State} {t : Fin 64} {d : Dst} {a b : Src} {p : Profile} {w : Bool} (hp : s.placed)
    (order : s.spaInOrder a b (wBytes w)) (clean : ∀ x ∈ s.upsets, x.place ≠ .sram s.cur.cell) (hd : d ≠ .discard)
    (hw : dstW w d = true) : Completes (.lds t d a b p w) s fun u =>
      DeliveredSel s u t w d (fun l => BitVec.ofNat 32 (memNat s.curCell.sram (s.rd a l + s.rd b l).toNat 4))
        (fun l => BitVec.ofNat 64 (memNat s.curCell.sram (s.rd a l + s.rd b l).toNat 8)) ∧
      LeavesModule s u ∧ LeavesOthers s u ∧ (∀ j, j ∉ dstRegs w d → u.vreg j = s.vreg j) ∧
      u.curCtx.p = s.arcPreds t (s.profile p.val) ∧ Took s u 0 := by
  obtain ⟨delivered, leaves⟩ := putSel_endEmpty s t w d
    (fun l => BitVec.ofNat 32 (memNat s.curCell.sram (s.rd a l + s.rd b l).toNat (wBytes w)))
    (fun l => BitVec.ofNat 64 (memNat s.curCell.sram (s.rd a l + s.rd b l).toNat (wBytes w))) (s.profile p.val) hp hw
  refine ⟨_, exec_lds order clean hd, deliveredSel_width delivered ?_ ?_, leaves⟩
  · rintro rfl; rfl
  · rintro rfl; rfl

/-- STS (R288): what the firing leaves, with the SRAM that its lanes wrote. -/
theorem sts_result {s : State} {t : Fin 64} {e a b : Src} {p : Profile} {w : Bool} (hp : s.placed)
    (order : s.spaInOrder a b (wBytes w)) : Completes (.sts t e a b p w) s fun u =>
      u.curCell.sram = memStores (s.spas a b) (s.storeBytes e w (wBytes w)) s.curCell.sram ∧
      u.rest = { s.rest with upsets := u.upsets } ∧ (∀ c, c ≠ s.cur.cell → u.cell c = s.cell c) ∧
      u.curCell = { s.curCell with elems := u.curCell.elems, sram := u.curCell.sram, dirtyRows := u.curCell.dirtyRows } ∧
      u.flights = s.flights ∧ (∀ j, u.vreg j = s.vreg j) ∧ u.curCtx.p = s.arcPreds t (s.profile p.val) ∧ Took s u 0 := by
  have written : Scratches s.cur.cell _ s (s.stsWritten e a b w) := Scratches.run s.cur.cell (s.storeBytes e w (wBytes w)) (s.spas a b) s
  refine ⟨_, exec_sts order, ?_⟩
  generalize s.stsWritten e a b w = x at written
  obtain ⟨placed, ctx⟩ := written.ctx hp
  obtain ⟨module, ⟨-, otherCells, ownCell, -, -⟩, flights, ⟨last, free, busy⟩, ctxEnd⟩ :=
    endsEmpty_endEmpty x t (s.profile p.val) placed
  have rest : (x.endEmpty t (s.profile p.val)).rest = { s.rest with upsets := x.upsets } := Eq.trans module written.rest
  have upsets : (x.endEmpty t (s.profile p.val)).upsets = x.upsets := module.upsets
  have preds : x.arcPreds t (s.profile p.val) = s.arcPreds t (s.profile p.val) := by
    simp only [State.arcPreds, State.entryPreds, ctx, written.entry hp]
  rw [written.curCell hp] at ownCell
  rw [written.cur] at otherCells last busy
  refine ⟨by rw [ownCell], ?_, fun c hc => (otherCells c hc).trans (written.others c hc), ?_, flights.trans written.flights,
    fun j => ?_, ?_, last, free, ?_⟩
  · rw [upsets, rest]
  · rw [ownCell]
  · rw [State.vreg, ctxEnd, ctx, State.vreg]
  · rw [ctxEnd, preds]
  · rw [busy, written.time, vPeriod_of written.dies]

/-- Settles O34: LDS and STS act on the scratchpad within their firing; among the lanes that STS writes in ascending order the
highest one that covers a byte is the last. -/
theorem scratchpadResults : Obligations.ScratchpadResults := by
  intro s t d e a b p w hp n spa order
  have hn : n = wBytes w := by cases w <;> rfl
  rw [hn] at order
  have order : s.spaInOrder a b (wBytes w) := order
  refine ⟨fun clean hd hw => lds_result hp order clean hd hw, ?_, ?_⟩
  · exact ⟨_, rfl, endsEmpty_endEmpty s t _ hp⟩
  · obtain ⟨u, ran, sram, leaves⟩ := sts_result (t := t) (e := e) (p := p) hp order
    rw [hn]
    refine ⟨u, ran, fun x hx => ?_, fun l i hl on hi highest => ?_, leaves⟩
    · rw [sram, memRead_spas_other _ hx]
    · rw [sram, memRead_spas_highest _ hl on hi highest]

end Sys2Proof.Machine
end

section
/-! # Sweeps and scrubs (O49, R69, R87, R88) -/

namespace Sys2Proof.Machine
open Sys2Proof

/-- Errors have been corrected or dropped, and nothing else has changed. -/
def Sheds (s v : State) : Prop := ∃ us, us.Sublist s.upsets ∧ v = { s with upsets := us }

theorem Sheds.refl (s : State) : Sheds s s := ⟨s.upsets, List.Sublist.refl _, rfl⟩

theorem Sheds.trans {s v w : State} (h : Sheds s v) (k : Sheds v w) : Sheds s w := by
  obtain ⟨us, sub, rfl⟩ := h
  obtain ⟨vs, sub', rfl⟩ := k
  exact ⟨vs, sub'.trans sub, rfl⟩

theorem Sheds.refetch (s : State) (pa : Nat) : Sheds s (s.refetch pa) := by
  rw [State.refetch]
  split
  · exact ⟨_, List.filter_sublist, rfl⟩
  · exact Sheds.refl s

theorem Sheds.refetchAll (us : List Upset) (s : State) : Sheds s (us.foldl (fun s u => s.refetch u.addr) s) := by
  induction us generalizing s with
  | nil => exact Sheds.refl s
  | cons u us ih => exact (Sheds.refetch s u.addr).trans (ih _)

theorem Sheds.absent {s v : State} (h : Sheds s v) {u : Upset} (hu : u ∉ s.upsets) : u ∉ v.upsets := by
  obtain ⟨us, sub, rfl⟩ := h
  exact fun k => hu (sub.subset k)

/-- A slice fetches a clean copy with a double-bit error again (R87): the error is gone. -/
theorem refetch_drops {s : State} {u : Upset} (double : u.double = true) (place : u.place = .sliceData)
    (clean : ∀ l ∈ s.sliceLines, l.line = lineOf u.addr → l.dirty = false) : u ∉ (s.refetch u.addr).upsets := by
  intro kept
  have meets : u.meets .sliceData (lineOf u.addr) 128 = true := by
    have : lineOf u.addr ≤ u.addr ∧ u.addr < lineOf u.addr + 128 := by simp only [lineOf]; omega
    simp only [Upset.meets, place, beq_self_eq_true, Bool.true_and, Bool.and_eq_true, decide_eq_true_eq]
    omega
  have undirty : s.sliceLines.any (fun l => l.line == lineOf u.addr && l.dirty) = false := by
    rw [List.any_eq_false]
    intro l hl
    by_cases h : l.line = lineOf u.addr
    · simp [clean l hl h]
    · simp [h]
  rw [State.refetch, undirty] at kept
  split at kept
  · simpa [meets] using (List.mem_filter.1 kept).2
  · next unmet =>
    refine unmet ?_
    simp only [Bool.not_false, Bool.and_true, State.upsetAt, List.any_eq_true]
    exact ⟨u, kept, by rw [double, meets]; rfl⟩

theorem refetchAll_drops {us : List Upset} {s : State} {u : Upset} (hu : u ∈ us) (double : u.double = true)
    (place : u.place = .sliceData) (clean : ∀ l ∈ s.sliceLines, l.line = lineOf u.addr → l.dirty = false) :
    u ∉ (us.foldl (fun s u => s.refetch u.addr) s).upsets := by
  induction us generalizing s with
  | nil => cases hu
  | cons v us ih =>
    rw [List.foldl_cons]
    rcases List.mem_cons.1 hu with rfl | hu
    · exact (Sheds.refetchAll us _).absent (refetch_drops double place clean)
    · obtain ⟨vs, -, eq⟩ := Sheds.refetch s v.addr
      refine ih hu ?_
      rw [eq]
      exact clean

/-- What a correction leaves of the errors (R87). -/
theorem correctSingles_upsets (s : State) (die : Nat) (hit : Upset → Bool) :
    (s.correctSingles die hit).upsets = s.upsets.filter fun u => !(hit u && !u.double) := by
  simp only [State.correctSingles]
  split
  · next none =>
    refine (List.filter_eq_self.2 fun u hu => ?_).symm
    have unmet := List.filter_eq_nil_iff.1 (List.length_eq_zero_iff.1 none) u hu
    rw [Bool.not_eq_true] at unmet
    rw [unmet, Bool.not_false]
  · rfl

@[simp] theorem correctSingles_sliceLines (s : State) (die : Nat) (hit : Upset → Bool) :
    (s.correctSingles die hit).sliceLines = s.sliceLines := by
  simp only [State.correctSingles]
  split <;> rfl

@[simp] theorem correctSingles_sliceScrubs (s : State) (die : Nat) (hit : Upset → Bool) :
    (s.correctSingles die hit).sliceScrubs = s.sliceScrubs := by
  simp only [State.correctSingles]
  split <;> rfl

@[simp] theorem correctSingles_cellScrubs (s : State) (die : Nat) (hit : Upset → Bool) :
    (s.correctSingles die hit).cellScrubs = s.cellScrubs := by
  simp only [State.correctSingles]
  split <;> rfl

/-- A correction that meets a single-bit error corrects every one that it meets, and counts them (R87, R88). -/
theorem correctSingles_some {s : State} {die : Nat} {hit : Upset → Bool} (h : s.upsets.filter (fun u => hit u && !u.double) ≠ []) :
    s.correctSingles die hit = { s with upsets := s.upsets.filter fun u => !(hit u && !u.double) }.setDie die fun d =>
      { d with corr := min (d.corr + (s.upsets.filter fun u => hit u && !u.double).length) (2 ^ 32 - 1) } := by
  rw [State.correctSingles, if_neg]
  simpa using h

/-- The errors that a scrub of a slice may meet (R87). -/
def sliceHit (n : Nat) (u : Upset) : Bool := [Place.memory, .sliceData, .sliceTag, .directory].contains u.place && homeSlice u.addr == n

/-- The errors that a scrub of a cell may meet (R87). -/
def State.cellHit (s : State) (c : Nat) (u : Upset) : Bool :=
  match u.place with
  | .sram k => k == c && (s.cell c).role (u.addr / 8192) != .off
  | .codebook k | .slots k _ | .entries k _ => k == c
  | _ => false

/-- A state whose next scrubs are due at other times. -/
def State.scrubsAt (s : State) (slices cells : List Nat) : State := { s with sliceScrubs := slices, cellScrubs := cells }

theorem exec_cellScrub (c : Nat) (s : State) : exec (.cellScrub c) s = .next
    ((s.correctSingles (dieOf c) (s.cellHit c)).scrubsAt s.sliceScrubs (s.cellScrubs.set c (s.time + 10 ^ 12 * Config.ps))) := by
  rw [State.scrubsAt, ← correctSingles_sliceScrubs s (dieOf c) (s.cellHit c), ← correctSingles_cellScrubs s (dieOf c) (s.cellHit c)]
  rfl

theorem exec_sliceScrub (n : Nat) (s : State) : exec (.sliceScrub n) s =
    let v := ((s.upsets.filter fun u => u.double && u.place == .sliceData && sliceHit n u).foldl (fun s u => s.refetch u.addr)
      s).correctSingles (n / 48) (sliceHit n)
    .next { v with sliceScrubs := v.sliceScrubs.set n (s.time + 10 ^ 13 * Config.ps) } := rfl

theorem exec_sliceScrub_single {n : Nat} {s : State} (single : ∀ u ∈ s.upsets, u.double = true → u.place ≠ .sliceData) :
    exec (.sliceScrub n) s = .next
      ((s.correctSingles (n / 48) (sliceHit n)).scrubsAt (s.sliceScrubs.set n (s.time + 10 ^ 13 * Config.ps)) s.cellScrubs) := by
  have none : (s.upsets.filter fun u => u.double && u.place == .sliceData && sliceHit n u) = [] := by
    refine List.filter_eq_nil_iff.2 fun u hu => ?_
    cases double : u.double with
    | false => simp
    | true => simp [single u hu double]
  rw [exec_sliceScrub, none, State.scrubsAt, ← correctSingles_sliceScrubs s (n / 48) (sliceHit n),
    ← correctSingles_cellScrubs s (n / 48) (sliceHit n)]
  rfl

/-- The scrub of a slice drops a clean copy that a double-bit error has met. -/
theorem sliceScrub_drops {s : State} {u : Upset} (hu : u ∈ s.upsets) (double : u.double = true) (place : u.place = .sliceData)
    (clean : ∀ l ∈ s.sliceLines, l.line = lineOf u.addr → l.dirty = false) : Completes (.sliceScrub (homeSlice u.addr)) s fun v =>
      u ∉ v.upsets ∧ v.mem = s.mem ∧ v.sliceLines = s.sliceLines := by
  refine ⟨_, exec_sliceScrub _ s, ?_⟩
  have mine : u ∈ s.upsets.filter fun x => x.double && x.place == .sliceData && sliceHit (homeSlice u.addr) x := by
    rw [List.mem_filter]
    exact ⟨hu, by simp [double, place, sliceHit]⟩
  obtain ⟨vs, -, shed⟩ := Sheds.refetchAll (s.upsets.filter fun x => x.double && x.place == .sliceData && sliceHit (homeSlice u.addr) x) s
  have dropped := refetchAll_drops mine double place clean
  rw [shed] at dropped ⊢
  refine ⟨fun kept => ?_, correctSingles_mem _ _ _, correctSingles_sliceLines _ _ _⟩
  have kept : u ∈ (State.correctSingles { s with upsets := vs } (homeSlice u.addr / 48) (sliceHit (homeSlice u.addr))).upsets := kept
  rw [correctSingles_upsets] at kept
  exact dropped (List.mem_of_mem_filter kept)

/-- What a scrub leaves that has met single-bit errors, of a slice (times a) or of a cell (times b). -/
theorem scrub_leaves {s : State} {die : Nat} {hit : Upset → Bool} (a b : List Nat)
    (h : s.upsets.filter (fun u => hit u && !u.double) ≠ []) (hd : die < s.dies.length) :
    let u := (s.correctSingles die hit).scrubsAt a b
    u.upsets = s.upsets.filter (fun x => !(hit x && !x.double)) ∧
      u.die die = { s.die die with corr := min ((s.die die).corr + (s.upsets.filter fun u => hit u && !u.double).length) (2 ^ 32 - 1) } ∧
      u = { s with upsets := u.upsets, dies := u.dies, sliceScrubs := u.sliceScrubs, cellScrubs := u.cellScrubs } ∧
      ∀ d, d ≠ die → u.die d = s.die d := by
  intro u
  have eq : u = (State.setDie { s with upsets := s.upsets.filter fun u => !(hit u && !u.double) } die fun d =>
      { d with corr := min (d.corr + (s.upsets.filter fun u => hit u && !u.double).length) (2 ^ 32 - 1) }).scrubsAt a b := by
    simp only [u, correctSingles_some h]
  refine ⟨correctSingles_upsets s die hit, ?_, ?_, fun d hne => ?_⟩
  · rw [eq]
    exact State.die_setDie s die _ hd
  · rw [eq]
    rfl
  · rw [eq]
    exact die_setDie_other s _ hne

theorem persistSweep_clears {s : State} {n : Nat} (hn : n < 384) (due : s.persistNext.getD n 0 ≤ s.time) :
    exec (.persistSweep n) s = .next
      { s with sliceLines := s.sliceLines.map fun l =>
                 if homeSlice l.line = n then { l with persist := l.persist && l.touched, touched := false } else l
               persistNext := s.persistNext.set n (s.persistNext.getD n 0 + 256000000 * Config.ps) } := by
  have runs : (decide (n ≥ Config.slices) || decide (s.time < s.persistNext.getD n 0)) = false := by
    simp only [Config.slices, Bool.or_eq_false_iff]
    exact ⟨decide_eq_false (Nat.not_le.2 hn), decide_eq_false (Nat.not_lt.2 due)⟩
  change execPersistSweep n s = _
  simp only [execPersistSweep, runs, Bool.false_eq_true, if_false, updateWhere, beq_iff_eq]

/-- R69, R87, R88: the sweeps and the scrubs. -/
theorem sweepsAndScrubs : SweepsAndScrubs := by
  refine ⟨fun s u hu double place clean => sliceScrub_drops hu double place clean, fun s n hn due => persistSweep_clears hn due, ?_⟩
  rintro s i die hit (⟨n, rfl, rfl, single, rfl⟩ | ⟨c, rfl, rfl, rfl⟩) fixed met hd
  · obtain ⟨left, counted, rest, others⟩ :=
      scrub_leaves (hit := sliceHit n) (s.sliceScrubs.set n (s.time + 10 ^ 13 * Config.ps)) s.cellScrubs met hd
    refine ⟨_, exec_sliceScrub_single single, left, counted, rest, ?_, ?_, others⟩
    · rintro m ⟨⟩
      exact ⟨rfl, rfl⟩
    · rintro c ⟨⟩
  · obtain ⟨left, counted, rest, others⟩ :=
      scrub_leaves (hit := s.cellHit c) s.sliceScrubs (s.cellScrubs.set c (s.time + 10 ^ 12 * Config.ps)) met hd
    refine ⟨_, exec_cellScrub c s, left, counted, rest, ?_, ?_, others⟩
    · rintro n ⟨⟩
    · rintro m ⟨⟩
      exact ⟨rfl, rfl⟩

end Sys2Proof.Machine
end

section
/-! # Invalidations (O49, R38, R39) -/

namespace Sys2Proof.Machine
open Sys2Proof

/-- What is found under a key after an update of what stands under one, that keeps the keys. -/
theorem find_updateWhere_key {α : Type} (key : α → Nat) (xs : List α) (c d : Nat) {f : α → α} (hf : ∀ x, key (f x) = key x) :
    (updateWhere (fun x => key x == c) f xs).find? (fun x => key x == d) =
      if d = c then (xs.find? fun x => key x == d).map f else xs.find? fun x => key x == d := by
  induction xs with
  | nil => simp [updateWhere]
  | cons x xs ih =>
    have same : key (if (key x == c) = true then f x else x) = key x := by split <;> simp [hf]
    simp only [updateWhere, List.map_cons, List.find?_cons, same] at ih ⊢
    by_cases hd : key x = d
    · subst hd
      by_cases hc : key x = c <;> simp [hc]
    · have : (key x == d) = false := by simpa using hd
      simp only [this, ih]

/-- An update of one context leaves all others (R162). -/
theorem leavesContexts_setCtx {s : State} {c e x : Nat} (f : Ctx → Ctx) (loaded : s.loaded c = true) (he : e < (s.cell c).elems.length) :
    LeavesContexts s (s.setCtx c e x f) c e x := by
  obtain ⟨-, -, others, own, -, elems, -⟩ := Moves.setCtx c e x f s loaded he
  refine ⟨others, own, elems, ?_, fun j hj => State.ctxOf_setCtx_ne s c e x c e j f loaded (by simp [hj])⟩
  rw [State.setCtx, State.cell_setElem _ _ _ _ _ loaded, if_pos rfl, Cell.elem_setElem, if_pos ⟨rfl, he⟩]
  rfl

/-- What a completion arc leaves (R115). -/
theorem leavesContexts_setArc {s : State} {c e x : Nat} (arc : Option Nat) (loaded : s.loaded c = true)
    (he : e < (s.cell c).elems.length) : LeavesContexts s (s.setArc c e x arc) c e x := by
  cases arc with
  | none => exact ⟨fun _ _ => rfl, rfl, fun _ _ => rfl, rfl, fun _ _ => rfl⟩
  | some n => exact leavesContexts_setCtx _ loaded he

theorem ctxOf_setArc {s : State} {c e x : Nat} (arc : Option Nat) (h : s.hasCtx c e x) :
    (s.setArc c e x arc).ctxOf c e x = arcCtx arc (s.ctxOf c e x) :=
  (Moves.setArc c e x arc s h.1 h.2.1).ctx h.2.2.1

theorem cells_of_setArc (s : State) (c e x : Nat) (arc : Option Nat) :
    s.setArc c e x arc = { s with cells := (s.setArc c e x arc).cells } := by cases arc <;> rfl

/-! The branches of TLBINV_COMPLETE. -/

/-- A TLBINV whose translations are removed, and which waits for their users (R39). -/
def TlbInv.begin (users : List Nat) (x : TlbInv) : TlbInv := { x with begun := true, waitFor := users }

section
variable {s : State} {v : TlbInv} (found : s.invs.find? (·.id == v.id) = some v)
include found

theorem tlbinv_waits_stores (fresh : v.begun = false) (pending : ∃ i ∈ v.before, s.storePending i = true) :
    exec (.tlbinvComplete v.id) s = .next s := by
  have waits : v.before.any s.storePending = true := List.any_eq_true.2 pending
  change execTlbinvComplete v.id s = _
  simp only [execTlbinvComplete, found, fresh, waits, Bool.not_false, if_true]

theorem tlbinv_begins (fresh : v.begun = false) (settled : ∀ i ∈ v.before, s.storePending i = false) :
    exec (.tlbinvComplete v.id) s = .next
      { s.removeTranslations v.form v.asid (v.va % 2 ^ 57) with
        invs := updateWhere (fun x : TlbInv => x.id == v.id)
          (TlbInv.begin (s.usersOf v.engine v.form v.asid (v.va % 2 ^ 57))) s.invs } := by
  have free : v.before.any s.storePending = false := List.any_eq_false.2 fun i hi => by simp [settled i hi]
  change execTlbinvComplete v.id s = _
  simp only [execTlbinvComplete, found, fresh, free, Bool.not_false, if_true, Bool.false_eq_true, if_false]
  rfl

theorem tlbinv_waits_users (begun : v.begun = true) (users : ∃ i ∈ v.waitFor, s.using v.engine i = true) :
    exec (.tlbinvComplete v.id) s = .next s := by
  have waits : v.waitFor.any (s.using v.engine) = true := List.any_eq_true.2 users
  change execTlbinvComplete v.id s = _
  simp only [execTlbinvComplete, found, begun, waits, Bool.not_true, Bool.false_eq_true, if_true, if_false]

theorem tlbinv_ends (begun : v.begun = true) (done : ∀ i ∈ v.waitFor, s.using v.engine i = false) :
    exec (.tlbinvComplete v.id) s = .next
      (State.setArc { s with invs := s.invs.filter fun x : TlbInv => x.id != v.id } v.cell v.elem v.ctx v.arc) := by
  have free : v.waitFor.any (s.using v.engine) = false := List.any_eq_false.2 fun i hi => by simp [done i hi]
  change execTlbinvComplete v.id s = _
  simp only [execTlbinvComplete, found, begun, free, Bool.not_true, Bool.false_eq_true, if_false]

end

/-- An access with a part that is not performed keeps a TLBINV waiting (R39). -/
theorem storePending_of_part {s : State} {a : Access} {p : Part} (ha : a ∈ s.accs) (hp : p ∈ a.parts) (unperformed : p.st ≠ .done) :
    s.storePending a.id = true := by
  have undone : a.doneAt 2 = false := by
    rw [Access.doneAt, List.all_eq_false]
    exact ⟨p, hp, by simp [unperformed]⟩
  rw [State.storePending, Bool.or_eq_true, List.any_eq_true]
  exact .inl ⟨a, ha, by simp [undone]⟩

/-- A part uses its translation until it is performed, for the engine's TLBINV until it is in a cell's copy (R39). -/
theorem uses_iff {p : Part} {engine : Bool} : p.uses engine = true ↔ p.st = .waiting ∨ (p.st = .inCell ∧ engine = false) := by
  rw [Part.uses]
  cases h : p.st <;> simp

theorem engine_iff {v : TlbInv} : v.engine = false ↔ v.cell ≠ hubActor := by simp [TlbInv.engine]

theorem using_of_part {s : State} {engine : Bool} {a : Access} {p : Part} (ha : a ∈ s.accs) (hp : p ∈ a.parts)
    (uses : p.uses engine = true) : s.using engine a.id = true := by
  rw [State.using, Bool.or_eq_true, Bool.or_eq_true, List.any_eq_true]
  refine .inl (.inl ⟨a, ha, ?_⟩)
  rw [beq_self_eq_true, Bool.true_and, List.any_eq_true]
  exact ⟨p, hp, uses⟩

/-- A TLBINV waits for the accesses that were translated through what it names (R39). -/
theorem mem_usersOf {s : State} {engine : Bool} {form asid va : Nat} {a : Access} {p : Part} (ha : a ∈ s.accs)
    (access : a.op ≠ .prefetch) (hp : p ∈ a.parts) (uses : p.uses engine = true)
    (named : namedPage form asid va a.asid p.va p.page = true) : a.id ∈ s.usersOf engine form asid va := by
  rw [State.usersOf, List.mem_append, List.mem_append]
  refine .inl (.inl (List.mem_map.2 ⟨a, List.mem_filter.2 ⟨ha, ?_⟩, rfl⟩))
  rw [Bool.and_eq_true, List.any_eq_true]
  exact ⟨by simp [access], p, hp, by rw [uses, named]; rfl⟩

/-! Removal. -/

/-- A cell without the translations that a TLBINV names. -/
def Cell.purged (form asid va : Nat) (c : Cell) : Cell := { c with tlb := c.tlb.filter fun e => !e.named form asid va }

theorem cell_map {s u : State} {f : Cell → Cell} (cells : u.cells = s.cells.map f) (hf : ∀ k, (f k).id = k.id) {c : Nat}
    (loaded : s.loaded c = true) : u.cell c = f (s.cell c) := by
  have found : s.cells.find? (·.id == c) = some (s.cell c) := by
    cases h : s.cells.find? (·.id == c) with
    | none =>
      rw [State.loaded, List.any_eq_true] at loaded
      obtain ⟨k, hk, id⟩ := loaded
      exact absurd id (List.find?_eq_none.1 h k hk)
    | some k => simp [State.cell, h]
  have same : ((fun k : Cell => k.id == c) ∘ f) = fun k => k.id == c := by
    funext k
    simp [hf]
  rw [State.cell, cells, List.find?_map, same, found]
  rfl

theorem removeTranslations_eq (s : State) (form asid va : Nat) : s.removeTranslations form asid (va % 2 ^ 57) =
    { s with cells := s.cells.map (Cell.purged form asid (va % 2 ^ 57))
             dies := s.dies.map fun d => { d with tlb := d.tlb.filter fun e => !e.named form asid (va % 2 ^ 57)
                                                  tableCache := d.tableCache.filter fun t => !t.named form asid (va % 2 ^ 57) } } := by
  rw [State.removeTranslations, Nat.mod_mod]
  rfl

/-- R38, R39: invalidations. -/
theorem invalidations : Invalidations := by
  intro s v found uses
  have part : ∀ p : Part, uses p → p.uses v.engine = true := fun p h => uses_iff.2 (h.imp_right fun h => ⟨h.1, engine_iff.2 h.2⟩)
  refine ⟨?_, fun fresh settled => ?_, ?_, fun begun done place => ?_⟩
  · rintro fresh ⟨a, ha, before, p, hp, unperformed⟩
    exact tlbinv_waits_stores found fresh ⟨a.id, before, storePending_of_part ha hp unperformed⟩
  · refine ⟨_, tlbinv_begins found fresh settled, ?_⟩
    rw [removeTranslations_eq]
    refine ⟨?_, ?_, rfl, fun c loaded => ?_, ?_⟩
    · intro c hc e he
      obtain ⟨k, -, rfl⟩ := List.mem_map.1 hc
      simpa using (List.mem_filter.1 he).2
    · intro d hd
      obtain ⟨k, -, rfl⟩ := List.mem_map.1 hd
      exact ⟨fun e he => by simpa using (List.mem_filter.1 he).2, fun e he => by simpa using (List.mem_filter.1 he).2⟩
    · exact cell_map (f := Cell.purged v.form v.asid (v.va % 2 ^ 57)) rfl (fun _ => rfl) loaded
    · refine ⟨{ v with begun := true, waitFor := s.usersOf v.engine v.form v.asid (v.va % 2 ^ 57) }, ?_, rfl, ?_⟩
      · exact (find_updateWhere_key (·.id) s.invs v.id v.id (f := TlbInv.begin (s.usersOf v.engine v.form v.asid (v.va % 2 ^ 57)))
          fun _ => rfl).trans (by rw [found, if_pos rfl]; rfl)
      · rintro a ha access ⟨p, hp, hu, named⟩
        exact mem_usersOf ha access hp (part p hu) named
  · rintro begun ⟨a, ha, waited, p, hp, hu⟩
    exact tlbinv_waits_users found begun ⟨a.id, waited, using_of_part ha hp (part p hu)⟩
  · refine ⟨_, tlbinv_ends found begun done, ?_⟩
    have place : State.hasCtx { s with invs := s.invs.filter fun x : TlbInv => x.id != v.id } v.cell v.elem v.ctx := place
    refine ⟨State.setArc_invs _ _ _ _ _, leavesContexts_setArc v.arc place.1 place.2.1, ?_, ?_⟩
    · rw [ctxOf_setArc v.arc place]
      cases v.arc <;> rfl
    · rw [cells_of_setArc]

end Sys2Proof.Machine
end

section
/-! # Table walks (O49, R20 to R22, R30) -/

namespace Sys2Proof.Machine
open Sys2Proof

/-- No line is locked or under recall, nobody holds a copy of one, and no error stands at home: every read at home is answered at once. -/
structure State.Calm (s : State) : Prop where
  locks : s.locks = []
  recalls : s.recalls = []
  copies : ∀ c ∈ s.cells, c.cch = []
  host : s.hostCopies = []
  sound : s.sound

/-- But for errors that an access at home does not meet, the state is still. -/
theorem State.Calm.still {s : State} (h : s.Calm) : State.Still { s with upsets := [] } :=
  ⟨h.locks, h.recalls, rfl, h.copies, h.host⟩

theorem State.Calm.conflicts {s : State} (h : s.Calm) (line : Nat) (store : Bool) (keep : Option Nat) :
    s.conflicts line store keep = [] := h.still.conflicts line store keep

theorem State.Calm.unmet {s : State} (h : s.Calm) {place : Place} (hp : place ∈ [Place.memory, .sliceData, .sliceTag, .directory])
    (a n : Nat) : ∀ u ∈ s.upsets, u.meets place a n = false := fun u hu =>
  upset_meets_place fun e => h.sound u hu (e ▸ hp)

theorem State.Calm.upsetAt {s : State} (h : s.Calm) {place : Place} (hp : place ∈ [Place.memory, .sliceData, .sliceTag, .directory])
    (a n : Nat) : s.upsetAt place a n = false := by
  rw [State.upsetAt, List.any_eq_false]
  intro u hu
  simp [h.unmet hp a n u hu]

theorem State.Calm.correctAt {s : State} (h : s.Calm) (pa n : Nat) : s.correctAt pa n = s := by
  have refetch : s.refetch pa = s := by simp [State.refetch, h.upsetAt]
  rw [State.correctAt, refetch]
  refine correctSingles_none fun u hu => ?_
  simp [h.unmet _ _ _ u hu]

theorem State.Calm.spoiled {s : State} (h : s.Calm) (pa n : Nat) : s.spoiled pa n = false := by
  simp [State.spoiled, State.sliceSpoiled, State.tagSpoiled, h.upsetAt]

/-- A table entry is read at home as it stands in memory (R36). -/
theorem State.Calm.readEntry {s : State} (h : s.Calm) (pa : Nat) : s.readEntry pa = (.value (memNat s.mem pa 8), s) := by
  have free : s.homeWaits pa false = false := by
    simp [State.homeWaits, State.busyLine, State.locked, State.recalling, State.pullWaits, h.locks, h.recalls, h.conflicts]
  have pull : s.pull (lineOf pa) false none = s := by simp [State.pull, h.conflicts]
  simp [State.readEntry, free, State.pullBad, h.conflicts, h.correctAt, h.spoiled, State.homeNat, pull]

/-- A state whose dies are others: what a walk that only reads leaves behind it. -/
def State.withDies (s : State) (ds : List Die) : State := { s with dies := ds }

theorem State.Calm.withDies {s : State} (h : s.Calm) (ds : List Die) : (s.withDies ds).Calm :=
  ⟨h.locks, h.recalls, h.copies, h.host, h.sound⟩

/-- The die's table-entry cache holds entries of higher levels alone. -/
def CachedAbove (ds : List Die) (die l : Nat) : Prop := ∀ t ∈ (ds.getD die Die.reset).tableCache, l < t.level

/-- The address of a table's entry for an address of a program (R21). -/
def tableSlot (va table level : Nat) : Nat := table + 8 * (va / 2 ^ (12 + 9 * level) % 512)
/-- The frame that a table entry names (R21, R22). -/
def frameOf (e : Nat) : Nat := e / 2 ^ 16 % 2 ^ 40 * 4096

theorem bits_frame (e : Nat) : bits e 55 16 * 4096 = frameOf e := by simp [bits, frameOf]

theorem bits_slot (va table level : Nat) : table + 8 * bits va (20 + 9 * level) (12 + 9 * level) = tableSlot va table level := by
  rw [bits, show 20 + 9 * level + 1 - (12 + 9 * level) = 9 by omega]
  rfl

section
variable {s : State} (calm : s.Calm) {ds : List Die} {die asid va : Nat}
include calm

/-- An entry of a level that the die does not hold is read from memory (R36). -/
theorem readTable_uncached {l : Nat} (above : CachedAbove ds die l) (pa : Nat) :
    (s.withDies ds).readTable die asid va l pa = (.value (memNat s.mem pa 8), s.withDies ds) := by
  have missed : ((s.withDies ds).die die).tableCache.find?
      (fun t => t.asid == asid && t.level == l && t.va == va / pageSize l) = none := by
    rw [List.find?_eq_none]
    intro t ht
    have : t.level ≠ l := Nat.ne_of_gt (above t ht)
    simp [this]
  rw [State.readTable, missed]
  exact (calm.withDies ds).readEntry pa

omit calm in
/-- An entry that a walk keeps is of the level that it read. -/
theorem keepTable_above {l v : Nat} (above : CachedAbove ds die (l + 1)) : ∃ ds', CachedAbove ds' die l ∧
    (s.withDies ds).keepTable die asid va (l + 1) v = s.withDies ds' := by
  refine ⟨((s.withDies ds).keepTable die asid va (l + 1) v).dies, ?_, rfl⟩
  intro t ht
  have old : ∀ t ∈ (ds.getD die Die.reset).tableCache, l < t.level := fun t ht => Nat.lt_of_succ_lt (above t ht)
  simp only [State.keepTable, State.setDie, modifyAt, getD_modify] at ht
  split at ht
  · split at ht
    · exact old t ht
    · dsimp only at ht
      have ht := List.mem_of_mem_drop ht
      rcases List.mem_append.1 ht with ht | ht
      · exact old t ht
      · rw [List.mem_singleton.1 ht]
        exact Nat.lt_succ_self l
  · exact old t ht

/-! One level of the walk. -/

theorem walkFrom_invalid {l table : Nat} (above : CachedAbove ds die l)
    (invalid : (memNat s.mem (tableSlot va table l) 8).testBit 0 = false) :
    ((s.withDies ds).walkFrom die asid va (l + 1) table).1 = .cause 0 := by
  rw [State.walkFrom, bits_slot, readTable_uncached calm above]
  simp only [bit_eq_testBit, invalid, Bool.not_false, if_true]

/-- An entry of an upper level that names a table leads to it (R21, R22). -/
theorem walkFrom_next {l table e : Nat} (above : CachedAbove ds die (l + 1)) (he : memNat s.mem (tableSlot va table (l + 1)) 8 = e)
    (ok : e.testBit 0 = true ∧ e.testBit 1 = false ∧ s.tableCause asid (frameOf e) = none) :
    ∃ ds', CachedAbove ds' die l ∧ (s.withDies ds).walkFrom die asid va (l + 2) table =
      (s.withDies ds').walkFrom die asid va (l + 1) (frameOf e) := by
  obtain ⟨valid, noLeaf, frame⟩ := ok
  obtain ⟨ds', above', keeps⟩ := keepTable_above (s := s) (asid := asid) (va := va) (v := e) above
  refine ⟨ds', above', ?_⟩
  have frame' : (s.withDies ds).tableCause asid (frameOf e) = none := frame
  rw [State.walkFrom, bits_slot, readTable_uncached calm above]
  simp only [he, bit_eq_testBit, valid, noLeaf, bits_frame, frame', keeps, Bool.not_true, Bool.false_eq_true, if_false,
    Nat.succ_ne_zero]

/-- A last-level entry that is no leaf ends the walk (R21). -/
theorem walkFrom_noLeaf {table e : Nat} (above : CachedAbove ds die 0) (he : memNat s.mem (tableSlot va table 0) 8 = e)
    (valid : e.testBit 0 = true) (noLeaf : e.testBit 1 = false) : ((s.withDies ds).walkFrom die asid va 1 table).1 = .cause 2 := by
  rw [State.walkFrom, bits_slot, readTable_uncached calm above]
  simp only [he, bit_eq_testBit, valid, noLeaf, Bool.not_true, Bool.false_eq_true, if_false, if_true]

/-- A 4 KiB leaf ends the walk, with its defect if it has one (R21, R23, R30). -/
theorem walkFrom_leaf {table e : Nat} (above : CachedAbove ds die 0) (he : memNat s.mem (tableSlot va table 0) 8 = e)
    (valid : e.testBit 0 = true) (leaf : e.testBit 1 = true) : ((s.withDies ds).walkFrom die asid va 1 table).1 =
      match s.leafCause asid e 0 with | some c => .cause c | none => .leaf e (tableSlot va table 0) 0 := by
  have defect : (s.withDies ds).leafCause asid e 0 = s.leafCause asid e 0 := rfl
  rw [State.walkFrom, bits_slot, readTable_uncached calm above]
  simp only [he, bit_eq_testBit, valid, leaf, defect, Bool.not_true, Bool.false_eq_true, if_false, if_true,
    ge_iff_le]
  cases s.leafCause asid e 0 <;> rfl

end

/-- A walk reads its ASID's root, and goes on from the table that the root names (R19, R20). -/
theorem walk_root {s : State} (calm : s.Calm) {die asid va : Nat} (program : asid ≠ 0) (en : s.hub.asidEn = true)
    (empty : (s.die die).tableCache = []) (frame : s.tableCause 0 ((s.hub.asidBase * 2 ^ 19 + 8 * asid) / 4096 * 4096) = none) :
    let root := memNat s.mem (s.hub.asidBase * 2 ^ 19 + 8 * asid) 8
    (root.testBit 0 = false → (s.walk die asid va).1 = .cause 0) ∧
    (root.testBit 0 = true → s.tableCause asid (frameOf root) = none → ∃ ds, CachedAbove ds die 4 ∧
      s.walk die asid va = (s.withDies ds).walkFrom die asid va 5 (frameOf root)) := by
  intro root
  have above : CachedAbove s.dies die 5 := fun t ht => by
    have : t ∈ (s.die die).tableCache := ht
    rw [empty] at this
    cases this
  have read : s.readTable die asid va 5 (s.hub.asidBase * 2 ^ 19 + 8 * asid) = (.value root, s) :=
    readTable_uncached calm (ds := s.dies) above _
  refine ⟨fun invalid => ?_, fun valid next => ?_⟩
  · simp only [State.walk, if_neg program, en, frame, read, bit_eq_testBit, invalid, Bool.not_true, Bool.not_false, Bool.false_eq_true,
      if_false, if_true]
  · obtain ⟨ds, above', keeps⟩ := keepTable_above (s := s) (asid := asid) (va := va) (v := root) above
    have keeps : s.keepTable die asid va 5 root = s.withDies ds := keeps
    refine ⟨ds, above', ?_⟩
    simp only [State.walk, if_neg program, en, frame, read, bit_eq_testBit, valid, bits_frame, next, keeps, Bool.not_true,
      Bool.false_eq_true, if_false]

/-- R20 to R22, R30: table walks. -/
theorem tableWalks : TableWalks := by
  intro s die asid va program en _ empty copies host locks recalls sound slot next ok rootAt root frame
  have calm : s.Calm := ⟨locks, recalls, copies, host, sound⟩
  obtain ⟨invalid, valid⟩ := walk_root (va := va) calm program en empty frame
  refine ⟨invalid, ?_⟩
  intro hr hf e4 e3 e2 e1 e0
  obtain ⟨d4, above4, walk⟩ := valid hr hf
  rw [walk]
  refine ⟨fun h => walkFrom_invalid calm above4 h, fun ok4 ok3 ok2 ok1 => ?_⟩
  obtain ⟨d3, above3, to3⟩ := walkFrom_next calm above4 (e := e4) rfl ok4
  obtain ⟨d2, above2, to2⟩ := walkFrom_next calm above3 (e := e3) rfl ok3
  obtain ⟨d1, above1, to1⟩ := walkFrom_next calm above2 (e := e2) rfl ok2
  obtain ⟨d0, above0, to0⟩ := walkFrom_next calm above1 (e := e1) rfl ok1
  have down : (s.withDies d4).walkFrom die asid va 5 (frameOf root) = (s.withDies d0).walkFrom die asid va 1 (frameOf e1) :=
    ((to3.trans to2).trans to1).trans to0
  rw [down]
  exact ⟨fun h => walkFrom_invalid calm above0 h, fun h k => walkFrom_noLeaf calm above0 rfl h k,
    fun h k => walkFrom_leaf calm above0 rfl h k⟩

end Sys2Proof.Machine
end

section
/-! # Leaves written (O49, R43, R45, R47) -/

namespace Sys2Proof.Machine
open Sys2Proof

/-! What a coherent load would bind depends on memory and on the copies alone. -/

theorem findSome_of_copies {s u : State} (copies : u.cells.map (·.cch) = s.cells.map (·.cch)) {α : Type} (f : Option CchLine → Option α)
    (line : Nat) : (u.cells.findSome? fun c => f (c.line? line)) = s.cells.findSome? fun c => f (c.line? line) := by
  have through (cs : List Cell) :
      (cs.findSome? fun c => f (c.line? line)) = (cs.map (·.cch)).findSome? fun ls => f (ls.find? (·.pa == line)) := by
    rw [List.findSome?_map]
    rfl
  rw [through, through, copies]

theorem coherentByte_of_copies {s u : State} (mem : u.mem = s.mem) (host : u.hostCopies = s.hostCopies)
    (copies : u.cells.map (·.cch) = s.cells.map (·.cch)) (pa : Nat) : u.coherentByte pa = s.coherentByte pa := by
  have owned := findSome_of_copies copies (fun l => l.bind fun l => if l.owned then some l else none) (lineOf pa)
  have host : u.copyOf hostAgent = s.copyOf hostAgent := by
    funext line
    simp only [State.copyOf, if_true, host]
  simp only [State.coherentByte, owned, host, mem]

theorem coherentNat_of_copies {s u : State} (mem : u.mem = s.mem) (host : u.hostCopies = s.hostCopies)
    (copies : u.cells.map (·.cch) = s.cells.map (·.cch)) (pa n : Nat) : u.coherentNat pa n = s.coherentNat pa n := by
  simp only [State.coherentNat, coherentByte_of_copies mem host copies]

theorem cch_setCtx (s : State) (c e x : Nat) (f : Ctx → Ctx) : (s.setCtx c e x f).cells.map (·.cch) = s.cells.map (·.cch) :=
  map_updateWhere (·.id == c) (fun k => k.setElem e fun k => k.setCtx x f) (·.cch) (fun _ => rfl) s.cells

/-- A field of a cell that an update of every cell keeps. -/
theorem cell_map_same {α : Type} (g : Cell → α) {s u : State} {f : Cell → Cell} (cells : u.cells = s.cells.map f)
    (id : ∀ k, (f k).id = k.id) (same : ∀ k, g (f k) = g k) (c : Nat) : g (u.cell c) = g (s.cell c) := by
  have key : ((fun k : Cell => k.id == c) ∘ f) = fun k => k.id == c := by
    funext k
    simp [id]
  rw [State.cell, cells, List.find?_map, key, State.cell]
  cases s.cells.find? (·.id == c) with
  | none => rfl
  | some k => exact same k

/-! Translations of several lanes. -/

/-- Some translation faults and none waits for a walk: the access faults (R375). -/
theorem failure_isSome {mark : Nat → Nat} {rs : List (Nat × Nat × Trans)} (walked : ∀ r ∈ rs, r.2.2 ≠ .busy) :
    (failure mark rs).isSome = true ↔ ∃ r ∈ rs, ∃ code cause, r.2.2 = .fault code cause := by
  have settled : rs.any (·.2.2 == .busy) = false := List.any_eq_false.2 fun r hr => by simp [walked r hr]
  simp only [failure, settled, Bool.false_eq_true, if_false]
  split
  · next none =>
    rw [List.filterMap_eq_nil_iff] at none
    simp only [Option.isSome_none, Bool.false_eq_true, false_iff]
    rintro ⟨r, hr, code, cause, fault⟩
    have := none r hr
    rw [fault] at this
    cases this
  · next b bs some =>
    simp only [Option.isSome_some, true_iff]
    have hb : b ∈ rs.filterMap _ := some ▸ List.mem_cons_self
    obtain ⟨r, hr, eq⟩ := List.mem_filterMap.1 hb
    refine ⟨r, hr, ?_⟩
    cases trans : r.2.2 with
    | fault code cause => exact ⟨code, cause, rfl⟩
    | busy => rw [trans] at eq; cases eq
    | ok pa leaf page => rw [trans] at eq; cases eq
    | mig pa leaf lp v => rw [trans] at eq; cases eq

theorem waitOf_walked {asid : Nat} {k : Kind} {rs : List (Nat × Nat × Trans)} (walked : ∀ r ∈ rs, r.2.2 ≠ .busy) :
    waitOf asid k rs = rs.findSome? fun r => match r.2.2 with
      | .mig _ _ leafPa value => some (.migLeaf leafPa value asid (rs.map (·.2.1)) k)
      | _ => none := by
  have settled : rs.any (·.2.2 == .busy) = false := List.any_eq_false.2 fun r hr => by simp [walked r hr]
  simp only [waitOf, settled, Bool.false_eq_true, if_false] <;> rfl

/-- No translation meets a migrating leaf: there is nothing to wait for. -/
theorem waitOf_none {asid : Nat} {k : Kind} {rs : List (Nat × Nat × Trans)} (walked : ∀ r ∈ rs, r.2.2 ≠ .busy)
    (settled : ∀ r ∈ rs, ∀ pa leaf lp v, r.2.2 ≠ .mig pa leaf lp v) : waitOf asid k rs = none := by
  rw [waitOf_walked walked, List.findSome?_eq_none_iff]
  intro r hr
  cases trans : r.2.2 with
  | mig pa leaf lp v => exact absurd trans (settled r hr pa leaf lp v)
  | busy => rfl
  | ok pa leaf page => rfl
  | fault code cause => rfl

/-- The first lane that meets a migrating leaf names the leaf to wait for (R43). -/
theorem waitOf_mig {asid : Nat} {k : Kind} {before after : List (Nat × Nat × Trans)} {l va pa leaf lp v : Nat}
    (walked : ∀ r ∈ before ++ (l, va, .mig pa leaf lp v) :: after, r.2.2 ≠ .busy)
    (settled : ∀ r ∈ before, ∀ pa leaf lp v, r.2.2 ≠ .mig pa leaf lp v) :
    waitOf asid k (before ++ (l, va, .mig pa leaf lp v) :: after) =
      some (.migLeaf lp v asid ((before ++ (l, va, .mig pa leaf lp v) :: after).map (·.2.1)) k) := by
  rw [waitOf_walked walked, List.findSome?_append, List.findSome?_eq_none_iff.2, List.findSome?_cons]
  · rfl
  · intro r hr
    cases trans : r.2.2 with
    | mig pa leaf lp v => exact absurd trans (settled r hr pa leaf lp v)
    | busy => rfl
    | ok pa leaf page => rfl
    | fault code cause => rfl

/-! One step of a run that matters. -/

/-- A run of steps of which one alone changes the state. -/
theorem foldl_once {α σ : Type} {f : σ → α → σ} {l : List α} {a : α} {s u : σ} (nodup : l.Nodup) (ha : a ∈ l) (step : f s a = u)
    (before : ∀ b, b ≠ a → f s b = s) (after : ∀ b, b ≠ a → f u b = u) : l.foldl f s = u := by
  have stays : ∀ (t : σ) (xs : List α), a ∉ xs → (∀ b, b ≠ a → f t b = t) → xs.foldl f t = t := by
    intro t xs
    induction xs with
    | nil => exact fun _ _ => rfl
    | cons x xs ih =>
      intro absent idle
      rw [List.foldl_cons, idle x fun e => absent (e ▸ List.mem_cons_self)]
      exact ih (fun h => absent (List.mem_cons_of_mem x h)) idle
  obtain ⟨pre, post, rfl⟩ := List.append_of_mem ha
  obtain ⟨-, nodupPost, apart⟩ := List.nodup_append.1 nodup
  rw [List.foldl_append, stays s pre (fun h => apart a h a List.mem_cons_self rfl) before, List.foldl_cons, step,
    stays u post (List.nodup_cons.1 nodupPost).1 after]

theorem foldl_idle {α σ : Type} {f : σ → α → σ} {l : List α} {s : σ} (idle : ∀ b, f s b = s) : l.foldl f s = s := by
  induction l with
  | nil => rfl
  | cons x xs ih => rw [List.foldl_cons, idle, ih]

/-- Two nested runs are one run over the pairs. -/
theorem foldl_nested {α β σ : Type} (f : σ → α → β → σ) (xs : List α) (ys : List β) (s : σ) :
    xs.foldl (fun s x => ys.foldl (fun s y => f s x y) s) s = (xs ×ˢ ys).foldl (fun s p => f s p.1 p.2) s := by
  induction xs generalizing s with
  | nil => rfl
  | cons x xs ih => rw [List.product_cons, List.foldl_append, List.foldl_map, List.foldl_cons, ih]

/-! The step. -/

/-- The logged stores of a cell whose replay is due when the leaves of a line are written (R47). -/
def State.dueIn (s : State) (line : Nat) (c : Cell) (e : SideEntry) : Bool :=
  c.sideLog.any fun k => k.asid == e.asid && k.page == e.page && k.mig.any fun m => s.leafMoved line m.1 m.2

/-- The state in which every logged store whose leaf has moved is due. -/
def State.marked (s : State) (line : Nat) : State :=
  { s with cells := s.cells.map fun c =>
      { c with sideLog := c.sideLog.map fun e => if s.dueIn line c e then { e with replaying := true } else e } }

/-- The places of the contexts of the cells: a cell's number, and 4 times an element's with a context's (R162). -/
def State.contextPlaces (s : State) : List (Nat × Nat) := s.cells.map (·.id) ×ˢ List.range 16

theorem exec_migLeafWritten (line : Nat) (s : State) : exec (.migLeafWritten line) s = .next
    (s.contextPlaces.foldl (fun s p => s.rewalk line p.1 (p.2 / 4) (p.2 % 4)) (s.marked line)) := by
  rw [State.contextPlaces, ← foldl_nested fun (s : State) c i => s.rewalk line c (i / 4) (i % 4)]
  rfl

theorem ctxOf_marked (s : State) (line c e x : Nat) : (s.marked line).ctxOf c e x = s.ctxOf c e x :=
  cell_map_same (·.ctx e x) (s := s) (u := s.marked line) rfl (by exact fun _ => rfl) (by exact fun _ => rfl) c

theorem leafMoved_of_copies {s u : State} (mem : u.mem = s.mem) (host : u.hostCopies = s.hostCopies)
    (copies : u.cells.map (·.cch) = s.cells.map (·.cch)) (line pa v : Nat) : u.leafMoved line pa v = s.leafMoved line pa v := by
  rw [State.leafMoved, coherentNat_of_copies mem host copies, State.leafMoved]

theorem leafMoved_marked (s : State) (line pa v : Nat) : (s.marked line).leafMoved line pa v = s.leafMoved line pa v := by
  have copies : (s.marked line).cells.map (·.cch) = s.cells.map (·.cch) := by
    rw [State.marked, List.map_map]
    rfl
  exact leafMoved_of_copies (s := s) (u := s.marked line) rfl rfl copies line pa v

/-- A context that waits for no leaf that has moved is left as it is. -/
def State.unmoved (s : State) (line c e x : Nat) : Prop :=
  ∀ pa v asid vas k, (s.ctxOf c e x).wait = some (.migLeaf pa v asid vas k) → s.leafMoved line pa v = false

theorem rewalk_unmoved {s : State} {line c e x : Nat} (h : s.unmoved line c e x) : s.rewalk line c e x = s := by
  rw [State.rewalk]
  split
  · next pa v asid vas k wait => simp [h pa v asid vas k wait]
  · rfl

theorem unmoved_marked {s : State} {line c e x : Nat} (h : s.unmoved line c e x) : (s.marked line).unmoved line c e x := by
  intro pa v asid vas k wait
  rw [ctxOf_marked] at wait
  rw [leafMoved_marked]
  exact h pa v asid vas k wait

/-- An update of another context changes nothing for this one. -/
theorem unmoved_setCtx {s : State} {line c e x d j y : Nat} (f : Ctx → Ctx) (loaded : s.loaded c = true)
    (other : (d, j, y) ≠ (c, e, x)) (h : s.unmoved line d j y) : (s.setCtx c e x f).unmoved line d j y := by
  intro pa v asid vas k wait
  rw [State.ctxOf_setCtx_ne s c e x d j y f loaded other] at wait
  rw [leafMoved_of_copies (s := s) (u := s.setCtx c e x f) rfl rfl (cch_setCtx s c e x f)]
  exact h pa v asid vas k wait

/-- The results of the walks of a held load's lanes. -/
def walkedLanes (vas : List Nat) (r : Nat → Trans) : List (Nat × Nat × Trans) := vas.map fun va => (0, va, r va)

theorem mem_walkedLanes {vas : List Nat} {r : Nat → Trans} {q : Nat × Nat × Trans} (h : q ∈ walkedLanes vas r) :
    ∃ va ∈ vas, q = (0, va, r va) := by
  obtain ⟨va, hva, rfl⟩ := List.mem_map.1 h
  exact ⟨va, hva, rfl⟩

/-- A held load whose leaf has moved walks again for all its lanes (R43). -/
theorem rewalk_moved {s : State} {line c e x pa v asid : Nat} {vas : List Nat} {k : Kind} {r : Nat → Trans}
    (wait : (s.ctxOf c e x).wait = some (.migLeaf pa v asid vas k)) (moved : s.leafMoved line pa v = true)
    (walks : ∀ va ∈ vas, s.translateFor c asid k va = (r va, s)) :
    s.rewalk line c e x = if (walkedLanes vas r).any (·.2.2 == .busy) then s else s.setCtx c e x fun q =>
      { q with wait := if (failure laneMark (walkedLanes vas r)).isSome then none else waitOf asid k (walkedLanes vas r) } := by
  have run : ∀ (vs : List Nat) (acc : List (Nat × Nat × Trans)), (∀ va ∈ vs, va ∈ vas) →
      vs.foldl (fun (r : List (Nat × Nat × Trans) × State) va =>
        let q := r.2.translateFor c asid k va
        (r.1 ++ [(0, va, q.1)], q.2)) (acc, s) = (acc ++ walkedLanes vs r, s) := by
    intro vs
    induction vs with
    | nil => exact fun acc _ => by simp [walkedLanes]
    | cons va vs ih =>
      intro acc sub
      have step := walks va (sub va List.mem_cons_self)
      rw [List.foldl_cons]
      simp only [step]
      rw [ih _ fun w hw => sub w (List.mem_cons_of_mem va hw)]
      simp [walkedLanes]
  have all := run vas [] fun _ h => h
  rw [List.nil_append] at all
  simp only [State.rewalk, wait, moved, Bool.not_true, Bool.false_eq_true, if_false, all]

/-- R43, R45, R47: leaves written. -/
theorem leavesWritten : LeavesWritten := by
  intro s line moved due marked still
  have unmoved : ∀ {c e x}, still c e x → s.unmoved line c e x := fun h => h
  refine ⟨fun idle => ?_, ?_⟩
  · rw [exec_migLeafWritten]
    exact congrArg Host.Outcome.next (foldl_idle fun p => rewalk_unmoved (unmoved_marked (unmoved (idle _ _ _))))
  intro c e x pa v asid vas k place he hx ids others wait leaf r walks goes
  -- The one context that waits for a leaf that has moved is met once; no other step changes the state.
  have run : ∀ u, (s.marked line).rewalk line c e x = u →
      (∀ d j y, (d, j, y) ≠ (c, e, x) → u.unmoved line d j y) → exec (.migLeafWritten line) s = .next u := by
    intro u step after
    have apart : ∀ p : Nat × Nat, p ≠ (c, 4 * e + x) → (p.1, p.2 / 4, p.2 % 4) ≠ (c, e, x) := by
      rintro ⟨d, i⟩ hp eq
      obtain ⟨rfl, rfl, rfl⟩ : d = c ∧ i / 4 = e ∧ i % 4 = x := by simpa using eq
      exact hp (by rw [Nat.div_add_mod])
    have here : (4 * e + x) / 4 = e ∧ (4 * e + x) % 4 = x := by omega
    have listed : (c, 4 * e + x) ∈ s.contextPlaces := by
      obtain ⟨k, hk, id⟩ := List.any_eq_true.1 place.1
      refine List.mem_product.2 ⟨List.mem_map.2 ⟨k, hk, by simpa using id⟩, List.mem_range.2 (by omega)⟩
    rw [exec_migLeafWritten, foldl_once (l := s.contextPlaces) (ids.product List.nodup_range) listed (u := u)]
    · rw [here.1, here.2]
      exact step
    · exact fun p hp => rewalk_unmoved (unmoved_marked (unmoved (others _ _ _ (apart p hp))))
    · exact fun p hp => rewalk_unmoved (after _ _ _ (apart p hp))
  have waitMarked : ((s.marked line).ctxOf c e x).wait = some (.migLeaf pa v asid vas k) := by rw [ctxOf_marked, wait]
  have leafMarked : (s.marked line).leafMoved line pa v = true := (leafMoved_marked s line pa v).trans leaf
  have step := rewalk_moved waitMarked leafMarked walks
  have loaded : (s.marked line).loaded c = true := by
    rw [State.loaded, State.marked, List.any_map]
    exact place.1
  have settles (w : Option Wait) (walked : ∀ va ∈ vas, r va ≠ .busy)
      (h : (if (failure laneMark (walkedLanes vas r)).isSome then none else waitOf asid k (walkedLanes vas r)) = w) : goes w := by
    have free : (walkedLanes vas r).any (·.2.2 == .busy) = false := by
      rw [List.any_eq_false]
      intro q hq
      obtain ⟨va, hva, rfl⟩ := mem_walkedLanes hq
      simp [walked va hva]
    rw [free, h] at step
    exact run _ step fun d j y other => unmoved_setCtx _ loaded other (unmoved_marked (unmoved (others d j y other)))
  have walkedOf : (∀ va ∈ vas, r va ≠ .busy) → ∀ q ∈ walkedLanes vas r, q.2.2 ≠ .busy := by
    intro walked q hq
    obtain ⟨va, hva, rfl⟩ := mem_walkedLanes hq
    exact walked va hva
  refine ⟨?_, ?_, ?_, ?_⟩
  · rintro ⟨va, hva, busy⟩
    have waits : (walkedLanes vas r).any (·.2.2 == .busy) = true :=
      List.any_eq_true.2 ⟨_, List.mem_map.2 ⟨va, hva, rfl⟩, by simp [busy]⟩
    rw [waits] at step
    exact run _ step fun d j y other => unmoved_marked (unmoved (others d j y other))
  · rintro walked ⟨va, hva, code, cause, fault⟩
    refine settles none walked (if_pos ((failure_isSome (walkedOf walked)).2 ⟨_, List.mem_map.2 ⟨va, hva, rfl⟩, code, cause, fault⟩))
  · intro ok
    have walked : ∀ va ∈ vas, r va ≠ .busy := fun va hva => by
      obtain ⟨pa, leaf, page, eq⟩ := ok va hva
      simp [eq]
    have sound : ¬(failure laneMark (walkedLanes vas r)).isSome = true := by
      rw [failure_isSome (walkedOf walked)]
      rintro ⟨q, hq, code, cause, fault⟩
      obtain ⟨va, hva, rfl⟩ := mem_walkedLanes hq
      obtain ⟨pa, leaf, page, eq⟩ := ok va hva
      cases eq.symm.trans fault
    refine settles none walked ((if_neg sound).trans (waitOf_none (walkedOf walked) fun q hq pa leaf lp v mig => ?_))
    obtain ⟨va, hva, rfl⟩ := mem_walkedLanes hq
    obtain ⟨pa', leaf', page, eq⟩ := ok va hva
    cases eq.symm.trans mig
  · intro before va after split walked sound first fpa leaf lp v' mig
    have soundAll : ¬(failure laneMark (walkedLanes vas r)).isSome = true := by
      rw [failure_isSome (walkedOf walked)]
      rintro ⟨q, hq, code, cause, fault⟩
      obtain ⟨va, hva, rfl⟩ := mem_walkedLanes hq
      exact sound va hva code cause fault
    have lanes : walkedLanes vas r = walkedLanes before r ++ (0, va, .mig fpa leaf lp v') :: walkedLanes after r := by
      simp only [walkedLanes, split, List.map_append, List.map_cons, mig]
    have addresses : (walkedLanes vas r).map (·.2.1) = vas := by
      rw [walkedLanes, List.map_map]
      exact List.map_id vas
    refine settles _ walked ((if_neg soundAll).trans ?_)
    have walkedAll := walkedOf walked
    rw [lanes] at walkedAll addresses ⊢
    rw [waitOf_mig walkedAll, addresses]
    intro q hq pa leaf lp v
    obtain ⟨b, hb, rfl⟩ := mem_walkedLanes hq
    exact first b hb pa leaf lp v

end Sys2Proof.Machine
end

section
/-! # Walks ahead (O49, R36, R42) -/

namespace Sys2Proof.Machine
open Sys2Proof

/-- The walks under way stay, and so do the cells and the dies, whatever becomes of what they hold. -/
structure Keeps (s u : State) : Prop where
  walks : u.walks = s.walks
  loaded : ∀ c, u.loaded c = s.loaded c
  dies : u.dies.length = s.dies.length

theorem Keeps.refl (s : State) : Keeps s s := ⟨rfl, fun _ => rfl, rfl⟩

theorem Keeps.trans {s u w : State} (h : Keeps s u) (k : Keeps u w) : Keeps s w :=
  ⟨k.walks.trans h.walks, fun c => (k.loaded c).trans (h.loaded c), k.dies.trans h.dies⟩

/-- A run of steps keeps what each of them keeps. -/
theorem Keeps.foldl {α : Type} {f : State → α → State} (h : ∀ s x, Keeps s (f s x)) (xs : List α) (s : State) :
    Keeps s (xs.foldl f s) := by
  induction xs generalizing s with
  | nil => exact Keeps.refl s
  | cons x xs ih => exact (h s x).trans (ih _)

theorem Keeps.setCell (s : State) (c : Nat) {f : Cell → Cell} (h : ∀ k, (f k).id = k.id) : Keeps s (s.setCell c f) :=
  ⟨rfl, fun d => State.loaded_setCell s c d f h, rfl⟩

theorem Keeps.setDie (s : State) (d : Nat) (f : Die → Die) : Keeps s (s.setDie d f) :=
  ⟨rfl, fun _ => rfl, List.length_modify ..⟩

/-! What becomes of a copy that is recalled (R91, R92). -/

theorem Keeps.writeBytes (s : State) (l : CchLine) (mask : Nat) : Keeps s (s.writeBytes l mask) := by
  rw [State.writeBytes]
  split
  · exact Keeps.refl s
  · exact ⟨rfl, fun _ => rfl, rfl⟩

theorem Keeps.writeDescs (s : State) (l : CchLine) (blocks : Nat) : Keeps s (s.writeDescs l blocks) := by
  refine Keeps.foldl (fun s b => ?_) _ s
  split
  · exact ⟨rfl, fun _ => rfl, rfl⟩
  · exact Keeps.refl s

theorem Keeps.dropCopy (s : State) (agent line : Nat) : Keeps s (s.dropCopy agent line) := by
  rw [State.dropCopy]
  split
  · exact ⟨rfl, fun _ => rfl, rfl⟩
  · exact Keeps.setCell s agent fun _ => rfl

theorem Keeps.setGroupLine (s : State) (region i : Nat) (ls : List DirMode) (m : DirMode) : Keeps s (s.setGroupLine region i ls m) :=
  ⟨rfl, fun _ => rfl, rfl⟩

theorem Keeps.dirDrop (s : State) (agent line : Nat) : Keeps s (s.dirDrop agent line) := by
  simp only [State.dirDrop]
  split
  · exact Keeps.refl s
  · split
    · exact Keeps.setGroupLine s _ _ _ _
    · split
      · exact ⟨rfl, fun _ => rfl, rfl⟩
      · exact Keeps.refl s
    · exact Keeps.refl s

theorem Keeps.dirRelease (s : State) (line : Nat) : Keeps s (s.dirRelease line) := by
  simp only [State.dirRelease]
  split
  · split
    · exact Keeps.setGroupLine s _ _ _ _
    · exact Keeps.refl s
  · exact Keeps.refl s

theorem Keeps.evictLine (s : State) (agent line : Nat) : Keeps s (s.evictLine agent line) := by
  rw [State.evictLine]
  split
  · exact Keeps.refl s
  · next l _ =>
    have written := (Keeps.writeBytes s l l.dirty).trans (Keeps.writeDescs _ l 3)
    have carried : Keeps s (((s.writeBytes l l.dirty).writeDescs l 3).carryErrors agent l) :=
      written.trans ⟨rfl, fun _ => rfl, rfl⟩
    have merged := (carried.trans (Keeps.dropCopy _ agent line)).trans
      (w := ((((s.writeBytes l l.dirty).writeDescs l 3).carryErrors agent l).dropCopy agent line).merged agent line (2 ^ 128 - 1))
      ⟨rfl, fun _ => rfl, rfl⟩
    dsimp only
    split
    · exact merged.trans (Keeps.dirDrop _ agent line)
    · exact merged

theorem Keeps.pull (s : State) (line : Nat) (store : Bool) (keep : Option Nat) : Keeps s (s.pull line store keep) := by
  rw [State.pull]
  split
  · exact Keeps.refl s
  · have recalled := Keeps.foldl (fun s c => Keeps.evictLine s c line) (s.conflicts line store keep) s
    dsimp only
    split
    · exact recalled.trans (Keeps.dirRelease _ line)
    · exact recalled

/-! Reads and writes at home (R36, R87). -/

theorem Keeps.correctSingles (s : State) (die : Nat) (hit : Upset → Bool) : Keeps s (s.correctSingles die hit) := by
  simp only [State.correctSingles]
  split
  · exact Keeps.refl s
  · exact ⟨rfl, fun _ => rfl, List.length_modify ..⟩

theorem Keeps.correctAt (s : State) (pa n : Nat) : Keeps s (s.correctAt pa n) := by
  have refetched : Keeps s (s.refetch pa) := by
    rw [State.refetch]
    split
    · exact ⟨rfl, fun _ => rfl, rfl⟩
    · exact Keeps.refl s
  exact refetched.trans (Keeps.correctSingles _ _ _)

theorem Keeps.storeNow (s : State) (pa : Nat) (bs : List Nat) : Keeps s (s.storeNow none pa bs none) :=
  (Keeps.pull s (lineOf pa) true none).trans ⟨rfl, fun _ => rfl, rfl⟩

theorem Keeps.readEntry (s : State) (pa : Nat) : Keeps s (s.readEntry pa).2 := by
  rw [State.readEntry]
  split
  · exact Keeps.refl s
  · split
    · exact Keeps.setDie s _ _
    · have corrected := Keeps.correctAt s pa 8
      dsimp only
      split
      · exact corrected.trans (Keeps.setDie _ _ _)
      · exact corrected.trans (Keeps.pull _ _ _ _)

theorem Keeps.readTable (s : State) (die asid va level pa : Nat) : Keeps s (s.readTable die asid va level pa).2 := by
  rw [State.readTable]
  split
  · exact Keeps.refl s
  · exact Keeps.readEntry s pa

theorem Keeps.keepTable (s : State) (die asid va level v : Nat) : Keeps s (s.keepTable die asid va level v) := Keeps.setDie s die _

theorem Keeps.walkFrom (fuel : Nat) (s : State) (die asid va table : Nat) : Keeps s (s.walkFrom die asid va fuel table).2 := by
  induction fuel generalizing s table with
  | zero => exact Keeps.refl s
  | succ fuel ih =>
    have read := Keeps.readTable s die asid va fuel (table + 8 * bits va (20 + 9 * fuel) (12 + 9 * fuel))
    rw [State.walkFrom]
    split
    · next eq => rw [eq] at read; exact read
    · next eq => rw [eq] at read; exact read
    · next e u eq =>
      rw [eq] at read
      dsimp only at read ⊢
      have stops (w : Walked) : Keeps s (w, u).2 := read
      split
      · exact stops _
      · split
        · split
          · exact stops _
          · split
            · exact stops _
            · exact stops _
        · split
          · exact stops _
          · split
            · exact stops _
            · exact (read.trans (Keeps.keepTable _ _ _ _ _ _)).trans (ih _ _)

theorem Keeps.walk (s : State) (die asid va : Nat) : Keeps s (s.walk die asid va).2 := by
  by_cases program : asid = 0
  · rw [State.walk, if_pos program]
    exact Keeps.walkFrom 5 s die asid va _
  cases en : s.hub.asidEn with
  | false =>
    simp only [State.walk, if_neg program, en, Bool.not_false, if_true]
    exact Keeps.refl s
  | true =>
    cases frame : s.tableCause 0 ((s.hub.asidBase * 2 ^ 19 + 8 * asid) / 4096 * 4096) with
    | some c =>
      simp only [State.walk, if_neg program, en, frame, Bool.not_true, Bool.false_eq_true, if_false]
      exact Keeps.refl s
    | none =>
      have read := Keeps.readTable s die asid va 5 (s.hub.asidBase * 2 ^ 19 + 8 * asid)
      generalize entry : s.readTable die asid va 5 (s.hub.asidBase * 2 ^ 19 + 8 * asid) = r at read
      simp only [State.walk, if_neg program, en, frame, entry, Bool.not_true, Bool.false_eq_true, if_false]
      obtain ⟨value | _ | _, u⟩ := r
      · dsimp only at read ⊢
        split
        · exact read
        · split
          · exact read
          · exact (read.trans (Keeps.keepTable _ _ _ _ _ _)).trans (Keeps.walkFrom 5 _ die asid va _)
      · exact read
      · exact read

/-! The entry that a leaf installs (R24, R34). -/

theorem pageSize_pos (level : Nat) : 0 < pageSize level := Nat.two_pow_pos _

theorem covers_page {asid va size : Nat} (h : 0 < size) {t : TlbEntry} (ht : t.asid = asid ∧ t.va = va / size * size ∧ t.size = size) :
    t.covers asid va = true := by
  obtain ⟨rfl, hv, hs⟩ := ht
  have low := Nat.div_mul_le_self va size
  have high := Nat.lt_div_mul_add (a := va) h
  simp only [TlbEntry.covers, hv, hs, beq_self_eq_true, Bool.true_and, Bool.and_eq_true, decide_eq_true_eq]
  exact ⟨low, high⟩

/-- The entry covers the address that was walked for. -/
theorem entryOf_covers (s : State) (asid va e pa level : Nat) : (s.entryOf asid va e pa level).covers asid va = true := by
  have single := covers_page (asid := asid) (va := va) (pageSize_pos level)
    (t := { asid := asid, va := va / pageSize level * pageSize level, size := pageSize level, pa := bits e 55 16 * 4096,
            leaf := bits e 14 2 * 4, dirty := if bit e 6 then 1 else 0, leafPa := pa }) ⟨rfl, rfl, rfl⟩
  simp only [State.entryOf]
  split
  · split
    · exact covers_page (size := 65536) (by decide) ⟨rfl, rfl, rfl⟩
    · exact single
  · exact single

theorem mem_installShared (e : TlbEntry) (es : List TlbEntry) : e ∈ installShared e es := by
  rw [installShared]
  split <;> exact List.mem_append_right _ (List.mem_singleton.2 rfl)

theorem mem_installTlb (n : Nat) (e : TlbEntry) (es : List TlbEntry) : e ∈ installTlb (n + 1) e es := by
  rw [installTlb]
  rw [List.drop_append_of_le_length (by omega)]
  exact List.mem_append_right _ (List.mem_singleton.2 rfl)

/-- What a walk for a die has installed is found there. -/
theorem tlbHit_installed {s : State} {die asid va : Nat} {t : TlbEntry} (hd : die < s.dies.length) (covers : t.covers asid va = true) :
    ∃ e, (s.installAt none die t).tlbHit none die asid va = some e ∧ e.covers asid va = true := by
  have tlb : ((s.installAt none die t).die die).tlb = installShared t (s.die die).tlb := by
    rw [State.installAt, State.die_setDie s die _ hd]
  cases found : (installShared t (s.die die).tlb).find? (·.covers asid va) with
  | none => exact absurd covers (List.find?_eq_none.1 found t (mem_installShared t _))
  | some e =>
    refine ⟨e, ?_, List.find?_some (p := fun x : TlbEntry => x.covers asid va) found⟩
    rw [State.tlbHit, tlb, found]
    rfl

/-! The step. -/

section
variable {s s' : State} {w : WalkReq} (found : s.walks.find? (·.id == w.id) = some w)
include found

theorem pageWalk_queued (full : 768 ≤ ((s.walks.takeWhile (·.id != w.id)).filter (·.die == w.die)).length) :
    exec (.pageWalk w.id) s = .next s := by
  have held : s.walksBefore w.die w.id ≥ 768 := full
  change execPageWalk w.id s = _
  simp only [execPageWalk, found, if_pos held]

variable (free : ((s.walks.takeWhile (·.id != w.id)).filter (·.die == w.die)).length < 768)
include free

theorem pageWalk_waits (walk : s.walk w.die w.asid w.va = (.waits, s')) : exec (.pageWalk w.id) s = .next s := by
  have runs : ¬s.walksBefore w.die w.id ≥ 768 := Nat.not_le.2 free
  change execPageWalk w.id s = _
  simp only [execPageWalk, found, if_neg runs, State.walkFor, walk]

theorem pageWalk_fails (walk : (∃ cause, s.walk w.die w.asid w.va = (.cause cause, s')) ∨ s.walk w.die w.asid w.va = (.bad, s')) :
    exec (.pageWalk w.id) s = .next { s with walks := s.walks.filter (·.id != w.id) } := by
  have runs : ¬s.walksBefore w.die w.id ≥ 768 := Nat.not_le.2 free
  change execPageWalk w.id s = _
  rcases walk with ⟨cause, walk⟩ | walk <;> simp only [execPageWalk, found, if_neg runs, State.walkFor, walk]

/-- A walk that reaches a good leaf ends with its entry in the die's shared TLB, and gives it to every cell that asked (R34, R36). -/
theorem pageWalk_leaf {e pa level : Nat} (walk : s.walk w.die w.asid w.va = (.leaf e pa level, s')) (hd : w.die < s.dies.length)
    (still : e.testBit 13 = false) (open_ : s'.homeWaits pa true = false)
    (allowed : leafFault .load true (e / 2 ^ 16 % 2 ^ 40 * 4096 + w.va % pageSize level) e = none) :
    ∃ (v : State) (t : TlbEntry), Keeps s v ∧ t.covers w.asid w.va = true ∧ v.tlbHit none w.die w.asid w.va = some t ∧
      exec (.pageWalk w.id) s = .next (w.cells.foldl (fun s c => match s.tlbHit none w.die w.asid w.va with
        | some e => s.setCell c fun k => { k with tlb := installTlb 64 e k.tlb }
        | none => s) { v with walks := v.walks.filter (·.id != w.id) }) := by
  have runs : ¬s.walksBefore w.die w.id ≥ 768 := Nat.not_le.2 free
  have reached := Keeps.walk s w.die w.asid w.va
  rw [walk] at reached
  have frame : bits e 55 16 * 4096 = e / 2 ^ 16 % 2 ^ 40 * 4096 := bits_frame e
  have settled : (State.walkFor s none w.die w.asid true .load w.va) =
      let e' := setBits (setBits e 5 5 1) 6 6 (if bit e 6 then 1 else 0)
      let v := if e' = e then s' else s'.storeNow none pa (leBytes 8 e') none
      (.ok (e / 2 ^ 16 % 2 ^ 40 * 4096 + w.va % pageSize level) e' (v.entryOf w.asid w.va e' pa level).size,
        v.installAt none w.die (v.entryOf w.asid w.va e' pa level)) := by
    simp only [State.walkFor, walk, frame, allowed, bit_eq_testBit, still, open_, Kind.writes, Option.isSome_none, Bool.false_and,
      Bool.and_false, Bool.or_false, Bool.false_eq_true, if_false]
  generalize he' : setBits (setBits e 5 5 1) 6 6 (if bit e 6 then 1 else 0) = e' at settled
  dsimp only at settled
  generalize hv : (if e' = e then s' else s'.storeNow none pa (leBytes 8 e') none) = v at settled
  have kept : Keeps s v := by
    rw [← hv]
    split
    · exact reached
    · exact reached.trans (Keeps.storeNow s' pa _)
  obtain ⟨t, hit, covers⟩ := tlbHit_installed (s := v) (kept.dies ▸ hd) (entryOf_covers v w.asid w.va e' pa level)
  refine ⟨v.installAt none w.die (v.entryOf w.asid w.va e' pa level), t, kept.trans (Keeps.setDie v _ _), covers, hit, ?_⟩
  change execPageWalk w.id s = _
  simp only [execPageWalk, found, if_neg runs, settled] <;> rfl

end

/-- R36, R42: walks ahead. -/
theorem walksAhead : WalksAhead := by
  intro s s' w c found asked loaded hd
  refine ⟨pageWalk_queued found, fun free => ⟨pageWalk_waits found free, fun cause walk => ?_, ?_⟩⟩
  · exact pageWalk_fails found free (walk.imp_left fun h => ⟨cause, h⟩)
  · intro e pa level walk still open_ allowed
    obtain ⟨v, t, kept, covers, hit, ran⟩ := pageWalk_leaf found free walk hd still open_ allowed
    have hit : State.tlbHit { v with walks := v.walks.filter (·.id != w.id) } none w.die w.asid w.va = some t := hit
    rw [asked, List.foldl_cons, List.foldl_nil, hit] at ran
    refine ⟨_, ran, ?_, t, ?_, covers⟩
    · rw [← kept.walks]
      rfl
    · have there : State.loaded { v with walks := v.walks.filter (·.id != w.id) } c = true := (kept.loaded c).trans loaded
      have after := State.cell_setCell { v with walks := v.walks.filter (·.id != w.id) } c c
        (fun k => { k with tlb := installTlb 64 t k.tlb }) (fun _ => rfl) there
      rw [if_pos rfl] at after
      rw [after]
      exact mem_installTlb 63 t _

end Sys2Proof.Machine
end

section
/-! # Replays of the side log (O49, R43, R45 to R47) -/

namespace Sys2Proof.Machine
open Sys2Proof

/-! A cell among others. -/

/-- The cells of a module have each its own number. -/
theorem cell_of_mem {s : State} (ids : (s.cells.map (·.id)).Nodup) {k : Cell} (hk : k ∈ s.cells) : s.cell k.id = k := by
  cases found : s.cells.find? (·.id == k.id) with
  | none => exact absurd (beq_self_eq_true k.id) (List.find?_eq_none.1 found k hk)
  | some j =>
    have same : j.id = k.id := by simpa using List.find?_some found
    rw [State.cell, found]
    exact List.inj_on_of_nodup_map ids (List.mem_of_find?_eq_some found) hk same

/-- An update of a cell that leaves it as it is leaves the state. -/
theorem setCell_unchanged {s : State} (ids : (s.cells.map (·.id)).Nodup) {c : Nat} {f : Cell → Cell} (h : f (s.cell c) = s.cell c) :
    s.setCell c f = s := by
  have same : updateWhere (·.id == c) f s.cells = s.cells := by
    refine (List.map_congr_left fun k hk => ?_).trans (List.map_id _)
    by_cases id : k.id = c
    · subst id
      rw [cell_of_mem ids hk] at h
      simpa using h
    · simp [id]
  rw [State.setCell, same]

/-- The entries of the one page in a cell's log, updated. -/
theorem cell_setEntries {s : State} {c : Nat} {e : SideEntry} (f : SideEntry → SideEntry) (loaded : s.loaded c = true)
    (log : (s.cell c).sideLog = [e]) : (s.setEntries c e.asid e.page f).cell c = { s.cell c with sideLog := [f e] } := by
  rw [State.setEntries, State.cell_setCell s c c _ (by exact fun _ => rfl) loaded, if_pos rfl, log]
  simp [updateWhere]

theorem cell_setEntries_other {s : State} {c d asid page : Nat} (f : SideEntry → SideEntry) (hd : d ≠ c) :
    (s.setEntries c asid page f).cell d = s.cell d :=
  State.cell_setCell_ne s c d (fun k => { k with sideLog := updateWhere (fun e => e.page == page && e.asid == asid) f k.sideLog })
    (fun _ => rfl) hd

/-! Masks. -/

/-- The sum of the bits of a mask below n. -/
def maskSum (p : Nat → Bool) (n : Nat) : Nat := (List.range n).foldl (fun acc l => if p l then acc + 2 ^ l else acc) 0

theorem maskSum_succ (p : Nat → Bool) (n : Nat) : maskSum p (n + 1) = if p n then maskSum p n + 2 ^ n else maskSum p n := by
  rw [maskSum, List.range_succ, List.foldl_append]
  rfl

theorem maskSum_lt (p : Nat → Bool) (n : Nat) : maskSum p n < 2 ^ n := by
  induction n with
  | zero => exact Nat.one_pos
  | succ n ih =>
    rw [maskSum_succ, Nat.pow_succ]
    split <;> omega

theorem testBit_maskSum (p : Nat → Bool) (n j : Nat) (h : j < n) : (maskSum p n).testBit j = p j := by
  induction n with
  | zero => omega
  | succ n ih =>
    rw [maskSum_succ]
    rcases Nat.lt_or_eq_of_le (Nat.le_of_lt_succ h) with lt | rfl
    · split
      · rw [Nat.add_comm, Nat.testBit_two_pow_add_gt lt, ih lt]
      · exact ih lt
    · have low : (maskSum p j).testBit j = false := Nat.testBit_lt_two_pow (maskSum_lt p j)
      split
      · next on => rw [Nat.add_comm, Nat.testBit_two_pow_add_eq, low, on]; rfl
      · next off => rw [low, Bool.eq_false_iff.2 off]

theorem getLsbD_maskOf (p : Nat → Bool) {j : Nat} (h : j < 64) : (maskOf p).getLsbD j = p j := by
  have sum : maskOf p = BitVec.ofNat 64 (maskSum p 64) := rfl
  rw [sum, BitVec.getLsbD_ofNat, testBit_maskSum p 64 j h]
  simp [h]

/-! The replay of the one entry of a cell's log. -/

section
variable {s : State} {c : Nat} {e : SideEntry} {l va : Nat} {data : List Nat} {r : Trans} (ids : (s.cells.map (·.id)).Nodup)
  (log : (s.cell c).sideLog = [e]) (due : e.replaying = true) (running : (s.cell c).stopped = false)
  (lanes : e.lanes = [(l, va, data)]) (store : e.reduction = none) (plain : e.opcode ≠ 0x56)
  (fresh : ∀ a ∈ s.accs, a.id = e.id → ∀ p ∈ a.parts, p.va / 4096 * 4096 ≠ e.page)
  (walk : s.translateFor c e.asid .store va = (r, s))

include ids log due running fresh in
/-- The oldest entry of a page that is due is replayed. -/
theorem exec_sideLogReplay : exec (.sideLogReplay c e.page) s = .next (s.replay c e) := by
  have runs : s.logRuns c = true := by simp [State.logRuns, running]
  have marked : s.setEntries c e.asid e.page (fun e => { e with replaying := true }) = s := by
    have same : { e with replaying := true } = e := by rw [← due]
    have kept : updateWhere (fun x => x.page == e.page && x.asid == e.asid) (fun x => { x with replaying := true })
        (s.cell c).sideLog = (s.cell c).sideLog := by
      rw [log]
      simp only [updateWhere, List.map_cons, List.map_nil, beq_self_eq_true, Bool.and_self, if_true, same]
    exact setCell_unchanged ids (by rw [kept])
  have unissued : s.issued e = false := by
    rw [State.issued, List.any_eq_false]
    intro a ha
    by_cases id : a.id = e.id
    · have none : a.parts.any (fun p => p.va / 4096 * 4096 == e.page) = false :=
        List.any_eq_false.2 fun p hp => by simpa using fresh a ha id p hp
      simp [none]
    · simp [id]
  change execSideLogReplay c e.page s = _
  simp only [execSideLogReplay, log, List.find?_cons, due, beq_self_eq_true, Bool.and_self, runs, Bool.not_true, Bool.false_eq_true,
    if_false, marked, unissued]

include lanes store plain walk in
theorem entryWalk_single : s.entryWalk c e = ([(l, va, r)], s) := by
  have kind : e.kind = .store := by rw [SideEntry.kind, store]; simp [plain]
  simp only [State.entryWalk, lanes, kind, List.foldl_cons, List.foldl_nil, walk, List.nil_append]

include lanes store plain walk

theorem replay_ok {pa leaf page : Nat} (hr : r = .ok pa leaf page) :
    s.replay c e = s.issueEntry c e [s.entryPart e (l, va, data) (.ok pa leaf page)] := by
  subst hr
  simp [State.replay, entryWalk_single lanes store plain walk, failure, waitOf, lanes]

theorem replay_fault {code cause : Nat} (hr : r = .fault code cause) : s.replay c e = s.replayFault c e code cause va := by
  subst hr
  simp [State.replay, entryWalk_single lanes store plain walk, failure, mkFault]

theorem replay_mig {pa leaf lp v : Nat} (hr : r = .mig pa leaf lp v) :
    s.replay c e = s.setEntries c e.asid e.page fun e => { e with replaying := false, mig := some (lp, v) } := by
  subst hr
  simp [State.replay, entryWalk_single lanes store plain walk, failure, waitOf]

theorem replay_busy (hr : r = .busy) : s.replay c e = s := by
  subst hr
  simp [State.replay, entryWalk_single lanes store plain walk, failure, waitOf]

end

/-! Parts of an access issued again. -/

theorem issueEntry_known {s : State} {c : Nat} {e : SideEntry} {a : Access} (ps : List Part) (found : s.acc? e.id = some a) :
    s.issueEntry c e ps = s.setAcc e.id fun a => { a with parts := a.parts ++ ps } := by
  have known : s.accs.any (·.id == e.id) = true :=
    List.any_eq_true.2 ⟨a, List.mem_of_find?_eq_some found, List.find?_some (p := fun x : Access => x.id == e.id) found⟩
  rw [State.issueEntry, if_pos known]

theorem issueEntry_new {s : State} {c : Nat} {e : SideEntry} (ps : List Part) (absent : s.acc? e.id = none) :
    s.issueEntry c e ps = { s with accs := s.accs ++ [{ s.entryAccess c e with parts := ps }] } := by
  have unknown : s.accs.any (·.id == e.id) = false := List.any_eq_false.2 fun a ha => List.find?_eq_none.1 absent a ha
  rw [State.issueEntry, if_neg (by rw [unknown]; exact Bool.false_ne_true)]

theorem acc_setAcc {s : State} (id k : Nat) {f : Access → Access} (hf : ∀ a, (f a).id = a.id) :
    (s.setAcc id f).acc? k = if k = id then (s.acc? k).map f else s.acc? k :=
  find_updateWhere_key (fun a : Access => a.id) s.accs id k hf

/-- The access that an entry of a plain store brings back (R386). -/
theorem entryAccess_store {s : State} {c : Nat} {e : SideEntry} {l va : Nat} {data : List Nat} (lanes : e.lanes = [(l, va, data)])
    (store : e.reduction = none) (plain : e.opcode ≠ 0x56) (absent : s.acc? e.id = none) : ∃ m : LaneMask,
      (∀ j, j < 64 → (m.getLsbD j = true ↔ j = l)) ∧ s.entryAccess c e =
        { id := e.id, cell := c, elem := e.elem, ctx := e.ctx, slot := e.slot, opcode := e.opcode, seq := e.seq, op := .store, res := .none
          profile := e.profile, m0 := m, asid := e.asid, parts := [], flags := 0, acquire := false
          release := e.order == 2 || e.order == 3, told := false, passed := none } := by
  refine ⟨maskOf fun j => l == j, fun j hj => ?_, ?_⟩
  · rw [getLsbD_maskOf _ hj, beq_iff_eq, eq_comm]
  · have lane : (fun j => e.lanes.any fun x => x.1 == j || (e.opcode == 0x56 && x.1 == j / 16 * 16)) = fun j => l == j := by
      funext j
      simp [lanes, plain]
    simp only [State.entryAccess, absent, Option.getD_none, store, if_neg plain, lane, Option.isSome_none, Bool.false_and]

/-! A replay that faults. -/

theorem markOf_store {a : Access} {p : Part} (ldx : a.opcode ≠ 0x50) (stx : a.opcode ≠ 0x56) : a.markOf p = 2 ^ p.lane := by
  simp [Access.markOf, ldx, stx]

/-- One logged record for the lane of the entry (R47, R375). -/
theorem replayFault_store {s : State} {c : Nat} {e : SideEntry} {l va : Nat} {data : List Nat} (lanes : e.lanes = [(l, va, data)])
    (store : e.reduction = none) (plain : e.opcode ≠ 0x56) (untyped : e.opcode ≠ 0x50) (absent : s.acc? e.id = none) (code cause : Nat) :
    s.replayFault c e code cause va = ((s.pushRecord c e.elem e.ctx e.slot e.opcode rLogged e.profile (code, cause, 2 ^ l, va)
      (.logged c e.page e.asid)).2).setEntries c e.asid e.page fun e => { e with replaying := false, mig := none } := by
  obtain ⟨m, -, access⟩ := entryAccess_store (c := c) lanes store plain absent
  have opcode : (s.entryAccess c e).opcode = e.opcode := by rw [access]
  have mark := markOf_store (a := s.entryAccess c e) (p := s.entryPart e (l, va, data) .busy) (opcode ▸ untyped) (opcode ▸ plain)
  simp only [State.replayFault, lanes, List.map_cons, List.map_nil, List.foldl_cons, List.foldl_nil, mark]
  congr 4
  simp [State.entryPart, mkPart]

/-- A record pushed is raised (R375, R377), and an update of cells that follows does not touch it. -/
theorem raised_pushRecord {s u : State} {c e x slot opcode fl prof : Nat} (f : FaultInfo) (what : RecordOf)
    (hd : dieOf c < s.dies.length) (dies : u.dies = (s.pushRecord c e x slot opcode fl prof f what).2.dies) :
    ∃ id, Raised s u c e x slot opcode fl prof f what id := by
  have die : u.die (dieOf c) = (s.pushRecord c e x slot opcode fl prof f what).2.die (dieOf c) := by rw [State.die, dies, State.die]
  have pushed : ∃ r : OpenRecord, (s.pushRecord c e x slot opcode fl prof f what).2.die (dieOf c) =
      { s.die (dieOf c) with records := (s.die (dieOf c)).records ++ [r] } ∧
      (r.record.code, r.record.cause, r.record.lanes, r.record.addr) = f ∧
      (r.record.flags, r.record.opcode, r.record.profile) = (fl, opcode, prof) ∧
      (r.record.cell, r.record.elem, r.record.ctx, r.record.slot) = (c, e, x, slot) ∧
      (r.record.asid, r.record.time) = ((s.cell c).asid, s.ticks) ∧ r.of = what ∧ r.seq = none :=
    ⟨_, State.die_setDie { s with nextId := s.nextId + 1 } (dieOf c) _ hd, rfl, rfl, rfl, rfl, rfl, rfl⟩
  obtain ⟨r, records, rest⟩ := pushed
  refine ⟨r.record.id, r, ?_, rfl, rest⟩
  rw [die, records]

/-! The end of a store whose logged page has been replayed. -/

/-- What the end of an access leaves: memory, the other accesses and the logs of the cells. -/
structure LeavesLogs (s u : State) : Prop where
  mem : u.mem = s.mem
  accs : u.accs = s.accs
  logs : ∀ c, (u.cell c).sideLog = (s.cell c).sideLog

theorem LeavesLogs.refl (s : State) : LeavesLogs s s := ⟨rfl, rfl, fun _ => rfl⟩

theorem LeavesLogs.trans {s u w : State} (h : LeavesLogs s u) (k : LeavesLogs u w) : LeavesLogs s w :=
  ⟨k.mem.trans h.mem, k.accs.trans h.accs, fun c => (k.logs c).trans (h.logs c)⟩

theorem LeavesLogs.setCell (s : State) (c : Nat) {f : Cell → Cell} (id : ∀ k, (f k).id = k.id) (log : ∀ k, (f k).sideLog = k.sideLog) :
    LeavesLogs s (s.setCell c f) := ⟨rfl, rfl, fun d => State.cell_setCell_same (·.sideLog) s c d f id log⟩

theorem LeavesLogs.setCtx (s : State) (c e x : Nat) (f : Ctx → Ctx) : LeavesLogs s (s.setCtx c e x f) :=
  LeavesLogs.setCell s c (fun _ => rfl) fun _ => rfl

theorem LeavesLogs.writeRegOf (s : State) (c e x n : Nat) (m : LaneMask) (f : Nat → Word) : LeavesLogs s (s.writeRegOf c e x n m f) :=
  (LeavesLogs.setCtx s c e x _).trans (LeavesLogs.setCell _ c (fun _ => rfl) fun _ => rfl)

theorem LeavesLogs.sendOn (s : State) (c e n : Nat) (tag : Word) (ls : Lanes) : LeavesLogs s (s.sendOn c e n tag ls) := by
  refine ⟨State.sendOn_mem .., State.sendOn_accs .., fun d => ?_⟩
  obtain ⟨-, -, others, own, -⟩ := Moves.sendOn c e 0 n tag ls s
  by_cases hd : d = c
  · subst hd
    rw [own]
  · rw [others d hd]

theorem LeavesLogs.setArc (s : State) (c e x : Nat) (arc : Option Nat) : LeavesLogs s (s.setArc c e x arc) := by
  cases arc with
  | none => exact LeavesLogs.refl s
  | some n => exact LeavesLogs.setCtx s c e x _

theorem LeavesLogs.writeResult (s : State) (a : Access) : LeavesLogs s (s.writeResult a) := by
  rw [State.writeResult]
  dsimp only
  split
  · exact LeavesLogs.refl s
  · refine LeavesLogs.trans ?_ (LeavesLogs.setCtx _ _ _ _ _)
    split
    · exact (LeavesLogs.writeRegOf s _ _ _ _ _ _).trans (LeavesLogs.writeRegOf _ _ _ _ _ _ _)
    · exact LeavesLogs.writeRegOf s _ _ _ _ _ _
  · exact LeavesLogs.sendOn s _ _ _ _ _
  · exact ((LeavesLogs.writeRegOf s _ _ _ _ _ _).trans (LeavesLogs.writeRegOf _ _ _ _ _ _ _)).trans (LeavesLogs.setCtx _ _ _ _ _)

theorem LeavesLogs.pushRecordAt (s : State) (time c e x slot opcode fl prof : Nat) (f : FaultInfo) (what : RecordOf) :
    LeavesLogs s (s.pushRecordAt time c e x slot opcode fl prof f what).2 := ⟨rfl, rfl, fun _ => rfl⟩

/-- What the end of an access does beside taking it out: its results, its flags, its arc and a record (R115). -/
theorem LeavesLogs.endAccess (s : State) (a : Access) :
    LeavesLogs ((s.dropAcc a.id).reissue s a.cell a.elem a.ctx) (s.endAccess a) := by
  have results := LeavesLogs.writeResult ((s.dropAcc a.id).reissue s a.cell a.elem a.ctx) a
  have finished : LeavesLogs ((s.dropAcc a.id).reissue s a.cell a.elem a.ctx) (s.finish a) := by
    rw [State.finish]
    have flags : ∀ u, LeavesLogs u (if a.res = .none then u else u.raiseFlagsOf a.cell a.elem a.ctx a.flags) := fun u => by
      split
      · exact LeavesLogs.refl u
      · exact LeavesLogs.setCtx u _ _ _ _
    split
    · exact results.trans (flags _)
    · exact (results.trans (flags _)).trans (LeavesLogs.setArc _ _ _ _ _)
  have woken : ∀ u, LeavesLogs u (if a.op = .waita then u.setCtx a.cell a.elem a.ctx fun k => { k with asleep := false } else u) :=
    fun u => by
      split
      · exact LeavesLogs.setCtx u _ _ _ _
      · exact LeavesLogs.refl u
  rw [State.endAccess]
  dsimp only
  split
  · exact finished.trans (woken _)
  · exact ((finished.trans (woken _)).trans (LeavesLogs.pushRecordAt ..)).trans (LeavesLogs.setCtx _ _ _ _ _)

/-- An access that has left the memory unit is found no more; reissuing others changes no number. -/
theorem acc_dropAcc_reissue (s old : State) (id c e x : Nat) : ((s.dropAcc id).reissue old c e x).acc? id = none := by
  refine List.find?_eq_none.2 fun a ha => ?_
  obtain ⟨b, hb, rfl⟩ := List.mem_map.1 ha
  have gone : b.id ≠ id := by simpa using (List.mem_filter.1 hb).2
  split <;> simpa using gone

/-- A completed access has nothing left that could hit in its cell (R90). -/
theorem runHits_done {s : State} {a : Access} (found : s.acc? a.id = some a) (done : ∀ p ∈ a.parts, p.st = .done) :
    s.runHits a.id = s := by
  rw [State.runHits]
  refine foldl_idle fun i => ?_
  rw [found]
  dsimp only
  split
  · next p hp => rw [done p (List.mem_of_getElem? hp)]; simp
  · rfl

/-- The entry of a page whose stores are performed leaves the log (R46, R47). -/
theorem clearLog_over {s : State} {a : Access} {e : SideEntry} (loaded : s.loaded a.cell = true) (log : (s.cell a.cell).sideLog = [e])
    (own : e.id = a.id) (done : ∀ p ∈ a.parts, p.st = .done) (page : ∃ p ∈ a.parts, p.va / 4096 * 4096 = e.page) :
    ((s.clearLog a).cell a.cell).sideLog = [] ∧ s.clearLog a = { s with cells := (s.clearLog a).cells } := by
  have leaves : a.over e = true := by
    obtain ⟨p, hp, here⟩ := page
    have mine : p ∈ a.parts.filter fun p => p.va / 4096 * 4096 == e.page := List.mem_filter.2 ⟨hp, by simpa using here⟩
    have closed : (a.parts.filter fun p => p.va / 4096 * 4096 == e.page).all (!·.open) = true := by
      rw [List.all_eq_true]
      intro q hq
      rw [Part.open, done q (List.mem_of_mem_filter hq)]
      rfl
    have nonempty : (a.parts.filter fun p => p.va / 4096 * 4096 == e.page).isEmpty = false :=
      List.isEmpty_eq_false_iff.2 (List.ne_nil_of_mem mine)
    simp only [Access.over, own, beq_self_eq_true, nonempty, closed, Bool.not_false, Bool.and_self]
  have clears : s.clearLog a = s.setCell a.cell fun c => { c with sideLog := c.sideLog.filter fun e => !a.over e } := by
    rw [State.clearLog, log]
    simp [leaves]
  refine ⟨?_, by rw [clears]; rfl⟩
  rw [clears, State.cell_setCell s a.cell a.cell _ (by exact fun _ => rfl) loaded, if_pos rfl, log]
  simp [leaves]

/-- R46, R47: a store completes once the entries of its log are replayed and performed; they leave with it. -/
theorem replays_end (s : State) (a : Access) (e : SideEntry) (loaded : s.loaded a.cell = true) (found : s.acc? a.id = some a)
    (op : a.op = .store ∨ a.op = .stx) (log : (s.cell a.cell).sideLog = [e]) (own : e.id = a.id) (done : ∀ p ∈ a.parts, p.st = .done)
    (page : ∃ p ∈ a.parts, p.va / 4096 * 4096 = e.page) (settled : ∀ r ∈ s.arrivals, r.source ≠ a.id) :
    Completes (.accessCompletion a.id) s fun u => (u.cell a.cell).sideLog = [] ∧ u.acc? a.id = none ∧ u.mem = s.mem := by
  obtain ⟨empty, same⟩ := clearLog_over loaded log own done page
  have complete : (s.clearLog a).completeAt 4 a = true := by
    have all : a.doneAt 4 = true := List.all_eq_true.2 fun p hp => by simp [done p hp]
    have arrivals : (s.clearLog a).arrivals = s.arrivals := by rw [same]
    have none : s.arrivals.any (·.source == a.id) = false := List.any_eq_false.2 fun r hr => by simpa using settled r hr
    rw [State.completeAt, all, arrivals, none, empty]
    rfl
  have hits := runHits_done found done
  have returns : a.returns = false := by rcases op with op | op <;> rw [Access.returns, op]
  have present : s.present a.cell = true := loaded
  have ran : exec (.accessCompletion a.id) s = .next ((s.clearLog a).endAccess a) := by
    change execAccessCompletion a.id s = _
    rcases op with op | op <;>
      simp only [execAccessCompletion, found, returns, present, op, hits, State.tell, complete, Bool.not_true, Bool.or_self,
        Bool.false_eq_true, if_false, if_true]
  have ended := LeavesLogs.endAccess (s.clearLog a) a
  refine ⟨_, ran, (ended.logs a.cell).trans empty, ?_, ended.mem.trans (by rw [same]; rfl)⟩
  rw [State.acc?, ended.accs]
  exact acc_dropAcc_reissue _ _ _ _ _ _

/-- R43, R45 to R47: replays. -/
theorem replays : Replays := by
  refine ⟨?_, replays_end⟩
  intro s c e l va data r loaded ids log due running lanes store plain untyped fresh walk
  have ran := exec_sideLogReplay ids log due running fresh
  intro kept
  refine ⟨fun pa leaf page hr => ⟨fun a known => ?_, fun absent => ?_⟩, fun code cause hr absent hd => ?_, fun pa leaf lp v hr => ?_,
    fun hr => ?_⟩
  · rw [replay_ok lanes store plain walk hr, issueEntry_known _ known] at ran
    refine ⟨_, ran, rfl, ?_, fun k hk => ?_⟩
    · rw [acc_setAcc _ _ (by exact fun _ => rfl), if_pos rfl, known]
      rfl
    · rw [acc_setAcc _ _ (by exact fun _ => rfl), if_neg hk]
  · obtain ⟨m, bits, access⟩ := entryAccess_store (c := c) lanes store plain absent
    rw [replay_ok lanes store plain walk hr, issueEntry_new _ absent, access] at ran
    exact ⟨_, ran, m, bits, rfl⟩
  · rw [replay_fault lanes store plain walk hr, replayFault_store lanes store plain untyped absent] at ran
    refine ⟨_, ran, raised_pushRecord _ _ hd rfl, ?_, rfl, rfl⟩
    exact cell_setEntries (s := (s.pushRecord c e.elem e.ctx e.slot e.opcode rLogged e.profile (code, cause, 2 ^ l, va)
      (.logged c e.page e.asid)).2) _ loaded log
  · rw [replay_mig lanes store plain walk hr] at ran
    exact ⟨_, ran, rfl, cell_setEntries _ loaded log, fun k hk => cell_setEntries_other _ hk⟩
  · rw [ran, replay_busy lanes store plain walk hr]

/-- Settles O49: walks down the tables, walks ahead, invalidations, leaves written, replays of the side log, sweeps and scrubs. -/
theorem translationEvents : Obligations.TranslationEvents :=
  ⟨tableWalks, walksAhead, invalidations, leavesWritten, replays, sweepsAndScrubs⟩

end Sys2Proof.Machine
end

section
/-! # The flush of software-managed copies (O54, refuted) -/

namespace Sys2Proof.Machine
open Sys2Proof

/-- The number that stands for the host agent (R98), given to a cell. The cells of a module are numbered 0 to 2047, but
`State.loaded` holds of it. -/
def hostNumberedCell : Nat := hostAgent

/-- A cell's clean software-managed copy of the module's first line. -/
def firstLineCopy : CchLine :=
  { pa := 0, way := 0, st := .smPresent, data := List.replicate 128 0, dirty := 0, descs := [0, 0], descDirty := 0,
    recent := true, holdUntil := 0, described := false }

/-- A move of the page at frame 0 that waits for the flush of `hostNumberedCell`. -/
def firstPageMove : MigReq :=
  { id := 0, block := 0, asid := 0, size := 0, dest := 0, irq := false, va := 0, frame := 0, crec := 0, phase := 5,
    leafPa := 4096, leaf := 0, inv := 0, flush := [hostNumberedCell], eviction := false }

/-- The cell that is numbered as the host agent holds a software-managed copy of the page that is about to move. -/
def hostNumberedFlush : State :=
  { State.reset with
    cells := [{ Cell.blank hostNumberedCell with cch := [firstLineCopy] }]
    mig := { State.reset.mig with requests := [firstPageMove] } }

/-- The copies that `hostNumberedCell` has after an outcome. -/
def copiesAfter : Out → Option (List CchLine)
  | .next u => some (u.cell hostNumberedCell).cch
  | _ => none

/-- The line is looked for among the host agent's copies, and the cell keeps it. -/
theorem smFlush_keeps_copy_of_hostNumberedCell :
    copiesAfter (exec (.smFlush hostNumberedCell 0) hostNumberedFlush) = some [firstLineCopy] := by
  decide +kernel

/-- The clause of a software-managed copy says that the cell drops it; `hostNumberedCell` keeps it. -/
theorem not_cellsFlush : ¬CellsFlush := by
  intro h
  have leaf : hostNumberedFlush.coherentNat firstPageMove.leafPa 8 / 2 ^ 16 % 2 ^ 40 * 4096 = 0 := by decide +kernel
  obtain ⟨drops, -⟩ := h hostNumberedFlush firstPageMove hostNumberedCell firstLineCopy rfl rfl (by decide) (by decide)
    (by decide) rfl (by rw [leaf]; decide) (by rw [leaf]; decide) rfl rfl
  rw [leaf] at drops
  obtain ⟨u, ran, dropped, -⟩ := drops rfl
  have kept := smFlush_keeps_copy_of_hostNumberedCell
  rw [ran] at kept
  cases dropped.symm.trans (Option.some.inj kept)

/-- Refutes O54: the flush finds a cell's copies by its number, and a cell that `State.loaded` allows may bear the host
agent's number 2048; then the host agent's copies are searched (R98) and the cell's own stay. -/
theorem not_migrationEvents : ¬ Obligations.MigrationEvents := by
  rintro ⟨-, -, -, flush, -⟩
  exact not_cellsFlush flush

end Sys2Proof.Machine
end

section
/-! # Firings that give work to another unit, that wait, and that fault -/

namespace Sys2Proof.Machine
open Sys2Proof

theorem Moves.leavesOthers_of_mem {g : Ctx → Ctx} {s u : State} (m : Moves s.cur.cell s.cur.elem s.cur.ctx g s u)
    (mem : u.mem = s.mem) : LeavesOthers s u := by
  obtain ⟨cur, -, others, own, -, elems, ctxs⟩ := m
  refine ⟨fun a => by rw [mem], others, by simpa [State.curCell, cur] using own, by simpa [State.curCell, cur] using elems,
    fun x hx => ?_⟩
  simp only [State.curElem, State.curCell, cur, Elem.ctx, ctxs, getD_modify]
  rw [if_neg]
  exact fun h => hx h.1.symm

theorem Moves.curCtx {g : Ctx → Ctx} {s u : State} (m : Moves s.cur.cell s.cur.elem s.cur.ctx g s u) (hp : s.placed) :
    u.curCtx = g s.curCtx := by
  rw [State.curCtx, State.curElem, State.curCell, m.1]
  exact m.ctx hp.2.2.1

/-- An update of a context that leaves what the end of a firing reads of it. -/
def KeepsFiring (f : Ctx → Ctx) : Prop :=
  ∀ k, (f k).v = k.v ∧ (f k).m = k.m ∧ (f k).p = k.p ∧ (f k).exhausted = k.exhausted ∧ (f k).seq = k.seq

theorem KeepsFiring.id : KeepsFiring id := fun _ => ⟨rfl, rfl, rfl, rfl, rfl⟩

/-- The end of a firing whose own effect stands in w: f on its context, g on the module. -/
theorem issues_endFiring {s w : State} {g : State → State} {f : Ctx → Ctx} (t : Fin 64) (hp : s.placed)
    (m : Moves s.cur.cell s.cur.elem s.cur.ctx f s w) (keeps : KeepsFiring f) (rest : w.rest = (g s).rest)
    (mem : w.mem = s.mem) (flights : w.flights = s.flights) (dies : w.dies = s.dies) (time : w.time = s.time) :
    Issues s (w.endFiring t 0) t g f := by
  have placed : w.placed := m.placed hp (fun k => by rw [(keeps k).1]) fun k => by rw [(keeps k).2.1]
  obtain ⟨-, -, preds, exhausted, seq⟩ := keeps s.curCtx
  obtain ⟨module, others, ctx⟩ := endFiring_after t 0 placed (Moves.refl _ _ _ w) (LeavesModule.refl w)
  refine ⟨Eq.trans module rest, (m.leavesOthers_of_mem mem).trans others m.1, by rw [State.endFiring_flights, flights],
    endFiring_took t 0 hp m dies time, ctx.trans ?_⟩
  simp only [id, endCtx, State.entryPreds, m.curCtx hp, m.entry rfl, preds, exhausted, seq]

/-- A firing that only ends does so with its entry's effects. -/
theorem onlyEffects_endFiring {s : State} (t : Fin 64) (hp : s.placed) : OnlyEffects s (s.endFiring t 0) t 0 := by
  obtain ⟨module, others, ctx⟩ := endFiring_after t 0 hp (Moves.refl _ _ _ s) (LeavesModule.refl s)
  refine ⟨⟨module, others, fun n _ => ?_, fun n _ => ?_, ?_⟩, State.endFiring_flights s t 0,
    endFiring_took t 0 hp (Moves.refl _ _ _ s) rfl rfl⟩
  · rw [State.vreg, ctx]; rfl
  · rw [ctx]; rfl
  · rw [ctx]; rfl

/-- A firing that stays unfired has no effect but its wait and its cycle (R41, R167). -/
theorem stays_stay {s : State} (w : Wait) (hp : s.placed) : Stays s (s.stay w) w := by
  have waits : Moves s.cur.cell s.cur.elem s.cur.ctx (fun k => { k with wait := some w }) s
      (s.setCurCtx fun k => { k with wait := some w }) := Moves.setCtx _ _ _ _ s hp.1 hp.2.1
  have all := waits.trans (Moves.spend 0 _ s.cur.ctx)
  have elem := spend_elem hp waits 0
  have ins : (s.stay w).curElem.ins = s.curElem.ins := by
    rw [State.stay, elem]
    exact ins_setCtx s _ _ _ _ _ _
  refine ⟨rfl, all.leavesOthers_of_mem rfl, rfl, rfl, ins, all.curCtx hp, ?_⟩
  rw [Took, State.stay, elem]
  exact ⟨rfl, rfl, rfl⟩

/-! Translations that leave the state. -/

/-- The lanes with their translations. -/
def withTrans (ls : List (Nat × Nat)) (r : Nat → Trans) : List (Nat × Nat × Trans) := ls.map fun l => (l.1, l.2, r l.2)

theorem translateAll_still {s : State} {asid : Nat} {k : Kind} {ls : List (Nat × Nat)} {r : Nat → Trans}
    (h : ∀ l ∈ ls, s.translateFor s.cur.cell asid k l.2 = (r l.2, s)) : s.translateAll asid k ls = (withTrans ls r, s) := by
  have run : ∀ (ls : List (Nat × Nat)) (acc : List (Nat × Nat × Trans)),
      (∀ l ∈ ls, s.translateFor s.cur.cell asid k l.2 = (r l.2, s)) →
      ls.foldl (fun (acc : List (Nat × Nat × Trans) × State) l =>
        let (t, s') := acc.2.translateFor s.cur.cell asid k l.2
        (acc.1 ++ [(l.1, l.2, t)], s')) (acc, s) = (acc ++ withTrans ls r, s) := by
    intro ls
    induction ls with
    | nil => intro acc _; simp [withTrans]
    | cons l ls ih =>
      intro acc h
      rw [List.foldl_cons]
      simp only [h l List.mem_cons_self]
      rw [ih _ fun k hk => h k (List.mem_cons_of_mem l hk)]
      simp [withTrans]
  exact run ls [] h

theorem mem_withTrans {ls : List (Nat × Nat)} {r : Nat → Trans} {x : Nat × Nat × Trans} :
    x ∈ withTrans ls r ↔ ∃ l ∈ ls, x = (l.1, l.2, r l.2) := by
  simp only [withTrans, List.mem_map, eq_comm]

theorem withTrans_all {ls : List (Nat × Nat)} {r : Nat → Trans} {P : Trans → Prop} (h : ∀ l ∈ ls, P (r l.2)) :
    ∀ x ∈ withTrans ls r, P x.2.2 := by
  intro x hx
  obtain ⟨l, hl, rfl⟩ := mem_withTrans.1 hx
  exact h l hl

/-- Translations that all succeed fail in no lane. -/
theorem failure_none {mark : Nat → Nat} {rs : List (Nat × Nat × Trans)} (walked : ∀ r ∈ rs, r.2.2 ≠ .busy)
    (fine : ∀ r ∈ rs, ∀ code cause, r.2.2 ≠ .fault code cause) : failure mark rs = none := by
  rw [← Option.not_isSome_iff_eq_none, failure_isSome walked]
  rintro ⟨r, hr, code, cause, fault⟩
  exact fine r hr code cause fault

end Sys2Proof.Machine
end

section
/-! # Alignment and translation faults at firing (O33) -/

namespace Sys2Proof.Machine
open Sys2Proof

/-! Misaligned lanes (R281). -/

theorem lowestAddr_cons {ls : List (Nat × Nat)} {f : Nat × Nat → Bool} {b : Nat × Nat} {bs : List (Nat × Nat)}
    (h : ls.filter f = b :: bs) : lowestAddr ls f = bs.foldl (fun m x => min m x.2) b.2 := by
  rw [lowestAddr, h, List.map_cons, List.min?_cons', List.foldl_map]
  rfl

theorem misaligned_some {mark : Nat → Nat} {n : Nat} {ls : List (Nat × Nat)} (h : ∃ l ∈ ls, (l.2 % n != 0) = true) :
    misaligned mark n ls =
      some (0x04, 0, lanesBits ls (fun l => l.2 % n != 0) mark, lowestAddr ls fun l => l.2 % n != 0) := by
  obtain ⟨l, hl, off⟩ := h
  have lane : l ∈ ls.filter fun l => l.2 % n != 0 := List.mem_filter.2 ⟨hl, off⟩
  obtain ⟨b, bs, lanes⟩ := List.exists_cons_of_ne_nil (List.ne_nil_of_mem lane)
  rw [misaligned, lanes, lowestAddr_cons lanes, lanesBits, lanes]
  rfl

theorem misaligned_none {mark : Nat → Nat} {n : Nat} {ls : List (Nat × Nat)} (h : ∀ l ∈ ls, l.2 % n = 0) :
    misaligned mark n ls = none := by
  have aligned : ls.filter (fun l => l.2 % n != 0) = [] := List.filter_eq_nil_iff.2 fun l hl => by simp [h l hl]
  rw [misaligned, aligned]

/-! Lanes that fail (R41, R375). -/

/-- What a translation that refuses the access says of it. -/
def Trans.fails : Trans → Option (Nat × Nat)
  | .fault code cause => some (code, cause)
  | _ => none

/-- A lane whose translation refuses the access: its number, its address, and the code and cause. -/
def failing (x : Nat × Nat × Trans) : Option (Nat × Nat × Nat × Nat) := x.2.2.fails.map fun f => (x.1, x.2.1, f)

theorem failure_settled {mark : Nat → Nat} {rs : List (Nat × Nat × Trans)} (walked : ∀ r ∈ rs, r.2.2 ≠ .busy) :
    failure mark rs = ((rs.filterMap failing).head?).map fun b =>
      (b.2.2.1, b.2.2.2, ((rs.filterMap failing).map fun x => mark x.1).foldl Nat.lor 0, b.2.1) := by
  have settled : rs.any (·.2.2 == .busy) = false := List.any_eq_false.2 fun r hr => by simp [walked r hr]
  simp only [failure, settled, Bool.false_eq_true, if_false]
  rw [List.filterMap_congr (g := failing) fun x _ => by
    obtain ⟨l, va, t⟩ := x
    cases t <;> rfl]
  cases rs.filterMap failing <;> rfl

theorem filterMap_failing (ls : List (Nat × Nat)) (r : Nat → Trans) : (withTrans ls r).filterMap failing =
    (ls.filter fun l => (r l.2).fails.isSome).map fun l => (l.1, l.2, (r l.2).fails.getD (0, 0)) := by
  induction ls with
  | nil => rfl
  | cons l ls ih =>
    have tail : (ls.map fun l => (l.1, l.2, r l.2)).filterMap failing = _ := ih
    rw [withTrans, List.map_cons, List.filterMap_cons, tail, List.filter_cons, failing]
    cases h : (r l.2).fails with
    | none => simp
    | some f => simp [h]

/-- The lowest failing lane gives the fault its code, its cause and its address (R375). -/
theorem failure_some {mark : Nat → Nat} {ls : List (Nat × Nat)} {r : Nat → Trans} {bad : Nat × Nat → Bool} {code cause : Nat}
    (walked : ∀ l ∈ ls, r l.2 ≠ .busy) (hbad : ∀ l, bad l = (r l.2).fails.isSome) (any : ∃ l ∈ ls, bad l = true)
    (first : r (firstAddr ls bad) = .fault code cause) :
    failure mark (withTrans ls r) = some (code, cause, lanesBits ls bad mark, firstAddr ls bad) := by
  obtain rfl : bad = fun l => (r l.2).fails.isSome := funext hbad
  obtain ⟨l, hl, fails⟩ := any
  have lane : l ∈ ls.filter fun l => (r l.2).fails.isSome := List.mem_filter.2 ⟨hl, fails⟩
  obtain ⟨b, bs, lanes⟩ := List.exists_cons_of_ne_nil (List.ne_nil_of_mem lane)
  have addr : firstAddr ls (fun l => (r l.2).fails.isSome) = b.2 := by
    rw [firstAddr, ← List.head?_filter, lanes]
    rfl
  rw [addr] at first ⊢
  rw [failure_settled (withTrans_all (P := (· ≠ .busy)) walked), filterMap_failing, lanesBits, lanes, List.map_map]
  simp only [List.map_cons, List.head?_cons, Option.map_some, first, Trans.fails, Option.getD_some]
  rfl

/-! The shared firings of loads and stores. -/

section
variable {s : State} {t : Fin 64} {p : Profile} {k : Kind} {op : AccOp} {res : Result} {mark : Nat → Nat} {n : Nat}
  {ls : List (Nat × Nat)} {data : Nat → List Nat} {word : Nat → Nat}
  {check : State → List (Nat × Nat × Trans) → Option FaultInfo} {reduction : Option Nat} {r : Nat → Trans}

theorem fireLoad_misaligned (off : ∃ l ∈ ls, (l.2 % n != 0) = true) : s.fireLoad t p k op res mark n ls data word check =
    s.takeFault (s.profile p.val)
      (0x04, 0, lanesBits ls (fun l => l.2 % n != 0) mark, lowestAddr ls fun l => l.2 % n != 0) := by
  rw [State.fireLoad, misaligned_some off]

theorem fireStore_misaligned (off : ∃ l ∈ ls, (l.2 % n != 0) = true) : s.fireStore t p k op mark n ls data word reduction =
    s.takeFault (s.profile p.val)
      (0x04, 0, lanesBits ls (fun l => l.2 % n != 0) mark, lowestAddr ls fun l => l.2 % n != 0) := by
  rw [State.fireStore, misaligned_some off]

/-- Bytes none of which is in the side log wait for no entry of it (R46). -/
theorem pendingWait_none {c : Cell} {asid n : Nat} {vas : List Nat} (h : ∀ va ∈ vas, c.pendingBytes asid va n = false) :
    c.pendingWait asid n vas = none := by
  have none : (vas.findSome? fun va => c.pendingEntry asid va n) = none := by
    rw [List.findSome?_eq_none_iff]
    intro va hva
    rw [← Option.not_isSome_iff_eq_none]
    exact Bool.eq_false_iff.1 (h va hva)
  rw [Cell.pendingWait, none]
  rfl

/-- What keeps a firing from translating its lanes (R41, R46, R281): nothing, for a load of lanes in order. -/
theorem pendingWait_clear (clear : s.clear n ls) : s.curCell.pendingWait s.curAsid n (ls.map (·.2)) = none := by
  obtain ⟨-, -, unlogged⟩ := clear
  refine pendingWait_none fun va hva => ?_
  obtain ⟨l, hl, rfl⟩ := List.mem_map.1 hva
  exact unlogged l hl

variable (hop : (op.isStore && op != .wake) = false) (clear : s.clear n ls)
  (trans : ∀ l ∈ ls, s.translateFor s.cur.cell s.curAsid k l.2 = (r l.2, s))
include hop clear trans

/-- A load of lanes in order one of which cannot be translated faults (R41, R375). -/
theorem fireLoad_refused {f : FaultInfo} (fails : failure mark (withTrans ls r) = some f) :
    s.fireLoad t p k op res mark n ls data word check = s.takeFault (s.profile p.val) f := by
  have unlogged := pendingWait_clear clear
  obtain ⟨aligned, room, -⟩ := clear
  rw [State.curAsid] at trans unlogged
  simp only [State.fireLoad, misaligned_none aligned, hop, Bool.false_eq_true, if_false, unlogged, if_neg (Nat.not_lt.2 room),
    translateAll_still trans, fails]

/-- One that meets a walk under way or a migrating leaf waits (R36, R43). -/
theorem fireLoad_waits {w : Wait} (fine : failure mark (withTrans ls r) = none) (waits : waitOf s.curAsid k (withTrans ls r) = some w) :
    s.fireLoad t p k op res mark n ls data word check = s.stay w := by
  have unlogged := pendingWait_clear clear
  obtain ⟨aligned, room, -⟩ := clear
  rw [State.curAsid] at trans unlogged waits
  simp only [State.fireLoad, misaligned_none aligned, hop, Bool.false_eq_true, if_false, unlogged, if_neg (Nat.not_lt.2 room),
    translateAll_still trans, fine, waits]

end

/-! Loads. -/

/-- A load with a destination whose firing enters nothing keeps no reservation (R168). -/
theorem loadLanes_of_fireLoad {s u : State} {t : Fin 64} {d : Dst} {p : Profile} {w : Bool} {n : Nat} {ls : List (Nat × Nat)} (hd : d ≠ .discard)
    (hls : ls ≠ [])
    (fires : s.fireLoad t p .load .load (s.resultOf t d w) laneMark n ls (fun _ => []) (fun _ => 0) (fun _ _ => none) = u)
    (same : u.accs = s.accs) : s.loadLanes t d p w n ls = u := by
  have still : ¬u.accs.length > s.accs.length := by rw [same]; exact Nat.lt_irrefl _
  cases d with
  | discard => exact absurd rfl hd
  | v r => cases ls with
    | nil => exact absurd rfl hls
    | cons l ls => simp only [State.loadLanes, fires, if_neg still]
  | o c => cases ls with
    | nil => exact absurd rfl hls
    | cons l ls => simp only [State.loadLanes, fires, if_neg still]

section
variable {s : State} {i : Instr} {t : Fin 64} {d : Dst} {p : Profile} {w : Bool} {n : Nat} {ls : List (Nat × Nat)}
  (hi : exec i s = .next (s.loadLanes t d p w n ls)) (hp : s.placed) (hd : d ≠ .discard)
include hi hp hd

theorem load_faultsMisaligned (die : dieOf s.cur.cell < s.dies.length) :
    FaultsMisaligned i s (s.profile p.val) n ls fun l => 2 ^ l := by
  rintro off
  have ⟨l, hl, _⟩ := off
  rw [loadLanes_of_fireLoad hd (List.ne_nil_of_mem hl) (fireLoad_misaligned off) (by simp)] at hi
  exact takeFault_takes hi hp die

theorem load_faultsUntranslated (die : dieOf s.cur.cell < s.dies.length) :
    FaultsUntranslated i s (s.profile p.val) n .load ls := by
  intro r clear trans bad code cause any first
  have ⟨l, hl, _⟩ := any
  have fails := failure_some (mark := laneMark) (fun l hl => (trans l hl).2) (bad := bad)
    (fun l => by cases h : r l.2 <;> simp [bad, h, Trans.fails]) any first
  rw [loadLanes_of_fireLoad hd (List.ne_nil_of_mem hl) (fireLoad_refused rfl clear (fun l hl => (trans l hl).1) fails) (by simp)] at hi
  exact takeFault_takes hi hp die

theorem load_waitsMigrating : WaitsMigrating i s n .load ls := by
  intro r clear trans fine before l after split settled pa leaf lp v mig
  have hl : l ∈ ls := by simp [split]
  have walked := withTrans_all (P := (· ≠ .busy)) fun l hl => (trans l hl).2
  have none := failure_none (mark := laneMark) walked (withTrans_all (P := fun t => ∀ code cause, t ≠ .fault code cause) fine)
  have lanes : withTrans ls r = withTrans before r ++ (l.1, l.2, .mig pa leaf lp v) :: withTrans after r := by
    rw [split, withTrans, List.map_append, List.map_cons, mig]
    rfl
  have waits : waitOf s.curAsid .load (withTrans ls r) = some (.migLeaf lp v s.curAsid (ls.map (·.2)) .load) := by
    rw [lanes] at walked
    rw [lanes, waitOf_mig walked (withTrans_all (P := fun t => ∀ pa leaf lp v, t ≠ .mig pa leaf lp v) settled), ← lanes, withTrans, List.map_map]
    rfl
  rw [loadLanes_of_fireLoad hd (List.ne_nil_of_mem hl) (fireLoad_waits rfl clear (fun l hl => (trans l hl).1) none waits) rfl] at hi
  exact ⟨_, hi, stays_stay _ hp⟩

end

/-! Stores, atomics and futures. -/

theorem store_faultsMisaligned {s : State} {i : Instr} {t : Fin 64} {e : Src} {p : Profile} {w : Bool} {n : Nat} {ls : List (Nat × Nat)}
    (hi : exec i s = .next (s.storeLanes t e p w n ls)) (hp : s.placed) (die : dieOf s.cur.cell < s.dies.length) :
    FaultsMisaligned i s (s.profile p.val) n ls fun l => 2 ^ l := by
  rintro off
  have ⟨l, hl, _⟩ := off
  have lanes : ls.isEmpty = false := by simpa using List.ne_nil_of_mem hl
  rw [State.storeLanes, lanes, if_neg Bool.false_ne_true, fireStore_misaligned off] at hi
  exact takeFault_takes hi hp die

/-- No request enters a router where none has entered the memory unit. -/
theorem enterMerges_nil (s : State) : s.enterMerges [] = s := rfl

theorem gather_pair (s : State) (a : Pair) (b : Src) : ((s.gather a b).map fun l => (l.1, (s.pairVal (2 * a.val) l.1).toNat)) =
    (lanesOf s.m0).map fun l => (l, (s.pairVal (2 * a.val) l).toNat) := by
  rw [State.gather, List.map_map]
  rfl

theorem atomic_faultsMisaligned {s : State} {i : Instr} {t : Fin 64} {op : Nat} {r : RDst} {a : Pair} {b : Src} {p : Profile} {w : Bool}
    (hi : exec i s = .next (s.fireAtomic t op r a b p w)) (hp : s.placed) (die : dieOf s.cur.cell < s.dies.length) :
    FaultsMisaligned i s (s.profile p.val) (wBytes w) ((lanesOf s.m0).map fun l => (l, (s.pairVal (2 * a.val) l).toNat)) fun l => 2 ^ l := by
  rintro off
  have ⟨l, hl, _⟩ := off
  have lanes := List.isEmpty_eq_false_iff.2 (List.ne_nil_of_mem hl)
  simp only [State.fireAtomic, gather_pair, lanes, Bool.false_eq_true, if_false] at hi
  cases r with
  | v r =>
    simp only [fireLoad_misaligned off] at hi
    exact takeFault_takes hi hp die
  | discard =>
    simp only [fireStore_misaligned off, State.takeFault_accs, List.drop_length, enterMerges_nil] at hi
    exact takeFault_takes hi hp die

theorem fres_faultsMisaligned {s : State} {t : Fin 64} {a : Pair} {b : Src} {p : Profile} (hp : s.placed)
    (die : dieOf s.cur.cell < s.dies.length) :
    FaultsMisaligned (.fres t a b p) s (s.profile p.val) 8 ((lanesOf s.m0).map fun l => (l, (s.pairVal (2 * a.val) l).toNat)) fun l => 2 ^ l := by
  rintro off
  have ⟨l, hl, _⟩ := off
  have lanes : (s.futures a).isEmpty = false := List.isEmpty_eq_false_iff.2 (List.ne_nil_of_mem hl)
  have fires : exec (.fres t a b p) s = execFres t a b p s := rfl
  simp only [execFres, lanes, Bool.false_eq_true, if_false] at fires
  rw [State.futures, fireLoad_misaligned off] at fires
  exact takeFault_takes fires hp die

/-- Settles O33: every firing checks the alignment of its lanes first, and a load then their translations. -/
theorem memoryFaultsAtFiring : Obligations.MemoryFaultsAtFiring := by
  intro s t d e r a b p w hp die n prof one lanes _
  have hn : n = wBytes w := by cases w <;> rfl
  clear_value n
  subst hn
  refine ⟨fun hd => ⟨?_, ?_, ?_, ?_, ?_, ?_⟩, ?_, ?_, ?_, ?_, ?_, ?_⟩
  · exact load_faultsMisaligned rfl hp hd die
  · exact load_faultsMisaligned rfl hp hd die
  · exact load_faultsMisaligned rfl hp hd die
  · exact load_faultsUntranslated rfl hp hd die
  · exact load_faultsUntranslated rfl hp hd die
  · exact load_waitsMigrating rfl hp hd
  · exact store_faultsMisaligned rfl hp die
  · exact store_faultsMisaligned rfl hp die
  · exact store_faultsMisaligned rfl hp die
  · exact atomic_faultsMisaligned (op := 0x58) rfl hp die
  · exact atomic_faultsMisaligned (op := 0x5F) rfl hp die
  · exact fres_faultsMisaligned hp die

end Sys2Proof.Machine
end

section
/-! # Accesses bind, complete and time out (O46) -/

namespace Sys2Proof.Machine
open Sys2Proof

/-! What the end of an access or of a FENCE touches: one context, by g, the marks of dirty rows, and the accesses. -/

structure EndsIn (c e x : Nat) (g : Ctx → Ctx) (s u : State) : Prop where
  moves : Moves c e x g s u
  elem : (u.cell c).elem e = { (s.cell c).elem e with ctxs := ((u.cell c).elem e).ctxs }
  rest : u = { s with cells := u.cells, accs := u.accs }

namespace EndsIn
variable {c e x : Nat} {g h : Ctx → Ctx} {s u w : State}

theorem trans (a : EndsIn c e x g s u) (b : EndsIn c e x h u w) : EndsIn c e x (h ∘ g) s w where
  moves := a.moves.trans b.moves
  elem := by rw [b.elem, a.elem]
  rest := by rw [b.rest, a.rest]

theorem setCtx (f : Ctx → Ctx) (s : State) (loaded : s.loaded c = true) (he : e < (s.cell c).elems.length) :
    EndsIn c e x f s (s.setCtx c e x f) where
  moves := Moves.setCtx c e x f s loaded he
  elem := by
    have cell : (s.setCtx c e x f).cell c = (s.cell c).setElem e fun k => k.setCtx x f := by
      rw [State.setCtx, s.cell_setElem c c e _ loaded, if_pos rfl]
    rw [cell, Cell.elem_setElem, if_pos ⟨rfl, he⟩]
    rfl
  rest := rfl

theorem ofAccs (accs : List Access) (s : State) : EndsIn c e x id s { s with accs := accs } :=
  ⟨Moves.of_cells rfl rfl, rfl, rfl⟩

theorem setRows (f : List Nat → List Nat) (s : State) :
    EndsIn c e x id s (s.setCell c fun k => { k with dirtyRows := f k.dirtyRows }) where
  moves := Moves.setRows c e x f s
  elem := by
    have same := State.cell_setCell_same (·.elem e) s c c (fun k => { k with dirtyRows := f k.dirtyRows }) (fun _ => rfl) fun _ => rfl
    rw [same]
  rest := rfl

theorem writeRegOf (n : Nat) (m : LaneMask) (f : Nat → Word) (s : State) (loaded : s.loaded c = true)
    (he : e < (s.cell c).elems.length) : EndsIn c e x (fun k => k.withReg n m f) s (s.writeRegOf c e x n m f) :=
  (setCtx _ s loaded he).trans (setRows (fun r => markRows r ((lanesOf m).map (regRow (4 * e + x) n))) _)

theorem setArc (arc : Option Nat) (s : State) (loaded : s.loaded c = true) (he : e < (s.cell c).elems.length) :
    EndsIn c e x (arcCtx arc) s (s.setArc c e x arc) := by
  cases arc with
  | none => exact ⟨Moves.refl c e x s, rfl, rfl⟩
  | some n => exact setCtx (fun k => { k with p := setPred k.p n true }) s loaded he

/-- The place stays. -/
theorem place (a : EndsIn c e x g s u) (loaded : s.loaded c = true) (he : e < (s.cell c).elems.length) :
    u.loaded c = true ∧ e < (u.cell c).elems.length :=
  ⟨(a.moves.loaded c).trans loaded, by obtain ⟨-, -, -, -, length, -⟩ := a.moves; omega⟩

theorem leaves (a : EndsIn c e x g s u) : LeavesContexts s u c e x := by
  obtain ⟨-, -, others, own, -, elems, ctxs⟩ := a.moves
  refine ⟨others, own, elems, a.elem, fun j hj => ?_⟩
  rw [State.ctxOf, Cell.ctx, Elem.ctx, ctxs, getD_modify, if_neg fun h => hj h.1.symm]
  rfl

end EndsIn

theorem arcCtx_arcOf (prof : Nat) (k : Ctx) : arcCtx (arcOf prof) k = { k with p := arcSet prof k.p } := by
  rw [arcSet]
  cases arcOf prof <;> rfl

/-! Accesses found by their number. -/

theorem acc?_setAcc_self {s : State} {a : Access} {f : Access → Access} (hf : ∀ a, (f a).id = a.id) (found : s.acc? a.id = some a) :
    (s.setAcc a.id f).acc? a.id = some (f a) := by
  rw [acc_setAcc _ _ hf, if_pos rfl, found]
  rfl

/-- An access whose parts wait for nothing has none that could hit in its cell (R90). -/
theorem runHits_settled {s : State} {a : Access} (found : s.acc? a.id = some a) (settled : ∀ p ∈ a.parts, p.st ≠ .waiting) :
    s.runHits a.id = s := by
  rw [State.runHits]
  refine foldl_idle fun i => ?_
  rw [found]
  dsimp only
  split
  · next p hp => simp [settled p (List.mem_of_getElem? hp)]
  · rfl

/-- Only an uncorrectable word and the future forms report what failed at home (R143, R291). -/
theorem homeFailures_nil {a : Access} (sound : ∀ p ∈ a.parts, p.word ≠ 2 ^ 64) (freg : a.op ≠ .freg) (fres : a.op ≠ .fres) :
    a.homeFailures = [] := by
  rw [Access.homeFailures, List.filterMap_eq_nil_iff]
  intro p hp
  rw [if_neg (sound p hp)]
  split
  · next op _ => exact absurd op freg
  · next op _ => exact absurd op fres
  · rfl

/-- An access that failed nowhere ends with its results (R115). -/
theorem endAccess_sound {s : State} {a : Access} (sound : ∀ p ∈ a.parts, p.word ≠ 2 ^ 64) (freg : a.op ≠ .freg) (fres : a.op ≠ .fres)
    (waita : a.op ≠ .waita) : s.endAccess a = s.finish a := by
  simp only [State.endAccess, homeFailures_nil sound freg fres, if_neg waita]

/-- An access that has ended is no longer in the memory unit. -/
theorem acc?_endAccess (s : State) (a : Access) : (s.endAccess a).acc? a.id = none := by
  rw [State.acc?, (LeavesLogs.endAccess s a).accs]
  exact acc_dropAcc_reissue s s a.id a.cell a.elem a.ctx

/-! What the end of an access makes of its context (R115, R282). -/

/-- The words of a bound access at an offset of its lanes' bytes. -/
def Access.boundWord (a : Access) (o l : Nat) : Word := BitVec.ofNat 32 (fieldAt (a.laneBytes l) o 4)

/-- The registers of a bound access written and no longer pending. -/
def Access.boundCtx (a : Access) (n w : Nat) (k : Ctx) : Ctx :=
  let low := k.withReg n a.m0 (a.boundWord 0)
  let both := if w = 2 then low.withReg (n + 1) a.m0 (a.boundWord 4) else low
  { both with pendV := both.pendV &&& ~~~(regsMask n w) }

/-- The arc of an access that has not told yet. -/
def Access.arcOn (a : Access) (k : Ctx) : Ctx := { k with p := if a.told then k.p else arcSet a.profile k.p }

/-- The flags that an access has raised. -/
def Access.flagsOn (a : Access) (k : Ctx) : Ctx := { k with fpflags := Nat.lor k.fpflags (a.flags % 64) }

theorem boundCtx_frame (a : Access) (n w : Nat) (k : Ctx) :
    a.boundCtx n w k = { k with v := (a.boundCtx n w k).v, pendV := k.pendV &&& ~~~(regsMask n w) } := by
  by_cases wide : w = 2
  · simp only [Access.boundCtx, if_pos wide, Ctx.withReg]
  · simp only [Access.boundCtx, if_neg wide, Ctx.withReg]

/-- A register that is no destination keeps its lanes. -/
theorem boundCtx_other {a : Access} {n w r : Nat} {k : Ctx} (hw : w = 1 ∨ w = 2) (hr : r < n ∨ n + w ≤ r) :
    (a.boundCtx n w k).v.getD r [] = k.v.getD r [] := by
  rcases hw with rfl | rfl
  · exact Ctx.withReg_other _ _ _ _ _ (by omega)
  · exact (Ctx.withReg_other _ (n + 1) r _ _ (by omega)).trans (Ctx.withReg_other k n r _ _ (by omega))

/-- A destination holds what its lanes have bound, and keeps the others. -/
theorem boundCtx_lane {a : Access} {n w j l : Nat} {k : Ctx} (hw : w = 1 ∨ w = 2) (regs : n + w ≤ k.v.length) (hj : j < w) (hl : l < 64) :
    lane ((a.boundCtx n w k).v.getD (n + j) []) l =
      if inMask a.m0 l then a.boundWord (4 * j) l else lane (k.v.getD (n + j) []) l := by
  have low := Ctx.withReg_self k n a.m0 (a.boundWord 0) (by omega) l hl
  rcases hw with rfl | rfl
  · obtain rfl : j = 0 := by omega
    exact low
  · obtain rfl | rfl : j = 0 ∨ j = 1 := by omega
    · exact (congrArg (lane · l) (Ctx.withReg_other _ (n + 1) n _ _ (by omega))).trans low
    · have kept := Ctx.withReg_other k n (n + 1) a.m0 (a.boundWord 0) (by omega)
      have high := Ctx.withReg_self (k.withReg n a.m0 (a.boundWord 0)) (n + 1) a.m0 (a.boundWord 4)
        (by rw [Ctx.withReg, List.length_modify]; omega) l hl
      rw [kept] at high
      exact high

section
variable {s : State} {a : Access} (loaded : s.loaded a.cell = true) (he : a.elem < (s.cell a.cell).elems.length)
include loaded he

theorem EndsIn.writeResult {n w : Nat} (res : a.res = .regs n w) :
    EndsIn a.cell a.elem a.ctx (a.boundCtx n w) s (s.writeResult a) := by
  have low := EndsIn.writeRegOf (x := a.ctx) n a.m0 (a.boundWord 0) s loaded he
  obtain ⟨loadedLow, heLow⟩ := low.place loaded he
  by_cases wide : w = 2
  · have both := low.trans (EndsIn.writeRegOf (n + 1) a.m0 (a.boundWord 4) _ loadedLow heLow)
    obtain ⟨loadedBoth, heBoth⟩ := both.place loaded he
    have all := both.trans (EndsIn.setCtx (fun k => { k with pendV := k.pendV &&& ~~~(regsMask n w) }) _ loadedBoth heBoth)
    simp only [State.writeResult, res, if_pos wide]
    have same : a.boundCtx n w = _ := funext fun k => by
      simp only [Access.boundCtx, if_pos wide]
      rfl
    rw [same]
    exact all
  · have all := low.trans (EndsIn.setCtx (fun k => { k with pendV := k.pendV &&& ~~~(regsMask n w) }) _ loadedLow heLow)
    simp only [State.writeResult, res, if_neg wide]
    have same : a.boundCtx n w = _ := funext fun k => by
      simp only [Access.boundCtx, if_neg wide]
      rfl
    rw [same]
    exact all

/-- An arc that is set where the access has not told yet. -/
theorem EndsIn.tellOnce : EndsIn a.cell a.elem a.ctx a.arcOn s
    (if a.told then s else s.setArc a.cell a.elem a.ctx (arcOf a.profile)) := by
  cases told : a.told with
  | true =>
    have same : a.arcOn = id := funext fun k => by simp only [Access.arcOn, told, if_true]; rfl
    rw [same, if_pos rfl]
    exact ⟨Moves.refl _ _ _ s, rfl, rfl⟩
  | false =>
    have same : a.arcOn = arcCtx (arcOf a.profile) := funext fun k => by
      simp only [Access.arcOn, told, arcCtx_arcOf, Bool.false_eq_true, if_false]
    rw [same, if_neg Bool.false_ne_true]
    exact EndsIn.setArc _ s loaded he

/-- An access with registers ends with their values, its flags and its arc (R115, R192, R282). -/
theorem EndsIn.finishRegs {n w : Nat} (res : a.res = .regs n w) :
    EndsIn a.cell a.elem a.ctx (a.arcOn ∘ a.flagsOn ∘ a.boundCtx n w) s (s.finish a) := by
  have dropped : EndsIn a.cell a.elem a.ctx id s ((s.dropAcc a.id).reissue s a.cell a.elem a.ctx) := EndsIn.ofAccs _ s
  obtain ⟨loaded0, he0⟩ := dropped.place loaded he
  have results := dropped.trans (EndsIn.writeResult loaded0 he0 res)
  obtain ⟨loaded1, he1⟩ := results.place loaded he
  have flags := results.trans (EndsIn.setCtx a.flagsOn _ loaded1 he1)
  obtain ⟨loaded2, he2⟩ := flags.place loaded he
  have all := flags.trans (EndsIn.tellOnce loaded2 he2)
  have some : a.res ≠ .none := by rw [res]; exact Result.noConfusion
  rw [State.finish]
  simp only [if_neg some]
  exact all

/-- One without a result ends with its arc (R115). -/
theorem EndsIn.finishNone (res : a.res = .none) : EndsIn a.cell a.elem a.ctx a.arcOn s (s.finish a) := by
  have dropped : EndsIn a.cell a.elem a.ctx id s ((s.dropAcc a.id).reissue s a.cell a.elem a.ctx) := EndsIn.ofAccs _ s
  obtain ⟨loaded0, he0⟩ := dropped.place loaded he
  have all := dropped.trans (EndsIn.tellOnce loaded0 he0)
  simp only [State.finish, State.writeResult, res, if_true]
  exact all

end

/-! LOAD_BIND and ACCESS_COMPLETION. -/

/-- A complete access that returns values ends (R282). -/
theorem exec_loadBind_done {s : State} {a : Access} (loaded : s.loaded a.cell = true) (found : s.acc? a.id = some a)
    (done : ∀ p ∈ a.parts, p.st = .done) (returns : a.returns = true) (valid : s.validating a.id = false) :
    exec (.loadBind a.id) s = .next (s.endAccess a) := by
  have hits := runHits_settled found fun p hp => by rw [done p hp]; decide
  have all : a.done = true := List.all_eq_true.2 fun p hp => by simp [done p hp]
  have present : s.present a.cell = true := loaded
  change execLoadBind a.id s = _
  simp only [execLoadBind, found, returns, present, hits, ite_self, all, valid, Bool.not_true, Bool.not_false, Bool.or_self,
    Bool.and_self, Bool.false_eq_true, if_false, if_true]

/-- An access that waits for nothing in its cell, and whose entries are out of the side log, tells what it has completed (R115). -/
theorem exec_accessCompletion_settled {s : State} {a : Access} (loaded : s.loaded a.cell = true) (found : s.acc? a.id = some a)
    (op : a.op = .store ∨ a.op = .stx) (settled : ∀ p ∈ a.parts, p.st ≠ .waiting)
    (log : ∀ e ∈ (s.cell a.cell).sideLog, e.id ≠ a.id) : exec (.accessCompletion a.id) s = .next (s.tell a) := by
  have hits := runHits_settled found settled
  have returns : a.returns = false := by rcases op with op | op <;> rw [Access.returns, op]
  have present : s.present a.cell = true := loaded
  have unlogged : (s.cell a.cell).sideLog.any a.over = false :=
    List.any_eq_false.2 fun e he => by simp [Access.over, log e he]
  have clear : s.clearLog a = s := by rw [State.clearLog, unlogged, if_neg Bool.false_ne_true]
  change execAccessCompletion a.id s = _
  rcases op with op | op <;>
    simp only [execAccessCompletion, found, returns, present, op, hits, clear, Bool.not_true, Bool.or_self, Bool.false_eq_true, if_false]

theorem completeAt_of {s : State} {a : Access} {scope : Nat} (arrivals : ∀ r ∈ s.arrivals, r.source ≠ a.id)
    (log : ∀ e ∈ (s.cell a.cell).sideLog, e.id ≠ a.id) : s.completeAt scope a = a.doneAt scope := by
  have settled : s.arrivals.any (·.source == a.id) = false := List.any_eq_false.2 fun r hr => by simpa using arrivals r hr
  have unlogged : (s.cell a.cell).sideLog.any (·.id == a.id) = false := List.any_eq_false.2 fun e he => by simpa using log e he
  rw [State.completeAt, settled, unlogged, Bool.not_false, Bool.and_true, Bool.and_true]

/-- R166, R282: a load or an atomic whose parts have bound. -/
theorem bound_ends {s : State} {a : Access} (place : s.hasCtx a.cell a.elem a.ctx) (found : s.acc? a.id = some a)
    (done : ∀ p ∈ a.parts, p.st = .done ∧ p.word ≠ 2 ^ 64) {n w : Nat} (op : a.op = .load ∨ ∃ o, a.op = .atomic o)
    (res : a.res = .regs n w) (hw : w = 1 ∨ w = 2) (regs : n + w ≤ 16) (valid : s.validating a.id = false) :
    Completes (.loadBind a.id) s fun u =>
      let k := s.ctxOf a.cell a.elem a.ctx
      let k' := u.ctxOf a.cell a.elem a.ctx
      (∀ j l, j < w → l < 64 → lane (k'.v.getD (n + j) []) l =
        if inMask a.m0 l then BitVec.ofNat 32 (fieldAt (a.laneBytes l) (4 * j) 4) else lane (k.v.getD (n + j) []) l) ∧
      (∀ r, r < n ∨ n + w ≤ r → k'.v.getD r [] = k.v.getD r []) ∧
      k' = { k with v := k'.v, pendV := k.pendV &&& ~~~(regsMask n w), p := if a.told then k.p else arcSet a.profile k.p
                    fpflags := Nat.lor k.fpflags (a.flags % 64) } ∧
      LeavesContexts s u a.cell a.elem a.ctx ∧ u.acc? a.id = none ∧ u = { s with cells := u.cells, accs := u.accs } := by
  obtain ⟨loaded, he, hx, length, -⟩ := place
  have kind : a.returns = true ∧ a.op ≠ .freg ∧ a.op ≠ .fres ∧ a.op ≠ .waita := by
    rcases op with op | ⟨o, op⟩ <;> simp [Access.returns, op, res]
  obtain ⟨returns, freg, fres, waita⟩ := kind
  have ran := exec_loadBind_done loaded found (fun p hp => (done p hp).1) returns valid
  have finish := endAccess_sound (s := s) (fun p hp => (done p hp).2) freg fres waita
  have ended := EndsIn.finishRegs loaded he res
  rw [← finish] at ended
  refine ⟨_, ran, ?_⟩
  have ctx := ended.moves.ctx hx
  generalize s.ctxOf a.cell a.elem a.ctx = k at ctx length
  have frame := boundCtx_frame a n w k
  refine ⟨fun j l hj hl => ?_, fun r hr => ?_, ?_, ended.leaves, acc?_endAccess s a, ended.rest⟩
  · rw [ctx]
    exact boundCtx_lane hw (by omega) hj hl
  · rw [ctx]
    exact boundCtx_other hw hr
  · rw [ctx]
    simp only [Function.comp, Access.arcOn, Access.flagsOn]
    rw [frame]

/-- R115: a store whose parts are performed. -/
theorem store_ends {s : State} {a : Access} (place : s.hasCtx a.cell a.elem a.ctx) (found : s.acc? a.id = some a)
    (done : ∀ p ∈ a.parts, p.st = .done ∧ p.word ≠ 2 ^ 64) (op : a.op = .store ∨ a.op = .stx) (res : a.res = .none)
    (arrivals : ∀ r ∈ s.arrivals, r.source ≠ a.id) (log : ∀ e ∈ (s.cell a.cell).sideLog, e.id ≠ a.id) :
    Completes (.accessCompletion a.id) s fun u =>
      let k := s.ctxOf a.cell a.elem a.ctx
      u.ctxOf a.cell a.elem a.ctx = { k with p := if a.told then k.p else arcSet a.profile k.p } ∧
      LeavesContexts s u a.cell a.elem a.ctx ∧ u.acc? a.id = none ∧ u = { s with cells := u.cells, accs := u.accs } := by
  obtain ⟨loaded, he, hx, -, -⟩ := place
  have kind : a.op ≠ .freg ∧ a.op ≠ .fres ∧ a.op ≠ .waita := by rcases op with op | op <;> simp [op]
  obtain ⟨freg, fres, waita⟩ := kind
  have ran := exec_accessCompletion_settled loaded found op (fun p hp => by rw [(done p hp).1]; decide) log
  have all : a.doneAt 4 = true := List.all_eq_true.2 fun p hp => by simp [(done p hp).1]
  rw [State.tell, completeAt_of arrivals log, all, if_pos rfl] at ran
  have ended := EndsIn.finishNone loaded he res
  rw [← endAccess_sound (s := s) (fun p hp => (done p hp).2) freg fres waita] at ended
  exact ⟨_, ran, ended.moves.ctx hx, ended.leaves, acc?_endAccess s a, ended.rest⟩

/-- R126: a store performed in a software-managed copy alone is performed at cell scope and no wider. -/
theorem store_inCell {s : State} {a : Access} (place : s.hasCtx a.cell a.elem a.ctx) (found : s.acc? a.id = some a)
    (op : a.op = .store ∨ a.op = .stx) (told : a.told = false) (parts : ∀ p ∈ a.parts, p.st = .done ∨ p.st = .inCell)
    (inCell : ∃ p ∈ a.parts, p.st = .inCell) (arrivals : ∀ r ∈ s.arrivals, r.source ≠ a.id)
    (log : ∀ e ∈ (s.cell a.cell).sideLog, e.id ≠ a.id) :
    let k := s.ctxOf a.cell a.elem a.ctx
    (scopeOf a.profile ≠ 0 → exec (.accessCompletion a.id) s = .next s) ∧
    (scopeOf a.profile = 0 → Completes (.accessCompletion a.id) s fun u =>
      u.ctxOf a.cell a.elem a.ctx = { k with p := arcSet a.profile k.p } ∧ LeavesContexts s u a.cell a.elem a.ctx ∧
      u.acc? a.id = some { a with told := true } ∧ u = { s with cells := u.cells, accs := u.accs }) := by
  obtain ⟨loaded, he, hx, -, -⟩ := place
  obtain ⟨q, hq, held⟩ := inCell
  have ran := exec_accessCompletion_settled loaded found op (fun p hp => by rcases parts p hp with st | st <;> rw [st] <;> decide) log
  have wide : ∀ scope, scope ≠ 0 → a.doneAt scope = false := fun scope h =>
    List.all_eq_false.2 ⟨q, hq, by simp [held, h]⟩
  have narrow : a.doneAt 0 = true := List.all_eq_true.2 fun p hp => by rcases parts p hp with st | st <;> simp [st]
  have closed : a.parts.any Part.open = false := List.any_eq_false.2 fun p hp => by
    rcases parts p hp with st | st <;> simp [Part.open, st]
  have late : s.tellsEarly a = false := by simp [State.tellsEarly, closed]
  have never : s.completeAt 4 a = false := by rw [completeAt_of arrivals log, wide 4 (by decide)]
  simp only [State.tell, never, told, Bool.false_eq_true, if_false] at ran
  refine ⟨fun scope => ?_, fun scope => ?_⟩
  · rw [ran, completeAt_of arrivals log, wide _ scope, late]
    rfl
  · rw [completeAt_of arrivals log, scope, narrow, if_pos rfl] at ran
    have marked : EndsIn a.cell a.elem a.ctx id s (s.setAcc a.id fun a => { a with told := true }) := EndsIn.ofAccs _ s
    obtain ⟨loaded1, he1⟩ := marked.place loaded he
    have ended := marked.trans (EndsIn.setArc (arcOf a.profile) _ loaded1 he1)
    refine ⟨_, ran, (ended.moves.ctx hx).trans (arcCtx_arcOf _ _), ended.leaves, ?_, ended.rest⟩
    rw [State.acc?, State.setArc_accs]
    exact acc?_setAcc_self (by exact fun _ => rfl) found

/-- The module without a FENCE. -/
def State.withoutFence (s : State) (id : Nat) : State := { s with fences := s.fences.filter (·.id != id) }

/-- R121, R131: a FENCE. -/
theorem fence_ends {s : State} {f : Fence} (place : s.hasCtx f.cell f.elem f.ctx) (absent : s.acc? f.id = none)
    (found : s.fences.find? (·.id == f.id) = some f) :
    let unread := s.unread f.cell f.elem f.ctx f.seq
    ((∃ m ∈ f.marked, s.liveAt f.scope m = true) ∨ (∃ m ∈ f.reads, m ∈ unread) → exec (.accessCompletion f.id) s = .next s) ∧
    ((∀ m ∈ f.marked, s.liveAt f.scope m = false) → (∀ m ∈ f.reads, m ∉ unread) → Completes (.accessCompletion f.id) s fun u =>
      let k := s.ctxOf f.cell f.elem f.ctx
      u.ctxOf f.cell f.elem f.ctx = { k with p := (match f.arc with | some n => setPred k.p n true | none => k.p) } ∧
      LeavesContexts s u f.cell f.elem f.ctx ∧ u.fences = s.fences.filter (·.id != f.id) ∧
      u = { s with cells := u.cells, accs := u.accs, fences := u.fences }) := by
  obtain ⟨loaded, he, hx, -, -⟩ := place
  have ran : exec (.accessCompletion f.id) s = .next (s.endFence f) := by
    change execAccessCompletion f.id s = _
    simp only [execAccessCompletion, absent, found]
  have present : s.present f.cell = true := loaded
  refine ⟨fun busy => ?_, fun marked reads => ?_⟩
  · have waits : s.fenceOpen f = true := by
      rw [State.fenceOpen, Bool.or_eq_true]
      rcases busy with ⟨m, hm, live⟩ | ⟨m, hm, unread⟩
      · exact .inl (List.any_eq_true.2 ⟨m, hm, live⟩)
      · exact .inr (List.any_eq_true.2 ⟨m, hm, List.contains_iff_mem.2 unread⟩)
    rw [ran, State.endFence, waits, Bool.true_or, if_pos rfl]
  · have closed : s.fenceOpen f = false := by
      rw [State.fenceOpen, Bool.or_eq_false_iff]
      exact ⟨List.any_eq_false.2 fun m hm => by simp [marked m hm], List.any_eq_false.2 fun m hm => by simp [reads m hm]⟩
    have ends : s.endFence f = ((s.withoutFence f.id).reissue s f.cell f.elem f.ctx).setArc f.cell f.elem f.ctx f.arc := by
      simp only [State.endFence, closed, present, Bool.not_true, Bool.or_self, Bool.false_eq_true, if_false]
      rfl
    rw [ends] at ran
    have reissued : EndsIn f.cell f.elem f.ctx id (s.withoutFence f.id) ((s.withoutFence f.id).reissue s f.cell f.elem f.ctx) :=
      EndsIn.ofAccs _ _
    obtain ⟨loaded1, he1⟩ := reissued.place loaded he
    have ended := reissued.trans (EndsIn.setArc f.arc _ loaded1 he1)
    refine ⟨_, ran, (ended.moves.ctx hx).trans ?_, ended.leaves, State.setArc_fences .., ?_⟩
    · cases f.arc <;> rfl
    · cases f.arc <;> rfl

/-! MEMORY_TIMEOUT (R48, R379). -/

/-- The record that is pushed, under the number that the push answers (R375, R377). -/
theorem raised_pushed {s u : State} {c e x slot opcode fl prof : Nat} (f : FaultInfo) (what : RecordOf)
    (hd : dieOf c < s.dies.length) (dies : u.dies = (s.pushRecord c e x slot opcode fl prof f what).2.dies) :
    Raised s u c e x slot opcode fl prof f what (s.pushRecord c e x slot opcode fl prof f what).1 := by
  have die : u.die (dieOf c) = (s.pushRecord c e x slot opcode fl prof f what).2.die (dieOf c) := by rw [State.die, dies, State.die]
  have pushed := congrArg Die.records (die.trans (State.die_setDie { s with nextId := s.nextId + 1 } (dieOf c) _ hd))
  exact ⟨_, pushed, rfl, rfl, rfl, rfl, rfl, rfl, rfl⟩

/-- What a request that is late makes of its access (R48). -/
def Access.timedOut (a : Access) (p : Part) (ticks : Nat) : Access := { a with parts := [{ p with st := .failed 0x0D ticks }] }

/-- The one request of an access, unanswered for 2 ms, fails (R48). -/
theorem exec_memoryTimeout_late {s : State} {a : Access} {p : Part} (loaded : s.loaded a.cell = true) (found : s.acc? a.id = some a)
    (parts : a.parts = [p]) (waiting : p.st = .waiting) (op : a.op ≠ .prefetch) (late : p.since + 2000000000 * Config.ps ≤ s.time)
    (free : s.blocked a 0 p = false) (unmerged : s.mergeOf a.id 0 = none) : ∃ f : Access → Access, (∀ a, (f a).id = a.id) ∧
      f a = a.timedOut p s.ticks ∧ exec (.memoryTimeout a.id) s = .next ((s.setAcc a.id f).reportFailed a.id) := by
  have present : s.present a.cell = true := loaded
  have ran : exec (.memoryTimeout a.id) s = execMemoryTimeout a.id s := rfl
  simp only [execMemoryTimeout, found, present, if_neg op, Bool.not_true, Bool.false_eq_true, if_false] at ran
  refine ⟨_, ?_, ?_, ran⟩
  · exact fun _ => rfl
  · have overdue : decide (p.since + timeoutPs ≤ s.time) = true := decide_eq_true late
    have one : List.range 1 = [0] := rfl
    simp only [Access.timedOut, parts, List.length_singleton, one, List.zip_cons_cons, List.zip_nil_left, List.map_cons, List.map_nil,
      waiting, overdue, free, unmerged, beq_self_eq_true, Bool.not_false, Option.isNone_none, Bool.and_self, if_true]
    rfl

/-- A failed access of one request is reported, once (R375). -/
theorem reportFailed_timedOut {s : State} {a : Access} {p : Part} {ticks : Nat} (found : s.acc? a.id = some (a.timedOut p ticks))
    (unreported : s.reported a.id = false) : s.reportFailed a.id =
      let pushed := s.pushRecordAt ticks a.cell a.elem a.ctx a.slot a.opcode 0 a.profile (0x0D, 0, a.markOf p, p.va) (.access a.id 0)
      pushed.2.hold a.cell a.elem a.ctx pushed.1 := by
  have one : List.range 1 = [0] := rfl
  have mark : (a.timedOut p ticks).markOf { p with st := .failed 0x0D ticks } = a.markOf p := rfl
  have bad : Part.bad { p with st := .failed 0x0D ticks } = true := rfl
  have parts : (a.timedOut p ticks).parts = [{ p with st := .failed 0x0D ticks }] := rfl
  have lanes : Nat.lor 0 (a.markOf p) = a.markOf p := Nat.zero_or _
  have settled : (PartSt.failed 0x0D ticks != .waiting) = true := rfl
  simp only [State.reportFailed, found, parts, List.length_singleton, one, List.all_cons, List.all_nil, List.getElem?_cons_zero, settled,
    List.zip_cons_cons, List.zip_nil_left, List.find?_cons, bad, unreported, Bool.true_or, Bool.and_true, Bool.not_true, Bool.or_self, Bool.false_eq_true,
    if_false, List.filter_cons, List.filter_nil, if_true, List.foldl_cons, List.foldl_nil, mark, lanes]
  rfl

/-- R48, R379: a request unanswered for 2 ms. -/
theorem timeouts : Timeouts := by
  intro s a p place hd found parts waiting op late free unmerged unreported
  obtain ⟨loaded, he, hx, -, -⟩ := place
  obtain ⟨f, keeps, failed, ran⟩ := exec_memoryTimeout_late loaded found parts waiting op late free unmerged
  have marked : EndsIn a.cell a.elem a.ctx id s (s.setAcc a.id f) := EndsIn.ofAccs _ s
  have found' : (s.setAcc a.id f).acc? a.id = some (a.timedOut p s.ticks) := by rw [acc?_setAcc_self keeps found, failed]
  rw [reportFailed_timedOut found' unreported] at ran
  have held := Moves.setCtx a.cell a.elem a.ctx
    (fun k => { k with heldBy := k.heldBy ++ [((s.setAcc a.id f).pushRecord a.cell a.elem a.ctx a.slot a.opcode 0 a.profile
      (0x0D, 0, a.markOf p, p.va) (.access a.id 0)).1] }) s loaded he
  have raised := raised_pushed (s := s.setAcc a.id f) (e := a.elem) (x := a.ctx) (slot := a.slot) (opcode := a.opcode) (fl := 0)
    (prof := a.profile) (0x0D, 0, a.markOf p, p.va) (.access a.id 0) hd rfl
  refine ⟨_, ran, ⟨_, raised, held.ctx hx, ?_⟩, found', rfl⟩
  exact (EndsIn.setCtx _ s loaded he).leaves

/-- Settles O46: an access that has bound or been performed leaves through `State.finish`, a store in its cell's copy tells at cell scope, a
FENCE ends with what it marked, and a request that nothing holds back fails after 2 ms. -/
theorem accessEndEvents : Obligations.AccessEndEvents := by
  refine ⟨⟨fun _ _ place found done => ⟨?_, ?_⟩, ?_, ?_⟩, timeouts⟩
  · exact fun _ _ op res hw regs valid => bound_ends place found done op res hw regs valid
  · exact fun op res arrivals log => store_ends place found done op res arrivals log
  · exact fun _ _ place found op told parts inCell arrivals log => store_inCell place found op told parts inCell arrivals log
  · exact fun _ _ place absent found => fence_ends place absent found

end Sys2Proof.Machine
end

section
/-! # Stores at firing (O32) -/

namespace Sys2Proof.Machine
open Sys2Proof

/-! An access without a result enters the memory unit. -/

/-- An update that changes no context changes nothing. -/
theorem setCurCtx_same {s : State} {f : Ctx → Ctx} (hf : ∀ k, f k = k) : s.setCurCtx f = s := by
  obtain rfl : f = id := funext hf
  have ctxs : ∀ k : Elem, k.setCtx s.cur.ctx id = k := fun k => by rw [Elem.setCtx, modifyAt, List.modify_id]
  have elems : ∀ c : Cell, (c.setElem s.cur.elem fun k => k.setCtx s.cur.ctx id) = c := fun c => by
    rw [Cell.setElem, modifyAt, funext (g := id) ctxs, List.modify_id]
  have cells : updateWhere (·.id == s.cur.cell) (fun c => c.setElem s.cur.elem fun k => k.setCtx s.cur.ctx id) s.cells = s.cells := by
    rw [funext (g := id) elems, updateWhere]
    exact (List.map_congr_left fun c _ => ite_self _).trans (List.map_id _)
  rw [State.setCurCtx, State.setCtx, State.setElem, State.setCell, cells]

/-- The module with one access more. -/
def State.withAccess (s : State) (a : Access) : State := { s with accs := s.accs ++ [a], nextId := s.nextId + 1 }

theorem enter_store {s : State} {op : AccOp} {prof : Nat} {parts : List Part} (hop : op = .store ∨ op = .stx) :
    s.enter op .none prof s.curAsid parts = (s.nextId, s.withAccess (s.newAccess op .none prof false true s.m0 parts)) := by
  have same : ∀ u : State, u.setCurCtx (fun k => { k with pendV := k.pendV ||| Result.none.pends }) = u := fun u =>
    setCurCtx_same fun k => by simp [Result.pends]
  have acquires : ∀ o : Bool, (op.acquires .none && o || op == .freg) = (false && o) := fun o => by
    rcases hop with rfl | rfl <;> simp [AccOp.acquires, AccOp.isLoad]
  have releases : ∀ o : Bool, (op.isStore && o || op == .freg || op == .fres) = (true && o) := fun o => by
    have other : (op == .freg) = false ∧ (op == .fres) = false := by rcases hop with rfl | rfl <;> decide
    rw [other.1, other.2]
    rcases hop with rfl | rfl <;> simp [AccOp.isStore]
  simp only [State.enter, same, acquires, releases] 
  rfl

/-! The lanes of a store in order. -/

/-- Lanes below 64 in strictly ascending order. -/
def Ascending (ls : List (Nat × Nat)) : Prop := ls.Pairwise (fun x y => x.1 < y.1) ∧ ∀ l ∈ ls, l.1 < 64

theorem flatMap_range'_lanes (n a : Nat) (ls : List (Nat × Nat)) (order : ls.Pairwise fun x y => x.1 < y.1)
    (within : ∀ l ∈ ls, a ≤ l.1 ∧ l.1 < a + n) : (List.range' a n).flatMap (fun l => ls.filter (·.1 == l)) = ls := by
  induction n generalizing a ls with
  | zero =>
    cases ls with
    | nil => rfl
    | cons l ls => have := within l List.mem_cons_self; omega
  | succ n ih =>
    rw [List.range'_succ, List.flatMap_cons]
    by_cases first : ∃ l ∈ ls, l.1 = a
    · cases ls with
      | nil => simp at first
      | cons l ls =>
        obtain ⟨below, order⟩ := List.pairwise_cons.1 order
        have head : l.1 = a := by
          obtain ⟨k, hk, rfl⟩ := first
          rcases List.mem_cons.1 hk with rfl | hk
          · rfl
          · have := below k hk
            have := (within l List.mem_cons_self).1
            omega
        have above : ∀ k ∈ ls, a + 1 ≤ k.1 ∧ k.1 < a + 1 + n := fun k hk => by
          have := below k hk
          have := within k (List.mem_cons_of_mem l hk)
          omega
        have only : (l :: ls).filter (·.1 == a) = [l] := by
          rw [List.filter_cons, if_pos (by simpa using head), List.filter_eq_nil_iff.2]
          intro k hk
          have := above k hk
          simp
          omega
        have tail : (List.range' (a + 1) n).flatMap (fun j => (l :: ls).filter (·.1 == j)) =
            (List.range' (a + 1) n).flatMap fun j => ls.filter (·.1 == j) := by
          refine List.flatMap_congr fun j hj => ?_
          have := List.mem_range'_1.1 hj
          rw [List.filter_cons, if_neg]
          simp
          omega
        rw [only, tail, ih (a + 1) ls order above]
        rfl
    · have none : ls.filter (·.1 == a) = [] := List.filter_eq_nil_iff.2 fun l hl => by
        simpa using fun h => first ⟨l, hl, h⟩
      rw [none, ih (a + 1) ls order fun l hl => ?_]
      · rfl
      · have := within l hl
        have : l.1 ≠ a := fun h => first ⟨l, hl, h⟩
        omega

/-- Lanes gathered one by one stand as they did. -/
theorem Ascending.gathered {ls : List (Nat × Nat)} (h : Ascending ls) :
    (List.range 64).flatMap (fun l => ls.filter (·.1 == l)) = ls := by
  rw [List.range_eq_range']
  exact flatMap_range'_lanes 64 0 ls h.1 fun l hl => ⟨Nat.zero_le _, by simpa using h.2 l hl⟩

theorem ascending_lanes (m : LaneMask) (f : Nat → Nat) : Ascending ((lanesOf m).map fun l => (l, f l)) := by
  refine ⟨List.pairwise_map.2 (lanesOf_ascending m), fun l hl => ?_⟩
  obtain ⟨j, hj, rfl⟩ := List.mem_map.1 hl
  exact (mem_lanesOf.1 hj).1

theorem ascending_blocks (s : State) (a : Pair) (b : Src) : Ascending (s.blocks a b) := by
  refine ⟨List.pairwise_map.2 ((List.pairwise_lt_range.filter _).imp fun h => ?_), fun l hl => ?_⟩
  · simpa using h
  · obtain ⟨k, hk, rfl⟩ := List.mem_map.1 hl
    have := List.mem_range.1 (List.mem_of_mem_filter hk)
    simp only
    omega

/-! The pages of lanes. -/

theorem pagesOf_one {ls : List (Nat × Nat)} {g : Nat} (some : ls ≠ []) (page : ∀ l ∈ ls, l.2 / 4096 * 4096 = g) :
    pagesOf ls = [g] := by
  have dedup : ∀ n, (List.replicate n g).foldl (fun acc g => if acc.contains g then acc else acc ++ [g]) [g] = [g] := by
    intro n
    induction n with
    | zero => rfl
    | succ n ih =>
      rw [List.replicate_succ, List.foldl_cons]
      simpa using ih
  have pages : ls.map (fun l => l.2 / 4096 * 4096) = List.replicate ls.length g :=
    List.eq_replicate_iff.2 ⟨List.length_map _, fun x hx => by
      obtain ⟨l, hl, rfl⟩ := List.mem_map.1 hx
      exact page l hl⟩
  obtain ⟨n, length⟩ : ∃ n, ls.length = n + 1 := Nat.exists_eq_succ_of_ne_zero fun h => some (List.length_eq_zero_iff.1 h)
  rw [pagesOf, pages, length, List.replicate_succ, List.foldl_cons]
  simp only [List.contains_nil, Bool.false_eq_true, if_false, List.nil_append, dedup]
  rfl

/-! What a store does with lanes that are aligned and for which there is room. -/

theorem pending_eq {c : Cell} {asid g va : Nat} (page : va / 4096 * 4096 = g) :
    c.pending asid va = (c.sideLog.find? fun e => e.asid == asid && e.page == g).isSome := by
  rw [Cell.pending, page, Bool.eq_iff_iff, List.any_eq_true, List.find?_isSome]

theorem any_withTrans (ls : List (Nat × Nat)) (r : Nat → Trans) (f : Nat × Nat × Trans → Bool) :
    (withTrans ls r).any f = ls.any fun l => f (l.1, l.2, r l.2) := List.any_map

theorem filterMap_withTrans {α : Type} (ls : List (Nat × Nat)) (r : Nat → Trans) (f : Nat × Nat × Trans → Option α) :
    (withTrans ls r).filterMap f = ls.filterMap fun l => f (l.1, l.2, r l.2) := List.filterMap_map

theorem filter_withTrans (ls : List (Nat × Nat)) (r : Nat → Trans) (f : Nat × Nat × Trans → Bool) :
    (withTrans ls r).filter f = withTrans (ls.filter fun l => f (l.1, l.2, r l.2)) r := List.filter_map

theorem map_withTrans {α : Type} (ls : List (Nat × Nat)) (r : Nat → Trans) (f : Nat × Nat × Trans → α) :
    (withTrans ls r).map f = ls.map fun l => f (l.1, l.2, r l.2) := List.map_map

theorem any_false {α : Type} (xs : List α) : xs.any (fun _ => false) = false := List.any_eq_false.2 fun _ _ => Bool.false_ne_true
theorem filter_true {α : Type} (xs : List α) : xs.filter (fun _ => true) = xs := List.filter_eq_self.2 fun _ _ => rfl
theorem filter_false {α : Type} (xs : List α) : xs.filter (fun _ => false) = [] := List.filter_eq_nil_iff.2 fun _ _ => Bool.false_ne_true
theorem filterMap_none {α β : Type} (xs : List α) : xs.filterMap (fun _ => (none : Option β)) = [] :=
  List.filterMap_eq_nil_iff.2 fun _ _ => rfl
theorem filterMap_lanes (xs : List (Nat × Nat)) : xs.filterMap (fun l => some (l.1, l.2)) = xs := List.filterMap_some

theorem ok_ne_busy (pa leaf page : Nat) : (Trans.ok pa leaf page == .busy) = false := by simp
theorem fault_ne_busy (code cause : Nat) : (Trans.fault code cause == .busy) = false := by simp
theorem mig_ne_busy (pa leaf lp v : Nat) : (Trans.mig pa leaf lp v == .busy) = false := by simp

theorem withTrans_nil (r : Nat → Trans) : withTrans [] r = [] := rfl
theorem pagesOf_nil : pagesOf [] = [] := rfl

/-- One entry more in the side log of a cell. -/
def Cell.withEntry (k : Cell) (e : SideEntry) : Cell := { k with sideLog := k.sideLog ++ [e] }

/-- The entry of a store's lanes on one page joins the side log of the cell, and the store the memory unit (R45). -/
def State.withEntry (s : State) (a : Access) (e : SideEntry) : State :=
  (s.withAccess a).setCell s.cur.cell (·.withEntry e)

section
variable {s : State} {t : Fin 64} {p : Profile} {k : Kind} {op : AccOp} {mark : Nat → Nat} {n g : Nat} {ls : List (Nat × Nat)}
  {data : Nat → List Nat} {word : Nat → Nat} (aligned : ∀ l ∈ ls, l.2 % n = 0) (room : s.room ls)

theorem none_pending (fresh : ∀ l ∈ ls, s.curCell.pending s.curAsid l.2 = false) :
    ls.filter (fun l => s.curCell.pending s.curAsid l.2) = [] ∧ ls.filter (fun l => !s.curCell.pending s.curAsid l.2) = ls :=
  ⟨List.filter_eq_nil_iff.2 fun l hl => by simp [fresh l hl], List.filter_eq_self.2 fun l hl => by simp [fresh l hl]⟩

theorem all_pending (behind : ∀ l ∈ ls, s.curCell.pending s.curAsid l.2 = true) :
    ls.filter (fun l => s.curCell.pending s.curAsid l.2) = ls ∧ ls.filter (fun l => !s.curCell.pending s.curAsid l.2) = [] :=
  ⟨List.filter_eq_self.2 fun l hl => behind l hl, List.filter_eq_nil_iff.2 fun l hl => by simp [behind l hl]⟩

/-- The entry that the model makes of lanes that all lie on its page. -/
theorem mkEntry_page {a : Access} {mig : Option (Nat × Nat)} (page : ∀ l ∈ ls, l.2 / 4096 * 4096 = g) :
    mkEntry (s.withAccess a) s.nextId (s.profile p.val) s.curAsid g n none mig ls data word =
      let ahead := s.curCell.sideLog.find? fun e => e.asid == s.curAsid && e.page == g
      s.entryAt (s.profile p.val) g n ls data word (mig.orElse fun _ => ahead.bind (·.mig)) (ahead.any (·.replaying)) := by
  have mine : ls.filter (fun l => l.2 / 4096 * 4096 == g) = ls := List.filter_eq_self.2 fun l hl => by simpa using page l hl
  simp only [mkEntry, mine]
  rfl

include aligned room

/-- Lanes on pages that are mapped enter as one access (R285). -/
theorem fireStore_mapped {pa leaf page : Nat → Nat} (hop : op = .store ∨ op = .stx)
    (fresh : ∀ l ∈ ls, s.curCell.pending s.curAsid l.2 = false) (maps : s.maps k ls pa leaf page) :
    s.fireStore t p k op mark n ls data word none = (s.withAccess (s.newAccess op .none (s.profile p.val) false true s.m0
      (s.partsAt n ls pa leaf page data word))).endFiring t 0 := by
  obtain ⟨behind, ahead⟩ := none_pending fresh
  have trans := translateAll_still (r := fun va => .ok (pa va) (leaf va) (page va)) maps
  have enters := fun parts => enter_store (s := s) (prof := s.profile p.val) (parts := parts) hop
  rw [State.curAsid] at behind ahead trans
  simp only [State.curAsid] at enters
  simp only [State.fireStore, misaligned_none aligned, if_neg (Nat.not_lt.2 room), behind, ahead, trans, any_withTrans,
    filterMap_withTrans, filter_withTrans, map_withTrans, ok_ne_busy, any_false, filter_true, filterMap_none, Bool.false_eq_true, if_false,
    List.nil_append, List.map_nil, pagesOf_nil, List.length_nil, Nat.not_lt_zero, List.foldl_nil, enters]
  rfl

variable (order : Ascending ls) (some : ls ≠ []) (page : ∀ l ∈ ls, l.2 / 4096 * 4096 = g)
include order some page

/-- Lanes on a page without a valid leaf are logged, with one record (R44, R45). -/
theorem fireStore_absent (hop : op = .store ∨ op = .stx) (fresh : ∀ l ∈ ls, s.curCell.pending s.curAsid l.2 = false)
    (absent : ∀ l ∈ ls, s.translateFor s.cur.cell s.curAsid k l.2 = (.fault 0x01 0, s)) :
    s.fireStore t p k op mark n ls data word none =
      if 64 - s.curCell.sideLog.length < 1 then s.stay (.sideRoom 1)
      else ((s.withEntry (s.newAccess op .none (s.profile p.val) false true s.m0 [])
        (s.entryAt (s.profile p.val) g n ls data word none false)).endFiring t 0).logRecord mark (s.profile p.val) g s.curAsid ls := by
  obtain ⟨behind, ahead⟩ := none_pending fresh
  have trans := translateAll_still (r := fun _ => .fault 0x01 0) absent
  have enters := fun parts => enter_store (s := s) (prof := s.profile p.val) (parts := parts) hop
  have entry := mkEntry_page (s := s) (p := p) (n := n) (data := data) (word := word) (mig := none)
    (a := s.newAccess op .none (s.profile p.val) false true s.m0 []) page
  obtain ⟨l, hl⟩ := List.exists_mem_of_ne_nil ls some
  have first : (s.curCell.sideLog.find? fun e => e.asid == s.curAsid && e.page == g) = none := by
    rw [← Option.not_isSome_iff_eq_none, ← pending_eq (page l hl), fresh l hl]
    exact Bool.false_ne_true
  have code : (0x01 != fTranslation || 0 != 0) = false := rfl
  rw [first] at entry
  rw [State.curAsid] at behind ahead trans
  simp only [State.curAsid] at enters entry
  simp only [State.fireStore, misaligned_none aligned, if_neg (Nat.not_lt.2 room), behind, ahead, trans, any_withTrans,
    filterMap_withTrans, filter_withTrans, fault_ne_busy, any_false, filter_false, filterMap_none, filterMap_lanes, code,
    Bool.false_eq_true, if_false, withTrans_nil, List.find?_nil, Option.map_none,
    List.nil_append, List.append_nil, List.map_nil, pagesOf_one some page, order.gathered, List.length_singleton, List.foldl_cons, List.foldl_nil, enters, entry]
  rfl

/-- Lanes on a migrating leaf are logged with that leaf, without a record (R45). -/
theorem fireStore_migrating {pa leaf : Nat → Nat} {lp v : Nat} (hop : op = .store ∨ op = .stx)
    (fresh : ∀ l ∈ ls, s.curCell.pending s.curAsid l.2 = false)
    (mig : ∀ l ∈ ls, s.translateFor s.cur.cell s.curAsid k l.2 = (.mig (pa l.2) (leaf l.2) lp v, s)) :
    s.fireStore t p k op mark n ls data word none =
      if 64 - s.curCell.sideLog.length < 1 then s.stay (.sideRoom 1)
      else (s.withEntry (s.newAccess op .none (s.profile p.val) false true s.m0 [])
        (s.entryAt (s.profile p.val) g n ls data word (.some (lp, v)) false)).endFiring t 0 := by
  obtain ⟨behind, ahead⟩ := none_pending fresh
  have trans := translateAll_still (r := fun va => .mig (pa va) (leaf va) lp v) mig
  have enters := fun parts => enter_store (s := s) (prof := s.profile p.val) (parts := parts) hop
  have entry := mkEntry_page (s := s) (p := p) (n := n) (data := data) (word := word) (mig := .some (lp, v))
    (a := s.newAccess op .none (s.profile p.val) false true s.m0 []) page
  obtain ⟨l, hl⟩ := List.exists_mem_of_ne_nil ls some
  have first : (s.curCell.sideLog.find? fun e => e.asid == s.curAsid && e.page == g) = none := by
    rw [← Option.not_isSome_iff_eq_none, ← pending_eq (page l hl), fresh l hl]
    exact Bool.false_ne_true
  have leaves : ((ls.filterMap fun l => .some ((l.1, l.2), (lp, v))).find? fun x => x.1.2 / 4096 * 4096 == g).map (·.2) = .some (lp, v) := by
    obtain ⟨l, ls, rfl⟩ := List.exists_cons_of_ne_nil some
    have : (l.2 / 4096 * 4096 == g) = true := by simpa using page l List.mem_cons_self
    simp only [List.filterMap_cons, List.find?_cons, this, Option.map_some]
  have lanes : (ls.filterMap fun l => Option.some ((l.1, l.2), (lp, v))).map (·.1) = ls := by
    rw [List.map_filterMap]
    exact filterMap_lanes ls
  rw [first] at entry
  rw [State.curAsid] at behind ahead trans
  simp only [State.curAsid] at enters entry
  simp only [State.fireStore, misaligned_none aligned, if_neg (Nat.not_lt.2 room), behind, ahead, trans, any_withTrans,
    filterMap_withTrans, filter_withTrans, mig_ne_busy, any_false, filter_false, filterMap_none, lanes, leaves,
    Bool.false_eq_true, if_false, withTrans_nil, List.map_nil, pagesOf_nil,
    List.nil_append, List.append_nil, pagesOf_one some page, order.gathered, List.length_singleton, List.foldl_cons, List.foldl_nil, enters, entry]
  rfl

/-- Lanes behind an entry of their page are logged as that entry is (R46). -/
theorem fireStore_behind {e : SideEntry} (hop : op = .store ∨ op = .stx)
    (first : (s.curCell.sideLog.find? fun e => e.asid == s.curAsid && e.page == g) = .some e) :
    s.fireStore t p k op mark n ls data word none =
      if 64 - s.curCell.sideLog.length < 1 then s.stay (.sideRoom 1)
      else (s.withEntry (s.newAccess op .none (s.profile p.val) false true s.m0 [])
        (s.entryAt (s.profile p.val) g n ls data word e.mig e.replaying)).endFiring t 0 := by
  obtain ⟨behind, ahead⟩ := all_pending (s := s) (ls := ls) fun l hl => by rw [pending_eq (page l hl), first]; rfl
  have trans : s.translateAll s.curAsid k [] = ([], s) := rfl
  have enters := fun parts => enter_store (s := s) (prof := s.profile p.val) (parts := parts) hop
  have entry := mkEntry_page (s := s) (p := p) (n := n) (data := data) (word := word) (mig := none)
    (a := s.newAccess op .none (s.profile p.val) false true s.m0 []) page
  rw [first] at entry
  rw [State.curAsid] at behind ahead trans
  simp only [State.curAsid] at enters entry
  simp only [State.fireStore, misaligned_none aligned, if_neg (Nat.not_lt.2 room), behind, ahead, trans, List.any_nil, List.filterMap_nil,
    Bool.false_eq_true, if_false, List.map_nil, List.append_nil, pagesOf_nil, List.filter_nil, List.find?_nil, Option.map_none,
    pagesOf_one some page, order.gathered, List.length_singleton, List.foldl_cons, List.foldl_nil, enters, entry]
  rfl

end

/-! The marks of dirty rows stay when a firing ends. -/

/-- The marks of dirty rows of every cell are the same (R385). -/
def SameRows (s u : State) : Prop := ∀ d, (u.cell d).dirtyRows = (s.cell d).dirtyRows

theorem SameRows.refl (s : State) : SameRows s s := fun _ => rfl
theorem SameRows.trans {s u w : State} (a : SameRows s u) (b : SameRows u w) : SameRows s w := fun d => (b d).trans (a d)
theorem SameRows.of_cells {s u : State} (h : u.cells = s.cells) : SameRows s u := fun d => by rw [State.cell, h, ← State.cell]

theorem SameRows.setElem (s : State) (c e : Nat) (f : Elem → Elem) : SameRows s (s.setElem c e f) := fun d =>
  State.cell_setCell_same (·.dirtyRows) s c d (fun k => k.setElem e f) (fun _ => rfl) fun _ => rfl

theorem SameRows.popChan (s : State) (c e n : Nat) : SameRows s (s.popChan c e n) := by
  unfold State.popChan
  split
  · have still : ∀ (w : State) k, SameRows w ((w.popped k).touch c) := fun w k => SameRows.of_cells (by simp)
    exact (SameRows.setElem s c e _).trans (still _ _)
  · exact SameRows.refl s

theorem SameRows.popAll (ns : List Nat) (c e : Nat) (s : State) : SameRows s (ns.foldl (fun s n => s.popChan c e n) s) := by
  induction ns generalizing s with
  | nil => exact SameRows.refl s
  | cons n ns ih => exact (SameRows.popChan s c e n).trans (ih _)

theorem SameRows.effects (s : State) (t : Fin 64) : SameRows s (s.effects t) := by
  have popped := SameRows.popAll (bitsSet 8 (ePop (s.entry t))) s.cur.cell s.cur.elem s
  simp only [State.effects]
  split
  · exact popped.trans (SameRows.setElem _ _ _ _)
  · rename_i delta
    have charged : ∀ (w : State) k n d, SameRows w ((w.charge k n).touch d) := fun w k n d => SameRows.of_cells (by simp)
    exact (popped.trans (SameRows.setElem _ _ _ _)).trans (charged _ _ _ _)

theorem SameRows.endFiring (s : State) (t : Fin 64) (n : Nat) : SameRows s (s.endFiring t n) :=
  ((SameRows.effects s t).trans (SameRows.setElem _ _ _ _)).trans ((SameRows.setElem _ _ _ _).trans (SameRows.of_cells rfl))

/-! What a store that enters or is logged leaves. -/

section
variable {s : State} {a : Access}

theorem withAccess_enters (t : Fin 64) (hp : s.placed) (res : a.res.pends = 0) :
    EntersUnit s ((s.withAccess a).endFiring t 0) t a := by
  have still : (fun k : Ctx => { k with pendV := k.pendV ||| a.res.pends }) = id := funext fun k => by simp [res]
  rw [EntersUnit, still]
  exact issues_endFiring t hp (Moves.of_cells rfl rfl) KeepsFiring.id rfl rfl rfl rfl rfl

theorem withEntry_curCell (e : SideEntry) (hp : s.placed) : (s.withEntry a e).curCell = s.curCell.withEntry e :=
  (State.cell_setCell (s.withAccess a) s.cur.cell s.cur.cell (·.withEntry e) (fun _ => rfl) hp.1).trans (if_pos rfl)

theorem withEntry_curElem (e : SideEntry) (hp : s.placed) : (s.withEntry a e).curElem = s.curElem := by
  rw [State.curElem, withEntry_curCell e hp]
  rfl

theorem withEntry_curCtx (e : SideEntry) (hp : s.placed) : (s.withEntry a e).curCtx = s.curCtx := by
  rw [State.curCtx, withEntry_curElem e hp]
  rfl

theorem withEntry_entry (e : SideEntry) (hp : s.placed) (t : Fin 64) : (s.withEntry a e).entry t = s.entry t := by
  rw [State.entry, State.curDraft, withEntry_curCell e hp]
  rfl

theorem withEntry_placed (e : SideEntry) (hp : s.placed) : (s.withEntry a e).placed := by
  have cell := withEntry_curCell (a := a) e hp
  have elem := withEntry_curElem (a := a) e hp
  have ctx := withEntry_curCtx (a := a) e hp
  obtain ⟨loaded, elems, ctxs, regs, masks⟩ := hp
  refine ⟨?_, elems.trans_eq (congrArg (·.elems.length) cell).symm, ctxs.trans_eq (congrArg (·.ctxs.length) elem).symm,
    (congrArg (·.v.length) ctx).trans regs, (congrArg (·.m.length) ctx).trans masks⟩
  exact (State.loaded_setCell (s.withAccess a) s.cur.cell s.cur.cell (·.withEntry e) fun _ => rfl).trans loaded

/-- The one entry of a store's lanes is all that the firing does, but for its end. -/
theorem logsEntry_endFiring {op : AccOp} {prof : Nat} (t : Fin 64) (e : SideEntry) (hp : s.placed) :
    LogsEntry s ((s.withEntry (s.newAccess op .none prof false true s.m0 []) e).endFiring t 0) t op prof e := by
  have cell := withEntry_curCell (a := s.newAccess op .none prof false true s.m0 []) e hp
  have elem := withEntry_curElem (a := s.newAccess op .none prof false true s.m0 []) e hp
  have placed := withEntry_placed (a := s.newAccess op .none prof false true s.m0 []) e hp
  have rows := SameRows.endFiring (s.withEntry (s.newAccess op .none prof false true s.m0 []) e) t 0 s.cur.cell
  have took := endFiring_took t 0 placed (Moves.refl _ _ _ _) rfl rfl
  obtain ⟨-, ⟨mem, others, own, -, -⟩, ctx⟩ := endFiring_after t 0 placed (Moves.refl _ _ _ _) (LeavesModule.refl _)
  refine ⟨by rw [State.endFiring_accs]; rfl, fun c hc => (others c hc).trans ?_, ?_, mem,
    by rw [State.endFiring_flights]; rfl, took, ctx.trans ?_⟩
  · exact State.cell_setCell_ne (s.withAccess _) s.cur.cell c (·.withEntry e) (fun _ => rfl) hc
  · have marks : ((s.withEntry (s.newAccess op .none prof false true s.m0 []) e).endFiring t 0).curCell.dirtyRows = s.curCell.dirtyRows := by
      rw [State.curCell, State.endFiring_cur]
      exact rows.trans (congrArg (·.dirtyRows) cell)
    rw [own, cell, marks]
    rfl
  · rw [endCtx, withEntry_curCtx e hp, withEntry_entry e hp, State.entryPreds, withEntry_entry e hp]
    rfl

theorem LogsEntry.logRecord {u : State} {t : Fin 64} {op : AccOp} {prof : Nat} {e : SideEntry} (h : LogsEntry s u t op prof e)
    (mark : Nat → Nat) (p g asid : Nat) (ls : List (Nat × Nat)) : LogsEntry s (u.logRecord mark p g asid ls) t op prof e := h

theorem Raised.of_same {s w u : State} {c e x slot opcode fl prof id : Nat} {f : FaultInfo} {what : RecordOf} (dies : w.dies = s.dies)
    (asid : (w.cell c).asid = (s.cell c).asid) (ticks : w.ticks = s.ticks) (h : Raised w u c e x slot opcode fl prof f what id) :
    Raised s u c e x slot opcode fl prof f what id := by
  simp only [Raised, State.die, dies, asid, ticks] at h ⊢
  exact h

/-- The one page of a store's lanes gets one record that holds no context (R45, R375). -/
theorem raised_logRecord {w : State} {mark : Nat → Nat} {prof g asid : Nat} {ls : List (Nat × Nat)} (some : ls ≠ [])
    (page : ∀ l ∈ ls, l.2 / 4096 * 4096 = g) (hd : dieOf w.cur.cell < w.dies.length) :
    ∃ id, Raised w (w.logRecord mark prof g asid ls) w.cur.cell w.cur.elem w.cur.ctx w.cur.slot w.curOpcode 1 prof
      (0x01, 0, lanesBits ls (fun _ => true) mark, firstAddr ls fun _ => true) (.logged w.cur.cell g asid) id := by
  have mine : ls.filter (fun l => l.2 / 4096 * 4096 == g) = ls := List.filter_eq_self.2 fun l hl => by simpa using page l hl
  have pushed : w.logRecord mark prof g asid ls = (w.pushRecord w.cur.cell w.cur.elem w.cur.ctx w.cur.slot w.curOpcode 1 prof
      (0x01, 0, lanesBits ls (fun _ => true) mark, firstAddr ls fun _ => true) (.logged w.cur.cell g asid)).2 := by
    obtain ⟨l, ls, rfl⟩ := List.exists_cons_of_ne_nil some
    simp only [State.logRecord, mine, lanesBits, filter_true]
    rfl
  rw [pushed]
  exact raised_pushRecord _ _ hd rfl

theorem LogsEntry.raised {u : State} {t : Fin 64} {op : AccOp} {prof asid g : Nat} {e : SideEntry} {mark : Nat → Nat} {ls : List (Nat × Nat)}
    (h : LogsEntry s u t op prof e) (some : ls ≠ []) (page : ∀ l ∈ ls, l.2 / 4096 * 4096 = g) (cur : u.cur = s.cur) (dies : u.dies = s.dies)
    (time : u.time = s.time) (hd : dieOf s.cur.cell < s.dies.length) :
    ∃ id, Raised s (u.logRecord mark prof g asid ls) s.cur.cell s.cur.elem s.cur.ctx s.cur.slot s.curOpcode 1 prof
      (0x01, 0, lanesBits ls (fun _ => true) mark, firstAddr ls fun _ => true) (.logged s.cur.cell g asid) id := by
  obtain ⟨-, -, own, -⟩ := h
  obtain ⟨id, raised⟩ := raised_logRecord (w := u) (mark := mark) (prof := prof) (asid := asid) some page (by rw [cur, dies]; exact hd)
  have opcode : u.curOpcode = s.curOpcode := by
    rw [State.curOpcode, State.curDraft, own, cur]
    rfl
  have cell : (u.cell s.cur.cell).asid = (s.cell s.cur.cell).asid := by
    rw [State.curCell, cur] at own
    rw [own]
    rfl
  rw [cur, opcode] at raised
  exact ⟨id, raised.of_same dies cell (by rw [State.ticks, time, State.ticks])⟩

end

/-! The firings of the stores. -/

/-- The firing of a store of lanes of n bytes, with no lane and with some (R285, R287). -/
def StoreFires (i : Instr) (s : State) (t : Fin 64) (p : Profile) (n : Nat) (ls : List (Nat × Nat)) (k : Kind) (op : AccOp) (mark : Nat → Nat)
    (data : Nat → List Nat) (word : Nat → Nat) : Prop :=
  (ls = [] → exec i s = .next (s.endEmpty t (s.profile p.val))) ∧
  (ls ≠ [] → (∀ l ∈ ls, l.2 % n = 0) → exec i s = .next (s.fireStore t p k op mark n ls data word none))

section
variable {i : Instr} {s : State} {t : Fin 64} {p : Profile} {n : Nat} {ls : List (Nat × Nat)} {k : Kind} {op : AccOp} {mark : Nat → Nat}
  {data : Nat → List Nat} {word : Nat → Nat} (hp : s.placed) (hop : op = .store ∨ op = .stx) (fires : StoreFires i s t p n ls k op mark data word)
include hp hop fires

theorem storeEnters : StoreEnters i s t p n ls k op data word := by
  refine ⟨fun pa leaf page some aligned room fresh maps => ?_, fun none => ⟨_, fires.1 none, endsEmpty_endEmpty s t _ hp⟩⟩
  refine ⟨_, fires.2 some aligned, ?_⟩
  rw [fireStore_mapped aligned room hop fresh maps]
  exact withAccess_enters t hp rfl

theorem storeLogs (order : Ascending ls) (die : dieOf s.cur.cell < s.dies.length) : StoreLogs i s t p n ls k op mark data word := by
  intro g some lanes room
  have aligned := fun l hl => (lanes l hl).1
  have page := fun l hl => (lanes l hl).2
  have ran := fires.2 some aligned
  have full : ¬s.curCell.sideLog.length < 64 → 64 - s.curCell.sideLog.length < 1 := fun h => by omega
  have free : s.curCell.sideLog.length < 64 → ¬64 - s.curCell.sideLog.length < 1 := fun h => by omega
  refine ⟨fun new absent => ?_, fun new pa leaf lp v mig => ?_, fun e first => ?_⟩
  · rw [fireStore_absent aligned room order some page hop new absent] at ran
    refine ⟨fun h => ?_, fun h => ?_⟩
    · rw [if_neg (free h)] at ran
      have logs := logsEntry_endFiring (op := op) (prof := s.profile p.val) t (s.entryAt (s.profile p.val) g n ls data word none false) hp
      exact ⟨_, ran, logs.logRecord _ _ _ _ _, logs.raised some page (by rw [State.endFiring_cur]; rfl) (by rw [State.endFiring_dies]; rfl)
        (by rw [State.endFiring_time]; rfl) die⟩
    · rw [if_pos (full h)] at ran
      exact ⟨_, ran, stays_stay _ hp⟩
  · rw [fireStore_migrating aligned room order some page hop new mig] at ran
    refine ⟨fun h => ?_, fun h => ?_⟩
    · rw [if_neg (free h)] at ran
      exact ⟨_, ran, logsEntry_endFiring t _ hp, fun die => by rw [State.die, State.endFiring_dies]; rfl⟩
    · rw [if_pos (full h)] at ran
      exact ⟨_, ran, stays_stay _ hp⟩
  · rw [fireStore_behind aligned room order some page hop first] at ran
    refine ⟨fun h => ?_, fun h => ?_⟩
    · rw [if_neg (free h)] at ran
      exact ⟨_, ran, logsEntry_endFiring t _ hp, fun die => by rw [State.die, State.endFiring_dies]; rfl⟩
    · rw [if_pos (full h)] at ran
      exact ⟨_, ran, stays_stay _ hp⟩

end

/-- A store of lanes without descriptors (R285). -/
theorem fires_storeLanes {i : Instr} {s : State} {t : Fin 64} {d : Src} {p : Profile} {w : Bool} {n : Nat} {ls : List (Nat × Nat)}
    (hi : exec i s = .next (s.storeLanes t d p w n ls)) :
    StoreFires i s t p n ls .store .store laneMark (s.storeBytes d w n) fun _ => 0 := by
  refine ⟨fun none => ?_, fun some _ => ?_⟩
  · rw [hi, State.storeLanes, none, List.isEmpty_nil, if_pos rfl]
  · rw [hi, State.storeLanes, List.isEmpty_eq_false_iff.2 some, if_neg Bool.false_ne_true]

/-- STX of blocks whose descriptors may be stored (R287). -/
theorem fires_stx {s : State} (t : Fin 64) (v a : Pair) (b : Src) (p : Profile)
    (codes : ∀ l ∈ s.blocks a b, (lane (s.vreg (2 * v.val + 1)) (l.1 / 16)).toNat % 65536 / 256 < 0x0A) :
    StoreFires (.stx t v a b p) s t p 64 (s.blocks a b) .stx .stx s.blockMark
      (fun l => (List.range 16).flatMap fun i => leBytes 4 (lane (s.vreg (2 * v.val)) (l + i)).toNat)
      fun l => (lane (s.vreg (2 * v.val + 1)) (l / 16)).toNat % 65536 := by
  have hi : exec (.stx t v a b p) s = execStx t v a b p s := rfl
  have good : (s.blocks a b).filter (fun l => badStoreCode ((lane (s.vreg (2 * v.val + 1)) (l.1 / 16)).toNat % 65536)) = [] :=
    List.filter_eq_nil_iff.2 fun l hl => by
      have := codes l hl
      simp only [badStoreCode]
      simp
      omega
  refine ⟨fun none => ?_, fun some aligned => ?_⟩
  · rw [hi, execStx, none, List.isEmpty_nil, if_pos rfl]
  · simp only [execStx, List.isEmpty_eq_false_iff.2 some, good, Bool.false_eq_true, if_false, misaligned_none aligned] at hi
    exact hi

/-- The four stores without descriptors, each with its width and its addresses (R285). -/
theorem fires_stores (s : State) (t : Fin 64) (d : Src) (a : Pair) (b : Src) (p : Profile) (w : Bool) :
    StoreFires (.st t d a b p w) s t p (wBytes w) (s.gather a b) .store .store laneMark (s.storeBytes d w (wBytes w)) (fun _ => 0) ∧
    StoreFires (.stb8 t d a b p) s t p 1 (s.gather a b) .store .store laneMark (s.storeBytes d false 1) (fun _ => 0) ∧
    StoreFires (.sth16 t d a b p) s t p 2 (s.gather a b) .store .store laneMark (s.storeBytes d false 2) (fun _ => 0) ∧
    StoreFires (.stc t d a b p w) s t p (wBytes w) (s.contig a b (wBytes w)) .store .store laneMark (s.storeBytes d w (wBytes w)) fun _ => 0 :=
  ⟨fires_storeLanes rfl, fires_storeLanes rfl, fires_storeLanes rfl, fires_storeLanes rfl⟩

/-- R285, R287: the stores enter the memory unit. -/
theorem storesTranslated : StoresTranslated := by
  intro s t d a v b p w hp whole desc
  obtain ⟨st, stb8, sth16, stc⟩ := fires_stores s t d a b p w
  refine ⟨?_, ?_, ?_, ?_, fun codes => ?_⟩
  · exact storeEnters hp (.inl rfl) st
  · exact storeEnters hp (.inl rfl) stb8
  · exact storeEnters hp (.inl rfl) sth16
  · exact storeEnters hp (.inl rfl) stc
  · exact storeEnters hp (.inr rfl) (fires_stx t v a b p codes)

/-- R44 to R46: the stores are kept in the side log of their cell. -/
theorem storesLogged : StoresLogged := by
  intro s t d a v b p w hp die whole desc
  obtain ⟨st, stb8, sth16, stc⟩ := fires_stores s t d a b p w
  refine ⟨?_, ?_, ?_, ?_, fun codes => ?_⟩
  · exact storeLogs hp (.inl rfl) st (ascending_lanes _ _) die
  · exact storeLogs hp (.inl rfl) stb8 (ascending_lanes _ _) die
  · exact storeLogs hp (.inl rfl) sth16 (ascending_lanes _ _) die
  · exact storeLogs hp (.inl rfl) stc (ascending_lanes _ _) die
  · exact storeLogs hp (.inr rfl) (fires_stx t v a b p codes) (ascending_blocks s a b) die

/-- Settles O32: a store whose lanes lie on mapped pages enters the memory unit as one access, and one whose lanes lie on one page that is
not mapped yet, or behind an entry of it, joins the side log of its cell. -/
theorem storesEnter : Obligations.StoresEnter := ⟨storesTranslated, storesLogged⟩

end Sys2Proof.Machine
end

section
/-! # A traversal whose hit record lies in the cell's own copy (O43)

`TraversalsEnter` says that a traversal with hits only appends its access to the outstanding ones, on pages of every kind. On a
software-managed page the reductions first send the cell's own copy of the record's line home (R147), and a store that was performed in that
copy alone is then performed at home (R126): an access that was outstanding changes too. -/

namespace Sys2Proof.Machine
open Sys2Proof

/-- A triangle across the z axis at z = 1, as its record holds it (R335). -/
def acrossZ : List Nat := ([0xBF800000, 0xBF800000, 0x3F800000, 0x40400000, 0xBF800000, 0x3F800000, 0xBF800000, 0x40400000, 0x3F800000, 5].flatMap
  (leBytes 4)) ++ List.replicate 8 0

/-- The registers of a ray along z whose v8 names the one triangle of leaf 0. -/
def rayAlongZ : List Lanes := [0, 0, 0, 0, 0, 0x3F800000, 0x7F000000, 0, 0x80000000].map (List.replicate 64)

/-- The cell's copy of the line of the hit record, with one byte dirty. -/
def recordCopy : CchLine where
  pa := 0x10A00000
  way := 0
  st := .smPresent
  data := List.replicate 128 0
  dirty := 2 ^ 0x40
  descs := []
  descDirty := 0
  recent := false
  holdUntil := 0
  described := false

/-- The triangle's uncached page, and the record's software-managed one. -/
def tracedPages : List TlbEntry := [⟨0, 0, 2 ^ 21, 0x10000000, 0x100C, 1, 0⟩, ⟨0, 0xA00000, 2 ^ 21, 0x10A00000, 0x20C, 1, 0⟩]

/-- A store of context 1 to the line of the hit record, by the state of its one part and the bytes that the copy alone holds. -/
def storeInLine (st : PartSt) (bound : List Nat) : Access where
  id := 0
  cell := 0
  elem := 0
  ctx := 1
  slot := 0
  opcode := 0x4B
  seq := 0
  op := .store
  res := .none
  profile := 0
  m0 := 1
  asid := 0
  parts := [{ lane := 0, va := 0xA00040, pa := 0x10A00040, size := 1, leaf := 0x20C, page := 2 ^ 21, data := [1], word := 0, st := st
              bound := bound, since := 0 }]
  flags := 0
  acquire := false
  release := false
  told := false
  passed := none

/-- A resident cell that is about to trace the triangle, with the store outstanding in the cell's copy. -/
def aboutToTrace : State :=
  let s := (State.reset.placeWord 0).setCell 0 fun c =>
    { c with draft := { c.draft with elems := c.draft.elems.map fun e => { e with consts := [0, 0, 0, 0, 0, 0xA00000, 0, 0] } }
             tlb := tracedPages, cch := [recordCopy] }
  { s.setCtx 0 0 0 fun k => { k with m := [8, 0, 0, 0], v := rayAlongZ ++ k.v.drop 9 } with
    env := [], mem := memStore [] 0x10000000 acrossZ, accs := [storeInLine .inCell [0x40]], nextId := 1 }

/-- The reads of the triangle's record, by lane 3. -/
def recordReads : List (Nat × Nat) := (List.range 6).map fun j => (3, 8 * j)

theorem aboutToTrace_placed : aboutToTrace.placed := by decide +kernel

theorem aboutToTrace_reads : aboutToTrace.maps .load recordReads (0x10000000 + ·) (fun _ => 0x100C) (fun _ => 2 ^ 21) ∧
    (∀ q ∈ aboutToTrace.partsAt 8 recordReads (0x10000000 + ·) (fun _ => 0x100C) (fun _ => 2 ^ 21) (fun _ => []) (fun _ => 0),
      aboutToTrace.loadFree aboutToTrace.curAsid q = true) ∧
    aboutToTrace.readNow 0 8 (recordReads.map fun l => (l.1, l.2, .ok (0x10000000 + l.2) 0x100C (2 ^ 21))) = .ok acrossZ aboutToTrace := by
  decide +kernel

/-- The traversal leaves the store performed. -/
theorem aboutToTrace_after : (aboutToTrace.fireTraversal 0 (.c 7) true).accs.head? = some (storeInLine .done []) := by
  decide +kernel

/-- By the statement the traversal's access joins a list whose first access is as before; by the model that access has been performed. -/
theorem not_traversalsEnter : ¬ TraversalsEnter := by
  intro h
  obtain ⟨maps, free, read⟩ := aboutToTrace_reads
  have aligned := (h aboutToTrace aboutToTrace 0 (.c 7) true aboutToTrace_placed).2.1 (by decide +kernel) (by decide +kernel) (by decide +kernel)
  have traced := (aligned.2 _ _ _ _ maps free read rfl aboutToTrace_placed rfl).2 fun leaf => absurd leaf (by decide)
  have hit := (traced (by decide +kernel)).2.2 (fun _ => 0x10A00000) (fun _ => 0x20C) (fun _ => 2 ^ 21) (by decide +kernel) (by decide +kernel)
  obtain ⟨u, ran, accs, -⟩ := hit
  have fires : exec (.tisect 0 (.c 7)) aboutToTrace = .next (aboutToTrace.fireTraversal 0 (.c 7) true) := rfl
  obtain rfl : aboutToTrace.fireTraversal 0 (.c 7) true = u :=
    Host.Outcome.next.inj (fires.symm.trans ran)
  have after := aboutToTrace_after
  rw [accs] at after
  exact absurd after (by simp [aboutToTrace, storeInLine])

/-- Refutes O43: a hit record on a software-managed page sends the cell's own copy of its line home, and so performs another context's store
that only that copy held. -/
theorem not_traversalAndPacketInstructions : ¬ Obligations.TraversalAndPacketInstructions := fun h => not_traversalsEnter h.1

end Sys2Proof.Machine
end

section
/-! # Drafts, translations and context images in the resident space (O28) -/

namespace Sys2Proof.Machine
open Sys2Proof

theorem resident_of_asid {s : State} (h : s.curCell.asid = 0) : s.resident = true := by rw [State.resident, h]; rfl

/-! DRAFTLD (R257). -/

/-- A load whose words go nowhere enters the memory unit. -/
theorem enter_reads {s : State} {prof : Nat} {parts : List Part} :
    s.enter .load .none prof s.curAsid parts = (s.nextId, s.withAccess (s.newAccess .load .none prof true false s.m0 parts)) := by
  have same : ∀ u : State, u.setCurCtx (fun k => { k with pendV := k.pendV ||| Result.none.pends }) = u := fun u =>
    setCurCtx_same fun k => by simp [Result.pends]
  have acquires : ∀ o : Bool, (AccOp.acquires .load .none && o || AccOp.load == .freg) = (true && o) := fun o => by
    have load : AccOp.acquires .load .none = true ∧ (AccOp.load == .freg) = false := by decide
    rw [load.1, load.2, Bool.or_false]
  have releases : ∀ o : Bool, (AccOp.load.isStore && o || AccOp.load == .freg || AccOp.load == .fres) = (false && o) := fun o => by
    simp [AccOp.isStore]
  simp only [State.enter, same, acquires, releases]
  rfl

/-- The first and the last byte of each image. -/
def imageEnds (ls : List (Nat × Nat)) : List (Nat × Nat) := ls.flatMap fun l => [l, (l.1, (l.2 + 3135) % 2 ^ 64)]

theorem mem_imageEnds {ls : List (Nat × Nat)} {l : Nat × Nat} (h : l ∈ ls) :
    l ∈ imageEnds ls ∧ (l.1, (l.2 + 3135) % 2 ^ 64) ∈ imageEnds ls :=
  ⟨List.mem_flatMap.2 ⟨l, h, by simp⟩, List.mem_flatMap.2 ⟨l, h, by simp⟩⟩

theorem imageEnds_lane {ls : List (Nat × Nat)} {l : Nat × Nat} (h : l ∈ imageEnds ls) : ∃ k ∈ ls, k.1 = l.1 := by
  obtain ⟨k, hk, ends⟩ := List.mem_flatMap.1 h
  rcases List.mem_pair.1 ends with rfl | rfl
  · exact ⟨_, hk, rfl⟩
  · exact ⟨k, hk, rfl⟩

/-- The translation found for an address is that of its first lane. -/
theorem find_withTrans {ls : List (Nat × Nat)} {r : Nat → Trans} {va : Nat} (h : ∃ l ∈ ls, l.2 = va) :
    ∃ x, (withTrans ls r).find? (·.2.1 == va) = some x ∧ x.2.2 = r va := by
  obtain ⟨l, hl, here⟩ := h
  obtain ⟨x, hx⟩ := Option.isSome_iff_exists.1 (List.find?_isSome (p := fun x : Nat × Nat × Trans => x.2.1 == va) |>.2
    ⟨_, mem_withTrans.2 ⟨l, hl, rfl⟩, by simpa using here⟩)
  obtain ⟨k, -, rfl⟩ := mem_withTrans.1 (List.mem_of_find?_eq_some hx)
  have found : k.2 = va := by simpa using List.find?_some hx
  exact ⟨_, hx, by rw [found]⟩

/-- Word i of the image at va, as a part of a load (R222): from its first byte on, and back from its last byte beyond its first page. -/
def State.imageWord (s : State) (pa leaf page : Nat → Nat) (l va i : Nat) : Part :=
  let last := (va + 3135) % 2 ^ 64
  let word := (va + 8 * i) % 2 ^ 64
  let at_ := if word / 4096 = va / 4096 then va else last
  { lane := l, va := word, size := 8, leaf := leaf at_, page := page at_, pa := if at_ = va then pa va + 8 * i else pa last + 8 * i + 1 - 3136
    data := [], word := 0, st := .waiting, bound := [], since := s.time }

theorem imageParts_translated (s : State) (pa leaf page : Nat → Nat) (l : Nat) {va : Nat} (hva : va < 2 ^ 64) :
    s.imageParts l va (.ok (pa va) (leaf va) (page va))
      (.ok (pa ((va + 3135) % 2 ^ 64)) (leaf ((va + 3135) % 2 ^ 64)) (page ((va + 3135) % 2 ^ 64))) =
    (List.range 392).map (s.imageWord pa leaf page l va) := by
  have apart : (va + 3135) % 2 ^ 64 ≠ va := by
    have := hva
    omega
  refine List.map_congr_left fun i _ => ?_
  by_cases near : (va + 8 * i) % 2 ^ 64 / 4096 = va / 4096
  · simp only [State.imageWord, near, beq_self_eq_true, if_true, mkPart]
  · have beyond : ((va + 8 * i) % 2 ^ 64 / 4096 == va / 4096) = false := by simpa using near
    simp only [State.imageWord, beyond, near, if_false, apart, Bool.false_eq_true, mkPart]
    rfl

/-- Images whose sites are enabled are checked as their translations say (R257). -/
theorem checked_sites {s : State} {b : Src} {ls : List (Nat × Nat)} {r : Nat → Trans} {f : Nat → Trans}
    (sites : ∀ l ∈ ls, s.siteOk (s.rd b l.1).toNat = true) :
    (imageEnds ls).map (fun l => (l.1, l.2, if s.siteOk (s.rd b l.1).toNat = true then r l.2 else f l.1)) = withTrans (imageEnds ls) r := by
  refine List.map_congr_left fun l hl => ?_
  obtain ⟨k, hk, lane⟩ := imageEnds_lane hl
  rw [if_pos (lane ▸ sites k hk)]

theorem flatMap_images {ls : List (Nat × Nat)} {f g : Nat → List Part} (h : ∀ l ∈ ls, f l.2 = g l.2) :
    ((ls.map (·.2)).eraseDups).flatMap f = ((ls.map (·.2)).eraseDups).flatMap g := by
  refine List.flatMap_congr fun va hva => ?_
  obtain ⟨l, hl, rfl⟩ := List.mem_map.1 (List.mem_eraseDups.1 hva)
  exact h l hl

theorem lanesOf_ne_nil {m : LaneMask} (h : m ≠ 0) : lanesOf m ≠ [] := by
  intro none
  refine h (BitVec.eq_of_getLsbD_eq fun l hl => ?_)
  have out : l ∉ lanesOf m := by rw [none]; exact List.not_mem_nil
  have off : inMask m l = false := by
    cases on : inMask m l with
    | false => rfl
    | true => exact absurd (mem_lanesOf.2 ⟨hl, on⟩) out
  exact off.trans (BitVec.getLsbD_zero).symm

section
variable {s : State} {t : Fin 64} {a : Pair} {b : Src} {p : Profile} (hp : s.placed) (resident : s.curCell.asid = 0)
include hp resident

theorem draftld_empty (none : s.m0 = 0) : Completes (.draftld t a b p) s fun u => EndsEmpty s u t (s.profile p.val) := by
  have ran : exec (.draftld t a b p) s = execDraftld t a b p s := rfl
  have lanes : lanesOf s.m0 = [] := by rw [none]; rfl
  simp only [execDraftld, resident_of_asid resident, lanes, List.map_nil, List.isEmpty_nil, Bool.not_true, Bool.false_eq_true, if_false, if_true] at ran
  exact ⟨_, ran, endsEmpty_endEmpty s t _ hp⟩

theorem draftld_enters {pa leaf page : Nat → Nat} {ls : List (Nat × Nat)}
    (lanes : (lanesOf s.m0).map (fun l => (l, (s.pairVal (2 * a.val) l).toNat)) = ls) (some : s.m0 ≠ 0)
    (aligned : ∀ l ∈ ls, l.2 % 64 = 0) (unlogged : ∀ l ∈ ls, s.curCell.pendingBytes s.curAsid l.2 3136 = false)
    (maps : s.maps .draft (imageEnds ls) pa leaf page) (sites : ∀ l ∈ ls, s.siteOk (s.rd b l.1).toNat = true) :
    Completes (.draftld t a b p) s fun u => Issues s u t (fun s => { s with
        accs := s.accs ++ [s.newAccess .load .none (s.profile p.val) true false s.m0 (((ls.map (·.2)).eraseDups).flatMap fun va =>
          (List.range 392).map (s.imageWord pa leaf page (((ls.find? (·.2 == va)).map (·.1)).getD 0) va))]
        draftlds := s.draftlds ++ [{ id := s.nextId, cell := s.cur.cell, elem := s.cur.elem, ctx := s.cur.ctx, slot := s.cur.slot
                                     m0 := s.m0, asid := s.curAsid, profile := s.profile p.val, seq := s.curCtx.seq
                                     lanes := ls.map fun l => (l.1, l.2, (s.rd b l.1).toNat) }] }) id := by
  have ran : exec (.draftld t a b p) s = execDraftld t a b p s := rfl
  have nonempty : ls.isEmpty = false := by
    rw [← lanes, List.isEmpty_eq_false_iff]
    exact fun h => lanesOf_ne_nil some (List.map_eq_nil_iff.1 h)
  have wide : ∀ l ∈ ls, l.2 < 2 ^ 64 := fun l hl => by
    rw [← lanes] at hl
    obtain ⟨j, -, rfl⟩ := List.mem_map.1 hl
    exact (s.pairVal (2 * a.val) j).isLt
  have waits : s.curCell.pendingWait s.curAsid imageLen (ls.map (·.2)) = none := pendingWait_none fun va hva => by
    obtain ⟨l, hl, rfl⟩ := List.mem_map.1 hva
    exact unlogged l hl
  have trans : s.translateAll s.curAsid .draft (ls.flatMap fun l => [l, (l.1, (l.2 + imageLen - 1) % 2 ^ 64)]) =
    (withTrans (imageEnds ls) fun va => .ok (pa va) (leaf va) (page va), s) := translateAll_still maps
  have enters := fun parts => enter_reads (s := s) (prof := s.profile p.val) (parts := parts)
  have fine : failure laneMark (withTrans (imageEnds ls) fun va => .ok (pa va) (leaf va) (page va)) = none :=
    failure_none (withTrans_all (P := (· ≠ .busy)) fun _ _ => by simp) (withTrans_all (P := fun t => ∀ code cause, t ≠ .fault code cause) fun _ _ => by simp)
  have settled : waitOf s.curAsid .draft (withTrans (imageEnds ls) fun va => .ok (pa va) (leaf va) (page va)) = none :=
    waitOf_none (withTrans_all (P := (· ≠ .busy)) fun _ _ => by simp) (withTrans_all (P := fun t => ∀ pa leaf lp v, t ≠ .mig pa leaf lp v) fun _ _ => by simp)
  simp only [State.curAsid] at waits trans enters settled
  have checked := checked_sites (r := fun va => .ok (pa va) (leaf va) (page va)) (f := fun l => .fault (noSiteCode (s.rd b l).toNat) 0) sites
  simp only [execDraftld, resident_of_asid resident, lanes, nonempty, misaligned_none aligned, waits, trans, Bool.not_true, Bool.false_eq_true,
    if_false, map_withTrans, checked, fine, settled, enters] at ran
  rw [flatMap_images (g := fun va => (List.range 392).map (s.imageWord pa leaf page (((ls.find? (·.2 == va)).map (·.1)).getD 0) va)) ?_] at ran
  · exact ⟨_, ran, issues_endFiring t hp (Moves.of_cells rfl rfl) KeepsFiring.id rfl rfl rfl rfl rfl⟩
  · intro l hl
    obtain ⟨first, last⟩ := mem_imageEnds hl
    obtain ⟨x, hx, here⟩ := find_withTrans (r := fun va => .ok (pa va) (leaf va) (page va)) ⟨l, first, rfl⟩
    obtain ⟨y, hy, there⟩ := find_withTrans (r := fun va => .ok (pa va) (leaf va) (page va)) ⟨_, last, rfl⟩
    have ends : (l.2 + imageLen - 1) % 2 ^ 64 = (l.2 + 3135) % 2 ^ 64 := rfl
    simp only [hx, ends, hy, here, there]
    exact imageParts_translated s pa leaf page _ (wide l hl)

end

/-- R257, R258: DRAFTLD and DRAFTSW. -/
theorem draftInstructions : DraftInstructions := by
  intro s t a b p hp resident
  refine ⟨draftld_empty hp resident, fun pa leaf page some aligned unlogged maps sites => ?_, fun none => ?_, fun r named => ?_⟩
  · exact draftld_enters hp resident rfl some aligned unlogged maps sites
  · have ran : exec (.draftsw t) s = execDraftsw t s := rfl
    simp only [execDraftsw, resident_of_asid resident, none, Bool.not_true, Bool.false_eq_true, if_false] at ran
    exact ⟨_, ran, onlyEffects_endFiring t hp⟩
  · have ran : exec (.draftsw t) s = execDraftsw t s := rfl
    simp only [execDraftsw, resident_of_asid resident, named, Bool.not_true, Bool.false_eq_true, if_false] at ran
    exact ⟨_, ran, stays_stay _ hp⟩

/-! TLBINV (R260). -/

theorem exec_tlbinv {s : State} {t : Fin 64} {a : Pair} {b : Src} {p : Profile} {form : Nat} (h : form < 3) :
    exec (if form = 0 then .tlbinvPg t a b p else if form = 1 then .tlbinvAs t a b p else .tlbinvAll t a b p) s = .next (s.fireInv t a b p form) := by
  interval_cases form <;> rfl

theorem wordLane_empty {s : State} (a : Pair) (none : s.m0 = 0) : s.wordLane a = [] := by
  rw [State.wordLane, none]
  rfl

/-- R38, R39, R260: the forms of TLBINV. -/
theorem tlbinvInstructions : TlbinvInstructions := by
  intro s t a b p hp resident form hform i
  have ran : exec i s = .next (s.fireInv t a b p form) := exec_tlbinv hform
  simp only [State.fireInv, resident_of_asid resident, Bool.not_true, Bool.false_eq_true, if_false] at ran
  refine ⟨fun none => ?_, fun l va lane => ⟨fun page refused die => ?_, fun valid => ?_⟩⟩
  · rw [wordLane_empty a none] at ran
    exact ⟨_, ran, endsEmpty_endEmpty s t _ hp⟩
  · simp only [lane, page, refused] at ran
    exact takeFault_takes ran hp die
  · have served : (form = 0 && !canonical va) = false := by
      by_cases page : form = 0
      · simp [valid page]
      · simp [page]
    simp only [lane, served, Bool.false_eq_true, if_false] at ran
    exact ⟨_, ran, issues_endFiring t hp (Moves.of_cells rfl rfl) KeepsFiring.id rfl rfl rfl rfl rfl⟩

end Sys2Proof.Machine
end

section
/-! # The census at the end of a firing -/

namespace Sys2Proof.Machine
open Sys2Proof

/-- The part of a seat in a list of the census (R182). -/
def seatPart (q : Seat) (census : List (Seat × Int)) : Int := ((census.find? (·.1 == q)).map (·.2)).getD 0

theorem partOf_some (s : State) (q : Seat) : s.partOf (some q) = seatPart q s.census := by
  rw [State.partOf, seatPart]
  cases s.census.find? (·.1 == q) <;> rfl

theorem seatPart_chargeGo (q k : Seat) (n : Int) (census : List (Seat × Int)) :
    seatPart q (chargeGo k n census) = seatPart q census + if k = q then n else 0 := by
  induction census with
  | nil =>
    by_cases h : k = q
    · simp [chargeGo, seatPart, h]
    · simp [chargeGo, seatPart, h]
  | cons p census ih =>
    obtain ⟨k', v⟩ := p
    simp only [seatPart] at ih ⊢
    by_cases here : k' = k
    · subst here
      by_cases h : k' = q <;> simp [chargeGo, h]
    · by_cases h : k' = q
      · subst h
        simp [chargeGo, here, Ne.symm here]
      · simpa [chargeGo, List.find?_cons, here, h] using ih

theorem seatPart_charge (s : State) (k : Option Seat) (n : Int) (q : Seat) :
    seatPart q (s.charge k n).census = seatPart q s.census + if k = some q then n else 0 := by
  cases k with
  | none => simp [State.charge]
  | some k => simp [State.charge, seatPart_chargeGo]

/-- Two states with the same cells at the same firing, whose census differs by d. -/
structure Ahead (d : Seat → Int) (s w : State) : Prop where
  cells : w.cells = s.cells
  cur : w.cur = s.cur
  parts : ∀ q, seatPart q w.census = seatPart q s.census + d q

namespace Ahead
variable {d : Seat → Int} {s w : State}

theorem cell (h : Ahead d s w) (c : Nat) : w.cell c = s.cell c := by rw [State.cell, h.cells, State.cell]

theorem curCell (h : Ahead d s w) : w.curCell = s.curCell := by rw [State.curCell, h.cur, h.cell, State.curCell]

theorem charge (h : Ahead d s w) (k : Option Seat) (n : Int) : Ahead d (s.charge k n) (w.charge k n) := by
  cases k with
  | none => exact h
  | some k =>
    refine ⟨h.cells, h.cur, fun q => ?_⟩
    have := h.parts q
    simp only [State.charge, seatPart_chargeGo]
    omega

theorem setElem (h : Ahead d s w) (c e : Nat) (f : Elem → Elem) : Ahead d (s.setElem c e f) (w.setElem c e f) :=
  ⟨by rw [State.setElem, State.setCell, h.cells]; rfl, h.cur, h.parts⟩

theorem setCurCtx (h : Ahead d s w) (f : Ctx → Ctx) : Ahead d (s.setCurCtx f) (w.setCurCtx f) := by
  rw [State.setCurCtx, State.setCurCtx, h.cur]
  exact h.setElem _ _ _

theorem touch (h : Ahead d s w) (c : Nat) : Ahead d (s.touch c) (w.touch c) := ⟨h.cells, h.cur, h.parts⟩

theorem popped (h : Ahead d s w) (k : Token) : Ahead d (s.popped k) (w.popped k) := by
  have charged := h.charge k.charge (-1)
  unfold State.popped
  split
  · exact ⟨charged.cells, charged.cur, charged.parts⟩
  · exact charged

theorem popChan (h : Ahead d s w) (c e n : Nat) : Ahead d (s.popChan c e n) (w.popChan c e n) := by
  simp only [State.popChan, h.cell]
  split
  · exact ((h.setElem c e _).popped _).touch c
  · exact h

theorem popAll (h : Ahead d s w) (ns : List Nat) (c e : Nat) :
    Ahead d (ns.foldl (fun s n => s.popChan c e n) s) (ns.foldl (fun s n => s.popChan c e n) w) := by
  induction ns generalizing s w with
  | nil => exact h
  | cons n ns ih => exact ih (h.popChan c e n)

theorem effects (h : Ahead d s w) (t : Fin 64) : Ahead d (s.effects t) (w.effects t) := by
  have entry : w.entry t = s.entry t := by rw [State.entry, State.curDraft, h.curCell, h.cur]; rfl
  have done := (h.popAll (bitsSet 8 (ePop (s.entry t))) s.cur.cell s.cur.elem).setCurCtx fun k =>
    { k with p := (k.p ||| BitVec.ofNat 8 (eSet (s.entry t))) &&& ~~~(BitVec.ofNat 8 (eClr (s.entry t)))
             exhausted := k.exhausted || eSrcend (s.entry t) }
  simp only [State.effects, entry, h.cur]
  split
  · exact done
  · rw [done.curCell]
    exact (done.charge _ _).touch _

theorem endFiring (h : Ahead d s w) (t : Fin 64) (q : Seat) :
    seatPart q (w.endFiring t 0).census = seatPart q (s.endFiring t 0).census + d q :=
  (h.effects t).parts q

end Ahead

/-- A firing charges n beyond its entry's effects where the state before them is ahead by n in its cell's seat (R182). -/
theorem charged_endFiring {s w : State} {n : Int} (t : Fin 64) (h : Ahead (fun q => if s.curCell.seat = some q then n else 0) s w) :
    Charged s (w.endFiring t 0) t n :=
  ⟨_, rfl, fun q => by rw [partOf_some, partOf_some]; exact h.endFiring t q⟩

end Sys2Proof.Machine
end

section
/-! # CTXIMG stops its region (O28) -/

namespace Sys2Proof.Machine
open Sys2Proof

/-- The cells of a list stop, packets under way are abandoned, and every context keeps its registers and masks (R343, R380). -/
structure Stops (cs : List Nat) (s u : State) : Prop where
  loaded : ∀ c, u.loaded c = s.loaded c
  inside : ∀ c ∈ cs, s.loaded c = true → (u.cell c).stopped = true
  outside : ∀ c, c ∉ cs → (u.cell c).stopped = (s.cell c).stopped
  elems : ∀ c, (u.cell c).elems.length = (s.cell c).elems.length
  ctxs : ∀ c e, ((u.cell c).elem e).ctxs.length = ((s.cell c).elem e).ctxs.length
  files : ∀ c e x, (u.ctxOf c e x).v = (s.ctxOf c e x).v ∧ (u.ctxOf c e x).m = (s.ctxOf c e x).m
  rest : u = { s with cells := u.cells, grants := u.grants, queues := u.queues, nextId := u.nextId }

/-- The requests of a context's packet are given up (R343). -/
def State.dropGrants (s : State) (c e x : Nat) : State := { s with grants := s.grants.filter fun g => g.source != Producer.ray c e x }

/-- A packet on output channel ch is abandoned, the grants that it has put aside (R343). -/
def State.dropPacket (s : State) (c e x ch : Nat) : State :=
  ((s.dropGrants c e x).setElem c e fun k => { k with outs := k.outs.set ch .held }).setCtx c e x fun k => { k with multi := none }

namespace Stops
variable {cs : List Nat} {s u w : State}

theorem trans (a : Stops cs s u) (b : Stops [] u w) : Stops cs s w where
  loaded c := (b.loaded c).trans (a.loaded c)
  inside c hc h := (b.outside c List.not_mem_nil).trans (a.inside c hc h)
  outside c hc := (b.outside c List.not_mem_nil).trans (a.outside c hc)
  elems c := (b.elems c).trans (a.elems c)
  ctxs c e := (b.ctxs c e).trans (a.ctxs c e)
  files c e x := ⟨(b.files c e x).1.trans (a.files c e x).1, (b.files c e x).2.trans (a.files c e x).2⟩
  rest := by rw [b.rest, a.rest]

theorem before (a : Stops [] s u) (b : Stops cs u w) : Stops cs s w where
  loaded c := (b.loaded c).trans (a.loaded c)
  inside c hc h := b.inside c hc ((a.loaded c).trans h)
  outside c hc := (b.outside c hc).trans (a.outside c List.not_mem_nil)
  elems c := (b.elems c).trans (a.elems c)
  ctxs c e := (b.ctxs c e).trans (a.ctxs c e)
  files c e x := ⟨(b.files c e x).1.trans (a.files c e x).1, (b.files c e x).2.trans (a.files c e x).2⟩
  rest := by rw [b.rest, a.rest]

theorem cur (a : Stops cs s u) : u.cur = s.cur := by
  have := congrArg State.cur a.rest
  exact this

theorem placed (a : Stops cs s u) (hp : s.placed) : u.placed := by
  obtain ⟨loaded, elems, ctxs, regs, masks⟩ := hp
  rw [State.placed, a.cur]
  exact ⟨(a.loaded _).trans loaded, elems.trans_eq (a.elems _).symm, ctxs.trans_eq (a.ctxs _ _).symm,
    (congrArg List.length (a.files _ _ _).1).trans regs, (congrArg List.length (a.files _ _ _).2).trans masks⟩

theorem of_cells (cells : u.cells = s.cells) (rest : u = { s with cells := u.cells, grants := u.grants, queues := u.queues, nextId := u.nextId }) : Stops [] s u := by
  have cell : ∀ c, u.cell c = s.cell c := fun c => by rw [State.cell, cells, State.cell]
  refine ⟨fun c => by rw [State.loaded, cells, State.loaded], fun c hc => absurd hc List.not_mem_nil, fun c _ => by rw [cell], fun c => by rw [cell],
    fun c e => by rw [cell], fun c e x => ?_, rest⟩
  rw [State.ctxOf, cell]
  exact ⟨rfl, rfl⟩

theorem refl (s : State) : Stops [] s s := of_cells rfl rfl

theorem foldl {α : Type} {f : State → α → State} (h : ∀ s x, Stops [] s (f s x)) (xs : List α) (s : State) : Stops [] s (xs.foldl f s) := by
  induction xs generalizing s with
  | nil => exact refl s
  | cons x xs ih => exact (h s x).trans (ih _)

theorem setElem (s : State) (c e : Nat) {f : Elem → Elem} (length : ∀ k, (f k).ctxs.length = k.ctxs.length)
    (files : ∀ k x, ((f k).ctx x).v = (k.ctx x).v ∧ ((f k).ctx x).m = (k.ctx x).m) : Stops [] s (s.setElem c e f) := by
  have same := fun {α : Type} (g : Cell → α) d => State.cell_setCell_same g s c d (fun k => k.setElem e f) fun _ => rfl
  refine ⟨fun d => State.loaded_setElem .., fun _ h => absurd h List.not_mem_nil, fun d _ => same (·.stopped) d fun _ => rfl,
    fun d => same (·.elems.length) d fun k => by simp [Cell.setElem, modifyAt], fun d j => same (fun k => (k.elem j).ctxs.length) d fun k => ?_,
    fun d j x => ⟨same (fun k => (k.ctx j x).v) d fun k => ?_, same (fun k => (k.ctx j x).m) d fun k => ?_⟩, rfl⟩
  · simp only [Cell.elem_setElem]
    split
    · exact length _
    · rfl
  · simp only [Cell.ctx, Cell.elem_setElem]
    split
    · exact (files _ x).1
    · rfl
  · simp only [Cell.ctx, Cell.elem_setElem]
    split
    · exact (files _ x).2
    · rfl

theorem setCtx (s : State) (c e x : Nat) {f : Ctx → Ctx} (files : ∀ k, (f k).v = k.v ∧ (f k).m = k.m) : Stops [] s (s.setCtx c e x f) := by
  refine setElem s c e (fun k => k.setCtx_length x f) fun k j => ?_
  rw [Elem.ctx_setCtx]
  split
  · exact files _
  · exact ⟨rfl, rfl⟩

theorem giveBack (s : State) (t : Target) (n : Nat) : Stops [] s (s.giveBack t n) := by
  cases t with
  | chan c e k => exact setElem s c e (fun _ => rfl) fun _ _ => ⟨rfl, rfl⟩
  | queue l st => exact of_cells rfl rfl

theorem dropPacket (s : State) (c e x ch : Nat) : Stops [] s (s.dropPacket c e x ch) := by
  have granted : Stops [] s (s.dropGrants c e x) := of_cells rfl rfl
  have held := setElem (s.dropGrants c e x) c e (f := fun k => { k with outs := k.outs.set ch .held }) (fun _ => rfl) fun _ _ => ⟨rfl, rfl⟩
  exact (granted.trans held).trans (setCtx _ c e x (f := fun k => { k with multi := none }) fun _ => ⟨rfl, rfl⟩)

theorem abandonRay (s : State) (c e x : Nat) : Stops [] s (s.abandonRay c e x) := by
  unfold State.abandonRay
  split
  · split
    · exact refl s
    · dsimp only
      split
      · exact (giveBack s _ _).trans (dropPacket _ c e x _)
      · exact dropPacket s c e x _
  · exact refl s

end Stops

/-- A cell that has stopped (R380). -/
def Cell.halted (c : Cell) : Cell := { c with stopped := true }

/-- The cells of a list stop (R380). -/
def State.stopCells (s : State) (cs : List Nat) : State :=
  { s with cells := updateWhere (fun c => cs.contains c.id) Cell.halted s.cells }

theorem cell_stopCells (s : State) (cs : List Nat) (c : Nat) :
    (s.stopCells cs).cell c = if cs.contains c && s.loaded c then (s.cell c).halted else s.cell c := by
  have ids : (fun k : Cell => (if cs.contains k.id = true then k.halted else k).id == c) = fun k => k.id == c := by
    funext k
    split <;> rfl
  have found : (s.stopCells cs).cells.find? (·.id == c) =
      (s.cells.find? (·.id == c)).map fun k => if cs.contains k.id = true then k.halted else k := by
    rw [State.stopCells, updateWhere, List.find?_map]
    exact congrArg (fun p => (s.cells.find? p).map _) ids
  have loaded : s.loaded c = (s.cells.find? (·.id == c)).isSome := by rw [Bool.eq_iff_iff, List.find?_isSome, State.loaded, List.any_eq_true]
  rw [State.cell, State.cell, found, loaded]
  cases here : s.cells.find? (·.id == c) with
  | none => simp
  | some k =>
    have id : k.id = c := by simpa using List.find?_some here
    simp [id]

theorem stops_stopCells (s : State) (cs : List Nat) : Stops cs s (s.stopCells cs) := by
  have cell := cell_stopCells s cs
  refine ⟨fun c => ?_, fun c hc h => ?_, fun c hc => ?_, fun c => ?_, fun c e => ?_, fun c e x => ?_, rfl⟩
  · simp only [State.loaded, State.stopCells, updateWhere, List.any_map]
    refine congrArg (s.cells.any ·) (funext fun k => ?_)
    simp only [Function.comp]
    split <;> rfl
  · rw [cell, if_pos (by simpa [h] using hc)]
    rfl
  · rw [cell, if_neg (by simpa using fun h => absurd h hc)]
  · rw [cell]
    split <;> rfl
  · rw [cell]
    split <;> rfl
  · rw [State.ctxOf, cell]
    split <;> exact ⟨rfl, rfl⟩

/-- A region marked as stopping (R380). -/
def Region.halted (r : Region) : Region := { r with stopping := true }

theorem stops_stopRegion (s : State) (r : Region) : Stops r.cells (s.setRegion r.die r.index Region.halted) (s.newId.2.stopRegion r) := by
  have named : Stops [] (s.setRegion r.die r.index Region.halted) (s.newId.2.setRegion r.die r.index Region.halted) := Stops.of_cells rfl rfl
  exact (named.before (stops_stopCells _ r.cells)).trans (Stops.foldl (fun _ _ => Stops.foldl (fun _ _ => Stops.abandonRay ..) _ _) _ _)

/-! The end of the firing. -/

theorem stopped_endFiring {w : State} (t : Fin 64) (hp : w.placed) (c : Nat) : ((w.endFiring t 0).cell c).stopped = (w.cell c).stopped := by
  obtain ⟨-, -, others, own, -⟩ := Moves.endFiring w t 0 hp.1 hp.2.1
  by_cases here : c = w.cur.cell
  · rw [here, own]
  · rw [others c here]

/-- The regions after a firing are those before it, but for their idle marks (R185, R366). -/
theorem mem_regions_endFiring {w : State} {t : Fin 64} {k : Region} (h : k ∈ (w.endFiring t 0).regions) :
    ∃ k' ∈ w.regions, k'.die = k.die ∧ k'.index = k.index ∧ k'.stopping = k.stopping := by
  have same := congrArg State.regions (rest_endFiring w t 0)
  simp only [State.rest] at same
  obtain ⟨k', hk', marks⟩ := List.mem_map.1 (same ▸ List.mem_map_of_mem h)
  exact ⟨k', hk', congrArg (·.die) marks, congrArg (·.index) marks, congrArg (·.stopping) marks⟩

/-- The regions that a command names are marked as stopping. -/
theorem stopping_setRegion {s : State} {die index : Nat} {k : Region} (h : k ∈ (s.setRegion die index Region.halted).regions)
    (hd : k.die = die) (hi : k.index = index) : k.stopping = true := by
  obtain ⟨k', -, rfl⟩ := List.mem_map.1 h
  split
  · rfl
  · next other =>
    rw [if_neg other] at hd hi
    simp [hd, hi] at other

/-! CTXIMG (R259). -/

theorem exec_ctximg {s : State} {t : Fin 64} {a : Pair} {b : Src} {form : Nat} (h : form < 3) :
    exec (if form = 0 then .ctximgSavef t a b else if form = 1 then .ctximgSaved t a b else .ctximgRest t a b) s = .next (s.fireImage t a b form) := by
  interval_cases form <;> rfl

/-- The command that a firing of CTXIMG puts under way. -/
def State.imageOp (s : State) (form va : Nat) (r : Region) : ImageOp :=
  { id := s.nextId, cell := s.cur.cell, elem := s.cur.elem, ctx := s.cur.ctx, slot := s.cur.slot, asid := s.curAsid
    form := form, image := va, die := r.die, region := r.index, start := s.ticks, paused := none, seq := s.curCtx.seq, m0 := s.m0 }

/-- The module with a command under way, charged to the census of the cell (R259). -/
def State.underWay (s : State) (o : ImageOp) : State := ({ s with images := s.images ++ [o] } : State).charge s.curCell.seat 1

theorem fireImage_live {s : State} {t : Fin 64} {a : Pair} {b : Src} {form l va : Nat} {r : Region} (resident : s.curCell.asid = 0)
    (lane : s.wordLane a = [(l, va)]) (aligned : va % 4096 = 0) (named : s.regionNamed (s.rd b l).toNat = some r) : s.fireImage t a b form =
      ((if form = 2 then s.newId.2 else s.newId.2.stopRegion r).underWay (s.imageOp form va r)).endFiring t 0 := by
  simp only [State.fireImage, resident_of_asid resident, lane, aligned, named, Bool.not_true, bne_self_eq_false, Bool.false_eq_true, if_false]
  rfl

/-- A command is put under way by a firing that completes, whatever cells have stopped for it. -/
theorem underWay_after {cs : List Nat} {s x : State} (o : ImageOp) (t : Fin 64) (stops : Stops cs s x) (hp : s.placed) :
    Took s ((x.underWay o).endFiring t 0) 0 ∧ ((x.underWay o).endFiring t 0).images = s.images ++ [o] ∧
    (∀ c, (((x.underWay o).endFiring t 0).cell c).stopped = (x.cell c).stopped) ∧
    ∀ k ∈ ((x.underWay o).endFiring t 0).regions, ∃ k' ∈ s.regions, k'.die = k.die ∧ k'.index = k.index ∧ k'.stopping = k.stopping := by
  have cur : (x.underWay o).cur = s.cur := by rw [State.underWay, State.charge_cur, ← stops.cur]
  have cells : (x.underWay o).cells = x.cells := by rw [State.underWay, State.charge_cells]
  have cell : ∀ c, (x.underWay o).cell c = x.cell c := fun c => by rw [State.cell, cells, State.cell]
  have placed : (x.underWay o).placed := by
    have same := stops.placed hp
    simp only [State.placed, State.hasCtx, State.ctxOf, State.loaded, cell, cells, cur, stops.cur] at same ⊢
    exact same
  have took := endFiring_took t 0 placed (Moves.refl _ _ _ _) rfl rfl
  have dies : (x.underWay o).dies = s.dies := by rw [State.underWay, State.charge_dies, stops.rest]
  have time : (x.underWay o).time = s.time := by rw [State.underWay, State.charge_time, stops.rest]
  have regions : (x.underWay o).regions = s.regions := by rw [State.underWay, State.charge_regions, stops.rest]
  refine ⟨?_, ?_, fun c => ?_, fun k hk => ?_⟩
  · simp only [Took, State.vPeriod, State.die, cur, dies, time] at took ⊢
    exact took
  · rw [State.endFiring_images, State.underWay, State.charge_images, stops.rest]
  · rw [stopped_endFiring t placed, cell]
  · rw [← regions]
    exact mem_regions_endFiring hk

/-- A command that stops no cell leaves everything but itself, and charges the census of its cell (R182, R259). -/
theorem underWay_issues {s u : State} (o : ImageOp) (t : Fin 64) (hp : s.placed) (hu : u = (s.newId.2.underWay o).endFiring t 0) :
    Issues s u t (fun s => { s with images := u.images }) id ∧ Charged s u t 1 := by
  have images : u.images = s.images ++ [o] := by
    rw [hu, State.endFiring_images, State.underWay, State.charge_images]
    rfl
  rw [images, hu]
  refine ⟨issues_endFiring t hp ?_ KeepsFiring.id (rest_charge _ _ _) ?_ ?_ ?_ ?_, charged_endFiring t ⟨?_, ?_, fun q => seatPart_charge _ _ _ q⟩⟩
  · exact Moves.charge _ _ _ _ _ _
  · exact State.charge_mem ..
  · exact State.charge_flights ..
  · exact State.charge_dies ..
  · exact State.charge_time ..
  · exact State.charge_cells ..
  · exact State.charge_cur ..

/-- R259, R380, R386: the forms of CTXIMG. -/
theorem contextImageInstructions : ContextImageInstructions := by
  intro s t a b hp resident form hform i
  have ran : exec i s = .next (s.fireImage t a b form) := exec_ctximg hform
  refine ⟨fun none => ?_, fun l va lane => ⟨fun off die => ?_, fun r aligned named => ⟨_, ran, ?_⟩⟩⟩
  · simp only [State.fireImage, resident_of_asid resident, wordLane_empty a none, Bool.not_true, Bool.false_eq_true, if_false] at ran
    exact ⟨_, ran, onlyEffects_endFiring t hp⟩
  · have misaligned : (va % 4096 != 0) = true := by simpa using off
    simp only [State.fireImage, resident_of_asid resident, lane, misaligned, Bool.not_true, Bool.false_eq_true, if_false, if_true] at ran
    exact takeFault_takes ran hp die
  · have mem : (s.fireImage t a b form).mem = s.mem := State.fireImage_mem ..
    have live := fireImage_live (t := t) (form := form) resident lane aligned named
    by_cases restores : form = 2
    · rw [if_pos restores] at live
      obtain ⟨took, images, stopped, -⟩ := underWay_after (s.imageOp form va r) t (Stops.of_cells (s := s) (u := s.newId.2) rfl rfl) hp
      have issues := underWay_issues (s.imageOp form va r) t hp live
      rw [← live] at took images stopped
      refine ⟨took, images, fun a => by rw [mem], fun _ _ _ saves => ?_, fun c _ => stopped c, fun saves => ?_, fun _ => issues⟩
      · omega
      · omega
    · rw [if_neg restores] at live
      have stops := stops_stopRegion s r
      obtain ⟨took, images, stopped, regions⟩ := underWay_after (s.imageOp form va r) t stops hp
      rw [← live] at took images stopped regions
      refine ⟨took, images, fun a => by rw [mem], fun c hc loaded _ => ?_, fun c hc => ?_, fun _ k hk hd hi => ?_, fun h => absurd h restores⟩
      · exact (stopped c).trans (stops.inside c hc loaded)
      · exact (stopped c).trans (stops.outside c hc)
      · obtain ⟨k', hk', die, index, stopping⟩ := regions k hk
        exact stopping.symm.trans (stopping_setRegion hk' (die.trans hd) (index.trans hi))

/-- Settles O28: DRAFTLD's reads enter as one load, DRAFTSW waits, TLBINV's removal and CTXIMG's command are put under way, and a save stops
the cells of its region. -/
theorem privilegedInstructions : Obligations.PrivilegedInstructions :=
  ⟨draftInstructions, tlbinvInstructions, contextImageInstructions⟩

end Sys2Proof.Machine
end

section
/-! # A step runs the instruction that its slot's word decodes to (O3) -/

namespace Sys2Proof.Machine
open Sys2Proof

/-- A watch whose loan is due has made it (R160). -/
def State.lent (s : State) (w : Watch) : Watch :=
  if w.armed && !w.woken && s.holderPreempted w.holder then { w with loan := true } else w

theorem lent_of_loan {s : State} {w : Watch} (h : w.loan = true) : s.lent w = w := by
  obtain ⟨⟩ := w
  subst h
  rw [State.lent, ite_self]

/-- The loans that are due start, and an admission step is then owed (R160, R358). -/
theorem startLoans_eq (s : State) : s.startLoans = { s with
    watches := s.watches.map s.lent
    sched := { s.sched with owed := s.sched.owed || decide (s.watches.map s.lent ≠ s.watches) } } := by
  have lends (w : Watch) : (if (w.armed && !w.woken && !w.loan && s.holderPreempted w.holder) = true then { w with loan := true } else w) =
      s.lent w := by
    by_cases loan : w.loan = true
    · rw [lent_of_loan loan, loan]
      simp
    · simp [State.lent, loan]
  have starts : updateWhere (fun w => w.armed && !w.woken && !w.loan && s.holderPreempted w.holder) (fun w => { w with loan := true })
      s.watches = s.watches.map s.lent := List.map_congr_left fun w _ => lends w
  unfold State.startLoans
  dsimp only
  split
  next due =>
    obtain ⟨w, mem, due⟩ := List.any_eq_true.1 due
    have moved : s.watches.map s.lent ≠ s.watches := fun same => by
      have kept : s.lent w = w := List.map_inj_left.1 (same.trans (List.map_id _).symm) w mem
      rw [← lends w, if_pos due] at kept
      have loan : w.loan = true := by rw [← kept]
      simp [loan] at due
    rw [starts, State.stepOwed, decide_eq_true moved, Bool.or_true]
  next none =>
    have kept : s.watches.map s.lent = s.watches := by
      rw [← starts]
      refine (List.map_congr_left fun w hw => ?_).trans (List.map_id _)
      have := List.any_eq_false.1 (Bool.not_eq_true _ ▸ none) w hw
      rw [if_neg this, id]
    rw [kept, decide_eq_false (not_not.2 rfl), Bool.or_false]

/-- The split is due at once, or as before (R370). -/
theorem resplit_eq (old s : State) : ∃ n, (n = s.hub.splitNext ∨ n = s.time) ∧
    old.resplit s = { s with hub := { s.hub with splitNext := n } } := by
  unfold State.resplit
  dsimp only
  split
  · exact ⟨_, .inl rfl, rfl⟩
  · exact ⟨_, .inr rfl, rfl⟩

/-- Of the regions only the idle marks change (R366). -/
theorem countIdle_unmarked (old s : State) :
    (old.countIdle s).regions.map (fun r => { r with idle := 0, idleSince := 0 }) =
      s.regions.map (fun r => { r with idle := 0, idleSince := 0 }) := by
  simp only [State.countIdle, List.map_map]
  refine List.map_congr_left fun r _ => ?_
  simp only [Function.comp_apply]
  split <;> rfl

/-- A step that is a settled action ends as the action did. -/
theorem endsAs_of_settled {s old : State} {o : Out} (h : step s = finishStep old o) : EndsAs s o := by
  cases o with
  | next u =>
    obtain ⟨n, moved, split⟩ := resplit_eq old (old.countIdle u)
    refine ⟨old.settle u, h, ?_⟩
    rw [State.settle, split, startLoans_eq]
    exact ⟨rfl, moved, rfl, rfl, countIdle_unmarked old u⟩
  | fault r => exact h
  | refused r => exact h

/-- What an instruction makes of a firing that meets no uncorrectable word: exec's outcome, errors in overwritten registers gone (R87). -/
def runs (i : Instr) (t : State) : Out := match exec i t with
  | .next u => .next (u.wipeWritten i)
  | o => o

theorem fireNow_clean {t : State} {i : Instr} (h : ∀ u ∈ t.upsets, u.double = true → t.firingMeets i u = false) :
    t.fireNow i = runs i (t.correctSingles (dieOf t.cur.cell) (t.firingMeets i)) := by
  have none : ¬(t.upsets.any fun u => u.double && t.firingMeets i u) = true := by
    rw [List.any_eq_true]
    rintro ⟨u, hu, met⟩
    rw [Bool.and_eq_true] at met
    simp [h u hu met.1] at met
  rw [State.fireNow]
  dsimp only
  rw [if_neg none]
  rfl

theorem fireNow_spoiled {t : State} {i : Instr} (h : ∃ u ∈ t.upsets, u.double = true ∧ t.firingMeets i u = true) :
    t.fireNow i = .next ((t.countUncorr (dieOf t.cur.cell)).takeFault (match profileOf i with | some p => t.profile p.val | none => 0)
      (mkFault 0x0C 0 t.m0.toNat 0)) := by
  have some : (t.upsets.any fun u => u.double && t.firingMeets i u) = true := by
    obtain ⟨u, hu, double, met⟩ := h
    exact List.any_eq_true.2 ⟨u, hu, by rw [double, met]; rfl⟩
  rw [State.fireNow]
  dsimp only
  rw [if_pos some]
  rfl

/-- A step that takes the firing f of instruction i does what that firing does. -/
theorem fires_of_take {s b : State} {f : Firing} {i : Instr} (upsets : s.upsets = b.upsets)
    (h : step s = finishStep b ((b.start f).fireNow i)) : Fires s b f i := by
  refine ⟨fun clean => ?_, fun singles => ?_, fun spoiled => ?_⟩
  · have clean : ∀ u ∈ (b.start f).upsets, (b.start f).firingMeets i u = false := by
      rw [show (b.start f).upsets = s.upsets from upsets.symm]
      exact clean
    rw [fireNow_clean fun u hu _ => clean u hu, correctSingles_none clean] at h
    exact endsAs_of_settled h
  · rw [fireNow_clean (by rw [show (b.start f).upsets = s.upsets from upsets.symm]; exact singles)] at h
    exact endsAs_of_settled h
  · rw [fireNow_spoiled (by rw [show (b.start f).upsets = s.upsets from upsets.symm]; exact spoiled)] at h
    exact endsAs_of_settled h

/-! What a step takes (log 1). -/

theorem step_scripted {s : State} {p : Pick} {rest : List Pick} (h : s.env = p :: rest) :
    step s = { s with env := rest }.take p := by
  rw [step, h]

theorem step_own {s : State} (h : s.env = []) : step s = s.take s.ownPick := by
  rw [step, h]

theorem take_firing {b : State} {f : Firing} {i : Instr} (due : b.due f = true)
    (holds : ∃ w, ((b.cell f.cell).draftElem f.elem).slots[f.slot]? = some w ∧ decode w = some i) :
    b.take (.fire f) = finishStep b ((b.start f).fireNow i) := by
  obtain ⟨w, slot, decoded⟩ := holds
  have instr : b.slotInstr f = some i := by rw [State.slotInstr, slot, Option.bind_some, decoded]
  rw [State.take, if_pos due, instr]

theorem take_event {b : State} {i : Instr} (h : encode i = none) : b.take (.event i) = finishStep b (exec i b) := by
  rw [State.take, if_pos (by rw [isEvent, h]; rfl)]

/-! Time (R87; log 23). -/

/-- The least of a bound and a list. -/
theorem foldl_min_spec (xs : List Nat) (b : Nat) :
    xs.foldl min b ≤ b ∧ (∀ x ∈ xs, xs.foldl min b ≤ x) ∧ ((∀ x ∈ xs, b ≤ x) → xs.foldl min b = b) := by
  induction xs generalizing b with
  | nil => simp
  | cons x xs ih =>
    obtain ⟨bound, members, least⟩ := ih (min b x)
    rw [List.foldl_cons]
    refine ⟨by omega, List.forall_mem_cons.2 ⟨by omega, members⟩, fun above => ?_⟩
    rw [List.forall_mem_cons] at above
    rw [min_eq_left above.1] at least ⊢
    exact least above.2

/-- Time passes by itself, but not beyond a scrub that is due. -/
theorem elapse_spec (b : State) (ps : Nat) : ∃ t, b.elapse ps = { b with time := t } ∧ b.time ≤ t ∧ t ≤ b.time + ps ∧
    (∀ d ∈ b.scrubDues, t ≤ max b.time d) ∧ ((∀ d ∈ b.scrubDues, b.time + ps ≤ d) → t = b.time + ps) := by
  obtain ⟨bound, members, least⟩ := foldl_min_spec b.scrubDues (b.time + ps)
  refine ⟨_, rfl, le_max_left _ _, by omega, fun d hd => ?_, fun above => ?_⟩
  · have := members d hd
    omega
  · rw [least above]
    omega

/-- Settles O3: a scripted pick, the machine's own event, its own firing or time, each by what `take` makes of it. -/
theorem stepRunsDecodedInstruction : Obligations.StepRunsDecodedInstruction := by
  intro s rest b dues passes holds
  have elapses {ps : Nat} {b : State} (h : step s = .next (b.elapse ps)) (time : b.time = s.time) (due : b.scrubDues = dues) : passes b ps := by
    obtain ⟨t, passed, spec⟩ := elapse_spec b ps
    rw [time, due] at spec
    exact ⟨t, by rw [h, passed], spec⟩
  refine ⟨fun f i env due held => ?_, fun f env notDue => ?_, fun i env event => ?_, fun i env word => ?_, fun ps env => ?_,
    fun i env found event => ?_, fun f fs i env none firings due held => ?_, fun env none firings => ?_⟩
  · exact fires_of_take rfl ((step_scripted env).trans (take_firing due held))
  · rw [step_scripted env, State.take, if_neg (by rw [notDue]; exact Bool.false_ne_true)]
  · exact endsAs_of_settled ((step_scripted env).trans (take_event event))
  · have notEvent : isEvent i = false := by rw [isEvent, Option.isNone_eq_false_iff, Option.isSome_iff_ne_none]; exact word
    rw [step_scripted env, State.take, if_neg (by rw [notEvent]; exact Bool.false_ne_true)]
  · exact elapses (step_scripted env) rfl rfl
  · have own : s.ownPick = .event i := by rw [State.ownPick, found]
    exact endsAs_of_settled ((step_own env).trans (by rw [own]; exact take_event event))
  · have own : s.ownPick = .fire f := by rw [State.ownPick, none, firings]
    exact fires_of_take rfl ((step_own env).trans (by rw [own]; exact take_firing due held))
  · have own : s.ownPick = .elapse (s.nextTime - s.time) := by rw [State.ownPick, none, firings]
    exact elapses ((step_own env).trans (by rw [own]; rfl)) rfl rfl

end Sys2Proof.Machine
end

section
/-! # Firings that put a command into their cell's queues -/

namespace Sys2Proof.Machine
open Sys2Proof

/-- Two updates of a cell are one. -/
theorem setCell_setCell (s : State) (c : Nat) {f g : Cell → Cell} (hf : ∀ k, (f k).id = k.id) :
    (s.setCell c f).setCell c g = s.setCell c (g ∘ f) := by
  simp only [State.setCell, updateWhere, List.map_map]
  congr 1
  refine List.map_congr_left fun k _ => ?_
  simp only [Function.comp_apply]
  by_cases h : (k.id == c) = true
  · simp [h, hf]
  · simp [h]

/-- A context that waits for more registers; queues of the cell that have changed. -/
def Cell.queued (e x : Nat) (m : BitVec 16) (h : Heddle → Heddle) (q : List ShCmd → List ShCmd) (k : Cell) : Cell :=
  { k.setElem e fun el => el.setCtx x fun y => { y with pendV := y.pendV ||| m } with heddle := h k.heddle, shuttle := q k.shuttle }

/-- No more registers are pending. -/
theorem pends_none : (fun y : Ctx => { y with pendV := y.pendV ||| 0 }) = id := funext fun y => by
  have same : y.pendV ||| 0 = y.pendV := BitVec.or_zero
  rw [same]
  rfl

/-- With no more registers pending the queues alone change. -/
theorem queued_none (e x : Nat) (h : Heddle → Heddle) (q : List ShCmd → List ShCmd) (k : Cell) :
    k.queued e x 0 h q = { k with heddle := h k.heddle, shuttle := q k.shuttle } := by
  have same : (fun el : Elem => el.setCtx x fun y => { y with pendV := y.pendV ||| 0 }) = id :=
    funext fun el => by
      rw [pends_none, Elem.setCtx, modifyAt, List.modify_id]
      rfl
  rw [Cell.queued, same, Cell.setElem, modifyAt, List.modify_id]

/-- The current firing's cell with changed queues, and its context with more registers pending. -/
def State.queue (s : State) (m : BitVec 16) (h : Heddle → Heddle) (q : List ShCmd → List ShCmd) : State :=
  s.setCell s.cur.cell (Cell.queued s.cur.elem s.cur.ctx m h q)

/-- An update of an element that knows nothing of pending registers. -/
def Heedless (g : Elem → Elem) : Prop :=
  ∀ (el : Elem) x (m : BitVec 16), g (el.setCtx x fun y => { y with pendV := y.pendV ||| m }) =
    (g el).setCtx x fun y => { y with pendV := y.pendV ||| m }

theorem heedless_setCtx (x : Nat) {f : Ctx → Ctx} (hf : ∀ (y : Ctx) (m : BitVec 16),
    f { y with pendV := y.pendV ||| m } = { f y with pendV := (f y).pendV ||| m }) : Heedless fun el => el.setCtx x f := by
  intro el j m
  simp only [Elem.setCtx, modifyAt]
  congr 1
  refine List.ext_getElem? fun i => ?_
  simp only [List.getElem?_modify]
  cases el.ctxs[i]? with
  | none => simp
  | some y => by_cases hx : x = i <;> by_cases hj : j = i <;> simp [hx, hj, hf]

theorem setElem_queued {e x : Nat} {m : BitVec 16} {h : Heddle → Heddle} {q : List ShCmd → List ShCmd} {g : Elem → Elem}
    (heedless : Heedless g) (k : Cell) : (k.queued e x m h q).setElem e g = (k.setElem e g).queued e x m h q := by
  simp only [Cell.queued, Cell.setElem, modifyAt]
  congr 1
  refine List.ext_getElem? fun i => ?_
  simp only [List.getElem?_modify]
  cases k.elems[i]? with
  | none => simp
  | some el => by_cases he : e = i <;> simp [he, heedless el x m]

theorem elem_queued (e x : Nat) (m : BitVec 16) (h : Heddle → Heddle) (q : List ShCmd → List ShCmd) (k : Cell) (j : Nat) :
    (k.queued e x m h q).elem j =
      if e = j ∧ j < k.elems.length then (k.elem j).setCtx x fun y => { y with pendV := y.pendV ||| m } else k.elem j :=
  k.elem_setElem e j fun el => el.setCtx x fun y => { y with pendV := y.pendV ||| m }

theorem chan_queued (e x : Nat) (m : BitVec 16) (h : Heddle → Heddle) (q : List ShCmd → List ShCmd) (k : Cell) (j n : Nat) :
    ((k.queued e x m h q).elem j).chan n = (k.elem j).chan n := by
  rw [elem_queued]
  split <;> rfl

section
variable (s : State) (m : BitVec 16) (h : Heddle → Heddle) (q : List ShCmd → List ShCmd)

theorem queue_curCell_same {α : Type} (g : Cell → α) (same : ∀ k, g (k.queued s.cur.elem s.cur.ctx m h q) = g k) :
    g (s.queue m h q).curCell = g s.curCell :=
  State.cell_setCell_same g s _ _ _ (fun _ => rfl) same

theorem queue_entry (t : Fin 64) : (s.queue m h q).entry t = s.entry t :=
  queue_curCell_same s m h q (fun k => (k.draftElem s.cur.elem).entries.getD t.val 0) fun _ => rfl

theorem queue_charge (k : Option Seat) (n : Int) : (s.queue m h q).charge k n = (s.charge k n).queue m h q := by cases k <;> rfl

theorem queue_touch (c : Nat) : (s.queue m h q).touch c = (s.touch c).queue m h q := rfl

theorem queue_popped (k : Token) : (s.queue m h q).popped k = (s.popped k).queue m h q := by
  simp only [State.popped, queue_charge]
  split <;> rfl

theorem queue_setElem {g : Elem → Elem} (heedless : Heedless g) :
    (s.queue m h q).setElem s.cur.cell s.cur.elem g = (s.setElem s.cur.cell s.cur.elem g).queue m h q := by
  have ahead := setCell_setCell s s.cur.cell (f := Cell.queued s.cur.elem s.cur.ctx m h q) (g := fun k => k.setElem s.cur.elem g) fun _ => rfl
  have after := setCell_setCell s s.cur.cell (f := fun k => k.setElem s.cur.elem g) (g := Cell.queued s.cur.elem s.cur.ctx m h q) fun _ => rfl
  exact (ahead.trans (congrArg (s.setCell s.cur.cell) (funext fun k => setElem_queued heedless k))).trans after.symm

theorem queue_popChan (n : Nat) :
    (s.queue m h q).popChan s.cur.cell s.cur.elem n = (s.popChan s.cur.cell s.cur.elem n).queue m h q := by
  have tokens : ((((s.queue m h q).cell s.cur.cell).elem s.cur.elem).chan n).tokens = (((s.cell s.cur.cell).elem s.cur.elem).chan n).tokens :=
    queue_curCell_same s m h q (fun k => ((k.elem s.cur.elem).chan n).tokens) fun k => by rw [chan_queued]
  simp only [State.popChan, tokens]
  split
  · rw [queue_setElem s m h q (g := fun el => el.setChan n fun h => { h with tokens := h.tokens.drop 1 }) fun _ _ _ => rfl,
      queue_popped, queue_touch]
  · rfl

theorem queue_popAll (ns : List Nat) (c e : Nat) (hc : s.cur.cell = c) (he : s.cur.elem = e) :
    ns.foldl (fun s n => s.popChan c e n) (s.queue m h q) = (ns.foldl (fun s n => s.popChan c e n) s).queue m h q := by
  subst hc he
  induction ns generalizing s with
  | nil => rfl
  | cons n ns ih =>
    have cur : (s.popChan s.cur.cell s.cur.elem n).cur = s.cur := State.popChan_cur ..
    rw [List.foldl_cons, List.foldl_cons, queue_popChan]
    simpa only [cur] using ih (s.popChan s.cur.cell s.cur.elem n)

theorem queue_effects (t : Fin 64) : (s.queue m h q).effects t = (s.effects t).queue m h q := by
  have popped := queue_popAll s m h q (bitsSet 8 (ePop (s.entry t))) s.cur.cell s.cur.elem rfl rfl
  have cur : ((bitsSet 8 (ePop (s.entry t))).foldl (fun s' n => s'.popChan s.cur.cell s.cur.elem n) s).cur = s.cur :=
    popAll_field State.cur (fun s c e n => State.popChan_cur s c e n) _ _ _ s
  generalize hx : (bitsSet 8 (ePop (s.entry t))).foldl (fun s' n => s'.popChan s.cur.cell s.cur.elem n) s = x at popped cur
  have updated := queue_setElem x m h q (heedless_setCtx x.cur.ctx (f := fun k =>
    { k with p := (k.p ||| BitVec.ofNat 8 (eSet (s.entry t))) &&& ~~~(BitVec.ofNat 8 (eClr (s.entry t)))
             exhausted := k.exhausted || eSrcend (s.entry t) }) fun _ _ => rfl)
  simp only [State.effects, queue_entry, show (s.queue m h q).cur = s.cur from rfl, popped, hx, State.setCurCtx, State.setCtx,
    show (x.queue m h q).cur = x.cur from rfl, updated]
  split
  · rfl
  · rw [← queue_touch, ← queue_charge, queue_curCell_same _ m h q Cell.seat fun _ => rfl]

/-- The end of a firing moves nothing of its cell's queues, and nothing of its pending registers. -/
theorem queue_endFiring (t : Fin 64) (n : Nat) : (s.queue m h q).endFiring t n = (s.endFiring t n).queue m h q := by
  have counts := queue_setElem (s.effects t) m h q (heedless_setCtx (s.effects t).cur.ctx (f := fun k => { k with seq := k.seq + 1 })
    fun _ _ => rfl)
  have spends := queue_setElem ((s.effects t).setCurCtx fun k => { k with seq := k.seq + 1 }) m h q (g := fun k =>
    { k with lastFired := (s.effects t).cur.ctx, occupant := none
             busyUntil := (s.effects t).time + (1 + n) * (s.effects t).vPeriod (dieOf (s.effects t).cur.cell) }) fun _ _ _ => rfl
  simp only [State.endFiring, queue_effects, State.setCurCtx, State.setCtx, State.spend,
    show ((s.effects t).queue m h q).cur = (s.effects t).cur from rfl, counts] at spends ⊢
  exact congrArg (fun z : State => z.stir _) spends

end

/-- A context that exists still does when a firing has ended. -/
theorem placed_endFiring {s : State} (t : Fin 64) (n : Nat) (hp : s.placed) : (s.endFiring t n).placed :=
  (Moves.endFiring s t n hp.1 hp.2.1).placed hp (fun _ => rfl) fun _ => rfl

theorem curCell_queue {z : State} (m : BitVec 16) (h : Heddle → Heddle) (q : List ShCmd → List ShCmd) (hp : z.placed) :
    (z.queue m h q).curCell = z.curCell.queued z.cur.elem z.cur.ctx m h q :=
  (State.cell_setCell z z.cur.cell z.cur.cell (Cell.queued z.cur.elem z.cur.ctx m h q) (fun _ => rfl) hp.1).trans (if_pos rfl)

theorem curElem_queue {z : State} (m : BitVec 16) (h : Heddle → Heddle) (q : List ShCmd → List ShCmd) (hp : z.placed) :
    (z.queue m h q).curElem = z.curElem.setCtx z.cur.ctx fun y => { y with pendV := y.pendV ||| m } := by
  rw [State.curElem, curCell_queue m h q hp]
  exact (elem_queued _ _ m h q _ _).trans (if_pos ⟨rfl, hp.2.1⟩)

/-- What the end of a firing leaves, where the firing has put a command into its cell's queues: the cell and the context with what has
been put there, everything else as a firing leaves it. -/
theorem issuesCell_endFiring {s w : State} (m : BitVec 16) (h : Heddle → Heddle) (q : List ShCmd → List ShCmd) (t : Fin 64) (hp : s.placed)
    (cells : w.cells = s.cells) (cur : w.cur = s.cur) (rest : w.rest = s.rest) (flights : w.flights = s.flights) :
    IssuesCell s ((w.queue m h q).endFiring t 0) t (fun k => { k with heddle := h k.heddle, shuttle := q k.shuttle })
      fun k => { k with pendV := k.pendV ||| m } := by
  have cell (c : Nat) : w.cell c = s.cell c := by rw [State.cell, cells, State.cell]
  have placed : w.placed := by
    have same := hp
    simp only [State.placed, State.hasCtx, State.ctxOf, State.loaded, cell, cells, cur] at same ⊢
    exact same
  obtain ⟨module, others, flown, took, ctx⟩ := issues_endFiring (g := fun s => s) t hp (Moves.of_cells cells cur) KeepsFiring.id rest
    (LeavesModule.mem rest) flights (LeavesModule.dies rest) (LeavesModule.time rest)
  have rows : (w.endFiring t 0).curCell.dirtyRows = s.curCell.dirtyRows := by
    rw [State.curCell, State.endFiring_cur, cur]
    exact (SameRows.of_cells cells).trans (SameRows.endFiring w t 0) s.cur.cell
  have zcur : (w.endFiring t 0).cur = s.cur := by rw [State.endFiring_cur, cur]
  have ended := placed_endFiring t 0 placed
  rw [queue_endFiring]
  generalize w.endFiring t 0 = z at *
  obtain ⟨-, cellsElse, own, elemsElse, ctxsElse⟩ := others
  have curCell := curCell_queue m h q ended
  have curElem := curElem_queue m h q ended
  rw [zcur] at curCell curElem
  refine ⟨module, flown, ?_, fun c hc => ?_, ?_, fun e he => ?_, fun x hx => ?_, ?_⟩
  · rw [Took, curElem]
    exact took
  · exact (State.cell_setCell_ne z _ c (Cell.queued _ _ m h q) (fun _ => rfl) (zcur ▸ hc)).trans (cellsElse c hc)
  · rw [curCell, Cell.queued, Cell.setElem, own, rows]
  · rw [curCell, elem_queued, if_neg fun h => he h.1.symm, elemsElse e he]
  · rw [curElem, Elem.ctx_setCtx, if_neg fun h => hx h.1.symm, ctxsElse x hx]
  · rw [State.curCtx, curElem, show (z.queue m h q).cur = z.cur from rfl, zcur, Elem.ctx_setCtx, if_pos ⟨rfl, zcur ▸ ended.2.2.1⟩]
    rw [State.curCtx, zcur] at ctx
    rw [ctx]
    rfl

/-- A command put into the queues is charged to the census of its cell's seat (R182). -/
theorem charged_queue {s w : State} {n : Int} (m : BitVec 16) (h : Heddle → Heddle) (q : List ShCmd → List ShCmd) (t : Fin 64)
    (ahead : Ahead (fun p => if s.curCell.seat = some p then n else 0) s w) : Charged s ((w.queue m h q).endFiring t 0) t n := by
  rw [queue_endFiring]
  exact charged_endFiring t ahead

/-- The module after a command has taken an identifier and has been charged to its cell's seat (R132, R182). -/
def State.accounted (s : State) : State := s.newId.2.charge s.curCell.seat 1

section
variable (s : State)

theorem accounted_cells : s.accounted.cells = s.cells := State.charge_cells ..
theorem accounted_cur : s.accounted.cur = s.cur := State.charge_cur ..
theorem accounted_rest : s.accounted.rest = s.rest := rest_charge ..
theorem accounted_flights : s.accounted.flights = s.flights := State.charge_flights ..
theorem accounted_ahead : Ahead (fun q => if s.curCell.seat = some q then 1 else 0) s s.accounted :=
  ⟨accounted_cells s, accounted_cur s, fun q => seatPart_charge _ _ _ q⟩

end

/-- A firing that puts a command into its cell's queues and charges it to its seat. -/
theorem issuesCell_accounted {s : State} (m : BitVec 16) (h : Heddle → Heddle) (q : List ShCmd → List ShCmd) (t : Fin 64) (hp : s.placed) :
    IssuesCell s ((s.accounted.queue m h q).endFiring t 0) t (fun k => { k with heddle := h k.heddle, shuttle := q k.shuttle })
      (fun k => { k with pendV := k.pendV ||| m }) ∧ Charged s ((s.accounted.queue m h q).endFiring t 0) t 1 :=
  ⟨issuesCell_endFiring m h q t hp (accounted_cells s) (accounted_cur s) (accounted_rest s) (accounted_flights s),
    charged_queue m h q t (accounted_ahead s)⟩

/-- A firing that occupies its element does nothing else (R282, R301, R309). -/
theorem occupies_occupy {s : State} (hp : s.placed) : Occupies s s.occupy := by
  have moves : Moves s.cur.cell s.cur.elem s.cur.ctx id s s.occupy := Moves.setElem _ _ _ _ s fun _ => rfl
  refine ⟨rfl, moves.leavesOthers_of_mem rfl, rfl, rfl, moves.curCtx hp, ?_⟩
  have own : s.occupy.cell s.cur.cell = s.curCell.setElem s.cur.elem fun k =>
      { k with occupant := some (s.cur.ctx, s.cur.slot), busyUntil := s.time + s.vPeriod (dieOf s.cur.cell) } :=
    (s.cell_setElem _ _ _ _ hp.1).trans (if_pos rfl)
  rw [State.curElem, State.curCell, show s.occupy.cur = s.cur from rfl, own, Cell.elem_setElem, if_pos ⟨rfl, hp.2.1⟩]
  rfl

end Sys2Proof.Machine
end

section
/-! # Shuttle and stream commands at their firing (O39) -/

namespace Sys2Proof.Machine
open Sys2Proof

/-- The lowest lane of a mask (R280). -/
theorem lowest_of_first {m : LaneMask} {l : Nat} (hl : l < 64) (on : inMask m l = true) (first : ∀ j, j < l → inMask m j = false) :
    lowest m = some l := by
  have head : (lanesOf m).find? (fun _ => true) = some l := by
    rw [lanesOf, List.find?_filter, List.find?_range_eq_some]
    refine ⟨by simpa using on, List.mem_range.2 hl, fun j hj => by simp [first j hj]⟩
  rw [lowest, ← head]
  cases lanesOf m <;> rfl

theorem ne_zero_of_lane {m : LaneMask} {l : Nat} (on : inMask m l = true) : m ≠ 0 := by
  rintro rfl
  simp [inMask] at on

/-! The base of a command (R294). -/

theorem checkBase_misaligned {s : State} {prof m va : Nat} {go : Nat → Nat → State → State} (off : va % 64 ≠ 0) :
    s.checkBase prof m va go = s.takeFault prof (mkFault fAlignment 0 m va) := by
  rw [State.checkBase, if_pos (by simpa using off)]

theorem checkBase_ok {s : State} {prof m va pa leaf page : Nat} {go : Nat → Nat → State → State} (aligned : va % 64 = 0)
    (unlogged : s.curCell.pendingBytes s.curAsid va 64 = false)
    (maps : s.translateFor s.cur.cell s.curAsid .load va = (.ok pa leaf page, s)) : s.checkBase prof m va go = go pa leaf s := by
  have waits : s.curCell.pendingWait (s.asidOf s.cur.cell s.cur.elem s.cur.ctx) 64 [va] = none :=
    pendingWait_none (List.forall_mem_singleton.2 unlogged)
  have maps : s.translateFor s.cur.cell (s.asidOf s.cur.cell s.cur.elem s.cur.ctx) .load va = (.ok pa leaf page, s) := maps
  rw [State.checkBase, if_neg (by simpa using aligned), waits]
  dsimp only
  rw [maps]

/-! The shuttle (R294, R301). -/

/-- The shuttle command of a firing, with the translation of its block. -/
def State.shuttleCmd (s : State) (op va pa leaf prof : Nat) : ShCmd :=
  { id := s.nextId, opcode := op, block := va, pa := pa, leaf := leaf, elem := s.cur.elem, ctx := s.cur.ctx, slot := s.cur.slot, m0 := s.m0
    asid := s.curAsid, profile := prof, phase := 0, progress := 0, paused := none, fields := [], buffer := [], seq := s.curCtx.seq }

theorem exec_shuttle {s : State} {t : Fin 64} {a : Pair} {b : Src} {p : Profile} {op : Nat} (hop : op < 3) :
    exec (if op = 0 then .shcpy t a b p else if op = 1 then .shtile t a b p else .shmcast t a b p) s =
      .next (s.fireShuttle t (0x68 + op) a b p) := by
  match op, hop with
  | 0, _ | 1, _ | 2, _ => rfl

section
variable {s : State} {t : Fin 64} {a : Pair} {b : Src} {p : Profile} {op l : Nat} (some : s.m0 ≠ 0)
include some

theorem fireShuttle_full (full : 16 ≤ s.curCell.shuttle.length) : s.fireShuttle t op a b p = s.occupy := by
  rw [State.fireShuttle]
  dsimp only
  rw [if_neg some, if_pos full]

variable (lane : lowest s.m0 = Option.some l) (room : s.curCell.shuttle.length < 16)
include lane room

theorem fireShuttle_misaligned (off : s.ea a b l % 64 ≠ 0) :
    s.fireShuttle t op a b p = s.takeFault (s.profile p.val) (0x04, 0, 2 ^ l, s.ea a b l) := by
  rw [State.fireShuttle]
  dsimp only
  rw [if_neg some, if_neg (by omega), State.base, State.baseMark, lane]
  exact checkBase_misaligned off

theorem fireShuttle_enters {pa leaf page : Nat} (aligned : s.ea a b l % 64 = 0)
    (unlogged : s.curCell.pendingBytes s.curAsid (s.ea a b l) 64 = false)
    (maps : s.translateFor s.cur.cell s.curAsid .load (s.ea a b l) = (.ok pa leaf page, s)) : s.fireShuttle t op a b p =
      (s.accounted.queue 0 id fun q => q ++ [s.shuttleCmd op (s.ea a b l) pa leaf (s.profile p.val)]).endFiring t 0 := by
  have entered : s.accounted.queue 0 id (fun q => q ++ [s.shuttleCmd op (s.ea a b l) pa leaf (s.profile p.val)]) =
      (s.newId.2.setCell s.cur.cell fun k => { k with shuttle := k.shuttle ++ [s.shuttleCmd op (s.ea a b l) pa leaf (s.profile p.val)] }).charge
        s.curCell.seat 1 := by
    rw [State.accounted, ← queue_charge, State.queue]
    exact congrArg (fun f => (s.newId.2.setCell s.cur.cell f).charge s.curCell.seat 1) (funext fun k => queued_none _ _ _ _ k)
  have seat : (s.newId.2.setCell s.cur.cell fun k =>
      { k with shuttle := k.shuttle ++ [s.shuttleCmd op (s.ea a b l) pa leaf (s.profile p.val)] }).curCell.seat = s.curCell.seat :=
    State.cell_setCell_same Cell.seat s.newId.2 _ _ _ (fun _ => rfl) fun _ => rfl
  rw [State.fireShuttle]
  dsimp only
  have base : s.base a b = s.ea a b l := by rw [State.base, lane]
  rw [if_neg some, if_neg (by omega), base, checkBase_ok aligned unlogged maps, entered]
  exact congrArg (fun k => State.endFiring (State.charge _ k 1) t 0) seat
end

/-- R294, R301: a shuttle command enters its cell's queue, or waits, faults or ends. -/
theorem shuttleCommandsEnter : ShuttleCommandsEnter := by
  intro s t a b p hp op hop i
  have ran : exec i s = .next (s.fireShuttle t (0x68 + op) a b p) := exec_shuttle hop
  refine ⟨fun none => ?_, fun l hl on first => ?_⟩
  · rw [State.fireShuttle] at ran
    dsimp only at ran
    rw [if_pos none] at ran
    exact ⟨_, ran, endsEmpty_endEmpty s t _ hp⟩
  · have lane := lowest_of_first hl on first
    have some := ne_zero_of_lane on
    refine ⟨fun full => ?_, fun room off die => ?_, fun pa leaf page room aligned unlogged maps => ?_⟩
    · exact ⟨_, ran.trans (by rw [fireShuttle_full some full]), occupies_occupy hp⟩
    · exact takeFault_takes (ran.trans (by rw [fireShuttle_misaligned some lane room off])) hp die
    · obtain ⟨issues, charged⟩ := issuesCell_accounted 0 id
        (fun q => q ++ [s.shuttleCmd (0x68 + op) (s.ea a b l) pa leaf (s.profile p.val)]) t hp
      exact ⟨_, ran.trans (by rw [fireShuttle_enters some lane room aligned unlogged maps]), pends_none ▸ issues, charged⟩

/-! Streams (R71, R302). -/

/-- The stream that SHSTRM asks for. -/
def State.streamAsked (s : State) (va pa leaf prof : Nat) : Stream :=
  { id := s.nextId, slice := homeSlice pa, addr := va, pa := pa, leaf := leaf, cell := s.cur.cell, elem := s.cur.elem, ctx := s.cur.ctx, slot := s.cur.slot
    m0 := s.m0, launch := s.curCell.launchUid, asid := s.curAsid, opened := false, closing := false, desc := []
    seat := s.curCell.seat, dest := none, profile := prof, next := 0, pushed := 0, popped := 0, paused := none
    ended := false, cut := false, buf := [], seq := s.curCtx.seq }

/-- What a firing puts under way outside the cells, charged to its cell's seat. -/
theorem issues_accounted {s w : State} {g : State → State} (t : Fin 64) (hp : s.placed) (rest : w.rest = (g s).rest) (cells : w.cells = s.cells)
    (census : w.census = s.census) (others : w = { s with streams := w.streams, closes := w.closes, nextId := w.nextId }) :
    Issues s ((w.charge s.curCell.seat 1).endFiring t 0) t g id ∧ Charged s ((w.charge s.curCell.seat 1).endFiring t 0) t 1 := by
  refine ⟨issues_endFiring t hp (Moves.of_cells ?_ ?_) KeepsFiring.id ((rest_charge ..).trans rest) ?_ ?_ ?_ ?_,
    charged_endFiring t ⟨?_, ?_, fun q => ?_⟩⟩
  · rw [State.charge_cells, cells]
  · rw [State.charge_cur, others]
  · rw [State.charge_mem, others]
  · rw [State.charge_flights, others]
  · rw [State.charge_dies, others]
  · rw [State.charge_time, others]
  · rw [State.charge_cells, cells]
  · rw [State.charge_cur, others]
  · rw [seatPart_charge, census]

/-- The module in which an opened stream has been asked to end. -/
def State.streamEnding (s : State) (prof : Nat) (k : Stream) : State :=
  { s.newId.2 with
    closes := s.closes ++ [⟨s.nextId, s.cur.cell, s.cur.elem, s.cur.ctx, k.id, prof, s.curCell.seat, s.curCtx.seq⟩]
    streams := updateWhere (·.id == k.id) (fun k => { k with closing := true }) s.streams }

section
variable {s : State} {t : Fin 64} {a : Pair} {p : Profile} {l va pa leaf page : Nat} (lane : s.wordLane a = [(l, va)])
  (aligned : va % 64 = 0) (unlogged : s.curCell.pendingBytes s.curAsid va 64 = false)
  (maps : s.translateFor s.cur.cell s.curAsid .load va = (.ok pa leaf page, s))
include lane aligned unlogged maps

/-- A command of the lowest lane goes on from its base. -/
theorem ofBase {prof m : Nat} {go : Nat → Nat → State → State} :
    (if s.m0 = 0 then s.endEmpty t prof else s.checkBase prof m (s.streamBase a) go) = go pa leaf s := by
  have some : s.m0 ≠ 0 := fun none => by simp [wordLane_empty a none] at lane
  rw [if_neg some, State.streamBase, lane]
  exact checkBase_ok aligned unlogged maps

theorem exec_shstrm : exec (.shstrm t a p) s = .next
    (if (s.streams.filter fun k => k.slice == homeSlice pa).length ≥ 16 then s.stay (.streamSlot (homeSlice pa))
      else (({ s.newId.2 with streams := s.streams ++ [s.streamAsked va pa leaf (s.profile p.val)] } : State).charge
        s.curCell.seat 1).endFiring t 0) := by
  have base : s.streamBase a = va := by rw [State.streamBase, lane]
  rw [← base]
  exact congrArg Host.Outcome.next (ofBase lane aligned unlogged maps)

theorem exec_shclose : exec (.shclose t a p) s = .next
    (match s.streams.find? fun k => k.addr == va && k.opened && k.launch == s.curCell.launchUid && k.asid == s.curAsid with
      | none => s.endEmpty t (s.profile p.val)
      | some k => ((s.streamEnding (s.profile p.val) k).charge s.curCell.seat 1).endFiring t 0) := by
  have base : s.streamBase a = va := by rw [State.streamBase, lane]
  rw [← base]
  exact congrArg Host.Outcome.next (ofBase lane aligned unlogged maps)

end

/-- R71, R302: SHSTRM and SHCLOSE put a stream's opening and its end under way. -/
theorem streamCommandsEnter : StreamCommandsEnter := by
  intro s t a p hp
  refine ⟨fun none => ?_, fun l va pa leaf page lane aligned unlogged maps => ?_⟩
  · have ends {go : Nat → Nat → State → State} {m : Nat} :
        (if s.m0 = 0 then s.endEmpty t (s.profile p.val) else s.checkBase (s.profile p.val) m (s.streamBase a) go) =
          s.endEmpty t (s.profile p.val) := if_pos none
    exact ⟨⟨_, congrArg Host.Outcome.next ends, endsEmpty_endEmpty s t _ hp⟩, ⟨_, congrArg Host.Outcome.next ends, endsEmpty_endEmpty s t _ hp⟩⟩
  · have opens := exec_shstrm (t := t) (p := p) lane aligned unlogged maps
    have closes := exec_shclose (t := t) (p := p) lane aligned unlogged maps
    refine ⟨fun room => ?_, fun full => ?_, fun absent => ?_, fun k found => ?_⟩
    · rw [if_neg (by omega)] at opens
      exact ⟨_, opens, issues_accounted t hp rfl rfl rfl rfl⟩
    · rw [if_pos full] at opens
      exact ⟨_, opens, stays_stay _ hp⟩
    · rw [absent] at closes
      exact ⟨_, closes, endsEmpty_endEmpty s t _ hp⟩
    · rw [found] at closes
      refine ⟨_, closes, issues_accounted t hp ?_ rfl rfl rfl⟩
      simp only [State.streamEnding, updateWhere, beq_iff_eq]
      rfl

/-- Settles O39: each command by its base, its room and its queue. -/
theorem shuttleAndStreamEnter : Obligations.ShuttleAndStreamEnter := ⟨shuttleCommandsEnter, streamCommandsEnter⟩

end Sys2Proof.Machine
end

section
/-! # Heddle commands at their firing, their field ranges, HWAIT and CBDEC (O40) -/

namespace Sys2Proof.Machine
open Sys2Proof

/-! Firing (R309, R310). -/

/-- The command words that a firing reads, n of them whatever m0 holds. -/
def State.hwords (s : State) (n : Nat) (a : Src) : List Word := (List.range 8).map fun j => if j < n then s.rd a j else 0

/-- The heddle command of a firing. -/
def State.heddleCmd (s : State) (op n : Nat) (dst : Option Nat) (a b : Src) : HCmd :=
  { id := s.nextId, opcode := op, words := s.hwords n a, offset := (s.rd b 0).toInt, elem := s.cur.elem, ctx := s.cur.ctx, slot := s.cur.slot
    m0 := s.m0, asid := s.curAsid, dst := dst, started := false, paused := none, progress := 0, wovenSeq := 0
    chain0 := [], chain1 := [], out := [], seq := s.curCtx.seq }

/-- The registers that a command's result waits for. -/
def dstPends (dst : Option Nat) : BitVec 16 := match dst with | some r => regsMask r 1 | none => 0

/-- A command's slot counts it, and an HMMA with WOVEN takes its place in its row (R309, R310, R322). -/
theorem enter_eq (h : Heddle) (x : HCmd) : h.enter x = { h with
    queue := h.queue ++ [{ x with wovenSeq := h.wovenCount }]
    counts := if cw x.words 3 / 2048 % 2 = 1 then h.counts.modify (cw x.words 3 / 256 % 8) (· + 1) else h.counts
    wovenCount := h.wovenCount + if x.opcode = 0x6E ∧ cw x.words 0 / 2 ^ 29 % 2 = 1 then 1 else 0 } := by
  have count : (if (x.opcode == 0x6E && mmaWoven x.words) = true then h.wovenCount + 1 else h.wovenCount) =
      h.wovenCount + if x.opcode = 0x6E ∧ cw x.words 0 / 2 ^ 29 % 2 = 1 then 1 else 0 := by
    simp only [mmaWoven, bit, Bool.and_eq_true, beq_iff_eq]
    split <;> rfl
  simp only [Heddle.enter, count, syncSeten, syncSet, bit, bits, modifyAt, beq_iff_eq]
  rfl

section
variable {s : State} {t : Fin 64} {op n : Nat} {dst : Option Nat} {a b : Src}

theorem fireHeddle_empty (none : s.m0 = 0) : s.fireHeddle t op n dst a b = s.endFiring t 0 := by
  unfold State.fireHeddle
  dsimp only
  rw [if_pos none]

variable (some : s.m0 ≠ 0)
include some

theorem fireHeddle_shape (shape : heddleOk op dst.isSome (s.hwords n a) (s.rd b 0).toInt = false) :
    s.fireHeddle t op n dst a b = s.takeFault 0 (0x09, 0, s.m0.toNat, 0) := by
  rw [State.hwords] at shape
  unfold State.fireHeddle
  dsimp only
  rw [if_neg some, if_pos (by rw [shape]; rfl)]
  rfl

variable (shape : heddleOk op dst.isSome (s.hwords n a) (s.rd b 0).toInt = true)
include shape

theorem fireHeddle_full (full : 8 ≤ s.curCell.heddle.queue.length) : s.fireHeddle t op n dst a b = s.occupy := by
  rw [State.hwords] at shape
  unfold State.fireHeddle
  dsimp only
  rw [if_neg some, if_neg (by rw [shape]; exact Bool.false_ne_true), if_pos full]

theorem fireHeddle_enters (room : s.curCell.heddle.queue.length < 8) : s.fireHeddle t op n dst a b =
    (s.accounted.queue (dstPends dst) (·.enter (s.heddleCmd op n dst a b)) id).endFiring t 0 := by
  have entered : (s.newId.2.setHeddle s.cur.cell (·.enter (s.heddleCmd op n dst a b))).setCurCtx
      (fun k => { k with pendV := k.pendV ||| dstPends dst }) = s.newId.2.queue (dstPends dst) (·.enter (s.heddleCmd op n dst a b)) id :=
    setCell_setCell s.newId.2 s.cur.cell (f := fun k => { k with heddle := k.heddle.enter (s.heddleCmd op n dst a b) }) fun _ => rfl
  have seat : (s.newId.2.queue (dstPends dst) (·.enter (s.heddleCmd op n dst a b)) id).curCell.seat = s.curCell.seat :=
    queue_curCell_same s.newId.2 _ _ _ Cell.seat fun _ => rfl
  rw [State.hwords] at shape
  rw [State.accounted, ← queue_charge, ← seat, ← entered]
  unfold State.fireHeddle
  dsimp only
  rw [if_neg some, if_neg (by rw [shape]; exact Bool.false_ne_true), if_neg (by omega)]
  rfl
end

theorem heddleEnters {i : Instr} {s : State} {t : Fin 64} {op n : Nat} {dst : Option Nat} {a b : Src} (hp : s.placed)
    (ran : exec i s = .next (s.fireHeddle t op n dst a b)) : HeddleEnters i s t op n dst a b := by
  refine ⟨fun none => ?_, fun some shape die => ?_, fun some shape full => ?_, fun some shape room => ?_⟩
  · exact ⟨_, ran.trans (by rw [fireHeddle_empty none]), onlyEffects_endFiring t hp⟩
  · exact takeFault_takes (ran.trans (by rw [fireHeddle_shape some shape])) hp die
  · exact ⟨_, ran.trans (by rw [fireHeddle_full some shape full]), occupies_occupy hp⟩
  · obtain ⟨issues, charged⟩ := issuesCell_accounted (dstPends dst) (·.enter (s.heddleCmd op n dst a b)) id t hp
    refine ⟨_, ran.trans (by rw [fireHeddle_enters some shape room]), ?_, charged⟩
    refine (congrArg (fun g => IssuesCell s _ t g _) (funext fun k => ?_)).mpr issues
    exact congrArg (fun h : Heddle => { k with heddle := h }) (enter_eq k.heddle (s.heddleCmd op n dst a b)).symm

/-- R309, R310, R314 to R319: the heddle commands enter their cell's queue. -/
theorem heddleCommandsEnter : HeddleCommandsEnter := fun _ _ _ _ _ hp =>
  ⟨heddleEnters hp rfl, heddleEnters hp rfl, heddleEnters hp rfl, heddleEnters hp rfl, heddleEnters hp rfl, heddleEnters hp rfl, heddleEnters hp rfl⟩

/-! The ranges of the command words (R309, R314 to R319). -/

/-- A field of a word is 0 where each of its bits is. -/
theorem bits_eq_zero {w hi lo : Nat} : bits w hi lo = 0 ↔ ∀ i, lo ≤ i → i ≤ hi → w.testBit i = false := by
  rw [bits, Nat.eq_iff_testBit_eq]
  simp only [Nat.testBit_mod_two_pow, Nat.testBit_div_two_pow, Nat.zero_testBit, Bool.and_eq_false_iff, decide_eq_false_iff_not]
  refine ⟨fun zero i above below => ?_, fun clear i => ?_⟩
  · have := zero (i - lo)
    rw [show i - lo + lo = i by omega] at this
    exact this.resolve_left (by omega)
  · by_cases inside : i < hi + 1 - lo
    · exact .inr (clear (i + lo) (by omega) (by omega))
    · exact .inl inside

/-- A word has bits in some fields alone where the fields between them are 0. -/
theorem onlyBits_iff (w : Nat) (fs gaps : List (Nat × Nat)) (inWord : ∀ g ∈ gaps, g.1 < 32)
    (complement : ∀ i < 32, (fs.any fun f => f.2 ≤ i && i ≤ f.1) = !(gaps.any fun f => f.2 ≤ i && i ≤ f.1)) :
    onlyBits w fs = true ↔ ∀ g ∈ gaps, bits w g.1 g.2 = 0 := by
  simp only [onlyBits, List.all_eq_true, List.mem_range, bit_eq_testBit, Bool.or_eq_true, Bool.not_eq_true']
  refine ⟨fun only g hg => bits_eq_zero.2 fun i lo hi => ?_, fun zero i hi => ?_⟩
  · have inside : (gaps.any fun f => f.2 ≤ i && i ≤ f.1) = true := List.any_eq_true.2 ⟨g, hg, by simp [lo, hi]⟩
    have below : i < 32 := Nat.lt_of_le_of_lt hi (inWord g hg)
    refine (only i below).resolve_right ?_
    rw [complement i below, inside]
    exact Bool.false_ne_true
  · rw [complement i hi]
    by_cases gap : (gaps.any fun f => f.2 ≤ i && i ≤ f.1) = true
    · obtain ⟨g, hg, within⟩ := List.any_eq_true.1 gap
      rw [Bool.and_eq_true, decide_eq_true_eq, decide_eq_true_eq] at within
      exact .inl (bits_eq_zero.1 (zero g hg) i within.1 within.2)
    · rw [Bool.not_eq_true] at gap
      rw [gap]
      exact .inr rfl

theorem bit_iff (n i : Nat) : bit n i = true ↔ bits n i i = 1 := by
  rw [bit, bits, beq_iff_eq, Nat.add_sub_cancel_left, Nat.pow_one]

theorem bit_eq_false_iff (n i : Nat) : bit n i = false ↔ bits n i i = 0 := by
  rw [← Bool.not_eq_true, bit_iff, bits, Nat.add_sub_cancel_left, Nat.pow_one]
  omega

/-- The whole of a command word is a field of it. -/
theorem bits_word (ws : List Word) (lane : Nat) : bits (cw ws lane) 31 0 = cw ws lane := by
  have := (ws.getD lane 0).isLt
  show cw ws lane / 2 ^ 0 % 2 ^ (31 + 1 - 0) = cw ws lane
  rw [cw]
  omega

/-- A scratchpad address of a command word and the offset: aligned to n and within the scratchpad (R309). -/
def SpaSum (ws : List Word) (o : Int) (lane n : Nat) : Prop :=
  bits (cw ws lane) 31 20 = 0 ∧ 0 ≤ (bits (cw ws lane) 31 0 : Int) + o ∧ (bits (cw ws lane) 31 0 : Int) + o < 2 ^ 20 ∧
    ((bits (cw ws lane) 31 0 : Int) + o) % n = 0

section
variable (ws : List Word) (o : Int) (lane n : Nat)

theorem onlyBits_address : onlyBits (cw ws lane) [(19, 0)] = true ↔ bits (cw ws lane) 31 20 = 0 := by
  rw [onlyBits_iff _ _ [(31, 20)] (by decide) (by decide)]
  simp only [List.forall_mem_singleton]

theorem onlyBits_sync : onlyBits (cw ws 3) [(11, 0)] = true ↔ bits (cw ws 3) 31 12 = 0 := by
  rw [onlyBits_iff _ _ [(31, 12)] (by decide) (by decide)]
  simp only [List.forall_mem_singleton]

theorem spaSum_iff : onlyBits (cw ws lane) [(19, 0)] = true ∧ spaSumOk (cw ws lane) o n = true ↔ SpaSum ws o lane n := by
  simp only [onlyBits_address, SpaSum, bits_word, spaSumOk, Bool.and_eq_true, decide_eq_true_eq, beq_iff_eq, and_assoc]

/-- A virtual address of lanes 1 and 2 and the offset, aligned to n (R309). -/
theorem vaSum_iff : vaSumOk (cwAddr ws) o n = true ↔
    ((bits (cw ws 1) 31 0 + 2 ^ 32 * bits (cw ws 2) 31 0 : Nat) + o) % n = 0 := by
  rw [vaSumOk, beq_iff_eq, cwAddr, bits_word, bits_word]

theorem zeroOk_iff : zeroOk ws o = true ↔ bits (cw ws 0) 31 6 = 0 ∧ SpaSum ws o 1 2048 ∧ bits (cw ws 2) 31 0 = 0 := by
  have fields := onlyBits_iff (cw ws 0) [(5, 0)] [(31, 6)] (by decide) (by decide)
  simp only [List.forall_mem_singleton] at fields
  simp only [zeroOk, Bool.and_eq_true, fields, ← spaSum_iff, bits_word, beq_iff_eq, and_assoc]

theorem mmaOk_iff : mmaOk ws o = true ↔ bits (cw ws 0) 23 21 = 0 ∧ bits (cw ws 0) 15 11 = 0 ∧ bits (cw ws 0) 7 6 = 0 ∧
    1 ≤ bits (cw ws 0) 28 24 ∧ bits (cw ws 0) 28 24 ≤ 16 ∧ 2 ≤ bits (cw ws 0) 20 16 ∧ bits (cw ws 0) 20 16 ≤ 16 ∧
    SpaSum ws o 1 32 ∧ bits (cw ws 2) 31 20 = 0 ∧ bits (cw ws 2) 31 0 % 2048 = 0 := by
  have fields := onlyBits_iff (cw ws 0) [(31, 24), (20, 16), (10, 8), (5, 0)] [(23, 21), (15, 11), (7, 6)] (by decide) (by decide)
  simp only [List.forall_mem_cons, List.not_mem_nil, false_implies, implies_true, and_true] at fields
  simp only [mmaOk, Bool.and_eq_true, decide_eq_true_eq, beq_iff_eq, fields, ← spaSum_iff, ← onlyBits_address ws 2, bits_word, and_assoc]
  rfl

theorem cbloadOk_iff : cbloadOk ws o = true ↔ bits (cw ws 0) 31 24 = 0 ∧ bits (cw ws 0) 15 9 = 0 ∧ 1 ≤ bits (cw ws 0) 8 0 ∧
    bits (cw ws 0) 23 16 + bits (cw ws 0) 8 0 ≤ 256 ∧
    ((bits (cw ws 1) 31 0 + 2 ^ 32 * bits (cw ws 2) 31 0 : Nat) + o) % (4 : Nat) = 0 := by
  have fields := onlyBits_iff (cw ws 0) [(23, 16), (8, 0)] [(31, 24), (15, 9)] (by decide) (by decide)
  simp only [List.forall_mem_cons, List.not_mem_nil, false_implies, implies_true, and_true] at fields
  simp only [cbloadOk, Bool.and_eq_true, decide_eq_true_eq, fields, vaSum_iff, and_assoc]
  rfl

theorem wloadOk_iff : wloadOk ws o = true ↔ bits (cw ws 0) 30 29 = 0 ∧ bits (cw ws 0) 23 3 = 0 ∧
    1 ≤ bits (cw ws 0) 28 24 ∧ bits (cw ws 0) 28 24 ≤ 16 ∧
    (bits (cw ws 0) 28 24 ≤ 8 → bits (cw ws 0) 31 31 = 0 ∧ (bits (cw ws 0) 2 0 + 1) * bits (cw ws 0) 28 24 ≤ 8) ∧
    (9 ≤ bits (cw ws 0) 28 24 → bits (cw ws 0) 2 0 = 0) ∧ SpaSum ws o 1 32 ∧ bits (cw ws 2) 31 0 = 0 := by
  have fields := onlyBits_iff (cw ws 0) [(31, 31), (28, 24), (2, 0)] [(30, 29), (23, 3)] (by decide) (by decide)
  simp only [List.forall_mem_cons, List.not_mem_nil, false_implies, implies_true, and_true] at fields
  simp only [wloadOk, Bool.and_eq_true, Bool.not_eq_true', Bool.and_eq_false_iff, decide_eq_true_eq, decide_eq_false_iff_not, beq_iff_eq,
    bne_eq_false_iff_eq, bit_eq_false_iff, fields, ← spaSum_iff, bits_word, and_assoc]
  simp only [cwPw, loadK, Nat.add_eq_right, gt_iff_lt, ge_iff_le, Nat.not_lt, imp_iff_not_or, or_and_left, and_assoc]

theorem drainOk_iff (reg : Bool) : drainOk reg ws o = true ↔ bits (cw ws 0) 23 17 = 0 ∧ bits (cw ws 0) 15 10 = 0 ∧ bits (cw ws 0) 7 6 = 0 ∧
    SpaSum ws o 1 2048 ∧ (reg = true → bits (cw ws 2) 31 0 = 0) ∧
    (reg = false → bits (cw ws 0) 9 8 = 0 ∧ bits (cw ws 2) 31 20 = 0 ∧ bits (cw ws 2) 31 0 % 32 = 0) := by
  have fields := onlyBits_iff (cw ws 0) [(31, 24), (16, 16), (9, 8), (5, 0)] [(23, 17), (15, 10), (7, 6)] (by decide) (by decide)
  simp only [List.forall_mem_cons, List.not_mem_nil, false_implies, implies_true, and_true] at fields
  cases reg
  case false =>
    simp only [drainOk, Bool.and_eq_true, Bool.or_eq_true, beq_iff_eq, fields, ← spaSum_iff, ← onlyBits_address ws 2, bits_word,
      Bool.false_eq_true, if_false, false_or, false_implies, true_implies, true_and]
    tauto
  case true =>
    simp only [drainOk, Bool.and_eq_true, Bool.or_eq_true, beq_iff_eq, fields, ← spaSum_iff, bits_word, if_true, true_or,
      Bool.true_eq_false, false_implies, true_implies, and_true, and_assoc]

/-- HPREP's mode and precision (R314). -/
theorem prepMode_iff : ((prepWeights ws || !prepFixed ws) = true ∧ (if prepFixed ws then 1 else 2) ≤ prepP ws ∧
      (if prepFixed ws then decide (prepWexp ws ≤ 254) else prepWexp ws == 0) = true) ↔
    (bits (cw ws 0) 29 29 = 1 → bits (cw ws 0) 31 31 = 1 ∧ bits (cw ws 0) 7 0 ≤ 254) ∧
    (bits (cw ws 0) 29 29 = 0 → 2 ≤ bits (cw ws 0) 28 24 ∧ bits (cw ws 0) 7 0 = 0) ∧ 1 ≤ bits (cw ws 0) 28 24 := by
  have precision : prepP ws = bits (cw ws 0) 28 24 := rfl
  have exponent : prepWexp ws = bits (cw ws 0) 7 0 := rfl
  simp only [prepWeights, Bool.or_eq_true, Bool.not_eq_true', bit_iff, precision, exponent]
  cases fixed : prepFixed ws
  case false =>
    have zero := (bit_eq_false_iff _ _).1 fixed
    simp only [zero, beq_iff_eq, Bool.false_eq_true, if_false, or_true, true_and, Nat.zero_ne_one, false_implies, true_implies]
    omega
  case true =>
    have one := (bit_iff _ _).1 fixed
    simp only [one, decide_eq_true_eq, if_true, Bool.true_eq_false, or_false, Nat.one_ne_zero, false_implies, true_implies]
    tauto

/-- HPREP's source: elements of a format in the scratchpad, or FP32 values in memory (R314). -/
theorem prepSource_iff :
    ((if prepSpad ws then 1 ≤ prepFmt ws && prepFmt ws ≤ 8 else prepFmt ws == 0 && prepScale ws == 0) = true ∧
      (if prepSpad ws then onlyBits (cw ws 1) [(19, 0)] && cw ws 2 == 0 && spaSumOk (cw ws 1) o 32 else vaSumOk (cwAddr ws) o 64) = true ∧
      prepStride ws % (if prepSpad ws then 32 else 64) = 0) ↔
    (bits (cw ws 0) 30 30 = 1 → 1 ≤ bits (cw ws 0) 23 16 ∧ bits (cw ws 0) 23 16 ≤ 8 ∧ SpaSum ws o 1 32 ∧ bits (cw ws 2) 31 0 = 0 ∧
      bits (cw ws 4) 31 0 % 32 = 0) ∧
    (bits (cw ws 0) 30 30 = 0 → bits (cw ws 0) 23 8 = 0 ∧
      ((bits (cw ws 1) 31 0 + 2 ^ 32 * bits (cw ws 2) 31 0 : Nat) + o) % (64 : Nat) = 0 ∧ bits (cw ws 4) 31 0 % 64 = 0) := by
  cases spad : prepSpad ws
  case false =>
    have zero := (bit_eq_false_iff _ _).1 spad
    have formats : bits (cw ws 0) 23 8 = 0 ↔ prepFmt ws = 0 ∧ prepScale ws = 0 := by
      simp only [prepFmt, prepScale, bits]
      omega
    simp only [zero, formats, vaSum_iff, prepStride, bits_word ws 4, Bool.and_eq_true, beq_iff_eq, Bool.false_eq_true, if_false,
      Nat.zero_ne_one, false_implies, true_implies, true_and]
  case true =>
    have one := (bit_iff _ _).1 spad
    have format : prepFmt ws = bits (cw ws 0) 23 16 := rfl
    simp only [one, ← spaSum_iff, prepStride, format, bits_word, Bool.and_eq_true, decide_eq_true_eq, beq_iff_eq, if_true,
      Nat.one_ne_zero, false_implies, true_implies, and_true]
    tauto

theorem prepOk_iff : prepOk ws o = true ↔
    (bits (cw ws 0) 29 29 = 1 → bits (cw ws 0) 31 31 = 1 ∧ bits (cw ws 0) 7 0 ≤ 254) ∧
    (bits (cw ws 0) 29 29 = 0 → 2 ≤ bits (cw ws 0) 28 24 ∧ bits (cw ws 0) 7 0 = 0) ∧
    1 ≤ bits (cw ws 0) 28 24 ∧ bits (cw ws 0) 28 24 ≤ 16 ∧
    (bits (cw ws 0) 30 30 = 1 → 1 ≤ bits (cw ws 0) 23 16 ∧ bits (cw ws 0) 23 16 ≤ 8 ∧ SpaSum ws o 1 32 ∧ bits (cw ws 2) 31 0 = 0 ∧
      bits (cw ws 4) 31 0 % 32 = 0) ∧
    (bits (cw ws 0) 30 30 = 0 → bits (cw ws 0) 23 8 = 0 ∧
      ((bits (cw ws 1) 31 0 + 2 ^ 32 * bits (cw ws 2) 31 0 : Nat) + o) % (64 : Nat) = 0 ∧ bits (cw ws 4) 31 0 % 64 = 0) ∧
    bits (cw ws 5) 31 14 = 0 ∧ bits (cw ws 5) 7 3 = 0 ∧ (bits (cw ws 0) 31 31 = 1 → bits (cw ws 5) 13 8 = 0) ∧
    bits (cw ws 6) 31 20 = 0 ∧ bits (cw ws 6) 31 0 % 32 = 0 ∧ bits (cw ws 7) 31 0 = 0 := by
  have fields := onlyBits_iff (cw ws 5) [(13, 8), (2, 0)] [(31, 14), (7, 3)] (by decide) (by decide)
  simp only [List.forall_mem_cons, List.not_mem_nil, false_implies, implies_true, and_true] at fields
  have rows : (!prepWeights ws || prepM ws == 1) = true ↔ (bits (cw ws 0) 31 31 = 1 → bits (cw ws 5) 13 8 = 0) := by
    rw [Bool.or_eq_true, Bool.not_eq_true', ← Bool.not_eq_true, prepWeights, bit_iff, beq_iff_eq, prepM, Nat.add_eq_right, imp_iff_not_or]
  have mode := prepMode_iff ws
  have source := prepSource_iff ws o
  simp only [prepOk, Bool.and_eq_true, decide_eq_true_eq, beq_iff_eq, fields, rows, onlyBits_address, bits_word ws 6, bits_word ws 7]
  constructor
  · rintro ⟨⟨⟨⟨⟨⟨⟨⟨⟨⟨⟨weights, low⟩, high⟩, format⟩, exponent⟩, sum⟩, stride⟩, below, middle⟩, one⟩, address⟩, row⟩, zero⟩
    obtain ⟨fixed, dynamic, least⟩ := mode.1 ⟨weights, low, exponent⟩
    obtain ⟨spad, memory⟩ := source.1 ⟨format, sum, stride⟩
    exact ⟨fixed, dynamic, least, high, spad, memory, below, middle, one, address, row, zero⟩
  · rintro ⟨fixed, dynamic, least, high, spad, memory, below, middle, one, address, row, zero⟩
    obtain ⟨weights, low, exponent⟩ := mode.2 ⟨fixed, dynamic, least⟩
    obtain ⟨format, sum, stride⟩ := source.2 ⟨spad, memory⟩
    exact ⟨⟨⟨⟨⟨⟨⟨⟨⟨⟨⟨weights, low⟩, high⟩, format⟩, exponent⟩, sum⟩, stride⟩, below, middle⟩, one⟩, address⟩, row⟩, zero⟩

end

/-- R309, R314 to R319: the ranges of the fields of each command. -/
theorem heddleFieldRanges : HeddleFieldRanges := by
  intro ws o len f sync spa
  have ok {op : Nat} {reg good : Bool} {q : Prop} (hq : good = true ↔ q)
      (h : heddleOk op reg ws o = (onlyBits (cw ws 3) [(11, 0)] && good)) : heddleOk op reg ws o = true ↔ sync ∧ q := by
    rw [h, Bool.and_eq_true, onlyBits_sync]
    exact and_congr Iff.rfl hq
  exact ⟨ok (zeroOk_iff ws o) rfl, ok (mmaOk_iff ws o) rfl, ok (cbloadOk_iff ws o) rfl, ok (wloadOk_iff ws o) rfl,
    fun reg => ok (drainOk_iff ws o reg) rfl, ok (prepOk_iff ws o) rfl⟩

/-! HWAIT (R311). -/

theorem awaited_eq (h : Heddle) (mask : Nat) : h.naming mask =
    (h.queue.filter fun x => (cw x.words 3).testBit 11 && mask.testBit (cw x.words 3 / 256 % 8)).map (·.id) := by
  simp only [Heddle.naming, syncSeten, bit_eq_testBit]
  rfl

section
variable {s : State} (t : Fin 64) (q : PredReg) (a : Src) (hp : s.placed)

/-- HWAIT's firing without its watch: the predicate is cleared, then the entry's effects. -/
def State.unwatched (s : State) (t : Fin 64) (q : PredReg) : State := (s.writePred q.val false).endFiring t 0

/-- The context after the end of a firing, with the predicates p. -/
def State.endedWith (s : State) (t : Fin 64) (p : BitVec 8) : Ctx :=
  { s.curCtx with p := p, exhausted := s.curCtx.exhausted || eSrcend (s.entry t), seq := s.curCtx.seq + 1 }

theorem exec_hwait : exec (.hwait t q a) s = .next
    (if (s.curCell.heddle.naming ((s.rd a 0).toNat % 256)).isEmpty
      then (s.unwatched t q).setPredOf s.cur.cell s.cur.elem s.cur.ctx q.val true
      else (s.unwatched t q).setHeddle s.cur.cell fun h =>
        { h with watches := h.watches ++ [⟨s.cur.elem, s.cur.ctx, q.val, s.curCell.heddle.naming ((s.rd a 0).toNat % 256)⟩] }) := rfl

include hp

theorem unwatched_spec : let z := s.unwatched t q
    z.placed ∧ z.cur = s.cur ∧ z.flights = s.flights ∧ Took s z 0 ∧ LeavesModule s z ∧ LeavesOthers s z ∧
    z.curCtx = s.endedWith t (s.entryPreds t (setPred s.curCtx.p q.val false)) := by
  have moves : Moves s.cur.cell s.cur.elem s.cur.ctx (fun k => { k with p := setPred k.p q.val false }) s (s.writePred q.val false) :=
    Moves.setCtx _ _ _ _ s hp.1 hp.2.1
  obtain ⟨module, others, ctx⟩ := endFiring_after t 0 hp moves rfl
  exact ⟨placed_endFiring t 0 (moves.placed hp (fun _ => rfl) fun _ => rfl), State.endFiring_cur .., State.endFiring_flights ..,
    endFiring_took t 0 hp moves rfl rfl, module, others, ctx⟩

/-- HWAIT for no command sets its predicate at the end of its cycle. -/
theorem hwait_none : let u := (s.unwatched t q).setPredOf s.cur.cell s.cur.elem s.cur.ctx q.val true
    u.flights = s.flights ∧ Took s u 0 ∧ LeavesModule s u ∧ (∀ e, e ≠ s.cur.elem → u.curCell.elem e = s.curCell.elem e) ∧
    u.curCtx = s.endedWith t (setPred (s.entryPreds t (setPred s.curCtx.p q.val false)) q.val true) ∧ u.curCell.heddle = s.curCell.heddle := by
  obtain ⟨placed, cur, flights, took, module, ⟨-, -, own, elems, -⟩, ctx⟩ := unwatched_spec t q hp
  generalize s.unwatched t q = z at *
  rw [← cur]
  have cell : (z.setPredOf z.cur.cell z.cur.elem z.cur.ctx q.val true).curCell = z.curCell.setElem z.cur.elem fun k =>
      k.setCtx z.cur.ctx fun k => { k with p := setPred k.p q.val true } := (z.cell_setElem _ _ _ _ placed.1).trans (if_pos rfl)
  have elem : (z.setPredOf z.cur.cell z.cur.elem z.cur.ctx q.val true).curElem = z.curElem.setCtx z.cur.ctx fun k =>
      { k with p := setPred k.p q.val true } := by
    rw [State.curElem, cell]
    exact (Cell.elem_setElem _ _ _ _).trans (if_pos ⟨rfl, placed.2.1⟩)
  refine ⟨flights, ?_, module, fun e he => ?_, ?_, ?_⟩
  · rw [Took, elem, cur]
    exact took
  · rw [cell, Cell.elem_setElem, if_neg fun h => he h.1.symm]
    exact elems e (cur ▸ he)
  · rw [State.curCtx, elem]
    refine ((Elem.ctx_setCtx z.curElem z.cur.ctx z.cur.ctx _).trans (if_pos ⟨rfl, placed.2.2.1⟩)).trans ?_
    rw [show z.curElem.ctx z.cur.ctx = _ from ctx]
    rfl
  · rw [cell, Cell.setElem, own]

/-- HWAIT for commands under way arms a watch on them. -/
theorem hwait_armed (w : HWatch) : let u := (s.unwatched t q).setHeddle s.cur.cell fun h => { h with watches := h.watches ++ [w] }
    u.flights = s.flights ∧ Took s u 0 ∧ LeavesModule s u ∧ (∀ e, e ≠ s.cur.elem → u.curCell.elem e = s.curCell.elem e) ∧
    u.curCtx = s.endedWith t (s.entryPreds t (setPred s.curCtx.p q.val false)) ∧
    u.curCell.heddle = { s.curCell.heddle with watches := s.curCell.heddle.watches ++ [w] } := by
  obtain ⟨placed, cur, flights, took, module, ⟨-, -, own, elems, -⟩, ctx⟩ := unwatched_spec t q hp
  generalize s.unwatched t q = z at *
  rw [← cur]
  have cell : (z.setHeddle z.cur.cell fun h => { h with watches := h.watches ++ [w] }).curCell =
      { z.curCell with heddle := { z.curCell.heddle with watches := z.curCell.heddle.watches ++ [w] } } :=
    (z.cell_setCell z.cur.cell z.cur.cell (fun k => { k with heddle := { k.heddle with watches := k.heddle.watches ++ [w] } })
      (fun _ => rfl) placed.1).trans (if_pos rfl)
  have elem (e : Nat) : (z.setHeddle z.cur.cell fun h => { h with watches := h.watches ++ [w] }).curCell.elem e = z.curCell.elem e := by
    rw [cell]
    rfl
  refine ⟨flights, ?_, module, fun e he => ?_, ?_, ?_⟩
  · rw [Took, State.curElem, elem, cur]
    exact took
  · rw [elem]
    exact elems e (cur ▸ he)
  · rw [State.curCtx, State.curElem, elem]
    exact ctx
  · rw [cell, own]

end

/-! CBDEC (R320). -/

/-- Counting an error changes neither the records of a die nor its grant (R88). -/
theorem die_countUncorr (s : State) (d j : Nat) : ((s.countUncorr d).die j).records = (s.die j).records ∧
    (s.countUncorr d).vPeriod j = s.vPeriod j := by
  have die : ((s.countUncorr d).die j).records = (s.die j).records ∧ ((s.countUncorr d).die j).grant = (s.die j).grant := by
    simp only [State.countUncorr, State.setDie, State.die, modifyAt, getD_modify]
    split <;> exact ⟨rfl, rfl⟩
  exact ⟨die.1, by rw [State.vPeriod, State.vPeriod, die.2]⟩

/-- A firing that meets an uncorrectable error counts it and takes a fault (R88, R376). -/
theorem takesFault_counted {i : Instr} {s : State} {d profile : Nat} {f : FaultInfo}
    (ran : exec i s = .next ((s.countUncorr d).takeFault profile f)) (hp : s.placed) (hd : dieOf s.cur.cell < s.dies.length) :
    TakesFault i s profile f := by
  let x := (s.countUncorr d).pushRecord s.cur.cell s.cur.elem s.cur.ctx s.cur.slot s.curOpcode 0 profile f
    (.firing s.cur.cell s.cur.elem s.cur.ctx s.cur.slot)
  have pushed : Moves s.cur.cell s.cur.elem s.cur.ctx id s x.2 := Moves.of_cells rfl rfl
  have held : Moves s.cur.cell s.cur.elem s.cur.ctx (fun k => { k with heldBy := k.heldBy ++ [s.nextId] }) s
      (x.2.hold s.cur.cell s.cur.elem s.cur.ctx s.nextId) :=
    pushed.trans (Moves.hold x.2 s.nextId (pushed.placed hp (fun _ => rfl) fun _ => rfl))
  have spent := held.trans (Moves.spend 0 (x.2.hold s.cur.cell s.cur.elem s.cur.ctx s.nextId) s.cur.ctx)
  have elem := spend_elem hp held 0
  have records : (x.2.die (dieOf s.cur.cell)).records = ((s.countUncorr d).die (dieOf s.cur.cell)).records ++ _ :=
    congrArg Die.records ((s.countUncorr d).die_setDie (dieOf s.cur.cell) _ (by simpa [State.countUncorr, State.setDie, modifyAt] using hd))
  rw [(die_countUncorr s d _).1] at records
  refine ⟨_, ran, _, records, rfl, rfl, rfl, rfl, rfl, rfl, spent.curCtx hp, spent.leavesOthers_of_mem rfl, ?_, rfl, rfl, rfl, ?_⟩
  · have ins : (x.2.hold s.cur.cell s.cur.elem s.cur.ctx s.nextId).curElem.ins = s.curElem.ins := ins_setCtx ..
    exact (congrArg Elem.ins elem).trans ins
  · have period : (x.2.hold s.cur.cell s.cur.elem s.cur.ctx s.nextId).vPeriod (dieOf s.cur.cell) = s.vPeriod (dieOf s.cur.cell) :=
      (vPeriod_pushRecord ..).trans (die_countUncorr s d _).2
    rw [period] at elem
    rw [Took, show ((s.countUncorr d).takeFault profile f).curElem = _ from elem]
    exact ⟨rfl, rfl, rfl⟩

/-- The codebook index of a lane (R320). -/
def cbIndex (src : Lanes) (l : Nat) : Nat := bits (lane src (l / 2)).toNat (16 * (l % 2) + 15) (16 * (l % 2))

theorem cbIndex_eq (src : Lanes) (l : Nat) : cbIndex src l = (lane src (l / 2)).toNat / 2 ^ (16 * (l % 2)) % 65536 := by
  rw [cbIndex, bits, show 16 * (l % 2) + 15 + 1 - 16 * (l % 2) = 16 by omega]
  rfl

/-- A soft error stands in a word of the codebook that a firing of CBDEC reads (R87). -/
def State.cbdecReads (s : State) (a : Src) (u : Upset) : Bool :=
  u.place == .codebook s.cur.cell && (lanesOf s.m0).any fun l => cbIndex (s.src a) l / 256 / 2 == u.addr / 8

theorem exec_cbdec (s : State) (t : Fin 64) (d : Dst) (a : Src) : exec (.cbdec t d a) s = .next
    (if s.upsets.any fun u => u.double && s.cbdecReads a u then
      (s.countUncorr (dieOf s.cur.cell)).takeFault 0 (mkFault fUncorrectable 0 s.firingLanes 0)
    else ((s.correctSingles (dieOf s.cur.cell) (s.cbdecReads a)).put t d fun l =>
      cbDecode (s.curCell.codebook.getD (cbIndex (s.src a) l / 256) 0).toNat (cbIndex (s.src a) l % 256)).endFiring t 1) := rfl

/-- R311, R320: HWAIT and CBDEC. -/
theorem hwaitAndCbdecResults : HwaitAndCbdecResults := by
  intro s t q d a hp mask awaited cleared ended
  have index (l : Nat) : cbIndex (s.src a) l = (s.rd a (l / 2)).toNat / 2 ^ (16 * (l % 2)) % 65536 := cbIndex_eq _ l
  refine ⟨?_, fun clean => ?_, fun x hx double place ⟨l, hl, met⟩ die => ?_⟩
  · have named : s.curCell.heddle.naming mask = awaited := awaited_eq _ _
    have ran := exec_hwait (s := s) t q a
    rw [show s.curCell.heddle.naming ((s.rd a 0).toNat % 256) = awaited from named] at ran
    by_cases none : awaited = []
    · obtain ⟨flights, took, module, elems, ctx, heddle⟩ := hwait_none t q hp
      rw [if_pos (by rw [none]; rfl)] at ran
      exact ⟨_, ran, flights, took, module, elems, fun _ => ⟨ctx, heddle⟩, fun some => absurd none some⟩
    · obtain ⟨flights, took, module, elems, ctx, heddle⟩ := hwait_armed t q hp ⟨s.cur.elem, s.cur.ctx, q.val, awaited⟩
      rw [if_neg (by simpa using none)] at ran
      exact ⟨_, ran, flights, took, module, elems, fun empty => absurd empty none, fun _ => ⟨ctx, heddle⟩⟩
  · have unread : ∀ u ∈ s.upsets, s.cbdecReads a u = false := fun u hu => by
      rw [State.cbdecReads, beq_eq_false_iff_ne.2 (clean u hu), Bool.false_and]
    have ran := exec_cbdec s t d a
    rw [if_neg, correctSingles_none unread] at ran
    · simp only [index] at ran
      exact computes32_put ran hp
    · simp only [List.any_eq_true, not_exists, not_and]
      exact fun u hu met => by simp [unread u hu] at met
  · have ran := exec_cbdec s t d a
    rw [if_pos] at ran
    · exact takesFault_counted ran hp die
    · refine List.any_eq_true.2 ⟨x, hx, ?_⟩
      rw [double, State.cbdecReads, place, Bool.true_and, beq_self_eq_true, Bool.true_and]
      refine List.any_eq_true.2 ⟨l, hl, ?_⟩
      rw [index, Nat.div_div_eq_div_mul, beq_iff_eq]
      exact met

/-- Settles O40: commands at their firing, the ranges of their fields, HWAIT and CBDEC. -/
theorem heddleInstructions : Obligations.HeddleInstructions :=
  ⟨heddleCommandsEnter, heddleFieldRanges, hwaitAndCbdecResults⟩

end Sys2Proof.Machine
end


section
/-! # Quiescence and the images of a DRAFTLD (O51, R111, R184 to R186, R222, R257) -/

namespace Sys2Proof.Machine
open Sys2Proof

/-! Quiescence. -/

/-- A record that is found stays where the others that are named alike change with it. -/
theorem find_updateWhere_self {α : Type} {p : α → Bool} {f : α → α} {xs : List α} {x : α} (kept : ∀ y, p (f y) = p y)
    (found : xs.find? p = some x) : (updateWhere p f xs).find? p = some (f x) := by
  have here : p x = true := List.find?_some found
  have same : (p ∘ fun y => if p y = true then f y else y) = p := by
    funext y
    simp only [Function.comp]
    split
    · exact kept y
    · rfl
  rw [updateWhere, List.find?_map, same, found, Option.map_some, if_pos here]

theorem quiescent_iff (s : State) (r : Region) : s.quiescent r = true ↔
    s.regionCensus r = 0 ∧ (∀ c ∈ r.cells, (s.cell c).sourcesDone = true ∧ (s.cell c).running = true) ∧
      s.channelsEmpty r.cells = true ∧ s.nothingOutstanding r.cells = true ∧ s.nothingEligible r.cells = true := by
  simp only [State.quiescent, Bool.and_eq_true, beq_iff_eq, List.all_eq_true, and_assoc]

/-- A region that has reported quiescence, in its configuration period (R185, R186). -/
def Region.quieted (r : Region) : Region := { r with reported := true, period := true }

theorem quiescence : Quiescence := by
  intro s r found
  refine ⟨fun waits => ?_, fun new going quiet => ⟨s.setRegion r.die r.index Region.quieted, ?_, rfl,
    find_updateWhere_self (f := Region.quieted) (fun _ => rfl) found⟩, quiescent_iff s r⟩
  · have stays : (r.reported || r.stopping || !s.quiescent r) = true := by simpa [or_assoc] using waits
    simp only [exec, execQuiescenceReport, found, if_pos stays]
  · have reports : (r.reported || r.stopping || !s.quiescent r) = false := by simp [new, going, quiet]
    simp only [exec, execQuiescenceReport, found, reports, Bool.false_eq_true, if_false]
    rfl

/-! A cell put in the place of another. -/

theorem setCell_const {c : Nat} {k : Cell} (id : k.id = c) (s : State) :
    s.setCell c (fun _ => k) = s.setCell c fun j => { k with id := j.id } := by
  refine congrArg (fun ks => { s with cells := ks }) (List.map_congr_left fun j _ => ?_)
  by_cases here : j.id = c
  · simp [here, ← id]
  · simp [here]

theorem id_cell (s : State) (c : Nat) : (s.cell c).id = c := by
  rw [State.cell]
  cases found : s.cells.find? (·.id == c) with
  | none => rfl
  | some k => simpa using List.find?_some found

theorem cell_setCell_const {s : State} {c : Nat} {k : Cell} (id : k.id = c) (loaded : s.loaded c = true) (d : Nat) :
    (s.setCell c fun _ => k).cell d = if d = c then k else s.cell d := by
  rw [setCell_const id, State.cell_setCell s c d (fun j => { k with id := j.id }) (fun _ => rfl) loaded]
  by_cases here : d = c
  · subst here
    simp only [if_true, id_cell, ← id]
  · simp [here]

/-! The end of an access without a result (R115). -/

/-- A context whose arc is set when an access leaves, where it was not told before (R115). -/
def Access.settledCtx (a : Access) (k : Ctx) : Ctx := { k with p := if a.told then k.p else arcSet a.profile k.p }

theorem arcCtx_preds (prof : Nat) (k : Ctx) : arcCtx (arcOf prof) k = { k with p := arcSet prof k.p } := by
  simp only [arcCtx, arcSet]
  cases arcOf prof <;> rfl

/-- What the end of an access without a result does: the access is gone, its arc is set, and the rest stays (R115). -/
theorem finish_none {s : State} {a : Access} (res : a.res = .none) (place : s.hasCtx a.cell a.elem a.ctx) :
    (s.finish a).draftlds = s.draftlds ∧ (s.finish a).acc? a.id = none ∧ (s.finish a).dies = s.dies ∧
      (s.finish a).ctxOf a.cell a.elem a.ctx = a.settledCtx (s.ctxOf a.cell a.elem a.ctx) ∧
      LeavesContexts s (s.finish a) a.cell a.elem a.ctx := by
  have ends : s.finish a = let w := (s.dropAcc a.id).reissue s a.cell a.elem a.ctx
      if a.told then w else w.setArc a.cell a.elem a.ctx (arcOf a.profile) := by
    simp only [State.finish, State.writeResult, res, if_true]
  have gone := acc_dropAcc_reissue s s a.id a.cell a.elem a.ctx
  rw [ends]
  dsimp only
  cases told : a.told with
  | true => exact ⟨rfl, gone, rfl, by simp [Access.settledCtx, told, State.reissue, State.dropAcc, State.ctxOf, State.cell],
      fun _ _ => rfl, rfl, fun _ _ => rfl, rfl, fun _ _ => rfl⟩
  | false =>
    have same := cells_of_setArc ((s.dropAcc a.id).reissue s a.cell a.elem a.ctx) a.cell a.elem a.ctx (arcOf a.profile)
    simp only [Bool.false_eq_true, if_false]
    refine ⟨by rw [same]; rfl, by rw [same]; exact gone, by rw [same]; rfl, ?_, leavesContexts_setArc (s := (s.dropAcc a.id).reissue s a.cell a.elem a.ctx) _ place.1 place.2.1⟩
    rw [ctxOf_setArc (s := (s.dropAcc a.id).reissue s a.cell a.elem a.ctx) _ place, arcCtx_preds, Access.settledCtx, told]
    rfl

/-! One image. -/

theorem imageRead_single {k : DraftLd} {a : Access} {l va target : Nat} (lanes : k.lanes = [(l, va, target)]) :
    imageRead k a va = (a.parts.take 392).flatMap fun p => sliceBytes p.bound 0 8 := by
  have first : ((k.lanes.map (·.2.1)).eraseDups.takeWhile (· != va)).length = 0 := by
    simp [lanes, List.eraseDups_cons]
  simp only [imageRead, first, imageLen, Nat.mul_zero, List.drop_zero]

/-- What a decided image leaves of a cell that it is not for, and of one in a region that it is for: all but the shadow store (R257). -/
structure SparesCell (s u : State) (c : Nat) : Prop where
  loaded : u.loaded c = s.loaded c
  cell : u.cell c = { s.cell c with shadow := (u.cell c).shadow }

theorem SparesCell.hasCtx {s u : State} {c e x : Nat} (h : SparesCell s u c) (place : s.hasCtx c e x) :
    u.hasCtx c e x ∧ u.ctxOf c e x = s.ctxOf c e x := by
  have ctx : u.ctxOf c e x = s.ctxOf c e x := by rw [State.ctxOf, h.cell]; rfl
  refine ⟨⟨h.loaded.trans place.1, ?_, ?_, ctx ▸ place.2.2.2.1, ctx ▸ place.2.2.2.2⟩, ctx⟩
  · rw [h.cell]; exact place.2.1
  · rw [h.cell]; exact place.2.2.1

theorem cell_of_unloaded {s : State} {c : Nat} (h : s.loaded c = false) : s.cell c = Cell.blank c := by
  have absent : s.cells.find? (·.id == c) = none := by
    rw [List.find?_eq_none]
    simpa [State.loaded] using h
  rw [State.cell, absent]; rfl

/-- A cell with another shadow store. -/
def Cell.withShadow (sh : Option Shadow) (k : Cell) : Cell := { k with shadow := sh }

/-- The shadow store of a cell is set, or emptied (R257). -/
def State.setShadow (s : State) (target : Nat) (sh : Option Shadow) : State := s.setCell target (Cell.withShadow sh)

theorem cell_setShadow {s : State} {target : Nat} {sh : Option Shadow} (h : s.loaded target = true ∨ sh = none) :
    (s.setShadow target sh).cell target = (s.cell target).withShadow sh := by
  cases loaded : s.loaded target with
  | true => rw [State.setShadow, State.cell_setCell s target target (Cell.withShadow sh) (fun _ => rfl) loaded, if_pos rfl]
  | false =>
    have still := (State.loaded_setCell s target target (Cell.withShadow sh) fun _ => rfl).trans loaded
    rw [State.setShadow, cell_of_unloaded loaded, cell_of_unloaded still, h.resolve_left (by simp [loaded])]
    rfl

theorem SparesCell.setShadow (s : State) (target c : Nat) (sh : Option Shadow) : SparesCell s (s.setShadow target sh) c where
  loaded := State.loaded_setCell s target c _ fun _ => rfl
  cell := by
    by_cases here : c = target
    · subst here
      cases loaded : s.loaded c with
      | true =>
        rw [cell_setShadow (.inl loaded)]
        rfl
      | false =>
        have still := (State.loaded_setCell s c c (Cell.withShadow sh) fun _ => rfl).trans loaded
        rw [State.setShadow, cell_of_unloaded loaded, cell_of_unloaded still]
    · rw [State.setShadow, State.cell_setCell_ne s target c (Cell.withShadow sh) (fun _ => rfl) here]

theorem find_of_loaded {s : State} {c : Nat} (h : s.loaded c = true) : s.cells.find? (·.id == c) = some (s.cell c) := by
  cases found : s.cells.find? (·.id == c) with
  | none =>
    rw [List.find?_eq_none] at found
    simp only [State.loaded, List.any_eq_true] at h
    obtain ⟨k, hk, here⟩ := h
    exact absurd here (found k hk)
  | some k => rw [State.cell, found, Option.getD_some]

/-- A valid image goes to the shadow store of a target in a region (R257). -/
theorem acceptDraft_seated {s : State} {target : Nat} (seat : (s.cell target).seat ≠ none) (asid va : Nat) (bs : List Nat) :
    s.acceptDraft target asid va bs = s.setShadow target (some ⟨parseDraft bs, va, asid⟩) := by
  have loaded : s.loaded target = true := by
    by_contra h
    exact seat (by rw [cell_of_unloaded (by simpa using h)]; rfl)
  simp only [State.acceptDraft, find_of_loaded loaded, if_pos (Option.isSome_iff_ne_none.2 seat)]
  rfl

theorem id_freshCell (c : Nat) (d : Draft) (n : Nat) : (freshCell c d n).id = c := rfl

/-- A valid image is the draft at once of a target in no region (R257). -/
theorem acceptDraft_free {s : State} {target : Nat} (free : s.loaded target = false ∨ (s.cell target).seat = none) (asid va : Nat)
    (bs : List Nat) : (s.acceptDraft target asid va bs).cell target = freshCell target (parseDraft bs) 0 ∧
      ∀ c, c ≠ target → SparesCell s (s.acceptDraft target asid va bs) c := by
  cases loaded : s.loaded target with
  | true =>
    have seat : (s.cell target).seat.isSome = false := by simp [free.resolve_left (by simp [loaded])]
    simp only [State.acceptDraft, find_of_loaded loaded, seat, Bool.false_eq_true, if_false]
    have cells := cell_setCell_const (id_freshCell target (parseDraft bs) 0) loaded
    refine ⟨(cells target).trans (if_pos rfl), fun c other => ⟨?_, ?_⟩⟩
    · rw [setCell_const (id_freshCell target (parseDraft bs) 0)]
      exact State.loaded_setCell s target c (fun j => { freshCell target (parseDraft bs) 0 with id := j.id }) fun _ => rfl
    · rw [cells c, if_neg other]
  | false =>
    have absent : s.cells.find? (·.id == target) = none := by
      rw [List.find?_eq_none]
      simpa [State.loaded] using loaded
    simp only [State.acceptDraft, absent]
    refine ⟨?_, fun c other => ⟨?_, ?_⟩⟩
    · rw [State.cell, List.find?_append, absent]
      simp [id_freshCell]
    · simp [State.loaded, id_freshCell, Ne.symm other]
    · have same : State.cell { s with cells := s.cells ++ [freshCell target (parseDraft bs) 0] } c = s.cell c := by
        rw [State.cell, List.find?_append, State.cell]
        simp [id_freshCell, Ne.symm other]
      rw [same]

/-! The decision of a DRAFTLD with one lane (R257). -/

section
variable {s : State} {k : DraftLd} {a : Access} {l va target : Nat}

theorem execDraftld_unbound (found : s.draftlds.find? (·.id == k.id) = some k) (access : s.acc? k.id = some a) (waits : a.done = false) :
    exec (.draftldValidation k.id) s = .next s := by
  simp only [exec, execDraftldValidation, found, access, waits, Bool.not_false, if_true]

/-- The DRAFTLD has been decided: it leaves the list. -/
def State.dropDraftld (s : State) (id : Nat) : State := { s with draftlds := s.draftlds.filter (·.id != id) }

theorem cell_dropDraftld (s : State) (id c : Nat) : (s.dropDraftld id).cell c = s.cell c := rfl

/-- The record of a rejected image (R257, R375). -/
def State.rejectDraft (s : State) (k : DraftLd) (l addr : Nat) : State :=
  let pushed := s.pushRecord k.cell k.elem k.ctx k.slot 0x2C 4 k.profile (0x0A, 0, 2 ^ l, addr) (.done k.cell k.elem k.ctx)
  pushed.2.hold k.cell k.elem k.ctx pushed.1

variable (found : s.draftlds.find? (·.id == k.id) = some k) (access : s.acc? k.id = some a) (bound : a.done = true)
  (lanes : k.lanes = [(l, va, target)])
include found access bound lanes

theorem execDraftld_valid (valid : imageFault (imageRead k a va) = none) : exec (.draftldValidation k.id) s =
    .next (((s.acceptDraft target k.asid va (imageRead k a va)).dropDraftld k.id).finish a) := by
  simp only [exec, execDraftldValidation, found, access, bound, Bool.not_true, Bool.false_eq_true, if_false, State.decideDrafts, lanes,
    List.foldl_cons, List.foldl_nil, valid, State.dropDraftld]

theorem execDraftld_rejected {o : Nat} (bad : imageFault (imageRead k a va) = some o) : exec (.draftldValidation k.id) s =
    .next ((((s.setShadow target none).dropDraftld k.id).rejectDraft k l ((va + o) % 2 ^ 64)).finish a) := by
  simp only [exec, execDraftldValidation, found, access, bound, Bool.not_true, Bool.false_eq_true, if_false, State.decideDrafts, lanes,
    List.foldl_cons, List.foldl_nil, bad, List.nil_append, List.map_cons, List.map_nil, laneMark]
  rw [show Nat.lor 0 (2 ^ l) = 2 ^ l from Nat.zero_or _]
  rfl

end

/-- The facts of `LeavesContexts` about a cell's shadow store and draft. -/
theorem LeavesContexts.store {s u : State} {c e x : Nat} (h : LeavesContexts s u c e x) (t : Nat) :
    (u.cell t).shadow = (s.cell t).shadow ∧ (u.cell t).draft = (s.cell t).draft := by
  obtain ⟨others, own, -⟩ := h
  by_cases here : t = c
  · subst here
    rw [own]
    exact ⟨rfl, rfl⟩
  · rw [others t here]
    exact ⟨rfl, rfl⟩

/-- A rejected image holds its context with the record pushed, and leaves the rest (R257, R375). -/
theorem rejectDraft_spec {s : State} {k : DraftLd} (l addr : Nat) (place : s.hasCtx k.cell k.elem k.ctx) :
    (s.rejectDraft k l addr).dies =
        (s.pushRecord k.cell k.elem k.ctx k.slot 0x2C 4 k.profile (0x0A, 0, 2 ^ l, addr) (.done k.cell k.elem k.ctx)).2.dies ∧
      (s.rejectDraft k l addr).draftlds = s.draftlds ∧ (s.rejectDraft k l addr).hasCtx k.cell k.elem k.ctx ∧
      (s.rejectDraft k l addr).ctxOf k.cell k.elem k.ctx =
        { s.ctxOf k.cell k.elem k.ctx with heldBy := (s.ctxOf k.cell k.elem k.ctx).heldBy ++ [s.nextId] } ∧
      LeavesContexts s (s.rejectDraft k l addr) k.cell k.elem k.ctx := by
  let pushed := (s.pushRecord k.cell k.elem k.ctx k.slot 0x2C 4 k.profile (0x0A, 0, 2 ^ l, addr) (.done k.cell k.elem k.ctx)).2
  have moves := Moves.setCtx k.cell k.elem k.ctx (fun y => { y with heldBy := y.heldBy ++ [s.nextId] }) pushed place.1 place.2.1
  obtain ⟨loaded, he, hx⟩ := moves.hasCtx_bounds ⟨place.1, place.2.1, place.2.2.1⟩
  have ctx := moves.ctx place.2.2.1
  refine ⟨rfl, rfl, ⟨loaded, he, hx, ?_, ?_⟩, ctx, leavesContexts_setCtx (s := pushed) _ place.1 place.2.1⟩
  · exact (congrArg (·.v.length) ctx).trans place.2.2.2.1
  · exact (congrArg (·.m.length) ctx).trans place.2.2.2.2

theorem draftsDecided : DraftsDecided := by
  intro s k a found access id at_ profile res
  refine ⟨execDraftld_unbound found access, fun l va target bound place lanes seated => ?_⟩
  obtain ⟨cell, elem, ctx⟩ : a.cell = k.cell ∧ a.elem = k.elem ∧ a.ctx = k.ctx := by simpa using at_
  dsimp only
  rw [← imageRead_single lanes]
  refine ⟨fun valid => ⟨_, execDraftld_valid found access bound lanes valid, ?_⟩,
    fun o bad hd => ⟨_, execDraftld_rejected found access bound lanes bad, ?_⟩⟩
  · have spares : SparesCell s (s.acceptDraft target k.asid va (imageRead k a va)) k.cell := by
      by_cases free : s.loaded target = false ∨ (s.cell target).seat = none
      · refine (acceptDraft_free free k.asid va (imageRead k a va)).2 k.cell fun same => ?_
        subst same
        exact free.elim (by simp [place.1]) (seated rfl)
      · rw [acceptDraft_seated (not_or.1 free).2]
        exact SparesCell.setShadow ..
    obtain ⟨placed, same⟩ := spares.hasCtx place
    obtain ⟨draftlds, gone, -, after, leaves⟩ := finish_none (a := a)
      (s := (s.acceptDraft target k.asid va (imageRead k a va)).dropDraftld k.id) res (by rw [cell, elem, ctx]; exact placed)
    rw [cell, elem, ctx] at after leaves
    obtain ⟨shadow, draft⟩ := leaves.store target
    refine ⟨draftlds.trans ?_, id ▸ gone, after.trans ?_, fun free => ?_, fun seat => ?_⟩
    · simp only [State.dropDraftld, State.acceptDraft]
      split
      · split <;> rfl
      · rfl
    · rw [Access.settledCtx, profile]
      exact congrArg (fun y : Ctx => { y with p := if a.told then y.p else arcSet k.profile y.p }) same
    · have elsewhere : target ≠ k.cell := by
        rintro rfl
        exact free.elim (by simp [place.1]) (seated rfl)
      exact (leaves.1 target elsewhere).trans (acceptDraft_free free k.asid va (imageRead k a va)).1
    · have loaded : s.loaded target = true := by
        by_contra h
        exact seat (by rw [cell_of_unloaded (by simpa using h)]; rfl)
      rw [shadow, draft]
      rw [cell_dropDraftld, acceptDraft_seated seat]
      rw [cell_setShadow (.inl loaded)]
      exact ⟨rfl, rfl⟩
  · obtain ⟨placed, same⟩ := (SparesCell.setShadow s target k.cell none).hasCtx place
    obtain ⟨dies, lists, placed', held, leaves'⟩ := rejectDraft_spec (k := k) l ((va + o) % 2 ^ 64)
      (s := (s.setShadow target none).dropDraftld k.id) placed
    obtain ⟨draftlds, gone, dies', after, leaves⟩ := finish_none (a := a)
      (s := ((s.setShadow target none).dropDraftld k.id).rejectDraft k l ((va + o) % 2 ^ 64)) res (by rw [cell, elem, ctx]; exact placed')
    rw [cell, elem, ctx] at after leaves
    obtain ⟨shadow, draft⟩ := leaves.store target
    obtain ⟨shadow', draft'⟩ := leaves'.store target
    rw [cell_dropDraftld, cell_setShadow (.inr rfl)] at shadow' draft'
    refine ⟨draftlds.trans lists, id ▸ gone, shadow.trans shadow', draft.trans draft', s.nextId, ?_, ?_⟩
    · exact Raised.of_same (w := (s.setShadow target none).dropDraftld k.id) rfl
        (by rw [cell_dropDraftld, (SparesCell.setShadow s target k.cell none).cell]) rfl (raised_pushed _ _ hd (dies'.trans dies))
    · rw [after, held, Access.settledCtx, profile]
      exact congrArg (fun y : Ctx => { y with p := if a.told then y.p else arcSet k.profile y.p, heldBy := y.heldBy ++ [s.nextId] }) same

end Sys2Proof.Machine
end


section
/-! # The switch of drafts (O51, R61, R163, R258, R387) -/

namespace Sys2Proof.Machine
open Sys2Proof

/-- A copy that leaves the directory changes nothing else (R95). -/
theorem dirDrop_frame (s : State) (agent line : Nat) : s.dirDrop agent line = { s with dir := (s.dirDrop agent line).dir } := by
  simp only [State.dirDrop, State.setGroupLine]
  split
  · rfl
  · split
    · rfl
    · split <;> rfl
    · rfl

/-- What a change of copies, banks and reservations leaves of a cell: its drafts, its heddle state and its contexts (R61, R163). -/
def Cell.core (k : Cell) : Draft × Option Shadow × Heddle × List (List Ctx) := (k.draft, k.shadow, k.heddle, k.elems.map (·.ctxs))

/-- Copies, banks, reservations and accesses may change; drafts, contexts and regions stay. -/
structure SparesContexts (s u : State) : Prop where
  core : ∀ c, (u.cell c).core = (s.cell c).core
  loaded : ∀ c, u.loaded c = s.loaded c
  regions : u.regions = s.regions
  cur : u.cur = s.cur

theorem Cell.core_setElem (k : Cell) (e : Nat) {f : Elem → Elem} (h : ∀ x, (f x).ctxs = x.ctxs) : (k.setElem e f).core = k.core := by
  have ctxs : (k.setElem e f).elems.map (·.ctxs) = k.elems.map (·.ctxs) := by
    refine List.ext_getElem (by simp [Cell.setElem, modifyAt]) fun i _ _ => ?_
    simp only [List.getElem_map, Cell.setElem, modifyAt, List.getElem_modify]
    split
    · exact h _
    · rfl
  simp only [Cell.core, ctxs]
  rfl

theorem Cell.ctxs_of_core {k j : Cell} (h : k.core = j.core) :
    k.elems.length = j.elems.length ∧ ∀ e, (k.elem e).ctxs = (j.elem e).ctxs := by
  have ctxs : k.elems.map (·.ctxs) = j.elems.map (·.ctxs) := congrArg (·.2.2.2) h
  refine ⟨by simpa using congrArg List.length ctxs, fun e => ?_⟩
  have at_ : ∀ k : Cell, (k.elem e).ctxs = (k.elems.map (·.ctxs)).getD e Elem.blank.ctxs := fun k => (List.getD_map ..).symm
  rw [at_, at_, ctxs]

namespace SparesContexts
variable {s u w : State}

theorem refl (s : State) : SparesContexts s s := ⟨fun _ => rfl, fun _ => rfl, rfl, rfl⟩

theorem trans (h : SparesContexts s u) (k : SparesContexts u w) : SparesContexts s w :=
  ⟨fun c => (k.core c).trans (h.core c), fun c => (k.loaded c).trans (h.loaded c), k.regions.trans h.regions, k.cur.trans h.cur⟩

theorem foldl {α : Type} {f : State → α → State} (h : ∀ s x, SparesContexts s (f s x)) (xs : List α) (s : State) :
    SparesContexts s (xs.foldl f s) := by
  induction xs generalizing s with
  | nil => exact refl s
  | cons x xs ih => exact (h s x).trans (ih _)

theorem setCell (s : State) (c : Nat) {f : Cell → Cell} (id : ∀ k, (f k).id = k.id) (core : ∀ k, (f k).core = k.core) :
    SparesContexts s (s.setCell c f) :=
  ⟨fun d => State.cell_setCell_same Cell.core s c d f id core, fun d => State.loaded_setCell s c d f id, rfl, rfl⟩

theorem setElem (s : State) (c e : Nat) {f : Elem → Elem} (h : ∀ x, (f x).ctxs = x.ctxs) : SparesContexts s (s.setElem c e f) :=
  setCell s c (fun _ => rfl) fun k => k.core_setElem e h

theorem of_cells (cells : u.cells = s.cells) (regions : u.regions = s.regions) (cur : u.cur = s.cur) : SparesContexts s u :=
  ⟨fun c => by rw [State.cell, cells, State.cell], fun c => by rw [State.loaded, cells, State.loaded], regions, cur⟩

theorem withUpsets (s : State) (us : List Upset) : SparesContexts s { s with upsets := us } := of_cells rfl rfl rfl
theorem withGrants (s : State) (gs : List GrantReq) : SparesContexts s { s with grants := gs } := of_cells rfl rfl rfl

/-- The contexts of a cell are as before. -/
theorem ctxs (h : SparesContexts s u) (c : Nat) : (u.cell c).elems.length = (s.cell c).elems.length ∧
    ∀ e, ((u.cell c).elem e).ctxs = ((s.cell c).elem e).ctxs := Cell.ctxs_of_core (h.core c)

/-! The copies of a cell (R61, R62). -/

theorem writeBytes (s : State) (l : CchLine) (mask : Nat) : SparesContexts s (s.writeBytes l mask) := by
  rw [State.writeBytes]
  split
  · exact refl s
  · exact of_cells rfl rfl rfl

theorem writeDescs (s : State) (l : CchLine) (blocks : Nat) : SparesContexts s (s.writeDescs l blocks) := by
  refine foldl (fun s b => ?_) _ s
  split
  · exact of_cells rfl rfl rfl
  · exact refl s

theorem dropCopy (s : State) (agent line : Nat) : SparesContexts s (s.dropCopy agent line) := by
  rw [State.dropCopy]
  split
  · exact of_cells rfl rfl rfl
  · exact setCell s agent (fun _ => rfl) fun _ => rfl

theorem dirDrop (s : State) (agent line : Nat) : SparesContexts s (s.dirDrop agent line) := by
  rw [dirDrop_frame]
  exact of_cells rfl rfl rfl

theorem evictLine (s : State) (agent line : Nat) : SparesContexts s (s.evictLine agent line) := by
  rw [State.evictLine]
  split
  · exact refl s
  · next l _ =>
    have written := (writeBytes s l l.dirty).trans (writeDescs _ l 3)
    have carried : SparesContexts s (((s.writeBytes l l.dirty).writeDescs l 3).carryErrors agent l) := written.trans (of_cells rfl rfl rfl)
    have merged := (carried.trans (dropCopy _ agent line)).trans
      (w := ((((s.writeBytes l l.dirty).writeDescs l 3).carryErrors agent l).dropCopy agent line).merged agent line (2 ^ 128 - 1))
      (of_cells rfl rfl rfl)
    dsimp only
    split
    · exact merged.trans (dirDrop _ agent line)
    · exact merged

theorem changeRoles (s : State) (c new : Nat) : SparesContexts s (s.changeRoles c new) := by
  rw [State.changeRoles]
  dsimp only
  have evicted (ls : List CchLine) : SparesContexts s (ls.foldl (fun s l => s.evictLine c l.pa) s) := foldl (fun s l => evictLine s c l.pa) ls s
  refine ((evicted _).trans (setCell _ c ?_ ?_)).trans (withUpsets _ _) <;> exact fun _ => rfl

/-! The reservations of a cell (R177). -/

theorem giveBack (s : State) (t : Target) (n : Nat) : SparesContexts s (s.giveBack t n) := by
  cases t with
  | chan c e k => exact setElem s c e fun _ => rfl
  | queue l st => exact of_cells rfl rfl rfl

theorem dropOuts (s : State) (c : Nat) : SparesContexts s (s.dropOuts c) := by
  rw [State.dropOuts]
  dsimp only
  refine trans (trans (foldl (fun s i => ?_) _ s) (withGrants _ _)) (setCell _ c (fun _ => rfl) fun k => ?_)
  · split
    · exact giveBack s _ 1
    · exact refl s
  · simp only [Cell.core, List.map_map]
    rfl

theorem requestOut (s : State) (c e n : Nat) : SparesContexts s (s.requestOut c e n) := by
  rw [State.requestOut]
  split
  · exact (setElem s c e (f := fun k => { k with outs := k.outs.set n .requested }) fun _ => rfl).trans (of_cells rfl rfl rfl)
  · exact setElem s c e fun _ => rfl

theorem requestAll (s : State) (c : Nat) : SparesContexts s (s.requestAll c) := by
  refine foldl (fun s i => ?_) _ s
  dsimp only
  split
  · exact refl s
  · exact requestOut s c _ _

end SparesContexts

/-! The commit in one cell (R61, R163). -/

/-- An element of a cell that has switched to a draft (R61, R163). -/
def Draft.enter (d : Draft) (e : Nat) (k : Elem) : Elem :=
  { mapCtxs (fun x k => { k with p := d.init e x, exhausted := false }) k with lastFired := 3 }

/-- A cell that has switched to a draft (R61, R163). -/
def Cell.switched (d : Draft) (k : Cell) : Cell :=
  { k with draft := d, shadow := none, elems := (k.elems.zip (List.range 4)).map fun p => d.enter p.2 p.1 }

theorem Draft.ctx_enter (d : Draft) (e x : Nat) (k : Elem) (h : k.ctxs.length = 4) (hx : x < 4) :
    (d.enter e k).ctx x = { k.ctx x with p := d.init e x, exhausted := false } := by
  have here : x < k.ctxs.length := h ▸ hx
  simp [Draft.enter, mapCtxs, Elem.ctx, List.getD_eq_getElem?_getD, here, hx]

theorem Cell.ctx_switched (d : Draft) (k : Cell) {e x : Nat} (elems : k.elems.length = 4) (he : e < 4)
    (ctxs : (k.elem e).ctxs.length = 4) (hx : x < 4) :
    (k.switched d).ctx e x = { k.ctx e x with p := d.init e x, exhausted := false } := by
  have here : e < k.elems.length := elems ▸ he
  have elem : (k.switched d).elem e = d.enter e (k.elem e) := by
    simp [Cell.switched, Cell.elem, List.getD_eq_getElem?_getD, here, he]
  rw [Cell.ctx, elem, d.ctx_enter e x _ ctxs hx, Cell.ctx]

/-- What the commit of a shadow store leaves (R61, R163, R258). -/
theorem switchDraft_spec {s : State} {t : Nat} {sh : Shadow} (shadow : (s.cell t).shadow = some sh) :
    ∃ w, SparesContexts s w ∧ SparesContexts (w.setCell t (Cell.switched sh.draft)) (s.switchDraft t) := by
  simp only [State.switchDraft, shadow]
  refine ⟨_, ((SparesContexts.dropOuts s t).trans (SparesContexts.changeRoles _ t _)).trans (SparesContexts.withUpsets _ _),
    SparesContexts.requestAll _ t⟩

/-! The end of the configuration period (R186). -/

/-- The region of a number is outside its configuration period and has not reported quiescence (R185, R186). -/
def State.resumed (s : State) (die index : Nat) : Prop :=
  ∃ q, s.regions.find? (fun y => y.die == die && y.index == index) = some q ∧ q.period = false ∧ q.reported = false

/-- Marks of regions that end no report and begin no period. -/
structure Restarts (f : Region → Region) : Prop where
  key : ∀ r, (f r).die = r.die ∧ (f r).index = r.index
  period : ∀ r, (f r).period = r.period
  reported : ∀ r, r.reported = false → (f r).reported = false

namespace State.resumed
variable {s u : State} {die index : Nat}

theorem of_regions (h : s.resumed die index) (same : u.regions = s.regions) : u.resumed die index := by
  rw [State.resumed, same]
  exact h

theorem mark (h : s.resumed die index) {p : Region → Bool} {f : Region → Region} (restarts : Restarts f)
    (marked : u.regions = updateWhere p f s.regions) : u.resumed die index := by
  obtain ⟨q, found, period, reported⟩ := h
  have key : ((fun y : Region => y.die == die && y.index == index) ∘ fun r => if p r = true then f r else r) =
      fun y => y.die == die && y.index == index := by
    funext r
    simp only [Function.comp]
    split
    · rw [(restarts.key r).1, (restarts.key r).2]
    · rfl
  refine ⟨if p q = true then f q else q, ?_, ?_, ?_⟩
  · rw [marked, updateWhere, List.find?_map, key, found]
    rfl
  · split
    · rw [restarts.period, period]
    · exact period
  · split
    · exact restarts.reported q reported
    · exact reported

theorem touch (h : s.resumed die index) (c : Nat) : (s.touch c).resumed die index :=
  h.mark (f := fun r => { r with reported := false, idle := 0, idleSince := s.time })
    ⟨fun _ => ⟨rfl, rfl⟩, fun _ => rfl, fun _ _ => rfl⟩ rfl

theorem stir (h : s.resumed die index) (c : Nat) : (s.stir c).resumed die index :=
  h.mark (f := fun r => { r with reported := false }) ⟨fun _ => ⟨rfl, rfl⟩, fun _ => rfl, fun _ _ => rfl⟩ rfl

theorem popChan (h : s.resumed die index) (c e n : Nat) : (s.popChan c e n).resumed die index := by
  rw [State.popChan]
  split
  · exact touch (h.of_regions (by simp)) c
  · exact h

theorem popAll (h : s.resumed die index) (ns : List Nat) (c e : Nat) :
    (ns.foldl (fun s n => s.popChan c e n) s).resumed die index := by
  induction ns generalizing s with
  | nil => exact h
  | cons n ns ih => exact ih (h.popChan c e n)

theorem effects (h : s.resumed die index) (t : Fin 64) : (s.effects t).resumed die index := by
  unfold State.effects
  have popped := h.popAll (bitsSet 8 (ePop (s.entry t))) s.cur.cell s.cur.elem
  dsimp only
  split
  · exact popped.of_regions (by simp)
  · exact touch (popped.of_regions (by simp)) _

theorem endFiring (h : s.resumed die index) (t : Fin 64) (n : Nat) : (s.endFiring t n).resumed die index :=
  stir ((h.effects t).of_regions rfl) _

end State.resumed

/-- The wait of a DRAFTSW is over: its firing ends (R258). -/
def State.endSwitch (s : State) (f : Firing) : State :=
  (s.setCtx f.cell f.elem f.ctx fun k => { k with wait := none }).asFiring f fun s => s.endFiring (s.trgOf f) 0

/-- What the end of a DRAFTSW does, and what it leaves (R168, R258). -/
theorem endSwitch_spec {s : State} {f : Firing} (place : s.hasCtx f.cell f.elem f.ctx) :
    ((s.endSwitch f).ctxOf f.cell f.elem f.ctx).wait = none ∧
      ((s.endSwitch f).ctxOf f.cell f.elem f.ctx).seq = (s.ctxOf f.cell f.elem f.ctx).seq + 1 ∧ (s.endSwitch f).mem = s.mem ∧
      (∀ k, k ≠ f.cell → (s.endSwitch f).cell k = s.cell k) ∧
      ∀ die index, s.resumed die index → (s.endSwitch f).resumed die index := by
  obtain ⟨loaded, he, hx, -⟩ := place
  let woken : State := { s.setCtx f.cell f.elem f.ctx fun k => { k with wait := none } with cur := f }
  have clears := Moves.setCtx f.cell f.elem f.ctx (fun k => { k with wait := none }) s loaded he
  obtain ⟨loaded', he', hx'⟩ := clears.hasCtx_bounds ⟨loaded, he, hx⟩
  have ends := Moves.endFiring woken (woken.trgOf f) 0 loaded' he'
  have after : (s.endSwitch f).ctxOf f.cell f.elem f.ctx = endCtx woken (woken.trgOf f) { s.ctxOf f.cell f.elem f.ctx with wait := none } :=
    (ends.ctx hx').trans (congrArg (endCtx woken (woken.trgOf f)) (clears.ctx hx))
  refine ⟨?_, ?_, State.endFiring_mem woken (woken.trgOf f) 0, fun k other => ?_, fun die index h => ?_⟩
  · rw [after]; rfl
  · rw [after]; rfl
  · obtain ⟨-, -, cleared, -⟩ := clears
    obtain ⟨-, -, ended, -⟩ := ends
    exact (ended k other).trans (cleared k other)
  · have here : woken.resumed die index := h.of_regions rfl
    exact (here.endFiring (woken.trgOf f) 0).of_regions rfl

/-! DRAFTSW (R258, R387). -/

/-- A region after a configuration period that ends now (R186). -/
def Region.restarted (time : Nat) (r : Region) : Region := { r with period := false, reported := false, idle := 0, idleSince := time }

/-- The configuration period of a region is over, its drafts committed (R186). -/
def State.restart (s : State) (r : Region) : State := s.setRegion r.die r.index (Region.restarted s.time)

theorem resumed_restart {s : State} {r : Region} (h : r ∈ s.regions) : (s.restart r).resumed r.die r.index := by
  cases found : s.regions.find? (fun y => y.die == r.die && y.index == r.index) with
  | none => exact absurd (List.find?_eq_none.1 found r h) (by simp)
  | some q =>
    exact ⟨_, find_updateWhere_self (f := Region.restarted s.time) (fun _ => rfl) found, rfl, rfl⟩

section
variable {s : State} {c e x slot : Nat} {ts : List Seat} (waits : (s.ctxOf c e x).wait = some (.configPeriod slot ts))
include waits

theorem exec_draftsw_preempted (gone : s.regions.find? (s.seatedIn ts) = none) (saved : ∃ v ∈ s.saved, ∃ q ∈ v.seats, q ∈ ts) :
    exec (.draftswCommit c e x) s = .next s := by
  have held : (s.saved.any fun v => v.seats.any ts.contains) = true := by simpa using saved
  simp only [exec, execDraftswCommit, waits, gone, held, if_true]

theorem exec_draftsw_gone (gone : s.regions.find? (s.seatedIn ts) = none) (lost : ∀ v ∈ s.saved, ∀ q ∈ v.seats, q ∉ ts) :
    exec (.draftswCommit c e x) s = .next (s.endSwitch ⟨c, e, x, slot⟩) := by
  have free : (s.saved.any fun v => v.seats.any ts.contains) = false := by simpa using lost
  simp only [exec, execDraftswCommit, waits, gone, free, Bool.false_eq_true, if_false]
  rfl

theorem exec_draftsw_waits {r : Region} (here : s.regions.find? (s.seatedIn ts) = some r) (h : r.period = false ∨ (s.cell c).stopped = true) :
    exec (.draftswCommit c e x) s = .next s := by
  have held : (!r.period || (s.cell c).stopped) = true := by simpa using h
  simp only [exec, execDraftswCommit, waits, here, held, if_true]

theorem exec_draftsw_commits {r : Region} {t : Nat} (here : s.regions.find? (s.seatedIn ts) = some r) (period : r.period = true)
    (stopped : (s.cell c).stopped = false) (cells : r.cells = [t]) :
    exec (.draftswCommit c e x) s = .next (((s.switchDraft t).restart r).endSwitch ⟨c, e, x, slot⟩) := by
  simp only [exec, execDraftswCommit, waits, here, period, stopped, cells, Bool.not_true, Bool.or_self, Bool.false_eq_true, if_false,
    List.foldl_cons, List.foldl_nil]
  rfl

end

theorem Cell.ctx_of_core {k j : Cell} (h : k.core = j.core) (e x : Nat) : k.ctx e x = j.ctx e x := by
  rw [Cell.ctx, Elem.ctx, (Cell.ctxs_of_core h).2 e]
  rfl

theorem Cell.core_switched (d : Draft) (k : Cell) : (k.switched d).draft = d ∧ (k.switched d).shadow = none ∧ (k.switched d).heddle = k.heddle :=
  ⟨rfl, rfl, rfl⟩

/-- What a switch leaves of another cell's contexts, and what it makes of its own cell (R61, R163, R258). -/
theorem switchDraft_cells {s : State} {t : Nat} {sh : Shadow} (loaded : s.loaded t = true) (shadow : (s.cell t).shadow = some sh)
    (elems : (s.cell t).elems.length = 4) (ctxs : ∀ j, j < 4 → ((s.cell t).elem j).ctxs.length = 4) :
    (s.switchDraft t).regions = s.regions ∧ (∀ c, (s.switchDraft t).loaded c = s.loaded c) ∧
      (∀ c, c ≠ t → ((s.switchDraft t).cell c).core = (s.cell c).core) ∧
      ((s.switchDraft t).cell t).draft = sh.draft ∧ ((s.switchDraft t).cell t).shadow = none ∧
      ((s.switchDraft t).cell t).heddle = (s.cell t).heddle ∧
      ∀ j y, j < 4 → y < 4 → (s.switchDraft t).ctxOf t j y = { s.ctxOf t j y with p := sh.draft.init j y, exhausted := false } := by
  obtain ⟨w, before, after⟩ := switchDraft_spec shadow
  have cell : (w.setCell t (Cell.switched sh.draft)).cell t = (w.cell t).switched sh.draft :=
    (State.cell_setCell w t t (Cell.switched sh.draft) (fun _ => rfl) ((before.loaded t).trans loaded)).trans (if_pos rfl)
  have own := (after.core t).trans (congrArg Cell.core cell)
  obtain ⟨elems', ctxs'⟩ := before.ctxs t
  refine ⟨after.regions.trans before.regions,
    fun c => ((after.loaded c).trans (State.loaded_setCell w t c (Cell.switched sh.draft) fun _ => rfl)).trans (before.loaded c),
    fun c other => ((after.core c).trans (congrArg Cell.core
      (State.cell_setCell_ne w t c (Cell.switched sh.draft) (fun _ => rfl) other))).trans (before.core c),
    congrArg (·.1) own, congrArg (·.2.1) own, (congrArg (·.2.2.1) own).trans (congrArg (·.2.2.1) (before.core t)), fun j y hj hy => ?_⟩
  rw [State.ctxOf, Cell.ctx_of_core own, Cell.ctx_switched sh.draft _ (elems'.trans elems) hj ((congrArg List.length (ctxs' j)).trans (ctxs j hj)) hy,
    Cell.ctx_of_core (before.core t)]
  rfl

theorem draftsSwitch : DraftsSwitch := by
  intro s c e x slot ts place waits
  refine ⟨exec_draftsw_preempted waits, fun gone lost => ⟨_, exec_draftsw_gone waits gone lost, ?_⟩, fun r here =>
    ⟨exec_draftsw_waits waits here, fun t sh period stopped cells other loaded shadow elems ctxs =>
      ⟨_, exec_draftsw_commits waits here period stopped cells, ?_⟩⟩⟩
  · obtain ⟨wait, seq, mem, others, -⟩ := endSwitch_spec (f := ⟨c, e, x, slot⟩) place
    exact ⟨wait, seq, mem, others⟩
  · obtain ⟨regions, loads, spares, draft, emptied, heddle, switched⟩ := switchDraft_cells loaded shadow elems ctxs
    have core := spares c other.symm
    obtain ⟨elems', ctxs'⟩ := Cell.ctxs_of_core core
    have ctx : (s.switchDraft t).ctxOf c e x = s.ctxOf c e x := Cell.ctx_of_core core e x
    obtain ⟨hl, he, hx, hv, hm⟩ := place
    have placed : ((s.switchDraft t).restart r).hasCtx c e x :=
      ⟨(loads c).trans hl, elems'.symm ▸ he, (ctxs' e).symm ▸ hx, (congrArg (·.v.length) ctx).trans hv, (congrArg (·.m.length) ctx).trans hm⟩
    obtain ⟨wait, seq, -, others, resumes⟩ := endSwitch_spec (f := ⟨c, e, x, slot⟩) placed
    have own := others t other
    refine ⟨(congrArg Cell.draft own).trans draft, (congrArg Cell.shadow own).trans emptied, fun j y hj hy => ?_,
      (congrArg Cell.heddle own).trans heddle, wait, seq.trans (congrArg (·.seq + 1) ctx), ?_⟩
    · exact (congrArg (Cell.ctx · j y) own).trans (switched j y hj hy)
    · exact resumes _ _ (resumed_restart (regions ▸ List.mem_of_find?_eq_some here))

/-- Settles O51: quiescence, the images of a DRAFTLD, and the switch of drafts, part by part. -/
theorem draftEvents : Obligations.DraftEvents := by
  unfold Obligations.DraftEvents
  exact ⟨quiescence, draftsDecided, draftsSwitch⟩

end Sys2Proof.Machine
end


section
/-! # Requests at home (O45, R92, R96, R108) -/

namespace Sys2Proof.Machine
open Sys2Proof

/-! No soft error stands at home (R87). -/

section
variable {s : State} (sound : s.sound)
include sound

theorem unmet_of_sound {place : Place} (hp : place ∈ [Place.memory, .sliceData, .sliceTag, .directory]) (a n : Nat) :
    ∀ u ∈ s.upsets, u.meets place a n = false := fun u hu =>
  upset_meets_place fun e => sound u hu (e ▸ hp)

theorem upsetAt_of_sound {place : Place} (hp : place ∈ [Place.memory, .sliceData, .sliceTag, .directory]) (a n : Nat) :
    s.upsetAt place a n = false := by
  rw [State.upsetAt, List.any_eq_false]
  intro u hu
  simp [unmet_of_sound sound hp a n u hu]

theorem correctAt_of_sound (pa n : Nat) : s.correctAt pa n = s := by
  have refetch : s.refetch pa = s := by simp [State.refetch, upsetAt_of_sound sound]
  rw [State.correctAt, refetch]
  refine correctSingles_none fun u hu => ?_
  simp [unmet_of_sound sound _ _ _ u hu]

theorem spoiled_of_sound (pa n : Nat) : s.spoiled pa n = false ∧ s.tagSpoiled pa = false := by
  simp [State.spoiled, State.sliceSpoiled, State.tagSpoiled, upsetAt_of_sound sound]

/-- A write at home, where no soft error stands (R91, R158). -/
theorem homeWrite_of_sound (pa : Nat) (bs : List Nat) : s.homeWrite pa bs =
    { s with
        mem := (s.homeWrite pa bs).mem, watches := (s.homeWrite pa bs).watches
        sliceLines := s.sliceLines.map fun l => if l.line = lineOf pa then { l with dirty := true } else l } := by
  have upsets : (s.homeWrite pa bs).upsets = s.upsets := by
    refine List.filter_eq_self.2 fun u hu => ?_
    have elsewhere := sound u hu
    simp only [List.mem_cons, not_or] at elsewhere
    simp [elsewhere.1, elsewhere.2.1]
  have lines : (s.homeWrite pa bs).sliceLines = s.sliceLines.map fun l => if l.line = lineOf pa then { l with dirty := true } else l := by
    simp [State.homeWrite, State.homeWriteMasked, State.markWatches, updateWhere]
  have parts : s.homeWrite pa bs = { s with
      mem := (s.homeWrite pa bs).mem, watches := (s.homeWrite pa bs).watches, upsets := (s.homeWrite pa bs).upsets,
      sliceLines := (s.homeWrite pa bs).sliceLines } := rfl
  rw [upsets, lines] at parts
  exact parts

end

/-- Every byte of a run, and no other, is written (R91). -/
theorem written_homeWrite (s : State) (pa : Nat) (bs : List Nat) : WrittenAt s (s.homeWrite pa bs) pa bs := by
  intro x
  rw [State.homeWrite, homeWriteMasked_mem, memRead_memStoreMasked]
  refine if_congr ⟨fun h => ⟨h.1, h.2.1⟩, fun h => ⟨h.1, h.2, ?_⟩⟩ rfl rfl
  simp only [bit_eq_testBit, Nat.testBit_two_pow_sub_one, decide_eq_true_eq]
  omega

/-! A part that its home slice serves (R92, R96). -/

section
variable {s : State} {id i : Nat} {a : Access} {p : Part} (found : s.acc? id = some a) (part : a.parts[i]? = some p)
  (waits : p.st = .waiting) (loaded : s.loaded a.cell = true) (open_ : s.blocked a i p = false) (unlocked : s.locked p.pa = false)
  (unrecalled : s.recalling p.pa = false) (memory : inMmio p.pa = false) (op : a.op = .load ∨ a.op = .store)
include found part waits loaded open_ unlocked unrecalled memory op

/-- A part of a load or a store that may be served, and that the cell's own copy does not serve (R92). -/
theorem exec_homeSliceRequest_miss (miss : s.hits a p = false) : exec (.homeSliceRequest id i) s =
    .next (if s.atHomeOnly a p then s.serveHome a i p else s.serveMiss a i p) := by
  have fresh : (p.st == .again) = false := by rw [waits]; rfl
  have askable : s.askable a i p = true := by
    have present : s.present a.cell = true := loaded
    simp [State.askable, State.busyLine, waits, present, open_, unlocked, unrecalled]
  rcases op with op | op <;>
    simp only [exec, execHomeSliceRequest, found, part, fresh, op, askable, memory, miss, Bool.not_true, Bool.false_eq_true, if_false]

/-- A part of an uncached page is served at home (R26, R92). -/
theorem exec_homeSliceRequest_uncached (uncached : leafCp p.leaf = 2) :
    exec (.homeSliceRequest id i) s = .next (s.serveHome a i p) := by
  have outside : p.cached s = false := by simp [Part.cached, uncached]
  rw [exec_homeSliceRequest_miss found part waits loaded open_ unlocked unrecalled memory op (by simp [State.hits, outside])]
  simp [State.atHomeOnly, outside]

end

section
variable {s : State} {a : Access} {i : Nat} {p : Part} (uncached : leafCp p.leaf = 2)
include uncached

theorem sm_of_uncached : p.sm = false := by simp [Part.sm, leafManaged, uncached]

/-- Copies that an access conflicts with are recalled first (R92, R96). -/
theorem serveHome_recalls (held : s.conflicts (lineOf p.pa) a.isStore none ≠ [])
    (good : ∀ h ∈ s.conflicts (lineOf p.pa) a.isStore none, ¬s.copySpoiled h (lineOf p.pa) = true) :
    s.serveHome a i p = { s with recalls := s.recalls ++ [⟨lineOf p.pa, s.conflicts (lineOf p.pa) a.isStore none, false⟩] } := by
  have none_bad : s.pullBad (lineOf p.pa) a.isStore none = none := List.find?_eq_none.2 good
  obtain ⟨h, hs, eq⟩ := List.exists_cons_of_ne_nil held
  simp only [State.serveHome, sm_of_uncached uncached, Bool.false_eq_true, if_false, none_bad, eq, State.askRecall]

variable (sound : s.sound) (free : s.conflicts (lineOf p.pa) a.isStore none = [])
include sound free

theorem serveHome_load (op : a.op = .load) (plain : a.opcode ≠ 0x50) :
    s.serveHome a i p = s.bindAt a.id p.pa (memBytes s.mem p.pa p.size) p.word := by
  have none_bad : s.pullBad (lineOf p.pa) a.isStore none = none := by rw [State.pullBad, free]; rfl
  have untouched : s.touchFor a p = s := if_pos uncached
  obtain ⟨good, tags⟩ := spoiled_of_sound sound p.pa p.size
  simp only [State.serveHome, sm_of_uncached uncached, Bool.false_eq_true, if_false, none_bad, free, untouched,
    correctAt_of_sound sound, good, tags, ite_self, op, plain, decide_false, Bool.false_and]

theorem serveHome_store (op : a.op = .store) : s.serveHome a i p = (s.homeWrite p.pa p.data).donePart a.id i := by
  have none_bad : s.pullBad (lineOf p.pa) a.isStore none = none := by rw [State.pullBad, free]; rfl
  have untouched : s.touchFor a p = s := if_pos uncached
  obtain ⟨good, tags⟩ := spoiled_of_sound sound p.pa p.size
  simp only [State.serveHome, sm_of_uncached uncached, Bool.false_eq_true, if_false, none_bad, free, untouched,
    correctAt_of_sound sound, good, tags, ite_self, op]

end

/-! The lists of accesses. -/

/-- An access but for the scope at which it is taken as performed (R118). -/
def Access.unpassed (a : Access) : Access := { a with passed := none }

theorem id_of_acc {s : State} {id : Nat} {a : Access} (found : s.acc? id = some a) : a.id = id := by
  simpa using List.find?_some found

/-- An access with its parts changed. -/
def Access.withParts (f : List Part → List Part) (a : Access) : Access := { a with parts := f a.parts }

theorem acc_withParts {s : State} {id : Nat} {a : Access} (found : s.acc? id = some a) (f : List Part → List Part) (k : Nat) :
    (s.setAcc id (Access.withParts f)).acc? k = if k = id then some (a.withParts f) else s.acc? k := by
  rw [acc_setAcc id k (f := Access.withParts f) fun _ => rfl]
  split
  · next here => rw [here, found, Option.map_some]
  · rfl

/-- The accesses after a part of one is performed. -/
theorem donePart_accs (s : State) (id i : Nat) : s.donePart id i = { s with accs := (s.donePart id i).accs } := by
  simp only [State.donePart, State.passFor, State.passEarlier]
  split
  · split <;> rfl
  · rfl

/-- Taking earlier accesses as performed at a scope changes no access but for that mark (R118). -/
theorem unpassed_passEarlier (s : State) (a : Access) (k : Nat) :
    ((s.passEarlier a).acc? k).map Access.unpassed = (s.acc? k).map Access.unpassed := by
  rw [State.passEarlier]
  split
  · rfl
  · dsimp only
    rw [State.acc?, updateWhere, List.find?_map, State.acc?]
    have key : ((fun x : Access => x.id == k) ∘ fun x =>
        if ((s.openBefore a).map (·.id)).contains x.id = true then x.passAt (scopeOf a.profile) else x) = fun x => x.id == k := by
      funext x
      simp only [Function.comp]
      split <;> rfl
    rw [key, Option.map_map]
    refine congrArg (fun f => (s.accs.find? fun x => x.id == k).map f) (funext fun x => ?_)
    simp only [Function.comp]
    split <;> rfl

/-- A part of an access is performed: the accesses are as before, but for that part and for marks that a narrow release leaves (R118). -/
theorem accs_donePart {s : State} {id i : Nat} {a : Access} {p : Part} (found : s.acc? id = some a) (part : a.parts[i]? = some p) :
    (∀ k, k ≠ id → ((s.donePart id i).acc? k).map Access.unpassed = (s.acc? k).map Access.unpassed) ∧
      ((s.donePart id i).acc? id).map Access.unpassed =
        some (Access.unpassed { a with parts := a.parts.set i { p with st := .done } }) ∧
      (a.narrow = false → ∀ k, k ≠ id → (s.donePart id i).acc? k = s.acc? k) := by
  have pass : s.passFor id = s.passEarlier a := by simp only [State.passFor, found]
  have marks := unpassed_passEarlier s a
  obtain ⟨b, kept⟩ : ∃ b, (s.passEarlier a).acc? id = some b ∧ b.unpassed = a.unpassed := by
    have same := marks id
    rw [found] at same
    exact Option.map_eq_some_iff.1 same
  obtain ⟨here, same⟩ := kept
  have parts : b.parts = a.parts := (congrArg Access.parts same : b.unpassed.parts = a.unpassed.parts)
  have done := acc_withParts here fun ps => modifyAt ps i fun p => { p with st := .done }
  have set : modifyAt a.parts i (fun p => { p with st := .done }) = a.parts.set i { p with st := .done } := by
    rw [modifyAt, List.modify_eq_set_getElem?, part]
    rfl
  have performed : s.donePart id i = (s.passEarlier a).setAcc id (Access.withParts fun ps => modifyAt ps i fun p => { p with st := .done }) := by
    rw [State.donePart, pass]
    rfl
  rw [performed]
  refine ⟨fun k other => ?_, ?_, fun wide k other => ?_⟩
  · rw [done, if_neg other, marks]
  · rw [done, if_pos rfl, Access.withParts, parts, set]
    exact congrArg (fun x : Access => some { x with parts := a.parts.set i { p with st := .done } }) same
  · rw [done, if_neg other, State.passEarlier, if_pos (by rw [wide]; rfl)]

theorem homeRequests : HomeRequests := by
  intro s id i a p found part waits loaded open_ unlocked unrecalled uncached memory sound
  obtain rfl := id_of_acc found
  have served (op : a.op = .load ∨ a.op = .store) :=
    exec_homeSliceRequest_uncached found part waits loaded open_ unlocked unrecalled memory op uncached
  refine ⟨fun op held good => ?_, fun op plain free => ⟨_, served (.inl op), ?_⟩, fun op free => ⟨_, served (.inr op), ?_⟩⟩
  · rw [served op, serveHome_recalls uncached held good]
  · rw [serveHome_load uncached sound free op plain]
    have bound := acc_withParts found (updateWhere (fun q => q.pa == p.pa && q.st == .waiting)
      fun q => { q with st := .done, bound := memBytes s.mem p.pa p.size, word := p.word })
    refine ⟨rfl, fun k other => (bound k).trans (if_neg other), _, (bound a.id).trans (if_pos rfl), rfl, fun j q at_ => ?_⟩
    simp [Access.withParts, updateWhere, at_, and_comm]
  · rw [serveHome_store uncached sound free op]
    obtain ⟨others, own, wide⟩ := accs_donePart (s := s.homeWrite p.pa p.data) found part
    refine ⟨?_, ?_, ⟨others, own⟩, wide⟩
    · rw [donePart_accs]
      exact written_homeWrite s p.pa p.data
    · rw [donePart_accs, homeWrite_of_sound sound p.pa p.data]

end Sys2Proof.Machine
end


section
/-! # The first fill of a region (O45, R63, R90, R94, R96) -/

namespace Sys2Proof.Machine
open Sys2Proof

/-! A line of which nobody holds a copy. -/

section
variable {s : State} {line : Nat} (free : s.uncopied line 128)
include free

theorem line_of_uncopied {k : Cell} (hk : k ∈ s.cells) : k.line? line = none := by
  refine List.find?_eq_none.2 fun l hl => ?_
  have apart := free.1 k hk l hl
  simp only [beq_iff_eq]
  omega

theorem hostCopy_of_uncopied : s.hostCopies.find? (·.pa == line) = none := by
  refine List.find?_eq_none.2 fun l hl => ?_
  have apart := free.2 l hl
  simp only [beq_iff_eq]
  omega

theorem cellLine_of_uncopied (c : Nat) : (s.cell c).line? line = none := by
  cases loaded : s.loaded c with
  | true => exact line_of_uncopied free (List.mem_of_find?_eq_some (find_of_loaded loaded))
  | false =>
    rw [cell_of_unloaded loaded]
    rfl

theorem copyOf_of_uncopied (agent : Nat) : s.copyOf agent line = none := by
  rw [State.copyOf]
  split
  · exact hostCopy_of_uncopied free
  · exact cellLine_of_uncopied free agent

theorem conflicts_of_uncopied (store : Bool) (keep : Option Nat) : s.conflicts line store keep = [] := by
  have cells : (s.cells.filter fun k => some k.id != keep && conflicting store (k.line? line)) = [] := by
    refine List.filter_eq_nil_iff.2 fun k hk => ?_
    simp [line_of_uncopied free hk, conflicting]
  rw [State.conflicts, cells, copyOf_of_uncopied free]
  simp [conflicting]

end

/-! The mark of use (R63). -/

/-- A line with the mark of use. -/
def CchLine.used (l : CchLine) : CchLine := { l with recent := true }

/-- An update of other records leaves what a test finds. -/
theorem find_updateWhere_apart {α : Type} {p q : α → Bool} {f : α → α} (kept : ∀ x, q (f x) = q x) (apart : ∀ x, q x = true → p x = false)
    (xs : List α) : (updateWhere p f xs).find? q = xs.find? q := by
  induction xs with
  | nil => rfl
  | cons x xs ih =>
    rw [updateWhere] at ih
    cases here : q x with
    | true => simp [updateWhere, apart x here, here]
    | false =>
      have still : q (if p x = true then f x else x) = false := by
        split
        · rw [kept, here]
        · exact here
      simp only [updateWhere, List.map_cons, List.find?_cons, still, here, ih]

theorem line_markUse (k : Cell) (line : Nat) : (k.markUse line).line? line = (k.line? line).map CchLine.used := by
  have marked : (k.setLine line CchLine.used).line? line = (k.line? line).map CchLine.used :=
    (find_updateWhere_key CchLine.pa k.cch line line (f := CchLine.used) fun _ => rfl).trans (if_pos rfl)
  unfold Cell.markUse
  extract_lets set k'
  split
  · refine Eq.trans (find_updateWhere_apart ?_ ?_ _) marked
    · exact fun _ => rfl
    · intro l here
      simp only [beq_iff_eq] at here
      simp [here]
  · exact marked

theorem Cell.id_markUse (k : Cell) (line : Nat) : (k.markUse line).id = k.id := by
  unfold Cell.markUse
  extract_lets set k'
  split <;> rfl

/-! The grant and the fill (R63, R90, R94, R96). -/

/-- The first grant of a region: its entry records the cell as the owner of the whole region (R94, R96). -/
theorem dirGrant_first {s : State} {line : Nat} (new : s.dir.find? (·.region == line / 4096) = none) (room : s.dir.length < 16)
    (c : Nat) : s.dirGrant c line false = (.exclusive, { s with dir := s.dir ++ [⟨line / 4096, .own c, none, s.time⟩] }) := by
  have others : s.dir.filter (·.region != line / 4096) = s.dir := by
    refine List.filter_eq_self.2 fun e he => ?_
    have apart := List.find?_eq_none.1 new e he
    simpa using apart
  have roomy : s.makeEntryRoom (line / 4096) = s := by
    rw [State.makeEntryRoom]
    exact if_pos (Nat.lt_of_le_of_lt (List.length_filter_le _ _) room)
  simp only [State.dirGrant, new, roomy, Bool.false_eq_true, if_false, others]

/-- The copy that a fill brings from home (R63, R74, R93). -/
def State.filled (s : State) (c line w : Nat) (st : CchState) (described : Bool) : CchLine :=
  { pa := line, way := w, st := st, data := memBytes s.mem line 128, dirty := 0,
    descs := if described then s.homeDescs line else [0, 0], descDirty := 0, recent := true,
    holdUntil := if st == .modified || st == .exclusive then s.time + 64 * s.nPeriod (dieOf c) else 0, described := described }

/-- A cell with one more copy, just used. -/
def Cell.holding (l : CchLine) (k : Cell) : Cell := { k with cch := k.cch ++ [l] }.markUse l.pa

theorem Cell.id_holding (l : CchLine) (k : Cell) : (k.holding l).id = k.id := Cell.id_markUse _ _

theorem fill_free {s : State} {c line w : Nat} (clean : s.upsets = []) (way : (s.cell c).fillWay line = some (w, none)) (st : CchState)
    (described : Bool) : s.fill c line st described = s.setCell c (Cell.holding (s.filled c line w st described)) := by
  have sound : s.sound := by simp [State.sound, clean]
  have spot : s.cleanSpot c (s.filled c line w st described) = s := by
    rw [State.cleanSpot, clean, List.filter_nil, ← clean]
  simp only [State.fill, way, correctAt_of_sound sound]
  exact congrArg (fun x : State => x.setCell c (Cell.holding (s.filled c line w st described))) spot

theorem line_holding {k : Cell} {l : CchLine} (new : k.line? l.pa = none) : (k.holding l).line? l.pa = some l.used := by
  have first : ({ k with cch := k.cch ++ [l] } : Cell).line? l.pa = some l := by
    rw [Cell.line?, List.find?_append]
    rw [Cell.line?] at new
    simp [new]
  rw [Cell.holding, line_markUse, first]
  rfl

section
variable {s : State} {a : Access} {p : Part} (cached : leafCp p.leaf = 0) (coherent : leafSm p.leaf = false)
  (free : s.uncopied (lineOf p.pa) 128)

include cached coherent in
theorem sm_of_coherent : p.sm = false := by simp [Part.sm, leafManaged, cached, coherent]

include free in
/-- A part that no copy in its cell serves (R90). -/
theorem hits_of_uncopied : s.hits a p = false := by
  simp [State.hits, cellLine_of_uncopied free]

include cached in
/-- A cached part of a cell with a way for it is not performed at home (R26, R63, R69). -/
theorem atHomeOnly_of_cached {w : Nat} (memory : inMmio p.pa = false) (module : moduleOf p.pa = s.hub.modnum)
    (hint : hintOf a.profile = 0) (way : (s.cell a.cell).fillWay (lineOf p.pa) = some (w, none)) : s.atHomeOnly a p = false := by
  have ways : (s.cell a.cell).ways.isEmpty = false := by
    refine List.isEmpty_eq_false_iff.2 fun empty => ?_
    simp only [Cell.fillWay, empty, List.find?_nil] at way
    split at way <;> simp at way
  simp [State.atHomeOnly, Part.cached, cached, memory, module, ways, hint]

include cached coherent free in
/-- A miss that is the first of its region fills the line exclusive, and binds from it (R90, R94, R96). -/
theorem serveMiss_first {i w : Nat} {pl : List SlicePlru} {ls : List SliceLine} (clean : s.upsets = []) (op : a.op = .load)
    (plain : a.opcode ≠ 0x50) (hint : hintOf a.profile = 0) (new : s.dir.find? (·.region == lineOf p.pa / 4096) = none)
    (room : s.dir.length < 16) (way : (s.cell a.cell).fillWay (lineOf p.pa) = some (w, none))
    (touched : s.sliceTouch p.pa 0 = { s with plru := pl, sliceLines := ls }) (loaded : s.loaded a.cell = true) :
    let l := s.filled a.cell (lineOf p.pa) w .exclusive (leafDsc p.leaf)
    let u : State := { s with plru := pl, sliceLines := ls, dir := s.dir ++ [⟨lineOf p.pa / 4096, .own a.cell, none, s.time⟩] }
    s.serveMiss a i p = ((u.setCell a.cell (Cell.holding l)).setCell a.cell fun c => c.markUse (lineOf p.pa)).bindAt a.id p.pa
      (sliceBytes (memBytes s.mem (lineOf p.pa) 128) (p.pa % 128) p.size) p.word := by
  intro l u
  have sound : s.sound := by simp [State.sound, clean]
  have load : a.isStore = false := by rw [Access.isStore, op]; rfl
  have unspoiled : s.missSpoiled p a.isStore = false := by
    simp [State.missSpoiled, (spoiled_of_sound sound _ _).1, State.pullBad, conflicts_of_uncopied free]
  have kept : s.evictLine a.cell (lineOf p.pa) = s := by rw [State.evictLine, copyOf_of_uncopied free]
  have touch : s.touchFor a p = { s with plru := pl, sliceLines := ls } := by
    rw [State.touchFor, if_neg (by omega), hint, touched]
  have grant : State.dirGrant { s with plru := pl, sliceLines := ls } a.cell (lineOf p.pa) false = (.exclusive, u) :=
    dirGrant_first (s := { s with plru := pl, sliceLines := ls }) new room a.cell
  have fill : u.fill a.cell (lineOf p.pa) .exclusive (leafDsc p.leaf) = u.setCell a.cell (Cell.holding l) := fill_free (s := u) clean way _ _
  have brought : s.bringLine a p a.isStore = (true, u.setCell a.cell (Cell.holding l)) := by
    simp only [State.bringLine, sm_of_coherent cached coherent, Bool.false_eq_true, if_false, conflicts_of_uncopied free, List.isEmpty_nil,
      Bool.not_true, kept, touch, load, grant, fill]
  have held : ((u.setCell a.cell (Cell.holding l)).cell a.cell).line? (lineOf p.pa) = some l.used := by
    rw [State.cell_setCell u a.cell a.cell (Cell.holding l) (Cell.id_holding l) loaded, if_pos rfl]
    exact line_holding (l := l) (cellLine_of_uncopied free a.cell)
  simp only [State.serveMiss, unspoiled, Bool.false_eq_true, if_false, brought, State.performHit, held, op, plain, decide_false, Bool.false_and]
  rfl

end

theorem exclusiveFill : ExclusiveFill := by
  intro s id i a p w pl ls found part waits loaded open_ unlocked unrecalled cached coherent memory module hint clean op plain free new room
    way touched
  obtain rfl := id_of_acc found
  let l := s.filled a.cell (lineOf p.pa) w .exclusive (leafDsc p.leaf)
  let u : State := { s with plru := pl, sliceLines := ls, dir := s.dir ++ [⟨lineOf p.pa / 4096, .own a.cell, none, s.time⟩] }
  have served := exec_homeSliceRequest_miss found part waits loaded open_ unlocked unrecalled memory (.inl op) (hits_of_uncopied free)
  rw [atHomeOnly_of_cached cached memory module hint way, if_neg Bool.false_ne_true,
    serveMiss_first cached coherent free clean op plain hint new room way touched loaded] at served
  refine ⟨_, served, ?_⟩
  have filled : (u.setCell a.cell (Cell.holding l)).cell a.cell = (s.cell a.cell).holding l :=
    (State.cell_setCell u a.cell a.cell (Cell.holding l) (Cell.id_holding l) loaded).trans (if_pos rfl)
  have loaded' : (u.setCell a.cell (Cell.holding l)).loaded a.cell = true :=
    (State.loaded_setCell u a.cell a.cell (Cell.holding l) (Cell.id_holding l)).trans loaded
  have used := State.cell_setCell (u.setCell a.cell (Cell.holding l)) a.cell a.cell (fun c => c.markUse (lineOf p.pa))
    (fun k => Cell.id_markUse k _) loaded'
  rw [if_pos rfl, filled] at used
  let bind : Part → Part := fun q =>
    { q with st := .done, bound := sliceBytes (memBytes s.mem (lineOf p.pa) 128) (p.pa % 128) p.size, word := p.word }
  have bound := acc_withParts found (updateWhere (fun q => q.pa == p.pa && q.st == .waiting) bind)
  have done : (updateWhere (fun q => q.pa == p.pa && q.st == .waiting) bind a.parts)[i]? = some (bind p) := by
    simp [updateWhere, part, waits]
  refine ⟨⟨l.used.used, ?_, rfl, rfl, rfl, rfl, rfl⟩, rfl, rfl, _, bind p, (bound a.id).trans (if_pos rfl), done, rfl, rfl⟩
  refine (congrArg (Cell.line? · (lineOf p.pa)) used).trans ?_
  rw [line_markUse]
  exact congrArg (Option.map CchLine.used) (line_holding (l := l) (cellLine_of_uncopied free a.cell))

end Sys2Proof.Machine
end


section
/-! # Recalls (O45, R91, R93, R96, R98) -/

namespace Sys2Proof.Machine
open Sys2Proof

theorem dirRelease_frame (s : State) (line : Nat) : s.dirRelease line = { s with dir := (s.dirRelease line).dir } := by
  simp only [State.dirRelease, State.setGroupLine]
  split
  · split <;> rfl
  · rfl

theorem writeBytes_frame (s : State) (l : CchLine) (mask : Nat) : s.writeBytes l mask =
    { s with mem := (s.writeBytes l mask).mem, watches := (s.writeBytes l mask).watches, sliceLines := (s.writeBytes l mask).sliceLines,
             upsets := (s.writeBytes l mask).upsets } := by
  rw [State.writeBytes]
  split <;> rfl

theorem dropCopy_frame (s : State) (agent line : Nat) : s.dropCopy agent line =
    { s with cells := (s.dropCopy agent line).cells, hostCopies := (s.dropCopy agent line).hostCopies } := by
  rw [State.dropCopy]
  split <;> rfl

theorem pa_of_copy {s : State} {agent line : Nat} {l : CchLine} (held : s.copyOf agent line = some l) : l.pa = line := by
  rw [State.copyOf] at held
  split at held
  · simpa using List.find?_some held
  · rw [Cell.line?] at held
    simpa using List.find?_some held

/-- A copy without dirty descriptors writes none (R74, R100). -/
theorem writeDescs_clean (s : State) {l : CchLine} (clean : l.descDirty = 0) (blocks : Nat) : s.writeDescs l blocks = s := by
  have none_ (b : Nat) : bit l.descDirty b = false := by simp [clean, bit]
  simp only [State.writeDescs, none_, Bool.false_and, Bool.false_eq_true, if_false, List.foldl_fixed]

/-! The copies after one is dropped. -/

section
variable {s : State} {agent line : Nat}

theorem cells_dropCopy_host (h : agent = hostAgent) : (s.dropCopy agent line).cells = s.cells := by
  rw [State.dropCopy, if_pos h]

theorem cell_dropCopy_other {c : Nat} (h : c ≠ agent) : (s.dropCopy agent line).cell c = s.cell c := by
  rw [State.dropCopy]
  split
  · rfl
  · exact State.cell_setCell_ne s agent c (fun c => c.dropLine line) (fun _ => rfl) h

theorem copyOf_dropCopy_other {k : Nat} (h : k ≠ agent) : (s.dropCopy agent line).copyOf k line = s.copyOf k line := by
  rw [State.copyOf, cell_dropCopy_other h, State.copyOf]
  split
  · next host =>
    rw [State.dropCopy, if_neg (fun e => h (host.trans e.symm))]
    rfl
  · rfl

theorem copyOf_dropCopy {l : CchLine} (held : s.copyOf agent line = some l) : (s.dropCopy agent line).copyOf agent line = none := by
  by_cases host : agent = hostAgent
  · rw [State.copyOf, if_pos host, State.dropCopy, if_pos host]
    exact List.find?_eq_none.2 fun l hl => by simpa using (List.mem_filter.1 hl).2
  · rw [State.copyOf, if_neg host] at held ⊢
    have loaded : s.loaded agent = true := by
      by_contra h
      rw [cell_of_unloaded (by simpa using h)] at held
      cases held
    rw [State.dropCopy, if_neg host, State.cell_setCell s agent agent (fun c => c.dropLine line) (fun _ => rfl) loaded, if_pos rfl]
    exact List.find?_eq_none.2 fun l hl => by simpa using (List.mem_filter.1 hl).2

end

theorem dropCopy_congr {s u : State} (agent line : Nat) (cells : u.cells = s.cells) (host : u.hostCopies = s.hostCopies) :
    (u.dropCopy agent line).cells = (s.dropCopy agent line).cells ∧
      (u.dropCopy agent line).hostCopies = (s.dropCopy agent line).hostCopies := by
  simp only [State.dropCopy]
  split
  · exact ⟨cells, by simp only [host]⟩
  · exact ⟨by simp only [State.setCell, cells], host⟩

/-- What a copy that goes home changes (R91, R98). -/
theorem evictLine_spec {s : State} {agent line : Nat} {l : CchLine} (held : s.copyOf agent line = some l) (clean : l.descDirty = 0) :
    (s.evictLine agent line).cells = (s.dropCopy agent line).cells ∧
      (s.evictLine agent line).hostCopies = (s.dropCopy agent line).hostCopies ∧
      (s.evictLine agent line).mem = (s.writeBytes l l.dirty).mem ∧ (s.evictLine agent line).recalls = s.recalls := by
  have kept : ((s.writeBytes l l.dirty).carryErrors agent l).cells = s.cells ∧
      ((s.writeBytes l l.dirty).carryErrors agent l).hostCopies = s.hostCopies ∧
      ((s.writeBytes l l.dirty).carryErrors agent l).recalls = s.recalls := by
    rw [writeBytes_frame]
    exact ⟨rfl, rfl, rfl⟩
  obtain ⟨cells, host, recalls⟩ := kept
  obtain ⟨cells', host'⟩ := dropCopy_congr agent line cells host
  have dropped := dropCopy_frame ((s.writeBytes l l.dirty).carryErrors agent l) agent line
  have mem : (((s.writeBytes l l.dirty).carryErrors agent l).dropCopy agent line).mem = (s.writeBytes l l.dirty).mem := by
    rw [dropped]
    rfl
  have recalls' : (((s.writeBytes l l.dirty).carryErrors agent l).dropCopy agent line).recalls = s.recalls := by
    rw [dropped]
    exact recalls
  simp only [State.evictLine, held, writeDescs_clean _ clean]
  split
  · rw [dirDrop_frame]
    exact ⟨cells', host', mem, recalls'⟩
  · exact ⟨cells', host', mem, recalls'⟩

/-- The dirty bytes of a copy merged at home (R91). -/
theorem memRead_writeBytes (s : State) {l : CchLine} (whole : l.data.length = 128) (mask x : Nat) : memRead (s.writeBytes l mask).mem x =
    if l.pa ≤ x ∧ x < l.pa + 128 ∧ mask.testBit (x - l.pa) then l.data.getD (x - l.pa) 0 % 256 else memRead s.mem x := by
  rw [State.writeBytes]
  split
  · next zero =>
    rw [if_neg]
    rintro ⟨low, high, set⟩
    have inside : x - l.pa < 128 := by omega
    have bit := Nat.testBit_mod_two_pow mask 128 (x - l.pa)
    rw [zero, Nat.zero_testBit, set, decide_eq_true inside] at bit
    cases bit
  · rw [homeWriteMasked_mem, memRead_memStoreMasked, whole]
    simp only [bit_eq_testBit]

/-! The answer of a holder (R91, R96). -/

section
variable {s : State} {line h : Nat} {r : Recall} {l : CchLine} (found : s.recalls.find? (·.line == line) = some r)
  (held : s.copyOf h line = some l)
include found held

theorem keeps_iff : s.keeps h r.line = (l.st == .modified && decide (s.time < l.holdUntil)) := by
  have named : r.line = line := by simpa using List.find?_some found
  rw [State.keeps, named, held]
  rfl

/-- A modified line within its 64 network cycles is kept (R93). -/
theorem exec_recallResponse_kept (modified : l.st = .modified) (young : s.time < l.holdUntil) (free : r.forced = false) :
    exec (.recallResponse line h) s = .next s := by
  have stays : s.mayYield r h = false := by simp [State.mayYield, keeps_iff found held, modified, young, free]
  simp [exec, execRecallResponse, found, stays]

/-- The holders of which an answer is still awaited (R96). -/
def Recall.without (h : Nat) (r : Recall) : Recall := { r with holders := r.holders.filter (· != h) }

/-- The state after a holder's answer: the recall goes on for the others, or is over (R96). -/
theorem exec_recallResponse_yields (member : h ∈ r.holders) (coherent : l.coherent = true) (old : l.st ≠ .modified ∨ l.holdUntil ≤ s.time) :
    ∃ u, exec (.recallResponse line h) s = .next u ∧ u.mem = (s.evictLine h line).mem ∧ u.cells = (s.evictLine h line).cells ∧
      u.hostCopies = (s.evictLine h line).hostCopies ∧ u.recalls = if r.holders.filter (· != h) = []
        then (s.evictLine h line).recalls.filter (·.line != line)
        else updateWhere (·.line == line) (fun k => { k with holders := r.holders.filter (· != h) }) (s.evictLine h line).recalls := by
  have yields : s.mayYield r h = true := by
    have unkept : s.keeps h r.line = false := by
      rw [keeps_iff found held]
      rcases old with old | old
      · simp [old]
      · simp [Nat.not_lt.2 old]
    simp [State.mayYield, unkept]
  have listed : r.holders.contains h = true := by simpa using member
  simp only [exec, execRecallResponse, found, listed, yields, Bool.not_true, Bool.or_self, Bool.false_eq_true, if_false, held,
    Option.any_some, coherent, if_true]
  by_cases last : r.holders.filter (· != h) = []
  · simp only [last, List.isEmpty_nil, Bool.not_true, Bool.false_eq_true, if_false, if_true]
    refine ⟨_, rfl, ?_⟩
    split
    · rw [dirRelease_frame]
      exact ⟨rfl, rfl, rfl, rfl⟩
    · exact ⟨rfl, rfl, rfl, rfl⟩
  · have more : (r.holders.filter (· != h)).isEmpty = false := by simpa using last
    simp only [more, Bool.not_false, if_true, if_neg last]
    exact ⟨_, rfl, rfl, rfl, rfl, rfl⟩

end

theorem exec_ownershipHoldExpiry {s : State} {line h : Nat} {l : CchLine} (held : s.copyOf h line = some l) (cell : h ≠ 2048)
    (kept : l.holdUntil ≠ 0) (old : l.holdUntil ≤ s.time) : exec (.ownershipHoldExpiry h line) s =
      .next (s.setCell h fun c => c.setLine line fun l => { l with holdUntil := 0 }) := by
  have here : (s.cell h).line? line = some l := by
    rw [State.copyOf, if_neg (show h ≠ hostAgent from cell)] at held
    exact held
  simp [exec, execOwnershipHoldExpiry, here, kept, Nat.not_lt.2 old]

theorem recallAnswers : RecallAnswers := by
  intro s line h r l found member held coherent whole clean
  refine ⟨exec_recallResponse_kept found held, fun cell kept old => exec_ownershipHoldExpiry held cell kept old, fun old => ?_⟩
  obtain ⟨u, runs, mem, cells, host, recalls⟩ := exec_recallResponse_yields found held member coherent old
  obtain ⟨cells', host', mem', recalls'⟩ := evictLine_spec held clean
  obtain rfl := pa_of_copy held
  have copies (k : Nat) : u.copyOf k l.pa = (s.dropCopy h l.pa).copyOf k l.pa := by
    simp only [State.copyOf, State.cell, host.trans host', cells.trans cells']
  have cell (c : Nat) : u.cell c = (s.dropCopy h l.pa).cell c := by
    simp only [State.cell, cells.trans cells']
  refine ⟨u, runs, fun x => ?_, (copies h).trans (copyOf_dropCopy held), fun k other => (copies k).trans (copyOf_dropCopy_other other),
    fun c other => (cell c).trans (cell_dropCopy_other other), fun agent => (cells.trans cells').trans (cells_dropCopy_host agent), ?_⟩
  · rw [mem.trans mem', memRead_writeBytes s whole]
  · rw [recalls, recalls']
    dsimp only
    split
    · exact List.find?_eq_none.2 fun k hk => by simpa using (List.mem_filter.1 hk).2
    · exact find_updateWhere_self (f := fun k => { k with holders := r.holders.filter (· != h) }) (fun _ => rfl) found

/-- Settles O45: requests at home, the first fill of a region, and the answers to recalls, part by part. -/
theorem homeAndRecallEvents : Obligations.HomeAndRecallEvents := by
  unfold Obligations.HomeAndRecallEvents
  exact ⟨homeRequests, exclusiveFill, recallAnswers⟩

end Sys2Proof.Machine
end


section
/-! # Streams at work (O52, R70 to R72, R132, R302) -/

namespace Sys2Proof.Machine
open Sys2Proof

/-! The end of a command: its census, its record and its arc (R132, R312). -/

theorem discharged_charge {s w u : State} {k : Option Seat} (before : w.census = s.census) (after : u.census = (w.charge k (-1)).census) :
    Discharged s u k := by
  rintro q rfl
  rw [partOf_some, partOf_some, after, seatPart_charge, before, if_pos rfl]
  rfl

/-- An error that is corrected elsewhere is not counted here (R88). -/
theorem countAt_other {s : State} {code : Nat} (other : code ≠ 0x0C) (cell : Option Nat) (die asid va : Nat) :
    s.countAt code cell die asid va = s := by
  have named : (code != fUncorrectable) = true := by simpa [fUncorrectable] using other
  rw [State.countAt, if_pos named]

/-- A record of work that a context issued holds the context, and changes nothing else but the fault queue (R312, R375). -/
theorem engineRecord_spec {s : State} {c e x : Nat} (place : s.hasCtx c e x) (slot opcode prof lanes code cause addr : Nat) (of_ : RecordOf) :
    let w := (s.engineRecord c e x slot opcode prof lanes code cause addr of_).2
    (s.engineRecord c e x slot opcode prof lanes code cause addr of_).1 = s.nextId ∧
      w.dies = (s.pushRecord c e x slot opcode 2 prof (code, cause, lanes, addr) of_).2.dies ∧ w.hasCtx c e x ∧
      w.ctxOf c e x = { s.ctxOf c e x with heldBy := (s.ctxOf c e x).heldBy ++ [s.nextId] } ∧ LeavesContexts s w c e x ∧
      w.streams = s.streams ∧ w.census = s.census := by
  let pushed := (s.pushRecord c e x slot opcode 2 prof (code, cause, lanes, addr) of_).2
  have moves := Moves.setCtx c e x (fun y => { y with heldBy := y.heldBy ++ [s.nextId] }) pushed place.1 place.2.1
  obtain ⟨loaded, he, hx⟩ := moves.hasCtx_bounds ⟨place.1, place.2.1, place.2.2.1⟩
  have ctx := moves.ctx place.2.2.1
  refine ⟨rfl, rfl, ⟨loaded, he, hx, ?_, ?_⟩, ctx, leavesContexts_setCtx (s := pushed) _ place.1 place.2.1, rfl, rfl⟩
  · exact (congrArg (·.v.length) ctx).trans place.2.2.2.1
  · exact (congrArg (·.m.length) ctx).trans place.2.2.2.2

/-- The end of a command that sets an arc: the census, and the predicate (R132). -/
theorem chargedArc_spec {s : State} {c e x : Nat} (place : s.hasCtx c e x) (k : Option Seat) (prof : Nat) :
    let u := (s.charge k (-1)).setArc c e x (arcOf prof)
    u = { s with census := u.census, cells := u.cells } ∧ Discharged s u k ∧
      u.ctxOf c e x = { s.ctxOf c e x with p := arcSet prof (s.ctxOf c e x).p } := by
  have kept : (s.charge k (-1)).cells = s.cells := State.charge_cells s k (-1)
  have cell : (s.charge k (-1)).cell c = s.cell c := by rw [State.cell, kept, State.cell]
  have place' : (s.charge k (-1)).hasCtx c e x := by
    rw [State.hasCtx, State.loaded, kept, State.ctxOf, cell]
    exact place
  refine ⟨?_, discharged_charge rfl ?_, ?_⟩
  · cases k <;> cases arcOf prof <;> rfl
  · cases arcOf prof <;> rfl
  · rw [ctxOf_setArc (arcOf prof) place', arcCtx_preds, State.ctxOf, cell]
    rfl

/-! A stream opens, or its open is refused (R70, R71, R302). -/

theorem stream_setStream {s : State} (id : Nat) {f : Stream → Stream} (hf : ∀ k, (f k).id = k.id) :
    (s.setStream id f).stream? id = (s.stream? id).map f :=
  (find_updateWhere_key Stream.id s.streams id id hf).trans (if_pos rfl)

theorem streamBad_code {s : State} {k : Stream} {d : List Nat} {code : Nat} (bad : s.streamBad k d = some code) : code ≠ 0x0C := by
  have codes : code = fFormat ∨ code = fPermission := by
    simp only [State.streamBad] at bad
    split at bad
    · exact .inl (Option.some.inj bad).symm
    · split at bad
      · exact .inr (Option.some.inj bad).symm
      · split at bad
        · exact .inl (Option.some.inj bad).symm
        · split at bad
          · exact .inl (Option.some.inj bad).symm
          · cases bad
  rcases codes with rfl | rfl <;> decide

/-- A stream that has opened with a descriptor (R70, R71). -/
def Stream.openedWith (d : List Nat) (dest : Option Seat) (k : Stream) : Stream := { k with opened := true, desc := d, dest := dest }

theorem exec_streamOpen {s z : State} {k : Stream} {pa leaf : Nat} {page : Nat} {d : List Nat} (found : s.stream? k.id = some k)
    (closed : k.opened = false) (paused : k.paused = none) (free : s.fenced k.cell k.elem k.ctx k.seq 8 = false)
    (mapped : s.translate none (k.slice / 48) k.asid (k.launch == 0) .load k.addr = (.ok pa leaf page, s))
    (described : s.descriptionWaits k.cell k.elem k.ctx k.seq k.asid k.addr pa leaf 64 = false)
    (read : s.engineLoadPiece none (k.slice / 48) k.asid (k.launch == 0) .load 0 k.addr 64 = .ok d z) :
    exec (.streamOpen k.id) s = .next (match z.streamBad k d with
      | some code => z.streamRefuse k code
      | none => (z.setStream k.id (Stream.openedWith d (z.cell (stCell d)).seat)).streamOpened k) := by
  simp only [exec, execStreamOpen, found, closed, paused, free, mapped, described, read, Option.isSome_none, Bool.or_self, Bool.false_eq_true,
    if_false]
  rfl

/-- What a completed open leaves (R132, R302). -/
theorem streamOpened_spec {z : State} {k : Stream} {d : List Nat}
    (place : z.hasCtx k.cell k.elem k.ctx) (dest : Option Seat) :
    let u := (z.setStream k.id (Stream.openedWith d dest)).streamOpened k
    u.stream? k.id = (z.stream? k.id).map (Stream.openedWith d dest) ∧ Discharged z u k.seat ∧
      u.ctxOf k.cell k.elem k.ctx = { z.ctxOf k.cell k.elem k.ctx with p := arcSet k.profile (z.ctxOf k.cell k.elem k.ctx).p } ∧
      u.flights = z.flights ∧ u.mem = z.mem := by
  obtain ⟨frame, census, ctx⟩ := chargedArc_spec (s := z.setStream k.id (Stream.openedWith d dest)) place k.seat k.profile
  refine ⟨?_, census, ctx, ?_, ?_⟩
  · rw [State.streamOpened, frame]
    exact stream_setStream k.id fun _ => rfl
  · rw [State.streamOpened, frame]
    rfl
  · rw [State.streamOpened, frame]
    rfl

/-- What a refused open leaves (R71, R302, R375). -/
theorem streamRefuse_spec {z : State} {k : Stream} {code : Nat} (other : code ≠ 0x0C) (place : z.hasCtx k.cell k.elem k.ctx)
    (hd : dieOf k.cell < z.dies.length) :
    let u := z.streamRefuse k code
    let x := z.ctxOf k.cell k.elem k.ctx
    u.stream? k.id = none ∧ Discharged z u k.seat ∧
      ∃ id, Raised z u k.cell k.elem k.ctx k.slot 0x6B 2 k.profile (code, 0, lowMark k.m0, k.addr) (.stream k.id) id ∧
        u.ctxOf k.cell k.elem k.ctx = { x with p := arcSet k.profile x.p, heldBy := x.heldBy ++ [id] } := by
  intro u x
  obtain ⟨id, dies, place', ctx, -, -, census⟩ :=
    engineRecord_spec place k.slot 0x6B k.profile (lowMark k.m0) code 0 k.addr (.stream k.id)
  let w := (z.engineRecord k.cell k.elem k.ctx k.slot 0x6B k.profile (lowMark k.m0) code 0 k.addr (.stream k.id)).2
  have paused : z.streamPause k code 0 k.addr = w.setStream k.id fun k => { k with paused := some z.nextId } := by
    rw [State.streamPause, countAt_other other]
    rfl
  have place'' : (z.streamPause k code 0 k.addr).hasCtx k.cell k.elem k.ctx := by
    rw [paused]
    exact place'
  obtain ⟨frame, charged, ctx'⟩ := chargedArc_spec place'' k.seat k.profile
  have dies' : u.dies = w.dies := by
    show (((z.streamPause k code 0 k.addr).charge k.seat (-1)).setArc k.cell k.elem k.ctx (arcOf k.profile)).dies = _
    rw [frame, paused]
    rfl
  refine ⟨List.find?_eq_none.2 fun y hy => by simpa using (List.mem_filter.1 hy).2, fun q hq => (charged q hq).trans ?_, z.nextId,
    raised_pushed _ _ hd (dies'.trans dies), ctx'.trans ?_⟩
  · rw [paused, partOf_some, partOf_some]
    exact congrArg (fun cs => seatPart q cs - 1) census
  · rw [paused]
    exact congrArg (fun y : Ctx => { y with p := arcSet k.profile y.p }) ctx

/-! A stream pushes a token (R72, R73). -/

section
variable {s : State} {k : Stream} {t : Nat → State} {f : Nat → List Nat}

/-- The first element of the next token that is not yet read, and the end of the token (R72). -/
def Stream.unread (k : Stream) : Nat × Nat :=
  (k.next * stPer k.desc + k.buf.length / stEsize k.desc,
    min (stCount k.desc) (k.next * stPer k.desc + stPer k.desc))

/-- The elements of a token read one by one (R72): `t n` is the state after n of them, and `f n` the bytes of the next. -/
def State.readsToken (s : State) (k : Stream) (t : Nat → State) (f : Nat → List Nat) : Prop :=
  let (lo, hi) := k.unread
  t 0 = s ∧ ∀ n, n < hi - lo → ∃ y,
    (t n).engineLoad none (k.slice / 48) k.asid (k.launch == 0) (hintOf (stProf k.desc)) (stAddr k.desc (lo + n)) (stEsize k.desc) = .ok (f n) y ∧
    t (n + 1) = y.setStream k.id fun x => { x with buf := k.buf ++ (List.range (n + 1)).flatMap f }

/-- One element of a token read, after those before it (R72). -/
def Stream.readNext (k : Stream) (p : State × HubResult) (i : Nat) : State × HubResult :=
  match p.2 with
  | .ok bs _ => match p.1.engineLoad none (k.slice / 48) k.asid (k.launch == 0) (hintOf (stProf k.desc)) (stAddr k.desc (k.unread.1 + i))
      (stEsize k.desc) with
    | .ok new s => (s.setStream k.id fun x => { x with buf := bs ++ new }, .ok (bs ++ new) s)
    | r => (p.1, r)
  | _ => p

theorem streamRead_eq (s : State) (k : Stream) :
    s.streamRead k = (List.range (k.unread.2 - k.unread.1)).foldl k.readNext (s, .ok k.buf s) := rfl

theorem streamRead_token (reads : s.readsToken k t f) : ∃ v, s.streamRead k =
    (t (k.unread.2 - k.unread.1), .ok (k.buf ++ (List.range (k.unread.2 - k.unread.1)).flatMap f) v) := by
  obtain ⟨first, each⟩ := reads
  have upTo : ∀ m, m ≤ k.unread.2 - k.unread.1 →
      ∃ v, (List.range m).foldl k.readNext (s, .ok k.buf s) = (t m, .ok (k.buf ++ (List.range m).flatMap f) v) := by
    intro m
    induction m with
    | zero => exact fun _ => ⟨s, by simp [first]⟩
    | succ m ih =>
      intro bound
      obtain ⟨v, before⟩ := ih (by omega)
      obtain ⟨y, load, next⟩ := each m bound
      have joined : k.buf ++ (List.range (m + 1)).flatMap f = k.buf ++ (List.range m).flatMap f ++ f m := by
        simp [List.range_succ]
      refine ⟨y, ?_⟩
      rw [List.range_succ, List.foldl_append, before, ← List.range_succ, joined, next, joined]
      have load' : (t m).engineLoad none (k.slice / 48) k.asid (k.launch == 0) (hintOf (stProf k.desc)) (stAddr k.desc (k.unread.1 + m))
          (stEsize k.desc) = .ok (f m) y := load
      simp only [List.foldl_cons, List.foldl_nil, Stream.readNext, load']
  rw [streamRead_eq]
  exact upTo _ (Nat.le_refl _)

theorem exec_streamPush {cell : Nat} (found : s.stream? k.id = some k) (opened : k.opened = true) (going : k.closing = false)
    (more : k.ended = false) (paused : k.paused = none) (whole : k.cut = false) (quiet : ∀ g ∈ s.grants, g.source ≠ .stream k.id)
    (room : k.pushed - k.popped < stWindow k.desc) (dest : k.dest.bind s.cellOfSeat = some cell) (runs : (s.cell cell).stopped = false)
    (loaded : s.loaded k.cell = true) (free : s.dieWaits (k.slice / 48) = false) (reads : s.readsToken k t f) :
    exec (.streamPush k.id) s = .next ((t (k.unread.2 - k.unread.1)).streamSend k cell
      ((stTag k.desc + k.next) % 2 ^ 31 + boolBit (decide (stCount k.desc ≤ (k.next + 1) * stPer k.desc)) 31)
      (k.buf ++ (List.range (k.unread.2 - k.unread.1)).flatMap f) (decide (stCount k.desc ≤ (k.next + 1) * stPer k.desc))) := by
  have idle : (s.grants.any fun g => g.source == .stream k.id) = false := by simpa using quiet
  have open_ : ¬k.pushed - k.popped ≥ stWindow k.desc := by omega
  have here : (s.cells.any (·.id == k.cell)) = true := loaded
  obtain ⟨v, read⟩ := streamRead_token reads
  simp only [exec, execStreamPush, found, opened, going, more, paused, whole, idle, open_, dest, runs, here, free, read, Bool.not_true,
    Option.isSome_none, Bool.or_self, Bool.false_eq_true, if_false, decide_false, ge_iff_le]

/-- A token sent (R72, R177). -/
theorem streamSend_spec (z : State) (cell tag : Nat) (bs : List Nat) (last : Bool) :
    let target := Target.chan cell (stElem k.desc) (stChan k.desc)
    let u := z.streamSend k cell tag bs last
    u.stream? k.id = (z.stream? k.id).map (fun y => { y with next := y.next + 1, ended := y.ended || last, cut := false, buf := [] }) ∧
      u.cells = z.cells ∧ u.mem = z.mem ∧ (∃ g, u.grants = z.grants ++ [⟨g, .stream k.id, target⟩]) ∧
      ∃ f, u.flights = z.flights ++ [⟨f, .stream k.id, target,
        [⟨BitVec.ofNat 32 tag, wordsOfBytes (stWidth k.desc) (sliceBytes bs 0 (4 * stWidth k.desc)), k.seat, some k.id⟩], some 0⟩] :=
  ⟨stream_setStream k.id fun _ => rfl, rfl, rfl, ⟨_, rfl⟩, ⟨_, rfl⟩⟩

end

/-! A stream closes (R73, R302). -/

/-- A stream, its requests and its unsent tokens are gone (R73). -/
def State.dropStream (s : State) (id : Nat) : State :=
  { s with
      streams := s.streams.filter (·.id != id), grants := s.grants.filter (!·.source == .stream id)
      flights := s.flights.filter fun f => !(f.source == .stream id && f.place.isSome) }

theorem stream_dropped (s : State) (id : Nat) : (s.streams.filter (·.id != id)).find? (·.id == id) = none :=
  List.find?_eq_none.2 fun y hy => by simpa using (List.mem_filter.1 hy).2

theorem exec_streamClose_popped {s : State} {k : Stream} (found : s.stream? k.id = some k) (going : k.closing = false)
    (opened : k.opened = true) (ended : k.ended = true) (popped : k.pushed = k.popped) (sent : ∀ f ∈ s.flights, f.source ≠ .stream k.id) :
    exec (.streamClose k.id) s = .next (s.dropStream k.id) := by
  have landed : (s.flights.any fun f => f.source == .stream k.id) = false := by simpa using sent
  have finished : (k.opened && k.ended && k.pushed == k.popped && !(s.flights.any fun f => f.source == .stream k.id)) = true := by
    simp [opened, ended, popped, landed]
  simp only [exec, execStreamClose, found, going, finished, Bool.false_eq_true, if_false, if_true]
  rfl

theorem exec_streamClose_closing {s : State} {k : Stream} {y : StreamClose} (found : s.stream? k.id = some k) (closing : k.closing = true)
    (one : s.closes.filter (·.stream == k.id) = [y]) : exec (.streamClose k.id) s =
      .next ((State.charge { s.dropStream k.id with closes := s.closes.filter (·.stream != k.id) } y.seat (-1)).setArc y.cell y.elem y.ctx
        (arcOf y.profile)) := by
  simp only [exec, execStreamClose, found, closing, one, if_true, List.foldl_cons, List.foldl_nil]
  rfl

theorem streamsRun : StreamsRun := by
  intro s k found
  refine ⟨fun pa leaf page d z closed paused free mapped described read place => ⟨fun good => ⟨_, ?_, streamOpened_spec place _⟩,
    fun code bad hd => ⟨_, ?_, streamRefuse_spec (streamBad_code bad) place hd⟩⟩, ?_, ?_, ?_⟩
  · rw [exec_streamOpen found closed paused free mapped described read, good]
  · rw [exec_streamOpen found closed paused free mapped described read, bad]
  · intro cell t f opened going more paused whole quiet room dest runs place free per lo hi z reads
    refine ⟨_, exec_streamPush found opened going more paused whole quiet room dest runs place.1 free reads, ?_⟩
    exact streamSend_spec z cell _ _ _
  · intro going opened ended popped sent
    exact ⟨_, exec_streamClose_popped found going opened ended popped sent, stream_dropped s k.id, rfl, rfl⟩
  · intro y closing one place
    obtain ⟨frame, census, ctx⟩ :=
      chargedArc_spec (s := { s.dropStream k.id with closes := s.closes.filter (·.stream != k.id) }) place y.seat y.profile
    refine ⟨_, exec_streamClose_closing found closing one, ?_, census, ?_, ?_, ctx⟩
    · rw [frame]
      exact stream_dropped s k.id
    · rw [frame]
    · rw [frame]
      intro f hf source
      have kept := (List.mem_filter.1 hf).2
      simpa [source] using kept

end Sys2Proof.Machine
end


section
/-! # The descriptor of a stream (O52, R70 to R72) -/

namespace Sys2Proof.Machine
open Sys2Proof

/-! Fields of a descriptor. -/

theorem leNat_lt (bs : List Nat) : leNat bs < 256 ^ bs.length := by
  induction bs with
  | nil => decide
  | cons b bs ih =>
    rw [leNat, List.length_cons, Nat.pow_succ]
    have low := Nat.mod_lt b (show 0 < 256 by decide)
    omega

theorem length_sliceBytes (bs : List Nat) (o n : Nat) : (sliceBytes bs o n).length = n := by
  simp only [sliceBytes, List.length_append, List.length_replicate, List.length_take, List.length_drop]
  omega

theorem fieldAt_lt (d : List Nat) (o n : Nat) : fieldAt d o n < 256 ^ n := by
  have bound := leNat_lt (sliceBytes d o n)
  rwa [length_sliceBytes] at bound

/-- The lanes of a width code (R172). -/
theorem widthOfCode_eq (n : Nat) : widthOfCode (n % 4) = [1, 16, 32, 64].getD (n % 4) 0 := by
  have code : n % 4 < 4 := Nat.mod_lt _ (by decide)
  interval_cases n % 4 <;> rfl

/-- What a descriptor must keep on its own (R70, R71). -/
def stWell (d : List Nat) : Prop :=
  fieldAt d 40 1 < 4 ∧ fieldAt d 46 1 < 64 ∧ fieldAt d 46 1 / 4 % 2 = 0 ∧ fieldAt d 47 1 < 4 ∧ fieldAt d 48 4 < 2 ^ 31 ∧
    fieldAt d 54 8 = 0 ∧ fieldAt d 62 2 = 0 ∧ fieldAt d 52 2 < 2 ^ 12 ∧ fieldAt d 52 2 / 8 % 4 ≤ 1 ∧ 1 ≤ fieldAt d 41 1 ∧ fieldAt d 41 1 ≤ 4 ∧
    fieldAt d 42 2 ≤ 4095 ∧ 4 * [1, 16, 32, 64].getD (fieldAt d 47 1 % 4) 0 % 2 ^ (fieldAt d 40 1 % 4) = 0

theorem stBad_iff (d : List Nat) : stBad d = false ↔ stWell d := by
  have esize := fieldAt_lt d 40 1
  have dest := fieldAt_lt d 46 1
  have width := fieldAt_lt d 47 1
  have tag := fieldAt_lt d 48 4
  have prof := fieldAt_lt d 52 2
  simp only [stBad, stWell, Bool.or_eq_false_iff, bne_eq_false_iff_eq, decide_eq_false_iff_not, bit_eq_false_iff, and_assoc]
  simp only [stWidth, stEsize, stProf, stNdim, stWindow, orderOf, widthOfCode_eq, bits]
  refine and_congr (by omega) (and_congr (by omega) (and_congr (by omega) (and_congr (by omega) (and_congr (by omega) (and_congr Iff.rfl
    (and_congr Iff.rfl (and_congr (by omega) ?_)))))))
  constructor
  · rintro ⟨low, high, window, order, whole⟩
    exact ⟨by omega, by omega, by omega, by omega, whole⟩
  · rintro ⟨order, low, high, window, whole⟩
    exact ⟨by omega, by omega, by omega, by omega, whole⟩

/-! The elements of a stream (R70, R72). -/

theorem foldl_mul_range (f : Nat → Nat) (m a : Nat) :
    (List.range m).foldl (fun n i => n * f i) a = a * ((List.range m).map f).prod := by
  induction m with
  | zero => simp
  | succ m ih => simp [List.range_succ, ih, Nat.mul_assoc]

/-- The walk over the dimensions, innermost first: what is left of the number, and the address reached (R72). -/
theorem foldl_dimensions (size : Nat → Nat) (stride : Nat → Int) (b : Int) (n m : Nat) :
    (List.range m).foldl (fun (p : Int × Nat) i => (p.1 + (p.2 % size i : Nat) * stride i, p.2 / size i)) (b, n) =
      (b + ((List.range m).map fun i => ((n / ((List.range i).map size).prod % size i : Nat) : Int) * stride i).sum,
        n / ((List.range m).map size).prod) := by
  induction m with
  | zero => simp
  | succ m ih =>
    rw [List.range_succ, List.foldl_append, ih]
    simp only [List.foldl_cons, List.foldl_nil, List.map_append, List.map_cons, List.map_nil, List.sum_append, List.sum_singleton,
      List.prod_append, List.prod_singleton, Nat.div_div_eq_div_mul, Int.add_assoc]

theorem signed_eq_toInt (n : Nat) : signed 48 n = (BitVec.ofNat 48 n).toInt := by
  simp only [signed, BitVec.toInt_eq_toNat_cond, BitVec.toNat_ofNat]
  split <;> split <;> omega

theorem wrapInt_emod (k : Nat) (i : Int) : (wrapInt k i : Int) = i % 2 ^ k := by
  have positive : ((2 ^ k : Nat) : Int) ≠ 0 := by exact_mod_cast (Nat.two_pow_pos k).ne'
  rw [wrapInt, Int.toNat_of_nonneg (Int.emod_nonneg _ positive)]
  norm_cast

theorem stCount_prod (d : List Nat) : stCount d = ((List.range (fieldAt d 41 1)).map fun i => fieldAt d (8 + 2 * i) 2 + 1).prod :=
  (foldl_mul_range (stSize d) (stNdim d) 1).trans (Nat.one_mul _)

theorem stAddr_sum (d : List Nat) (n : Nat) :
    let size := fun i => fieldAt d (8 + 2 * i) 2 + 1
    let stride := fun i => (BitVec.ofNat 48 (fieldAt d (16 + 6 * i) 6)).toInt
    (stAddr d n : Int) = ((fieldAt d 0 8 : Int) + ((List.range (fieldAt d 41 1)).map fun i =>
      ((n / ((List.range i).map size).prod % size i : Nat) : Int) * stride i).sum) % 2 ^ 64 := by
  intro size stride
  have strides : stStride d = stride := funext fun i => signed_eq_toInt _
  rw [stAddr, wrapInt_emod, foldl_dimensions, strides]
  rfl

/-! Why a descriptor is refused (R71, R302). -/

/-- Another stream of the same launch is open with the same descriptor (R302). -/
def State.openedAgain (s : State) (k : Stream) : Prop :=
  ∃ x ∈ s.streams, x.id ≠ k.id ∧ x.opened = true ∧ (x.addr, x.asid, x.launch) = (k.addr, k.asid, k.launch)

theorem openedAgain_iff (s : State) (k : Stream) : (s.streams.any fun x => x.id != k.id && x.opened && x.addr == k.addr && x.asid == k.asid &&
    x.launch == k.launch) = true ↔ s.openedAgain k := by
  simp only [State.openedAgain, List.any_eq_true, Bool.and_eq_true, bne_iff_ne, beq_iff_eq, Prod.mk.injEq, and_assoc]

section
variable {s : State} {k : Stream} {d : List Nat}

theorem streamBad_ill (ill : ¬stWell d) : s.streamBad k d = some 0x05 := by
  rw [← stBad_iff, Bool.not_eq_false] at ill
  rw [State.streamBad, if_pos ill]
  rfl

variable (well : stWell d)
include well

theorem streamBad_foreign (foreign : s.sameLaunch k.cell (fieldAt d 44 2) = false) : s.streamBad k d = some 0x02 := by
  have kept := (stBad_iff d).2 well
  have other : (!s.sameLaunch k.cell (stCell d)) = true := by rw [stCell, foreign]; rfl
  rw [State.streamBad, if_neg (by simp [kept]), if_pos other]
  rfl

variable (own : s.sameLaunch k.cell (fieldAt d 44 2) = true)
include own

/-- The width code of the target channel (R172). -/
def State.stTarget (s : State) (d : List Nat) : Nat :=
  ((s.cell (fieldAt d 44 2)).draftElem (fieldAt d 46 1 % 4)).chans.getD (fieldAt d 46 1 / 8 % 8) 0 % 4

theorem streamBad_own : s.streamBad k d = if s.stTarget d ≠ fieldAt d 47 1 then some 0x05
    else if (s.streams.any fun x => x.id != k.id && x.opened && x.addr == k.addr && x.asid == k.asid && x.launch == k.launch) = true
    then some 0x05 else none := by
  have kept := (stBad_iff d).2 well
  obtain ⟨-, -, -, width, -⟩ := well
  have same : (!s.sameLaunch k.cell (stCell d)) = false := by rw [stCell, own]; rfl
  have target : bits (((s.cell (stCell d)).draftElem (stElem d)).chans.getD (stChan d) 0) 1 0 = s.stTarget d := by
    simp [State.stTarget, bits, stChan, stElem, stCell]
  simp only [State.streamBad, kept, same, target, Nat.mod_eq_of_lt width, Bool.false_eq_true, if_false, bne_iff_ne]
  rfl

end

theorem streamDescriptors : StreamDescriptors := by
  intro s k d _
  refine ⟨fun ill => streamBad_ill ill, fun well foreign => streamBad_foreign well foreign, fun well own => ?_, stCount_prod d, stAddr_sum d⟩
  have verdict := streamBad_own (k := k) well own
  refine ⟨fun width => verdict.trans (if_pos width), fun width again => verdict.trans ?_, fun width fresh => verdict.trans ?_⟩
  · exact (if_neg (not_not.2 width)).trans (if_pos ((openedAgain_iff s k).2 again))
  · exact (if_neg (not_not.2 width)).trans (if_neg fun again => fresh ((openedAgain_iff s k).1 again))

end Sys2Proof.Machine
end


section
/-! # The sums of the heddle array (O52, R304, R316, R318) -/

namespace Sys2Proof.Machine
open Sys2Proof

/-! A weight as the sum of its planes (R304). -/

/-- The low bits of a number, plane by plane. -/
theorem sum_bits (m q : Nat) : ((List.range q).map fun j => (2 ^ j : Int) * if m.testBit j then 1 else 0).sum = (m % 2 ^ q : Nat) := by
  induction q with
  | zero => simp [Nat.mod_one]
  | succ q ih =>
    rw [List.range_succ, List.map_append, List.sum_append, ih, Nat.mod_pow_succ, ← Nat.toNat_testBit]
    cases set : m.testBit q <;> simp [set]

/-- The planes of a weight in two's complement make up the weight (R304). -/
theorem sum_planes {pw : Nat} (positive : 1 ≤ pw) {w : Int} (low : -2 ^ (pw - 1) ≤ w) (high : w < 2 ^ (pw - 1)) :
    ((List.range pw).map fun j => planeWeight pw j * if (w % 2 ^ pw).toNat.testBit j then 1 else 0).sum = w := by
  obtain ⟨q, rfl⟩ : ∃ q, pw = q + 1 := ⟨pw - 1, by omega⟩
  rw [Nat.add_sub_cancel] at low high
  generalize pattern : (w % 2 ^ (q + 1)).toNat = m
  have below : (List.range q).map (fun j => planeWeight (q + 1) j * if m.testBit j then 1 else 0) =
      (List.range q).map fun j => (2 ^ j : Int) * if m.testBit j then 1 else 0 := by
    refine List.map_congr_left fun j hj => ?_
    have lower : j + 1 ≠ q + 1 := by have := List.mem_range.1 hj; omega
    rw [planeWeight, if_neg lower]
    norm_cast
  have sign : planeWeight (q + 1) q = -2 ^ q := by
    rw [planeWeight, if_pos rfl]
    norm_cast
  have parts : m % 2 ^ (q + 1) = m % 2 ^ q + 2 ^ q * (m.testBit q).toNat := by rw [Nat.mod_pow_succ, Nat.toNat_testBit]
  rw [List.range_succ, List.map_append, List.sum_append, below, sum_bits]
  simp only [List.map_cons, List.map_nil, List.sum_singleton, sign]
  have double : (2 ^ (q + 1) : Int) = 2 * 2 ^ q := by ring
  have half : (0 : Int) < 2 ^ q := by positivity
  have value : (m : Int) = w % 2 ^ (q + 1) := by
    rw [← pattern, Int.toNat_of_nonneg (Int.emod_nonneg _ (by omega))]
  have whole : m % 2 ^ (q + 1) = m := by
    refine Nat.mod_eq_of_lt ?_
    have bound := Int.emod_lt_of_pos w (show (0 : Int) < 2 ^ (q + 1) by omega)
    rw [← value] at bound
    exact_mod_cast bound
  have rest := Nat.mod_lt m (Nat.two_pow_pos q)
  have casts : ((2 ^ q : Nat) : Int) = 2 ^ q := by norm_cast
  rw [whole] at parts
  rcases lt_or_ge w 0 with negative | natural
  · have wraps : w % 2 ^ (q + 1) = w + 2 ^ (q + 1) := by
      rw [← Int.add_emod_right, Int.emod_eq_of_lt (by omega) (by omega)]
    cases set : m.testBit q with
    | true =>
      rw [set] at parts
      simp only [Bool.toNat_true, if_true] at parts ⊢
      omega
    | false =>
      rw [set] at parts
      simp only [Bool.toNat_false] at parts
      omega
  · have plain : w % 2 ^ (q + 1) = w := Int.emod_eq_of_lt natural (by omega)
    cases set : m.testBit q with
    | true =>
      rw [set] at parts
      simp only [Bool.toNat_true] at parts
      omega
    | false =>
      rw [set] at parts
      simp only [Bool.toNat_false, Bool.false_eq_true, if_false] at parts ⊢
      omega

/-! A group (R304, R316). -/

/-- Activations where a plane of their weights is set, plane by plane (R304). -/
theorem sum_group {pw : Nat} (positive : 1 ≤ pw) (l : List (Int × Int)) (range : ∀ p ∈ l, -2 ^ (pw - 1) ≤ p.2 ∧ p.2 < 2 ^ (pw - 1)) :
    ((List.range pw).map fun j => planeWeight pw j * (l.map fun p => if (p.2 % 2 ^ pw).toNat.testBit j then p.1 else 0).sum).sum =
      (l.map fun p => p.1 * p.2).sum := by
  induction l with
  | nil => simp
  | cons p l ih =>
    have here := range p List.mem_cons_self
    have planes := sum_planes positive here.1 here.2
    have own : ((List.range pw).map fun j => planeWeight pw j * if (p.2 % 2 ^ pw).toNat.testBit j then p.1 else 0).sum = p.1 * p.2 := by
      rw [← congrArg (p.1 * ·) planes, ← List.sum_map_mul_left]
      refine congrArg List.sum (List.map_congr_left fun j _ => ?_)
      split <;> ring
    simp only [List.map_cons, List.sum_cons, mul_add, List.sum_map_add, own, ih fun q hq => range q (List.mem_cons_of_mem p hq)]

theorem groupSum_eq {pw n : Nat} {acts ws : List Int} {rows : List (List Nat)} (positive : 1 ≤ pw) (same : acts.length = ws.length)
    (range : ∀ w ∈ ws, -2 ^ (pw - 1) ≤ w ∧ w < 2 ^ (pw - 1))
    (bits : ∀ j, j < pw → (rows.getD j []).length = acts.length ∧
      ∀ r, r < acts.length → ((rows.getD j []).getD r 0).testBit n = (ws.getD r 0 % 2 ^ pw).toNat.testBit j) :
    groupSum acts ((List.range pw).map fun j => (planeWeight pw j, rows.getD j [])) n = ((acts.zip ws).map fun p => p.1 * p.2).sum := by
  rw [← sum_group positive (acts.zip ws) fun p hp => range p.2 (List.of_mem_zip hp).2, groupSum, List.map_map]
  refine congrArg List.sum (List.map_congr_left fun j hj => congrArg (planeWeight pw j * List.sum ·) ?_)
  obtain ⟨length, set⟩ := bits j (List.mem_range.1 hj)
  dsimp only
  generalize rows.getD j [] = row at length set ⊢
  refine List.ext_getElem (by simp [length, same]) fun r h _ => ?_
  have inside : r < acts.length := by
    simp only [List.length_map, List.length_zip] at h
    omega
  have here := set r inside
  rw [List.getD_eq_getElem row 0 (length.symm ▸ inside), List.getD_eq_getElem ws 0 (same ▸ inside)] at here
  simp [bit_eq_testBit, here]

theorem arraySums : ArraySums :=
  ⟨fun _ _ _ _ _ positive same range bits => groupSum_eq positive same range bits, fun _ _ => ⟨rfl, rfl⟩, fun sum a w =>
    ⟨fun unknown => if_pos (by simpa using unknown), fun ha hw => by simp [groupVal, ha, hw]⟩⟩

end Sys2Proof.Machine
end


section
/-! # The heddle queue at work (O52, R310 to R312, R316, R317) -/

namespace Sys2Proof.Machine
open Sys2Proof

/-! The queue of a cell's heddle. -/

theorem loaded_of_hcmd {s : State} {c id : Nat} {x : HCmd} (found : s.hcmd? c id = some x) : s.loaded c = true := by
  by_contra h
  rw [State.hcmd?, cell_of_unloaded (by simpa using h)] at found
  cases found

theorem id_of_hcmd {s : State} {c id : Nat} {x : HCmd} (found : s.hcmd? c id = some x) : x.id = id := by
  simpa using List.find?_some found

theorem hcmd_congr {s u : State} {c : Nat} (heddle : (u.cell c).heddle = (s.cell c).heddle) (id : Nat) : u.hcmd? c id = s.hcmd? c id := by
  rw [State.hcmd?, heddle, State.hcmd?]

/-- A cell whose heddle has changed. -/
def Cell.withHeddle (f : Heddle → Heddle) (k : Cell) : Cell := { k with heddle := f k.heddle }

/-- A heddle whose commands of a number have changed. -/
def Heddle.withCommand (id : Nat) (f : HCmd → HCmd) (h : Heddle) : Heddle := { h with queue := updateWhere (·.id == id) f h.queue }

theorem cell_setHeddle {s : State} {c : Nat} (loaded : s.loaded c = true) (f : Heddle → Heddle) :
    (s.setHeddle c f).cell c = (s.cell c).withHeddle f :=
  (State.cell_setCell s c c (Cell.withHeddle f) (fun _ => rfl) loaded).trans (if_pos rfl)

theorem hcmd_setHcmd {s : State} {c id : Nat} {x : HCmd} (found : s.hcmd? c id = some x) {f : HCmd → HCmd} (keeps : ∀ y, (f y).id = y.id) :
    (s.setHcmd c id f).hcmd? c id = some (f x) := by
  have here := cell_setHeddle (loaded_of_hcmd found) (Heddle.withCommand id f)
  have update := find_updateWhere_key HCmd.id (s.cell c).heddle.queue id id keeps
  rw [if_pos rfl] at update
  rw [State.hcmd?] at found
  rw [State.hcmd?, State.setHcmd, show (s.setHeddle c fun h => { h with queue := updateWhere (·.id == id) f h.queue }).cell c = _ from here]
  exact update.trans (by rw [found]; rfl)

theorem hcmd_setHcmd_other (s : State) {c n : Nat} (other : n ≠ c) (id id' : Nat) (f : HCmd → HCmd) :
    (s.setHcmd c id f).hcmd? n id' = s.hcmd? n id' := by
  refine hcmd_congr (congrArg Cell.heddle ?_) id'
  exact State.cell_setCell_ne s c n (Cell.withHeddle (Heddle.withCommand id f)) (fun _ => rfl) other

/-- A command with a record against its context (R312). -/
def HCmd.pausedBy (rid : Nat) (x : HCmd) : HCmd := { x with started := true, paused := some rid }

/-- A command that pauses with a record (R312, R375). -/
theorem heddlePause_spec {s : State} {c : Nat} {x : HCmd} {code : Nat} (other : code ≠ 0x0C) (cause addr : Nat)
    (found : s.hcmd? c x.id = some x) (place : s.hasCtx c x.elem x.ctx) (hd : dieOf c < s.dies.length) :
    let u := s.heddlePause c x code cause addr
    Raised s u c x.elem x.ctx x.slot x.opcode 2 0 (code, cause, lowMark x.m0, addr) (.heddle c x.id) s.nextId ∧
      (u.ctxOf c x.elem x.ctx).heldBy = (s.ctxOf c x.elem x.ctx).heldBy ++ [s.nextId] ∧
      u.hcmd? c x.id = some (x.pausedBy s.nextId) := by
  obtain ⟨-, dies, place', ctx, leaves, -, -⟩ := engineRecord_spec place x.slot x.opcode 0 (lowMark x.m0) code cause addr (.heddle c x.id)
  let w := (s.engineRecord c x.elem x.ctx x.slot x.opcode 0 (lowMark x.m0) code cause addr (.heddle c x.id)).2
  have uncounted : code ≠ fUncorrectable := other
  have pauses : s.heddlePause c x code cause addr = w.setHcmd c x.id (HCmd.pausedBy s.nextId) := by
    rw [State.heddlePause, countAt_other other, if_neg uncounted, ite_self]
    rfl
  have kept : w.hcmd? c x.id = some x := by
    refine (hcmd_congr ?_ x.id).trans found
    obtain ⟨-, own, -⟩ := leaves
    rw [own]
  intro u
  have eq : u = w.setHcmd c x.id (HCmd.pausedBy s.nextId) := pauses
  refine ⟨raised_pushed _ _ hd ?_, ?_, ?_⟩
  · rw [eq]
    exact dies
  · have cell := cell_setHeddle place'.1 (Heddle.withCommand x.id (HCmd.pausedBy s.nextId))
    have same : u.ctxOf c x.elem x.ctx = w.ctxOf c x.elem x.ctx := by
      rw [eq, State.ctxOf, show (w.setHcmd c x.id (HCmd.pausedBy s.nextId)).cell c = _ from cell]
      rfl
    rw [same, ctx]
  · rw [eq]
    exact hcmd_setHcmd kept fun _ => rfl

/-! A command starts (R310, R312). -/

theorem heddleFault_code {s : State} {k : Cell} {x : HCmd} {code cause a : Nat} (fault : s.heddleFault k x = some (code, cause, a)) :
    code ≠ 0x0C := by
  have codes : code = fHeddleShape ∨ code = fTranslation := by
    simp only [State.heddleFault] at fault
    split at fault
    · cases fault
      exact .inl rfl
    · split at fault
      · cases fault
        exact .inl rfl
      · obtain ⟨b, -, eq⟩ := Option.map_eq_some_iff.1 fault
        cases eq
        exact .inr rfl
  rcases codes with rfl | rfl <;> decide

section
variable {s : State} {c : Nat} {x : HCmd} (oldest : (s.cell c).heddle.queue.find? (!·.started) = some x)
include oldest

theorem exec_heddleStart_waits (waits : s.mayStart (s.cell c) x = false) : exec (.heddleCommandStart c) s = .next s := by
  simp only [exec, execHeddleCommandStart, oldest, waits, Bool.not_false, if_true]

theorem exec_heddleStart_passes (may : s.mayStart (s.cell c) x = true) (good : s.heddleFault (s.cell c) x = none) :
    exec (.heddleCommandStart c) s = .next (s.setHcmd c x.id fun k => { k with started := true }) := by
  simp only [exec, execHeddleCommandStart, oldest, may, good, Bool.not_true, Bool.false_eq_true, if_false]

theorem exec_heddleStart_fails {code cause a : Nat} (may : s.mayStart (s.cell c) x = true)
    (bad : s.heddleFault (s.cell c) x = some (code, cause, a)) :
    exec (.heddleCommandStart c) s = .next (s.heddlePause c x code cause a) := by
  simp only [exec, execHeddleCommandStart, oldest, may, bad, Bool.not_true, Bool.false_eq_true, if_false]

end

/-! Rows of a result (R310, R316). -/

/-- A run of bytes covers at least one row. -/
theorem sramRows_ne_nil (a : Nat) {bs : List Nat} (some_ : bs ≠ []) : sramRows a bs ≠ [] := by
  have length : 0 < bs.length := List.length_pos_iff.2 some_
  refine List.ne_nil_of_mem (a := (a, sliceBytes bs (a - a) (min (a + bs.length) ((a / 32 + 0 + 1) * 32) - a))) ?_
  rw [sramRows, List.mem_filterMap]
  refine ⟨0, List.mem_range.2 (by omega), ?_⟩
  have first : max a ((a / 32 + 0) * 32) = a := by omega
  dsimp only
  rw [first, if_pos (by omega)]

theorem length_wordsOfBytes (n : Nat) (bs : List Nat) : (wordsOfBytes n bs).length = n := by
  induction n generalizing bs with
  | zero => rfl
  | succ n ih => simp [wordsOfBytes, ih]

/-- Both chains of a row are whole (R308). -/
def wholeChains (ch : List Word × List Word) : Prop := ch.1.length = 256 ∧ ch.2.length = 256

theorem wholeChains_zero : wholeChains zeroChains := ⟨List.length_replicate, List.length_replicate⟩

theorem wholeChains_accRow (sram : List Host.Cell) (base m : Nat) : wholeChains (accRow sram base m) :=
  ⟨length_wordsOfBytes _ _, length_wordsOfBytes _ _⟩

theorem accOut_ne_nil (base m : Nat) {ch : List Word × List Word} (whole : wholeChains ch) : accOut base m ch ≠ [] := by
  refine sramRows_ne_nil _ fun empty => ?_
  have chain := congrArg List.length (List.append_eq_nil_iff.1 empty).1
  have first := whole.1
  obtain ⟨w, ws, eq⟩ := List.exists_cons_of_length_pos (show 0 < ch.1.length by omega)
  rw [eq] at chain
  simp [bytesOfWords, leBytes] at chain

theorem length_addGroup (chain : List Word) (vals : List Nat) : (addGroup chain vals).length = min chain.length vals.length := by
  simp [addGroup]

/-- The groups added to a row keep its chains whole (R208, R316). -/
theorem wholeChains_mma (x : HCmd) (k : Cell) (m : Nat) {ch : List Word × List Word} (whole : wholeChains ch) :
    wholeChains (x.mma k m ch) := by
  rw [HCmd.mma, mmaRow]
  refine List.foldlRecOn _ _ whole fun ch whole i _ => ?_
  obtain ⟨first, second⟩ := whole
  dsimp only
  split
  · exact ⟨by simp [length_addGroup, first], second⟩
  · exact ⟨first, by simp [length_addGroup, second]⟩

/-! A result is computed (R310, R316, R317). -/

/-- Where no soft error stands, no read of SRAM meets one (R87). -/
theorem sramBad_clean {s : State} (clean : s.upsets = []) (c : Nat) (rs : List (Nat × Nat)) : s.sramBad c rs = none := by
  rw [State.sramBad, List.findSome?_eq_none_iff]
  intro r _
  rw [clean]
  rfl

theorem correctRanges_clean {s : State} (clean : s.upsets = []) (c : Nat) (rs : List (Nat × Nat)) : s.correctRanges c rs = s := by
  have each (r : Nat × Nat) : s.correctSram c r.1 r.2 = s := correctSingles_none (by simp [clean])
  rw [State.correctRanges]
  induction rs with
  | nil => rfl
  | cons r rs ih => rw [List.foldl_cons, each, ih]

/-- A command whose rows of a result wait to be written (R310). -/
def HCmd.withOut (rows : List (Nat × List Nat)) (x : HCmd) : HCmd := { x with out := rows }

theorem hcmd_setOut {s : State} {c : Nat} {x : HCmd} (found : s.hcmd? c x.id = some x) (rows : List (Nat × List Nat)) :
    (s.setOut c x rows).hcmd? c x.id = some (x.withOut rows) := hcmd_setHcmd found (f := HCmd.withOut rows) fun _ => rfl

section
variable {s : State} {c : Nat} {x : HCmd}

theorem heddleGoes_of (started : x.started = true) (paused : x.paused = none) (runs : (s.cell c).stopped = false ∨ arrayPath x.opcode = true)
    (loads : s.loadsPending c x.elem x.ctx x.seq = false) (waits : s.cellWaits c x.elem x.ctx = false) : s.heddleGoes (s.cell c) x = true := by
  rcases runs with runs | runs <;> simp [State.heddleGoes, id_cell, started, paused, runs, loads, waits]

variable (found : s.hcmd? c x.id = some x) (goes : s.heddleGoes (s.cell c) x = true)
include found goes

/-- A result that is not empty waits to be written (R310). -/
theorem exec_heddleComplete_result {rows : List (Nat × List Nat)} (idle : x.out = []) (plain : x.woven = false) (some_ : rows ≠ [])
    (computed : s.heddleRow c x (x.progress / x.unit) = .ok [] (s.setOut c x rows)) :
    exec (.heddleCommandComplete c x.id) s = .next (s.setOut c x rows) := by
  have waits : (x.withOut rows).out.isEmpty = false := by simpa [HCmd.withOut] using some_
  simp only [exec, execHeddleCommandComplete, found, goes, idle, plain, computed, hcmd_setOut found, waits, Bool.not_true,
    Bool.false_eq_true, if_false, List.isEmpty_nil, Bool.false_and]

/-- A row of HZERO (R317). -/
theorem exec_heddleComplete_zero (idle : x.out = []) (opcode : x.opcode = 0x71) : exec (.heddleCommandComplete c x.id) s =
    .next (s.setOut c x (accOut x.primary (x.progress / x.unit) zeroChains)) := by
  have plain : x.woven = false := by simp [HCmd.woven, opcode]
  refine exec_heddleComplete_result found goes idle plain (accOut_ne_nil _ _ wholeChains_zero) ?_
  simp only [State.heddleRow, opcode]

/-- A row of HMMA (R316). -/
theorem exec_heddleComplete_mma (idle : x.out = []) (opcode : x.opcode = 0x6E) (plain : x.woven = false) (clean : s.upsets = []) :
    exec (.heddleCommandComplete c x.id) s = .next (s.setOut c x (accOut (cw x.words 2) (x.progress / x.unit)
      (x.mma (s.cell c) (x.progress / x.unit) (if mmaAcc x.words then accRow (s.cell c).sram (cw x.words 2) (x.progress / x.unit)
        else zeroChains)))) := by
  have whole : wholeChains (if mmaAcc x.words then accRow (s.cell c).sram (cw x.words 2) (x.progress / x.unit) else zeroChains) := by
    split
    · exact wholeChains_accRow _ _ _
    · exact wholeChains_zero
  refine exec_heddleComplete_result found goes idle plain (accOut_ne_nil _ _ (wholeChains_mma x _ _ whole)) ?_
  simp only [State.heddleRow, opcode, sramBad_clean clean, correctRanges_clean clean]

end

/-! Predicates that are set (R311, R312). -/

theorem getLsbD_setPred_self (p : BitVec 8) {n : Nat} (h : n < 8) : (setPred p n true).getLsbD n = true := by
  simp [setPred, h]

theorem getLsbD_setPred (p : BitVec 8) (n m : Nat) (h : p.getLsbD m = true) : (setPred p n true).getLsbD m = true := by
  simp [setPred, h]

/-- Predicates of contexts of a cell are set, and nothing else changes (R311). -/
structure SetsPreds (c : Nat) (s u : State) : Prop where
  frame : u = { s with cells := u.cells }
  cell : u.cell c = { s.cell c with elems := (u.cell c).elems }
  loaded : u.loaded c = s.loaded c
  place : ∀ e x, s.hasCtx c e x → u.hasCtx c e x
  kept : ∀ e x n, s.hasCtx c e x → (s.ctxOf c e x).p.getLsbD n = true → (u.ctxOf c e x).p.getLsbD n = true

namespace SetsPreds
variable {c : Nat} {s u w : State}

theorem refl (c : Nat) (s : State) : SetsPreds c s s := ⟨rfl, rfl, rfl, fun _ _ h => h, fun _ _ _ _ h => h⟩

theorem trans (h : SetsPreds c s u) (k : SetsPreds c u w) : SetsPreds c s w where
  frame := by rw [k.frame, h.frame]
  cell := by rw [k.cell, h.cell]
  loaded := k.loaded.trans h.loaded
  place e x at_ := k.place e x (h.place e x at_)
  kept e x n at_ set := k.kept e x n (h.place e x at_) (h.kept e x n at_ set)

theorem census (h : SetsPreds c s u) : u.census = s.census := by rw [h.frame]
theorem mem (h : SetsPreds c s u) : u.mem = s.mem := by rw [h.frame]

theorem setPredOf (loaded : s.loaded c = true) (e x n : Nat) : SetsPreds c s (s.setPredOf c e x n true) where
  frame := rfl
  cell := by
    rw [State.setPredOf, State.setCtx, State.cell_setElem _ _ _ _ _ loaded, if_pos rfl]
    rfl
  loaded := (Stops.setCtx s c e x (f := fun k => { k with p := setPred k.p n true }) fun _ => ⟨rfl, rfl⟩).loaded c
  place j y at_ := by
    have stays := Stops.setCtx s c e x (f := fun k => { k with p := setPred k.p n true }) fun _ => ⟨rfl, rfl⟩
    obtain ⟨hl, hj, hy, hv, hm⟩ := at_
    obtain ⟨v, m⟩ := stays.files c j y
    exact ⟨(stays.loaded c).trans hl, (stays.elems c).symm ▸ hj, (stays.ctxs c j).symm ▸ hy, (congrArg List.length v).trans hv,
      (congrArg List.length m).trans hm⟩
  kept j y m at_ set := by
    by_cases here : (c, j, y) = (c, e, x)
    · simp only [Prod.mk.injEq, true_and] at here
      obtain ⟨rfl, rfl⟩ := here
      rw [State.setPredOf, State.ctxOf_setCtx s c j y _ at_.1 at_.2.1 at_.2.2.1]
      exact getLsbD_setPred _ n m set
    · rw [State.setPredOf, State.ctxOf_setCtx_ne s c e x c j y _ loaded here]
      exact set

end SetsPreds

/-- The watches of a cell's heddle that are satisfied set their predicates (R311). -/
def State.satisfy (s : State) (c : Nat) (ws : List HWatch) : State := ws.foldl (fun s w => s.setPredOf c w.elem w.ctx w.pred true) s

theorem setsPreds_satisfy {s : State} {c : Nat} (loaded : s.loaded c = true) (ws : List HWatch) : SetsPreds c s (s.satisfy c ws) := by
  induction ws generalizing s with
  | nil => exact SetsPreds.refl c s
  | cons w ws ih =>
    have first := SetsPreds.setPredOf loaded w.elem w.ctx w.pred
    exact first.trans (ih (first.loaded.trans loaded))

theorem pred_satisfy {s : State} {c : Nat} {ws : List HWatch} {w : HWatch} (member : w ∈ ws) (place : s.hasCtx c w.elem w.ctx)
    (pred : w.pred < 8) : ((s.satisfy c ws).ctxOf c w.elem w.ctx).p.getLsbD w.pred = true := by
  induction ws generalizing s with
  | nil => cases member
  | cons v ws ih =>
    have first := SetsPreds.setPredOf place.1 v.elem v.ctx v.pred
    have there := first.place _ _ place
    rcases List.mem_cons.1 member with rfl | later
    · refine (setsPreds_satisfy there.1 ws).kept _ _ _ there ?_
      rw [State.setPredOf, State.ctxOf_setCtx s c w.elem w.ctx _ place.1 place.2.1 place.2.2.1]
      exact getLsbD_setPred_self _ pred
    · exact ih later there

/-! A command leaves the queue (R310 to R312). -/

/-- A watch that no longer awaits a command (R311). -/
def HWatch.without (id : Nat) (w : HWatch) : HWatch := { w with awaited := w.awaited.filter (· != id) }

/-- A heddle that a command has left (R310, R311). -/
def Heddle.left (x : HCmd) (ws : List HWatch) (h : Heddle) : Heddle :=
  { h with queue := h.queue.filter (·.id != x.id)
           counts := if syncSeten x.words then modifyAt h.counts (syncSet x.words) (· - 1) else h.counts
           watches := ws.filter fun w => !w.awaited.isEmpty }

theorem heddleLeave_spec {s : State} {c : Nat} (loaded : s.loaded c = true) (x : HCmd) :
    let u := s.heddleLeave c x
    (u.cell c).sram = (s.cell c).sram ∧ u.mem = s.mem ∧ u.hcmd? c x.id = none ∧ Discharged s u (s.cell c).seat ∧
      (u.cell c).heddle.counts = (if syncSeten x.words then (s.cell c).heddle.counts.modify (syncSet x.words) (· - 1)
        else (s.cell c).heddle.counts) ∧
      ∀ w ∈ (s.cell c).heddle.watches, w.awaited = [x.id] → s.hasCtx c w.elem w.ctx → w.pred < 8 →
        (u.ctxOf c w.elem w.ctx).p.getLsbD w.pred = true := by
  intro u
  let ws := (s.cell c).heddle.watches.map (HWatch.without x.id)
  let v := s.setHeddle c (Heddle.left x ws)
  have cell : v.cell c = (s.cell c).withHeddle (Heddle.left x ws) := cell_setHeddle loaded _
  have loadedV : v.loaded c = true := (State.loaded_setCell s c c (Cell.withHeddle (Heddle.left x ws)) fun _ => rfl).trans loaded
  have sets := setsPreds_satisfy loadedV (ws.filter (·.awaited.isEmpty))
  let t := v.satisfy c (ws.filter (·.awaited.isEmpty))
  have leaves : u = t.charge (t.cell c).seat (-1) := rfl
  have seat : (t.cell c).seat = (s.cell c).seat := by
    rw [sets.cell, cell]
    rfl
  have cells : u.cell c = t.cell c := by rw [leaves, State.cell, State.charge_cells, State.cell]
  have heddle : (u.cell c).heddle = Heddle.left x ws (s.cell c).heddle := by
    rw [cells, sets.cell, cell]
    rfl
  have census : t.census = v.census := sets.census
  have mem : t.mem = v.mem := sets.mem
  refine ⟨?_, ?_, ?_, ?_, ?_, fun w member alone place pred => ?_⟩
  · rw [cells, sets.cell, cell]
    rfl
  · rw [leaves, State.charge_mem, mem]
    rfl
  · rw [State.hcmd?, heddle]
    exact List.find?_eq_none.2 fun y hy => by simpa using (List.mem_filter.1 hy).2
  · exact discharged_charge census (by rw [leaves, seat])
  · rw [heddle]
    rfl
  · have placeV : v.hasCtx c w.elem w.ctx := by
      rw [State.hasCtx, State.ctxOf, cell]
      exact ⟨loadedV, place.2⟩
    have satisfied : w.without x.id ∈ ws.filter (·.awaited.isEmpty) :=
      List.mem_filter.2 ⟨List.mem_map_of_mem member, by simp [HWatch.without, alone]⟩
    rw [State.ctxOf, cells]
    exact pred_satisfy (w := w.without x.id) satisfied placeV pred

/-! A row is written (R310, R312). -/

/-- A command after a logical row (R310, R323). -/
def HCmd.advanced (x : HCmd) : HCmd := { x with progress := x.progress + x.unit, chain0 := [], chain1 := [] }

section
variable {s : State} {c : Nat} {x : HCmd} (found : s.hcmd? c x.id = some x)
include found

/-- The state after one row is written, and the rest of them wait (R310). -/
def State.rowWritten (s : State) (c : Nat) (x : HCmd) (a : Nat) (bs : List Nat) (left : List (Nat × List Nat)) : State :=
  (s.sramStore c a bs).setOut c x left

theorem rowWritten_spec (a : Nat) (bs : List Nat) (left : List (Nat × List Nat)) :
    let w := s.rowWritten c x a bs left
    (w.cell c).sram = memStore (s.cell c).sram a bs ∧ w.mem = s.mem ∧ w.census = s.census ∧ w.hcmd? c x.id = some (x.withOut left) ∧
      (w.cell c).seat = (s.cell c).seat ∧ (w.cell c).heddle.counts = (s.cell c).heddle.counts ∧
      (w.cell c).heddle.watches = (s.cell c).heddle.watches ∧ ∀ e y, s.hasCtx c e y → w.hasCtx c e y := by
  intro w
  have loaded := loaded_of_hcmd found
  have stores := Scratches.sramStore c a bs s
  have loaded' : (s.sramStore c a bs).loaded c = true := (stores.loaded c).trans loaded
  have own := stores.own loaded
  have found' : (s.sramStore c a bs).hcmd? c x.id = some x := (hcmd_congr (by rw [own]) x.id).trans found
  have cell : w.cell c = ((s.sramStore c a bs).cell c).withHeddle (Heddle.withCommand x.id (HCmd.withOut left)) := cell_setHeddle loaded' _
  rw [own] at cell
  refine ⟨by rw [cell]; rfl, rfl, rfl, hcmd_setOut found' left, by rw [cell]; rfl, by rw [cell]; rfl, by rw [cell]; rfl, fun e y place => ?_⟩
  have loadedW : w.loaded c = true :=
    (State.loaded_setCell _ c c (Cell.withHeddle (Heddle.withCommand x.id (HCmd.withOut left))) fun _ => rfl).trans loaded'
  rw [State.hasCtx, State.ctxOf, cell]
  exact ⟨loadedW, place.2⟩

/-- The row that is written, and what follows it (R310). -/
theorem exec_heddleComplete_row (goes : s.heddleGoes (s.cell c) x = true) (some_ : x.out ≠ []) : ∃ i a bs, x.out[i]? = some (a, bs) ∧
    exec (.heddleCommandComplete c x.id) s = .next (let w := s.rowWritten c x a bs (x.out.eraseIdx i)
      if (x.out.eraseIdx i).isEmpty then w.rowDone c x else w) := by
  have rows : 0 < x.out.length := List.length_pos_iff.2 some_
  have inside := Nat.mod_lt (Config.openValue 310 (x.id * 2 ^ 32 + x.progress * 2 ^ 16 + x.out.length)) rows
  have more : x.out.isEmpty = false := by simpa using some_
  refine ⟨_, _, _, List.getElem?_eq_getElem inside, ?_⟩
  simp only [exec, execHeddleCommandComplete, found, goes, more, State.writeRow, List.getElem?_eq_getElem inside, Bool.not_true, Bool.not_false,
    Bool.false_eq_true, if_false, if_true]
  rfl

end

/-- A logical row is done and others follow, or the command is woven (R310, R322). -/
theorem rowDone_goes (s : State) (c : Nat) {x : HCmd} (more : x.woven = true ∨ x.progress / x.unit + 1 < x.steps) :
    s.rowDone c x = s.setHcmd c x.id HCmd.advanced := by
  have stays : (decide (x.progress / x.unit + 1 ≥ x.steps) && !x.woven) = false := by
    rcases more with woven | more
    · simp [woven]
    · simp [more]
  simp only [State.rowDone, stays, Bool.false_eq_true, if_false]
  rfl

/-- The last logical row is done (R310). -/
theorem rowDone_ends (s : State) (c : Nat) {x : HCmd} (plain : x.woven = false) (last : x.steps ≤ x.progress / x.unit + 1) :
    s.rowDone c x = (s.setHcmd c x.id HCmd.advanced).heddleLeave c x := by
  have leaves : (decide (x.progress / x.unit + 1 ≥ x.steps) && !x.woven) = true := by simp [plain, last]
  simp only [State.rowDone, leaves, if_true]
  rfl

/-- What a change of a queued command leaves of its cell. -/
theorem setHcmd_spec {s : State} {c : Nat} (loaded : s.loaded c = true) (id : Nat) (f : HCmd → HCmd) :
    let v := s.setHcmd c id f
    (v.cell c).sram = (s.cell c).sram ∧ (v.cell c).seat = (s.cell c).seat ∧ (v.cell c).heddle.counts = (s.cell c).heddle.counts ∧
      (v.cell c).heddle.watches = (s.cell c).heddle.watches ∧ ∀ e y, s.hasCtx c e y → v.hasCtx c e y := by
  intro v
  have cell : v.cell c = (s.cell c).withHeddle (Heddle.withCommand id f) := cell_setHeddle loaded _
  have loadedV : v.loaded c = true := (State.loaded_setCell s c c (Cell.withHeddle (Heddle.withCommand id f)) fun _ => rfl).trans loaded
  refine ⟨by rw [cell]; rfl, by rw [cell]; rfl, by rw [cell]; rfl, by rw [cell]; rfl, fun e y place => ?_⟩
  rw [State.hasCtx, State.ctxOf, cell]
  exact ⟨loadedV, place.2⟩

/-- The last row of the last logical row is written, and the command leaves (R310 to R312). -/
theorem rowDone_last {s : State} {c : Nat} {x : HCmd} (loaded : s.loaded c = true) (plain : x.woven = false)
    (last : x.steps ≤ x.progress / x.unit + 1) :
    let u := s.rowDone c x
    (u.cell c).sram = (s.cell c).sram ∧ u.mem = s.mem ∧ u.hcmd? c x.id = none ∧ Discharged s u (s.cell c).seat ∧
      (u.cell c).heddle.counts = (if syncSeten x.words then (s.cell c).heddle.counts.modify (syncSet x.words) (· - 1)
        else (s.cell c).heddle.counts) ∧
      ∀ w ∈ (s.cell c).heddle.watches, w.awaited = [x.id] → s.hasCtx c w.elem w.ctx → w.pred < 8 →
        (u.ctxOf c w.elem w.ctx).p.getLsbD w.pred = true := by
  obtain ⟨sram, seat, counts, watches, place⟩ := setHcmd_spec loaded x.id HCmd.advanced
  have loadedV : (s.setHcmd c x.id HCmd.advanced).loaded c = true :=
    (State.loaded_setCell s c c (Cell.withHeddle (Heddle.withCommand x.id HCmd.advanced)) fun _ => rfl).trans loaded
  obtain ⟨sram', mem, gone, census, counts', satisfied⟩ := heddleLeave_spec loadedV x
  rw [rowDone_ends s c plain last]
  rw [watches] at satisfied
  refine ⟨sram'.trans sram, mem, gone, seat ▸ census, counts'.trans (by rw [counts]), fun w member alone at_ => ?_⟩
  exact satisfied w member alone (place _ _ at_)

theorem heddleRuns : HeddleRuns := by
  intro s c x loaded found
  dsimp only
  refine ⟨fun oldest => ⟨exec_heddleStart_waits oldest, fun may good => ⟨_, exec_heddleStart_passes oldest may good, ?_, rfl⟩,
    fun code cause a may bad place hd => ⟨_, exec_heddleStart_fails oldest may bad, s.nextId, ?_⟩⟩,
    fun started paused runs loads waits => ?_⟩
  · exact hcmd_setHcmd found fun _ => rfl
  · exact heddlePause_spec (heddleFault_code bad) cause a found place hd
  · have goes := heddleGoes_of started paused (.inl runs) loads waits
    refine ⟨fun idle opcode => ⟨_, exec_heddleComplete_zero found goes idle opcode, hcmd_setOut found _, rfl⟩,
      fun idle opcode plain clean => ⟨_, exec_heddleComplete_mma found goes idle opcode plain clean, hcmd_setOut found _, rfl⟩, fun some_ => ?_⟩
    obtain ⟨i, a, bs, row, runs⟩ := exec_heddleComplete_row found goes some_
    obtain ⟨sram, mem, census, here, seat, counts, watches, place⟩ := rowWritten_spec found a bs (x.out.eraseIdx i)
    have inside : i < x.out.length := by
      by_contra h
      rw [List.getElem?_eq_none (by omega)] at row
      cases row
    have length := List.length_eraseIdx_of_lt inside
    have stored (y : Nat) := memRead_memStore (s.cell c).sram a bs y
    by_cases one : x.out.length = 1
    · have none_ : x.out.eraseIdx i = [] := List.length_eq_zero_iff.1 (by omega)
      simp only [none_, List.isEmpty_nil, if_true] at runs here sram mem census seat counts watches place
      refine ⟨_, runs, i, a, bs, row, ?_⟩
      by_cases more : x.woven = true ∨ x.progress / x.unit + 1 < x.steps
      · rw [rowDone_goes _ c more]
        obtain ⟨sram', -⟩ := setHcmd_spec (loaded_of_hcmd here) x.id HCmd.advanced
        refine ⟨fun y => ?_, mem, fun h => absurd one h, fun _ => ⟨fun _ => hcmd_setHcmd here fun _ => rfl, fun plain last => ?_⟩⟩
        · rw [sram', sram, stored]
        · exact absurd more (by simp [plain, last])
      · obtain ⟨plain, last⟩ := not_or.1 more
        obtain ⟨sram', mem', gone, charged, counts', satisfied⟩ :=
          rowDone_last (loaded_of_hcmd here) (by simpa using plain) (Nat.le_of_not_lt last)
        refine ⟨fun y => ?_, mem'.trans mem, fun h => absurd one h, fun _ => ⟨fun h => absurd h more, fun _ _ => ⟨gone, ?_, ?_, ?_⟩⟩⟩
        · rw [sram', sram, stored]
        · intro q hq
          have fell := charged q (seat.trans hq)
          rw [partOf_some, partOf_some, census] at fell
          rw [partOf_some, partOf_some]
          exact fell
        · rw [counts', counts]
        · intro w member alone at_ pred
          exact satisfied w (watches ▸ member) alone (place _ _ at_) pred
    · have some_' : (x.out.eraseIdx i).isEmpty = false := by
        rw [List.isEmpty_eq_false_iff, ← List.length_pos_iff]
        omega
      simp only [some_', Bool.false_eq_true, if_false] at runs
      refine ⟨_, runs, i, a, bs, row, fun y => ?_, mem, fun _ => here, fun h => absurd h one⟩
      rw [sram, stored]

end Sys2Proof.Machine
end


section
/-! # Woven rows (O52, R321, R322) -/

namespace Sys2Proof.Machine
open Sys2Proof

theorem opcode_of_woven {x : HCmd} (woven : x.woven = true) : x.opcode = 0x6E := by
  simp only [HCmd.woven, Bool.and_eq_true, beq_iff_eq] at woven
  exact woven.1

/-- The chains of a row sent on to the next cell of the row, where its command is ready for them (R322). -/
def State.passRow (s : State) (c : Nat) (x : HCmd) (out : List Word × List Word) : Option (Nat × HCmd) → State
  | some (next, y) =>
      if y.started && y.paused.isNone && y.chain0.isEmpty && y.out.isEmpty && y.progress == x.progress then
        (s.rowDone c x).setHcmd next y.id fun k => { k with chain0 := out.1, chain1 := out.2 }
      else s
  | none => s

/-- A command that the chains of a row have reached (R322). -/
def HCmd.withChains (out : List Word × List Word) (x : HCmd) : HCmd := { x with chain0 := out.1, chain1 := out.2 }

theorem passRow_ready (s : State) (c : Nat) {x y : HCmd} (out : List Word × List Word) (next : Nat) (started : y.started = true)
    (paused : y.paused = none) (chain : y.chain0 = []) (idle : y.out = []) (row : y.progress = x.progress) :
    s.passRow c x out (some (next, y)) = (s.rowDone c x).setHcmd next y.id (HCmd.withChains out) := by
  simp only [State.passRow, started, paused, chain, idle, row, Option.isNone_none, List.isEmpty_nil, beq_self_eq_true, Bool.and_self, if_true]
  rfl

section
variable {s : State} {c lastCell : Nat} {x last : HCmd} (found : s.hcmd? c x.id = some x) (woven : x.woven = true) (started : x.started = true)
  (paused : x.paused = none)
include found woven started paused

/-- A row whose commands cannot agree (R322). -/
theorem exec_wovenPartial_bad (bad : s.rowBad (s.cell c) x = true) :
    exec (.wovenPartial c x.id) s = .next (s.heddlePause c x 0x09 0 0) := by
  simp only [exec, execWovenPartial, found, woven, started, paused, bad, Bool.not_true, Option.isSome_none, Bool.or_self, Bool.false_eq_true,
    if_false, if_true]
  rfl

variable {ch : List Word × List Word} (clean : s.upsets = []) (idle : x.out = []) (more : x.progress / x.unit < x.steps)
  (ends : s.rowCommand ((s.wovenRow (s.cell c)).getD (wovenLen (s.cell c).draft.woven - 1) none) x.wovenSeq = some (lastCell, last))
  (loads : s.loadsPending c x.elem x.ctx x.seq = false) (waits : s.cellWaits c x.elem x.ctx = false)
  (chains : s.wovenIn (s.cell c) x last lastCell (x.progress / x.unit) = some ch) (good : s.rowBad (s.cell c) x = false)
  (goes : s.rowGoes (s.cell c) x = true)
include clean idle more ends loads waits chains good goes

/-- A cell adds its groups to the chains of a row that goes on (R322). -/
theorem exec_wovenPartial_adds : exec (.wovenPartial c x.id) s =
    .next (let out := x.mma (s.cell c) (x.progress / x.unit) ch
      if (s.cell c).draft.pos + 1 ≥ wovenLen (s.cell c).draft.woven then s.setOut c x (accOut (cw x.words 2) (x.progress / x.unit) out)
      else s.passRow c x out (s.rowCommand ((s.wovenRow (s.cell c)).getD ((s.cell c).draft.pos + 1) none) x.wovenSeq)) := by
  have step := heddleGoes_of started paused (.inr (by rw [opcode_of_woven woven]; rfl)) loads waits
  have short : ¬x.progress / x.unit ≥ x.steps := by omega
  simp only [exec, execWovenPartial, found, woven, started, paused, good, ends, step, goes, idle, short, chains, sramBad_clean clean,
    correctRanges_clean clean, Bool.not_true, Option.isSome_none, List.isEmpty_nil, Bool.or_self, Bool.false_eq_true, if_false, ite_self,
    decide_false]
  rfl

end

theorem wovenRows : WovenRows := by
  intro s c lastCell x last ch clean found woven started paused idle more k row len m out ends lastStarted lastPaused loads waits chains _
  have opcode := opcode_of_woven woven
  refine ⟨fun bad place hd => ⟨_, exec_wovenPartial_bad found woven started paused bad, s.nextId, ?_⟩, fun good goes => ?_⟩
  · obtain ⟨raised, -, held⟩ := heddlePause_spec (code := 0x09) (by decide) 0 0 found place hd
    rw [opcode] at raised
    exact ⟨raised, by rw [held]; rfl⟩
  have adds := exec_wovenPartial_adds found woven started paused clean idle more ends loads waits chains good goes
  refine ⟨fun first fresh => ?_, fun n y inner next other yStarted yPaused yChain yOut yProgress yFound => ?_, fun final => ?_⟩
  · have begins : s.wovenIn k x last lastCell m = some zeroChains := by
      simp [State.wovenIn, first, fresh]
    exact Option.some.inj (chains.symm.trans begins)
  · have inside : ¬(s.cell c).draft.pos + 1 ≥ wovenLen (s.cell c).draft.woven := Nat.not_le.2 inner
    have passes := passRow_ready s c (x := x) out n yStarted yPaused yChain yOut yProgress
    rw [rowDone_goes s c (.inl woven)] at passes
    simp only [if_neg inside, show s.rowCommand ((s.wovenRow (s.cell c)).getD ((s.cell c).draft.pos + 1) none) x.wovenSeq = _ from next] at adds
    have after : (s.setHcmd c x.id HCmd.advanced).hcmd? n y.id = some y := (hcmd_setHcmd_other s other x.id y.id _).trans yFound
    refine ⟨_, adds.trans (congrArg _ passes), hcmd_setHcmd after (f := HCmd.withChains out) fun _ => rfl, ?_, rfl⟩
    exact (hcmd_setHcmd_other _ other.symm y.id x.id _).trans (hcmd_setHcmd found (f := HCmd.advanced) fun _ => rfl)
  · simp only [if_pos (show (s.cell c).draft.pos + 1 ≥ wovenLen (s.cell c).draft.woven from final)] at adds
    exact ⟨_, adds, hcmd_setOut found _, rfl⟩

end Sys2Proof.Machine
end


section
/-! # Shuttle commands at work (O52, R295 to R297, R301) -/

namespace Sys2Proof.Machine
open Sys2Proof

/-! The queue of a cell's shuttle. -/

theorem loaded_of_shcmd {s : State} {c id : Nat} {x : ShCmd} (found : s.shcmd? c id = some x) : s.loaded c = true := by
  by_contra h
  rw [State.shcmd?, cell_of_unloaded (by simpa using h)] at found
  cases found

/-- A cell whose shuttle commands of a number have changed. -/
def Cell.withShuttle (id : Nat) (f : ShCmd → ShCmd) (k : Cell) : Cell := { k with shuttle := updateWhere (·.id == id) f k.shuttle }

theorem shcmd_setShcmd {s : State} {c id : Nat} {x : ShCmd} (found : s.shcmd? c id = some x) {f : ShCmd → ShCmd} (keeps : ∀ y, (f y).id = y.id) :
    (s.setShcmd c id f).shcmd? c id = some (f x) := by
  have here : (s.setShcmd c id f).cell c = (s.cell c).withShuttle id f :=
    (State.cell_setCell s c c (Cell.withShuttle id f) (fun _ => rfl) (loaded_of_shcmd found)).trans (if_pos rfl)
  have update := find_updateWhere_key ShCmd.id (s.cell c).shuttle id id keeps
  rw [if_pos rfl] at update
  rw [State.shcmd?] at found
  rw [State.shcmd?, here]
  exact update.trans (by rw [found]; rfl)

/-! Scratchpad references (R33, R297). -/

/-- A free cell has no scratchpad bank (R61). -/
theorem role_blank (c bank : Nat) : (Cell.blank c).role bank ≠ .scr := by
  have roles : (Cell.blank c).roles = 0 := rfl
  rw [Cell.role, roles, roleIn]
  split
  · decide
  · split
    · simp [bits]
    · decide

/-- A range of a cell that a command may reach lies in a loaded cell (R33). -/
theorem loaded_of_spad {s : State} {c t a n : Nat} (some_ : 0 < n) (free : s.spadFault c t (a : Int) n = none) : s.loaded t = true := by
  by_contra absent
  have blank := cell_of_unloaded (s := s) (c := t) (by simpa using absent)
  have inside : (s.cell t).outside .scr a n = none := by
    rw [State.spadFault] at free
    split at free
    · cases free
    · split at free
      · cases free
      · simpa using free
  have below : a / 8192 ≤ (a + n - 1) / 8192 := Nat.div_le_div_right (by omega)
  rw [blank, Cell.outside, if_neg (by omega), List.findSome?_eq_none_iff] at inside
  have first := inside (a / 8192 + 0) (List.mem_map_of_mem (List.mem_range.2 (by omega)))
  rw [if_neg (by simp [role_blank])] at first
  cases first

/-- Bytes written at a reference go to the scratchpad of its cell (R33, R297). -/
theorem shuttleStore_ref {s : State} {c : Nat} {x : ShCmd} {base : Nat} {d : Int} {bs : List Nat} {a : Nat} (ref : isRef base = true)
    (spa : (refSpa base : Int) + d = a) (free : s.spadFault c (refCell base) (a : Int) bs.length = none) :
    s.shuttleStore c x base d bs = .ok [] (s.sramStore (refCell base) a bs) := by
  simp only [State.shuttleStore, operandAt, ref, if_true, spa, free, Int.toNat_natCast]

/-- A store of a command in a scratchpad, and the command after it (R296). -/
theorem stored_setShcmd {s : State} {c t a : Nat} {x : ShCmd} {bs : List Nat} (found : s.shcmd? c x.id = some x) (loaded : s.loaded t = true)
    {f : ShCmd → ShCmd} (keeps : ∀ y, (f y).id = y.id) :
    let u := (s.sramStore t a bs).setShcmd c x.id f
    (∀ y, memRead (u.cell t).sram y = if a ≤ y ∧ y < a + bs.length then bs.getD (y - a) 0 % 256 else memRead (s.cell t).sram y) ∧
      u.mem = s.mem ∧ u.shcmd? c x.id = some (f x) := by
  intro u
  have stores := Scratches.sramStore t a bs s
  have sram : (u.cell t).sram = memStore (s.cell t).sram a bs := by
    have kept := State.cell_setCell_same (·.sram) (s.sramStore t a bs) c t (Cell.withShuttle x.id f) (fun _ => rfl) fun _ => rfl
    exact kept.trans (by rw [stores.own loaded])
  have shuttle : ((s.sramStore t a bs).cell c).shuttle = (s.cell c).shuttle := by
    by_cases here : c = t
    · subst here
      rw [stores.own loaded]
    · rw [stores.others c here]
  have found' : (s.sramStore t a bs).shcmd? c x.id = some x := by
    rw [State.shcmd?, shuttle]
    exact found
  exact ⟨fun y => by rw [sram, memRead_memStore], rfl, shcmd_setShcmd found' keeps⟩

/-! The steps of a command (R296). -/

section
variable {s : State} {c : Nat} {x : ShCmd} (found : s.shcmd? c x.id = some x) (paused : x.paused = none) (runs : (s.cell c).stopped = false)
include found paused runs

theorem exec_shuttleRun_block {pa leaf page : Nat} {bs : List Nat} {z : State} (unread : x.fields = [])
    (mapped : s.translateFor c x.asid .load x.block = (.ok pa leaf page, s))
    (described : s.descriptionWaits c x.elem x.ctx x.seq x.asid x.block pa leaf 64 = false)
    (read : s.engineLoadPiece (some c) (dieOf c) x.asid ((s.cell c).asid == 0) .load (hintOf x.profile) x.block 64 = .ok bs z)
    (good : blockFault x.opcode x.block bs = none) : exec (.shuttleCommandRun c x.id) s =
      .next (z.setShcmd c x.id fun k => { k with fields := bs, progress := k.progress * shUnit x.opcode bs }) := by
  simp only [exec, execShuttleCommandRun, found, paused, runs, unread, Option.isSome_none, Bool.false_and, Bool.or_self, Bool.false_eq_true,
    if_false, List.isEmpty_nil, if_true, State.shuttleBlock, mapped, described, read, good]

variable (read : x.fields ≠ [])
include read

/-- A command whose block is read waits for its start (R301). -/
theorem exec_shuttleRun_start (phase : x.phase = 0) : exec (.shuttleCommandRun c x.id) s = .next (s.shuttleStart c x) := by
  have known : x.fields.isEmpty = false := by simpa using read
  simp only [exec, execShuttleCommandRun, found, paused, runs, known, phase, Option.isSome_none, Bool.false_and, Bool.or_self,
    Bool.false_eq_true, if_false]

variable (waits : s.cellWaits c x.elem x.ctx = false)
include waits

/-- A command that has read its payload writes it, then its flag (R296). -/
theorem exec_shuttleRun_writes (phase : x.phase = 1) (loads : s.loadsPending c x.elem x.ctx x.seq = false)
    (whole : x.total ≤ x.buffer.length) : exec (.shuttleCommandRun c x.id) s =
      .next (if x.progress < x.writes then s.shuttleWrite c x else s.shuttleFlag c x) := by
  have known : x.fields.isEmpty = false := by simpa using read
  simp only [exec, execShuttleCommandRun, found, paused, runs, known, phase, waits, loads, Nat.not_lt.2 whole, Option.isSome_none,
    Bool.false_and, Bool.or_self, Bool.false_eq_true, if_false]

/-- A command without a future has none to resolve (R296). -/
theorem exec_shuttleRun_future (phase : x.phase = 2) (none_ : shFut x.fields = 0) : exec (.shuttleCommandRun c x.id) s =
    .next (s.setShcmd c x.id fun k => { k with phase := 3 }) := by
  have known : x.fields.isEmpty = false := by simpa using read
  simp only [exec, execShuttleCommandRun, found, paused, runs, known, phase, waits, State.shuttleFuture, none_, Option.isSome_none,
    Bool.false_and, Bool.or_self, Bool.false_eq_true, if_false, if_true]

end

theorem shuttleStart_eq (s : State) (c : Nat) (x : ShCmd) : s.shuttleStart c x =
    if ((s.cell c).shuttle.takeWhile (·.id != x.id)).all (fun y => y.phase != 0 || y.paused.isSome) = true ∧
        s.fenced c x.elem x.ctx x.seq 8 = false
      then s.setShcmd c x.id fun k => { k with phase := 1 } else s := by
  simp only [State.shuttleStart, Bool.and_eq_true, Bool.not_eq_true']

/-- The flag of a command without one (R296). -/
theorem shuttleFlag_none {s : State} {c : Nat} {x : ShCmd} (none_ : shFlag x.fields = 0) :
    s.shuttleFlag c x = s.setShcmd c x.id fun k => { k with phase := 2, buffer := [] } := by
  simp only [State.shuttleFlag, none_, decide_true, Bool.true_or, if_true]

/-! SHCPY (R295, R296). -/

section
variable {s : State} {c : Nat} {x : ShCmd} (copy : x.opcode = 0x68)
include copy

theorem writes_copy : x.writes = shLen x.fields ∧ x.total = shLen x.fields := by
  simp [ShCmd.writes, ShCmd.total, copy]

/-- The next piece of a copy into a scratchpad (R296). -/
theorem shuttleWrite_copy (ref : isRef (shDst x.fields) = true) {n : Nat} (piece : n = min (shLen x.fields - x.progress) (128 - x.progress % 128))
    (free : s.spadFault c (refCell (shDst x.fields)) (refSpa (shDst x.fields) + x.progress : Nat) n = none) :
    s.shuttleWrite c x = (s.sramStore (refCell (shDst x.fields)) (refSpa (shDst x.fields) + x.progress) (sliceBytes x.buffer x.progress n)).setShcmd
      c x.id fun k => { k with progress := k.progress + n } := by
  have length := length_sliceBytes x.buffer x.progress n
  have store := shuttleStore_ref (x := x) (d := (x.progress : Int)) (bs := sliceBytes x.buffer x.progress n) ref
    (a := refSpa (shDst x.fields) + x.progress) (by push_cast; rfl) (by rw [length]; exact free)
  have single : x.opcode ≠ 0x6A := by omega
  have straight : x.opcode ≠ 0x69 := by omega
  simp only [State.shuttleWrite, if_neg single, ShCmd.spot, if_neg straight, ← piece, store]

/-- The flag of a copy, in a scratchpad (R296). -/
theorem shuttleFlag_copy (some_ : shFlag x.fields ≠ 0) (ref : isRef (shFlag x.fields) = true)
    (free : s.spadFault c (refCell (shFlag x.fields)) (refSpa (shFlag x.fields) : Nat) 8 = none) :
    s.shuttleFlag c x = (s.sramStore (refCell (shFlag x.fields)) (refSpa (shFlag x.fields)) (leBytes 8 (shVal x.fields))).setShcmd c x.id
      fun k => { k with phase := 2, buffer := [] } := by
  have store := shuttleStore_ref (x := x) (d := 0) (bs := leBytes 8 (shVal x.fields)) ref (a := refSpa (shFlag x.fields)) (by omega)
    (by rw [length_leBytes]; exact free)
  simp only [State.shuttleFlag, some_, ShCmd.eachFlag, copy, store, decide_false, Bool.false_or]
  rfl

end

/-! The end of a command (R132, R296). -/

theorem exec_shuttleComplete {s : State} {c : Nat} {x : ShCmd} (found : s.shcmd? c x.id = some x) (phase : x.phase = 3)
    (landed : ∀ r ∈ s.arrivals, r.source ≠ x.id) : exec (.shuttleCommandComplete c x.id) s = .next (s.shuttleLeave c x) := by
  have quiet : (s.arrivals.any fun r => r.source == x.id) = false := by simpa using landed
  simp only [exec, execShuttleCommandComplete, found, phase, quiet, decide_true, Bool.not_false, Bool.and_self, if_true]

/-- A cell that a shuttle command has left. -/
def Cell.dropShuttle (id : Nat) (k : Cell) : Cell := { k with shuttle := k.shuttle.filter (·.id != id) }

theorem shuttleLeave_spec {s : State} {c : Nat} {x : ShCmd} (place : s.hasCtx c x.elem x.ctx) :
    let u := s.shuttleLeave c x
    u.shcmd? c x.id = none ∧ Discharged s u (s.cell c).seat ∧ u.mem = s.mem ∧
      u.ctxOf c x.elem x.ctx = { s.ctxOf c x.elem x.ctx with p := arcSet x.profile (s.ctxOf c x.elem x.ctx).p } := by
  intro u
  let v := s.setCell c (Cell.dropShuttle x.id)
  have cell : v.cell c = (s.cell c).dropShuttle x.id :=
    (State.cell_setCell s c c (Cell.dropShuttle x.id) (fun _ => rfl) place.1).trans (if_pos rfl)
  have placeV : v.hasCtx c x.elem x.ctx := by
    rw [State.hasCtx, State.ctxOf, cell]
    exact ⟨(State.loaded_setCell s c c (Cell.dropShuttle x.id) fun _ => rfl).trans place.1, place.2⟩
  obtain ⟨frame, census, ctx⟩ := chargedArc_spec placeV (v.cell c).seat x.profile
  have seat : (v.cell c).seat = (s.cell c).seat := by rw [cell]; rfl
  have charged : (v.charge (v.cell c).seat (-1)).cell c = v.cell c := by rw [State.cell, State.charge_cells, State.cell]
  have shuttle : (u.cell c).shuttle = (v.cell c).shuttle := by
    obtain ⟨-, own, -⟩ := leavesContexts_setArc (s := v.charge (v.cell c).seat (-1)) (c := c) (e := x.elem) (x := x.ctx) (arcOf x.profile)
      (by rw [State.loaded, State.charge_cells]; exact placeV.1) (by rw [charged]; exact placeV.2.1)
    rw [charged] at own
    rw [show u.cell c = _ from own]
  have mem : u.mem = v.mem := by
    rw [show u = _ from frame]
  refine ⟨?_, seat ▸ census, mem, ctx.trans ?_⟩
  · rw [State.shcmd?, shuttle, cell]
    exact List.find?_eq_none.2 fun y hy => by simpa using (List.mem_filter.1 hy).2
  · rw [State.ctxOf, cell]
    rfl

theorem shuttleRuns : ShuttleRuns := by
  intro s c x found
  refine ⟨fun pa leaf page bs z paused runs unread mapped described read good =>
      exec_shuttleRun_block found paused runs unread mapped described read good,
    fun paused runs read phase => (exec_shuttleRun_start found paused runs read phase).trans (congrArg _ (shuttleStart_eq s c x)),
    fun paused runs read waits => ⟨fun phase copy whole loads => ?_, exec_shuttleRun_future found paused runs read waits⟩,
    fun phase landed place => ⟨_, exec_shuttleComplete found phase landed, shuttleLeave_spec place⟩⟩
  obtain ⟨writes, total⟩ := writes_copy copy
  have step := exec_shuttleRun_writes found paused runs read waits phase loads (total.symm ▸ whole)
  rw [writes] at step
  refine ⟨?_, fun written => ?_⟩
  · intro more ref n free
    rw [if_pos more, shuttleWrite_copy copy ref rfl free] at step
    have piece : 0 < n := by
      have left := Nat.mod_lt x.progress (show 0 < 128 by decide)
      exact Nat.lt_min.2 ⟨by omega, by omega⟩
    exact ⟨_, step, stored_setShcmd found (loaded_of_spad piece free) fun _ => rfl⟩
  · rw [if_neg (Nat.not_lt.2 written)] at step
    refine ⟨fun none_ => step.trans (congrArg _ (shuttleFlag_none none_)), fun some_ ref free => ?_⟩
    rw [shuttleFlag_copy copy some_ ref free] at step
    obtain ⟨stored, -, here⟩ := stored_setShcmd (bs := leBytes 8 (shVal x.fields)) found (loaded_of_spad (by decide) free)
      (f := fun k => { k with phase := 2, buffer := [] }) fun _ => rfl
    exact ⟨_, step, stored, here⟩

/-- Settles O52: streams, their descriptors, shuttle commands, the sums of the array, its queue and woven rows, part by part. -/
theorem engineEvents : Obligations.EngineEvents := by
  unfold Obligations.EngineEvents
  exact ⟨streamsRun, streamDescriptors, shuttleRuns, arraySums, heddleRuns, wovenRows⟩

end Sys2Proof.Machine
end


section
/-! # A FENCE and a description on a UO page (O38, refuted)

`FenceEnters` says that a FENCE whose first set has l marks every command whose own description is not read yet. That read is a load only where
the description does not lie on a UO page (R120, R125, R131): there its class is u, and a FENCE of l alone has nothing to wait for. -/

namespace Sys2Proof.Machine
open Sys2Proof

/-- A shuttle command of context 0 that has not started, with its block on a UO page. -/
def commandOnUo : ShCmd where
  id := 0
  opcode := 0x68
  block := 0
  pa := 0x10600000
  leaf := 0x10C
  elem := 0
  ctx := 0
  slot := 0
  m0 := 1
  asid := 0
  profile := 0
  phase := 0
  progress := 0
  paused := none
  fields := []
  buffer := []
  seq := 0

/-- The command stands in its cell's queue, and its context is about to fire a FENCE. -/
def aboutToFence : State :=
  let s := (State.reset.placeWord 0).setCell 0 fun c => { c with shuttle := [commandOnUo] }
  { s.setCtx 0 0 0 fun k => { k with seq := 1 } with nextId := 1 }

theorem aboutToFence_placed : aboutToFence.placed := by decide +kernel

theorem aboutToFence_unread : commandOnUo.id ∈ aboutToFence.unread 0 0 0 1 := by decide +kernel

/-- The FENCEs that are under way after an outcome. -/
def fencesAfter : Out → Option (List Fence)
  | .next u => some u.fences
  | _ => none

/-- The FENCE of loads ends at once. -/
theorem fence_of_loads_ends_before_uo_description : fencesAfter (exec (.fence 0 1 0 0) aboutToFence) = some [] := by
  decide +kernel

/-- The clause of the descriptions says that a FENCE with l waits for the command; in `aboutToFence` none is under way after it. -/
theorem not_fenceEnters : ¬FenceEnters := by
  intro h
  obtain ⟨-, -, -, -, reads⟩ := h aboutToFence 0 1 0 0 aboutToFence_placed
  obtain ⟨u, ran, marked, ids, -, ⟨rest, -⟩⟩ := reads commandOnUo.id aboutToFence_unread rfl
  have ended := fence_of_loads_ends_before_uo_description
  rw [ran] at ended
  have fences := congrArg State.fences rest
  exact List.append_ne_nil_of_right_ne_nil _ (List.cons_ne_nil _ _) (fences.symm.trans (Option.some.inj ended))

/-- Refutes O38: a command whose description lies on a UO page and is not read yet is no load that a FENCE of l marks. -/
theorem not_fenceAndMaintenanceEnter : ¬ Obligations.FenceAndMaintenanceEnter := fun h => not_fenceEnters h.1

end Sys2Proof.Machine
end


section
/-! # Requests in the merge buffers (O47, R147) -/

namespace Sys2Proof.Machine
open Sys2Proof

/-! A request reaches a router. -/

section
variable {s : State} {e : MergeEntry} {n r : Nat} {path : List Nat}

/-- Past its last router a request is on its way home. -/
theorem reachRouter_past (last : e.path = []) :
    s.reachRouter (n + 1) e = { s with merges := s.merges ++ [{ e with router := departed }] } := by
  rw [State.reachRouter]
  simp only [last]

/-- A request combines with the first compatible one that is held there within its eight cycles. -/
theorem reachRouter_meets (ahead : e.path = r :: path) {x : MergeEntry}
    (meets : (s.mergeAt r).find? (fun x => x.fits e && s.mergeOpen x) = some x) :
    s.reachRouter (n + 1) e = { s with merges := updateWhere (fun (k : MergeEntry) => k.id == x.id) (fun _ =>
      if (x.combine e).contribs.length ≥ 16 then { x.combine e with router := departed, path := [] } else x.combine e) s.merges } := by
  rw [State.reachRouter]
  simp only [ahead, meets]

/-- A request as the next router of its path holds it. -/
def MergeEntry.heldAt (e : MergeEntry) (r : Nat) (path : List Nat) (now : Nat) : MergeEntry := { e with router := r, path := path, since := now }

/-- A buffer with room holds a request that meets none. -/
theorem reachRouter_held (ahead : e.path = r :: path) (apart : (s.mergeAt r).find? (fun x => x.fits e && s.mergeOpen x) = none)
    (room : (s.mergeAt r).length < 16) : s.reachRouter (n + 1) e = { s with merges := s.merges ++ [e.heldAt r path s.time] } := by
  rw [State.reachRouter]
  simp only [ahead, apart]
  split
  · next old others here =>
    rw [here, List.length_cons] at room
    exact if_pos (by omega)
  · rfl

/-- A full buffer sends its oldest on to hold it. -/
theorem reachRouter_full (ahead : e.path = r :: path) (apart : (s.mergeAt r).find? (fun x => x.fits e && s.mergeOpen x) = none)
    (full : 16 ≤ (s.mergeAt r).length) {old : MergeEntry} (oldest : (s.mergeAt r).head? = some old) :
    s.reachRouter (n + 1) e =
      { s with merges := s.merges.filter (fun (k : MergeEntry) => k.id != old.id) ++ [e.heldAt r path s.time] }.reachRouter n old := by
  obtain ⟨others, here⟩ := List.head?_eq_some_iff.1 oldest
  rw [here, List.length_cons] at full
  rw [State.reachRouter]
  simp only [ahead, apart]
  simp only [here]
  exact if_neg (by omega)

end

/-- MERGE_BUFFER_FORWARD takes the request out of its router and on along its path. -/
theorem exec_mergeBufferForward_found {s : State} {e : MergeEntry}
    (found : s.merges.find? (fun x => x.id == e.id && x.router == e.router && e.router != departed) = some e) :
    exec (.mergeBufferForward e.router e.id) s = .next ({ s with merges := s.merges.filter (·.id != e.id) }.reachRouter hops e) := by
  change execMergeBufferForward e.router e.id s = _
  simp only [execMergeBufferForward, found]

/-- R147: a held request goes on along its path. -/
theorem mergeForwards : MergeForwards := by
  intro s e found
  have ran := exec_mergeBufferForward_found found
  intro rest
  have test (r : Nat) : ((rest.filter (·.router == r)).find? fun x => x.fits e && ({ s with merges := rest } : State).mergeOpen x) =
      rest.find? fun x => x.router == r && x.fits e && s.mergeOpen x := by
    rw [List.find?_filter]
    refine congrArg (fun f => rest.find? f) (funext fun x => ?_)
    simp only [Bool.decide_and, Bool.decide_coe, Bool.and_assoc]
    rfl
  refine ⟨fun last => ?_, fun r path ahead => ⟨fun x meets => ?_, fun apart => ⟨fun room => ?_, fun old full oldest past => ?_⟩⟩⟩
  · rw [ran]
    exact congrArg Host.Outcome.next (reachRouter_past last)
  · rw [ran]
    refine congrArg Host.Outcome.next ((reachRouter_meets ahead ((test r).trans meets)).trans ?_)
    simp [updateWhere, MergeEntry.combine, departed]
  · rw [ran]
    exact congrArg Host.Outcome.next (reachRouter_held ahead ((test r).trans apart) room)
  · rw [ran]
    exact congrArg Host.Outcome.next ((reachRouter_full ahead ((test r).trans apart) full oldest).trans (reachRouter_past past))

end Sys2Proof.Machine
end


section
/-! # Waits that end (O47, R158, R376) -/

namespace Sys2Proof.Machine
open Sys2Proof

/-! The registers that a woken wait writes. -/

/-- A context with one register, or a pair, replaced in the lanes of a mask. -/
def Ctx.withPair (k : Ctx) (wide : Bool) (n : Nat) (m : LaneMask) (low high : Word) : Ctx :=
  let k := k.withReg n m fun _ => low
  if wide then k.withReg (n + 1) m fun _ => high else k

theorem Ctx.withPair_frame (k : Ctx) (wide : Bool) (n : Nat) (m : LaneMask) (low high : Word) :
    k.withPair wide n m low high = { k with v := (k.withPair wide n m low high).v } := by
  cases wide <;> rfl

/-- A register outside the pair keeps its lanes. -/
theorem Ctx.withPair_other (k : Ctx) {wide : Bool} {n r : Nat} (m : LaneMask) (low high : Word)
    (hr : r < n ∨ n + (if wide then 2 else 1) ≤ r) : (k.withPair wide n m low high).v.getD r [] = k.v.getD r [] := by
  cases wide with
  | false => exact Ctx.withReg_other k n r m _ (by simp at hr; omega)
  | true => exact (Ctx.withReg_other _ (n + 1) r m _ (by simp at hr; omega)).trans (Ctx.withReg_other k n r m _ (by simp at hr; omega))

/-- The lanes of the pair. -/
theorem Ctx.withPair_lane (k : Ctx) {wide : Bool} {n j l : Nat} (m : LaneMask) (low high : Word) (hj : j < if wide then 2 else 1)
    (regs : n + (if wide then 2 else 1) ≤ k.v.length) (hl : l < 64) :
    lane ((k.withPair wide n m low high).v.getD (n + j) []) l =
      if inMask m l then (if j = 0 then low else high) else lane (k.v.getD (n + j) []) l := by
  have first (room : n < k.v.length) := Ctx.withReg_self k n m (fun _ => low) room l hl
  cases wide with
  | false =>
    simp only [Bool.false_eq_true, if_false] at hj regs
    obtain rfl : j = 0 := by omega
    exact first (by omega)
  | true =>
    simp only [if_true] at hj regs
    obtain rfl | rfl : j = 0 ∨ j = 1 := by omega
    · exact (congrArg (lane · l) (Ctx.withReg_other _ (n + 1) n m _ (by omega))).trans (first (by omega))
    · have second := Ctx.withReg_self (k.withReg n m fun _ => low) (n + 1) m (fun _ => high) (by rw [Ctx.withReg, List.length_modify]; omega) l hl
      rw [Ctx.withReg_other k n (n + 1) m _ (by omega)] at second
      exact second

/-! The end of a wait (R158). -/

/-- The lanes of a watch: the one that waits. -/
def Watch.mask (w : Watch) : LaneMask := maskOf (· == w.lane)

/-- Registers that no access is pending for any longer. -/
def Ctx.settled (k : Ctx) (n words : Nat) : Ctx := { k with pendV := k.pendV &&& ~~~(regsMask n words) }

/-- The registers of a woken wait written and no longer pending. -/
def Watch.boundCtx (w : Watch) (v : Nat) (k : Ctx) : Ctx :=
  match w.dst with
  | none => k
  | some n =>
      (k.withPair (w.size == 8) n w.mask (BitVec.ofNat 32 v) (BitVec.ofNat 32 (v / 2 ^ 32))).settled n (w.size / 4)

/-- What the end of a wait makes of its context. -/
def Watch.wokenCtx (w : Watch) (v : Nat) (k : Ctx) : Ctx := arcCtx (arcOf w.profile) { w.boundCtx v k with asleep := false }

theorem wokenCtx_regs {w : Watch} {r : Nat} (dst : w.dst = some r) (v : Nat) (k : Ctx) : w.wokenCtx v k =
    { k with v := (k.withPair (w.size == 8) r w.mask (BitVec.ofNat 32 v) (BitVec.ofNat 32 (v / 2 ^ 32))).v
             asleep := false, pendV := k.pendV &&& ~~~(regsMask r (w.size / 4)), p := arcSet w.profile k.p } := by
  rw [Watch.wokenCtx, arcCtx_arcOf, Watch.boundCtx, dst]
  simp only [Ctx.settled]
  rw [Ctx.withPair_frame]

/-- The state with the registers of a woken wait written. -/
def State.bindWatch (s : State) (w : Watch) (v : Nat) : State :=
  match w.dst with
  | none => s
  | some n =>
      let s := s.writeRegOf w.cell w.elem w.ctx n w.mask fun _ => BitVec.ofNat 32 v
      let s := if w.size = 8 then s.writeRegOf w.cell w.elem w.ctx (n + 1) w.mask fun _ => BitVec.ofNat 32 (v / 2 ^ 32) else s
      s.setCtx w.cell w.elem w.ctx fun k => k.settled n (w.size / 4)

/-- What the end of a wait does to the cells. -/
def State.endWait (s : State) (w : Watch) (v : Nat) : State :=
  ((s.bindWatch w v).setCtx w.cell w.elem w.ctx fun k => { k with asleep := false }).setArc w.cell w.elem w.ctx (arcOf w.profile)

theorem setCtx_cells {s t : State} (cells : t.cells = s.cells) (c e x : Nat) (f : Ctx → Ctx) :
    (t.setCtx c e x f).cells = (s.setCtx c e x f).cells :=
  congrArg (updateWhere (fun (k : Cell) => k.id == c) fun k => k.setElem e fun j => j.setCtx x f) cells

theorem bindWatch_cells {s t : State} (cells : t.cells = s.cells) (w : Watch) (v : Nat) :
    (t.bindWatch w v).cells = (s.bindWatch w v).cells := by
  have regs (n : Nat) (f : Nat → Word) {s t : State} (cells : t.cells = s.cells) :
      (t.writeRegOf w.cell w.elem w.ctx n w.mask f).cells = (s.writeRegOf w.cell w.elem w.ctx n w.mask f).cells :=
    congrArg (updateWhere (fun (k : Cell) => k.id == w.cell) _) (setCtx_cells cells ..)
  unfold State.bindWatch
  cases w.dst with
  | none => exact cells
  | some n =>
    refine setCtx_cells ?_ ..
    split
    · exact regs _ _ (regs _ _ cells)
    · exact regs _ _ cells

theorem bindWatch_watches (s : State) (w : Watch) (v : Nat) : (s.bindWatch w v).watches = s.watches := by
  unfold State.bindWatch
  split
  · rfl
  · dsimp only
    split <;> rfl

theorem setArc_cells {s t : State} (cells : t.cells = s.cells) (c e x : Nat) (arc : Option Nat) :
    (t.setArc c e x arc).cells = (s.setArc c e x arc).cells := by
  cases arc with
  | none => exact cells
  | some n => exact setCtx_cells cells c e x fun k => { k with p := setPred k.p n true }

/-- The end of a wait through the writes of its registers; a wait of another module is answered (R404), and a loan that ends owes a step (R160). -/
theorem wakeUp_eq (s : State) (w : Watch) (v : Nat) : s.wakeUp w v =
    let b := ({ s with watches := s.watches.filter (·.id != w.id) } : State).bindWatch w v
    let h := if w.cell < 2 ^ 16 then b else { b with hostValue := v }
    let t := (h.setCtx w.cell w.elem w.ctx fun k => { k with asleep := false }).setArc w.cell w.elem w.ctx (arcOf w.profile)
    if w.loan then t.stepOwed else t := rfl

/-- The end of a wait in the cells, and its watch gone. -/
theorem wakeUp_leaves (s : State) (w : Watch) (v : Nat) :
    (s.wakeUp w v).cells = (s.endWait w v).cells ∧ (s.wakeUp w v).watches = s.watches.filter (·.id != w.id) := by
  have loan (t : State) : (if w.loan then t.stepOwed else t).cells = t.cells ∧ (if w.loan then t.stepOwed else t).watches = t.watches := by
    split <;> exact ⟨rfl, rfl⟩
  have host (b : State) : (if w.cell < 2 ^ 16 then b else { b with hostValue := v }).cells = b.cells ∧
      (if w.cell < 2 ^ 16 then b else { b with hostValue := v }).watches = b.watches := by
    split <;> exact ⟨rfl, rfl⟩
  have bound : (({ s with watches := s.watches.filter (·.id != w.id) } : State).bindWatch w v).cells = (s.bindWatch w v).cells :=
    bindWatch_cells (by rfl) w v
  rw [wakeUp_eq]
  dsimp only
  rw [(loan _).1, (loan _).2]
  refine ⟨setArc_cells (setCtx_cells ((host _).1.trans bound) ..) .., ?_⟩
  rw [State.setArc_watches, State.setCtx_watches, (host _).2, bindWatch_watches]

section
variable {s : State} {w : Watch} (v : Nat) (loaded : s.loaded w.cell = true) (he : w.elem < (s.cell w.cell).elems.length)
include loaded he

theorem EndsIn.bindWatch : EndsIn w.cell w.elem w.ctx (w.boundCtx v) s (s.bindWatch w v) := by
  unfold State.bindWatch Watch.boundCtx
  cases w.dst with
  | none => exact ⟨Moves.refl _ _ _ s, rfl, rfl⟩
  | some n =>
    have low := EndsIn.writeRegOf (x := w.ctx) n w.mask (fun _ => BitVec.ofNat 32 v) s loaded he
    obtain ⟨loadedLow, heLow⟩ := low.place loaded he
    by_cases wide : w.size = 8
    · have both := low.trans (EndsIn.writeRegOf (n + 1) w.mask (fun _ => BitVec.ofNat 32 (v / 2 ^ 32)) _ loadedLow heLow)
      obtain ⟨loadedBoth, heBoth⟩ := both.place loaded he
      simp only [beq_iff_eq.2 wide, if_pos wide]
      exact both.trans (EndsIn.setCtx (fun k => k.settled n (w.size / 4)) _ loadedBoth heBoth)
    · simp only [beq_eq_false_iff_ne.2 wide, if_neg wide]
      exact low.trans (EndsIn.setCtx (fun k => k.settled n (w.size / 4)) _ loadedLow heLow)

theorem EndsIn.endWait : EndsIn w.cell w.elem w.ctx (w.wokenCtx v) s (s.endWait w v) := by
  have bound := EndsIn.bindWatch v loaded he
  obtain ⟨loaded1, he1⟩ := bound.place loaded he
  have awake := bound.trans (EndsIn.setCtx (fun k => { k with asleep := false }) _ loaded1 he1)
  obtain ⟨loaded2, he2⟩ := awake.place loaded he
  exact awake.trans (EndsIn.setArc (arcOf w.profile) _ loaded2 he2)

end

/-- A state with the same cells leaves the same contexts. -/
theorem LeavesContexts.of_cells {s t u : State} {c e x : Nat} (h : LeavesContexts s t c e x) (cells : u.cells = t.cells) :
    LeavesContexts s u c e x := by
  have cell (k : Nat) : u.cell k = t.cell k := by rw [State.cell, cells, ← State.cell]
  simpa only [LeavesContexts, State.ctxOf, cell] using h

/-- R158: the wait of a watch ends. -/
theorem wakeUp_ends {s : State} {w : Watch} (place : s.hasCtx w.cell w.elem w.ctx) (v : Nat) :
    let u := s.wakeUp w v
    let k := s.ctxOf w.cell w.elem w.ctx
    let k' := u.ctxOf w.cell w.elem w.ctx
    let n := w.size / 4
    u.watches = s.watches.filter (·.id != w.id) ∧ LeavesContexts s u w.cell w.elem w.ctx ∧ u.mem = s.mem ∧
    (w.dst = none → k' = { k with asleep := false, p := arcSet w.profile k.p }) ∧
    ∀ r, w.dst = some r → w.size = 4 ∨ w.size = 8 → r + n ≤ 16 → w.lane < 64 →
      (∀ j l, j < n → l < 64 → lane (k'.v.getD (r + j) []) l =
        if l = w.lane then BitVec.ofNat 32 (v / 2 ^ (32 * j)) else lane (k.v.getD (r + j) []) l) ∧
      (∀ j, j < r ∨ r + n ≤ j → k'.v.getD j [] = k.v.getD j []) ∧
      k' = { k with v := k'.v, asleep := false, pendV := k.pendV &&& ~~~(regsMask r n), p := arcSet w.profile k.p } := by
  obtain ⟨loaded, he, hx, length, -⟩ := place
  obtain ⟨cells, watches⟩ := wakeUp_leaves s w v
  have ended := EndsIn.endWait v loaded he
  have ctx : (s.wakeUp w v).ctxOf w.cell w.elem w.ctx = w.wokenCtx v (s.ctxOf w.cell w.elem w.ctx) := by
    rw [State.ctxOf, State.cell, cells, ← State.cell]
    exact ended.moves.ctx hx
  refine ⟨watches, ended.leaves.of_cells cells, State.wakeUp_mem s w v, fun none => ?_, fun r dst size regs lane => ?_⟩
  · rw [ctx, Watch.wokenCtx, arcCtx_arcOf, Watch.boundCtx, none]
  · have mask (l : Nat) (hl : l < 64) : inMask w.mask l = (l == w.lane) := getLsbD_maskOf _ hl
    have wide : (if w.size == 8 then 2 else 1) = w.size / 4 := by rcases size with size | size <;> simp [size]
    rw [ctx]
    generalize s.ctxOf w.cell w.elem w.ctx = k at length ⊢
    rw [wokenCtx_regs dst]
    refine ⟨fun j l hj hl => ?_, fun j hj => Ctx.withPair_other k w.mask _ _ (by rw [wide]; exact hj), rfl⟩
    refine (Ctx.withPair_lane k w.mask _ _ (by rw [wide]; exact hj) (by rw [wide]; omega) hl).trans ?_
    rw [mask l hl]
    refine if_congr beq_iff_eq ?_ rfl
    obtain rfl | rfl : j = 0 ∨ j = 1 := by omega
    · simp
    · rfl

/-! A word that has become uncorrectable (R376). -/

/-- A record stands in a state whose die had the same records before. -/
theorem Raised.of_records {s w u : State} {c e x slot opcode fl prof id : Nat} {f : FaultInfo} {what : RecordOf}
    (records : (w.die (dieOf c)).records = (s.die (dieOf c)).records) (cells : w.cells = s.cells) (time : w.time = s.time)
    (h : Raised w u c e x slot opcode fl prof f what id) : Raised s u c e x slot opcode fl prof f what id := by
  simp only [Raised, State.cell, State.ticks, records, cells, time] at h ⊢
  exact h

/-- One record of an access of one part, which has failed and is not reported yet (R375). -/
theorem reportFailed_one {s : State} {a : Access} {p : Part} {code time : Nat} (found : s.acc? a.id = some a) (parts : a.parts = [p])
    (failed : p.st = .failed code time) (unreported : s.reported a.id = false) : s.reportFailed a.id =
      let pushed := s.pushRecordAt time a.cell a.elem a.ctx a.slot a.opcode 0 a.profile (mkFault (code % 256) (code / 256) (a.markOf p) p.va)
        (.access a.id 0)
      pushed.2.hold a.cell a.elem a.ctx pushed.1 := by
  have one : List.range 1 = [0] := rfl
  have bad : Part.bad p = true := by rw [Part.bad, failed]
  have settled : (PartSt.failed code time != .waiting) = true := rfl
  have lanes : Nat.lor 0 (a.markOf p) = a.markOf p := Nat.zero_or _
  simp only [State.reportFailed, found, parts, List.length_singleton, one, List.all_cons, List.all_nil, List.getElem?_cons_zero, settled,
    List.zip_cons_cons, List.zip_nil_left, List.find?_cons, bad, unreported, Bool.true_or, Bool.and_true, Bool.not_true, Bool.or_self,
    Bool.false_eq_true, if_false, List.filter_cons, List.filter_nil, if_true, List.foldl_cons, List.foldl_nil, lanes, failed]

/-- What an update of one element leaves of every element. -/
theorem map_modify_kept {α β : Type} (g : α → β) {f : α → α} (hf : ∀ x, g (f x) = g x) (xs : List α) (i : Nat) :
    (xs.modify i f).map g = xs.map g := by
  refine List.ext_getElem? fun j => ?_
  simp only [List.getElem?_map, List.getElem?_modify]
  cases xs[j]? with
  | none => rfl
  | some x => split <;> simp [hf]

/-- Counting an error reports no access (R88). -/
theorem reported_countUncorr (s : State) (d id : Nat) : (s.countUncorr d).reported id = s.reported id := by
  have any (t : State) : t.reported id = (t.dies.map (·.records)).any fun rs => rs.any fun r => match r.of with
      | .access k _ => k == id
      | _ => false := by
    rw [List.any_map]
    rfl
  have records : (s.countUncorr d).dies.map (·.records) = s.dies.map (·.records) := map_modify_kept Die.records (by exact fun _ => rfl) s.dies d
  rw [any, any, records]

/-- The state of a watch whose word could not be read again: the WAITA stands among the accesses again, failed (R376). -/
def State.failedWatch (s : State) (w : Watch) : State :=
  { ({ s with watches := s.watches.filter (·.id != w.id) } : State).countUncorr (homeDie w.pa) with
    accs := s.accs ++ [w.again s.time (.failed fUncorrectable s.ticks)] }

theorem spoilWatch_reports {s : State} {w : Watch} (cell : w.cell < 2 ^ 16) (new : ∀ x ∈ s.accs, x.id ≠ w.id) :
    s.spoilWatch w = (s.failedWatch w).reportFailed w.id := by
  have others : (s.accs.map fun x => if x.id == w.id then { x with parts := modifyAt x.parts 0 fun p => { p with st := .failed fUncorrectable s.ticks } }
      else x) = s.accs := by
    refine (List.map_congr_left fun x hx => ?_).trans (List.map_id _)
    rw [if_neg (by simpa using new x hx)]
    rfl
  have failed : ({ ({ s with watches := s.watches.filter (·.id != w.id) } : State).countUncorr (homeDie w.pa) with
      accs := s.accs ++ [w.again s.time .waiting] } : State).setPart w.id 0 (fun p => { p with st := .failed fUncorrectable s.ticks }) =
        s.failedWatch w := by
    simp only [State.setPart, State.setAcc, updateWhere, List.map_append, others]
    simp [State.failedWatch, Watch.again, modifyAt]
  rw [State.spoilWatch]
  simp only [if_pos cell]
  exact congrArg (State.reportFailed · w.id) failed

/-- R376: the re-read of a watched word meets an uncorrectable error. -/
theorem spoilWatch_raises {s : State} {w : Watch} (place : s.hasCtx w.cell w.elem w.ctx) (cell : w.cell < 2 ^ 16) (new : ∀ x ∈ s.accs, x.id ≠ w.id)
    (unreported : s.reported w.id = false) (hd : dieOf w.cell < s.dies.length) :
    let u := s.spoilWatch w
    RaisedHold s u w.cell w.elem w.ctx w.slot 0x63 0 w.profile (0x0C, 0, 2 ^ w.lane, w.va) (.access w.id 0) ∧
      u.watches = s.watches.filter (·.id != w.id) ∧ u.mem = s.mem := by
  obtain ⟨loaded, he, hx, -, -⟩ := place
  have found : (s.failedWatch w).acc? w.id = some (w.again s.time (.failed fUncorrectable s.ticks)) := by
    have none : s.accs.find? (·.id == w.id) = none := List.find?_eq_none.2 fun x hx => by simpa using new x hx
    rw [State.acc?, State.failedWatch, List.find?_append, none, Option.none_or]
    exact List.find?_cons_of_pos (beq_self_eq_true w.id)
  have records (d : Nat) : ((s.failedWatch w).die d).records = (s.die d).records := (die_countUncorr s (homeDie w.pa) d).1
  have quiet : (s.failedWatch w).reported w.id = false := (reported_countUncorr s (homeDie w.pa) w.id).trans unreported
  have hd' : dieOf w.cell < (s.failedWatch w).dies.length := hd.trans_eq (List.length_modify ..).symm
  have pushed := raised_pushed (s := s.failedWatch w) (e := w.elem) (x := w.ctx) (slot := w.slot) (opcode := 0x63) (fl := 0)
    (prof := w.profile) (0x0C, 0, 2 ^ w.lane, w.va) (.access w.id 0) hd' rfl
  have held := EndsIn.setCtx (c := w.cell) (e := w.elem) (x := w.ctx) (fun k => { k with heldBy := k.heldBy ++ [(s.failedWatch w).nextId] }) s loaded he
  intro u
  have ran : u = _ := (spoilWatch_reports cell new).trans
    (reportFailed_one (a := w.again s.time (.failed fUncorrectable s.ticks)) found rfl rfl quiet)
  rw [ran]
  exact ⟨⟨_, Raised.of_records (records _) rfl rfl pushed, held.moves.ctx hx, held.leaves⟩, rfl, rfl⟩

/-- R158, R376: a woken wait. -/
theorem wakings : Wakings := by
  intro s w place found
  have ran : exec (.waitaWake w.id) s = .next (if w.armed && s.spoiled w.pa w.size then s.spoilWatch w
      else s.wakeUp w (if w.armed then s.coherentNat w.pa w.size else w.value)) := by
    change execWaitaWake w.id s = _
    simp only [execWaitaWake, found]
  refine ⟨fun armed cell bad new unreported hd => ⟨_, ran, ?_⟩, fun good => ⟨_, ran, ?_⟩⟩
  · rw [if_pos (by rw [armed, bad]; rfl)]
    exact spoilWatch_raises place cell new unreported hd
  · have sound : ¬(w.armed && s.spoiled w.pa w.size) = true := by rcases good with good | good <;> simp [good]
    rw [if_neg sound]
    exact wakeUp_ends place _

end Sys2Proof.Machine
end


section
/-! # An access reaches its word at home (O47, R96, R145) -/

namespace Sys2Proof.Machine
open Sys2Proof

/-- Nothing of a state changes but its directory. -/
def OnlyDir (s u : State) : Prop := u = { s with dir := u.dir }

section
variable {s : State} (room : s.dir.length < 16)
include room

/-- A directory of fewer than 16 entries has room for one more in every set (R97). -/
theorem makeEntryRoom_roomy (region : Nat) : s.makeEntryRoom region = s := by
  rw [State.makeEntryRoom]
  exact if_pos (Nat.lt_of_le_of_lt (List.length_filter_le _ _) room)

/-- It has room for one more line group (R97). -/
theorem makeGroupRoom_roomy (region : Nat) : s.makeGroupRoom region = s := by
  have few := List.length_filter_le (fun e => homeSlice (e.region * 4096) == homeSlice (region * 4096) && e.lines.isSome && e.region != region) s.dir
  rw [State.makeGroupRoom]
  exact if_pos (by omega)

theorem dirGrant_onlyDir (q line : Nat) (store : Bool) : OnlyDir s (s.dirGrant q line store).2 := by
  simp only [State.dirGrant, makeEntryRoom_roomy room, makeGroupRoom_roomy room]
  repeat' split
  all_goals rfl

theorem dirAtomic_onlyDir (cell pa : Nat) : OnlyDir s (s.dirAtomic cell pa) := by
  rw [State.dirAtomic]
  split
  · exact dirGrant_onlyDir room ..
  · rfl

/-- A region that nobody holds gets an entry that names the cell as its owner (R94, R96). -/
theorem dirAtomic_first {pa : Nat} (here : moduleOf pa = s.hub.modnum) (new : s.dir.find? (·.region == lineOf pa / 4096) = none) (cell : Nat) :
    (s.dirAtomic cell pa).dir = s.dir ++ [⟨lineOf pa / 4096, .own cell, none, s.time⟩] := by
  have others : s.dir.filter (·.region != lineOf pa / 4096) = s.dir :=
    List.filter_eq_self.2 fun e he => by simpa using List.find?_eq_none.1 new e he
  rw [State.dirAtomic, if_pos (beq_iff_eq.2 here)]
  simp only [State.dirGrant, new, makeEntryRoom_roomy room, others]

end

/-- The state in which an access reaches its word: its requester has been served, and the directory keeps its cell (R96, R145). -/
def State.reached (s : State) (cell pa leaf : Nat) : State :=
  let t := s.serveTurn (lineOf pa) (s.requesterNo cell)
  if leafCp leaf = 0 then t.dirAtomic cell pa else t

/-- What serving a request leaves: all but the slice's marks of use, the order of its requesters, and the directory. -/
def Serves (s u : State) : Prop := u = { s with plru := u.plru, sliceLines := u.sliceLines, servedNow := u.servedNow, dir := u.dir }

theorem Serves.sound {s t : State} (h : Serves s t) (sound : s.sound) : t.sound := by
  rw [h]
  exact sound

section
variable {s : State} {leaf : Nat} (room : leafCp leaf = 0 → s.dir.length < 16) (cell : Nat)
include room

theorem reached_serves (pa : Nat) : Serves s (s.reached cell pa leaf) := by
  rw [State.reached]
  split
  · next cached =>
    have only := dirAtomic_onlyDir (s := s.serveTurn (lineOf pa) (s.requesterNo cell)) (room cached) cell pa
    rw [Serves, only]
    rfl
  · rfl

/-- The cell of a cached page that nobody holds becomes the owner of its region (R96). -/
theorem reached_first {pa : Nat} (cached : leafCp leaf = 0) (here : moduleOf pa = s.hub.modnum)
    (new : s.dir.find? (·.region == lineOf pa / 4096) = none) :
    (s.reached cell pa leaf).dir = s.dir ++ [⟨lineOf pa / 4096, .own cell, none, s.time⟩] := by
  rw [State.reached, if_pos cached]
  exact dirAtomic_first (s := s.serveTurn (lineOf pa) (s.requesterNo cell)) (room cached) here new cell

end

end Sys2Proof.Machine
end

section
/-! # Atomics and future forms at home (O47, R96, R118, R139, R141, R144, R291) -/

namespace Sys2Proof.Machine
open Sys2Proof

/-! Reductions enter the merge buffers. -/

/-- Nothing of a state changes but the requests in its merge buffers, and the next identifier. -/
def OnlyMerges (s u : State) : Prop := u = { s with merges := u.merges, nextId := u.nextId }

theorem OnlyMerges.trans {s u w : State} (a : OnlyMerges s u) (b : OnlyMerges u w) : OnlyMerges s w := by
  rw [OnlyMerges] at *
  rw [b, a]

theorem reachRouter_onlyMerges (s : State) (n : Nat) (e : MergeEntry) : OnlyMerges s (s.reachRouter n e) := by
  induction n generalizing s e with
  | zero => rfl
  | succ n ih =>
    rw [State.reachRouter]
    split
    · rfl
    · split
      · rfl
      · dsimp only
        split
        · split
          · rfl
          · exact OnlyMerges.trans (by rfl) (ih _ _)
        · rfl

/-- No reduction that is outstanding lies on a software-managed page. -/
def State.plainReductions (s : State) : Prop := ∀ x ∈ s.accs, x.merges = true → ∀ leaf ∈ x.parts.map (·.leaf), leafManaged leaf = false

/-- Where no reduction lies on a software-managed page, no copy moves when they enter (R144, R147). -/
theorem mergeAll_onlyMerges {s : State} (plain : s.plainReductions) : OnlyMerges s s.mergeAll := by
  refine List.foldlRecOn (motive := OnlyMerges s) _ _ rfl fun u same k _ => ?_
  have accs : u.accs = s.accs := by rw [same]
  dsimp only
  split
  · exact same
  next a found =>
  have outstanding : a ∈ s.accs := accs ▸ List.mem_of_find?_eq_some found
  split
  · next op p _ part =>
    split
    · next enters =>
      simp only [Bool.and_eq_true] at enters
      obtain ⟨⟨⟨⟨⟨merges, -⟩, -⟩, -⟩, -⟩, -⟩ := enters
      have unmanaged := plain a outstanding merges p.leaf (List.mem_map_of_mem (List.mem_of_getElem? part))
      rw [unmanaged]
      exact same.trans (OnlyMerges.trans (by rfl) (reachRouter_onlyMerges _ _ _))
    · exact same
  · exact same

/-! The accesses of a part that is performed. -/

theorem passEarlier_accs (s : State) (a : Access) : s.passEarlier a = { s with accs := (s.passEarlier a).accs } := by
  rw [State.passEarlier]
  split <;> rfl

theorem modifyAt_part {a : Access} {i : Nat} {p : Part} (part : a.parts[i]? = some p) (f : Part → Part) :
    modifyAt a.parts i f = a.parts.set i (f p) := by
  rw [modifyAt, List.modify_eq_set_getElem?, part]
  rfl

/-- An access changes after a narrow release has taken earlier ones as performed: all others are as before but for that mark (R118). -/
theorem accs_passEarlier_setAcc {s : State} {a : Access} {f : Access → Access} (found : s.acc? a.id = some a) (keeps : ∀ x, (f x).id = x.id)
    (marks : ∀ x, (f x).unpassed = f x.unpassed) :
    let u := (s.passEarlier a).setAcc a.id f
    (∀ k, k ≠ a.id → (u.acc? k).map Access.unpassed = (s.acc? k).map Access.unpassed ∧ (a.narrow = false → u.acc? k = s.acc? k)) ∧
      (u.acc? a.id).map Access.unpassed = some (f a).unpassed ∧ (a.narrow = false → u.acc? a.id = some (f a)) := by
  have passed := unpassed_passEarlier s a
  have wide (h : a.narrow = false) : s.passEarlier a = s := if_pos (by rw [h]; rfl)
  refine ⟨fun k other => ?_, ?_, fun h => ?_⟩
  · rw [acc_setAcc a.id k keeps, if_neg other]
    exact ⟨passed k, fun h => by rw [wide h]⟩
  · have own := passed a.id
    rw [found] at own
    obtain ⟨b, here, same⟩ := Option.map_eq_some_iff.1 own
    rw [acc_setAcc a.id a.id keeps, if_pos rfl, here, Option.map_some, Option.map_some, marks, same, ← marks]
  · rw [acc_setAcc a.id a.id keeps, if_pos rfl, wide h, found, Option.map_some]

/-- An access keeps what decides whether it is a reduction, and where it lies. -/
def KeepsPages (f : Access → Access) : Prop := ∀ x, (f x).merges = x.merges ∧ (f x).parts.map (·.leaf) = x.parts.map (·.leaf)

theorem plainReductions_update {s u : State} {t : Access → Bool} {f : Access → Access} (plain : s.plainReductions) (keeps : KeepsPages f)
    (accs : u.accs = updateWhere t f s.accs) : u.plainReductions := by
  intro x hx
  rw [accs, updateWhere, List.mem_map] at hx
  obtain ⟨y, hy, rfl⟩ := hx
  split
  · rw [(keeps y).1, (keeps y).2]
    exact plain y hy
  · exact plain y hy

theorem plainReductions_passEarlier {s : State} (plain : s.plainReductions) (a : Access) : (s.passEarlier a).plainReductions := by
  rw [State.passEarlier]
  split
  · exact plain
  · refine plainReductions_update plain (f := (·.passAt (scopeOf a.profile))) ?_ rfl
    exact fun _ => ⟨rfl, rfl⟩

/-! The home slice performs the part. -/

/-- The state in which a part is performed: its slice has been touched, its requester served, and the directory keeps it (R65, R96, R145). -/
def State.servedFor (s : State) (a : Access) (p : Part) : State :=
  ((if leafCp p.leaf = 2 then s else s.sliceTouch p.pa 0).correctAt p.pa p.size).reached a.cell p.pa p.leaf

/-- What is ready at home, on a page that is not software-managed. -/
structure ReadyAtHome (s : State) (i : Nat) (a : Access) (p : Part) : Prop where
  found : s.acc? a.id = some a
  part : a.parts[i]? = some p
  ready : s.atomicReady a i p = true
  unmerged : s.mergeOf a.id i = none
  unmanaged : leafManaged p.leaf = false

namespace ReadyAtHome
variable {s : State} {i : Nat} {a : Access} {p : Part} (h : ReadyAtHome s i a p)
include h

/-- What no router holds and what is ready at home is no reduction that a router could merge (R146). -/
theorem single : a.merges = false := by
  have ready := h.ready
  simp only [State.atomicReady, h.unmerged, Bool.and_eq_true, Bool.not_eq_true'] at ready
  obtain ⟨⟨-, single⟩, -⟩ := ready
  exact single

/-- Copies that conflict are recalled first (R92, R96). -/
theorem exec_recalls (held : s.conflicts (lineOf p.pa) true none ≠ [])
    (good : ∀ c ∈ s.conflicts (lineOf p.pa) true none, s.copySpoiled c (lineOf p.pa) = false) : exec (.atomicAtHome a.id i) s =
      .next { s with recalls := s.recalls ++ [⟨lineOf p.pa, s.conflicts (lineOf p.pa) true none, false⟩] } := by
  have none_bad : s.pullBad (lineOf p.pa) true none = none := List.find?_eq_none.2 fun c hc => by rw [good c hc]; exact Bool.false_ne_true
  obtain ⟨c, cs, eq⟩ := List.exists_cons_of_ne_nil held
  change execAtomicAtHome a.id i s = _
  simp only [execAtomicAtHome, h.found, h.part, h.single, h.ready, h.unmanaged, none_bad, eq, State.askRecall, Bool.false_and, Bool.not_true,
    Bool.false_eq_true, if_false]

/-- With no conflicting copy the part is performed, and reductions that waited for it go on (R141, R147). -/
theorem exec_performs (free : s.conflicts (lineOf p.pa) true none = []) : exec (.atomicAtHome a.id i) s =
    .next ((s.servedFor a p).atomicNow a i p).mergeAll := by
  have none_bad : s.pullBad (lineOf p.pa) true none = none := by rw [State.pullBad, free]; rfl
  change execAtomicAtHome a.id i s = _
  simp only [execAtomicAtHome, h.found, h.part, h.single, h.ready, h.unmanaged, none_bad, free, State.servedFor, State.reached, Bool.false_and, Bool.not_true,
    Bool.not_false, Bool.and_true, Bool.false_eq_true, if_false, decide_eq_true_eq]

end ReadyAtHome

section
variable {s : State} {p : Part} {pl : List SlicePlru} {ls : List SliceLine} (sound : s.sound)
  (touched : leafCp p.leaf = 2 ∨ s.sliceTouch p.pa 0 = { s with plru := pl, sliceLines := ls })
include sound touched

/-- The touch of the slice changes its marks alone, and no error is met. -/
theorem servedFor_eq (a : Access) : ∃ pl ls, s.servedFor a p = ({ s with plru := pl, sliceLines := ls } : State).reached a.cell p.pa p.leaf := by
  obtain ⟨pl, ls, same⟩ : ∃ pl ls, (if leafCp p.leaf = 2 then s else s.sliceTouch p.pa 0) = { s with plru := pl, sliceLines := ls } := by
    rcases touched with cp | touch
    · exact ⟨s.plru, s.sliceLines, if_pos cp⟩
    · split
      · exact ⟨s.plru, s.sliceLines, rfl⟩
      · exact ⟨pl, ls, touch⟩
  refine ⟨pl, ls, ?_⟩
  rw [State.servedFor, same, correctAt_of_sound (s := { s with plru := pl, sliceLines := ls }) sound]

theorem servedFor_serves (room : leafCp p.leaf = 0 → s.dir.length < 16) (a : Access) : Serves s (s.servedFor a p) := by
  obtain ⟨pl, ls, eq⟩ := servedFor_eq sound touched a
  have serves := reached_serves (s := { s with plru := pl, sliceLines := ls }) room a.cell p.pa
  rw [eq, Serves, serves]

/-- The cell of a cached page that nobody holds becomes the owner of its region (R96). -/
theorem servedFor_owns (room : leafCp p.leaf = 0 → s.dir.length < 16) (a : Access) (cached : leafCp p.leaf = 0)
    (here : moduleOf p.pa = s.hub.modnum) (new : s.dir.find? (·.region == lineOf p.pa / 4096) = none) :
    (s.servedFor a p).dir = s.dir ++ [⟨lineOf p.pa / 4096, .own a.cell, none, s.time⟩] := by
  obtain ⟨pl, ls, eq⟩ := servedFor_eq sound touched a
  rw [eq]
  exact reached_first (s := { s with plru := pl, sliceLines := ls }) room a.cell cached here new

end

/-! What is written at home. -/

/-- Bytes are written at home, with the wakings and the slice's marks that follow (R91, R158). -/
structure WritesHome (s u : State) (pa : Nat) (bs : List Nat) : Prop where
  written : WrittenAt s u pa bs
  rest : u = { s with mem := u.mem, watches := u.watches, upsets := u.upsets, sliceLines := u.sliceLines }

theorem writesHome_homeWrite (s : State) (pa : Nat) (bs : List Nat) : WritesHome s (s.homeWrite pa bs) pa bs :=
  ⟨written_homeWrite s pa bs, rfl⟩

/-- No byte is written. -/
theorem writesHome_refl (s : State) (pa : Nat) : WritesHome s s pa [] :=
  ⟨fun x => (if_neg fun h => by simp at h; omega).symm, rfl⟩

/-- An atomic's update of its access (R141, R192). -/
def Access.performed (i flags : Nat) (old : List Nat) (x : Access) : Access :=
  { x with flags := Nat.lor x.flags flags, parts := modifyAt x.parts i fun q => { q with st := .done, bound := old } }

section
variable {s : State} {a : Access} {p : Part} (found : s.acc? a.id = some a) (sound : s.sound)
include found sound

/-- An atomic on a word in which no error stands (R139, R141). -/
theorem performAtomic_atomic {op : Nat} (kind : a.op = .atomic op) (i b : Nat) :
    let old := memNat s.mem p.pa p.size
    let r := atomicNew op (8 * p.size) old b p.word
    ∃ w, WritesHome (s.passEarlier a) w p.pa (if r.2.2 then leBytes p.size r.1 else []) ∧
      s.performAtomic a i p b = w.setAcc a.id (Access.performed i r.2.1 (leBytes p.size old)) := by
  intro old r
  have pass : s.passFor a.id = s.passEarlier a := by simp only [State.passFor, found]
  have clean : (s.passEarlier a).sound := by rw [passEarlier_accs]; exact sound
  refine ⟨if r.2.2 then (s.passEarlier a).homeWrite p.pa (leBytes p.size r.1) else s.passEarlier a, ?_, ?_⟩
  · split
    · exact writesHome_homeWrite ..
    · exact writesHome_refl ..
  · simp only [State.performAtomic, pass, (spoiled_of_sound clean _ _).1, kind, Bool.false_eq_true, if_false]
    rfl

/-- A future form on a word in which no error stands (R291). -/
theorem performAtomic_future (kind : a.op = .freg ∨ a.op = .fres) (i b : Nat) :
    let r := futureStep (a.op == .freg) (memNat s.mem p.pa p.size) p.word
    ∃ w, WritesHome s w p.pa (match r.1 with | some v => leBytes 8 v | none => []) ∧
      s.performAtomic a i p b = (match r.2.1 with | some j => w.sendArrival a p.lane j | none => w).setPart a.id i fun q =>
        { q with st := .done, bound := match r.2.2 with | some c => [c] | none => [], since := s.time } := by
  intro r
  have wide : a.narrow = false := by rcases kind with kind | kind <;> simp [Access.narrow, kind]
  have pass : s.passFor a.id = s := by simp only [State.passFor, found, State.passEarlier, wide, Bool.not_false, if_true]
  refine ⟨match r.1 with | some v => s.homeWrite p.pa (leBytes 8 v) | none => s, ?_, ?_⟩
  · cases r.1 with
    | some v => exact writesHome_homeWrite ..
    | none => exact writesHome_refl ..
  · have step : s.performAtomic a i p b = (
        let t := match r.1 with | some v => s.homeWrite p.pa (leBytes 8 v) | none => s
        let t := match r.2.1 with | some j => t.sendArrival a p.lane j | none => t
        t.setPart a.id i fun q => { q with st := .done, bound := match r.2.2 with | some c => [c] | none => [], since := t.time }) := by
      rcases kind with kind | kind
      · simp only [State.performAtomic, pass, (spoiled_of_sound sound _ _).1, kind, Bool.false_eq_true, if_false, r] <;> rfl
      · simp only [State.performAtomic, pass, (spoiled_of_sound sound _ _).1, kind, Bool.false_eq_true, if_false, r] <;> rfl
    rw [step]
    cases r.1 <;> cases r.2.1 <;> rfl

end

/-! The event. -/

theorem unmanaged_of_leaf {leaf : Nat} (h : leafSm leaf = false ∨ leafCp leaf = 2) : leafManaged leaf = false := by
  rcases h with h | h <;> simp [leafManaged, h]

theorem plainReductions_of_pages {s : State}
    (h : ∀ x ∈ s.accs, x.res = .none → ∀ o, x.op = .atomic o → ∀ q ∈ x.parts, leafSm q.leaf = false ∨ leafCp q.leaf = 2) : s.plainReductions := by
  intro x hx merges leaf hleaf
  obtain ⟨q, hq, rfl⟩ := List.mem_map.1 hleaf
  simp only [Access.merges, Bool.and_eq_true, beq_iff_eq] at merges
  obtain ⟨res, op⟩ := merges
  split at op
  · next o kind => exact unmanaged_of_leaf (h x hx res o kind q hq)
  · cases op

/-- A change of one part that leaves its page. -/
theorem keepsPages_of_part {g : Access → Access} {i : Nat} {f : Part → Part} (merges : ∀ x, (g x).merges = x.merges)
    (parts : ∀ x, (g x).parts = modifyAt x.parts i f) (page : ∀ q, (f q).leaf = q.leaf) : KeepsPages g :=
  fun x => ⟨merges x, by rw [parts]; exact map_modify_kept Part.leaf page x.parts i⟩

theorem keepsPages_performed (i flags : Nat) (old : List Nat) : KeepsPages (Access.performed i flags old) :=
  keepsPages_of_part (by exact fun _ => rfl) (by exact fun _ => rfl) (by exact fun _ => rfl)

/-- What is written does not depend on what else changes. -/
theorem WrittenAt.of_mem {s s' u u' : State} {pa : Nat} {bs : List Nat} (h : WrittenAt s' u' pa bs) (before : s'.mem = s.mem)
    (after : u.mem = u'.mem) : WrittenAt s u pa bs := by
  rw [WrittenAt, after, ← before]
  exact h

/-- The reductions that go on after a part is performed change nothing that the event's result speaks of. -/
theorem mergeAll_leaves {v : State} (plain : v.plainReductions) : v.mergeAll.mem = v.mem ∧ v.mergeAll.cells = v.cells ∧ v.mergeAll.dir = v.dir ∧
    v.mergeAll.arrivals = v.arrivals ∧ ∀ k, v.mergeAll.acc? k = v.acc? k := by
  have only := mergeAll_onlyMerges plain
  rw [only]
  exact ⟨rfl, rfl, rfl, rfl, fun _ => rfl⟩

/-- A part is performed: w has what was written, f is what becomes of its access, and reductions that waited for it go on. -/
theorem performed_leaves {t w : State} {a : Access} {f : Access → Access} {pa : Nat} {bs : List Nat} (found : t.acc? a.id = some a)
    (plain : t.plainReductions) (keeps : ∀ x, (f x).id = x.id) (marks : ∀ x, (f x).unpassed = f x.unpassed) (pages : KeepsPages f)
    (written : WrittenAt t w pa bs) (accs : w.accs = (t.passEarlier a).accs) :
    let u := (w.setAcc a.id f).mergeAll
    WrittenAt t u pa bs ∧ u.cells = w.cells ∧ u.dir = w.dir ∧ u.arrivals = w.arrivals ∧
    (∀ k, k ≠ a.id → (u.acc? k).map Access.unpassed = (t.acc? k).map Access.unpassed ∧ (a.narrow = false → u.acc? k = t.acc? k)) ∧
    (u.acc? a.id).map Access.unpassed = some (f a).unpassed ∧ (a.narrow = false → u.acc? a.id = some (f a)) := by
  intro u
  have plainAfter : (w.setAcc a.id f).plainReductions :=
    plainReductions_update (plainReductions_passEarlier plain a) pages (congrArg (updateWhere _ _) accs)
  obtain ⟨mem, cells, dir, arrivals, acc⟩ := mergeAll_leaves plainAfter
  have same (k : Nat) : u.acc? k = ((t.passEarlier a).setAcc a.id f).acc? k := by
    rw [acc, State.acc?, State.setAcc, accs]
    rfl
  simp only [same]
  exact ⟨written.of_mem rfl mem, cells, dir, arrivals, accs_passEarlier_setAcc found keeps marks⟩

/-- The state in which the part is performed. -/
structure ServedReady (s t : State) (i : Nat) (a : Access) : Prop where
  found : t.acc? a.id = some a
  unmerged : t.mergeOf a.id i = none
  sound : t.sound
  plain : t.plainReductions
  mem : t.mem = s.mem
  cells : t.cells = s.cells
  arrivals : t.arrivals = s.arrivals
  time : t.time = s.time
  accs : t.accs = s.accs

theorem ReadyAtHome.served {s t : State} {i : Nat} {a : Access} {p : Part} (h : ReadyAtHome s i a p) (sound : s.sound) (plain : s.plainReductions)
    (serves : Serves s t) : ServedReady s t i a := by
  rw [serves]
  exact ⟨h.found, h.unmerged, sound, plain, rfl, rfl, rfl, rfl, rfl⟩

section
variable {s t : State} {i : Nat} {a : Access} {p : Part} (h : ServedReady s t i a) (part : a.parts[i]? = some p)
include h part

/-- R118, R139, R141: an atomic is performed. -/
theorem atomicNow_atomic {op : Nat} (kind : a.op = .atomic op) :
    let u := (t.atomicNow a i p).mergeAll
    let old := memNat s.mem p.pa p.size
    let r := atomicNew op (8 * p.size) old (leNat p.data) p.word
    WrittenAt s u p.pa (if r.2.2 then leBytes p.size r.1 else []) ∧ u.cells = s.cells ∧ u.dir = t.dir ∧
    (∀ k, k ≠ a.id → (u.acc? k).map Access.unpassed = (s.acc? k).map Access.unpassed ∧ (a.narrow = false → u.acc? k = s.acc? k)) ∧
    (u.acc? a.id).map Access.unpassed = some (Access.unpassed { a with
      flags := Nat.lor a.flags r.2.1, parts := a.parts.set i { p with st := .done, bound := leBytes p.size old } }) := by
  intro u old r
  obtain ⟨w, ⟨written, rest⟩, performed⟩ := performAtomic_atomic (p := p) h.found h.sound kind i (leNat p.data)
  rw [h.mem] at written performed
  have now : u = (w.setAcc a.id (Access.performed i r.2.1 (leBytes p.size old))).mergeAll := by
    rw [← performed]
    simp only [u, State.atomicNow, h.unmerged]
  rw [passEarlier_accs] at rest written
  obtain ⟨written', cells, dir, -, others, own, -⟩ := performed_leaves (f := Access.performed i r.2.1 (leBytes p.size old)) (w := w) h.found h.plain
    (by exact fun _ => rfl) (by exact fun _ => rfl) (keepsPages_performed i _ _) (written.of_mem rfl rfl) (by rw [rest])
  have acc (k : Nat) : t.acc? k = s.acc? k := by rw [State.acc?, h.accs, State.acc?]
  simp only [acc] at others
  rw [now]
  refine ⟨written'.of_mem h.mem rfl, cells.trans ?_, dir.trans ?_, others, own.trans ?_⟩
  · rw [rest]
    exact h.cells
  · rw [rest]
  · rw [Access.performed, modifyAt_part part]

/-- R289, R291: a future form is performed. -/
theorem atomicNow_future (kind : a.op = .freg ∨ a.op = .fres) :
    let u := (t.atomicNow a i p).mergeAll
    let r := futureStep (a.op == .freg) (memNat s.mem p.pa p.size) p.word
    WrittenAt s u p.pa (match r.1 with | some v => leBytes 8 v | none => []) ∧ u.cells = s.cells ∧ u.dir = t.dir ∧
    (r.2.1 = none → u.arrivals = s.arrivals) ∧
    (∀ j, r.2.1 = some j → ∃ y, u.arrivals = s.arrivals ++ [y] ∧ y.va = j % 2 ^ 64 ∧ y.source = a.id ∧ y.lane = p.lane ∧
      y.launch = (s.cell a.cell).launchUid) ∧
    u.acc? a.id = some { a with
      parts := a.parts.set i { p with st := .done, bound := (match r.2.2 with | some c => [c] | none => []), since := s.time } } := by
  intro u r
  obtain ⟨w, ⟨written, rest⟩, performed⟩ := performAtomic_future (p := p) h.found h.sound kind i (leNat p.data)
  rw [h.mem] at written performed
  rw [h.time] at performed
  have wide : a.narrow = false := by rcases kind with kind | kind <;> simp [Access.narrow, kind]
  have pass : t.passEarlier a = t := if_pos (by rw [wide]; rfl)
  obtain ⟨w', sent⟩ : ∃ w', w' = (match r.2.1 with | some j => w.sendArrival a p.lane j | none => w) := ⟨_, rfl⟩
  obtain ⟨f, update⟩ : ∃ f, f = Access.withParts fun ps => modifyAt ps i fun q =>
      { q with st := .done, bound := (match r.2.2 with | some c => [c] | none => []), since := s.time } := ⟨_, rfl⟩
  have now : u = (w'.setAcc a.id f).mergeAll := by
    have step : w'.setAcc a.id f = t.performAtomic a i p (leNat p.data) := by
      rw [sent, update, performed]
      rfl
    simp only [u, State.atomicNow, h.unmerged, step]
  have still : w'.mem = w.mem ∧ w'.cells = w.cells ∧ w'.dir = w.dir ∧ w'.accs = w.accs := by
    rw [sent]
    cases r.2.1 <;> exact ⟨rfl, rfl, rfl, rfl⟩
  obtain ⟨mem', cells', dir', accs'⟩ := still
  have pages : KeepsPages f := update ▸ keepsPages_of_part (by exact fun _ => rfl) (by exact fun _ => rfl) (by exact fun _ => rfl)
  obtain ⟨written', cells, dir, arrivals, -, -, own⟩ := performed_leaves (f := f) (w := w') h.found h.plain (by rw [update]; exact fun _ => rfl)
    (by rw [update]; exact fun _ => rfl) pages (written.of_mem rfl mem') (by rw [accs', rest, pass])
  rw [now]
  refine ⟨written'.of_mem h.mem rfl, cells.trans ?_, dir.trans ?_, fun none => arrivals.trans ?_, fun j some => ?_, (own wide).trans ?_⟩
  · rw [cells', rest]
    exact h.cells
  · rw [dir', rest]
  · rw [sent, none, rest]
    exact h.arrivals
  · have cell : w.cell a.cell = s.cell a.cell := by
      rw [State.cell, rest, State.cell, h.cells]
    have before : w.arrivals = s.arrivals := by
      rw [rest]
      exact h.arrivals
    rw [arrivals, sent, some, ← before, ← cell]
    exact ⟨_, rfl, rfl, rfl, rfl, rfl⟩
  · rw [update, Access.withParts, modifyAt_part part]

end

/-- R96, R118, R139, R141, R144, R289, R291: atomics and future forms at home. -/
theorem atomicsAtHome : AtomicsAtHome := by
  intro s id i a p pl ls found part ready unmerged sound pages page touched room
  obtain rfl := id_of_acc found
  have home : ReadyAtHome s i a p := ⟨found, part, ready, unmerged, unmanaged_of_leaf page⟩
  have plain := plainReductions_of_pages pages
  have served := home.served sound plain (servedFor_serves sound touched room a)
  have owns := servedFor_owns sound touched room a
  refine ⟨home.exec_recalls, fun op free kind => ⟨_, home.exec_performs free, ?_⟩, fun free kind => ⟨_, home.exec_performs free, ?_⟩⟩
  · obtain ⟨written, cells, dir, others, own⟩ := atomicNow_atomic served part kind
    exact ⟨written, cells, fun cached here new => dir.trans (owns cached here new), others, own⟩
  · obtain ⟨written, cells, dir, still, sent, own⟩ := atomicNow_future served part kind
    exact ⟨written, cells, fun cached here new => dir.trans (owns cached here new), still, sent, own⟩

end Sys2Proof.Machine
end


section
/-! # Arrivals at a join record (O47, R292) -/

namespace Sys2Proof.Machine
open Sys2Proof

/-! Bytes that a write leaves as they are. -/

theorem eq_zero_of_leNat {bs : List Nat} (h : leNat bs = 0) : ∀ b ∈ bs, b % 256 = 0 := by
  induction bs with
  | nil => simp
  | cons b bs ih =>
    rw [leNat] at h
    rintro x (_ | ⟨_, hx⟩)
    · omega
    · exact ih (by omega) x hx

theorem memRead_of_memNat_zero {m : List Host.Cell} {pa n : Nat} (h : memNat m pa n = 0) {i : Nat} (hi : i < n) : memRead m (pa + i) = 0 := by
  have small := memRead_lt m (pa + i)
  have zero := eq_zero_of_leNat h (memRead m (pa + i)) (List.mem_map.2 ⟨i, List.mem_range.2 hi, rfl⟩)
  omega

/-- Bytes in front of a write that hold their values already. -/
theorem WrittenAt.prepend {s u : State} {pa : Nat} {as bs : List Nat} (h : WrittenAt s u (pa + as.length) bs)
    (hold : ∀ i, i < as.length → memRead s.mem (pa + i) = as.getD i 0 % 256) : WrittenAt s u pa (as ++ bs) := by
  intro x
  have wrote := h x
  rw [List.length_append]
  by_cases front : pa ≤ x ∧ x < pa + as.length
  · have here := hold (x - pa) (by omega)
    rw [show pa + (x - pa) = x by omega] at here
    rw [if_neg (by omega)] at wrote
    rw [wrote, if_pos (by omega), List.getD_append _ _ _ _ (by omega), here]
  · rw [wrote]
    refine if_ctx_congr (by omega) (fun behind => ?_) fun _ => rfl
    rw [List.getD_append_right _ _ _ _ (by omega), show x - pa - as.length = x - (pa + as.length) by omega]

/-! The event. -/

/-- An arrival that nothing holds up: its join record is mapped and aligned, its line is free, and nobody holds a copy of it. -/
structure AtRecord (s : State) (r : Arrival) (pa leaf page : Nat) : Prop where
  found : s.arrivals.find? (fun x => x.id == r.id && x.paused.isNone) = some r
  aligned : r.va % 16 = 0
  mapped : s.translateFor r.cell r.asid .future r.va = (.ok pa leaf page, s)
  coherent : leafSm leaf = false
  unlocked : s.locked pa = false
  unrecalled : s.recalling pa = false
  turn : s.inTurn (lineOf pa) (s.requesterNo r.cell) = true
  free : s.uncopied (lineOf pa) 128
  sound : s.sound
  room : leafCp leaf = 0 → s.dir.length < 16

namespace AtRecord
variable {s : State} {r : Arrival} {pa leaf page : Nat} (h : AtRecord s r pa leaf page)
include h

theorem exec_arrives {u : State} (arrives : (s.reached r.cell pa leaf).arrive r.launch pa = some u) :
    exec (.futureArrive r.id) s = .next { u with arrivals := u.arrivals.filter (·.id != r.id) } := by
  have none := conflicts_of_uncopied h.free true Option.none
  have waits : s.pullWaits (lineOf pa) true Option.none = false := by rw [State.pullWaits, none]; rfl
  have bad : s.pullBad (lineOf pa) true Option.none = Option.none := by rw [State.pullBad, none]; rfl
  have still : s.pull (lineOf pa) true Option.none = s := by rw [State.pull, none]; rfl
  have plain : leafManaged leaf = false := by rw [leafManaged, h.coherent]; rfl
  have line : s.busyLine pa = false := by rw [State.busyLine, h.unlocked, h.unrecalled]; rfl
  have good := (spoiled_of_sound ((reached_serves h.room r.cell pa).sound h.sound) pa 16).1
  simp only [State.reached] at good arrives
  change execFutureArrive r.id s = _
  simp only [execFutureArrive, h.found, h.mapped, h.aligned, plain, line, waits, h.turn, bad, still, correctAt_of_sound h.sound, good, arrives,
    bne_self_eq_false, Bool.false_eq_true, Bool.not_true, Bool.not_false, Bool.and_false, Bool.and_true, Bool.or_self, if_false, decide_eq_true_eq]

end AtRecord

/-! The update of the record. -/

section
variable {s : State} {launch pa : Nat}

/-- One arrival more than the record counts marks an overrun. -/
theorem arrive_overrun (count : memNat s.mem pa 4 = 0) :
    s.arrive launch pa = some (s.homeWrite (pa + 4) (leBytes 4 (memNat s.mem (pa + 4) 4 ||| 2))) := by
  simp only [State.arrive, count, if_true]
  rfl

theorem arrive_counts (more : memNat s.mem pa 4 ≠ 0) (notLast : memNat s.mem pa 4 ≠ 1) :
    s.arrive launch pa = some (s.homeWrite pa (leBytes 4 (memNat s.mem pa 4 - 1))) := by
  simp only [State.arrive, if_neg more, if_neg notLast]

/-- A launch with one more tail launch in its graph. -/
def Launch.withTail (id block : Nat) (l : Launch) : Launch := { l with tail := l.tail ++ [(id, block)] }

/-- The last arrival marks the record and gives its tail launch to the graph (R290, R292). -/
theorem arrive_last {n : Launch} (count : memNat s.mem pa 4 = 1) (known : s.launch? launch = some n) (tail : n.tail.length < 256) :
    s.arrive launch pa = some (({ s.homeWrite pa (leBytes 4 0 ++ leBytes 4 (memNat s.mem (pa + 4) 4 ||| 1)) with nextId := s.nextId + 1 } : State).setLaunch
      launch (Launch.withTail s.nextId (memNat s.mem (pa + 8) 8))) := by
  have known' (bs : List Nat) : (s.homeWrite pa bs).launch? launch = some n := known
  simp only [State.arrive, count, Nat.one_ne_zero, if_false, if_true, State.addTail, known', if_pos tail]
  rfl

end

theorem launch?_setLaunch {s : State} {uid : Nat} {n : Launch} {f : Launch → Launch} (keeps : ∀ l, (f l).uid = l.uid) (known : s.launch? uid = some n) :
    (s.setLaunch uid f).launch? uid = some (f n) :=
  find_updateWhere_self (p := fun l : Launch => l.uid == uid) (fun l => by rw [keeps]) known

/-- R290, R292: an arrival at its join record. -/
theorem arrivals : Arrivals := by
  intro s r pa leaf page found aligned _ mapped coherent unlocked unrecalled turn _ free sound room
  have h : AtRecord s r pa leaf page := ⟨found, aligned, mapped, coherent, unlocked, unrecalled, turn, free, sound, room⟩
  have serves := reached_serves room r.cell pa
  have ran (u : State) := h.exec_arrives (u := u)
  generalize s.reached r.cell pa leaf = t at serves ran
  have mem : t.mem = s.mem := by rw [serves]
  have kept : t.arrivals = s.arrivals ∧ t.launches = s.launches ∧ t.cells = s.cells ∧ t.nextId = s.nextId := by
    rw [serves]
    exact ⟨rfl, rfl, rfl, rfl⟩
  obtain ⟨arrivals, launches, cells, nextId⟩ := kept
  rw [← mem]
  refine ⟨fun notLast => ?_, fun n last known tail => ?_⟩
  · by_cases overrun : memNat t.mem pa 4 = 0
    · have written := written_homeWrite t (pa + 4) (leBytes 4 (memNat t.mem (pa + 4) 4 ||| 2))
      refine ⟨_, ran _ (arrive_overrun overrun), ?_, congrArg _ arrivals, launches, cells⟩
      rw [if_pos overrun]
      refine WrittenAt.of_mem (WrittenAt.prepend written fun i hi => ?_) mem rfl
      rw [length_leBytes] at hi
      rw [memRead_of_memNat_zero overrun hi, getD_leBytes 0 hi, Nat.zero_div]
    · have written := written_homeWrite t pa (leBytes 4 (memNat t.mem pa 4 - 1))
      refine ⟨_, ran _ (arrive_counts overrun notLast), ?_, congrArg _ arrivals, launches, cells⟩
      rw [if_neg overrun]
      exact written.of_mem mem rfl
  · have written := written_homeWrite t pa (leBytes 4 0 ++ leBytes 4 (memNat t.mem (pa + 4) 4 ||| 1))
    have known' : t.launch? r.launch = some n := by rw [State.launch?, launches]; exact known
    refine ⟨_, ran _ (arrive_last last known' tail), written.of_mem mem rfl, congrArg _ arrivals, ?_, cells⟩
    rw [← nextId]
    exact launch?_setLaunch (by exact fun _ => rfl) known'

/-- Settles O47: atomics and future forms at home, merge buffers, wakings and arrivals, part by part. -/
theorem atomicEvents : Obligations.AtomicEvents := ⟨atomicsAtHome, mergeForwards, wakings, arrivals⟩

end Sys2Proof.Machine
end
